-- ==== Sys2Proof/Word.lean ====
section
/-! DEFINITION. The words of the X9: bytes, 32-bit words, 64-bit control words, the 128-bit instruction word. -/

namespace Sys2Proof

/-- A byte of memory, the smallest addressable unit (R46, R233). -/
abbrev Byte := BitVec 8

/-- A 32-bit word: uniform registers, predicates' masks, code addresses (R52, R313). -/
abbrev Word := BitVec 32

/-- A 64-bit control-space word or capability half (R377). -/
abbrev Word64 := BitVec 64

/-- An instruction word, 64-bit and 96-bit forms with the bits above their length zero (R66, R69, R78). -/
abbrev IWord := BitVec 128

end Sys2Proof
end

