-- ==== Sys2Proof/Config.lean ====
section
/-! DEFINITION. What an implementation fixes, and the free values: constants with no body, so no proof can see them. -/

namespace Sys2Proof.Config

/-- The device's stepping is B1, not A0 (R92). Never changes (R288). -/
opaque stepIsB1 : Bool

/-- The per-slice choice inside a lookahead window (R81): at use n of the machine's counter, slice i takes the new
value. Free (log 2). -/
opaque windowPick (n slice : Nat) : Bool

/-- The bytes a retired task did not write in its write tiles, and fresh rename storage (R209). Free (log 10). -/
opaque freeByte (n : Nat) (a : Nat) : BitVec 8

/-- The pool offset that the i-th renamed tile of a task takes at use n of the machine's counter, if the device names one;
R209 states no rule of placement. Free (log 10). -/
opaque poolOffset (n i : Nat) : Option Nat

/-- The one fixed .f32 function behind FSFN ops 0-4 (R124, R342): a candidate result, used where it is within the
bound of R343. Free (log 9). -/
opaque sfnCandidate (op : Nat) (x : BitVec 32) : BitVec 32

/-- Kind and level in the recorded fault word of an engine operation that the world rule or a dead circuit refuses (R260,
R266, R280), at use n of the machine's counter. Free (log 25). -/
opaque openFault (n : Nat) : BitVec 6

/-- Whether a page-counter cache evicts the counter of page `old` when page `new` enters it, at use n of the machine's counter (R180).
Free (log 46). -/
opaque pageEvicts (n new old : Nat) : Bool

/-- The signature of an attestation report over its bytes (R282). Free (log 11). -/
opaque attestSign (report : List (BitVec 8)) : List (BitVec 8)

/-- The digest of a loaded firmware image, by its index and version (R282). Free (log 11). -/
opaque firmwareDigest (image version : Nat) : List (BitVec 8)

/-- States short of its start that an island's raise has reached when the limiter ends it, at use n of the machine's counter (R286).
Free (log 12). -/
opaque raiseReached (n island : Nat) : Nat

/-- The fused counter that a firmware image's security version must reach (R281). -/
opaque fusedVersion : Nat

/-- What a context save record needs beyond one 64 KiB unit of its pool (R261, log 27). -/
opaque saveExtra : Nat

/-- The package sealing key's mask of the byte at a region offset: a sealed byte is the byte under exclusive or with it
(R289, log 13). -/
opaque sealPad (offset : Nat) : BitVec 8

/-- Whether a fetch of a block that a store has changed since it was fetched last returns the new byte, by use n of the
machine's counter and physical address (R264). Free (log 28). -/
opaque fetchNew (n address : Nat) : Bool

/-- Beats of an instruction for which an older Quay entry stays open to it (R173, R291), by use n of the machine's counter and the
entry's name. Free (log 12). -/
opaque quayLeft (n entry : Nat) : Nat

end Sys2Proof.Config
end

