-- ==== Sys2Proof/Syntax.lean ====
section
/-! DEFINITION. The syntax: operand forms, type codes, sub-codes, and the one inductive of instructions and events,
one constructor for each row of spec/opcode_table.json. -/

namespace Sys2Proof

/-- The guard of R54 and R70: predicate number and negation; p7 not negated is the unguarded form. -/
structure Guard where
  neg : Bool
  p : BitVec 3
  deriving DecidableEq, Repr

/-- The unguarded form, PRED 0b0111 (R69). -/
def Guard.always : Guard := ⟨false, 7#3⟩

/-- Register operand widths, width codes 0b000 to 0b101 (R71). -/
inductive Width where
  | w4 | w8 | w16 | w32 | w64 | w128
  deriving DecidableEq, Repr

/-- A 12-bit operand field (R71): a register by start slice and width, a uniform register, or an inline immediate. -/
inductive Opnd where
  | reg (w : Width) (s : BitVec 9)
  | uni (k : BitVec 7)
  | imm (v : BitVec 9)
  deriving DecidableEq, Repr

/-- A predicate as a source operand (R91). -/
structure PSrc where
  neg : Bool
  p : BitVec 3
  deriving DecidableEq, Repr

/-- TYPE codes 0x00 to 0x1F, in order (R72). -/
inductive Ty where
  | none | f64 | f32 | bf16 | f16 | e4m3 | e5m2 | d8
  | i64 | i32 | i16 | i8 | i4
  | n64 | n32 | n16 | n8 | n4
  | b64 | b32 | b16 | b8
  | bf16x2 | f16x2 | i16x2 | n16x2
  | e4m3x4 | e5m2x4 | i8x4 | n8x4
  | i4x8 | n4x8
  deriving DecidableEq, Repr

/-- Swizzles of a packed source (R75). -/
inductive Swz where
  | id | rev | swp | bc0 | bc1 | bc2 | bc3
  deriving DecidableEq, Repr

/-- The control part of the X shape, bits 90..76 (R74): indexed positions, index register, swizzles. -/
structure XCtl where
  ixD : Bool
  ix1 : Bool
  ix2 : Bool
  ix3 : Bool
  ixr : BitVec 2
  sw3 : Swz
  sw2 : Swz
  sw1 : Swz
  deriving DecidableEq, Repr

/-- No indexed position and no swizzle. -/
def XCtl.plain : XCtl := ⟨false, false, false, false, 0#2, .id, .id, .id⟩

/-- Rounding codes 0b000 to 0b100 (R73). -/
inductive Rnd where
  | fctl | rn | rz | ru | rd
  deriving DecidableEq, Repr

/-- Flush codes 0b00 to 0b10 (R73). -/
inductive Flush where
  | fctl | ftz | noftz
  deriving DecidableEq, Repr

/-- The floating-point modes of MOD (R73). -/
structure FMode where
  rnd : Rnd
  flush : Flush
  deriving DecidableEq, Repr

/-- Multiplication results: wrapped low half, saturated, or the high half (R344). -/
inductive MulMod where
  | lo | sat | hi
  deriving DecidableEq, Repr

/-- Integer comparisons of ISET and WAITC (R106). -/
inductive Cmp where
  | eq | ne | lt | le | gt | ge
  deriving DecidableEq, Repr

/-- Floating comparisons of FSET (R106). -/
inductive FCmp where
  | eq | ne | lt | le | gt | ge | num | nan
  deriving DecidableEq, Repr

/-- Reduction operators of REDW and RED (R106). -/
inductive RedOp where
  | add | min | max | and | or | xor
  deriving DecidableEq, Repr

/-- Operators of ATOM: those of RED and .xchg (R106). -/
inductive AtomOp where
  | red (op : RedOp)
  | xchg
  deriving DecidableEq, Repr

/-- SHFL modes (R106). -/
inductive ShflOp where
  | idx | up | down | xor
  deriving DecidableEq, Repr

/-- VOTE modes (R106). -/
inductive VoteOp where
  | all | any | uni
  deriving DecidableEq, Repr

/-- Special functions of FSFN (R106). -/
inductive SfnOp where
  | sin | cos | ex2 | lg2 | tanh | sqrt
  deriving DecidableEq, Repr

/-- Scopes (R106, R230). -/
inductive Scope where
  | thread | warp | team | convoy | die | package | system
  deriving DecidableEq, Repr

/-- FENCE kinds (R106, R243). -/
inductive FenceKind where
  | ar | acq | rls
  deriving DecidableEq, Repr

/-- MSPA patterns (R139). -/
inductive SparsePat where
  | s24 | s14 | s48 | s28
  deriving DecidableEq, Repr

/-- MDRN modes (R106, R146). -/
inductive DrainOp where
  | reg | st | add
  deriving DecidableEq, Repr

/-- VDSET predicates (R151). -/
inductive VerdictOp where
  | sign | ge | le | gt | topk
  deriving DecidableEq, Repr

/-- CAPQ fields (R327). -/
inductive CapField where
  | base | len | perm | otype | fmt | tag
  deriving DecidableEq, Repr

/-- TOPK reads (R160). -/
inductive TopkOp where
  | val | idx | cnt | full
  deriving DecidableEq, Repr

/-- COPY directions (R188). -/
inductive CopyDir where
  | gl | lg | gr | gx
  deriving DecidableEq, Repr

/-- Spaces of an SRD or SWR immediate (R375). -/
inductive Space where
  | special | die | package
  deriving DecidableEq, Repr

/-- The register or word an SRD or SWR names (R375). -/
structure WordRef where
  space : Space
  die : BitVec 4
  num : BitVec 16
  deriving DecidableEq, Repr

/-- The upper fields of MMA and MSPA (R134). -/
structure MmaUp where
  ver : BitVec 16
  tile : BitVec 5
  bm : BitVec 8
  boff : BitVec 16
  half : Bool
  scl : Bool
  ftz : Bool
  astr : BitVec 9
  npm : BitVec 6
  asrc : Bool
  deriving DecidableEq, Repr

/-- The upper fields of MLOOP (R134): BINC stands in place of NPM and ASRC. -/
structure MloopUp where
  ver : BitVec 16
  tile : BitVec 5
  bm : BitVec 8
  boff : BitVec 16
  half : Bool
  scl : Bool
  ftz : Bool
  astr : BitVec 9
  binc : BitVec 7
  deriving DecidableEq, Repr

/-- The upper fields of MDRN (R146). -/
structure MdrnUp where
  ver : BitVec 16
  tile : BitVec 5
  bm : BitVec 8
  npm : BitVec 6
  tgt : Bool
  rstr : BitVec 16
  pt : BitVec 5
  deriving DecidableEq, Repr

/-- The upper fields of VDSET (R151). -/
structure VdsetUp where
  ver : BitVec 16
  tile : BitVec 5
  nbm : BitVec 16
  km : BitVec 7
  ks : BitVec 15
  deriving DecidableEq, Repr

/-- A leaf of a warp of a team: the model's names of team and leaf, and the warp index (R24, R32). -/
structure LeafRef where
  team : Nat
  warp : Nat
  leaf : Nat
  deriving DecidableEq, Repr

/-- A role directive (R61). -/
structure RolePlan where
  role : Nat
  first : Nat
  last : Nat
  give : Nat
  claim : Nat
  deriving DecidableEq, Repr

/-- A condition of a bucket line: k<i> at most max (R87). -/
structure BucketCond where
  k : Nat
  max : Nat
  deriving DecidableEq, Repr

/-- A bucket line: the entry it supplies (spine index) and its conditions (R87, R223). -/
structure BucketLine where
  entry : Nat
  conds : List BucketCond
  deriving DecidableEq, Repr

/-- An entry of an image: its code offset and shape directives (R87, R88, R274). -/
structure FolioEntry where
  code : Nat
  regs : Nat
  roles : List RolePlan
  args : Nat
  team : Nat
  convoy : Option Nat
  lstore : Nat
  buckets : List BucketLine
  deriving DecidableEq, Repr

/-- An image of a folio (R270): required features, level, stepping code, code bytes, entries. -/
structure FolioImage where
  req : Word64
  lvl : Nat
  step : Nat
  code : List Byte
  entries : List FolioEntry
  deriving DecidableEq, Repr

/-- A load request for a folio file (R268, R273): the file's bytes; by image, the entries that its shape, argument-layout,
role-plan and bucket quires hold, and the translation of its portable quire, where it has one (R275, R276), all given parsed, as the spec does
not lay those quires out (log 15); the world and address space of the request; where the loader places the code, the spine and
each other quire; the physical addresses of the leaf entries of the code pages; where it leaves the folio handle. -/
structure FolioFile where
  bytes : List Byte
  entries : List (List FolioEntry)
  portable : FolioImage
  world : Bool
  asid : Nat
  codeVA : Nat
  codePA : Nat
  spineVA : Nat
  spinePA : Nat
  others : List Nat
  leaves : List Nat
  handlePA : Option Nat
  deriving DecidableEq, Repr

/-- Who writes a control-space word from outside the lanes (R5, R265). -/
inductive WordWriter where
  | host | igtahild
  deriving DecidableEq, Repr

/-- A message of another package (R191). -/
structure InMessage where
  circuit : Nat
  tag : Word
  pkg : BitVec 20
  payload : List Byte
  deriving DecidableEq, Repr

/-- The instructions and events of the X9, one constructor for each row of spec/opcode_table.json, in its order.
The instructions carry their decoded fields; an event carries the names of what it acts on. -/
inductive Instr where
  -- Integer, logic and warp-wide (R93, R94)
  | iadd (g : Guard) (t : Ty) (sat : Bool) (d a b : Opnd)
  | iaddX (g : Guard) (t : Ty) (sat : Bool) (d a b : Opnd) (x : XCtl)
  | iaddI (g : Guard) (t : Ty) (sat : Bool) (d a : Opnd) (imm : Word)
  | isub (g : Guard) (t : Ty) (sat : Bool) (d a b : Opnd)
  | isubX (g : Guard) (t : Ty) (sat : Bool) (d a b : Opnd) (x : XCtl)
  | imul (g : Guard) (t : Ty) (m : MulMod) (d a b : Opnd)
  | imulX (g : Guard) (t : Ty) (m : MulMod) (d a b : Opnd) (x : XCtl)
  | imulI (g : Guard) (t : Ty) (m : MulMod) (d a : Opnd) (imm : Word)
  | idiv (g : Guard) (t : Ty) (sat rem : Bool) (d a b : Opnd)
  | imin (g : Guard) (t : Ty) (sat : Bool) (d a b : Opnd)
  | iminX (g : Guard) (t : Ty) (sat : Bool) (d a b : Opnd) (x : XCtl)
  | imax (g : Guard) (t : Ty) (sat : Bool) (d a b : Opnd)
  | imaxX (g : Guard) (t : Ty) (sat : Bool) (d a b : Opnd) (x : XCtl)
  | iabs (g : Guard) (t : Ty) (sat : Bool) (d a : Opnd)
  | imad (g : Guard) (t : Ty) (sat : Bool) (d a b c : Opnd) (x : XCtl)
  | iset (g : Guard) (t : Ty) (op : Cmp) (p : BitVec 3) (a b : Opnd)
  | isetI (g : Guard) (t : Ty) (op : Cmp) (p : BitVec 3) (a : Opnd) (imm : Word)
  | and (g : Guard) (t : Ty) (d a b : Opnd)
  | andX (g : Guard) (t : Ty) (d a b : Opnd) (x : XCtl)
  | andI (g : Guard) (t : Ty) (d a : Opnd) (imm : Word)
  | andn (g : Guard) (t : Ty) (d a b : Opnd)
  | or (g : Guard) (t : Ty) (d a b : Opnd)
  | orX (g : Guard) (t : Ty) (d a b : Opnd) (x : XCtl)
  | orI (g : Guard) (t : Ty) (d a : Opnd) (imm : Word)
  | xor (g : Guard) (t : Ty) (d a b : Opnd)
  | xorX (g : Guard) (t : Ty) (d a b : Opnd) (x : XCtl)
  | xorI (g : Guard) (t : Ty) (d a : Opnd) (imm : Word)
  | shl (g : Guard) (t : Ty) (d a b : Opnd)
  | shr (g : Guard) (t : Ty) (d a b : Opnd)
  | sha (g : Guard) (t : Ty) (d a b : Opnd)
  | rot (g : Guard) (t : Ty) (d a b : Opnd)
  | popc (g : Guard) (t : Ty) (d a : Opnd)
  | clz (g : Guard) (t : Ty) (d a : Opnd)
  | brev (g : Guard) (t : Ty) (d a : Opnd)
  | bfx (g : Guard) (t : Ty) (d a b : Opnd)
  | bfi (g : Guard) (t : Ty) (d a b c : Opnd) (x : XCtl)
  | mov (g : Guard) (t : Ty) (sat : Bool) (d a : Opnd)
  | movX (g : Guard) (t : Ty) (sat : Bool) (d a : Opnd) (x : XCtl)
  | movi (g : Guard) (t : Ty) (sat : Bool) (d : Opnd) (imm : Word)
  | movxRead (g : Guard) (j : BitVec 2) (d : Opnd)
  | movxWrite (g : Guard) (j : BitVec 2) (a : Opnd)
  | shfl (g : Guard) (t : Ty) (op : ShflOp) (d a b : Opnd)
  | vote (g : Guard) (op : VoteOp) (p : BitVec 3) (q : PSrc)
  | ballot (g : Guard) (d : Opnd) (q : PSrc)
  | redw (g : Guard) (t : Ty) (op : RedOp) (d a : Opnd)
  | sel (g : Guard) (t : Ty) (q : PSrc) (d a b : Opnd)
  | selX (g : Guard) (t : Ty) (q : PSrc) (d a b : Opnd) (x : XCtl)
  -- Floating point (R95, R96)
  | fadd (g : Guard) (t : Ty) (m : FMode) (d a b : Opnd)
  | faddX (g : Guard) (t : Ty) (m : FMode) (d a b : Opnd) (x : XCtl)
  | faddI (g : Guard) (t : Ty) (m : FMode) (d a : Opnd) (imm : Word)
  | fsub (g : Guard) (t : Ty) (m : FMode) (d a b : Opnd)
  | fsubX (g : Guard) (t : Ty) (m : FMode) (d a b : Opnd) (x : XCtl)
  | fmul (g : Guard) (t : Ty) (m : FMode) (d a b : Opnd)
  | fmulX (g : Guard) (t : Ty) (m : FMode) (d a b : Opnd) (x : XCtl)
  | fmulI (g : Guard) (t : Ty) (m : FMode) (d a : Opnd) (imm : Word)
  | ffma (g : Guard) (t : Ty) (m : FMode) (d a b c : Opnd) (x : XCtl)
  | fmin (g : Guard) (t : Ty) (fl : Flush) (d a b : Opnd)
  | fminX (g : Guard) (t : Ty) (fl : Flush) (d a b : Opnd) (x : XCtl)
  | fmax (g : Guard) (t : Ty) (fl : Flush) (d a b : Opnd)
  | fmaxX (g : Guard) (t : Ty) (fl : Flush) (d a b : Opnd) (x : XCtl)
  | frcp (g : Guard) (la : BitVec 4) (t : Ty) (m : FMode) (d a : Opnd)
  | frsq (g : Guard) (la : BitVec 4) (t : Ty) (m : FMode) (d a : Opnd)
  | fsfn (g : Guard) (la : BitVec 4) (t : Ty) (op : SfnOp) (fl : Flush) (d a : Opnd)
  | fset (g : Guard) (t : Ty) (op : FCmp) (ftz : Bool) (p : BitVec 3) (a b : Opnd)
  | fsetX (g : Guard) (t : Ty) (op : FCmp) (ftz : Bool) (p : BitVec 3) (a b : Opnd) (x : XCtl)
  | fsetI (g : Guard) (t : Ty) (op : FCmp) (ftz : Bool) (p : BitVec 3) (a : Opnd) (imm : Word)
  | fcls (g : Guard) (t : Ty) (d a : Opnd)
  | frnd (g : Guard) (t : Ty) (m : FMode) (d a : Opnd)
  -- Conversion and packing (R97)
  | fcvt (g : Guard) (dest frm : Ty) (m : FMode) (sat : Bool) (d a : Opnd)
  | fcvtX (g : Guard) (dest frm : Ty) (m : FMode) (sat : Bool) (d a : Opnd) (x : XCtl)
  | cvti (g : Guard) (dest frm : Ty) (sat : Bool) (d a : Opnd)
  | cvtiX (g : Guard) (dest frm : Ty) (sat : Bool) (d a : Opnd) (x : XCtl)
  | pack (g : Guard) (t : Ty) (md : BitVec 5) (d a b : Opnd)
  | packX (g : Guard) (t : Ty) (md : BitVec 5) (d a b : Opnd) (x : XCtl)
  | unpk (g : Guard) (t : Ty) (hi : Bool) (d a : Opnd)
  | unpkX (g : Guard) (t : Ty) (hi : Bool) (d a : Opnd) (x : XCtl)
  -- Memory and atomics (R98)
  | ld (g : Guard) (la : BitVec 4) (t : Ty) (d c o : Opnd)
  | ldI (g : Guard) (la : BitVec 4) (t : Ty) (d c : Opnd) (imm : Word)
  | st (g : Guard) (la : BitVec 4) (t : Ty) (c o a : Opnd)
  | stI (g : Guard) (la : BitVec 4) (t : Ty) (c a : Opnd) (imm : Word)
  | lds (g : Guard) (la : BitVec 4) (t : Ty) (d o : Opnd)
  | ldsI (g : Guard) (la : BitVec 4) (t : Ty) (d : Opnd) (imm : Word)
  | sts (g : Guard) (la : BitVec 4) (t : Ty) (o a : Opnd)
  | stsI (g : Guard) (la : BitVec 4) (t : Ty) (a : Opnd) (imm : Word)
  | pref (g : Guard) (la : BitVec 4) (l2 : Bool) (c o : Opnd)
  | atom (g : Guard) (la : BitVec 4) (t : Ty) (op : AtomOp) (d c o a : Opnd) (x : XCtl)
  | cas (g : Guard) (la : BitVec 4) (t : Ty) (d c o b : Opnd)
  | red (g : Guard) (la : BitVec 4) (t : Ty) (op : RedOp) (c o a : Opnd) (x : XCtl)
  -- Capabilities and register management (R99)
  | capn (g : Guard) (mask : BitVec 5) (d c a b : Opnd)
  | capq (g : Guard) (op : CapField) (d c : Opnd)
  | caps (g : Guard) (d c a : Opnd)
  | give (k : Opnd)
  | claim (k : Opnd)
  | rgn (s0 s1 s2 s3 : Opnd)
  | srd (g : Guard) (d : Opnd) (w : WordRef)
  | swr (g : Guard) (a : Opnd) (w : WordRef)
  -- Control (R100)
  | bra (g : Guard) (target join : Word)
  | brx (g : Guard) (a : Opnd) (join : Word)
  | call (g : Guard) (d : Opnd) (target : Word)
  | ret (g : Guard) (a : Opnd)
  | exit (g : Guard)
  | nop (g : Guard)
  | nopLong (g : Guard)
  | yield (g : Guard)
  | plop (g : Guard) (tt : BitVec 4) (p : BitVec 3) (q q2 : PSrc)
  -- Synchronisation (R101)
  | fence (g : Guard) (kind : FenceKind) (sc : Scope)
  | acq (g : Guard) (sc : Scope) (a : Opnd)
  | rel (g : Guard) (sc : Scope) (a : Opnd)
  | bind (g : Guard) (c a : Opnd)
  | unbind (g : Guard) (c : Opnd)
  | waitc (g : Guard) (t : Ty) (op : Cmp) (c o a : Opnd) (x : XCtl)
  | rvinit (g : Guard) (n a : Opnd)
  | rvarr (g : Guard) (n : Opnd)
  | rvexp (g : Guard) (n a : Opnd)
  | rvwaitPlain (g : Guard) (n : Opnd)
  | rvwaitTimed (g : Guard) (n a : Opnd) (p : BitVec 3) (x : XCtl)
  | rvinv (g : Guard) (n : Opnd)
  | rinit (g : Guard) (o n z : Opnd)
  | rwait (g : Guard) (d o : Opnd)
  | rrel (g : Guard) (o : Opnd)
  | cpwait (g : Guard) (k : Opnd)
  -- Copies, tasks, queues and launches (R103)
  | copy (g : Guard) (la : BitVec 4) (dir : CopyDir) (dest frm o : Opnd) (lenm : BitVec 16) (pt : BitVec 5)
      (nwm : BitVec 6) (soff : BitVec 12)
  | copym (g : Guard) (la : BitVec 4) (sk : Bool) (dest frm : Opnd) (o : Option Opnd) (lenm : BitVec 16) (pt : BitVec 5)
      (mask : BitVec 16)
  | task (g : Guard) (c o : Opnd)
  | krel (g : Guard) (a : Opnd)
  | qpush (g : Guard) (q c : Opnd)
  | qpop (g : Guard) (c q : Opnd)
  | lnch (g : Guard) (d c a rec : Opnd)
  | cncl (g : Guard) (a : Opnd)
  | cwait (g : Guard) (d a : Opnd)
  -- Matrix and verdict (R104)
  | mma (g : Guard) (la : BitVec 4) (t : Ty) (a : Opnd) (ks : Option (BitVec 7)) (u : MmaUp)
  | mspa (g : Guard) (la : BitVec 4) (t : Ty) (pat : SparsePat) (m a : Opnd) (ks : Option (BitVec 7)) (u : MmaUp)
  | mloop (g : Guard) (la : BitVec 4) (t : Ty) (n a : Opnd) (ks : Option (BitVec 7)) (u : MloopUp)
  | mldb (g : Guard) (la : BitVec 4) (t : Ty) (sk : Bool) (frm : Opnd) (o : Option Opnd) (boff lenu : BitVec 16)
      (pt : BitVec 5)
  | mlds (g : Guard) (la : BitVec 4) (sk : Bool) (rec frm : Opnd) (o : Option Opnd) (base : BitVec 16) (pt : BitVec 5)
  | mdrn (g : Guard) (la : BitVec 4) (op : DrainOp) (vd : Bool) (d dest o : Option Opnd) (u : MdrnUp)
  | mzro (g : Guard) (la : BitVec 4) (t : Ty) (tile v : Opnd)
  | tokp (g : Guard) (a : Opnd)
  | tokw (g : Guard)
  | vdset (g : Guard) (la : BitVec 4) (op : VerdictOp) (thr : Option Opnd) (kb : Opnd) (u : VdsetUp)
  | vdot (g : Guard) (la : BitVec 4) (t : Ty) (m : FMode) (d a b c : Opnd) (x : XCtl)
  | vthr (g : Guard) (la : BitVec 4) (tile a : Opnd)
  | topk (g : Guard) (la : BitVec 4) (op : TopkOp) (d tile : Opnd) (e : Option Opnd)
  -- System (R105) and every other word (R107)
  | trap (g : Guard) (k : Opnd)
  | bkpt (g : Guard)
  | sysc (g : Guard) (k : Opnd)
  | eret
  | iflush (g : Guard) (c a : Opnd)
  | unassignedOpcode (w : IWord)
  -- Events: traps, faults and escalation
  | escalationRecordPost (die : Nat)
  | erespResume (die num : Nat)
  | erespCancel (die num : Nat)
  | faultRecordPost (die : Nat)
  | frespServiced (die num : Nat)
  | frespUnrecoverable (die num : Nat)
  | asyncTrapTake (team warp : Nat)
  | eccUncorrectable (team warp : Nat) (va : BitVec 56)
  | eccCorrected (die : Nat)
  | linkFlitCheckFail (link team warp : Nat)
  -- Events: teams and lanes
  | teamAdmit (die : Nat)
  | teamRetire (team : Nat)
  | teamSwap (team : Nat)
  | teamSave (team : Nat)
  | teamResume (die : Nat) (team : Nat)
  | keyHolderDeferExpiry (team : Nat)
  | splitFill (die core lane : Nat)
  | heldSplitRelease (r : LeafRef)
  | passPromotion (r : LeafRef)
  | claimdlReport (die core : Nat)
  | rvwaitExpiry (r : LeafRef)
  | convoyNoticeArrival (convoy point : Nat)
  -- Events: copies, rings, messages
  | copyBytesLand (xfer slice off len : Nat)
  | ringSlotReserve (xfer : Nat)
  | multicastBufferDrain (die team : Nat)
  | messageAck (msg : Nat)
  | messageArrival (m : InMessage)
  | armedEntryEnable (e : Nat) (v : Word64)
  -- Events: completion, graphs, jobs
  | entryComplete (idx : Nat)
  | graphCopyNodeComplete (idx node : Nat)
  | launchQueueDoorbell (n : Nat) (v : Word64)
  | launchQueueEnable (n : Nat) (v : Word64)
  | jobStart (n : Nat)
  -- Events: keys, renaming, queues
  | keyRequestArrival (die task : Nat)
  | keyGrantArrival (die task : Nat)
  | renameStorageTake (die task : Nat)
  | copybackStart (die task tile : Nat)
  | copybackComplete (die task tile : Nat)
  | queueRefillLand (q : Nat)
  -- Events: memory
  | quayWindowClose (die core entry : Nat)
  | loadLineReturn (die core entry : Nat)
  | gatherLine (die core : Nat)
  | memoryWritePerform (w : Nat)
  | atomPerform (team warp op : Nat)
  | atomReturn (team warp op : Nat)
  | redPerform (op : Nat)
  | pageWalk (die : Nat)
  -- Events: matrix engine
  | instanceStart (die core inst : Nat)
  | instanceComplete (die core inst : Nat)
  | mloopStepStart (die core : Nat)
  -- Events: translation, migration, service rings
  | shootdownStart (v : Word64)
  | shootdownComplete
  | migrationStart (die page : Nat)
  | migrationComplete (die page : Nat)
  | serviceRingEnable (die ring : Nat) (v : Word64)
  | serviceRingPointerWrite (die ring : Nat) (v : Word64)
  -- Events: package
  | circuitSetup (c : Nat) (v : Word64)
  | circuitActive (c : Nat)
  | circuitTeardown (c : Nat)
  | circuitInactive (c : Nat)
  | pkgidWrite (v : Word64)
  | tiercfgWrite (v : Word64)
  | cxlPortTrained (port capacity : Nat) (persistent : Bool)
  | hostApertureAccess (off : Nat) (write : Option (List Byte)) (len : Nat)
  | ceilingWrite (v : Word64)
  | limiterStep (avg projected : Nat)
  | limiterRaise
  | islandRequestWrite (island : Nat) (v : Word64)
  | islandTransitionDone (island : Nat)
  | diePark (die : Nat)
  | dieUnpark (die : Nat)
  | dieDrainEnd (die : Nat)
  | dieUnparkDone (die : Nat)
  | microcodeUpdate (die version : Nat) (ecdsa lms : Bool)
  | checkpointStart
  | checkpointDone
  | restoreStart
  | restoreDone
  | coldReset (ecdsa lms current : Bool)
  | attestationRequest (nonce : List Byte)
  | registerWrite (sp : Space) (die num : Nat) (v : Word64)
  | igtahildWorldWrite (sp : Space) (die num : Nat) (v : Word64)
  | folioLoad (f : FolioFile)
  | folioUnload (num : Nat)
  | linkRetrainDone (link : Nat)
  deriving DecidableEq, Repr

end Sys2Proof
end

