-- ==== Sys2Proof/Machine/State.lean ====
section
/-! DEFINITION. The state of the X9: every piece of state the spec gives the machine, as plain data; the reasons a step
can stop; the state after reset. Records of dies, cores, teams, warps and objects stand in tables by number; a number
that a table does not list reads as the record's reset value. -/

namespace Sys2Proof.Machine

/-- A table: numbers rising, one record each. -/
abbrev Tbl (α : Type) := List (Nat × α)

/-- Bytes by address: addresses rising, no entry equal to what an unlisted address reads as, zero (log 3, 4). -/
abbrev Memory := List Host.Cell

/-! ### Threads and warps -/

/-- A lookahead window, or a pending write of one thread (R48, R81 to R84): the address of the instruction I, the
instructions it still covers, the slices that I writes, those that I has still to write, and the slices before I,
zero where invalid. `landed` once I's own write is done. -/
structure Window where
  pc : Word
  op : Nat
  left : Nat
  mask : BitVec 512
  todo : BitVec 512
  oldRegs : BitVec 2048
  landed : Bool
  deriving DecidableEq, Repr

/-- A thread (R24, R46, R50, R54, R55, R57, R113). -/
structure Thread where
  /-- The 512 slices, slice s in bits 4s+3..4s (R46). -/
  regs : BitVec 2048
  /-- Valid bits of the 256 bytes (R50). -/
  valid : BitVec 256
  /-- Tags of the 16 granules (R57). -/
  tags : BitVec 16
  /-- p0 to p6 (R54). -/
  preds : BitVec 7
  ix0 : Word
  ix1 : Word
  ix2 : Word
  ix3 : Word
  fctl : Word
  fstat : Word
  /-- The thread has exited, or never existed (R24, R33, R221). -/
  exited : Bool
  wins : List Window
  deriving DecidableEq, Repr

/-- A thread at its team's admission (R50, R54, R55, R57; slices log 5). -/
def Thread.reset : Thread :=
  ⟨0#2048, 0#256, 0#16, 0#7, 0#32, 0#32, 0#32, 0#32, 0#32, 0#32, false, []⟩

/-- What a blocked leaf waits for (R36, R42). Operands written at the wake are kept with it. -/
inductive Wait where
  /-- Not blocked. -/
  | none
  /-- CLAIM of n slices per thread (R62). -/
  | claim (n : Nat)
  /-- RVWAIT for the completion of this phase (Point.phase, log 30); timed form: cycles left and the predicate written in the
  threads of the mask (R195). -/
  | rv (point : Nat) (phase : Nat) (timed : Option (Nat × BitVec 3 × BitVec 32))
  /-- RWAIT on the ring at this header offset (R200). -/
  | ring (off : Nat) (dst : Opnd) (mask : BitVec 32)
  /-- TOKW (R145). -/
  | token
  /-- CWAIT on a handle (R333). -/
  | entry (handle : Word) (dst : Opnd) (mask : BitVec 32)
  /-- WAITC: threads not yet satisfied (R248). -/
  | monitor (unsat : BitVec 32)
  /-- QPOP of the threads of the mask (R217). -/
  | qpop (q : Nat) (start : Nat) (mask : BitVec 32)
  /-- A held split (R34). -/
  | split
  /-- An instruction that waits at its issue for something other than the scoreboard and tries again at each choice: a
  count of open copies, an earlier access (R102, R237). -/
  | busy
  /-- A LNCH that waits for an entry of the completion table: folio, entry, and the record and arguments that it has read (R222,
  R353). -/
  | launch (folio entry : Nat) (bytes : List Byte)
  /-- A TASK that waits for a place in its die's manifest table: folio, and the manifest and arguments that it has read, with the tags
  of the manifest's units (R205, R383). -/
  | task (folio : Nat) (bytes : List Byte) (tags : List Bool)
  /-- A replayable fault: its number once posted, the fault word (R254). -/
  | fault (num : Option Nat) (info : Word64)
  /-- A page walk of a missed translation (R172). -/
  | walk
  /-- A trap to be taken once the warp's pending writes are complete (R83): cause, %tinfo, and the length that ERET adds. -/
  | trap (cause : BitVec 8) (info : Word64) (len : Nat)
  /-- An atomic whose outcome may trap at its return (R156, R247). -/
  | atomic (op : Nat)
  /-- A leaf whose trap escalated, until its team is saved (R256). -/
  | escalated
  /-- A REL that has its place in the objects' orders and waits for the writes that it covers: each thread's object (R236,
  R241). -/
  | release (scope : Scope) (names : List (Nat × Word64))
  deriving DecidableEq, Repr

/-- An entry of the split table (R32 to R37). -/
structure Entry where
  id : Nat
  /-- A leaf, or a join. -/
  isLeaf : Bool
  mask : BitVec 32
  /-- The program counter of a leaf; the reconvergence address of a join. -/
  pc : Word
  parent : Option Nat
  /-- The entry lies in the warp's divergence reserve (R34). -/
  spilled : Bool
  wait : Wait
  /-- Choices lost since the last issue (R37). -/
  passes : Nat
  /-- Classes gained by promotion (R37). -/
  promo : Nat
  /-- The leaf ranks last of its class at the next choice (R390). -/
  yielded : Bool
  /-- The entry belongs to the warp's trap handler (R253). -/
  handler : Bool
  /-- The reconvergence address of the RET that the leaf executes again (R369). -/
  retJoin : Option Word
  deriving DecidableEq, Repr

/-- A warp (R24, R28, R52, R58 to R61, R253). -/
structure Warp where
  team : Nat
  index : Nat
  lane : Nat
  /-- Threads at admission (R60). -/
  count : Nat
  /-- The allocation A in slices (R60). -/
  alloc : Nat
  role : Nat
  promise : Nat
  allowance : Nat
  /-- The fast-operand region in force (R58). -/
  region : Option (BitVec 512)
  /-- k0 to k127, k0 in the low bits (R52). -/
  uni : BitVec 4096
  /-- The handler's k0 to k127 (R253). -/
  shadow : BitVec 4096
  entries : List Entry
  threads : List Thread
  tcause : Word
  tinfo : Word64
  tepc : Word
  tmask : Word
  /-- Length in bytes of the instruction that trapped, added by ERET where R255 says so. -/
  tlen : Nat
  /-- The `retJoin` of the leaf that trapped, kept for its return (R255, R369). -/
  tret : Option Word
  /-- The cause of the trap that entered handler mode, while in handler mode (R253). -/
  handler : Option (BitVec 8)
  /-- A posted ECC, with its %tinfo (R252). -/
  postedEcc : Option Word64
  /-- A posted CANCEL (R252). -/
  postedCancel : Bool
  /-- Arrival bits of points 0 to 23 and the phase each recorded (R192, log 30). -/
  arrived : BitVec 24
  arrPhase : Tbl Nat
  /-- The order in which warps became resident (R36). -/
  since : Nat
  deriving DecidableEq, Repr

/-! ### Teams -/

/-- States of a team (R30). -/
inductive TeamState where
  | pending | resident | swapped | saved | pendingResume | retired
  deriving DecidableEq, Repr

/-- A rendezvous point (R192). -/
structure Point where
  valid : Bool
  exp : Nat
  arrivals : Nat
  balance : Int
  /-- The phases completed since RVINIT; the parity is the low bit (log 30). -/
  phase : Nat
  /-- The overrun record; a posted RVOVER (R194, R197). -/
  overrun : Option Nat
  deriving DecidableEq, Repr

/-- A point at admission (R192). -/
def Point.reset : Point := ⟨false, 0, 0, 0, 0, Option.none⟩

/-- A reserved slot of a ring: its number, the fill, whether it has landed, and the convoy slot that sent it by
multicast (R200, R202). -/
structure RingFill where
  slot : Nat
  xfer : Nat
  full : Bool
  sender : Option Nat
  deriving DecidableEq, Repr

/-- A ring (R198). Slots filled and not released keep their record until RREL. -/
structure Ring where
  off : Nat
  slots : Nat
  size : Nat
  res : Nat
  wp : Nat
  rp : Nat
  fills : List RingFill
  deriving DecidableEq, Repr

/-- One end of a transfer: memory by virtual address, a team's local store, its B store, its scale memory with a layout
record, bytes held by the transfer, a circuit, or a multicast holding buffer. -/
inductive XEnd where
  | mem (va : Nat)
  | loc (team : Nat) (off : Nat)
  | bst (team : Nat) (off : Nat)
  | scl (team : Nat) (base : Nat) (layout : BitVec 128)
  | data (bytes : List Byte)
  | msg (circuit : Nat) (tag : Word)
  | hold (tile : Nat)
  deriving DecidableEq, Repr

/-- One slice of a transfer: what it moves, the machine's count at its issue, the byte ranges landed, and the virtual pages
whose faults hold its bytes (R187, R189, R260). -/
structure XSlice where
  warp : Nat
  src : XEnd
  dst : XEnd
  len : Nat
  since : Nat
  landed : List (Nat × Nat)
  faults : List Nat
  deriving DecidableEq, Repr

/-- A gathering collective (R187). -/
structure Collective where
  point : Nat
  /-- The issuing warp of a collective without a point. -/
  warp : Nat
  dir : CopyDir
  nw : Nat
  header : Nat
  slotOff : Nat
  slices : List XSlice
  deriving DecidableEq, Repr

/-- The declaration of a verdict (R150). -/
structure Verdict where
  op : VerdictOp
  nb : Nat
  counter : Nat
  bound : Nat
  /-- T, and TS of each row (R150, R151, R157). -/
  thr : Word
  ts : Tbl Word
  k : Nat
  kset : Nat
  /-- Running thresholds of the rows; an unlisted row holds −∞. -/
  run : Tbl Word
  ib : Nat
  deriving DecidableEq, Repr

/-- An accumulator tile (R128, R133, R138). Elements by 16·row + column; an unlisted element is +0. -/
structure Tile where
  elems : Tbl Word64
  tag : BitVec 4
  ver : BitVec 16
  flags : BitVec 5
  decl : Option Verdict
  deriving DecidableEq, Repr

/-- A tile at admission: +0, tag None, version 0, flags clear (R128). -/
def Tile.reset : Tile := ⟨[], 0#4, 0#16, 0#5, Option.none⟩

/-- Holders of a core's pilot token (R144): a team, with every warp or one role. -/
structure Token where
  team : Nat
  role : Option Nat
  deriving DecidableEq, Repr

/-- What one matrix instance is (R129, R134, R141, R146, R151); a drain with the type of its elements at its issue. -/
inductive MatOp where
  | mma (t : Ty) (u : MmaUp) (pat : Option SparsePat) (a0 : Nat) (ks : Word)
  | mloop (t : Ty) (u : MloopUp) (n ainc : Nat) (a0 : Nat) (ks : Word)
  | mzro (t : Ty)
  | mdrn (op : DrainOp) (t : Ty) (vd : Bool) (u : MdrnUp) (dest : XEnd)
  | vdset (op : VerdictOp) (thr : Word) (bo : Nat) (u : VdsetUp)
  | vthr (row : Nat) (thr : Word)
  deriving DecidableEq, Repr

/-- A participant of an instance (R129, R130): lane and warp; A units and metadata by thread; under MDRN .reg the
threads that receive and their first destination slices. -/
structure Participant where
  lane : Nat
  warp : Nat
  units : List Nat
  metas : List Nat
  mask : BitVec 32
  starts : List Nat
  deriving DecidableEq, Repr

/-- What an instance reads at its start (R149, R153, R154): A by row, each element with its place along K; B by row; scales
of A rows and B columns; the bounds and threshold snapshots of the rows; the block number; the words that a drain delivers, by row. -/
structure MatInput where
  a : Tbl (List (Nat × Nat))
  b : List (List Nat)
  sa : Tbl (List Nat)
  sb : List (List Nat)
  bounds : Tbl Word
  snaps : Tbl Word
  block : Nat
  words : Tbl (List Nat)
  deriving DecidableEq, Repr

/-- A matrix instance (R129, R133). -/
structure Instance where
  id : Nat
  team : Nat
  tile : Nat
  ver : BitVec 16
  op : MatOp
  np : Nat
  parts : List Participant
  /-- Program counter, thread mask and xfer point of the issue, for what its completion delivers. -/
  pc : Word
  point : Option Nat
  /-- The inputs read at its start; none while it has not started. -/
  input : Option MatInput
  deriving DecidableEq, Repr

/-- The macro sequencer (R140): the instance, the K-steps left, the addresses of the next step. -/
structure MacroSeq where
  inst : Nat
  left : Nat
  a0 : Nat
  boff : Nat
  sa : Nat
  sb : Nat
  deriving DecidableEq, Repr

/-- A team (R24, R27, R29, R30, R128, R192, R198). -/
structure Team where
  state : TeamState
  /-- Escalated, waiting for the driver (R256). -/
  escalated : Bool
  /-- Some warp of it took CANCEL (R210). -/
  cancelled : Bool
  /-- Its launch was cancelled while it was escalated: it retires without resuming (R259). -/
  ended : Bool
  /-- A save has stopped the choice of its leaves (R262 step 1). -/
  stopping : Bool
  /-- Completion-table index of its launch. -/
  launch : Nat
  /-- %team (R25, R205). -/
  num : Nat
  /-- Its task in its die's manifest table (R205). -/
  task : Option Nat
  convoy : Option Nat
  slot : Nat
  die : Nat
  core : Nat
  threads : Nat
  lstore : Nat
  /-- Local store (R29); unlisted bytes read zero (log 4). -/
  loc : Memory
  points : List Point
  rings : List Ring
  collectives : List Collective
  tiles : List Tile
  /-- B-store region size in bytes, its bytes, and the tags of its 4 KiB blocks (R122, R128). -/
  bsize : Nat
  bbytes : Memory
  btags : Tbl (BitVec 4)
  /-- Scale entries, their bytes, and the tags of 64-entry groups (R121, R122). -/
  sents : Nat
  sbytes : Memory
  stags : Tbl (BitVec 4)
  /-- The folio whose code it runs, and the code quire's base (R313). -/
  folio : Nat
  /-- A token held at the save, and the instances and macro sequencer saved with the team (R144, R148, R262). -/
  savedToken : Option Token
  insts : List Instance
  macroSeq : Option MacroSeq
  /-- Deferred pre-emption since this cycle of its core (R214). -/
  deferred : Option Nat
  deriving DecidableEq, Repr

/-- A convoy (R38, R192, R201, R202): its teams by slot, multicast mode, shared points 16 to 23, and credits (sender slot, receiver slot, ring offset, count). -/
structure Convoy where
  members : Tbl Nat
  straddles : Bool
  holding : Bool
  points : List Point
  /-- For each of points 16 to 23, a completion notice is on its way to the die that is not home (R195): the mirror
  there still shows the completed phase. -/
  notices : List Bool
  credits : List (Nat × Nat × Nat × Nat)
  deriving DecidableEq, Repr

/-! ### Cores -/

/-- Who a store, atomic or reduction belongs to: team, warp and thread. -/
structure Origin where
  team : Nat
  warp : Nat
  thread : Nat
  deriving DecidableEq, Repr

/-- The agents of a scope's unit, fixed at the operation that names the scope (R230). -/
inductive ScopeUnit where
  | thread (o : Origin)
  | warp (team warp : Nat)
  | teams (l : List Nat)
  | all
  deriving DecidableEq, Repr

/-- A byte store: its address, the byte, the nibble it covers (R184), its thread and the model's name of its instruction. -/
structure StoreByte where
  addr : Nat
  byte : Byte
  nib : Option Bool
  by_ : Origin
  inst : Nat
  deriving DecidableEq, Repr

/-- The writes of a thread named before `upTo`, which a release fence has made visible to a unit's agents: their accesses named
from `since` on follow those writes (R242, R243). -/
structure Published where
  by_ : Origin
  upTo : Nat
  unit : ScopeUnit
  since : Nat
  deriving DecidableEq, Repr

/-- The byte that a store replaced at its home, with the thread and the name of the store: a read that races with the store may
still return it (R234). -/
structure OldByte where
  addr : Nat
  byte : Byte
  by_ : Origin
  inst : Nat
  deriving DecidableEq, Repr

/-- A 128-byte line that an access touches: its number (PA / 128), its page's HOME, level and address space, and a virtual
address in it (R171, R176, R180). -/
structure LineAt where
  line : Nat
  home : Nat
  level : Nat
  asid : Nat
  va : Nat
  deriving DecidableEq, Repr

/-- A Quay entry (R173): a line, load or store, open until it is sent; the loads waiting on a load entry, each with its threads;
the bytes of a store entry and the 16-byte units it tags. -/
structure QuayEntry where
  id : Nat
  store : Bool
  at_ : LineAt
  sent : Bool
  prefetch : Bool
  ops : List (Nat × BitVec 32)
  bytes : List StoreByte
  tagged : List Nat
  deriving DecidableEq, Repr

/-- How a load's bits are written to its destination (R348, R349). -/
structure LoadForm where
  ty : Ty
  bits : Nat
  dw : Nat
  deriving DecidableEq, Repr

/-- One thread of a load: where each byte comes from and the byte once it came, the destination's first slice, the
nibble, the tag to set. -/
structure LoadThread where
  thread : Nat
  start : Nat
  cells : List (Nat × Option Byte)
  half : Option Bool
  mayTag : Bool
  tag : Bool
  done : Bool
  deriving DecidableEq, Repr

/-- A load issued and not complete (R350). -/
structure LoadOp where
  id : Nat
  team : Nat
  warp : Nat
  form : LoadForm
  /-- The destination is this uniform register (R52), of the handler's set when true. -/
  uni : Option (BitVec 7 × Bool)
  threads : List LoadThread
  deriving DecidableEq, Repr

/-- A gather or a scatter in the gather unit (R174): the lines still to handle, the load, or the bytes stored. -/
structure GatherOp where
  id : Nat
  load : Option Nat
  lines : List LineAt
  bytes : List StoreByte
  tagged : List Nat
  deriving DecidableEq, Repr

/-- The operation of a returning atomic. -/
inductive AtomKind where
  | rmw (op : AtomOp)
  | cas
  deriving DecidableEq, Repr

/-- One thread of an atomic: its address, operand and comparand, and the old value and flags once performed; `none` of
`old` with `bad` when its memory operand was abandoned (R156). -/
structure AtomThread where
  thread : Nat
  start : Nat
  addr : Nat
  at_ : LineAt
  a : Nat
  cmp : Nat
  old : Option Nat
  flags : BitVec 5
  bad : Bool
  deriving DecidableEq, Repr

/-- An atomic issued and not returned (R315, R316, R329). -/
structure AtomRec where
  id : Nat
  kind : AtomKind
  ty : Ty
  leaf : LeafRef
  pc : Word
  uni : Option (BitVec 7 × Bool)
  la : Nat
  /-- The issuing leaf is blocked until the return (a floating type). -/
  blocks : Bool
  threads : List AtomThread
  deriving DecidableEq, Repr

/-- A reduction issued and not performed (R366): a RED, translated after issue (R166). -/
structure RedRec where
  id : Nat
  /-- The RED or drain that issued it: one name for its threads or elements, in order. -/
  inst : Nat
  launch : Nat
  asid : Nat
  secure : Bool
  die : Nat
  core : Nat
  by_ : Origin
  op : RedOp
  ty : Ty
  va : Nat
  a : Nat
  fault : Option (Option Nat × Word64)
  deriving DecidableEq, Repr

/-- A store sent, with its bytes not yet performed at their home, and the bytes that its nibble stores have read there (R173, R184,
R233). -/
structure WriteRec where
  id : Nat
  at_ : LineAt
  die : Nat
  core : Nat
  bytes : List StoreByte
  tagged : List Nat
  reads : Tbl Byte
  deriving DecidableEq, Repr

/-- A cached translation (R172): address space, first page (VA / 65536), pages it maps, the leaf and its level. -/
structure TlbEntry where
  asid : Nat
  page : Nat
  pages : Nat
  leaf : Word64
  level : Nat
  deriving DecidableEq, Repr

/-- A line in L1 (R175): the address it was filled under, its 128 bytes, and the tagged 16-byte units of it. -/
structure CacheLine where
  at_ : LineAt
  bytes : List Byte
  tagged : List Nat
  deriving DecidableEq, Repr

/-- A core (R15, R36, R60, R62, R129, R140, R144, R172 to R175, R264). -/
structure Core where
  /-- Slice-threads charged to each lane's pool of 98,304 (R60). -/
  charged : Tbl Nat
  /-- Waiting claims of each lane, oldest first: leaf and request in slice-threads (R62, R63). -/
  claims : Tbl (List (LeafRef × Nat))
  token : Option Token
  /-- TOKW leaves, oldest first (R144). -/
  tokens : List LeafRef
  insts : List Instance
  /-- Instances that can start, in the order they became startable (R133). -/
  startq : List Nat
  mloop : Option MacroSeq
  quay : List QuayEntry
  loads : List LoadOp
  gathers : List GatherOp
  /-- L1 lines, the oldest last (R175). -/
  l1 : List CacheLine
  tlb : List TlbEntry
  /-- Fetched 32-byte blocks: block number (PA / 32) and bytes (R264). -/
  blocks : Tbl (List Byte)
  /-- %cyc (R45). -/
  cyc : Word64
  /-- The last five leaves that each lane issued for, the latest first (R17). -/
  pipe : Tbl (List LeafRef)
  /-- The leaf that holds a lane in the middle of an instruction (R16, R36). -/
  holder : Tbl LeafRef
  deriving DecidableEq, Repr

/-- A core at cold reset. -/
def Core.reset : Core := ⟨[], [], Option.none, [], [], [], Option.none, [], [], [], [], [], [], 0#64, [], []⟩

/-! ### Dies -/

/-- A key-table entry (R211, R212): the world's set, the key, its holders and its queue of task numbers. -/
structure KeyEntry where
  secure : Bool
  key : Nat
  excl : Option Nat
  shared : List Nat
  queue : List (Nat × Bool)
  deriving DecidableEq, Repr

/-- Stages of a task (R207). -/
inductive Stage where
  | submitted | acquiring | ready | resident | retired
  deriving DecidableEq, Repr

/-- States of a version (R208 to R210). -/
inductive VerState where
  | live | copying | home | discarded
  deriving DecidableEq, Repr

/-- A write tile of a task and its version (R208 to R210): home range, capability, renaming, pool offset, state. -/
structure WTile where
  base : Nat
  len : Nat
  perm : BitVec 5
  renamed : Bool
  pool : Option Nat
  state : VerState
  deriving DecidableEq, Repr

/-- A task of a manifest table (R205 to R210). -/
structure Task where
  /-- Its place in submission order on its die. -/
  seq : Nat
  launch : Nat
  num : Nat
  folio : Nat
  entry : Nat
  args : List Byte
  /-- Keys and whether exclusive, in ascending order (R212). -/
  keys : List (Nat × Bool)
  /-- Keys granted so far, and whether the request for the next one is at its home. -/
  held : List (Nat × Bool)
  asked : Bool
  reads : List (Nat × Nat × BitVec 5)
  writes : List WTile
  stage : Stage
  readyAt : Nat
  team : Option Nat
  /-- Cells written since its admission, kept while it has a write tile that is not renamed (R209). -/
  dirty : List Nat
  deriving DecidableEq, Repr

/-- A binding (R239): its region widened to whole lines, object name, address space, world, launch. -/
structure Binding where
  base : Nat
  len : Nat
  name : Word64
  asid : Nat
  secure : Bool
  launch : Nat
  deriving DecidableEq, Repr

/-- A monitor armed, or an arm waiting for one (R248, R249): its virtual address and the cells of its location. -/
structure Monitor where
  leaf : LeafRef
  thread : Nat
  va : Nat
  cells : List Nat
  ty : Ty
  op : Cmp
  a : Nat
  armed : Bool
  deriving DecidableEq, Repr

/-- Who takes a replayable fault (R258): a leaf, a reduction, a page of a slice of a transfer. -/
inductive Faulter where
  | leaf (r : LeafRef)
  | red (id : Nat)
  | xfer (id slice page : Nat)
  deriving DecidableEq, Repr

/-- A fault waiting to be posted, or posted and not answered (R254, R258, R260). -/
structure FaultRec where
  who : Faulter
  info : Word64
  launch : Nat
  source : Nat
  asid : Nat
  core : Nat
  team : Option Nat
  warp : Option (Nat × Nat)
  num : Option Nat
  deriving DecidableEq, Repr

/-- An escalation waiting to be posted, or posted and not answered (R256, R259). -/
structure EscRec where
  team : Nat
  handle : Word
  record : List Byte
  num : Option Nat
  deriving DecidableEq, Repr

/-- A page walk queued at a die (R172). -/
structure WalkReq where
  core : Nat
  asid : Nat
  va : Nat
  write : Bool
  who : Option LeafRef
  source : Nat
  deriving DecidableEq, Repr

/-- A page migration in progress (R181): its address space and page, its leaf's address, the old and the new frames. -/
structure Migration where
  asid : Nat
  page : Nat
  pte : Nat
  old : Nat
  new : Nat
  bytes : Nat
  toDie : Nat
  deriving DecidableEq, Repr

/-- The count of a page of the page-counter cache and the last requesting die (R180). -/
structure PageCount where
  count : Nat
  last : Nat
  asid : Nat
  va : Nat
  deriving DecidableEq, Repr

/-- A tile in the multicast holding buffer (R202): convoy, the team that sent it, length, bytes once there, and for each receiver not drained its
team, ring, point. -/
structure HeldTile where
  id : Nat
  convoy : Nat
  sender : Nat
  len : Nat
  bytes : List Byte
  drains : List (Nat × Nat × Option Nat)
  deriving DecidableEq, Repr

/-- A die (R169, R172, R176, R180 to R182, R202, R205 to R218, R239, R249, R256 to R261). Control words by number;
an unlisted word is 0. -/
structure Die where
  words : Tbl Word64
  keys : List KeyEntry
  tasks : List Task
  taskSeq : Nat
  bindings : List Binding
  bindOver : Bool
  monitors : List Monitor
  walkq : List WalkReq
  walkCache : List TlbEntry
  faults : List FaultRec
  faultNum : Nat
  escalations : List EscRec
  escNum : Nat
  pages : Tbl PageCount
  migrations : List Migration
  holding : List HeldTile
  /-- Lines locked by HOME 0b10 in each slice (R176). -/
  locked : List Nat
  /-- Teams with a record in the context save pool (R261). -/
  savePool : List Nat
  /-- Tasks waiting to acquire, in order (R212). -/
  acquireq : List Nat
  /-- Core microcode verified and waiting for the unpark (R288), and the version that runs. -/
  microPending : Option Nat
  micro : Nat
  deriving DecidableEq, Repr

/-- A die at reset (log 17: first fault and escalation numbers 0). -/
def Die.reset : Die :=
  ⟨[], [], [], 0, [], false, [], [], [], [], 0, [], 0, [], [], [], [], [], [], Option.none, 0⟩

/-! ### Package -/

/-- Final and running states of an entry (R39). -/
inductive EntryState where
  | free | running | done | cancelled | faulted
  deriving DecidableEq, Repr

/-- A completion entry (R39, R40). -/
structure Completion where
  level : BitVec 2
  state : EntryState
  cxr : Bool
  parent : Nat
  gen : BitVec 16
  count : Nat
  /-- Some member faulted, some member was cancelled (R40). -/
  anyFault : Bool
  anyCancel : Bool
  /-- The order in which it left running (R39). -/
  left : Nat
  deriving DecidableEq, Repr

/-- An entry at reset (R39). -/
def Completion.reset : Completion :=
  ⟨0#2, .free, false, 0x3FFF, 0#16, 0, false, false, 0⟩

/-- A launch (R24, R26, R221). -/
structure Launch where
  teams : Nat
  next : Nat
  dmask : BitVec 9
  pri : Nat
  bkg : Bool
  strict : Bool
  holding : Bool
  nthr : Nat
  ntile : Nat
  breg : Nat
  sreg : Nat
  folio : Nat
  entry : Nat
  args : List Byte
  asid : Nat
  secure : Bool
  /-- The runtime folio of its job, 0 for none (R253). -/
  rfolio : Nat
  job : Nat
  /-- The submission counter of R205. -/
  taskNum : Nat
  /-- Its graph node (R43); the armed entry and slot that fired it (R224). -/
  node : Option Nat
  slot : Option (Nat × Nat)
  order : Nat
  deriving DecidableEq, Repr

/-- A node of a graph (R43, R228). -/
structure Node where
  copy : Bool
  lrec : Nat
  left : Nat
  succs : List Nat
  src : Nat
  dst : Nat
  len : Nat
  started : Bool
  finished : Bool
  deriving DecidableEq, Repr

/-- A graph (R43, R228). -/
structure Graph where
  home : Nat
  nodes : List Node
  stopped : Bool
  job : Nat
  deriving DecidableEq, Repr

/-- A job (R225, R227): its record's PA, its queue, address space, world, runtime folio, phases and the phase that runs. -/
structure Job where
  rec_ : Nat
  queue : Nat
  asid : Nat
  secure : Bool
  rfolio : Nat
  nph : Nat
  phase : Nat
  deriving DecidableEq, Repr

/-- A loaded folio (R273, R274). -/
structure Folio where
  image : FolioImage
  writable : Bool
  secure : Bool
  live : Bool
  job : Option Nat
  asid : Nat
  codeVA : Nat
  codePA : Nat
  spineVA : Nat
  spinePA : Nat
  deriving DecidableEq, Repr

/-- A hardware queue (R216 to R218): its hardware entries, the spill ring's counts, records of a refill in flight,
waiting pops. -/
structure HwQueue where
  hw : List (List Byte)
  spCount : Nat
  spHead : Nat
  spTail : Nat
  refill : List (List Byte)
  waiting : List LeafRef
  deriving DecidableEq, Repr

/-- A queue at reset. -/
def HwQueue.reset : HwQueue := ⟨[], 0, 0, 0, [], []⟩

/-- What a transfer is (R189, R200, R201, R142, R143, R147, R210, R228). -/
inductive XferKind where
  | copy (dir : CopyDir)
  | fill
  | copym
  | mldb
  | mlds
  | drainSt
  | drainAdd (ty : Ty)
  | copyback (task tile : Nat)
  | node (graph node : Nat)
  deriving DecidableEq, Repr

/-- A transfer started and not complete. A ring fill waits for its slot first (R200). -/
structure Xfer where
  id : Nat
  kind : XferKind
  team : Option Nat
  warps : List Nat
  launch : Nat
  die : Nat
  core : Nat
  asid : Nat
  secure : Bool
  /-- The team and point that its bytes count down at. -/
  point : Option (Nat × Nat)
  /-- The ring it fills (team, header, offset in the slot, sender's convoy slot), while it waits for a slot. -/
  ring : Option (Nat × Nat × Nat × Option Nat)
  slot : Option Nat
  slices : List XSlice
  stopped : Bool
  deriving DecidableEq, Repr

/-- A message sent and not acknowledged (R191). -/
structure OutMessage where
  id : Nat
  circuit : Nat
  tag : Word
  pkg : BitVec 20
  bytes : List Byte
  secure : Bool
  xfer : Nat
  slice : Nat
  deriving DecidableEq, Repr

/-- Which agent of the machine acts: a lane of a core, with the leaves whose operands its pipeline does not yet give (R17); an
event, with what it chooses where the spec leaves it a choice (log 1); or cycles elapsing in a core-pair island. -/
inductive Agent where
  | lane (die core lane : Nat) (late : List LeafRef)
  | event (i : Instr) (choice : BitVec 128 := 0#128)
  | elapse (die pair cycles : Nat)
  deriving DecidableEq, Repr

/-- A checkpoint or restore in progress (R289). -/
inductive Ckpt where
  | idle | saving | restoring
  deriving DecidableEq, Repr

/-- Why an instruction offered to exec did not issue and changed nothing: the scoreboard holds its first active thread, and the
lane chooses another leaf; it is blocked, with the wait that marks it; its lane stands with it until it can go on (R36, R48). -/
inductive Hold where
  | no | scoreboard | blocked (w : Wait) | lane
  deriving DecidableEq, Repr

/-- The machine. -/
structure State where
  /-- Which agents act next, in order (log 1). The model's own. -/
  agenda : List Agent
  /-- The leaf that issues, set by step around exec (log 1). The model's own. -/
  issuer : Option LeafRef
  /-- Whether the instruction offered to exec was held at its issue, and how (log 1). The model's own. -/
  held : Hold
  /-- What the event that acts chooses, set by step around exec (log 1): the bytes that a write leaves for later (R229), the bytes that
  a racing read returns from before a store (R234), the walk that ends (R172). The model's own. -/
  choice : BitVec 128
  /-- The counter that free values are taken at (log 2). The model's own. -/
  fresh : Nat
  /-- The model's next name for a team, an entry, an operation or a transfer (log 1). The model's own. -/
  nextId : Nat
  /-- Physical bytes by cell (R168); unlisted reads 0 (log 3). -/
  mem : Memory
  /-- Tagged 16-byte units, rising (R167; log 3). -/
  tags : List Nat
  dies : Tbl Die
  cores : Tbl Core
  teams : Tbl Team
  warps : Tbl Warp
  convoys : Tbl Convoy
  xfers : List Xfer
  writes : List WriteRec
  reds : List RedRec
  atoms : List AtomRec
  /-- What release fences of scopes narrower than the package have published (R242, R243; log 50). The model's own. -/
  published : List Published
  /-- Bytes replaced by stores whose threads' warps have issued nothing since (R234; log 50). The model's own. -/
  olds : List OldByte
  /-- The machine's next name when each warp issued last, by warpKey (log 50). The model's own. -/
  lastIssue : Tbl Nat
  /-- Package control words by number, where not at reset (R377). -/
  words : Tbl Word64
  /-- SHOOT as the running shootdown was started (R172). -/
  shoot : Word64
  completions : Tbl Completion
  launches : Tbl Launch
  graphs : Tbl Graph
  jobs : Tbl Job
  folios : Tbl Folio
  queues : Tbl HwQueue
  /-- In-use slots of the armed entries: slot, launch, whether it completed (R224). -/
  slots : Tbl (List (Nat × Nat × Bool))
  outbox : List OutMessage
  /-- Messages waiting at their port, in arrival order (R224). -/
  inbox : List InMessage
  /-- MSI-X vectors raised, the latest first (R277). -/
  msix : List Nat
  /-- Installed capacity of the CXL ports once trained, in bytes, and whether the device reports persistence (R279). -/
  ports : Tbl (Nat × Bool)
  /-- The limiter's caps of the core-pair islands, where not P0, and its steps below the ceiling (R284). -/
  caps : Tbl Nat
  below : Nat
  /-- States that islands move to (R286). -/
  moving : Tbl Nat
  /-- PKGID has been written since reset (R278). -/
  pkgSet : Bool
  /-- Links that retrain (R267). -/
  retraining : List Nat
  recovery : Bool
  ckpt : Ckpt
  /-- Teams that the checkpoint saved, to resume at its end (R289). -/
  ckptTeams : List Nat
  /-- Attestation reports with their signatures, the latest first (R282). -/
  reports : List (List Byte × List Byte)
  /-- What the host's reads through its aperture have answered, the latest first: the bytes, none for an abort (R266, R277). -/
  answers : List (Option (List Byte))
  /-- Orders in which warps became resident, entries left running and launches came (R36, R39, R26). -/
  clock : Nat
  deriving DecidableEq, Repr

/-! ### Stops -/

/-- A fault of the model. -/
inductive Fault where
  /-- The device reads or writes a physical address outside every view or beyond installed capacity by a path for which
  the spec gives no refusal. Raised by the package's own accesses. Safe: the run stops. -/
  | badPhysical (addr : Nat)
  deriving DecidableEq, Repr

/-- A refusal of the model. -/
inductive Refusal where
  /-- Raised by exec's arms of instructions not modelled yet. Safe: the run stops. -/
  | notModelled (mnemonic : String)
  /-- exec was asked for an instruction while no leaf issues (log 8). Safe: no such step exists in the machine. -/
  | noIssuer
  deriving DecidableEq, Repr

/-- The machine after reset: no work, no folio loaded, memory empty; the words' reset values are those of wordReset in
Ops.lean. -/
def State.reset : State where
  agenda := []
  issuer := Option.none
  held := .no
  choice := 0#128
  fresh := 0
  nextId := 0
  mem := []
  tags := []
  dies := []
  cores := []
  teams := []
  warps := []
  convoys := []
  xfers := []
  writes := []
  reds := []
  atoms := []
  published := []
  olds := []
  lastIssue := []
  words := []
  shoot := 0#64
  completions := []
  launches := []
  graphs := []
  jobs := []
  folios := []
  queues := []
  slots := []
  outbox := []
  inbox := []
  msix := []
  ports := []
  caps := []
  below := 0
  moving := []
  pkgSet := false
  retraining := []
  recovery := false
  ckpt := .idle
  ckptTeams := []
  reports := []
  answers := []
  clock := 0

end Sys2Proof.Machine
end

