-- ==== Sys2Proof/Machine/Tables.lean ====
section
/-! DEFINITION. Tables by number, byte memories in their canonical form, little-endian numbers, bit fields. -/

namespace Sys2Proof.Machine

/-! ### Tables -/

/-- The record of number k, if the table lists one. -/
def Tbl.look {α : Type} (k : Nat) : Tbl α → Option α
  | [] => none
  | (j, v) :: r => if j = k then some v else Tbl.look k r

/-- The record of number k, d where the table lists none. -/
def Tbl.get {α : Type} (t : Tbl α) (k : Nat) (d : α) : α := (Tbl.look k t).getD d

/-- The table with record v at number k. -/
def Tbl.put {α : Type} (k : Nat) (v : α) : Tbl α → Tbl α
  | [] => [(k, v)]
  | (j, w) :: r => if k < j then (k, v) :: (j, w) :: r else if k = j then (k, v) :: r else (j, w) :: Tbl.put k v r

/-- The table without number k. -/
def Tbl.del {α : Type} (k : Nat) : Tbl α → Tbl α
  | [] => []
  | (j, w) :: r => if j = k then Tbl.del k r else (j, w) :: Tbl.del k r

/-- The table with the record of number k changed, where it lists one. -/
def Tbl.alter {α : Type} (k : Nat) (f : α → α) : Tbl α → Tbl α
  | [] => []
  | (j, w) :: r => if j = k then (j, f w) :: r else (j, w) :: Tbl.alter k f r

/-- The numbers of a table rise. -/
def Tbl.rising {α : Type} : Tbl α → Bool
  | [] => true
  | [_] => true
  | (i, _) :: (j, w) :: r => decide (i < j) && Tbl.rising ((j, w) :: r)

/-! ### Byte memories -/

/-- The canonical form: addresses rising and no listed zero (log 3). -/
def Memory.wf (m : Memory) : Bool := Tbl.rising m && m.all (fun c => c.2 != 0#8)

/-- The byte at an address; an unlisted address reads 0 (log 3, 4). -/
def Memory.byte (m : Memory) (a : Nat) : Byte := Tbl.get m a 0#8

/-- The memory after one byte is written: a zero removes the entry. -/
def Memory.set (m : Memory) (a : Nat) (b : Byte) : Memory := if b = 0#8 then Tbl.del a m else Tbl.put a b m

/-- n bytes from an address. -/
def Memory.read (m : Memory) (a n : Nat) : List Byte := (List.range n).map (fun i => m.byte (a + i))

/-- The memory after bytes are written from an address, the first first. -/
def Memory.write (m : Memory) (a : Nat) : List Byte → Memory
  | [] => m
  | b :: bs => Memory.write (m.set a b) (a + 1) bs

/-! ### Numbers in bytes and bits -/

/-- The number of bytes, the lowest address first (R3). -/
def leNat (bs : List Byte) : Nat := bs.foldr (fun b acc => b.toNat + 256 * acc) 0

/-- The n bytes of a number, the lowest first (R3). -/
def natLe (n v : Nat) : List Byte := (List.range n).map (fun i => BitVec.ofNat 8 (v / 2 ^ (8 * i)))

/-- Bits hi..lo of a number. -/
def bitsOf (v hi lo : Nat) : Nat := v / 2 ^ lo % 2 ^ (hi + 1 - lo)

/-- Bit i of a number. -/
def bitOf (v i : Nat) : Bool := v / 2 ^ i % 2 == 1

/-- A number with bits hi..lo replaced. -/
def setBits (v hi lo x : Nat) : Nat :=
  v - bitsOf v hi lo * 2 ^ lo + x % 2 ^ (hi + 1 - lo) * 2 ^ lo

/-- A w-bit pattern read as a signed number. -/
def toSigned (w v : Nat) : Int := if v < 2 ^ (w - 1) then (v : Int) else (v : Int) - (2 ^ w : Nat)

/-- An integer as a w-bit pattern, wrapped. -/
def wrap (w : Nat) (v : Int) : Nat := (v % (2 ^ w : Nat)).toNat

/-- The indexes of the set bits of a mask, rising. -/
def bitList (n m : Nat) : List Nat := (List.range n).filter (fun i => bitOf m i)

/-- The threads of a mask, rising. -/
def maskThreads (m : BitVec 32) : List Nat := (List.range 32).filter (fun i => m.getLsbD i)

/-- The mask of a list of threads. -/
def maskOf (ts : List Nat) : BitVec 32 := ts.foldl (fun m t => m ||| (1#32 <<< t)) 0#32

/-- Number of set bits. -/
def popcount (w v : Nat) : Nat := ((List.range w).filter (fun i => bitOf v i)).length

/-- The list without its first element that meets p. -/
def dropFirst {α : Type} (p : α → Bool) : List α → List α
  | [] => []
  | x :: r => if p x then r else x :: dropFirst p r

/-- A list with the elements that meet p changed. -/
def mapIf {α : Type} (p : α → Bool) (f : α → α) (l : List α) : List α := l.map (fun x => if p x then f x else x)

/-- A list with element i changed. -/
def modAt {α : Type} (i : Nat) (f : α → α) : List α → List α
  | [] => []
  | x :: r => match i with
    | 0 => f x :: r
    | j + 1 => x :: modAt j f r

/-- Insert keeping an order given by le, after equal elements. -/
def insertBy {α : Type} (le : α → α → Bool) (x : α) : List α → List α
  | [] => [x]
  | y :: r => if le y x then y :: insertBy le x r else x :: y :: r

/-- A list in the order given by le, stable. -/
def sortBy {α : Type} (le : α → α → Bool) (l : List α) : List α := l.foldl (fun acc x => insertBy le x acc) []

end Sys2Proof.Machine
end

