-- ==== Sys2Proof/WellFormed.lean ====
section
/-! DEFINITION. Well-formedness: what check 2 of R79 asks of an instruction's fields beyond their codes (ILLINS), and
the ranges of an event's names. -/

namespace Sys2Proof

namespace Ty

/-- .i types, codes 0x08 to 0x0C. -/
def isI : Ty → Bool
  | i64 | i32 | i16 | i8 | i4 => true
  | _ => false

/-- .n types, codes 0x0D to 0x11. -/
def isN : Ty → Bool
  | n64 | n32 | n16 | n8 | n4 => true
  | _ => false

/-- .b types, codes 0x12 to 0x15. -/
def isB : Ty → Bool
  | b64 | b32 | b16 | b8 => true
  | _ => false

/-- .i and .n types, codes 0x08 to 0x11. -/
def isIN (t : Ty) : Bool := t.isI || t.isN

/-- .i, .n and .b types, codes 0x08 to 0x15. -/
def isLogic (t : Ty) : Bool := t.isI || t.isN || t.isB

/-- Integer packed types (R344). -/
def isIPack : Ty → Bool
  | i16x2 | n16x2 | i8x4 | n8x4 | i4x8 | n4x8 => true
  | _ => false

/-- Floating packed types. -/
def isFPack : Ty → Bool
  | bf16x2 | f16x2 | e4m3x4 | e5m2x4 => true
  | _ => false

/-- Packed types, codes 0x16 to 0x1F. -/
def isPacked (t : Ty) : Bool := t.isIPack || t.isFPack

/-- The types of FADD, FSUB, FMUL and FFMA (R335). -/
def isFArith : Ty → Bool
  | f64 | f32 | bf16 | f16 | bf16x2 | f16x2 | e4m3x4 | e5m2x4 => true
  | _ => false

/-- The types of FMIN, FMAX, FRCP, FRSQ, FRND (R338 to R340). -/
def isFSelect : Ty → Bool
  | f64 | f32 | bf16 | f16 | bf16x2 | f16x2 => true
  | _ => false

/-- The types of FSET and floating REDW (R341, R368). -/
def isFScalar : Ty → Bool
  | f64 | f32 | bf16 | f16 => true
  | _ => false

/-- Floating formats and D8, codes 0x01 to 0x07. -/
def isFloatD8 : Ty → Bool
  | f64 | f32 | bf16 | f16 | e4m3 | e5m2 | d8 => true
  | _ => false

/-- Codes 0x01 to 0x11, accepted by FCVT (R118). -/
def isConvert (t : Ty) : Bool := t.isFloatD8 || t.isIN

/-- The matrix types (R134). -/
def isMatrix : Ty → Bool
  | f64 | f32 | bf16 | f16 | e4m3 | e5m2 | d8 | i8 | i4 => true
  | _ => false

/-- The elements of a packed type; 1 for the others (R75). -/
def elems : Ty → Nat
  | bf16x2 | f16x2 | i16x2 | n16x2 => 2
  | e4m3x4 | e5m2x4 | i8x4 | n8x4 => 4
  | i4x8 | n4x8 => 8
  | _ => 1

/-- The 32-bit and 64-bit integer types of ATOM's arithmetic (R245). -/
def isAtomInt : Ty → Bool
  | i32 | n32 | i64 | n64 => true
  | _ => false

/-- .b32 and .b64 (R245). -/
def isAtomBits : Ty → Bool
  | b32 | b64 => true
  | _ => false

end Ty

/-- The op and type pairs of RED (R245). -/
def RedOp.atomTy : RedOp → Ty → Bool
  | .add, t => t.isAtomInt || t == .f32 || t == .f64 || t == .bf16x2 || t == .f16x2
  | .min, t | .max, t => t.isAtomInt || t == .f32 || t == .f64
  | .and, t | .or, t | .xor, t => t.isAtomBits

/-- The op and type pairs of ATOM (R245). -/
def AtomOp.atomTy : AtomOp → Ty → Bool
  | .red op, t => op.atomTy t
  | .xchg, t => t.isAtomBits

/-- The op and type pairs of REDW (R368). -/
def RedOp.redwTy : RedOp → Ty → Bool
  | .add, t | .min, t | .max, t => t.isIN || t.isFScalar
  | .and, t | .or, t | .xor, t => t.isLogic

namespace Opnd

/-- Not an inline immediate: any operand a DST field may hold (R71). -/
def notImm : Opnd → Bool
  | imm _ => false
  | _ => true

/-- A slice register. -/
def isReg : Opnd → Bool
  | reg _ _ => true
  | _ => false

/-- A capability register, width code 0b101. -/
def isCap : Opnd → Bool
  | reg .w128 _ => true
  | _ => false

/-- A 64-bit register, width code 0b100. -/
def isD64 : Opnd → Bool
  | reg .w64 _ => true
  | _ => false

/-- A uniform register, width code 0b110. -/
def isUni : Opnd → Bool
  | uni _ => true
  | _ => false

/-- A uniform register or an inline immediate (R101). -/
def isUniImm : Opnd → Bool
  | reg _ _ => false
  | _ => true

/-- A 32-bit or 64-bit register (R327). -/
def isReg3264 : Opnd → Bool
  | reg .w32 _ => true
  | reg .w64 _ => true
  | _ => false

/-- A 32-bit register, a uniform register or an inline immediate (R264, R328, R370). -/
def isWord : Opnd → Bool
  | reg .w32 _ => true
  | uni _ => true
  | imm _ => true
  | _ => false

/-- A 32-bit register or a uniform register: width code 0b011 or 0b110 (R188, R322, R323, R330, R333). -/
def isHandle : Opnd → Bool
  | reg .w32 _ => true
  | uni _ => true
  | _ => false

/-- A predicate in an operand field: width code 0b000, number in bits 5..3, the rest zero (R91). -/
def isPred : Opnd → Bool
  | reg .w4 s => s.toNat < 8
  | _ => false

end Opnd

/-- A swizzle allowed on a source of type t (R75). -/
def Swz.ok (t : Ty) : Swz → Bool
  | .id => true
  | .rev | .swp | .bc0 | .bc1 => t.isPacked
  | .bc2 | .bc3 => t.isPacked && t.elems != 2

/-- An indexed position names a slice register that the opcode uses (R76). -/
def ixOk (ix : Bool) (o : Option Opnd) : Bool :=
  !ix || (match o with | some p => p.isReg | none => false)

/-- The X-shape control part against the positions an opcode uses (R74 to R76): indexing only on used register
positions, the index register zero when none is indexed, swizzles only where the opcode takes one. -/
def XCtl.ok (x : XCtl) (t : Ty) (d a b c : Option Opnd) (s1 s2 s3 : Bool) : Bool :=
  ixOk x.ixD d && ixOk x.ix1 a && ixOk x.ix2 b && ixOk x.ix3 c
  && (x.ixD || x.ix1 || x.ix2 || x.ix3 || x.ixr == 0#2)
  && (if s1 then x.sw1.ok t else x.sw1 == .id)
  && (if s2 then x.sw2.ok t else x.sw2 == .id)
  && (if s3 then x.sw3.ok t else x.sw3 == .id)

/-- The scaled-form bit against the type (R134). -/
def sclOk (t : Ty) (scl : Bool) : Bool :=
  match t with
  | .e4m3 | .e5m2 | .d8 => scl
  | .i8 | .i4 => true
  | _ => !scl

/-- The mode part of PACK's MOD: .sat for integer forms, rounding and flush for floating forms (R360). -/
def packModOk (t : Ty) (md : BitVec 5) : Bool :=
  if t.isIPack then md.toNat < 2
  else (t == .bf16x2 || t == .f16x2) && md.toNat % 8 ≤ 4 && md.toNat / 8 ≤ 2

/-- .b comparisons take only .eq and .ne (R347, R248). -/
def cmpOk (t : Ty) (op : Cmp) : Bool := !t.isB || op == .eq || op == .ne

/-- An instruction's fields meet check 2 of R79 (R71 to R78, and each entry), or an event names things that exist. -/
def Instr.wf : Instr → Bool
  | .iadd _ t _ d _ _ | .isub _ t _ d _ _ | .imin _ t _ d _ _ | .imax _ t _ d _ _ => (t.isIN || t.isIPack) && d.notImm
  | .iaddX _ t _ d a b x | .isubX _ t _ d a b x | .iminX _ t _ d a b x | .imaxX _ t _ d a b x =>
    (t.isIN || t.isIPack) && d.notImm && x.ok t (some d) (some a) (some b) none true true false
  | .iaddI _ t _ d _ _ => (t.isIN || t.isIPack) && d.notImm
  | .imul _ t _ d _ _ => t.isIN && d.notImm
  | .imulX _ t _ d a b x => t.isIN && d.notImm && x.ok t (some d) (some a) (some b) none true true false
  | .imulI _ t _ d _ _ => t.isIN && d.notImm
  | .idiv _ t _ _ d _ _ => t.isIN && d.notImm
  | .iabs _ t _ d _ => (t.isI || t == .i16x2 || t == .i8x4 || t == .i4x8) && d.notImm
  | .imad _ t _ d a b c x => t.isIN && d.notImm && x.ok t (some d) (some a) (some b) (some c) true true true
  | .iset _ t op _ _ _ => t.isLogic && cmpOk t op
  | .isetI _ t op _ _ _ => t.isLogic && cmpOk t op
  | .and _ t d _ _ | .andn _ t d _ _ | .or _ t d _ _ | .xor _ t d _ _ => t.isLogic && d.notImm
  | .andX _ t d a b x | .orX _ t d a b x | .xorX _ t d a b x =>
    t.isLogic && d.notImm && x.ok t (some d) (some a) (some b) none true true false
  | .andI _ t d _ _ | .orI _ t d _ _ | .xorI _ t d _ _ => t.isLogic && d.notImm
  | .shl _ t d _ _ | .shr _ t d _ _ | .sha _ t d _ _ | .rot _ t d _ _ => t.isLogic && d.notImm
  | .popc _ t d _ | .clz _ t d _ | .brev _ t d _ => t.isLogic && d.notImm
  | .bfx _ t d _ _ => t.isLogic && d.notImm
  | .bfi _ t d a b c x => t.isLogic && d.notImm && x.ok t (some d) (some a) (some b) (some c) true true true
  | .mov _ t sat d _ => (!sat || t.isIN) && d.notImm
  | .movX _ t sat d a x => (!sat || t.isIN) && d.notImm && x.ok t (some d) (some a) none none true false false
  | .movi _ t sat d _ => (t == .f64 || t == .f32 || t.isLogic) && (!sat || t.isIN) && d.notImm
  | .movxRead _ _ d => d.isHandle
  | .movxWrite _ _ a => a.isWord
  | .shfl _ t _ d _ _ => t.isB && d.notImm
  | .vote _ _ _ _ => true
  | .ballot _ d _ => d.notImm
  | .redw _ t op d a => op.redwTy t && d.notImm && a.isReg
  | .sel _ t _ d _ _ => t != .none && d.notImm
  | .selX _ t _ d a b x => t != .none && d.notImm && x.ok t (some d) (some a) (some b) none true true false
  | .fadd _ t _ d _ _ | .fsub _ t _ d _ _ | .fmul _ t _ d _ _ => t.isFArith && d.notImm
  | .faddX _ t _ d a b x | .fsubX _ t _ d a b x | .fmulX _ t _ d a b x =>
    t.isFArith && d.notImm && x.ok t (some d) (some a) (some b) none true true false
  | .faddI _ t _ d _ _ | .fmulI _ t _ d _ _ => t.isFArith && d.notImm
  | .ffma _ t _ d a b c x => t.isFArith && d.notImm && x.ok t (some d) (some a) (some b) (some c) true true true
  | .fmin _ t _ d _ _ | .fmax _ t _ d _ _ => t.isFSelect && d.notImm
  | .fminX _ t _ d a b x | .fmaxX _ t _ d a b x =>
    t.isFSelect && d.notImm && x.ok t (some d) (some a) (some b) none true true false
  | .frcp _ _ t _ d _ | .frsq _ _ t _ d _ => t.isFSelect && d.notImm
  | .fsfn _ _ t op _ d _ => t.isFSelect && (t != .f64 || op == .sqrt) && d.notImm
  | .fset _ t _ _ _ _ _ => t.isFScalar
  | .fsetX _ t _ _ _ a b x => t.isFScalar && x.ok t none (some a) (some b) none true true false
  | .fsetI _ t _ _ _ _ _ => t.isFScalar
  | .fcls _ t d _ => t.isFloatD8 && d.notImm
  | .frnd _ t _ d _ => t.isFSelect && d.notImm
  | .fcvt _ dest frm _ _ d _ => dest.isConvert && frm.isConvert && d.notImm
  | .fcvtX _ dest frm _ _ d a x =>
    dest.isConvert && frm.isConvert && d.notImm && x.ok dest (some d) (some a) none none false false false
  | .cvti _ dest frm _ d _ => dest.isIN && frm.isIN && d.notImm
  | .cvtiX _ dest frm _ d a x => dest.isIN && frm.isIN && d.notImm && x.ok dest (some d) (some a) none none false false false
  | .pack _ t md d _ _ => packModOk t md && d.notImm
  | .packX _ t md d a b x => packModOk t md && d.notImm && x.ok t (some d) (some a) (some b) none false false false
  | .unpk _ t _ d _ => t.isPacked && d.notImm
  | .unpkX _ t _ d a x => t.isPacked && d.notImm && x.ok t (some d) (some a) none none true false false
  | .ld _ _ _ d c _ => d.notImm && c.isCap
  | .ldI _ _ _ d c _ => d.notImm && c.isCap
  | .st _ _ _ c _ a => a.notImm && c.isCap
  | .stI _ _ _ c a _ => a.notImm && c.isCap
  | .lds _ _ _ d _ => d.notImm
  | .ldsI _ _ _ d _ => d.notImm
  | .sts _ _ _ _ a => a.notImm
  | .stsI _ _ _ a _ => a.notImm
  | .pref _ _ _ c _ => c.isCap
  | .atom _ _ t op d c o a x =>
    op.atomTy t && d.notImm && c.isCap && x.ok t (some d) none (some o) (some a) false false true
  | .cas _ _ t d c _ _ => (t.isAtomBits || t == .f32 || t == .f64) && d.notImm && c.isCap
  | .red _ _ t op c o a x => op.atomTy t && c.isCap && x.ok t none none (some o) (some a) false false true
  | .capn _ _ d c _ _ => d.isCap && c.isCap
  | .capq _ _ d c => d.isReg3264 && c.isCap
  | .caps _ d c a => d.isCap && c.isCap && a.isWord
  | .give _ | .claim _ => true
  | .rgn a b c d => a.isReg && b.isReg && c.isReg && d.isReg
  | .srd _ d w => d.notImm && (w.space == .die || w.die == 0#4)
  | .swr _ _ w => w.space == .die || w.die == 0#4
  | .bra _ _ _ => true
  | .brx _ a _ => a.isHandle
  | .call _ d _ => d.isHandle
  | .ret _ _ => true
  | .exit _ | .nop _ | .nopLong _ | .yield _ => true
  | .plop _ _ _ _ _ => true
  | .fence _ _ _ => true
  | .acq _ _ a | .rel _ _ a => a.isD64
  | .bind _ c a => c.isCap && a.isD64
  | .unbind _ c => c.isCap
  | .waitc _ t op c o a x =>
    (t.isAtomInt || t.isAtomBits) && cmpOk t op && c.isCap && a.notImm && x.ok t none none (some o) (some a) false false false
  | .rvinit _ n _ | .rvarr _ n | .rvexp _ n _ | .rvwaitPlain _ n | .rvinv _ n => n.isUniImm
  | .rvwaitTimed _ n a _ x => n.isUniImm && x.ok .none none none (some a) none false false false
  | .rinit _ o a b => o.isWord && a.isWord && b.isWord
  | .rwait _ d o => d.isHandle && o.isWord
  | .rrel _ o => o.isWord
  | .cpwait _ k => k.isUniImm
  | .copy _ _ dir dest frm _ _ _ _ soff =>
    (match dir with
      | .gl | .gr => dest.isHandle && frm.isCap
      | .lg => dest.isCap && frm.isHandle
      | .gx => dest.isD64 && frm.isCap)
    && (dir == .gr || soff == 0#12)
  | .copym _ _ sk dest frm o _ _ _ => dest.isHandle && (if sk then frm.isHandle else frm.isCap) && (o.isSome == !sk)
  | .task _ c _ => c.isCap
  | .krel _ a => a.isD64
  | .qpush _ q c | .qpop _ c q => q.isUniImm && c.isCap
  | .lnch _ d c _ rec => d.isHandle && c.isCap && rec.isCap
  | .cncl _ a => a.isHandle
  | .cwait _ d a => d.isHandle && a.isHandle
  | .mma _ _ t a ks u =>
    t.isMatrix && a.notImm && sclOk t u.scl && (ks.isSome == u.scl)
    && (if u.asrc then u.npm == 0#6 else u.astr == 0#9)
  | .mspa _ _ t _ m a ks u =>
    t.isMatrix && t != .f32 && t != .f64 && m.isReg && a.notImm && sclOk t u.scl && (ks.isSome == u.scl)
    && (if u.asrc then u.npm == 0#6 else u.astr == 0#9)
  | .mloop _ _ t n a ks u => t.isMatrix && n.isUni && a.isUni && sclOk t u.scl && (ks.isSome == u.scl)
  | .mldb _ _ t sk frm o _ _ _ => t.isMatrix && (if sk then frm.isUni else frm.isCap) && (o.isSome == !sk)
  | .mlds _ _ sk rec frm o _ _ => rec.isCap && (if sk then frm.isUni else frm.isCap) && (o.isSome == !sk)
  | .mdrn _ _ op _ d dest o u =>
    match op with
    | .reg => (match d with | some r => r.isReg | none => false) && dest.isNone && o.isNone
    | _ =>
      d.isNone && u.npm == 0#6 && (o.isSome == !u.tgt)
      && (match dest with | some p => (if u.tgt then p.isUni else p.isCap) | none => false)
  | .mzro _ _ t tile v => (t == .f32 || t == .f64 || t == .i32) && tile.isUniImm && v.isUniImm
  | .tokp _ a => a.isUniImm
  | .tokw _ => true
  | .vdset _ _ op thr kb u =>
    kb.isUni && (thr.isNone == (op == .sign)) && (match thr with | some p => p.isHandle | none => true)
    && (op == .topk || (u.km == 0#7 && u.ks == 0#15))
  | .vdot _ _ t _ d a b c x =>
    (t == .f32 || t == .bf16x2 || t == .f16x2 || t == .e4m3x4 || t == .e5m2x4) && d.notImm
    && x.ok t (some d) (some a) (some b) (some c) true true false
  | .vthr _ _ tile a => tile.isUniImm && a.isHandle
  | .topk _ _ op d tile e =>
    tile.isUniImm
    && (match op with
        | .val | .idx => d.notImm && (match e with | some p => p.isUniImm | none => false)
        | .cnt => d.notImm && e.isNone
        | .full => d.isPred && e.isNone)
  | .trap _ _ | .sysc _ _ => true
  | .bkpt _ => true
  | .eret => true
  | .iflush _ c a => c.isCap && a.isWord
  | .unassignedOpcode _ => false
  | .escalationRecordPost die | .faultRecordPost die | .eccCorrected die | .pageWalk die => die < 9
  | .erespResume die _ | .erespCancel die _ | .frespServiced die _ | .frespUnrecoverable die _ => die < 9
  | .asyncTrapTake _ _ | .eccUncorrectable _ _ _ | .linkFlitCheckFail _ _ _ => true
  | .teamAdmit die | .teamResume die _ => die < 9
  | .teamRetire _ | .teamSwap _ | .teamSave _ | .keyHolderDeferExpiry _ => true
  | .splitFill die core lane => die < 9 && core < 18 && lane < 64
  | .heldSplitRelease _ | .passPromotion _ | .rvwaitExpiry _ => true
  | .claimdlReport die core | .gatherLine die core | .mloopStepStart die core => die < 9 && core < 18
  | .convoyNoticeArrival _ point => 16 ≤ point && point < 24
  | .copyBytesLand _ _ _ len => 0 < len
  | .ringSlotReserve _ => true
  | .multicastBufferDrain die _ => die < 9
  | .messageAck _ => true
  | .messageArrival m => m.circuit < 1024
  | .armedEntryEnable e _ => e < 64
  | .entryComplete idx => idx < 16383
  | .graphCopyNodeComplete idx node => idx < 16383 && node < 4096
  | .launchQueueDoorbell n _ | .launchQueueEnable n _ | .jobStart n => n < 64
  | .keyRequestArrival die _ | .keyGrantArrival die _ | .renameStorageTake die _ => die < 9
  | .copybackStart die _ tile | .copybackComplete die _ tile => die < 9 && tile < 4
  | .queueRefillLand q => q < 576
  | .quayWindowClose die core _ | .loadLineReturn die core _ => die < 9 && core < 18
  | .memoryWritePerform _ | .redPerform _ => true
  | .atomPerform _ _ _ | .atomReturn _ _ _ => true
  | .instanceStart die core _ | .instanceComplete die core _ => die < 9 && core < 18
  | .shootdownStart _ | .shootdownComplete => true
  | .migrationStart die _ | .migrationComplete die _ => die < 9
  | .serviceRingEnable die ring _ | .serviceRingPointerWrite die ring _ => die < 9 && ring < 5
  | .circuitSetup c _ => c < 1024
  | .circuitActive c | .circuitTeardown c | .circuitInactive c => c < 1024
  | .pkgidWrite _ | .tiercfgWrite _ | .ceilingWrite _ => true
  | .cxlPortTrained port _ _ => port < 4
  | .hostApertureAccess off _ len => off + len ≤ 4294967296
  | .limiterStep _ _ | .limiterRaise => true
  | .islandRequestWrite i _ => i < 128
  | .islandTransitionDone i => i < 128
  | .diePark die | .dieUnpark die | .dieDrainEnd die | .dieUnparkDone die | .microcodeUpdate die _ _ _ => die < 9
  | .checkpointStart | .checkpointDone | .restoreStart | .restoreDone => true
  | .coldReset _ _ _ => true
  | .attestationRequest nonce => nonce.length == 32
  | .registerWrite sp die num _ | .igtahildWorldWrite sp die num _ => sp != .special && die < 9 && num < 65536
  | .folioLoad _ | .folioUnload _ => true
  | .linkRetrainDone _ => true

/-- A word that would be longer or shorter than its opcode's fixed length (R66): the instruction lengths in bytes. -/
def Instr.bytes : Instr → Nat
  | .iaddX .. | .isubX .. | .imulX .. | .iminX .. | .imaxX .. | .imad .. | .bfi .. | .andX .. | .orX .. | .xorX .. | .movX ..
  | .selX .. | .faddX .. | .fsubX .. | .fmulX .. | .ffma .. | .fminX .. | .fmaxX .. | .fsetX .. | .fcvtX .. | .cvtiX ..
  | .packX .. | .unpkX .. | .atom .. | .red .. | .capn .. | .rgn .. | .waitc .. | .rvwaitPlain .. | .rvwaitTimed ..
  | .rinit .. | .vdot .. | .topk .. => 12
  | .iaddI .. | .imulI .. | .isetI .. | .andI .. | .orI .. | .xorI .. | .movi .. | .faddI .. | .fmulI .. | .fsetI ..
  | .ldI .. | .stI .. | .ldsI .. | .stsI .. | .srd .. | .swr .. | .call .. | .nopLong .. => 12
  | .cas .. | .bra .. | .brx .. | .copy .. | .copym .. | .task .. | .lnch .. | .mma .. | .mspa .. | .mloop .. | .mldb ..
  | .mlds .. | .mdrn .. | .vdset .. => 16
  | _ => 8

end Sys2Proof
end

