-- ==== Sys2Proof/Machine/Flags.lean ====
section
/-! DEFINITION. Number formats, exact values, rounding, flags, and floating-point arithmetic on bit patterns
(spec/06_number_formats.md). Values are exact fractions; each result is rounded once. -/

namespace Sys2Proof.Machine

/-! ### Flags -/

/-- Flags, laid out as %fstat bits 4..0 (R113). -/
abbrev Flags := BitVec 5

/-- Invalid operation. -/
def NV : Flags := 16#5
/-- Division by zero. -/
def DZ : Flags := 8#5
/-- Overflow. -/
def OF : Flags := 4#5
/-- Underflow. -/
def UF : Flags := 2#5
/-- Inexact. -/
def NX : Flags := 1#5

/-- A flag raised on a condition. -/
def flagIf (c : Bool) (f : Flags) : Flags := if c then f else 0#5

/-- Rounding directions (R73, R113). -/
inductive RMode where
  | rn | rz | ru | rd
  deriving DecidableEq, Repr

/-- RM of %fctl (R113). -/
def rmOf (fctl : Word) : RMode :=
  match (fctl.extractLsb' 0 2).toNat with
  | 0 => .rn | 1 => .rz | 2 => .ru | _ => .rd

/-- FTZ of %fctl (R113). -/
def ftzOf (fctl : Word) : Bool := fctl.getLsbD 2

/-- Flags whose trap is enabled (R113). -/
def enablesOf (fctl : Word) : Flags := fctl.extractLsb' 8 5

end Sys2Proof.Machine

namespace Sys2Proof

open Machine

/-- The rounding that MOD selects, or RM (R73, R115). -/
def Rnd.mode (r : Rnd) (fctl : Word) : RMode :=
  match r with
  | .fctl => rmOf fctl | .rn => .rn | .rz => .rz | .ru => .ru | .rd => .rd

/-- The flush that MOD selects, or FTZ (R73, R116). -/
def Flush.on (f : Flush) (fctl : Word) : Bool :=
  match f with
  | .fctl => ftzOf fctl | .ftz => true | .noftz => false

end Sys2Proof

namespace Sys2Proof.Machine

/-! ### Formats (R108) -/

/-- A binary format: its width, fraction bits, bias, and greatest finite code. -/
structure Fmt where
  bits : Nat
  fb : Nat
  bias : Nat
  maxCode : Nat
  hasInf : Bool
  deriving DecidableEq, Repr

def Fmt.f64 : Fmt := ⟨64, 52, 1023, 0x7FEFFFFFFFFFFFFF, true⟩
def Fmt.f32 : Fmt := ⟨32, 23, 127, 0x7F7FFFFF, true⟩
def Fmt.bf16 : Fmt := ⟨16, 7, 127, 0x7F7F, true⟩
def Fmt.f16 : Fmt := ⟨16, 10, 15, 0x7BFF, true⟩
def Fmt.e5m2 : Fmt := ⟨8, 2, 15, 0x7B, true⟩
def Fmt.e4m3 : Fmt := ⟨8, 3, 7, 0x7E, false⟩

/-- The canonical NaN of a format (R108, R109). -/
def Fmt.nan (f : Fmt) : Nat := if f.hasInf then f.maxCode + 1 + 2 ^ (f.fb - 1) else 0x7F

/-- A code with a sign. -/
def Fmt.signed (f : Fmt) (neg : Bool) (code : Nat) : Nat := if neg then 2 ^ (f.bits - 1) + code else code

/-- ±∞, or for E4M3 its NaN (R108, R115). -/
def Fmt.inf (f : Fmt) (neg : Bool) : Nat := if f.hasInf then f.signed neg (f.maxCode + 1) else f.nan

/-- The sign of a pattern. -/
def Fmt.neg (f : Fmt) (v : Nat) : Bool := bitOf v (f.bits - 1)

/-- The code of a pattern without its sign. -/
def Fmt.mag (f : Fmt) (v : Nat) : Nat := v % 2 ^ (f.bits - 1)

/-- A NaN pattern (R108). -/
def Fmt.isNan (f : Fmt) (v : Nat) : Bool := if f.hasInf then f.maxCode + 1 < f.mag v else f.mag v == 0x7F

/-- A signalling NaN: the top fraction bit clear; E4M3 has none (R108). -/
def Fmt.isSnan (f : Fmt) (v : Nat) : Bool := f.hasInf && f.isNan v && !bitOf v (f.fb - 1)

/-- ±∞. -/
def Fmt.isInf (f : Fmt) (v : Nat) : Bool := f.hasInf && f.mag v == f.maxCode + 1

/-- A subnormal: exponent field zero, fraction not zero (R108). -/
def Fmt.isSub (f : Fmt) (v : Nat) : Bool := f.mag v != 0 && f.mag v < 2 ^ f.fb

/-! ### Exact values -/

/-- A decoded value: a NaN, an infinity, or a sign and a magnitude n / d. -/
inductive FVal where
  | nan
  | inf (neg : Bool)
  | fin (neg : Bool) (n d : Nat)
  deriving DecidableEq, Repr

/-- m·2^e as a fraction. -/
def scaled2 (m : Nat) (e : Int) : Nat × Nat :=
  if 0 ≤ e then (m * 2 ^ e.toNat, 1) else (m, 2 ^ (-e).toNat)

/-- m·10^e as a fraction. -/
def scaled10 (m : Nat) (e : Int) : Nat × Nat :=
  if 0 ≤ e then (m * 10 ^ e.toNat, 1) else (m, 10 ^ (-e).toNat)

/-- The least exponent of a unit in the last place. -/
def Fmt.qmin (f : Fmt) : Int := 1 - (f.bias : Int) - f.fb

/-- The value of a pattern (R108). -/
def Fmt.val (f : Fmt) (v : Nat) : FVal :=
  if f.isNan v then .nan
  else if f.isInf v then .inf (f.neg v)
  else
    let c := f.mag v
    let e := c / 2 ^ f.fb
    let frac := c % 2 ^ f.fb
    let q := if e = 0 then scaled2 frac f.qmin else scaled2 (2 ^ f.fb + frac) (f.qmin + (e - 1))
    .fin (f.neg v) q.1 q.2

/-- An input under flush: a subnormal reads as a zero of its sign (R116). -/
def Fmt.flushIn (f : Fmt) (flush : Bool) (v : Nat) : Nat :=
  if flush && f.isSub v then f.signed (f.neg v) 0 else v

/-- floor(log2(n/d)) of a positive fraction. -/
def log2Frac (n d : Nat) : Int :=
  let e : Int := (Nat.log2 n : Int) - Nat.log2 d
  let below := if 0 ≤ e then n < d * 2 ^ e.toNat else n * 2 ^ (-e).toNat < d
  if below then e - 1 else e

/-- Whether rounding a fraction's integer part m moves it up: r / d is the rest (R115). -/
def roundUp (mode : RMode) (neg : Bool) (m r d : Nat) : Bool :=
  match mode with
  | .rn => d < 2 * r || (2 * r == d && m % 2 == 1)
  | .rz => false
  | .ru => !neg && r != 0
  | .rd => neg && r != 0

/-- n/d in units of 2^q, rounded; whether that was inexact. -/
def roundAt (mode : RMode) (neg : Bool) (q : Int) (n d : Nat) : Nat × Bool :=
  let n' := if 0 ≤ q then n else n * 2 ^ (-q).toNat
  let d' := if 0 ≤ q then d * 2 ^ q.toNat else d
  let m := n' / d'
  let r := n' % d'
  (if roundUp mode neg m r d' then m + 1 else m, r != 0)

/-- The result on overflow (R115). -/
def Fmt.overflow (f : Fmt) (mode : RMode) (sat neg : Bool) : Nat :=
  if sat then f.signed neg f.maxCode
  else
    match mode with
    | .rn => f.inf neg
    | .rz => f.signed neg f.maxCode
    | .ru => if neg then f.signed true f.maxCode else f.inf false
    | .rd => if neg then f.inf true else f.signed false f.maxCode

/-- A magnitude n/d with a sign, rounded once into a format, flushed on output (R115, R116). Underflow is found after
rounding and raised with inexact. -/
def Fmt.round (f : Fmt) (mode : RMode) (flush sat neg : Bool) (n d : Nat) : Nat × Flags :=
  if n = 0 then (f.signed neg 0, 0#5)
  else
    let e := log2Frac n d
    let q := max (e - f.fb) f.qmin
    let (m, inexact) := roundAt mode neg q n d
    let code := (q - f.qmin).toNat * 2 ^ f.fb + m
    if f.maxCode < code then (f.overflow mode sat neg, OF ||| NX)
    else
      let emin : Int := f.qmin + f.fb
      let un := roundAt mode neg (e - f.fb) n d
      let tiny := e < emin && !(e + 1 == emin && un.1 == 2 ^ (f.fb + 1))
      if flush && 0 < code && code < 2 ^ f.fb then (f.signed neg 0, UF ||| NX)
      else (f.signed neg code, flagIf inexact NX ||| flagIf (tiny && inexact) UF)

/-- A value encoded once into a format (R109, R115, R116); an infinity into a format without one is its NaN. -/
def Fmt.ofVal (f : Fmt) (mode : RMode) (flush : Bool) : FVal → Nat × Flags
  | .nan => (f.nan, 0#5)
  | .inf neg => (f.inf neg, 0#5)
  | .fin neg n d => f.round mode flush false neg n d

/-! ### Arithmetic -/

/-- A product; infinity times zero is a NaN with NV (R336). -/
def FVal.mul : FVal → FVal → FVal × Flags
  | .nan, _ => (.nan, 0#5)
  | _, .nan => (.nan, 0#5)
  | .inf s, .inf t => (.inf (s != t), 0#5)
  | .inf s, .fin t n _ => if n = 0 then (.nan, NV) else (.inf (s != t), 0#5)
  | .fin s n _, .inf t => if n = 0 then (.nan, NV) else (.inf (s != t), 0#5)
  | .fin s n d, .fin t m e => (.fin (s != t) (n * m) (d * e), 0#5)

/-- The value with the other sign. -/
def FVal.negate : FVal → FVal
  | .nan => .nan
  | .inf s => .inf (!s)
  | .fin s n d => .fin (!s) n d

/-- A finite value as a signed fraction. -/
def FVal.frac : FVal → Int × Nat
  | .fin s n d => (if s then -(n : Int) else n, d)
  | _ => (0, 1)

/-- A NaN. -/
def FVal.isNan : FVal → Bool
  | .nan => true
  | _ => false

/-- An infinity of sign s. -/
def FVal.isInf (s : Bool) : FVal → Bool
  | .inf t => s == t
  | _ => false

/-- A zero. -/
def FVal.isZero : FVal → Bool
  | .fin _ n _ => n == 0
  | _ => false

/-- A negative sign. -/
def FVal.sign : FVal → Bool
  | .nan => false
  | .inf s => s
  | .fin s _ _ => s

/-- The sum of finite signed fractions. -/
def fracSum (l : List (Int × Nat)) : Int × Nat :=
  l.foldl (fun a b => (a.1 * b.2 + b.1 * a.2, a.2 * b.2)) (0, 1)

/-- An exact sum. Infinities of opposite sign make a NaN with NV, beside a NaN too; an exact zero sum of terms that are not all zeros of one
sign is +0, or −0 under .rd (R336). -/
def exactSum (mode : RMode) (l : List FVal) : FVal × Flags :=
  if l.any (FVal.isInf false) && l.any (FVal.isInf true) then (.nan, NV)
  else if l.any FVal.isNan then (.nan, 0#5)
  else if l.any (FVal.isInf false) then (.inf false, 0#5)
  else if l.any (FVal.isInf true) then (.inf true, 0#5)
  else
    let s := fracSum (l.map FVal.frac)
    if s.1 = 0 then
      if l.all (fun v => v.isZero && !v.sign) then (.fin false 0 1, 0#5)
      else if l.all (fun v => v.isZero && v.sign) then (.fin true 0 1, 0#5)
      else (.fin (mode == .rd) 0 1, 0#5)
    else (.fin (s.1 < 0) s.1.natAbs s.2, 0#5)

/-- NV for a signalling NaN among the inputs (R109). -/
def Fmt.snanFlag (f : Fmt) (vs : List Nat) : Flags := flagIf (vs.any f.isSnan) NV

/-- x + y (R336). -/
def Fmt.add (f : Fmt) (mode : RMode) (flush : Bool) (a b : Nat) : Nat × Flags :=
  let x := f.flushIn flush a
  let y := f.flushIn flush b
  let (v, fl) := exactSum mode [f.val x, f.val y]
  let (r, fr) := f.ofVal mode flush v
  (r, f.snanFlag [x, y] ||| fl ||| fr)

/-- x − y (R336). -/
def Fmt.sub (f : Fmt) (mode : RMode) (flush : Bool) (a b : Nat) : Nat × Flags :=
  let x := f.flushIn flush a
  let y := f.flushIn flush b
  let (v, fl) := exactSum mode [f.val x, (f.val y).negate]
  let (r, fr) := f.ofVal mode flush v
  (r, f.snanFlag [x, y] ||| fl ||| fr)

/-- x × y (R336). -/
def Fmt.mul (f : Fmt) (mode : RMode) (flush : Bool) (a b : Nat) : Nat × Flags :=
  let x := f.flushIn flush a
  let y := f.flushIn flush b
  let (v, fl) := (f.val x).mul (f.val y)
  let (r, fr) := f.ofVal mode flush v
  (r, f.snanFlag [x, y] ||| fl ||| fr)

/-- x × y + z with one rounding (R336); infinity times zero raises NV also when z is a quiet NaN. -/
def Fmt.fma (f : Fmt) (mode : RMode) (flush : Bool) (a b c : Nat) : Nat × Flags :=
  let x := f.flushIn flush a
  let y := f.flushIn flush b
  let z := f.flushIn flush c
  let (p, fp) := (f.val x).mul (f.val y)
  let (v, fl) := exactSum mode [p, f.val z]
  let (r, fr) := f.ofVal mode flush v
  (r, f.snanFlag [x, y, z] ||| fp ||| fl ||| fr)

/-- The order of two values that are no NaN: −1, 0 or 1. Zeros are equal. -/
def FVal.cmp (x y : FVal) : Int :=
  let key : FVal → Int × Nat
    | .inf s => (if s then -1 else 1, 0)
    | v => (0, v.frac.2)
  match key x, key y with
  | (a, 0), (b, 0) => if a < b then -1 else if b < a then 1 else 0
  | (a, 0), _ => a
  | _, (b, 0) => -b
  | _, _ =>
    let p := x.frac.1 * y.frac.2
    let q := y.frac.1 * x.frac.2
    if p < q then -1 else if q < p then 1 else 0

/-- x below y with −0 below +0 (R338). -/
def Fmt.below (f : Fmt) (x y : Nat) : Bool :=
  let c := (f.val x).cmp (f.val y)
  c == -1 || (c == 0 && f.neg x && !f.neg y)

/-- minimumNumber or maximumNumber (R338). -/
def Fmt.select (f : Fmt) (isMin flush : Bool) (a b : Nat) : Nat × Flags :=
  let x := f.flushIn flush a
  let y := f.flushIn flush b
  let r :=
    if f.isNan x && f.isNan y then f.nan
    else if f.isNan x then y
    else if f.isNan y then x
    else if isMin then (if f.below y x then y else x)
    else (if f.below x y then y else x)
  (r, f.snanFlag [x, y])

/-- The comparisons of FSET (R341). -/
def Fmt.compare (f : Fmt) (op : FCmp) (flush : Bool) (a b : Nat) : Bool × Flags :=
  let x := f.flushIn flush a
  let y := f.flushIn flush b
  let un := f.isNan x || f.isNan y
  let c := (f.val x).cmp (f.val y)
  let r :=
    match op with
    | .eq => !un && c == 0
    | .ne => un || c != 0
    | .lt => !un && c < 0
    | .le => !un && c ≤ 0
    | .gt => !un && 0 < c
    | .ge => !un && 0 ≤ c
    | .num => !un
    | .nan => un
  (r, f.snanFlag [x, y])

/-- FRND (R340). -/
def Fmt.rint (f : Fmt) (mode : RMode) (flush : Bool) (a : Nat) : Nat × Flags :=
  let x := f.flushIn flush a
  match f.val x with
  | .nan => (f.nan, f.snanFlag [x])
  | .inf s => (f.inf s, 0#5)
  | .fin s n d =>
    if n = 0 then (x, 0#5)
    else
      let (m, ix) := roundAt mode s 0 n d
      ((f.round .rz false false s m 1).1, flagIf ix NX)

/-- The greatest r with r·r ≤ n. -/
def isqrt (n : Nat) : Nat :=
  (List.range (Nat.log2 n / 2 + 1)).reverse.foldl (fun r i => if (r + 2 ^ i) * (r + 2 ^ i) ≤ n then r + 2 ^ i else r) 0

/-- A fraction that rounds as √(n/d) does into every format of at most p bits: exact, or half a unit of a finer grid
above its floor. -/
def sqrtFrac (p n d : Nat) : Nat × Nat :=
  let k := p + 4 + Nat.log2 d
  let big := n * 4 ^ k
  let q := big / d
  let s := isqrt q
  if s * s = q && big % d = 0 then (s, 2 ^ k) else (2 * s + 1, 2 ^ (k + 1))

/-- FRCP (R339). -/
def Fmt.rcp (f : Fmt) (mode : RMode) (flush : Bool) (a : Nat) : Nat × Flags :=
  let x := f.flushIn flush a
  match f.val x with
  | .nan => (f.nan, f.snanFlag [x])
  | .inf s => (f.signed s 0, 0#5)
  | .fin s n d => if n = 0 then (f.inf s, DZ) else f.round mode flush false s d n

/-- FRSQ (R339). -/
def Fmt.rsq (f : Fmt) (mode : RMode) (flush : Bool) (a : Nat) : Nat × Flags :=
  let x := f.flushIn flush a
  match f.val x with
  | .nan => (f.nan, f.snanFlag [x])
  | .inf s => if s then (f.nan, NV) else (f.signed false 0, 0#5)
  | .fin s n d =>
    if n = 0 then (f.inf s, DZ)
    else if s then (f.nan, NV)
    else
      let r := sqrtFrac (f.fb + 1) d n
      f.round mode flush false false r.1 r.2

/-- squareRoot (R342, R343). -/
def Fmt.sqrt (f : Fmt) (mode : RMode) (flush : Bool) (a : Nat) : Nat × Flags :=
  let x := f.flushIn flush a
  match f.val x with
  | .nan => (f.nan, f.snanFlag [x])
  | .inf s => if s then (f.nan, NV) else (f.inf false, 0#5)
  | .fin s n d =>
    if n = 0 then (x, 0#5)
    else if s then (f.nan, NV)
    else
      let r := sqrtFrac (f.fb + 1) n d
      f.round mode flush false false r.1 r.2

/-! ### D8 (R111, R112) -/

/-- The magnitude of a payload (R111). -/
def d8Mag (p : Nat) : Nat × Nat :=
  if p = 0 then (0, 1)
  else
    let t := Nat.log2 p
    let z := 6 - t
    let fr := p % 2 ^ t
    let s := scaled10 (2 ^ t + 9 * fr) (2 - (z : Int))
    (s.1, s.2 * 2 ^ t)

/-- The value of a code; NaR is a NaN (R111). -/
def d8Val (c : Nat) : FVal :=
  if c % 256 = 0x80 then .nan
  else
    let m := d8Mag (c % 128)
    .fin (bitOf c 7) m.1 m.2

/-- n/d ≤ m/e. -/
def fracLe (n d m e : Nat) : Bool := n * e ≤ m * d

/-- The greatest payload whose magnitude is at most n/d; payload order is magnitude order (R111). -/
def d8Floor (n d : Nat) : Nat :=
  (List.range 7).reverse.foldl (fun p i => if fracLe (d8Mag (p + 2 ^ i)).1 (d8Mag (p + 2 ^ i)).2 n d then p + 2 ^ i else p) 0

/-- Conversion into D8 (R112); sn: the input was a signalling NaN. -/
def d8Of (mode : RMode) (sn : Bool) : FVal → Nat × Flags
  | .nan => (0x80, flagIf sn NV)
  | .inf s => (if s then 0xFF else 0x7F, 0#5)
  | .fin s n d =>
    let top := d8Mag 127
    if !fracLe n d top.1 top.2 then (if s then 0xFF else 0x7F, OF ||| NX)
    else
      let p := d8Floor n d
      let lo := d8Mag p
      let exact := fracLe n d lo.1 lo.2
      let up :=
        if exact then false
        else
          match mode with
          | .rn =>
            let hi := d8Mag (p + 1)
            -- twice the value against the sum of its neighbours
            let sn2 := (lo.1 * hi.2 + hi.1 * lo.2, lo.2 * hi.2)
            let twice := (2 * n, d)
            if fracLe twice.1 twice.2 sn2.1 sn2.2 then
              (if fracLe sn2.1 sn2.2 twice.1 twice.2 then p % 2 == 1 else false)
            else true
          | .rz => false
          | .ru => !s
          | .rd => s
      let c := if up then p + 1 else p
      let small := !exact && n * 10000 < d && n != 0
      (if c = 0 then 0 else if s then 128 + c else c, flagIf (!exact) NX ||| flagIf small UF)

end Sys2Proof.Machine

namespace Sys2Proof

open Machine

/-! ### Types -/

/-- The binary format of a floating type or element (R72, R108). -/
def Ty.fmt : Ty → Option Fmt
  | .f64 => some .f64
  | .f32 => some .f32
  | .bf16 | .bf16x2 => some .bf16
  | .f16 | .f16x2 => some .f16
  | .e4m3 | .e4m3x4 => some .e4m3
  | .e5m2 | .e5m2x4 => some .e5m2
  | _ => Option.none

/-- The width in bits of a type's element (R72, R110). -/
def Ty.ebits : Ty → Nat
  | .f64 | .i64 | .n64 | .b64 => 64
  | .f32 | .i32 | .n32 | .b32 => 32
  | .bf16 | .f16 | .i16 | .n16 | .b16 | .bf16x2 | .f16x2 | .i16x2 | .n16x2 => 16
  | .e4m3 | .e5m2 | .d8 | .i8 | .n8 | .b8 | .e4m3x4 | .e5m2x4 | .i8x4 | .n8x4 => 8
  | .i4 | .n4 | .i4x8 | .n4x8 => 4
  | .none => 0

/-- The width in bits of a type: 32 for every packed type. -/
def Ty.bits (t : Ty) : Nat := if t.isPacked then 32 else t.ebits

/-- The element type is signed: .i types and their packed forms (R49). -/
def Ty.isSigned : Ty → Bool
  | .i64 | .i32 | .i16 | .i8 | .i4 | .i16x2 | .i8x4 | .i4x8 => true
  | _ => false

/-- The elements of a packed value, element 0 first; the value itself when not packed (R75, R110). -/
def Ty.split (t : Ty) (v : Nat) : List Nat :=
  (List.range t.elems).map (fun i => v / 2 ^ (t.ebits * i) % 2 ^ t.ebits)

end Sys2Proof

namespace Sys2Proof.Machine

/-- The value of elements of w bits, element 0 lowest. -/
def joinElems (w : Nat) (l : List Nat) : Nat := l.foldr (fun e acc => e % 2 ^ w + 2 ^ w * acc) 0

/-- Elementwise results and the union of their flags (R110). -/
def collect (w : Nat) (l : List (Nat × Flags)) : Nat × Flags :=
  (joinElems w (l.map Prod.fst), l.foldl (fun a p => a ||| p.2) 0#5)

/-- An abandoned value (R155). -/
def isAbandoned (v : Nat) : Bool := v % 2 ^ 32 / 2 ^ 17 == 0x3FD8

/-! ### Integers -/

/-- The least and greatest values of w bits under a signedness. -/
def intMin (signed : Bool) (w : Nat) : Int := if signed then -(2 ^ (w - 1) : Nat) else 0
def intMax (signed : Bool) (w : Nat) : Int := if signed then (2 ^ (w - 1) : Nat) - 1 else (2 ^ w : Nat) - 1

/-- An integer held between two bounds. -/
def clampI (lo hi v : Int) : Int := if v < lo then lo else if hi < v then hi else v

/-- The value of a w-bit pattern under a signedness. -/
def intVal (signed : Bool) (w v : Nat) : Int := if signed then toSigned w (v % 2 ^ w) else ((v % 2 ^ w : Nat) : Int)

/-- write_width of R345: an exact value under operation width w into dw bits. -/
def writeWidth (signed sat : Bool) (w dw : Nat) (v : Int) : Nat :=
  let lim := min w dw
  let q : Int := if sat then clampI (intMin signed lim) (intMax signed lim) v else intVal signed w (wrap w v)
  wrap dw q

/-! ### Conversion (R118) -/

/-- The value of a floating or D8 pattern, flushed if flushing applies, and whether it is a signalling NaN. -/
def fromVal (t : Ty) (flush : Bool) (v : Nat) : FVal × Bool :=
  match t.fmt with
  | some f => let x := f.flushIn flush v; (f.val x, f.isSnan x)
  | none => (d8Val v, false)

/-- Every value of format f is one of format g: a conversion of f to g is exact (R118). -/
def Fmt.widens (f g : Fmt) : Bool :=
  f.fb ≤ g.fb && g.qmin ≤ f.qmin
    && (match f.val f.maxCode, g.val g.maxCode with
        | .fin _ n d, .fin _ m e => fracLe n d m e
        | _, _ => false)

/-- `.sat` as FCVT uses it: it belongs to a narrowing (R118). -/
def satOf (frm dest : Ty) (sat : Bool) : Bool :=
  match frm.fmt, dest.fmt with
  | some f, some g => sat && !f.widens g
  | _, _ => sat

/-- FCVT's result in the destination type's width (R118); the source is an exact value. -/
def convertVal (dest : Ty) (mode : RMode) (flush sat sn isD8 : Bool) (x : FVal) : Int × Flags :=
  if dest.isIN then
    match x with
    | .nan => (0, NV)
    | .inf s => (if s then intMin dest.isSigned dest.bits else intMax dest.isSigned dest.bits, NV)
    | .fin s n d =>
      let (m, ix) := roundAt mode s 0 n d
      let v : Int := if s then -(m : Int) else m
      let c := clampI (intMin dest.isSigned dest.bits) (intMax dest.isSigned dest.bits) v
      if c = v then (v, flagIf ix NX) else (c, NV)
  else
    match dest.fmt with
    | none => if isD8 then ((d8Of mode false x).1, 0#5) else let r := d8Of mode sn x; (r.1, r.2)
    | some f =>
      match x with
      | .nan => (f.nan, flagIf sn NV)
      | .inf s =>
        if sat then (f.signed s f.maxCode, 0#5)
        else if f.hasInf then (f.inf s, 0#5) else (f.nan, NV)
      | .fin s n d => let r := f.round mode flush sat s n d; (r.1, r.2)

/-! ### Special functions (R342, R343): fixed-point approximations that the bounds are tested against -/

/-- Fraction bits of the fixed-point approximations. -/
def fixBits : Nat := 320

/-- π·2^320, truncated. -/
def fixPi : Int :=
  6710401180212168915155840974220003240804194089427148950727106424351713218671805380099500388914039

/-- A product of fixed-point numbers. -/
def fixMul (a b : Int) : Int := a * b / (2 ^ fixBits : Nat)

/-- A sum of terms t₀, t₁, …, each the last times x divided by the next divisor. -/
def fixSeries (x : Int) (divs : List Nat) (t0 : Int) : Int :=
  (divs.foldl (fun (acc : Int × Int) (k : Nat) => let t := fixMul acc.2 x / (k : Int); (acc.1 + t, t)) (t0, t0)).1

/-- One in fixed point. -/
def fixOne : Int := (2 ^ fixBits : Nat)

/-- e^x for |x| ≤ 1. -/
def fixExp (x : Int) : Int := fixSeries x ((List.range 70).map (· + 1)) fixOne

/-- atanh(y) for |y| ≤ 1/3: y + y³/3 + y⁵/5 + … -/
def fixAtanh (y : Int) : Int :=
  let y2 := fixMul y y
  ((List.range 110).foldl
    (fun (acc : Int × Int) k => (acc.1 + acc.2 / ((2 * k + 1 : Nat) : Int), fixMul acc.2 y2)) (0, y)).1

/-- ln 2. -/
def fixLn2 : Int := 2 * fixAtanh (fixOne / 3)

/-- sin and cos of |x| ≤ 1. -/
def fixSin (x : Int) : Int := fixSeries (-(fixMul x x)) ((List.range 40).map (fun i => (2 * i + 2) * (2 * i + 3))) x
def fixCos (x : Int) : Int := fixSeries (-(fixMul x x)) ((List.range 40).map (fun i => (2 * i + 1) * (2 * i + 2))) fixOne

/-- A signed fraction in fixed point. -/
def fixOf (s : Bool) (n d : Nat) : Int :=
  let v : Int := (n * 2 ^ fixBits / d : Nat)
  if s then -v else v

/-- sin or cos of a value: reduced by multiples of π/2 (π carried to 320 bits, inputs below 2^128). -/
def fixTrig (cos : Bool) (s : Bool) (n d : Nat) : Int :=
  let x := fixOf s n d
  let h := fixPi / 2
  let k := (2 * x + h) / (2 * h)
  let r := x - k * h
  let q := ((k + (if cos then 1 else 0)) % 4).toNat
  match q with
  | 0 => fixSin r
  | 1 => fixCos r
  | 2 => -(fixSin r)
  | _ => -(fixCos r)

/-- 2^x as a fixed-point mantissa in [1, 2) and an exponent. -/
def fixEx2 (s : Bool) (n d : Nat) : Int × Int :=
  let x := fixOf s n d
  let i := x / fixOne
  (fixExp (fixMul (x - i * fixOne) fixLn2), i)

/-- log2 of a positive fraction. -/
def fixLg2 (n d : Nat) : Int :=
  let e := log2Frac n d
  let m : Int := if 0 ≤ e then (n * 2 ^ fixBits / (d * 2 ^ e.toNat) : Nat) else (n * 2 ^ (-e).toNat * 2 ^ fixBits / d : Nat)
  let y := (m - fixOne) * fixOne / (m + fixOne)
  e * fixOne + 2 * fixAtanh y * fixOne / fixLn2

/-- tanh x = (e^2x − 1)/(e^2x + 1), with e^2x = 2^(2x / ln 2); 1 to 2^-60 from 32 on. -/
def fixTanh (s : Bool) (n d : Nat) : Int :=
  let r :=
    if 32 * d ≤ n then fixOne - fixOne / 2 ^ 60
    else
      let x := fixOf false n d
      let y := 2 * x * fixOne / fixLn2
      let i := y / fixOne
      let e := fixExp (fixMul (y - i * fixOne) fixLn2) * 2 ^ i.toNat
      (e - fixOne) * fixOne / (e + fixOne)
  if s then -r else r

/-- The approximation of a function as a sign and a fraction (R343); ops 0 to 4. -/
def sfnApprox (op : SfnOp) (s : Bool) (n d : Nat) : Bool × Nat × Nat :=
  let fx (v : Int) : Bool × Nat × Nat := (v < 0, v.natAbs, 2 ^ fixBits)
  match op with
  | .sin => fx (fixTrig false s n d)
  | .cos => fx (fixTrig true s n d)
  | .lg2 => fx (fixLg2 n d)
  | .tanh =>
    -- below 2^-40 the function is its argument to far less than an ulp
    if n * 2 ^ 40 < d then (s, n, d) else fx (fixTanh s n d)
  | .ex2 =>
    if 256 * d ≤ n then (false, if s then 1 else 2 ^ 300, if s then 2 ^ 300 else 1)
    else
      let r := fixEx2 s n d
      if 0 ≤ r.2 then (false, r.1.natAbs * 2 ^ r.2.toNat, 2 ^ fixBits) else (false, r.1.natAbs, 2 ^ fixBits * 2 ^ (-r.2).toNat)
  | .sqrt => (false, 0, 1)

/-- The integer value of a fraction, if it is one. -/
def wholeOf (s : Bool) (n d : Nat) : Option Int :=
  if n % d = 0 then some (if s then -((n / d : Nat) : Int) else ((n / d : Nat) : Int)) else none

/-- One unit in the last place of an FP32 value of magnitude n/d. -/
def ulp32 (n d : Nat) : Nat × Nat :=
  let q := if n = 0 then Fmt.f32.qmin else max (log2Frac n d - 23) Fmt.f32.qmin
  scaled2 1 q

/-- A candidate result lies within the bound of R343, widened by 2^-60 of it for the approximation's own error. -/
def sfnWithin (op : SfnOp) (inHalf : Bool) (ap : Bool × Nat × Nat) (cand : Nat) : Bool :=
  match Fmt.f32.val cand with
  | .fin s n d =>
    let a : Int := if ap.1 then -(ap.2.1 : Int) else ap.2.1
    let c : Int := if s then -(n : Int) else n
    let diff := ((a * d - c * ap.2.2).natAbs, ap.2.2 * d)
    let u := ulp32 n d
    let two := (2 * u.1 * (2 ^ 60 + 1), u.2 * 2 ^ 60)
    let abs : Nat × Nat := (2 ^ 60 + 1, 2 ^ 82)
    fracLe diff.1 diff.2 two.1 two.2
      || ((op == .sin || op == .cos || (op == .lg2 && inHalf)) && fracLe diff.1 diff.2 abs.1 abs.2)
  | _ => false

/-- The .f32 function of FSFN ops sin to tanh on a flushed input (R342, R343). The special and exact results are the
table's. Every other finite result is the free candidate where it is within the bound, and otherwise the nearest FP32 of
the exact value (log 9). -/
def sfn32 (op : SfnOp) (code : Nat) (flush : Bool) (a : Nat) : Nat × Flags :=
  let f := Fmt.f32
  let x := f.flushIn flush a
  let general (s : Bool) (n d : Nat) : Nat × Flags :=
    let ap := sfnApprox op s n d
    let near := f.round .rn flush false ap.1 ap.2.1 ap.2.2
    let c := (Config.sfnCandidate code (BitVec.ofNat 32 x)).toNat
    let inHalf := fracLe 1 2 n d && fracLe n d 2 1
    let small := f.isSub near.1 || f.mag near.1 == 0
    if near.2 &&& OF != 0#5 then near
    else if sfnWithin op inHalf ap c then
      (if flush && f.isSub c then (f.signed (f.neg c) 0, UF ||| NX)
       else (c, NX ||| flagIf (f.isSub c || (f.mag c == 0 && small)) UF))
    else (near.1, near.2 ||| NX ||| flagIf small UF)
  match f.val x with
  | .nan => (f.nan, f.snanFlag [x])
  | .inf s =>
    match op with
    | .sin | .cos => (f.nan, NV)
    | .ex2 => if s then (0, 0#5) else (f.inf false, 0#5)
    | .lg2 => if s then (f.nan, NV) else (f.inf false, 0#5)
    | .tanh => (f.signed s 0x3F800000, 0#5)
    | .sqrt => (0, 0#5)
  | .fin s n d =>
    match op with
    | .sin | .tanh => if n = 0 then (x, 0#5) else general s n d
    | .cos => if n = 0 then (0x3F800000, 0#5) else general s n d
    | .ex2 =>
      if n = 0 then (0x3F800000, 0#5)
      else
        match wholeOf s n d with
        | some i =>
          if i < -149 || 127 < i then general s n d
          else
            let r := scaled2 1 i
            f.round .rn flush false false r.1 r.2
        | none => general s n d
    | .lg2 =>
      if n = 0 then (f.inf true, DZ)
      else if s then (f.nan, NV)
      else
        let e := log2Frac n d
        let pw := if 0 ≤ e then n == d * 2 ^ e.toNat else n * 2 ^ (-e).toNat == d
        if pw then f.round .rn flush false (e < 0) e.natAbs 1 else general s n d
    | .sqrt => (0, 0#5)

/-- FSFN on one element of a format (R342): .sqrt in RM; the others widened exactly to FP32 and rounded once, underflow found in the
format (R115). -/
def Fmt.sfn (f : Fmt) (op : SfnOp) (mode : RMode) (flush : Bool) (a : Nat) : Nat × Flags :=
  match op with
  | .sqrt => f.sqrt mode flush a
  | _ =>
    let code := match op with | .sin => 0 | .cos => 1 | .ex2 => 2 | .lg2 => 3 | .tanh => 4 | .sqrt => 5
    if f = Fmt.f32 then sfn32 op code flush a
    else
      let x := f.flushIn flush a
      if f.isNan x then (f.nan, f.snanFlag [x])
      else
        let (r, fl) := sfn32 op code false ((Fmt.f32.ofVal .rn false (f.val x)).1)
        let (q, fq) := f.ofVal .rn flush (Fmt.f32.val r)
        let all := fl &&& ~~~UF ||| fq
        (q, all ||| flagIf (all &&& NX != 0#5 && (f.isSub q || (f.mag q == 0 && fl &&& UF != 0#5))) UF)

end Sys2Proof.Machine
end

