-- ==== Sys2Proof/Machine/Space.lean ====
section
/-! DEFINITION. Accessors of the state's records, control words with their reset values, physical memory, page tables and
translation (spec/09, spec/13 R266, spec/15). -/

namespace Sys2Proof.Machine

/-! ### Records -/

/-- The number of core c of die d: 32 numbers to a die, 31 for an engine outside the cores. -/
def coreKey (d c : Nat) : Nat := d * 32 + c

/-- The number of warp w of a team. -/
def warpKey (team w : Nat) : Nat := team * 32 + w

namespace State

/-- Die d. -/
def die (s : State) (d : Nat) : Die := Tbl.get s.dies d Die.reset

/-- The state with die d changed. -/
def updDie (s : State) (d : Nat) (f : Die → Die) : State := { s with dies := Tbl.put d (f (s.die d)) s.dies }

/-- The state with every die changed. -/
def mapDies (s : State) (f : Die → Die) : State := { s with dies := s.dies.map (fun p => (p.1, f p.2)) }

/-- Core c of die d. -/
def core (s : State) (d c : Nat) : Core := Tbl.get s.cores (coreKey d c) Core.reset

/-- The state with a core changed. -/
def updCore (s : State) (d c : Nat) (f : Core → Core) : State :=
  { s with cores := Tbl.put (coreKey d c) (f (s.core d c)) s.cores }

/-- A team, if it exists. -/
def team? (s : State) (t : Nat) : Option Team := Tbl.look t s.teams

/-- The state with a team changed. -/
def updTeam (s : State) (t : Nat) (f : Team → Team) : State := { s with teams := Tbl.alter t f s.teams }

/-- A warp of a team, if it exists. -/
def warp? (s : State) (t w : Nat) : Option Warp := Tbl.look (warpKey t w) s.warps

/-- The state with a warp changed. -/
def updWarp (s : State) (t w : Nat) (f : Warp → Warp) : State :=
  { s with warps := Tbl.alter (warpKey t w) f s.warps }

/-- The warps of a team, in index order. -/
def warpsOf (s : State) (t : Nat) : List Warp := (s.warps.filter (fun p => p.2.team == t)).map Prod.snd

/-- The state with every warp of a team changed. -/
def updWarps (s : State) (t : Nat) (f : Warp → Warp) : State :=
  { s with warps := s.warps.map (fun p => (p.1, if p.2.team == t then f p.2 else p.2)) }

/-- A completion entry. -/
def completion (s : State) (i : Nat) : Completion := Tbl.get s.completions i Completion.reset

/-- The state with a completion entry changed. -/
def updCompletion (s : State) (i : Nat) (f : Completion → Completion) : State :=
  { s with completions := Tbl.put i (f (s.completion i)) s.completions }

/-- A hardware queue (R216). -/
def queue (s : State) (q : Nat) : HwQueue := Tbl.get s.queues q HwQueue.reset

/-- The state with a queue changed. -/
def updQueue (s : State) (q : Nat) (f : HwQueue → HwQueue) : State := { s with queues := Tbl.put q (f (s.queue q)) s.queues }

/-- The state with a launch changed. -/
def updLaunch (s : State) (l : Nat) (f : Launch → Launch) : State := { s with launches := Tbl.alter l f s.launches }

/-- The state with a convoy changed. -/
def updConvoy (s : State) (c : Nat) (f : Convoy → Convoy) : State := { s with convoys := Tbl.alter c f s.convoys }

end State

/-- An entry of a warp's split table. -/
def Warp.entry? (w : Warp) (id : Nat) : Option Entry := w.entries.find? (fun e => e.id == id)

/-- A warp with an entry changed. -/
def Warp.updEntry (w : Warp) (id : Nat) (f : Entry → Entry) : Warp :=
  { w with entries := mapIf (fun e => e.id == id) f w.entries }

/-- A thread of a warp. -/
def Warp.thread (w : Warp) (t : Nat) : Thread := w.threads.getD t { Thread.reset with exited := true }

/-- A warp with a thread changed. -/
def Warp.updThread (w : Warp) (t : Nat) (f : Thread → Thread) : Warp := { w with threads := modAt t f w.threads }

/-- The state with an entry changed. -/
def State.updEntry (s : State) (r : LeafRef) (f : Entry → Entry) : State :=
  s.updWarp r.team r.warp (fun w => w.updEntry r.leaf f)

/-- The state with a thread changed. -/
def State.updThread (s : State) (t w th : Nat) (f : Thread → Thread) : State :=
  s.updWarp t w (fun wp => wp.updThread th f)

/-- Uniform register k, of the shadow set in handler mode (R52, R253). -/
def Warp.uniReg (w : Warp) (k : Nat) : Nat :=
  let u := if w.handler.isSome then w.shadow else w.uni
  u.toNat / 2 ^ (32 * k) % 2 ^ 32

/-- 4096 bits with register k replaced. -/
def setUni (u : BitVec 4096) (k v : Nat) : BitVec 4096 := BitVec.ofNat 4096 (setBits u.toNat (32 * k + 31) (32 * k) v)

/-- A write of uniform register k in the chosen set (R52, R253). -/
def Warp.setUniIn (w : Warp) (sh : Bool) (k v : Nat) : Warp :=
  if sh then { w with shadow := setUni w.shadow k v } else { w with uni := setUni w.uni k v }

/-- A write of uniform register k. -/
def Warp.setUniReg (w : Warp) (k v : Nat) : Warp := w.setUniIn w.handler.isSome k v

/-- Threads of a warp that have not exited. -/
def Warp.liveMask (w : Warp) : BitVec 32 :=
  maskOf ((List.range w.threads.length).filter (fun t => !(w.thread t).exited))

/-! ### Control words (R377) -/

/-- Edge-adjacent dies (R9). -/
def adjacent (a b : Nat) : Bool :=
  (a / 3 == b / 3 && (a % 3 + 1 == b % 3 || b % 3 + 1 == a % 3)) || (a % 3 == b % 3 && (a / 3 + 1 == b / 3 || b / 3 + 1 == a / 3))

/-- The die pairs of the fixed internal circuits 0 to 23, in order (R280). -/
def circuitPairs : List (Nat × Nat) :=
  ((List.range 9).flatMap (fun a => (List.range 9).map (fun b => (a, b)))).filter (fun p => p.1 < p.2 && !adjacent p.1 p.2)

/-- Reset values of package control words (R226, R278, R280, R283; the others are 0, log 6). -/
def wordReset (n : Nat) : Word64 :=
  if n = 0x10 then 0xFFFFF#64
  else if n = 0x30 then 0x3E8#64
  else if 0x1000 ≤ n && n < 0x1100 && n % 4 == 1 then 0x400004#64
  else if 0x3000 ≤ n && n < 0x3018 then
    let p := circuitPairs.getD (n - 0x3000) (0, 0)
    BitVec.ofNat 64 (2 ^ 63 + p.1 * 2 ^ 53 + p.2 * 2 ^ 49 + 1)
  else 0#64

/-- A stored package control word. -/
def State.word (s : State) (n : Nat) : Word64 := Tbl.get s.words n (wordReset n)

/-- The state with a package control word set. -/
def State.setWord (s : State) (n : Nat) (v : Word64) : State := { s with words := Tbl.put n v s.words }

/-- A stored die control word; reset values are 0. -/
def State.dieWord (s : State) (d n : Nat) : Word64 := Tbl.get (s.die d).words n 0#64

/-- The state with a die control word set. -/
def State.setDieWord (s : State) (d n : Nat) (v : Word64) : State :=
  s.updDie d (fun x => { x with words := Tbl.put n v x.words })

/-- The state with a die counter raised by n, modulo 2^64 (R178, R212, R239, R249, R252, R377). -/
def State.bumpDie (s : State) (d w n : Nat) : State := s.setDieWord d w (s.dieWord d w + BitVec.ofNat 64 n)

/-- An MSI-X vector raised (R277). -/
def State.raiseMsix (s : State) (v : Nat) : State := { s with msix := v :: s.msix }

/-- An event offered in a state in which the spec says that it does not occur: nothing happens (log 8). -/
def State.noEvent (s : State) : Host.Outcome State Fault Refusal := .next s

/-- A write by the host: while the package is in recovery mode only the mailbox answers, and it has no effect (R281). -/
def State.hostWrote (s t : State) : Host.Outcome State Fault Refusal := if s.recovery then s.noEvent else .next t

/-- The machine's next name, and the state that has given it. -/
def State.takeId (s : State) : Nat × State := (s.nextId, { s with nextId := s.nextId + 1 })

/-- The next value of the machine's order of events (R26, R36, R39). -/
def State.tick (s : State) : Nat × State := (s.clock, { s with clock := s.clock + 1 })

/-- The world of core c of die d: bit 0 of its word (R265). -/
def State.coreSecure (s : State) (d c : Nat) : Bool := (s.dieWord d (0x130 + c)).getLsbD 0

/-- PKGID (R278). -/
def State.pkgId (s : State) : BitVec 20 := (s.word 0x10).extractLsb' 0 20

/-- %step (R92). -/
def stepCode : Word := if Config.stepIsB1 then 0xB1#32 else 0xA0#32

/-! ### Physical memory (R168, R176) -/

/-- Installed HBM of a die (R168). -/
def hbmBytes : Nat := 64 * 10 ^ 9

/-- Installed capacity of a CXL port (R279). -/
def State.portCap (s : State) (p : Nat) : Nat := ((Tbl.look p s.ports).map Prod.fst).getD 0

/-- Ports in a group of the second tier's interleave: WAYS of TIERCFG (R279). -/
def State.tierWays (s : State) : Nat := 2 ^ ((s.word 0x12).extractLsb' 0 2).toNat

/-- Capacity of group i: W times the smallest capacity among its ports (R279). -/
def State.groupCap (s : State) (i : Nat) : Nat :=
  let w := s.tierWays
  w * ((List.range w).map (fun j => s.portCap (w * i + j))).foldl min (s.portCap (w * i))

/-- First offset of group i. -/
def State.groupBase (s : State) (i : Nat) : Nat := ((List.range i).map s.groupCap).foldl (· + ·) 0

/-- TIERSZ (R279). -/
def State.tierSize (s : State) : Nat := s.groupBase (4 / s.tierWays)

/-- The cell of a second-tier offset: its port and the offset there (R279). -/
def State.tierCell (s : State) (off : Nat) : Option Nat :=
  let w := s.tierWays
  match (List.range (4 / w)).find? (fun i => s.groupBase i ≤ off && off < s.groupBase i + s.groupCap i) with
  | some i =>
    let o := off - s.groupBase i
    let g := o / 4096
    some (2 * 2 ^ 48 + (w * i + g % w) * 2 ^ 44 + g / w * 4096 + o % 4096)
  | none => none

/-- The second-tier offset that names a cell under the current interleave. -/
def State.tierOffset (s : State) (cell : Nat) : Nat :=
  let w := s.tierWays
  let port := cell % 2 ^ 48 / 2 ^ 44
  let o := cell % 2 ^ 44
  s.groupBase (port / w) + (o / 4096 * w + port % w) * 4096 + o % 4096

/-- The cell that a physical address names: interleaved addresses name die-local cells, second-tier offsets a port's cells;
view 16, which no 52-bit address reaches, is the model's name for the pinned part of a core's local store (R168, R176, R279).
None outside installed capacity, and for views 3 to 15. -/
def State.cell? (s : State) (pa : Nat) : Option Nat :=
  let view := pa / 2 ^ 48
  let off := pa % 2 ^ 48
  if view = 0 then
    let g := off / 4096
    let o := g / 9 * 4096 + off % 4096
    if o < hbmBytes then some (2 ^ 48 + g % 9 * 2 ^ 44 + o) else none
  else if view = 1 then if off / 2 ^ 44 < 9 && off % 2 ^ 44 < hbmBytes then some pa else none
  else if view = 2 then s.tierCell off
  else if view = 16 then some pa
  else none

/-- The address of a byte of the pinned part of a core's local store (R176). -/
def pinned (d c off : Nat) : Nat := 16 * 2 ^ 48 + coreKey d c * 2 ^ 20 + off

/-- The byte at a physical address. -/
def State.physByte (s : State) (pa : Nat) : Byte :=
  match s.cell? pa with
  | some c => s.mem.byte c
  | none => 0#8

/-- n bytes from a physical address. -/
def State.physRead (s : State) (pa n : Nat) : List Byte := (List.range n).map (fun i => s.physByte (pa + i))

/-- A byte written at a physical address, tags untouched. -/
def State.physSet (s : State) (pa : Nat) (b : Byte) : State :=
  match s.cell? pa with
  | some c => { s with mem := s.mem.set c b }
  | none => s

/-- Bytes written from a physical address, tags untouched. -/
def State.physWrite (s : State) (pa : Nat) : List Byte → State
  | [] => s
  | b :: bs => (s.physSet pa b).physWrite (pa + 1) bs

/-- Insert into a rising list without repeats. -/
def insNat (x : Nat) : List Nat → List Nat
  | [] => [x]
  | y :: r => if x < y then x :: y :: r else if x = y then y :: r else y :: insNat x r

/-- The tag of the 16-byte unit that holds a physical address (R167). -/
def State.unitTag (s : State) (pa : Nat) : Bool :=
  match s.cell? pa with
  | some c => s.tags.contains (c / 16)
  | none => false

/-- The state with the tag of a unit set or cleared (R167). -/
def State.setUnitTag (s : State) (pa : Nat) (v : Bool) : State :=
  match s.cell? pa with
  | some c => { s with tags := if v then insNat (c / 16) s.tags else s.tags.filter (· != c / 16) }
  | none => s

/-- The tags of every unit that n bytes touch cleared (R167). -/
def State.clearTags (s : State) (pa n : Nat) : State :=
  (List.range ((pa + n + 15) / 16 - pa / 16)).foldl (fun a i => a.setUnitTag (16 * (pa / 16 + i)) false) s

/-- A physical address inside a secure region (R266). -/
def State.secureAt (s : State) (pa : Nat) : Bool :=
  (List.range 16).any (fun e =>
    let a := (s.word (0x400 + 2 * e)).toNat
    let b := (s.word (0x401 + 2 * e)).toNat
    bitOf a 0 && bitOf a 1 && bitsOf a 51 16 ≤ pa / 65536 && pa / 65536 < bitsOf b 51 16)

/-! ### Leaves and translation (R169 to R171) -/

/-- Some of n bytes lie in a secure region: regions begin and end at multiples of 64 KiB. -/
def State.secureIn (s : State) (pa n : Nat) : Bool :=
  n != 0 && (List.range ((pa + n - 1) / 65536 + 1 - pa / 65536)).any (fun i => s.secureAt ((pa / 65536 + i) * 65536))

/-- A path of the device that serves the non-secure world reaches none of the bytes: the access is refused (R266, log 47). -/
def State.shutTo (s : State) (secure : Bool) (pa n : Nat) : Bool := !secure && s.secureIn pa n

/-- The page size of a level's leaf. -/
def pageBytes (level : Nat) : Nat := if level = 1 then 2 ^ 30 else if level = 2 then 2 ^ 21 else 2 ^ 16

/-- A translated access: physical address, home die, HOME, and its page's leaf. -/
structure Phys where
  pa : Nat
  home : Nat
  kind : Nat
  leaf : Word64
  level : Nat
  deriving DecidableEq, Repr

/-- The outcome of a translation. -/
inductive Xlat where
  | ok (p : Phys)
  /-- No cached translation: a walk is needed (R172). -/
  | miss
  /-- TRANS with the fault word of R170. -/
  | fault (info : Word64)
  /-- WORLD (R171, R266). -/
  | world
  deriving DecidableEq, Repr

/-- What an access needs of its leaf (R170, R313). -/
structure Need where
  rd : Bool
  wr : Bool
  ex : Bool
  deriving DecidableEq, Repr

/-- The fault word of R170. -/
def faultWord (va kind level : Nat) (write : Bool) : Word64 :=
  BitVec.ofNat 64 (va % 2 ^ 56 + kind * 2 ^ 56 + level * 2 ^ 60 + (if write then 2 ^ 62 else 0))

/-- The physical address that a leaf gives a virtual address (R169, R176). -/
def leafAddr (leaf level va : Nat) : Nat :=
  let plc := bitsOf leaf 57 56
  let off := va % pageBytes level
  let addr := bitsOf leaf 47 16 * 65536 + off
  if bitsOf leaf 59 58 = 1 then
    pinned (bitsOf leaf 63 60) (bitsOf leaf 15 11) (524288 - (bitsOf leaf 10 8 + 1) * 65536 + off)
  else if plc = 0 then addr
  else if plc = 1 then 2 ^ 48 + bitsOf leaf 63 60 * 2 ^ 44 + addr % 2 ^ 44
  else 2 * 2 ^ 48 + addr

/-- LSPIN of a core (R176). -/
def State.lspin (s : State) (d c : Nat) : Nat := ((s.dieWord d (0x110 + c)).extractLsb' 0 3).toNat

/-- A malformed leaf (R168, R170). -/
def State.leafBad (s : State) (leaf level va : Nat) : Bool :=
  let plc := bitsOf leaf 57 56
  let home := bitsOf leaf 59 58
  let hdie := bitsOf leaf 63 60
  bitsOf leaf 52 48 != 0 || bitOf leaf 7
  || bitsOf leaf 3 2 != 3 - level
  || bitsOf leaf 47 16 * 65536 % pageBytes level != 0
  || plc == 3
  || ((plc == 1 || home == 1) && 8 < hdie)
  || (home == 1 && (level != 3 || plc == 2 || bitsOf leaf 47 16 != 0 || 17 < bitsOf leaf 15 11
        || s.lspin hdie (bitsOf leaf 15 11) ≤ bitsOf leaf 10 8))
  || (home != 1 && (s.cell? (leafAddr leaf level (va - va % pageBytes level))).isNone)
  || (home != 1 && (s.cell? (leafAddr leaf level (va - va % pageBytes level + pageBytes level - 1))).isNone)

/-- The home die of a line (R177). -/
def homeDie (leaf level va : Nat) : Nat :=
  if bitsOf leaf 57 56 = 1 || bitsOf leaf 59 58 = 1 then bitsOf leaf 63 60
  else bitsOf (leafAddr leaf level va) 47 12 % 9

/-- A leaf applied to an access: kind 0x2, kind 0x3, the world rule, else the address (R170, R171, R266). -/
def State.useLeaf (s : State) (leaf level va : Nat) (need : Need) (secure : Bool) : Xlat :=
  if s.leafBad leaf level va then .fault (faultWord va 2 level need.wr)
  else if (need.rd && !bitOf leaf 4) || (need.wr && !bitOf leaf 5) || (need.ex && !bitOf leaf 6) then
    .fault (faultWord va 3 level need.wr)
  else
    let pa := leafAddr leaf level va
    if !secure && (bitOf leaf 54 || s.secureAt pa) then .world
    else .ok ⟨pa, homeDie leaf level va, bitsOf leaf 59 58, BitVec.ofNat 64 leaf, level⟩

/-- A cached translation of an address (R172). -/
def tlbFind (l : List TlbEntry) (asid va : Nat) : Option TlbEntry :=
  l.find? (fun e => e.asid == asid && e.page ≤ va / 65536 && va / 65536 < e.page + e.pages)

/-- The address space is valid: EN of its word on the die (R169). -/
def State.spaceOn (s : State) (d asid : Nat) : Bool := (s.dieWord d (0x200 + asid)).getLsbD 0

/-- Translation by the core's translation cache, then the die's walk cache (R166, R172). -/
def State.xlate (s : State) (d c asid va : Nat) (need : Need) (secure : Bool) : Xlat :=
  if !s.spaceOn d asid then .fault (faultWord va 1 0 need.wr)
  else
    match tlbFind (s.core d c).tlb asid va with
    | some e => s.useLeaf e.leaf.toNat e.level va need secure
    | none =>
      match tlbFind (s.die d).walkCache asid va with
      | some e => s.useLeaf e.leaf.toNat e.level va need secure
      | none => .miss

/-- The result of a walk: a valid leaf and its level, or a fault word. -/
inductive WalkResult where
  | leaf (pte : Word64) (level : Nat)
  | fault (info : Word64)
  deriving DecidableEq, Repr

/-- One level of the walk and those below it: the table's PA, the level, and the levels left (R169, R170). A walk read in
a secure region by a non-secure agent is kind 0x2 (R266). -/
def State.walkFrom (s : State) (va : Nat) (write secure : Bool) (table level : Nat) : Nat → WalkResult
  | 0 => .fault (faultWord va 2 3 write)
  | fuel + 1 =>
    let idx :=
      if level = 0 then bitsOf va 55 39 else if level = 1 then bitsOf va 38 30 else if level = 2 then bitsOf va 29 21
      else bitsOf va 20 16
    let pa := table + 8 * idx
    if (s.cell? pa).isNone || (!secure && s.secureAt pa) then .fault (faultWord va 2 level write)
    else
      let e := leNat (s.physRead pa 8)
      if !bitOf e 0 then .fault (faultWord va 1 level write)
      else if bitOf e 1 then
        if level = 0 then .fault (faultWord va 2 0 write) else .leaf (BitVec.ofNat 64 e) level
      else
        let next := bitsOf e 51 8 * 256
        let size := if level = 2 then 256 else 4096
        if level = 3 || e / 2 ^ 52 != 0 || bitsOf e 7 2 != 0 || next % size != 0 then .fault (faultWord va 2 level write)
        else s.walkFrom va write secure next (level + 1) fuel

/-- A page walk from the root of an address space (R169). -/
def State.walk (s : State) (d asid va : Nat) (write secure : Bool) : WalkResult :=
  let w := (s.dieWord d (0x200 + asid)).toNat
  if !bitOf w 0 then .fault (faultWord va 1 0 write)
  else s.walkFrom va write secure (bitsOf w 51 20 * 2 ^ 20) 0 4

/-- The cached form of a leaf (R172). -/
def tlbOf (asid va : Nat) (pte : Word64) (level : Nat) : TlbEntry :=
  ⟨asid, (va - va % pageBytes level) / 65536, pageBytes level / 65536, pte, level⟩

/-- A translation entered in a core's cache of 64 and its die's walk cache of 4,096, the oldest leaving (R172). -/
def State.cacheLeaf (s : State) (d : Nat) (c : Option Nat) (e : TlbEntry) : State :=
  let s := s.updDie d (fun x => { x with walkCache := (e :: x.walkCache.filter (· != e)).take 4096 })
  match c with
  | some c => s.updCore d c (fun x => { x with tlb := (e :: x.tlb.filter (· != e)).take 64 })
  | none => s

/-- A page of an engine or the device: cached, or walked now, by an agent that is not a lane (R189, R224, R228). -/
def State.engineXlate (s : State) (d c asid va : Nat) (need : Need) (secure : Bool) : Xlat :=
  match s.xlate d c asid va need secure with
  | .miss =>
    match s.walk d asid va need.wr secure with
    | .leaf pte level => s.useLeaf pte.toNat level va need secure
    | .fault info => .fault info
  | r => r

end Sys2Proof.Machine
end

