-- ==== Sys2Proof/Machine/Operands.lean ====
section
/-! DEFINITION. Register operands: widths, slices with valid bits, tags and lookahead windows, operand positions and
their checks (spec/03_slice_registers.md R46 to R57, spec/04_encoding_assembly.md R71 to R84). -/

namespace Sys2Proof

open Machine

/-- Bits of a register width (R46, R71). -/
def Width.bits : Width → Nat
  | .w4 => 4 | .w8 => 8 | .w16 => 16 | .w32 => 32 | .w64 => 64 | .w128 => 128

/-- Slices of a register width. -/
def Width.slices (w : Width) : Nat := w.bits / 4

/-- The bits of an operand that a destination receives: a register's width, 32 for a uniform register (R52). -/
def Opnd.bits : Opnd → Nat
  | .reg w _ => w.bits
  | .uni _ => 32
  | .imm _ => 9

/-- The guard holds in a thread with these predicates; p7 reads true (R54). -/
def Guard.holds (g : Guard) (preds : BitVec 7) : Bool := (g.p == 7#3 || preds.getLsbD g.p.toNat) != g.neg

/-- A predicate source's value (R54, R91). -/
def PSrc.value (q : PSrc) (preds : BitVec 7) : Bool := (q.p == 7#3 || preds.getLsbD q.p.toNat) != q.neg

/-- Whether an operand of type t may be a source of an integer or bit instruction (R49). -/
def Opnd.srcInt (t : Ty) : Opnd → Bool
  | .reg w _ => w.bits ≤ t.bits
  | _ => true

/-- Whether an operand may be a source of a floating or packed type (R49). -/
def Opnd.srcFlt (t : Ty) : Opnd → Bool
  | .reg w _ => w.bits == t.bits
  | _ => t.bits ≤ 32

/-- Whether an operand may be a destination of a floating or packed type (R49). -/
def Opnd.dstFlt (t : Ty) : Opnd → Bool
  | .reg w _ => w.bits == t.bits
  | .uni _ => t.bits == 32
  | .imm _ => false

/-- A source under a type of either kind: exact width for floating, D8 and packed types, R49's rule for the others. -/
def Opnd.srcTy (t : Ty) (o : Opnd) : Bool :=
  if t.isPacked || t.isFloatD8 then o.srcFlt t else o.srcInt t

/-- A destination under a type of either kind. -/
def Opnd.dstTy (t : Ty) (o : Opnd) : Bool :=
  if t.isPacked || t.isFloatD8 then o.dstFlt t else o.notImm

/-- A 32-bit register, a uniform register or an inline immediate. -/
def Opnd.src32 : Opnd → Bool
  | .reg w _ => w == .w32
  | _ => true

/-- A 32-bit register or a uniform register. -/
def Opnd.reg32 : Opnd → Bool
  | .reg w _ => w == .w32
  | .uni _ => true
  | .imm _ => false

/-- A 32-bit or 64-bit register, a uniform register or an inline immediate. -/
def Opnd.src3264 : Opnd → Bool
  | .reg w _ => w == .w32 || w == .w64
  | _ => true

/-- The pattern of w bits that a source supplies under an operation width (R49): extended by the type's signedness when
narrower, its low bits taken otherwise. -/
def Opnd.fit (o : Opnd) (signed : Bool) (w raw : Nat) : Nat :=
  match o with
  | .reg v _ => if v.bits < w then wrap w (intVal signed v.bits raw) else raw % 2 ^ w
  | .uni _ => if 32 < w then wrap w (intVal signed 32 raw) else raw % 2 ^ w
  | .imm _ => raw % 2 ^ w

/-- A swizzled packed value (R75). -/
def Swz.apply (z : Swz) (t : Ty) (v : Nat) : Nat :=
  let es := t.split v
  let n := es.length
  let pick (i : Nat) : Nat :=
    match z with
    | .id => i
    | .rev => n - 1 - i
    | .swp => if i % 2 = 0 then i + 1 else i - 1
    | .bc0 => 0 | .bc1 => 1 | .bc2 => 2 | .bc3 => 3
  match z with
  | .id => v
  | _ => joinElems t.ebits ((List.range n).map (fun i => es.getD (pick i) 0))

/-- The pattern that a 32-bit immediate supplies to a type (R74): sign-extended for .i, zero-extended for .n and .b,
converted exactly for .f64, its low bits for narrower types. -/
def Ty.immediate (t : Ty) (imm : Word) : Nat :=
  match t with
  | .f64 => (Fmt.f64.ofVal .rn false (Fmt.f32.val imm.toNat)).1
  | _ => if t.isSigned then wrap t.bits (toSigned 32 imm.toNat) else imm.toNat % 2 ^ t.bits

end Sys2Proof

namespace Sys2Proof.Machine

/-! ### Slices of a thread -/

/-- The mask of n slices from s, among 512. -/
def sliceMask (s n : Nat) : BitVec 512 := BitVec.ofNat 512 ((2 ^ n - 1) * 2 ^ s)

/-- The mask of the bytes that n slices from s touch (R46). -/
def byteMask (s n : Nat) : BitVec 256 :=
  if n = 0 then 0#256 else BitVec.ofNat 256 ((2 ^ ((s + n - 1) / 2 + 1 - s / 2) - 1) * 2 ^ (s / 2))

/-- The mask of the granules that n slices from s touch (R57). -/
def granuleMask (s n : Nat) : BitVec 16 :=
  if n = 0 then 0#16 else BitVec.ofNat 16 ((2 ^ ((s + n - 1) / 32 + 1 - s / 32) - 1) * 2 ^ (s / 32))

/-- The bits of n slices from s, windows aside. -/
def Thread.raw (th : Thread) (s n : Nat) : Nat := th.regs.toNat / 2 ^ (4 * s) % 2 ^ (4 * n)

/-- 2048 bits with n slices from s replaced. -/
def putSlices (r : BitVec 2048) (s n v : Nat) : BitVec 2048 :=
  BitVec.ofNat 2048 (setBits r.toNat (4 * (s + n) - 1) (4 * s) v)

/-- A read of n slices from s (R81, R82): a slice inside an open window whose write has landed gives its old or its new
value by the choice `pick`; every other slice gives what it holds. -/
def Thread.read (th : Thread) (pick : Nat → Bool) (s n : Nat) : Nat :=
  if th.wins.isEmpty then th.raw s n
  else
    joinElems 4 ((List.range n).map (fun i =>
      match th.wins.find? (fun w => w.landed && 0 < w.left && w.mask.getLsbD (s + i)) with
      | some w => if pick (s + i) then th.raw (s + i) 1 else w.oldRegs.toNat / 2 ^ (4 * (s + i)) % 16
      | none => th.raw (s + i) 1))

/-- A write of n slices from s with no window to race (R50, R57): the other slice of a partly covered invalid byte is
zeroed, the bytes become valid, the tags of the touched granules clear. -/
def Thread.plain (th : Thread) (s n v : Nat) : Thread :=
  let half (r : BitVec 2048) (i : Nat) : BitVec 2048 := if th.valid.getLsbD (i / 2) then r else putSlices r i 1 0
  let r := if s % 2 = 1 then half th.regs (s - 1) else th.regs
  let r := if (s + n) % 2 = 1 then half r (s + n) else r
  { th with
    regs := putSlices r s n v
    valid := th.valid ||| byteMask s n
    tags := th.tags &&& ~~~(granuleMask s n) }

/-- A write of n slices from s (R81, R82). Against an open window of an earlier instruction each slice ends with one of
the two values, by `pick` (true: this write is last). -/
def Thread.write (th : Thread) (pick : Nat → Bool) (s n v : Nat) : Thread :=
  if th.wins.isEmpty then th.plain s n v
  else
    let wm := sliceMask s n
    let last := (List.range n).foldl (fun (m : BitVec 512) i => if pick (s + i) then m ||| sliceMask (s + i) 1 else m) 0#512
    -- slices that keep the windowed instruction's value
    let keep := th.wins.foldl
      (fun (m : BitVec 512) w => if w.landed && 0 < w.left then m ||| (w.mask &&& wm &&& ~~~last) else m) 0#512
    let x := th.plain s n v
    let regs := (List.range n).foldl
      (fun r i => if keep.getLsbD (s + i) then putSlices r (s + i) 1 (th.raw (s + i) 1) else r) x.regs
    let tags := if wm &&& ~~~keep == 0#512 then th.tags else x.tags
    let wins := th.wins.map (fun w =>
      if w.left = 0 then w
      else if w.landed then
        { w with
          mask := w.mask &&& ~~~(wm &&& last)
          oldRegs := (List.range n).foldl
            (fun r i => if w.mask.getLsbD (s + i) && keep.getLsbD (s + i) then putSlices r (s + i) 1 (v / 2 ^ (4 * i) % 16) else r)
            w.oldRegs }
      else { w with todo := w.todo &&& ~~~(wm &&& last) })
    { x with regs := regs, tags := tags, wins := wins }

/-- A write of n slices that opens a window of the instruction at pc over the next la instructions (R81). The count is
la + 1 because the issue itself ends with a tick. -/
def Thread.writeAhead (th : Thread) (pick : Nat → Bool) (op pc : Nat) (la : Nat) (s n v : Nat) : Thread :=
  let x := th.write pick s n v
  if la = 0 then x
  else
    let before := putSlices 0#2048 s n (th.read pick s n)
    let taken := x.wins.foldl (fun (m : BitVec 512) w => if w.landed && 0 < w.left then m ||| w.mask else m) 0#512
    { x with wins := x.wins ++ [⟨BitVec.ofNat 32 pc, op, la + 1, sliceMask s n &&& ~~~taken, 0#512, before, true⟩] }

/-- A pending write of n slices from s by operation op, issued at pc with lookahead la (R48, R81). -/
def Thread.pend (th : Thread) (op pc la s n : Nat) : Thread :=
  { th with wins := th.wins ++ [⟨BitVec.ofNat 32 pc, op, la + 1, sliceMask s n, sliceMask s n, th.regs, false⟩] }

/-- The pending write of operation op lands: the slices of n from s that it has still to write, its tag where it wrote the
whole granule (R57, R82). -/
def Thread.land (th : Thread) (op s n v : Nat) (tag : Bool) : Thread :=
  match th.wins.find? (fun w => w.op == op && !w.landed) with
  | none => th
  | some w =>
    let x := (List.range n).foldl
      (fun (t : Thread) i => if w.todo.getLsbD (s + i) then t.plain (s + i) 1 (v / 2 ^ (4 * i) % 16) else t) th
    let whole := w.todo == sliceMask s n
    { x with
      tags := if tag && whole then x.tags ||| granuleMask s n else x.tags
      wins := (x.wins.map (fun u =>
        if u.op == op && !u.landed then { u with landed := true, mask := u.todo }
        else if u.landed then { u with mask := u.mask &&& ~~~w.todo }
        else u)).filter (fun u => !u.landed || 0 < u.left) }

/-- An instruction of the thread passes: windows shrink, landed ones of count zero close (R81). -/
def Thread.tick (th : Thread) : Thread :=
  if th.wins.isEmpty then th
  else { th with wins := (th.wins.map (fun w => { w with left := w.left - 1 })).filter (fun w => !w.landed || 0 < w.left) }

/-- Every landed window closed (R83). -/
def Thread.closeWindows (th : Thread) : Thread := { th with wins := th.wins.filter (fun w => !w.landed) }

/-- Every window closed, a pending write's own with its write still to come (R83, R262). -/
def Thread.shutWindows (th : Thread) : Thread := { th with wins := (th.closeWindows).wins.map (fun w => { w with left := 0 }) }

/-- No write of the thread is pending but those of some operations. -/
def Thread.pendingOnly (th : Thread) (ops : List Nat) : Bool := th.wins.all (fun w => w.landed || ops.contains w.op)

/-- A thread without the pending writes of some operations. -/
def Thread.dropPending (th : Thread) (ops : List Nat) : Thread := { th with wins := th.wins.filter (fun w => w.landed || !ops.contains w.op) }

/-- A write of the thread is pending (R48). -/
def Thread.pending (th : Thread) : Bool := th.wins.any (fun w => !w.landed)

/-- A pending write of the thread falls in slices s to s + n − 1. -/
def Thread.pendingIn (th : Thread) (s n : Nat) : Bool :=
  th.wins.any (fun w => !w.landed && w.todo &&& sliceMask s n != 0#512)

/-- Set predicate p; a write of p7 is discarded (R54). -/
def setPred (preds : BitVec 7) (p : BitVec 3) (v : Bool) : BitVec 7 :=
  if p == 7#3 then preds
  else if v then preds ||| (1#7 <<< p.toNat) else preds &&& ~~~(1#7 <<< p.toNat)

/-- Index register j (R55). -/
def Thread.ix (th : Thread) (j : BitVec 2) : Word :=
  match j.toNat with
  | 0 => th.ix0 | 1 => th.ix1 | 2 => th.ix2 | _ => th.ix3

/-- A write of index register j. -/
def Thread.setIx (th : Thread) (j : BitVec 2) (v : Word) : Thread :=
  match j.toNat with
  | 0 => { th with ix0 := v } | 1 => { th with ix1 := v } | 2 => { th with ix2 := v } | _ => { th with ix3 := v }

/-! ### Traps -/

/-- A trap: its code (R251), %tinfo, and the length that ERET adds, 0 where it re-executes (R255). -/
structure Trap where
  cause : BitVec 8
  info : Word64
  len : Nat
  deriving DecidableEq, Repr

/-- A trap that re-executes at ERET. -/
def mkTrap (cause info : Nat) : Trap := ⟨BitVec.ofNat 8 cause, BitVec.ofNat 64 info, 0⟩

/-! Codes of R251. -/

def cILLINS : Nat := 0x01
def cILLOPND : Nat := 0x02
def cRANGE : Nat := 0x03
def cINVREG : Nat := 0x04
def cIXBOUND : Nat := 0x05
def cCAPTAG : Nat := 0x06
def cCAPBOUND : Nat := 0x07
def cCAPPERM : Nat := 0x08
def cCAPWIDEN : Nat := 0x09
def cTRANS : Nat := 0x0A
def cWORLD : Nat := 0x0B
def cABANDON : Nat := 0x0C
def cCLAIMDL : Nat := 0x0D
def cRVBUSY : Nat := 0x0E
def cRVOVER : Nat := 0x0F
def cLSBOUND : Nat := 0x10
def cFPEXC : Nat := 0x11
def cFMTTAG : Nat := 0x12
def cFETCHALIGN : Nat := 0x13
def cSTEPPING : Nat := 0x14
def cTRAP : Nat := 0x15
def cBKPT : Nat := 0x16
def cSYSC : Nat := 0x17
def cVTHRDN : Nat := 0x18
def cTOKEN : Nat := 0x19
def cLOOKAHEAD : Nat := 0x1A
def cQSPILL : Nat := 0x1B
def cECC : Nat := 0x1C
def cCANCEL : Nat := 0x1D

/-- The %tinfo of R51: a thread and an operand position. -/
def opInfo (thread pos : Nat) : Nat := thread % 32 + pos * 256

/-! ### Operand positions -/

/-- An operand position of an instruction (R51): its number, the operand, the index register of an indexed one, whether
its width and kind are allowed, whether it is read and written, and the threads of a warp that read or write it. -/
structure Pos where
  n : Nat
  o : Opnd
  ix : Option (BitVec 2)
  ok : Bool
  read : Bool
  write : Bool
  lanes : BitVec 32
  deriving DecidableEq, Repr

/-- A source position. -/
def Pos.src (n : Nat) (o : Opnd) (ok : Bool) : Pos := ⟨n, o, none, ok, true, false, BitVec.allOnes 32⟩

/-- The destination position. -/
def Pos.dst (o : Opnd) (ok : Bool) : Pos := ⟨0, o, none, ok, false, true, BitVec.allOnes 32⟩

/-- A source that the instruction reads and then writes, or a destination that it also reads. -/
def Pos.both (n : Nat) (o : Opnd) (ok : Bool) : Pos := ⟨n, o, none, ok, true, true, BitVec.allOnes 32⟩

/-- The position read or written in threads 0 to 15 alone (R130, R146). -/
def Pos.inHalf (p : Pos) (half : Bool) : Pos := if half then { p with lanes := 0xFFFF#32 } else p

/-- The position is a uniform destination: the instruction runs once, in its lowest thread (R52). -/
def Pos.uniDst (p : Pos) : Bool := p.write && p.n == 0 && (match p.o with | .uni _ => true | _ => false)

/-- The position indexed where the control part says so (R76). -/
def Pos.withIx (p : Pos) (x : XCtl) : Pos :=
  let b := match p.n with | 0 => x.ixD | 1 => x.ix1 | 2 => x.ix2 | _ => x.ix3
  if b then { p with ix := some x.ixr } else p

/-- The start slice in a thread, exact (R55). -/
def Pos.start (p : Pos) (th : Thread) : Nat :=
  match p.o with
  | .reg _ s =>
    match p.ix with
    | some j => ((th.ix j).extractLsb' 0 9).toNat + s.toNat
    | none => s.toNat
  | _ => 0

/-- The slices of a register operand; 0 for the others. -/
def Pos.slices (p : Pos) : Nat :=
  match p.o with
  | .reg w _ => w.slices
  | _ => 0

/-- ILLOPND: kind or width not allowed, or a misaligned 128-bit operand (R47, R55). -/
def Pos.illopnd (p : Pos) (th : Thread) : Bool := !p.ok || (p.slices == 32 && p.start th % 32 != 0)

/-- IXBOUND (R55). -/
def Pos.ixbound (p : Pos) (th : Thread) : Bool :=
  match p.ix with
  | some j =>
    let v := th.ix j
    p.start th < (v.extractLsb' 10 9).toNat || (v.extractLsb' 19 10).toNat < p.start th + p.slices
  | none => false

/-- RANGE (R47). -/
def Pos.range (p : Pos) (alloc : Nat) (th : Thread) : Bool := p.slices != 0 && min alloc 512 < p.start th + p.slices

/-- INVREG: a byte read is invalid and no open window will write it (R50, R82). -/
def Pos.invreg (p : Pos) (th : Thread) : Bool :=
  p.read && p.slices != 0 &&
    (byteMask (p.start th) p.slices &&& ~~~th.valid != 0#256) &&
    ((List.range 17).any (fun i =>
      let b := p.start th / 2 + i
      b ≤ (p.start th + p.slices - 1) / 2 && !th.valid.getLsbD b &&
        !th.wins.any (fun w => 0 < w.left && w.mask &&& sliceMask (2 * b) 2 != 0#512)))

/-- The scoreboard holds the position: a pending write of its slices whose window is over (R48, R81). -/
def Pos.waits (p : Pos) (th : Thread) : Bool :=
  p.slices != 0 && th.wins.any (fun w => !w.landed && w.left == 0 && w.todo &&& sliceMask (p.start th) p.slices != 0#512)

/-- The window that strict lookahead finds the position in (R84). -/
def Pos.window? (p : Pos) (th : Thread) : Option Window :=
  if p.slices = 0 then none
  else th.wins.find? (fun w => 0 < w.left && w.mask &&& sliceMask (p.start th) p.slices != 0#512)

end Sys2Proof.Machine
end

