-- ==== Sys2Proof/Machine/Lanes.lean ====
section
/-! DEFINITION. Lanes: the split table, arrival and fusion, spilling, the pool and its claims, the end of an instruction
(spec/02 R32 to R37, spec/03 R60 to R63). -/

namespace Sys2Proof.Machine

/-! ### The split table (R32, R33) -/

/-- A warp without an entry. -/
def Warp.dropEntry (w : Warp) (id : Nat) : Warp := { w with entries := w.entries.filter (fun e => e.id != id) }

/-- Arrival, exit and fusion from an entry upwards (R33): a leaf at its parent's reconvergence address, or with no thread
left, is freed; a join with no remaining child becomes a leaf of its threads that have not exited, or is freed with them.
Arrival is tested against the leaf's own parent only, at a fetchable address (R320), and not across the edge of a trap handler
(R253). -/
def Warp.settle (w : Warp) (id : Nat) : Nat → Warp
  | 0 => w
  | fuel + 1 =>
    match w.entry? id with
    | none => w
    | some e =>
      if e.isLeaf then
        if e.mask = 0#32 then
          match e.parent with
          | some j => (w.dropEntry id).settle j fuel
          | none => w.dropEntry id
        else
          match e.parent.bind w.entry? with
          | some j =>
            if e.pc = j.pc && e.pc.extractLsb' 0 2 == 0#2 && e.handler == j.handler && e.wait = .none then (w.dropEntry id).settle j.id fuel else w
          | none => w
      else if w.entries.any (fun c => c.parent == some id) then w
      else
        let m := e.mask &&& w.liveMask
        if m = 0#32 then
          match e.parent with
          | some j => (w.dropEntry id).settle j fuel
          | none => w.dropEntry id
        else (w.updEntry id (fun x => { x with isLeaf := true, mask := m })).settle id fuel

/-- Settle with enough steps for every entry. -/
def Warp.settled (w : Warp) (id : Nat) : Warp := w.settle id (2 * w.entries.length + 2)

/-- The ancestors of an entry, nearest first. -/
def Warp.ancestors (w : Warp) (id : Nat) : Nat → List Nat
  | 0 => []
  | fuel + 1 =>
    match (w.entry? id).bind Entry.parent with
    | some j => j :: w.ancestors j fuel
    | none => []

/-- Depth of an entry. -/
def Warp.depth (w : Warp) (id : Nat) : Nat := (w.ancestors id w.entries.length).length

/-- A leaf's lowest active thread. -/
def Entry.lowest (e : Entry) : Nat := (maskThreads e.mask).headD 32

/-- The destination that a wait's end will write (R200, R333). -/
def Wait.target : Wait → Option Opnd
  | .ring _ d _ => some d
  | .entry _ d _ => some d
  | _ => Option.none

/-- A wait that leaves the leaf at its instruction, to try it at the next choice. -/
def Wait.open : Wait → Bool
  | .none | .busy | .release _ _ | .launch _ _ _ | .task _ _ _ => true
  | _ => false

/-- A leaf at an instruction boundary: blocked on nothing, or on its own instruction's issue alone. -/
def Entry.ready (e : Entry) : Bool := e.isLeaf && e.wait.open

/-- Entries of a warp that lie in its lane's table. -/
def Warp.tabled (w : Warp) : List Entry := w.entries.filter (fun e => !e.spilled)

/-- Entries of a warp that lie in its reserve (R34). -/
def Warp.inReserve (w : Warp) : Nat := (w.entries.filter (fun e => e.spilled)).length

/-- The next entry to spill, sparing `keep` (R34): joins, deepest first; blocked leaves, in the table's order; ready leaves,
youngest first. The order among blocked leaves is the model's choice (log 39). -/
def Warp.victim (w : Warp) (keep : Nat) : Option Nat :=
  let es := w.tabled.filter (fun e => e.id != keep)
  let joins := sortBy (fun a b => w.depth b.id ≤ w.depth a.id) (es.filter (fun e => !e.isLeaf))
  let blocked := es.filter (fun e => e.isLeaf && e.wait != .none)
  let ready := sortBy (fun a b => b.lowest ≤ a.lowest) (es.filter (fun e => e.isLeaf && e.wait == .none))
  (joins ++ blocked ++ ready).head?.map Entry.id

/-- The warp with entries spilled, sparing `keep`, until `free` of `room` table entries are free or none is left to spill
(R34). -/
def Warp.spillFor (w : Warp) (keep room free : Nat) : Nat → Warp
  | 0 => w
  | fuel + 1 =>
    if w.tabled.length + free ≤ room then w
    else
      match w.victim keep with
      | some v => (w.updEntry v (fun e => { e with spilled := true })).spillFor keep room free fuel
      | none => w

/-- The entry that a warp keeps in the table where others leave it: its oldest ready leaf, else a blocked leaf, else any. -/
def Warp.keeper (w : Warp) : Nat :=
  let ready := sortBy (fun a b => a.lowest ≤ b.lowest) (w.tabled.filter Entry.ready)
  ((ready ++ w.tabled.filter Entry.isLeaf ++ w.tabled).head?.map Entry.id).getD 0

/-- A team whose warps hold contexts on a core. -/
def TeamState.holds : TeamState → Bool
  | .resident => true
  | _ => false

/-- The warps resident on a lane. -/
def State.laneWarps (s : State) (d c lane : Nat) : List Warp :=
  (s.warps.filter (fun p =>
    p.2.lane == lane &&
      match s.team? p.2.team with
      | some t => t.state.holds && t.die == d && t.core == c
      | none => false)).map Prod.snd

/-- Table entries that a warp may use on its lane: 16 less those of the other resident warps, each of which has one reserved,
and at least its own reserved one (R32). -/
def State.tableRoom (s : State) (d c : Nat) (w : Warp) : Nat :=
  let others := (s.laneWarps d c w.lane).filter (fun x => !(x.team == w.team && x.index == w.index))
  max 1 (16 - (others.map (fun x => max 1 x.tabled.length)).foldl (· + ·) 0)

/-- A split finds its two entries, in the table or in the reserve of 32 (R34, R35). -/
def State.splitRoom (s : State) (d c : Nat) (w : Warp) : Bool := w.entries.length + 2 ≤ s.tableRoom d c w + 32

/-- A leaf split in two under a join at `join` (R33); none where the split is held. Two entries are made free first, sparing the
splitting leaf (R34); where the table has fewer than two for the warp, the younger new leaf goes to the reserve, and with none the
join too, so that a leaf stands in the warp's reserved entry (log 39). The new leaves are `id1` and `id2`. -/
def State.splitLeaf (s : State) (d c : Nat) (w : Warp) (e : Entry) (m1 m2 : BitVec 32) (pc1 pc2 join : Word)
    (id1 id2 : Nat) : Option Warp :=
  if !s.splitRoom d c w then none
  else
    let room := s.tableRoom d c w
    let x := w.spillFor e.id room 2 w.entries.length
    let free := room - x.tabled.length
    let older := (maskThreads m1).headD 32 < (maskThreads m2).headD 32
    let leaf (i : Nat) (m : BitVec 32) (pc : Word) (out : Bool) : Entry :=
      { e with id := i, mask := m, pc := pc, parent := some e.id, spilled := out, wait := .none, passes := 0, promo := 0,
               yielded := false, retJoin := none }
    let x := x.updEntry e.id (fun j => { j with
      isLeaf := false, pc := join, spilled := free == 0, passes := 0, promo := 0, yielded := false, retJoin := none })
    let x := { x with entries := x.entries ++
      [leaf id1 m1 pc1 (free < 2 && !older), leaf id2 m2 pc2 (free < 2 && older)] }
    -- a leaf created at the reconvergence address arrives at once
    some ((x.settled id1).settled id2)

/-- Table entries that a warp needs at the least: one, and those that its reserve of 32 cannot hold. -/
def Warp.leastTable (w : Warp) : Nat := max 1 (w.entries.length - 32)

/-- A lane's warps brought down to 16 table entries after one more has entered it: entries of warps with more than one go to
their reserves, a warp's oldest ready leaf last (R32, R34, log 39). -/
def State.fitLane (s : State) (d c lane : Nat) : Nat → State
  | 0 => s
  | fuel + 1 =>
    let ws := s.laneWarps d c lane
    if (ws.map (fun w => max 1 w.tabled.length)).foldl (· + ·) 0 ≤ 16 then s
    else
      match ws.findSome? (fun w =>
          if 1 < w.tabled.length && w.inReserve < 32 then (w.victim w.keeper).map (fun v => (w, v)) else none) with
      | some (w, v) => (s.updWarp w.team w.index (fun w => w.updEntry v (fun e => { e with spilled := true }))).fitLane d c lane fuel
      | none => s

/-! ### The end of an instruction -/

/-- The threads of a mask pass an instruction (R81). -/
def Warp.tickMask (w : Warp) (m : BitVec 32) : Warp :=
  { w with threads := (w.threads.zipIdx).map (fun p => if m.getLsbD p.2 then p.1.tick else p.1) }

/-- A leaf has issued: counts and promotion return to base (R37, R390). -/
def Entry.issued (e : Entry) : Entry := { e with passes := 0, promo := 0, yielded := false }

/-- The end of a leaf's instruction of len bytes: windows tick, the pc advances, the leaf is unblocked and arrives where
it should (R33, R37, R81). -/
def Warp.finish (w : Warp) (id len : Nat) : Warp :=
  match w.entry? id with
  | none => w
  | some e =>
    ((w.tickMask e.mask).updEntry id (fun x =>
      { x.issued with pc := x.pc + BitVec.ofNat 32 len, wait := .none, retJoin := none })).settled id

/-- The end of a leaf's instruction in the state. -/
def State.complete (s : State) (r : LeafRef) (len : Nat) : State :=
  s.updWarp r.team r.warp (fun w => w.finish r.leaf len)

/-- A leaf blocked on a wait, its counts at base. -/
def State.block (s : State) (r : LeafRef) (w : Wait) : State :=
  s.updEntry r (fun e => { e.issued with wait := w })

/-- A leaf no longer blocked, at the same instruction. -/
def State.unblock (s : State) (r : LeafRef) : State := s.updEntry r (fun e => { e with wait := .none })

/-! ### The pool (R60 to R63) -/

/-- Slice-threads of a lane's pool. -/
def poolSize : Nat := 98304

/-- The free count of a lane's pool. -/
def Core.poolFree (c : Core) (lane : Nat) : Nat := poolSize - Tbl.get c.charged lane 0

/-- The slices from a to b − 1 of a thread made invalid and untagged, their contents discarded (R62). -/
def Thread.wipe (th : Thread) (a b : Nat) : Thread :=
  if b ≤ a then th
  else
    { th with
      regs := putSlices th.regs a (b - a) 0
      valid := th.valid &&& ~~~(byteMask a (b - a))
      tags := th.tags &&& ~~~(granuleMask a (b - a))
      wins := th.wins.map (fun w => { w with mask := w.mask &&& ~~~(sliceMask a (b - a)) }) }

/-- A claim granted: n slices per thread are added, and the warp passes the CLAIM (R62). -/
def Warp.claimed (w : Warp) (id n : Nat) : Warp :=
  let x : Warp := { w with
    alloc := w.alloc + n
    allowance := w.allowance - n
    threads := w.threads.map (fun th => th.wipe w.alloc (w.alloc + n)) }
  x.finish id 8

/-- Claims granted from the head of a lane's queue while the pool allows (R62, R63). -/
def State.grantClaims (s : State) (d c lane : Nat) : Nat → State
  | 0 => s
  | fuel + 1 =>
    let k := s.core d c
    match Tbl.get k.claims lane [] with
    | [] => s
    | (r, need) :: rest =>
      if need ≤ k.poolFree lane then
        let s := s.updCore d c (fun x =>
          { x with
            claims := Tbl.put lane rest x.claims
            charged := Tbl.put lane (Tbl.get x.charged lane 0 + need) x.charged })
        let s := s.updWarp r.team r.warp (fun w => w.claimed r.leaf (need / w.count))
        s.grantClaims d c lane fuel
      else s

/-- Every claim that the pool of a lane now allows is granted. -/
def State.grantLane (s : State) (d c lane : Nat) : State :=
  s.grantClaims d c lane (Tbl.get (s.core d c).claims lane []).length

/-- Every claim that the pools of a core's lanes now allow is granted. -/
def State.grantCore (s : State) (d c : Nat) : State :=
  (((s.core d c).claims.map Prod.fst).foldl (fun s l => s.grantLane d c l) s)

/-- The free count of a lane rises by n slice-threads, and claims are granted (R63). -/
def State.poolReturn (s : State) (d c lane n : Nat) : State :=
  (s.updCore d c (fun x => { x with charged := Tbl.put lane (Tbl.get x.charged lane 0 - n) x.charged })).grantLane d c lane

/-- The free count of a lane falls by n slice-threads. -/
def State.poolTake (s : State) (d c lane n : Nat) : State :=
  s.updCore d c (fun x => { x with charged := Tbl.put lane (Tbl.get x.charged lane 0 + n) x.charged })

/-! ### Threads that end (R33, R334) -/

/-- The leaf's threads of a mask end: they leave the leaf and its ancestors, and their pending writes become
unobservable. The rest of the leaf goes on after the instruction. -/
def Warp.endThreads (w : Warp) (id : Nat) (m : BitVec 32) (len : Nat) : Warp :=
  let anc := w.ancestors id w.entries.length
  let w : Warp := { w with
    threads := (w.threads.zipIdx).map (fun p => if m.getLsbD p.2 then { p.1 with exited := true, wins := [] } else p.1)
    entries := w.entries.map (fun e => if anc.contains e.id then { e with mask := e.mask &&& ~~~m } else e) }
  (w.updEntry id (fun e => { e.issued with
    mask := e.mask &&& ~~~m, pc := e.pc + BitVec.ofNat 32 len, wait := .none, retJoin := none })).settled id

/-- The trap handler ends (R255): handler entries go, and the leaf that trapped returns with its threads that have not
exited, at pc. -/
def Warp.endHandler (w : Warp) (pc : Word) : Warp :=
  let top := w.entries.find? (fun e => e.handler && !(match e.parent.bind w.entry? with | some j => j.handler | none => false))
  match top with
  | none => { w with handler := none }
  | some r =>
    let back : Entry :=
      { r with isLeaf := true, mask := w.tmask &&& w.liveMask, pc := pc, wait := .none, passes := 0, promo := 0,
               yielded := false, handler := false, retJoin := if w.tlen = 0 then w.tret else none }
    let x : Warp := { w with
      handler := none
      entries := w.entries.filterMap (fun e => if e.id == r.id then some back else if e.handler then none else some e) }
    x.settled r.id

/-- Every leaf of the warp exits. -/
def Warp.exitAll (w : Warp) : Warp :=
  { w with
    handler := none
    entries := []
    threads := w.threads.map (fun th => { th with exited := true, wins := [] }) }

/-- The warp has finished: no entry is left. -/
def Warp.done (w : Warp) : Bool := w.entries.isEmpty

/-- A pending write in some thread of the warp (R83). -/
def Warp.pending (w : Warp) : Bool := w.threads.any Thread.pending

end Sys2Proof.Machine
end

