-- ==== Sys2Proof/Machine/Objects.lean ====
section
/-! DEFINITION. The objects beyond the warps: completion entries and handles, keys, tasks and their versions, monitors
(spec/02 R39 to R42, spec/11 R205 to R215, spec/12 R248, R249). -/

namespace Sys2Proof

open Machine

/-- A comparison of w-bit patterns under a type's signedness (R106, R248, R347). -/
def Cmp.holds (op : Cmp) (signed : Bool) (w a b : Nat) : Bool :=
  let x := intVal signed w a
  let y := intVal signed w b
  match op with
  | .eq => x == y | .ne => x != y | .lt => x < y | .le => x ≤ y | .gt => y < x | .ge => y ≤ x

end Sys2Proof

namespace Sys2Proof.Machine

/-! ### Completion entries (R39, R40) -/

/-- Entries of the completion table. -/
def entryCount : Nat := 16383

/-- The PARENT code of an entry that has none. -/
def noParent : Nat := 0x3FFF

/-- A completion handle (R39). -/
def handleOf (idx : Nat) (e : Completion) : Word := e.level ++ BitVec.ofNat 14 idx ++ e.gen

/-- The handle of an entry. -/
def State.handle (s : State) (idx : Nat) : Word := handleOf idx (s.completion idx)

/-- The entry that a handle names, if it is not stale (R39). -/
def State.ofHandle (s : State) (h : Word) : Option Nat :=
  let idx := (h.extractLsb' 16 14).toNat
  let e := s.completion idx
  if idx < entryCount && e.state != .free && e.level == h.extractLsb' 30 2 && e.gen == h.extractLsb' 0 16 then some idx
  else none

/-- The final state code of an entry (R39). -/
def EntryState.code : EntryState → Nat
  | .free => 0 | .running => 1 | .done => 2 | .cancelled => 3 | .faulted => 4

/-- The word of an entry, as SRD reads it (R39). -/
def Completion.word (e : Completion) : Word64 :=
  e.level ++ BitVec.ofNat 3 e.state.code ++ BitVec.ofBool e.cxr ++ BitVec.ofNat 14 e.parent ++ e.gen
    ++ BitVec.ofNat 28 e.count

/-- The least index from k up that the table does not list, or lists as free. -/
def firstFree (k : Nat) : Tbl Completion → Nat
  | [] => k
  | (j, e) :: r => if k < j then k else if e.state == .free then j else firstFree (j + 1) r

/-- The entry that has left running the earliest. -/
def oldestLeft (t : Tbl Completion) : Option Nat :=
  ((sortBy (fun a b => a.2.left ≤ b.2.left) (t.filter (fun p => p.2.state != .running && p.2.state != .free))).head?).map
    Prod.fst

/-- The index that a new entry takes: a free one, else the finished one that left running the earliest (R39). That the lowest of the
free ones is taken is the model's choice (log 48). -/
def State.newIndex (s : State) : Option Nat :=
  let k := firstFree 0 s.completions
  if k < entryCount then some k else oldestLeft s.completions

/-- A new running entry; none while every entry runs (R39). Freeing a finished entry advances its generation; a new entry
has no fault record. -/
def State.newEntry (s : State) (level : BitVec 2) (parent count : Nat) : Option (Nat × State) :=
  match s.newIndex with
  | none => none
  | some i =>
    let old := s.completion i
    let gen := if old.state == .free then old.gen else old.gen + 1
    some (i, { s with
      completions := Tbl.put i ⟨level, .running, false, parent, gen, count, false, false, 0⟩ s.completions
      words := Tbl.put (0x4000 + i) 0#64 s.words
      launches := Tbl.del i s.launches
      graphs := Tbl.del i s.graphs
      jobs := Tbl.del i s.jobs })

/-- COUNT of an entry falls by n (R40). -/
def State.countDown (s : State) (i n : Nat) : State := s.updCompletion i (fun e => { e with count := e.count - n })

/-- COUNT of an entry rises by n (R40). -/
def State.countUp (s : State) (i n : Nat) : State := s.updCompletion i (fun e => { e with count := e.count + n })

/-- A fault of a launch: the first is recorded at word 0x4000 + index (R260), and the launch will complete FAULTED. -/
def State.launchFault (s : State) (i : Nat) (info : Word64) : State :=
  let e := s.completion i
  let s := if e.anyFault then s else s.setWord (0x4000 + i) info
  s.updCompletion i (fun e => { e with anyFault := true })

/-- The job that an entry belongs to: a launch's own field, a graph's, a job itself, a phase's parent. -/
def State.jobOf (s : State) (i : Nat) : Option Nat :=
  let e := s.completion i
  match e.level.toNat with
  | 0 => (Tbl.look i s.launches).map Launch.job
  | 1 => (Tbl.look i s.graphs).map Graph.job
  | 2 => some e.parent
  | _ => some i

/-- Entry i lies under entry top in the levels. -/
def State.under (s : State) (top i : Nat) : Nat → Bool
  | 0 => false
  | fuel + 1 =>
    let p := (s.completion i).parent
    p == top || (p != noParent && s.under top p fuel)

/-! ### Matrix instances (R129, R133, R147, R148) -/

/-- A drain that its launch's COUNT holds: an add-on-store to memory (R40, R147). -/
def Instance.counted (i : Instance) : Bool :=
  match i.op with
  | .mdrn .add _ _ _ (.mem _) => true
  | _ => false

/-- An instance has gathered its issues (R129). -/
def Instance.full (i : Instance) : Bool := i.np ≤ i.parts.length

/-- A VTHR of a tile, issued before an instance, has not taken its turn (R157). -/
def Core.thresholdWaits (k : Core) (i : Instance) : Bool :=
  k.insts.any (fun j => j.team == i.team && j.tile == i.tile && j.id < i.id && (match j.op with | .vthr _ _ => true | _ => false))

/-- An instance that can start but for the array's timing (R133, R140): gathered, its version reached, and for an MLOOP the
sequencer free. A VTHR names no version; a drain of verdicts inserts against the thresholds of the VTHRs before it (R157, R159, R303;
log 34). -/
def State.startable (s : State) (k : Core) (i : Instance) : Bool :=
  i.input.isNone && i.full
    && (match (s.team? i.team).bind (fun t => t.tiles[i.tile]?) with
        | some x => (match i.op with | .vthr _ _ => true | _ => x.ver == i.ver)
        | none => false)
    && (match i.op with
        | .mloop _ _ _ _ _ _ => k.mloop.isNone
        | .mdrn _ _ true _ _ => !k.thresholdWaits i
        | _ => true)

/-- The instances of a core that can start, in the order they became startable, ties to the lower tile (R133). -/
def State.refreshStart (s : State) (d c : Nat) : State :=
  let k := s.core d c
  let can := k.insts.filter (s.startable k)
  let keep := k.startq.filter (fun i => can.any (fun x => x.id == i))
  let new := sortBy (fun a b => a.tile ≤ b.tile) (can.filter (fun x => !keep.contains x.id))
  s.updCore d c (fun x => { x with startq := keep ++ new.map Instance.id })

/-- The unstarted instances of a team dropped, with the register writes they had pending, at its retirement or cancellation (R148). -/
def State.dropInstances (s : State) (team : Nat) : State :=
  match s.team? team with
  | none => s
  | some t =>
    let drop (i : Instance) : Bool := i.team == team && i.input.isNone
    let gone := ((s.core t.die t.core).insts ++ t.insts).filter drop
    let s := gone.foldl (fun s i => if i.counted then s.countDown t.launch 1 else s) s
    let s := s.updWarps team (fun w => { w with threads := w.threads.map (fun th => th.dropPending (gone.map Instance.id)) })
    let s := s.updTeam team (fun t => { t with insts := t.insts.filter (fun i => !drop i) })
    (s.updCore t.die t.core (fun c => { c with insts := c.insts.filter (fun i => !drop i) })).refreshStart t.die t.core

/-! ### Releases and acquires (R234 to R239) -/

/-- Every L1 line of a core leaves it (R175, R243). -/
def State.dropL1 (s : State) (d c : Nat) : State := s.updCore d c (fun x => { x with l1 := [] })

/-- An agent of a team observes the join of engine operations of other cores: their writes are ordered before every later
access, so its core's L1 is emptied (R244). -/
def State.joinEngines (s : State) (team : Nat) : State :=
  match s.team? team with
  | some t => s.dropL1 t.die t.core
  | none => s

/-- The object name of a kind (R235). -/
def objectName (kind num : Nat) : Word64 := BitVec.ofNat 64 (kind * 2 ^ 60 + num)

/-- A line is covered for an object and a launch on a die (R238): pinned, bound, or the table is in overflow mode. -/
def Die.covered (d : Die) (launch : Nat) (name : Word64) (l : LineAt) : Bool :=
  l.home == 1 || d.bindOver
    || d.bindings.any (fun b => b.launch == launch && b.name == name && b.asid == l.asid
        && b.base ≤ l.va && l.va < b.base + b.len)

/-- An acquire of an object by a thread of a team: the covered L1 lines of its core leave it (R238, R241). A line is known
by the address it was filled under (log 24). -/
def State.acquire (s : State) (team : Nat) (name : Word64) : State :=
  match s.team? team with
  | none => s
  | some t =>
    let asid := ((Tbl.look t.launch s.launches).map Launch.asid).getD 0
    s.updCore t.die t.core (fun x => { x with
      l1 := x.l1.filter (fun l => l.at_.asid == asid && !(s.die t.die).covered t.launch name l.at_) })

/-- A die without the bindings that p names; the overflow mode ends when none is left (R239). -/
def Die.unbind (d : Die) (p : Binding → Bool) : Die :=
  let l := d.bindings.filter (fun b => !p b)
  { d with bindings := l, bindOver := d.bindOver && !l.isEmpty }

/-! ### Monitors (R248, R249) -/

/-- Monitors of a die. -/
def monitorCount : Nat := 4096

/-- The value at a monitored location now makes its comparison true (R248). -/
def State.monitorTrue (s : State) (m : Monitor) : Bool :=
  m.op.holds m.ty.isSigned m.ty.bits (leNat (m.cells.map s.mem.byte)) m.a

/-- A team swapped under WAITC moves to pending resume, with its convoy (R30, R38, R249). -/
def State.wakeSwapped (s : State) (team : Nat) : State :=
  match s.team? team with
  | some t =>
    if t.state == .swapped then
      { s with teams := s.teams.map (fun p =>
          if (p.1 == team || (t.convoy.isSome && p.2.convoy == t.convoy)) && p.2.state == .swapped then
            (p.1, { p.2 with state := .pendingResume })
          else p) }
    else s
  | none => s

/-- A thread of a WAITC is satisfied: its monitor is gone; the leaf goes on after its last thread (R248). The completion
in the thread is an acquire (R237). -/
def State.satisfy (s : State) (m : Monitor) : State :=
  let r := m.leaf
  match (s.warp? r.team r.warp).bind (fun w => w.entry? r.leaf) with
  | some e =>
    match e.wait with
    | .monitor unsat =>
      let u := unsat &&& ~~~(maskOf [m.thread])
      let s := s.updEntry r (fun e => { e with wait := .monitor u })
      let s := if u = 0#32 then s.complete r 12 else s
      (s.acquire r.team (objectName 5 m.va)).wakeSwapped r.team
    | _ => s
  | none => s

/-- Monitors given to waiting arms, in arrival order, while some are free; each reads its location again (R249). -/
def State.grantMonitors (s : State) (die : Nat) : Nat → State
  | 0 => s
  | fuel + 1 =>
    let d := s.die die
    if monitorCount ≤ (d.monitors.filter Monitor.armed).length then s
    else
      match d.monitors.find? (fun m => !m.armed) with
      | none => s
      | some m =>
        if s.monitorTrue m then
          let s := s.updDie die (fun x => { x with monitors := x.monitors.filter (fun y => !(y.leaf == m.leaf && y.thread == m.thread)) })
          (s.satisfy m).grantMonitors die fuel
        else
          (s.updDie die (fun x => { x with
            monitors := mapIf (fun y => y.leaf == m.leaf && y.thread == m.thread) (fun y => { y with armed := true }) x.monitors
            })).grantMonitors die fuel

/-- The monitors of a die that meet p are freed, and waiting arms receive them (R249). -/
def State.freeMonitors (s : State) (p : Monitor → Bool) : State :=
  (List.range 9).foldl (fun s d =>
    if (s.die d).monitors.any p then
      let s := s.updDie d (fun x => { x with monitors := x.monitors.filter (fun m => !p m) })
      s.grantMonitors d (s.die d).monitors.length
    else s) s

/-- A thread arms: its monitor, or its place among the waiting arms with MONOVF raised (R249). -/
def State.arm (s : State) (die : Nat) (m : Monitor) : State :=
  let free := (s.die die).monitors.all Monitor.armed && (s.die die).monitors.length < monitorCount
  let s := s.updDie die (fun x => { x with monitors := x.monitors ++ [{ m with armed := free }] })
  if free then s else s.bumpDie die 0x106 1

/-- The home evaluates its armed monitors after a write to some cells (R248). -/
def State.evalMonitors (s : State) (written : List Nat) : State :=
  (List.range 9).foldl (fun s d =>
    (s.die d).monitors.foldl (fun s m =>
      if m.armed && m.cells.any written.contains && s.monitorTrue m then
        let s := s.updDie d (fun x => { x with monitors := x.monitors.filter (fun y => !(y.leaf == m.leaf && y.thread == m.thread)) })
        (s.satisfy m).grantMonitors d (s.die d).monitors.length
      else s) s) s

/-! ### Keys (R211 to R213) -/

/-- The home die of a 48-bit value (R211). -/
def keyHome (k : Nat) : Nat :=
  (bitsOf k 11 0 ^^^ bitsOf k 23 12 ^^^ bitsOf k 35 24 ^^^ bitsOf k 47 36) % 9

/-- Entries of a key table for one world: the first 256·KPART belong to secure keys (R211, R265). -/
def State.keyRoom (s : State) (die : Nat) (secure : Bool) : Nat :=
  let part := 256 * ((s.dieWord die 0x144).extractLsb' 0 4).toNat
  if secure then part else 4096 - part

/-- The name of a task among all dies. -/
def taskName (die seq : Nat) : Nat := seq * 9 + die

/-- The queue of a key after its home granted what it could (R212): an exclusive request alone at the head with no holder;
shared requests with no exclusive holder and no exclusive request ahead. -/
def KeyEntry.grant (e : KeyEntry) : Nat → KeyEntry
  | 0 => e
  | fuel + 1 =>
    match e.queue with
    | [] => e
    | (t, true) :: r => if e.excl.isNone && e.shared.isEmpty then { e with excl := some t, queue := r } else e
    | (t, false) :: r =>
      if e.excl.isNone && e.shared.length < 4095 then { e with shared := e.shared ++ [t], queue := r }.grant fuel else e

/-- A key's entry with every grant made. -/
def KeyEntry.granted (e : KeyEntry) : KeyEntry := e.grant e.queue.length

/-- A task's share of a key is released at its home, which grants its queue and frees an entry that nothing holds or awaits
(R213). -/
def State.releaseKey (s : State) (task : Nat) (secure : Bool) (key : Nat) : State :=
  s.updDie (keyHome key) (fun d => { d with
    keys := d.keys.filterMap (fun e =>
      if e.secure == secure && e.key == key then
        let e : KeyEntry :=
          { e with
            excl := if e.excl == some task then none else e.excl
            shared := e.shared.filter (· != task)
            queue := e.queue.filter (fun q => q.1 != task) }
        let e := e.granted
        if e.excl.isNone && e.shared.isEmpty && e.queue.isEmpty then none else some e
      else some e) })

/-- The world of a launch. -/
def State.launchSecure (s : State) (l : Nat) : Bool := ((Tbl.look l s.launches).map Launch.secure).getD false

/-! ### Tasks (R205 to R210) -/

/-- Two byte ranges share a byte. -/
def overlap (a la b lb : Nat) : Bool := a < b + lb && b < a + la && 0 < la && 0 < lb

/-- A version that is not yet home (R208). -/
def WTile.pending (w : WTile) : Bool := w.state == .live || w.state == .copying

/-- Every tile dependence of a task is met: each earlier version that overlaps a read tile is home (R208). -/
def Die.taskMet (d : Die) (t : Task) : Bool :=
  d.tasks.all (fun u =>
    t.seq ≤ u.seq || u.writes.all (fun w => !w.pending || t.reads.all (fun r => !overlap r.1 r.2.1 w.base w.len)))

/-- A task of a die. -/
def Die.task? (d : Die) (seq : Nat) : Option Task := d.tasks.find? (fun t => t.seq == seq)

/-- A die with a task changed. -/
def Die.updTask (d : Die) (seq : Nat) (f : Task → Task) : Die := { d with tasks := mapIf (fun t => t.seq == seq) f d.tasks }

/-- Tasks whose dependences are met leave Submitted for Acquiring, or for Ready when they name no key (R207, R208). -/
def State.advanceTasks (s : State) (die : Nat) : State :=
  let met := ((s.die die).tasks.filter (fun t => t.stage == .submitted && (s.die die).taskMet t)).map Task.seq
  met.foldl (fun s q =>
    match (s.die die).task? q with
    | none => s
    | some t =>
      if t.keys.isEmpty then
        let (now, s) := s.tick
        s.updDie die (fun d => d.updTask q (fun t => { t with stage := .ready, readyAt := now }))
      else
        s.updDie die (fun d => { d.updTask q (fun t => { t with stage := .acquiring }) with acquireq := d.acquireq ++ [q] })) s

/-- A retired task whose versions are all home or discarded leaves the table and its launch's COUNT (R205). -/
def State.sweepTask (s : State) (die seq : Nat) : State :=
  match (s.die die).task? seq with
  | none => s
  | some t =>
    if t.stage == .retired && t.writes.all (fun w => !w.pending) then
      (s.updDie die (fun d => { d with tasks := d.tasks.filter (fun u => u.seq != seq) })).countDown t.launch 1
    else s

/-- A task releases every key that it holds or awaits (R213). -/
def State.dropKeys (s : State) (die : Nat) (t : Task) : State :=
  t.keys.foldl (fun s k => s.releaseKey (taskName die t.seq) (s.launchSecure t.launch) k.1) s

/-- A task retires (R208 to R210, R213): its keys are released; its versions are discarded after a CANCEL or when it never
started, else those not renamed are home; dependences are met anew. -/
def State.retireTask (s : State) (die seq : Nat) (discard : Bool) : State :=
  match (s.die die).task? seq with
  | none => s
  | some t =>
    let s := s.dropKeys die t
    let s := s.updDie die (fun d => { d.updTask seq (fun t => { t with
      stage := .retired
      held := []
      asked := false
      writes := t.writes.map (fun w =>
        if discard then { w with state := .discarded } else if w.renamed then w else { w with state := .home }) })
      with acquireq := d.acquireq.filter (· != seq) })
    (s.sweepTask die seq).advanceTasks die

end Sys2Proof.Machine
end

