-- ==== Sys2Proof/Machine/Queues.lean ====
section
/-! DEFINITION. Bytes written at their homes, and the hardware queues: their records, the spill ring, refills and waiting pops
(spec/11 R209, R216 to R218, spec/12 R248). -/

namespace Sys2Proof.Machine

/-! ### Writes at their homes -/

/-- A resident task with a write tile that is not renamed. -/
def Task.tracks (t : Task) : Bool := t.stage == .resident && t.writes.any (fun w => !w.renamed)

/-- Cells written, noted by the tasks that must know which bytes of their tiles they wrote (R209). -/
def State.noteDirty (s : State) (cells : List Nat) : State :=
  if s.dies.any (fun p => p.2.tasks.any Task.tracks) then
    s.mapDies (fun d => { d with tasks := mapIf Task.tracks (fun t => { t with dirty := t.dirty ++ cells }) d.tasks })
  else s

/-- Bytes performed at their homes as one write (R167, R233, R248): the bytes, the tags of their units cleared, then the
monitors. -/
def State.writeHome (s : State) (l : List (Nat × Byte)) : State :=
  let s := l.foldl (fun s p => (s.physSet p.1 p.2).setUnitTag p.1 false) s
  let cells := l.filterMap (fun p => s.cell? p.1)
  (s.noteDirty cells).evalMonitors cells

/-- Bytes laid from a physical address as one write. -/
def State.place (s : State) (pa : Nat) (b : List Byte) : State := s.writeHome ((b.zipIdx).map (fun p => (pa + p.2, p.1)))

/-! ### Hardware queues (R216 to R219) -/

/-- The first descriptor word of a queue. -/
def State.queueWord (s : State) (q : Nat) : Nat := (s.dieWord (q / 64) (0x300 + 2 * (q % 64))).toNat

/-- Records of a queue's spill ring: none where SPLOG is 0 or its memory is not installed. -/
def State.spillSize (s : State) (q : Nat) : Nat :=
  let w := s.queueWord q
  if bitsOf w 7 4 = 0 || (s.cell? (bitsOf w 51 8 * 256)).isNone then 0 else 2 ^ bitsOf w 7 4 * 32

/-- The address of a spilled record. -/
def State.spillAddr (s : State) (q i : Nat) : Nat := bitsOf (s.queueWord q) 51 8 * 256 + 32 * (i % max 1 (s.spillSize q))

/-- The second descriptor word (R216). -/
def HwQueue.word (x : HwQueue) : Word64 :=
  BitVec.ofNat 64 (x.spCount % 65536 * 2 ^ 48 + x.spHead % 65536 * 2 ^ 32 + x.spTail % 65536 * 2 ^ 16 + x.hw.length % 64)

/-- The world of a queue (R265). -/
def State.queueSecure (s : State) (q : Nat) : Bool := (s.dieWord (q / 64) 0x380).getLsbD (q % 64)

/-- A record of the spill ring lies in a secure region, out of the reach of its non-secure queue (R266). -/
def State.spillShut (s : State) (q i : Nat) : Bool := !s.queueSecure q && s.secureAt (s.spillAddr q i)

/-- A push goes to the hardware entries: the spill ring is empty, no refill is in flight, an entry is free (R218). -/
def HwQueue.direct (x : HwQueue) : Bool := x.spCount = 0 && x.refill.isEmpty && x.hw.length < 32

/-- A push of m records would write a record of the spill ring that is shut to its queue. -/
def State.pushShut (s : State) (q m : Nat) : Bool :=
  let x := s.queue q
  (List.range (if x.direct then m - (32 - x.hw.length) else m)).any (fun i => s.spillShut q (x.spTail + i))

/-- Positions that a push can reach (R217). -/
def State.reach (s : State) (q : Nat) : Nat :=
  let x := s.queue q
  let spill := s.spillSize q - x.spCount
  if x.spCount = 0 && x.refill.isEmpty then spill + (32 - x.hw.length) else spill

/-- One record pushed (R218). -/
def State.pushOne (s : State) (q : Nat) (b : List Byte) : State :=
  let x := s.queue q
  if x.direct then s.updQueue q (fun x => { x with hw := x.hw ++ [b] })
  else
    (s.place (s.spillAddr q x.spTail) b).updQueue q (fun x =>
      { x with spCount := x.spCount + 1, spTail := (x.spTail + 1) % max 1 (s.spillSize q) })

/-- The bytes of a spilled record; one that is shut to its queue is read as zeros (R266, log 47). -/
def State.spilled (s : State) (q i : Nat) : List Byte :=
  if s.spillShut q i then List.replicate 32 0#8 else s.physRead (s.spillAddr q i) 32

/-- A refill starts when the hardware entries fall below 8 and the spill ring holds records (R218). -/
def State.startRefill (s : State) (q : Nat) : State :=
  let x := s.queue q
  if x.hw.length < 8 && 0 < x.spCount && x.refill.isEmpty then
    let n := min (32 - x.hw.length) x.spCount
    s.updQueue q (fun x => { x with refill := (List.range n).map (fun i => s.spilled q (x.spHead + i)) })
  else s

/-- A QPOP's records reach its threads (R217): their slices become valid, the tags clear. -/
def Warp.popRecords (w : Warp) (fresh start : Nat) (threads : List Nat) (recs : List (List Byte)) : Warp :=
  (threads.zip recs).foldl (fun w p =>
    w.updThread p.1 (fun th => th.write (fun slice => Config.windowPick fresh (slice + 512 * p.1)) start 64 (leNat p.2))) w

/-- Waiting pops are served from the head of their queue while it can be (R217). -/
def State.servePops (s : State) (q : Nat) : Nat → State
  | 0 => s
  | fuel + 1 =>
    let x := s.queue q
    match x.waiting with
    | [] => s
    | r :: rest =>
      match ((s.warp? r.team r.warp).bind (fun w => w.entry? r.leaf)).map Entry.wait with
      | some (.qpop _ start mask) =>
        let ts := maskThreads mask
        if x.hw.length < ts.length then s
        else
          let s := s.updQueue q (fun x => { x with hw := x.hw.drop ts.length, waiting := rest })
          let s := s.updWarp r.team r.warp (fun w => w.popRecords s.fresh start ts x.hw)
          (((({ s with fresh := s.fresh + 1 } : State).complete r 8).startRefill q)).servePops q fuel
      | _ => (s.updQueue q (fun x => { x with waiting := rest })).servePops q fuel

/-- Every pop of a queue that can be served now. -/
def State.settleQueue (s : State) (q : Nat) : State := s.servePops q (s.queue q).waiting.length

/-- Every pop that can be served now, in every queue with one. -/
def State.settleQueues (s : State) : State :=
  (s.queues.filter (fun p => !p.2.waiting.isEmpty)).foldl (fun s p => s.settleQueue p.1) s

end Sys2Proof.Machine
end

