-- ==== Sys2Proof/Machine/Ops.lean ====
section
/-! DEFINITION. The operations that every instruction shares: withdrawing waits, ends of warps, taking a trap and
returning from one, escalation, cancellation, and the issue of one instruction of one leaf (spec/02 R42, spec/03 R51,
spec/04 R79 to R84, spec/13 R251 to R256). -/

namespace Sys2Proof.Machine

/-! ### Waits withdrawn -/

/-- A leaf's wait is withdrawn and its place in every queue is given up (R42, R63, R217, R249, R258). Grants to those behind it are
left to `regrant`. -/
def State.withdraw (s : State) (r : LeafRef) : State :=
  match s.team? r.team, s.warp? r.team r.warp with
  | some t, some w =>
    let s := s.unblock r
    match (w.entry? r.leaf).map Entry.wait with
    | some (.claim _) =>
      (s.updCore t.die t.core (fun c => { c with
        claims := Tbl.put w.lane ((Tbl.get c.claims w.lane []).filter (fun q => q.1 != r)) c.claims }))
    | some .token => s.updCore t.die t.core (fun c => { c with tokens := c.tokens.filter (· != r) })
    | some (.monitor _) => s.freeMonitors (fun m => m.leaf == r)
    | some (.qpop q _ _) => s.updQueue q (fun x => { x with waiting := x.waiting.filter (· != r) })
    | some (.fault _ _) => s.mapDies (fun d => { d with faults := d.faults.filter (fun f => f.who != .leaf r) })
    | some .walk => s.updDie t.die (fun d => { d with walkq := d.walkq.filter (fun q => q.who != some r) })
    | _ => s
  | _, _ => s

/-- Claims and pops that stood behind withdrawn ones are granted where they now can be. That a claim withdrawn at the head lets those
behind it be granted at once is the model's choice (log 48). -/
def State.regrant (s : State) (d c : Nat) : State := (s.grantCore d c).settleQueues

/-- Every wait of a warp withdrawn. -/
def State.withdrawWarp (s : State) (team warp : Nat) : State :=
  match s.warp? team warp with
  | some w => w.entries.foldl (fun s e => if e.wait == .none then s else s.withdraw ⟨team, warp, e.id⟩) s
  | none => s

/-- A warp that has just finished returns its slices to its lane's pool (R60); with the team's last warp its gathering
collectives are dropped (R188). -/
def State.warpGone (s : State) (team warp : Nat) : State :=
  match s.team? team, s.warp? team warp with
  | some t, some w =>
    if !w.done then s
    else
      let s := if (s.warpsOf team).all Warp.done then s.updTeam team (fun t => { t with collectives := [] }) else s
      if t.state.holds then s.poolReturn t.die t.core w.lane (w.alloc * w.count) else s
  | _, _ => s

/-- Every leaf of some warps of a team exits, their waits withdrawn together (R255, R259). -/
def State.exitWarps (s : State) (team : Nat) (l : List Nat) : State :=
  let l := l.filter (fun w => ((s.warp? team w).map (fun x => !x.done)).getD false)
  let s := l.foldl (fun s w => s.withdrawWarp team w) s
  let s := l.foldl (fun s w => s.updWarp team w Warp.exitAll) s
  let s := l.foldl (fun s w => s.warpGone team w) s
  match s.team? team with
  | some t => s.regrant t.die t.core
  | none => s

/-- An escalated team whose launch is cancelled: its warps are treated as exiting, and a saved one may retire; its escalation
records that are not posted or not answered go (R259, log 49). -/
def State.killTeam (s : State) (team : Nat) : State :=
  let s := s.mapDies (fun d => { d with escalations := d.escalations.filter (fun e => e.team != team) })
  (s.exitWarps team ((s.warpsOf team).map Warp.index)).updTeam team
    (fun t => { t with escalated := false, collectives := [], cancelled := true, ended := true })

/-! ### Taking a trap (R251, R253, R256) -/

/-- A write of the warp is pending: of a slice, or of a uniform register (R83). -/
def State.warpPending (s : State) (team warp : Nat) : Bool :=
  match s.team? team, s.warp? team warp with
  | some t, some w =>
    w.pending
      || (s.core t.die t.core).loads.any (fun l => l.team == team && l.warp == warp && l.uni.isSome)
      || s.atoms.any (fun a => a.leaf.team == team && a.leaf.warp == warp && a.uni.isSome)
  | _, _ => false

/-- A service ring of a die is enabled: EN of its configuration word (R257). -/
def State.ringOn (s : State) (die ring : Nat) : Bool := (s.dieWord die (0x392 + 2 * ring)).getLsbD 0

/-- The trap vector of a launch: spine entry 0 of its job's runtime folio, while that is loaded (R253, R274). -/
def State.vector (s : State) (launch : Nat) : Option Word :=
  match (Tbl.look launch s.launches).map Launch.rfolio with
  | some f => if f = 0 then none else (((Tbl.look f s.folios).filter Folio.live).bind (fun x => x.image.entries.head?)).map (fun e => BitVec.ofNat 32 e.code)
  | none => none

/-- The escalation record's 32 bytes, its number left to the posting (R256). -/
def escRecord (handle : Word) (t : Team) (w : Warp) (first : Nat) (trap : Trap) (pc : Word) (mask : BitVec 32) : List Byte :=
  natLe 4 handle.toNat ++ natLe 4 t.num ++ natLe 2 (w.index % 1024 + w.lane * 1024)
    ++ natLe 2 (t.die * 4096 + t.core * 128) ++ natLe 1 first ++ natLe 1 trap.cause.toNat ++ natLe 2 0
    ++ natLe 8 trap.info.toNat ++ natLe 4 pc.toNat ++ natLe 4 mask.toNat

/-- A trap of an instruction that a resumed team has passed: TRAP, BKPT and SYSC (R256). -/
def Trap.passes (t : Trap) : Bool := [cTRAP, cBKPT, cSYSC].contains t.cause.toNat

/-- A team escalates (R256): its save is due, and a record waits to be posted. The leaf stands after a TRAP, BKPT or SYSC, else at
the escalating instruction, until the team is saved; the others go on until then (R261). While the team is escalated already, the
trap waits for the driver's answer (log 49). -/
def State.escalate (s : State) (r : LeafRef) (t : Team) (w : Warp) (e : Entry) (trap : Trap) : State :=
  if t.escalated then s.block r (.trap trap.cause trap.info trap.len)
  else
    let first := match w.handler with | some c => c.toNat | none => trap.cause.toNat
    let h := s.handle t.launch
    let s := s.updDie t.die (fun d => { d with
      escalations := d.escalations ++ [⟨r.team, h, escRecord h t w first trap e.pc e.mask, none⟩] })
    (s.updTeam r.team (fun t => { t with escalated := true })).updEntry r (fun e =>
      { e.issued with pc := if trap.passes then e.pc + BitVec.ofNat 32 trap.len else e.pc, wait := .escalated })

/-- A leaf takes a trap (R253): the trap registers record it, and the leaf starts the handler at the vector, in the same
warp, with the same mask. In handler mode, or with no runtime folio, the trap escalates; the answer says so. -/
def State.trapRaw (s : State) (r : LeafRef) (trap : Trap) : State × Bool :=
  match s.team? r.team, s.warp? r.team r.warp with
  | some t, some w =>
    match w.entry? r.leaf with
    | none => (s, false)
    | some e =>
      if w.handler.isSome then (s.escalate r t w e trap, !t.escalated)
      else
        let s := if trap.cause == BitVec.ofNat 8 cCANCEL then s.updTeam r.team (fun t => { t with cancelled := true }) else s
        let s := s.updWarp r.team r.warp (fun w => { w with
          tcause := BitVec.ofNat 32 trap.cause.toNat
          tinfo := trap.info
          tepc := e.pc
          tmask := e.mask
          tlen := trap.len
          tret := e.retJoin
          threads := w.threads.map Thread.closeWindows })
        match s.vector t.launch with
        | none => (s.escalate r t w e trap, !t.escalated)
        | some v =>
          (s.updWarp r.team r.warp (fun w =>
            ({ w with handler := some trap.cause }).updEntry r.leaf (fun e =>
              { e.issued with pc := v, handler := true, wait := .none, retJoin := none })), false)
  | _, _ => (s, false)

/-! ### Cancellation (R42) -/

/-- Waits that a CANCEL withdraws at once (R42). -/
def Wait.cancels : Wait → Bool
  | .none => false
  | .atomic _ => false
  | _ => true

/-- A leaf of a launch that is being cancelled takes a trap: an escalation while the escalation queue is disabled ends its team (R259). -/
def State.trapCancelled (s : State) (r : LeafRef) (trap : Trap) : State :=
  let (s, esc) := s.trapRaw r trap
  match s.team? r.team with
  | some t => if esc && !s.ringOn t.die 1 then s.killTeam r.team else s
  | none => s

/-- A trap that waited for the warp's pending writes is taken, by `take`, once they are complete, by the oldest such leaf that the
handler does not hold (R83, R253). -/
def State.settleWith (take : State → LeafRef → Trap → State) (s : State) (team warp : Nat) : State :=
  match s.warp? team warp with
  | none => s
  | some w =>
    if s.warpPending team warp then s
    else
      let can := w.entries.filter (fun e =>
        e.isLeaf && (match e.wait with | .trap _ _ _ => true | _ => false) && (w.handler.isNone || e.handler))
      match (sortBy (fun a b => a.lowest ≤ b.lowest) can).head? with
      | none => s
      | some e =>
        match e.wait with
        | .trap c i n => take s ⟨team, warp, e.id⟩ ⟨c, i, n⟩
        | _ => s

/-- A warp that no boundary would reach takes its posted CANCEL at once: it is not in handler mode, no leaf of it is ready,
and some leaf waits as R42 lists. Its writes pending, the leaf takes it when they complete (R83). -/
def State.cancelBlocked (s : State) (team warp : Nat) : State :=
  match s.warp? team warp with
  | none => s
  | some w =>
    let leaves := w.entries.filter Entry.isLeaf
    if w.handler.isSome || w.done || leaves.any (fun e => e.wait == .none) then s
    else
      match (sortBy (fun a b => a.lowest ≤ b.lowest) (leaves.filter (fun e => e.wait.cancels))).head? with
      | none => s
      | some e =>
        let s := s.withdrawWarp team warp
        let s := s.updWarp team warp (fun w => { w with postedCancel := false })
        if s.warpPending team warp then s.block ⟨team, warp, e.id⟩ (.trap (BitVec.ofNat 8 cCANCEL) 0#64 0)
        else s.trapCancelled ⟨team, warp, e.id⟩ (mkTrap cCANCEL 0)

/-- Teams that enter and leave their cores with a team: its convoy, or itself (R30, R38). -/
def State.fellows (s : State) (team : Nat) (t : Team) : List Nat :=
  match t.convoy with
  | some k => (s.teams.filter (fun p => p.2.convoy == some k)).map Prod.fst
  | none => [team]

/-- CANCEL reaches a team of a cancelled launch (R42, R249, R259): posted to every warp, at once where the warp is blocked;
a swapped team moves to pending resume with its convoy, and their monitors are freed; an escalated team ends. -/
def State.cancelTeam (s : State) (team : Nat) : State :=
  match s.team? team with
  | none => s
  | some t =>
    if t.escalated then s.killTeam team
    else if t.state == .retired then s
    else
      let s := s.updTeam team (fun t => { t with collectives := [] })
      let s := s.updWarps team (fun w => if w.done then w else { w with postedCancel := true })
      let s := if t.state == .swapped then (s.wakeSwapped team).freeMonitors (fun m => (s.fellows team t).contains m.leaf.team) else s
      if t.state == .resident then
        ((s.warpsOf team).foldl (fun s w => s.cancelBlocked team w.index) s).regrant t.die t.core
      else s

/-- The effects of CXR on a launch (R42, R148, R210): pending teams and tasks not admitted leave COUNT, unstarted matrix
instances and fills that wait for their slot are dropped, its teams receive CANCEL. -/
def State.cancelLaunch (s : State) (l : Nat) : State :=
  match Tbl.look l s.launches with
  | none => s
  | some x =>
    let s := (s.countDown l (x.teams - x.next)).updLaunch l (fun x => { x with next := x.teams })
    let s := (List.range 9).foldl (fun s d =>
      ((s.die d).tasks.filter (fun t => t.launch == l && (t.stage == .submitted || t.stage == .acquiring || t.stage == .ready))).foldl
        (fun s t => s.retireTask d t.seq true) s) s
    let s : State := { s with xfers := s.xfers.filter (fun x => !(x.launch == l && x.ring.isSome && x.slot.isNone)) }
    let mine := (s.teams.filter (fun p => p.2.launch == l && p.2.state != .retired)).map Prod.fst
    let s := mine.foldl (fun s t =>
      (s.warpsOf t).foldl (fun s w => s.settleWith State.trapCancelled t w.index) (s.dropInstances t)) s
    mine.foldl (fun s t => s.cancelTeam t) s

/-- The effect of CXR on a graph: nodes not started never start and leave COUNT (R42). -/
def State.cancelGraph (s : State) (g : Nat) : State :=
  match Tbl.look g s.graphs with
  | none => s
  | some x =>
    if x.stopped then s
    else
      let n := (x.nodes.filter (fun n => !n.started)).length
      { s.countDown g n with graphs := Tbl.put g { x with stopped := true } s.graphs }

/-- The folio that a launch record at a physical address names (R221). -/
def State.recordFolio (s : State) (pa : Nat) : Nat := leNat (s.physRead (pa + 14) 2)

/-- Armed entries whose record names a folio of a job are disabled (R224). -/
def State.disarm (s : State) (job : Nat) : State :=
  (List.range 64).foldl (fun s e =>
    let w := s.word (0x2000 + 4 * e)
    let f := s.recordFolio (bitsOf (s.word (0x2001 + 4 * e)).toNat 51 6 * 64)
    if w.getLsbD 63 && (Tbl.look f s.folios).bind Folio.job == some job then s.setWord (0x2000 + 4 * e) (w &&& ~~~(1#64 <<< 63))
    else s) s

/-- CNCL on a running entry (R42, R224): CXR in it and in every entry below it, in one step. An entry whose COUNT is 0 is about to
complete, and CNCL has no effect on it. -/
def State.cancelEntry (s : State) (top : Nat) : State :=
  if (s.completion top).state != .running || (s.completion top).count = 0 then s
  else
    let ids := (s.completions.filter (fun p =>
      p.2.state == .running && p.2.count != 0 &&
        (p.1 == top || s.under top p.1 4
          || ((s.completion top).level == 3#2 && p.2.level == 0#2 && p.2.parent == noParent && s.jobOf p.1 == some top)))).map Prod.fst
    let s := ids.foldl (fun s i => s.updCompletion i (fun e => { e with cxr := true })) s
    let s := ids.foldl (fun s i => (s.cancelLaunch i).cancelGraph i) s
    if (s.completion top).level == 3#2 then s.disarm top else s

/-- A leaf takes a trap. An escalation while the escalation queue is disabled cancels the launch at once (R256, R259). -/
def State.takeTrap (s : State) (r : LeafRef) (trap : Trap) : State :=
  let (s, esc) := s.trapRaw r trap
  match s.team? r.team with
  | some t => if esc && !s.ringOn t.die 1 then (s.cancelEntry t.launch).killTeam r.team else s
  | none => s

/-- The warp is in handler mode and the leaf is not of the handler: it is held (R253). -/
def State.heldByHandler (s : State) (r : LeafRef) : Bool :=
  match s.warp? r.team r.warp with
  | some w => w.handler.isSome && !((w.entry? r.leaf).map Entry.handler).getD true
  | none => false

/-- A trap reaches a leaf: taken at once, or when the warp's pending writes are complete and no handler holds the leaf
(R83, R253). -/
def State.deliver (s : State) (r : LeafRef) (trap : Trap) : State :=
  if s.warpPending r.team r.warp || s.heldByHandler r then s.block r (.trap trap.cause trap.info trap.len) else s.takeTrap r trap

/-- A trap that waited for the warp's pending writes is taken once they are complete (R83). -/
def State.settleTraps (s : State) (team warp : Nat) : State := s.settleWith State.takeTrap team warp

/-- A CANCEL that waited for the end of a handler, or for a leaf that is gone, is taken at once where no boundary would come
(R42, R252). -/
def State.lateCancel (s : State) (team warp : Nat) : State :=
  match s.warp? team warp, s.team? team with
  | some w, some t => if w.postedCancel then (s.cancelBlocked team warp).regrant t.die t.core else s
  | _, _ => s

/-- The return from a trap, once for the warp (R255): after a CANCEL every leaf exits; else the leaf goes on at %tepc, past
the instruction where its length was kept. -/
def State.returnTrap (s : State) (team warp : Nat) : State :=
  match s.warp? team warp with
  | none => s
  | some w =>
    match w.handler with
    | none => s
    | some c =>
      if c == BitVec.ofNat 8 cCANCEL then s.exitWarps team [warp]
      else
        let s := s.updWarp team warp (fun w => w.endHandler (w.tepc + BitVec.ofNat 32 w.tlen))
        ((s.warpGone team warp).settleTraps team warp).lateCancel team warp

/-! ### The issue of an instruction -/

/-- What a leaf issues with: its place, its records, the active threads in which the guard holds, and the free value's
counter. -/
structure Ctx where
  ref : LeafRef
  team : Team
  warp : Warp
  entry : Entry
  launch : Launch
  on : List Nat
  fresh : Nat

/-- A launch record that stands where a team names none. -/
def Launch.none : Launch :=
  ⟨0, 0, 0#9, 0, false, false, false, 0, 0, 0, 0, 0, 0, [], 0, false, 0, 0, 0, .none, .none, 0⟩

/-- The issuing leaf's context under a guard. -/
def State.ctx (s : State) (g : Guard) : Option Ctx :=
  match s.issuer with
  | none => none
  | some r =>
    match s.team? r.team, s.warp? r.team r.warp with
    | some t, some w =>
      match w.entry? r.leaf with
      | some e =>
        some ⟨r, t, w, e, Tbl.get s.launches t.launch Launch.none,
          (maskThreads e.mask).filter (fun i => g.holds (w.thread i).preds), s.fresh⟩
      | none => none
    | _, _ => none

namespace Ctx

/-- A thread of the issuing warp. -/
def th (c : Ctx) (i : Nat) : Thread := c.warp.thread i

/-- The lowest active thread in which the guard holds (R52, R312). -/
def low (c : Ctx) : Nat := c.on.headD 0

/-- The choice inside lookahead windows for a thread and a position (R81). -/
def pick (c : Ctx) (i pos : Nat) : Nat → Bool := fun slice => Config.windowPick c.fresh (slice + 512 * (i + 32 * pos))

/-- The raw bits of an operand in a thread: a register's slices, a uniform register, an immediate sign-extended to 64
bits (R49, R52). -/
def raw (c : Ctx) (i : Nat) (p : Pos) : Nat :=
  match p.o with
  | .reg w _ => (c.th i).read (c.pick i p.n) (p.start (c.th i)) w.slices
  | .uni k => c.warp.uniReg k.toNat
  | .imm v => (v.signExtend 64).toNat

/-- An operand under an operation width, extended by a signedness (R49). -/
def val (c : Ctx) (i : Nat) (p : Pos) (signed : Bool) (w : Nat) : Nat := p.o.fit signed w (c.raw i p)

/-- An operand of a type (R49). -/
def int (c : Ctx) (t : Ty) (i : Nat) (p : Pos) : Nat := c.val i p t.isSigned t.bits

/-- A uniform operand read as 32 bits, sign-extended when immediate. -/
def u32 (c : Ctx) (i : Nat) (p : Pos) : Nat := c.val i p true 32

/-- An operand as a signed offset: registers and uniform registers signed at their width, immediates signed. -/
def signed (c : Ctx) (i : Nat) (p : Pos) : Int :=
  match p.o with
  | .reg w _ => toSigned w.bits (c.raw i p)
  | .uni _ => toSigned 32 (c.raw i p)
  | .imm v => v.toInt

/-- The first failure of a check, by thread and then by position. -/
def first (c : Ctx) (ps : List Pos) (bad : Pos → Nat → Bool) : Option (Nat × Nat) :=
  c.on.findSome? (fun i => (ps.find? (fun p => bad p i)).map (fun p => (i, p.n)))

/-- Thread i reads or writes a position: all threads, those the position names, or the lowest alone where the destination is a
uniform register (R52). -/
def uses (c : Ctx) (ps : List Pos) (p : Pos) (i : Nat) : Bool := p.lanes.getLsbD i && (!ps.any Pos.uniDst || i == c.low)

/-- The register checks of R51, in their order. -/
def regTrap (c : Ctx) (ps : List Pos) : Option Trap :=
  let mk (code : Nat) (x : Nat × Nat) : Trap := mkTrap code (opInfo x.1 x.2)
  ((c.first ps (fun p i => p.illopnd (c.th i))).map (mk cILLOPND))
    <|> ((c.first ps (fun p i => p.ixbound (c.th i))).map (mk cIXBOUND))
    <|> ((c.first ps (fun p i => p.range c.warp.alloc (c.th i))).map (mk cRANGE))
    <|> ((c.first ps (fun p i => p.lanes.getLsbD i && p.invreg (c.th i))).map (mk cINVREG))

/-- LOOKAHEAD under the strict attribute, in the threads that read or write the position (R84). -/
def strictTrap (c : Ctx) (ps : List Pos) : Option Trap :=
  if c.launch.strict then
    (c.on.findSome? (fun i => ps.findSome? (fun p => if c.uses ps p i then p.window? (c.th i) else none))).map
      (fun w => mkTrap cLOOKAHEAD w.pc.toNat)
  else none

/-- The scoreboard holds the instruction in thread i (R48, R81). -/
def waitsIn (c : Ctx) (ps : List Pos) (i : Nat) : Bool := ps.any (fun p => c.uses ps p i && p.waits (c.th i))

/-- The scoreboard holds the instruction in some thread. -/
def waits (c : Ctx) (ps : List Pos) : Bool := c.on.any (c.waitsIn ps)

/-- The scoreboard holds the first active thread, so that the leaf is not ready (R36). -/
def firstWaits (c : Ctx) (ps : List Pos) : Bool :=
  match maskThreads c.entry.mask with
  | i :: _ => c.on.contains i && c.waitsIn ps i
  | [] => false

end Ctx

/-- A uniform register that the positions name has a pending write of the warp; or they write one that another fragment's RWAIT
or CWAIT, issued before, will write at its end (R52). -/
def State.uniWaits (s : State) (c : Ctx) (ps : List Pos) : Bool :=
  ps.any (fun p =>
    match p.o with
    | .uni k =>
      let sh := c.warp.handler.isSome
      (s.core c.team.die c.team.core).loads.any (fun l => l.team == c.ref.team && l.warp == c.ref.warp && l.uni == some (k, sh))
        || s.atoms.any (fun a => a.leaf.team == c.ref.team && a.leaf.warp == c.ref.warp && a.uni == some (k, sh))
        || (p.write && c.warp.entries.any (fun e => e.id != c.ref.leaf && e.handler == sh && e.wait.target == some (.uni k)))
    | _ => false)

/-- What an instruction does once its operands have passed. -/
inductive Done where
  /-- It has its effect, and the leaf goes on after it. -/
  | next (s : State)
  /-- It has its effect, and has placed the leaf itself. -/
  | moved (s : State)
  /-- The scoreboard holds it: it cannot issue yet, changes nothing, and its leaf is not ready. -/
  | unready
  /-- It cannot issue yet, and changes nothing: it is blocked on this open wait, and other leaves may issue. -/
  | hold (w : Wait)
  /-- It cannot go on yet, and its lane stands with it (R36, R173, R174). -/
  | stall
  /-- The leaf waits; whoever ends the wait completes the instruction. -/
  | block (s : State)
  /-- A precise trap: nothing commits. -/
  | trap (t : Trap)

/-- The state after what an instruction did. -/
def Done.state (x : Done) (s : State) (r : LeafRef) (len : Nat) : State :=
  match x with
  | .next t => t.complete r len
  | .moved t => t
  | .unready => { s with held := .scoreboard }
  | .hold w => { s with held := .blocked w }
  | .stall => { s with held := .lane }
  | .block t => t
  | .trap t => s.deliver r t

/-- The state in which a leaf's instruction acts: the free values' counter has moved on, and the warp's issue is noted (logs 2, 50). -/
def State.mark (s : State) (r : LeafRef) : State :=
  { s with fresh := s.fresh + 1, lastIssue := Tbl.put (warpKey r.team r.warp) s.nextId s.lastIssue }

/-- The issue of one instruction of the issuing leaf (R79): the scoreboard, the register checks, lookahead, then the
body; a guard false everywhere has no effect (R16), unless the instruction acts all the same. -/
def State.issueWith (s : State) (always : Bool) (len : Nat) (g : Guard) (ps : List Pos) (body : Ctx → State → Done) :
    Host.Outcome State Fault Refusal :=
  match s.ctx g with
  | none => .refused .noIssuer
  | some c =>
    if c.waits ps || (!c.on.isEmpty && s.uniWaits c ps) then
      .next { s with held := if c.firstWaits ps || s.uniWaits c ps then .scoreboard else .lane }
    else
      let t := s.mark c.ref
      match c.regTrap ps <|> c.strictTrap ps with
      | some trap => .next (t.deliver c.ref trap)
      | none =>
        if c.on.isEmpty && !always then .next (t.complete c.ref len)
        else .next ((body c t).state t c.ref len)

/-- The issue of an instruction that does nothing where its guard holds in no active thread. -/
def State.issue (s : State) (len : Nat) (g : Guard) (ps : List Pos) (body : Ctx → State → Done) :
    Host.Outcome State Fault Refusal :=
  s.issueWith false len g ps body

/-! ### Results in registers -/

/-- What an instruction leaves in a thread: a destination value in the destination's width, a predicate, flags. -/
structure Eff where
  val : Option Nat
  pred : Option (BitVec 3 × Bool)
  flags : Flags

/-- A destination value alone. -/
def Eff.ofVal (v : Nat) : Eff := ⟨some v, none, 0#5⟩

/-- The threads that an instruction runs in: the lowest alone where the destination is a uniform register (R52). -/
def Ctx.runs (c : Ctx) (d : Option Pos) : List Nat :=
  match d with
  | some p => match p.o with | .uni _ => c.on.take 1 | _ => c.on
  | none => c.on

/-- A thread with an effect: its destination slices with a window of la instructions, a predicate, its flags. -/
def Ctx.put (c : Ctx) (d : Option Pos) (la i : Nat) (e : Eff) : Thread :=
  let th := c.th i
  let th := match d, e.val with
    | some p, some v =>
      if p.slices = 0 then th else th.writeAhead (c.pick i 4) 0 c.entry.pc.toNat la (p.start th) p.slices v
    | _, _ => th
  let th := match e.pred with
    | some (p, b) => { th with preds := setPred th.preds p b }
    | none => th
  { th with fstat := th.fstat ||| e.flags.zeroExtend 32 }

/-- The warp with the effects of the threads that run; a uniform destination takes the first one's value (R52, R312). -/
def Ctx.commit (c : Ctx) (run : List Nat) (d : Option Pos) (la : Nat) (eff : Nat → Eff) : Warp :=
  let w := { c.warp with
    threads := (c.warp.threads.zipIdx).map (fun p => if run.contains p.2 then c.put d la p.2 (eff p.2) else p.1) }
  match d with
  | some p =>
    match p.o, run.head? with
    | .uni k, some i => match (eff i).val with | some v => w.setUniReg k.toNat (v % 2 ^ 32) | none => w
    | _, _ => w
  | none => w

/-- FPEXC: some running thread would raise an enabled flag (R117). -/
def Ctx.fpTrap (c : Ctx) (run : List Nat) (eff : Nat → Eff) : Option Trap :=
  run.findSome? (fun i =>
    let f := (eff i).flags
    if f &&& enablesOf (c.th i).fctl != 0#5 then some (mkTrap cFPEXC (f.toNat + i * 65536)) else none)

/-- ABANDON: some running thread reads an abandoned value at one of these positions (R156). -/
def Ctx.abandonTrap (run : List Nat) (l : List (Pos × (Nat → Nat))) : Option Trap :=
  run.findSome? (fun i =>
    (l.find? (fun p => isAbandoned (p.2 i))).map (fun p => mkTrap cABANDON (opInfo i p.1.n)))

/-- The effects of an instruction that computes in registers, in the threads that run: ABANDON, then FPEXC, then every
result (R117, R156, R312). -/
def Ctx.compute (c : Ctx) (t : State) (run : List Nat) (d : Option Pos) (la : Nat) (ab : List (Pos × (Nat → Nat)))
    (eff : Nat → Eff) : Done :=
  match Ctx.abandonTrap run ab <|> c.fpTrap run eff with
  | some x => .trap x
  | none => .next (t.updWarp c.ref.team c.ref.warp (fun _ => c.commit run d la eff))

/-- An instruction that computes in registers: `eff` gives each thread's result; `ab` the operands tested for abandoned
values. -/
def State.alu (s : State) (len la : Nat) (g : Guard) (ps : List Pos) (d : Option Pos) (ab : Ctx → List (Pos × (Nat → Nat)))
    (eff : Ctx → Nat → Eff) : Host.Outcome State Fault Refusal :=
  s.issue len g ps (fun c t => c.compute t (c.runs d) d la (ab c) (eff c))

/-- No operand is tested for abandoned values. -/
def noAb : Ctx → List (Pos × (Nat → Nat)) := fun _ => []

end Sys2Proof.Machine
end

