-- ==== Sys2Proof/Machine/Access.lean ====
section
/-! DEFINITION. Capabilities, the checks of an access, and the order of a core's requests (spec/09 R164 to R178,
spec/19 R324, R325). -/

namespace Sys2Proof.Machine

/-! ### Capabilities (R324, R325) -/

/-- A capability's fields. -/
structure Cap where
  base : Nat
  len : Nat
  fmt : Nat
  perm : Nat
  otype : Nat
  deriving DecidableEq, Repr

/-- The fields of 128 bits. -/
def Cap.of (v : Nat) : Cap := ⟨bitsOf v 55 0, bitsOf v 95 56, bitsOf v 99 96, bitsOf v 104 100, bitsOf v 127 112⟩

/-- The 128 bits of a capability. -/
def Cap.bits (c : Cap) : Nat :=
  c.base % 2 ^ 56 + c.len % 2 ^ 40 * 2 ^ 56 + c.fmt % 16 * 2 ^ 96 + c.perm % 32 * 2 ^ 100 + c.otype % 2 ^ 16 * 2 ^ 112

/-- Its length in bytes (R324). -/
def Cap.length (c : Cap) : Nat := if c.fmt = 1 then c.len * 65536 else c.len

/-! Permission bits (R325). -/

def pLD : Nat := 1
def pST : Nat := 2
def pLDC : Nat := 4
def pSTC : Nat := 8
def pSEAL : Nat := 16

/-- The capability grants every permission of a mask. -/
def Cap.grants (c : Cap) (m : Nat) : Bool := c.perm &&& m == m

/-- The %tinfo of R165: an address, a thread, the check's order. -/
def accInfo (va thread order : Nat) : Nat := va % 2 ^ 56 + thread % 32 * 2 ^ 56 + order * 2 ^ 61

/-- The %tinfo of a capability check without an access: base, thread, order (R165). -/
def capInfo (k : Cap) (thread order : Nat) : Nat := accInfo k.base thread order

/-- The tag of the granule that a capability operand names (R57). -/
def Ctx.capTag (c : Ctx) (i : Nat) (p : Pos) : Bool := (c.th i).tags.getLsbD (p.start (c.th i) / 32)

/-- The capability that an operand holds. -/
def Ctx.cap (c : Ctx) (i : Nat) (p : Pos) : Cap := Cap.of (c.raw i p)

/-! ### Homes and requests (R176 to R178, R180) -/

/-- The home die of a physical address (R177). -/
def homeOf (pa : Nat) : Nat :=
  let view := pa / 2 ^ 48
  if view = 1 then bitsOf pa 47 44 else if view = 16 then pa % 2 ^ 48 / 2 ^ 20 / 32 else bitsOf pa 47 12 % 9

/-- The home slice of a physical address (R177). -/
def sliceOf (pa : Nat) : Nat := bitsOf pa 10 7 ^^^ bitsOf pa 14 11

/-- The page of an address, by its first physical address. -/
def pageOf (pa level : Nat) : Nat := pa - pa % pageBytes level

/-- A request counts toward its page's counter at the home die, saturating at 255; a page that enters the cache evicts those that the
device chooses (R180; log 46). -/
def Die.countPage (d : Die) (n from_ : Nat) (l : LineAt) : Die :=
  let k := pageOf (l.line * 128) l.level
  let old := Tbl.get d.pages k ⟨0, 0, 0, 0⟩
  let kept := match Tbl.look k d.pages with
    | some _ => d.pages
    | none => d.pages.filter (fun p => !Config.pageEvicts n k p.1)
  { d with pages := Tbl.put k ⟨min 255 (old.count + 1), from_, l.asid, l.va - l.va % pageBytes l.level⟩ kept }

/-- A request leaves a core of a die for a line's home (R178). -/
def State.countReq (s : State) (die : Nat) (l : LineAt) : State :=
  if l.home = 1 then s
  else
    let h := homeOf (l.line * 128)
    if h = die then s.bumpDie die 0x100 1
    else ((s.bumpDie die 0x101 1).bumpDie h 0x102 1).updDie h (fun d => d.countPage s.fresh die l)

/-- A line of a HOME 0b10 page reaches its home slice: locked at first access, 16,384 lines to a slice; beyond, the slice's
pin-overflow count rises, saturating (R176, R377). -/
def State.touchHome (s : State) (l : LineAt) : State :=
  if l.home = 2 then
    let h := homeOf (l.line * 128)
    let d := s.die h
    if d.locked.contains l.line then s
    else
      let sl := sliceOf (l.line * 128)
      let full := 16384 ≤ (d.locked.filter (fun x => sliceOf (x * 128) == sl)).length
      let s := s.updDie h (fun d => { d with locked := d.locked ++ [l.line] })
      if full then
        let n := (s.dieWord h (0x150 + sl)).toNat
        s.setDieWord h (0x150 + sl) (BitVec.ofNat 64 (min (2 ^ 32 - 1) (n + 1)))
      else s
  else s

/-- Traffic passes between two dies: within one, over an edge, or over the fixed circuit of the pair while it is live (R10, R280). -/
def State.linked (s : State) (a b : Nat) : Bool :=
  a == b || adjacent a b
    || (match circuitPairs.findIdx? (fun p => p == (min a b, max a b)) with
        | some i => (s.word (0x3000 + i)).getLsbD 62
        | none => false)

/-- Traffic passes between a die and the homes of some addresses. -/
def State.reaches (s : State) (die : Nat) (pas : List Nat) : Bool := pas.all (fun p => s.linked die (homeOf p))

/-- A die moves a page that holds an address: its writes stall before the home (R181). -/
def State.pageMoving (s : State) (pa : Nat) : Bool :=
  (List.range 9).any (fun d => (s.die d).migrations.any (fun m => m.old ≤ pa && pa < m.old + m.bytes))

/-- Bytes of an access of some bits. -/
def accBytes (bits : Nat) : Nat := (bits + 7) / 8

/-! ### Scopes (R230) -/

/-- A thread lies in a unit. -/
def ScopeUnit.has : ScopeUnit → Origin → Bool
  | .thread p, o => p == o
  | .warp t w, o => o.team == t && o.warp == w
  | .teams l, o => l.contains o.team
  | .all, _ => true

/-- Two units share a thread. -/
def ScopeUnit.meets : ScopeUnit → ScopeUnit → Bool
  | .thread p, v => v.has p
  | .warp t w, .thread o => o.team == t && o.warp == w
  | .warp t w, .warp t' w' => t == t' && w == w'
  | .warp t _, .teams l => l.contains t
  | .teams l, .thread o => l.contains o.team
  | .teams l, .warp t _ => l.contains t
  | .teams l, .teams m => l.any m.contains
  | .all, _ => true
  | _, .all => true

/-- The teams resident on a die. -/
def State.teamsOn (s : State) (d : Nat) : List Nat :=
  (s.teams.filter (fun p => p.2.state.holds && p.2.die == d)).map Prod.fst

/-- The unit of a scope that contains a thread, at this moment (R230). The host and other packages, which only `.system` adds, are
no threads. -/
def State.unitOf (s : State) (sc : Scope) (o : Origin) : ScopeUnit :=
  match sc with
  | .thread => .thread o
  | .warp => .warp o.team o.warp
  | .team => .teams [o.team]
  | .convoy => .teams (match s.team? o.team with | some t => s.fellows o.team t | none => [o.team])
  | .die => .teams (match s.team? o.team with | some t => s.teamsOn t.die | none => [o.team])
  | .package => .all
  | .system => .all

/-- Scope sc of thread x contains thread y (R230). -/
def State.contains (s : State) (sc : Scope) (x y : Origin) : Bool := (s.unitOf sc x).has y

/-! ### What an access must follow (R232 to R234, R242, log 50) -/

/-- A store byte happens before an access of the unit's agents named `id`: it is an earlier one of theirs, or a fence has published
it to them. -/
def State.precedes (s : State) (b : StoreByte) (u : ScopeUnit) (id : Nat) : Bool :=
  (u.has b.by_ && b.inst < id)
    || s.published.any (fun p => p.by_ == b.by_ && b.inst < p.upTo && p.since ≤ id && p.unit.meets u)

/-- The bytes of stores that are not performed at their homes. -/
def State.storesLeft (s : State) : List StoreByte :=
  s.cores.flatMap (fun p => p.2.quay.flatMap QuayEntry.bytes ++ p.2.gathers.flatMap GatherOp.bytes) ++ s.writes.flatMap WriteRec.bytes

/-- A thread's atomic named before `id` touches a byte, and is not performed. -/
def State.atomLeft (s : State) (o : Origin) (id a : Nat) : Bool :=
  s.atoms.any (fun r => r.id < id && r.leaf.team == o.team && r.leaf.warp == o.warp
    && r.threads.any (fun t => t.thread == o.thread && t.old.isNone && !t.bad && t.addr ≤ a && a < t.addr + accBytes r.ty.bits))

/-- A read of byte a by thread o, named `id`, may be performed: every write that it must follow is. -/
def State.readFree (s : State) (o : Origin) (id a : Nat) : Bool :=
  !s.storesLeft.any (fun b => b.addr == a && s.precedes b (.thread o) id) && !s.atomLeft o id a

/-- A write of byte a by thread o, named `id`, may be performed: so are the reads of the thread that it must follow. -/
def State.writeFree (s : State) (o : Origin) (id a : Nat) : Bool :=
  s.readFree o id a
    && !s.cores.any (fun p => p.2.loads.any (fun l => l.id < id && l.team == o.team && l.warp == o.warp
        && l.threads.any (fun t => t.thread == o.thread && !t.done && t.cells.any (fun x => x.1 == a && x.2.isNone))))

/-! ### Earlier accesses of a thread -/

/-- No store or atomic to a line that p names, of a thread or published to it, is still to be performed (R233). -/
def State.writesDone (s : State) (o : Origin) (p : LineAt → Bool) : Bool :=
  let mine (l : List StoreByte) : Bool := l.any (fun b => s.precedes b (.thread o) s.nextId)
  !s.cores.any (fun k => k.2.quay.any (fun e => p e.at_ && mine e.bytes)
      || k.2.gathers.any (fun g => g.lines.any (fun l => p l && mine (g.bytes.filter (fun b => b.addr / 128 == l.line)))))
    && !s.writes.any (fun w => p w.at_ && mine w.bytes)
    && !s.atoms.any (fun a => a.id < s.nextId && a.leaf.team == o.team && a.leaf.warp == o.warp
        && a.threads.any (fun t => t.thread == o.thread && t.old.isNone && !t.bad && p t.at_))

/-- No load of a thread from a line that p names is still to be performed, a gather aside, which is an engine operation (R174,
R232). -/
def State.loadsDone (s : State) (o : Origin) (p : LineAt → Bool) : Bool :=
  !s.cores.any (fun k => k.2.quay.any (fun e => p e.at_ && e.ops.any (fun q =>
    q.1 < s.nextId && q.2.getLsbD o.thread && k.2.loads.any (fun l => l.id == q.1 && l.team == o.team && l.warp == o.warp))))

/-- The earlier accesses of a thread to bytes covered for an object, on its die, are performed: its release may take its place (R237,
R238, R241). -/
def State.releasedBy (s : State) (o : Origin) (name : Word64) : Bool :=
  match s.team? o.team with
  | some t =>
    let p (l : LineAt) : Bool := (s.die t.die).covered t.launch name l
    s.writesDone o p && s.loadsDone o p
  | none => true

/-- The release of an object by a guarded thread of the issuing leaf may take its place. -/
def State.released (s : State) (c : Ctx) (i : Nat) (name : Word64) : Bool := s.releasedBy ⟨c.ref.team, c.ref.warp, i⟩ name

/-- A write to some cells is a release of each monitor of its location by its writer (R237): the writer's earlier covered accesses,
named before `id`, are performed. -/
def State.monitorsReleased (s : State) (o : Origin) (id : Nat) (cells : List Nat) : Bool :=
  s.dies.all (fun d => d.2.monitors.all (fun m =>
    !m.cells.any cells.contains || ({ s with nextId := id } : State).releasedBy o (objectName 5 m.va)))

/-! ### Translated accesses (R165, R166) -/

/-- One thread's access: its bytes' physical addresses, its virtual address, the nibble, its lines. -/
structure Acc where
  thread : Nat
  va : Nat
  pas : List Nat
  half : Option Bool
  lines : List LineAt
  deriving DecidableEq, Repr

/-- The outcome of an access's translation. -/
inductive Cells where
  | ok (pas : List Nat) (lines : List LineAt)
  | miss (va : Nat)
  | fault (info : Word64)
  | world
  deriving DecidableEq, Repr

/-- The lines of n bytes from a translated address, each with the lowest address of the access within it. -/
def linesOf (p : Phys) (asid va n : Nat) : List LineAt :=
  (List.range ((p.pa + n - 1) / 128 + 1 - p.pa / 128)).map (fun i => ⟨p.pa / 128 + i, p.kind, p.level, asid, max va ((va / 128 + i) * 128)⟩)

/-- The physical bytes of an access of n bytes, across at most one page edge (R169). TRANS of either page comes before WORLD of
either (R165). -/
def State.cells (s : State) (d c asid va n : Nat) (need : Need) (secure : Bool) : Cells :=
  let n1 := min n (65536 - va % 65536)
  let one (p : Phys) : Cells := .ok ((List.range n1).map (fun i => p.pa + i)) (linesOf p asid va n1)
  let both (x : Cells) (p : Phys) : Cells :=
    match x with
    | .ok pas lines => .ok (pas ++ (List.range (n - n1)).map (fun i => p.pa + i)) (lines ++ linesOf p asid (va + n1) (n - n1))
    | y => y
  let first : Cells := match s.xlate d c asid va need secure with
    | .miss => .miss va
    | .fault i => .fault i
    | .world => .world
    | .ok p => one p
  match first with
  | .miss v => .miss v
  | .fault i => .fault i
  | x =>
    if n ≤ n1 then x
    else
      match s.xlate d c asid (va + n1) need secure with
      | .miss => .miss (va + n1)
      | .fault i => .fault i
      | .world => .world
      | .ok q => both x q

/-- The checks of every thread's access: the accesses, a trap, a walk to wait for, or a fault for the driver. -/
inductive Accs where
  | ok (l : List Acc)
  | trap (t : Trap)
  | walk (va : Nat) (write : Bool)
  | fault (info : Word64)

/-- What the checks of R165 need of one access. -/
structure AccReq where
  thread : Nat
  cap : Cap
  tag : Bool
  va : Int
  size : Nat
  half : Option Bool
  aligned : Bool
  perm : Nat
  need : Need

/-- Checks 1 to 4 of R165 for one access. -/
def AccReq.check (r : AccReq) : Option Trap :=
  let v := (r.va % (2 ^ 56 : Nat)).toNat
  if r.aligned && r.va % r.size != 0 then some (mkTrap cILLOPND (accInfo v r.thread 1))
  else if !r.tag then some (mkTrap cCAPTAG (accInfo v r.thread 2))
  else if r.cap.otype != 0 || !r.cap.grants r.perm then some (mkTrap cCAPPERM (accInfo v r.thread 3))
  else if r.va < r.cap.base || ((r.cap.base + r.cap.length : Nat) : Int) < r.va + r.size || ((2 ^ 56 : Nat) : Int) < r.va + r.size then
    some (mkTrap cCAPBOUND (accInfo v r.thread 4))
  else none

/-- The checks of R165 over the threads, the lowest failing thread deciding. -/
def State.access (s : State) (c : Ctx) (l : List AccReq) : Accs :=
  match l with
  | [] => .ok []
  | r :: rest =>
    match r.check with
    | some t => .trap t
    | none =>
      let v := r.va.toNat
      match s.cells c.team.die c.team.core c.launch.asid v r.size r.need c.launch.secure with
      | .miss va => .walk va r.need.wr
      | .fault i => .fault i
      | .world => .trap (mkTrap cWORLD (accInfo v r.thread 6))
      | .ok pas lines =>
        match s.access c rest with
        | .ok l => .ok (⟨r.thread, v, pas, r.half, lines⟩ :: l)
        | x => x

/-- A leaf waits for a page walk (R172). -/
def State.blockWalk (s : State) (c : Ctx) (va : Nat) (write : Bool) : State :=
  (s.updDie c.team.die (fun d => { d with
    walkq := d.walkq ++ [⟨c.team.core, c.launch.asid, va, write, some c.ref, 0⟩] })).block c.ref .walk

/-- The source of a fault record (R258): a fault of which a page walk found no valid or a malformed entry has the walk's code,
every other one the code of who accessed (log 45). -/
def faultSource (own : Nat) (info : Word64) : Nat :=
  let kind := bitsOf info.toNat 59 56
  if kind = 1 || kind = 2 then 9 else own

/-- A leaf waits on a replayable fault, or takes TRANS at once while the fault queue is disabled (R254, R258). -/
def State.blockFault (s : State) (r : LeafRef) (info : Word64) (source : Nat) : State :=
  match s.team? r.team, s.warp? r.team r.warp with
  | some t, some w =>
    if !s.ringOn t.die 0 then s.deliver (r) ⟨BitVec.ofNat 8 cTRANS, info, 0⟩
    else
      let x := Tbl.get s.launches t.launch Launch.none
      (s.updDie t.die (fun d => { d with
        faults := d.faults ++ [⟨.leaf r, info, t.launch, source, x.asid, t.core, some t.num, some (r.warp, w.lane), none⟩] })).block r
          (.fault none info)
  | _, _ => s

/-- The end of an access's checks: the accesses go on to `k`, every other outcome stops the instruction. -/
def Accs.then_ (a : Accs) (c : Ctx) (t : State) (k : List Acc → Done) : Done :=
  match a with
  | .ok l => k l
  | .trap x => .trap x
  | .walk va w => .block (t.blockWalk c va w)
  | .fault i => .block (t.blockFault c.ref i 0)

/-- An offset's byte part and nibble: a 4-bit access counts nibbles (R164). -/
def nibble (bits : Nat) (o : Int) : Int × Option Bool :=
  if bits = 4 then (o / 2, some (o % 2 == 1)) else (o, none)

end Sys2Proof.Machine
end

