-- ==== Sys2Proof/Machine/Capability.lean ====
section
/-! DEFINITION. Capabilities in registers, GIVE, CLAIM and RGN (spec/03 R58 to R63, spec/19 R324 to R328). -/

namespace Sys2Proof.Machine

/-- An operand of CAPN: 64 bits unsigned; narrower registers and uniform registers zero-extended, immediates
sign-extended (R326). -/
def Ctx.u64 (c : Ctx) (i : Nat) (p : Pos) : Nat :=
  match p.o with
  | .imm v => (v.signExtend 64).toNat
  | _ => c.raw i p

/-- A 64-bit or 32-bit register, a uniform register or an inline immediate (R326). -/
def capnSrc : Opnd → Bool
  | .reg w _ => w == .w32 || w == .w64
  | _ => true

/-- The warp with capabilities written to whole granules and their tags set (R57). -/
def Ctx.commitCaps (c : Ctx) (d : Pos) (val : Nat → Nat) : Warp :=
  let w := c.commit c.on (some d) 0 (fun i => .ofVal (val i))
  { w with threads := (w.threads.zipIdx).map (fun p =>
      if c.on.contains p.2 then { p.1 with tags := p.1.tags ||| granuleMask (d.start (c.th p.2)) 32 } else p.1) }

/-- CAPN's checks in a thread (R326). -/
def capnTrap (k : Cap) (tag : Bool) (thread a b : Nat) : Option Trap :=
  if !tag then some (mkTrap cCAPTAG (capInfo k thread 2))
  else if k.otype != 0 then some (mkTrap cCAPPERM (capInfo k thread 3))
  else if k.length < a + b then some (mkTrap cCAPWIDEN (capInfo k thread 4))
  else if b < 2 ^ 40 || ((k.base + a) % 65536 = 0 && b % 65536 = 0) then none
  else some (mkTrap cILLOPND 0)

/-- CAPN's result (R326). -/
def capnResult (k : Cap) (a b mask : Nat) : Cap :=
  let perm := k.perm &&& (31 - mask)
  if b < 2 ^ 40 then ⟨k.base + a, b, 0, perm, 0⟩ else ⟨k.base + a, b / 65536, 1, perm, 0⟩

/-- CAPN (R326). -/
def execCapn (g : Guard) (mask : BitVec 5) (d c a b : Opnd) (s : State) : Host.Outcome State Fault Refusal :=
  let pd := Pos.dst d true
  let pc := Pos.src 1 c true
  let pa := Pos.src 2 a (capnSrc a)
  let pb := Pos.src 3 b (capnSrc b)
  s.issue 12 g [pd, pc, pa, pb] (fun x u =>
    match x.on.findSome? (fun i => capnTrap (x.cap i pc) (x.capTag i pc) i (x.u64 i pa) (x.u64 i pb)) with
    | some t => .trap t
    | none =>
      .next (u.updWarp x.ref.team x.ref.warp (fun _ =>
        x.commitCaps pd (fun i => (capnResult (x.cap i pc) (x.u64 i pa) (x.u64 i pb) mask.toNat).bits))))

/-- A field of a capability as CAPQ reads it (R327). -/
def capField (op : CapField) (k : Cap) (tag : Bool) : Nat :=
  match op with
  | .base => k.base | .len => k.length | .perm => k.perm | .otype => k.otype | .fmt => k.fmt
  | .tag => if tag then 1 else 0

/-- CAPQ (R327). -/
def execCapq (g : Guard) (op : CapField) (d c : Opnd) (s : State) : Host.Outcome State Fault Refusal :=
  let pd := Pos.dst d (match d with | .reg w _ => w == .w32 || w == .w64 | _ => false)
  let pc := Pos.src 1 c true
  s.alu 8 0 g [pd, pc] (some pd) noAb (fun x i => .ofVal (capField op (x.cap i pc) (x.capTag i pc) % 2 ^ d.bits))

/-- CAPS's checks in a thread (R328). -/
def capsTrap (k : Cap) (tag : Bool) (thread a : Nat) : Option Trap :=
  if !tag then some (mkTrap cCAPTAG (capInfo k thread 2))
  else if k.otype != 0 || !k.grants pSEAL || a < 0x100 || 0xFFFF < a then some (mkTrap cCAPPERM (capInfo k thread 3))
  else none

/-- CAPS (R328). -/
def execCaps (g : Guard) (d c a : Opnd) (s : State) : Host.Outcome State Fault Refusal :=
  let pd := Pos.dst d true
  let pc := Pos.src 1 c true
  let pa := Pos.src 2 a a.src32
  s.issue 8 g [pd, pc, pa] (fun x u =>
    match x.on.findSome? (fun i => capsTrap (x.cap i pc) (x.capTag i pc) i (x.u32 i pa)) with
    | some t => .trap t
    | none =>
      .next (u.updWarp x.ref.team x.ref.warp (fun _ =>
        x.commitCaps pd (fun i => { x.cap i pc with otype := x.u32 i pa }.bits))))

/-! ### GIVE, CLAIM, RGN -/

/-- The checks of a GIVE or CLAIM count (R62). -/
def Ctx.countBad (c : Ctx) (n : Int) (ok : Nat → Bool) : Bool :=
  n < 0 || n % 8 != 0 || c.entry.mask != c.warp.liveMask || !ok n.toNat

/-- Slices a to b − 1 of some thread of the warp have a pending write (R62, R82). -/
def Warp.pendingSlices (w : Warp) (a b : Nat) : Bool := a < b && w.threads.any (fun th => th.pendingIn a (b - a))

/-- GIVE's effect on the warp (R62). -/
def Warp.give (w : Warp) (n : Nat) : Warp :=
  { w with
    alloc := w.alloc - n
    promise := w.promise - n
    region := w.region.map (fun r => if n = 0 then r else r &&& ~~~(sliceMask (w.alloc - n) n))
    threads := w.threads.map (fun th => th.wipe (w.alloc - n) w.alloc) }

/-- GIVE (R62, R63). -/
def execGive (k : Opnd) (s : State) : Host.Outcome State Fault Refusal :=
  let pk := Pos.src 1 k k.isUniImm
  s.issue 8 Guard.always [pk] (fun c u =>
    let v := c.signed c.low pk
    let n := v.toNat
    if c.countBad v (fun n => n + 8 ≤ c.warp.alloc) then .trap (mkTrap cILLOPND (opInfo c.low 1))
    else if c.warp.pendingSlices (c.warp.alloc - n) c.warp.alloc then .unready
    else
      let u := (u.updWarp c.ref.team c.ref.warp (fun w => w.give n)).complete c.ref 8
      .moved (u.poolReturn c.team.die c.team.core c.warp.lane (n * c.warp.count)))

/-- CLAIM (R62, R63): the claim joins its lane's queue and is granted at once where the pool allows. A claim of 0, which changes nothing,
completes at once and does not join the queue: R62's pseudocode enqueues every claim, so this is the model's choice (log 48). -/
def execClaim (k : Opnd) (s : State) : Host.Outcome State Fault Refusal :=
  let pk := Pos.src 1 k k.isUniImm
  s.issue 8 Guard.always [pk] (fun c u =>
    let v := c.signed c.low pk
    let n := v.toNat
    if c.countBad v (fun n => c.warp.alloc + n ≤ 512 && n ≤ c.warp.allowance) then .trap (mkTrap cILLOPND (opInfo c.low 1))
    else if n = 0 then .next u
    else if c.warp.pendingSlices c.warp.alloc (c.warp.alloc + n) then .unready
    else
      let u := (u.block c.ref (.claim n)).updCore c.team.die c.team.core (fun x => { x with
        claims := Tbl.put c.warp.lane (Tbl.get x.claims c.warp.lane [] ++ [(c.ref, n * c.warp.count)]) x.claims })
      .block (u.grantLane c.team.die c.team.core c.warp.lane))

/-- The slices of a span; the unused span n0 adds none (R59). -/
def spanMask : Opnd → BitVec 512
  | .reg .w4 0 => 0#512
  | .reg w s => sliceMask s.toNat w.slices
  | _ => 0#512

/-- RGN (R58, R59). -/
def execRgn (s0 s1 s2 s3 : Opnd) (s : State) : Host.Outcome State Fault Refusal :=
  let pos (n : Nat) (o : Opnd) : Pos := ⟨n, o, none, o.isReg, false, false, BitVec.allOnes 32⟩
  s.issue 12 Guard.always [pos 0 s0, pos 1 s1, pos 2 s2, pos 3 s3] (fun c u =>
    .next (u.updWarp c.ref.team c.ref.warp (fun w =>
      { w with region := some (spanMask s0 ||| spanMask s1 ||| spanMask s2 ||| spanMask s3) })))

end Sys2Proof.Machine
end

