-- ==== Sys2Proof/Machine/Control.lean ====
section
/-! DEFINITION. Branches, calls, returns, exit and the instructions that only pass (spec/02 R33, R34; spec/19 R320, R322,
R323, R334; spec/20 R358; spec/21 R369, R390). -/

namespace Sys2Proof.Machine

/-- A leaf moves to an address: its threads pass the instruction, and it arrives where it should (R33). -/
def State.jump (s : State) (r : LeafRef) (pc : Word) : State :=
  s.updWarp r.team r.warp (fun w =>
    match w.entry? r.leaf with
    | none => w
    | some e => ((w.tickMask e.mask).updEntry r.leaf (fun x => { x.issued with pc := pc, wait := .none, retJoin := none })).settled r.leaf)

/-- A leaf splits (R33, R34): the threads of m1 at pc1, the others at pc2, under a join. The threads of `passed` have
passed the instruction; `again` is the join of a RET that the others execute again. A split that finds no entry is held, and the
instruction issues again when one frees. -/
def State.split (s : State) (c : Ctx) (passed m1 : BitVec 32) (pc1 pc2 join : Word) (again : Option Word) : Done :=
  let (id1, s) := s.takeId
  let (id2, s) := s.takeId
  match s.splitLeaf c.team.die c.team.core (c.warp.tickMask passed) c.entry m1 (c.entry.mask &&& ~~~m1) pc1 pc2 join id1 id2 with
  | some w => .moved (s.updWarp c.ref.team c.ref.warp (fun _ => w.updEntry id2 (fun e => { e with retJoin := again })))
  | none => .block (s.block c.ref .split)

/-- BRA (R320). -/
def execBra (g : Guard) (target join : Word) (s : State) : Host.Outcome State Fault Refusal :=
  s.issue 16 g [] (fun c u =>
    let pc := c.entry.pc
    let t := maskOf c.on
    if t = c.entry.mask then .moved (u.jump c.ref (pc + target))
    else u.split c c.entry.mask t (pc + target) (pc + 16) (pc + join) none)

/-- The split of BRX and RET (R322, R369): each thread goes to its target, the lowest target first; the rest execute the
instruction again. -/
def State.branchTo (s : State) (c : Ctx) (target : Nat → Word) (join : Word) (again : Option Word) : Done :=
  let ts := maskThreads c.entry.mask
  let low := ts.foldl (fun m i => min m (target i).toNat) (2 ^ 32 - 1)
  let g := maskOf (ts.filter (fun i => (target i).toNat == low))
  if g = c.entry.mask then .moved (s.jump c.ref (BitVec.ofNat 32 low))
  else s.split c g g (BitVec.ofNat 32 low) c.entry.pc join again

/-- A thread's branch target: its operand where the guard holds, the next instruction elsewhere (R322, R369). -/
def Ctx.target (c : Ctx) (p : Pos) (len i : Nat) : Word :=
  if c.on.contains i then BitVec.ofNat 32 (c.u32 i p) else c.entry.pc + BitVec.ofNat 32 len

/-- BRX (R322). -/
def execBrx (g : Guard) (a : Opnd) (join : Word) (s : State) : Host.Outcome State Fault Refusal :=
  let pa := Pos.src 1 a a.reg32
  s.issue 16 g [pa] (fun c u => u.branchTo c (c.target pa 16) (c.entry.pc + join) none)

/-- CALL (R323): a guard that is mixed takes ILLOPND. -/
def execCall (g : Guard) (d : Opnd) (target : Word) (s : State) : Host.Outcome State Fault Refusal :=
  let pd := Pos.dst d d.reg32
  s.issue 12 g [pd] (fun c u =>
    if maskOf c.on != c.entry.mask then .trap (mkTrap cILLOPND 0)
    else
      let ret := (c.entry.pc + 12).toNat
      let u := u.updWarp c.ref.team c.ref.warp (fun _ => c.commit (c.runs (some pd)) (some pd) 0 (fun _ => .ofVal ret))
      .moved (u.jump c.ref (c.entry.pc + target)))

/-- RET (R369): the join is the target of the lowest thread in which the guard holds, at every re-execution the first one's. -/
def execRet (g : Guard) (a : Opnd) (s : State) : Host.Outcome State Fault Refusal :=
  let pa := Pos.src 1 a a.reg32
  s.issue 8 g [pa] (fun c u =>
    let join := c.entry.retJoin.getD (c.target pa 8 c.low)
    u.branchTo c (c.target pa 8) join (some join))

/-- Threads of a leaf end (R33, R334): the handler is left when every thread of %tmask has exited, the warp's charge
returns when its last thread ends. -/
def State.endThreads (s : State) (r : LeafRef) (m : BitVec 32) (len : Nat) : State :=
  let s := s.updWarp r.team r.warp (fun w => (w.tickMask m).endThreads r.leaf m len)
  match s.warp? r.team r.warp with
  | none => s
  | some w =>
    if w.handler.isSome && w.tmask &&& w.liveMask == 0#32 && !w.done then s.returnTrap r.team r.warp
    else
      let s := if w.done then s.updWarp r.team r.warp (fun w => { w with handler := none }) else s
      (s.warpGone r.team r.warp).settleTraps r.team r.warp

/-- EXIT (R334). -/
def execExit (g : Guard) (s : State) : Host.Outcome State Fault Refusal :=
  s.issue 8 g [] (fun c u =>
    let rest := u.updWarp c.ref.team c.ref.warp (fun w => w.tickMask (c.entry.mask &&& ~~~(maskOf c.on)))
    .moved (rest.endThreads c.ref (maskOf c.on) 8))

/-- NOP (R358). -/
def execNop (g : Guard) (s : State) : Host.Outcome State Fault Refusal := s.issue 8 g [] (fun _ u => .next u)

/-- NOP.long (R358). -/
def execNopLong (g : Guard) (s : State) : Host.Outcome State Fault Refusal := s.issue 12 g [] (fun _ u => .next u)

/-- YIELD (R390): the fragment ranks last of its class at the lane's next choice. -/
def execYield (g : Guard) (s : State) : Host.Outcome State Fault Refusal :=
  s.issue 8 g [] (fun c u => .moved ((u.complete c.ref 8).updEntry c.ref (fun e => { e with yielded := true })))

end Sys2Proof.Machine
end

