-- ==== Sys2Proof/Decode.lean ====
section
/-! DEFINITION. Decoding and encoding: the instruction word's fields (R69, R74, R78), the opcode map (R93 to R105), the
sub-codes (R106), and the checks of R79 step 2. -/

namespace Sys2Proof

/-- Why a word is refused at check 2 of R79 (every one takes ILLINS, R107). -/
inductive DecodeError where
  /-- The length code 0b11, or a length that is not the opcode's (R66). -/
  | badLength
  /-- An unassigned primary opcode (R68, R107). -/
  | unassigned
  /-- A width code, predicate or uniform field the position does not allow (R71, R91). -/
  | badOperand
  /-- An unlisted MOD value or sub-code, or swizzle code 0b011 (R73, R75, R106). -/
  | badSubcode
  /-- A type, operand kind or field combination the opcode does not accept (R72, R74 to R78). -/
  | illFormed
  /-- A reserved or unused bit that is not zero, a lookahead where none is allowed (R6, R69, R80). -/
  | reservedBits
  deriving DecidableEq, Repr

/-- The fields of the base layout (R69), with bits 127..96 and 95..64 as two words. -/
structure Raw where
  hi : BitVec 32
  lo : BitVec 32
  md : BitVec 5
  ty : BitVec 5
  src2 : BitVec 12
  src1 : BitVec 12
  dst : BitVec 12
  pred : BitVec 4
  la : BitVec 4
  opc : BitVec 8
  len : BitVec 2
  deriving DecidableEq, Repr

/-- The fields of a word (R69). -/
def Raw.ofWord (w : IWord) : Raw where
  hi := w.extractLsb' 96 32
  lo := w.extractLsb' 64 32
  md := w.extractLsb' 59 5
  ty := w.extractLsb' 54 5
  src2 := w.extractLsb' 42 12
  src1 := w.extractLsb' 30 12
  dst := w.extractLsb' 18 12
  pred := w.extractLsb' 14 4
  la := w.extractLsb' 10 4
  opc := w.extractLsb' 2 8
  len := w.extractLsb' 0 2

/-- The word of the fields (R69). -/
def Raw.toWord (r : Raw) : IWord :=
  r.hi ++ r.lo ++ r.md ++ r.ty ++ r.src2 ++ r.src1 ++ r.dst ++ r.pred ++ r.la ++ r.opc ++ r.len

/-! ### Fields -/

/-- Width codes 0b000 to 0b101 (R71). -/
def Width.code : Width → BitVec 3
  | .w4 => 0#3 | .w8 => 1#3 | .w16 => 2#3 | .w32 => 3#3 | .w64 => 4#3 | .w128 => 5#3

/-- The 12-bit field of an operand: start in bits 11..3, width code in bits 2..0 (R71). -/
def Opnd.toField : Opnd → BitVec 12
  | .reg w s => s ++ w.code
  | .uni k => (0#2 ++ k) ++ 6#3
  | .imm v => v ++ 7#3

/-- The operand of a field; a uniform register above k127 is refused (R71). -/
def Opnd.ofField (f : BitVec 12) : Except DecodeError Opnd :=
  let s := f.extractLsb' 3 9
  match (f.extractLsb' 0 3).toNat with
  | 0 => .ok (.reg .w4 s)
  | 1 => .ok (.reg .w8 s)
  | 2 => .ok (.reg .w16 s)
  | 3 => .ok (.reg .w32 s)
  | 4 => .ok (.reg .w64 s)
  | 5 => .ok (.reg .w128 s)
  | 6 => if s.extractLsb' 7 2 = 0#2 then .ok (.uni (s.extractLsb' 0 7)) else .error .badOperand
  | _ => .ok (.imm s)

/-- An operand field that may be unused: none is the zero field. -/
def optField : Option Opnd → BitVec 12
  | none => 0#12
  | some o => o.toField

/-- A uniform-register field that may be unused (R134). -/
def optUniField : Option (BitVec 7) → BitVec 12
  | none => 0#12
  | some k => (Opnd.uni k).toField

/-- A predicate as a destination (R91). -/
def pdstField (p : BitVec 3) : BitVec 12 := 0#6 ++ p ++ 0#3

/-- A predicate as a source, bit 6 negating (R91). -/
def PSrc.toField (q : PSrc) : BitVec 12 := 0#5 ++ BitVec.ofBool q.neg ++ q.p ++ 0#3

/-- The predicate number of a destination field (R91). -/
def pdstOf (f : BitVec 12) : Except DecodeError (BitVec 3) :=
  if f = pdstField (f.extractLsb' 3 3) then .ok (f.extractLsb' 3 3) else .error .badOperand

/-- The predicate of a source field (R91). -/
def PSrc.ofField (f : BitVec 12) : Except DecodeError PSrc :=
  let q : PSrc := ⟨f.getLsbD 6, f.extractLsb' 3 3⟩
  if f = q.toField then .ok q else .error .badOperand

/-- PRED: bit 17 negates, bits 16..14 number the predicate (R69). -/
def Guard.toField (g : Guard) : BitVec 4 := BitVec.ofBool g.neg ++ g.p

/-- The guard of a PRED field (R70). -/
def Guard.ofField (f : BitVec 4) : Guard := ⟨f.getLsbD 3, f.extractLsb' 0 3⟩

/-- TYPE codes (R72). -/
def Ty.code : Ty → BitVec 5
  | .none => 0x00#5 | .f64 => 0x01#5 | .f32 => 0x02#5 | .bf16 => 0x03#5 | .f16 => 0x04#5 | .e4m3 => 0x05#5
  | .e5m2 => 0x06#5 | .d8 => 0x07#5 | .i64 => 0x08#5 | .i32 => 0x09#5 | .i16 => 0x0A#5 | .i8 => 0x0B#5
  | .i4 => 0x0C#5 | .n64 => 0x0D#5 | .n32 => 0x0E#5 | .n16 => 0x0F#5 | .n8 => 0x10#5 | .n4 => 0x11#5
  | .b64 => 0x12#5 | .b32 => 0x13#5 | .b16 => 0x14#5 | .b8 => 0x15#5 | .bf16x2 => 0x16#5 | .f16x2 => 0x17#5
  | .i16x2 => 0x18#5 | .n16x2 => 0x19#5 | .e4m3x4 => 0x1A#5 | .e5m2x4 => 0x1B#5 | .i8x4 => 0x1C#5 | .n8x4 => 0x1D#5
  | .i4x8 => 0x1E#5 | .n4x8 => 0x1F#5

/-- The type of a code (R72); every code has one. -/
def Ty.ofCode (c : BitVec 5) : Ty :=
  match c.toNat with
  | 0x00 => .none | 0x01 => .f64 | 0x02 => .f32 | 0x03 => .bf16 | 0x04 => .f16 | 0x05 => .e4m3
  | 0x06 => .e5m2 | 0x07 => .d8 | 0x08 => .i64 | 0x09 => .i32 | 0x0A => .i16 | 0x0B => .i8
  | 0x0C => .i4 | 0x0D => .n64 | 0x0E => .n32 | 0x0F => .n16 | 0x10 => .n8 | 0x11 => .n4
  | 0x12 => .b64 | 0x13 => .b32 | 0x14 => .b16 | 0x15 => .b8 | 0x16 => .bf16x2 | 0x17 => .f16x2
  | 0x18 => .i16x2 | 0x19 => .n16x2 | 0x1A => .e4m3x4 | 0x1B => .e5m2x4 | 0x1C => .i8x4 | 0x1D => .n8x4
  | 0x1E => .i4x8 | _ => .n4x8

/-- Swizzle codes (R75). -/
def Swz.code : Swz → BitVec 3
  | .id => 0#3 | .rev => 1#3 | .swp => 2#3 | .bc0 => 4#3 | .bc1 => 5#3 | .bc2 => 6#3 | .bc3 => 7#3

/-- The swizzle of a code; 0b011 is refused (R75). -/
def Swz.ofCode (c : BitVec 3) : Except DecodeError Swz :=
  match c.toNat with
  | 0 => .ok .id | 1 => .ok .rev | 2 => .ok .swp | 4 => .ok .bc0 | 5 => .ok .bc1 | 6 => .ok .bc2 | 7 => .ok .bc3
  | _ => .error .badSubcode

/-- Bits 95..64 of the X shape (R74): control and third source. -/
def XCtl.toWord (x : XCtl) (src3 : BitVec 12) : BitVec 32 :=
  0#5 ++ BitVec.ofBool x.ixD ++ BitVec.ofBool x.ix1 ++ BitVec.ofBool x.ix2 ++ BitVec.ofBool x.ix3 ++ x.ixr
    ++ x.sw3.code ++ x.sw2.code ++ x.sw1.code ++ src3

/-- The control of the X shape's upper word (R74). -/
def XCtl.ofWord (lo : BitVec 32) : Except DecodeError XCtl := do
  let sw3 ← Swz.ofCode (lo.extractLsb' 18 3)
  let sw2 ← Swz.ofCode (lo.extractLsb' 15 3)
  let sw1 ← Swz.ofCode (lo.extractLsb' 12 3)
  return ⟨lo.getLsbD 26, lo.getLsbD 25, lo.getLsbD 24, lo.getLsbD 23, lo.extractLsb' 21 2, sw3, sw2, sw1⟩

/-- The third source's field (R74). -/
def src3Of (lo : BitVec 32) : BitVec 12 := lo.extractLsb' 0 12

/-! ### Sub-codes in MOD (R73, R106) -/

/-- MOD bit i set from a flag. -/
def modBit (i : Nat) (b : Bool) : BitVec 5 := if b then 1#5 <<< i else 0#5

/-- Rounding codes (R73). -/
def Rnd.code : Rnd → BitVec 3
  | .fctl => 0#3 | .rn => 1#3 | .rz => 2#3 | .ru => 3#3 | .rd => 4#3

/-- The rounding of a code (R73). -/
def Rnd.ofCode (c : BitVec 3) : Except DecodeError Rnd :=
  match c.toNat with
  | 0 => .ok .fctl | 1 => .ok .rn | 2 => .ok .rz | 3 => .ok .ru | 4 => .ok .rd
  | _ => .error .badSubcode

/-- Flush codes (R73). -/
def Flush.code : Flush → BitVec 2
  | .fctl => 0#2 | .ftz => 1#2 | .noftz => 2#2

/-- The flush of a code (R73). -/
def Flush.ofCode (c : BitVec 2) : Except DecodeError Flush :=
  match c.toNat with
  | 0 => .ok .fctl | 1 => .ok .ftz | 2 => .ok .noftz
  | _ => .error .badSubcode

/-- MOD of floating-point arithmetic: flush in bits 63..62, rounding in bits 61..59 (R73). -/
def FMode.code (m : FMode) : BitVec 5 := m.flush.code ++ m.rnd.code

/-- The modes of a MOD field (R73). -/
def FMode.ofCode (c : BitVec 5) : Except DecodeError FMode := do
  let r ← Rnd.ofCode (c.extractLsb' 0 3)
  let f ← Flush.ofCode (c.extractLsb' 3 2)
  return ⟨r, f⟩

/-- IMUL's MOD: bit 59 .sat, bit 60 .hi, never both (R344). -/
def MulMod.code : MulMod → BitVec 5
  | .lo => 0#5 | .sat => 1#5 | .hi => 2#5

/-- The result selection of IMUL's MOD (R344). -/
def MulMod.ofCode (c : BitVec 5) : Except DecodeError MulMod :=
  match c.toNat with
  | 0 => .ok .lo | 1 => .ok .sat | 2 => .ok .hi
  | _ => .error .badSubcode

/-- Integer comparison codes (R106). -/
def Cmp.code : Cmp → BitVec 5
  | .eq => 0#5 | .ne => 1#5 | .lt => 2#5 | .le => 3#5 | .gt => 4#5 | .ge => 5#5

/-- The comparison of MOD for ISET and WAITC, bit 63 zero (R106). -/
def Cmp.ofCode (c : BitVec 5) : Except DecodeError Cmp :=
  match c.toNat with
  | 0 => .ok .eq | 1 => .ok .ne | 2 => .ok .lt | 3 => .ok .le | 4 => .ok .gt | 5 => .ok .ge
  | _ => .error .badSubcode

/-- Floating comparison codes, MOD 62..59 (R106). -/
def FCmp.code : FCmp → BitVec 4
  | .eq => 0#4 | .ne => 1#4 | .lt => 2#4 | .le => 3#4 | .gt => 4#4 | .ge => 5#4 | .num => 6#4 | .nan => 7#4

/-- The floating comparison of a code (R106). -/
def FCmp.ofCode (c : BitVec 4) : Except DecodeError FCmp :=
  match c.toNat with
  | 0 => .ok .eq | 1 => .ok .ne | 2 => .ok .lt | 3 => .ok .le | 4 => .ok .gt | 5 => .ok .ge | 6 => .ok .num | 7 => .ok .nan
  | _ => .error .badSubcode

/-- Reduction operator codes (R106). -/
def RedOp.code : RedOp → BitVec 5
  | .add => 0#5 | .min => 1#5 | .max => 2#5 | .and => 3#5 | .or => 4#5 | .xor => 5#5

/-- The operator of REDW and RED (R106). -/
def RedOp.ofCode (c : BitVec 5) : Except DecodeError RedOp :=
  match c.toNat with
  | 0 => .ok .add | 1 => .ok .min | 2 => .ok .max | 3 => .ok .and | 4 => .ok .or | 5 => .ok .xor
  | _ => .error .badSubcode

/-- ATOM's operator codes (R106). -/
def AtomOp.code : AtomOp → BitVec 5
  | .red op => op.code | .xchg => 6#5

/-- The operator of ATOM (R106). -/
def AtomOp.ofCode (c : BitVec 5) : Except DecodeError AtomOp :=
  if c = 6#5 then .ok .xchg else (RedOp.ofCode c).map .red

/-- SHFL's mode codes (R106). -/
def ShflOp.code : ShflOp → BitVec 5
  | .idx => 0#5 | .up => 1#5 | .down => 2#5 | .xor => 3#5

/-- SHFL's mode (R106). -/
def ShflOp.ofCode (c : BitVec 5) : Except DecodeError ShflOp :=
  match c.toNat with
  | 0 => .ok .idx | 1 => .ok .up | 2 => .ok .down | 3 => .ok .xor
  | _ => .error .badSubcode

/-- VOTE's mode codes (R106). -/
def VoteOp.code : VoteOp → BitVec 5
  | .all => 0#5 | .any => 1#5 | .uni => 2#5

/-- VOTE's mode (R106). -/
def VoteOp.ofCode (c : BitVec 5) : Except DecodeError VoteOp :=
  match c.toNat with
  | 0 => .ok .all | 1 => .ok .any | 2 => .ok .uni
  | _ => .error .badSubcode

/-- FSFN's codes, MOD 61..59 (R106). -/
def SfnOp.code : SfnOp → BitVec 3
  | .sin => 0#3 | .cos => 1#3 | .ex2 => 2#3 | .lg2 => 3#3 | .tanh => 4#3 | .sqrt => 5#3

/-- FSFN's function (R106). -/
def SfnOp.ofCode (c : BitVec 3) : Except DecodeError SfnOp :=
  match c.toNat with
  | 0 => .ok .sin | 1 => .ok .cos | 2 => .ok .ex2 | 3 => .ok .lg2 | 4 => .ok .tanh | 5 => .ok .sqrt
  | _ => .error .badSubcode

/-- Scope codes, MOD 61..59 (R106). -/
def Scope.code : Scope → BitVec 3
  | .thread => 0#3 | .warp => 1#3 | .team => 2#3 | .convoy => 3#3 | .die => 4#3 | .package => 5#3 | .system => 6#3

/-- The scope of a code; 0b111 is refused (R241, R243). -/
def Scope.ofCode (c : BitVec 3) : Except DecodeError Scope :=
  match c.toNat with
  | 0 => .ok .thread | 1 => .ok .warp | 2 => .ok .team | 3 => .ok .convoy | 4 => .ok .die | 5 => .ok .package
  | 6 => .ok .system
  | _ => .error .badSubcode

/-- FENCE kind codes, MOD 63..62 (R243). -/
def FenceKind.code : FenceKind → BitVec 2
  | .ar => 0#2 | .acq => 1#2 | .rls => 2#2

/-- The kind of a code; 0b11 is refused (R243). -/
def FenceKind.ofCode (c : BitVec 2) : Except DecodeError FenceKind :=
  match c.toNat with
  | 0 => .ok .ar | 1 => .ok .acq | 2 => .ok .rls
  | _ => .error .badSubcode

/-- MSPA patterns (R139). -/
def SparsePat.code : SparsePat → BitVec 5
  | .s24 => 0#5 | .s14 => 1#5 | .s48 => 2#5 | .s28 => 3#5

/-- The pattern of MSPA's MOD (R139). -/
def SparsePat.ofCode (c : BitVec 5) : Except DecodeError SparsePat :=
  match c.toNat with
  | 0 => .ok .s24 | 1 => .ok .s14 | 2 => .ok .s48 | 3 => .ok .s28
  | _ => .error .badSubcode

/-- MDRN's mode codes, MOD 60..59 (R106). -/
def DrainOp.code : DrainOp → BitVec 2
  | .reg => 0#2 | .st => 1#2 | .add => 2#2

/-- MDRN's mode (R106). -/
def DrainOp.ofCode (c : BitVec 2) : Except DecodeError DrainOp :=
  match c.toNat with
  | 0 => .ok .reg | 1 => .ok .st | 2 => .ok .add
  | _ => .error .badSubcode

/-- VDSET's predicate codes (R151). -/
def VerdictOp.code : VerdictOp → BitVec 5
  | .sign => 0#5 | .ge => 1#5 | .le => 2#5 | .gt => 3#5 | .topk => 4#5

/-- VDSET's predicate (R151). -/
def VerdictOp.ofCode (c : BitVec 5) : Except DecodeError VerdictOp :=
  match c.toNat with
  | 0 => .ok .sign | 1 => .ok .ge | 2 => .ok .le | 3 => .ok .gt | 4 => .ok .topk
  | _ => .error .badSubcode

/-- CAPQ's field codes (R106). -/
def CapField.code : CapField → BitVec 5
  | .base => 0#5 | .len => 1#5 | .perm => 2#5 | .otype => 3#5 | .fmt => 4#5 | .tag => 5#5

/-- CAPQ's field (R106). -/
def CapField.ofCode (c : BitVec 5) : Except DecodeError CapField :=
  match c.toNat with
  | 0 => .ok .base | 1 => .ok .len | 2 => .ok .perm | 3 => .ok .otype | 4 => .ok .fmt | 5 => .ok .tag
  | _ => .error .badSubcode

/-- TOPK's codes (R160). -/
def TopkOp.code : TopkOp → BitVec 5
  | .val => 0#5 | .idx => 1#5 | .cnt => 2#5 | .full => 3#5

/-- TOPK's op (R160). -/
def TopkOp.ofCode (c : BitVec 5) : Except DecodeError TopkOp :=
  match c.toNat with
  | 0 => .ok .val | 1 => .ok .idx | 2 => .ok .cnt | 3 => .ok .full
  | _ => .error .badSubcode

/-- COPY's direction codes, bits 98..97 (R188). -/
def CopyDir.code : CopyDir → BitVec 2
  | .gl => 0#2 | .lg => 1#2 | .gr => 2#2 | .gx => 3#2

/-- COPY's direction (R188); every code has one. -/
def CopyDir.ofCode (c : BitVec 2) : CopyDir :=
  match c.toNat with
  | 0 => .gl | 1 => .lg | 2 => .gr | _ => .gx

/-- Space codes (R375). -/
def Space.code : Space → BitVec 2
  | .special => 0#2 | .die => 1#2 | .package => 2#2

/-- The space of a code; 0b11 is refused (R375). -/
def Space.ofCode (c : BitVec 2) : Except DecodeError Space :=
  match c.toNat with
  | 0 => .ok .special | 1 => .ok .die | 2 => .ok .package
  | _ => .error .badSubcode

/-- The immediate of SRD and SWR (R375). -/
def WordRef.toWord (w : WordRef) : BitVec 32 := w.space.code ++ 0#10 ++ w.die ++ w.num

/-- The register or word an immediate names (R375). -/
def WordRef.ofWord (v : BitVec 32) : Except DecodeError WordRef := do
  let sp ← Space.ofCode (v.extractLsb' 30 2)
  return ⟨sp, v.extractLsb' 16 4, v.extractLsb' 0 16⟩

/-- The selector predicate of SEL in MOD 62..59 (R106). -/
def PSrc.selCode (q : PSrc) : BitVec 5 := 0#1 ++ BitVec.ofBool q.neg ++ q.p

/-- The selector of SEL's MOD (R106). -/
def PSrc.ofSelCode (c : BitVec 5) : PSrc := ⟨c.getLsbD 3, c.extractLsb' 0 3⟩

/-- The control field of FCVT and CVTI in SRC2: rounding, .sat, flush (R97). -/
def cvtControl (m : FMode) (sat : Bool) : BitVec 12 := 0#6 ++ m.flush.code ++ BitVec.ofBool sat ++ m.rnd.code

/-- The modes of a conversion control field (R97). -/
def cvtModes (f : BitVec 12) : Except DecodeError FMode := do
  let r ← Rnd.ofCode (f.extractLsb' 0 3)
  let fl ← Flush.ofCode (f.extractLsb' 4 2)
  return ⟨r, fl⟩

/-- No modes: the control field of CVTI holds .sat alone (R97). -/
def FMode.zero : FMode := ⟨.fctl, .fctl⟩

/-! ### Upper fields of the 128-bit forms -/

/-- Bits 127..64 of a 128-bit form. -/
def Raw.up (r : Raw) : BitVec 64 := r.hi ++ r.lo

/-- The upper fields of MMA and MSPA (R134). -/
def MmaUp.toWord (u : MmaUp) : BitVec 64 :=
  u.ver ++ u.tile ++ u.bm ++ u.boff ++ BitVec.ofBool u.half ++ BitVec.ofBool u.scl ++ BitVec.ofBool u.ftz ++ u.astr
    ++ u.npm ++ BitVec.ofBool u.asrc

/-- The upper fields of MMA and MSPA (R134). -/
def MmaUp.ofWord (w : BitVec 64) : MmaUp :=
  ⟨w.extractLsb' 48 16, w.extractLsb' 43 5, w.extractLsb' 35 8, w.extractLsb' 19 16, w.getLsbD 18, w.getLsbD 17,
    w.getLsbD 16, w.extractLsb' 7 9, w.extractLsb' 1 6, w.getLsbD 0⟩

/-- The upper fields of MLOOP (R134). -/
def MloopUp.toWord (u : MloopUp) : BitVec 64 :=
  u.ver ++ u.tile ++ u.bm ++ u.boff ++ BitVec.ofBool u.half ++ BitVec.ofBool u.scl ++ BitVec.ofBool u.ftz ++ u.astr
    ++ u.binc

/-- The upper fields of MLOOP (R134). -/
def MloopUp.ofWord (w : BitVec 64) : MloopUp :=
  ⟨w.extractLsb' 48 16, w.extractLsb' 43 5, w.extractLsb' 35 8, w.extractLsb' 19 16, w.getLsbD 18, w.getLsbD 17,
    w.getLsbD 16, w.extractLsb' 7 9, w.extractLsb' 0 7⟩

/-- The upper fields of MDRN (R146). -/
def MdrnUp.toWord (u : MdrnUp) : BitVec 64 :=
  u.ver ++ u.tile ++ u.bm ++ u.npm ++ BitVec.ofBool u.tgt ++ u.rstr ++ u.pt ++ 0#7

/-- The upper fields of MDRN (R146). -/
def MdrnUp.ofWord (w : BitVec 64) : MdrnUp :=
  ⟨w.extractLsb' 48 16, w.extractLsb' 43 5, w.extractLsb' 35 8, w.extractLsb' 29 6, w.getLsbD 28, w.extractLsb' 12 16,
    w.extractLsb' 7 5⟩

/-- The upper fields of VDSET (R151). -/
def VdsetUp.toWord (u : VdsetUp) : BitVec 64 := u.ver ++ u.tile ++ u.nbm ++ u.km ++ u.ks ++ 0#5

/-- The upper fields of VDSET (R151). -/
def VdsetUp.ofWord (w : BitVec 64) : VdsetUp :=
  ⟨w.extractLsb' 48 16, w.extractLsb' 43 5, w.extractLsb' 27 16, w.extractLsb' 20 7, w.extractLsb' 5 15⟩


/-- The upper fields of COPY (R188). -/
def copyUp (lenm : BitVec 16) (pt : BitVec 5) (nwm : BitVec 6) (dir : CopyDir) (soff : BitVec 12) : BitVec 64 :=
  lenm ++ pt ++ nwm ++ 0#2 ++ dir.code ++ soff ++ 0#21

/-- The upper fields of COPYM (R201). -/
def copymUp (lenm : BitVec 16) (pt : BitVec 5) (mask : BitVec 16) (sk : Bool) : BitVec 64 :=
  lenm ++ pt ++ mask ++ BitVec.ofBool sk ++ 0#26

/-- The upper fields of MLDB (R142). -/
def mldbUp (boff lenu : BitVec 16) (pt : BitVec 5) (sk : Bool) : BitVec 64 :=
  boff ++ lenu ++ pt ++ BitVec.ofBool sk ++ 0#26

/-- The upper fields of MLDS (R143). -/
def mldsUp (base : BitVec 16) (pt : BitVec 5) (sk : Bool) : BitVec 64 :=
  base ++ 0#16 ++ pt ++ BitVec.ofBool sk ++ 0#26

/-! ### The decoder -/

namespace Raw

/-- The guard of a word. -/
def g (r : Raw) : Guard := Guard.ofField r.pred

/-- The type of a word. -/
def t (r : Raw) : Ty := Ty.ofCode r.ty

/-- MOD bit 59. -/
def m0 (r : Raw) : Bool := r.md.getLsbD 0

/-- MOD bit 60. -/
def m1 (r : Raw) : Bool := r.md.getLsbD 1

/-- DST alone. -/
def oD (r : Raw) (k : Opnd → Instr) : Except DecodeError Instr := do
  return k (← Opnd.ofField r.dst)

/-- SRC1 alone. -/
def oA (r : Raw) (k : Opnd → Instr) : Except DecodeError Instr := do
  return k (← Opnd.ofField r.src1)

/-- SRC2 alone. -/
def oB (r : Raw) (k : Opnd → Instr) : Except DecodeError Instr := do
  return k (← Opnd.ofField r.src2)

/-- DST and SRC1. -/
def oDA (r : Raw) (k : Opnd → Opnd → Instr) : Except DecodeError Instr := do
  return k (← Opnd.ofField r.dst) (← Opnd.ofField r.src1)

/-- DST and SRC2. -/
def oDB (r : Raw) (k : Opnd → Opnd → Instr) : Except DecodeError Instr := do
  return k (← Opnd.ofField r.dst) (← Opnd.ofField r.src2)

/-- SRC1 and SRC2. -/
def oAB (r : Raw) (k : Opnd → Opnd → Instr) : Except DecodeError Instr := do
  return k (← Opnd.ofField r.src1) (← Opnd.ofField r.src2)

/-- DST, SRC1 and SRC2. -/
def oDAB (r : Raw) (k : Opnd → Opnd → Opnd → Instr) : Except DecodeError Instr := do
  return k (← Opnd.ofField r.dst) (← Opnd.ofField r.src1) (← Opnd.ofField r.src2)

/-- DST, SRC1 and the X-shape control. -/
def xDA (r : Raw) (k : Opnd → Opnd → XCtl → Instr) : Except DecodeError Instr := do
  return k (← Opnd.ofField r.dst) (← Opnd.ofField r.src1) (← XCtl.ofWord r.lo)

/-- DST, SRC1, SRC2 and the X-shape control. -/
def xDAB (r : Raw) (k : Opnd → Opnd → Opnd → XCtl → Instr) : Except DecodeError Instr := do
  return k (← Opnd.ofField r.dst) (← Opnd.ofField r.src1) (← Opnd.ofField r.src2) (← XCtl.ofWord r.lo)

/-- DST, SRC1, SRC2, SRC3 and the X-shape control. -/
def xDABC (r : Raw) (k : Opnd → Opnd → Opnd → Opnd → XCtl → Instr) : Except DecodeError Instr := do
  return k (← Opnd.ofField r.dst) (← Opnd.ofField r.src1) (← Opnd.ofField r.src2) (← Opnd.ofField (src3Of r.lo))
    (← XCtl.ofWord r.lo)

/-- SRC1, SRC2, SRC3 and the X-shape control. -/
def xABC (r : Raw) (k : Opnd → Opnd → Opnd → XCtl → Instr) : Except DecodeError Instr := do
  return k (← Opnd.ofField r.src1) (← Opnd.ofField r.src2) (← Opnd.ofField (src3Of r.lo)) (← XCtl.ofWord r.lo)

end Raw

/-- An operand field that the opcode may leave unused. -/
def optOf (used : Bool) (f : BitVec 12) : Except DecodeError (Option Opnd) :=
  if used then (Opnd.ofField f).map some else .ok none

/-- The kS field of a scaled form: a uniform register (R134). -/
def ksOf (used : Bool) (f : BitVec 12) : Except DecodeError (Option (BitVec 7)) :=
  if used then
    match Opnd.ofField f with
    | .ok (.uni k) => .ok (some k)
    | _ => .error .badOperand
  else .ok none

/-- Opcodes 0x01 to 0x0F (R93). -/
def parse0 (r : Raw) : Except DecodeError Instr :=
  match r.opc.toNat with
  | 0x01 => r.oDAB (.iadd r.g r.t r.m0)
  | 0x02 => r.oDAB (.isub r.g r.t r.m0)
  | 0x03 => do r.oDAB (.imul r.g r.t (← MulMod.ofCode r.md))
  | 0x04 => r.oDAB (.idiv r.g r.t r.m0 r.m1)
  | 0x05 => r.oDAB (.imin r.g r.t r.m0)
  | 0x06 => r.oDAB (.imax r.g r.t r.m0)
  | 0x07 => r.oDA (.iabs r.g r.t r.m0)
  | 0x08 => do r.oAB (.iset r.g r.t (← Cmp.ofCode r.md) (← pdstOf r.dst))
  | 0x09 => r.oDAB (.and r.g r.t)
  | 0x0A => r.oDAB (.andn r.g r.t)
  | 0x0B => r.oDAB (.or r.g r.t)
  | 0x0C => r.oDAB (.xor r.g r.t)
  | 0x0D => r.oDAB (.shl r.g r.t)
  | 0x0E => r.oDAB (.shr r.g r.t)
  | 0x0F => r.oDAB (.sha r.g r.t)
  | _ => .error .unassigned

/-- Opcodes 0x10 to 0x1B (R93). -/
def parse1 (r : Raw) : Except DecodeError Instr :=
  match r.opc.toNat with
  | 0x10 => r.oDAB (.rot r.g r.t)
  | 0x11 => r.oDA (.popc r.g r.t)
  | 0x12 => r.oDA (.clz r.g r.t)
  | 0x13 => r.oDA (.brev r.g r.t)
  | 0x14 => r.oDAB (.bfx r.g r.t)
  | 0x15 => r.oDA (.mov r.g r.t r.m0)
  | 0x16 =>
    if r.m0 then r.oA (.movxWrite r.g (r.md.extractLsb' 1 2)) else r.oD (.movxRead r.g (r.md.extractLsb' 1 2))
  | 0x17 => do r.oDAB (.shfl r.g r.t (← ShflOp.ofCode r.md))
  | 0x18 => do return .vote r.g (← VoteOp.ofCode r.md) (← pdstOf r.dst) (← PSrc.ofField r.src1)
  | 0x19 => do return .ballot r.g (← Opnd.ofField r.dst) (← PSrc.ofField r.src1)
  | 0x1A => do r.oDA (.redw r.g r.t (← RedOp.ofCode r.md))
  | 0x1B => r.oDAB (.sel r.g r.t (PSrc.ofSelCode r.md))
  | _ => .error .unassigned

/-- Opcodes 0x20 to 0x2B: X-shape integer siblings (R93, R94). -/
def parse2 (r : Raw) : Except DecodeError Instr :=
  match r.opc.toNat with
  | 0x20 => r.xDABC (.imad r.g r.t r.m0)
  | 0x21 => r.xDABC (.bfi r.g r.t)
  | 0x22 => r.xDAB (.selX r.g r.t (PSrc.ofSelCode r.md))
  | 0x23 => r.xDAB (.iaddX r.g r.t r.m0)
  | 0x24 => r.xDAB (.isubX r.g r.t r.m0)
  | 0x25 => do r.xDAB (.imulX r.g r.t (← MulMod.ofCode r.md))
  | 0x26 => r.xDAB (.iminX r.g r.t r.m0)
  | 0x27 => r.xDAB (.imaxX r.g r.t r.m0)
  | 0x28 => r.xDAB (.andX r.g r.t)
  | 0x29 => r.xDAB (.orX r.g r.t)
  | 0x2A => r.xDAB (.xorX r.g r.t)
  | 0x2B => r.xDA (.movX r.g r.t r.m0)
  | _ => .error .unassigned

/-- Opcodes 0x30 to 0x36: I-shape integer siblings (R93, R94). -/
def parse3 (r : Raw) : Except DecodeError Instr :=
  match r.opc.toNat with
  | 0x30 => r.oD (.movi r.g r.t r.m0 · r.lo)
  | 0x31 => r.oDA (.iaddI r.g r.t r.m0 · · r.lo)
  | 0x32 => do r.oDA (.imulI r.g r.t (← MulMod.ofCode r.md) · · r.lo)
  | 0x33 => r.oDA (.andI r.g r.t · · r.lo)
  | 0x34 => r.oDA (.orI r.g r.t · · r.lo)
  | 0x35 => r.oDA (.xorI r.g r.t · · r.lo)
  | 0x36 => do r.oA (.isetI r.g r.t (← Cmp.ofCode r.md) (← pdstOf r.dst) · r.lo)
  | _ => .error .unassigned

/-- Opcodes 0x40 to 0x4A: floating point (R95). -/
def parse4 (r : Raw) : Except DecodeError Instr :=
  match r.opc.toNat with
  | 0x40 => do r.oDAB (.fadd r.g r.t (← FMode.ofCode r.md))
  | 0x41 => do r.oDAB (.fsub r.g r.t (← FMode.ofCode r.md))
  | 0x42 => do r.oDAB (.fmul r.g r.t (← FMode.ofCode r.md))
  | 0x43 => do r.oDAB (.fmin r.g r.t (← Flush.ofCode (r.md.extractLsb' 3 2)))
  | 0x44 => do r.oDAB (.fmax r.g r.t (← Flush.ofCode (r.md.extractLsb' 3 2)))
  | 0x45 => do r.oDA (.frcp r.g r.la r.t (← FMode.ofCode r.md))
  | 0x46 => do r.oDA (.frsq r.g r.la r.t (← FMode.ofCode r.md))
  | 0x47 => do
    r.oDA (.fsfn r.g r.la r.t (← SfnOp.ofCode (r.md.extractLsb' 0 3)) (← Flush.ofCode (r.md.extractLsb' 3 2)))
  | 0x48 => do r.oAB (.fset r.g r.t (← FCmp.ofCode (r.md.extractLsb' 0 4)) (r.md.getLsbD 4) (← pdstOf r.dst))
  | 0x49 => r.oDA (.fcls r.g r.t)
  | 0x4A => do r.oDA (.frnd r.g r.t (← FMode.ofCode r.md))
  | _ => .error .unassigned

/-- Opcodes 0x50 to 0x62: floating-point siblings (R95, R96). -/
def parse5 (r : Raw) : Except DecodeError Instr :=
  match r.opc.toNat with
  | 0x50 => do r.xDABC (.ffma r.g r.t (← FMode.ofCode r.md))
  | 0x51 => do r.xDAB (.faddX r.g r.t (← FMode.ofCode r.md))
  | 0x52 => do r.xDAB (.fsubX r.g r.t (← FMode.ofCode r.md))
  | 0x53 => do r.xDAB (.fmulX r.g r.t (← FMode.ofCode r.md))
  | 0x54 => do r.xDAB (.fminX r.g r.t (← Flush.ofCode (r.md.extractLsb' 3 2)))
  | 0x55 => do r.xDAB (.fmaxX r.g r.t (← Flush.ofCode (r.md.extractLsb' 3 2)))
  | 0x56 => do
    return .fsetX r.g r.t (← FCmp.ofCode (r.md.extractLsb' 0 4)) (r.md.getLsbD 4) (← pdstOf r.dst)
      (← Opnd.ofField r.src1) (← Opnd.ofField r.src2) (← XCtl.ofWord r.lo)
  | 0x60 => do r.oDA (.faddI r.g r.t (← FMode.ofCode r.md) · · r.lo)
  | 0x61 => do r.oDA (.fmulI r.g r.t (← FMode.ofCode r.md) · · r.lo)
  | 0x62 => do
    r.oA (.fsetI r.g r.t (← FCmp.ofCode (r.md.extractLsb' 0 4)) (r.md.getLsbD 4) (← pdstOf r.dst) · r.lo)
  | _ => .error .unassigned

/-- Opcodes 0x70 to 0x77: conversion and packing (R97). -/
def parse7 (r : Raw) : Except DecodeError Instr :=
  match r.opc.toNat with
  | 0x70 => do r.oDA (.fcvt r.g r.t (Ty.ofCode r.md) (← cvtModes r.src2) (r.src2.getLsbD 3))
  | 0x71 => do r.xDA (.fcvtX r.g r.t (Ty.ofCode r.md) (← cvtModes r.src2) (r.src2.getLsbD 3))
  | 0x72 => r.oDA (.cvti r.g r.t (Ty.ofCode r.md) (r.src2.getLsbD 3))
  | 0x73 => r.xDA (.cvtiX r.g r.t (Ty.ofCode r.md) (r.src2.getLsbD 3))
  | 0x74 => r.oDAB (.pack r.g r.t r.md)
  | 0x75 => r.xDAB (.packX r.g r.t r.md)
  | 0x76 => r.oDA (.unpk r.g r.t r.m1)
  | 0x77 => r.xDA (.unpkX r.g r.t r.m1)
  | _ => .error .unassigned

/-- Opcodes 0x80 to 0x8B: memory and atomics (R98). -/
def parse8 (r : Raw) : Except DecodeError Instr :=
  match r.opc.toNat with
  | 0x80 => r.oDAB (.ld r.g r.la r.t)
  | 0x81 => r.oDA (.ldI r.g r.la r.t · · r.lo)
  | 0x82 => r.oDAB (fun a c o => .st r.g r.la r.t c o a)
  | 0x83 => r.oDA (fun a c => .stI r.g r.la r.t c a r.lo)
  | 0x84 => r.oDB (.lds r.g r.la r.t)
  | 0x85 => r.oD (.ldsI r.g r.la r.t · r.lo)
  | 0x86 => r.oDB (fun a o => .sts r.g r.la r.t o a)
  | 0x87 => r.oD (.stsI r.g r.la r.t · r.lo)
  | 0x88 => r.oAB (.pref r.g r.la r.m0)
  | 0x89 => do r.xDABC (.atom r.g r.la r.t (← AtomOp.ofCode r.md))
  | 0x8A => do
    return .cas r.g r.la r.t (← Opnd.ofField r.dst) (← Opnd.ofField r.src1) (← Opnd.ofField r.src2)
      (← Opnd.ofField (src3Of r.lo))
  | 0x8B => do r.xABC (.red r.g r.la r.t (← RedOp.ofCode r.md))
  | _ => .error .unassigned

/-- Opcodes 0xA0 to 0xA8: capabilities and register management (R99). -/
def parseA (r : Raw) : Except DecodeError Instr :=
  match r.opc.toNat with
  | 0xA0 => do
    return .capn r.g r.md (← Opnd.ofField r.dst) (← Opnd.ofField r.src1) (← Opnd.ofField r.src2)
      (← Opnd.ofField (src3Of r.lo))
  | 0xA1 => do r.oDA (.capq r.g (← CapField.ofCode r.md))
  | 0xA2 => r.oDAB (.caps r.g)
  | 0xA4 => r.oA .give
  | 0xA5 => r.oA .claim
  | 0xA6 => do
    return .rgn (← Opnd.ofField r.dst) (← Opnd.ofField r.src1) (← Opnd.ofField r.src2) (← Opnd.ofField (src3Of r.lo))
  | 0xA7 => do r.oD (.srd r.g · (← WordRef.ofWord r.lo))
  | 0xA8 => do r.oA (.swr r.g · (← WordRef.ofWord r.lo))
  | _ => .error .unassigned

/-- Opcodes 0xB0 to 0xB8: control (R100). -/
def parseB (r : Raw) : Except DecodeError Instr :=
  match r.opc.toNat with
  | 0xB0 => .ok (.bra r.g r.lo r.hi)
  | 0xB1 => r.oA (.brx r.g · r.hi)
  | 0xB2 => r.oD (.call r.g · r.lo)
  | 0xB3 => r.oA (.ret r.g)
  | 0xB4 => .ok (.exit r.g)
  | 0xB5 => .ok (.nop r.g)
  | 0xB6 => .ok (.nopLong r.g)
  | 0xB7 => .ok (.yield r.g)
  | 0xB8 => do
    return .plop r.g (r.md.extractLsb' 0 4) (← pdstOf r.dst) (← PSrc.ofField r.src1) (← PSrc.ofField r.src2)
  | _ => .error .unassigned

/-- Opcodes 0xC0 to 0xCE: synchronisation (R101). -/
def parseC (r : Raw) : Except DecodeError Instr :=
  match r.opc.toNat with
  | 0xC0 => do
    return .fence r.g (← FenceKind.ofCode (r.md.extractLsb' 3 2)) (← Scope.ofCode (r.md.extractLsb' 0 3))
  | 0xC1 => do r.oA (.acq r.g (← Scope.ofCode (r.md.extractLsb' 0 3)))
  | 0xC2 => do r.oA (.rel r.g (← Scope.ofCode (r.md.extractLsb' 0 3)))
  | 0xC3 => r.oAB (.bind r.g)
  | 0xC4 => r.oA (.unbind r.g)
  | 0xC5 => do r.xABC (.waitc r.g r.t (← Cmp.ofCode r.md))
  | 0xC6 => r.oAB (.rvinit r.g)
  | 0xC7 => r.oA (.rvarr r.g)
  | 0xC8 =>
    if r.m0 then do
      return .rvwaitTimed r.g (← Opnd.ofField r.src1) (← Opnd.ofField r.src2) (← pdstOf r.dst) (← XCtl.ofWord r.lo)
    else r.oA (.rvwaitPlain r.g)
  | 0xC9 => r.oAB (.rvexp r.g)
  | 0xCA => r.oA (.rvinv r.g)
  | 0xCB => r.xABC (fun o s z _ => .rinit r.g o s z)
  | 0xCC => r.oDA (.rwait r.g)
  | 0xCD => r.oA (.rrel r.g)
  | 0xCE => r.oA (.cpwait r.g)
  | _ => .error .unassigned

/-- Opcodes 0xD0 to 0xD8: copies, tasks, queues and launches (R103). -/
def parseD (r : Raw) : Except DecodeError Instr :=
  match r.opc.toNat with
  | 0xD0 =>
    r.oDAB (.copy r.g r.la (CopyDir.ofCode (r.up.extractLsb' 33 2)) · · · (r.up.extractLsb' 48 16)
      (r.up.extractLsb' 43 5) (r.up.extractLsb' 37 6) (r.up.extractLsb' 21 12))
  | 0xD1 => do
    let sk := r.up.getLsbD 26
    return .copym r.g r.la sk (← Opnd.ofField r.dst) (← Opnd.ofField r.src1) (← optOf (!sk) r.src2)
      (r.up.extractLsb' 48 16) (r.up.extractLsb' 43 5) (r.up.extractLsb' 27 16)
  | 0xD2 => r.oAB (.task r.g)
  | 0xD3 => r.oA (.krel r.g)
  | 0xD4 => r.oAB (.qpush r.g)
  | 0xD5 => r.oDA (.qpop r.g)
  | 0xD6 => do
    return .lnch r.g (← Opnd.ofField r.dst) (← Opnd.ofField r.src1) (← Opnd.ofField r.src2)
      (← Opnd.ofField (src3Of r.lo))
  | 0xD7 => r.oA (.cncl r.g)
  | 0xD8 => r.oDA (.cwait r.g)
  | _ => .error .unassigned

/-- Opcodes 0xE0 to 0xEC: matrix and verdict (R104). -/
def parseE (r : Raw) : Except DecodeError Instr :=
  match r.opc.toNat with
  | 0xE0 => do
    let u := MmaUp.ofWord r.up
    return .mma r.g r.la r.t (← Opnd.ofField r.src1) (← ksOf u.scl r.src2) u
  | 0xE1 => do
    let u := MmaUp.ofWord r.up
    return .mspa r.g r.la r.t (← SparsePat.ofCode r.md) (← Opnd.ofField r.dst) (← Opnd.ofField r.src1)
      (← ksOf u.scl r.src2) u
  | 0xE2 => do
    let u := MloopUp.ofWord r.up
    return .mloop r.g r.la r.t (← Opnd.ofField r.dst) (← Opnd.ofField r.src1) (← ksOf u.scl r.src2) u
  | 0xE3 => do
    let sk := r.up.getLsbD 26
    return .mldb r.g r.la r.t sk (← Opnd.ofField r.src1) (← optOf (!sk) r.src2) (r.up.extractLsb' 48 16)
      (r.up.extractLsb' 32 16) (r.up.extractLsb' 27 5)
  | 0xE4 => do
    let sk := r.up.getLsbD 26
    return .mlds r.g r.la sk (← Opnd.ofField r.dst) (← Opnd.ofField r.src1) (← optOf (!sk) r.src2)
      (r.up.extractLsb' 48 16) (r.up.extractLsb' 27 5)
  | 0xE5 => do
    let u := MdrnUp.ofWord r.up
    let op ← DrainOp.ofCode (r.md.extractLsb' 0 2)
    let st := op != .reg
    return .mdrn r.g r.la op (r.md.getLsbD 2) (← optOf (!st) r.dst) (← optOf st r.src1) (← optOf (st && !u.tgt) r.src2) u
  | 0xE6 => r.oAB (.mzro r.g r.la r.t)
  | 0xE7 => r.oA (.tokp r.g)
  | 0xE8 => .ok (.tokw r.g)
  | 0xE9 => do
    let op ← VerdictOp.ofCode r.md
    return .vdset r.g r.la op (← optOf (op != .sign) r.src1) (← Opnd.ofField r.src2) (VdsetUp.ofWord r.up)
  | 0xEA => do r.xDABC (.vdot r.g r.la r.t (← FMode.ofCode r.md))
  | 0xEB => r.oAB (.vthr r.g r.la)
  | 0xEC => do
    let op ← TopkOp.ofCode r.md
    return .topk r.g r.la op (← Opnd.ofField r.dst) (← Opnd.ofField r.src1)
      (← optOf (op == .val || op == .idx) r.src2)
  | _ => .error .unassigned

/-- Opcodes 0xF0 to 0xF4: system (R105). -/
def parseF (r : Raw) : Except DecodeError Instr :=
  match r.opc.toNat with
  | 0xF0 => r.oA (.trap r.g)
  | 0xF1 => .ok (.bkpt r.g)
  | 0xF2 => r.oA (.sysc r.g)
  | 0xF3 => .ok .eret
  | 0xF4 => r.oAB (.iflush r.g)
  | _ => .error .unassigned

/-- The fields of a word read by its opcode (R93 to R105); unassigned opcodes are refused (R107). -/
def parse (r : Raw) : Except DecodeError Instr :=
  match r.opc.toNat / 16 with
  | 0x0 => parse0 r
  | 0x1 => parse1 r
  | 0x2 => parse2 r
  | 0x3 => parse3 r
  | 0x4 => parse4 r
  | 0x5 => parse5 r
  | 0x6 => parse5 r
  | 0x7 => parse7 r
  | 0x8 => parse8 r
  | 0xA => parseA r
  | 0xB => parseB r
  | 0xC => parseC r
  | 0xD => parseD r
  | 0xE => parseE r
  | 0xF => parseF r
  | _ => .error .unassigned

/-! ### The encoder -/

/-- A word with an opcode, a length code and a guard, every other field zero. -/
def enc (len opc : Nat) (g : Guard) : Raw :=
  ⟨0#32, 0#32, 0#5, 0#5, 0#12, 0#12, 0#12, g.toField, 0#4, BitVec.ofNat 8 opc, BitVec.ofNat 2 len⟩

namespace Raw

/-- TYPE and MOD set. -/
def tm (r : Raw) (t : Ty) (md : BitVec 5) : Raw := { r with ty := t.code, md := md }

/-- DST set. -/
def wD (r : Raw) (d : Opnd) : Raw := { r with dst := d.toField }

/-- SRC1 set. -/
def wA (r : Raw) (a : Opnd) : Raw := { r with src1 := a.toField }

/-- SRC2 set. -/
def wB (r : Raw) (b : Opnd) : Raw := { r with src2 := b.toField }

/-- Bits 95..64 set. -/
def wLo (r : Raw) (v : BitVec 32) : Raw := { r with lo := v }

/-- Bits 127..64 set. -/
def wUp (r : Raw) (v : BitVec 64) : Raw := { r with hi := v.extractLsb' 32 32, lo := v.extractLsb' 0 32 }

/-- LA set. -/
def wLa (r : Raw) (n : BitVec 4) : Raw := { r with la := n }

end Raw

/-- Integer, logic and warp-wide instructions as fields (R93, R94). -/
def encInt : Instr → Raw
  | .iadd g t sat d a b => (((enc 0 0x01 g).tm t (modBit 0 sat)).wD d).wA a |>.wB b
  | .iaddX g t sat d a b x => ((((enc 1 0x23 g).tm t (modBit 0 sat)).wD d).wA a |>.wB b).wLo (x.toWord 0#12)
  | .iaddI g t sat d a v => ((((enc 1 0x31 g).tm t (modBit 0 sat)).wD d).wA a).wLo v
  | .isub g t sat d a b => (((enc 0 0x02 g).tm t (modBit 0 sat)).wD d).wA a |>.wB b
  | .isubX g t sat d a b x => ((((enc 1 0x24 g).tm t (modBit 0 sat)).wD d).wA a |>.wB b).wLo (x.toWord 0#12)
  | .imul g t m d a b => (((enc 0 0x03 g).tm t m.code).wD d).wA a |>.wB b
  | .imulX g t m d a b x => ((((enc 1 0x25 g).tm t m.code).wD d).wA a |>.wB b).wLo (x.toWord 0#12)
  | .imulI g t m d a v => ((((enc 1 0x32 g).tm t m.code).wD d).wA a).wLo v
  | .idiv g t sat rem d a b => (((enc 0 0x04 g).tm t (modBit 0 sat ||| modBit 1 rem)).wD d).wA a |>.wB b
  | .imin g t sat d a b => (((enc 0 0x05 g).tm t (modBit 0 sat)).wD d).wA a |>.wB b
  | .iminX g t sat d a b x => ((((enc 1 0x26 g).tm t (modBit 0 sat)).wD d).wA a |>.wB b).wLo (x.toWord 0#12)
  | .imax g t sat d a b => (((enc 0 0x06 g).tm t (modBit 0 sat)).wD d).wA a |>.wB b
  | .imaxX g t sat d a b x => ((((enc 1 0x27 g).tm t (modBit 0 sat)).wD d).wA a |>.wB b).wLo (x.toWord 0#12)
  | .iabs g t sat d a => (((enc 0 0x07 g).tm t (modBit 0 sat)).wD d).wA a
  | .imad g t sat d a b c x =>
    ((((enc 1 0x20 g).tm t (modBit 0 sat)).wD d).wA a |>.wB b).wLo (x.toWord c.toField)
  | .iset g t op p a b => { (((enc 0 0x08 g).tm t op.code).wA a).wB b with dst := pdstField p }
  | .isetI g t op p a v => { (((enc 1 0x36 g).tm t op.code).wA a).wLo v with dst := pdstField p }
  | .and g t d a b => (((enc 0 0x09 g).tm t 0#5).wD d).wA a |>.wB b
  | .andX g t d a b x => ((((enc 1 0x28 g).tm t 0#5).wD d).wA a |>.wB b).wLo (x.toWord 0#12)
  | .andI g t d a v => ((((enc 1 0x33 g).tm t 0#5).wD d).wA a).wLo v
  | .andn g t d a b => (((enc 0 0x0A g).tm t 0#5).wD d).wA a |>.wB b
  | .or g t d a b => (((enc 0 0x0B g).tm t 0#5).wD d).wA a |>.wB b
  | .orX g t d a b x => ((((enc 1 0x29 g).tm t 0#5).wD d).wA a |>.wB b).wLo (x.toWord 0#12)
  | .orI g t d a v => ((((enc 1 0x34 g).tm t 0#5).wD d).wA a).wLo v
  | .xor g t d a b => (((enc 0 0x0C g).tm t 0#5).wD d).wA a |>.wB b
  | .xorX g t d a b x => ((((enc 1 0x2A g).tm t 0#5).wD d).wA a |>.wB b).wLo (x.toWord 0#12)
  | .xorI g t d a v => ((((enc 1 0x35 g).tm t 0#5).wD d).wA a).wLo v
  | .shl g t d a b => (((enc 0 0x0D g).tm t 0#5).wD d).wA a |>.wB b
  | .shr g t d a b => (((enc 0 0x0E g).tm t 0#5).wD d).wA a |>.wB b
  | .sha g t d a b => (((enc 0 0x0F g).tm t 0#5).wD d).wA a |>.wB b
  | .rot g t d a b => (((enc 0 0x10 g).tm t 0#5).wD d).wA a |>.wB b
  | .popc g t d a => (((enc 0 0x11 g).tm t 0#5).wD d).wA a
  | .clz g t d a => (((enc 0 0x12 g).tm t 0#5).wD d).wA a
  | .brev g t d a => (((enc 0 0x13 g).tm t 0#5).wD d).wA a
  | .bfx g t d a b => (((enc 0 0x14 g).tm t 0#5).wD d).wA a |>.wB b
  | .bfi g t d a b c x => ((((enc 1 0x21 g).tm t 0#5).wD d).wA a |>.wB b).wLo (x.toWord c.toField)
  | .mov g t sat d a => (((enc 0 0x15 g).tm t (modBit 0 sat)).wD d).wA a
  | .movX g t sat d a x => ((((enc 1 0x2B g).tm t (modBit 0 sat)).wD d).wA a).wLo (x.toWord 0#12)
  | .movi g t sat d v => (((enc 1 0x30 g).tm t (modBit 0 sat)).wD d).wLo v
  | .movxRead g j d => ((enc 0 0x16 g).tm .none (0#2 ++ j ++ 0#1)).wD d
  | .movxWrite g j a => ((enc 0 0x16 g).tm .none (0#2 ++ j ++ 1#1)).wA a
  | .shfl g t op d a b => (((enc 0 0x17 g).tm t op.code).wD d).wA a |>.wB b
  | .vote g op p q => { (enc 0 0x18 g).tm .none op.code with dst := pdstField p, src1 := q.toField }
  | .ballot g d q => { (enc 0 0x19 g).wD d with src1 := q.toField }
  | .redw g t op d a => (((enc 0 0x1A g).tm t op.code).wD d).wA a
  | .sel g t q d a b => (((enc 0 0x1B g).tm t q.selCode).wD d).wA a |>.wB b
  | .selX g t q d a b x => ((((enc 1 0x22 g).tm t q.selCode).wD d).wA a |>.wB b).wLo (x.toWord 0#12)
  | _ => enc 3 0 Guard.always

/-- Floating-point, conversion and packing instructions as fields (R95 to R97). -/
def encFloat : Instr → Raw
  | .fadd g t m d a b => (((enc 0 0x40 g).tm t m.code).wD d).wA a |>.wB b
  | .faddX g t m d a b x => ((((enc 1 0x51 g).tm t m.code).wD d).wA a |>.wB b).wLo (x.toWord 0#12)
  | .faddI g t m d a v => ((((enc 1 0x60 g).tm t m.code).wD d).wA a).wLo v
  | .fsub g t m d a b => (((enc 0 0x41 g).tm t m.code).wD d).wA a |>.wB b
  | .fsubX g t m d a b x => ((((enc 1 0x52 g).tm t m.code).wD d).wA a |>.wB b).wLo (x.toWord 0#12)
  | .fmul g t m d a b => (((enc 0 0x42 g).tm t m.code).wD d).wA a |>.wB b
  | .fmulX g t m d a b x => ((((enc 1 0x53 g).tm t m.code).wD d).wA a |>.wB b).wLo (x.toWord 0#12)
  | .fmulI g t m d a v => ((((enc 1 0x61 g).tm t m.code).wD d).wA a).wLo v
  | .ffma g t m d a b c x => ((((enc 1 0x50 g).tm t m.code).wD d).wA a |>.wB b).wLo (x.toWord c.toField)
  | .fmin g t fl d a b => (((enc 0 0x43 g).tm t (fl.code ++ 0#3)).wD d).wA a |>.wB b
  | .fminX g t fl d a b x => ((((enc 1 0x54 g).tm t (fl.code ++ 0#3)).wD d).wA a |>.wB b).wLo (x.toWord 0#12)
  | .fmax g t fl d a b => (((enc 0 0x44 g).tm t (fl.code ++ 0#3)).wD d).wA a |>.wB b
  | .fmaxX g t fl d a b x => ((((enc 1 0x55 g).tm t (fl.code ++ 0#3)).wD d).wA a |>.wB b).wLo (x.toWord 0#12)
  | .frcp g la t m d a => ((((enc 0 0x45 g).tm t m.code).wD d).wA a).wLa la
  | .frsq g la t m d a => ((((enc 0 0x46 g).tm t m.code).wD d).wA a).wLa la
  | .fsfn g la t op fl d a => ((((enc 0 0x47 g).tm t (fl.code ++ op.code)).wD d).wA a).wLa la
  | .fset g t op ftz p a b =>
    { (((enc 0 0x48 g).tm t (BitVec.ofBool ftz ++ op.code)).wA a).wB b with dst := pdstField p }
  | .fsetX g t op ftz p a b x =>
    { ((((enc 1 0x56 g).tm t (BitVec.ofBool ftz ++ op.code)).wA a).wB b).wLo (x.toWord 0#12) with dst := pdstField p }
  | .fsetI g t op ftz p a v =>
    { (((enc 1 0x62 g).tm t (BitVec.ofBool ftz ++ op.code)).wA a).wLo v with dst := pdstField p }
  | .fcls g t d a => (((enc 0 0x49 g).tm t 0#5).wD d).wA a
  | .frnd g t m d a => (((enc 0 0x4A g).tm t m.code).wD d).wA a
  | .fcvt g dest frm m sat d a => { (((enc 0 0x70 g).tm dest frm.code).wD d).wA a with src2 := cvtControl m sat }
  | .fcvtX g dest frm m sat d a x =>
    { ((((enc 1 0x71 g).tm dest frm.code).wD d).wA a).wLo (x.toWord 0#12) with src2 := cvtControl m sat }
  | .cvti g dest frm sat d a => { (((enc 0 0x72 g).tm dest frm.code).wD d).wA a with src2 := cvtControl FMode.zero sat }
  | .cvtiX g dest frm sat d a x =>
    { ((((enc 1 0x73 g).tm dest frm.code).wD d).wA a).wLo (x.toWord 0#12) with src2 := cvtControl FMode.zero sat }
  | .pack g t md d a b => (((enc 0 0x74 g).tm t md).wD d).wA a |>.wB b
  | .packX g t md d a b x => ((((enc 1 0x75 g).tm t md).wD d).wA a |>.wB b).wLo (x.toWord 0#12)
  | .unpk g t hi d a => (((enc 0 0x76 g).tm t (modBit 1 hi)).wD d).wA a
  | .unpkX g t hi d a x => ((((enc 1 0x77 g).tm t (modBit 1 hi)).wD d).wA a).wLo (x.toWord 0#12)
  | _ => enc 3 0 Guard.always

/-- Memory, capability and control instructions as fields (R98 to R100). -/
def encMem : Instr → Raw
  | .ld g la t d c o => ((((enc 0 0x80 g).tm t 0#5).wD d).wA c |>.wB o).wLa la
  | .ldI g la t d c v => ((((enc 1 0x81 g).tm t 0#5).wD d).wA c |>.wLo v).wLa la
  | .st g la t c o a => ((((enc 0 0x82 g).tm t 0#5).wD a).wA c |>.wB o).wLa la
  | .stI g la t c a v => ((((enc 1 0x83 g).tm t 0#5).wD a).wA c |>.wLo v).wLa la
  | .lds g la t d o => ((((enc 0 0x84 g).tm t 0#5).wD d).wB o).wLa la
  | .ldsI g la t d v => ((((enc 1 0x85 g).tm t 0#5).wD d).wLo v).wLa la
  | .sts g la t o a => ((((enc 0 0x86 g).tm t 0#5).wD a).wB o).wLa la
  | .stsI g la t a v => ((((enc 1 0x87 g).tm t 0#5).wD a).wLo v).wLa la
  | .pref g la l2 c o => ((((enc 0 0x88 g).tm .none (modBit 0 l2)).wA c).wB o).wLa la
  | .atom g la t op d c o a x =>
    (((((enc 1 0x89 g).tm t op.code).wD d).wA c |>.wB o).wLo (x.toWord a.toField)).wLa la
  | .cas g la t d c o b => (((((enc 2 0x8A g).tm t 0#5).wD d).wA c |>.wB o).wLo (0#20 ++ b.toField)).wLa la
  | .red g la t op c o a x => ((((enc 1 0x8B g).tm t op.code).wA c |>.wB o).wLo (x.toWord a.toField)).wLa la
  | .capn g mask d c a b => ((((enc 1 0xA0 g).tm .none mask).wD d).wA c |>.wB a).wLo (0#20 ++ b.toField)
  | .capq g op d c => (((enc 0 0xA1 g).tm .none op.code).wD d).wA c
  | .caps g d c a => ((enc 0 0xA2 g).wD d).wA c |>.wB a
  | .give k => (enc 0 0xA4 Guard.always).wA k
  | .claim k => (enc 0 0xA5 Guard.always).wA k
  | .rgn s0 s1 s2 s3 => (((enc 1 0xA6 Guard.always).wD s0).wA s1 |>.wB s2).wLo (0#20 ++ s3.toField)
  | .srd g d w => ((enc 1 0xA7 g).wD d).wLo w.toWord
  | .swr g a w => ((enc 1 0xA8 g).wA a).wLo w.toWord
  | .bra g target join => { enc 2 0xB0 g with lo := target, hi := join }
  | .brx g a join => { (enc 2 0xB1 g).wA a with hi := join }
  | .call g d target => ((enc 1 0xB2 g).wD d).wLo target
  | .ret g a => (enc 0 0xB3 g).wA a
  | .exit g => enc 0 0xB4 g
  | .nop g => enc 0 0xB5 g
  | .nopLong g => enc 1 0xB6 g
  | .yield g => enc 0 0xB7 g
  | .plop g tt p q q2 =>
    { (enc 0 0xB8 g).tm .none (0#1 ++ tt) with dst := pdstField p, src1 := q.toField, src2 := q2.toField }
  | _ => enc 3 0 Guard.always

/-- Synchronisation, copy, task, queue and launch instructions as fields (R101, R103). -/
def encSync : Instr → Raw
  | .fence g kind sc => (enc 0 0xC0 g).tm .none (kind.code ++ sc.code)
  | .acq g sc a => ((enc 0 0xC1 g).tm .none (0#2 ++ sc.code)).wA a
  | .rel g sc a => ((enc 0 0xC2 g).tm .none (0#2 ++ sc.code)).wA a
  | .bind g c a => ((enc 0 0xC3 g).wA c).wB a
  | .unbind g c => (enc 0 0xC4 g).wA c
  | .waitc g t op c o a x => (((enc 1 0xC5 g).tm t op.code).wA c |>.wB o).wLo (x.toWord a.toField)
  | .rvinit g n a => ((enc 0 0xC6 g).wA n).wB a
  | .rvarr g n => (enc 0 0xC7 g).wA n
  | .rvexp g n a => ((enc 0 0xC9 g).wA n).wB a
  | .rvwaitPlain g n => (enc 1 0xC8 g).wA n
  | .rvwaitTimed g n a p x =>
    { ((((enc 1 0xC8 g).tm .none 1#5).wA n).wB a).wLo (x.toWord 0#12) with dst := pdstField p }
  | .rvinv g n => (enc 0 0xCA g).wA n
  | .rinit g o s z => (((enc 1 0xCB g).wA o).wB s).wLo (0#20 ++ z.toField)
  | .rwait g d o => ((enc 0 0xCC g).wD d).wA o
  | .rrel g o => (enc 0 0xCD g).wA o
  | .cpwait g k => (enc 0 0xCE g).wA k
  | .copy g la dir dest frm o lenm pt nwm soff =>
    ((((enc 2 0xD0 g).wD dest).wA frm |>.wB o).wUp (copyUp lenm pt nwm dir soff)).wLa la
  | .copym g la sk dest frm o lenm pt mask =>
    { (((enc 2 0xD1 g).wD dest).wA frm |>.wUp (copymUp lenm pt mask sk)).wLa la with src2 := optField o }
  | .task g c o => ((enc 2 0xD2 g).wA c).wB o
  | .krel g a => (enc 0 0xD3 g).wA a
  | .qpush g q c => ((enc 0 0xD4 g).wA q).wB c
  | .qpop g c q => ((enc 0 0xD5 g).wD c).wA q
  | .lnch g d c a rec => (((enc 2 0xD6 g).wD d).wA c |>.wB a).wLo (0#20 ++ rec.toField)
  | .cncl g a => (enc 0 0xD7 g).wA a
  | .cwait g d a => ((enc 0 0xD8 g).wD d).wA a
  | _ => enc 3 0 Guard.always

/-- Matrix, verdict and system instructions as fields (R104, R105). -/
def encMat : Instr → Raw
  | .mma g la t a ks u => { (((enc 2 0xE0 g).tm t 0#5).wA a |>.wUp u.toWord).wLa la with src2 := optUniField ks }
  | .mspa g la t pat m a ks u =>
    { ((((enc 2 0xE1 g).tm t pat.code).wD m).wA a |>.wUp u.toWord).wLa la with src2 := optUniField ks }
  | .mloop g la t n a ks u =>
    { ((((enc 2 0xE2 g).tm t 0#5).wD n).wA a |>.wUp u.toWord).wLa la with src2 := optUniField ks }
  | .mldb g la t sk frm o boff lenu pt =>
    { (((enc 2 0xE3 g).tm t 0#5).wA frm |>.wUp (mldbUp boff lenu pt sk)).wLa la with src2 := optField o }
  | .mlds g la sk rec frm o base pt =>
    { (((enc 2 0xE4 g).wD rec).wA frm |>.wUp (mldsUp base pt sk)).wLa la with src2 := optField o }
  | .mdrn g la op vd d dest o u =>
    { (((enc 2 0xE5 g).tm .none (modBit 2 vd ||| (0#3 ++ op.code))).wUp u.toWord).wLa la with
      dst := optField d, src1 := optField dest, src2 := optField o }
  | .mzro g la t tile v => (((enc 0 0xE6 g).tm t 0#5).wA tile |>.wB v).wLa la
  | .tokp g a => (enc 0 0xE7 g).wA a
  | .tokw g => enc 0 0xE8 g
  | .vdset g la op thr kb u =>
    { (((enc 2 0xE9 g).tm .none op.code).wB kb |>.wUp u.toWord).wLa la with src1 := optField thr }
  | .vdot g la t m d a b c x =>
    (((((enc 1 0xEA g).tm t m.code).wD d).wA a |>.wB b).wLo (x.toWord c.toField)).wLa la
  | .vthr g la tile a => (((enc 0 0xEB g).tm .f32 0#5).wA tile |>.wB a).wLa la
  | .topk g la op d tile e =>
    { (((enc 1 0xEC g).tm .none op.code).wD d |>.wA tile).wLa la with src2 := optField e }
  | .trap g k => (enc 0 0xF0 g).wA k
  | .bkpt g => enc 0 0xF1 g
  | .sysc g k => (enc 0 0xF2 g).wA k
  | .eret => enc 0 0xF3 Guard.always
  | .iflush g c a => ((enc 0 0xF4 g).wA c).wB a
  | _ => enc 3 0 Guard.always

/-- Which of the four encoders an instruction belongs to, by its opcode's family. -/
inductive EncGroup where
  | int | float | mem | sync | mat | other | event
  deriving DecidableEq, Repr

/-- The family of an instruction. -/
def Instr.group : Instr → EncGroup
  | .iadd .. | .iaddX .. | .iaddI .. | .isub .. | .isubX .. | .imul .. | .imulX .. | .imulI .. | .idiv .. | .imin ..
  | .iminX .. | .imax .. | .imaxX .. | .iabs .. | .imad .. | .iset .. | .isetI .. | .and .. | .andX .. | .andI ..
  | .andn .. | .or .. | .orX .. | .orI .. | .xor .. | .xorX .. | .xorI .. | .shl .. | .shr .. | .sha .. | .rot ..
  | .popc .. | .clz .. | .brev .. | .bfx .. | .bfi .. | .mov .. | .movX .. | .movi .. | .movxRead .. | .movxWrite ..
  | .shfl .. | .vote .. | .ballot .. | .redw .. | .sel .. | .selX .. => .int
  | .fadd .. | .faddX .. | .faddI .. | .fsub .. | .fsubX .. | .fmul .. | .fmulX .. | .fmulI .. | .ffma .. | .fmin ..
  | .fminX .. | .fmax .. | .fmaxX .. | .frcp .. | .frsq .. | .fsfn .. | .fset .. | .fsetX .. | .fsetI .. | .fcls ..
  | .frnd .. | .fcvt .. | .fcvtX .. | .cvti .. | .cvtiX .. | .pack .. | .packX .. | .unpk .. | .unpkX .. => .float
  | .ld .. | .ldI .. | .st .. | .stI .. | .lds .. | .ldsI .. | .sts .. | .stsI .. | .pref .. | .atom .. | .cas ..
  | .red .. | .capn .. | .capq .. | .caps .. | .give .. | .claim .. | .rgn .. | .srd .. | .swr .. | .bra .. | .brx ..
  | .call .. | .ret .. | .exit .. | .nop .. | .nopLong .. | .yield .. | .plop .. => .mem
  | .fence .. | .acq .. | .rel .. | .bind .. | .unbind .. | .waitc .. | .rvinit .. | .rvarr .. | .rvexp ..
  | .rvwaitPlain .. | .rvwaitTimed .. | .rvinv .. | .rinit .. | .rwait .. | .rrel .. | .cpwait .. | .copy .. | .copym ..
  | .task .. | .krel .. | .qpush .. | .qpop .. | .lnch .. | .cncl .. | .cwait .. => .sync
  | .mma .. | .mspa .. | .mloop .. | .mldb .. | .mlds .. | .mdrn .. | .mzro .. | .tokp .. | .tokw .. | .vdset ..
  | .vdot .. | .vthr .. | .topk .. | .trap .. | .bkpt .. | .sysc .. | .eret | .iflush .. => .mat
  | .unassignedOpcode _ => .other
  | _ => .event

/-- The fields of an instruction, from the encoding tables. -/
def encRaw (i : Instr) : Raw :=
  match i.group with
  | .int => encInt i
  | .float => encFloat i
  | .mem => encMem i
  | .sync => encSync i
  | .mat => encMat i
  | _ => enc 3 0 Guard.always

/-- The word of an instruction, 64-bit and 96-bit forms with zeros above (R66, R69, R74, R78). An unassigned word is
itself; an event has no word. -/
def encode (i : Instr) : IWord :=
  match i with
  | .unassignedOpcode w => w
  | _ => (encRaw i).toWord

/-- The instruction has a word: it is no event and not an unassigned word. -/
def Instr.hasWord (i : Instr) : Bool :=
  match i.group with
  | .other | .event => false
  | _ => true

/-! ### Decoding a word -/

/-- The length in bytes that a length code gives (R66). -/
def lenBytes (c : BitVec 2) : Option Nat :=
  match c.toNat with
  | 0 => some 8
  | 1 => some 12
  | 2 => some 16
  | _ => none

/-- The part of a word that its length code covers (R66). -/
def clip (w : IWord) : IWord :=
  match lenBytes (w.extractLsb' 0 2) with
  | some n => w &&& (BitVec.allOnes 128 >>> (128 - 8 * n))
  | none => w

/-- Check 2 of R79: the length code (R66), the opcode (R107), the fields (R71 to R78) and every unused bit zero, which
is that the instruction's own word is the word read. -/
def decodeWord (w : IWord) : Except DecodeError Instr := do
  let c := clip w
  let r := Raw.ofWord c
  let i ← parse r
  if lenBytes r.len ≠ some i.bytes then throw .badLength
  if i.wf = false then throw .illFormed
  if encode i ≠ c then throw .reservedBits
  return i

/-- Every word has a meaning: one that check 2 of R79 refuses is the row UNASSIGNED_OPCODE, whose execution is the
ILLINS trap (R107). -/
def decode (w : IWord) : Instr :=
  match decodeWord w with
  | .ok i => i
  | .error _ => .unassignedOpcode (clip w)

/-- The word of a list of bytes, the lowest address first (R66). -/
def wordOfBytes (bs : List Byte) : IWord :=
  bs.foldr (fun b acc => (acc <<< 8) ||| b.setWidth 128) 0#128

/-- The bytes of a word, the lowest address first (R66). -/
def bytesOfWord (w : IWord) (n : Nat) : List Byte :=
  (List.range n).map (fun i => w.extractLsb' (8 * i) 8)

/-- The instruction at the head of a list of bytes and the rest of the list (R66). -/
def decodeBytes (bs : List Byte) : Instr × List Byte :=
  let w := wordOfBytes (bs.take 16)
  let i := decode w
  (i, bs.drop (match lenBytes (w.extractLsb' 0 2) with | some n => n | none => bs.length))

/-- The instruction the decoder reads from the bits w of a table row: numbered from bit 0 of the lowest-addressed
byte, as R66 stores them; bits above nbits are zero. -/
def decodeTableWord (nbits w : Nat) : Option Instr :=
  match decodeWord (wordOfBytes (bytesOfWord (BitVec.ofNat 128 (w % 2 ^ nbits)) 16)) with
  | .ok i => some i
  | .error _ => none

end Sys2Proof
end

