-- ==== Sys2Proof/Machine/Float.lean ====
section
/-! DEFINITION. Floating-point instructions (spec/05 R95, R96; spec/19 R335 to R343), and VDOT (R161, R386). -/

namespace Sys2Proof.Machine

/-- A floating result, element by element, with the union of its flags (R110). -/
def fltResult (t : Ty) (f : Fmt → List Nat → Nat × Flags) (args : List Nat) : Eff :=
  match t.fmt with
  | some fm =>
    let r := collect t.ebits ((List.range t.elems).map (fun k => f fm (args.map (fun v => v / 2 ^ (t.ebits * k) % 2 ^ t.ebits))))
    ⟨some r.1, none, r.2⟩
  | none => ⟨none, none, 0#5⟩

/-- The operands that an instruction of a type tests for abandoned values: those read as .f32 (R156). -/
def abOf (t : Ty) (ps : List Pos) (c : Ctx) : List (Pos × (Nat → Nat)) :=
  if t = .f32 then ps.map (fun p => (p, fun i => c.int t i p)) else []

/-- Two sources, 64-bit form or, with a control part, 96X form. -/
def State.flt2 (s : State) (len : Nat) (g : Guard) (t : Ty) (d a b : Opnd) (x : XCtl)
    (f : Word → Fmt → Nat → Nat → Nat × Flags) : Host.Outcome State Fault Refusal :=
  let pd := (Pos.dst d (d.dstTy t)).withIx x
  let pa := (Pos.src 1 a (a.srcTy t)).withIx x
  let pb := (Pos.src 2 b (b.srcTy t)).withIx x
  s.alu len 0 g [pd, pa, pb] (some pd) (abOf t [pa, pb]) (fun c i =>
    fltResult t (fun fm l => f (c.th i).fctl fm (l.getD 0 0) (l.getD 1 0))
      [x.sw1.apply t (c.int t i pa), x.sw2.apply t (c.int t i pb)])

/-- A source and a 32-bit immediate, 96I form (R74). -/
def State.fltImm (s : State) (g : Guard) (t : Ty) (d a : Opnd) (imm : Word) (f : Word → Fmt → Nat → Nat → Nat × Flags) :
    Host.Outcome State Fault Refusal :=
  let pd := Pos.dst d (d.dstTy t)
  let pa := Pos.src 1 a (a.srcTy t)
  let k := t.immediate imm
  -- an immediate is a source read as .f32 like any other (R156): position 2
  let pk := Pos.src 2 (.imm 0#9) true
  s.alu 12 0 g [pd, pa] (some pd) (fun c => abOf t [pa] c ++ (if t = .f32 then [(pk, fun _ => k)] else [])) (fun c i =>
    fltResult t (fun fm l => f (c.th i).fctl fm (l.getD 0 0) (l.getD 1 0)) [c.int t i pa, k])

/-- One source, 64-bit form, with a lookahead count. -/
def State.flt1 (s : State) (la : Nat) (g : Guard) (t : Ty) (d a : Opnd) (f : Word → Fmt → Nat → Nat × Flags) :
    Host.Outcome State Fault Refusal :=
  let pd := Pos.dst d (d.dstTy t)
  let pa := Pos.src 1 a (a.srcTy t)
  s.alu 8 la g [pd, pa] (some pd) (abOf t [pa]) (fun c i =>
    fltResult t (fun fm l => f (c.th i).fctl fm (l.getD 0 0)) [c.int t i pa])

/-! ### Arithmetic (R335, R336) -/

/-- FADD (R335). -/
def execFadd (g : Guard) (t : Ty) (m : FMode) (d a b : Opnd) (s : State) : Host.Outcome State Fault Refusal :=
  s.flt2 8 g t d a b .plain (fun fc f => f.add (m.rnd.mode fc) (m.flush.on fc))

/-- FADD, 96X form. -/
def execFaddX (g : Guard) (t : Ty) (m : FMode) (d a b : Opnd) (x : XCtl) (s : State) : Host.Outcome State Fault Refusal :=
  s.flt2 12 g t d a b x (fun fc f => f.add (m.rnd.mode fc) (m.flush.on fc))

/-- FADD, 96I form. -/
def execFaddI (g : Guard) (t : Ty) (m : FMode) (d a : Opnd) (imm : Word) (s : State) : Host.Outcome State Fault Refusal :=
  s.fltImm g t d a imm (fun fc f => f.add (m.rnd.mode fc) (m.flush.on fc))

/-- FSUB (R335). -/
def execFsub (g : Guard) (t : Ty) (m : FMode) (d a b : Opnd) (s : State) : Host.Outcome State Fault Refusal :=
  s.flt2 8 g t d a b .plain (fun fc f => f.sub (m.rnd.mode fc) (m.flush.on fc))

/-- FSUB, 96X form. -/
def execFsubX (g : Guard) (t : Ty) (m : FMode) (d a b : Opnd) (x : XCtl) (s : State) : Host.Outcome State Fault Refusal :=
  s.flt2 12 g t d a b x (fun fc f => f.sub (m.rnd.mode fc) (m.flush.on fc))

/-- FMUL (R335). -/
def execFmul (g : Guard) (t : Ty) (m : FMode) (d a b : Opnd) (s : State) : Host.Outcome State Fault Refusal :=
  s.flt2 8 g t d a b .plain (fun fc f => f.mul (m.rnd.mode fc) (m.flush.on fc))

/-- FMUL, 96X form. -/
def execFmulX (g : Guard) (t : Ty) (m : FMode) (d a b : Opnd) (x : XCtl) (s : State) : Host.Outcome State Fault Refusal :=
  s.flt2 12 g t d a b x (fun fc f => f.mul (m.rnd.mode fc) (m.flush.on fc))

/-- FMUL, 96I form. -/
def execFmulI (g : Guard) (t : Ty) (m : FMode) (d a : Opnd) (imm : Word) (s : State) : Host.Outcome State Fault Refusal :=
  s.fltImm g t d a imm (fun fc f => f.mul (m.rnd.mode fc) (m.flush.on fc))

/-- FFMA (R335, R336). -/
def execFfma (g : Guard) (t : Ty) (m : FMode) (d a b c : Opnd) (x : XCtl) (s : State) : Host.Outcome State Fault Refusal :=
  let pd := (Pos.dst d (d.dstTy t)).withIx x
  let pa := (Pos.src 1 a (a.srcTy t)).withIx x
  let pb := (Pos.src 2 b (b.srcTy t)).withIx x
  let pc := (Pos.src 3 c (c.srcTy t)).withIx x
  s.alu 12 0 g [pd, pa, pb, pc] (some pd) (abOf t [pa, pb, pc]) (fun k i =>
    let fc := (k.th i).fctl
    fltResult t (fun fm l => fm.fma (m.rnd.mode fc) (m.flush.on fc) (l.getD 0 0) (l.getD 1 0) (l.getD 2 0))
      [x.sw1.apply t (k.int t i pa), x.sw2.apply t (k.int t i pb), x.sw3.apply t (k.int t i pc)])

/-! ### Selection (R338) -/

/-- FMIN (R338). -/
def execFmin (g : Guard) (t : Ty) (fl : Flush) (d a b : Opnd) (s : State) : Host.Outcome State Fault Refusal :=
  s.flt2 8 g t d a b .plain (fun fc f => f.select true (fl.on fc))

/-- FMIN, 96X form. -/
def execFminX (g : Guard) (t : Ty) (fl : Flush) (d a b : Opnd) (x : XCtl) (s : State) : Host.Outcome State Fault Refusal :=
  s.flt2 12 g t d a b x (fun fc f => f.select true (fl.on fc))

/-- FMAX (R338). -/
def execFmax (g : Guard) (t : Ty) (fl : Flush) (d a b : Opnd) (s : State) : Host.Outcome State Fault Refusal :=
  s.flt2 8 g t d a b .plain (fun fc f => f.select false (fl.on fc))

/-- FMAX, 96X form. -/
def execFmaxX (g : Guard) (t : Ty) (fl : Flush) (d a b : Opnd) (x : XCtl) (s : State) : Host.Outcome State Fault Refusal :=
  s.flt2 12 g t d a b x (fun fc f => f.select false (fl.on fc))

/-! ### Long-latency functions (R339, R342) -/

/-- FRCP (R339). -/
def execFrcp (g : Guard) (la : BitVec 4) (t : Ty) (m : FMode) (d a : Opnd) (s : State) : Host.Outcome State Fault Refusal :=
  s.flt1 la.toNat g t d a (fun fc f => f.rcp (m.rnd.mode fc) (m.flush.on fc))

/-- FRSQ (R339). -/
def execFrsq (g : Guard) (la : BitVec 4) (t : Ty) (m : FMode) (d a : Opnd) (s : State) : Host.Outcome State Fault Refusal :=
  s.flt1 la.toNat g t d a (fun fc f => f.rsq (m.rnd.mode fc) (m.flush.on fc))

/-- FSFN (R342, R343). -/
def execFsfn (g : Guard) (la : BitVec 4) (t : Ty) (op : SfnOp) (fl : Flush) (d a : Opnd) (s : State) :
    Host.Outcome State Fault Refusal :=
  s.flt1 la.toNat g t d a (fun fc f => f.sfn op (rmOf fc) (fl.on fc))

/-! ### Comparison and class (R337, R341) -/

/-- A comparison's effect: a predicate and its flags. -/
def cmpEff (t : Ty) (op : FCmp) (p : BitVec 3) (flush : Bool) (a b : Nat) : Eff :=
  match t.fmt with
  | some f => let r := f.compare op flush a b; ⟨none, some (p, r.1), r.2⟩
  | none => ⟨none, none, 0#5⟩

/-- FSET in a register form. -/
def State.fset (s : State) (len : Nat) (g : Guard) (t : Ty) (op : FCmp) (ftz : Bool) (p : BitVec 3) (a b : Opnd) (x : XCtl) :
    Host.Outcome State Fault Refusal :=
  let pa := (Pos.src 1 a (a.srcTy t)).withIx x
  let pb := (Pos.src 2 b (b.srcTy t)).withIx x
  s.alu len 0 g [pa, pb] none (abOf t [pa, pb]) (fun c i =>
    cmpEff t op p (ftz || ftzOf (c.th i).fctl) (c.int t i pa) (c.int t i pb))

/-- FSET (R341). -/
def execFset (g : Guard) (t : Ty) (op : FCmp) (ftz : Bool) (p : BitVec 3) (a b : Opnd) (s : State) :
    Host.Outcome State Fault Refusal :=
  s.fset 8 g t op ftz p a b .plain

/-- FSET, 96X form. -/
def execFsetX (g : Guard) (t : Ty) (op : FCmp) (ftz : Bool) (p : BitVec 3) (a b : Opnd) (x : XCtl) (s : State) :
    Host.Outcome State Fault Refusal :=
  s.fset 12 g t op ftz p a b x

/-- FSET, 96I form. -/
def execFsetI (g : Guard) (t : Ty) (op : FCmp) (ftz : Bool) (p : BitVec 3) (a : Opnd) (imm : Word) (s : State) :
    Host.Outcome State Fault Refusal :=
  let pa := Pos.src 1 a (a.srcTy t)
  let k := t.immediate imm
  let pk := Pos.src 2 (.imm 0#9) true
  s.alu 12 0 g [pa] none (fun c => abOf t [pa] c ++ (if t = .f32 then [(pk, fun _ => k)] else [])) (fun c i =>
    cmpEff t op p (ftz || ftzOf (c.th i).fctl) (c.int t i pa) k)

/-- The class bit of a pattern (R337). -/
def classOf (t : Ty) (v : Nat) : Nat :=
  match t.fmt with
  | some f =>
    if t = .f32 && isAbandoned v then 10
    else if f.isSnan v then 0
    else if f.isNan v then 1
    else if f.isInf v then (if f.neg v then 2 else 9)
    else if f.mag v = 0 then (if f.neg v then 5 else 6)
    else if f.isSub v then (if f.neg v then 4 else 7)
    else if f.neg v then 3 else 8
  | none => if v = 0 then 6 else if v = 0x80 then 11 else if bitOf v 7 then 3 else 8

/-- FCLS (R337). -/
def execFcls (g : Guard) (t : Ty) (d a : Opnd) (s : State) : Host.Outcome State Fault Refusal :=
  let pd := Pos.dst d d.reg32
  let pa := Pos.src 1 a (a.srcTy t)
  s.alu 8 0 g [pd, pa] (some pd) noAb (fun c i => .ofVal (2 ^ classOf t (c.int t i pa)))

/-- FRND (R340). -/
def execFrnd (g : Guard) (t : Ty) (m : FMode) (d a : Opnd) (s : State) : Host.Outcome State Fault Refusal :=
  s.flt1 0 g t d a (fun fc f => f.rint (m.rnd.mode fc) (m.flush.on fc))

/-! ### VDOT (R161, R386) -/

/-- The dot product of the elements of a and b added to c, rounded once into FP32 (R161). -/
def vdotValue (t : Ty) (mode : RMode) (flush : Bool) (a b c : Nat) : Nat × Flags :=
  match t.fmt with
  | none => (c, 0#5)
  | some f =>
    let xs := (t.split a).map (f.flushIn flush)
    let ys := (t.split b).map (f.flushIn flush)
    let z := Fmt.f32.flushIn flush c
    let ps := (xs.zip ys).map (fun p => (f.val p.1).mul (f.val p.2))
    let sum := exactSum mode (Fmt.f32.val z :: ps.map Prod.fst)
    let r := Fmt.f32.ofVal mode flush sum.1
    (r.1, ps.foldl (fun acc p => acc ||| p.2) (sum.2 ||| r.2 ||| f.snanFlag xs ||| f.snanFlag ys ||| Fmt.f32.snanFlag [z]))

/-- VDOT (R161, R386). -/
def execVdot (g : Guard) (la : BitVec 4) (t : Ty) (m : FMode) (d a b c : Opnd) (x : XCtl) (s : State) :
    Host.Outcome State Fault Refusal :=
  let pd := (Pos.dst d (d.dstFlt .f32)).withIx x
  let pa := (Pos.src 1 a (a.srcFlt t)).withIx x
  let pb := (Pos.src 2 b (b.srcFlt t)).withIx x
  let pc := (Pos.src 3 c c.src32).withIx x
  s.alu 12 la.toNat g [pd, pa, pb, pc] (some pd) (abOf t [pa, pb]) (fun k i =>
    let z := k.val i pc false 32
    if isAbandoned z then .ofVal z
    else
      let fc := (k.th i).fctl
      let r := vdotValue t (m.rnd.mode fc) (m.flush.on fc) (x.sw1.apply t (k.int t i pa)) (x.sw2.apply t (k.int t i pb)) z
      ⟨some r.1, none, r.2⟩)

end Sys2Proof.Machine
end

