-- ==== Sys2Proof/Machine/Convert.lean ====
section
/-! DEFINITION. Conversion and packing (spec/05 R97, spec/06 R118, spec/19 R332, spec/20 R360, spec/21 R385). -/

namespace Sys2Proof.Machine

/-! ### FCVT (R118) -/

/-- A source of FCVT: exact width for floating and D8 types, R49 for integers. -/
def cvtSrc (t : Ty) (o : Opnd) : Bool := if t.isFloatD8 then o.srcFlt t else o.srcInt t

/-- FCVT's result in a destination of dw bits (R112, R118): integers to integers as CVTI, every other pair from the exact
value, rounded once; an integer destination of another width through R49. -/
def fcvtResult (dest frm : Ty) (mode : RMode) (flush sat : Bool) (dw v : Nat) : Nat × Flags :=
  if frm.isIN && dest.isIN then
    let x := intVal frm.isSigned frm.bits v
    let y : Int := if sat then clampI (intMin dest.isSigned dest.bits) (intMax dest.isSigned dest.bits) x
      else intVal dest.isSigned dest.bits (wrap dest.bits x)
    (writeWidth dest.isSigned sat dest.bits dw y, 0#5)
  else
    let src : FVal × Bool :=
      if frm.isIN then
        let x := intVal frm.isSigned frm.bits v
        (.fin (x < 0) x.natAbs 1, false)
      else fromVal frm flush v
    let r := convertVal dest mode flush (satOf frm dest sat) src.2 (frm == .d8) src.1
    (if dest.isIN then writeWidth dest.isSigned sat dest.bits dw r.1 else wrap dw r.1, r.2)

/-- FCVT in either form. -/
def State.fcvt (s : State) (len : Nat) (g : Guard) (dest frm : Ty) (m : FMode) (sat : Bool) (d a : Opnd) (x : XCtl) :
    Host.Outcome State Fault Refusal :=
  let pd := (Pos.dst d (d.dstTy dest)).withIx x
  let pa := (Pos.src 1 a (cvtSrc frm a)).withIx x
  s.alu len 0 g [pd, pa] (some pd) (abOf frm [pa]) (fun c i =>
    let fc := (c.th i).fctl
    let r := fcvtResult dest frm (m.rnd.mode fc) (m.flush.on fc) sat d.bits (c.int frm i pa)
    ⟨some r.1, none, r.2⟩)

/-- FCVT (R118). -/
def execFcvt (g : Guard) (dest frm : Ty) (m : FMode) (sat : Bool) (d a : Opnd) (s : State) : Host.Outcome State Fault Refusal :=
  s.fcvt 8 g dest frm m sat d a .plain

/-- FCVT, 96X form. -/
def execFcvtX (g : Guard) (dest frm : Ty) (m : FMode) (sat : Bool) (d a : Opnd) (x : XCtl) (s : State) :
    Host.Outcome State Fault Refusal :=
  s.fcvt 12 g dest frm m sat d a x

/-! ### CVTI (R332) -/

/-- CVTI in either form: exact widths, but for a uniform or immediate source. -/
def State.cvti (s : State) (len : Nat) (g : Guard) (dest frm : Ty) (sat : Bool) (d a : Opnd) (x : XCtl) :
    Host.Outcome State Fault Refusal :=
  let pd := (Pos.dst d (d.bits == dest.bits)).withIx x
  let pa := (Pos.src 1 a (!a.isReg || a.bits == frm.bits)).withIx x
  s.alu len 0 g [pd, pa] (some pd) noAb (fun c i =>
    .ofVal (writeWidth dest.isSigned sat dest.bits dest.bits (intVal frm.isSigned frm.bits (c.int frm i pa))))

/-- CVTI (R332). -/
def execCvti (g : Guard) (dest frm : Ty) (sat : Bool) (d a : Opnd) (s : State) : Host.Outcome State Fault Refusal :=
  s.cvti 8 g dest frm sat d a .plain

/-- CVTI, 96X form. -/
def execCvtiX (g : Guard) (dest frm : Ty) (sat : Bool) (d a : Opnd) (x : XCtl) (s : State) :
    Host.Outcome State Fault Refusal :=
  s.cvti 12 g dest frm sat d a x

/-! ### PACK (R360) -/

/-- Integer PACK: elements of twice the width narrowed, a's into the low half (R360). -/
def packInt (t : Ty) (sat : Bool) (a b : Nat) : Nat :=
  let n := t.elems / 2
  let w := t.ebits
  let half (v : Nat) : List Nat := (List.range n).map (fun i =>
    writeWidth t.isSigned sat w w (intVal t.isSigned (2 * w) (v / 2 ^ (2 * w * i))))
  joinElems w (half a ++ half b)

/-- Floating PACK: two FP32 values rounded once into the format (R360). -/
def packFlt (t : Ty) (mode : RMode) (flush : Bool) (a b : Nat) : Nat × Flags :=
  match t.fmt with
  | some f =>
    let one (v : Nat) : Nat × Flags :=
      let x := Fmt.f32.flushIn flush v
      let r := f.ofVal mode flush (Fmt.f32.val x)
      (r.1, r.2 ||| Fmt.f32.snanFlag [x])
    collect 16 [one a, one b]
  | none => (0, 0#5)

/-- The modes of floating PACK. -/
def packMode (md : BitVec 5) : FMode :=
  match FMode.ofCode md with
  | .ok m => m
  | .error _ => .zero

/-- PACK in either form. -/
def State.pack (s : State) (len : Nat) (g : Guard) (t : Ty) (md : BitVec 5) (d a b : Opnd) (x : XCtl) :
    Host.Outcome State Fault Refusal :=
  let pd := (Pos.dst d d.reg32).withIx x
  let pa := (Pos.src 1 a a.src32).withIx x
  let pb := (Pos.src 2 b b.src32).withIx x
  s.alu len 0 g [pd, pa, pb] (some pd)
    (fun c => if t.isIPack then [] else [(pa, fun i => c.u32 i pa), (pb, fun i => c.u32 i pb)])
    (fun c i =>
      if t.isIPack then .ofVal (packInt t (md.getLsbD 0) (c.u32 i pa) (c.u32 i pb))
      else
        let m := packMode md
        let fc := (c.th i).fctl
        let r := packFlt t (m.rnd.mode fc) (m.flush.on fc) (c.u32 i pa) (c.u32 i pb)
        ⟨some r.1, none, r.2⟩)

/-- PACK (R360). -/
def execPack (g : Guard) (t : Ty) (md : BitVec 5) (d a b : Opnd) (s : State) : Host.Outcome State Fault Refusal :=
  s.pack 8 g t md d a b .plain

/-- PACK, 96X form. -/
def execPackX (g : Guard) (t : Ty) (md : BitVec 5) (d a b : Opnd) (x : XCtl) (s : State) :
    Host.Outcome State Fault Refusal :=
  s.pack 12 g t md d a b x

/-! ### UNPK (R385) -/

/-- UNPK's result: the elements of one half, each of twice the width (R385). -/
def unpkResult (t : Ty) (hi flush : Bool) (v : Nat) : Nat × Flags :=
  let n := t.elems / 2
  let es := ((t.split v).drop (if hi then n else 0)).take n
  let w := 2 * t.ebits
  match t.fmt with
  | some f =>
    let dest := if w = 32 then Fmt.f32 else Fmt.f16
    collect w (es.map (fun e => let x := f.flushIn flush e; ((dest.ofVal .rn false (f.val x)).1, f.snanFlag [x])))
  | none => (joinElems w (es.map (fun e => wrap w (intVal t.isSigned t.ebits e))), 0#5)

/-- UNPK in either form. -/
def State.unpk (s : State) (len : Nat) (g : Guard) (t : Ty) (hi : Bool) (d a : Opnd) (x : XCtl) :
    Host.Outcome State Fault Refusal :=
  let pd := (Pos.dst d d.reg32).withIx x
  let pa := (Pos.src 1 a a.reg32).withIx x
  s.alu len 0 g [pd, pa] (some pd) noAb (fun c i =>
    let r := unpkResult t hi (ftzOf (c.th i).fctl) (x.sw1.apply t (c.u32 i pa))
    ⟨some r.1, none, r.2⟩)

/-- UNPK (R385). -/
def execUnpk (g : Guard) (t : Ty) (hi : Bool) (d a : Opnd) (s : State) : Host.Outcome State Fault Refusal :=
  s.unpk 8 g t hi d a .plain

/-- UNPK, 96X form. -/
def execUnpkX (g : Guard) (t : Ty) (hi : Bool) (d a : Opnd) (x : XCtl) (s : State) : Host.Outcome State Fault Refusal :=
  s.unpk 12 g t hi d a x

end Sys2Proof.Machine
end

