-- ==== Sys2Proof/Machine/Memory.lean ====
section
/-! DEFINITION. Loads, stores, prefetch, atomics and reductions at issue (spec/09, spec/12 R245 to R247; spec/19 to 21,
R315, R316, R329, R348 to R352, R363 to R367, R379 to R381). -/

namespace Sys2Proof.Machine

/-! ### Operands -/

/-- Bits of an access: the type's width, or the data operand's (R348). -/
def accBits (t : Ty) (d : Opnd) : Nat := if t = .none then d.bits else t.bits

/-- The destinations of a load (R348). -/
def loadOk (t : Ty) (d : Opnd) : Bool :=
  if t = .none then d.notImm
  else if t.isLogic then d.notImm && d.bits ≤ 64
  else d.dstFlt t

/-- The data operands of a store (R379). -/
def storeOk (t : Ty) (a : Opnd) : Bool :=
  match a with
  | .reg w _ => if t = .none then true else if t.isLogic then w.bits ≤ t.bits else w.bits == t.bits
  | .uni _ => accBits t a == 32
  | .imm _ => false

/-- The value that a load writes (R49, R349). -/
def writeLoad (f : LoadForm) (v : Nat) : Nat :=
  if f.ty.isLogic then writeWidth f.ty.isSigned false f.bits f.dw (intVal f.ty.isSigned f.bits v) else v

/-- The nibble of a byte, or the whole value. -/
def halfOf (h : Option Bool) (v : Nat) : Nat :=
  match h with
  | none => v
  | some hi => if hi then v / 16 % 16 else v % 16

/-- Distinct lines, in the order of their first touch. -/
def distinctLines (l : List LineAt) : List LineAt :=
  l.foldl (fun acc x => if acc.any (fun y => y.line == x.line) then acc else acc ++ [x]) []

/-- A pending scatter of the thread touches one of these bytes (R174). -/
def State.scatterHolds (s : State) (c : Ctx) (a : Acc) : Bool :=
  let mine (b : StoreByte) : Bool :=
    b.by_ == ⟨c.ref.team, c.ref.warp, a.thread⟩ && a.pas.contains b.addr
  (s.core c.team.die c.team.core).gathers.any (fun g => g.bytes.any mine)

/-! ### Beats (R16, R18) -/

/-- Values of threads, as w-bit patterns, are a base plus the thread's index times a stride (R18): a thread whose distance from the
first has the fewest factors of two gives the stride that every other one must meet. -/
def affine (w : Nat) (l : List (Nat × Nat)) : Bool :=
  match l with
  | [] => true
  | (i0, v0) :: r =>
    let d := r.map (fun p => (p.1 - i0, (p.2 + 2 ^ w - v0 % 2 ^ w) % 2 ^ w))
    match (List.range 5).find? (fun k => d.any (fun p => p.1 % 2 ^ (k + 1) != 0)) with
    | none => true
    | some k =>
      match d.find? (fun p => p.1 % 2 ^ (k + 1) != 0) with
      | none => true
      | some (u, e) =>
        e % 2 ^ k == 0 && d.all (fun p => p.2 % 2 ^ k == 0
          && (u / 2 ^ k * (p.2 / 2 ^ k) + 2 ^ w - p.1 / 2 ^ k * (e / 2 ^ k) % 2 ^ (w - k)) % 2 ^ (w - k) == 0)

/-- An operand qualifies for scalarisation over the guarded threads (R18): a uniform register, an immediate, or values that are
uniform or affine. -/
def Ctx.affineOp (c : Ctx) (p : Pos) : Bool :=
  match p.o with
  | .reg w _ => affine w.bits (c.on.map (fun i => (i, c.raw i p)))
  | _ => true

/-- Beats that a thread's operation takes: one, one for each operand that starts unaligned, and one where a register source lies
outside the region in force (R16, R47, R58). -/
def Ctx.beats (c : Ctx) (ps : List Pos) (i : Nat) : Nat :=
  1 + (ps.filter (fun p => match p.o with
    | .reg w _ => w.slices != 0 && p.start (c.th i) % w.slices != 0
    | _ => false)).length
    + (match c.warp.region with
        | some r => if ps.any (fun p => p.read && p.slices != 0
            && sliceMask (p.start (c.th i)) p.slices &&& ~~~r != 0#512) then 1 else 0
        | none => 0)

/-- The beat in which each guarded thread of an instruction that is not scalarised issues (R16). -/
def Ctx.beatOf (c : Ctx) (ps : List Pos) (i : Nat) : Nat :=
  ((c.on.filter (fun j => j < i)).map (c.beats ps)).foldl (· + ·) 0

/-! ### The Quay (R173) -/

/-- The youngest atomic, gather, scatter or sent store of a core on a line that is still to be performed, by its number. -/
def State.lineNewest (s : State) (d c line : Nat) : Nat :=
  let g := ((s.core d c).gathers.filter (fun g => g.lines.any (fun l => l.line == line))).map GatherOp.id
  let a := (s.atoms.filter (fun a => a.threads.any (fun t => t.old.isNone && !t.bad && t.at_.line == line)
    && (match s.team? a.leaf.team with | some t => t.die == d && t.core == c | none => false))).map AtomRec.id
  let w := (s.writes.filter (fun w => w.die == d && w.core == c && w.at_.line == line)).map WriteRec.id
  (g ++ a ++ w).foldl max 0

/-- A core's Quay as the beats of an instruction meet it: the entries, and for each one that the instruction opened or joined the beat
at which its window closes. -/
structure Beats where
  quay : List QuayEntry
  closes : List (Nat × Nat)

/-- What an instruction finds at the Quay: the youngest other request of a line, and for how many of its beats an older entry
stays open to it. -/
structure Windows where
  newest : Nat → Nat
  left : Nat → Nat

/-- An entry of a kind for a line that is open at a beat (R173): unsent, its window of 8 cycles not over, and no later entry of the
other kind nor other request of the line behind it, so that merging changes no result. -/
def Beats.joinable (b : Beats) (x : Windows) (store : Bool) (line beat : Nat) : Option QuayEntry :=
  b.quay.find? (fun e => e.store == store && !e.sent && e.at_.line == line && x.newest line ≤ e.id
    && (match Tbl.look e.id b.closes with | some z => beat < z | none => beat < x.left e.id)
    && !b.quay.any (fun o => o.store != store && o.at_.line == line && e.id < o.id))

/-- The entry `id` joined, or opened, at a beat: its window closes 8 cycles later at the latest. -/
def Beats.mark (b : Beats) (x : Windows) (id beat : Nat) (opened : Bool) : List (Nat × Nat) :=
  if (Tbl.look id b.closes).isSome then b.closes
  else (id, if opened then beat + 8 else min (beat + 8) (x.left id)) :: b.closes

/-- A load's threads among an entry's. -/
def addThreads (ops : List (Nat × BitVec 32)) (op : Nat) (m : BitVec 32) : List (Nat × BitVec 32) :=
  if ops.any (fun q => q.1 == op) then mapIf (fun q => q.1 == op) (fun q => (q.1, q.2 ||| m)) ops else ops ++ [(op, m)]

/-- Threads of a load join an entry for their line at a beat, or open entry `id` (R173). -/
def Beats.load (b : Beats) (x : Windows) (id op : Nat) (m : BitVec 32) (l : LineAt) (beat : Nat) : Beats :=
  match b.joinable x false l.line beat with
  | some e =>
    ⟨mapIf (fun y => y.id == e.id) (fun y => { y with ops := addThreads y.ops op m }) b.quay, b.mark x e.id beat false⟩
  | none => ⟨b.quay ++ [⟨id, false, l, false, false, [(op, m)], [], []⟩], b.mark x id beat true⟩

/-- The 16-byte units that bytes touch. -/
def unitsOf (bytes : List StoreByte) : List Nat := bytes.map (fun b => b.addr / 16)

/-- A store's bytes of one line join an entry at a beat, or open entry `id` (R173). -/
def Beats.store (b : Beats) (x : Windows) (id : Nat) (l : LineAt) (bytes : List StoreByte) (tagged : List Nat) (beat : Nat) : Beats :=
  match b.joinable x true l.line beat with
  | some e =>
    ⟨mapIf (fun y => y.id == e.id) (fun y => { y with
      bytes := y.bytes ++ bytes
      tagged := y.tagged.filter (fun u => !(unitsOf bytes).contains u) ++ tagged }) b.quay, b.mark x e.id beat false⟩
  | none => ⟨b.quay ++ [⟨id, true, l, false, false, [], bytes, tagged⟩], b.mark x id beat true⟩

/-- The windows that an instruction of a core finds. -/
def State.windows (s : State) (d c : Nat) : Windows := ⟨s.lineNewest d c, Config.quayLeft s.fresh⟩

/-- Entries of a core's Quay (R173). -/
def quaySize : Nat := 256

/-- Entries of a core's gather queue (R174). -/
def gatherSize : Nat := 16

/-! ### Loads (R348 to R350) -/

/-- A load starts: its destinations pend, its lines go to the Quay thread by thread, or together where it is scalarised (`beat`), or
above eight lines to the gather unit; none while they are full (R173, R174, R350). -/
def State.startLoad (s : State) (c : Ctx) (la : Nat) (pd : Pos) (f : LoadForm) (caps : Nat → Cap) (beat : Nat → Nat) (accs : List Acc) :
    Option State :=
  let d := c.team.die
  let k := c.team.core
  let lines := distinctLines (accs.flatMap Acc.lines)
  let op := s.nextId
  let pieces := accs.flatMap (fun a => a.lines.map (fun l => (l, a.thread)))
  let quay := ((pieces.zipIdx).foldl (fun b p =>
    b.load (s.windows d k) (op + 1 + p.2) op (maskOf [p.1.2]) p.1.1 (beat p.1.2)) (⟨(s.core d k).quay, []⟩ : Beats)).quay
  let gather := 8 < lines.length
  if (gather && gatherSize ≤ (s.core d k).gathers.length) || (!gather && quaySize < quay.length) then none
  else
    let ths := accs.map (fun a =>
      (⟨a.thread, pd.start (c.th a.thread), a.pas.map (fun p => (p, Option.none)), a.half,
        f.bits == 128 && (caps a.thread).grants pLDC, false, false⟩ : LoadThread))
    let uni := match pd.o with | .uni r => some (r, c.warp.handler.isSome) | _ => none
    let s := { s with nextId := op + 2 + pieces.length }
    let s := s.updCore d k (fun k => { k with
      loads := k.loads ++ [⟨op, c.ref.team, c.ref.warp, f, uni, ths⟩]
      quay := if gather then k.quay else quay
      gathers := if gather then k.gathers ++ [⟨op, some op, lines, [], []⟩] else k.gathers })
    some (if uni.isSome then s
      else s.updWarp c.ref.team c.ref.warp (fun w => { w with
        threads := (w.threads.zipIdx).map (fun p =>
          if accs.any (fun a => a.thread == p.2) then p.1.pend op c.entry.pc.toNat la (pd.start p.1) pd.slices else p.1) }))

/-- LD in either form; `off` gives a thread's offset. -/
def State.load (s : State) (len la : Nat) (g : Guard) (t : Ty) (d cap : Opnd) (extra : List Pos) (off : Ctx → Nat → Int) :
    Host.Outcome State Fault Refusal :=
  let pd := Pos.dst d (loadOk t d)
  let pc := Pos.src 1 cap true
  let bits := accBits t d
  s.issue len g ([pd, pc] ++ extra) (fun c u =>
    let reqs := (c.runs (some pd)).map (fun i =>
      let k := c.cap i pc
      let o := nibble bits (off c i)
      (⟨i, k, c.capTag i pc, k.base + o.1, accBytes bits, o.2, bits == 128, pLD, ⟨true, false, false⟩⟩ : AccReq))
    (u.access c reqs).then_ c u (fun accs =>
      -- scalarised: the capability is uniform and the offset qualifies (R350)
      let one := (c.on.map (fun i => (c.raw i pc, c.capTag i pc))).eraseDups.length ≤ 1 && extra.all c.affineOp
      if accs.any (u.scatterHolds c) then .unready
      else
        match u.startLoad c la pd ⟨t, bits, d.bits⟩ (fun i => c.cap i pc) (if one then fun _ => 0 else c.beatOf ([pd, pc] ++ extra)) accs with
        | some v => .next v
        | none => .stall))

/-- LD (R348 to R350). -/
def execLd (g : Guard) (la : BitVec 4) (t : Ty) (d c o : Opnd) (s : State) : Host.Outcome State Fault Refusal :=
  let po := Pos.src 2 o o.src3264
  s.load 8 la.toNat g t d c [po] (fun x i => x.signed i po)

/-- LD, 96I form. -/
def execLdI (g : Guard) (la : BitVec 4) (t : Ty) (d c : Opnd) (imm : Word) (s : State) : Host.Outcome State Fault Refusal :=
  s.load 12 la.toNat g t d c [] (fun _ _ => imm.toInt)

/-! ### Stores (R379, R380) -/

/-- The bytes of one thread's store. -/
def storeBytes (c : Ctx) (inst : Nat) (a : Acc) (v : Nat) : List StoreByte :=
  let by_ : Origin := ⟨c.ref.team, c.ref.warp, a.thread⟩
  match a.half with
  | some h => (a.pas.take 1).map (fun p => ⟨p, BitVec.ofNat 8 (v % 16), some h, by_, inst⟩)
  | none => (a.pas.zip (natLe a.pas.length v)).map (fun p => ⟨p.1, p.2, Option.none, by_, inst⟩)

/-- A store starts: its bytes go to Quay entries line by line, each thread in its beat, or above eight lines to the gather unit (R173,
R174). None while they are full. -/
def State.startStore (s : State) (c : Ctx) (accs : List Acc) (beat : Nat → Nat) (val : Nat → Nat) (tag : Nat → Bool) : Option State :=
  let d := c.team.die
  let k := c.team.core
  let lines := distinctLines (accs.flatMap Acc.lines)
  let op := s.nextId
  let gather := 8 < lines.length
  let pieces := accs.flatMap (fun a =>
    let bs := storeBytes c op a (val a.thread)
    a.lines.map (fun l => (l, bs.filter (fun b => b.addr / 128 == l.line),
      if tag a.thread then (a.pas.take 1).map (· / 16) else [], beat a.thread)))
  let quay := ((pieces.zipIdx).foldl (fun b p =>
    b.store (s.windows d k) (op + 1 + p.2) p.1.1 p.1.2.1 p.1.2.2.1 p.1.2.2.2) (⟨(s.core d k).quay, []⟩ : Beats)).quay
  if (gather && gatherSize ≤ (s.core d k).gathers.length) || (!gather && quaySize < quay.length) then none
  else
    let tags := pieces.foldl (fun u p => u.filter (fun x => !(unitsOf p.2.1).contains x) ++ p.2.2.1) []
    let s := { s with nextId := op + 2 + pieces.length }
    some (s.updCore d k (fun k => { k with
      quay := if gather then k.quay else quay
      gathers := if gather then k.gathers ++ [⟨op, none, lines, pieces.flatMap (fun p => p.2.1), tags⟩] else k.gathers }))

/-- ST in either form. -/
def State.store (s : State) (len : Nat) (g : Guard) (t : Ty) (cap a : Opnd) (extra : List Pos) (off : Ctx → Nat → Int) :
    Host.Outcome State Fault Refusal :=
  let pa : Pos := ⟨0, a, none, storeOk t a, true, false, BitVec.allOnes 32⟩
  let pc := Pos.src 1 cap true
  let bits := accBits t a
  s.issue len g ([pa, pc] ++ extra) (fun c u =>
    let tagged (i : Nat) : Bool := bits == 128 && a.isReg && c.capTag i pa
    let reqs := c.on.map (fun i =>
      let k := c.cap i pc
      let o := nibble bits (off c i)
      (⟨i, k, c.capTag i pc, k.base + o.1, accBytes bits, o.2, bits == 128, if tagged i then pST + pSTC else pST,
        ⟨false, true, false⟩⟩ : AccReq))
    (u.access c reqs).then_ c u (fun accs =>
      if accs.any (u.scatterHolds c) then .unready
      else
        match u.startStore c accs (c.beatOf ([pa, pc] ++ extra)) (fun i => if t = .none then c.raw i pa else c.int t i pa) tagged with
        | some v => .next v
        | none => .stall))

/-- ST (R379, R380). Its window checks nothing. -/
def execSt (g : Guard) (la : BitVec 4) (t : Ty) (c o a : Opnd) (s : State) : Host.Outcome State Fault Refusal :=
  let po := Pos.src 2 o o.src3264
  let _ := la
  s.store 8 g t c a [po] (fun x i => x.signed i po)

/-- ST, 96I form. -/
def execStI (g : Guard) (la : BitVec 4) (t : Ty) (c a : Opnd) (imm : Word) (s : State) : Host.Outcome State Fault Refusal :=
  let _ := la
  s.store 12 g t c a [] (fun _ _ => imm.toInt)

/-! ### Local store (R183, R351, R352, R381) -/

/-- The team and offset that a local-store offset names for n bytes: the team's own, or a convoy slot's (R183). -/
def State.lsTarget (s : State) (c : Ctx) (v n : Nat) : Option (Nat × Nat) :=
  let off := v % 2 ^ 19
  let fits (t : Nat) : Option (Nat × Nat) :=
    match s.team? t with
    | some x => if off + n ≤ x.lstore then some (t, off) else none
    | none => none
  if 2 ^ 25 ≤ v then none
  else if !bitOf v 24 then (if bitsOf v 23 19 = 0 then fits c.ref.team else none)
  else
    match c.team.convoy.bind (fun k => Tbl.look k s.convoys) with
    | none => none
    | some k =>
      let bit := if bitOf v 23 then 1 else 0
      let cs := bitsOf v 22 19
      let slot := if k.straddles then (if cs < 8 then some (bit * 8 + cs) else none) else if bit = 0 then some cs else none
      match slot.bind (fun x => Tbl.look x k.members) with
      | some t => fits t
      | none => none

/-- The targets of the threads' local-store accesses, or the trap of R351: alignment of 128-bit accesses in any thread,
then LSBOUND. -/
def State.lsTargets (s : State) (c : Ctx) (run : List Nat) (bits : Nat) (off : Nat → Nat) : Except Trap (List (Nat × Nat × Nat × Option Bool)) :=
  let at_ (i : Nat) : Nat × Option Bool := if bits = 4 then (off i / 2, some (off i % 2 == 1)) else (off i, none)
  match run.find? (fun i => bits == 128 && off i % 16 != 0) with
  | some i => .error (mkTrap cILLOPND (opInfo i 2))
  | none =>
    run.foldr (fun i acc =>
      match s.lsTarget c (at_ i).1 (accBytes bits), acc with
      | none, _ => .error (mkTrap cLSBOUND 0)
      | _, .error e => .error e
      | some (t, o), .ok l => .ok ((i, t, o, (at_ i).2) :: l)) (.ok [])

/-- LDS in either form: the bytes are read at their bank. -/
def State.loadLocal (s : State) (len la : Nat) (g : Guard) (t : Ty) (d : Opnd) (extra : List Pos) (off : Ctx → Nat → Nat) :
    Host.Outcome State Fault Refusal :=
  let pd := Pos.dst d (loadOk t d)
  let bits := accBits t d
  s.issue len g (pd :: extra) (fun c u =>
    match u.lsTargets c (c.runs (some pd)) bits (off c) with
    | .error e => .trap e
    | .ok l =>
      let val (i : Nat) : Nat :=
        match l.find? (fun p => p.1 == i) with
        | some (_, tm, o, h) =>
          let bytes := match u.team? tm with | some x => x.loc.read o (accBytes bits) | none => []
          writeLoad ⟨t, bits, d.bits⟩ (halfOf h (leNat bytes))
        | none => 0
      .next (u.updWarp c.ref.team c.ref.warp (fun _ => c.commit (c.runs (some pd)) (some pd) la (fun i => .ofVal (val i)))))

/-- LDS (R351, R352). -/
def execLds (g : Guard) (la : BitVec 4) (t : Ty) (d o : Opnd) (s : State) : Host.Outcome State Fault Refusal :=
  let po := Pos.src 2 o o.src32
  s.loadLocal 8 la.toNat g t d [po] (fun c i => c.u32 i po)

/-- LDS, 96I form. -/
def execLdsI (g : Guard) (la : BitVec 4) (t : Ty) (d : Opnd) (imm : Word) (s : State) : Host.Outcome State Fault Refusal :=
  s.loadLocal 12 la.toNat g t d [] (fun _ _ => imm.toNat)

/-- A value of some bits written into a team's local store, a nibble by read-modify-write (R184). -/
def State.lsWrite (s : State) (team off bits : Nat) (half : Option Bool) (v : Nat) : State :=
  s.updTeam team (fun t => { t with
    loc := match half with
      | some h =>
        let old := (t.loc.byte off).toNat
        t.loc.set off (BitVec.ofNat 8 (if h then setBits old 7 4 v else setBits old 3 0 v))
      | none => t.loc.write off (natLe (accBytes bits) v) })

/-- STS in either form: the bytes are written at their bank, thread by thread. -/
def State.storeLocal (s : State) (len : Nat) (g : Guard) (t : Ty) (a : Opnd) (extra : List Pos) (off : Ctx → Nat → Nat) :
    Host.Outcome State Fault Refusal :=
  let pa : Pos := ⟨0, a, none, storeOk t a, true, false, BitVec.allOnes 32⟩
  let bits := accBits t a
  s.issue len g (pa :: extra) (fun c u =>
    match u.lsTargets c c.on bits (off c) with
    | .error e => .trap e
    | .ok l =>
      .next (l.foldl (fun v p =>
        v.lsWrite p.2.1 p.2.2.1 bits p.2.2.2 (if t = .none then c.raw p.1 pa else c.int t p.1 pa)) u))

/-- STS (R381). -/
def execSts (g : Guard) (la : BitVec 4) (t : Ty) (o a : Opnd) (s : State) : Host.Outcome State Fault Refusal :=
  let po := Pos.src 2 o o.src32
  let _ := la
  s.storeLocal 8 g t a [po] (fun c i => c.u32 i po)

/-- STS, 96I form. -/
def execStsI (g : Guard) (la : BitVec 4) (t : Ty) (a : Opnd) (imm : Word) (s : State) : Host.Outcome State Fault Refusal :=
  let _ := la
  s.storeLocal 12 g t a [] (fun _ _ => imm.toNat)

/-! ### PREF (R363, R364) -/

/-- One thread's prefetch of a line: nothing where the checks or the translation fail, or the Quay is full. A `.l1` prefetch joins a
load entry, which then fills L1, or opens one. -/
def State.prefetch (s : State) (c : Ctx) (l2 : Bool) (i : Nat) (pc : Pos) (o : Int) (seen : List Nat) : State × List Nat :=
  let k := c.cap i pc
  let r : AccReq := ⟨i, k, c.capTag i pc, k.base + o, 1, none, false, pLD, ⟨true, false, false⟩⟩
  let quay := (s.core c.team.die c.team.core).quay
  if r.check.isSome || quaySize ≤ quay.length then (s, seen)
  else
    let v := r.va.toNat
    match s.engineXlate c.team.die c.team.core c.launch.asid v ⟨true, false, false⟩ c.launch.secure with
    | .ok p =>
      let l : LineAt := ⟨p.pa / 128, p.kind, p.level, c.launch.asid, v⟩
      if p.kind = 1 || p.kind = 3 then (s, seen)
      else if l2 || p.kind = 2 then
        if seen.contains l.line then (s, seen)
        else ((s.countReq c.team.die l).touchHome l, l.line :: seen)
      else
        match (⟨quay, []⟩ : Beats).joinable (s.windows c.team.die c.team.core) false l.line 0 with
        | some e =>
          (s.updCore c.team.die c.team.core (fun x => { x with
            quay := mapIf (fun y => y.id == e.id) (fun y => { y with prefetch := true }) x.quay }), seen)
        | none =>
          let (id, s) := s.takeId
          (s.updCore c.team.die c.team.core (fun x => { x with quay := x.quay ++ [⟨id, false, l, false, true, [], [], []⟩] }), seen)
    | _ => (s, seen)

/-- PREF (R363, R364): no trap but those of R51, and no effect on any value read. -/
def execPref (g : Guard) (la : BitVec 4) (l2 : Bool) (c o : Opnd) (s : State) : Host.Outcome State Fault Refusal :=
  let pc := Pos.src 1 c true
  let po := Pos.src 2 o o.src3264
  let _ := la
  s.issue 8 g [pc, po] (fun x u =>
    .next (x.on.foldl (fun a i => a.1.prefetch x l2 i pc (x.signed i po) a.2) (u, [])).1)

/-! ### Atomics (R245, R315, R316, R329) -/

/-- The source of an atomic's or reduction's third operand (R315, R366). -/
def atomSrc (t : Ty) : Opnd → Bool
  | .reg w _ => w.bits == t.bits
  | .uni _ => t.bits == 32
  | .imm _ => t.fmt.isNone

/-- An ATOM or CAS passes its checks and its threads' operations are sent (R315, R329). A form that may still trap at its
return blocks its leaf until then. -/
def State.startAtom (s : State) (c : Ctx) (la : Nat) (kind : AtomKind) (t : Ty) (pd : Pos) (blocks : Bool) (accs : List Acc)
    (a cmp : Nat → Nat) : State :=
  let op := s.nextId
  let ths := accs.map (fun x =>
    (⟨x.thread, pd.start (c.th x.thread), x.pas.headD 0, x.lines.headD (⟨0, 0, 0, 0, 0⟩ : LineAt), a x.thread, cmp x.thread, none, 0#5, false⟩ : AtomThread))
  let uni := match pd.o with | .uni r => some (r, c.warp.handler.isSome) | _ => none
  let s := { s with nextId := op + 1, atoms := s.atoms ++ [(⟨op, kind, t, c.ref, c.entry.pc, uni, la, blocks, ths⟩ : AtomRec)] }
  let s := accs.foldl (fun s x => match x.lines.head? with | some l => s.countReq c.team.die l | none => s) s
  -- the lines leave the core's L1: a later load of the core follows the atomic at the home
  let s := s.updCore c.team.die c.team.core (fun k => { k with
    l1 := k.l1.filter (fun x => !accs.any (fun y => y.lines.any (fun l => l.line == x.at_.line))) })
  if uni.isSome || blocks then s
  else s.updWarp c.ref.team c.ref.warp (fun w => { w with
    threads := (w.threads.zipIdx).map (fun p =>
      if accs.any (fun x => x.thread == p.2) then p.1.pend op c.entry.pc.toNat la (pd.start p.1) pd.slices else p.1) })

/-- The checks of an atomic's threads (R315). -/
def atomReqs (c : Ctx) (run : List Nat) (t : Ty) (pc : Pos) (po : Pos) : List AccReq :=
  run.map (fun i =>
    let k := c.cap i pc
    (⟨i, k, c.capTag i pc, k.base + c.signed i po, accBytes t.bits, none, true, pLD + pST, ⟨true, true, false⟩⟩ : AccReq))

/-- ATOM (R315, R316). -/
def execAtom (g : Guard) (la : BitVec 4) (t : Ty) (op : AtomOp) (d c o a : Opnd) (x : XCtl) (s : State) :
    Host.Outcome State Fault Refusal :=
  let pd := (Pos.dst d (d.bits == t.bits)).withIx x
  let pc := Pos.src 1 c true
  let po := (Pos.src 2 o o.src3264).withIx x
  let pa := (Pos.src 3 a (atomSrc t a)).withIx x
  s.issue 12 g [pd, pc, po, pa] (fun k u =>
    let run := k.runs (some pd)
    let val (i : Nat) : Nat := x.sw3.apply t (k.int t i pa)
    (u.access k (atomReqs k run t pc po)).then_ k u (fun accs =>
      match Ctx.abandonTrap run (if t = .f32 then [(pa, val)] else []) with
      | some z => .trap z
      | none =>
        if accs.any (u.scatterHolds k) then .unready
        else
          let blocks := t.fmt.isSome
          let v := u.startAtom k la.toNat (.rmw op) t pd blocks accs val (fun _ => 0)
          if blocks then .block (v.block k.ref (.atomic u.nextId)) else .next v))

/-- CAS (R329): d is the comparand and the destination. -/
def execCas (g : Guard) (la : BitVec 4) (t : Ty) (d c o b : Opnd) (s : State) : Host.Outcome State Fault Refusal :=
  let pd := Pos.both 0 d (d.isReg && d.bits == t.bits)
  let pc := Pos.src 1 c true
  let po := Pos.src 2 o o.src3264
  let pb := Pos.src 3 b (match b with | .reg w _ => w.bits == t.bits | .uni _ => t.bits == 32 | .imm _ => false)
  s.issue 16 g [pd, pc, po, pb] (fun k u =>
    (u.access k (atomReqs k k.on t pc po)).then_ k u (fun accs =>
      match Ctx.abandonTrap k.on (if t = .f32 then [(pd, fun i => k.raw i pd), (pb, fun i => k.raw i pb)] else []) with
      | some z => .trap z
      | none =>
        if accs.any (u.scatterHolds k) then .unready
        else
          let blocks := t == .f32
          let v := u.startAtom k la.toNat .cas t pd blocks accs (fun i => k.raw i pb) (fun i => k.raw i pd)
          if blocks then .block (v.block k.ref (.atomic u.nextId)) else .next v))

/-- RED (R366, R367): each thread's reduction is counted at issue and translated afterwards. -/
def execRed (g : Guard) (la : BitVec 4) (t : Ty) (op : RedOp) (c o a : Opnd) (x : XCtl) (s : State) :
    Host.Outcome State Fault Refusal :=
  let pc := Pos.src 1 c true
  let po := (Pos.src 2 o o.src3264).withIx x
  let pa := (Pos.src 3 a (atomSrc t a)).withIx x
  let _ := la
  s.issue 12 g [pc, po, pa] (fun k u =>
    let val (i : Nat) : Nat := x.sw3.apply t (k.int t i pa)
    let reqs := atomReqs k k.on t pc po
    match reqs.findSome? AccReq.check <|> Ctx.abandonTrap k.on (if t = .f32 then [(pa, val)] else []) with
    | some z => .trap z
    | none =>
      let inst := u.nextId
      let recs := (reqs.zipIdx).map (fun p =>
        (⟨inst + 1 + p.2, inst, k.team.launch, k.launch.asid, k.launch.secure, k.team.die, k.team.core,
          ⟨k.ref.team, k.ref.warp, p.1.thread⟩, op, t, p.1.va.toNat, val p.1.thread, none⟩ : RedRec))
      let u := { u with nextId := inst + 2 + recs.length, reds := u.reds ++ recs }
      .next (u.countUp k.team.launch recs.length))

end Sys2Proof.Machine
end

