-- ==== Sys2Proof/Machine/Rendezvous.lean ====
section
/-! DEFINITION. Rendezvous points, rings and CPWAIT (spec/10 R192 to R200, spec/21 R370, R372, spec/19 R331). -/

namespace Sys2Proof.Machine

/-! ### Points (R192, R194, R195) -/

/-- The convoy whose points 16 to 23 a team shares, for a point it shares. -/
def State.convoyOf (s : State) (team n : Nat) : Option (Nat × Convoy) :=
  if n < 16 then none
  else ((s.team? team).bind Team.convoy).bind (fun k => (Tbl.look k s.convoys).map (fun c => (k, c)))

/-- Point n of a team, or of its convoy (R192). -/
def State.point (s : State) (team n : Nat) : Point :=
  match s.convoyOf team n with
  | some (_, c) => c.points.getD (n - 16) Point.reset
  | none => ((s.team? team).map (fun t => t.points.getD n Point.reset)).getD Point.reset

/-- The state with a point changed. -/
def State.updPoint (s : State) (team n : Nat) (f : Point → Point) : State :=
  match s.convoyOf team n with
  | some (k, _) => s.updConvoy k (fun c => { c with points := modAt (n - 16) f c.points })
  | none => s.updTeam team (fun t => { t with points := modAt n f t.points })

/-- The teams that use a team's point n. -/
def State.sharers (s : State) (team n : Nat) : List Nat :=
  match s.convoyOf team n with
  | some (_, c) => c.members.map Prod.snd
  | none => [team]

/-- The team sees the point through its mirror: it is on the die that is not slot 0's, in a straddling convoy (R192, R195). -/
def State.isFar (s : State) (team n : Nat) : Bool :=
  match s.convoyOf team n, s.team? team with
  | some (_, c), some t =>
    match (Tbl.look 0 c.members).bind s.team? with
    | some t0 => c.straddles && t.die != t0.die
    | none => false
  | _, _ => false

/-- A completion notice of the point is on its way (R195). -/
def State.noticed (s : State) (team n : Nat) : Bool :=
  match s.convoyOf team n with
  | some (_, c) => c.notices.getD (n - 16) false
  | none => false

/-- The parity of a point's current phase (R192). -/
def Point.parity (p : Point) : Bool := p.phase % 2 == 1

/-- The phase that is current for a team: on the far die, the mirror's (R195). -/
def State.seenPhase (s : State) (team n : Nat) : Nat :=
  let p := (s.point team n).phase
  if s.isFar team n && s.noticed team n then p - 1 else p

/-- A predicate written in the threads of a mask. -/
def Warp.setPredIn (w : Warp) (m : BitVec 32) (p : BitVec 3) (v : Bool) : Warp :=
  { w with threads := (w.threads.zipIdx).map (fun x =>
      if m.getLsbD x.2 then { x.1 with preds := setPred x.1.preds p v } else x.1) }

/-- The end of one leaf's RVWAIT: the timeout form writes its predicate; its completion is an acquire and observes
the joins of the transfers counted (R195, R237, R244). -/
def State.rvDone (s : State) (r : LeafRef) (ok : Bool) : State :=
  match (s.warp? r.team r.warp).bind (fun w => w.entry? r.leaf) with
  | some e =>
    match e.wait with
    | .rv n _ timed =>
      let s := match timed with
        | some (_, p, m) => s.updWarp r.team r.warp (fun w => w.setPredIn m p ok)
        | none => s
      let s := s.complete r 12
      if !ok then s
      else if (s.convoyOf r.team n).isSome then (s.acquire r.team (objectName 2 n)).joinEngines r.team
      else s.acquire r.team (objectName 2 n)
    | _ => s
  | none => s

/-- The leaves of teams that wait in RVWAIT as p says. -/
def State.rvWaiters (s : State) (teams : List Nat) (p : Nat → Nat → Bool) : List LeafRef :=
  (s.warps.filter (fun x => teams.contains x.2.team)).flatMap (fun x =>
    (x.2.entries.filter (fun e => match e.wait with | .rv n q _ => p n q | _ => false)).map (fun e =>
      (⟨x.2.team, x.2.index, e.id⟩ : LeafRef)))

/-- The waiters of teams on a completed phase are released. -/
def State.releasePhase (s : State) (teams : List Nat) (n : Nat) (phase : Nat) : State :=
  (s.rvWaiters teams (fun m q => m == n && q ≤ phase)).foldl (fun s r => s.rvDone r true) s

/-- The notice of a point is no longer on its way: the point begins afresh, or is invalid (R193, R196). -/
def State.dropNotice (s : State) (team n : Nat) : State :=
  match s.convoyOf team n with
  | some (k, _) => s.updConvoy k (fun c => { c with notices := modAt (n - 16) (fun _ => false) c.notices })
  | none => s

/-- A completion notice reaches the far die: the waiters there are released (R195). -/
def State.arriveNotice (s : State) (k n : Nat) : State :=
  match Tbl.look k s.convoys with
  | none => s
  | some c =>
    if !c.notices.getD (n - 16) false then s
    else
      let old := (c.points.getD (n - 16) Point.reset).phase - 1
      let s := s.updConvoy k (fun c => { c with notices := modAt (n - 16) (fun _ => false) c.notices })
      s.releasePhase ((c.members.map Prod.snd).filter (fun t => s.isFar t n)) n old

/-- Phases that complete now (R194): the parity flips, surplus arrivals carry, an overrun is posted, waiters are released;
the far die of a straddling convoy hears by a notice, an earlier notice first. -/
def State.phases (s : State) (team n : Nat) : Nat → State
  | 0 => s
  | fuel + 1 =>
    let p := s.point team n
    if !p.valid || p.arrivals < p.exp || 0 < p.balance then s
    else
      let s := match s.convoyOf team n with
        | some (k, _) => s.arriveNotice k n
        | none => s
      let s := s.updPoint team n (fun x => { x with
        phase := x.phase + 1
        arrivals := x.arrivals - x.exp
        overrun := if x.balance < 0 then some (-x.balance).toNat else x.overrun
        balance := 0 })
      let far := (s.sharers team n).filter (fun t => s.isFar t n)
      let s := match s.convoyOf team n with
        | some (k, _) =>
          if far.isEmpty then s else s.updConvoy k (fun c => { c with notices := modAt (n - 16) (fun _ => true) c.notices })
        | none => s
      (s.releasePhase ((s.sharers team n).filter (fun t => !far.contains t)) n p.phase).phases team n fuel

/-- Every phase that a change of the point completes. -/
def State.settlePoint (s : State) (team n : Nat) : State :=
  let p := s.point team n
  s.phases team n (p.arrivals / max 1 p.exp + 1)

/-- Bytes landed count down at a point, each by itself (R189, R194): the one that brings the balance to zero may complete the phase, and
those after it count against the new one. -/
def State.countBytes (s : State) (point : Option (Nat × Nat)) (k : Nat) : State :=
  match point with
  | none => s
  | some (team, n) =>
    let p := s.point team n
    let down (s : State) (k : Nat) : State := (s.updPoint team n (fun p => { p with balance := p.balance - (k : Int) })).settlePoint team n
    if !p.valid then s
    else
      let j := min k p.balance.toNat
      down (if j = 0 then s else down s j) (k - j)

/-- Copy references of a point (R192): a collective, a transfer or a drain that names it and is not complete. -/
def State.copyRefs (s : State) (team n : Nat) : Bool :=
  let ts := s.sharers team n
  s.teams.any (fun p => ts.contains p.1 && p.2.collectives.any (fun c => c.point == n))
    || s.xfers.any (fun x => match x.point with | some (t, m) => m == n && ts.contains t | none => false)
    || s.cores.any (fun p => p.2.insts.any (fun i => ts.contains i.team && i.point == some n))
    || s.dies.any (fun p => p.2.holding.any (fun h => h.drains.any (fun d => d.2.2 == some n && ts.contains d.1)))

/-! ### The rendezvous instructions (R193, R195 to R197) -/

/-- A rendezvous instruction after its operands: the point's number, a posted RVOVER, then the body. -/
def State.rendezvous (s : State) (len : Nat) (g : Guard) (n : Opnd) (extra : List Pos)
    (body : Ctx → State → Nat → Done) : Host.Outcome State Fault Refusal :=
  let pn := Pos.src 1 n n.isUniImm
  s.issue len g (pn :: extra) (fun c u =>
    let k := c.u32 c.low pn
    if 24 ≤ k then .trap (mkTrap cILLOPND (opInfo c.low 1))
    else
      match (u.point c.ref.team k).overrun with
      | some o =>
        let v := u.updPoint c.ref.team k (fun p => { p with overrun := none })
        .moved (v.deliver c.ref (mkTrap cRVOVER (k + o * 2 ^ 32)))
      | none => body c u k)

/-- The arrival bits of a point cleared in every warp of the teams that use it. -/
def State.clearArrivals (s : State) (team n : Nat) : State :=
  let ts := s.sharers team n
  { s with warps := s.warps.map (fun x =>
      if ts.contains x.2.team then (x.1, { x.2 with arrived := x.2.arrived &&& ~~~(1#24 <<< n) }) else x) }

/-- A warp's arrival bit with its phase. -/
def Warp.arrive (w : Warp) (n : Nat) (phase : Nat) : Warp :=
  { w with arrived := w.arrived ||| (1#24 <<< n), arrPhase := Tbl.put n phase w.arrPhase }

/-- RVINIT (R193, R196). -/
def execRvinit (g : Guard) (n a : Opnd) (s : State) : Host.Outcome State Fault Refusal :=
  let pa := Pos.src 2 a a.src32
  s.rendezvous 8 g n [pa] (fun c u k =>
    let v := c.u32 c.low pa
    let p := u.point c.ref.team k
    if v = 0 || 65535 < v then .trap (mkTrap cILLOPND (opInfo c.low 2))
    else if p.valid && (u.copyRefs c.ref.team k || !(u.rvWaiters (u.sharers c.ref.team k) (fun m _ => m == k)).isEmpty) then
      .trap (mkTrap cRVBUSY 0)
    else
      .next (((u.updPoint c.ref.team k (fun _ => ⟨true, v, 0, 0, 0, none⟩)).clearArrivals c.ref.team k).dropNotice c.ref.team k))

/-- RVARR (R193, R194): arrivals by thread, each a release of the point (R237). -/
def execRvarr (g : Guard) (n : Opnd) (s : State) : Host.Outcome State Fault Refusal :=
  s.rendezvous 8 g n [] (fun c u k =>
    let p := u.point c.ref.team k
    if !p.valid then .trap (mkTrap cILLOPND (opInfo c.low 1))
    else if !c.on.all (fun i => u.released c i (objectName 2 k)) then .hold .busy
    else
      let u := u.updWarp c.ref.team c.ref.warp (fun w => w.arrive k p.phase)
      let u := u.complete c.ref 8
      .moved ((u.updPoint c.ref.team k (fun p => { p with arrivals := p.arrivals + c.on.length })).settlePoint c.ref.team k))

/-- RVEXP (R193). -/
def execRvexp (g : Guard) (n a : Opnd) (s : State) : Host.Outcome State Fault Refusal :=
  let pa := Pos.src 2 a a.src32
  s.rendezvous 8 g n [pa] (fun c u k =>
    let v := c.u32 c.low pa
    let p := u.point c.ref.team k
    if !p.valid then .trap (mkTrap cILLOPND (opInfo c.low 1))
    else if ((2 ^ 32 - 1 : Nat) : Int) < p.balance + (v : Int) then .trap (mkTrap cILLOPND (opInfo c.low 2))
    else
      let u := u.complete c.ref 8
      .moved ((u.updPoint c.ref.team k (fun p => { p with balance := p.balance + (v : Int) })).settlePoint c.ref.team k))

/-- RVWAIT in either form (R195): the phase in which the warp arrived, else the current one. -/
def State.rvwait (u : State) (c : Ctx) (k : Nat) (timed : Option (Nat × BitVec 3 × BitVec 32)) : Done :=
  let p := u.point c.ref.team k
  if !p.valid then .trap (mkTrap cILLOPND (opInfo c.low 1))
  else
    let had := c.warp.arrived.getLsbD k
    let seen := u.seenPhase c.ref.team k
    let phase := if had then Tbl.get c.warp.arrPhase k 0 else seen
    let u := u.updWarp c.ref.team c.ref.warp (fun w => { w with arrived := w.arrived &&& ~~~(1#24 <<< k) })
    let u := u.block c.ref (.rv k phase timed)
    if phase < seen then .moved (u.rvDone c.ref true)
    else .block u

/-- RVWAIT. -/
def execRvwaitPlain (g : Guard) (n : Opnd) (s : State) : Host.Outcome State Fault Refusal :=
  s.rendezvous 12 g n [] (fun c u k => u.rvwait c k none)

/-- RVWAIT with a timeout. -/
def execRvwaitTimed (g : Guard) (n a : Opnd) (p : BitVec 3) (x : XCtl) (s : State) : Host.Outcome State Fault Refusal :=
  let pa := (Pos.src 2 a a.src32).withIx x
  s.rendezvous 12 g n [pa] (fun c u k =>
    let v := c.u32 c.low pa
    if v = 0 then .trap (mkTrap cILLOPND (opInfo c.low 2))
    else u.rvwait c k (some (v, p, maskOf c.on)))

/-- RVINV (R193, R196): blocked waiters are released, the timeout form's predicate cleared. -/
def execRvinv (g : Guard) (n : Opnd) (s : State) : Host.Outcome State Fault Refusal :=
  s.rendezvous 8 g n [] (fun c u k =>
    if u.copyRefs c.ref.team k then .trap (mkTrap cRVBUSY 0)
    else
      let ts := u.sharers c.ref.team k
      let u := ((u.updPoint c.ref.team k (fun p => { p with valid := false })).clearArrivals c.ref.team k).dropNotice c.ref.team k
      .next ((u.rvWaiters ts (fun m _ => m == k)).foldl (fun u r => u.rvDone r false) u))

/-! ### Rings (R198 to R200, R370) -/

/-- Slots filled and not released, in reservation order. -/
def Ring.filled (r : Ring) : Nat := (r.fills.takeWhile RingFill.full).length

/-- The header that mirrors a ring (R198). -/
def Ring.header (r : Ring) : List Byte :=
  natLe 16 (r.size / 16 * 2 ^ 96 + r.slots * 2 ^ 88 + r.res * 2 ^ 80 + r.wp * 2 ^ 72 + r.rp * 2 ^ 64)

/-- The offset of a slot. -/
def Ring.slotAt (r : Ring) (slot : Nat) : Nat := r.off + 16 + slot * r.size

/-- A team's live ring at an offset. -/
def Team.ring? (t : Team) (off : Nat) : Option Ring := t.rings.find? (fun r => r.off == off)

/-- Ring headers are written over what a store left in them (R198). -/
def Team.mirrorRings (t : Team) : Team := { t with loc := t.rings.foldl (fun m r => m.write r.off r.header) t.loc }

/-- A team with a ring changed and its header mirrored. -/
def Team.setRing (t : Team) (r : Ring) : Team :=
  let t := { t with rings := if t.rings.any (fun x => x.off == r.off) then mapIf (fun x => x.off == r.off) (fun _ => r) t.rings
                             else t.rings ++ [r] }
  { t with loc := t.loc.write r.off r.header }

/-- WP stands after the slots filled in order (R200). -/
def Ring.advance (r : Ring) : Ring := { r with wp := (r.rp + r.filled) % max 1 r.slots }

/-- One value written in slices of the threads of a mask, its window choices taken at a count of free values. -/
def Warp.writeIn (w : Warp) (fresh : Nat) (m : BitVec 32) (start n v : Nat) : Warp :=
  { w with threads := (w.threads.zipIdx).map (fun x =>
      if m.getLsbD x.2 then
        Thread.write x.1 (fun slice => Config.windowPick fresh (slice + 512 * x.2)) start n v
      else x.1) }

/-- The RWAITs of a team on a ring that holds a filled slot return with its offset (R200); the slot is joined. -/
def State.wakeRing (s : State) (team off : Nat) : State :=
  match s.team? team with
  | none => s
  | some t =>
    match t.ring? off with
    | none => s
    | some r =>
      if r.filled = 0 then s
      else
        (s.warpsOf team).foldl (fun s w =>
          (w.entries.foldl (fun s e =>
            match e.wait with
            | .ring o d m =>
              if o = off then
                let v := r.slotAt r.rp
                let s := s.updWarp team w.index (fun w =>
                  match d with
                  | .uni k => w.setUniIn e.handler k.toNat v
                  | .reg q st => w.writeIn s.fresh m st.toNat q.slices v
                  | .imm _ => w)
                (({ s with fresh := s.fresh + 1 } : State).complete ⟨team, w.index, e.id⟩ 8).acquire team (objectName 3 off)
              else s
            | _ => s) s)) s

/-- The credits of a ring in a counter-mode convoy (R202): RINIT sets them to S at every sender. -/
def Convoy.setCredits (c : Convoy) (receiver off n : Nat) : Convoy :=
  { c with credits := c.credits.filter (fun x => !(x.2.1 == receiver && x.2.2.1 == off))
      ++ c.members.map (fun m => (m.1, receiver, off, n)) }

/-- One credit of a sender changed by d. -/
def Convoy.addCredit (c : Convoy) (sender receiver off : Nat) (d : Int) : Convoy :=
  { c with
    credits := mapIf (fun x => x.1 == sender && x.2.1 == receiver && x.2.2.1 == off)
      (fun x => (x.1, x.2.1, x.2.2.1, ((x.2.2.2 : Int) + d).toNat)) c.credits }

/-- A sender's credit. -/
def Convoy.credit (c : Convoy) (sender receiver off : Nat) : Nat :=
  ((c.credits.find? (fun x => x.1 == sender && x.2.1 == receiver && x.2.2.1 == off)).map (fun x => x.2.2.2)).getD 0

/-- RINIT (R199, R370). -/
def execRinit (g : Guard) (o n z : Opnd) (s : State) : Host.Outcome State Fault Refusal :=
  let po := Pos.src 1 o o.src32
  let pn := Pos.src 2 n n.src32
  let pz := Pos.src 3 z z.src32
  s.issue 12 g [po, pn, pz] (fun c u =>
    let off := c.u32 c.low po
    let cnt := c.u32 c.low pn
    let sz := c.u32 c.low pz
    let bad (p : Nat) : Done := .trap (mkTrap cILLOPND (opInfo c.low p))
    let old := c.team.ring? off
    if off % 16 != 0 || bitOf off 24 then bad 1
    else if cnt < 2 || 64 < cnt then bad 2
    else if sz < 16 || 65536 < sz || sz % 16 != 0 then bad 3
    else if (match old with | some r => !r.fills.isEmpty | none => 8 ≤ c.team.rings.length) then bad 1
    else if c.team.lstore < off + 16 + cnt * sz then .trap (mkTrap cLSBOUND 0)
    else
      let u := u.updTeam c.ref.team (fun t => t.setRing ⟨off, cnt, sz, 0, 0, 0, []⟩)
      .next (match c.team.convoy with
        | some k => u.updConvoy k (fun v => v.setCredits c.team.slot off cnt)
        | none => u))

/-- RWAIT (R200, R370). -/
def execRwait (g : Guard) (d o : Opnd) (s : State) : Host.Outcome State Fault Refusal :=
  let pd := Pos.dst d d.reg32
  let po := Pos.src 1 o o.src32
  s.issue 8 g [pd, po] (fun c u =>
    let off := c.u32 c.low po
    match c.team.ring? off with
    | none => .trap (mkTrap cILLOPND (opInfo c.low 1))
    | some _ => .block ((u.block c.ref (.ring off d (maskOf c.on))).wakeRing c.ref.team off))

/-- RREL (R200, R202, R370): the oldest filled slot is released, and its credit returns to the sender. -/
def execRrel (g : Guard) (o : Opnd) (s : State) : Host.Outcome State Fault Refusal :=
  let po := Pos.src 1 o o.src32
  s.issue 8 g [po] (fun c u =>
    let off := c.u32 c.low po
    match c.team.ring? off with
    | none => .trap (mkTrap cILLOPND (opInfo c.low 1))
    | some r =>
      if r.filled = 0 then .trap (mkTrap cILLOPND (opInfo c.low 1))
      else if !u.released c c.low (objectName 3 off) then .hold .busy
      else
        let r2 : Ring := { r with rp := (r.rp + 1) % r.slots, fills := r.fills.drop 1 }
        let u := u.updTeam c.ref.team (fun t => t.setRing r2)
        .next (match c.team.convoy, (r.fills.head?).bind RingFill.sender with
          | some k, some f => u.updConvoy k (fun v => v.addCredit f c.team.slot off 1)
          | _, _ => u))

/-! ### CPWAIT (R331) -/

/-- Collectives that a warp contributed to and that are incomplete (R331). -/
def State.openCopies (s : State) (team warp : Nat) : Nat :=
  ((s.team? team).map (fun t => (t.collectives.filter (fun c => c.slices.any (fun x => x.warp == warp))).length)).getD 0
    + (s.xfers.filter (fun x =>
        x.team == some team && x.warps.contains warp && (match x.kind with | .copy _ => true | _ => false))).length

/-- CPWAIT (R331), a deprecated opcode: each issue counts in DEPCNT (R102). -/
def execCpwait (g : Guard) (k : Opnd) (s : State) : Host.Outcome State Fault Refusal :=
  let pk := Pos.src 1 k k.isUniImm
  s.issueWith true 8 g [pk] (fun c u =>
    let u := u.bumpDie c.team.die 0x108 1
    if c.on.isEmpty then .next u
    else if 255 < c.u32 c.low pk then .trap (mkTrap cILLOPND (opInfo c.low 1))
    else if c.u32 c.low pk < u.openCopies c.ref.team c.ref.warp then .hold .busy
    else .next u)

end Sys2Proof.Machine
end

