-- ==== Sys2Proof/Machine/Copy.lean ====
section
/-! DEFINITION. Copies: COPY and COPYM, the transfers of the engines and how their bytes land, ring fills, multicast
buffers, messages sent, and faults after issue (spec/10 R186 to R191, R200 to R204, spec/13 R258, R260). -/

namespace Sys2Proof.Machine

/-! ### Transfers -/

/-- A transfer by name. -/
def State.xfer? (s : State) (id : Nat) : Option Xfer := s.xfers.find? (fun x => x.id == id)

/-- The state with a transfer changed. -/
def State.updXfer (s : State) (id : Nat) (f : Xfer → Xfer) : State := { s with xfers := mapIf (fun x => x.id == id) f s.xfers }

/-- The state without a transfer, and without the faults that wait on it. -/
def State.delXfer (s : State) (id : Nat) : State :=
  ({ s with xfers := s.xfers.filter (fun x => x.id != id) } : State).mapDies (fun x => { x with
    faults := x.faults.filter (fun f => match f.who with | .xfer i _ _ => i != id | _ => true) })

/-- Bytes of a slice that have landed. -/
def XSlice.landedBytes (x : XSlice) : Nat := (x.landed.map Prod.snd).foldl (· + ·) 0

/-- Every byte of a slice has landed. -/
def XSlice.complete (x : XSlice) : Bool := x.len ≤ x.landedBytes

/-- Source offset of byte k: strided for a scale load (R120, R121). -/
def XSlice.srcOff (x : XSlice) (k : Nat) : Nat :=
  match x.dst with
  | .scl _ _ layout =>
    let v := layout.toNat
    let kblk := max 1 (bitsOf v 47 32)
    k / kblk * bitsOf v 127 96 + k % kblk * bitsOf v 95 64
  | _ => k

/-- The loads, stores and atomics of a unit's threads that are named before `id`, and the stores published to it, are performed (R232,
R244). -/
def State.earlierClear (s : State) (u : ScopeUnit) (id : Nat) : Bool :=
  !s.storesLeft.any (fun b => s.precedes b u id)
    && !s.atoms.any (fun a => a.id < id
        && a.threads.any (fun t => t.old.isNone && !t.bad && u.has ⟨a.leaf.team, a.leaf.warp, t.thread⟩))
    && !s.cores.any (fun k => k.2.loads.any (fun l => l.id < id
        && l.threads.any (fun t => t.cells.any (fun x => x.2.isNone) && u.has ⟨l.team, l.warp, t.thread⟩)))

/-- The accesses that precede a transfer's fork are performed: those of every warp that contributes, up to the start of the
collective (R187, R244). -/
def State.forkClear (s : State) (x : Xfer) : Bool :=
  match x.team with
  | none => true
  | some t => x.slices.all (fun sl => s.earlierClear (.warp t sl.warp) sl.since)

/-- The fault word of a refusal that is no translation fault (log 25). -/
def State.refusedWord (s : State) (va : Nat) (write : Bool) : Word64 :=
  BitVec.ofNat 64 (va % 2 ^ 56 + (Config.openFault s.fresh).toNat * 2 ^ 56 + (if write then 2 ^ 62 else 0))

/-- The source code of a transfer's faults (R258). -/
def XferKind.source : XferKind → Nat
  | .copy _ => 3 | .fill => 3 | .copym => 4 | .mldb => 5 | .mlds => 6 | .drainSt => 0xA | .drainAdd _ => 2
  | .copyback _ _ => 7 | .node _ _ => 8

/-! ### Rings filled (R200) -/

/-- A fill reserves slot RES of a ring (R200). -/
def State.reserveSlot (s : State) (team off xfer : Nat) (sender : Option Nat) : Option (Nat × State) :=
  match (s.team? team).bind (fun t => t.ring? off) with
  | some r =>
    if r.fills.length < r.slots then
      some (r.res, s.updTeam team (fun t =>
        t.setRing { r with res := (r.res + 1) % r.slots, fills := r.fills ++ [⟨r.res, xfer, false, sender⟩] }))
    else none
  | none => none

/-- A fill has landed: its slot becomes filled, WP advances in reservation order, RWAITs return (R200). -/
def State.slotFilled (s : State) (team off xfer : Nat) : State :=
  match (s.team? team).bind (fun t => t.ring? off) with
  | some r =>
    let r := { r with fills := mapIf (fun f => f.xfer == xfer) (fun f => { f with full := true }) r.fills }
    (s.updTeam team (fun t => t.setRing r.advance)).wakeRing team off
  | none => s

/-! ### The end of a transfer -/

/-- An add-on-store to memory, which its launch's COUNT holds (R40, R147). -/
def Xfer.counted (x : Xfer) : Bool :=
  (match x.kind with | .drainAdd _ => true | _ => false) && x.slices.any (fun sl => match sl.dst with | .mem _ => true | _ => false)

/-- A transfer all of whose bytes have landed: its slot fills, an add-on-store leaves its launch's COUNT; a copy-back and a
graph copy node wait for their own steps. -/
def State.finishXfer (s : State) (x : Xfer) : State :=
  if !x.slices.all XSlice.complete then s
  else
    match x.kind with
    | .copyback _ _ | .node _ _ => s
    | _ =>
      let s := s.delXfer x.id
      let s := if x.counted then s.countDown x.launch 1 else s
      match x.ring with
      | some (team, off, _, _) => s.slotFilled team off x.id
      | none => s

/-- An unrecoverable fault stops a transfer (R189, R260): landed bytes stay, its launch completes FAULTED with the address
recorded and is cancelled; an add-on-store leaves COUNT. A copy-back or a graph copy node ends in its own step. -/
def State.failXfer (s : State) (x : Xfer) (info : Word64) : State :=
  match x.kind with
  | .node _ _ => s.updXfer x.id (fun x => { x with stopped := true })
  | .copyback _ _ => ((s.updXfer x.id (fun x => { x with stopped := true })).launchFault x.launch info).cancelEntry x.launch
  | _ =>
    let s := s.delXfer x.id
    let s := s.launchFault x.launch info
    let s := if x.counted then s.countDown x.launch 1 else s
    let held := x.slices.filterMap (fun sl => match sl.dst with | .hold t => some t | _ => none)
    let s := s.mapDies (fun y => { y with holding := y.holding.filter (fun t => !held.contains t.id) })
    s.cancelEntry x.launch

/-- The slices of the agent that slice i belongs to: a COPY slice alone, every slice of any other operation (R258). -/
def Xfer.onAgent (x : Xfer) (i : Nat) (f : XSlice → XSlice) : Xfer :=
  { x with slices := match x.kind with | .copy _ => modAt i f x.slices | _ => x.slices.map f }

/-- A replayable fault of a page of a slice waits for the driver; with the fault queue disabled it is unrecoverable at once
(R189, R258, R260). -/
def State.xferFault (s : State) (x : Xfer) (i : Nat) (va : Nat) (info : Word64) : State :=
  if !s.ringOn x.die 0 then s.failXfer x info
  else
    let s := s.updXfer x.id (fun x => x.onAgent i (fun sl => { sl with faults := sl.faults ++ [va / 65536] }))
    let num := (x.team.bind s.team?).map Team.num
    let warp := match x.team, x.slices[i]? with
      | some t, some sl => (s.warp? t sl.warp).map (fun w => (w.index, w.lane))
      | _, _ => none
    s.updDie x.die (fun d => { d with
      faults := d.faults ++ [⟨.xfer x.id i (va / 65536), info, x.launch, faultSource x.kind.source info, x.asid, x.core, num, warp, none⟩] })

/-! ### Bytes land (R189) -/

/-- A part of an end in memory: its physical addresses and lines, page by page, or why the first page that fails cannot be reached. -/
def State.endCells (s : State) (x : Xfer) (vas : List Nat) (need : Need) : Cells :=
  let pages := (vas.map (· / 65536)).eraseDups
  let at_ (g : Nat) : List Nat := vas.filter (fun v => v / 65536 == g)
  let got := pages.map (fun g =>
    let v0 := (at_ g).headD 0
    (g, v0, s.engineXlate x.die x.core x.asid v0 need x.secure))
  match got.findSome? (fun p => match p.2.2 with
      | .ok _ => none | .miss => some (Cells.miss p.2.1) | .fault i => some (Cells.fault i) | .world => some Cells.world) with
  | some c => c
  | none =>
    let ok := got.filterMap (fun p => match p.2.2 with | .ok y => some (p.1, p.2.1, y) | _ => none)
    .ok (vas.map (fun v => ((ok.find? (fun p => p.1 == v / 65536)).map (fun p => p.2.2.pa + v - p.2.1)).getD 0))
      (ok.flatMap (fun p => linesOf p.2.2 x.asid p.2.1 (((at_ p.1).map (fun v => v - p.2.1)).foldl max 0 + 1)))

/-- The virtual addresses that a part of a slice reads, or writes, in memory. -/
def XSlice.vas (x : XSlice) (src : Bool) (off len : Nat) : List Nat :=
  match (if src then x.src else x.dst) with
  | .mem va => (List.range len).map (fun k => va + (if src then x.srcOff (off + k) else off + k))
  | _ => []

/-- Requests of the lines that a part of a slice touches for the first time (R178). -/
def State.countLines (s : State) (x : Xfer) (sl : XSlice) (src : Bool) (lines : List LineAt) : State :=
  let before := sl.landed.flatMap (fun r => (sl.vas src r.1 r.2).map (· / 128))
  (distinctLines lines).foldl (fun s l =>
    if before.contains (l.va / 128) then s else (s.countReq x.die l).touchHome l) s

/-- The bytes that a part of a slice reads. -/
def State.readPart (s : State) (sl : XSlice) (pas : List Nat) (off len : Nat) : List Byte :=
  match sl.src with
  | .mem _ => pas.map s.physByte
  | .loc t o => match s.team? t with
    | some y => (List.range len).map (fun k => y.loc.byte (o + sl.srcOff (off + k)))
    | none => []
  | .data b => (b.drop off).take len
  | _ => []

/-- The bytes of a part of a slice written at its destination. -/
def State.writePart (s : State) (x : Xfer) (sl : XSlice) (pas : List Nat) (off : Nat) (bytes : List Byte) : State :=
  match sl.dst with
  | .mem _ =>
    let s := s.writeHome (pas.zip bytes)
    s.updCore x.die x.core (fun k => { k with l1 := k.l1.filter (fun l => !pas.any (fun p => p / 128 == l.at_.line)) })
  | .loc t o =>
    let base := match x.ring, x.slot with
      | some (rt, hdr, _, _), some slot => (((s.team? rt).bind (fun y => y.ring? hdr)).map (fun r => r.slotAt slot)).getD 0
      | _, _ => 0
    s.updTeam t (fun y => { y with loc := y.loc.write (base + o + off) bytes })
  | .bst t o => s.updTeam t (fun y => { y with bbytes := y.bbytes.write (o + off) bytes })
  | .scl t b _ => s.updTeam t (fun y => { y with sbytes := y.sbytes.write (b + off) bytes })
  | .hold tile =>
    s.mapDies (fun y => { y with holding := mapIf (fun h => h.id == tile) (fun h => { h with bytes := bytes }) y.holding })
  | _ => s

/-- A circuit takes new messages: it is live and not being torn down (R280). -/
def State.circuitLive (s : State) (c : Nat) : Bool := (s.word (0x3000 + c)).getLsbD 62 && (s.word (0x3000 + c)).getLsbD 63

/-- A part of a slice lands: its faults and refusals stop it, among them an internal circuit that is not live (R280); else the bytes
are moved and counted. -/
def State.landPart (s : State) (x : Xfer) (i : Nat) (sl : XSlice) (off len : Nat) : State :=
  let s : State := { s with fresh := s.fresh + 1 }
  let rv := sl.vas true off len
  let wv := sl.vas false off len
  let refuse (va : Nat) (write : Bool) : State := s.failXfer x (s.refusedWord va write)
  match s.endCells x rv ⟨true, false, false⟩, s.endCells x wv ⟨false, true, false⟩ with
  | .fault e, _ => s.xferFault x i (bitsOf e.toNat 55 0) e
  | .world, _ => refuse (rv.headD 0) false
  | _, .fault e => s.xferFault x i (bitsOf e.toNat 55 0) e
  | _, .world => refuse (wv.headD 0) true
  | .ok rp rl, .ok wp wl =>
    if !s.reaches x.die rp then refuse (rv.headD 0) false
    else if !s.reaches x.die wp then refuse (wv.headD 0) true
    else
    match sl.dst with
    | .msg c tag =>
      if !s.circuitLive c then refuse (rv.headD 0) false
      else
        let (id, s) := s.takeId
        let s := s.countLines x sl true rl
        let m : OutMessage := ⟨id, c, tag, s.pkgId, s.readPart sl rp off len, x.secure, x.id, i⟩
        { s with outbox := s.outbox ++ [m] }
    | _ =>
      let s := (s.countLines x sl true rl).countLines x sl false wl
      let s := s.writePart x sl wp off (s.readPart sl rp off len)
      let s := s.updXfer x.id (fun x => { x with
        slices := modAt i (fun sl => { sl with landed := sl.landed ++ [(off, len)] }) x.slices })
      let s := s.countBytes x.point len
      match s.xfer? x.id with
      | some y => s.finishXfer y
      | none => s
  | _, _ => s

/-- A part of a slice may land now: within the slice and one page of each end, none of it landed, its page not waiting on a
fault, its ring slot taken, the accesses before the fork performed, its destination page not moving; a message and a
holding-buffer copy go whole. -/
def State.canLand (s : State) (x : Xfer) (sl : XSlice) (off len : Nat) : Bool :=
  let rv := sl.vas true off len
  let wv := sl.vas false off len
  let whole := match sl.dst with | .msg _ _ | .hold _ => true | _ => false
  let onePage (l : List Nat) : Bool := l.all (fun v => (whole || v / 65536 == l.headD 0 / 65536) && !sl.faults.contains (v / 65536))
  0 < len && off + len ≤ sl.len && !x.stopped && s.forkClear x
    && !sl.landed.any (fun r => overlap r.1 r.2 off len)
    && onePage rv && onePage wv && (x.ring.isNone || x.slot.isSome)
    && (match sl.dst with
        | .msg _ _ => off == 0 && len == sl.len && !s.outbox.any (fun m => m.xfer == x.id && (x.slices[m.slice]? == some sl))
        | .hold _ => off == 0 && len == sl.len
        | _ => true)
    && (match s.endCells x wv ⟨false, true, false⟩ with
        | .ok pas _ => !pas.any s.pageMoving
        | _ => true)

/-! ### COPY (R187, R188, R191) -/

/-- A team's gathering collective that an issue joins (R187). -/
def Team.gathering (t : Team) (point warp : Nat) : Option Collective :=
  t.collectives.find? (fun c => c.point == point && (point != 31 || c.warp == warp))

/-- A collective starts with its slices, its fork at the start for every warp that contributed (R187, R189). -/
def State.startCollective (s : State) (c : Ctx) (x : Collective) : State :=
  let (id, s) := s.takeId
  let point := if x.point = 31 then none else some (c.ref.team, x.point)
  let ring := match x.dir with | .gr => some (c.ref.team, x.header, 0, none) | _ => none
  { s with xfers := s.xfers ++ [⟨id, .copy x.dir, some c.ref.team, x.slices.map XSlice.warp, c.team.launch, c.team.die, c.team.core,
      c.launch.asid, c.launch.secure, point, ring, none, x.slices.map (fun y => { y with since := s.nextId }), false⟩] }

/-- A slice arrives at its collective, which starts with its last one (R187). -/
def State.contribute (s : State) (c : Ctx) (point nw : Nat) (dir : CopyDir) (header : Nat) (sl : XSlice) : State :=
  let col := match c.team.gathering point c.ref.warp with
    | some x => { x with slices := x.slices ++ [sl] }
    | none => ⟨point, c.ref.warp, dir, nw, header, 0, [sl]⟩
  let rest := c.team.collectives.filter (fun x => !(x.point == point && (point != 31 || x.warp == c.ref.warp)))
  if nw ≤ col.slices.length then (s.updTeam c.ref.team (fun t => { t with collectives := rest })).startCollective c col
  else s.updTeam c.ref.team (fun t => { t with collectives := rest ++ [col] })

/-- A point number that a transfer may not name: 24 to 30, or an invalid one (R188). -/
def State.pointBad (s : State) (team point : Nat) : Bool :=
  point != 31 && (24 ≤ point || !(s.point team point).valid)

/-- COPY (R187 to R191). Its lookahead checks nothing. -/
def execCopy (g : Guard) (la : BitVec 4) (dir : CopyDir) (dest frm o : Opnd) (lenm : BitVec 16) (pt : BitVec 5)
    (nwm : BitVec 6) (soff : BitVec 12) (s : State) : Host.Outcome State Fault Refusal :=
  let _ := la
  let lg := dir == .lg
  let local32 (x : Opnd) : Bool := x.reg32
  let pt0 := Pos.src 0 dest (match dir with | .lg => dest.isCap | .gx => dest.isD64 | _ => local32 dest)
  let pt1 := Pos.src 1 frm (if lg then local32 frm else frm.isCap)
  let pt2 := Pos.src 2 o o.src3264
  let len := (lenm.toNat + 1) * 16
  let nw := nwm.toNat + 1
  let point := pt.toNat
  s.issue 16 g [pt0, pt1, pt2] (fun c u =>
    let i := c.low
    let pc := if lg then pt0 else pt1
    let pl := if lg then pt1 else pt0
    let k := c.cap i pc
    let va : Int := k.base + c.signed i pt2
    let off := c.u32 i pl
    let bad (p : Nat) : Done := .trap (mkTrap cILLOPND (opInfo i p))
    let ring := c.team.ring? off
    let col := c.team.gathering point c.ref.warp
    let desc := c.raw i pt0
    if (u.warpsOf c.ref.team).length < nw || u.pointBad c.ref.team point then .trap (mkTrap cILLOPND 0)
    else if va % 16 != 0 then bad 2
    else if dir != .gx && off % 16 != 0 then bad pl.n
    else if dir == CopyDir.gr && (match ring with | some r => r.size < soff.toNat * 16 + len | none => true) then bad 0
    else if (match col with
        | some x => x.nw != nw || x.dir != dir || (dir == CopyDir.gr && x.header != off) || x.slices.any (fun y => y.warp == c.ref.warp)
        | none => false) then .trap (mkTrap cILLOPND 0)
    else
      let req : AccReq := ⟨i, k, c.capTag i pc, va, len, none, false, if lg then pST else pLD, ⟨true, false, false⟩⟩
      match req.check with
      | some t => .trap t
      | none =>
        let mem := XEnd.mem va.toNat
        match dir with
        | .gl | .lg =>
          match u.lsTarget c off len with
          | none => .trap (mkTrap cLSBOUND 0)
          | some (tm, o) =>
            let sl : XSlice := ⟨c.ref.warp, if lg then .loc tm o else mem, if lg then mem else .loc tm o, len, u.nextId, [], []⟩
            .next (u.contribute c point nw dir 0 sl)
        | .gr => .next (u.contribute c point nw dir off ⟨c.ref.warp, mem, .loc c.ref.team (soff.toNat * 16), len, u.nextId, [], []⟩)
        | .gx =>
          if bitsOf desc 31 10 != 0 || !(u.word (0x3000 + bitsOf desc 9 0)).getLsbD 61 then bad 0
          else .next (u.contribute c point nw dir 0
            ⟨c.ref.warp, mem, .msg (bitsOf desc 9 0) (BitVec.ofNat 32 (bitsOf desc 63 32)), len, u.nextId, [], []⟩))

/-! ### COPYM (R201, R202) -/

/-- Bytes of a die's holding buffer (R202). -/
def holdSize : Nat := 262144

/-- Room for a tile in a die's holding buffer. -/
def Die.holdRoom (d : Die) (len : Nat) : Bool := (d.holding.map HeldTile.len).foldl (· + ·) 0 + len ≤ holdSize

/-- The receivers of a mask: slot and team; none where a set bit names an empty slot. -/
def Convoy.receivers (c : Convoy) (mask : BitVec 16) : Option (List (Nat × Nat)) :=
  ((List.range 16).filter (fun b => mask.getLsbD b)).mapM (fun b => (Tbl.look b c.members).map (fun t => (b, t)))

/-- A multicast issued (R201, R202): a fill at each receiver, for a credit each, or one copy into the holding buffer of each
receiver's die. -/
def State.multicast (s : State) (c : Ctx) (k : Nat) (v : Convoy) (rs : List (Nat × Nat)) (off len point : Nat) (src : XEnd) :
    Option State :=
  let pt (t : Nat) : Option (Nat × Nat) := if point = 31 then none else some (t, point)
  let xfer (id : Nat) (p : Option (Nat × Nat)) (ring : Option (Nat × Nat × Nat × Option Nat)) (dst : XEnd) : Xfer :=
    ⟨id, .copym, some c.ref.team, [c.ref.warp], c.team.launch, c.team.die, c.team.core, c.launch.asid, c.launch.secure, p, ring, none,
      [⟨c.ref.warp, src, dst, len, s.nextId, [], []⟩], false⟩
  if v.holding then
    let dieOf (t : Nat) : Nat := ((s.team? t).map Team.die).getD 0
    let dies := (List.range 9).filter (fun d => rs.any (fun r => dieOf r.2 == d))
    if !dies.all (fun d => (s.die d).holdRoom len) then none
    else
      let (id, s) := s.takeId
      let s := dies.foldl (fun s d => s.updDie d (fun x => { x with
        holding := x.holding ++ [⟨id, k, c.ref.team, len, [], (rs.filter (fun r => dieOf r.2 == d)).map (fun r =>
          (r.2, off, if point = 31 then none else some point))⟩] })) s
      let (x, s) := s.takeId
      some { s with xfers := s.xfers ++ [xfer x none none (.hold id)] }
  else if rs.any (fun r => v.credit c.team.slot r.1 off == 0) then none
  else
    let s := s.updConvoy k (fun v => rs.foldl (fun v r => v.addCredit c.team.slot r.1 off (-1)) v)
    some (rs.foldl (fun s r =>
      let (x, s) := s.takeId
      { s with xfers := s.xfers ++ [xfer x (pt r.2) (some (r.2, off, 0, some c.team.slot)) (.loc r.2 0)] }) s)

/-- COPYM (R201, R202). Its lookahead checks nothing. -/
def execCopym (g : Guard) (la : BitVec 4) (sk : Bool) (dest frm : Opnd) (o : Option Opnd) (lenm : BitVec 16) (pt : BitVec 5)
    (mask : BitVec 16) (s : State) : Host.Outcome State Fault Refusal :=
  let _ := la
  let p0 := Pos.src 0 dest dest.reg32
  let p1 := Pos.src 1 frm (if sk then frm.reg32 else frm.isCap)
  let p2 := o.map (fun x => Pos.src 2 x x.src3264)
  let len := (lenm.toNat + 1) * 16
  let point := pt.toNat
  s.issue 16 g ([p0, p1] ++ p2.toList) (fun c u =>
    let i := c.low
    let off := c.u32 i p0
    let k := c.cap i p1
    let va : Int := k.base + (match p2 with | some p => c.signed i p | none => 0)
    let from_ := c.u32 i p1
    let bad (p : Nat) : Done := .trap (mkTrap cILLOPND (if p = 4 then 0 else opInfo i p))
    match c.team.convoy.bind (fun n => (Tbl.look n u.convoys).map (fun v => (n, v))) with
    | none => bad 4
    | some (n, v) =>
      match v.receivers mask with
      | none => bad 4
      | some rs =>
        if rs.isEmpty || rs.any (fun r => u.pointBad r.2 point) then bad 4
        else if rs.any (fun r => match (u.team? r.2).bind (fun t => t.ring? off) with | some q => q.size < len | none => true) then bad 0
        else if (if sk then from_ % 16 != 0 else va % 16 != 0) then bad (if sk then 1 else 2)
        else
          let req : AccReq := ⟨i, k, c.capTag i p1, va, len, none, false, pLD, ⟨true, false, false⟩⟩
          match (if sk then none else req.check), (if sk then u.lsTarget c from_ len else some (0, 0)) with
          | some t, _ => .trap t
          | none, none => .trap (mkTrap cLSBOUND 0)
          | none, some (tm, lo) =>
            match u.multicast c n v rs off len point (if sk then .loc tm lo else .mem va.toNat) with
            | some w => .next w
            | none => .hold .busy)

/-! ### Events of the copy engines -/

/-- COPY_BYTES_LAND (R189): a part of a slice lands, or meets its fault. -/
def execCopyBytesLand (xfer slice off len : Nat) (s : State) : Host.Outcome State Fault Refusal :=
  match s.xfer? xfer with
  | some x =>
    match x.kind, x.slices[slice]? with
    | .drainAdd _, _ => s.noEvent
    | _, some sl => if s.canLand x sl off len then .next (s.landPart x slice sl off len) else s.noEvent
    | _, none => s.noEvent
  | none => s.noEvent

/-- RING_SLOT_RESERVE (R200): the oldest fill that waits for a ring takes slot RES once it is free. -/
def execRingSlotReserve (xfer : Nat) (s : State) : Host.Outcome State Fault Refusal :=
  match s.xfer? xfer with
  | some x =>
    match x.ring, x.slot with
    | some (team, off, _, sender), none =>
      let first := s.xfers.find? (fun y => y.slot.isNone && (match y.ring with | some (t, o, _, _) => t == team && o == off | none => false))
      if first.map Xfer.id == some xfer then
        match s.reserveSlot team off xfer sender with
        | some (slot, s) => .next (s.updXfer xfer (fun x => { x with slot := some slot }))
        | none => s.noEvent
      else s.noEvent
    | _, _ => s.noEvent
  | none => s.noEvent

/-- The oldest complete copy that a die holds for a team whose ring there has a free slot, with its drain (R202). -/
def State.drainable (s : State) (die team : Nat) : Option (HeldTile × Nat × Option Nat) :=
  (s.die die).holding.findSome? (fun h =>
    if h.bytes.length < h.len then none
    else (h.drains.find? (fun d => d.1 == team
        && (((s.team? team).bind (fun t => t.ring? d.2.1)).any (fun r => r.fills.length < r.slots)))).map (fun d => (h, d.2)))

/-- MULTICAST_BUFFER_DRAIN (R202): a receiver drains its oldest copy that finds a free slot; the buffer frees after the last drain. -/
def execMulticastBufferDrain (die team : Nat) (s : State) : Host.Outcome State Fault Refusal :=
  match s.drainable die team, s.team? team with
  | some (h, off, point), some t =>
    if !t.state.holds then s.noEvent
    else
      let (id, s) := s.takeId
      match s.reserveSlot team off id none with
      | some (slot, s) =>
        let at_ := (((s.team? team).bind (fun y => y.ring? off)).map (fun r => r.slotAt slot)).getD 0
        let s := s.updTeam team (fun y => { y with loc := y.loc.write at_ h.bytes })
        let s := s.updDie die (fun d => { d with
          holding := (mapIf (fun x => x.id == h.id)
            (fun x => { x with drains := dropFirst (fun e => e.1 == team && e.2.1 == off) x.drains }) d.holding).filter (fun x => !x.drains.isEmpty) })
        .next ((s.slotFilled team off id).countBytes (point.map (fun n => (team, n))) h.len)
      | none => s.noEvent
  | _, _ => s.noEvent

/-- The engine that sent a message: die and core of its transfer. -/
def State.senderOf (s : State) (m : OutMessage) : Option (Nat × Nat) := (s.xfer? m.xfer).map (fun x => (x.die, x.core))

/-- MESSAGE_ACK (R191): the acknowledgement counts the slice's bytes down; an engine's messages on one circuit are
acknowledged in order. -/
def execMessageAck (msg : Nat) (s : State) : Host.Outcome State Fault Refusal :=
  match s.outbox.find? (fun m => m.id == msg) with
  | some m =>
    let earlier := (s.outbox.takeWhile (fun o => o.id != msg)).any (fun o => o.circuit == m.circuit && s.senderOf o == s.senderOf m)
    if earlier then s.noEvent
    else
      let s : State := { s with outbox := s.outbox.filter (fun o => o.id != msg) }
      match s.xfer? m.xfer with
      | some x =>
        let s := s.updXfer x.id (fun x => { x with
          slices := modAt m.slice (fun sl => { sl with landed := [(0, sl.len)] }) x.slices })
        let s := s.countBytes x.point m.bytes.length
        .next (match s.xfer? x.id with | some y => s.finishXfer y | none => s)
      | none => .next s
  | none => s.noEvent

/-! ### The driver's answers to faults (R258, R260) -/

/-- The die without a posted fault. -/
def Die.answer (d : Die) (num : Nat) : Die := { d with faults := d.faults.filter (fun f => f.num != some num) }

/-- A serviced fault is replayed (R254, R260). An answer for a number that is not outstanding is ignored. -/
def State.serviceFault (s : State) (die num : Nat) : State :=
  match (s.die die).faults.find? (fun f => f.num == some num) with
  | none => s
  | some f =>
    let s := s.updDie die (fun d => d.answer num)
    match f.who with
    | .leaf r => s.unblock r
    | .red id => { s with reds := mapIf (fun r => r.id == id) (fun r => { r with fault := none }) s.reds }
    | .xfer id i page => s.updXfer id (fun x => x.onAgent i (fun sl => { sl with faults := sl.faults.filter (· != page) }))

/-- A reduction that cannot be performed: COUNT falls, the launch completes FAULTED and is cancelled (R189, R260). -/
def State.failRed (s : State) (r : RedRec) (info : Word64) : State :=
  let s : State := { s with reds := s.reds.filter (fun x => x.id != r.id) }
  ((s.launchFault r.launch info).countDown r.launch 1).cancelEntry r.launch

/-- What an unrecoverable fault does (R254, R260): a leaf takes TRANS, on its team's resume if the team is saved; an operation ends. -/
def State.failFault (s : State) (f : FaultRec) : State :=
  match f.who with
  | .leaf r =>
    if ((s.team? r.team).map (fun t => t.state.holds)).getD false then (s.unblock r).deliver r ⟨BitVec.ofNat 8 cTRANS, f.info, 0⟩
    else s.block r (.trap (BitVec.ofNat 8 cTRANS) f.info 0)
  | .red id =>
    match s.reds.find? (fun r => r.id == id) with
    | some r => s.failRed r f.info
    | none => s
  | .xfer id _ _ =>
    match s.xfer? id with
    | some x => s.failXfer x f.info
    | none => s

/-- The answer that a fault is unrecoverable (R258). -/
def State.unrecoverable (s : State) (die num : Nat) : State :=
  match (s.die die).faults.find? (fun f => f.num == some num) with
  | none => s
  | some f => (s.updDie die (fun d => d.answer num)).failFault f

/-- The faults of a die that no record has been posted for are unrecoverable at once: its queue is disabled (R258). -/
def State.failUnposted (s : State) (die : Nat) : State :=
  let fs := (s.die die).faults.filter (fun f => f.num.isNone)
  let s := s.updDie die (fun d => { d with faults := d.faults.filter (fun f => f.num.isSome) })
  fs.foldl State.failFault s

/-- FRESP_SERVICED (R258). -/
def execFrespServiced (die num : Nat) (s : State) : Host.Outcome State Fault Refusal := s.hostWrote (s.serviceFault die num)

/-- FRESP_UNRECOVERABLE (R258). -/
def execFrespUnrecoverable (die num : Nat) (s : State) : Host.Outcome State Fault Refusal := s.hostWrote (s.unrecoverable die num)

end Sys2Proof.Machine
end

