-- ==== Sys2Proof/Machine/MemoryEvents.lean ====
section
/-! DEFINITION. The events of the memory system: Quay windows and returns, the gather unit, writes performed, atomics and
reductions at their homes, page walks (spec/09 R172 to R175, spec/12 R233, R245 to R247, R315, R329, R366). -/

namespace Sys2Proof.Machine

/-! ### Loads that return -/

/-- The cells of a line filled in one thread's load. -/
def LoadThread.fill (t : LoadThread) (line : Nat) (byte : Nat → Byte) (tagged : List Nat) : LoadThread :=
  let here := t.cells.any (fun c => c.1 / 128 == line)
  { t with
    cells := t.cells.map (fun c => if c.1 / 128 = line && c.2.isNone then (c.1, some (byte c.1)) else c)
    tag := t.tag || (here && t.mayTag && t.cells.all (fun c => tagged.contains (c.1 / 16))) }

/-- Every byte of a thread's load is there. -/
def LoadThread.ready (t : LoadThread) : Bool := t.cells.all (fun c => c.2.isSome)

/-- The value that a thread's load writes (R49, R349). -/
def LoadThread.value (t : LoadThread) (f : LoadForm) : Nat :=
  writeLoad f (halfOf t.half (leNat (t.cells.map (fun c => c.2.getD 0#8))))

/-- A thread's load lands in its destination slices, or in its uniform register (R48, R52). -/
def State.landLoad (s : State) (l : LoadOp) (t : LoadThread) : State :=
  let v := t.value l.form
  match l.uni with
  | some (k, sh) => s.updWarp l.team l.warp (fun w => w.setUniIn sh k.toNat (v % 2 ^ 32))
  | none => s.updThread l.team l.warp t.thread (fun th => th.land l.id t.start (l.form.dw / 4) v t.tag)

/-- The threads of a load that a mask names. -/
def LoadOp.masked (l : LoadOp) (ops : List (Nat × BitVec 32)) (t : LoadThread) : Bool :=
  ops.any (fun q => q.1 == l.id && q.2.getLsbD t.thread)

/-- A line's bytes, as each thread reads them, fill the loads and threads of a core that `ops` names; threads that are whole land,
and traps that waited are taken. -/
def State.fillLoads (s : State) (d c : Nat) (ops : List (Nat × BitVec 32)) (line : Nat) (byte : Origin → Nat → Byte) (tagged : List Nat) :
    State :=
  let mine := (s.core d c).loads.filter (fun l => ops.any (fun q => q.1 == l.id))
  let filled : List LoadOp := mine.map (fun l =>
    { l with threads := l.threads.map (fun t =>
        if t.done || !l.masked ops t then t else t.fill line (byte ⟨l.team, l.warp, t.thread⟩) tagged) })
  let s := filled.foldl (fun s l => l.threads.foldl (fun s t => if !t.done && t.ready then s.landLoad l t else s) s) s
  let ended : List LoadOp := filled.map (fun l => { l with threads := l.threads.map (fun t => { t with done := t.done || t.ready }) })
  let s := s.updCore d c (fun k => { k with
    loads := k.loads.filterMap (fun l =>
      match ended.find? (fun e => e.id == l.id) with
      | some e => if e.threads.all LoadThread.done then none else some e
      | none => some l) })
  mine.foldl (fun s l => s.settleTraps l.team l.warp) s

/-- The loads and threads of a core that `ops` names may read their bytes of a line: its home can be reached (R10), and what they
must follow is performed. -/
def State.mayFill (s : State) (d c : Nat) (ops : List (Nat × BitVec 32)) (line : Nat) : Bool :=
  s.linked d (homeOf (line * 128)) && (s.core d c).loads.all (fun l => l.threads.all (fun t =>
    t.done || !l.masked ops t || t.cells.all (fun x =>
      x.1 / 128 != line || x.2.isSome || s.readFree ⟨l.team, l.warp, t.thread⟩ l.id x.1)))

/-- The warp of a store has issued nothing since (R234, log 50). -/
def State.still (s : State) (x : OldByte) : Bool := Tbl.look (warpKey x.by_.team x.by_.warp) s.lastIssue == some x.inst

/-- The byte that a store by another thread replaced, where its warp has issued nothing since (R234, log 50). -/
def State.oldByte (s : State) (o : Origin) (a : Nat) : Option Byte :=
  (s.olds.find? (fun x => x.addr == a && x.by_ != o && s.still x)).map OldByte.byte

/-- The 128 bytes of a line at its home. -/
def State.lineBytes (s : State) (line : Nat) : List Byte := s.physRead (line * 128) 128

/-- The tagged units of a line at its home. -/
def State.lineTags (s : State) (line : Nat) : List Nat :=
  ((List.range 8).map (fun i => line * 8 + i)).filter (fun u => s.unitTag (u * 16))

/-- Lines of L1 (R175). -/
def l1Size : Nat := 1024

/-- A core's copy of a line. -/
def Core.line? (c : Core) (line : Nat) : Option CacheLine := c.l1.find? (fun x => x.at_.line == line)

/-- QUAY_WINDOW_CLOSE (R173): the entry's window closes and its request leaves the core; a store entry leaves the Quay. A load entry
waits until the earlier store entries of its line have been sent. -/
def execQuayWindowClose (die core entry : Nat) (s : State) : Host.Outcome State Fault Refusal :=
  match (s.core die core).quay.find? (fun e => e.id == entry && !e.sent) with
  | none => s.noEvent
  | some e =>
    if e.store then
      let s := s.countReq die e.at_
      let s := s.updCore die core (fun k => { k with quay := k.quay.filter (fun x => x.id != entry) })
      .next { s with writes := s.writes ++ [⟨e.id, e.at_, die, core, e.bytes, e.tagged, []⟩] }
    else if (s.core die core).quay.any (fun o => o.store && o.at_.line == e.at_.line && o.id < e.id) then s.noEvent
    else
      let hit := ((s.core die core).line? e.at_.line).isSome
      let s := if hit then s else s.countReq die e.at_
      .next (s.updCore die core (fun k => { k with quay := mapIf (fun x => x.id == entry) (fun x => { x with sent := true }) k.quay }))

/-- Distinct bytes of a line that the loads of an entry want. -/
def wantedBytes (loads : List LoadOp) (ops : List (Nat × BitVec 32)) (line : Nat) : Nat :=
  ((loads.flatMap (fun l => (l.threads.filter (l.masked ops)).flatMap (fun t =>
    (t.cells.map Prod.fst).filter (fun a => a / 128 == line)))).eraseDups).length

/-- LOAD_LINE_RETURN (R173, R175): the line's data reaches the waiting loads, and L1 where the line may be kept there. A
request of at most 64 bytes to another die brings only those bytes (R250), and leaves no line. A read that races with a store may
return the byte that the store replaced, at the offsets that the event chooses (R234, log 50). -/
def execLoadLineReturn (die core entry : Nat) (s : State) : Host.Outcome State Fault Refusal :=
  let k := s.core die core
  let old := s.choice
  match k.quay.find? (fun e => e.id == entry && e.sent) with
  | none => s.noEvent
  | some e =>
    let line := e.at_.line
    if !s.mayFill die core e.ops line then s.noEvent
    else
      let hit := k.line? line
      let s := if hit.isSome then s else s.touchHome e.at_
      let data : CacheLine := match hit with
        | some x => x
        | none => ⟨e.at_, s.lineBytes line, s.lineTags line⟩
      let keep := hit.isNone && e.at_.home == 0
        && (e.prefetch || 64 < wantedBytes k.loads e.ops line || homeOf (line * 128) == die)
      let byte (o : Origin) (a : Nat) : Byte :=
        (if old.getLsbD (a % 128) then s.oldByte o a else none).getD (data.bytes.getD (a % 128) 0#8)
      let tagged := data.tagged.filter (fun u => (List.range 16).all (fun i => !old.getLsbD (u * 16 % 128 + i)))
      let s := s.updCore die core (fun k => { k with
        quay := k.quay.filter (fun x => x.id != entry)
        l1 := if keep then (data :: k.l1).take l1Size else k.l1 })
      .next (s.fillLoads die core e.ops line byte tagged)

/-- GATHER_LINE (R174): the gather unit handles the next line of its oldest gather or scatter. -/
def execGatherLine (die core : Nat) (s : State) : Host.Outcome State Fault Refusal :=
  match (s.core die core).gathers with
  | [] => s.noEvent
  | g :: _ =>
    match g.lines with
    | [] => s.noEvent
    | l :: rest =>
      let ops := g.load.toList.map (fun i => (i, BitVec.allOnes 32))
      if !s.mayFill die core ops l.line then s.noEvent
      else
        let s := (s.countReq die l).updCore die core (fun k => { k with
          gathers := if rest.isEmpty then k.gathers.drop 1
            else mapIf (fun x => x.id == g.id) (fun x => { x with
              lines := rest, bytes := x.bytes.filter (fun b => b.addr / 128 != l.line) }) k.gathers })
        match g.load with
        | some _ => .next ((s.touchHome l).fillLoads die core ops l.line (fun _ => s.physByte) (s.lineTags l.line))
        | none =>
          let here := g.bytes.filter (fun b => b.addr / 128 == l.line)
          let w : WriteRec := ⟨g.id + g.lines.length, l, die, core, here, g.tagged.filter (fun u => u / 8 == l.line), []⟩
          .next { s with writes := s.writes ++ [w] }

/-! ### Writes performed (R233) -/

/-- The byte that a store leaves over an old one; a nibble store replaces its half (R184). -/
def StoreByte.over (b : StoreByte) (old : Byte) : Byte :=
  match b.nib with
  | none => b.byte
  | some hi => BitVec.ofNat 8 (if hi then setBits old.toNat 7 4 b.byte.toNat else setBits old.toNat 3 0 b.byte.toNat)

/-- Runs of a merged store's bytes that are one thread's store. -/
def storeRuns : List StoreByte → List (List StoreByte)
  | [] => []
  | b :: r =>
    match storeRuns r with
    | (x :: xs) :: rest => if x.by_ == b.by_ && x.inst == b.inst then (b :: x :: xs) :: rest else [b] :: (x :: xs) :: rest
    | other => [b] :: other

/-- A run's bytes as they are written: a nibble goes over what the run before it left, or over what was read. -/
def runBytes (left : Tbl Byte) (run : List StoreByte) : List (Nat × Byte) :=
  run.map (fun b => (b.addr, b.over (Tbl.get left b.addr 0#8)))

/-- Store bytes performed at their home, store by store (R173, R233); `left` holds the bytes that nibble stores have read. -/
def State.performRuns (s : State) (left : Tbl Byte) : List (List StoreByte) → State
  | [] => s
  | run :: rest =>
    let l := runBytes left run
    (s.writeHome l).performRuns (l.foldl (fun t p => Tbl.put p.1 p.2 t) left) rest

/-- A line of L1 written through (R175): the bytes at some addresses, and the tags of their units, are those of the home. -/
def CacheLine.through (l : CacheLine) (s : State) (addrs : List Nat) : CacheLine :=
  { l with
    bytes := (l.bytes.zipIdx).map (fun p => if addrs.contains (l.at_.line * 128 + p.2) then s.physByte (l.at_.line * 128 + p.2) else p.1)
    tagged := l.tagged.filter (fun u => !addrs.any (fun a => a / 16 == u))
      ++ ((addrs.map (· / 16)).eraseDups).filter (fun u => s.unitTag (u * 16)) }

/-- The bytes of a sent store that perform together with the offsets of a selection: a tagged unit goes whole. -/
def WriteRec.chosen (w : WriteRec) (sel : BitVec 128) : List StoreByte :=
  w.bytes.filter (fun b => sel.getLsbD (b.addr % 128)
    || (w.tagged.contains (b.addr / 16) && w.bytes.any (fun x => x.addr / 16 == b.addr / 16 && sel.getLsbD (x.addr % 128))))

/-- A sent store without some of its bytes, and without the tags of their units. -/
def WriteRec.without (w : WriteRec) (bs : List StoreByte) : WriteRec :=
  let gone := bs.map StoreByte.addr
  { w with
    bytes := w.bytes.filter (fun b => !gone.contains b.addr)
    tagged := w.tagged.filter (fun u => !(unitsOf bs).contains u) }

/-- The state with a sent store changed, or gone once no byte of it is left. -/
def State.setWrite (s : State) (w : WriteRec) : State :=
  { s with writes := if w.bytes.isEmpty then s.writes.filter (fun y => y.id != w.id) else mapIf (fun y => y.id == w.id) (fun _ => w) s.writes }

/-- The addresses at which a nibble store stands first and has not read its byte yet. -/
def WriteRec.unread (w : WriteRec) (bs : List StoreByte) : List Nat :=
  ((bs.map StoreByte.addr).eraseDups).filter (fun a =>
    ((w.bytes.find? (fun b => b.addr == a)).any (fun b => b.nib.isSome)) && (Tbl.look a w.reads).isNone)

/-- Bytes of a merged store performed at their home, and the tags they leave (R167, R173, R233): the core's own L1 line is written
through; other cores lose theirs where a fence has published a byte (log 50); the bytes replaced are kept for racing reads. -/
def State.performWrite (s : State) (w : WriteRec) (bs : List StoreByte) : State :=
  let s := s.touchHome w.at_
  let before := bs.map (fun b => (⟨b.addr, s.physByte b.addr, b.by_, b.inst⟩ : OldByte))
  let s := s.performRuns w.reads (storeRuns bs)
  let s := (w.tagged.filter (unitsOf bs).contains).foldl (fun s u => s.setUnitTag (u * 16) true) s
  let addrs := bs.map StoreByte.addr
  let open_ := s.published.any (fun p => bs.any (fun b => b.by_ == p.by_ && b.inst < p.upTo))
  let s : State := { s with
    cores := s.cores.map (fun k => (k.1, { k.2 with
      l1 := if k.1 = coreKey w.die w.core then mapIf (fun l => l.at_.line == w.at_.line) (fun l => l.through s addrs) k.2.l1
            else if open_ then k.2.l1.filter (fun l => l.at_.line != w.at_.line) else k.2.l1 }))
    olds := (s.olds ++ before).filter s.still }
  let left := s.storesLeft
  { s with published := s.published.filter (fun p => left.any (fun b => b.by_ == p.by_ && b.inst < p.upTo)) }

/-- The bytes of a sent store of a die that may be performed now: their home can be reached (R10), their page does not move (R181),
and what they must follow is performed (R232, R233, R237). -/
def State.mayWrite (s : State) (die : Nat) (bs : List StoreByte) : Bool :=
  s.reaches die (bs.map StoreByte.addr) && bs.all (fun b => !s.pageMoving b.addr && s.writeFree b.by_ b.inst b.addr
    && s.monitorsReleased b.by_ b.inst ((s.cell? b.addr).toList))

/-- MEMORY_WRITE_PERFORM (R233): the bytes of a sent write that the event does not leave for later (R229) take their place at its
home. Nibble stores first read their byte, in a step of their own (R184). -/
def execMemoryWritePerform (w : Nat) (s : State) : Host.Outcome State Fault Refusal :=
  match s.writes.find? (fun x => x.id == w) with
  | none => s.noEvent
  | some x =>
    let bs := x.chosen (~~~s.choice)
    let rest := s.setWrite (x.without bs)
    if bs.isEmpty || !rest.mayWrite x.die bs then s.noEvent
    else
      let new := x.unread bs
      if !new.isEmpty then
        .next (s.setWrite { x with reads := new.foldl (fun t a => Tbl.put a (s.physByte a) t) x.reads })
      else .next (rest.performWrite x bs)

/-! ### Atomics (R245 to R247, R315, R329) -/

/-- The new value of an element under a reduction operator, and its flags (R245, R246). -/
def redApply (op : RedOp) (t : Ty) (old a : Nat) : Nat × Flags :=
  match t.fmt with
  | some f =>
    let one (x y : Nat) : Nat × Flags :=
      match op with
      | .add => f.add .rn false x y
      | .min => f.select true false x y
      | _ => f.select false false x y
    collect t.ebits ((t.split old).zipWith one (t.split a))
  | none =>
    let x := intVal t.isSigned t.bits old
    let y := intVal t.isSigned t.bits a
    match op with
    | .add => (wrap t.bits (x + y), 0#5)
    | .min => (wrap t.bits (min x y), 0#5)
    | .max => (wrap t.bits (max x y), 0#5)
    | .and => (old &&& a, 0#5)
    | .or => (old ||| a, 0#5)
    | .xor => (old ^^^ a, 0#5)

/-- What an atomic writes, if it writes, and its flags; the comparand is CAS's (R315, R329). -/
def AtomKind.apply (k : AtomKind) (t : Ty) (old a cmp : Nat) : Option Nat × Flags :=
  match k with
  | .rmw (.red op) => let r := redApply op t old a; (some r.1, r.2)
  | .rmw .xchg => (some a, 0#5)
  | .cas => (if old = cmp then some a else none, 0#5)

/-- Bytes from an address after a little-endian value is laid there. -/
def valueBytes (pa n v : Nat) : List (Nat × Byte) := ((natLe n v).zipIdx).map (fun p => (pa + p.2, p.1))

/-- ATOM_PERFORM (R315, R316, R329): the next thread's operation of an ATOM or CAS, indivisibly at the home. -/
def execAtomPerform (team warp op : Nat) (s : State) : Host.Outcome State Fault Refusal :=
  match s.atoms.find? (fun a => a.id == op && a.leaf.team == team && a.leaf.warp == warp), s.team? team with
  | some a, some t =>
    match a.threads.find? (fun x => x.old.isNone && !x.bad) with
    | none => s.noEvent
    | some x =>
      let n := accBytes a.ty.bits
      let o : Origin := ⟨team, warp, x.thread⟩
      let pas := (List.range n).map (fun i => x.addr + i)
      if !s.linked t.die (homeOf x.addr) || s.pageMoving x.addr || !pas.all (s.writeFree o a.id) || !s.monitorsReleased o a.id (pas.filterMap s.cell?) then s.noEvent
      else
        let s := s.touchHome x.at_
        let old := leNat (s.physRead x.addr n)
        let bad := a.ty == .f32 && isAbandoned old
        let r := a.kind.apply a.ty old x.a x.cmp
        let s := match bad, r.1 with
          | false, some v => s.writeHome (valueBytes x.addr n v)
          | _, _ => s
        let done (y : AtomThread) : AtomThread :=
          if bad then { y with bad := true } else { y with old := some old, flags := r.2 }
        let s := s.updCore t.die t.core (fun k => { k with l1 := k.l1.filter (fun l => l.at_.line != x.at_.line) })
        .next { s with atoms := mapIf (fun y => y.id == op) (fun y => { y with
          threads := mapIf (fun z => z.thread == x.thread) done y.threads }) s.atoms }
  | _, _ => s.noEvent

/-- Length in bytes of an atomic's instruction. -/
def AtomKind.bytes : AtomKind → Nat
  | .cas => 16
  | .rmw _ => 12

/-- The old values of an atomic written to its destinations, its flags to %fstat. -/
def AtomRec.deliver (a : AtomRec) (fresh : Nat) (w : Warp) : Warp :=
  let one (w : Warp) (x : AtomThread) : Warp :=
    let v := x.old.getD 0
    let w := match a.uni with
      | some (k, sh) => w.setUniIn sh k.toNat (v % 2 ^ 32)
      | none => w.updThread x.thread (fun th =>
          if a.blocks then
            Thread.writeAhead th (fun slice => Config.windowPick fresh (slice + 512 * x.thread)) 0 a.pc.toNat a.la x.start (a.ty.bits / 4) v
          else th.land a.id x.start (a.ty.bits / 4) v false)
    w.updThread x.thread (fun th => { th with fstat := th.fstat ||| x.flags.zeroExtend 32 })
  (a.threads.filter (fun x => !(w.thread x.thread).exited)).foldl one w

/-- The trap that an atomic's return takes: ABANDON of a memory operand (R156), or FPEXC (R247). -/
def AtomRec.trap (a : AtomRec) (w : Warp) : Option Trap :=
  let mk (cause info : Nat) : Trap := ⟨BitVec.ofNat 8 cause, BitVec.ofNat 64 (info + 2 ^ 31), a.kind.bytes⟩
  match a.threads.find? AtomThread.bad with
  | some x => some (mk cABANDON (opInfo x.thread 1))
  | none =>
    (a.threads.find? (fun x => x.flags &&& enablesOf (w.thread x.thread).fctl != 0#5)).map (fun x =>
      mk cFPEXC (x.flags.toNat + x.thread * 65536))

/-- ATOM_RETURN (R156, R247, R316): every thread's operation performed, the old values return, or the trap is taken. -/
def execAtomReturn (team warp op : Nat) (s : State) : Host.Outcome State Fault Refusal :=
  match s.atoms.find? (fun a => a.id == op && a.leaf.team == team && a.leaf.warp == warp), s.warp? team warp with
  | some a, some w =>
    if a.threads.any (fun x => x.old.isNone && !x.bad) then s.noEvent
    else
      let s : State := { s with atoms := s.atoms.filter (fun x => x.id != op), fresh := s.fresh + 1 }
      let waits := match (w.entry? a.leaf.leaf).map Entry.wait with | some (.atomic i) => i == op | _ => false
      match a.trap w with
      | some t =>
        if a.blocks then (if waits then .next ((s.unblock a.leaf).deliver a.leaf t) else .next s)
        else .next (s.updWarp team warp (a.deliver s.fresh))
      | none =>
        let s := s.updWarp team warp (a.deliver s.fresh)
        let s := if a.blocks && waits then s.complete a.leaf a.kind.bytes else s
        .next (s.settleTraps team warp)
  | _, _ => s.noEvent

/-! ### Reductions (R366, R367) and add-on-store (R147) -/

/-- Flags ORed into a die's AFLG (R247). -/
def State.raiseAflg (s : State) (die : Nat) (f : Flags) : State :=
  if f = 0#5 then s else s.setDieWord die 0x104 (s.dieWord die 0x104 ||| f.zeroExtend 64)

/-- One element at its home under a reduction: an abandoned FP32 element stays and its launch will complete FAULTED with the
address (R156). -/
def State.reduceAt (s : State) (launch va : Nat) (op : RedOp) (t : Ty) (pa a : Nat) : State :=
  let n := accBytes t.bits
  let old := leNat (s.physRead pa n)
  if t = .f32 && isAbandoned old then s.launchFault launch (s.refusedWord va true)
  else
    let r := redApply op t old a
    (s.writeHome (valueBytes pa n r.1)).raiseAflg (homeOf pa) r.2

/-- The performance of a reduction (R366): its fault waits for the driver, a refusal ends it, else one indivisible step at
the home. -/
def State.performRed (s : State) (r : RedRec) : State :=
  let s : State := { s with fresh := s.fresh + 1 }
  match s.engineXlate r.die r.core r.asid r.va ⟨true, true, false⟩ r.secure with
  | .ok p =>
    let l : LineAt := ⟨p.pa / 128, p.kind, p.level, r.asid, r.va⟩
    let s := (s.countReq r.die l).touchHome l
    let s := s.reduceAt r.launch r.va r.op r.ty p.pa r.a
    let s := s.updCore r.die r.core (fun k => { k with l1 := k.l1.filter (fun x => x.at_.line != l.line) })
    ({ s with reds := s.reds.filter (fun x => x.id != r.id) } : State).countDown r.launch 1
  | .world => s.failRed r (s.refusedWord r.va true)
  | .miss => s
  | .fault info =>
    if !s.ringOn r.die 0 then s.failRed r info
    else
      let num := (s.team? r.by_.team).map Team.num
      let warp := (s.warp? r.by_.team r.by_.warp).map (fun w => (w.index, w.lane))
      let s := s.updDie r.die (fun d => { d with
        faults := d.faults ++ [⟨.red r.id, info, r.launch, faultSource 1 info, r.asid, r.core, num, warp, none⟩] })
      { s with reds := mapIf (fun x => x.id == r.id) (fun x => { x with fault := some (none, info) }) s.reds }

/-- A reduction may be performed: no fault of it waits; the threads before it of its RED, and the earlier ones of its thread on
overlapping bytes, are performed, with what the thread accessed before (R244, R367). -/
def State.redReady (s : State) (r : RedRec) : Bool :=
  let n := accBytes r.ty.bits
  r.fault.isNone
    && !s.reds.any (fun q => q.id < r.id && (q.inst == r.inst
        || (q.by_ == r.by_ && q.asid == r.asid && overlap q.va (accBytes q.ty.bits) r.va n)))
    && s.earlierClear (.thread r.by_) r.id
    && (match s.engineXlate r.die r.core r.asid r.va ⟨true, true, false⟩ r.secure with
        | .ok p => !s.pageMoving p.pa && s.linked r.die (homeOf p.pa)
        | _ => true)

/-- The elements of an add-on-store: slice, offset and value. -/
def Xfer.elements (x : Xfer) (n : Nat) : List (Nat × Nat × Nat) :=
  (x.slices.zipIdx).flatMap (fun p =>
    match p.1.src with
    | .data b => (List.range (b.length / n)).map (fun i => (p.2, i * n, leNat ((b.drop (i * n)).take n)))
    | _ => [])

/-- The elements of an add-on-store of n bytes that are not yet applied. -/
def Xfer.elementsLeft (x : Xfer) (n : Nat) : List (Nat × Nat × Nat) :=
  (x.elements n).filter (fun e => (x.slices[e.1]?).any (fun sl => !sl.landed.any (fun r => r.1 == e.2.1)))

/-- What an element of an add-on-store reaches: none where its page waits on a fault. -/
def State.elementCells (s : State) (x : Xfer) (n : Nat) (e : Nat × Nat × Nat) : Option Cells :=
  (x.slices[e.1]?).bind (fun sl =>
    let vas := sl.vas false e.2.1 n
    if vas.any (fun v => sl.faults.contains (v / 65536)) then none else some (s.endCells x vas ⟨true, true, false⟩))

/-- One element of an add-on-store applied at its home. -/
def State.applyElement (s : State) (x : Xfer) (t : Ty) (n : Nat) (e : Nat × Nat × Nat) (pas : List Nat) : State :=
  match (x.slices[e.1]?).map XSlice.dst with
  | some (.mem va) =>
    let s := s.reduceAt x.launch (va + e.2.1) .add t (pas.headD 0) e.2.2
    s.updCore x.die x.core (fun k => { k with l1 := k.l1.filter (fun l => l.at_.line != pas.headD 0 / 128) })
  | some (.loc tm o) =>
    match s.team? tm with
    | some y =>
      let old := leNat (y.loc.read (o + e.2.1) n)
      if t = .f32 && isAbandoned old then s.launchFault x.launch (s.refusedWord (o + e.2.1) true)
      else
        let r := redApply .add t old e.2.2
        (s.updTeam tm (fun y => { y with loc := y.loc.write (o + e.2.1) (natLe n r.1) })).raiseAflg x.die r.2
    | none => s
  | _ => s

/-- The elements that are reached applied and counted, and the faults posted. -/
def State.addElements (s : State) (x : Xfer) (t : Ty) (n : Nat) (tried : List ((Nat × Nat × Nat) × Cells)) (faults : List (Nat × Nat × Word64)) :
    State :=
  let got := tried.filterMap (fun p => match p.2 with | .ok pas lines => some (p.1, pas, lines) | _ => none)
  let s := ((x.slices.zipIdx)).foldl (fun s q =>
    s.countLines x q.1 false ((got.filter (fun g => g.1.1 == q.2)).flatMap (fun g => g.2.2))) s
  let s := got.foldl (fun s g => s.applyElement x t n g.1 g.2.1) s
  let s := s.updXfer x.id (fun x => { x with slices := (x.slices.zipIdx).map (fun q =>
    { q.1 with landed := q.1.landed ++ (got.filter (fun g => g.1.1 == q.2)).map (fun g => (g.1.2.1, n)) }) })
  let s := s.countBytes x.point (got.length * n)
  let s := faults.foldl (fun s f => s.xferFault x f.1 (f.2.1 * 65536) f.2.2) s
  match s.xfer? x.id with
  | some y => s.finishXfer y
  | none => s

/-- The tile of an add-on-store applied in one step, and its bytes counted (R147); the elements of a page that faults, and those
alone, wait for the driver's answer and are applied after it (R189, log 51). -/
def State.performAdd (s : State) (x : Xfer) (t : Ty) : State :=
  let s : State := { s with fresh := s.fresh + 1 }
  let n := accBytes t.bits
  let tried := (x.elementsLeft n).filterMap (fun e => (s.elementCells x n e).map (fun c => (e, c)))
  let faults := ((tried.filterMap (fun p => match p.2 with | .fault i => some (p.1.1, bitsOf i.toNat 55 0 / 65536, i) | _ => none)).eraseDups)
  match tried.find? (fun p => match p.2 with | .world => true | _ => false), faults with
  | some (e, _), _ => s.failXfer x (s.refusedWord (((x.slices[e.1]?).map (fun sl => (sl.vas false e.2.1 1).headD 0)).getD 0) true)
  | none, f :: _ =>
    if !s.ringOn x.die 0 then s.failXfer x f.2.2 else s.addElements x t n tried faults
  | none, [] => s.addElements x t n tried []

/-- An add-on-store may be applied: some element of it does not wait on a fault, what precedes its fork is performed, its homes can be
reached and its pages do not move. -/
def State.addReady (s : State) (x : Xfer) (t : Ty) : Bool :=
  let tried := (x.elementsLeft (accBytes t.bits)).filterMap (s.elementCells x (accBytes t.bits))
  !tried.isEmpty && s.forkClear x
    && tried.all (fun c => match c with | .ok pas _ => !pas.any s.pageMoving && s.reaches x.die pas | _ => true)

/-- RED_PERFORM (R147, R366): a reduction, or a drain's add-on-store, is performed. -/
def execRedPerform (op : Nat) (s : State) : Host.Outcome State Fault Refusal :=
  match s.reds.find? (fun r => r.id == op), s.xfer? op with
  | some r, _ => if s.redReady r then .next (s.performRed r) else s.noEvent
  | none, some x =>
    match x.kind with
    | .drainAdd t => if s.addReady x t then .next (s.performAdd x t) else s.noEvent
    | _ => s.noEvent
  | none, none => s.noEvent

/-! ### Page walks (R172) -/

/-- Page-table walks that a die runs at once (R14, R172). -/
def walkCount : Nat := 96

/-- PAGE_WALK (R169, R172): one of the oldest 96 queued walks ends, as the event chooses. Its leaf is cached and the access goes on; its fault goes to the
driver. -/
def execPageWalk (die : Nat) (s : State) : Host.Outcome State Fault Refusal :=
  let index := s.choice.toNat
  match if index < walkCount then (s.die die).walkq[index]? else none with
  | none => s.noEvent
  | some q =>
    let s := s.updDie die (fun d => { d with walkq := d.walkq.eraseIdx index })
    let secure := match q.who.bind (fun r => s.team? r.team) with
      | some t => s.launchSecure t.launch
      | none => s.coreSecure die q.core
    match s.walk die q.asid q.va q.write secure with
    | .leaf pte level =>
      let s := s.cacheLeaf die (some q.core) (tlbOf q.asid q.va pte level)
      .next (match q.who with | some r => s.unblock r | none => s)
    | .fault info =>
      .next (match q.who with | some r => (s.unblock r).blockFault r info 9 | none => s)

end Sys2Proof.Machine
end

