-- ==== Sys2Proof/Machine/Service.lean ====
section
/-! DEFINITION. Service rings and their records, the driver's answers to escalations, shootdowns, page migration
(spec/09 R172, R180 to R182, spec/13 R256 to R260). -/

namespace Sys2Proof.Machine

/-! ### Writing a word under its Access column (R5, R6) -/

/-- Bits hi..lo of a word. -/
def bitRange (hi lo : Nat) : Word64 := BitVec.ofNat 64 ((2 ^ (hi + 1 - lo) - 1) * 2 ^ lo)

/-- A word after a write: RW bits take the value, W1C bits clear where the value is 1, the others stay. -/
def mergeWord (old v rw w1c : Word64) : Word64 := (old &&& ~~~rw &&& ~~~(w1c &&& v)) ||| (v &&& rw)

/-! ### Service rings (R257) -/

/-- The configuration word of a ring: fault, escalation, free 64 KiB, free 2 MiB, returned. -/
def ringWord (ring : Nat) : Nat := 0x392 + 2 * ring

/-- Bytes of a ring's record. -/
def ringBytes (ring : Nat) : Nat := if ring < 2 then 32 else 8

/-- Records that a ring holds. -/
def State.ringSize (s : State) (die ring : Nat) : Nat := 16 * 2 ^ bitsOf (s.dieWord die (ringWord ring)).toNat 7 4

/-- HEAD of a ring. -/
def State.ringHead (s : State) (die ring : Nat) : Nat := (s.dieWord die (ringWord ring + 1)).toNat / 2 ^ 32

/-- TAIL of a ring. -/
def State.ringTail (s : State) (die ring : Nat) : Nat := (s.dieWord die (ringWord ring + 1)).toNat % 2 ^ 32

/-- Records between two pointers, modulo 2^32. -/
def ringCount (head tail : Nat) : Nat := (tail + 2 ^ 32 - head) % 2 ^ 32

/-- The state with a ring's pointers. -/
def State.setRingPtr (s : State) (die ring head tail : Nat) : State :=
  s.setDieWord die (ringWord ring + 1) (BitVec.ofNat 64 (head % 2 ^ 32 * 2 ^ 32 + tail % 2 ^ 32))

/-- The physical address of record i of a ring. -/
def State.ringAddr (s : State) (die ring i : Nat) : Nat :=
  bitsOf (s.dieWord die (ringWord ring)).toNat 51 8 * 256 + ringBytes ring * (i % s.ringSize die ring)

/-- A die-produced ring has room. -/
def State.ringRoom (s : State) (die ring : Nat) : Bool :=
  s.ringOn die ring && ringCount (s.ringHead die ring) (s.ringTail die ring) < s.ringSize die ring

/-- A record produced by the die: its bytes, TAIL, and the ring's vector when it was empty; the answer is the address of a
record that lies outside memory. -/
def State.produce (s : State) (die ring : Nat) (bytes : List Byte) : Except Nat State :=
  let pa := s.ringAddr die ring (s.ringTail die ring)
  if (s.cell? pa).isNone then .error pa
  else
    let vec := (if ring = 0 then 16 else if ring = 1 then 17 else 18) + 4 * die
    let empty := s.ringHead die ring == s.ringTail die ring
    let s := s.writeHome ((bytes.zipIdx).map (fun p => (pa + p.2, p.1)))
    let s := s.setRingPtr die ring (s.ringHead die ring) (s.ringTail die ring + 1)
    .ok (if empty then s.raiseMsix vec else s)

/-- The entry at HEAD of a ring that the migration engine empties, and the state that has consumed it. -/
def State.consume (s : State) (die ring : Nat) : Option (Nat × State) :=
  if !s.ringOn die ring || s.ringHead die ring == s.ringTail die ring then none
  else
    some (leNat (s.physRead (s.ringAddr die ring (s.ringHead die ring)) 8),
      s.setRingPtr die ring (s.ringHead die ring + 1) (s.ringTail die ring))

/-- An escalation that no record has been posted for cancels its launch at once: the queue is disabled (R259). -/
def State.endEscalation (s : State) (team : Nat) : State :=
  match s.team? team with
  | some t => (s.cancelEntry t.launch).killTeam team
  | none => s

/-- A ring that the driver disables: what waits for a record of the fault queue or of the escalation queue waits no longer (R258,
R259). -/
def State.ringOff (s : State) (die ring : Nat) : State :=
  if ring = 0 then s.failUnposted die
  else if ring = 1 then
    (((s.die die).escalations.filter (fun e => e.num.isNone)).map EscRec.team).foldl State.endEscalation s
  else s

/-- A write of a ring's configuration word: setting EN resets HEAD and TAIL. -/
def State.writeRingConfig (s : State) (die ring : Nat) (v : Word64) : State :=
  let old := s.dieWord die (ringWord ring)
  let new := mergeWord old v (bitRange 55 4 ||| 1#64) 0#64
  let s := s.setDieWord die (ringWord ring) new
  if !old.getLsbD 0 && new.getLsbD 0 then s.setRingPtr die ring 0 0
  else if old.getLsbD 0 && !new.getLsbD 0 then s.ringOff die ring
  else s

/-- A driver's write of a ring's pointer word: HEAD where it consumes, TAIL where it produces, ignored where it would leave
more than N records or fewer than none. -/
def State.writeRingPtr (s : State) (die ring : Nat) (v : Word64) : State :=
  let drives := ring == 2 || ring == 3
  let head := if drives then s.ringHead die ring else v.toNat / 2 ^ 32
  let tail := if drives then v.toNat % 2 ^ 32 else s.ringTail die ring
  if ringCount head tail ≤ s.ringSize die ring then s.setRingPtr die ring head tail else s

/-! ### Fault records (R258) -/

/-- The 32 bytes of a fault record. -/
def FaultRec.bytes (f : FaultRec) (handle : Word) (die num : Nat) : List Byte :=
  natLe 8 f.info.toNat ++ natLe 4 handle.toNat ++ natLe 1 f.source ++ natLe 1 f.asid
    ++ natLe 2 (die * 4096 + f.core * 128) ++ natLe 4 (f.team.getD (2 ^ 32 - 1))
    ++ natLe 4 (match f.warp with | some (w, l) => w + l * 65536 | none => 0xFFFF)
    ++ natLe 4 num ++ natLe 4 0

/-- FAULT_RECORD_POST (R258): the oldest fault that waits is posted with the next number. -/
def execFaultRecordPost (die : Nat) (s : State) : Host.Outcome State Fault Refusal :=
  match (s.die die).faults.find? (fun f => f.num.isNone) with
  | none => s.noEvent
  | some f =>
    if !s.ringRoom die 0 then s.noEvent
    else
      let n := (s.die die).faultNum
      match s.produce die 0 (f.bytes (s.handle f.launch) die n) with
      | .error pa => .fault (.badPhysical pa)
      | .ok s =>
        let s := s.updDie die (fun d => { d with
          faultNum := (n + 1) % 2 ^ 32
          faults := mapIf (fun x => x.num.isNone && x.who == f.who) (fun x => { x with num := some n }) d.faults })
        .next (match f.who with
          | .leaf r => s.updEntry r (fun e => match e.wait with | .fault _ i => { e with wait := .fault (some n) i } | _ => e)
          | .red id => { s with reds := mapIf (fun r => r.id == id) (fun r => { r with fault := some (some n, f.info) }) s.reds }
          | .xfer _ _ _ => s)

/-! ### Escalation records (R256, R259) -/

/-- A team is saved. -/
def State.isSaved (s : State) (team : Nat) : Bool := ((s.team? team).map (fun t => t.state == .saved)).getD false

/-- ESCALATION_RECORD_POST (R256, R259): the oldest record of a team that is saved is posted with the next number (log 49). -/
def execEscalationRecordPost (die : Nat) (s : State) : Host.Outcome State Fault Refusal :=
  match (s.die die).escalations.find? (fun e => e.num.isNone && s.isSaved e.team) with
  | none => s.noEvent
  | some e =>
    if !s.ringRoom die 1 then s.noEvent
    else
      let n := (s.die die).escNum
      match s.produce die 1 (e.record.take 14 ++ natLe 2 n ++ e.record.drop 16) with
      | .error pa => .fault (.badPhysical pa)
      | .ok s => .next (s.updDie die (fun d => { d with
          escNum := (n + 1) % 65536
          escalations := mapIf (fun x => x.num.isNone && x.team == e.team) (fun x => { x with num := some n }) d.escalations }))

/-- A resume answer (R259): the flag clears and the team waits for admission. -/
def State.erespResume (s : State) (die num : Nat) : State :=
  match (s.die die).escalations.find? (fun e => e.num == some num) with
  | none => s
  | some e =>
    (s.updDie die (fun d => { d with escalations := d.escalations.filter (fun x => x.num != some num) })).updTeam e.team (fun t =>
      if t.escalated then { t with escalated := false, stopping := false, state := .pendingResume } else t)

/-- A cancel answer (R259): CNCL on the handle in the record, and the team ends without resuming. -/
def State.erespCancel (s : State) (die num : Nat) : State :=
  match (s.die die).escalations.find? (fun e => e.num == some num) with
  | none => s
  | some e =>
    let s := s.updDie die (fun d => { d with escalations := d.escalations.filter (fun x => x.num != some num) })
    match s.ofHandle e.handle with
    | some i => s.cancelEntry i
    | none => s

/-- ERESP_RESUME (R259). -/
def execErespResume (die num : Nat) (s : State) : Host.Outcome State Fault Refusal := s.hostWrote (s.erespResume die num)

/-- ERESP_CANCEL (R259). -/
def execErespCancel (die num : Nat) (s : State) : Host.Outcome State Fault Refusal := s.hostWrote (s.erespCancel die num)

/-! ### Shootdown (R172) -/

/-- SHOOT's number. -/
def shootWord : Nat := 0x40

/-- Pages of 64 KiB in a shootdown of a size code; none for the whole space. -/
def shootPages (sz : Nat) : Option Nat := if sz = 0 then some 1 else if sz = 1 then some 32 else if sz = 2 then some 16384 else none

/-- A range of pages of an address space: a size code and the first page. -/
structure PageRange where
  asid : Nat
  page : Nat
  pages : Option Nat
  deriving DecidableEq, Repr

/-- The range that SHOOT names. -/
def rangeOf (w : Word64) : PageRange :=
  let n := shootPages (bitsOf w.toNat 61 60)
  let p := bitsOf w.toNat 47 8
  ⟨bitsOf w.toNat 59 52, p - p % n.getD 1, n⟩

/-- A range holds a page or part of pages. -/
def PageRange.meets (r : PageRange) (asid page n : Nat) : Bool :=
  r.asid == asid && (match r.pages with | none => true | some k => page < r.page + k && r.page < page + n)

/-- A line was translated in the range. -/
def PageRange.line (r : PageRange) (l : LineAt) : Bool := r.meets l.asid (l.va / 65536) 1

/-- Translations of a range leave every core and walk cache. -/
def State.dropRange (s : State) (r : PageRange) : State :=
  let keep (l : List TlbEntry) : List TlbEntry := l.filter (fun e => !r.meets e.asid e.page e.pages)
  { s.mapDies (fun d => { d with walkCache := keep d.walkCache }) with
    cores := s.cores.map (fun p => (p.1, { p.2 with tlb := keep p.2.tlb })) }

/-- Reads translated in the range are still to be performed. -/
def State.readsPending (s : State) (r : PageRange) : Bool :=
  s.cores.any (fun p => p.2.quay.any (fun e => !e.store && r.line e.at_)
    || p.2.gathers.any (fun g => g.load.isSome && g.lines.any r.line))

/-- Writes translated in the range are still to be performed. -/
def State.writesPending (s : State) (r : PageRange) : Bool :=
  s.cores.any (fun p => p.2.quay.any (fun e => e.store && r.line e.at_)
    || p.2.gathers.any (fun g => g.load.isNone && g.lines.any r.line))
    || s.writes.any (fun w => r.line w.at_)
    || s.atoms.any (fun a => a.threads.any (fun t => t.old.isNone && !t.bad && r.line t.at_))

/-- A write of SHOOT: ignored with GO set while BUSY; else its fields take the value, and GO starts a shootdown of the range. -/
def State.writeShoot (s : State) (v : Word64) : State :=
  let old := s.word shootWord
  let go := v.getLsbD 0
  let done := bitRange 62 62
  let w := mergeWord old v (bitRange 61 52 ||| bitRange 47 8) done
  if !go then s.setWord shootWord w
  else if old.getLsbD 63 then s
  else { s.setWord shootWord ((w &&& ~~~done) ||| bitRange 63 63) with shoot := w }

/-- SHOOTDOWN_START (R172): a write of SHOOT with GO set. -/
def execShootdownStart (v : Word64) (s : State) : Host.Outcome State Fault Refusal := s.hostWrote (s.writeShoot (v ||| 1#64))

/-- SHOOTDOWN_COMPLETE (R172): nothing holds the old entries, and what was translated under them is performed. -/
def execShootdownComplete (s : State) : Host.Outcome State Fault Refusal :=
  let w := s.word shootWord
  let r := rangeOf s.shoot
  if !w.getLsbD 63 || s.readsPending r || s.writesPending r then s.noEvent
  else .next ((s.dropRange r).setWord shootWord ((w &&& ~~~(bitRange 63 63)) ||| bitRange 62 62))

/-! ### Page migration (R180 to R182) -/

/-- The address, value and level of the leaf that maps a virtual address. -/
def State.leafOf (s : State) (d asid va : Nat) : Option (Nat × Nat × Nat) :=
  let w := (s.dieWord d (0x200 + asid)).toNat
  let rec go (table level : Nat) : Nat → Option (Nat × Nat × Nat)
    | 0 => none
    | fuel + 1 =>
      let idx :=
        if level = 0 then bitsOf va 55 39 else if level = 1 then bitsOf va 38 30 else if level = 2 then bitsOf va 29 21
        else bitsOf va 20 16
      let pa := table + 8 * idx
      let e := leNat (s.physRead pa 8)
      if (s.cell? pa).isNone || !bitOf e 0 then none
      else if bitOf e 1 then some (pa, e, level)
      else go (bitsOf e 51 8 * 256) (level + 1) fuel
  go (bitsOf w 51 20 * 2 ^ 20) 0 4

/-- Migration threshold of an address space (R169). -/
def State.migth (s : State) (d asid : Nat) : Nat := bitsOf (s.dieWord d (0x200 + asid)).toNat 19 12

/-- The frame of a page in the die-local view, as a ring entry names it (R182): it must lie in that die, be aligned and be
installed. -/
def frameOk (e die size : Nat) : Bool :=
  e / 2 ^ 52 == 0 && bitsOf e 51 48 == 1 && bitsOf e 47 44 == die && e % size == 0 && e % 2 ^ 44 + size ≤ hbmBytes

/-- A page's counter at its home reset. -/
def Die.resetPage (d : Die) (page : Nat) : Die := { d with pages := Tbl.del page d.pages }

/-- MIGRATION_START (R180 to R182): the page's counter has reached MIGTH, the page is eligible, and the engine is idle. -/
def execMigrationStart (die page : Nat) (s : State) : Host.Outcome State Fault Refusal :=
  let no : Host.Outcome State Fault Refusal := s.noEvent
  match Tbl.look page (s.die die).pages with
  | none => no
  | some k =>
    match s.leafOf die k.asid k.va with
    | none => no
    | some (pte, e, level) =>
      let size := pageBytes level
      let th := s.migth die k.asid
      if th = 0 || k.count < th || !(s.die die).migrations.isEmpty || bitsOf e 57 56 != 1 || bitsOf e 63 60 != die
          || !(bitsOf e 59 58 == 0 || bitsOf e 59 58 == 3) || bitOf e 53 || level < 2
          || leafAddr e level (k.va - k.va % size) != page then no
      else
        let ring := if level = 2 then 3 else 2
        if !s.ringRoom die 4 then .next (s.updDie die (fun d => d.resetPage page))
        else
          match s.consume k.last ring with
          | none => .next (s.updDie die (fun d => d.resetPage page))
          | some (f, s) =>
            if !frameOk f k.last size then .next s
            else .next (s.updDie die (fun d => { d with
              migrations := [⟨k.asid, k.va - k.va % size, pte, page, f, size, k.last⟩] }))

/-- A line of a moved page at its new place. -/
def Migration.line (m : Migration) (l : LineAt) : LineAt :=
  if m.old ≤ l.line * 128 && l.line * 128 < m.old + m.bytes then { l with line := l.line - m.old / 128 + m.new / 128 } else l

/-- An address of a moved page at its new place. -/
def Migration.addr (m : Migration) (pa : Nat) : Nat :=
  if m.old ≤ pa && pa < m.old + m.bytes then pa - m.old + m.new else pa

/-- A tagged unit of a moved page at its new place. -/
def Migration.unit (m : Migration) (u : Nat) : Nat := m.addr (u * 16) / 16

/-- The bytes of a store at their new place. -/
def Migration.stores (m : Migration) (l : List StoreByte) : List StoreByte := l.map (fun b => { b with addr := m.addr b.addr })

/-- The writes stalled at a moved page released to its new copy (R181 step 5); the loads not yet performed go there too. -/
def State.retarget (s : State) (m : Migration) : State :=
  { s with
    cores := s.cores.map (fun p => (p.1, { p.2 with
      quay := p.2.quay.map (fun e => { e with at_ := m.line e.at_, bytes := m.stores e.bytes, tagged := e.tagged.map m.unit })
      gathers := p.2.gathers.map (fun g =>
        { g with lines := g.lines.map m.line, bytes := m.stores g.bytes, tagged := g.tagged.map m.unit })
      l1 := p.2.l1.filter (fun l => m.line l.at_ == l.at_)
      loads := p.2.loads.map (fun l => { l with threads := l.threads.map (fun t =>
        { t with cells := t.cells.map (fun c => (m.addr c.1, c.2)) }) }) }))
    writes := s.writes.map (fun w => { w with
      at_ := m.line w.at_, bytes := m.stores w.bytes, tagged := w.tagged.map m.unit, reads := w.reads.map (fun r => (m.addr r.1, r.2)) })
    olds := s.olds.filter (fun x => m.addr x.addr == x.addr)
    atoms := s.atoms.map (fun a => { a with
      threads := a.threads.map (fun t => { t with at_ := m.line t.at_, addr := m.addr t.addr }) }) }

/-- The monitors of a moved page follow it to its new home (log 26). -/
def State.moveMonitors (s : State) (die : Nat) (m : Migration) : State :=
  let moved := (s.die die).monitors.filter (fun x => x.cells.any (fun a => m.addr a != a))
  let s := s.freeMonitors (fun x => x.cells.any (fun a => m.addr a != a))
  moved.foldl (fun s x => s.arm m.toDie { x with cells := x.cells.map m.addr }) s

/-- The page's listed bytes and tags copied to the new frame (R181 step 2). -/
def State.copyPage (s : State) (m : Migration) : State :=
  let s := (s.mem.filter (fun c => m.new ≤ c.1 && c.1 < m.new + m.bytes)).foldl (fun s c => { s with mem := s.mem.set c.1 0#8 }) s
  let s := (s.mem.filter (fun c => m.addr c.1 != c.1)).foldl (fun s c => { s with mem := s.mem.set (m.addr c.1) c.2 }) s
  let tags := s.tags.filter (fun u => !(m.new ≤ u * 16 && u * 16 < m.new + m.bytes))
  { s with tags := tags.foldl (fun l u => if m.unit u = u then l else insNat (m.unit u) l) tags }

/-- MIGRATION_COMPLETE (R181): the copy, the leaf, the shootdown, the stalled writes, the old frame. With MLK found set the
move is abandoned. -/
def execMigrationComplete (die page : Nat) (s : State) : Host.Outcome State Fault Refusal :=
  match (s.die die).migrations.find? (fun m => m.old == page) with
  | none => s.noEvent
  | some m =>
    let e := leNat (s.physRead m.pte 8)
    let r : PageRange := ⟨m.asid, m.page / 65536, some (m.bytes / 65536)⟩
    let done (s : State) : State := s.updDie die (fun d => { d with migrations := d.migrations.filter (fun x => x.old != page) })
    if bitOf e 53 then .next (done s)
    else if !s.ringRoom die 4 then s.noEvent
    else
      let s := s.copyPage m
      let leaf := setBits (setBits e 63 60 m.toDie) 47 16 (m.new % 2 ^ 44 / 65536)
      let s := (s.physWrite m.pte (natLe 8 leaf)).dropRange r
      let s := done ((s.retarget m).moveMonitors die m)
      match s.produce die 4 (natLe 8 (m.old + (if m.bytes = 2 ^ 21 then 1 else 0))) with
      | .error pa => .fault (.badPhysical pa)
      | .ok s => .next (s.updDie die (fun d => d.resetPage page))

/-! ### Errors and links (R252, R267) -/

/-- An ECC posted to a warp that consumes failed data (R252); it is taken at the warp's next boundary. -/
def State.postEcc (s : State) (team warp : Nat) (info : Word64) : State :=
  s.updWarp team warp (fun w => if w.done then w else { w with postedEcc := some (w.postedEcc.getD info) })

/-- ECC_UNCORRECTABLE (R252): the consumer of failed data receives ECC. -/
def execEccUncorrectable (team warp : Nat) (va : BitVec 56) (s : State) : Host.Outcome State Fault Refusal :=
  .next (s.postEcc team warp (va.zeroExtend 64))

/-- ECC_CORRECTED (R252): CECNT of the die rises by one. -/
def execEccCorrected (die : Nat) (s : State) : Host.Outcome State Fault Refusal :=
  if die < 9 then .next (s.bumpDie die 0x107 1) else s.noEvent

/-- LINK_FLIT_CHECK_FAIL (R267): a flit of a secure agent's traffic, which alone is checked, posts ECC to its consumer, and the link
retrains. -/
def execLinkFlitCheckFail (link team warp : Nat) (s : State) : Host.Outcome State Fault Refusal :=
  if ((s.team? team).map (fun t => s.launchSecure t.launch)).getD false then
    .next { s.postEcc team warp 0#64 with retraining := insNat link s.retraining }
  else s.noEvent

/-- LINK_RETRAIN_DONE (R267). -/
def execLinkRetrainDone (link : Nat) (s : State) : Host.Outcome State Fault Refusal :=
  if s.retraining.contains link then .next { s with retraining := s.retraining.filter (· != link) }
  else s.noEvent

end Sys2Proof.Machine
end

