-- ==== Sys2Proof/Machine/Package.lean ====
section
/-! DEFINITION. The package: circuits, the second tier, power and islands, parking, microcode, checkpoint and restore,
cold reset, attestation, the host's aperture (spec/13 R266, spec/15 R277 to R289). -/

namespace Sys2Proof.Machine

/-! ### Circuits (R280) -/

/-- A circuit entry's fields. -/
structure Circuit where
  en : Bool
  act : Bool
  ext : Bool
  port : Nat
  dieA : Nat
  dieB : Nat
  wmask : Nat
  deriving DecidableEq, Repr

/-- The fields of a circuit's word. -/
def circuitOf (w : Word64) : Circuit :=
  let n := w.toNat
  ⟨bitOf n 63, bitOf n 62, bitOf n 61, bitsOf n 60 57, bitsOf n 56 53, bitsOf n 52 49, bitsOf n 15 0⟩

/-- Two circuits lie on one port, or on one die pair. -/
def Circuit.meets (a b : Circuit) : Bool :=
  if a.ext != b.ext then false
  else if a.ext then a.port == b.port
  else (a.dieA == b.dieA && a.dieB == b.dieB) || (a.dieA == b.dieB && a.dieB == b.dieA)

/-- The other entries that claim a wavelength of an entry on its port or die pair. -/
def State.circuitRivals (s : State) (c : Nat) (x : Circuit) : List Nat :=
  (List.range 1024).filter (fun i =>
    let y := circuitOf (s.word (0x3000 + i))
    i != c && (y.en || y.act) && x.meets y && x.wmask &&& y.wmask != 0)

/-- An entry's set-up is requested and not complete, and it may be refused: the fixed circuits keep their EN. -/
def State.circuitPending (s : State) (c : Nat) : Bool :=
  let y := circuitOf (s.word (0x3000 + c))
  24 ≤ c && y.en && !y.act

/-- Set-up of entry c is refused: a wavelength is used already, or claimed at once by a lower entry. -/
def State.circuitRefused (s : State) (c : Nat) (x : Circuit) : Bool :=
  8 < x.dieA || (!x.ext && (8 < x.dieB || adjacent x.dieA x.dieB)) || (x.ext && s.pkgId == 0xFFFFF#20)
    || (s.circuitRivals c x).any (fun i => i < c || !s.circuitPending i)

/-- Entry c has claimed its wavelengths: the higher entries that claim one of them at once are refused (R280). -/
def State.claimCircuit (s : State) (c : Nat) (w : Word64) : State :=
  (s.circuitRivals c (circuitOf w)).foldl (fun s i =>
    s.setWord (0x3000 + i) ((s.word (0x3000 + i) &&& ~~~(bitRange 63 63)) ||| bitRange 18 18)) (s.setWord (0x3000 + c) w)

/-- A write of a circuit's word: of the fixed circuits WMASK alone, with ERR and no change where a live circuit uses one of the
wavelengths (log 25); of the others everything while EN is 0, and EN cleared otherwise. -/
def State.writeCircuit (s : State) (c : Nat) (v : Word64) : State :=
  let n := 0x3000 + c
  let old := s.word n
  let en := bitRange 63 63
  let err := bitRange 18 18
  if c < 24 then
    let new := mergeWord old v (bitRange 15 0) 0#64
    if s.circuitRefused c (circuitOf new) then s.setWord n (old ||| err) else s.claimCircuit c (new &&& ~~~err)
  else if old.getLsbD 63 then (if v.getLsbD 63 then s else s.setWord n (old &&& ~~~en))
  else
    let new := mergeWord old v (bitRange 61 19 ||| bitRange 15 0) 0#64
    if !v.getLsbD 63 then s.setWord n new
    else if s.circuitRefused c (circuitOf new) then s.setWord n (new ||| err)
    else s.claimCircuit c ((new &&& ~~~err) ||| en)

/-- CIRCUIT_SETUP: a write with EN set. -/
def execCircuitSetup (c : Nat) (v : Word64) (s : State) : Host.Outcome State Fault Refusal :=
  if c < 1024 then s.hostWrote (s.writeCircuit c (v ||| bitRange 63 63)) else s.noEvent

/-- CIRCUIT_TEARDOWN: EN cleared; it accepts no new message. -/
def execCircuitTeardown (c : Nat) (s : State) : Host.Outcome State Fault Refusal :=
  if c < 1024 then s.hostWrote (s.writeCircuit c (s.word (0x3000 + c) &&& ~~~(bitRange 63 63)))
  else s.noEvent

/-- CIRCUIT_ACTIVE: set-up completes. -/
def execCircuitActive (c : Nat) (s : State) : Host.Outcome State Fault Refusal :=
  let x := circuitOf (s.word (0x3000 + c))
  if c < 1024 && x.en && !x.act then .next (s.setWord (0x3000 + c) (s.word (0x3000 + c) ||| bitRange 62 62))
  else s.noEvent

/-- CIRCUIT_INACTIVE: every message sent has landed. -/
def execCircuitInactive (c : Nat) (s : State) : Host.Outcome State Fault Refusal :=
  let x := circuitOf (s.word (0x3000 + c))
  if c < 1024 && !x.en && x.act && !s.outbox.any (fun m => m.circuit == c) then
    .next (s.setWord (0x3000 + c) (s.word (0x3000 + c) &&& ~~~(bitRange 62 62)))
  else s.noEvent

/-! ### PKGID, the second tier, the aperture (R277 to R279) -/

/-- A write of PKGID: the first since reset. -/
def State.writePkgid (s : State) (v : Word64) : State :=
  if s.pkgSet then s else { s.setWord 0x10 (v &&& bitRange 19 0) with pkgSet := true }

/-- PKGID_WRITE (R278). -/
def execPkgidWrite (v : Word64) (s : State) : Host.Outcome State Fault Refusal := s.hostWrote (s.writePkgid v)

/-- A write of TIERCFG: 0b11 is ignored. -/
def State.writeTiercfg (s : State) (v : Word64) : State := if v &&& 3#64 = 3#64 then s else s.setWord 0x12 (v &&& 3#64)

/-- TIERCFG_WRITE (R279); TIERSZ reads tierSize. -/
def execTiercfgWrite (v : Word64) (s : State) : Host.Outcome State Fault Refusal := s.hostWrote (s.writeTiercfg v)

/-- CXL_PORT_TRAINED (R279): a port's device, of at most 4,096 GB, and whether it reports persistence. -/
def execCxlPortTrained (port capacity : Nat) (persistent : Bool) (s : State) : Host.Outcome State Fault Refusal :=
  if port < 4 && capacity ≤ 4096 * 10 ^ 9 then .next { s with ports := Tbl.put port (capacity, persistent) s.ports }
  else s.noEvent

/-- HOST_APERTURE_ACCESS (R266, R277): bytes at APBASE. In a secure region, or while only the mailbox answers, it aborts and
leaves memory as it was; a read answers the bytes. -/
def execHostApertureAccess (off : Nat) (write : Option (List Byte)) (len : Nat) (s : State) :
    Host.Outcome State Fault Refusal :=
  let pa := bitsOf (s.word 0x11).toNat 51 32 * 2 ^ 32 + off
  let n := match write with | some b => b.length | none => len
  let answer (a : Option (List Byte)) : State := if write.isSome then s else { s with answers := a :: s.answers }
  if 2 ^ 32 < off + n then s.noEvent
  else if s.recovery || (List.range n).any (fun i => s.secureAt (pa + i)) then .next (answer none)
  else
    match (List.range n).find? (fun i => 2 < (pa + i) / 2 ^ 48 || (s.cell? (pa + i)).isNone) with
    | some i => .fault (.badPhysical (pa + i))
    | none =>
      match write with
      | none => .next (answer (some (s.physRead pa n)))
      | some b => .next (s.writeHome ((b.zipIdx).map (fun p => (pa + p.2, p.1))))

/-! ### Power (R283 to R286) -/

/-- A write of PCEIL: a ceiling outside 500 to 1,400 sets REJ and is ignored. -/
def State.writePceil (s : State) (v : Word64) : State :=
  let old := mergeWord (s.word 0x30) v 0#64 (bitRange 31 30)
  let c := bitsOf v.toNat 10 0
  if c < 500 || 1400 < c then s.setWord 0x30 (old ||| bitRange 30 30)
  else s.setWord 0x30 (mergeWord old v (bitRange 10 0) 0#64)

/-- CEILING_WRITE (R283). -/
def execCeilingWrite (v : Word64) (s : State) : Host.Outcome State Fault Refusal := s.hostWrote (s.writePceil v)

/-- A core-pair island (R13). -/
def isPair (i : Nat) : Bool := i < 126 && i % 14 < 9

/-- The word of an island. -/
def islandWord (i : Nat) : Nat := 0x800 + i

/-- CUR of an island. -/
def State.islandCur (s : State) (i : Nat) : Nat := bitsOf (s.word (islandWord i)).toNat 15 13

/-- REQ of an island. -/
def State.islandReq (s : State) (i : Nat) : Nat := bitsOf (s.word (islandWord i)).toNat 10 8

/-- BUSY of an island. -/
def State.islandBusy (s : State) (i : Nat) : Bool := (s.word (islandWord i)).getLsbD 0

/-- The state that an island should have: the slower of REQ and the limiter's cap (R285). -/
def State.islandGoal (s : State) (i : Nat) : Nat := max (s.islandReq i) (Tbl.get s.caps i 0)

/-- An island with CUR and BUSY set. -/
def State.setIsland (s : State) (i cur : Nat) (busy : Bool) : State :=
  let w := setBits (setBits (s.word (islandWord i)).toNat 15 13 cur) 0 0 (if busy then 1 else 0)
  s.setWord (islandWord i) (BitVec.ofNat 64 w)

/-- An island that is not parked starts for its goal (R286): a lowering ends a raise at the state reached; any other change
waits for the transition's end. -/
def State.startIsland (s : State) (i : Nat) : State :=
  let cur := s.islandCur i
  let goal := s.islandGoal i
  if cur = 7 then s
  else if !s.islandBusy i then
    if goal = cur then s else { s.setIsland i cur true with moving := Tbl.put i goal s.moving }
  else s

/-- The state that an island's raise has reached, or its state (R286; log 12). -/
def State.islandReached (s : State) (i : Nat) : Nat :=
  let cur := s.islandCur i
  match Tbl.look i s.moving with
  | some goal => if goal < cur then cur - Config.raiseReached s.fresh i % (cur - goal) else cur
  | none => cur

/-- The limiter lowers an island by one state: at once, ending a raise at the state reached (R286). -/
def State.lowerIsland (s : State) (i : Nat) : State :=
  let cur := s.islandReached i
  let s : State := { s with caps := Tbl.put i (cur + 1) s.caps, fresh := s.fresh + 1 }
  let goal := s.islandGoal i
  { s.setIsland i cur true with moving := Tbl.put i goal s.moving }

/-- A write of an island's word (R285): REQ of 7, or a non-zero REQ of an island that is no core pair, is ignored. -/
def State.writeIsland (s : State) (i : Nat) (v : Word64) : State :=
  let req := bitsOf v.toNat 10 8
  if req = 7 || (req != 0 && !isPair i) then s
  else (s.setWord (islandWord i) (mergeWord (s.word (islandWord i)) v (bitRange 10 8) 0#64)).startIsland i

/-- ISLAND_REQUEST_WRITE (R285). -/
def execIslandRequestWrite (i : Nat) (v : Word64) (s : State) : Host.Outcome State Fault Refusal :=
  if i < 128 then s.hostWrote (s.writeIsland i v) else s.noEvent

/-- ISLAND_TRANSITION_DONE (R286): CUR is the new state; a request made meanwhile applies now. -/
def execIslandTransitionDone (i : Nat) (s : State) : Host.Outcome State Fault Refusal :=
  match Tbl.look i s.moving with
  | none => s.noEvent
  | some goal => .next (({ s.setIsland i goal false with moving := Tbl.del i s.moving } : State).startIsland i)

/-- The core-pair islands that run. -/
def State.runningPairs (s : State) : List Nat := (List.range 126).filter (fun i => isPair i && s.islandCur i != 7)

/-- The least of some numbers, or d. -/
def leastOf (d : Nat) (l : List Nat) : Nat := l.foldl min d

/-- LIMITER_STEP (R283, R284): the average is reported; over the ceiling, every core-pair island in the fastest occupied
state above P6 is lowered by one state. Steps below the ceiling less 3% are counted. -/
def execLimiterStep (avg projected : Nat) (s : State) : Host.Outcome State Fault Refusal :=
  let ceil := bitsOf (s.word 0x30).toNat 10 0 * 1000
  let s := s.setWord 0x30 (BitVec.ofNat 64 (setBits (s.word 0x30).toNat 63 32 avg))
  let s := if ceil < avg then (s.setWord 0x30 (s.word 0x30 ||| bitRange 31 31)).raiseMsix 0 else s
  let below := if projected * 100 < ceil * 97 then s.below + 1 else 0
  let s : State := { s with below := below }
  if ceil < projected then
    let fast := leastOf 6 (s.runningPairs.map s.islandCur)
    .next ((s.runningPairs.filter (fun i => s.islandCur i == fast && fast < 6)).foldl (fun s i => s.lowerIsland i) s)
  else .next s

/-- LIMITER_RAISE (R284): after ten steps below, the islands furthest below their requests rise by one state. -/
def execLimiterRaise (s : State) : Host.Outcome State Fault Refusal :=
  if s.below < 10 then s.noEvent
  else
    let gap (i : Nat) : Nat := Tbl.get s.caps i 0 - s.islandReq i
    let most := (s.runningPairs.map gap).foldl max 0
    let up := s.runningPairs.filter (fun i => 0 < most && gap i == most)
    .next (up.foldl (fun s i => ({ s with caps := Tbl.put i (Tbl.get s.caps i 0 - 1) s.caps } : State).startIsland i)
      { s with below := 0 })

/-! ### Parking and microcode (R287, R288) -/

/-- A die's state in DPST: 0 running, 1 draining, 2 parked, 3 unparking. -/
def State.parkState (s : State) (d : Nat) : Nat := bitsOf (s.word 0x61).toNat (2 * d + 1) (2 * d)

/-- The state with a die's DPST. -/
def State.setParkState (s : State) (d v : Nat) : State :=
  s.setWord 0x61 (BitVec.ofNat 64 (setBits (s.word 0x61).toNat (2 * d + 1) (2 * d) v))

/-- The core-pair islands of a die. -/
def pairsOf (d : Nat) : List Nat := (List.range 9).map (fun p => 14 * d + p)

/-- A die's core-pair islands at P7, in transition or not; what they moved to is past. -/
def State.setPairs (s : State) (d : Nat) (busy : Bool) : State :=
  (pairsOf d).foldl (fun s i => { s.setIsland i 7 busy with moving := Tbl.del i s.moving }) s

/-- A die unparks: its core-pair islands are in transition (R286). -/
def State.unpark (s : State) (d : Nat) : State := (s.setPairs d true).setParkState d 3

/-- A write of DPARK: a 1 drains a running die; a 0 unparks a parked one. -/
def State.writeDpark (s : State) (v : Word64) : State :=
  let s := s.setWord 0x60 (v &&& bitRange 8 0)
  (List.range 9).foldl (fun s d =>
    if v.getLsbD d && s.parkState d == 0 then s.setParkState d 1
    else if !v.getLsbD d && s.parkState d == 2 then s.unpark d
    else s) s

/-- DIE_PARK (R287): DPARK written with the die's bit set. -/
def execDiePark (die : Nat) (s : State) : Host.Outcome State Fault Refusal :=
  if die < 9 then s.hostWrote (s.writeDpark (s.word 0x60 ||| bitRange die die)) else s.noEvent

/-- DIE_UNPARK (R287): DPARK written with the die's bit clear. -/
def execDieUnpark (die : Nat) (s : State) : Host.Outcome State Fault Refusal :=
  if die < 9 then s.hostWrote (s.writeDpark (s.word 0x60 &&& ~~~(bitRange die die))) else s.noEvent

/-- DIE_DRAIN_END (R286, R287): no team is left on the die; its core-pair islands go to P7, and, with its bit written 0
meanwhile, it unparks. -/
def execDieDrainEnd (die : Nat) (s : State) : Host.Outcome State Fault Refusal :=
  if 9 ≤ die || s.parkState die != 1 || s.teams.any (fun p => p.2.die == die && p.2.state.holds) then
    s.noEvent
  else if !(s.word 0x60).getLsbD die then .next (s.unpark die)
  else .next ((s.setPairs die false).setParkState die 2)

/-- DIE_UNPARK_DONE (R286 to R288): the die runs again, with the microcode that waited; a 1 written meanwhile drains it. -/
def execDieUnparkDone (die : Nat) (s : State) : Host.Outcome State Fault Refusal :=
  if 9 ≤ die || s.parkState die != 3 then s.noEvent
  else
    let s := (pairsOf die).foldl (fun s i => { s.setIsland i (s.islandGoal i) false with moving := Tbl.del i s.moving }) s
    let s := s.updDie die (fun d => { d with micro := d.microPending.getD d.micro, microPending := none })
    .next (s.setParkState die (if (s.word 0x60).getLsbD die then 1 else 0))

/-- MICROCODE_UPDATE (R281, R288): an image that both signatures and the fused counter accept waits for the unpark. -/
def execMicrocodeUpdate (die version : Nat) (ecdsa lms : Bool) (s : State) : Host.Outcome State Fault Refusal :=
  if 9 ≤ die || s.parkState die != 2 then s.noEvent
  else if ecdsa && lms && Config.fusedVersion ≤ version then .next (s.updDie die (fun d => { d with microPending := some version }))
  else .next s

/-! ### Checkpoint and restore (R289) -/

/-- The checkpoint region's first second-tier offset. -/
def State.ckptBase (s : State) : Nat := (s.word 0x71).toNat / 65536 * 65536

/-- Bytes of the checkpoint region. -/
def ckptBytes : Nat := 9 * hbmBytes

/-- The region lies in the tier, on ports whose devices report persistence. -/
def State.ckptPersistent (s : State) : Bool :=
  let w := s.tierWays
  s.ckptBase + ckptBytes ≤ s.tierSize
    && (List.range (4 / w)).all (fun i =>
      !overlap s.ckptBase ckptBytes (s.groupBase i) (s.groupCap i)
        || (List.range w).all (fun j => ((Tbl.look (w * i + j) s.ports).map Prod.snd).getD false))

/-- A SEC region of the table exists. -/
def State.anySecure (s : State) : Bool :=
  (List.range 16).any (fun e => let a := s.word (0x400 + 2 * e); a.getLsbD 0 && a.getLsbD 1)

/-- The checkpoint region is wholly SEC. -/
def State.ckptSecure (s : State) : Bool :=
  (List.range ((ckptBytes + 65535) / 65536)).all (fun i => s.secureAt (2 * 2 ^ 48 + s.ckptBase + i * 65536))

/-- Some job runs. -/
def State.jobRuns (s : State) : Bool := s.completions.any (fun p => p.2.level == 3#2 && p.2.state == .running)

/-- A write of CKPT: ERR and DONE clear by 1; START and RST start what is not refused. -/
def State.writeCkpt (s : State) (v : Word64) : State :=
  let s := s.setWord 0x70 (mergeWord (s.word 0x70) v 0#64 (bitRange 3 2))
  let err (s : State) : State := s.setWord 0x70 (s.word 0x70 ||| bitRange 3 3)
  if s.ckpt != .idle then s
  else if v.getLsbD 0 then
    if !s.ckptPersistent || (s.anySecure && !s.ckptSecure) then err s
    else
      let mine := (s.teams.filter (fun p => p.2.state == .resident)).map Prod.fst
      { s with ckpt := .saving, ckptTeams := mine }
  else if v.getLsbD 1 then (if s.jobRuns then s else { s with ckpt := .restoring })
  else s

/-- CHECKPOINT_START (R289): CKPT written with START. -/
def execCheckpointStart (s : State) : Host.Outcome State Fault Refusal := s.hostWrote (s.writeCkpt 1#64)

/-- RESTORE_START (R289): CKPT written with RST. -/
def execRestoreStart (s : State) : Host.Outcome State Fault Refusal := s.hostWrote (s.writeCkpt 2#64)

/-- Every reduction, copy-back and migration has finished. -/
def State.quiet (s : State) : Bool :=
  s.reds.isEmpty && s.writes.isEmpty && s.dies.all (fun p => p.2.migrations.isEmpty)
    && !s.xfers.any (fun x => match x.kind with | .copyback _ _ => true | .drainAdd _ => true | _ => false)

/-- The offset in the checkpoint region of an HBM cell. -/
def ckptOffset (cell : Nat) : Nat := cell % 2 ^ 48 / 2 ^ 44 * hbmBytes + cell % 2 ^ 44

/-- The HBM cell at an offset of the checkpoint region. -/
def ckptCell (off : Nat) : Nat := 2 ^ 48 + off / hbmBytes * 2 ^ 44 + off % hbmBytes

/-- HBM cells of the ENC regions (R266, R267). -/
def State.encCells (s : State) : List Nat :=
  (List.range 16).flatMap (fun e =>
    let a := (s.word (0x400 + 2 * e)).toNat
    let b := (s.word (0x401 + 2 * e)).toNat
    let lo := bitsOf a 51 16 * 65536
    if bitOf a 0 && bitOf a 2 then
      (List.range (bitsOf b 51 16 * 65536 - lo)).filterMap (fun i => (s.cell? (lo + i)).filter (fun c => c / 2 ^ 48 == 1))
    else [])

/-- A byte of an HBM cell as the checkpoint region holds it: sealed where the cell lies in an ENC region. -/
def sealed (enc : List Nat) (cell : Nat) (b : Byte) : Byte := if enc.contains cell then b ^^^ Config.sealPad (ckptOffset cell) else b

/-- A second-tier cell's offset in the checkpoint region; a cell beyond its group's share has none (R279). -/
def State.inCkpt (s : State) (cell : Nat) : Option Nat :=
  let o := s.tierOffset cell
  if s.tierCell o = some cell && s.ckptBase ≤ o && o < s.ckptBase + ckptBytes then some (o - s.ckptBase) else none

/-- Each die's HBM copied, with tags, to the checkpoint region. -/
def State.ckptSave (s : State) : State :=
  let enc := s.encCells
  let src := (s.mem.filter (fun c => c.1 / 2 ^ 48 == 1)).map Prod.fst
  let dest (c : Nat) : Nat := (s.tierCell (s.ckptBase + ckptOffset c)).getD 0
  let clear := (s.mem.filter (fun c => (s.inCkpt c.1).isSome)).foldl (fun (m : Memory) c => m.set c.1 0#8) s.mem
  { s with
    mem := (src ++ enc).foldl (fun m c => m.set (dest c) (sealed enc c (s.mem.byte c))) clear
    tags := (s.tags.filter (fun u => u * 16 / 2 ^ 48 == 1)).foldl (fun l u => insNat (dest (u * 16) / 16) l)
      (s.tags.filter (fun u => (s.inCkpt (u * 16)).isNone)) }

/-- The checkpoint region copied back to each die's HBM, with tags. -/
def State.ckptLoad (s : State) : State :=
  let enc := s.encCells
  let src := s.mem.filterMap (fun c => (s.inCkpt c.1).map (fun o => (ckptCell o, c.2)))
  let clear := (s.mem.filter (fun c => c.1 / 2 ^ 48 == 1)).foldl (fun (m : Memory) c => m.set c.1 0#8) s.mem
  let plain := src.foldl (fun (m : Memory) c => m.set c.1 c.2) clear
  { s with
    mem := enc.foldl (fun (m : Memory) c => m.set c (sealed enc c (m.byte c))) plain
    tags := (s.tags.filterMap (fun u => (s.inCkpt (u * 16)).map (fun o => ckptCell o / 16))).foldl (fun l u => insNat u l)
      (s.tags.filter (fun u => u * 16 / 2 ^ 48 != 1)) }

/-- CHECKPOINT_DONE (R289): every team saved and every reduction, copy-back and migration finished, the copy completes, the
teams resume, DONE is set and vector 1 raised. -/
def execCheckpointDone (s : State) : Host.Outcome State Fault Refusal :=
  if s.ckpt != .saving || s.teams.any (fun p => p.2.state == .resident) || !s.quiet then s.noEvent
  else
    let s := s.ckptSave
    let s := s.ckptTeams.foldl (fun s t => s.updTeam t (fun t =>
      if t.state == .saved && !t.escalated && !t.ended then { t with state := .pendingResume } else t)) s
    .next ((({ s with ckpt := .idle, ckptTeams := [] } : State).setWord 0x70 (s.word 0x70 ||| bitRange 2 2)).raiseMsix 1)

/-- RESTORE_DONE (R289): the reverse copy completes; DONE is set. -/
def execRestoreDone (s : State) : Host.Outcome State Fault Refusal :=
  if s.ckpt != .restoring then s.noEvent
  else .next ((({ s.ckptLoad with ckpt := .idle } : State).setWord 0x70 (s.word 0x70 ||| bitRange 2 2)).raiseMsix 1)

/-! ### Root of trust (R281, R282) -/

/-- COLD_RESET (R281): the machine after reset, memory kept (log 14); a refused image leaves it in recovery mode. The keys of ENC regions
are drawn afresh, so what their cells read as is free (R267; log 14). -/
def execColdReset (ecdsa lms current : Bool) (s : State) : Host.Outcome State Fault Refusal :=
  .next { State.reset with
    mem := s.encCells.foldl (fun (m : Memory) c => m.set c (Config.freeByte s.fresh c)) s.mem
    tags := s.tags
    agenda := s.agenda
    fresh := s.fresh + 1
    nextId := s.nextId
    recovery := !(ecdsa && lms && current) }

/-- The world words of the package: the cores', the queues' and the key tables' (R265). -/
def State.worldWords (s : State) : List Word64 :=
  (List.range 9).flatMap (fun d => (List.range 18).map (fun c => s.dieWord d (0x130 + c)) ++ [s.dieWord d 0x380, s.dieWord d 0x144])

/-- The digests of the loaded images: Igtahild's, the base die's and the die controllers' as booted, and each die's core microcode
(R281, R288; log 11). -/
def State.imageDigests (s : State) : List Byte :=
  (List.range 3).flatMap (fun i => Config.firmwareDigest i 0)
    ++ (List.range 9).flatMap (fun d => Config.firmwareDigest 3 (s.die d).micro)

/-- The bytes of an attestation report (R282). -/
def State.report (s : State) (nonce : List Byte) : List Byte :=
  natLe 4 s.pkgId.toNat ++ natLe 4 stepCode.toNat ++ s.imageDigests
    ++ (List.range 32).flatMap (fun i => natLe 8 (s.word (0x400 + i)).toNat)
    ++ s.worldWords.flatMap (fun w => natLe 8 w.toNat) ++ nonce

/-- ATTESTATION_REQUEST (R282): a 32-byte nonce is answered by a signed report. -/
def execAttestationRequest (nonce : List Byte) (s : State) : Host.Outcome State Fault Refusal :=
  if nonce.length = 32 then
    let r := s.report nonce
    .next { s with reports := (r, Config.attestSign r) :: s.reports }
  else s.noEvent

end Sys2Proof.Machine
end

