-- ==== Sys2Proof/Machine/Folio.lean ====
section
/-! DEFINITION. Folios: the loader's checks, the choice of an image, the spine and the handle (spec/04 R87, R88,
spec/14 R268 to R276). -/

namespace Sys2Proof.Machine

/-! ### The file (R268 to R270) -/

/-- A number of n bytes in a file. -/
def fileNat (b : List Byte) (i n : Nat) : Nat := leNat ((b.drop i).take n)

/-- A quire as the file's directory gives it (R268). -/
structure Quire where
  kind : Nat
  img : Nat
  off : Nat
  len : Nat
  deriving DecidableEq, Repr

/-- NQ, NIMG, ATTR bit 0 and OWLD (R268). -/
def fileQuireCount (b : List Byte) : Nat := fileNat b 6 2
def fileImageCount (b : List Byte) : Nat := fileNat b 8 2
def fileWritable (b : List Byte) : Bool := fileNat b 10 1 == 1
def fileOwner (b : List Byte) : Bool := fileNat b 11 1 == 1

/-- The quire directory (R268). -/
def fileQuires (b : List Byte) : List Quire :=
  (List.range (fileQuireCount b)).map (fun i =>
    let e := 64 + 16 * i
    ⟨fileNat b e 1, fileNat b (e + 1) 1, fileNat b (e + 4) 4, fileNat b (e + 8) 4⟩)

/-- The bytes of a quire. -/
def Quire.content (q : Quire) (b : List Byte) : List Byte := (b.drop q.off).take q.len

/-- Header and directory are laid out as R268 says; the kinds, the image table and the images of code quires are as R269 and
R270 say. -/
def fileOk (b : List Byte) : Bool :=
  let n := fileQuireCount b
  let m := fileImageCount b
  let qs := fileQuires b
  let tables := qs.filter (fun q => q.kind == 8)
  64 ≤ b.length && fileNat b 0 4 == 0x39464F58 && fileNat b 4 2 == 1 && 1 ≤ n && n ≤ 4096 && m ≤ 64
    && fileNat b 10 1 ≤ 1 && fileNat b 11 1 ≤ 1 && fileNat b 12 52 == 0
    && (List.range n).all (fun i => fileNat b (64 + 16 * i + 2) 2 == 0 && fileNat b (64 + 16 * i + 12) 4 == 0)
    && qs.all (fun q => ((1 ≤ q.kind && q.kind ≤ 9) || 0x80 ≤ q.kind) && q.off % 32 == 0 && q.off + q.len ≤ b.length
      && (q.kind != 1 || q.img < m))
    && tables.length == (if m = 0 then 0 else 1)
    && tables.all (fun q => q.len == 32 * m && (List.range m).all (fun i => fileNat b (q.off + 32 * i + 10) 22 == 0))
    && (m != 0 || qs.any (fun q => q.kind == 9))

/-- The images of the file: their table entries, their code quires, and the entries that the request gives (R269, R270). -/
def fileImages (f : FolioFile) : List FolioImage :=
  let b := f.bytes
  let qs := fileQuires b
  let at_ := ((qs.find? (fun q => q.kind == 8)).map Quire.off).getD 0
  (List.range (fileImageCount b)).map (fun i =>
    let e := at_ + 32 * i
    ⟨BitVec.ofNat 64 (fileNat b e 8), fileNat b (e + 8) 1, fileNat b (e + 9) 1,
      (qs.filter (fun q => q.kind == 1 && q.img == i)).flatMap (fun q => q.content b), f.entries.getD i []⟩)

/-- The translation of the portable quire, where the file has one (R269, R275). -/
def filePortable (f : FolioFile) : Option FolioImage :=
  if (fileQuires f.bytes).any (fun q => q.kind == 9) then some f.portable else none

/-- The quires placed beside the code: those of the chosen image and the shared ones, without annotations (R273). -/
def placedQuires (b : List Byte) (image : Option Nat) : List Quire :=
  (fileQuires b).filter (fun q => q.kind != 1 && q.kind < 0x80 && (q.img == 255 || some q.img == image))

/-! ### Checks -/

/-- Warps of a team of n threads. -/
def warpCount (n : Nat) : Nat := (n + 31) / 32

/-- The role directives of an entry hold R61's bounds and cover each warp exactly once. That a directive's last warp precedes its first, or
lies beyond the team, is refused too is the model's choice (log 48). -/
def rolesOk (e : FolioEntry) : Bool :=
  e.roles.isEmpty ||
    (e.roles.all (fun r => r.role ≤ 15 && r.give ≤ 504 && r.give % 8 == 0 && r.claim ≤ 504 && r.claim % 8 == 0)
      && (e.roles.map RolePlan.role).eraseDups.length == e.roles.length
      && (List.range (warpCount e.team)).all (fun w => (e.roles.filter (fun r => r.first ≤ w && w ≤ r.last)).length == 1)
      && e.roles.all (fun r => r.first ≤ r.last && r.last < warpCount e.team))

/-- The directive limits of R87 and the loader's check of R223. -/
def entryOk (es : List FolioEntry) (e : FolioEntry) : Bool :=
  8 ≤ e.regs && e.regs ≤ 512 && e.regs % 8 == 0 && rolesOk e && e.args ≤ 65536 && e.args % 4 == 0
    && 1 ≤ e.team && e.team ≤ 1024
    && (match e.convoy with | some n => 2 ≤ n && n ≤ 16 | none => true)
    && e.lstore % 16 == 0 && e.lstore + 256 * warpCount e.team ≤ 524288
    && e.buckets.length ≤ 16
    && e.buckets.all (fun b => b.conds.length ≤ 4 && b.conds.all (fun c => c.k ≤ 127)
        && (match es[b.entry]? with | some x => x.args == e.args | none => false))

/-- The instructions of some code from an offset; none where a word fails checks 1 and 2 of R79 or crosses a block (R67). -/
def codeInstrs (code : List Byte) (off : Nat) : Nat → Option (List Instr)
  | 0 => if code.isEmpty then some [] else none
  | fuel + 1 =>
    if code.isEmpty then some []
    else
      let w := wordOfBytes (code.take 16)
      match lenBytes (w.extractLsb' 0 2), decodeWord (clip w) with
      | some n, .ok i =>
        if n ≤ code.length && off % 32 + n ≤ 32 then (codeInstrs (code.drop n) (off + n) fuel).map (fun l => i :: l) else none
      | _, _ => none

/-- The one experimental form of ISA level 9 (R92). -/
def experimental : Instr → Bool
  | .mspa _ _ _ .s28 _ _ _ _ => true
  | _ => false

/-- An image holds the directive limits and decodes; one that uses the experimental form names its feature and its stepping (R92, R270,
R273). -/
def imageOk (m : FolioImage) : Bool :=
  1 ≤ m.entries.length && m.entries.length ≤ 65535 && m.entries.all (entryOk m.entries)
    && (match codeInstrs m.code 0 m.code.length with
        | some l => !l.any experimental || (m.req.getLsbD 0 && m.step == 0xB1)
        | none => false)

/-! ### The choice of an image (R270, R271) -/

/-- Features present (R270). -/
def State.present (s : State) : Word64 :=
  (if Config.stepIsB1 then 1#64 else 0#64) ||| (if s.ports.any (fun p => p.2.1 != 0) then 2#64 else 0#64) ||| 12#64

/-- The stepping code that an image names. -/
def stepByte : Nat := stepCode.toNat % 256

/-- An image is eligible (R271). No opcode of level 9 has a removal level at or below 9. -/
def State.eligible (s : State) (m : FolioImage) : Bool :=
  m.req &&& ~~~(s.present &&& s.word 0x20) == 0#64 && m.lvl ≤ 9 && (m.step == 0 || m.step == stepByte)

/-- Image a comes before image b, of the same table and earlier in it (R271). -/
def imageFirst (a b : FolioImage) : Bool :=
  if (a.step == stepByte) != (b.step == stepByte) then a.step == stepByte else b.lvl ≤ a.lvl

/-- The chosen image with its index in the table, or the portable form's translation where none is eligible (R271, R275, R276). -/
def State.chooseImage (s : State) (f : FolioFile) : Option (FolioImage × Option Nat) :=
  match (fileImages f).zipIdx.filter (fun p => s.eligible p.1) with
  | [] => ((filePortable f).filter s.eligible).map (fun m => (m, none))
  | m :: r =>
    let best := r.foldl (fun best x => if imageFirst best.1 x.1 then best else x) m
    some (best.1, some best.2)

/-! ### The spine and the handle (R274) -/

/-- Bytes of a spine. -/
def spineLen (m : FolioImage) : Nat := 32 + 16 * m.entries.length

/-- The spine's header. -/
def Folio.header (x : Folio) (num : Nat) : List Byte :=
  let b (v : Bool) (i : Nat) : Nat := if v then 2 ^ i else 0
  natLe 32 (b x.live 150 + b x.secure 151 + b x.writable 152 + x.job.getD 0x3FFF * 2 ^ 160 + num * 2 ^ 176
    + x.image.entries.length * 2 ^ 192)

/-- The spine's entry records: code address, and the indexes of the shape, role-plan and bucket records. -/
def Folio.records (x : Folio) : List Byte :=
  (x.image.entries.zipIdx).flatMap (fun p =>
    let before := x.image.entries.take p.2
    natLe 8 p.1.code ++ natLe 2 p.2 ++ natLe 2 (before.filter (fun e => !e.roles.isEmpty)).length
      ++ natLe 2 (if p.1.buckets.isEmpty then 0xFFFF else (before.filter (fun e => !e.buckets.isEmpty)).length) ++ natLe 2 0)

/-- A folio's spine header written as the folio stands. -/
def State.writeSpine (s : State) (num : Nat) : State :=
  match Tbl.look num s.folios with
  | some x => s.place x.spinePA (x.header num)
  | none => s

/-- The least folio number from k that names no folio, else one that is no longer loaded (R273). -/
def State.freeFolio (s : State) (k : Nat) : Nat → Option Nat
  | 0 => (s.folios.find? (fun p => !p.2.live)).map Prod.fst
  | fuel + 1 => if (Tbl.look k s.folios).isNone then some k else s.freeFolio (k + 1) fuel

/-- The folio handle as 128 bits: object type 0x0001, over the spine. -/
def handleBits (va len : Nat) : Nat := va % 2 ^ 56 + len * 2 ^ 56 + 2 ^ 112 * 1

/-- The folio that a handle reaches in an address space: the one whose spine stands at the handle's base (R274). -/
def State.folioAt (s : State) (asid base : Nat) : Option (Nat × Folio) :=
  s.folios.find? (fun p => p.2.spineVA == base && p.2.asid == asid && s.physRead p.2.spinePA 32 == p.2.header p.1)

/-- The leaf entry of a 64 KiB code page in HBM: RD and X, W under the writable attribute, the owner's world (R169, R264,
R273). -/
def codeLeaf (pa : Nat) (writable secure : Bool) : Nat :=
  let page := pa - pa % 65536
  let view := if page / 2 ^ 48 = 1 then 2 ^ 56 + page % 2 ^ 48 / 2 ^ 44 * 2 ^ 60 + page % 2 ^ 44 else page % 2 ^ 48
  view + 0x53 + (if writable then 32 else 0) + (if secure then 2 ^ 54 else 0)

/-- Code pages of a loaded folio. -/
def codePages (pa len : Nat) : Nat := (pa % 65536 + len + 65535) / 65536

/-- What a load writes, in order: the code, the other quires, the spine, the leaf entries of the code pages (R273, R274). -/
def folioWrites (f : FolioFile) (x : Folio) (image : Option Nat) (num : Nat) : List (Nat × List Byte) :=
  (x.codePA, x.image.code)
    :: f.others.zip ((placedQuires f.bytes image).map (fun q => q.content f.bytes))
    ++ (x.spinePA, x.header num ++ x.records)
    :: (f.leaves.take (codePages x.codePA x.image.code.length)).zipIdx.map (fun p =>
        (p.1, natLe 8 (codeLeaf (x.codePA + 65536 * p.2) x.writable x.secure)))

/-- A load request gives every quire and every code page its place, the code and the quires in HBM (R168, R273). -/
def placesAll (f : FolioFile) (m : FolioImage) (image : Option Nat) : Bool :=
  f.others.length == (placedQuires f.bytes image).length && codePages f.codePA m.code.length ≤ f.leaves.length
    && (f.codePA :: f.others).all (fun pa => pa / 2 ^ 48 ≤ 1)

/-- Some write of a non-secure folio's load falls in a secure region (R266). -/
def State.loadShut (s : State) (secure : Bool) (writes : List (Nat × Nat)) : Bool :=
  writes.any (fun w => s.shutTo secure w.1 w.2)

/-- FOLIO_LOAD (R268 to R274): the checks, the chosen image's code and the shared quires, the spine, the mapping of the code, the
number and the tagged handle; a refused folio changes nothing. So does a request that leaves a quire or code page without its place, and
a non-secure load that would write a secure region (R266). -/
def execFolioLoad (f : FolioFile) (s : State) : Host.Outcome State Fault Refusal :=
  let owner := fileOwner f.bytes
  if s.recovery || !fileOk f.bytes || owner != f.world || 255 < f.asid then .next s
  else
    match s.chooseImage f with
    | none => .next s
    | some (m, image) =>
      if !imageOk m || !placesAll f m image then .next s
      else
        match s.freeFolio 1 (min 65535 (s.folios.length + 1)) with
        | none => .next s
        | some num =>
          let x : Folio := ⟨m, fileWritable f.bytes, owner, true, none, f.asid, f.codeVA, f.codePA, f.spineVA, f.spinePA⟩
          let writes := folioWrites f x image num
          let spans := writes.map (fun w => (w.1, w.2.length)) ++ (f.handlePA.map (fun h => (h / 16 * 16, 16))).toList
          let outside (w : Nat × Nat) : Option Nat :=
            (List.range w.2).findSome? (fun i => if (s.cell? (w.1 + i)).isNone then some (w.1 + i) else none)
          match spans.findSome? outside with
          | some pa => .fault (.badPhysical pa)
          | none =>
            if s.loadShut owner spans then .next s
            else
              let s := writes.foldl (fun s w => s.place w.1 w.2) { s with folios := Tbl.put num x s.folios }
              .next (match f.handlePA with
                | some h => (s.place (h / 16 * 16) (natLe 16 (handleBits f.spineVA (spineLen m)))).setUnitTag (h / 16 * 16) true
                | none => s)

/-- FOLIO_UNLOAD (R274): LIVE clears. -/
def execFolioUnload (num : Nat) (s : State) : Host.Outcome State Fault Refusal :=
  match Tbl.look num s.folios with
  | some x =>
    if x.live then s.hostWrote (({ s with folios := Tbl.put num { x with live := false } s.folios } : State).writeSpine num)
    else s.noEvent
  | none => s.noEvent

end Sys2Proof.Machine
end

