-- ==== Sys2Proof/Machine/Integer.lean ====
section
/-! DEFINITION. Integer, logic and warp-wide instructions (spec/05 R93, R94; spec/19 to 21). -/

namespace Sys2Proof.Machine

/-! ### Moulds -/

/-- An integer or packed-integer result (R345): element by element for a packed type, each element its own destination. -/
def intResult (t : Ty) (sat : Bool) (dw : Nat) (f : List Int → Int) (args : List Nat) : Nat :=
  if t.isPacked then
    joinElems t.ebits ((List.range t.elems).map (fun k =>
      writeWidth t.isSigned sat t.ebits t.ebits
        (f (args.map (fun v => intVal t.isSigned t.ebits (v / 2 ^ (t.ebits * k)))))))
  else writeWidth t.isSigned sat t.bits dw (f (args.map (intVal t.isSigned t.bits)))

/-- A bit-pattern result of the operation width into a destination (R49, R345). -/
def bitResult (t : Ty) (dw v : Nat) : Nat := writeWidth t.isSigned false t.bits dw (intVal t.isSigned t.bits v)

/-- The floor of v / 2^w. -/
def highHalf (w : Nat) (v : Int) : Int := v / (2 ^ w : Nat)

/-- Two register sources, 64-bit form or, with a control part, 96X form. -/
def State.int2 (s : State) (len : Nat) (g : Guard) (t : Ty) (d a b : Opnd) (x : XCtl) (f : Nat → Nat → Nat) :
    Host.Outcome State Fault Refusal :=
  let pd := (Pos.dst d (d.dstTy t)).withIx x
  let pa := (Pos.src 1 a (a.srcTy t)).withIx x
  let pb := (Pos.src 2 b (b.srcTy t)).withIx x
  s.alu len 0 g [pd, pa, pb] (some pd) noAb (fun c i =>
    .ofVal (f (x.sw1.apply t (c.int t i pa)) (x.sw2.apply t (c.int t i pb))))

/-- A register source and a 32-bit immediate, 96I form (R74). -/
def State.intImm (s : State) (g : Guard) (t : Ty) (d a : Opnd) (imm : Word) (f : Nat → Nat → Nat) :
    Host.Outcome State Fault Refusal :=
  let pd := Pos.dst d (d.dstTy t)
  let pa := Pos.src 1 a (a.srcTy t)
  s.alu 12 0 g [pd, pa] (some pd) noAb (fun c i => .ofVal (f (c.int t i pa) (t.immediate imm)))

/-- One register source, 64-bit form. -/
def State.int1 (s : State) (g : Guard) (t : Ty) (d a : Opnd) (f : Nat → Nat) : Host.Outcome State Fault Refusal :=
  let pd := Pos.dst d (d.dstTy t)
  let pa := Pos.src 1 a (a.srcTy t)
  s.alu 8 0 g [pd, pa] (some pd) noAb (fun c i => .ofVal (f (c.int t i pa)))

/-- Three register sources, 96X form. -/
def State.int3 (s : State) (g : Guard) (t : Ty) (d a b k : Opnd) (okK : Bool) (x : XCtl) (f : Nat → Nat → Nat → Nat)
    (third : Ctx → Nat → Pos → Nat) : Host.Outcome State Fault Refusal :=
  let pd := (Pos.dst d (d.dstTy t)).withIx x
  let pa := (Pos.src 1 a (a.srcTy t)).withIx x
  let pb := (Pos.src 2 b (b.srcTy t)).withIx x
  let pc := (Pos.src 3 k okK).withIx x
  s.alu 12 0 g [pd, pa, pb, pc] (some pd) noAb (fun c i => .ofVal (f (c.int t i pa) (c.int t i pb) (third c i pc)))

/-- The two-source function of an integer arithmetic instruction. -/
def arith (t : Ty) (sat : Bool) (d : Opnd) (f : Int → Int → Int) (x y : Nat) : Nat :=
  intResult t sat d.bits (fun l => f (l.getD 0 0) (l.getD 1 0)) [x, y]

/-- The two-source function of a logic instruction on patterns of the operation width (R314). -/
def logic (t : Ty) (d : Opnd) (f : Nat → Nat → Nat) (x y : Nat) : Nat := bitResult t d.bits (f x y)

/-! ### Integer arithmetic (R344 to R346) -/

/-- The product or its high half (R345). -/
def mulFn (t : Ty) (m : MulMod) (x y : Int) : Int :=
  match m with
  | .hi => highHalf t.bits (x * y)
  | _ => x * y

/-- IADD (R344, R345). -/
def execIadd (g : Guard) (t : Ty) (sat : Bool) (d a b : Opnd) (s : State) : Host.Outcome State Fault Refusal :=
  s.int2 8 g t d a b .plain (arith t sat d (· + ·))

/-- IADD, 96X form (R344). -/
def execIaddX (g : Guard) (t : Ty) (sat : Bool) (d a b : Opnd) (x : XCtl) (s : State) : Host.Outcome State Fault Refusal :=
  s.int2 12 g t d a b x (arith t sat d (· + ·))

/-- IADD, 96I form (R344). -/
def execIaddI (g : Guard) (t : Ty) (sat : Bool) (d a : Opnd) (imm : Word) (s : State) : Host.Outcome State Fault Refusal :=
  s.intImm g t d a imm (arith t sat d (· + ·))

/-- ISUB (R344, R345). -/
def execIsub (g : Guard) (t : Ty) (sat : Bool) (d a b : Opnd) (s : State) : Host.Outcome State Fault Refusal :=
  s.int2 8 g t d a b .plain (arith t sat d (· - ·))

/-- ISUB, 96X form (R344). -/
def execIsubX (g : Guard) (t : Ty) (sat : Bool) (d a b : Opnd) (x : XCtl) (s : State) : Host.Outcome State Fault Refusal :=
  s.int2 12 g t d a b x (arith t sat d (· - ·))

/-- IMUL (R344, R345). -/
def execImul (g : Guard) (t : Ty) (m : MulMod) (d a b : Opnd) (s : State) : Host.Outcome State Fault Refusal :=
  s.int2 8 g t d a b .plain (arith t (m == .sat) d (mulFn t m))

/-- IMUL, 96X form (R344). -/
def execImulX (g : Guard) (t : Ty) (m : MulMod) (d a b : Opnd) (x : XCtl) (s : State) : Host.Outcome State Fault Refusal :=
  s.int2 12 g t d a b x (arith t (m == .sat) d (mulFn t m))

/-- IMUL, 96I form (R344). -/
def execImulI (g : Guard) (t : Ty) (m : MulMod) (d a : Opnd) (imm : Word) (s : State) : Host.Outcome State Fault Refusal :=
  s.intImm g t d a imm (arith t (m == .sat) d (mulFn t m))

/-- Quotient and remainder of IDIV (R346): truncated toward zero; all ones by zero; the signed overflow its own case. -/
def divFn (t : Ty) (rem : Bool) (x y : Int) : Int :=
  if y = 0 then (if rem then x else if t.isSigned then -1 else intMax false t.bits)
  else if t.isSigned && x == intMin true t.bits && y == -1 then (if rem then 0 else x)
  else if rem then x.tmod y else x.tdiv y

/-- IDIV (R346). -/
def execIdiv (g : Guard) (t : Ty) (sat rem : Bool) (d a b : Opnd) (s : State) : Host.Outcome State Fault Refusal :=
  s.int2 8 g t d a b .plain (arith t sat d (divFn t rem))

/-- IMIN (R344, R345). -/
def execImin (g : Guard) (t : Ty) (sat : Bool) (d a b : Opnd) (s : State) : Host.Outcome State Fault Refusal :=
  s.int2 8 g t d a b .plain (arith t sat d min)

/-- IMIN, 96X form (R344). -/
def execIminX (g : Guard) (t : Ty) (sat : Bool) (d a b : Opnd) (x : XCtl) (s : State) : Host.Outcome State Fault Refusal :=
  s.int2 12 g t d a b x (arith t sat d min)

/-- IMAX (R344, R345). -/
def execImax (g : Guard) (t : Ty) (sat : Bool) (d a b : Opnd) (s : State) : Host.Outcome State Fault Refusal :=
  s.int2 8 g t d a b .plain (arith t sat d max)

/-- IMAX, 96X form (R344). -/
def execImaxX (g : Guard) (t : Ty) (sat : Bool) (d a b : Opnd) (x : XCtl) (s : State) : Host.Outcome State Fault Refusal :=
  s.int2 12 g t d a b x (arith t sat d max)

/-- IABS (R344, R345). -/
def execIabs (g : Guard) (t : Ty) (sat : Bool) (d a : Opnd) (s : State) : Host.Outcome State Fault Refusal :=
  s.int1 g t d a (fun x => intResult t sat d.bits (fun l => ((l.getD 0 0).natAbs : Int)) [x])

/-- IMAD (R344, R345). -/
def execImad (g : Guard) (t : Ty) (sat : Bool) (d a b c : Opnd) (x : XCtl) (s : State) : Host.Outcome State Fault Refusal :=
  s.int3 g t d a b c (c.srcTy t) x
    (fun u v w => intResult t sat d.bits (fun l => l.getD 0 0 * l.getD 1 0 + l.getD 2 0) [u, v, w])
    (fun c i p => c.int t i p)

/-! ### Comparison (R347) -/

/-- ISET (R347). -/
def execIset (g : Guard) (t : Ty) (op : Cmp) (p : BitVec 3) (a b : Opnd) (s : State) : Host.Outcome State Fault Refusal :=
  let pa := Pos.src 1 a (a.srcTy t)
  let pb := Pos.src 2 b (b.srcTy t)
  s.alu 8 0 g [pa, pb] none noAb (fun c i =>
    ⟨none, some (p, op.holds t.isSigned t.bits (c.int t i pa) (c.int t i pb)), 0#5⟩)

/-- ISET, 96I form (R347). -/
def execIsetI (g : Guard) (t : Ty) (op : Cmp) (p : BitVec 3) (a : Opnd) (imm : Word) (s : State) :
    Host.Outcome State Fault Refusal :=
  let pa := Pos.src 1 a (a.srcTy t)
  s.alu 12 0 g [pa] none noAb (fun c i =>
    ⟨none, some (p, op.holds t.isSigned t.bits (c.int t i pa) (t.immediate imm)), 0#5⟩)

/-! ### Logic (R314, R359, R389) -/

/-- a and not b, in w bits. -/
def andNot (w x y : Nat) : Nat := x &&& (2 ^ w - 1 - y % 2 ^ w)

/-- AND (R314). -/
def execAnd (g : Guard) (t : Ty) (d a b : Opnd) (s : State) : Host.Outcome State Fault Refusal :=
  s.int2 8 g t d a b .plain (logic t d (· &&& ·))

/-- AND, 96X form (R314). -/
def execAndX (g : Guard) (t : Ty) (d a b : Opnd) (x : XCtl) (s : State) : Host.Outcome State Fault Refusal :=
  s.int2 12 g t d a b x (logic t d (· &&& ·))

/-- AND, 96I form (R314). -/
def execAndI (g : Guard) (t : Ty) (d a : Opnd) (imm : Word) (s : State) : Host.Outcome State Fault Refusal :=
  s.intImm g t d a imm (logic t d (· &&& ·))

/-- ANDN (R314). -/
def execAndn (g : Guard) (t : Ty) (d a b : Opnd) (s : State) : Host.Outcome State Fault Refusal :=
  s.int2 8 g t d a b .plain (logic t d (andNot t.bits))

/-- OR (R359). -/
def execOr (g : Guard) (t : Ty) (d a b : Opnd) (s : State) : Host.Outcome State Fault Refusal :=
  s.int2 8 g t d a b .plain (logic t d (· ||| ·))

/-- OR, 96X form (R359). -/
def execOrX (g : Guard) (t : Ty) (d a b : Opnd) (x : XCtl) (s : State) : Host.Outcome State Fault Refusal :=
  s.int2 12 g t d a b x (logic t d (· ||| ·))

/-- OR, 96I form (R359). -/
def execOrI (g : Guard) (t : Ty) (d a : Opnd) (imm : Word) (s : State) : Host.Outcome State Fault Refusal :=
  s.intImm g t d a imm (logic t d (· ||| ·))

/-- XOR (R389). -/
def execXor (g : Guard) (t : Ty) (d a b : Opnd) (s : State) : Host.Outcome State Fault Refusal :=
  s.int2 8 g t d a b .plain (logic t d (· ^^^ ·))

/-- XOR, 96X form (R389). -/
def execXorX (g : Guard) (t : Ty) (d a b : Opnd) (x : XCtl) (s : State) : Host.Outcome State Fault Refusal :=
  s.int2 12 g t d a b x (logic t d (· ^^^ ·))

/-- XOR, 96I form (R389). -/
def execXorI (g : Guard) (t : Ty) (d a : Opnd) (imm : Word) (s : State) : Host.Outcome State Fault Refusal :=
  s.intImm g t d a imm (logic t d (· ^^^ ·))

/-! ### Shifts (R371) -/

/-- Left shift of w bits by n, zero-filled. -/
def shiftLeft (w x n : Nat) : Nat := if w ≤ n then 0 else x * 2 ^ n % 2 ^ w

/-- Right shift of w bits by n, zero-filled. -/
def shiftRight (w x n : Nat) : Nat := if w ≤ n then 0 else x % 2 ^ w / 2 ^ n

/-- Right shift of w bits by n, filled with the top bit. -/
def shiftArith (w x n : Nat) : Nat := wrap w (toSigned w (x % 2 ^ w) / (2 ^ min n w : Nat))

/-- Left rotation of w bits by n mod w. -/
def rotateLeft (w x n : Nat) : Nat :=
  let k := n % w
  let v := x % 2 ^ w
  (v * 2 ^ k + v / 2 ^ (w - k)) % 2 ^ w

/-- SHL (R371). -/
def execShl (g : Guard) (t : Ty) (d a b : Opnd) (s : State) : Host.Outcome State Fault Refusal :=
  s.int2 8 g t d a b .plain (logic t d (shiftLeft t.bits))

/-- SHR (R371). -/
def execShr (g : Guard) (t : Ty) (d a b : Opnd) (s : State) : Host.Outcome State Fault Refusal :=
  s.int2 8 g t d a b .plain (logic t d (shiftRight t.bits))

/-- SHA (R371). -/
def execSha (g : Guard) (t : Ty) (d a b : Opnd) (s : State) : Host.Outcome State Fault Refusal :=
  s.int2 8 g t d a b .plain (logic t d (shiftArith t.bits))

/-- ROT (R371). -/
def execRot (g : Guard) (t : Ty) (d a b : Opnd) (s : State) : Host.Outcome State Fault Refusal :=
  s.int2 8 g t d a b .plain (logic t d (rotateLeft t.bits))

/-! ### Bits (R318, R321, R362) -/

/-- Zero bits above the highest one bit of w bits. -/
def leadingZeros (w x : Nat) : Nat := if x % 2 ^ w = 0 then w else w - 1 - Nat.log2 (x % 2 ^ w)

/-- The w bits in the other order. -/
def reverseBits (w x : Nat) : Nat := (List.range w).foldl (fun acc i => 2 * acc + (if bitOf x i then 1 else 0)) 0

/-- POPC (R362). -/
def execPopc (g : Guard) (t : Ty) (d a : Opnd) (s : State) : Host.Outcome State Fault Refusal :=
  s.int1 g t d a (fun x => writeWidth t.isSigned false t.bits d.bits (popcount t.bits x))

/-- CLZ (R321). -/
def execClz (g : Guard) (t : Ty) (d a : Opnd) (s : State) : Host.Outcome State Fault Refusal :=
  s.int1 g t d a (fun x => writeWidth t.isSigned false t.bits d.bits (leadingZeros t.bits x))

/-- BREV (R321). -/
def execBrev (g : Guard) (t : Ty) (d a : Opnd) (s : State) : Host.Outcome State Fault Refusal :=
  s.int1 g t d a (fun x => bitResult t d.bits (reverseBits t.bits x))

/-- The field that BFX extracts, as an exact integer (R318). -/
def extractField (signed : Bool) (w x f : Nat) : Int :=
  let pos := f % 256
  let n := min (f / 256 % 256) w
  if n = 0 then 0
  else
    let ext := signed && bitOf x (w - 1)
    let v := (List.range n).foldl (fun acc i => acc + (if (if pos + i < w then bitOf x (pos + i) else ext) then 2 ^ i else 0)) 0
    intVal signed n v

/-- BFX (R318). -/
def execBfx (g : Guard) (t : Ty) (d a b : Opnd) (s : State) : Host.Outcome State Fault Refusal :=
  let pd := Pos.dst d (d.dstTy t)
  let pa := Pos.src 1 a (a.srcTy t)
  let pb := Pos.src 2 b b.src32
  s.alu 8 0 g [pd, pa, pb] (some pd) noAb (fun c i =>
    .ofVal (writeWidth t.isSigned false t.bits d.bits (extractField t.isSigned t.bits (c.int t i pa) (c.u32 i pb))))

/-- BFI's result: len bits of y put into r at pos (R318). -/
def insertField (w r y f : Nat) : Nat :=
  let pos := f % 256
  let len := f / 256 % 256
  (List.range len).foldl (fun acc i => if pos + i < w then setBits acc (pos + i) (pos + i) (if bitOf y i then 1 else 0) else acc) r

/-- BFI (R318). -/
def execBfi (g : Guard) (t : Ty) (d a b c : Opnd) (x : XCtl) (s : State) : Host.Outcome State Fault Refusal :=
  s.int3 g t d a b c c.src32 x (fun u v f => bitResult t d.bits (insertField t.bits u v f)) (fun c i p => c.u32 i p)

/-! ### Moves (R355 to R357, R373) -/

/-- The widths of an untyped MOV (R355). -/
def movOk (d a : Opnd) : Bool :=
  match a with
  | .reg w _ => d.bits == w.bits
  | .uni _ => d.bits == 32
  | .imm _ => d.bits ≤ 64

/-- The value that MOV writes (R355). -/
def movValue (t : Ty) (sat : Bool) (d : Opnd) (v : Nat) : Nat :=
  if t.isLogic then writeWidth t.isSigned sat t.bits d.bits (intVal t.isSigned t.bits v) else v % 2 ^ d.bits

/-- MOV in either form (R355). -/
def State.mov (s : State) (len : Nat) (g : Guard) (t : Ty) (sat : Bool) (d a : Opnd) (x : XCtl) :
    Host.Outcome State Fault Refusal :=
  let pd := (Pos.dst d (if t = .none then movOk d a else d.dstTy t)).withIx x
  let pa := (Pos.src 1 a (if t = .none then movOk d a else a.srcTy t)).withIx x
  s.alu len 0 g [pd, pa] (some pd) noAb (fun c i =>
    .ofVal (movValue t sat d (if t = .none then c.raw i pa else x.sw1.apply t (c.int t i pa))))

/-- MOV (R355). -/
def execMov (g : Guard) (t : Ty) (sat : Bool) (d a : Opnd) (s : State) : Host.Outcome State Fault Refusal :=
  s.mov 8 g t sat d a .plain

/-- MOV, 96X form (R355). -/
def execMovX (g : Guard) (t : Ty) (sat : Bool) (d a : Opnd) (x : XCtl) (s : State) : Host.Outcome State Fault Refusal :=
  s.mov 12 g t sat d a x

/-- MOVI (R356). -/
def execMovi (g : Guard) (t : Ty) (sat : Bool) (d : Opnd) (imm : Word) (s : State) : Host.Outcome State Fault Refusal :=
  let pd := Pos.dst d (d.dstTy t)
  -- the immediate stands as an exact integer of the type's signedness (R74)
  let v : Int := if t.isSigned then toSigned 32 imm.toNat else (imm.toNat : Int)
  s.alu 12 0 g [pd] (some pd) noAb (fun _ _ =>
    .ofVal (if t.isLogic then writeWidth t.isSigned sat t.bits d.bits (intVal t.isSigned t.bits (wrap t.bits v))
            else t.immediate imm))

/-- MOVX, the read of an index register (R357). -/
def execMovxRead (g : Guard) (j : BitVec 2) (d : Opnd) (s : State) : Host.Outcome State Fault Refusal :=
  let pd := Pos.dst d d.reg32
  s.alu 8 0 g [pd] (some pd) noAb (fun c i => .ofVal ((c.th i).ix j).toNat)

/-- The index register that a word gives, reserved bits zero (R6, R56). -/
def ixWord (v : Nat) : Word := BitVec.ofNat 32 (v % 2 ^ 29 - v % 2 ^ 10 + v % 2 ^ 9)

/-- HI above 512 or LO above HI (R56). -/
def ixBad (v : Nat) : Bool := 512 < bitsOf v 28 19 || bitsOf v 28 19 < bitsOf v 18 10

/-- MOVX, the write of an index register: a word out of bounds takes ILLOPND and changes no index register (R56, R357). -/
def execMovxWrite (g : Guard) (j : BitVec 2) (a : Opnd) (s : State) : Host.Outcome State Fault Refusal :=
  let pa := Pos.src 1 a a.src32
  s.issue 8 g [pa] (fun c t =>
    match c.on.find? (fun i => ixBad (c.u32 i pa)) with
    | some i => .trap (mkTrap cILLOPND (opInfo i 1))
    | none =>
      .next (t.updWarp c.ref.team c.ref.warp (fun w => { w with
        threads := (w.threads.zipIdx).map (fun p => if c.on.contains p.2 then p.1.setIx j (ixWord (c.u32 p.2 pa)) else p.1) })))

/-- SEL in either form (R373). -/
def State.sel (s : State) (len : Nat) (g : Guard) (t : Ty) (q : PSrc) (d a b : Opnd) (x : XCtl) :
    Host.Outcome State Fault Refusal :=
  let pd := (Pos.dst d (d.dstTy t)).withIx x
  let pa := (Pos.src 1 a (a.srcTy t)).withIx x
  let pb := (Pos.src 2 b (b.srcTy t)).withIx x
  s.alu len 0 g [pd, pa, pb] (some pd) noAb (fun c i =>
    .ofVal (movValue t false d
      (if q.value (c.th i).preds then x.sw1.apply t (c.int t i pa) else x.sw2.apply t (c.int t i pb))))

/-- SEL (R373). -/
def execSel (g : Guard) (t : Ty) (q : PSrc) (d a b : Opnd) (s : State) : Host.Outcome State Fault Refusal :=
  s.sel 8 g t q d a b .plain

/-- SEL, 96X form (R373). -/
def execSelX (g : Guard) (t : Ty) (q : PSrc) (d a b : Opnd) (x : XCtl) (s : State) : Host.Outcome State Fault Refusal :=
  s.sel 12 g t q d a b x

/-! ### Warp-wide instructions (R317, R368, R374, R387) -/

/-- The thread that SHFL reads, by mode (R374). -/
def shflFrom (op : ShflOp) (j b : Nat) : Option Nat :=
  match op with
  | .idx => some b
  | .up => if b ≤ j then some (j - b) else none
  | .down => some (j + b)
  | .xor => some (j ^^^ b)

/-- SHFL (R374): every read before any write. -/
def execShfl (g : Guard) (t : Ty) (op : ShflOp) (d a b : Opnd) (s : State) : Host.Outcome State Fault Refusal :=
  let pd := Pos.dst d (d.bits == t.bits)
  let pa := Pos.src 1 a (a.isReg && a.bits == t.bits)
  let pb := Pos.src 2 b b.src32
  s.alu 8 0 g [pd, pa, pb] (some pd) noAb (fun c i =>
    let from_ := match shflFrom op i (c.u32 i pb) with
      | some k => if c.on.contains k then k else i
      | none => i
    .ofVal (c.raw from_ pa))

/-- VOTE (R387). -/
def execVote (g : Guard) (op : VoteOp) (p : BitVec 3) (q : PSrc) (s : State) : Host.Outcome State Fault Refusal :=
  s.alu 8 0 g [] none noAb (fun c _ =>
    let qs := c.on.map (fun i => q.value (c.th i).preds)
    let v := match op with
      | .all => qs.all (fun x => x)
      | .any => qs.any (fun x => x)
      | .uni => qs.all (fun x => x) || qs.all (fun x => !x)
    ⟨none, some (p, v), 0#5⟩)

/-- BALLOT (R317). -/
def execBallot (g : Guard) (d : Opnd) (q : PSrc) (s : State) : Host.Outcome State Fault Refusal :=
  let pd := Pos.dst d (d.isReg && d.bits == 32)
  s.alu 8 0 g [pd] (some pd) noAb (fun c _ =>
    .ofVal (maskOf (c.on.filter (fun i => q.value (c.th i).preds))).toNat)

/-- One step of REDW's chain (R368). -/
def redwStep (t : Ty) (op : RedOp) (mode : RMode) (flush : Bool) (acc x : Nat) : Nat × Flags :=
  match t.fmt with
  | some f =>
    match op with
    | .add => f.add mode flush acc x
    | .min => f.select true flush acc x
    | _ => f.select false flush acc x
  | none =>
    let w := t.bits
    let i := intVal t.isSigned w acc
    let j := intVal t.isSigned w x
    (match op with
      | .add => wrap w (i + j)
      | .min => wrap w (min i j)
      | .max => wrap w (max i j)
      | .and => acc &&& x
      | .or => acc ||| x
      | .xor => acc ^^^ x, 0#5)

/-- The start of REDW's chain: a floating value flushed, rounded to its format, canonical (R109, R116, R368). -/
def redwStart (t : Ty) (mode : RMode) (flush : Bool) (v : Nat) : Nat × Flags :=
  match t.fmt with
  | some f =>
    let x := f.flushIn flush v
    (if f.isNan x then f.nan else x, f.snanFlag [x] ||| (f.ofVal mode flush (f.val x)).2)
  | none => (v, 0#5)

/-- REDW's chain over the contributors' values. -/
def redwChain (t : Ty) (op : RedOp) (mode : RMode) (flush : Bool) : List Nat → Nat × Flags
  | [] => (0, 0#5)
  | v :: r =>
    r.foldl (fun a x => let n := redwStep t op mode flush a.1 x; (n.1, a.2 ||| n.2)) (redwStart t mode flush v)

/-- REDW (R368): once for the fragment, its flags in every contributor. -/
def execRedw (g : Guard) (t : Ty) (op : RedOp) (d a : Opnd) (s : State) : Host.Outcome State Fault Refusal :=
  let pd := Pos.dst d (d.dstTy t)
  let pa := Pos.src 1 a (a.isReg && a.srcTy t)
  s.issue 8 g [pd, pa] (fun c u =>
    let fctl := (c.th c.low).fctl
    let r := redwChain t op (rmOf fctl) (ftzOf fctl) (c.on.map (fun i => c.int t i pa))
    let v := if t.fmt.isSome then r.1 else bitResult t d.bits r.1
    let ab := if t = .f32 then [(pa, fun i => c.int t i pa)] else []
    c.compute u c.on (some pd) 0 ab (fun _ => ⟨some v, none, r.2⟩))

/-! ### PLOP (R361) -/

/-- PLOP (R361). -/
def execPlop (g : Guard) (tt : BitVec 4) (p : BitVec 3) (q q2 : PSrc) (s : State) : Host.Outcome State Fault Refusal :=
  s.alu 8 0 g [] none noAb (fun c i =>
    let pr := (c.th i).preds
    let k := (if q.value pr then 2 else 0) + (if q2.value pr then 1 else 0)
    ⟨none, some (p, tt.getLsbD k), 0#5⟩)

end Sys2Proof.Machine
end

