-- ==== Sys2Proof/Machine/Sync.lean ====
section
/-! DEFINITION. Fences, acquires and releases, bindings, WAITC and IFLUSH (spec/12 R230 to R249, spec/13 R264). -/

namespace Sys2Proof.Machine

/-! ### Earlier reductions of a thread -/

/-- No reduction of a thread, nor add-on-store in which its warp takes part, is still to be performed (R243). -/
def State.redsDone (s : State) (d c : Nat) (o : Origin) : Bool :=
  !s.reds.any (fun r => r.by_.team == o.team && r.by_.warp == o.warp && (r.by_.thread == o.thread || 32 ≤ r.by_.thread))
    && !(s.core d c).insts.any (fun i =>
        i.team == o.team && (match i.op with | .mdrn .add _ _ _ _ => true | _ => false) && i.parts.any (fun p => p.warp == o.warp))
    && !s.xfers.any (fun x => x.team == some o.team && x.warps.contains o.warp
        && (match x.kind with | .drainAdd _ => true | _ => false))

/-- No scatter of a thread is still to be handled or performed (R243): its bytes are in the gather unit, or sent from there. -/
def State.scattersDone (s : State) (o : Origin) : Bool :=
  !s.cores.any (fun k => k.2.gathers.any (fun g => g.bytes.any (fun b => b.by_ == o)))

/-- The loads and atomics of a thread are performed (R232): what it has read is known. -/
def State.readsDone (s : State) (o : Origin) : Bool :=
  s.loadsDone o (fun _ => true)
    && !s.atoms.any (fun a => a.leaf.team == o.team && a.leaf.warp == o.warp
        && a.threads.any (fun t => t.thread == o.thread && t.old.isNone && !t.bad))

/-- A scope of convoy or wider (R243). -/
def Scope.wide : Scope → Bool
  | .convoy | .die | .package | .system => true
  | _ => false

/-- A scope whose unit sees a write only at the write's home: the package, and beyond. -/
def Scope.home : Scope → Bool
  | .package | .system => true
  | _ => false

/-- A release fence of a narrower scope publishes to its unit the stores of a thread that are still to be performed, and those that
were published to the thread (R232, R242, R243; log 50). -/
def State.publish (s : State) (sc : Scope) (o : Origin) : State :=
  let u := s.unitOf sc o
  let mine : List Published := ⟨o, s.nextId, u, s.nextId⟩
    :: (s.published.filter (fun p => p.unit.has o)).map (fun p => { p with unit := u, since := s.nextId })
  let left := s.storesLeft
  { s with published := s.published ++ mine.filter (fun p => left.any (fun b => b.by_ == p.by_ && b.inst < p.upTo)) }

/-- A fence waits (R232, R243): for the reads before it, whatever its kind; a release for RED, scatter and add-on-store at any scope,
and at package scope and beyond for every earlier write at its home. -/
def State.fenceWaits (s : State) (c : Ctx) (kind : FenceKind) (sc : Scope) : Bool :=
  !c.on.all (fun i =>
    let o : Origin := ⟨c.ref.team, c.ref.warp, i⟩
    s.readsDone o && (kind == .acq
      || (s.scattersDone o && s.redsDone c.team.die c.team.core o && (!Scope.home sc || s.writesDone o (fun _ => true)))))

/-- FENCE (R242, R243): a release of a narrower scope publishes the writes not yet performed to its unit; an acquire of scope convoy or
wider empties the core's L1. -/
def execFence (g : Guard) (kind : FenceKind) (sc : Scope) (s : State) : Host.Outcome State Fault Refusal :=
  s.issue 8 g [] (fun c u =>
    if u.fenceWaits c kind sc then .hold .busy
    else
      let u := if kind != .acq && !Scope.home sc then c.on.foldl (fun u i => u.publish sc ⟨c.ref.team, c.ref.warp, i⟩) u else u
      .next (if kind != .rls && Scope.wide sc then u.dropL1 c.team.die c.team.core else u))

/-! ### Object names (R235) -/

/-- Bits that a kind of object uses; none for an unassigned kind. -/
def nameBits (kind : Nat) : Option Nat :=
  match kind with
  | 0 => some 48 | 1 => some 48 | 2 => some 5 | 3 => some 19 | 4 => some 32 | 5 => some 56
  | _ => none

/-- A name that R235 refuses: an unassigned kind, a bit that the kind does not use, a point above 23. -/
def nameBad (v : Nat) : Bool :=
  match nameBits (bitsOf v 63 60) with
  | none => true
  | some n => 2 ^ n ≤ bitsOf v 59 0 || (bitsOf v 63 60 == 2 && 23 < bitsOf v 4 0)

/-- A refused name in some guarded thread. -/
def Ctx.nameTrap (c : Ctx) (p : Pos) : Option Trap :=
  (c.on.find? (fun i => nameBad (c.raw i p))).map (fun i => mkTrap cILLOPND (opInfo i p.n))

/-- Two threads name one object by one name: a point or ring is the team's own, points 16 to 23 of a convoy are shared, a location is
of an address space (R192, R235). -/
def State.sameObject (s : State) (x y : Origin) (name : Word64) : Bool :=
  let n := name.toNat
  match s.team? x.team, s.team? y.team with
  | some t, some v =>
    if bitsOf n 63 60 = 2 then x.team == y.team || (16 ≤ bitsOf n 4 0 && t.convoy.isSome && t.convoy == v.convoy)
    else if bitsOf n 63 60 = 3 then x.team == y.team
    else if bitsOf n 63 60 = 5 then
      (Tbl.look t.launch s.launches).map Launch.asid == (Tbl.look v.launch s.launches).map Launch.asid
    else true
  | _, _ => false

/-- An acquire of scope sc by thread y follows, in the object's order, a release that is not complete and whose scope contains it as
its own contains the releaser (R236, R241). -/
def State.acquireWaits (s : State) (sc : Scope) (y : Origin) (name : Word64) : Bool :=
  s.warps.any (fun w => w.2.entries.any (fun e =>
    match e.wait with
    | .release s1 names => names.any (fun q =>
        let x : Origin := ⟨w.2.team, w.2.index, q.1⟩
        q.2 == name && x != y && s.sameObject x y name && s.contains s1 x y && s.contains sc y x)
    | _ => false))

/-- ACQ (R236, R241): each guarded thread acquires its object, once the releases that it observes are complete. -/
def execAcq (g : Guard) (sc : Scope) (a : Opnd) (s : State) : Host.Outcome State Fault Refusal :=
  let pa := Pos.src 1 a true
  s.issue 8 g [pa] (fun c u =>
    match c.nameTrap pa with
    | some t => .trap t
    | none =>
      let name (i : Nat) : Word64 := BitVec.ofNat 64 (c.raw i pa)
      if c.on.any (fun i => u.acquireWaits sc ⟨c.ref.team, c.ref.warp, i⟩ (name i)) then .hold .busy
      else .next (c.on.foldl (fun u i => u.acquire c.ref.team (name i)) u))

/-- REL (R236, R241): each guarded thread's release takes its place in its object's order, and completes once the thread's earlier
accesses to covered bytes are performed. -/
def execRel (g : Guard) (sc : Scope) (a : Opnd) (s : State) : Host.Outcome State Fault Refusal :=
  let pa := Pos.src 1 a true
  s.issue 8 g [pa] (fun c u =>
    match c.nameTrap pa with
    | some t => .trap t
    | none =>
      let name (i : Nat) : Word64 := BitVec.ofNat 64 (c.raw i pa)
      if c.on.all (fun i => u.released c i (name i)) then .next u
      else .hold (.release sc (c.on.map (fun i => (i, name i)))))

/-! ### Bindings (R239, R240) -/

/-- Entries of a binding table. -/
def bindingCount : Nat := 1024

/-- A region widened outward to whole lines (R239). -/
def widened (base len : Nat) : Nat × Nat := (base / 128 * 128, (base + len + 127) / 128 * 128 - base / 128 * 128)

/-- The checks of a region capability (R240). -/
def regionTrap (k : Cap) (tag : Bool) (thread : Nat) : Option Trap :=
  if !tag then some (mkTrap cCAPTAG (capInfo k thread 2))
  else if k.otype != 0 || !k.grants pLD then some (mkTrap cCAPPERM (capInfo k thread 3))
  else none

/-- BIND (R239, R240). -/
def execBind (g : Guard) (c a : Opnd) (s : State) : Host.Outcome State Fault Refusal :=
  let pc := Pos.src 1 c true
  let pa := Pos.src 2 a true
  s.issue 8 g [pc, pa] (fun x u =>
    let i := x.low
    let k := x.cap i pc
    match regionTrap k (x.capTag i pc) i with
    | some t => .trap t
    | none =>
      if nameBad (x.raw i pa) then .trap (mkTrap cILLOPND (opInfo i 2))
      else
        let w := widened k.base k.length
        let b : Binding :=
          ⟨w.1, w.2, BitVec.ofNat 64 (x.raw i pa), x.launch.asid, x.launch.secure, x.team.launch⟩
        let d := u.die x.team.die
        if d.bindings.contains b then .next u
        else if bindingCount ≤ d.bindings.length then
          .next ((u.bumpDie x.team.die 0x105 1).updDie x.team.die (fun d => { d with bindOver := true }))
        else .next (u.updDie x.team.die (fun d => { d with bindings := d.bindings ++ [b] })))

/-- UNBIND (R240). -/
def execUnbind (g : Guard) (c : Opnd) (s : State) : Host.Outcome State Fault Refusal :=
  let pc := Pos.src 1 c true
  s.issue 8 g [pc] (fun x u =>
    let i := x.low
    let k := x.cap i pc
    match regionTrap k (x.capTag i pc) i with
    | some t => .trap t
    | none => .next (u.updDie x.team.die (fun d =>
        d.unbind (fun b => b.launch == x.team.launch && (b.base, b.len) == widened k.base k.length))))

/-! ### WAITC (R248, R249) -/

/-- The writes that happen before the one whose value a WAITC reads are performed (R237, log 50): every store issued so far to bytes
that its writer's launch has bound to the location. -/
def State.written (s : State) (o : Origin) (va : Nat) : Bool :=
  let covered (b : StoreByte) (l : LineAt) : Bool :=
    match s.team? b.by_.team with
    | some t => (s.die t.die).covered t.launch (objectName 5 va) l
    | none => false
  s.writes.all (fun w => w.bytes.all (fun b => b.by_ == o || !covered b w.at_))
    && s.cores.all (fun k => k.2.quay.all (fun e => e.bytes.all (fun b => b.by_ == o || !covered b e.at_)))

/-- WAITC: each guarded thread reads its location at its home; those whose comparison is false arm. It waits for the thread's own
earlier writes to the location, and where its comparison holds for what precedes the write that it observes (R237). -/
def execWaitc (g : Guard) (t : Ty) (op : Cmp) (c o a : Opnd) (x : XCtl) (s : State) : Host.Outcome State Fault Refusal :=
  let pc := Pos.src 1 c true
  let po := (Pos.src 2 o o.src3264).withIx x
  let pa := (Pos.src 3 a (match a with | .reg w _ => w.bits == t.bits | .uni _ => t.bits == 32 | .imm _ => false)).withIx x
  s.issue 12 g [pc, po, pa] (fun k u =>
    let reqs := k.on.map (fun i =>
      let q := k.cap i pc
      (⟨i, q, k.capTag i pc, q.base + k.signed i po, accBytes t.bits, none, false, pLD, ⟨true, false, false⟩⟩ : AccReq))
    (u.access k reqs).then_ k u (fun accs =>
      match accs.find? (fun b => b.lines.any (fun l => l.home == 1)) with
      | some b => .trap (mkTrap cILLOPND (opInfo b.thread 2))
      | none =>
        let d := k.team.die
        let mon (b : Acc) : Monitor :=
          ⟨k.ref, b.thread, b.va, b.pas.filterMap u.cell?, t, op, k.int t b.thread pa, false⟩
        let o (b : Acc) : Origin := ⟨k.ref.team, k.ref.warp, b.thread⟩
        let late (b : Acc) : Bool :=
          !b.pas.all (u.readFree (o b) u.nextId) || !u.reaches d b.pas || (u.monitorTrue (mon b) && !u.written (o b) b.va)
        if accs.any late then .hold .busy
        else
          let u := accs.foldl (fun u b => match b.lines.head? with
            | some l => (u.countReq d l).touchHome l
            | none => u) u
          let wait := accs.filter (fun b => !u.monitorTrue (mon b))
          let u := (accs.filter (fun b => u.monitorTrue (mon b))).foldl (fun u b => u.acquire k.ref.team (objectName 5 b.va)) u
          if wait.isEmpty then .next u
          else
            let u := u.block k.ref (.monitor (maskOf (wait.map Acc.thread)))
            .block (wait.foldl (fun u b => u.arm (homeOf (b.pas.headD 0)) (mon b)) u)))

/-! ### IFLUSH (R264) -/

/-- The core holds a resident team that runs a folio, its own or its job's runtime folio (R253). -/
def State.runsFolio (s : State) (d c f : Nat) : Bool :=
  s.teams.any (fun p => (p.2.folio == f || ((Tbl.look p.2.launch s.launches).map Launch.rfolio).getD 0 == f)
    && p.2.die == d && p.2.core == c && p.2.state.holds)

/-- A core's fetched blocks discarded: its next fetches read memory (R263, R264). -/
def State.syncFetch (s : State) (d c : Nat) : State := s.updCore d c (fun x => { x with blocks := [] })

/-- The writable-code folio whose code quire holds a range wholly (R264). -/
def State.codeFolio (s : State) (asid base len : Nat) : Option Nat :=
  ((s.folios.find? (fun p => p.2.writable && p.2.live && p.2.asid == asid && p.2.codeVA ≤ base
      && base + len ≤ p.2.codeVA + p.2.image.code.length))).map Prod.fst

/-- The lines of a range leave the L1 of every core that holds a team running a folio, and its blocks the fetch buffers of every core: a
team that comes to another core later must not fetch old bytes either (log 28). -/
def State.flushRange (s : State) (f asid base len : Nat) : State :=
  match Tbl.look f s.folios with
  | none => s
  | some x =>
    let lo := (x.codePA + (base - x.codeVA)) / 32
    let hi := (x.codePA + (base - x.codeVA) + len + 31) / 32
    (List.range 9).foldl (fun s d => (List.range 18).foldl (fun s c =>
      let runs := s.runsFolio d c f
      s.updCore d c (fun k => { k with
        blocks := k.blocks.filter (fun b => b.1 < lo || hi ≤ b.1)
        l1 := k.l1.filter (fun l =>
          !(runs && l.at_.asid == asid && l.at_.va / 128 * 128 < base + len && base < l.at_.va / 128 * 128 + 128)) })) s) s

/-- IFLUSH (R264). -/
def execIflush (g : Guard) (c a : Opnd) (s : State) : Host.Outcome State Fault Refusal :=
  let pc := Pos.src 1 c true
  let pa := Pos.src 2 a a.src32
  s.issue 8 g [pc, pa] (fun x u =>
    let i := x.low
    let k := x.cap i pc
    let n := toSigned 32 (x.u32 i pa)
    let f := u.codeFolio x.launch.asid k.base n.toNat
    match regionTrap k (x.capTag i pc) i with
    | some t => .trap t
    | none =>
      if (k.length : Int) < n then .trap (mkTrap cCAPBOUND (capInfo k i 4))
      else if n < 0 || (n != 0 && f.isNone) then .trap (mkTrap cILLOPND (opInfo i 2))
      else if u.fenceWaits x .rls .package then .hold .busy
      else
        let u := match f with
          | some f => if n = 0 then u else u.flushRange f x.launch.asid k.base n.toNat
          | none => u
        .next (u.syncFetch x.team.die x.team.core))

end Sys2Proof.Machine
end

