-- ==== Sys2Proof/Machine/Teams.lean ====
section
/-! DEFINITION. Teams: placement and admission, retirement, the pilot token, swap, save and resume, the lane's own
events (spec/02 R26 to R37, spec/03 R60 to R64, spec/07 R128, R144, R145, R148, spec/11 R207, R214, spec/13 R252, R261 to
R263). -/

namespace Sys2Proof.Machine

/-! ### The pilot token (R144, R145) -/

/-- A warp may issue under a token's state. -/
def tokenAllows (tok : Option Token) (team role : Nat) : Bool :=
  match tok with
  | some t => t.team == team && (match t.role with | some r => r == role | none => true)
  | none => false

/-- The TOKW leaves that may issue go on, oldest first; a free token goes to the oldest waiter's team. -/
def State.tokenSettle (s : State) (d c : Nat) : State :=
  let k := s.core d c
  let s := match k.token, k.tokens.head? with
    | none, some r => s.updCore d c (fun x => { x with token := some ⟨r.team, none⟩ })
    | _, _ => s
  let tok := (s.core d c).token
  let can (r : LeafRef) : Bool := match s.warp? r.team r.warp with | some w => tokenAllows tok r.team w.role | none => false
  let go := k.tokens.filter can
  let s := s.updCore d c (fun x => { x with tokens := x.tokens.filter (fun r => !go.contains r) })
  go.foldl (fun s r => s.complete r 8) s

/-- The token passes to a holder, or is freed. -/
def State.setToken (s : State) (d c : Nat) (t : Option Token) : State :=
  (s.updCore d c (fun x => { x with token := t })).tokenSettle d c

/-! ### Placement (R27, R28) -/

/-- What a warp needs of a lane: slice-threads, split-table entries at the least, and the lane it must take. -/
structure WarpNeed where
  slices : Nat
  least : Nat
  fixed : Option Nat
  deriving DecidableEq, Repr

/-- What a team needs of a core: its warps' needs, local store, B store, scale entries, tiles, its world, a free token. -/
structure Demand where
  warps : List WarpNeed
  lstore : Nat
  breg : Nat
  sents : Nat
  tiles : Nat
  secure : Bool
  token : Bool
  deriving DecidableEq, Repr

/-- Resident teams of a core. -/
def State.residents (s : State) (d c : Nat) : List Team :=
  (s.teams.filter (fun p => p.2.state.holds && p.2.die == d && p.2.core == c)).map Prod.snd

/-- What a lane has: contexts in use, free slice-threads, split-table entries that its warps cannot spare. -/
structure LaneUse where
  warps : Nat
  free : Nat
  table : Nat
  deriving DecidableEq, Repr

/-- What each lane of a core has. -/
def State.laneUse (s : State) (d c : Nat) : List LaneUse :=
  (List.range 64).map (fun l =>
    let ws := s.laneWarps d c l
    ⟨ws.length, (s.core d c).poolFree l, (ws.map Warp.leastTable).foldl (· + ·) 0⟩)

/-- A lane can take a warp: a free context, room in its pool, and a table of 16 that holds what its warps must keep there (R32). -/
def LaneUse.takes (u : LaneUse) (n : WarpNeed) : Bool := u.warps < 8 && n.slices ≤ u.free && u.table + n.least ≤ 16

/-- A lane with a warp placed on it. -/
def LaneUse.place (u : LaneUse) (n : WarpNeed) : LaneUse := ⟨u.warps + 1, u.free - n.slices, u.table + n.least⟩

/-- The lane of one warp: of those that can take it, the one with the fewest warps, the lowest of them; or the lane it must take. -/
def pickLane (use : List LaneUse) (need : WarpNeed) : Option Nat :=
  let at_ (l : Nat) : LaneUse := use.getD l ⟨8, 0, 16⟩
  let can := (List.range 64).filter (fun l =>
    (at_ l).takes need && (match need.fixed with | some f => f == l | none => true))
  let few := (can.map (fun l => (at_ l).warps)).foldl min 8
  can.find? (fun l => (at_ l).warps == few)

/-- The lanes of a team's warps, in increasing order of warp. -/
def placeWarps (use : List LaneUse) : List WarpNeed → Option (List Nat)
  | [] => some []
  | n :: r =>
    match pickLane use n with
    | none => none
    | some l => (placeWarps (modAt l (fun u => u.place n) use) r).map (fun ls => l :: ls)

/-- Local store that admission may grant on a core, pinned pages aside (R176). -/
def State.localRoom (s : State) (d c : Nat) : Nat :=
  524288 - s.lspin d c * 65536 - ((s.residents d c).map (fun t => t.lstore + 256 * warpCount t.threads)).foldl (· + ·) 0

/-- The lanes that a core gives a team; none where it is not eligible. -/
def State.fits (s : State) (d c : Nat) (x : Demand) : Option (List Nat) :=
  let ts := s.residents d c
  let sum (f : Team → Nat) : Nat := (ts.map f).foldl (· + ·) 0
  if (s.dieWord d 0x124).getLsbD c || s.parkState d != 0 || s.ckpt != .idle || s.coreSecure d c != x.secure
      || s.localRoom d c < x.lstore || 2097152 < sum Team.bsize + x.breg || 65536 < sum Team.sents + x.sents
      || 32 < sum (fun t => t.tiles.length) + x.tiles || (x.token && (s.core d c).token.isSome) then none
  else placeWarps (s.laneUse d c) x.warps

/-- Free slice-threads over a core's lanes. -/
def State.coreFree (s : State) (d c : Nat) : Nat := ((s.laneUse d c).map LaneUse.free).foldl (· + ·) 0

/-- Cores of a die in increasing order, each team on the first that is eligible after the one before it. -/
def State.risingCores (s : State) (d : Nat) (from_ : Nat) : List Demand → Option (List (Nat × List Nat))
  | [] => some []
  | x :: rest =>
    match (List.range 18).findSome? (fun c => if c < from_ then none else (s.fits d c x).map (fun l => (c, l))) with
    | none => none
    | some p => (s.risingCores d (p.1 + 1) rest).map (fun r => p :: r)

/-- Eligible cores of a die, one for each team in increasing order: the n with the most free slice-threads; where the teams' demands
differ and those do not serve, the first that do. Which of more than n eligible cores a convoy takes is the model's choice (log 48). -/
def State.pickCores (s : State) (d : Nat) (xs : List Demand) : Option (List (Nat × List Nat)) :=
  let can := (List.range 18).filter (fun c => xs.any (fun x => (s.fits d c x).isSome))
  let best := (sortBy (fun a b => s.coreFree d b ≤ s.coreFree d a) can).take xs.length
  let most :=
    if best.length < xs.length then none
    else ((sortBy (fun a b => a ≤ b) best).zip xs).mapM (fun p => (s.fits d p.1 p.2).map (fun l => (p.1, l)))
  most <|> s.risingCores d 0 xs

/-- Where each team of a convoy goes: slot, die, core, lanes (R38). One die first; a straddling pair where no die of the
mask can take it whole. A team alone takes one core of the die. Of several edge-adjacent dies that serve, the lowest is the model's
choice (log 48). -/
def State.plan (s : State) (d : Nat) (dmask : BitVec 9) (convoy : Bool) (xs : List Demand) :
    Option (List (Nat × Nat × Nat × List Nat)) :=
  match s.pickCores d xs with
  | some l => some ((l.zipIdx).map (fun p => (p.2, d, p.1.1, p.1.2)))
  | none =>
    let n := xs.length
    if !convoy || (8 < n && n != 16) || (List.range 9).any (fun e => dmask.getLsbD e && (s.pickCores e xs).isSome) then none
    else
      (List.range 9).findSome? (fun e =>
        if !adjacent d e || !dmask.getLsbD e then none
        else
          let lo := min d e
          let hi := max d e
          let k := (n + 1) / 2
          match s.pickCores lo (xs.take k), s.pickCores hi (xs.drop k) with
          | some a, some b =>
            some ((a.zipIdx).map (fun p => (p.2, lo, p.1.1, p.1.2)) ++ (b.zipIdx).map (fun p => (8 + p.2, hi, p.1.1, p.1.2)))
          | _, _ => none)

/-! ### Admission (R26 to R30, R53, R60, R61, R207) -/

/-- The entry that a launch runs. -/
def State.entryOf (s : State) (folio entry : Nat) : Option FolioEntry :=
  (Tbl.look folio s.folios).bind (fun x => x.image.entries[entry]?)

/-- The role directive of a warp (R61). -/
def roleOf (e : FolioEntry) (w : Nat) : RolePlan :=
  (e.roles.find? (fun r => r.first ≤ w && w ≤ r.last)).getD ⟨0, 0, 31, 0, 512 - e.regs⟩

/-- Threads of warp w of a team of n. -/
def warpThreads (n w : Nat) : Nat := min 32 (n - 32 * w)

/-- A team's demand at its first admission. -/
def demandOf (e : FolioEntry) (threads ntile breg sreg : Nat) (secure : Bool) : Demand :=
  ⟨(List.range (warpCount threads)).map (fun w => ⟨e.regs * warpThreads threads w, 1, none⟩),
    e.lstore + 256 * warpCount threads, breg * 65536, sreg * 64, ntile, secure, false⟩

/-- The preload of k0 to k127 (R53). -/
def preload (args : List Byte) (n : Nat) : BitVec 4096 := BitVec.ofNat 4096 (leNat ((args.take n).take 512))

/-- A thread with capabilities in its first granules (R207). -/
def threadWith (caps : List Nat) : Thread :=
  { Thread.reset with
    regs := BitVec.ofNat 2048 (joinElems 128 caps)
    valid := BitVec.ofNat 256 (2 ^ (16 * caps.length) - 1)
    tags := BitVec.ofNat 16 (2 ^ caps.length - 1) }

/-- A warp at admission. -/
def admitWarp (e : FolioEntry) (team w lane threads root since : Nat) (args : List Byte) (caps : List Nat) : Warp :=
  let n := warpThreads threads w
  let r := roleOf e w
  { team := team, index := w, lane := lane, count := n, alloc := e.regs, role := r.role, promise := r.give, allowance := r.claim,
    region := none, uni := preload args e.args, shadow := 0#4096,
    entries := [⟨root, true, maskOf (List.range n), BitVec.ofNat 32 e.code, none, false, .none, 0, 0, false, false, none⟩],
    threads := (List.range n).map (fun _ => threadWith caps),
    tcause := 0#32, tinfo := 0#64, tepc := 0#32, tmask := 0#32, tlen := 0, tret := none, handler := none, postedEcc := none,
    postedCancel := false, arrived := 0#24, arrPhase := [], since := since }

/-- A team at admission. -/
def admitTeam (x : Launch) (launch num : Nat) (task convoy : Option Nat) (slot die core threads lstore : Nat) : Team :=
  { state := .resident, escalated := false, cancelled := false, ended := false, stopping := false, launch := launch, num := num, task := task, convoy := convoy,
    slot := slot, die := die, core := core, threads := threads, lstore := lstore, loc := [],
    points := List.replicate 24 Point.reset, rings := [], collectives := [], tiles := List.replicate x.ntile Tile.reset,
    bsize := x.breg * 65536, bbytes := [], btags := [], sents := x.sreg * 64, sbytes := [], stags := [], folio := x.folio,
    savedToken := none, insts := [], macroSeq := none, deferred := none }

/-- A team enters a core: its record, its warps, their charges, their reserved table entries (R32); the core drops its L1 lines (R237). -/
def State.enterTeam (s : State) (launch : Nat) (x : Launch) (e : FolioEntry) (num : Nat) (task convoy : Option Nat)
    (slot die core threads : Nat) (lanes : List Nat) (args : List Byte) (caps : List Nat) : Nat × State :=
  let (id, s) := s.takeId
  let (since, s) := s.tick
  let s : State := { s with
    teams := Tbl.put id (admitTeam x launch num task convoy slot die core threads e.lstore) s.teams }
  let s := (lanes.zipIdx).foldl (fun s p =>
    let (root, s) := s.takeId
    let w := admitWarp e id p.2 p.1 threads root since args caps
    (({ s with warps := Tbl.put (warpKey id p.2) w s.warps } : State).poolTake die core p.1 (w.alloc * w.count)).fitLane die core p.1 64) s
  (id, s.dropL1 die core)

/-- A unit that a dispatcher may take: the next team of a launch, or a Ready task of the die. -/
inductive Unit' where
  | bulk (launch : Nat)
  | task (seq : Nat)
  deriving DecidableEq, Repr

/-- The units of a die, in the order it serves them: priority, then age (R26). -/
def State.units (s : State) (d : Nat) : List Unit' :=
  let bulk := (s.launches.filter (fun p => p.2.dmask.getLsbD d && p.2.next < p.2.teams)).map
    (fun p => (p.2.pri, p.2.order, Unit'.bulk p.1))
  let tasks := ((s.die d).tasks.filter (fun t => t.stage == .ready && t.writes.all (fun w => !w.renamed || w.pool.isSome))).map (fun t =>
    (((Tbl.look t.launch s.launches).map Launch.pri).getD 0, t.readyAt, Unit'.task t.seq))
  (sortBy (fun a b => b.1 < a.1 || (a.1 == b.1 && a.2.1 ≤ b.2.1)) (bulk ++ tasks)).map (fun x => x.2.2)

/-- Threads of a launch's teams (R221). -/
def Launch.threads (x : Launch) (e : FolioEntry) : Nat := if x.nthr = 0 then e.team else x.nthr

/-- The capabilities that a task is given: read tiles without store permissions, then write tiles at their storage
(R207, R209). -/
def State.taskCaps (s : State) (d : Nat) (t : Task) : List Nat :=
  let secure := s.launchSecure t.launch
  let rpva := bitsOf (s.dieWord d (if secure then 0x38D else 0x38E)).toNat 55 16 * 65536
  let cap (base len : Nat) (perm : Nat) : Nat :=
    if len < 2 ^ 40 then (Cap.mk base len 0 perm 0).bits else (Cap.mk base (len / 65536) 1 perm 0).bits
  t.reads.map (fun r => cap r.1 r.2.1 (r.2.2.toNat &&& (31 - pST - pSTC)))
    ++ t.writes.map (fun w => cap (match w.pool with | some p => rpva + p | none => w.base) w.len w.perm.toNat)

/-- The admission of a unit on a die; none where it cannot be admitted. -/
def State.admitUnit (s : State) (d : Nat) (u : Unit') : Option State :=
  match u with
  | .task seq =>
    match (s.die d).task? seq with
    | none => none
    | some t =>
      match Tbl.look t.launch s.launches, s.entryOf t.folio t.entry with
      | some x, some e =>
        match s.plan d 0#9 false [demandOf e e.team x.ntile x.breg x.sreg x.secure] with
        | some ((_, die, core, lanes) :: _) =>
          let caps := s.taskCaps d t
          let (id, s) := s.enterTeam t.launch { x with folio := t.folio } e t.num (some seq) none 0 die core e.team lanes t.args caps
          some (s.updDie d (fun y => y.updTask seq (fun t => { t with stage := .resident, team := some id, dirty := [] })))
        | _ => none
      | _, _ => none
  | .bulk l =>
    match Tbl.look l s.launches with
    | none => none
    | some x =>
      match s.entryOf x.folio x.entry with
      | none => none
      | some e =>
        let n := match e.convoy with | some n => min n (x.teams - x.next) | none => 1
        let dem := demandOf e (x.threads e) x.ntile x.breg x.sreg x.secure
        match s.plan d x.dmask e.convoy.isSome (List.replicate n dem) with
        | none => none
        | some places =>
          let (k, s) := s.takeId
          let convoy := e.convoy.map (fun _ => k)
          let (members, s) := (places.zipIdx).foldl (fun (acc : Tbl Nat × State) p =>
            let (slot, die, core, lanes) := p.1
            let (id, s) := acc.2.enterTeam l x e (x.next + p.2) none convoy slot die core (x.threads e) lanes x.args []
            (acc.1 ++ [(slot, id)], s)) ([], s)
          let s := s.updLaunch l (fun x => { x with next := x.next + n })
          let straddles := (places.map (fun p => p.2.1)).eraseDups.length == 2
          let group : Convoy := ⟨members, straddles, x.holding, List.replicate 8 Point.reset, List.replicate 8 false, []⟩
          some (match convoy with
            | some k => { s with convoys := Tbl.put k group s.convoys }
            | none => s)

/-! ### Resume (R128, R214, R263) -/

/-- The teams that enter and leave with a team: its convoy, or itself. -/
def State.together (s : State) (team : Nat) : List Nat :=
  match (s.team? team).bind Team.convoy with
  | some k => match Tbl.look k s.convoys with | some c => c.members.map Prod.snd | none => [team]
  | none => [team]

/-- A team holds a key (R214). -/
def State.holdsKey (s : State) (team : Nat) : Bool :=
  match s.team? team with
  | some t =>
    match t.task with
    | some q => (s.dies.any (fun p => p.2.tasks.any (fun u => u.seq == q && u.team == some team && !u.held.isEmpty)))
    | none => false
  | none => false

/-- A team holds matrix state (R128). -/
def Team.matrixState (t : Team) : Bool := !t.tiles.isEmpty || t.bsize != 0 || t.sents != 0

/-- A team's demand at its resume: each warp's saved allocation, its lanes where it holds matrix state. -/
def State.resumeDemand (s : State) (team : Nat) (t : Team) : Demand :=
  ⟨(s.warpsOf team).map (fun w =>
      ⟨if w.done then 0 else w.alloc * w.count, w.leastTable, if t.matrixState then some w.lane else none⟩),
    t.lstore + 256 * warpCount t.threads, t.bsize, t.sents, t.tiles.length, s.launchSecure t.launch, t.savedToken.isSome⟩

/-- A team may be resumed: pending resume, or saved and chosen by the scheduler. -/
def State.waitsResume (s : State) (t : Team) : Bool :=
  t.state == .pendingResume || (t.state == .saved && !t.escalated && !t.ended && s.ckpt == .idle)

/-- The teams that resume together, by slot: a team, or those of its convoy that have not ended; none unless each may. -/
def State.resuming (s : State) (team : Nat) : List (Nat × Team) :=
  let ts := (s.together team).filterMap (fun i => (s.team? i).map (fun t => (i, t)))
  let ts := ts.filter (fun p => !p.2.ended)
  if ts.all (fun p => s.waitsResume p.2) then ts else []

/-- Where the teams that resume together go on a die: team, die, core, lanes. Their slots stay (R25). -/
def State.resumePlan (s : State) (d team : Nat) : Option (List (Nat × Nat × Nat × List Nat)) :=
  match s.resuming team with
  | [] => none
  | ts =>
    (s.plan d 0x1FF#9 ((s.team? team).bind Team.convoy).isSome (ts.map (fun p => s.resumeDemand p.1 p.2))).map (fun l =>
      (ts.zip l).map (fun p => (p.1.1, p.2.2)))

/-- Credits of a convoy rebuilt from the free slots of each ring (R203). -/
def State.rebuildCredits (s : State) (k : Nat) : State :=
  s.updConvoy k (fun c => { c with credits := c.credits.map (fun x =>
    let ring := ((Tbl.look x.2.1 c.members).bind s.team?).bind (fun t => t.ring? x.2.2.1)
    (x.1, x.2.1, x.2.2.1, match ring with
      | some r => r.slots - r.fills.length
      | none => x.2.2.2)) })

/-- One team enters its new core: charges, contexts, token, instances; its record leaves the save pool; fetches read anew and
the core's L1 lines leave it (R231, R263). -/
def State.reenter (s : State) (team die core : Nat) (lanes : List Nat) : State :=
  match s.team? team with
  | none => s
  | some t =>
    let (since, s) := s.tick
    let s := s.mapDies (fun d => { d with savePool := d.savePool.filter (· != team) })
    let s := s.updCore die core (fun c => { c with
      token := match t.savedToken with | some k => some k | none => c.token
      insts := c.insts ++ t.insts
      mloop := c.mloop <|> t.macroSeq })
    let waits := t.macroSeq.filter (fun m => (s.core die core).mloop != some m)
    let s := s.updTeam team (fun t => { t with
      state := .resident, die := die, core := core, stopping := false, savedToken := none, insts := [],
      macroSeq := waits, deferred := none })
    let s := s.refreshStart die core
    let s := (lanes.zipIdx).foldl (fun s p => s.updWarp team p.2 (fun w => { w with lane := p.1, since := since })) s
    let s := (lanes.zipIdx).foldl (fun s p =>
      match s.warp? team p.2 with
      | some w => (if w.done then s else s.poolTake die core p.1 (w.alloc * w.count)).fitLane die core p.1 64
      | none => s) s
    let s := (s.syncFetch die core).dropL1 die core
    let s := (s.warpsOf team).foldl (fun s w => s.settleTraps team w.index) s
    ((s.warpsOf team).foldl (fun s w => if w.postedCancel then s.cancelBlocked team w.index else s) s).regrant die core

/-- The resume of a team, and of its convoy, at the places of a plan. -/
def State.resume (s : State) (l : List (Nat × Nat × Nat × List Nat)) : State :=
  let k := l.head?.bind (fun p => (s.team? p.1).bind Team.convoy)
  let s := match k with
    | some k => s.updConvoy k (fun c => { c with straddles := (l.map (fun p => p.2.1)).eraseDups.length == 2 })
    | none => s
  let s := l.foldl (fun s p => s.reenter p.1 p.2.1 p.2.2.1 p.2.2.2) s
  match k with
  | some k => s.rebuildCredits k
  | none => s

/-- Priority of a unit's launch. -/
def State.unitPri (s : State) (d : Nat) (u : Unit') : Nat :=
  let l := match u with | .bulk l => l | .task q => (((s.die d).task? q).map Task.launch).getD 0
  ((Tbl.look l s.launches).map Launch.pri).getD 0

/-- A saved or swapped key holder of at least a priority could enter this die (R214). -/
def State.keyHolderFirst (s : State) (d pri : Nat) : Bool :=
  s.teams.any (fun p => s.holdsKey p.1
    && pri ≤ ((Tbl.look p.2.launch s.launches).map Launch.pri).getD 0 && (s.resumePlan d p.1).isSome)

/-- TEAM_RESUME (R30, R214, R263): teams that the scheduler resumes are pending, and enter a die that can take them; teams without
keys wait for a key holder of their priority. -/
def execTeamResume (die team : Nat) (s : State) : Host.Outcome State Fault Refusal :=
  let ids := (s.resuming team).map Prod.fst
  let s := ids.foldl (fun s i => s.updTeam i (fun t => { t with state := .pendingResume })) s
  let pri := ((s.team? team).bind (fun t => (Tbl.look t.launch s.launches).map Launch.pri)).getD 0
  match s.resumePlan die team with
  | some l => if !ids.any s.holdsKey && s.keyHolderFirst die pri then .next s else .next (s.resume l)
  | none => .next s

/-- TEAM_ADMIT (R26 to R28): the first unit that the die's dispatcher can take. -/
def execTeamAdmit (die : Nat) (s : State) : Host.Outcome State Fault Refusal :=
  match (s.units die).findSome? (fun u => (s.admitUnit die u).map (fun t => (u, t))) with
  | some (u, t) =>
    if s.keyHolderFirst die (s.unitPri die u) then s.noEvent else .next t
  | none => s.noEvent

/-! ### Retirement (R24, R31, R210, R213) -/

/-- Engine operations of a team that are not complete; add-on-store to memory does not hold its retirement (R31). -/
def State.teamCopies (s : State) (team : Nat) : Bool :=
  s.xfers.any (fun x => x.team == some team && !x.counted)

/-- Started matrix instances of a team on its core. -/
def State.startedInsts (s : State) (t : Team) (team : Nat) : Bool :=
  (s.core t.die t.core).insts.any (fun i => i.team == team && i.input.isSome)

/-- Accesses of a team that are not performed or not returned. -/
def State.teamAccesses (s : State) (t : Team) (team : Nat) : Bool :=
  !s.earlierClear (.teams [team]) s.nextId
    || (s.core t.die t.core).loads.any (fun l => l.team == team) || s.atoms.any (fun a => a.leaf.team == team)

/-- A team has finished: every warp has exited, every copy it issued and every access is complete. -/
def State.teamDone (s : State) (team : Nat) : Bool :=
  match s.team? team with
  | some t =>
    (s.warpsOf team).all Warp.done && !s.teamCopies team
      && (!t.state.holds || (!s.startedInsts t team && !s.teamAccesses t team))
  | none => false

/-- A free sequencer takes the saved MLOOP of a team that resumed while it was busy; what can start is known anew (R133, R140,
R148). -/
def State.nextSequence (s : State) (d c : Nat) : State :=
  let s := match (s.core d c).mloop,
      s.teams.find? (fun p => p.2.macroSeq.isSome && p.2.state.holds && p.2.die == d && p.2.core == c) with
    | none, some (team, t) =>
      (s.updCore d c (fun x => { x with mloop := t.macroSeq })).updTeam team (fun t => { t with macroSeq := none })
    | _, _ => s
  s.refreshStart d c

/-- A core without a team's instances, and without its token. -/
def State.leaveCore (s : State) (t : Team) (team : Nat) : State :=
  let s := s.updCore t.die t.core (fun c =>
    let gone := (c.insts.filter (fun i => i.team == team)).map Instance.id
    { c with insts := c.insts.filter (fun i => i.team != team), startq := c.startq.filter (fun i => !gone.contains i)
             mloop := c.mloop.filter (fun m => !gone.contains m.inst) })
  let s := s.nextSequence t.die t.core
  match (s.core t.die t.core).token with
  | some k => if k.team == team then s.setToken t.die t.core none else s
  | none => s

/-- A reduction or add-on-store of a team is still to write a byte (R31, R147, R366). -/
def State.willWrite (s : State) (team : Option Nat) (asid va : Nat) : Bool :=
  s.reds.any (fun r => some r.by_.team == team && r.asid == asid && r.va ≤ va && va < r.va + accBytes r.ty.bits)
    || s.xfers.any (fun x => x.team.isSome && x.team == team && (match x.kind with | .drainAdd _ => true | _ => false)
      && x.slices.any (fun sl => match sl.dst with | .mem v => v ≤ va && va < v + sl.len | _ => false))

/-- The bytes of tiles that are not renamed and that a task did not write, nor will by a reduction of its own, take free values
(R209). -/
def State.freeUnwritten (s : State) (die : Nat) (t : Task) : State :=
  let x := Tbl.get s.launches t.launch Launch.none
  let s : State := { s with fresh := s.fresh + 1 }
  t.writes.foldl (fun s w =>
    if w.renamed then s
    else
      (List.range w.len).foldl (fun s i =>
        match s.engineXlate die 31 x.asid (w.base + i) ⟨false, false, false⟩ x.secure with
        | .ok p =>
          match s.cell? p.pa with
          | some c => if t.dirty.contains c || s.willWrite t.team x.asid (w.base + i) then s else s.physSet p.pa (Config.freeByte s.fresh (w.base + i))
          | none => s
        | _ => s) s) s

/-- One team retires: its warps and resources go, its task's keys and versions are settled, COUNT falls. -/
def State.retireTeam (s : State) (team : Nat) : State :=
  match s.team? team with
  | none => s
  | some t =>
    let s := s.dropInstances team
    let s := if t.state.holds then s.leaveCore t team else s
    let s := s.mapDies (fun d => { d with savePool := d.savePool.filter (· != team) })
    let s : State := { s with warps := s.warps.filter (fun p => p.2.team != team) }
    let s := s.updTeam team (fun t => { t with
      state := .retired, collectives := [], rings := [], loc := [], tiles := [], bbytes := [], btags := [], sbytes := [],
      stags := [], insts := [], macroSeq := none, savedToken := none })
    match t.task with
    | some q =>
      let die := (((List.range 9).find? (fun d => ((s.die d).task? q).any (fun u => u.team == some team)))).getD t.die
      let cancelled := t.cancelled
      let s := match (s.die die).task? q with
        | some u => if cancelled then s else s.freeUnwritten die u
        | none => s
      s.retireTask die q cancelled
    | none => s.countDown t.launch 1

/-- TEAM_RETIRE (R24, R30, R31, R38): a resident team has finished, or one that ended while it was saved (R259); a convoy's retire
together. -/
def execTeamRetire (team : Nat) (s : State) : Host.Outcome State Fault Refusal :=
  let ids := s.together team
  let live := ids.all (fun i => match s.team? i with
    | some t => t.state == .resident || (t.state == .saved && t.ended)
    | none => false)
  if live && ids.all s.teamDone then
    let k := (s.team? team).bind Team.convoy
    let s := ids.foldl (fun s i => s.retireTeam i) s
    .next (match k with | some k => { s with convoys := Tbl.del k s.convoys } | none => s)
  else s.noEvent

/-! ### Swap and save (R30, R148, R190, R203, R214, R231, R261, R262) -/

/-- Everything that a save completes is complete: accesses and register writes, started instances, transfers. An MDRN .reg that has not
started is saved with its pending writes (R148); a reduction does not hold back the save (R367). -/
def State.drained (s : State) (team : Nat) : Bool :=
  match s.team? team with
  | none => false
  | some t =>
    let insts := ((s.core t.die t.core).insts.filter (fun i => i.team == team)) ++ t.insts
    let waiting := (insts.filter (fun i => i.input.isNone)).map Instance.id
    let started := insts.any (fun i =>
      i.input.isSome && !((s.core t.die t.core).mloop.any (fun m => m.inst == i.id)) && !t.macroSeq.any (fun m => m.inst == i.id))
    !s.teamAccesses t team && (s.warpsOf team).all (fun w => w.threads.all (fun th => th.pendingOnly waiting)) && !started
      && !s.xfers.any (fun x => x.team == some team || (match x.ring with | some (r, _, _, _) => r == team | none => false))

/-- 64 KiB units of a context save record (R261, log 27). -/
def saveUnits : Nat := 1 + Config.saveExtra % 65535

/-- The save pool of a die has room for n records more (R261). -/
def State.saveRoom (s : State) (d n : Nat) : Bool :=
  ((s.die d).savePool.length + n) * saveUnits ≤ bitsOf (s.dieWord d 0x391).toNat 15 0

/-- Waits that a save withdraws; their instructions issue again on resume (R262 step 2, R333). The leaf of an escalation is past its
wait (R256). -/
def Wait.saveWithdraws : Wait → Bool
  | .claim _ | .qpop _ _ _ | .token | .entry _ _ _ | .busy | .release _ _ | .launch _ _ _ | .task _ _ _ | .escalated => true
  | _ => false

/-- The waits of a team that its save withdraws. -/
def State.withdrawSaved (s : State) (team : Nat) : State :=
  (s.warpsOf team).foldl (fun s w => w.entries.foldl (fun s e =>
    if e.wait.saveWithdraws then s.withdraw ⟨team, w.index, e.id⟩ else s) s) s

/-- A team has a record in its die's context save pool (R261). -/
def State.reserveSave (s : State) (team : Nat) (t : Team) : State :=
  s.updDie t.die (fun d => { d with savePool := if d.savePool.contains team then d.savePool else d.savePool ++ [team] })

/-- A team leaves its core with its context (R262). -/
def State.leaveTeam (s : State) (team : Nat) (dest : TeamState) : State :=
  match s.team? team with
  | none => s
  | some t =>
    let s := (s.withdrawSaved team).updWarps team (fun w => { w with threads := w.threads.map Thread.shutWindows })
    let s : State := { s with lastIssue := s.lastIssue.filter (fun p => p.1 / 32 != team) }
    let k := s.core t.die t.core
    let mine := k.insts.filter (fun i => i.team == team)
    let s := s.updTeam team (fun t => { t with
      state := dest
      insts := mine
      macroSeq := k.mloop.filter (fun m => mine.any (fun i => i.id == m.inst)) <|> t.macroSeq
      savedToken := k.token.filter (fun x => x.team == team)
      deferred := none })
    let s := s.leaveCore t team
    let s := s.reserveSave team t
    ((s.warpsOf team).foldl (fun s w => if w.done then s else s.poolReturn t.die t.core w.lane (w.alloc * w.count)) s).regrant t.die t.core

/-- Teams leave together; the credits held for the receivers of a convoy read zero (R203). -/
def State.leaveAll (s : State) (ids : List Nat) (dest : TeamState) : State :=
  let s := ids.foldl (fun s i => s.leaveTeam i dest) s
  match ids.head?.bind (fun i => (s.team? i).bind Team.convoy) with
  | some k => s.updConvoy k (fun c => { c with credits := c.credits.map (fun x => (x.1, x.2.1, x.2.2.1, 0)) })
  | none => s

/-- Room in the save pools of the dies that some teams are on, for those that have no record there yet. -/
def State.roomFor (s : State) (ids : List Nat) : Bool :=
  (List.range 9).all (fun d =>
    let n := (ids.filter (fun i => ((s.team? i).map (fun t => t.die == d)).getD false && !(s.die d).savePool.contains i)).length
    n == 0 || s.saveRoom d n)

/-- Every leaf of a team waits in WAITC (R30). -/
def State.allMonitoring (s : State) (team : Nat) : Bool :=
  let ws := (s.warpsOf team).filter (fun w => !w.done)
  !ws.isEmpty && ws.all (fun w => (w.entries.filter Entry.isLeaf).all (fun e => match e.wait with | .monitor _ => true | _ => false))

/-- TEAM_SWAP (R30, R38): every warp of a team, and of its convoy, waits in WAITC. -/
def execTeamSwap (team : Nat) (s : State) : Host.Outcome State Fault Refusal :=
  let ids := s.together team
  if ids.all (fun i => ((s.team? i).map (fun t => t.state == .resident)).getD false && s.allMonitoring i && s.drained i)
      && s.roomFor ids then .next (s.leaveAll ids .swapped)
  else s.noEvent

/-- A pre-emption goes on (R261, R262 step 1): the teams' records are reserved, and their leaves are chosen no longer. -/
def State.stopTeams (s : State) (ids : List Nat) : State :=
  ids.foldl (fun s i => match s.team? i with
    | some t => (s.updTeam i (fun t => { t with stopping := true, deferred := none })).reserveSave i t
    | none => s) s

/-- Teams that stand stopped leave once everything that the save completes is complete. -/
def State.trySave (s : State) (ids : List Nat) : State := if ids.all s.drained then s.leaveAll ids .saved else s

/-- TEAM_SAVE (R214, R261, R262): a pre-emption request. A key holder is deferred; else, with room in the save pool, no leaf of the
team issues from now on, and the team leaves once everything the save completes is complete. -/
def execTeamSave (team : Nat) (s : State) : Host.Outcome State Fault Refusal :=
  let ids := s.together team
  let ts := ids.filterMap s.team?
  if !(ts.length == ids.length && !ts.isEmpty && ts.all (fun t => t.state == .resident)) then s.noEvent
  else if ts.all Team.stopping then .next (s.trySave ids)
  else if ids.any s.holdsKey then
    if ts.any (fun t => t.deferred.isSome) then s.noEvent
    else .next (ids.foldl (fun s i => s.updTeam i (fun t => { t with deferred := some (s.core t.die t.core).cyc.toNat })) s)
  else if !s.roomFor ids then s.noEvent
  else .next ((s.stopTeams ids).trySave ids)

/-- KEY_HOLDER_DEFER_EXPIRY (R214): after 170,000 cycles of its core, or once the team holds no key, the pre-emption goes
on, with room in the save pool (R261). -/
def execKeyHolderDeferExpiry (team : Nat) (s : State) : Host.Outcome State Fault Refusal :=
  let ids := s.together team
  match s.team? team with
  | some t =>
    match t.deferred with
    | some c =>
      if t.state == .resident && (c + 170000 ≤ (s.core t.die t.core).cyc.toNat || !ids.any s.holdsKey) && s.roomFor ids then
        .next (s.stopTeams ids)
      else s.noEvent
    | none => s.noEvent
  | none => s.noEvent

/-! ### Lanes (R34 to R37, R64) -/

/-- A leaf of the reserve that would be ready in the table. -/
def Entry.spilledReady (e : Entry) : Bool := e.ready && e.spilled

/-- SPLIT_FILL (R34): the oldest warp with a ready spilled leaf fills a free entry, or exchanges a blocked table leaf for
it. The spilled leaf with the lowest thread and the first blocked leaf of the table are the model's choice (log 39). -/
def execSplitFill (die core lane : Nat) (s : State) : Host.Outcome State Fault Refusal :=
  let ws := sortBy (fun (a b : Warp) => a.since < b.since || (a.since == b.since && a.index ≤ b.index))
    ((s.laneWarps die core lane).filter (fun w => w.entries.any Entry.spilledReady))
  let ready (w : Warp) : Option Entry := (sortBy (fun a b => a.lowest ≤ b.lowest) (w.entries.filter Entry.spilledReady)).head?
  let fill := ws.findSome? (fun w =>
    if w.tabled.length < s.tableRoom die core w then (ready w).map (fun e => (w, e, (none : Option Entry)))
    else
      match w.tabled.find? (fun e => e.isLeaf && e.wait != .none), ready w with
      | some b, some e => some (w, e, some b)
      | _, _ => none)
  match fill with
  | none => s.noEvent
  | some (w, e, out) =>
    .next (s.updWarp w.team w.index (fun w =>
      let w := w.updEntry e.id (fun x => { x with spilled := false })
      match out with
      | some b => w.updEntry b.id (fun x => { x with spilled := true })
      | none => w))

/-- HELD_SPLIT_RELEASE (R34): a held split may find its entries; the branch issues again. -/
def execHeldSplitRelease (r : LeafRef) (s : State) : Host.Outcome State Fault Refusal :=
  match s.team? r.team, s.warp? r.team r.warp with
  | some t, some w =>
    match w.entry? r.leaf with
    | some e => if e.wait == .split && s.splitRoom t.die t.core w then .next (s.unblock r) else s.noEvent
    | none => s.noEvent
  | _, _ => s.noEvent

/-- The base class of a team's leaves: 2 critical, 1 normal, 0 background (R36). -/
def State.baseClass (s : State) (team : Nat) : Nat :=
  match s.team? team with
  | none => 1
  | some t =>
    if s.holdsKey team || (match (s.core t.die t.core).token with | some k => k.team == team | none => false) then 2
    else if ((Tbl.look t.launch s.launches).map Launch.bkg).getD false then 0
    else 1

/-- The class in which a leaf competes: its base class and its promotions, critical at most (R37). -/
def State.leafClass (s : State) (team : Nat) (e : Entry) : Nat := min 2 (s.baseClass team + e.promo)

/-- A leaf that has lost 256 choices is promoted one class, a critical one no further; its count returns to zero (R37). -/
def State.promote (s : State) (r : LeafRef) : State :=
  s.updEntry r (fun e =>
    if 256 ≤ e.passes then { e with passes := 0, promo := if s.leafClass r.team e = 2 then e.promo else e.promo + 1 } else e)

/-- PASS_PROMOTION (R37). -/
def execPassPromotion (r : LeafRef) (s : State) : Host.Outcome State Fault Refusal :=
  match (s.warp? r.team r.warp).bind (fun w => w.entry? r.leaf) with
  | some e => if 256 ≤ e.passes then .next (s.promote r) else s.noEvent
  | none => s.noEvent

/-- RVWAIT_EXPIRY (R195): p clears and the arrival bit is set again. -/
def execRvwaitExpiry (r : LeafRef) (s : State) : Host.Outcome State Fault Refusal :=
  match (s.warp? r.team r.warp).bind (fun w => w.entry? r.leaf) with
  | some e =>
    match e.wait with
    | .rv n phase (some (0, _, _)) =>
      .next ((s.rvDone r false).updWarp r.team r.warp (fun w => w.arrive n phase))
    | _ => s.noEvent
  | none => s.noEvent

/-- CONVOY_NOTICE_ARRIVAL (R195). -/
def execConvoyNoticeArrival (convoy point : Nat) (s : State) : Host.Outcome State Fault Refusal :=
  match Tbl.look convoy s.convoys with
  | some c =>
    if c.notices.getD (point - 16) false then .next (s.arriveNotice convoy point)
    else s.noEvent
  | none => s.noEvent

/-- The posted trap of a warp is taken by its oldest ready leaf, ECC before CANCEL (R252, R253). -/
def State.asyncTake (s : State) (team warp : Nat) : Option State :=
  match s.team? team, s.warp? team warp with
  | some t, some w =>
    if w.handler.isSome || !t.state.holds || t.stopping then none
    else
      match (sortBy (fun a b => a.lowest ≤ b.lowest) (w.entries.filter Entry.ready)).head? with
      | none => none
      | some e =>
        let r : LeafRef := ⟨team, warp, e.id⟩
        match w.postedEcc with
        | some i => some ((s.updWarp team warp (fun w => { w with postedEcc := none })).deliver r ⟨BitVec.ofNat 8 cECC, i, 0⟩)
        | none =>
          if w.postedCancel then
            some ((s.updWarp team warp (fun w => { w with postedCancel := false })).deliver r (mkTrap cCANCEL 0))
          else none
  | _, _ => none

/-- ASYNC_TRAP_TAKE (R252). -/
def execAsyncTrapTake (team warp : Nat) (s : State) : Host.Outcome State Fault Refusal :=
  match s.asyncTake team warp with
  | some t => .next t
  | none => s.noEvent

/-! ### CLAIMDL (R64) -/

/-- A wait in which a warp is stalled. -/
def Wait.stalls : Wait → Bool
  | .claim _ | .rv _ _ _ | .ring _ _ _ | .token | .entry _ _ _ | .monitor _ => true
  | _ => false

/-- Every leaf that a warp has not finished is stalled. -/
def Warp.stalled (w : Warp) : Bool := (w.entries.filter Entry.isLeaf).all (fun e => e.wait.stalls)

/-- A warp waits in CLAIM. -/
def Warp.claims (w : Warp) : Bool := w.entries.any (fun e => match e.wait with | .claim _ => true | _ => false)

/-- Outside help of a team that does not depend on the set: a transfer it issued or receives, a reduction, an armed monitor,
a timed RVWAIT, a CWAIT. -/
def State.helped (s : State) (team : Nat) : Bool :=
  s.xfers.any (fun x => x.team == some team || (match x.ring with | some (r, _, _, _) => r == team | none => false)
      || x.slices.any (fun sl => match sl.dst with | .loc t _ => t == team | _ => false))
    || s.dies.any (fun p => p.2.holding.any (fun h => h.sender == team || h.drains.any (fun d => d.1 == team))
        || p.2.monitors.any (fun m => m.armed && m.leaf.team == team))
    || s.cores.any (fun p => p.2.insts.any (fun i => i.team == team
        && (match i.op with | .mdrn op _ _ _ _ => op != .reg | _ => false)))
    || s.reds.any (fun r => r.by_.team == team)
    || (s.warpsOf team).any (fun w => w.entries.any (fun e => match e.wait with
        | .rv _ _ (some _) => true | .entry _ _ _ => true | _ => false))

/-- A team stays in the set: stalled, without help, no TOKW on a token held outside, no CLAIM on a lane shared with a team
outside. That a wholly exited warp of a resident team still shares its lane is the model's choice (log 48). -/
def State.deadlockedIn (s : State) (d c : Nat) (set : List Nat) (team : Nat) : Bool :=
  let ws := (s.warpsOf team).filter (fun w => !w.done)
  let waitsToken := ws.any (fun w => w.entries.any (fun e => e.wait == .token))
  let holderIn := match (s.core d c).token with | some k => set.contains k.team | none => true
  ws.all Warp.stalled && !s.helped team && (!waitsToken || holderIn)
    && ws.all (fun w => !w.claims || (s.laneWarps d c w.lane).all (fun x => set.contains x.team))

/-- The largest set that its conditions keep. -/
def State.deadlockSet (s : State) (d c : Nat) (set : List Nat) : Nat → List Nat
  | 0 => set
  | fuel + 1 => s.deadlockSet d c (set.filter (s.deadlockedIn d c set)) fuel

/-- CLAIMDL_REPORT (R64): every warp of the largest claim-deadlocked set that waits in CLAIM takes CLAIMDL; the claims are
withdrawn first. That the promise of a wholly exited warp is summed too is the model's choice (log 48). -/
def execClaimdlReport (die core : Nat) (s : State) : Host.Outcome State Fault Refusal :=
  let all := (s.teams.filter (fun p => p.2.state.holds && p.2.die == die && p.2.core == core)).map Prod.fst
  let set := s.deadlockSet die core all all.length
  let ws := (set.flatMap (fun t => s.warpsOf t)).filter Warp.claims
  if ws.isEmpty then s.noEvent
  else
    let leaves := ws.flatMap (fun w => w.entries.filterMap (fun e =>
      match e.wait with
      | .claim n =>
        let short : Int := ((n * w.count : Nat) : Int) - ((s.core die core).poolFree w.lane : Int)
        let give := (((s.warpsOf w.team).filter (fun x => x.lane == w.lane)).map (fun x => x.promise * x.count)).foldl (· + ·) 0
        some ((⟨w.team, w.index, e.id⟩ : LeafRef), wrap 32 short + give * 2 ^ 32)
      | _ => none))
    let gone := leaves.map Prod.fst
    let s := s.updCore die core (fun c => { c with
      claims := c.claims.map (fun p => (p.1, p.2.filter (fun q => !gone.contains q.1))) })
    let s := gone.foldl (fun s r => s.unblock r) s
    .next (leaves.foldl (fun s p => s.deliver p.1 (mkTrap cCLAIMDL p.2)) s)

end Sys2Proof.Machine
end

