-- ==== Sys2Proof/Machine/Launch.lean ====
section
/-! DEFINITION. Launches, graphs, phases and jobs; launch queues; armed launches and messages received; LNCH, CNCL, CWAIT
(spec/02 R39 to R43, spec/11 R220 to R228, spec/19 R330, R333, spec/20 R353). -/

namespace Sys2Proof.Machine

/-! ### Launch records (R221, R223) -/

/-- The fields of a launch record. -/
structure LaunchRec where
  teams : Nat
  dmask : BitVec 9
  pri : Nat
  bkg : Bool
  strict : Bool
  holding : Bool
  bkt : Bool
  nthr : Nat
  folio : Nat
  ntile : Nat
  breg : Nat
  sreg : Nat
  entry : Nat
  deriving DecidableEq, Repr

/-- A launch record's 64 bytes; none where a reserved bit is set or a field is out of range. -/
def parseLaunch (b : List Byte) : Option LaunchRec :=
  let w := leNat (b.take 8)
  let v := leNat ((b.drop 8).take 8)
  let r : LaunchRec :=
    ⟨bitsOf w 63 40 + 1, BitVec.ofNat 9 (bitsOf w 39 31), bitsOf w 30 28, bitOf w 27, bitOf w 26, bitOf w 25, bitOf w 24,
      bitsOf w 23 13, bitsOf v 63 48, bitsOf v 47 42, bitsOf v 41 36, bitsOf v 35 25, bitsOf v 15 0⟩
  if bitsOf w 12 0 != 0 || bitsOf v 24 16 != 0 || (b.drop 16).any (fun x => x != 0#8)
      || 1024 < r.nthr || 32 < r.ntile || 32 < r.breg || 1024 < r.sreg then none
  else some r

/-- The entry that runs under a record: the launched one, or the first bucket line whose conditions hold (R223). -/
def bucketEntry (e : FolioEntry) (entry : Nat) (bkt : Bool) (args : List Byte) : Option Nat :=
  if !bkt then some entry
  else
    let k (i : Nat) : Nat := leNat (((args.take e.args).drop (4 * i)).take 4)
    (e.buckets.find? (fun b => b.conds.all (fun c => k c.k ≤ c.max))).map BucketLine.entry

/-- What a record asks for: refused, a bucket that does not hold, or a launch of an entry. -/
inductive LaunchAsk where
  | refused
  | noBucket
  | ok (entry : Nat)

/-- A record against the folio and entry that it launches. -/
def askLaunch (r : LaunchRec) (x : Folio) (entry : Nat) (args : List Byte) : LaunchAsk :=
  match x.image.entries[entry]? with
  | none => .refused
  | some e =>
    if e.team < r.nthr then .refused
    else
      match bucketEntry e entry r.bkt args with
      | some n => .ok n
      | none => .noBucket

/-- A new launch of an entry (R24, R26, R205, R221); none while the completion table is full. -/
def State.newLaunch (s : State) (r : LaunchRec) (folio entry : Nat) (args : List Byte) (asid : Nat) (secure : Bool)
    (rfolio job parent : Nat) (dmask : BitVec 9) (node : Option Nat) : Option (Nat × State) :=
  match s.newEntry 0#2 parent r.teams with
  | none => none
  | some (i, s) =>
    let (now, s) := s.tick
    let x : Launch :=
      { teams := r.teams, next := 0, dmask := dmask, pri := r.pri, bkg := r.bkg, strict := r.strict, holding := r.holding,
        nthr := r.nthr, ntile := r.ntile, breg := r.breg, sreg := r.sreg, folio := folio, entry := entry, args := args,
        asid := asid, secure := secure, rfolio := rfolio, job := job, taskNum := r.teams, node := node, slot := none,
        order := now }
    some (i, { s with launches := Tbl.put i x s.launches })

/-! ### Host-submitted launches (R221, R227, R228) -/

/-- The outcome of starting an item of a job or a graph. -/
inductive Started where
  /-- It runs. -/
  | ok (s : State)
  /-- It completes FAULTED at once. -/
  | faulted
  /-- The completion table is full. -/
  | full

/-- A launch from the record at a physical address, for a job, under a parent entry. -/
def State.hostLaunch (s : State) (pa job parent : Nat) (node : Option Nat) : Started :=
  match parseLaunch (s.physRead pa 64), Tbl.look job s.jobs with
  | some r, some j =>
    match Tbl.look r.folio s.folios with
    | some x =>
      let n := ((x.image.entries[r.entry]?).map FolioEntry.args).getD 0
      let args := s.physRead (pa + 64) n
      if r.dmask = 0#9 || !x.live || x.secure != j.secure || s.shutTo j.secure pa (64 + n) then .faulted
      else
        match askLaunch r x r.entry args with
        | .ok e =>
          match s.newLaunch r r.folio e args j.asid j.secure j.rfolio job parent r.dmask node with
          | some (_, s) => .ok s
          | none => .full
        | _ => .faulted
    | none => .faulted
  | _, _ => .faulted

/-! ### Graphs (R43, R228) -/

/-- One node's record. -/
def parseNode (b : List Byte) : Option Node :=
  let w := leNat (b.take 8)
  let copy := bitOf w 63
  let nsucc := leNat ((b.drop 10).take 1)
  let succ := (List.range 14).map (fun i => leNat ((b.drop (12 + 2 * i)).take 2))
  let src := leNat ((b.drop 40).take 8)
  let dst := leNat ((b.drop 48).take 8)
  let len := leNat ((b.drop 56).take 8)
  let ok :=
    14 ≥ nsucc && leNat ((b.drop 11).take 1) == 0 && (succ.drop nsucc).all (· == 0)
      && bitsOf w 62 52 == 0 && bitsOf w 5 0 == 0
      && (if copy then bitsOf w 51 6 == 0 && src % 16 == 0 && dst % 16 == 0 && len % 16 == 0 && 16 ≤ len && len ≤ 2 ^ 32
          else src == 0 && dst == 0 && len == 0)
  if ok then some ⟨copy, bitsOf w 51 6 * 64, leNat ((b.drop 8).take 2), succ.take nsucc, src, dst, len, false, false⟩ else none

/-- A graph descriptor at a physical address; none where the walker refuses it. -/
def State.parseGraph (s : State) (pa job : Nat) : Option Graph :=
  let h := s.physRead pa 32
  let n := leNat (h.take 2)
  let home := leNat ((h.drop 2).take 1)
  if n = 0 || 4096 < n || 8 < home || (h.drop 3).any (fun x => x != 0#8) then none
  else
    match (List.range n).mapM (fun i => parseNode (s.physRead (pa + 32 + 64 * i) 64)) with
    | none => none
    | some nodes =>
      let named (i : Nat) : Nat := (nodes.filter (fun n => n.succs.contains i)).length
      if (nodes.zipIdx).all (fun p => p.1.succs.all (fun k => p.2 < k && k < n) && p.1.left == named p.2) then
        some ⟨home, nodes, false, job⟩
      else none

/-- A node changed. -/
def State.updNode (s : State) (g i : Nat) (f : Node → Node) : State :=
  { s with graphs := Tbl.alter g (fun x => { x with nodes := modAt i f x.nodes }) s.graphs }

/-- The walker starts no further node, and the nodes never started leave COUNT (R43). -/
def State.stopGraph (s : State) (g : Nat) : State := s.cancelGraph g

/-- A member of a graph has ended in a state: COUNT falls, the flags of R40 are kept. -/
def State.memberEnd (s : State) (parent : Nat) (st : EntryState) : State :=
  if parent = noParent then s
  else
    (s.updCompletion parent (fun e => { e with
      anyFault := e.anyFault || st == .faulted, anyCancel := e.anyCancel || st == .cancelled })).countDown parent 1

/-- The core whose engine copies for a graph on a die: the lowest of the job's world, or core 0 where none is, which has its own world
(R228, R265; which core serves is the model's choice, log 48). -/
def State.copyCore (s : State) (die : Nat) (secure : Bool) : Nat :=
  ((List.range 18).find? (fun c => s.coreSecure die c == secure)).getD 0

/-- A node starts: a launch, or a copy of an engine of the graph's home die, in the job's address space and the core's world (R228,
R265). A refused record's node has ended FAULTED, and the walker stops. -/
def State.startNode (s : State) (g i : Nat) : Started :=
  match Tbl.look g s.graphs with
  | none => .ok s
  | some x =>
    match x.nodes[i]? with
    | none => .ok s
    | some n =>
      let t := s.updNode g i (fun n => { n with started := true })
      if n.copy then
        let j := (Tbl.look x.job s.jobs).getD ⟨0, 0, 0, false, 0, 0, 0⟩
        let c := s.copyCore x.home j.secure
        let (id, t) := t.takeId
        .ok { t with xfers := t.xfers ++ [⟨id, .node g i, none, [], g, x.home, c, j.asid, s.coreSecure x.home c, none, none, none,
          [⟨0, .mem n.src, .mem n.dst, n.len, 0, [], []⟩], false⟩] }
      else
        match t.hostLaunch n.lrec x.job g (some i) with
        | .ok t => .ok t
        | .full => .full
        | .faulted => .ok (((t.updNode g i (fun n => { n with finished := true })).memberEnd g .faulted).stopGraph g)

/-- Nodes start in order, while the graph is not stopped. -/
def State.startNodes (s : State) (g : Nat) : List Nat → Started
  | [] => .ok s
  | i :: r =>
    if ((Tbl.look g s.graphs).map Graph.stopped).getD true then .ok s
    else
      match s.startNode g i with
      | .ok t => t.startNodes g r
      | x => x

/-- A node has ended (R43): after DONE its successors' counts fall in list order and those at zero start; after any other
state the walker stops. -/
def State.nodeEnd (s : State) (g i : Nat) (st : EntryState) : Started :=
  let s := (s.updNode g i (fun n => { n with finished := true })).memberEnd g st
  match Tbl.look g s.graphs with
  | none => .ok s
  | some x =>
    if st != .done then .ok (s.stopGraph g)
    else
      let succs := ((x.nodes[i]?).map Node.succs).getD []
      let s := succs.foldl (fun s k => s.updNode g k (fun n => { n with left := n.left - 1 })) s
      let zero := succs.filter (fun k =>
        ((((Tbl.look g s.graphs).map Graph.nodes).getD [])[k]?).any (fun n => n.left == 0 && !n.started))
      s.startNodes g zero.eraseDups

/-- A graph from the descriptor at a physical address. -/
def State.startGraph (s : State) (pa job parent : Nat) : Started :=
  match (s.parseGraph pa job).filter (fun x => !s.shutTo (((Tbl.look job s.jobs).map Job.secure).getD false) pa (32 + 64 * x.nodes.length)) with
  | none => .faulted
  | some x =>
    match s.newEntry 1#2 parent x.nodes.length with
    | none => .full
    | some (g, s) =>
      let s : State := { s with graphs := Tbl.put g x s.graphs }
      s.startNodes g ((List.range x.nodes.length).filter (fun i => ((x.nodes[i]?).map Node.left).getD 1 == 0))

/-! ### Phases and jobs (R41, R225, R227) -/

/-- The items of a phase: kind and address; none where a reserved bit or a count is wrong. -/
def State.phaseItems (s : State) (rec_ p : Nat) : Option (List (Bool × Nat)) :=
  let b := s.physRead (rec_ + 32 + 16 * p) 16
  let n := leNat (b.take 4)
  let list := leNat (b.drop 8)
  if n = 0 || 256 < n || leNat ((b.drop 4).take 4) != 0 || list % 8 != 0 then none
  else
    (List.range n).mapM (fun i =>
      let w := leNat (s.physRead (list + 8 * i) 8)
      if bitsOf w 62 52 != 0 || w % 64 != 0 then none else some (bitOf w 63, bitsOf w 51 0))

/-- Items of a phase start together; a refused one completes FAULTED. -/
def State.startItems (s : State) (job phase : Nat) : List (Bool × Nat) → Started
  | [] => .ok s
  | (graph, pa) :: r =>
    match (if graph then s.startGraph pa job phase else s.hostLaunch pa job phase none) with
    | .ok t => t.startItems job phase r
    | .faulted => (s.memberEnd phase .faulted).startItems job phase r
    | .full => .full

/-- Phase p of a job starts. -/
def State.startPhase (s : State) (job p : Nat) : Started :=
  match Tbl.look job s.jobs with
  | none => .faulted
  | some j =>
    match s.phaseItems j.rec_ p with
    | none => .faulted
    | some items =>
      match s.newEntry 2#2 job items.length with
      | none => .full
      | some (ph, s) =>
        ({ s with jobs := Tbl.put job { j with phase := p } s.jobs } : State).startItems job ph items

/-- The folio numbers that a job's record names: RFOLIO, its launch records, its graphs' launch nodes, in order. -/
def State.jobFolios (s : State) (rfolio : Nat) (items : List (Bool × Nat)) : List Nat :=
  (if rfolio = 0 then [] else [rfolio]) ++ items.flatMap (fun it =>
    if it.1 then
      match s.parseGraph it.2 0 with
      | some g => (g.nodes.filter (fun n => !n.copy)).map (fun n => s.recordFolio n.lrec)
      | none => []
    else [s.recordFolio it.2])

/-- What a job record says, or that it is refused (R227). -/
def State.parseJob (s : State) (pa : Nat) : Option (Job × List Nat) :=
  let b := s.physRead pa 32
  let rf := leNat ((b.drop 8).take 2)
  let asid := leNat ((b.drop 10).take 1)
  let nph := leNat ((b.drop 12).take 4)
  if bitsOf (leNat (b.take 8)) 63 0 != 0 || leNat ((b.drop 11).take 1) != 0 || (b.drop 16).any (fun x => x != 0#8) || nph = 0
      || 65535 < nph || !s.spaceOn 0 asid then none
  else
    match (List.range nph).mapM (fun p => s.phaseItems pa p) with
    | none => none
    | some items =>
      let folios := s.jobFolios rf items.flatten
      let known := folios.filterMap (fun f => (Tbl.look f s.folios).filter Folio.live)
      let secure := (known.head?.map Folio.secure).getD false
      let lists := (List.range nph).any (fun p =>
        s.shutTo secure (leNat (s.physRead (pa + 40 + 16 * p) 8)) (8 * (items.getD p []).length))
      if (rf != 0 && !((Tbl.look rf s.folios).map Folio.live).getD false) || known.any (fun x => x.secure != secure)
          || s.shutTo secure pa (32 + 16 * nph) || lists then none
      else some (⟨pa, 0, asid, secure, rf, nph, 0⟩, folios)

/-- A job becomes the owner of the folios that it is the first to name (R274). -/
def State.ownFolios (s : State) (job : Nat) (l : List Nat) : State :=
  l.foldl (fun s f =>
    match Tbl.look f s.folios with
    | some x =>
      if x.live && x.job.isNone then ({ s with folios := Tbl.put f { x with job := some job } s.folios } : State).writeSpine f
      else s
    | none => s) s

/-- A launch queue's SZLOG. -/
def State.queueLog (s : State) (n : Nat) : Nat := bitsOf (s.word (0x1001 + 4 * n)).toNat 4 0

/-- Slots published and not taken of a launch queue. -/
def State.queueWork (s : State) (n : Nat) : Bool :=
  (s.word (0x1000 + 4 * n)).getLsbD 63 && s.word (0x1002 + 4 * n) != s.word (0x1003 + 4 * n)

/-- Priority of a launch queue. -/
def State.queuePri (s : State) (n : Nat) : Nat := bitsOf (s.word (0x1001 + 4 * n)).toNat 10 8

/-- JOB_START (R225 to R227): the slot at HEAD of the queue of highest priority; the job starts, or is refused and ends
FAULTED. Until the completion table has an entry for the job, its first phase and each of that phase's items the dispatcher does not
take it (log 36). -/
def execJobStart (n : Nat) (s : State) : Host.Outcome State Fault Refusal :=
  let first := (List.range 64).all (fun m =>
    !s.queueWork m || s.queuePri m < s.queuePri n || (s.queuePri m == s.queuePri n && n ≤ m))
  if !s.queueWork n || !first || s.recovery || s.ckpt != .idle then s.noEvent
  else
    let head := (s.word (0x1002 + 4 * n)).toNat
    let base := bitsOf (s.word (0x1000 + 4 * n)).toNat 51 3 * 8
    let slot := base + 8 * (head % 2 ^ s.queueLog n)
    let pa := bitsOf (leNat (s.physRead slot 8)) 51 6 * 64
    if (s.cell? slot).isNone then .fault (.badPhysical slot)
    else if (s.cell? pa).isNone then .fault (.badPhysical pa)
    else
      match s.newEntry 3#2 noParent 1 with
      | none => s.noEvent
      | some (i, t) =>
        let t := t.setWord (0x1002 + 4 * n) (BitVec.ofNat 64 ((head + 1) % 2 ^ 32))
        match s.parseJob pa with
        | none =>
          let t : State := { t with jobs := Tbl.put i ⟨pa, n, 0, false, 0, 0, 0⟩ t.jobs }
          .next (t.memberEnd i .faulted)
        | some (j, folios) =>
          let t : State := { t with jobs := Tbl.put i { j with queue := n } t.jobs }
          let t := (t.place pa (natLe 8 (8 + (t.handle i).toNat * 2 ^ 32))).ownFolios i folios
          match t.startPhase i 0 with
          | .ok t => .next t
          | .faulted => .next (t.memberEnd i .faulted)
          | .full => s.noEvent

/-! ### Launch queue words (R226) -/

/-- A write of a queue's word: EN needs SZLOG in 4 to 16 and VEC of 64 or more, and resets HEAD and TAIL; a TAIL more than
2^SZLOG slots ahead of HEAD, or behind it, is ignored; HEAD is read only. -/
def State.writeQueueWord (s : State) (n k : Nat) (v : Word64) : State :=
  let num := 0x1000 + 4 * n + k
  let old := s.word num
  match k with
  | 0 =>
    let vec := bitsOf (s.word (0x1001 + 4 * n)).toNat 26 16
    let ok := 4 ≤ s.queueLog n && s.queueLog n ≤ 16 && 64 ≤ vec
    let w := mergeWord old v (bitRange 63 63 ||| bitRange 51 3) 0#64
    if old.getLsbD 63 || !v.getLsbD 63 then s.setWord num w
    else if !ok then s.setWord num (w &&& ~~~(bitRange 63 63))
    else ((s.setWord num w).setWord (0x1002 + 4 * n) 0#64).setWord (0x1003 + 4 * n) 0#64
  | 1 => s.setWord num (mergeWord old v (bitRange 26 16 ||| bitRange 10 8 ||| bitRange 4 0) 0#64)
  | 3 =>
    let head := (s.word (0x1002 + 4 * n)).toNat
    let tail := v.toNat % 2 ^ 32
    let ahead := ringCount head tail
    if 2 ^ s.queueLog n < ahead then s
    else s.setWord num (BitVec.ofNat 64 tail)
  | _ => s

/-- LAUNCH_QUEUE_ENABLE (R226): a write of word 0. -/
def execLaunchQueueEnable (n : Nat) (v : Word64) (s : State) : Host.Outcome State Fault Refusal :=
  if n < 64 then s.hostWrote (s.writeQueueWord n 0 v) else s.noEvent

/-- LAUNCH_QUEUE_DOORBELL (R225, R226): a write of TAIL. -/
def execLaunchQueueDoorbell (n : Nat) (v : Word64) (s : State) : Host.Outcome State Fault Refusal :=
  if n < 64 then s.hostWrote (s.writeQueueWord n 3 v) else s.noEvent

/-! ### Armed launches (R220, R224) -/

/-- Slots of an armed entry. -/
def State.armedSlots (s : State) (e : Nat) : Nat := bitsOf (s.word (0x2003 + 4 * e)).toNat 50 45 + 1

/-- NXT of an armed entry. -/
def State.armedNext (s : State) (e : Nat) : Nat := bitsOf (s.word (0x2003 + 4 * e)).toNat 56 51

/-- The state with NXT of an armed entry. -/
def State.setArmedNext (s : State) (e k : Nat) : State :=
  s.setWord (0x2003 + 4 * e) (BitVec.ofNat 64 (setBits (s.word (0x2003 + 4 * e)).toNat 56 51 k))

/-- Slots in use of an armed entry, oldest first. -/
def State.armedUse (s : State) (e : Nat) : List (Nat × Nat × Bool) := Tbl.get s.slots e []

/-- A write of an armed entry's word: EN needs NSM and SLOTU non-zero, and resets NXT. -/
def State.writeArmed (s : State) (e k : Nat) (v : Word64) : State :=
  let num := 0x2000 + 4 * e + k
  let old := s.word num
  match k with
  | 0 =>
    let w3 := (s.word (0x2003 + 4 * e)).toNat
    let ok := bitsOf w3 50 45 != 0 && bitsOf w3 13 0 != 0
    let w := mergeWord old v (bitRange 63 62 ||| bitRange 31 0) 0#64
    if old.getLsbD 63 || !v.getLsbD 63 then s.setWord num w
    else if !ok then s.setWord num (w &&& ~~~(bitRange 63 63))
    else (s.setWord num w).setArmedNext e 0
  | 1 => s.setWord num (mergeWord old v (bitRange 51 6) 0#64)
  | 2 => s.setWord num (mergeWord old v (bitRange 55 8) 0#64)
  | 3 => s.setWord num (mergeWord old v (bitRange 50 45 ||| bitRange 13 0) 0#64)
  | _ => s

/-- ARMED_ENTRY_ENABLE (R220): a write of word 0. -/
def execArmedEntryEnable (e : Nat) (v : Word64) (s : State) : Host.Outcome State Fault Refusal :=
  if e < 64 then s.hostWrote (s.writeArmed e 0 v) else s.noEvent

/-- What becomes of a message at its port. -/
inductive Landing where
  | dropped
  | waits
  | fired (s : State)

/-- Bytes of a message as they land: the header of R220, then the payload. -/
def slotBytes (m : InMessage) (handle : Word) : List Byte :=
  natLe 4 m.tag.toNat ++ natLe 4 m.payload.length ++ natLe 4 m.pkg.toNat ++ natLe 4 handle.toNat ++ m.payload

/-- The physical addresses of a landing through a job's page tables, by the receiving circuit's die, each with its line; none where a
byte faults or is refused. -/
def State.landing (s : State) (die asid va n : Nat) (secure : Bool) : Option (List (Nat × LineAt)) :=
  (List.range n).mapM (fun i =>
    match s.engineXlate die 31 asid (va + i) ⟨false, true, false⟩ secure with
    | .ok p => some (p.pa, ⟨p.pa / 128, p.kind, p.level, asid, va + i⟩)
    | _ => none)

/-- A message lands in the lowest enabled entry with its tag, which fires (R224). -/
def State.deliverMessage (s : State) (m : InMessage) : Landing :=
  match (List.range 64).find? (fun e =>
      let w := s.word (0x2000 + 4 * e); w.getLsbD 63 && w.extractLsb' 0 32 == m.tag) with
  | none => .dropped
  | some e =>
    let size := bitsOf (s.word (0x2003 + 4 * e)).toNat 13 0 * 256
    let pa := bitsOf (s.word (0x2001 + 4 * e)).toNat 51 6 * 64
    let nxt := s.armedNext e
    match parseLaunch (s.physRead pa 64) with
    | none => .dropped
    | some r =>
      match Tbl.look r.folio s.folios with
      | none => .dropped
      | some x =>
        match x.job.bind (fun j => (Tbl.look j s.jobs).map (fun y => (j, y))) with
        | none => .dropped
        | some (job, j) =>
          if size < m.payload.length + 16 || !x.live || r.dmask = 0#9 then .dropped
          else if s.armedSlots e ≤ (s.armedUse e).length || (s.armedUse e).any (fun u => u.1 == nxt) then .waits
          else
            let va := bitsOf (s.word (0x2002 + 4 * e)).toNat 55 8 * 256 + nxt * size
            let n := ((x.image.entries[r.entry]?).map FolioEntry.args).getD 0
            let args := ((natLe 8 (va + 16)) ++ (s.physRead (pa + 64) n).drop 8).take n
            let die := min 8 (bitsOf (s.word (0x3000 + m.circuit)).toNat 56 53)
            match s.landing die j.asid va (16 + m.payload.length) j.secure, askLaunch r x r.entry args with
            | none, _ => .dropped
            | _, .refused => .dropped
            | some pas, ask =>
              let entry := match ask with | .ok k => k | _ => r.entry
              match s.newLaunch r r.folio entry args j.asid j.secure j.rfolio job noParent r.dmask none with
              | none => .waits
              | some (i, s) =>
                let s := (distinctLines (pas.map Prod.snd)).foldl (fun s l => s.touchHome l) s
                let s := s.writeHome ((pas.map Prod.fst).zip (slotBytes m (s.handle i)))
                let s := s.updLaunch i (fun x => { x with slot := some (e, nxt) })
                -- a record under BKT whose lines all fail completes FAULTED (R223)
                let s := match ask with
                  | .noBucket =>
                    (s.updLaunch i (fun x => { x with next := x.teams })).updCompletion i (fun c => { c with count := 0, anyFault := true })
                  | _ => s
                let s : State := { s with slots := Tbl.put e (s.armedUse e ++ [(nxt, i, false)]) s.slots }
                let s := s.setArmedNext e ((nxt + 1) % s.armedSlots e)
                let w := s.word (0x2000 + 4 * e)
                .fired (if w.getLsbD 62 then s.setWord (0x2000 + 4 * e) (w &&& ~~~(bitRange 63 63)) else s)

/-- ARMDROP rises by one (R224). -/
def State.dropMessage (s : State) : State := s.setWord 0x2100 (s.word 0x2100 + 1)

/-- The messages that wait are tried again, in arrival order, those behind a waiting one of the same circuit with it. -/
def State.retryInbox (s : State) : List InMessage → List Nat → State
  | [], _ => s
  | m :: r, held =>
    if held.contains m.circuit then s.retryInbox r held
    else
      match s.deliverMessage m with
      | .waits => s.retryInbox r (m.circuit :: held)
      | .dropped => (({ s with inbox := dropFirst (· == m) s.inbox } : State).dropMessage).retryInbox r held
      | .fired t => ({ t with inbox := dropFirst (· == m) t.inbox } : State).retryInbox r held

/-- MESSAGE_ARRIVAL (R224): on an external circuit that is live. -/
def execMessageArrival (m : InMessage) (s : State) : Host.Outcome State Fault Refusal :=
  let x := circuitOf (s.word (0x3000 + m.circuit))
  if !x.ext || !x.act then s.noEvent
  else if s.inbox.any (fun y => y.circuit == m.circuit) then .next { s with inbox := s.inbox ++ [m] }
  else
    match s.deliverMessage m with
    | .waits => .next { s with inbox := s.inbox ++ [m] }
    | .dropped => .next s.dropMessage
    | .fired t => .next t

/-- A fired launch has completed: its slot is done, and the slots of the ring free in order (R224). -/
def State.freeSlot (s : State) (launch : Nat) : State :=
  match (Tbl.look launch s.launches).bind Launch.slot with
  | none => s
  | some (e, _) =>
    let l := mapIf (fun u => u.2.1 == launch) (fun (u : Nat × Nat × Bool) => (u.1, u.2.1, true)) (s.armedUse e)
    { s with slots := Tbl.put e (l.dropWhile (fun u => u.2.2)) s.slots }

/-! ### ENTRY_COMPLETE (R40, R41, R43) -/

/-- The final state of an entry whose COUNT is zero. -/
def Completion.final (e : Completion) : EntryState :=
  if e.anyFault then .faulted else if e.cxr || e.anyCancel then .cancelled else .done

/-- The CWAITs on an entry are released with its final state (R333): the code is written, and the return acquires and observes
the joins of reductions below the entry (R244). -/
def State.releaseWaiters (s : State) (handle : Word) (code : Nat) : State :=
  s.warps.foldl (fun s p =>
    p.2.entries.foldl (fun s e =>
      match e.wait with
      | .entry h d m =>
        if h = handle then
          let s := s.updWarp p.2.team p.2.index (fun w =>
            match d with
            | .uni k => w.setUniIn e.handler k.toNat code
            | .reg q st => w.writeIn s.fresh m st.toNat q.slices code
            | .imm _ => w)
          ((({ s with fresh := s.fresh + 1 } : State).complete ⟨p.2.team, p.2.index, e.id⟩ 8).acquire p.2.team
            (objectName 4 handle.toNat)).joinEngines p.2.team
        else s
      | _ => s) s) s

/-- What an entry's end does beyond its state, by level. -/
def State.entryEnd (s : State) (i : Nat) (e : Completion) (st : EntryState) : Started :=
  match e.level.toNat with
  | 0 =>
    let x := Tbl.look i s.launches
    let s := s.mapDies (fun d => d.unbind (fun b => b.launch == i))
    let s := s.freeSlot i
    match x.bind Launch.node with
    | some n => s.nodeEnd e.parent n st
    | none => .ok (s.memberEnd e.parent st)
  | 1 => .ok (s.memberEnd e.parent st)
  | 2 =>
    let j := Tbl.look e.parent s.jobs
    let job := s.completion e.parent
    match j with
    | some j =>
      if st == .done && j.phase + 1 < j.nph && !job.cxr then
        match s.startPhase e.parent (j.phase + 1) with
        | .faulted => .ok (s.memberEnd e.parent .faulted)
        | x => x
      else .ok (s.memberEnd e.parent st)
    | none => .ok s
  | _ =>
    match Tbl.look i s.jobs with
    | some j =>
      .ok ((s.place j.rec_ (natLe 8 (st.code + 8 + (handleOf i e).toNat * 2 ^ 32))).raiseMsix
        (bitsOf (s.word (0x1001 + 4 * j.queue)).toNat 26 16))
    | none => .ok s

/-- ENTRY_COMPLETE (R39 to R43): COUNT is zero. Where its end starts a phase or a node, it waits until the completion table has an
entry for each thing that starts (log 36). Messages that waited for an entry are tried again. -/
def execEntryComplete (idx : Nat) (s : State) : Host.Outcome State Fault Refusal :=
  let e := s.completion idx
  if e.state != .running || e.count != 0 then s.noEvent
  else
    let st := e.final
    let (now, t) := s.tick
    match (t.updCompletion idx (fun e => { e with state := st, left := now })).entryEnd idx e st with
    | .ok t =>
      let t := t.releaseWaiters (handleOf idx e) st.code
      .next (t.retryInbox t.inbox [])
    | _ => s.noEvent

/-- GRAPH_COPY_NODE_COMPLETE (R228): the copy's bytes have landed, or it has failed and the node ends FAULTED. It waits until the
completion table has an entry for each node that starts (log 36). -/
def execGraphCopyNodeComplete (idx node : Nat) (s : State) : Host.Outcome State Fault Refusal :=
  match s.xfers.find? (fun x => x.kind == .node idx node) with
  | none => s.noEvent
  | some x =>
    if !x.stopped && !x.slices.all XSlice.complete then s.noEvent
    else
      match (s.delXfer x.id).nodeEnd idx node (if x.stopped then .faulted else .done) with
      | .ok s => .next s
      | _ => s.noEvent

/-! ### LNCH, CNCL, CWAIT -/

/-- The checks of a folio handle (R206, R222, R274): CAPTAG, then ILLOPND for its object type or a folio that is not
loaded. -/
def State.handleFolio (s : State) (asid : Nat) (k : Cap) : Option (Nat × Folio) :=
  if k.otype != 1 then none else (s.folioAt asid k.base).filter (fun p => p.2.live)

/-- The entry that a launch issued by a launch belongs to (R222). -/
def State.enclosing (s : State) (launch : Nat) : Nat := (s.completion launch).parent

/-- Every access of a thread that precedes in program order is performed (R232, R353, R383). -/
def State.threadDone (s : State) (o : Origin) : Bool := s.writesDone o (fun _ => true) && s.readsDone o

/-- A LNCH that has read its record enters the completion table, or waits for room in it with what it has read (R222, R353). -/
def Ctx.launchNow (x : Ctx) (pd : Pos) (folio entry : Nat) (bytes : List Byte) (u : State) : Done :=
  match parseLaunch (bytes.take 64) with
  | none => .trap (mkTrap cILLOPND 0)
  | some r =>
    let parent := u.enclosing x.team.launch
    let dm := if r.dmask = 0#9 then 1#9 <<< x.team.die else r.dmask
    match u.newLaunch r folio entry (bytes.drop 64) x.launch.asid x.launch.secure x.launch.rfolio x.launch.job parent dm none with
    | none => .hold (.launch folio entry bytes)
    | some (idx, u) =>
      let u := if parent = noParent then u else u.countUp parent 1
      .next (u.updWarp x.ref.team x.ref.warp (fun _ =>
        x.commit x.on (some pd) 0 (fun _ => .ofVal (u.handle idx).toNat)))

/-- LNCH (R222, R223, R353). The record and arguments are read once, at issue, once every earlier access of the thread is performed. -/
def execLnch (g : Guard) (d c a rec : Opnd) (s : State) : Host.Outcome State Fault Refusal :=
  let pd := Pos.dst d d.reg32
  let pc := Pos.src 1 c c.isCap
  let pa := Pos.src 2 a a.src32
  let pr := Pos.src 3 rec rec.isCap
  s.issue 16 g [pd, pc, pa, pr] (fun x u =>
    match x.entry.wait with
    | .launch folio entry bytes => x.launchNow pd folio entry bytes u
    | _ =>
      let i := x.low
      let h := x.cap i pc
      let r := x.cap i pr
      let bad (p : Nat) : Done := .trap (mkTrap cILLOPND (if p = 4 then 0 else opInfo i p))
      let entry := x.u32 i pa
      if !x.capTag i pc then .trap (mkTrap cCAPTAG (capInfo h i 2))
      else
        match u.handleFolio x.launch.asid h with
        | none => bad 1
        | some (num, f) =>
          if f.image.entries.length ≤ entry then bad 2
          else
            let n := ((f.image.entries[entry]?).map FolioEntry.args).getD 0
            let req (va : Int) (size : Nat) : AccReq := ⟨i, r, x.capTag i pr, va, size, none, false, pLD, ⟨true, false, false⟩⟩
            let part (k : Nat) : AccReq := req ((r.base + 64 + 4096 * k : Nat) : Int) (min 4096 (n - 4096 * k))
            let pages : List AccReq := req (r.base : Nat) 64 :: (List.range ((n + 4095) / 4096)).map part
            (u.access x pages).then_ x u (fun accs =>
              let pas := accs.flatMap Acc.pas
              if f.secure != x.launch.secure then .trap (mkTrap cWORLD 0)
              else if !u.threadDone ⟨x.ref.team, x.ref.warp, i⟩ || !u.reaches x.team.die pas then .hold .busy
              else
                let bytes := pas.map u.physByte
                match parseLaunch (bytes.take 64) with
                | none => bad 4
                | some lr =>
                  match askLaunch lr f entry (bytes.drop 64) with
                  | .ok e =>
                    if lr.folio != 0 || lr.entry != 0 then bad 4
                    else x.launchNow pd num e bytes ((distinctLines (accs.flatMap Acc.lines)).foldl (fun u l => u.touchHome l) u)
                  | _ => bad 4))

/-- The entry that a handle names, where it belongs to another job (R330, R333). -/
def State.foreign (s : State) (job : Nat) (h : Word) : Bool :=
  match s.ofHandle h with
  | some i => s.jobOf i != some job
  | none => false

/-- CNCL (R42, R330). -/
def execCncl (g : Guard) (a : Opnd) (s : State) : Host.Outcome State Fault Refusal :=
  let pa := Pos.src 1 a a.reg32
  s.issue 8 g [pa] (fun c u =>
    let h := BitVec.ofNat 32 (c.u32 c.low pa)
    if u.foreign c.launch.job h then .trap (mkTrap cILLOPND (opInfo c.low 1))
    else
      let u := u.complete c.ref 8
      .moved (match u.ofHandle h with
        | some i => u.cancelEntry i
        | none => u))

/-- CWAIT (R39, R333): blocked while the entry runs; a stale handle completes with 2, a finished entry with its state. -/
def execCwait (g : Guard) (d a : Opnd) (s : State) : Host.Outcome State Fault Refusal :=
  let pd := Pos.dst d d.reg32
  let pa := Pos.src 1 a a.reg32
  s.issue 8 g [pd, pa] (fun c u =>
    let h := BitVec.ofNat 32 (c.u32 c.low pa)
    let write (code : Nat) : Done :=
      .next (((u.updWarp c.ref.team c.ref.warp (fun _ => c.commit c.on (some pd) 0 (fun _ => .ofVal code))).acquire c.ref.team
        (objectName 4 h.toNat)).joinEngines c.ref.team)
    if u.foreign c.launch.job h then .trap (mkTrap cILLOPND (opInfo c.low 1))
    else
      match u.ofHandle h with
      | none => write 2
      | some i =>
        let e := u.completion i
        if e.state == .running then .block (u.block c.ref (.entry h d (maskOf c.on))) else write e.state.code)

end Sys2Proof.Machine
end

