-- ==== Sys2Proof/Machine/Matrix.lean ====
section
/-! DEFINITION. The matrix engine's instructions at issue: shapes, checks, gathering, MMA, MSPA, MLOOP, MZRO, MLDB, MLDS,
MDRN, TOKP, TOKW (spec/07 R126 to R148, spec/08 R156, R159, spec/06 R119 to R123). -/

namespace Sys2Proof

open Machine

/-! ### Shapes and tags (R122, R123, R127) -/

/-- Elements of A that a thread's unit holds (R127). -/
def Ty.perUnit : Ty → Nat
  | .e4m3 | .e5m2 | .d8 | .i8 => 2
  | .i4 => 4
  | _ => 1

/-- Bits of a thread's unit of A (R127). -/
def Ty.unitBits : Ty → Nat
  | .f32 => 32
  | .f64 => 64
  | _ => 16

/-- Threads that supply A (R127). -/
def suppliers (half : Bool) : Nat := if half then 16 else 32

/-- Products that are summed exactly before one rounding, or share a scale (R136). -/
def Ty.groupSize : Ty → Nat
  | .bf16 | .f16 => 16
  | _ => 32

/-- The B-store tag of a type (R122). -/
def Ty.bTag : Ty → BitVec 4
  | .bf16 => 1#4 | .f16 => 2#4 | .e4m3 => 3#4 | .e5m2 => 4#4 | .d8 => 5#4 | .i8 => 6#4 | .i4 => 7#4 | .f32 => 8#4 | .f64 => 9#4
  | _ => 0#4

/-- The accumulator tag that a type needs (R123). -/
def Ty.accTag (t : Ty) (scl : Bool) : BitVec 4 :=
  match t with
  | .f64 => 0xB#4
  | .i8 | .i4 => if scl then 0xA#4 else 0xC#4
  | _ => 0xA#4

/-- The scale tag that a type needs (R123). -/
def Ty.scaleTag : Ty → BitVec 4
  | .d8 => 0xE#4
  | _ => 0xD#4

/-- Stored elements of a group, elements of a group, bits of a position (R139). -/
def SparsePat.shape : SparsePat → Nat × Nat × Nat
  | .s24 => (2, 4, 2) | .s14 => (1, 4, 2) | .s48 => (4, 8, 3) | .s28 => (2, 8, 3)

/-- The width of a thread's metadata register: the smallest that holds its positions (R139). -/
def SparsePat.metaBits (p : SparsePat) (t : Ty) : Nat :=
  let n := t.perUnit * p.shape.2.2
  if n ≤ 4 then 4 else if n ≤ 8 then 8 else 16

end Sys2Proof

namespace Sys2Proof.Machine

/-- Rows of the bands of a mask (R126, R129). -/
def bandRows (bm : BitVec 8) : List Nat := (List.range 64).filter (fun i => bm.getLsbD (i / 8))

/-! ### Gathering (R129) -/

/-- A matrix instruction needs the token (R135, R144); `always` for the collectives, which join whatever the guard. -/
def State.matrix (s : State) (always : Bool) (len : Nat) (g : Guard) (ps : List Pos) (body : Ctx → State → Done) :
    Host.Outcome State Fault Refusal :=
  s.issueWith always len g ps (fun c u =>
    if !tokenAllows (u.core c.team.die c.team.core).token c.ref.team c.warp.role then .trap (mkTrap cTOKEN 0)
    else body c u)

/-- Instances that gather several issues (R129). -/
def Instance.collective (i : Instance) : Bool :=
  match i.op with
  | .mma _ u _ _ _ => !u.asrc
  | .mdrn .reg _ _ _ _ => true
  | _ => false

/-- The instance that a collective issue joins; one that has gathered all its issues is joined no more (log 31). -/
def State.gathering (s : State) (c : Ctx) (tile : Nat) (ver : BitVec 16) : Option Instance :=
  (s.core c.team.die c.team.core).insts.find? (fun i =>
    i.team == c.ref.team && i.tile == tile && i.ver == ver && i.collective && i.input.isNone && !i.full)

/-- The issue does not fit an instance of its tile and version: other fields, or a lane that has joined it (R129). That kS is compared
by its value, and the registers of A and metadata, the lookahead and the guard are not compared, is the model's choice (log 31). -/
def State.misfit (s : State) (c : Ctx) (tile : Nat) (ver : BitVec 16) (op : MatOp) : Bool :=
  (s.core c.team.die c.team.core).insts.any (fun i =>
    i.team == c.ref.team && i.tile == tile && i.ver == ver && i.collective
      && (i.op != op || i.parts.any (fun p => p.lane == c.warp.lane)))

/-- An issue joins its instance, or forms one; the answer has the instance's name. -/
def State.joinInstance (s : State) (c : Ctx) (tile : Nat) (ver : BitVec 16) (op : MatOp) (np : Nat) (point : Option Nat)
    (one : Bool) (p : Participant) : Nat × State :=
  let d := c.team.die
  let k := c.team.core
  match (if one then none else s.gathering c tile ver) with
  | some i =>
    (i.id, (s.updCore d k (fun x => { x with
      insts := mapIf (fun y => y.id == i.id) (fun y => { y with parts := y.parts ++ [p] }) x.insts })).refreshStart d k)
  | none =>
    let (id, s) := s.takeId
    let i : Instance := ⟨id, c.ref.team, tile, ver, op, np, [p], c.entry.pc, point, none⟩
    (id, (s.updCore d k (fun x => { x with insts := x.insts ++ [i] })).refreshStart d k)

/-- The issuing warp as a participant that supplies and receives nothing. -/
def Ctx.part (c : Ctx) : Participant := ⟨c.warp.lane, c.ref.warp, [], [], maskOf c.on, []⟩

/-- ILLOPND for a field. -/
def illField : Done := .trap (mkTrap cILLOPND 0)

/-- ILLOPND for an operand's value. -/
def Ctx.illAt (c : Ctx) (pos : Nat) : Done := .trap (mkTrap cILLOPND (opInfo c.low pos))

/-! ### What a multiply uses (R131, R132, R135) -/

/-- The ranges of one issue: type, K, bytes of a row of A in local store, places and strides in bytes, the steps. -/
structure MatUse where
  t : Ty
  scl : Bool
  k : Nat
  rowBytes : Nat
  rows : List Nat
  a0 : Nat
  astr : Nat
  ainc : Nat
  boff : Nat
  binc : Nat
  n : Nat
  sa : Nat
  sb : Nat

namespace MatUse

/-- Bytes of B. -/
def bBytes (m : MatUse) : Nat := m.k * (2 * m.t.ebits)

/-- Scale groups of a row or column (R132). -/
def groups (m : MatUse) : Nat := m.k / 32

/-- Every byte of A lies in the team's local store (R131). -/
def aOk (m : MatUse) (lstore : Nat) : Bool :=
  m.rows.all (fun r => m.a0 + (m.n - 1) * m.ainc + r * m.astr + m.rowBytes ≤ lstore)

/-- Every byte of B lies in the team's region (R132). -/
def bOk (m : MatUse) (bsize : Nat) : Bool := m.boff + (m.n - 1) * m.binc + m.bBytes ≤ bsize

/-- Every scale entry lies in the team's region (R132, R140). -/
def sOk (m : MatUse) (sents : Nat) : Bool :=
  !m.scl || (m.rows.all (fun r => m.sa + (m.n - 1) * 64 * m.groups + (r + 1) * m.groups ≤ sents)
    && m.sb + (m.n - 1) * 16 * m.groups + 16 * m.groups ≤ sents)

/-- Entries that one step's scales use. -/
def entries (m : MatUse) (step : Nat) : List Nat :=
  (m.rows.flatMap (fun r => (List.range m.groups).map (fun g => m.sa + step * 64 * m.groups + r * m.groups + g)))
    ++ (List.range (16 * m.groups)).map (fun x => m.sb + step * 16 * m.groups + x)

/-- Every tag that the issue will use matches (R123, R135). -/
def tagsOk (m : MatUse) (t : Team) (x : Tile) : Bool :=
  x.tag == m.t.accTag m.scl
    && (List.range m.n).all (fun s =>
        let lo := m.boff + s * m.binc
        (List.range ((lo + m.bBytes - 1) / 4096 + 1 - lo / 4096)).all (fun b => Tbl.get t.btags (lo / 4096 + b) 0#4 == m.t.bTag)
          && (!m.scl || (m.entries s).all (fun e => Tbl.get t.stags (e / 64) 0#4 == m.t.scaleTag)))

end MatUse

/-- The accumulator tag that MZRO sets (R141). -/
def mzroTag (t : Ty) : BitVec 4 := if t = .f64 then 0xB#4 else if t = .i32 then 0xC#4 else 0xA#4

/-- The tile that an issue names, as it is at the issue (R135). -/
def State.tileAt (s : State) (c : Ctx) (n : Nat) : Option Tile := ((s.team? c.ref.team).getD c.team).tiles[n]?

/-! ### MMA and MSPA (R130, R134, R139) -/

/-- K of an instance: elements along K, those of a sparse A counted where they stand (R127, R139). -/
def denseK (t : Ty) (half : Bool) (pat : Option SparsePat) : Nat :=
  let k := t.perUnit * suppliers half
  match pat with
  | some p => k / p.shape.1 * p.shape.2.1
  | none => k

/-- Bytes of a row's metadata in local store: whole 16-byte units (R139). -/
def metaBytes (t : Ty) (half : Bool) (p : SparsePat) : Nat := (t.perUnit * suppliers half * p.shape.2.2 + 127) / 128 * 16

/-- Bytes of a row of A in local store (R131, R139). -/
def rowBytes (t : Ty) (half : Bool) (pat : Option SparsePat) : Nat :=
  t.perUnit * suppliers half * t.ebits / 8 + (match pat with | some p => metaBytes t half p | none => 0)

/-- The positions that a thread's metadata names, in order. -/
def positions (t : Ty) (p : SparsePat) (m : Nat) : List Nat :=
  (List.range t.perUnit).map (fun i => m / 2 ^ (p.shape.2.2 * i) % 2 ^ p.shape.2.2)

/-- The first thread whose metadata is refused: a bit above its positions, or positions of a group that do not strictly
increase (R139); `l` lists the supplying threads with their metadata, rising. -/
def badMeta (t : Ty) (p : SparsePat) (l : List (Nat × Nat)) : Option Nat :=
  let all : List (Nat × Nat × Nat) := l.flatMap (fun x =>
    ((positions t p x.2).zipIdx).map (fun q => (x.1, (t.perUnit * x.1 + q.2) / p.shape.1, q.1)))
  let falls := ((all.zip all.tail).filter (fun q => q.1.2.1 == q.2.2.1 && q.2.2.2 ≤ q.1.2.2)).map (fun q => q.2.1)
  (l.find? (fun x => 2 ^ (t.perUnit * p.shape.2.2) ≤ x.2 || falls.contains x.1)).map Prod.fst

/-- A-from-registers instances that a lane's staging buffer holds (R130). -/
def State.stagedOn (s : State) (d c lane : Nat) : Nat :=
  ((s.core d c).insts.filter (fun i => i.input.isNone
    && i.parts.any (fun p => p.lane == lane) && (match i.op with | .mma _ u _ _ _ => !u.asrc | _ => false))).length

/-- MMA and MSPA: the checks of R135, then the issue joins its instance. -/
def State.multiply (s : State) (g : Guard) (t : Ty) (pat : Option (SparsePat × Opnd)) (a : Opnd) (ks : Option (BitVec 7))
    (u : MmaUp) : Host.Outcome State Fault Refusal :=
  let n := suppliers u.half
  let pa := Pos.src 1 a (match a with
    | .reg w _ => !u.asrc && w.bits == t.unitBits
    | .uni _ => u.asrc
    | .imm _ => false)
  -- under .half the threads from 16 on read nothing
  let pa := pa.inHalf (!u.asrc && u.half)
  let pm := if u.asrc then none else pat.map (fun p => (Pos.src 0 p.2 (p.2.bits == p.1.metaBits t)).inHalf u.half)
  let pk := ks.map (fun k => Pos.src 2 (.uni k) true)
  s.matrix (!u.asrc) 16 g (pm.toList ++ [pa] ++ pk.toList) (fun c v =>
    let sup := c.on.filter (· < n)
    let ksv := match pk with | some p => c.u32 c.low p | none => 0
    let a0 := if u.asrc then c.u32 c.low pa else 0
    let sp := pat.map Prod.fst
    let use : MatUse :=
      ⟨t, u.scl, denseK t u.half sp, rowBytes t u.half sp, if u.asrc then bandRows u.bm else [c.warp.lane], a0, u.astr.toNat * 16, 0,
        u.boff.toNat * 32, 0, 1, bitsOf ksv 15 0, bitsOf ksv 31 16⟩
    let op := MatOp.mma t u sp a0 (BitVec.ofNat 32 ksv)
    let metas := pm.map (fun p => sup.map (fun i => (i, c.raw i p)))
    match v.tileAt c u.tile.toNat with
    | none => illField
    | some x =>
      if u.bm = 0#8 || !use.bOk c.team.bsize then illField
      else if u.asrc && a0 % 16 != 0 then c.illAt 1
      else if !u.asrc && (c.entry.mask != c.warp.liveMask || c.warp.count < n || !u.bm.getLsbD (c.warp.lane / 8)) then illField
      else if !use.sOk c.team.sents then c.illAt 2
      else
        match (pat.bind (fun p => metas.bind (badMeta t p.1))) with
        | some i => .trap (mkTrap cILLOPND (opInfo i 0))
        | none =>
          if !u.asrc && v.misfit c u.tile.toNat u.ver op then illField
          else if u.asrc && !use.aOk c.team.lstore then .trap (mkTrap cLSBOUND 0)
          else if !use.tagsOk c.team x then .trap (mkTrap cFMTTAG 0)
          else if !u.asrc && 2 ≤ v.stagedOn c.team.die c.team.core c.warp.lane then .hold .busy
          else
            let from_ (p : Pos) : List Nat := (List.range n).map (fun i => if sup.contains i then c.raw i p else 0)
            let part : Participant :=
              if u.asrc then c.part
              else { c.part with units := from_ pa, metas := match pm with | some p => from_ p | none => [] }
            .next (v.joinInstance c u.tile.toNat u.ver op (u.npm.toNat + 1) none u.asrc part).2)

/-- MMA (R129 to R136). Its lookahead checks nothing. -/
def execMma (g : Guard) (la : BitVec 4) (t : Ty) (a : Opnd) (ks : Option (BitVec 7)) (u : MmaUp) (s : State) :
    Host.Outcome State Fault Refusal :=
  let _ := la
  s.multiply g t none a ks u

/-- MSPA (R139). Pattern 2:8 takes STEPPING off its stepping, before the register checks (R79, R92). -/
def execMspa (g : Guard) (la : BitVec 4) (t : Ty) (pat : SparsePat) (m a : Opnd) (ks : Option (BitVec 7)) (u : MmaUp) (s : State) :
    Host.Outcome State Fault Refusal :=
  let _ := la
  if pat = .s28 && !Config.stepIsB1 then
    s.issueWith true 16 Guard.always [] (fun c _ => .trap (mkTrap cSTEPPING c.entry.pc.toNat))
  else s.multiply g t (some (pat, m)) a ks u

/-- MLOOP (R134, R140). Its lookahead checks nothing. -/
def execMloop (g : Guard) (la : BitVec 4) (t : Ty) (n a : Opnd) (ks : Option (BitVec 7)) (u : MloopUp) (s : State) :
    Host.Outcome State Fault Refusal :=
  let _ := la
  let pn := Pos.src 0 n true
  let pa := Pos.src 1 a true
  let pk := ks.map (fun k => Pos.src 2 (.uni k) true)
  s.matrix false 16 g ([pn, pa] ++ pk.toList) (fun c v =>
    let w := c.u32 c.low pn
    let ksv := match pk with | some p => c.u32 c.low p | none => 0
    let a0 := c.u32 c.low pa
    let use : MatUse :=
      ⟨t, u.scl, denseK t u.half none, rowBytes t u.half none, bandRows u.bm, a0, u.astr.toNat * 16, bitsOf w 31 16 * 16,
        u.boff.toNat * 32, u.binc.toNat * 64, bitsOf w 15 0, bitsOf ksv 15 0, bitsOf ksv 31 16⟩
    match v.tileAt c u.tile.toNat with
    | none => illField
    | some x =>
      if use.n = 0 then c.illAt 0
      else if u.bm = 0#8 || !use.bOk c.team.bsize then illField
      else if a0 % 16 != 0 then c.illAt 1
      else if !use.sOk c.team.sents then c.illAt 2
      else if !use.aOk c.team.lstore then .trap (mkTrap cLSBOUND 0)
      else if !use.tagsOk c.team x then .trap (mkTrap cFMTTAG 0)
      else
        .next (v.joinInstance c u.tile.toNat u.ver (.mloop t u use.n (bitsOf w 31 16) a0 (BitVec.ofNat 32 ksv)) 1 none true c.part).2)

/-! ### MZRO (R141) -/

/-- MZRO: an instance of one issue. Its lookahead checks nothing. -/
def execMzro (g : Guard) (la : BitVec 4) (t : Ty) (tile v : Opnd) (s : State) : Host.Outcome State Fault Refusal :=
  let _ := la
  let pt := Pos.src 1 tile tile.isUniImm
  let pv := Pos.src 2 v v.isUniImm
  s.matrix false 8 g [pt, pv] (fun c u =>
    let n := c.u32 c.low pt
    if c.team.tiles.length ≤ n then c.illAt 1
    else if (match v with | .imm x => decide (x.toInt < 0) | _ => false) then c.illAt 2
    else .next (u.joinInstance c n (BitVec.ofNat 16 (c.u32 c.low pv)) (.mzro t) 1 none true c.part).2)

/-! ### MLDB and MLDS (R120, R121, R142, R143) -/

/-- The source of a load of matrix state: memory under a capability, or local store, for n bytes in all. -/
def State.matSource (s : State) (c : Ctx) (sk : Bool) (pf : Pos) (po : Option Pos) (n : Nat) : Except Trap XEnd :=
  if sk then
    match s.lsTarget c (c.u32 c.low pf) n with
    | some (tm, o) => .ok (.loc tm o)
    | none => .error (mkTrap cLSBOUND 0)
  else
    let k := c.cap c.low pf
    let va : Int := k.base + (match po with | some p => c.signed c.low p | none => 0)
    match (⟨c.low, k, c.capTag c.low pf, va, n, none, false, pLD, ⟨true, false, false⟩⟩ : AccReq).check with
    | some t => .error t
    | none => .ok (.mem va.toNat)

/-- A transfer of matrix state started by the issuing warp. -/
def State.startMatLoad (s : State) (c : Ctx) (kind : XferKind) (point : Nat) (src dst : XEnd) (len : Nat) : State :=
  let (id, s) := s.takeId
  { s with xfers := s.xfers ++ [⟨id, kind, some c.ref.team, [c.ref.warp], c.team.launch, c.team.die, c.team.core, c.launch.asid,
      c.launch.secure, if point = 31 then none else some (c.ref.team, point), none, none, [⟨c.ref.warp, src, dst, len, id, [], []⟩], false⟩] }

/-- The tags of n units from the one that holds a place. -/
def putTags (tags : Tbl (BitVec 4)) (size lo len : Nat) (v : BitVec 4) : Tbl (BitVec 4) :=
  (List.range ((lo + len - 1) / size + 1 - lo / size)).foldl (fun t i => Tbl.put (lo / size + i) v t) tags

/-- MLDB (R142): tags at issue, then a copy into the B store. Its lookahead checks nothing. -/
def execMldb (g : Guard) (la : BitVec 4) (t : Ty) (sk : Bool) (frm : Opnd) (o : Option Opnd) (boff lenu : BitVec 16)
    (pt : BitVec 5) (s : State) : Host.Outcome State Fault Refusal :=
  let _ := la
  let pf := Pos.src 1 frm true
  let po := o.map (fun x => Pos.src 2 x x.src3264)
  let len := lenu.toNat * 32
  let off := boff.toNat * 32
  s.matrix false 16 g (pf :: po.toList) (fun c u =>
    if len = 0 || u.pointBad c.ref.team pt.toNat || c.team.bsize < off + len then illField
    else
      match u.matSource c sk pf po len with
      | .error x => .trap x
      | .ok src =>
        let u := u.updTeam c.ref.team (fun y => { y with btags := putTags y.btags 4096 off len t.bTag })
        .next (u.startMatLoad c .mldb pt.toNat src (.bst c.ref.team off) len))

/-- A layout record that MLDS refuses (R120). -/
def layoutBad (v : Nat) : Bool :=
  bitsOf v 7 4 != 5 || (bitsOf v 3 0 != 1 && bitsOf v 3 0 != 2) || bitsOf v 63 48 == 0 || bitsOf v 47 32 == 0
    || 65536 < bitsOf v 63 48 * bitsOf v 47 32 || bitsOf v 31 8 != 0

/-- MLDS (R120, R121, R143): tags at issue, then a strided copy into scale memory. Its lookahead checks nothing. -/
def execMlds (g : Guard) (la : BitVec 4) (sk : Bool) (rec frm : Opnd) (o : Option Opnd) (base : BitVec 16) (pt : BitVec 5)
    (s : State) : Host.Outcome State Fault Refusal :=
  let _ := la
  let pr := Pos.src 0 rec true
  let pf := Pos.src 1 frm true
  let po := o.map (fun x => Pos.src 2 x x.src3264)
  s.matrix false 16 g ([pr, pf] ++ po.toList) (fun c u =>
    let v := c.raw c.low pr
    let rows := bitsOf v 63 48
    let kblk := bitsOf v 47 32
    let span := (rows - 1) * bitsOf v 127 96 + (kblk - 1) * bitsOf v 95 64 + 1
    let tag : BitVec 4 := if bitsOf v 3 0 = 1 then 0xD#4 else 0xE#4
    if layoutBad v then c.illAt 0
    else if base.toNat % 64 != 0 || c.team.sents < base.toNat + rows * kblk || u.pointBad c.ref.team pt.toNat then illField
    else
      match u.matSource c sk pf po span with
      | .error x => .trap x
      | .ok src =>
        let u := u.updTeam c.ref.team (fun y => { y with stags := putTags y.stags 64 base.toNat (rows * kblk) tag })
        .next (u.startMatLoad c .mlds pt.toNat src (.scl c.ref.team base.toNat (BitVec.ofNat 128 v)) (rows * kblk)))

/-! ### MDRN (R146, R147, R156, R159) -/

/-- The type of the elements that a drain delivers: the tile's format, or verdict words. -/
def drainTy (tag : BitVec 4) (vd : Bool) : Ty :=
  if vd then .n32 else if tag = 0xB#4 then .f64 else if tag = 0xC#4 then .i32 else .f32

/-- A VDSET on a tile that has not started. -/
def State.vdsetWaits (s : State) (c : Ctx) (tile : Nat) : Bool :=
  (s.core c.team.die c.team.core).insts.any (fun i =>
    i.team == c.ref.team && i.tile == tile && (match i.op with | .vdset _ _ _ _ => true | _ => false))

/-- Drains of verdicts of a tile that have not run, one that gathers this issue aside: each will raise the index base by 16 (R159). -/
def State.drainsAhead (s : State) (c : Ctx) (tile : Nat) (ver : BitVec 16) : Nat :=
  ((s.core c.team.die c.team.core).insts.filter (fun i =>
    i.team == c.ref.team && i.tile == tile && i.input.isNone && i.ver != ver
      && (match i.op with | .mdrn _ _ vd _ _ => vd | _ => false))).length

/-- A drain that its mode and the declaration at its run refuse (R156, R159). -/
def State.drainBad (s : State) (c : Ctx) (tile : Nat) (ver : BitVec 16) (x : Tile) (vd add : Bool) : Bool :=
  let waits := s.vdsetWaits c tile
  let dec := waits || x.decl.isSome
  (vd && (add || !dec)) || (add && dec)
    || (vd && !waits && (match x.decl with | some v => v.op == .topk && 0xFFFFFFFE < v.ib + 16 * s.drainsAhead c tile ver + 15 | none => false))

/-- The place that a drain stores to, after LSBOUND and the capability checks of every row. -/
def State.drainTarget (s : State) (c : Ctx) (op : DrainOp) (u : MdrnUp) (pt : Pos) (po : Option Pos) (rb : Nat) : Except Trap XEnd :=
  let rows := bandRows u.bm
  let stride := u.rstr.toNat * 16
  if u.tgt then
    match s.lsTarget c (c.u32 c.low pt) 0 with
    | some (tm, o) =>
      if rows.all (fun i => o + i * stride + rb ≤ ((s.team? tm).map Team.lstore).getD 0) then .ok (.loc tm o)
      else .error (mkTrap cLSBOUND 0)
    | none => .error (mkTrap cLSBOUND 0)
  else
    let k := c.cap c.low pt
    let va : Int := k.base + (match po with | some p => c.signed c.low p | none => 0)
    let perm := if op = .add then pLD + pST else pST
    match rows.findSome? (fun i =>
      (⟨c.low, k, c.capTag c.low pt, va + ((i * stride : Nat) : Int), rb, none, false, perm, ⟨false, true, false⟩⟩ : AccReq).check) with
    | some t => .error t
    | none => .ok (.mem va.toNat)

/-- MDRN: the checks of R135, then the issue joins or forms its instance; `.reg` destinations are pending until the drain
runs, with a window of la instructions (R146). -/
def execMdrn (g : Guard) (la : BitVec 4) (op : DrainOp) (vd : Bool) (d dest o : Option Opnd) (u : MdrnUp) (s : State) :
    Host.Outcome State Fault Refusal :=
  let reg := op == .reg
  let pd := d.map (fun x => (Pos.dst x (x.bits == 32 || x.bits == 64)).inHalf true)
  let pt := dest.map (fun x => Pos.src 1 x true)
  let po := o.map (fun x => Pos.src 2 x x.src3264)
  s.matrix reg 16 g (pd.toList ++ pt.toList ++ po.toList) (fun c v =>
    match v.tileAt c u.tile.toNat with
    | none => illField
    | some x =>
      let t := drainTy x.tag vd
      let rb := 16 * (t.bits / 8)
      let mop := MatOp.mdrn op t vd u (.data [])
      if u.bm = 0#8 then illField
      else if v.drainBad c u.tile.toNat u.ver x vd (op == .add) then illField
      else
        match pd, pt with
        | some p, _ =>
          if p.o.bits != t.bits then c.illAt 0
          else if !u.bm.getLsbD (c.warp.lane / 8) || v.misfit c u.tile.toNat u.ver mop then illField
          else if x.tag != 0xA#4 && x.tag != 0xB#4 && x.tag != 0xC#4 then .trap (mkTrap cFMTTAG 0)
          else
            let get := c.on.filter (· < 16)
            let start (i : Nat) : Nat := p.start (c.th i)
            let part : Participant :=
              { c.part with starts := (List.range 16).map (fun i => if get.contains i then start i else 0) }
            let (id, v) := v.joinInstance c u.tile.toNat u.ver mop (u.npm.toNat + 1) none false part
            .next (v.updWarp c.ref.team c.ref.warp (fun w => get.foldl (fun w i =>
              w.updThread i (fun th => th.pend id c.entry.pc.toNat la.toNat (start i) p.slices)) w))
        | none, some p =>
          if v.pointBad c.ref.team u.pt.toNat || u.rstr.toNat * 16 < rb then illField
          else
            match v.drainTarget c op u p po rb with
            | .error e =>
              if e.cause = BitVec.ofNat 8 cLSBOUND then .trap e
              else if x.tag != 0xA#4 && x.tag != 0xB#4 && x.tag != 0xC#4 then .trap (mkTrap cFMTTAG 0) else .trap e
            | .ok dst =>
              if x.tag != 0xA#4 && x.tag != 0xB#4 && x.tag != 0xC#4 then .trap (mkTrap cFMTTAG 0)
              else
                let point := if u.pt = 31#5 then none else some u.pt.toNat
                let (_, v) := v.joinInstance c u.tile.toNat u.ver (.mdrn op t vd u dst) 1 point true c.part
                let adds := op == .add && (match dst with | .mem _ => true | _ => false)
                .next (if adds then v.countUp c.team.launch 1 else v)
        | none, none => illField)

/-! ### The pilot token (R144, R145, R384) -/

/-- TOKP (R145). -/
def execTokp (g : Guard) (a : Opnd) (s : State) : Host.Outcome State Fault Refusal :=
  let pa := Pos.src 1 a a.isUniImm
  s.matrix false 8 g [pa] (fun c u =>
    let v := c.u32 c.low pa
    let d := c.team.die
    let k := c.team.core
    match bitsOf v 31 30 with
    | 0 =>
      match u.teams.find? (fun p => p.2.launch == c.team.launch && p.2.num == bitsOf v 23 0 && p.2.state.holds
          && p.2.die == d && p.2.core == k) with
      | some p => .next (u.setToken d k (some ⟨p.1, none⟩))
      | none => c.illAt 1
    | 1 => .next (u.setToken d k (some ⟨c.ref.team, some (bitsOf v 3 0)⟩))
    | 2 => .next (u.setToken d k none)
    | _ => c.illAt 1)

/-- TOKW (R144, R145): the leaf waits until its warp may issue; at once where it already may, or the token is free. -/
def execTokw (g : Guard) (s : State) : Host.Outcome State Fault Refusal :=
  s.issue 8 g [] (fun c u =>
    let d := c.team.die
    let k := c.team.core
    if tokenAllows (u.core d k).token c.ref.team c.warp.role then .next u
    else
      let u := (u.block c.ref .token).updCore d k (fun x => { x with tokens := x.tokens ++ [c.ref] })
      .block (u.tokenSettle d k))

end Sys2Proof.Machine
end

