-- ==== Sys2Proof/Machine/Verdict.lean ====
section
/-! DEFINITION. Verdict-class accumulation: the bound monitor, verdict words, the top-k set, and VDSET, VTHR, TOPK at issue
(spec/08 R150 to R160). -/

namespace Sys2Proof

open Machine

/-- A completed value passes (R151); a NaN fails every predicate. -/
def VerdictOp.passes (op : VerdictOp) (v t : FVal) : Bool :=
  match op with
  | .sign => !v.isNan && 0 < v.cmp (.fin false 0 1)
  | .ge => !v.isNan && 0 ≤ v.cmp t
  | .le => !v.isNan && v.cmp t ≤ 0
  | .gt => !v.isNan && 0 < v.cmp t
  | .topk => false

end Sys2Proof

namespace Sys2Proof.Machine

/-! ### The declaration (R150, R151, R158) -/

/-- FP32 −∞ (R158). -/
def negInf : Word := 0xFF800000#32

/-- The value of an FP32 word. -/
def f32Val (w : Word) : FVal := Fmt.f32.val w.toNat

/-- The software threshold of a row (R151, R157). -/
def Verdict.tsOf (v : Verdict) (row : Nat) : Word := Tbl.get v.ts row v.thr

/-- The running threshold of a row (R158). -/
def Verdict.runOf (v : Verdict) (row : Nat) : Word := Tbl.get v.run row negInf

/-- The threshold snapshot of a row at a block's start (R154). -/
def Verdict.snapshot (v : Verdict) (row : Nat) : Word :=
  if v.op = .topk then
    if (f32Val (v.tsOf row)).cmp (f32Val (v.runOf row)) < 0 then v.runOf row else v.tsOf row
  else v.thr

/-! ### The bound monitor (R154, R155) -/

/-- |p − t| > s + 2^-20 (s + |p|) + 2^-126, exactly, for finite p and t and s ≥ 0; t is given by its sign when infinite. -/
def beyond (p s : Int × Nat) (t : FVal) : Bool :=
  match t with
  | .fin _ _ _ =>
    let q := t.frac
    -- over the common denominator p.2 * s.2 * q.2
    let diff := (p.1 * q.2 - q.1 * p.2).natAbs * s.2
    let sn := s.1.natAbs * p.2 * q.2
    let pn := p.1.natAbs * s.2 * q.2
    let den := p.2 * s.2 * q.2
    2 ^ 126 * (2 ^ 20 * sn + (sn + pn)) + 2 ^ 20 * den < 2 ^ 126 * 2 ^ 20 * diff
  | _ => true

/-- The element that the monitor leaves for value p after block b, under a bound and a snapshot: an abandoned value where it
decides (R154). -/
def monitor (op : VerdictOp) (b : Nat) (bound snap : Word) (p : Word) : Word :=
  match f32Val p, f32Val bound with
  | .fin sp np dp, .fin ss ns ds =>
    if ss && ns != 0 then p
    else
      let pf := (FVal.fin sp np dp).frac
      if beyond pf (FVal.fin ss ns ds).frac (f32Val snap) then
        let dir := 0 < (FVal.fin sp np dp).cmp (f32Val snap)
        if op = .topk && dir then p
        else BitVec.ofNat 32 (0x7FB00000 + (if dir then 65536 else 0) + b % 65536)
      else p
  | _, _ => p

/-! ### The top-k set (R158, R159) -/

/-- Local-store offset of row i's k-set. -/
def Verdict.setAt (v : Verdict) (i : Nat) : Nat := v.kset * 16 + 512 * i

/-- Entry e of a k-set: value and index. -/
def ksetEntry (m : Memory) (at_ e : Nat) : Word × Word :=
  (BitVec.ofNat 32 (leNat (m.read (at_ + 8 * e) 4)), BitVec.ofNat 32 (leNat (m.read (at_ + 8 * e + 4) 4)))

/-- The surplus entry. -/
def surplus : Word × Word := (negInf, 0xFFFFFFFF#32)

/-- One entry ranks above another: by value, then by the lower index. -/
def ranksAbove (a b : Word × Word) : Bool :=
  let c := (f32Val a.1).cmp (f32Val b.1)
  0 < c || (c == 0 && a.2.toNat < b.2.toNat)

/-- The entries of a k-set. -/
def Verdict.entries (v : Verdict) (m : Memory) (row : Nat) : List (Word × Word) := (List.range v.k).map (ksetEntry m (v.setAt row))

/-- The number of real entries of a row. -/
def Verdict.count (v : Verdict) (m : Memory) (row : Nat) : Nat := ((v.entries m row).filter (· != surplus)).length

/-- Entries laid out from an offset. -/
def writeKset (m : Memory) (at_ : Nat) (l : List (Word × Word)) : Memory :=
  m.write at_ (l.flatMap (fun e => natLe 4 e.1.toNat ++ natLe 4 e.2.toNat))

/-- A candidate inserted in a row's k-set, where it qualifies: the declaration, the local store, whether it was inserted. -/
def Verdict.insert (v : Verdict) (m : Memory) (row : Nat) (val idx : Word) : Verdict × Memory × Bool :=
  let es := v.entries m row
  let new := (val, idx)
  if (f32Val val).isNan || (f32Val val).cmp (f32Val (v.tsOf row)) < 0 || !(es.getLast?.any (ranksAbove new)) then (v, m, false)
  else
    let above := es.takeWhile (fun e => !ranksAbove new e)
    let es := (above ++ new :: es.drop above.length).take v.k
    let m := writeKset m (v.setAt row) es
    let v := if v.count m row = v.k then { v with run := Tbl.put row (es.getLastD surplus).1 v.run } else v
    (v, m, true)

/-- A verdict word (R159). -/
def verdictWord (blk : Nat) (nan abd pass : Bool) : Nat :=
  blk * 65536 + (if nan then 4 else 0) + (if abd then 2 else 0) + (if pass then 1 else 0)

/-- The verdict word of an element under a declaration that is no `.topk`. -/
def Verdict.wordOf (v : Verdict) (e : Word) : Nat :=
  if isAbandoned e.toNat then
    let dir := e.getLsbD 16
    verdictWord (bitsOf e.toNat 15 0) false true (if v.op = .le then !dir else dir)
  else verdictWord 0xFFFF (f32Val e).isNan false (v.op.passes (f32Val e) (f32Val v.thr))

/-- The verdict words of a row's 16 elements; under `.topk` the candidates are inserted (R159). -/
def Verdict.row (v : Verdict) (m : Memory) (row : Nat) (es : List Word) : Verdict × Memory × List Nat :=
  if v.op = .topk then
    (es.zipIdx).foldl (fun (acc : Verdict × Memory × List Nat) p =>
      if isAbandoned p.1.toNat then (acc.1, acc.2.1, acc.2.2 ++ [verdictWord (bitsOf p.1.toNat 15 0) false true false])
      else
        let r := acc.1.insert acc.2.1 row p.1 (BitVec.ofNat 32 (v.ib + p.2))
        (r.1, r.2.1, acc.2.2 ++ [verdictWord 0xFFFF (f32Val p.1).isNan false r.2.2])) (v, m, [])
  else (v, m, es.map v.wordOf)

/-! ### VDSET, VTHR, TOPK (R151, R157, R160) -/

/-- VDSET: an instance of one issue. Its lookahead checks nothing. -/
def execVdset (g : Guard) (la : BitVec 4) (op : VerdictOp) (thr : Option Opnd) (kb : Opnd) (u : VdsetUp) (s : State) :
    Host.Outcome State Fault Refusal :=
  let _ := la
  let pt := thr.map (fun x => Pos.src 1 x x.reg32)
  let pb := Pos.src 2 kb true
  s.matrix false 16 g (pt.toList ++ [pb]) (fun c v =>
    let t : Word := match pt with | some p => BitVec.ofNat 32 (c.u32 c.low p) | none => 0#32
    let bo := c.u32 c.low pb
    let nb := u.nbm.toNat + 1
    match v.tileAt c u.tile.toNat with
    | none => illField
    | some x =>
      if (f32Val t).isNan then c.illAt 1
      else if 64 ≤ u.km.toNat then illField
      else if bo % 4 != 0 then c.illAt 2
      else if c.team.lstore < bo + 256 * nb || (op == .topk && c.team.lstore < u.ks.toNat * 16 + 512 * 63 + 8 * (u.km.toNat + 1)) then
        .trap (mkTrap cLSBOUND 0)
      else if x.tag != 0xA#4 then .trap (mkTrap cFMTTAG 0)
      else .next (v.joinInstance c u.tile.toNat u.ver (.vdset op t bo u) 1 none true c.part).2)

/-- The tile that an operand names, with its `.topk` declaration. -/
def Ctx.topkTile (c : Ctx) (p : Pos) : Option (Nat × Verdict) :=
  let n := c.u32 c.low p
  (c.team.tiles[n]?).bind (fun x => (x.decl.filter (fun v => v.op == .topk)).map (fun v => (n, v)))

/-- The threshold that a row will have after the VTHRs issued before (R157). -/
def State.nextThreshold (s : State) (c : Ctx) (tile row : Nat) (d : Verdict) : Word :=
  ((s.core c.team.die c.team.core).insts.filterMap (fun i =>
    match i.op with
    | .vthr r t => if i.team = c.ref.team ∧ i.tile = tile ∧ r = row then some t else none
    | _ => none)).getLastD (d.tsOf row)

/-- VTHR: an instance of one issue that raises the threshold of row %lane at its turn; blocks that start after that take it (R157,
log 34). Its lookahead checks nothing. -/
def execVthr (g : Guard) (la : BitVec 4) (tile a : Opnd) (s : State) : Host.Outcome State Fault Refusal :=
  let _ := la
  let pt := Pos.src 1 tile true
  let pa := Pos.src 2 a a.reg32
  s.matrix false 8 g [pt, pa] (fun c u =>
    let v : Word := BitVec.ofNat 32 (c.u32 c.low pa)
    let row := c.warp.lane
    match c.topkTile pt with
    | none => c.illAt 1
    | some (n, d) =>
      if (f32Val v).isNan then c.illAt 2
      else if (f32Val v).cmp (f32Val (u.nextThreshold c n row d)) < 0 then .trap (mkTrap cVTHRDN 0)
      else .next (u.joinInstance c n 0#16 (.vthr row v) 1 none true c.part).2)

/-- A tile after a VTHR's turn (R157). -/
def Tile.raise (x : Tile) (row : Nat) (v : Word) : Tile := { x with decl := x.decl.map (fun d => { d with ts := Tbl.put row v d.ts }) }

/-- An instance on a tile has started and is not complete. -/
def State.tileBusy (s : State) (c : Ctx) (tile : Nat) : Bool :=
  (s.core c.team.die c.team.core).insts.any (fun i => i.team == c.ref.team && i.tile == tile && i.input.isSome)

/-- TOPK: reads row %lane's k-set, after the started instances on the tile are complete. -/
def execTopk (g : Guard) (la : BitVec 4) (op : TopkOp) (d tile : Opnd) (e : Option Opnd) (s : State) :
    Host.Outcome State Fault Refusal :=
  let pd := if op = .full then none else some (Pos.dst d d.reg32)
  let pt := Pos.src 1 tile true
  let pe := e.map (fun x => Pos.src 2 x true)
  s.matrix false 12 g (pd.toList ++ [pt] ++ pe.toList) (fun c u =>
    match c.topkTile pt with
    | none => c.illAt 1
    | some (n, v) =>
      let k := match pe with | some p => c.u32 c.low p | none => 0
      if pe.isSome && v.k ≤ k then c.illAt 2
      else if u.tileBusy c n then .hold .busy
      else
        let row := c.warp.lane
        let ent := ksetEntry c.team.loc (v.setAt row) k
        let cnt := v.count c.team.loc row
        let eff : Eff :=
          match op with
          | .val => .ofVal ent.1.toNat
          | .idx => .ofVal ent.2.toNat
          | .cnt => .ofVal cnt
          | .full => ⟨none, some ((match d with | .reg _ p => p.extractLsb' 0 3 | _ => 7#3), cnt == v.k), 0#5⟩
        c.compute u (c.runs pd) pd la.toNat [] (fun _ => eff))

end Sys2Proof.Machine
end

