-- ==== Sys2Proof/Machine/MatrixEvents.lean ====
section
/-! DEFINITION. The matrix engine's steps: an instance starts and reads its inputs, completes and advances its tile's
version; the macro sequencer's steps; the arithmetic (spec/07 R133, R136 to R140, R146 to R149, spec/08 R152 to R159). -/

namespace Sys2Proof.Machine

/-! ### Arithmetic (R119, R136 to R138) -/

/-- An element of A or B: its value, and whether it is a signalling NaN (R137, R138). -/
def matVal (t : Ty) (ftz : Bool) (v : Nat) : FVal × Bool :=
  if t.isIN then
    let x := intVal true t.bits v
    (.fin (x < 0) x.natAbs 1, false)
  else fromVal t ftz v

/-- The value of a scale byte (R119). -/
def scaleVal (t : Ty) (e : Nat) : FVal :=
  if t = .d8 then
    if e = 0x80 then .nan else let s := scaled10 1 (toSigned 8 e); .fin false s.1 s.2
  else if e = 0xFF then .nan else let s := scaled2 1 ((e : Int) - 127); .fin false s.1 s.2

/-- prod(x, y) of R136: exactly +0 when either is zero, which raises nothing; the flag of a signalling NaN (R138). `zero`
tells a product with a zero operand. -/
structure MatProd where
  v : FVal
  fl : Flags
  zero : Bool

/-- The product of two elements. -/
def matProd (t : Ty) (ftz : Bool) (a b : Nat) : MatProd :=
  let x := matVal t ftz a
  let y := matVal t ftz b
  if x.1.isZero || y.1.isZero then ⟨.fin false 0 1, 0#5, true⟩
  else ⟨(x.1.mul y.1).1, flagIf (x.2 || y.2) NV, false⟩

/-- The exact sum of a group's products, times its scales in a scaled form (R119, R136). -/
def groupSum (t : Ty) (scl : Option (Nat × Nat)) (ps : List MatProd) : FVal × Flags :=
  let fl := ps.foldl (fun f p => f ||| p.fl) 0#5
  let s := exactSum .rn (ps.map MatProd.v)
  match scl with
  | none => (s.1, fl ||| s.2)
  | some (a, b) =>
    if ps.all MatProd.zero then (.fin false 0 1, 0#5)
    else
      let x := scaleVal t a
      let y := scaleVal t b
      if x.isNan || y.isNan then (.nan, fl ||| s.2 ||| NV)
      else (((s.1.mul x).1.mul y).1, fl ||| s.2)

/-- acc := round_to(fmt, rn, acc + s) (R136, R137). -/
def accumulate (f : Fmt) (ftz : Bool) (acc : Nat) (s : FVal) : Nat × Flags :=
  let r := exactSum .rn [f.val (f.flushIn ftz acc), s]
  let q := f.ofVal .rn ftz r.1
  (q.1, r.2 ||| q.2)

/-- The pairs of elements that meet along K for one accumulator element: place along K, element of A, element of B. -/
def meets (inp : MatInput) (row col : Nat) : List (Nat × Nat × Nat) :=
  (Tbl.get inp.a row []).map (fun p => (p.1, p.2, (inp.b.getD p.1 []).getD col 0))

/-- One accumulator element after an instance (R136): its new bits and the flags raised. -/
def matElem (t : Ty) (scl ftz : Bool) (inp : MatInput) (row col acc : Nat) : Nat × Flags :=
  let ms := meets inp row col
  if (t == .i8 || t == .i4) && !scl then
    let s : Int := ms.foldl (fun (a : Int) m => a + intVal true t.bits m.2.1 * intVal true t.bits m.2.2) 0
    (wrap 32 (intVal true 32 acc + s), 0#5)
  else
    match t with
    | .f32 | .f64 =>
      let f := if t = .f64 then Fmt.f64 else Fmt.f32
      ms.foldl (fun (x : Nat × Flags) m =>
        let p := matProd t ftz m.2.1 m.2.2
        let r := accumulate f ftz x.1 p.v
        (r.1, x.2 ||| p.fl ||| r.2)) (acc, 0#5)
    | _ =>
      let groups := inp.b.length / t.groupSize
      (List.range groups).foldl (fun (x : Nat × Flags) g =>
        let ps := (ms.filter (fun m => m.1 / t.groupSize == g)).map (fun m => matProd t ftz m.2.1 m.2.2)
        let sc := if scl then some ((Tbl.get inp.sa row []).getD g 0, (inp.sb.getD col []).getD g 0) else none
        let s := groupSum t sc ps
        let r := accumulate Fmt.f32 ftz x.1 s.1
        (r.1, x.2 ||| s.2 ||| r.2)) (acc, 0#5)

/-! ### Tiles -/

/-- An element of a tile. -/
def Tile.elem (x : Tile) (row col : Nat) : Word64 := Tbl.get x.elems (16 * row + col) 0#64

/-- A tile with an element set; an unlisted element is +0. -/
def Tile.setElem (x : Tile) (row col : Nat) (v : Word64) : Tile :=
  { x with elems := if v = 0#64 then Tbl.del (16 * row + col) x.elems else Tbl.put (16 * row + col) v x.elems }

/-- One row of a tile after a block: each element that is not abandoned gains its products, then the monitor tests it
(R136, R154). -/
def Tile.blockRow (x : Tile) (t : Ty) (scl ftz : Bool) (inp : MatInput) (row : Nat) : Tile :=
  (List.range 16).foldl (fun (x : Tile) col =>
    let old := (x.elem row col).toNat
    if x.tag = 0xA#4 && isAbandoned old then x
    else
      let r := matElem t scl ftz inp row col old
      let new := match x.decl, Tbl.look row inp.bounds, Tbl.look row inp.snaps with
        | some v, some bound, some snap =>
          if x.tag = 0xA#4 then (monitor v.op inp.block bound snap (BitVec.ofNat 32 r.1)).toNat else r.1
        | _, _, _ => r.1
      { x.setElem row col (BitVec.ofNat 64 new) with flags := x.flags ||| r.2 }) x

/-- A tile after a block: its touched rows (R136, R154). -/
def Tile.block (x : Tile) (t : Ty) (scl ftz : Bool) (inp : MatInput) : Tile :=
  (inp.a.map Prod.fst).foldl (fun x row => x.blockRow t scl ftz inp row) x

/-! ### What an instance reads at its start (R131, R132, R139, R149, R153) -/

/-- Elements of some bits from bytes, the lowest first. -/
def elemsOf (bits n : Nat) (bytes : List Byte) : List Nat :=
  let v := leNat bytes
  (List.range n).map (fun i => v / 2 ^ (bits * i) % 2 ^ bits)

/-- Stored elements at their places along K: dense, or where their positions put them (R139). -/
def placed (pat : Option SparsePat) (es pos : List Nat) : List (Nat × Nat) :=
  match pat with
  | none => (es.zipIdx).map (fun p => (p.2, p.1))
  | some q => (es.zipIdx).map (fun p => (p.2 / q.shape.1 * q.shape.2.1 + pos.getD p.2 0, p.1))

/-- A row of A in local store (R131, R139). -/
def Team.rowA (t : Team) (ty : Ty) (half : Bool) (pat : Option SparsePat) (at_ : Nat) : List (Nat × Nat) :=
  let n := ty.perUnit * suppliers half
  let len := n * ty.ebits / 8
  let pos := match pat with
    | some q => elemsOf q.shape.2.2 n (t.loc.read (at_ + len) (metaBytes ty half q))
    | none => []
  placed pat (elemsOf ty.ebits n (t.loc.read at_ len)) pos

/-- A row of A from a participant's units (R127, R130, R139). -/
def Participant.rowA (p : Participant) (ty : Ty) (pat : Option SparsePat) : List (Nat × Nat) :=
  let es := p.units.flatMap (fun u => (List.range ty.perUnit).map (fun i => u / 2 ^ (ty.ebits * i) % 2 ^ ty.ebits))
  let pos := match pat with | some q => p.metas.flatMap (positions ty q) | none => []
  placed pat es pos

/-- B: K rows of 16 elements (R132). -/
def Team.readB (t : Team) (ty : Ty) (k boff : Nat) : List (List Nat) :=
  (List.range k).map (fun r => elemsOf ty.ebits 16 (t.bbytes.read (boff + r * (2 * ty.ebits)) (2 * ty.ebits)))

/-- Everything that a block reads at its start. The bound entries are those of the block after it; none for the last block
or beyond (R153). -/
def Team.matInput (t : Team) (x : Tile) (ty : Ty) (scl : Bool) (k boff sa sb : Nat) (a : Tbl (List (Nat × Nat))) : MatInput :=
  let g := k / 32
  let scales (from_ n : Nat) : List Nat := (List.range n).map (fun i => (t.sbytes.byte (from_ + i)).toNat)
  let rows := a.map Prod.fst
  let blk := match x.decl with | some v => v.counter | none => 0
  let tests := match x.decl with | some v => decide (blk + 1 < v.nb) | none => false
  let row32 (f : Verdict → Nat → Word) : Tbl Word :=
    match x.decl with
    | some v => if tests then rows.map (fun r => (r, f v r)) else []
    | none => []
  { a := a
    b := t.readB ty k boff
    sa := if scl then rows.map (fun r => (r, scales (sa + r * g) g)) else []
    sb := if scl then (List.range 16).map (fun j => scales (sb + j * g) g) else []
    bounds := row32 (fun v r => BitVec.ofNat 32 (leNat (t.loc.read (v.bound + 4 * (r * v.nb + blk + 1)) 4)))
    snaps := row32 (fun v r => v.snapshot r)
    block := blk
    words := [] }

/-- An instance that reads nothing. -/
def MatInput.empty : MatInput := ⟨[], [], [], [], [], [], 0, []⟩

/-- A block of a declared tile has started: the blocks are numbered in the order they start (R152). -/
def Tile.countBlock (x : Tile) : Tile := { x with decl := x.decl.map (fun v => { v with counter := v.counter + 1 }) }

/-- A team with a tile changed. -/
def Team.updTile (t : Team) (n : Nat) (f : Tile → Tile) : Team := { t with tiles := modAt n f t.tiles }

/-- The inputs of an MMA or MSPA at its start. -/
def Team.mmaInput (t : Team) (x : Tile) (ty : Ty) (u : MmaUp) (pat : Option SparsePat) (a0 : Nat) (ks : Word)
    (parts : List Participant) : MatInput :=
  let a : Tbl (List (Nat × Nat)) :=
    if u.asrc then (bandRows u.bm).map (fun r => (r, t.rowA ty u.half pat (a0 + r * u.astr.toNat * 16)))
    else (sortBy (fun p q => p.lane ≤ q.lane) parts).map (fun p => (p.lane, p.rowA ty pat))
  t.matInput x ty u.scl (denseK ty u.half pat) (u.boff.toNat * 32) (bitsOf ks.toNat 15 0) (bitsOf ks.toNat 31 16) a

/-! ### The macro sequencer (R140) -/

/-- One K-step of an MLOOP, at the addresses of the sequencer: the step reads its inputs and writes its rows. -/
def Team.loopStep (t : Team) (n : Nat) (ty : Ty) (u : MloopUp) (m : MacroSeq) : Team :=
  match t.tiles[n]? with
  | none => t
  | some x =>
    let a := (bandRows u.bm).map (fun r => (r, t.rowA ty u.half none (m.a0 + r * u.astr.toNat * 16)))
    let inp := t.matInput x ty u.scl (denseK ty u.half none) m.boff m.sa m.sb a
    t.updTile n (fun x => (x.block ty u.scl u.ftz inp).countBlock)

/-- The sequencer after a step; none once the last has run. -/
def MacroSeq.next (m : MacroSeq) (ty : Ty) (u : MloopUp) (ainc : Nat) : Option MacroSeq :=
  let g := denseK ty u.half none / 32
  if m.left ≤ 1 then none
  else some ⟨m.inst, m.left - 1, m.a0 + ainc * 16, m.boff + u.binc.toNat * 64, m.sa + 64 * g, m.sb + 16 * g⟩

/-- A K-step of the instance on a core's sequencer runs. -/
def State.runStep (s : State) (d c : Nat) (i : Instance) (m : MacroSeq) : State :=
  match i.op with
  | .mloop ty u _ ainc _ _ =>
    let s := s.updTeam i.team (fun t => t.loopStep i.tile ty u m)
    let s := s.updCore d c (fun k => { k with mloop := m.next ty u ainc })
    if m.left ≤ 1 then s.nextSequence d c else s
  | _ => s

/-! ### Drains (R146, R147, R159) -/

/-- The rows that an instance touches: of its participants in a collective, else of its bands. -/
def Instance.rows (i : Instance) : List Nat :=
  match i.op with
  | .mdrn .reg _ _ _ _ => sortBy (fun a b => a ≤ b) (i.parts.map Participant.lane)
  | .mdrn _ _ _ u _ => bandRows u.bm
  | _ => []

/-- What a drain delivers, by row, with the team whose k-sets and declaration it has changed. -/
def Team.drainWords (t : Team) (n : Nat) (ty : Ty) (vd : Bool) (rows : List Nat) : Team × Tbl (List Nat) :=
  match t.tiles[n]? with
  | none => (t, [])
  | some x =>
    match vd, x.decl with
    | true, some v =>
      let r := rows.foldl (fun (acc : Verdict × Memory × Tbl (List Nat)) row =>
        let q := acc.1.row acc.2.1 row ((List.range 16).map (fun j => (x.elem row j).truncate 32))
        (q.1, q.2.1, acc.2.2 ++ [(row, q.2.2)])) (v, t.loc, [])
      let v := if v.op = .topk then { r.1 with ib := r.1.ib + 16 } else r.1
      ({ t.updTile n (fun x => { x with decl := some v }) with loc := r.2.1 }, r.2.2)
    | _, _ => (t, rows.map (fun row => (row, (List.range 16).map (fun j => (x.elem row j).toNat % 2 ^ ty.bits))))

/-- A tile's flags ORed into %fstat of the participants' guarded threads, and cleared (R146). -/
def State.drainFlags (s : State) (i : Instance) : State :=
  match (s.team? i.team).bind (fun t => t.tiles[i.tile]?) with
  | none => s
  | some x =>
    let s := i.parts.foldl (fun s p => s.updWarp i.team p.warp (fun w => { w with
      threads := (w.threads.zipIdx).map (fun q =>
        if p.mask.getLsbD q.2 then { q.1 with fstat := q.1.fstat ||| x.flags.zeroExtend 32 } else q.1) })) s
    s.updTeam i.team (fun t => t.updTile i.tile (fun x => { x with flags := 0#5 }))

/-- Elements delivered to registers: thread j of the participant on lane r receives element (r, j) (R146). -/
def State.drainRegs (s : State) (i : Instance) (ty : Ty) (words : Tbl (List Nat)) : State :=
  let s := i.parts.foldl (fun s p => s.updWarp i.team p.warp (fun w =>
    ((maskThreads p.mask).filter (· < 16)).foldl (fun (w : Warp) j =>
      w.updThread j (fun th => if th.exited then th
        else th.land i.id (p.starts.getD j 0) (ty.bits / 4) ((Tbl.get words p.lane []).getD j 0) false)) w)) s
  i.parts.foldl (fun s p => s.settleTraps i.team p.warp) s

/-- The transfer of a drain to memory or local store: a slice for each row (R147). -/
def State.drainOut (s : State) (d c : Nat) (i : Instance) (ty : Ty) (add : Bool) (u : MdrnUp) (dest : XEnd) (words : Tbl (List Nat)) :
    State :=
  match s.team? i.team, i.parts.head? with
  | some t, some p =>
    let x := Tbl.get s.launches t.launch Launch.none
    let at_ (row : Nat) : XEnd :=
      match dest with
      | .mem va => .mem (va + row * u.rstr.toNat * 16)
      | .loc tm o => .loc tm (o + row * u.rstr.toNat * 16)
      | e => e
    let n := ty.bits / 8
    let slices := words.map (fun w => (⟨p.warp, .data (w.2.flatMap (natLe n)), at_ w.1, 16 * n, i.id, [], []⟩ : XSlice))
    let (id, s) := s.takeId
    { s with xfers := s.xfers ++ [⟨id, if add then .drainAdd ty else .drainSt, some i.team, [p.warp], t.launch, d, c, x.asid, x.secure,
        i.point.map (fun n => (i.team, n)), none, none, slices, false⟩] }
  | _, _ => s

/-! ### Start and completion (R133, R148, R149) -/

/-- An instance of a core. -/
def Core.inst? (k : Core) (id : Nat) : Option Instance := k.insts.find? (fun i => i.id == id)

/-- A core with an instance changed. -/
def Core.updInst (k : Core) (id : Nat) (f : Instance → Instance) : Core :=
  { k with insts := mapIf (fun i => i.id == id) f k.insts }

/-- An instance starts: it reads its inputs; an MLOOP takes the sequencer and runs its first step (R140, R149); a drain's rows leave the
array, and under `.topk` the k-sets and thresholds are updated before any later block starts (R146, R159). -/
def State.startInstance (s : State) (d c : Nat) (i : Instance) : State :=
  let reads (inp : MatInput) : State := s.updCore d c (fun k => k.updInst i.id (fun i => { i with input := some inp }))
  match (s.team? i.team).bind (fun t => (t.tiles[i.tile]?).map (fun x => (t, x))) with
  | none => s
  | some (t, x) =>
    match i.op with
    | .mma ty u pat a0 ks =>
      (reads (t.mmaInput x ty u pat a0 ks i.parts)).updTeam i.team (fun t => t.updTile i.tile Tile.countBlock)
    | .mloop _ u n _ a0 ks =>
      let m : MacroSeq := ⟨i.id, n, a0, u.boff.toNat * 32, bitsOf ks.toNat 15 0, bitsOf ks.toNat 31 16⟩
      (reads .empty).runStep d c i m
    | .mdrn _ ty vd _ _ =>
      let r := t.drainWords i.tile ty vd i.rows
      (reads { MatInput.empty with words := r.2 }).updTeam i.team (fun _ => r.1)
    | _ => reads .empty

/-- INSTANCE_START (R133): the instance that became startable first starts. -/
def execInstanceStart (die core inst : Nat) (s : State) : Host.Outcome State Fault Refusal :=
  match (s.core die core).startq.head?, (s.core die core).inst? inst with
  | some f, some i =>
    if f = inst then
      let s := s.updCore die core (fun k => { k with startq := k.startq.drop 1 })
      .next ((s.startInstance die core i).refreshStart die core)
    else s.noEvent
  | _, _ => s.noEvent

/-- A tile at a VDSET's turn: the new declaration (R151). -/
def vdsetDecl (op : VerdictOp) (thr : Word) (bo : Nat) (u : VdsetUp) : Verdict :=
  ⟨op, u.nbm.toNat + 1, 0, bo, thr, [], u.km.toNat + 1, u.ks.toNat, [], 0⟩

/-- What a completed instance has done, its version aside (R136, R141, R146, R151, R152). -/
def State.finishInstance (s : State) (d c : Nat) (i : Instance) (inp : MatInput) : State :=
  match i.op with
  | .mma ty u _ _ _ => s.updTeam i.team (fun t => t.updTile i.tile (fun x => x.block ty u.scl u.ftz inp))
  | .mloop _ _ _ _ _ _ => s
  | .mzro ty =>
    s.updTeam i.team (fun t => t.updTile i.tile (fun x => { x with
      elems := [], tag := mzroTag ty, flags := 0#5, decl := x.decl.map (fun v => { v with counter := 0 }) }))
  | .vdset op thr bo u =>
    let v := vdsetDecl op thr bo u
    s.updTeam i.team (fun t =>
      let t := t.updTile i.tile (fun x => { x with decl := some v })
      if op = .topk then
        { t with loc := (List.range 64).foldl (fun m r => writeKset m (v.setAt r) (List.replicate v.k surplus)) t.loc }
      else t)
  | .vthr row thr => s.updTeam i.team (fun t => t.updTile i.tile (fun x => x.raise row thr))
  | .mdrn op ty _ u dest =>
    let s := s.drainFlags i
    match op with
    | .reg => s.drainRegs i ty inp.words
    | .st => s.drainOut d c i ty false u dest inp.words
    | .add => s.drainOut d c i ty true u dest inp.words

/-- INSTANCE_COMPLETE (R133): a started instance has written its rows, and the version advances, that of
a VTHR aside, which names none.
An MLOOP completes after its last step (R140). -/
def execInstanceComplete (die core inst : Nat) (s : State) : Host.Outcome State Fault Refusal :=
  let k := s.core die core
  match k.inst? inst with
  | some i =>
    let steps := k.mloop.any (fun m => m.inst == inst)
      || ((s.team? i.team).bind Team.macroSeq).any (fun m => m.inst == inst)
    match i.input with
    | some inp =>
      if steps then s.noEvent
      else
        let s := s.finishInstance die core i inp
        let s := match i.op with
          | .vthr _ _ => s
          | _ => s.updTeam i.team (fun t => t.updTile i.tile (fun x => { x with ver := i.ver + 1 }))
        let s := s.updCore die core (fun k => { k with insts := k.insts.filter (fun x => x.id != inst) })
        .next (s.refreshStart die core)
    | none => s.noEvent
  | none => s.noEvent

/-- MLOOP_STEP_START (R140): the sequencer runs its next step, unless a save has stopped its team. -/
def execMloopStepStart (die core : Nat) (s : State) : Host.Outcome State Fault Refusal :=
  let k := s.core die core
  match k.mloop with
  | some m =>
    match k.inst? m.inst with
    | some i =>
      if ((s.team? i.team).map Team.stopping).getD true then s.noEvent
      else .next (s.runStep die core i m)
    | none => s.noEvent
  | none => s.noEvent

end Sys2Proof.Machine
end

