-- ==== Sys2Proof/Machine/System.lean ====
section
/-! DEFINITION. TRAP, BKPT, SYSC, ERET and the words that are no instruction (spec/13 R255, spec/05 R105, R107, spec/19 R319,
spec/21 R382). -/

namespace Sys2Proof.Machine

/-- TRAP and SYSC (R382): %tinfo holds k of the lowest guarded thread; ERET resumes after the instruction. -/
def State.trapWith (s : State) (cause : Nat) (g : Guard) (k : Opnd) : Host.Outcome State Fault Refusal :=
  let pk := Pos.src 1 k k.src32
  s.issue 8 g [pk] (fun c _ => .trap ⟨BitVec.ofNat 8 cause, BitVec.ofNat 64 (c.u32 c.low pk), 8⟩)

/-- TRAP (R382). -/
def execTrap (g : Guard) (k : Opnd) (s : State) : Host.Outcome State Fault Refusal := s.trapWith cTRAP g k

/-- SYSC (R382). -/
def execSysc (g : Guard) (k : Opnd) (s : State) : Host.Outcome State Fault Refusal := s.trapWith cSYSC g k

/-- BKPT (R319). -/
def execBkpt (g : Guard) (s : State) : Host.Outcome State Fault Refusal :=
  s.issue 8 g [] (fun _ _ => .trap ⟨BitVec.ofNat 8 cBKPT, 0#64, 8⟩)

/-- ERET (R105, R255): ILLINS outside handler mode; else the waits of the other handler leaves are withdrawn with them and
the warp returns. -/
def execEret (s : State) : Host.Outcome State Fault Refusal :=
  s.issue 8 Guard.always [] (fun c u =>
    if c.warp.handler.isNone then .trap (mkTrap cILLINS 0)
    else
      let waiting := c.warp.entries.filter (fun e => e.handler && e.wait != .none)
      let v := (waiting.foldl (fun u e => u.withdraw ⟨c.ref.team, c.ref.warp, e.id⟩) u).returnTrap c.ref.team c.ref.warp
      .moved (if waiting.isEmpty then v else v.regrant c.team.die c.team.core))

/-- A word with no meaning (R79, R107): ILLINS. -/
def execUnassignedOpcode (w : IWord) (s : State) : Host.Outcome State Fault Refusal :=
  let _ := w
  s.issueWith true 8 Guard.always [] (fun _ _ => .trap (mkTrap cILLINS 0))

end Sys2Proof.Machine
end

