-- ==== Sys2Proof/Machine/Tasks.lean ====
section
/-! DEFINITION. Tasks, keys, renamed storage and copy-back, hardware queues (spec/11 R205 to R219). -/

namespace Sys2Proof.Machine

/-! ### TASK (R205, R206, R209) -/

/-- Tasks of a manifest table. -/
def taskCount : Nat := 1024

/-- The fields of a manifest (R206): its handle, ENTRY, the counts, whether a reserved bit is set, keys, tiles; each
capability with its tag. -/
structure Manifest where
  handle : Cap × Bool
  entry : Nat
  nr : Nat
  nwt : Nat
  nk : Nat
  reserved : Bool
  keys : List (Nat × Bool)
  reads : List (Cap × Bool)
  writes : List (Cap × Bool)
  deriving DecidableEq, Repr

/-- The manifest in 256 bytes with the tags of its 16 units. -/
def parseManifest (b : List Byte) (tags : List Bool) : Manifest :=
  let unit (j : Nat) : Cap × Bool := (Cap.of (leNat ((b.drop (16 * j)).take 16)), tags.getD j false)
  let c := leNat ((b.drop 16).take 8)
  let nr := bitsOf c 19 16
  let nwt := bitsOf c 22 20
  let nk := bitsOf c 25 23
  let words := (List.range (min nk 4)).map (fun i => leNat ((b.drop (32 + 8 * i)).take 8))
  ⟨unit 0, bitsOf c 15 0, nr, nwt, nk,
    bitsOf c 63 26 != 0 || leNat ((b.drop 24).take 8) != 0 || words.any (fun w => bitsOf w 62 48 != 0),
    words.map (fun w => (bitsOf w 47 0, bitOf w 63)),
    (List.range (min nr 8)).map (fun i => unit (4 + i)), (List.range (min nwt 4)).map (fun i => unit (12 + i))⟩

/-- A new task's write tile: renamed where an earlier version that is not home, or a read tile of an earlier task that has
not retired, overlaps it (R209). -/
def Die.newTile (d : Die) (k : Cap) : WTile :=
  let renamed := d.tasks.any (fun u =>
    u.writes.any (fun w => w.pending && overlap w.base w.len k.base k.length)
      || (u.stage != .retired && u.reads.any (fun r => overlap r.1 r.2.1 k.base k.length)))
  ⟨k.base, k.length, BitVec.ofNat 5 k.perm, renamed, none, .live⟩

/-- A task enters its die's manifest table (R205): its launch's counter and COUNT rise, and it goes on where it can; in a cancelled
launch it is never admitted (R42). -/
def State.submitTask (s : State) (die launch folio : Nat) (m : Manifest) (args : List Byte) : State :=
  let num := ((Tbl.look launch s.launches).map Launch.taskNum).getD 0
  let s := (s.updLaunch launch (fun x => { x with taskNum := x.taskNum + 1 })).countUp launch 1
  let d := s.die die
  let t : Task :=
    { seq := d.taskSeq, launch := launch, num := num, folio := folio, entry := m.entry, args := args,
      keys := sortBy (fun a b => a.1 ≤ b.1) m.keys, held := [], asked := false,
      reads := m.reads.map (fun r => (r.1.base, r.1.length, BitVec.ofNat 5 r.1.perm)),
      writes := m.writes.map (fun w => d.newTile w.1), stage := .submitted, readyAt := 0, team := none, dirty := [] }
  let s := s.updDie die (fun d => { d with tasks := d.tasks ++ [t], taskSeq := d.taskSeq + 1 })
  if (s.completion launch).cxr then s.retireTask die t.seq true else s.advanceTasks die

/-- TASK's checks on a manifest after the capability it is read through (R206 items 2, 3). -/
def State.manifestTrap (s : State) (asid va thread : Nat) (m : Manifest) : Except Trap (Nat × FolioEntry) :=
  let untagged := ((m.handle, 0) :: ((m.reads.zipIdx).map (fun p => (p.1, 4 + p.2)) ++ (m.writes.zipIdx).map (fun p => (p.1, 12 + p.2)))).find?
    (fun p => !p.1.2)
  match untagged with
  | some (_, j) => .error (mkTrap cCAPTAG (accInfo (va + 16 * j) thread 2))
  | none =>
    match s.handleFolio asid m.handle.1 with
    | none => .error (mkTrap cILLOPND 0)
    | some (num, f) =>
      match f.image.entries[m.entry]? with
      | none => .error (mkTrap cILLOPND 0)
      | some e =>
        if 8 < m.nr || 4 < m.nwt || 4 < m.nk || m.reserved || (m.keys.map Prod.fst).eraseDups.length != m.keys.length
            || e.convoy.isSome || 512 < e.args || e.regs < 32 * (m.nr + m.nwt) then .error (mkTrap cILLOPND 0)
        else .ok (num, e)

/-- TASK's checks on the tile capabilities and the handle's world (R206 items 5, 6). -/
def State.tilesTrap (s : State) (folio va thread : Nat) (secure : Bool) (m : Manifest) : Option Trap :=
  let bad (p : (Cap × Bool) × Nat) (perm : Nat) : Bool := p.1.1.otype != 0 || !p.1.1.grants perm
  let tile := ((m.reads.zipIdx).find? (fun p => bad p pLD)).map (fun p => 4 + p.2)
    <|> ((m.writes.zipIdx).find? (fun p => bad p (pLD + pST))).map (fun p => 12 + p.2)
  match tile with
  | some j => some (mkTrap cCAPPERM (accInfo (va + 16 * j) thread 3))
  | none => if ((Tbl.look folio s.folios).map Folio.secure).getD false != secure then some (mkTrap cWORLD 0) else none

/-- A TASK that has read its manifest enters its die's table, or waits for room in it with what it has read (R205, R383). -/
def Ctx.submitNow (x : Ctx) (folio : Nat) (bytes : List Byte) (tags : List Bool) (u : State) : Done :=
  if 0xFFFFFF < ((Tbl.look x.team.launch u.launches).map Launch.taskNum).getD 0 then .trap (mkTrap cILLOPND 0)
  else if taskCount ≤ (u.die x.team.die).tasks.length then .hold (.task folio bytes tags)
  else .next (u.submitTask x.team.die x.team.launch folio (parseManifest (bytes.take 256) tags) (bytes.drop 256))

/-- TASK (R205, R206, R383). The manifest and arguments are read once, at issue, once every earlier access of the thread is
performed. -/
def execTask (g : Guard) (c o : Opnd) (s : State) : Host.Outcome State Fault Refusal :=
  let pc := Pos.src 1 c c.isCap
  let po := Pos.src 2 o o.src3264
  s.issue 16 g [pc, po] (fun x u =>
    match x.entry.wait with
    | .task folio bytes tags => x.submitNow folio bytes tags u
    | _ =>
      let i := x.low
      let k := x.cap i pc
      let off := x.signed i po
      let va : Int := k.base + off
      let req (va : Int) (size : Nat) : AccReq := ⟨i, k, x.capTag i pc, va, size, none, false, pLD, ⟨true, false, false⟩⟩
      if off % 16 != 0 then .trap (mkTrap cILLOPND (opInfo i 2))
      else if va % 16 != 0 then .trap (mkTrap cILLOPND (accInfo (va % (2 ^ 56 : Nat)).toNat i 1))
      else
        (u.access x [req va 256]).then_ x u (fun accs =>
          let pas := accs.flatMap Acc.pas
          let tags := (List.range 16).map (fun j => u.unitTag (pas.getD (16 * j) 0) && k.grants pLDC)
          let bytes := pas.map u.physByte
          let m := parseManifest bytes tags
          if !u.threadDone ⟨x.ref.team, x.ref.warp, i⟩ || !u.reaches x.team.die pas then .hold .busy
          else
            match u.manifestTrap x.launch.asid va.toNat i m with
            | .error t => .trap t
            | .ok (num, e) =>
              (u.access x (if e.args = 0 then [] else [req (va + 256) e.args])).then_ x u (fun more =>
                match u.tilesTrap num va.toNat i x.launch.secure m with
                | some t => .trap t
                | none =>
                  if !u.reaches x.team.die (more.flatMap Acc.pas) then .hold .busy
                  else
                    let u := (distinctLines ((accs ++ more).flatMap Acc.lines)).foldl (fun u l => u.touchHome l) u
                    x.submitNow num (bytes ++ (more.flatMap Acc.pas).map u.physByte) tags u)))

/-! ### Keys (R211 to R213) -/

/-- The task that a team runs, with its die. -/
def State.taskOf (s : State) (team : Nat) (t : Team) : Option (Nat × Task) :=
  t.task.bind (fun q => (List.range 9).findSome? (fun d =>
    ((s.die d).tasks.find? (fun u => u.seq == q && u.team == some team)).map (fun u => (d, u))))

/-- KREL (R213, R215). -/
def execKrel (g : Guard) (a : Opnd) (s : State) : Host.Outcome State Fault Refusal :=
  let pa := Pos.src 1 a a.isD64
  s.issue 8 g [pa] (fun c u =>
    let v := c.raw c.low pa
    let bad : Done := .trap (mkTrap cILLOPND (opInfo c.low 1))
    if 2 ^ 48 ≤ v then bad
    else
      match u.taskOf c.ref.team c.team with
      | none => bad
      | some (d, t) =>
        if !t.held.any (fun k => k.1 == v) then bad
        else if !u.released c c.low (objectName 1 v) then .hold .busy
        else
          let u := u.updDie d (fun y => y.updTask t.seq (fun t => { t with held := t.held.filter (fun k => k.1 != v) }))
          .next (u.releaseKey (taskName d t.seq) (u.launchSecure t.launch) v))

/-- The next key that an acquiring task asks for. -/
def Task.nextKey (t : Task) : Option (Nat × Bool) := t.keys[t.held.length]?

/-- A task gives back every key it holds and goes to the tail of its die's acquisition order; KFULL rises (R212). -/
def State.keyFull (s : State) (die : Nat) (t : Task) : State :=
  let s := t.held.foldl (fun s k => s.releaseKey (taskName die t.seq) (s.launchSecure t.launch) k.1) s
  (s.updDie die (fun d => { d.updTask t.seq (fun t => { t with held := [], asked := false }) with
    acquireq := d.acquireq.filter (· != t.seq) ++ [t.seq] })).bumpDie die 0x103 1

/-- KEY_REQUEST_ARRIVAL (R212): the request for the task's next key reaches its home table; first requests leave in the
die's acquisition order. It passes between the dies while they are linked (R10). -/
def execKeyRequestArrival (die task : Nat) (s : State) : Host.Outcome State Fault Refusal :=
  let d := s.die die
  match d.task? task with
  | none => s.noEvent
  | some t =>
    let first := (d.acquireq.takeWhile (· != task)).all (fun q => (d.task? q).all (fun u => u.asked || !u.held.isEmpty))
    match t.nextKey with
    | none => s.noEvent
    | some (key, excl) =>
      if t.stage != .acquiring || t.asked || (t.held.isEmpty && !first) || !s.linked die (keyHome key) then s.noEvent
      else
        let secure := s.launchSecure t.launch
        let home := keyHome key
        let table := (s.die home).keys
        let has := table.any (fun e => e.secure == secure && e.key == key)
        if !has && s.keyRoom home secure ≤ (table.filter (fun e => e.secure == secure)).length then .next (s.keyFull die t)
        else
          let me := taskName die task
          let s := s.updDie home (fun h => { h with
            keys := (if has then h.keys else h.keys ++ [⟨secure, key, none, [], []⟩]).map (fun e =>
              if e.secure == secure && e.key == key then ({ e with queue := e.queue ++ [(me, excl)] } : KeyEntry).granted else e) })
          .next (s.updDie die (fun d => d.updTask task (fun t => { t with asked := true })))

/-- A task holds its next key at the key's home, and word of it can reach the task's die (R10). -/
def State.granted (s : State) (die : Nat) (t : Task) : Bool :=
  match t.nextKey with
  | none => false
  | some (key, _) =>
    let me := taskName die t.seq
    s.linked die (keyHome key) && (s.die (keyHome key)).keys.any (fun e =>
      e.secure == s.launchSecure t.launch && e.key == key && (e.excl == some me || e.shared.contains me))

/-- KEY_GRANT_ARRIVAL (R212): the grant reaches the dispatcher; after its last key the task is Ready. -/
def execKeyGrantArrival (die task : Nat) (s : State) : Host.Outcome State Fault Refusal :=
  match (s.die die).task? task with
  | none => s.noEvent
  | some t =>
    if t.stage != .acquiring || !t.asked || !s.granted die t then s.noEvent
    else
      let held := t.held ++ t.nextKey.toList
      let (now, s) := s.tick
      let ready := held.length == t.keys.length
      .next (s.updDie die (fun d => { d.updTask task (fun t => { t with
          held := held, asked := false, stage := if ready then .ready else t.stage, readyAt := if ready then now else t.readyAt }) with
        acquireq := if ready then d.acquireq.filter (· != task) else d.acquireq }))

/-! ### Renamed storage and copy-back (R209, R210) -/

/-- The rename pool of a world on a die: base and bytes. -/
def State.renamePool (s : State) (die : Nat) (secure : Bool) : Nat × Nat :=
  let w := (s.dieWord die (if secure then 0x38C else 0x390)).toNat
  (2 ^ 48 + die * 2 ^ 44 + bitsOf w 51 16 * 65536 % 2 ^ 44, bitsOf w 15 0 * 65536)

/-- Pool storage in use by the tasks of a world: offset and length. -/
def State.poolUse (s : State) (die : Nat) (secure : Bool) : List (Nat × Nat) :=
  ((s.die die).tasks.filter (fun t => s.launchSecure t.launch == secure)).flatMap (fun t =>
    t.writes.filterMap (fun w => w.pool.map (fun p => (p, w.len))))

/-- Storage of a length at an offset lies in the pool and over none in use. -/
def poolFits (used : List (Nat × Nat)) (size len p : Nat) : Bool :=
  p + len ≤ size && used.all (fun u => !overlap p len u.1 (max 1 u.2))

/-- A free offset for a tile: the device's own where it fits, else the lowest that keeps the tile's address modulo 128,
else the lowest of all; none where the pool lacks room (R209, log 10). -/
def freeOffset (own : Option Nat) (used : List (Nat × Nat)) (size : Nat) (w : WTile) : Option Nat :=
  let ends := sortBy (fun a b => a ≤ b) (0 :: used.map (fun u => u.1 + u.2))
  let keep (e : Nat) : Nat := e + (w.base + 128 - e % 128) % 128
  (own.toList ++ ends.map keep ++ ends).find? (poolFits used size w.len)

/-- Offsets for every renamed tile of a task, the i-th onward; none where the pool lacks room. -/
def takeStorage (n i : Nat) (used : List (Nat × Nat)) (size : Nat) : List WTile → Option (List WTile)
  | [] => some []
  | w :: r =>
    if !w.renamed || w.pool.isSome then (takeStorage n (i + 1) used size r).map (fun l => w :: l)
    else
      match freeOffset (Config.poolOffset n i) used size w with
      | none => none
      | some p => (takeStorage n (i + 1) ((p, w.len) :: used) size r).map (fun l => { w with pool := some p } :: l)

/-- A Ready task with a renamed tile that has no storage yet (R209). -/
def Task.wantsStorage (t : Task) : Bool := t.stage == .ready && t.writes.any (fun w => w.renamed && w.pool.isNone)

/-- RENAME_STORAGE_TAKE (R209): a Ready task's renamed tiles take fresh storage, whose bytes are free values, in the order in
which the tasks of its pool became Ready. -/
def execRenameStorageTake (die task : Nat) (s : State) : Host.Outcome State Fault Refusal :=
  match (s.die die).task? task with
  | none => s.noEvent
  | some t =>
    let secure := s.launchSecure t.launch
    let (base, size) := s.renamePool die secure
    let earlier := (s.die die).tasks.any (fun u => u.wantsStorage && u.readyAt < t.readyAt && s.launchSecure u.launch == secure)
    if !t.wantsStorage || earlier then s.noEvent
    else
      match takeStorage (s.fresh + 1) 0 (s.poolUse die secure) size t.writes with
      | none => s.noEvent
      | some ws =>
        let s : State := { s with fresh := s.fresh + 1 }
        let s := s.updDie die (fun d => d.updTask task (fun t => { t with writes := ws }))
        .next (ws.foldl (fun s w =>
          match w.renamed, w.pool with
          | true, some p => (List.range w.len).foldl (fun s i => s.physSet (base + p + i) (Config.freeByte s.fresh (p + i))) s
          | _, _ => s) s)

/-- The conditions of a copy-back (R210). -/
def Die.mayCopyBack (d : Die) (t : Task) (w : WTile) : Bool :=
  t.stage == .retired && w.renamed && w.pool.isSome && w.state == .live
    && d.tasks.all (fun u => t.seq ≤ u.seq
        || (u.writes.all (fun v => !v.pending || !overlap v.base v.len w.base w.len)
          && (u.stage == .retired || u.reads.all (fun r => !overlap r.1 r.2.1 w.base w.len))))

/-- COPYBACK_START (R210): an engine operation in the task's address space, from the pool's addresses to home. -/
def execCopybackStart (die task tile : Nat) (s : State) : Host.Outcome State Fault Refusal :=
  match (s.die die).task? task with
  | none => s.noEvent
  | some t =>
    match t.writes[tile]? with
    | none => s.noEvent
    | some w =>
      if !(s.die die).mayCopyBack t w then s.noEvent
      else
        let x := Tbl.get s.launches t.launch Launch.none
        let rpva := bitsOf (s.dieWord die (if x.secure then 0x38D else 0x38E)).toNat 55 16 * 65536
        let (id, s) := s.takeId
        let sl : XSlice := ⟨0, .mem (rpva + w.pool.getD 0), .mem w.base, w.len, 0, [], []⟩
        let s : State := { s with xfers := s.xfers ++ [⟨id, .copyback (taskName die task) tile, none, [], t.launch, die, 31, x.asid, x.secure,
          none, none, none, [sl], false⟩] }
        .next (s.updDie die (fun d => d.updTask task (fun t => { t with writes := modAt tile (fun w => { w with state := .copying }) t.writes })))

/-- COPYBACK_COMPLETE (R208, R210): the version is home and its storage free, or, after an unrecoverable fault, it is
discarded; dependences are met anew. -/
def execCopybackComplete (die task tile : Nat) (s : State) : Host.Outcome State Fault Refusal :=
  match s.xfers.find? (fun x => x.kind == .copyback (taskName die task) tile) with
  | none => s.noEvent
  | some x =>
    if !x.stopped && !x.slices.all XSlice.complete then s.noEvent
    else
      let s := s.delXfer x.id
      let s := s.updDie die (fun d => d.updTask task (fun t => { t with
        writes := modAt tile (fun w => { w with state := if x.stopped then .discarded else .home, pool := none }) t.writes }))
      .next ((s.sweepTask die task).advanceTasks die)

/-! ### Hardware queues (R216 to R219) -/

/-- QUEUE_REFILL_LAND (R218): the records in flight reach the hardware entries. -/
def execQueueRefillLand (q : Nat) (s : State) : Host.Outcome State Fault Refusal :=
  let x := s.queue q
  let n := x.refill.length
  if n = 0 then s.noEvent
  else
    let s := s.updQueue q (fun x => { x with
      hw := x.hw ++ x.refill, refill := [], spCount := x.spCount - n, spHead := (x.spHead + n) % max 1 (s.spillSize q) })
    .next ((s.settleQueue q).startRefill q)

/-- The register pair of a record: two granules at one operand position (R217); none follows granule 15. -/
def recordPos (n : Nat) (c : Opnd) (read write : Bool) : List Pos :=
  match c with
  | .reg w st =>
    [⟨n, .reg w st, none, w == .w128 && st.toNat + 64 ≤ 512, read, write, BitVec.allOnes 32⟩,
      ⟨n, .reg w (st + 32#9), none, true, read, write, BitVec.allOnes 32⟩]
  | o => [⟨n, o, none, false, read, write, BitVec.allOnes 32⟩]

/-- QPUSH's and QPOP's checks of the queue (R217, R265). -/
def State.queueTrap (s : State) (c : Ctx) (q : Nat) : Option Trap :=
  if 575 < q || s.queueWord q % 2 = 0 then some (mkTrap cILLOPND (opInfo c.low 1))
  else if s.queueSecure q != c.launch.secure then some (mkTrap cWORLD 0)
  else none

/-- QPUSH (R217, R218); WORLD where a record would go to a spill position in a secure region (R266). -/
def execQpush (g : Guard) (q c : Opnd) (s : State) : Host.Outcome State Fault Refusal :=
  let pq := Pos.src 1 q q.isUniImm
  s.issue 8 g (pq :: recordPos 2 c true false) (fun x u =>
    let n := x.u32 x.low pq
    match u.queueTrap x n with
    | some t => .trap t
    | none =>
      if u.reach n < x.on.length then .trap (mkTrap cQSPILL 0)
      else if u.pushShut n x.on.length then .trap (mkTrap cWORLD 0)
      else
        let start := match c with | .reg _ st => st.toNat | _ => 0
        let rec_ (i : Nat) : List Byte := natLe 32 ((x.th i).read (x.pick i 2) start 64)
        let u := x.on.foldl (fun u i => u.pushOne n (rec_ i)) u
        let u := u.complete x.ref 8
        .moved ((u.settleQueue n).startRefill n))

/-- QPOP (R217, R218). -/
def execQpop (g : Guard) (c q : Opnd) (s : State) : Host.Outcome State Fault Refusal :=
  let pq := Pos.src 1 q q.isUniImm
  s.issue 8 g (recordPos 0 c false true ++ [pq]) (fun x u =>
    let n := x.u32 x.low pq
    match u.queueTrap x n with
    | some t => .trap t
    | none =>
      let start := match c with | .reg _ st => st.toNat | _ => 0
      let u := (u.block x.ref (.qpop n start (maskOf x.on))).updQueue n (fun y => { y with waiting := y.waiting ++ [x.ref] })
      .block (u.settleQueue n))

end Sys2Proof.Machine
end

