-- ==== Sys2Proof/Machine/Words.lean ====
section
/-! DEFINITION. Special registers and control-space words: what each reads, what a write of it does, by a thread, by the
host, by the Igtahild controller (spec/21 R375 to R378; spec/13 R257 to R259, R265, R266; spec/15 R277). -/

namespace Sys2Proof.Machine

/-! ### Reads of words -/

/-- A die control word as SRD reads it; none for a number that no rule assigns. Words that are written only read zero. -/
def State.readDieWord (s : State) (d n : Nat) : Option Word64 :=
  let stored := some (s.dieWord d n)
  if 0x100 ≤ n && n ≤ 0x108 then stored
  else if 0x110 ≤ n && n < 0x122 then stored
  else if n = 0x124 then stored
  else if 0x130 ≤ n && n < 0x142 then stored
  else if n = 0x144 then stored
  else if 0x150 ≤ n && n < 0x160 then stored
  else if 0x200 ≤ n && n < 0x300 then stored
  else if 0x300 ≤ n && n < 0x380 then
    if n % 2 = 0 then stored else some (s.queue (64 * d + (n - 0x300) / 2)).word
  else if n = 0x380 then stored
  else if 0x38C ≤ n && n ≤ 0x38E then stored
  else if n = 0x390 || n = 0x391 then stored
  else if 0x392 ≤ n && n ≤ 0x39B then stored
  else if n = 0x39C || n = 0x39D then some 0#64
  else none

/-- INUSE of an armed entry: its slots in use (R224). -/
def State.inUse (s : State) (e : Nat) : Word64 := BitVec.ofNat 64 ((s.armedUse e).length % 128 * 2 ^ 57)

/-- A package control word as SRD reads it; none for a number that no rule assigns, and for the mailbox (R377). -/
def State.readPackageWord (s : State) (n : Nat) : Option Word64 :=
  let stored := some (s.word n)
  if n = 0x10 || n = 0x11 || n = 0x12 || n = 0x20 || n = 0x30 || n = 0x40 then stored
  else if n = 0x13 then some (BitVec.ofNat 64 s.tierSize)
  else if n = 0x60 || n = 0x61 || n = 0x70 || n = 0x71 then stored
  else if 0x400 ≤ n && n < 0x420 then stored
  else if 0x800 ≤ n && n < 0x880 then stored
  else if 0x1000 ≤ n && n < 0x1100 then stored
  else if 0x2000 ≤ n && n < 0x2100 then
    if n % 4 = 3 then some (s.word n ||| s.inUse ((n - 0x2000) / 4)) else stored
  else if n = 0x2100 then stored
  else if 0x3000 ≤ n && n < 0x3400 then stored
  else if 0x4000 ≤ n && n < 0x4000 + entryCount then stored
  else if 0x8000 ≤ n && n < 0x8000 + entryCount then some (s.completion (n - 0x8000)).word
  else if 0xC000 ≤ n && n < 0xC000 + 9 * 0x400 then s.readDieWord ((n - 0xC000) / 0x400) ((n - 0xC000) % 0x400)
  else none

/-- A word of the Igtahild mailbox (R281, R377). -/
def isMailbox (n : Nat) : Bool := 0x50 ≤ n && n < 0x60

/-! ### Writes of words -/

/-- A word that only the Igtahild controller writes, in a die's control space (R209, R265). -/
def fwDieWord (n : Nat) : Bool := (0x130 ≤ n && n < 0x142) || n == 0x144 || n == 0x380 || n == 0x38C || n == 0x38D

/-- The RW and W1C bits of a die control word that has no behaviour of its own. -/
def dieWordBits (n : Nat) : Word64 × Word64 :=
  if n = 0x104 then (0#64, bitRange 4 0)
  else if 0x100 ≤ n && n ≤ 0x108 then (bitRange 63 0, 0#64)
  else if 0x110 ≤ n && n < 0x122 then (bitRange 2 0, 0#64)
  else if n = 0x124 then (bitRange 17 0, 0#64)
  else if 0x130 ≤ n && n < 0x142 then (bitRange 0 0, 0#64)
  else if n = 0x144 then (bitRange 3 0, 0#64)
  else if 0x150 ≤ n && n < 0x160 then (bitRange 31 0, 0#64)
  else if 0x200 ≤ n && n < 0x300 then (bitRange 51 12 ||| bitRange 0 0, 0#64)
  else if 0x300 ≤ n && n < 0x380 && n % 2 = 0 then (bitRange 55 4 ||| bitRange 0 0, 0#64)
  else if n = 0x380 then (bitRange 63 0, 0#64)
  else if n = 0x38C || n = 0x390 then (bitRange 51 0, 0#64)
  else if n = 0x38D || n = 0x38E then (bitRange 55 16, 0#64)
  else if n = 0x391 then (bitRange 51 0, 0#64)
  else (0#64, 0#64)

/-- A write of a die control word under its Access column: service rings, FRESP and ERESP do what their rules say; CDIS
changes only while the die is parked (R288); words of the Igtahild controller ignore other writers (R265). -/
def State.writeDieWord (s : State) (fw : Bool) (d n : Nat) (v : Word64) : State :=
  if fwDieWord n && !fw then s
  else if n = 0x124 && s.parkState d != 2 then s
  else if 0x392 ≤ n && n ≤ 0x39B then
    if n % 2 = 0 then s.writeRingConfig d ((n - 0x392) / 2) v else s.writeRingPtr d ((n - 0x392) / 2) v
  else if n = 0x39C then
    let num := bitsOf v.toNat 63 32
    if bitsOf v.toNat 1 0 = 1 then s.serviceFault d num
    else if bitsOf v.toNat 1 0 = 2 then s.unrecoverable d num else s
  else if n = 0x39D then
    let num := bitsOf v.toNat 63 48
    if bitsOf v.toNat 1 0 = 1 then s.erespResume d num
    else if bitsOf v.toNat 1 0 = 2 then s.erespCancel d num else s
  else
    let b := dieWordBits n
    if b.1 ||| b.2 = 0#64 then s else s.setDieWord d n (mergeWord (s.dieWord d n) v b.1 b.2)

/-- A write of a package control word under its Access column. -/
def State.writePackageWord (s : State) (fw : Bool) (n : Nat) (v : Word64) : State :=
  if n = 0x10 then s.writePkgid v
  else if n = 0x12 then s.writeTiercfg v
  else if n = 0x11 || n = 0x20 || n = 0x71 || n = 0x2100 || isMailbox n then s.setWord n v
  else if n = 0x30 then s.writePceil v
  else if n = 0x40 then s.writeShoot v
  else if n = 0x60 then s.writeDpark v
  else if n = 0x70 then s.writeCkpt v
  else if 0x400 ≤ n && n < 0x420 then
    if fw then s.setWord n (mergeWord (s.word n) v (if n % 2 = 0 then bitRange 51 16 ||| bitRange 2 0 else bitRange 51 16) 0#64)
    else s
  else if 0x800 ≤ n && n < 0x880 then s.writeIsland (n - 0x800) v
  else if 0x1000 ≤ n && n < 0x1100 then s.writeQueueWord ((n - 0x1000) / 4) (n % 4) v
  else if 0x2000 ≤ n && n < 0x2100 then s.writeArmed ((n - 0x2000) / 4) (n % 4) v
  else if 0x3000 ≤ n && n < 0x3400 then s.writeCircuit (n - 0x3000) v
  else if 0xC000 ≤ n && n < 0xC000 + 9 * 0x400 then s.writeDieWord fw ((n - 0xC000) / 0x400) ((n - 0xC000) % 0x400) v
  else s

/-- A write from outside the lanes (R265, R277). While the package is in recovery mode only the mailbox answers the host
(R281). -/
def State.writeOutside (s : State) (fw : Bool) (sp : Space) (die n : Nat) (v : Word64) : Option State :=
  match sp with
  | .special => none
  | .die =>
    if 9 ≤ die || (s.readDieWord die n).isNone then none
    else some (if s.recovery && !fw then s else s.writeDieWord fw die n v)
  | .package =>
    if (s.readPackageWord n).isNone && !isMailbox n then none
    else some (if s.recovery && !fw && !isMailbox n then s else s.writePackageWord fw n v)

/-! ### Special registers (R376) -/

/-- %claimq (R65). -/
def State.claimq (s : State) (d c lane : Nat) : Nat :=
  let k := s.core d c
  (Tbl.get k.claims lane []).length % 2 ^ 16 * 2 ^ 16 + k.poolFree lane / 8 % 2 ^ 16

/-- A special register in a thread; none for a number that is not assigned. -/
def State.special (s : State) (c : Ctx) (i n : Nat) : Option Nat :=
  match n with
  | 0x00 => some (c.ref.warp * 32 + i)
  | 0x01 => some c.ref.warp
  | 0x02 => some c.warp.lane
  | 0x03 => some c.team.num
  | 0x04 => some c.team.threads
  | 0x05 => some c.launch.teams
  | 0x06 => some (if c.team.convoy.isSome then c.team.slot else 2 ^ 32 - 1)
  | 0x07 => some c.warp.role
  | 0x08 => some c.team.core
  | 0x09 => some c.team.die
  | 0x0A => some (s.core c.team.die c.team.core).cyc.toNat
  | 0x0B => some c.warp.alloc
  | 0x0C => some (s.claimq c.team.die c.team.core c.warp.lane)
  | 0x0D => some stepCode.toNat
  | 0x10 => some (c.th i).fctl.toNat
  | 0x11 => some (c.th i).fstat.toNat
  | 0x18 => some c.warp.tcause.toNat
  | 0x19 => some c.warp.tinfo.toNat
  | 0x1A => some c.warp.tepc.toNat
  | 0x1B => some c.warp.tmask.toNat
  | _ => none

/-- The die that a reference names: 0xF the issuing one, none for 9 to 14 (R375). -/
def WordRef.dieOf (w : WordRef) (here : Nat) : Option Nat :=
  if w.die = 15#4 then some here else if w.die.toNat < 9 then some w.die.toNat else none

/-- What SRD reads in a thread (R375 to R377). -/
def State.readRef (s : State) (c : Ctx) (w : WordRef) (i : Nat) : Option Nat :=
  match w.space with
  | .special => s.special c i w.num.toNat
  | .die => ((WordRef.dieOf w c.team.die).bind (fun d => s.readDieWord d w.num.toNat)).map BitVec.toNat
  | .package => (s.readPackageWord w.num.toNat).map BitVec.toNat

/-- An earlier drain of a thread has flags still to raise (R114, R146). Every other instruction's flags are raised as it issues, or with
its leaf blocked. -/
def State.flagsPending (s : State) (c : Ctx) (i : Nat) : Bool :=
  (s.core c.team.die c.team.core).insts.any (fun x => x.team == c.ref.team
    && (match x.op with | .mdrn _ _ _ _ _ => true | _ => false)
    && x.parts.any (fun p => p.warp == c.ref.warp && p.mask.getLsbD i))

/-- An SRD or SWR of %fstat waits: some thread of it has flags to come (R114). -/
def State.fstatWaits (s : State) (c : Ctx) (w : WordRef) : Bool :=
  w.space == .special && w.num.toNat == 0x11 && c.on.any (s.flagsPending c)

/-- SRD (R375 to R378). -/
def execSrd (g : Guard) (d : Opnd) (w : WordRef) (s : State) : Host.Outcome State Fault Refusal :=
  let pd := Pos.dst d d.src3264
  s.issue 12 g [pd] (fun c u =>
    if u.fstatWaits c w then .unready
    else if (u.readRef c w c.low).isNone then .trap (mkTrap cILLOPND 0)
    else c.compute u (c.runs (some pd)) (some pd) 0 [] (fun i => .ofVal ((u.readRef c w i).getD 0 % 2 ^ d.bits)))

/-- The bits of %fctl that are not reserved (R113). -/
def fctlBits : Word := 0x1F07#32

/-- An SWR of one thread (R376, R377); none where it takes ILLOPND. -/
def State.writeRef (s : State) (c : Ctx) (w : WordRef) (i v : Nat) : Option State :=
  let x := BitVec.ofNat 32 v
  let r := c.ref
  match w.space with
  | .special =>
    match w.num.toNat with
    | 0x10 => some (s.updThread r.team r.warp i (fun th => { th with fctl := x &&& fctlBits }))
    | 0x11 => some (s.updThread r.team r.warp i (fun th => { th with fstat := x &&& 0x1F#32 }))
    | 0x1A => if c.warp.handler.isSome then some (s.updWarp r.team r.warp (fun y => { y with tepc := x })) else none
    | _ => none
  | .die =>
    match WordRef.dieOf w c.team.die with
    | some d =>
      if c.warp.handler.isNone || (s.readDieWord d w.num.toNat).isNone then none
      else some (s.writeDieWord false d w.num.toNat (BitVec.ofNat 64 v))
    | none => none
  | .package =>
    if c.warp.handler.isNone || ((s.readPackageWord w.num.toNat).isNone && !isMailbox w.num.toNat) then none
    else some (s.writePackageWord false w.num.toNat (BitVec.ofNat 64 v))

/-- SWR (R375 to R378): each guarded thread writes in turn. -/
def execSwr (g : Guard) (a : Opnd) (w : WordRef) (s : State) : Host.Outcome State Fault Refusal :=
  let pa := Pos.src 1 a (match a with | .imm _ => false | x => x.src3264)
  s.issue 12 g [pa] (fun c u =>
    if u.fstatWaits c w then .unready
    else
    match c.on.foldlM (fun u i => u.writeRef c w i (c.raw i pa)) u with
    | some u => .next u
    | none => .trap (mkTrap cILLOPND 0))

/-! ### Events -/

/-- REGISTER_WRITE (R5, R377): the host writes a word under its Access column. -/
def execRegisterWrite (sp : Space) (die num : Nat) (v : Word64) (s : State) : Host.Outcome State Fault Refusal :=
  match s.writeOutside false sp die num v with
  | some s => .next s
  | none => s.noEvent

/-- IGTAHILD_WORLD_WRITE (R209, R265, R266): the controller writes a word that only it writes. -/
def execIgtahildWorldWrite (sp : Space) (die num : Nat) (v : Word64) (s : State) : Host.Outcome State Fault Refusal :=
  let own := match sp with
    | .die => fwDieWord num
    | .package => (0x400 ≤ num && num < 0x420)
        || (0xC000 ≤ num && num < 0xC000 + 9 * 0x400 && fwDieWord ((num - 0xC000) % 0x400))
    | .special => false
  if !own then s.noEvent
  else
    match s.writeOutside true sp die num v with
    | some s => .next s
    | none => s.noEvent

/-- SERVICE_RING_ENABLE (R257): the driver writes a configuration word with EN set. -/
def execServiceRingEnable (die ring : Nat) (v : Word64) (s : State) : Host.Outcome State Fault Refusal :=
  if die < 9 && ring < 5 then s.hostWrote (s.writeRingConfig die ring (v ||| 1#64))
  else s.noEvent

/-- SERVICE_RING_POINTER_WRITE (R257): the driver writes a pointer word. -/
def execServiceRingPointerWrite (die ring : Nat) (v : Word64) (s : State) : Host.Outcome State Fault Refusal :=
  if die < 9 && ring < 5 then s.hostWrote (s.writeRingPtr die ring v)
  else s.noEvent

end Sys2Proof.Machine
end

