-- ==== Sys2Proof/Machine/Dispatch.lean ====
section
/-! DEFINITION. The dispatch: one arm for each constructor of Instr, each a direct call of its meaning. -/

namespace Sys2Proof.Machine

def exec (i : Instr) (s : State) : Host.Outcome State Fault Refusal :=
  match i with
  | .iadd g t sat d a b => Sys2Proof.Machine.execIadd g t sat d a b s
  | .iaddX g t sat d a b x => Sys2Proof.Machine.execIaddX g t sat d a b x s
  | .iaddI g t sat d a imm => Sys2Proof.Machine.execIaddI g t sat d a imm s
  | .isub g t sat d a b => Sys2Proof.Machine.execIsub g t sat d a b s
  | .isubX g t sat d a b x => Sys2Proof.Machine.execIsubX g t sat d a b x s
  | .imul g t m d a b => Sys2Proof.Machine.execImul g t m d a b s
  | .imulX g t m d a b x => Sys2Proof.Machine.execImulX g t m d a b x s
  | .imulI g t m d a imm => Sys2Proof.Machine.execImulI g t m d a imm s
  | .idiv g t sat rem d a b => Sys2Proof.Machine.execIdiv g t sat rem d a b s
  | .imin g t sat d a b => Sys2Proof.Machine.execImin g t sat d a b s
  | .iminX g t sat d a b x => Sys2Proof.Machine.execIminX g t sat d a b x s
  | .imax g t sat d a b => Sys2Proof.Machine.execImax g t sat d a b s
  | .imaxX g t sat d a b x => Sys2Proof.Machine.execImaxX g t sat d a b x s
  | .iabs g t sat d a => Sys2Proof.Machine.execIabs g t sat d a s
  | .imad g t sat d a b c x => Sys2Proof.Machine.execImad g t sat d a b c x s
  | .iset g t op p a b => Sys2Proof.Machine.execIset g t op p a b s
  | .isetI g t op p a imm => Sys2Proof.Machine.execIsetI g t op p a imm s
  | .and g t d a b => Sys2Proof.Machine.execAnd g t d a b s
  | .andX g t d a b x => Sys2Proof.Machine.execAndX g t d a b x s
  | .andI g t d a imm => Sys2Proof.Machine.execAndI g t d a imm s
  | .andn g t d a b => Sys2Proof.Machine.execAndn g t d a b s
  | .or g t d a b => Sys2Proof.Machine.execOr g t d a b s
  | .orX g t d a b x => Sys2Proof.Machine.execOrX g t d a b x s
  | .orI g t d a imm => Sys2Proof.Machine.execOrI g t d a imm s
  | .xor g t d a b => Sys2Proof.Machine.execXor g t d a b s
  | .xorX g t d a b x => Sys2Proof.Machine.execXorX g t d a b x s
  | .xorI g t d a imm => Sys2Proof.Machine.execXorI g t d a imm s
  | .shl g t d a b => Sys2Proof.Machine.execShl g t d a b s
  | .shr g t d a b => Sys2Proof.Machine.execShr g t d a b s
  | .sha g t d a b => Sys2Proof.Machine.execSha g t d a b s
  | .rot g t d a b => Sys2Proof.Machine.execRot g t d a b s
  | .popc g t d a => Sys2Proof.Machine.execPopc g t d a s
  | .clz g t d a => Sys2Proof.Machine.execClz g t d a s
  | .brev g t d a => Sys2Proof.Machine.execBrev g t d a s
  | .bfx g t d a b => Sys2Proof.Machine.execBfx g t d a b s
  | .bfi g t d a b c x => Sys2Proof.Machine.execBfi g t d a b c x s
  | .mov g t sat d a => Sys2Proof.Machine.execMov g t sat d a s
  | .movX g t sat d a x => Sys2Proof.Machine.execMovX g t sat d a x s
  | .movi g t sat d imm => Sys2Proof.Machine.execMovi g t sat d imm s
  | .movxRead g j d => Sys2Proof.Machine.execMovxRead g j d s
  | .movxWrite g j a => Sys2Proof.Machine.execMovxWrite g j a s
  | .shfl g t op d a b => Sys2Proof.Machine.execShfl g t op d a b s
  | .vote g op p q => Sys2Proof.Machine.execVote g op p q s
  | .ballot g d q => Sys2Proof.Machine.execBallot g d q s
  | .redw g t op d a => Sys2Proof.Machine.execRedw g t op d a s
  | .sel g t q d a b => Sys2Proof.Machine.execSel g t q d a b s
  | .selX g t q d a b x => Sys2Proof.Machine.execSelX g t q d a b x s
  | .fadd g t m d a b => Sys2Proof.Machine.execFadd g t m d a b s
  | .faddX g t m d a b x => Sys2Proof.Machine.execFaddX g t m d a b x s
  | .faddI g t m d a imm => Sys2Proof.Machine.execFaddI g t m d a imm s
  | .fsub g t m d a b => Sys2Proof.Machine.execFsub g t m d a b s
  | .fsubX g t m d a b x => Sys2Proof.Machine.execFsubX g t m d a b x s
  | .fmul g t m d a b => Sys2Proof.Machine.execFmul g t m d a b s
  | .fmulX g t m d a b x => Sys2Proof.Machine.execFmulX g t m d a b x s
  | .fmulI g t m d a imm => Sys2Proof.Machine.execFmulI g t m d a imm s
  | .ffma g t m d a b c x => Sys2Proof.Machine.execFfma g t m d a b c x s
  | .fmin g t fl d a b => Sys2Proof.Machine.execFmin g t fl d a b s
  | .fminX g t fl d a b x => Sys2Proof.Machine.execFminX g t fl d a b x s
  | .fmax g t fl d a b => Sys2Proof.Machine.execFmax g t fl d a b s
  | .fmaxX g t fl d a b x => Sys2Proof.Machine.execFmaxX g t fl d a b x s
  | .frcp g la t m d a => Sys2Proof.Machine.execFrcp g la t m d a s
  | .frsq g la t m d a => Sys2Proof.Machine.execFrsq g la t m d a s
  | .fsfn g la t op fl d a => Sys2Proof.Machine.execFsfn g la t op fl d a s
  | .fset g t op ftz p a b => Sys2Proof.Machine.execFset g t op ftz p a b s
  | .fsetX g t op ftz p a b x => Sys2Proof.Machine.execFsetX g t op ftz p a b x s
  | .fsetI g t op ftz p a imm => Sys2Proof.Machine.execFsetI g t op ftz p a imm s
  | .fcls g t d a => Sys2Proof.Machine.execFcls g t d a s
  | .frnd g t m d a => Sys2Proof.Machine.execFrnd g t m d a s
  | .fcvt g dest frm m sat d a => Sys2Proof.Machine.execFcvt g dest frm m sat d a s
  | .fcvtX g dest frm m sat d a x => Sys2Proof.Machine.execFcvtX g dest frm m sat d a x s
  | .cvti g dest frm sat d a => Sys2Proof.Machine.execCvti g dest frm sat d a s
  | .cvtiX g dest frm sat d a x => Sys2Proof.Machine.execCvtiX g dest frm sat d a x s
  | .pack g t md d a b => Sys2Proof.Machine.execPack g t md d a b s
  | .packX g t md d a b x => Sys2Proof.Machine.execPackX g t md d a b x s
  | .unpk g t hi d a => Sys2Proof.Machine.execUnpk g t hi d a s
  | .unpkX g t hi d a x => Sys2Proof.Machine.execUnpkX g t hi d a x s
  | .ld g la t d c o => Sys2Proof.Machine.execLd g la t d c o s
  | .ldI g la t d c imm => Sys2Proof.Machine.execLdI g la t d c imm s
  | .st g la t c o a => Sys2Proof.Machine.execSt g la t c o a s
  | .stI g la t c a imm => Sys2Proof.Machine.execStI g la t c a imm s
  | .lds g la t d o => Sys2Proof.Machine.execLds g la t d o s
  | .ldsI g la t d imm => Sys2Proof.Machine.execLdsI g la t d imm s
  | .sts g la t o a => Sys2Proof.Machine.execSts g la t o a s
  | .stsI g la t a imm => Sys2Proof.Machine.execStsI g la t a imm s
  | .pref g la l2 c o => Sys2Proof.Machine.execPref g la l2 c o s
  | .atom g la t op d c o a x => Sys2Proof.Machine.execAtom g la t op d c o a x s
  | .cas g la t d c o b => Sys2Proof.Machine.execCas g la t d c o b s
  | .red g la t op c o a x => Sys2Proof.Machine.execRed g la t op c o a x s
  | .capn g mask d c a b => Sys2Proof.Machine.execCapn g mask d c a b s
  | .capq g op d c => Sys2Proof.Machine.execCapq g op d c s
  | .caps g d c a => Sys2Proof.Machine.execCaps g d c a s
  | .give k => Sys2Proof.Machine.execGive k s
  | .claim k => Sys2Proof.Machine.execClaim k s
  | .rgn s0 s1 s2 s3 => Sys2Proof.Machine.execRgn s0 s1 s2 s3 s
  | .srd g d w => Sys2Proof.Machine.execSrd g d w s
  | .swr g a w => Sys2Proof.Machine.execSwr g a w s
  | .bra g target join => Sys2Proof.Machine.execBra g target join s
  | .brx g a join => Sys2Proof.Machine.execBrx g a join s
  | .call g d target => Sys2Proof.Machine.execCall g d target s
  | .ret g a => Sys2Proof.Machine.execRet g a s
  | .exit g => Sys2Proof.Machine.execExit g s
  | .nop g => Sys2Proof.Machine.execNop g s
  | .nopLong g => Sys2Proof.Machine.execNopLong g s
  | .yield g => Sys2Proof.Machine.execYield g s
  | .plop g tt p q q2 => Sys2Proof.Machine.execPlop g tt p q q2 s
  | .fence g kind sc => Sys2Proof.Machine.execFence g kind sc s
  | .acq g sc a => Sys2Proof.Machine.execAcq g sc a s
  | .rel g sc a => Sys2Proof.Machine.execRel g sc a s
  | .bind g c a => Sys2Proof.Machine.execBind g c a s
  | .unbind g c => Sys2Proof.Machine.execUnbind g c s
  | .waitc g t op c o a x => Sys2Proof.Machine.execWaitc g t op c o a x s
  | .rvinit g n a => Sys2Proof.Machine.execRvinit g n a s
  | .rvarr g n => Sys2Proof.Machine.execRvarr g n s
  | .rvexp g n a => Sys2Proof.Machine.execRvexp g n a s
  | .rvwaitPlain g n => Sys2Proof.Machine.execRvwaitPlain g n s
  | .rvwaitTimed g n a p x => Sys2Proof.Machine.execRvwaitTimed g n a p x s
  | .rvinv g n => Sys2Proof.Machine.execRvinv g n s
  | .rinit g o n z => Sys2Proof.Machine.execRinit g o n z s
  | .rwait g d o => Sys2Proof.Machine.execRwait g d o s
  | .rrel g o => Sys2Proof.Machine.execRrel g o s
  | .cpwait g k => Sys2Proof.Machine.execCpwait g k s
  | .copy g la dir dest frm o lenm pt nwm soff => Sys2Proof.Machine.execCopy g la dir dest frm o lenm pt nwm soff s
  | .copym g la sk dest frm o lenm pt mask => Sys2Proof.Machine.execCopym g la sk dest frm o lenm pt mask s
  | .task g c o => Sys2Proof.Machine.execTask g c o s
  | .krel g a => Sys2Proof.Machine.execKrel g a s
  | .qpush g q c => Sys2Proof.Machine.execQpush g q c s
  | .qpop g c q => Sys2Proof.Machine.execQpop g c q s
  | .lnch g d c a rec => Sys2Proof.Machine.execLnch g d c a rec s
  | .cncl g a => Sys2Proof.Machine.execCncl g a s
  | .cwait g d a => Sys2Proof.Machine.execCwait g d a s
  | .mma g la t a ks u => Sys2Proof.Machine.execMma g la t a ks u s
  | .mspa g la t pat m a ks u => Sys2Proof.Machine.execMspa g la t pat m a ks u s
  | .mloop g la t n a ks u => Sys2Proof.Machine.execMloop g la t n a ks u s
  | .mldb g la t sk frm o boff lenu pt => Sys2Proof.Machine.execMldb g la t sk frm o boff lenu pt s
  | .mlds g la sk rec frm o base pt => Sys2Proof.Machine.execMlds g la sk rec frm o base pt s
  | .mdrn g la op vd d dest o u => Sys2Proof.Machine.execMdrn g la op vd d dest o u s
  | .mzro g la t tile v => Sys2Proof.Machine.execMzro g la t tile v s
  | .tokp g a => Sys2Proof.Machine.execTokp g a s
  | .tokw g => Sys2Proof.Machine.execTokw g s
  | .vdset g la op thr kb u => Sys2Proof.Machine.execVdset g la op thr kb u s
  | .vdot g la t m d a b c x => Sys2Proof.Machine.execVdot g la t m d a b c x s
  | .vthr g la tile a => Sys2Proof.Machine.execVthr g la tile a s
  | .topk g la op d tile e => Sys2Proof.Machine.execTopk g la op d tile e s
  | .trap g k => Sys2Proof.Machine.execTrap g k s
  | .bkpt g => Sys2Proof.Machine.execBkpt g s
  | .sysc g k => Sys2Proof.Machine.execSysc g k s
  | .eret => Sys2Proof.Machine.execEret s
  | .iflush g c a => Sys2Proof.Machine.execIflush g c a s
  | .unassignedOpcode w => Sys2Proof.Machine.execUnassignedOpcode w s
  | .escalationRecordPost die => Sys2Proof.Machine.execEscalationRecordPost die s
  | .erespResume die num => Sys2Proof.Machine.execErespResume die num s
  | .erespCancel die num => Sys2Proof.Machine.execErespCancel die num s
  | .faultRecordPost die => Sys2Proof.Machine.execFaultRecordPost die s
  | .frespServiced die num => Sys2Proof.Machine.execFrespServiced die num s
  | .frespUnrecoverable die num => Sys2Proof.Machine.execFrespUnrecoverable die num s
  | .asyncTrapTake team warp => Sys2Proof.Machine.execAsyncTrapTake team warp s
  | .eccUncorrectable team warp va => Sys2Proof.Machine.execEccUncorrectable team warp va s
  | .eccCorrected die => Sys2Proof.Machine.execEccCorrected die s
  | .linkFlitCheckFail link team warp => Sys2Proof.Machine.execLinkFlitCheckFail link team warp s
  | .teamAdmit die => Sys2Proof.Machine.execTeamAdmit die s
  | .teamRetire team => Sys2Proof.Machine.execTeamRetire team s
  | .teamSwap team => Sys2Proof.Machine.execTeamSwap team s
  | .teamSave team => Sys2Proof.Machine.execTeamSave team s
  | .teamResume die team => Sys2Proof.Machine.execTeamResume die team s
  | .keyHolderDeferExpiry team => Sys2Proof.Machine.execKeyHolderDeferExpiry team s
  | .splitFill die core lane => Sys2Proof.Machine.execSplitFill die core lane s
  | .heldSplitRelease r => Sys2Proof.Machine.execHeldSplitRelease r s
  | .passPromotion r => Sys2Proof.Machine.execPassPromotion r s
  | .claimdlReport die core => Sys2Proof.Machine.execClaimdlReport die core s
  | .rvwaitExpiry r => Sys2Proof.Machine.execRvwaitExpiry r s
  | .convoyNoticeArrival convoy point => Sys2Proof.Machine.execConvoyNoticeArrival convoy point s
  | .copyBytesLand xfer slice off len => Sys2Proof.Machine.execCopyBytesLand xfer slice off len s
  | .ringSlotReserve xfer => Sys2Proof.Machine.execRingSlotReserve xfer s
  | .multicastBufferDrain die team => Sys2Proof.Machine.execMulticastBufferDrain die team s
  | .messageAck msg => Sys2Proof.Machine.execMessageAck msg s
  | .messageArrival m => Sys2Proof.Machine.execMessageArrival m s
  | .armedEntryEnable e v => Sys2Proof.Machine.execArmedEntryEnable e v s
  | .entryComplete idx => Sys2Proof.Machine.execEntryComplete idx s
  | .graphCopyNodeComplete idx node => Sys2Proof.Machine.execGraphCopyNodeComplete idx node s
  | .launchQueueDoorbell n v => Sys2Proof.Machine.execLaunchQueueDoorbell n v s
  | .launchQueueEnable n v => Sys2Proof.Machine.execLaunchQueueEnable n v s
  | .jobStart n => Sys2Proof.Machine.execJobStart n s
  | .keyRequestArrival die task => Sys2Proof.Machine.execKeyRequestArrival die task s
  | .keyGrantArrival die task => Sys2Proof.Machine.execKeyGrantArrival die task s
  | .renameStorageTake die task => Sys2Proof.Machine.execRenameStorageTake die task s
  | .copybackStart die task tile => Sys2Proof.Machine.execCopybackStart die task tile s
  | .copybackComplete die task tile => Sys2Proof.Machine.execCopybackComplete die task tile s
  | .queueRefillLand q => Sys2Proof.Machine.execQueueRefillLand q s
  | .quayWindowClose die core entry => Sys2Proof.Machine.execQuayWindowClose die core entry s
  | .loadLineReturn die core entry => Sys2Proof.Machine.execLoadLineReturn die core entry s
  | .gatherLine die core => Sys2Proof.Machine.execGatherLine die core s
  | .memoryWritePerform w => Sys2Proof.Machine.execMemoryWritePerform w s
  | .atomPerform team warp op => Sys2Proof.Machine.execAtomPerform team warp op s
  | .atomReturn team warp op => Sys2Proof.Machine.execAtomReturn team warp op s
  | .redPerform op => Sys2Proof.Machine.execRedPerform op s
  | .pageWalk die => Sys2Proof.Machine.execPageWalk die s
  | .instanceStart die core inst => Sys2Proof.Machine.execInstanceStart die core inst s
  | .instanceComplete die core inst => Sys2Proof.Machine.execInstanceComplete die core inst s
  | .mloopStepStart die core => Sys2Proof.Machine.execMloopStepStart die core s
  | .shootdownStart v => Sys2Proof.Machine.execShootdownStart v s
  | .shootdownComplete => Sys2Proof.Machine.execShootdownComplete s
  | .migrationStart die page => Sys2Proof.Machine.execMigrationStart die page s
  | .migrationComplete die page => Sys2Proof.Machine.execMigrationComplete die page s
  | .serviceRingEnable die ring v => Sys2Proof.Machine.execServiceRingEnable die ring v s
  | .serviceRingPointerWrite die ring v => Sys2Proof.Machine.execServiceRingPointerWrite die ring v s
  | .circuitSetup c v => Sys2Proof.Machine.execCircuitSetup c v s
  | .circuitActive c => Sys2Proof.Machine.execCircuitActive c s
  | .circuitTeardown c => Sys2Proof.Machine.execCircuitTeardown c s
  | .circuitInactive c => Sys2Proof.Machine.execCircuitInactive c s
  | .pkgidWrite v => Sys2Proof.Machine.execPkgidWrite v s
  | .tiercfgWrite v => Sys2Proof.Machine.execTiercfgWrite v s
  | .cxlPortTrained port capacity persistent => Sys2Proof.Machine.execCxlPortTrained port capacity persistent s
  | .hostApertureAccess off write len => Sys2Proof.Machine.execHostApertureAccess off write len s
  | .ceilingWrite v => Sys2Proof.Machine.execCeilingWrite v s
  | .limiterStep avg projected => Sys2Proof.Machine.execLimiterStep avg projected s
  | .limiterRaise => Sys2Proof.Machine.execLimiterRaise s
  | .islandRequestWrite island v => Sys2Proof.Machine.execIslandRequestWrite island v s
  | .islandTransitionDone island => Sys2Proof.Machine.execIslandTransitionDone island s
  | .diePark die => Sys2Proof.Machine.execDiePark die s
  | .dieUnpark die => Sys2Proof.Machine.execDieUnpark die s
  | .dieDrainEnd die => Sys2Proof.Machine.execDieDrainEnd die s
  | .dieUnparkDone die => Sys2Proof.Machine.execDieUnparkDone die s
  | .microcodeUpdate die version ecdsa lms => Sys2Proof.Machine.execMicrocodeUpdate die version ecdsa lms s
  | .checkpointStart => Sys2Proof.Machine.execCheckpointStart s
  | .checkpointDone => Sys2Proof.Machine.execCheckpointDone s
  | .restoreStart => Sys2Proof.Machine.execRestoreStart s
  | .restoreDone => Sys2Proof.Machine.execRestoreDone s
  | .coldReset ecdsa lms current => Sys2Proof.Machine.execColdReset ecdsa lms current s
  | .attestationRequest nonce => Sys2Proof.Machine.execAttestationRequest nonce s
  | .registerWrite sp die num v => Sys2Proof.Machine.execRegisterWrite sp die num v s
  | .igtahildWorldWrite sp die num v => Sys2Proof.Machine.execIgtahildWorldWrite sp die num v s
  | .folioLoad f => Sys2Proof.Machine.execFolioLoad f s
  | .folioUnload num => Sys2Proof.Machine.execFolioUnload num s
  | .linkRetrainDone link => Sys2Proof.Machine.execLinkRetrainDone link s

end Sys2Proof.Machine
end

