-- ==== Sys2Proof/Machine/Fetch.lean ====
section
/-! DEFINITION. The lane's sequencer and the fetch: which leaves may be chosen and in what order, the choice, the bytes of the
next instruction, what a refused fetch does, and the cycles of a core (spec/01 R16, R17, spec/02 R36, R37, R45, spec/04 R66, R67, spec/13 R264,
spec/18 R313). -/

namespace Sys2Proof.Machine

/-! ### The choice (R36, R37, R253, R390) -/

/-- A leaf that the sequencer may choose if the scoreboard lets it issue. -/
structure Candidate where
  ref : LeafRef
  cls : Nat
  yielded : Bool
  since : Nat
  tid : Nat
  deriving DecidableEq, Repr

/-- Candidate a ranks before b: the higher class; in it those that did not yield; the older warp; the lower %tid. -/
def Candidate.before (a b : Candidate) : Bool :=
  if a.cls != b.cls then b.cls < a.cls
  else if a.yielded != b.yielded then b.yielded
  else if a.since != b.since then a.since < b.since
  else a.tid ≤ b.tid

/-- A leaf that is not blocked, is in the table, and is not held by its warp's handler. -/
def Warp.offers (w : Warp) (e : Entry) : Bool := e.ready && !e.spilled && (w.handler.isNone || e.handler)

/-- The candidates of a lane, best first. A lane of a parked island has none (R285), nor has a team that stops for its save
(R262). -/
def State.candidates (s : State) (d c lane : Nat) : List Candidate :=
  if bitsOf (s.word (0x800 + 14 * d + c / 2)).toNat 15 13 = 7 then []
  else
    let ws := (s.laneWarps d c lane).filter (fun w =>
      match s.team? w.team with | some t => !t.stopping | none => false)
    sortBy Candidate.before (ws.flatMap (fun w =>
      (w.entries.filter w.offers).map (fun e =>
        ⟨⟨w.team, w.index, e.id⟩, s.leafClass w.team e, e.yielded, w.since, w.index * 32 + e.lowest⟩)))

/-- Leaves of a lane that lost 256 choices are promoted (R37). -/
def State.promoteLane (s : State) (d c lane : Nat) : State :=
  (s.candidates d c lane).foldl (fun s k => s.promote k.ref) s

/-- What a choice does to the ready leaves that lost it: they pass once more (R37). -/
def State.lost (s : State) (refs : List LeafRef) : State :=
  refs.foldl (fun s r => s.updEntry r (fun e => { e with passes := e.passes + 1 })) s

/-- A rank lost by YIELD lasts for one choice of the lane, whether or not its leaf was ready at it (R390). -/
def State.endYields (s : State) (refs : List LeafRef) : State :=
  refs.foldl (fun s r => s.updEntry r (fun e => { e with yielded := false })) s

/-- Leaves found blocked at their issue are marked so (R34, R36). -/
def State.markBusy (s : State) (refs : List (LeafRef × Wait)) : State :=
  refs.foldl (fun s r => s.updEntry r.1 (fun e => if e.wait == .none || e.wait == .busy then { e with wait := r.2 } else e)) s

/-- A leaf may still wait for a result in its lane's pipeline of depth 6: counting the beats that its own m threads and one of
each leaf issued since have taken, fewer than 6 have passed since it, or the leaf it split from, issued (R17, log 12). -/
def State.inPipe (s : State) (d c lane : Nat) (r : LeafRef) : Bool :=
  match (s.warp? r.team r.warp).bind (fun w => w.entry? r.leaf) with
  | some e =>
    ((Tbl.get (s.core d c).pipe lane []).zipIdx).any (fun q =>
      q.1.team == r.team && q.1.warp == r.warp && (q.1.leaf == r.leaf || e.parent == some q.1.leaf)
        && q.2 + (maskThreads e.mask).length < 6)
  | none => false

/-- A lane has issued for a leaf: the leaf is the latest in its pipeline, and nothing stands in the lane (R16, R17). -/
def State.issuedOn (s : State) (d c lane : Nat) (r : LeafRef) : State :=
  s.updCore d c (fun k => { k with
    pipe := Tbl.put lane ((r :: Tbl.get k.pipe lane []).take 5) k.pipe
    holder := Tbl.del lane k.holder })

/-! ### The fetch (R66, R67, R264, R313) -/

/-- The base of the code quire that a warp runs: its team's image, the runtime folio's in handler mode (R313). -/
def State.codeBase (s : State) (t : Team) (w : Warp) : Nat :=
  let f := if w.handler.isSome then ((Tbl.look t.launch s.launches).map Launch.rfolio).getD 0 else t.folio
  ((Tbl.look f s.folios).map Folio.codeVA).getD 0

/-- A byte of a block that the core fetched before and memory has changed since: old or new (R264). -/
def mixByte (n addr : Nat) (old new : Byte) : Byte := if old = new then new else if Config.fetchNew n addr then new else old

/-- The 32-byte block of a physical address as a core's fetch returns it, kept as fetched (R264, log 28). -/
def State.fetchBlock (s : State) (d c pa : Nat) : List Byte × State :=
  let n := pa / 32
  let new := s.physRead (32 * n) 32
  let got := match Tbl.look n (s.core d c).blocks with
    | some old => ((old.zip new).zipIdx).map (fun p => mixByte s.fresh (32 * n + p.2) p.1.1 p.1.2)
    | none => new
  (got, s.updCore d c (fun k => { k with blocks := Tbl.put n got k.blocks }))

/-- What a fetch gives: an instruction and the state that fetched it, or the state in which the leaf trapped or waits. -/
inductive Fetched where
  | instr (i : Instr) (s : State)
  | stop (s : State)

/-- The address of a leaf's next instruction. -/
def State.fetchVA (s : State) (t : Team) (w : Warp) (e : Entry) : Nat := (s.codeBase t w + e.pc.toNat) % 2 ^ 56

/-- What the bytes from an offset of a block hold: FETCHALIGN where the instruction would cross the block (R67), else the
instruction (R66). -/
def blockInstr (block : List Byte) (off : Nat) : Option Instr :=
  let bs := block.drop off
  match lenBytes ((wordOfBytes (bs.take 16)).extractLsb' 0 2) with
  | some n => if 32 < off + n then none else some (decodeBytes bs).1
  | none => some (decodeBytes bs).1

/-- A leaf's fetch: FETCHALIGN with the code address (R67); translation with X (R313), whose miss waits for a walk and whose
fault goes to the driver; the instruction. -/
def State.fetch (s : State) (r : LeafRef) : Fetched :=
  match s.team? r.team, s.warp? r.team r.warp with
  | some t, some w =>
    match w.entry? r.leaf with
    | none => .stop s
    | some e =>
      if e.pc.toNat % 4 != 0 then .stop (s.deliver r (mkTrap cFETCHALIGN e.pc.toNat))
      else
        let x := Tbl.get s.launches t.launch Launch.none
        let va := s.fetchVA t w e
        match s.xlate t.die t.core x.asid va ⟨false, false, true⟩ x.secure with
        | .miss =>
          .stop ((s.updDie t.die (fun d => { d with walkq := d.walkq ++ [⟨t.core, x.asid, va, false, some r, 0⟩] })).updEntry r
            (fun e => { e with wait := .walk }))
        | .fault i => .stop (s.blockFault r i 0)
        | .world => .stop (s.deliver r (mkTrap cWORLD 0))
        | .ok p =>
          let (block, u) := s.fetchBlock t.die t.core p.pa
          match blockInstr block (va % 32) with
          | none => .stop (u.deliver r (mkTrap cFETCHALIGN e.pc.toNat))
          | some i => .instr i u
  | _, _ => .stop s

/-! ### The lane's choice (R16, R17, R36, R37) -/

/-- What a leaf does at a choice: the scoreboard or the pipeline holds it; it is blocked at its issue; it is taken and its lane
stands with it; it is taken and acts. -/
inductive Tried where
  | unready
  | blocked (w : Wait)
  | stands
  | acts (o : Host.Outcome State Fault Refusal)

/-- The leaf is taken. -/
def Tried.takes : Tried → Bool
  | .stands | .acts _ => true
  | _ => false

/-- The leaf's next instruction fetched and issued under `run`. -/
def State.tryIssue (run : Instr → State → Host.Outcome State Fault Refusal) (s : State) (r : LeafRef) : Tried :=
  match s.fetch r with
  | .stop t => .acts (.next t)
  | .instr i t =>
    match run i { t with issuer := some r } with
    | .next u =>
      match u.held with
      | .no => .acts (.next { u with issuer := none })
      | .scoreboard => .unready
      | .blocked w => .blocked w
      | .lane => .stands
    | x => .acts x

/-- The boundary of one leaf: a posted trap of its warp is taken (R252), else its next instruction issues. -/
def State.tryLeaf (run : Instr → State → Host.Outcome State Fault Refusal) (s : State) (r : LeafRef) : Tried :=
  match s.asyncTake r.team r.warp with
  | some t => .acts (.next t)
  | none => s.tryIssue run r

/-- The leaves of a lane, best first, each with what it does at this choice; those in `late` that the pipeline still holds are
not ready (R17, R36). -/
def State.tried (run : Instr → State → Host.Outcome State Fault Refusal) (s : State) (d c lane : Nat) (late : List LeafRef) :
    List (LeafRef × Tried) :=
  let refs := (s.candidates d c lane).map Candidate.ref
  let s := s.endYields refs
  refs.map (fun r => (r, if late.contains r && s.inPipe d c lane r then .unready else s.tryLeaf run r))

/-- A lane's choice (R36, R37): the best candidate that is ready acts to its next boundary, or the lane stands with it; the other
ready ones lose the choice. A lane with no ready leaf does nothing. -/
def State.chooseLeaf (run : Instr → State → Host.Outcome State Fault Refusal) (s : State) (d c lane : Nat) (late : List LeafRef) :
    Host.Outcome State Fault Refusal :=
  let refs := (s.candidates d c lane).map Candidate.ref
  let all := s.tried run d c lane late
  let busy := all.filterMap (fun p => match p.2 with | .blocked w => some (p.1, w) | _ => none)
  match all.filter (fun p => p.2.takes) with
  | [] => .next (s.markBusy busy)
  | (r, .acts (.next t)) :: others => .next (((t.markBusy busy).lost (others.map Prod.fst)).issuedOn d c lane r)
  | (_, .acts o) :: _ => o
  | (r, _) :: others =>
    .next ((((s.endYields refs).markBusy busy).lost (others.map Prod.fst)).updCore d c (fun k => { k with
      holder := Tbl.put lane r k.holder }))

/-- The leaf that stands in a lane goes on as soon as it can (R16, R36); a leaf that may no longer issue leaves the lane. -/
def State.resumeLeaf (run : Instr → State → Host.Outcome State Fault Refusal) (s : State) (d c lane : Nat) (r : LeafRef) :
    Host.Outcome State Fault Refusal :=
  match s.tryIssue run r with
  | .acts (.next t) => .next (t.issuedOn d c lane r)
  | .acts o => o
  | .stands => .next s
  | _ => .next (s.updCore d c (fun k => { k with holder := Tbl.del lane k.holder }))

/-- One act of a lane: the leaf that stands in it goes on, else it chooses. -/
def State.laneAct (run : Instr → State → Host.Outcome State Fault Refusal) (s : State) (d c lane : Nat) (late : List LeafRef) :
    Host.Outcome State Fault Refusal :=
  match (Tbl.look lane (s.core d c).holder).filter (fun r => (s.candidates d c lane).any (fun k => k.ref == r)) with
  | some r => s.resumeLeaf run d c lane r
  | none => (s.promoteLane d c lane).chooseLeaf run d c lane late

/-! ### Cycles (R45, R195) -/

/-- A timed RVWAIT after n cycles of its core (R195). -/
def Wait.elapse (n : Nat) : Wait → Wait
  | .rv p q (some (left, k, m)) => .rv p q (some (left - n, k, m))
  | w => w

/-- n cycles of a core: %cyc, and the timed waits of its resident warps. -/
def State.cycles (s : State) (d c n : Nat) : State :=
  let s := s.updCore d c (fun k => { k with cyc := k.cyc + BitVec.ofNat 64 n })
  let here (w : Warp) : Bool :=
    match s.team? w.team with | some t => t.state.holds && t.die == d && t.core == c | none => false
  { s with warps := s.warps.map (fun p =>
      (p.1, if here p.2 then { p.2 with entries := p.2.entries.map (fun e => { e with wait := e.wait.elapse n }) } else p.2)) }

/-- n cycles of a core-pair island of a die; a parked one has none (R45). -/
def State.elapse (s : State) (d pair n : Nat) : State :=
  if bitsOf (s.word (0x800 + 14 * d + pair)).toNat 15 13 = 7 then s
  else (s.cycles d (2 * pair) n).cycles d (2 * pair + 1) n

/-! ### A place to fetch from -/

/-- The lane and leaf whose fetch the next agent makes, with the physical address it fetches at. -/
def State.nextFetch (s : State) : Option (Nat × Nat × Nat) :=
  match s.agenda with
  | .lane d c lane [] :: _ =>
    match (s.candidates d c lane).head? with
    | none => none
    | some k =>
      if (Tbl.look lane (s.core d c).holder).isSome then none
      else
      match s.team? k.ref.team, s.warp? k.ref.team k.ref.warp with
      | some t, some w =>
        match w.entry? k.ref.leaf with
        | some e =>
          let x := Tbl.get s.launches t.launch Launch.none
          match s.xlate d c x.asid (s.fetchVA t w e) ⟨false, false, true⟩ x.secure with
          | .ok p => if e.pc.toNat % 4 = 0 then some (d, c, p.pa) else none
          | _ => none
        | none => none
      | _, _ => none
  | _ => none

/-- The leaf of a 64 KiB page at physical address 0, readable, writable and executable (R169). -/
def placePte : Word64 := 0x73#64

/-- A state with a program placed and selected (log 29): folio 1, whose code is the page at address 0 of address space 0,
mapped and cached; a running launch of one team of one thread, resident on lane 0 of core 0 of die 0, which acts next. The
same folio is its runtime folio. -/
def State.placed (s : State) : State :=
  let e : FolioEntry := ⟨0, 64, [], 0, 1, none, 0, []⟩
  let f : Folio := ⟨⟨0#64, 9, 0, [], [e]⟩, true, false, true, none, 0, 0, 0, 0x8000, 0x8000⟩
  let x : Launch := { Launch.none with teams := 1, next := 1, dmask := 1#9, nthr := 1, folio := 1, rfolio := 1, job := noParent }
  let s : State := { s.setDieWord 0 0x200 1#64 with
    folios := Tbl.put 1 f s.folios
    launches := Tbl.put 0 x s.launches
    completions := Tbl.put 0 ⟨0#2, .running, false, noParent, 0#16, 1, false, false, 0⟩ s.completions }
  let s := s.updCore 0 0 (fun k => { k with tlb := [tlbOf 0 0 placePte 3] })
  { (s.enterTeam 0 x e 0 none none 0 0 0 1 [0] [] []).2 with agenda := [.lane 0 0 0 []] }

/-- The bytes of an instruction stored where a core fetches, its block fetched anew. -/
def State.putCode (s : State) (d c pa : Nat) (w : IWord) : State :=
  (s.physWrite pa (bytesOfWord w 16)).updCore d c (fun k => { k with blocks := Tbl.del (pa / 32) k.blocks })

end Sys2Proof.Machine
end

