-- ==== Sys2Proof/Machine/Step.lean ====
section
/-! DEFINITION. One step of the machine: the next agent of the agenda acts (log 1). -/

namespace Sys2Proof.Machine

/-- One agent acts. -/
def act (a : Agent) (s : State) : Host.Outcome State Fault Refusal :=
  match a with
  | .lane d c l late => s.laneAct exec d c l late
  | .event i choice => exec i { s with choice := choice }
  | .elapse d pair n => .next (s.elapse d pair n)

/-- One step: the first agent of the agenda acts; with none the machine stays as it is. -/
def step (s : State) : Host.Outcome State Fault Refusal :=
  match s.agenda with
  | [] => .next s
  | a :: rest => act a { s with agenda := rest }

/-- The state with an instruction stored where the next step fetches; where no fetch is next, a program is placed first
(log 29). -/
def State.withFetchWord (s : State) (nbits w : Nat) : State :=
  let word : IWord := BitVec.ofNat 128 (w % 2 ^ nbits)
  match s.nextFetch with
  | some (d, c, pa) => s.putCode d c pa word
  | none => s.placed.putCode 0 0 0 word

end Sys2Proof.Machine
end

