-- ==== Sys2Proof/Safety.lean ====
section
/-! DEFINITION. What counts as a safe run, in the terms that claims use: runs under an agenda, stops, and the invariants of
states. -/

namespace Sys2Proof.Machine

/-! ### Runs -/

/-- State t comes after some number of steps from s. -/
inductive Reaches (s : State) : State → Prop where
  | refl : Reaches s s
  | step {t u : State} : Reaches s t → Sys2Proof.Machine.step t = .next u → Reaches s u

/-- A step stops. -/
def Stops (o : Host.Outcome State Fault Refusal) : Prop := ∀ t, o ≠ .next t

/-- A run is safe: no step of it stops. -/
def Safe (s : State) : Prop := ∀ t, Reaches s t → ¬ Stops (step t)

/-! ### What claims say of one instruction -/

/-- The leaf's instruction issues without a trap (R48 to R51, R55, R79, R81, R84): the guard holds in some active thread; no
pending write holds the operands; every checked thread passes the register checks of every operand position; under the
strict attribute no operand lies in a window. -/
def Ctx.ready (s : State) (c : Ctx) (ps : List Pos) : Bool :=
  !c.on.isEmpty && !c.waits ps && !s.uniWaits c ps
    && c.on.all (fun i => ps.all (fun p =>
      !p.illopnd (c.th i) && !p.ixbound (c.th i) && !p.range c.warp.alloc (c.th i) && !(p.lanes.getLsbD i && p.invreg (c.th i))))
    && (!c.launch.strict || c.on.all (fun i => ps.all (fun p => !c.uses ps p i || (p.window? (c.th i)).isNone)))

/-- A leaf issues, under a guard, an instruction with these operand positions, and its operands pass. -/
def State.Ready (s : State) (g : Guard) (ps : List Pos) (c : Ctx) : Prop := s.ctx g = some c ∧ c.ready s ps = true

/-- The same as a test on the state alone. -/
def State.readyFor (s : State) (g : Guard) (ps : List Pos) : Bool := (s.ctx g).any (fun c => c.ready s ps)

/-- The state in which an instruction's body acts: the free values' counter has moved on, and the issuing warp's issue is noted (logs 2,
50). -/
def State.issued (s : State) : State :=
  { s with
    fresh := s.fresh + 1
    lastIssue := match s.issuer with | some r => Tbl.put (warpKey r.team r.warp) s.nextId s.lastIssue | none => s.lastIssue }

/-- The instruction has the effect t, and its leaf goes on len bytes further. -/
def Goes (i : Instr) (s : State) (c : Ctx) (len : Nat) (t : State) : Prop := exec i s = .next (t.complete c.ref len)

/-- Slice k lies among n slices from st. -/
def inSlices (st n k : Nat) : Bool := st ≤ k && k < st + n

/-- An open window whose write has landed covers slice k of a thread (R81). -/
def Thread.windowed (th : Thread) (k : Nat) : Bool := th.wins.any (fun w => w.landed && 0 < w.left && w.mask.getLsbD k)

/-- Slice k shares a byte, invalid before, with one of n slices from st (R50). -/
def Thread.halfOf (th : Thread) (st n k : Nat) : Bool := (k / 2 == st / 2 || k / 2 == (st + n - 1) / 2) && !th.valid.getLsbD (k / 2)

/-- Thread b is thread a after a write of the value v to n slices from st (R50, R57, R81): each written slice holds its digit
of v, or, inside an open window, what the window left there; the other slice of a byte that was invalid is zero; every
other slice is as it was; the written bytes are valid; the tags of the touched granules are clear. With a lookahead of la it
opens a window over the next la instructions, which holds the slices' values from before (the issue itself ends with a tick,
so that it starts at la + 1). -/
structure Slices (a b : Thread) (pc : Word) (la st n v : Nat) : Prop where
  digits : ∀ k < n, b.raw (st + k) 1 = v / 16 ^ k % 16 ∨ (a.windowed (st + k) = true ∧ b.raw (st + k) 1 = a.raw (st + k) 1)
  halves : ∀ k < 512, inSlices st n k = false → a.halfOf st n k = true → b.raw k 1 = 0
  others : ∀ k < 512, inSlices st n k = false → a.halfOf st n k = false → b.raw k 1 = a.raw k 1
  valid : b.valid = a.valid ||| byteMask st n
  tags : a.wins = [] → b.tags = a.tags &&& ~~~(granuleMask st n)
  shut : a.wins = [] → la = 0 → b.wins = []
  opened : a.wins = [] → la ≠ 0 → ∃ w, b.wins = [w] ∧ w.pc = pc ∧ w.left = la + 1 ∧ w.landed = true ∧ w.mask = sliceMask st n
    ∧ ∀ k < n, w.oldRegs.toNat / 2 ^ (4 * (st + k)) % 16 = a.raw (st + k) 1

/-- Thread b is thread a after an instruction with destination d and effect e: its slices, predicates and flags as e says;
index registers, %fctl and the rest as they were (R54, R113, R114). -/
structure ThreadAfter (pc : Word) (la : Nat) (a b : Thread) (d : Option Pos) (e : Eff) : Prop where
  written : ∀ p v, d = some p → e.val = some v → p.slices ≠ 0 → Slices a b pc la (p.start a) p.slices v
  kept : (∀ p v, d = some p → e.val = some v → p.slices = 0) → b.regs = a.regs ∧ b.valid = a.valid ∧ b.tags = a.tags ∧ b.wins = a.wins
  preds : ∀ q < 7, b.preds.getLsbD q = match e.pred with
    | some (p, v) => if p.toNat = q then v else a.preds.getLsbD q
    | none => a.preds.getLsbD q
  fstat : b.fstat = a.fstat ||| e.flags.zeroExtend 32
  index : b.ix0 = a.ix0 ∧ b.ix1 = a.ix1 ∧ b.ix2 = a.ix2 ∧ b.ix3 = a.ix3
  rest : b.fctl = a.fctl ∧ b.exited = a.exited

/-- Warp w is the issuing warp after an instruction with destination d ran in the threads of run: those have its effect, a
uniform destination the first one's value, and everything else of the warp is as it was (R52, R312). -/
structure WarpAfter (c : Ctx) (la : Nat) (w : Warp) (run : List Nat) (d : Option Pos) (eff : Nat → Eff) : Prop where
  ran : ∀ i ∈ run, i < c.warp.threads.length → ThreadAfter c.entry.pc la (c.th i) (w.thread i) d (eff i)
  idle : ∀ i, i ∉ run → w.thread i = c.th i
  uni : ∀ p k i v, d = some p → p.o = .uni k → run.head? = some i → (eff i).val = some v →
    w.uniReg k.toNat = v % 2 ^ 32 ∧ ∀ j < 128, j ≠ k.toNat → w.uniReg j = c.warp.uniReg j
  noUni : (∀ p k, d = some p → p.o ≠ .uni k) → w.uni = c.warp.uni ∧ w.shadow = c.warp.shadow
  other : { w with threads := c.warp.threads, uni := c.warp.uni, shadow := c.warp.shadow } = c.warp
  count : w.threads.length = c.warp.threads.length

/-- The instruction computes in registers in the threads of run: the issuing warp is as WarpAfter says, its leaf goes on, and
nothing else of the machine changes. -/
def ComputesIn (i : Instr) (s : State) (c : Ctx) (len la : Nat) (run : List Nat) (d : Option Pos) (eff : Nat → Eff) : Prop :=
  ∃ w, WarpAfter c la w run d eff ∧ Goes i s c len (s.issued.updWarp c.ref.team c.ref.warp (fun _ => w))

/-- The same in the threads that the destination gives: the lowest alone where it is a uniform register (R52). -/
def Computes (i : Instr) (s : State) (c : Ctx) (len la : Nat) (d : Option Pos) (eff : Nat → Eff) : Prop :=
  ComputesIn i s c len la (c.runs d) d eff

/-- No running thread would raise a flag whose trap is enabled (R117). -/
def Ctx.quiet (c : Ctx) (d : Option Pos) (eff : Nat → Eff) : Bool :=
  (c.runs d).all (fun i => (eff i).flags &&& enablesOf (c.th i).fctl == 0#5)

/-! ### What claims say of values -/

/-- An integer result of sources xs under f (R345): of a packed type element by element, each wrapped or saturated to its own
width; of another type the exact value written to the destination's width dw. -/
def IntResult (t : Ty) (sat : Bool) (dw : Nat) (f : List Int → Int) (xs : List Nat) (v : Nat) : Prop :=
  if t.isPacked then
    ∀ k < t.elems, v / 2 ^ (t.ebits * k) % 2 ^ t.ebits
      = writeWidth t.isSigned sat t.ebits t.ebits (f (xs.map (fun x => intVal t.isSigned t.ebits (x / 2 ^ (t.ebits * k)))))
  else v = writeWidth t.isSigned sat t.bits dw (f (xs.map (intVal t.isSigned t.bits)))

/-- A result of the operation width by its bits, written to a destination of dw bits (R49): truncated, or extended by the
type's signedness. -/
def BitResult (t : Ty) (dw : Nat) (bit : Nat → Bool) (v : Nat) : Prop :=
  v < 2 ^ dw ∧ ∀ k < dw, v.testBit k = if k < t.bits then bit k else t.isSigned && bit (t.bits - 1)

/-- A floating effect element by element, in a format, from sources xs (R110): each element's result in its place, and a flag
raised if any element raises it. -/
def FltResult (t : Ty) (f : List Nat → Nat × Flags) (xs : List Nat) (e : Eff) : Prop :=
  e.pred = none ∧ (∃ v, e.val = some v ∧ ∀ k < t.elems, v / 2 ^ (t.ebits * k) % 2 ^ t.ebits
      = (f (xs.map (fun x => x / 2 ^ (t.ebits * k) % 2 ^ t.ebits))).1 % 2 ^ t.ebits)
    ∧ ∀ b < 5, (e.flags.getLsbD b = true ↔ ∃ k < t.elems, (f (xs.map (fun x => x / 2 ^ (t.ebits * k) % 2 ^ t.ebits))).2.getLsbD b = true)

/-- The threads that run raise no flag whose trap they enable, by the flags of each element (R117). -/
def Silent (c : Ctx) (d : Option Pos) (t : Ty) (f : Nat → List Nat → Nat × Flags) (xs : Nat → List Nat) : Prop :=
  ∀ j ∈ c.runs d, ∀ k < t.elems,
    (f j ((xs j).map (fun x => x / 2 ^ (t.ebits * k) % 2 ^ t.ebits))).2 &&& enablesOf (c.th j).fctl = 0#5

/-- No running thread reads an abandoned value through an operand of type .f32 (R156). -/
def Sound (c : Ctx) (d : Option Pos) (t : Ty) (xs : Nat → List Nat) : Prop :=
  t = .f32 → ∀ j ∈ c.runs d, ∀ x ∈ xs j, isAbandoned x = false

/-- An integer instruction computes IntResult in each running thread. -/
def IntComputes (i : Instr) (s : State) (c : Ctx) (len : Nat) (pd : Pos) (t : Ty) (sat : Bool) (f : List Int → Int)
    (xs : Nat → List Nat) : Prop :=
  ∃ v : Nat → Nat, (∀ j ∈ c.runs (some pd), IntResult t sat pd.o.bits f (xs j) (v j))
    ∧ Computes i s c len 0 (some pd) (fun j => .ofVal (v j))

/-- A bit instruction computes BitResult in each running thread. -/
def BitComputes (i : Instr) (s : State) (c : Ctx) (len : Nat) (pd : Pos) (t : Ty) (bit : Nat → Nat → Bool) : Prop :=
  ∃ v : Nat → Nat, (∀ j ∈ c.runs (some pd), BitResult t pd.o.bits (bit j) (v j))
    ∧ Computes i s c len 0 (some pd) (fun j => .ofVal (v j))

/-- A floating instruction computes FltResult in each running thread. -/
def FltComputes (i : Instr) (s : State) (c : Ctx) (len la : Nat) (pd : Pos) (t : Ty) (f : Nat → List Nat → Nat × Flags)
    (xs : Nat → List Nat) : Prop :=
  ∃ e : Nat → Eff, (∀ j ∈ c.runs (some pd), FltResult t (f j) (xs j) (e j)) ∧ Computes i s c len la (some pd) e

/-! ### Control flow -/

/-- The guard of a lane's instruction; an instruction without one runs in every active thread (R54). -/
def guardOf : Instr → Guard
  | .iadd g .. | .iaddX g .. | .iaddI g .. | .isub g .. | .isubX g .. | .imul g .. | .imulX g .. | .imulI g .. | .idiv g ..
  | .imin g .. | .iminX g .. | .imax g .. | .imaxX g .. | .iabs g .. | .imad g .. | .iset g .. | .isetI g .. | .and g ..
  | .andX g .. | .andI g .. | .andn g .. | .or g .. | .orX g .. | .orI g .. | .xor g .. | .xorX g .. | .xorI g .. | .shl g ..
  | .shr g .. | .sha g .. | .rot g .. | .popc g .. | .clz g .. | .brev g .. | .bfx g .. | .bfi g .. | .mov g .. | .movX g ..
  | .movi g .. | .movxRead g .. | .movxWrite g .. | .shfl g .. | .vote g .. | .ballot g .. | .redw g .. | .sel g ..
  | .selX g .. | .fadd g .. | .faddX g .. | .faddI g .. | .fsub g .. | .fsubX g .. | .fmul g .. | .fmulX g .. | .fmulI g ..
  | .ffma g .. | .fmin g .. | .fminX g .. | .fmax g .. | .fmaxX g .. | .frcp g .. | .frsq g .. | .fsfn g .. | .fset g ..
  | .fsetX g .. | .fsetI g .. | .fcls g .. | .frnd g .. | .fcvt g .. | .fcvtX g .. | .cvti g .. | .cvtiX g .. | .pack g ..
  | .packX g .. | .unpk g .. | .unpkX g .. | .ld g .. | .ldI g .. | .st g .. | .stI g .. | .lds g .. | .ldsI g .. | .sts g ..
  | .stsI g .. | .pref g .. | .atom g .. | .cas g .. | .red g .. | .capn g .. | .capq g .. | .caps g .. | .srd g ..
  | .swr g .. | .bra g .. | .brx g .. | .call g .. | .ret g .. | .exit g | .nop g | .nopLong g | .yield g | .plop g ..
  | .fence g .. | .acq g .. | .rel g .. | .bind g .. | .unbind g .. | .waitc g .. | .rvinit g .. | .rvarr g .. | .rvexp g ..
  | .rvwaitPlain g .. | .rvwaitTimed g .. | .rvinv g .. | .rinit g .. | .rwait g .. | .rrel g .. | .cpwait g .. | .copy g ..
  | .copym g .. | .task g .. | .krel g .. | .qpush g .. | .qpop g .. | .lnch g .. | .cncl g .. | .cwait g .. | .mma g ..
  | .mspa g .. | .mloop g .. | .mldb g .. | .mlds g .. | .mdrn g .. | .mzro g .. | .tokp g .. | .tokw g | .vdset g ..
  | .vdot g .. | .vthr g .. | .topk g .. | .trap g .. | .bkpt g | .sysc g .. | .iflush g .. => g
  | _ => Guard.always

/-- A warp whose leaf e has passed its instruction and stands at pc: its threads' windows shrink, it waits for nothing, and its
counts are at base (R33, R37, R81). -/
def Warp.movedTo (w : Warp) (e : Entry) (pc : Word) : Warp :=
  { w with
    threads := (w.threads.zipIdx).map (fun p => if e.mask.getLsbD p.2 then p.1.tick else p.1)
    entries := w.entries.map (fun x =>
      if x.id == e.id then { x with pc := pc, wait := .none, passes := 0, promo := 0, yielded := false, retJoin := none } else x) }

/-- A leaf e that reaches pc arrives at its parent's reconvergence address, which is fetchable (R33, R320). -/
def Warp.arrives (w : Warp) (e : Entry) (pc : Word) : Bool :=
  (e.parent.bind w.entry?).any (fun j => pc == j.pc && pc.extractLsb' 0 2 == 0#2 && e.handler == j.handler)

/-- A warp whose leaf e has split: it is a join at join, its threads of m1 stand in leaf id1 at pc1 and the others in leaf id2
at pc2, and a leaf created at the join has arrived there; the threads of passed have passed the instruction (R33). -/
def Warp.splitAs (w : Warp) (e : Entry) (passed m1 : BitVec 32) (pc1 pc2 join : Word) (id1 id2 : Nat) : Warp :=
  let leaf (i : Nat) (m : BitVec 32) (pc : Word) : Entry :=
    { e with id := i, mask := m, pc := pc, parent := some e.id, spilled := false, wait := .none, passes := 0, promo := 0,
             yielded := false, retJoin := none }
  let here (pc : Word) : Bool := pc == join && pc.extractLsb' 0 2 == 0#2
  { w with
    threads := (w.threads.zipIdx).map (fun p => if passed.getLsbD p.2 then p.1.tick else p.1)
    entries := w.entries.map (fun x =>
        if x.id == e.id then { x with isLeaf := false, pc := join, passes := 0, promo := 0, yielded := false, retJoin := none } else x)
      ++ (if here pc1 then [] else [leaf id1 m1 pc1])
      ++ (if here pc2 then [] else [leaf id2 (e.mask &&& ~~~m1) pc2]) }

/-- The issuing warp may use two more entries of its lane's split table (R32), and its entries' names are below the model's
next name (log 1). -/
def Ctx.splits (s : State) (c : Ctx) : Bool :=
  !c.entry.spilled && c.entry.isLeaf && c.warp.entries.all (fun e => e.id < s.nextId)
    && c.warp.tabled.length + 2 ≤ s.tableRoom c.team.die c.team.core c.warp

/-! ### Traps -/

/-- A warp after its leaf e takes a trap (R253): the trap registers hold the cause, %tinfo, the leaf's pc and mask; the warp is
in handler mode and the leaf stands at the vector as its handler; the threads' landed windows are closed (R83). -/
def Warp.handles (w : Warp) (e : Entry) (cause : BitVec 8) (info : Nat) (len : Nat) (v : Word) : Warp :=
  { w with
    tcause := cause.zeroExtend 32, tinfo := BitVec.ofNat 64 info, tepc := e.pc, tmask := e.mask, tlen := len
    tret := e.retJoin
    handler := some cause
    threads := w.threads.map (fun th => { th with wins := th.wins.filter (fun x => !x.landed) })
    entries := w.entries.map (fun x =>
      if x.id == e.id then
        { x with pc := v, handler := true, wait := .none, passes := 0, promo := 0, yielded := false, retJoin := none }
      else x) }

/-- The issuing warp after its leaf takes a trap. -/
def Ctx.handles (c : Ctx) (cause : BitVec 8) (info : Nat) (len : Nat) (v : Word) : Warp := c.warp.handles c.entry cause info len v

/-- The instruction enters the trap handler at the vector v (R253). -/
def Enters (i : Instr) (s : State) (c : Ctx) (cause : BitVec 8) (info len : Nat) (v : Word) : Prop :=
  exec i s = .next (s.issued.updWarp c.ref.team c.ref.warp (fun _ => c.handles cause info len v))

/-- The instruction delivers a trap that re-executes at ERET, in the state before it. -/
def Traps (i : Instr) (s : State) (c : Ctx) (cause : BitVec 8) (info : Nat) : Prop :=
  exec i s = .next (s.issued.deliver c.ref ⟨cause, BitVec.ofNat 64 info, 0⟩)

/-- Nothing stands between the issuing warp and a handler: none of its writes is pending, it is not in handler mode, and its
job's runtime folio has a trap vector (R83, R253). -/
def State.Handled (s : State) (c : Ctx) (v : Word) : Prop :=
  s.warpPending c.ref.team c.ref.warp = false ∧ c.warp.handler = none ∧ s.vector c.team.launch = some v

/-! ### Memory -/

/-- One thread's access of n bytes at va through a capability operand passes the checks of R165 and translates to the physical
bytes pas of these lines. -/
structure Passes (s : State) (c : Ctx) (i : Nat) (p : Pos) (va : Int) (n perm : Nat) (aligned : Bool) (need : Need) (pas : List Nat)
    (lines : List LineAt) : Prop where
  aligned : aligned = true → va % n = 0
  tag : c.capTag i p = true
  unsealed : (c.cap i p).otype = 0
  perm : (c.cap i p).perm &&& perm = perm
  low : ((c.cap i p).base : Int) ≤ va
  high : va + n ≤ (((c.cap i p).base + (c.cap i p).len * (if (c.cap i p).fmt = 1 then 65536 else 1) : Nat) : Int)
  space : va + n ≤ ((2 ^ 56 : Nat) : Int)
  cells : s.cells c.team.die c.team.core c.launch.asid va.toNat n need c.launch.secure = .ok pas lines

/-- A capability operand grants a permission over n bytes at va: checks 2 to 4 of R165 pass. -/
structure Ctx.Grants (c : Ctx) (i : Nat) (p : Pos) (va : Int) (n perm : Nat) : Prop where
  tag : c.capTag i p = true
  unsealed : (c.cap i p).otype = 0
  perm : (c.cap i p).perm &&& perm = perm
  low : ((c.cap i p).base : Int) ≤ va
  high : va + n ≤ (((c.cap i p).base + (c.cap i p).len * (if (c.cap i p).fmt = 1 then 65536 else 1) : Nat) : Int)
  space : va + n ≤ ((2 ^ 56 : Nat) : Int)

/-- n bytes from a physical address stand in n different cells. -/
def State.Apart (s : State) (pa n : Nat) : Prop :=
  ∀ j < n, ∃ x, s.cell? (pa + j) = some x ∧ ∀ k < n, s.cell? (pa + k) = some x → k = j

/-- No byte of memory has changed but those of n bytes from a physical address. -/
def KeepsBytes (s t : State) (pa n : Nat) : Prop :=
  ∀ a, (∀ k < n, s.cell? a ≠ s.cell? (pa + k)) → t.physByte a = s.physByte a

/-- A 4-bit digit of a team's local store: nibble a of its bytes, two to a byte. -/
def State.localNibble (s : State) (team a : Nat) : Nat :=
  match s.team? team with
  | some y => (y.loc.byte (a / 2)).toNat / 16 ^ (a % 2) % 16
  | none => 0

/-- An access of n bytes at local-store offset v reaches offset v mod 2^19 of a team: the issuing one, or its convoy's team
that the window names (R183). -/
def State.Local (s : State) (c : Ctx) (v n team : Nat) : Prop :=
  ∃ y, s.team? team = some y ∧ v % 2 ^ 19 + n ≤ y.lstore ∧
    (v < 2 ^ 19 ∧ team = c.ref.team
      ∨ 2 ^ 24 ≤ v ∧ v < 2 ^ 25 ∧ ∃ q k, c.team.convoy = some q ∧ Tbl.look q s.convoys = some k ∧
        (let slot := v / 2 ^ 19 % 32
         if k.straddles then slot % 16 < 8 ∧ Tbl.look (8 * (slot / 16) + slot % 16) k.members = some team
         else slot < 16 ∧ Tbl.look slot k.members = some team))

/-- The threads of run have a pending write of the destination by operation op, and nothing else of the warp has changed. -/
def Pending (c : Ctx) (w : Warp) (run : List Nat) (pd : Pos) (op la : Nat) : Prop :=
  w.threads.length = c.warp.threads.length ∧ { w with threads := c.warp.threads } = c.warp ∧
    ∀ i, w.thread i =
      if i ∈ run ∧ i < c.warp.threads.length ∧ (∀ k, pd.o ≠ .uni k) then
        let m := sliceMask (pd.start (c.th i)) pd.slices
        { c.th i with wins := (c.th i).wins ++ [⟨c.entry.pc, op, la + 1, m, m, (c.th i).regs, false⟩] }
      else c.th i

/-- A point has its place in its convoy's or its team's list. -/
def State.HasPoint (s : State) (team n : Nat) : Prop :=
  match s.convoyOf team n with
  | some (_, c) => n - 16 < c.points.length
  | none => ∃ t, s.team? team = some t ∧ n < t.points.length

/-- The instruction is held at its issue, blocked on a wait: nothing changes but the model's marks and the free values' counter. -/
def Holds (i : Instr) (s : State) (w : Wait) : Prop := exec i s = .next { s.issued with held := .blocked w }

/-- Every access, reduction and engine operation of the machine is complete. -/
def State.Drained (s : State) : Prop :=
  (∀ d c, (s.core d c).insts = []) ∧ (∀ k ∈ s.cores, k.2.quay = [] ∧ k.2.gathers = [])
    ∧ s.writes = [] ∧ s.atoms = [] ∧ s.reds = [] ∧ s.xfers = []

/-- The warp whose leaf waits. -/
def Warp.waiting (w : Warp) (leaf : Nat) (x : Wait) : Warp :=
  { w with entries := w.entries.map (fun e =>
      if e.id == leaf then { e with wait := x, passes := 0, promo := 0, yielded := false } else e) }

/-! ### The matrix engine -/

/-- The pilot token lets the issuing warp issue (R144): its team holds it, for every warp or for the warp's role. -/
def State.Tokened (s : State) (c : Ctx) : Prop :=
  ∃ r, (s.core c.team.die c.team.core).token = some ⟨c.ref.team, r⟩ ∧ (r = none ∨ r = some c.warp.role)

/-- A collective issues: its operands pass, or its guard holds in no active thread (R129). -/
def State.Collects (s : State) (g : Guard) (ps : List Pos) (c : Ctx) : Prop := s.ctx g = some c ∧ (c.on = [] ∨ c.ready s ps = true)

/-- The issue forms an instance, the core's last, that has not started; memory, the teams and the warps are as they were but
for the issuing leaf, which goes on. -/
def Forms (i : Instr) (s : State) (c : Ctx) (len tile : Nat) (ver : BitVec 16) (op : MatOp) (np : Nat) (point : Option Nat)
    (p : Participant) : Prop :=
  ∃ u, Goes i s c len u ∧ u.mem = s.mem ∧ u.teams = s.teams ∧ u.warps = s.warps
    ∧ (u.core c.team.die c.team.core).insts = (s.core c.team.die c.team.core).insts
      ++ [⟨s.nextId, c.ref.team, tile, ver, op, np, [p], c.entry.pc, point, none⟩]

/-- The issue joins the instance x that gathers. -/
def Joins (i : Instr) (s : State) (c : Ctx) (len : Nat) (x : Instance) (p : Participant) : Prop :=
  ∃ u, Goes i s c len u ∧ u.mem = s.mem ∧ u.teams = s.teams ∧ u.warps = s.warps
    ∧ (u.core c.team.die c.team.core).insts = (s.core c.team.die c.team.core).insts.map
      (fun y => if y.id == x.id then { y with parts := y.parts ++ [p] } else y)

/-- A transfer of matrix state of the issuing warp, with one slice. -/
def Ctx.matXfer (c : Ctx) (id : Nat) (kind : XferKind) (point : BitVec 5) (src dst : XEnd) (len : Nat) : Xfer :=
  ⟨id, kind, some c.ref.team, [c.ref.warp], c.team.launch, c.team.die, c.team.core, c.launch.asid, c.launch.secure,
    if point = 31#5 then none else some (c.ref.team, point.toNat), none, none, [⟨c.ref.warp, src, dst, len, id, [], []⟩], false⟩

/-- A table of tags as it was but that the units of some size from the one that holds lo to the one that holds lo + len - 1
have the tag v (R122). -/
def Tagged (old new : Tbl (BitVec 4)) (size lo len : Nat) (v : BitVec 4) : Prop :=
  ∀ b, Tbl.get new b 0#4 = if lo / size ≤ b ∧ b ≤ (lo + len - 1) / size then v else Tbl.get old b 0#4

/-- A rendezvous point that an engine operation may name: none, or a valid one from 0 to 23 (R142, R188). -/
def State.pointOk (s : State) (c : Ctx) (point : BitVec 5) : Prop :=
  point = 31#5 ∨ (point.toNat < 24 ∧ (s.point c.ref.team point.toNat).valid = true)

/-- The instance of the issuing team that gathers issues for a tile and a version (R129). -/
def State.gathers (s : State) (c : Ctx) (tile : Nat) (ver : BitVec 16) (x : Instance) : Prop :=
  (s.core c.team.die c.team.core).insts.find? (fun i =>
    i.team == c.ref.team && i.tile == tile && i.ver == ver && i.collective && i.input.isNone && !i.full) = some x

/-- No instance of the issuing team gathers issues for a tile and a version. -/
def State.gathersNone (s : State) (c : Ctx) (tile : Nat) (ver : BitVec 16) : Prop :=
  ∀ i ∈ (s.core c.team.die c.team.core).insts, i.team = c.ref.team → i.tile = tile → i.ver = ver → i.collective = true →
    i.input = none → i.full = true

/-- An issue fits every instance of its team that collects issues for its tile and version: the same operation, and no part of its
lane (R129, log 31). -/
def State.fitsIn (s : State) (c : Ctx) (tile : Nat) (ver : BitVec 16) (op : MatOp) : Prop :=
  ∀ i ∈ (s.core c.team.die c.team.core).insts, i.team = c.ref.team → i.tile = tile → i.ver = ver → i.collective = true →
    i.op = op ∧ ∀ p ∈ i.parts, p.lane ≠ c.warp.lane

/-- Element e of a little-endian string of elements of some bits. -/
def element (bits e : Nat) (bytes : List Byte) : Nat := leNat bytes / 2 ^ (bits * e) % 2 ^ bits

/-- An instance or a step has read its B and, where it is scaled, its scales (R132, R140): K rows of 16 elements from a place
of the team's B store, G scales to a row from SA and to a column from SB. -/
structure ReadsB (t : Team) (ty : Ty) (scl : Bool) (k boff sa sb : Nat) (inp : MatInput) : Prop where
  b : ∀ r < k, ∀ j < 16, (inp.b.getD r []).getD j 0 = element ty.ebits j (t.bbytes.read (boff + r * (2 * ty.ebits)) (2 * ty.ebits))
  rows : scl = true → ∀ r ∈ inp.a.map Prod.fst, ∀ g < k / 32, (Tbl.get inp.sa r []).getD g 0 = (t.sbytes.byte (sa + r * (k / 32) + g)).toNat
  cols : scl = true → ∀ j < 16, ∀ g < k / 32, (inp.sb.getD j []).getD g 0 = (t.sbytes.byte (sb + j * (k / 32) + g)).toNat

/-- An instance or a step has read a dense A from the team's local store (R131): the rows of its bands. -/
def ReadsA (t : Team) (ty : Ty) (k : Nat) (bm : BitVec 8) (a0 stride : Nat) (inp : MatInput) : Prop :=
  inp.a.map Prod.fst = bandRows bm ∧ ∀ r ∈ bandRows bm, Tbl.get inp.a r [] = (List.range k).map (fun e =>
    (e, element ty.ebits e (t.loc.read (a0 + r * stride) (k * ty.ebits / 8))))

/-- An element of tile x after a block with these inputs, and its flags (R136, R154): an abandoned one stays; the bound monitor
tests the others where the tile has a declaration whose next block's bounds were read. -/
def Tile.elemAfter (x : Tile) (ty : Ty) (scl ftz : Bool) (inp : MatInput) (row col : Nat) : Word64 × Flags :=
  let old := (x.elem row col).toNat
  if x.tag = 0xA#4 ∧ isAbandoned old = true then (x.elem row col, 0#5)
  else
    let r := matElem ty scl ftz inp row col old
    let new := match x.decl, Tbl.look row inp.bounds, Tbl.look row inp.snaps with
      | some v, some bound, some snap =>
        if x.tag = 0xA#4 then (monitor v.op inp.block bound snap (BitVec.ofNat 32 r.1)).toNat else r.1
      | _, _, _ => r.1
    (BitVec.ofNat 64 new, r.2)

/-- Tile y holds what tile x holds after a block with these inputs: the elements of the touched rows change, and the flags
gather theirs (R136, R138); the tag stays. -/
def Tile.After (x y : Tile) (ty : Ty) (scl ftz : Bool) (inp : MatInput) : Prop :=
  y.tag = x.tag
    ∧ (∀ row, ∀ col < 16, y.elem row col =
        if row ∈ inp.a.map Prod.fst then (x.elemAfter ty scl ftz inp row col).1 else x.elem row col)
    ∧ ∀ b < 5, (y.flags.getLsbD b = true ↔ x.flags.getLsbD b = true
        ∨ ∃ row ∈ inp.a.map Prod.fst, ∃ col < 16, (x.elemAfter ty scl ftz inp row col).2.getLsbD b = true)

/-- Tile n of team u is tile n of team t, changed to y; everything else of the team is as it was. -/
def Team.Retiled (t u : Team) (n : Nat) (y : Tile) : Prop :=
  u = { t with tiles := u.tiles } ∧ u.tiles.length = t.tiles.length ∧ u.tiles[n]? = some y ∧ ∀ j, j ≠ n → u.tiles[j]? = t.tiles[j]?

/-! ### Teams -/

/-- A core can take a team with a demand, and has the most free slice-threads of those of its die that can, the lowest of
equals (R27); it gives these lanes. -/
def State.Best (s : State) (die core : Nat) (x : Demand) (lanes : List Nat) : Prop :=
  core < 18 ∧ s.fits die core x = some lanes ∧ ∀ k < 18, (s.fits die k x).isSome = true →
    s.coreFree die k < s.coreFree die core ∨ s.coreFree die k = s.coreFree die core ∧ core ≤ k

/-- Nothing of a team but the named one and none of its warps has changed. -/
def KeepsTeams (s u : State) (team : Nat) : Prop :=
  ∀ j, j ≠ team → u.team? j = s.team? j ∧ ∀ w < 32, u.warp? j w = s.warp? j w

/-- The team enters and leaves alone: it belongs to no convoy (R38); its warps, 32 at most, stand at their numbers. -/
def State.Alone (s : State) (team : Nat) (t : Team) : Prop :=
  s.team? team = some t ∧ t.convoy = none ∧ ∀ p ∈ s.warps, p.2.team = team → p.2.index < 32 ∧ p.1 = warpKey team p.2.index

/-! ### Invariants -/

/-- Every byte memory is in its canonical form: package memory, each team's local store, B store and scale memory. -/
def State.memoryOk (s : State) : Prop :=
  s.mem.wf = true ∧ ∀ p ∈ s.teams, p.2.loc.wf = true ∧ p.2.bbytes.wf = true ∧ p.2.sbytes.wf = true

/-- A warp's allocation is a multiple of 8 slices from 8 to 512 (R60, R87). -/
def Warp.allocOk (w : Warp) : Prop := w.alloc % 8 = 0 ∧ 8 ≤ w.alloc ∧ w.alloc ≤ 512

/-- A thread's tag bits lie in valid granules (R57). -/
def Thread.tagsOk (th : Thread) : Prop := ∀ g < 16, th.tags.getLsbD g = true → bitsOf th.valid.toNat (16 * g + 15) (16 * g) = 2 ^ 16 - 1

end Sys2Proof.Machine
end

