-- ==== Sys2Proof/Certificates/Slice0/Obligations.lean ====
section
/-! DEFINITION. The statements for the provers. Where one names the free values' counter (`issued`, log 2), the mark `held`, the
agenda or a clock (log 1), it names fields of the model and not of the machine. -/

open Sys2Proof Sys2Proof.Machine

/-! ### Integer, logic and moves -/

/-- R344, R345: IADD, ISUB, IMUL, IMIN and IMAX, in the 64-bit and the 96X form, write the exact value of their extended
sources, wrapped or saturated, element by element under a packed type; nothing else of the machine changes.
R74, R314, R344, R345, R359, R389: IADD, IMUL, AND, OR and XOR with a 32-bit immediate, which stands sign-extended under an
.i type and zero-extended under the others. -/
def Obligations.IntegerArithmetic : Prop :=
  (∀ (s : State) (g : Guard) (t : Ty) (sat : Bool) (m : MulMod) (d a b : Opnd) (x : XCtl) (c : Ctx),
     let pd := (Pos.dst d (d.dstTy t)).withIx x
     let pa := (Pos.src 1 a (a.srcTy t)).withIx x
     let pb := (Pos.src 2 b (b.srcTy t)).withIx x
     let xs := fun j => [x.sw1.apply t (c.int t j pa), x.sw2.apply t (c.int t j pb)]
     let mul := fun l : List Int =>
       if m = .hi then l.getD 0 0 * l.getD 1 0 / (2 ^ t.bits : Nat) else l.getD 0 0 * l.getD 1 0
     s.Ready g [pd, pa, pb] c →
       IntComputes (.iaddX g t sat d a b x) s c 12 pd t sat (fun l => l.getD 0 0 + l.getD 1 0) xs
       ∧ IntComputes (.isubX g t sat d a b x) s c 12 pd t sat (fun l => l.getD 0 0 - l.getD 1 0) xs
       ∧ IntComputes (.imulX g t m d a b x) s c 12 pd t (m == .sat) mul xs
       ∧ IntComputes (.iminX g t sat d a b x) s c 12 pd t sat (fun l => min (l.getD 0 0) (l.getD 1 0)) xs
       ∧ IntComputes (.imaxX g t sat d a b x) s c 12 pd t sat (fun l => max (l.getD 0 0) (l.getD 1 0)) xs
       ∧ (x = .plain →
         IntComputes (.iadd g t sat d a b) s c 8 pd t sat (fun l => l.getD 0 0 + l.getD 1 0) xs
         ∧ IntComputes (.isub g t sat d a b) s c 8 pd t sat (fun l => l.getD 0 0 - l.getD 1 0) xs
         ∧ IntComputes (.imul g t m d a b) s c 8 pd t (m == .sat) mul xs
         ∧ IntComputes (.imin g t sat d a b) s c 8 pd t sat (fun l => min (l.getD 0 0) (l.getD 1 0)) xs
         ∧ IntComputes (.imax g t sat d a b) s c 8 pd t sat (fun l => max (l.getD 0 0) (l.getD 1 0)) xs))
  ∧ (∀ (s : State) (g : Guard) (t : Ty) (sat : Bool) (m : MulMod) (d a : Opnd) (imm : Word) (c : Ctx),
       let pd := Pos.dst d (d.dstTy t)
       let pa := Pos.src 1 a (a.srcTy t)
       let y : Nat := if t.isSigned then wrap t.bits imm.toInt else imm.toNat % 2 ^ t.bits
       let xs := fun j => [c.int t j pa, y]
       let mul := fun l : List Int =>
         if m = .hi then l.getD 0 0 * l.getD 1 0 / (2 ^ t.bits : Nat) else l.getD 0 0 * l.getD 1 0
       0 < t.bits → t ≠ .f64 → s.Ready g [pd, pa] c →
         IntComputes (.iaddI g t sat d a imm) s c 12 pd t sat (fun l => l.getD 0 0 + l.getD 1 0) xs
         ∧ IntComputes (.imulI g t m d a imm) s c 12 pd t (m == .sat) mul xs
         ∧ BitComputes (.andI g t d a imm) s c 12 pd t (fun j k => (c.int t j pa).testBit k && y.testBit k)
         ∧ BitComputes (.orI g t d a imm) s c 12 pd t (fun j k => (c.int t j pa).testBit k || y.testBit k)
         ∧ BitComputes (.xorI g t d a imm) s c 12 pd t (fun j k => (c.int t j pa).testBit k != y.testBit k))

/-- R346: IDIV. Over a zero divisor the quotient is all ones and the remainder the dividend; the signed overflow gives the
dividend and 0; otherwise dividend = quotient · divisor + remainder, the remainder smaller than the divisor and of the
dividend's sign or zero. It never traps on its values.
R318, R321, R344, R345, R362: IABS, POPC, CLZ and BREV. -/
def Obligations.DivisionAndOneSource : Prop :=
  (∀ (s : State) (g : Guard) (t : Ty) (sat rem : Bool) (d a b : Opnd) (c : Ctx),
     let pd := Pos.dst d (d.dstTy t)
     let pa := Pos.src 1 a (a.srcTy t)
     let pb := Pos.src 2 b (b.srcTy t)
     t.isPacked = false → s.Ready g [pd, pa, pb] c →
       ∃ q m : Nat → Int,
         (∀ j ∈ c.runs (some pd),
           let x := intVal t.isSigned t.bits (c.int t j pa)
           let y := intVal t.isSigned t.bits (c.int t j pb)
           if y = 0 then q j = (if t.isSigned then -1 else ((2 ^ t.bits : Nat) : Int) - 1) ∧ m j = x
           else if t.isSigned = true ∧ x = -(((2 ^ (t.bits - 1) : Nat)) : Int) ∧ y = -1 then q j = x ∧ m j = 0
           else x = q j * y + m j ∧ (m j).natAbs < y.natAbs ∧ (m j = 0 ∨ (m j < 0 ↔ x < 0)))
         ∧ Computes (.idiv g t sat rem d a b) s c 8 0 (some pd)
             (fun j => .ofVal (writeWidth t.isSigned sat t.bits d.bits (if rem then m j else q j))))
  ∧ (∀ (s : State) (g : Guard) (t : Ty) (sat : Bool) (d a : Opnd) (c : Ctx),
       let pd := Pos.dst d (d.dstTy t)
       let pa := Pos.src 1 a (a.srcTy t)
       let w := t.bits
       0 < w → s.Ready g [pd, pa] c →
         IntComputes (.iabs g t sat d a) s c 8 pd t sat (fun l => ((l.getD 0 0).natAbs : Int)) (fun j => [c.int t j pa])
         ∧ Computes (.popc g t d a) s c 8 0 (some pd) (fun j => .ofVal (writeWidth t.isSigned false w d.bits
             (((List.range w).filter (fun k => (c.int t j pa).testBit k)).length : Nat)))
         ∧ (∃ n : Nat → Nat, (∀ j, n j ≤ w ∧ (∀ k, w - n j ≤ k → k < w → (c.int t j pa).testBit k = false)
               ∧ (n j < w → (c.int t j pa).testBit (w - 1 - n j) = true))
             ∧ Computes (.clz g t d a) s c 8 0 (some pd) (fun j => .ofVal (writeWidth t.isSigned false w d.bits (n j))))
         ∧ BitComputes (.brev g t d a) s c 8 pd t (fun j k => (c.int t j pa).testBit (w - 1 - k)))

/-- R314, R359, R371, R389: AND, ANDN, OR, XOR and the shifts, in the 64-bit form, and AND, OR and XOR in the 96X form, bit by
bit; a shift's count is the whole second source, a rotation's is taken modulo the width. -/
def Obligations.LogicAndShifts : Prop :=
  ∀ (s : State) (g : Guard) (t : Ty) (d a b : Opnd) (x : XCtl) (c : Ctx),
    let pd := (Pos.dst d (d.dstTy t)).withIx x
    let pa := (Pos.src 1 a (a.srcTy t)).withIx x
    let pb := (Pos.src 2 b (b.srcTy t)).withIx x
    let u := fun j => x.sw1.apply t (c.int t j pa)
    let v := fun j => x.sw2.apply t (c.int t j pb)
    let w := t.bits
    0 < w → s.Ready g [pd, pa, pb] c →
      BitComputes (.andX g t d a b x) s c 12 pd t (fun j k => (u j).testBit k && (v j).testBit k)
      ∧ BitComputes (.orX g t d a b x) s c 12 pd t (fun j k => (u j).testBit k || (v j).testBit k)
      ∧ BitComputes (.xorX g t d a b x) s c 12 pd t (fun j k => (u j).testBit k != (v j).testBit k)
      ∧ (x = .plain →
        BitComputes (.and g t d a b) s c 8 pd t (fun j k => (u j).testBit k && (v j).testBit k)
        ∧ BitComputes (.andn g t d a b) s c 8 pd t (fun j k => (u j).testBit k && !(v j).testBit k)
        ∧ BitComputes (.or g t d a b) s c 8 pd t (fun j k => (u j).testBit k || (v j).testBit k)
        ∧ BitComputes (.xor g t d a b) s c 8 pd t (fun j k => (u j).testBit k != (v j).testBit k)
        ∧ BitComputes (.shl g t d a b) s c 8 pd t (fun j k => decide (v j ≤ k) && (u j).testBit (k - v j))
        ∧ BitComputes (.shr g t d a b) s c 8 pd t (fun j k => decide (k + v j < w) && (u j).testBit (k + v j))
        ∧ BitComputes (.sha g t d a b) s c 8 pd t (fun j k => (u j).testBit (min (k + v j) (w - 1)))
        ∧ BitComputes (.rot g t d a b) s c 8 pd t (fun j k => (u j).testBit ((k + w - v j % w) % w)))

/-- R344, R345, R318: IMAD; BFI and BFX by the field word's position (bits 7..0) and length (bits 15..8), read as 32 bits. -/
def Obligations.MultiplyAddAndFields : Prop :=
  ∀ (s : State) (g : Guard) (t : Ty) (sat : Bool) (d a b k : Opnd) (x : XCtl) (c : Ctx),
    let pd := (Pos.dst d (d.dstTy t)).withIx x
    let pa := (Pos.src 1 a (a.srcTy t)).withIx x
    let pb := (Pos.src 2 b (b.srcTy t)).withIx x
    let w := t.bits
    0 < w →
    (s.Ready g [pd, pa, pb, (Pos.src 3 k (k.srcTy t)).withIx x] c →
      IntComputes (.imad g t sat d a b k x) s c 12 pd t sat (fun l => l.getD 0 0 * l.getD 1 0 + l.getD 2 0)
        (fun j => [c.int t j pa, c.int t j pb, c.int t j ((Pos.src 3 k (k.srcTy t)).withIx x)]))
    ∧ (s.Ready g [pd, pa, pb, (Pos.src 3 k k.src32).withIx x] c →
      let f := fun j => c.u32 j ((Pos.src 3 k k.src32).withIx x)
      BitComputes (.bfi g t d a b k x) s c 12 pd t (fun j i =>
        if f j % 256 ≤ i ∧ i < f j % 256 + f j / 256 % 256 then (c.int t j pb).testBit (i - f j % 256) else (c.int t j pa).testBit i))
    ∧ (x = .plain → s.Ready g [pd, pa, Pos.src 2 b b.src32] c →
      let f := fun j => c.u32 j (Pos.src 2 b b.src32)
      ∃ v : Nat → Nat, (∀ j ∈ c.runs (some pd),
          let n := min (f j / 256 % 256) w
          n = 0 ∧ v j = 0 ∨ 0 < n ∧ v j < 2 ^ n ∧ ∀ i < n, (v j).testBit i =
            if f j % 256 + i < w then (c.int t j pa).testBit (f j % 256 + i) else t.isSigned && (c.int t j pa).testBit (w - 1))
        ∧ Computes (.bfx g t d a b) s c 8 0 (some pd) (fun j => .ofVal (writeWidth t.isSigned false w d.bits
            (intVal t.isSigned (min (f j / 256 % 256) w) (v j)))))

/-- R355, R356, R373: MOV copies bits of one width, or converts an integer or bit type through R49; SEL copies a where its
predicate holds and b otherwise; MOVI writes its immediate through R49, .f32 as its pattern, .f64 converted from FP32. -/
def Obligations.Moves : Prop :=
  ∀ (s : State) (g : Guard) (t : Ty) (sat : Bool) (q : PSrc) (d a b : Opnd) (x : XCtl) (imm : Word) (c : Ctx),
    let pd := (Pos.dst d (d.dstTy t)).withIx x
    let pa := (Pos.src 1 a (a.srcTy t)).withIx x
    let pb := (Pos.src 2 b (b.srcTy t)).withIx x
    let whole := Pos.dst d (movOk d a)
    let copied := fun (sat : Bool) (u : Nat) (v : Nat) =>
      if t.isLogic then v = writeWidth t.isSigned sat t.bits d.bits (intVal t.isSigned t.bits u) else v = u % 2 ^ d.bits
    (t = .none → s.Ready g [whole.withIx x, (Pos.src 1 a (movOk d a)).withIx x] c →
      let eff := fun j => Eff.ofVal (c.raw j ((Pos.src 1 a (movOk d a)).withIx x) % 2 ^ d.bits)
      Computes (.movX g t sat d a x) s c 12 0 (some (whole.withIx x)) eff
      ∧ (x = .plain → Computes (.mov g t sat d a) s c 8 0 (some whole) eff))
    ∧ (t ≠ .none → s.Ready g [pd, pa] c →
      ∃ v : Nat → Nat, (∀ j ∈ c.runs (some pd), copied sat (x.sw1.apply t (c.int t j pa)) (v j))
        ∧ Computes (.movX g t sat d a x) s c 12 0 (some pd) (fun j => .ofVal (v j))
        ∧ (x = .plain → Computes (.mov g t sat d a) s c 8 0 (some pd) (fun j => .ofVal (v j))))
    ∧ (s.Ready g [pd, pa, pb] c →
      ∃ v : Nat → Nat, (∀ j ∈ c.runs (some pd), copied false
          (if q.value (c.th j).preds then x.sw1.apply t (c.int t j pa) else x.sw2.apply t (c.int t j pb)) (v j))
        ∧ Computes (.selX g t q d a b x) s c 12 0 (some pd) (fun j => .ofVal (v j))
        ∧ (x = .plain → Computes (.sel g t q d a b) s c 8 0 (some pd) (fun j => .ofVal (v j))))
    ∧ (x = .plain → s.Ready g [pd] c →
      Computes (.movi g t sat d imm) s c 12 0 (some pd) (fun _ => .ofVal (
        if t = .f32 then imm.toNat
        else if t = .f64 then (Fmt.f64.ofVal .rn false (Fmt.f32.val imm.toNat)).1
        else if t.isLogic then writeWidth t.isSigned sat t.bits d.bits
          (intVal t.isSigned t.bits (wrap t.bits (if t.isSigned then imm.toInt else (imm.toNat : Int))))
        else t.immediate imm)))

/-- R347, R361: ISET compares by the type's signedness, PLOP looks its two predicates up in its table; each writes its
predicate alone, and a write of p7 is discarded.
R55, R56, R357: MOVX reads an index register into its destination; it writes one with IDX, LO and HI of its source, reserved
bits zero, and changes no other register of the thread; a source whose HI is above 512 or whose LO is above HI takes
ILLOPND, which names the lowest such thread and position 1 (log 22). -/
def Obligations.PredicatesAndIndexes : Prop :=
  (∀ (s : State) (g : Guard) (t : Ty) (op : Cmp) (p : BitVec 3) (a b : Opnd) (imm : Word) (tt : BitVec 4) (q q2 : PSrc) (c : Ctx),
     let pa := Pos.src 1 a (a.srcTy t)
     let pb := Pos.src 2 b (b.srcTy t)
     let y : Nat := if t.isSigned then wrap t.bits imm.toInt else imm.toNat % 2 ^ t.bits
     let rel := fun u v : Int => match op with
       | .eq => decide (u = v) | .ne => decide (u ≠ v) | .lt => decide (u < v) | .le => decide (u ≤ v)
       | .gt => decide (u > v) | .ge => decide (u ≥ v)
     let val := fun v : Nat => intVal t.isSigned t.bits v
     (s.Ready g [pa, pb] c →
       Computes (.iset g t op p a b) s c 8 0 none (fun j => ⟨none, some (p, rel (val (c.int t j pa)) (val (c.int t j pb))), 0#5⟩))
     ∧ (t ≠ .f64 → s.Ready g [pa] c →
       Computes (.isetI g t op p a imm) s c 12 0 none (fun j => ⟨none, some (p, rel (val (c.int t j pa)) (val y)), 0#5⟩))
     ∧ (s.Ready g [] c →
       Computes (.plop g tt p q q2) s c 8 0 none (fun j => ⟨none, some (p,
         match q.value (c.th j).preds, q2.value (c.th j).preds with
         | false, false => tt.getLsbD 0 | false, true => tt.getLsbD 1 | true, false => tt.getLsbD 2 | true, true => tt.getLsbD 3),
         0#5⟩)))
  ∧ (∀ (s : State) (g : Guard) (j : BitVec 2) (d a : Opnd) (c : Ctx),
       let pd := Pos.dst d d.reg32
       let pa := Pos.src 1 a a.src32
       let bad := fun i => let v := c.u32 i pa; decide (512 < v / 2 ^ 19 % 2 ^ 10 ∨ v / 2 ^ 19 % 2 ^ 10 < v / 2 ^ 10 % 2 ^ 9)
       (s.Ready g [pd] c →
         Computes (.movxRead g j d) s c 8 0 (some pd) (fun i => .ofVal (match j.toNat with
           | 0 => (c.th i).ix0.toNat | 1 => (c.th i).ix1.toNat | 2 => (c.th i).ix2.toNat | _ => (c.th i).ix3.toNat)))
       ∧ (s.Ready g [pa] c → (∀ i ∈ c.on, bad i = false) →
         ∃ w : Warp, Goes (.movxWrite g j a) s c 8 (s.issued.updWarp c.ref.team c.ref.warp (fun _ => w))
           ∧ { w with threads := c.warp.threads } = c.warp ∧ w.threads.length = c.warp.threads.length
           ∧ ∀ i, if i ∈ c.on ∧ i < c.warp.threads.length then
               let v := c.u32 i pa
               (∀ k < 32, ((w.thread i).ix j).getLsbD k = (v.testBit k && decide (k < 9 ∨ 10 ≤ k ∧ k < 29)))
                 ∧ (∀ k : BitVec 2, k ≠ j → (w.thread i).ix k = (c.th i).ix k)
                 ∧ { w.thread i with ix0 := (c.th i).ix0, ix1 := (c.th i).ix1, ix2 := (c.th i).ix2, ix3 := (c.th i).ix3 } = c.th i
             else w.thread i = c.th i)
       ∧ (∀ i, s.Ready g [pa] c → c.on.find? bad = some i →
         exec (.movxWrite g j a) s = .next (s.issued.deliver c.ref ⟨0x02#8, BitVec.ofNat 64 (i % 32 + 256), 0⟩)))

/-- R317, R374, R387: SHFL, VOTE and BALLOT read every thread in which the guard holds before any of them is written.
R368: REDW reduces the values of the threads in which the guard holds and writes the result in each of them: an integer sum
wraps, minimum and maximum are one of the values and bound all, bit operations act bit by bit; a floating chain goes in
thread order, its flags in every contributor. -/
def Obligations.WarpWideAndReduction : Prop :=
  (∀ (s : State) (g : Guard) (t : Ty) (op : ShflOp) (vop : VoteOp) (p : BitVec 3) (q : PSrc) (d a b : Opnd) (c : Ctx),
     let pd := Pos.dst d (d.bits == t.bits)
     let pa := Pos.src 1 a (a.isReg && a.bits == t.bits)
     let pb := Pos.src 2 b b.src32
     let pm := Pos.dst d (d.isReg && d.bits == 32)
     let holds := fun i => q.value (c.th i).preds
     (s.Ready g [pd, pa, pb] c →
       Computes (.shfl g t op d a b) s c 8 0 (some pd) (fun j =>
         let k : Int := match op with
           | .idx => c.u32 j pb
           | .up => (j : Int) - c.u32 j pb
           | .down => j + c.u32 j pb
           | .xor => (j ^^^ c.u32 j pb : Nat)
         .ofVal (if 0 ≤ k ∧ k.toNat ∈ c.on then c.raw k.toNat pa else c.raw j pa)))
     ∧ (s.Ready g [] c →
       ∃ v : Bool, Computes (.vote g vop p q) s c 8 0 none (fun _ => ⟨none, some (p, v), 0#5⟩)
         ∧ (v = true ↔ match vop with
           | .all => ∀ i ∈ c.on, holds i = true
           | .any => ∃ i ∈ c.on, holds i = true
           | .uni => ∀ i ∈ c.on, ∀ k ∈ c.on, holds i = holds k))
     ∧ (s.Ready g [pm] c →
       ∃ v : Nat, Computes (.ballot g d q) s c 8 0 (some pm) (fun _ => .ofVal v)
         ∧ v < 2 ^ 32 ∧ ∀ k < 32, (v.testBit k = true ↔ k ∈ c.on ∧ holds k = true)))
  ∧ (∀ (s : State) (g : Guard) (t : Ty) (op : RedOp) (d a : Opnd) (c : Ctx),
       let pd := Pos.dst d (d.dstTy t)
       let pa := Pos.src 1 a (a.isReg && a.srcTy t)
       let xs := c.on.map (fun i => c.int t i pa)
       let val := fun v : Nat => intVal t.isSigned t.bits v
       s.Ready g [pd, pa] c →
         (t.fmt = none → 0 < t.bits →
           ∃ v : Nat, v < 2 ^ t.bits
             ∧ (match op with
               | .add => (v : Int) = (xs.map val).sum % (2 ^ t.bits : Nat)
               | .min => v ∈ xs ∧ ∀ x ∈ xs, val v ≤ val x
               | .max => v ∈ xs ∧ ∀ x ∈ xs, val x ≤ val v
               | .and => ∀ k, v.testBit k = true ↔ ∀ x ∈ xs, x.testBit k = true
               | .or => ∀ k, v.testBit k = true ↔ ∃ x ∈ xs, x.testBit k = true
               | .xor => ∀ k, v.testBit k = (xs.map (fun x => x.testBit k)).foldl (· != ·) false)
             ∧ ComputesIn (.redw g t op d a) s c 8 0 c.on (some pd) (fun _ => .ofVal (bitResult t d.bits v)))
         ∧ (∀ f, t.fmt = some f → (t = .f32 → ∀ x ∈ xs, isAbandoned x = false) →
           let r := redwChain t op (rmOf (c.th c.low).fctl) (ftzOf (c.th c.low).fctl) xs
           (∀ i ∈ c.on, r.2 &&& enablesOf (c.th i).fctl = 0#5) →
           ComputesIn (.redw g t op d a) s c 8 0 c.on (some pd) (fun _ => ⟨some r.1, none, r.2⟩)))

/-! ### Floating point, conversion and packing -/

/-- R110, R117, R156, R335, R336, R338: FADD, FSUB, FMUL, FMIN and FMAX, in the 64-bit and the 96X form, where no source is
abandoned and no enabled flag is raised: each element is the operation on its own elements under the rounding and flush
that MOD or %fctl select, and the raised flags are those of any element, put into %fstat.
R74, R110, R335, R336: FADD and FMUL with an immediate, a source read as its pattern under .f32, converted from FP32 under
.f64, else its low bits; FFMA rounds once. -/
def Obligations.FloatArithmetic : Prop :=
  (∀ (s : State) (g : Guard) (t : Ty) (f : Fmt) (m : FMode) (fl : Flush) (d a b : Opnd) (x : XCtl) (c : Ctx),
     let pd := (Pos.dst d (d.dstTy t)).withIx x
     let pa := (Pos.src 1 a (a.srcTy t)).withIx x
     let pb := (Pos.src 2 b (b.srcTy t)).withIx x
     let xs := fun j => [x.sw1.apply t (c.int t j pa), x.sw2.apply t (c.int t j pb)]
     let op2 := fun (h : RMode → Bool → Nat → Nat → Nat × Flags) (j : Nat) (l : List Nat) =>
       h (m.rnd.mode (c.th j).fctl) (m.flush.on (c.th j).fctl) (l.getD 0 0) (l.getD 1 0)
     let sel := fun (low : Bool) (j : Nat) (l : List Nat) => f.select low (fl.on (c.th j).fctl) (l.getD 0 0) (l.getD 1 0)
     let goes := fun (i : Instr) (len : Nat) (h : Nat → List Nat → Nat × Flags) =>
       Silent c (some pd) t h xs → FltComputes i s c len 0 pd t h xs
     t.fmt = some f → s.Ready g [pd, pa, pb] c → Sound c (some pd) t (fun j => [c.int t j pa, c.int t j pb]) →
       goes (.faddX g t m d a b x) 12 (op2 f.add) ∧ goes (.fsubX g t m d a b x) 12 (op2 f.sub)
       ∧ goes (.fmulX g t m d a b x) 12 (op2 f.mul)
       ∧ goes (.fminX g t fl d a b x) 12 (sel true) ∧ goes (.fmaxX g t fl d a b x) 12 (sel false)
       ∧ (x = .plain →
         goes (.fadd g t m d a b) 8 (op2 f.add) ∧ goes (.fsub g t m d a b) 8 (op2 f.sub) ∧ goes (.fmul g t m d a b) 8 (op2 f.mul)
         ∧ goes (.fmin g t fl d a b) 8 (sel true) ∧ goes (.fmax g t fl d a b) 8 (sel false)))
  ∧ (∀ (s : State) (g : Guard) (t : Ty) (f : Fmt) (m : FMode) (d a b k : Opnd) (imm : Word) (x : XCtl) (c : Ctx),
       let pd := (Pos.dst d (d.dstTy t)).withIx x
       let pa := (Pos.src 1 a (a.srcTy t)).withIx x
       let pb := (Pos.src 2 b (b.srcTy t)).withIx x
       let pk := (Pos.src 3 k (k.srcTy t)).withIx x
       let y := if t = .f64 then (Fmt.f64.ofVal .rn false (Fmt.f32.val imm.toNat)).1 else imm.toNat % 2 ^ t.bits
       let op2 := fun (h : RMode → Bool → Nat → Nat → Nat × Flags) (j : Nat) (l : List Nat) =>
         h (m.rnd.mode (c.th j).fctl) (m.flush.on (c.th j).fctl) (l.getD 0 0) (l.getD 1 0)
       let fma := fun (j : Nat) (l : List Nat) =>
         f.fma (m.rnd.mode (c.th j).fctl) (m.flush.on (c.th j).fctl) (l.getD 0 0) (l.getD 1 0) (l.getD 2 0)
       let xi := fun j => [c.int t j pa, y]
       let x3 := fun j => [x.sw1.apply t (c.int t j pa), x.sw2.apply t (c.int t j pb), x.sw3.apply t (c.int t j pk)]
       t.fmt = some f →
         (x = .plain → s.Ready g [pd, pa] c → Sound c (some pd) t xi →
           (Silent c (some pd) t (op2 f.add) xi → FltComputes (.faddI g t m d a imm) s c 12 0 pd t (op2 f.add) xi)
           ∧ (Silent c (some pd) t (op2 f.mul) xi → FltComputes (.fmulI g t m d a imm) s c 12 0 pd t (op2 f.mul) xi))
         ∧ (s.Ready g [pd, pa, pb, pk] c → Sound c (some pd) t (fun j => [c.int t j pa, c.int t j pb, c.int t j pk]) →
           Silent c (some pd) t fma x3 → FltComputes (.ffma g t m d a b k x) s c 12 0 pd t fma x3))

/-- R80, R81, R110, R339, R340, R342: FRCP, FRSQ and FSFN, whose destination opens a window of LA instructions, and FRND.
R337, R341: FSET's comparison of its flushed inputs, with NV for a signalling NaN alone; FCLS, of a floating format or of D8,
sets exactly one bit, its class, and raises no flag. FSFN's value is free within R343's bounds (log 9). -/
def Obligations.FloatOneSourceAndCompare : Prop :=
  (∀ (s : State) (g : Guard) (la : BitVec 4) (t : Ty) (f : Fmt) (m : FMode) (fl : Flush) (op : SfnOp) (d a : Opnd) (c : Ctx),
     let pd := Pos.dst d (d.dstTy t)
     let pa := Pos.src 1 a (a.srcTy t)
     let xs := fun j => [c.int t j pa]
     let op1 := fun (h : RMode → Bool → Nat → Nat × Flags) (j : Nat) (l : List Nat) =>
       h (m.rnd.mode (c.th j).fctl) (m.flush.on (c.th j).fctl) (l.getD 0 0)
     let sfn := fun (j : Nat) (l : List Nat) => f.sfn op (rmOf (c.th j).fctl) (fl.on (c.th j).fctl) (l.getD 0 0)
     let goes := fun (i : Instr) (la : Nat) (h : Nat → List Nat → Nat × Flags) =>
       Silent c (some pd) t h xs → FltComputes i s c 8 la pd t h xs
     t.fmt = some f → s.Ready g [pd, pa] c → Sound c (some pd) t xs →
       goes (.frcp g la t m d a) la.toNat (op1 f.rcp) ∧ goes (.frsq g la t m d a) la.toNat (op1 f.rsq)
       ∧ goes (.fsfn g la t op fl d a) la.toNat sfn ∧ goes (.frnd g t m d a) 0 (op1 f.rint))
  ∧ (∀ (s : State) (g : Guard) (t : Ty) (f : Fmt) (op : FCmp) (ftz : Bool) (p : BitVec 3) (d a b : Opnd) (x : XCtl) (imm : Word)
         (c : Ctx),
       let pd := Pos.dst d d.reg32
       let pa := (Pos.src 1 a (a.srcTy t)).withIx x
       let pb := (Pos.src 2 b (b.srcTy t)).withIx x
       let y := if t = .f64 then (Fmt.f64.ofVal .rn false (Fmt.f32.val imm.toNat)).1 else imm.toNat % 2 ^ t.bits
       let flushed := fun j v => f.flushIn (ftz || ftzOf (c.th j).fctl) v
       let nan := fun j u v => f.isNan (flushed j u) || f.isNan (flushed j v)
       let rel := fun j u v =>
         let k := (f.val (flushed j u)).cmp (f.val (flushed j v))
         match op with
         | .eq => !nan j u v && k == 0 | .ne => nan j u v || k != 0 | .lt => !nan j u v && decide (k < 0)
         | .le => !nan j u v && decide (k ≤ 0) | .gt => !nan j u v && decide (0 < k) | .ge => !nan j u v && decide (0 ≤ k)
         | .num => !nan j u v | .nan => nan j u v
       let eff := fun (z : Nat → Nat) (j : Nat) => (⟨none, some (p, rel j (c.int t j pa) (z j)),
         if f.isSnan (flushed j (c.int t j pa)) || f.isSnan (flushed j (z j)) then NV else 0#5⟩ : Eff)
       t.fmt = some f →
         (s.Ready g [pa, pb] c → Sound c none t (fun j => [c.int t j pa, c.int t j pb]) →
           c.quiet none (eff (fun j => c.int t j pb)) = true →
           Computes (.fsetX g t op ftz p a b x) s c 12 0 none (eff (fun j => c.int t j pb))
           ∧ (x = .plain → Computes (.fset g t op ftz p a b) s c 8 0 none (eff (fun j => c.int t j pb))))
         ∧ (x = .plain → s.Ready g [pa] c → Sound c none t (fun j => [c.int t j pa, y]) → c.quiet none (eff (fun _ => y)) = true →
           Computes (.fsetI g t op ftz p a imm) s c 12 0 none (eff (fun _ => y)))
         ∧ (x = .plain → s.Ready g [pd, pa] c →
           ∃ k : Nat → Nat, Computes (.fcls g t d a) s c 8 0 (some pd) (fun j => .ofVal (2 ^ k j))
             ∧ ∀ j, let v := c.int t j pa
               if t = .f32 ∧ isAbandoned v = true then k j = 10
               else if f.isSnan v = true then k j = 0
               else if f.isNan v = true then k j = 1
               else if f.isInf v = true then k j = (if f.neg v then 2 else 9)
               else if f.mag v = 0 then k j = (if f.neg v then 5 else 6)
               else if f.isSub v = true then k j = (if f.neg v then 4 else 7)
               else k j = (if f.neg v then 3 else 8)))
  ∧ (∀ (s : State) (g : Guard) (d a : Opnd) (c : Ctx),
       let pd := Pos.dst d d.reg32
       let pa := Pos.src 1 a (a.srcTy .d8)
       s.Ready g [pd, pa] c →
         Computes (.fcls g .d8 d a) s c 8 0 (some pd) (fun j =>
           let v := c.int .d8 j pa
           .ofVal (2 ^ (if v = 0x80 then 11 else if v = 0 then 6 else if 0x80 < v then 3 else 8))))

/-- R118, R332: CVTI extends or narrows an integer, wrapped or saturated; FCVT converts the exact value of its source, rounded
once, and an integer destination of another width goes through R49. -/
def Obligations.Conversions : Prop :=
  ∀ (s : State) (g : Guard) (dest frm : Ty) (m : FMode) (sat : Bool) (d a : Opnd) (x : XCtl) (c : Ctx),
    let pd := (Pos.dst d (d.dstTy dest)).withIx x
    let pa := (Pos.src 1 a (cvtSrc frm a)).withIx x
    let qd := (Pos.dst d (d.bits == dest.bits)).withIx x
    let qa := (Pos.src 1 a (!a.isReg || a.bits == frm.bits)).withIx x
    (s.Ready g [qd, qa] c →
      let eff := fun j => Eff.ofVal (writeWidth dest.isSigned sat dest.bits dest.bits (intVal frm.isSigned frm.bits (c.int frm j qa)))
      Computes (.cvtiX g dest frm sat d a x) s c 12 0 (some qd) eff
      ∧ (x = .plain → Computes (.cvti g dest frm sat d a) s c 8 0 (some qd) eff))
    ∧ (s.Ready g [pd, pa] c → Sound c (some pd) frm (fun j => [c.int frm j pa]) →
      let mode := fun j => m.rnd.mode (c.th j).fctl
      let flush := fun j => m.flush.on (c.th j).fctl
      let src := fun j => if frm.isIN then
          let u := intVal frm.isSigned frm.bits (c.int frm j pa)
          (FVal.fin (decide (u < 0)) u.natAbs 1, false)
        else fromVal frm (flush j) (c.int frm j pa)
      let whole := fun j =>
        let u := intVal frm.isSigned frm.bits (c.int frm j pa)
        if sat then clampI (intMin dest.isSigned dest.bits) (intMax dest.isSigned dest.bits) u
        else intVal dest.isSigned dest.bits (wrap dest.bits u)
      let r := fun j => convertVal dest (mode j) (flush j) sat (src j).2 (frm == .d8) (src j).1
      let eff := fun j => (if frm.isIN && dest.isIN then Eff.ofVal (writeWidth dest.isSigned sat dest.bits d.bits (whole j))
        else ⟨some (if dest.isIN then writeWidth dest.isSigned sat dest.bits d.bits (r j).1 else wrap d.bits (r j).1), none, (r j).2⟩ : Eff)
      c.quiet (some pd) eff = true →
        Computes (.fcvtX g dest frm m sat d a x) s c 12 0 (some pd) eff
        ∧ (x = .plain → Computes (.fcvt g dest frm m sat d a) s c 8 0 (some pd) eff))

/-- R360, R385: integer PACK narrows the elements of a into the low half and those of b into the high half; integer UNPK widens
the elements of one half.
R156, R360, R385: floating PACK rounds two FP32 values once into one format; floating UNPK widens exactly. -/
def Obligations.Packing : Prop :=
  (∀ (s : State) (g : Guard) (t : Ty) (md : BitVec 5) (hi : Bool) (d a b : Opnd) (x : XCtl) (c : Ctx),
     let pd := (Pos.dst d d.reg32).withIx x
     let pa := (Pos.src 1 a a.src32).withIx x
     let pb := (Pos.src 2 b b.src32).withIx x
     let qa := (Pos.src 1 a a.reg32).withIx x
     let w := t.ebits
     let n := t.elems / 2
     t.isIPack = true →
       (s.Ready g [pd, pa, pb] c →
         ∃ v : Nat → Nat, (∀ j ∈ c.runs (some pd), ∀ k < t.elems,
             let u := if k < n then c.u32 j pa / 2 ^ (2 * w * k) else c.u32 j pb / 2 ^ (2 * w * (k - n))
             v j / 2 ^ (w * k) % 2 ^ w = writeWidth t.isSigned (md.getLsbD 0) w w (intVal t.isSigned (2 * w) u))
           ∧ Computes (.packX g t md d a b x) s c 12 0 (some pd) (fun j => .ofVal (v j))
           ∧ (x = .plain → Computes (.pack g t md d a b) s c 8 0 (some pd) (fun j => .ofVal (v j))))
       ∧ (s.Ready g [pd, qa] c →
         ∃ v : Nat → Nat, (∀ j ∈ c.runs (some pd), ∀ k < n,
             let u := x.sw1.apply t (c.u32 j qa) / 2 ^ (w * (if hi then n + k else k)) % 2 ^ w
             v j / 2 ^ (2 * w * k) % 2 ^ (2 * w) = wrap (2 * w) (intVal t.isSigned w u))
           ∧ Computes (.unpkX g t hi d a x) s c 12 0 (some pd) (fun j => .ofVal (v j))
           ∧ (x = .plain → Computes (.unpk g t hi d a) s c 8 0 (some pd) (fun j => .ofVal (v j)))))
  ∧ (∀ (s : State) (g : Guard) (t : Ty) (f : Fmt) (md : BitVec 5) (m : FMode) (hi : Bool) (d a b : Opnd) (x : XCtl) (c : Ctx),
       let pd := (Pos.dst d d.reg32).withIx x
       let pa := (Pos.src 1 a a.src32).withIx x
       let pb := (Pos.src 2 b b.src32).withIx x
       let qa := (Pos.src 1 a a.reg32).withIx x
       let one := fun j v =>
         let u := Fmt.f32.flushIn (m.flush.on (c.th j).fctl) v
         let r := f.ofVal (m.rnd.mode (c.th j).fctl) (m.flush.on (c.th j).fctl) (Fmt.f32.val u)
         (r.1, r.2 ||| (if Fmt.f32.isSnan u then NV else 0#5))
       let eff := fun j =>
         let ra := one j (c.u32 j pa)
         let rb := one j (c.u32 j pb)
         (⟨some (ra.1 % 2 ^ 16 + 2 ^ 16 * (rb.1 % 2 ^ 16)), none, ra.2 ||| rb.2⟩ : Eff)
       let wide := if t.ebits = 16 then Fmt.f32 else Fmt.f16
       let ends := fun j k =>
         let u := f.flushIn (ftzOf (c.th j).fctl) (x.sw1.apply t (c.u32 j qa) / 2 ^ (t.ebits * (if hi then t.elems / 2 + k else k)) % 2 ^ t.ebits)
         ((wide.ofVal .rn false (f.val u)).1, if f.isSnan u then NV else 0#5)
       t.fmt = some f → t.isPacked = true →
         (t.ebits = 16 → FMode.ofCode md = .ok m → s.Ready g [pd, pa, pb] c →
           (∀ j ∈ c.runs (some pd), isAbandoned (c.u32 j pa) = false ∧ isAbandoned (c.u32 j pb) = false) →
           c.quiet (some pd) eff = true →
           Computes (.packX g t md d a b x) s c 12 0 (some pd) eff
           ∧ (x = .plain → Computes (.pack g t md d a b) s c 8 0 (some pd) eff))
         ∧ (s.Ready g [pd, qa] c →
           (∀ j ∈ c.runs (some pd), ∀ k < t.elems / 2, (ends j k).2 &&& enablesOf (c.th j).fctl = 0#5) →
           ∃ e : Nat → Eff, (∀ j ∈ c.runs (some pd), (e j).pred = none
               ∧ (∃ v, (e j).val = some v ∧ ∀ k < t.elems / 2, v / 2 ^ (2 * t.ebits * k) % 2 ^ (2 * t.ebits) = (ends j k).1 % 2 ^ (2 * t.ebits))
               ∧ ∀ b < 5, ((e j).flags.getLsbD b = true ↔ ∃ k < t.elems / 2, (ends j k).2.getLsbD b = true))
             ∧ Computes (.unpkX g t hi d a x) s c 12 0 (some pd) e
             ∧ (x = .plain → Computes (.unpk g t hi d a) s c 8 0 (some pd) e)))

/-- R155, R161, R386: VDOT adds the exact products of its elements to c and rounds once into FP32; a verdict in c passes
unchanged and raises no flag. -/
def Obligations.DotProduct : Prop :=
  ∀ (s : State) (g : Guard) (la : BitVec 4) (t : Ty) (f : Fmt) (m : FMode) (d a b k : Opnd) (x : XCtl) (c : Ctx),
    let pd := (Pos.dst d (d.dstFlt .f32)).withIx x
    let pa := (Pos.src 1 a (a.srcFlt t)).withIx x
    let pb := (Pos.src 2 b (b.srcFlt t)).withIx x
    let pk := (Pos.src 3 k k.src32).withIx x
    let z := fun j => c.val j pk false 32
    let mode := fun j => m.rnd.mode (c.th j).fctl
    let flush := fun j => m.flush.on (c.th j).fctl
    let u := fun j i => f.flushIn (flush j) (x.sw1.apply t (c.int t j pa) / 2 ^ (t.ebits * i) % 2 ^ t.ebits)
    let v := fun j i => f.flushIn (flush j) (x.sw2.apply t (c.int t j pb) / 2 ^ (t.ebits * i) % 2 ^ t.ebits)
    let terms := fun j => Fmt.f32.val (Fmt.f32.flushIn (flush j) (z j))
      :: (List.range t.elems).map (fun i => ((f.val (u j i)).mul (f.val (v j i))).1)
    let eff := fun j => (if isAbandoned (z j) then Eff.ofVal (z j)
      else ⟨some (Fmt.f32.ofVal (mode j) (flush j) (exactSum (mode j) (terms j)).1).1, none,
        (vdotValue t (mode j) (flush j) (x.sw1.apply t (c.int t j pa)) (x.sw2.apply t (c.int t j pb)) (z j)).2⟩ : Eff)
    t.fmt = some f → s.Ready g [pd, pa, pb, pk] c → Sound c (some pd) t (fun j => [c.int t j pa, c.int t j pb]) →
      c.quiet (some pd) eff = true → Computes (.vdot g la t m d a b k x) s c 12 la.toNat (some pd) eff

/-- R117, R156: where a running thread's .f32 source is abandoned, FADD, FSUB and FMUL take ABANDON, naming the lowest such
thread and its lowest such position (that it is the lowest position is the model's reading, log 19); where none is and a thread raises
a flag that it enables, they take FPEXC with the thread's flags and index. Neither writes anything: the trap is delivered in the state before.
R115: a magnitude n/d in units of 2^q, rounded: toward zero it is the floor; to nearest it is within half a unit, ties to
even; upward and downward go away from zero only on their own side; it is inexact exactly where it is no whole number. -/
def Obligations.FloatTrapsAndRounding : Prop :=
  (∀ (s : State) (g : Guard) (m : FMode) (d a b : Opnd) (c : Ctx) (n : Nat),
     let pd := Pos.dst d (d.dstTy .f32)
     let pa := Pos.src 1 a (a.srcTy .f32)
     let pb := Pos.src 2 b (b.srcTy .f32)
     let bad := fun j => isAbandoned (c.int .f32 j pa) || isAbandoned (c.int .f32 j pb)
     let flags := fun (h : RMode → Bool → Nat → Nat → Nat × Flags) (j : Nat) =>
       (h (m.rnd.mode (c.th j).fctl) (m.flush.on (c.th j).fctl) (c.int .f32 j pa) (c.int .f32 j pb)).2
     let enabled := fun (h : RMode → Bool → Nat → Nat → Nat × Flags) (j : Nat) => flags h j &&& enablesOf (c.th j).fctl != 0#5
     let traps := fun (i : Instr) (x : Trap) => exec i s = .next (s.issued.deliver c.ref x)
     s.Ready g [pd, pa, pb] c →
       ((c.runs (some pd)).find? bad = some n →
         let x : Trap := ⟨0x0C#8, BitVec.ofNat 64 (n % 32 + 256 * (if isAbandoned (c.int .f32 n pa) then 1 else 2)), 0⟩
         traps (.fadd g .f32 m d a b) x ∧ traps (.fsub g .f32 m d a b) x ∧ traps (.fmul g .f32 m d a b) x)
       ∧ ((c.runs (some pd)).find? bad = none →
         ((c.runs (some pd)).find? (enabled Fmt.f32.add) = some n →
           traps (.fadd g .f32 m d a b) ⟨0x11#8, BitVec.ofNat 64 ((flags Fmt.f32.add n).toNat + 65536 * n), 0⟩)
         ∧ ((c.runs (some pd)).find? (enabled Fmt.f32.sub) = some n →
           traps (.fsub g .f32 m d a b) ⟨0x11#8, BitVec.ofNat 64 ((flags Fmt.f32.sub n).toNat + 65536 * n), 0⟩)
         ∧ ((c.runs (some pd)).find? (enabled Fmt.f32.mul) = some n →
           traps (.fmul g .f32 m d a b) ⟨0x11#8, BitVec.ofNat 64 ((flags Fmt.f32.mul n).toNat + 65536 * n), 0⟩)))
  ∧ (∀ (mode : RMode) (neg : Bool) (q : Int) (n d : Nat),
       let u := n * 2 ^ (-q).toNat
       let v := d * 2 ^ q.toNat
       let r := roundAt mode neg q n d
       0 < d →
         (r.2 = true ↔ ¬ v ∣ u)
         ∧ (v ∣ u → r.1 * v = u)
         ∧ (mode = .rz ∨ (mode = .ru ∧ neg = true) ∨ (mode = .rd ∧ neg = false) → r.1 * v ≤ u ∧ u < (r.1 + 1) * v)
         ∧ ((mode = .ru ∧ neg = false) ∨ (mode = .rd ∧ neg = true) → u ≤ r.1 * v ∧ r.1 * v < u + v)
         ∧ (mode = .rn → 2 * (r.1 * v) ≤ 2 * u + v ∧ 2 * u ≤ 2 * (r.1 * v) + v
           ∧ (2 * (r.1 * v) = 2 * u + v ∨ 2 * u = 2 * (r.1 * v) + v → r.1 % 2 = 0)))

/-! ### The issue of an instruction and control flow -/

/-- R16, R54, R312: an instruction whose guard is false in every active thread has no effect: the leaf goes on after it, its
threads' windows have one instruction less, and nothing else changes but the model's marks of the issue (logs 2, 50). MMA, MSPA
and MDRN .reg act all the same (R129), and CPWAIT counts its issue (R102).
R51, R79, R84: an issue checks its operands kind by kind, ILLOPND, IXBOUND, RANGE, INVREG, and then LOOKAHEAD; the first
kind that any checked thread fails is the trap, delivered in the state before, and names the lowest such thread and its
lowest such position (which position is the model's reading, log 19). Threads in which the guard is false are not checked; INVREG and LOOKAHEAD pass over the threads
that do not read the operand (R130, R146), LOOKAHEAD over all but the one that a uniform destination runs in (R52).
R36, R48, R81: while a pending write of a thread that uses the operand holds it, the instruction does not issue: nothing changes
but the model's mark that it was held, by the leaf's own scoreboard where its first active thread waits, and else in its lane
(log 1). -/
def Obligations.IssueChecks : Prop :=
  (∀ (s : State) (i : Instr) (c : Ctx),
     i.hasWord = true → (match i with | .mma .. | .mspa .. | .cpwait .. => False | .mdrn _ _ op .. => op ≠ .reg | _ => True) →
     s.ctx (guardOf i) = some c → c.on = [] → exec i s = .next (s.issued.complete c.ref i.bytes))
  ∧ (∀ (s : State) (always : Bool) (len : Nat) (g : Guard) (ps : List Pos) (body : Ctx → State → Done) (c : Ctx) (i n : Nat),
       let fails := fun (bad : Pos → Nat → Bool) j => ps.any (fun p => bad p j)
       let none := fun bad => c.on.all (fun j => !fails bad j)
       let named := fun (bad : Pos → Nat → Bool) => c.on.find? (fails bad) = some i ∧ (ps.find? (fun p => bad p i)).map Pos.n = some n
       let traps := fun (cause : BitVec 8) (info : Nat) =>
         s.issueWith always len g ps body = .next (s.issued.deliver c.ref ⟨cause, BitVec.ofNat 64 info, 0⟩)
       let illopnd := fun (p : Pos) j => p.illopnd (c.th j)
       let ixbound := fun (p : Pos) j => p.ixbound (c.th j)
       let range := fun (p : Pos) j => p.range c.warp.alloc (c.th j)
       let invreg := fun (p : Pos) j => p.lanes.getLsbD j && p.invreg (c.th j)
       s.ctx g = some c → c.waits ps = false → s.uniWaits c ps = false →
         (named illopnd → traps 0x02#8 (i % 32 + 256 * n))
         ∧ (none illopnd = true → named ixbound → traps 0x05#8 (i % 32 + 256 * n))
         ∧ (none illopnd = true → none ixbound = true → named range → traps 0x03#8 (i % 32 + 256 * n))
         ∧ (none illopnd = true → none ixbound = true → none range = true → named invreg → traps 0x04#8 (i % 32 + 256 * n))
         ∧ (∀ w : Window, none illopnd = true → none ixbound = true → none range = true → none invreg = true →
             c.launch.strict = true →
             c.on.findSome? (fun j => ps.findSome? (fun p => if c.uses ps p j then p.window? (c.th j) else Option.none)) = some w →
             traps 0x1A#8 w.pc.toNat))
  ∧ (∀ (s : State) (always : Bool) (len : Nat) (g : Guard) (ps : List Pos) (body : Ctx → State → Done) (c : Ctx) (i : Nat) (p : Pos)
         (w : Window),
       let holds := fun (j : Nat) => j ∈ c.on ∧ ∃ q ∈ ps, c.uses ps q j = true ∧ q.slices ≠ 0 ∧ ∃ x ∈ (c.th j).wins,
         x.landed = false ∧ x.left = 0 ∧ x.todo &&& sliceMask (q.start (c.th j)) q.slices ≠ 0#512
       s.ctx g = some c → i ∈ c.on → p ∈ ps → c.uses ps p i = true → p.slices ≠ 0 → w ∈ (c.th i).wins → w.landed = false →
       w.left = 0 → w.todo &&& sliceMask (p.start (c.th i)) p.slices ≠ 0#512 →
         (∀ j, (maskThreads c.entry.mask).head? = some j → holds j →
           s.issueWith always len g ps body = .next { s with held := .scoreboard })
         ∧ (∀ j, (maskThreads c.entry.mask).head? = some j → ¬ holds j → s.uniWaits c ps = false →
           s.issueWith always len g ps body = .next { s with held := .lane }))

/-- R33, R37: a leaf that ends its instruction stands after it, unblocked; where that is its parent's reconvergence address it
is freed, and a join with no remaining child becomes a leaf of its threads that have not exited.
R358, R390: NOP in both forms only passes; YIELD passes and its leaf ranks last of its class at the next choice.
R33, R60, R334: EXIT ends the threads in which its guard holds: they have exited and no write of theirs stays pending; their
registers, and every other thread's, are as they were; no entry above them holds them any more; a warp whose last thread ends
gives its slices back to its lane's pool. -/
def Obligations.LeavesAndThreads : Prop :=
  (∀ (w : Warp) (id len : Nat) (e j : Entry),
     let pc := e.pc + BitVec.ofNat 32 len
     let u := w.movedTo e pc
     let rest := w.entries.filter (fun x => x.id != id)
     w.entry? id = some e → e.isLeaf = true → e.mask ≠ 0#32 →
       (w.arrives e pc = false → w.finish id len = u)
       ∧ (e.parent = some j.id → j.id ≠ id → w.entry? j.id = some j → j.isLeaf = false → pc = j.pc →
           pc.extractLsb' 0 2 = 0#2 → e.handler = j.handler →
         ((∃ x ∈ rest, x.parent = some j.id) → w.finish id len = { u with entries := rest })
         ∧ ((∀ x ∈ rest, x.parent ≠ some j.id) → j.mask &&& u.liveMask ≠ 0#32 → w.arrives j j.pc = false →
           w.finish id len = { u with
             entries := rest.map (fun x => if x.id == j.id then { x with isLeaf := true, mask := j.mask &&& u.liveMask } else x) })))
  ∧ (∀ (s : State) (g : Guard) (c : Ctx), s.Ready g [] c →
       Goes (.nop g) s c 8 s.issued ∧ Goes (.nopLong g) s c 12 s.issued
       ∧ exec (.yield g) s = .next ((s.issued.complete c.ref 8).updEntry c.ref (fun e => { e with yielded := true })))
  ∧ (∀ (s : State) (g : Guard) (c : Ctx),
       s.Ready g [] c → c.warp.handler = none → (∀ e ∈ c.warp.entries, ∀ k i n, e.wait ≠ .trap k i n) →
         ∃ t w, exec (.exit g) s = .next t ∧ t.warp? c.ref.team c.ref.warp = some w
           ∧ (∀ i < c.warp.threads.length, (w.thread i).regs = (c.th i).regs ∧ (w.thread i).preds = (c.th i).preds
               ∧ (w.thread i).exited = (decide (i ∈ c.on) || (c.th i).exited) ∧ (i ∈ c.on → (w.thread i).wins = []))
           ∧ (∀ e ∈ w.entries, e.id ∈ c.ref.leaf :: c.warp.ancestors c.ref.leaf c.warp.entries.length →
               ∀ i ∈ c.on, e.mask.getLsbD i = false)
           ∧ (w.entries = [] → c.team.state = .resident → (s.core c.team.die c.team.core).claims = [] →
               Tbl.get (t.core c.team.die c.team.core).charged c.warp.lane 0
                 = Tbl.get (s.core c.team.die c.team.core).charged c.warp.lane 0 - c.warp.alloc * c.warp.count)
           ∧ t.mem = s.mem)

/-- R33, R320, R322, R323, R369: BRA, BRX, CALL and RET. Where all threads go one way the leaf moves there; otherwise it
splits, the taken threads of BRA at the target and the others after it, the lowest target of BRX and RET first while the rest
execute the instruction again, under a join at the given address; RET's join is its lowest thread's target, and stays that when
the rest return. CALL writes the address after it and takes ILLOPND under a guard that is mixed. -/
def Obligations.Branches : Prop :=
  ∀ (s : State) (g : Guard) (a d : Opnd) (target join : Word) (c : Ctx),
    let pc := c.entry.pc
    let pa := Pos.src 1 a a.reg32
    let pd := Pos.dst d d.reg32
    let goes := fun (i : Instr) (to' : Word) =>
      exec i s = .next (s.issued.updWarp c.ref.team c.ref.warp (fun _ => c.warp.movedTo c.entry to'))
    let splits := fun (i : Instr) (passed m : BitVec 32) (pc1 pc2 j : Word) =>
      exec i s = .next ({ s.issued with nextId := s.nextId + 2 }.updWarp c.ref.team c.ref.warp
        (fun _ => c.warp.splitAs c.entry passed m pc1 pc2 j s.nextId (s.nextId + 1)))
    let to' := fun (len j : Nat) => if j ∈ c.on then BitVec.ofNat 32 (c.u32 j pa) else pc + BitVec.ofNat 32 len
    -- a RET's remainder keeps the first execution's join
    let again := fun (i : Instr) (m : BitVec 32) (x j : Word) =>
      exec i s = .next ({ s.issued with nextId := s.nextId + 2 }.updWarp c.ref.team c.ref.warp
        (fun _ => (c.warp.splitAs c.entry m m x pc j s.nextId (s.nextId + 1)).updEntry (s.nextId + 1) (fun e => { e with retJoin := some j })))
    let least := fun (len : Nat) (x : Word) => (∃ j ∈ maskThreads c.entry.mask, to' len j = x)
      ∧ ∀ j ∈ maskThreads c.entry.mask, x.toNat ≤ (to' len j).toNat
    let group := fun (len : Nat) (x : Word) => maskOf ((maskThreads c.entry.mask).filter (fun j => to' len j == x))
    c.entry.isLeaf = true →
    (s.Ready g [] c →
      (maskOf c.on = c.entry.mask → c.warp.arrives c.entry (pc + target) = false → goes (.bra g target join) (pc + target))
      ∧ (maskOf c.on ≠ c.entry.mask → c.splits s = true → (target ≠ join ∨ 16#32 ≠ join) →
        splits (.bra g target join) c.entry.mask (maskOf c.on) (pc + target) (pc + 16#32) (pc + join)))
    ∧ (∀ x : Word, s.Ready g [pa] c →
      (least 16 x → group 16 x = c.entry.mask → c.warp.arrives c.entry x = false → goes (.brx g a join) x)
      ∧ (least 16 x → group 16 x ≠ c.entry.mask → c.splits s = true → (x ≠ pc + join ∨ join ≠ 0#32) →
        splits (.brx g a join) (group 16 x) (group 16 x) x pc (pc + join))
      ∧ (least 8 x → group 8 x = c.entry.mask → c.warp.arrives c.entry x = false → goes (.ret g a) x)
      ∧ (least 8 x → group 8 x ≠ c.entry.mask → c.splits s = true →
        let j := c.entry.retJoin.getD (to' 8 c.low)
        (x ≠ j ∨ pc ≠ j) → again (.ret g a) (group 8 x) x j))
    ∧ (s.Ready g [pd] c →
      (maskOf c.on = c.entry.mask → c.warp.arrives c.entry (pc + target) = false →
        ∃ w, WarpAfter c 0 w (c.runs (some pd)) (some pd) (fun _ => .ofVal (pc + 12#32).toNat)
          ∧ exec (.call g d target) s = .next (s.issued.updWarp c.ref.team c.ref.warp (fun _ => w.movedTo c.entry (pc + target))))
      ∧ (maskOf c.on ≠ c.entry.mask → exec (.call g d target) s = .next (s.issued.deliver c.ref ⟨0x02#8, 0#64, 0⟩)))

/-! ### Traps, capabilities, special registers -/

/-- R105, R107, R253, R255, R319, R382: TRAP, SYSC, BKPT, ERET outside handler mode and a word with no meaning take their traps:
the warp enters its handler with the cause, %tinfo, %tepc and %tmask saved, and nothing else changes.
R256, R259: a trap in the handler, or of a warp without a trap vector, escalates while the escalation queue is enabled: the
team's save is due, the leaf stands after the SYSC and waits for it, and a 32-byte record waits to be posted, laid out as the rule
says. That the escalating leaf alone waits until the save stops the others is the model's reading (log 49). -/
def Obligations.TrapEntry : Prop :=
  (∀ (s : State) (g : Guard) (k : Opnd) (w : IWord) (c : Ctx) (v : Word),
     let pk := Pos.src 1 k k.src32
     s.Handled c v →
       (s.Ready g [pk] c →
         Enters (.trap g k) s c 0x15#8 (c.u32 c.low pk) 8 v ∧ Enters (.sysc g k) s c 0x17#8 (c.u32 c.low pk) 8 v)
       ∧ (s.Ready g [] c → Enters (.bkpt g) s c 0x16#8 0 8 v)
       ∧ (s.Ready Guard.always [] c → Enters .eret s c 0x01#8 0 0 v ∧ Enters (.unassignedOpcode w) s c 0x01#8 0 0 v))
  ∧ (∀ (s : State) (g : Guard) (k : Opnd) (c : Ctx),
       let pk := Pos.src 1 k k.src32
       let at_ := fun (r : List Byte) (a n : Nat) => leNat ((r.drop a).take n)
       s.Ready g [pk] c → s.warpPending c.ref.team c.ref.warp = false → s.ringOn c.team.die 1 = true →
       (c.warp.handler ≠ none ∧ c.entry.handler = true ∨ c.warp.handler = none ∧ s.vector c.team.launch = none) →
       c.team.escalated = false →
       c.team.die < 9 → c.team.core < 18 → c.warp.lane < 64 → c.warp.index < 1024 → c.team.num < 2 ^ 32 →
         ∃ t r w e, exec (.sysc g k) s = .next t
           ∧ t.team? c.ref.team = some { c.team with escalated := true }
           ∧ t.warp? c.ref.team c.ref.warp = some w ∧ w.entry? c.ref.leaf = some e ∧ e.pc = c.entry.pc + 8#32 ∧ e.wait = .escalated
           ∧ (t.die c.team.die).escalations
               = (s.die c.team.die).escalations ++ [⟨c.ref.team, s.handle c.team.launch, r, none⟩]
           ∧ r.length = 32 ∧ at_ r 0 4 = (s.handle c.team.launch).toNat ∧ at_ r 4 4 = c.team.num
           ∧ at_ r 8 2 = c.warp.index + 1024 * c.warp.lane ∧ at_ r 10 2 = 128 * c.team.core + 4096 * c.team.die
           ∧ at_ r 12 1 = (c.warp.handler.getD 0x17#8).toNat ∧ at_ r 13 1 = 0x17
           ∧ at_ r 16 8 = c.u32 c.low pk % 2 ^ 64 ∧ at_ r 24 4 = c.entry.pc.toNat ∧ at_ r 28 4 = c.entry.mask.toNat
           ∧ t.mem = s.mem)

/-- R105, R255: ERET in handler mode. After a CANCEL every thread of the warp has exited. After another trap the handler's
entries go, and the leaf of %tmask's threads that have not exited goes on at %tepc, past the instruction where its length
was kept; nothing else changes. -/
def Obligations.TrapReturn : Prop :=
  ∀ (s : State) (c : Ctx) (r : Entry) (k : BitVec 8),
    let pc := c.warp.tepc + BitVec.ofNat 32 c.warp.tlen
    let mask := c.warp.tmask &&& c.warp.liveMask
    s.Ready Guard.always [] c → c.warp.handler = some k → s.warpPending c.ref.team c.ref.warp = false →
    (∀ e ∈ c.warp.entries, e.wait = .none) → (s.core c.team.die c.team.core).claims = [] → c.warp.postedCancel = false →
      (k = 0x1D#8 → ∃ t w, exec .eret s = .next t ∧ t.warp? c.ref.team c.ref.warp = some w ∧ w.entries = [] ∧ w.handler = none
        ∧ ∀ th ∈ w.threads, th.exited = true ∧ th.wins = [])
      ∧ (k ≠ 0x1D#8 → mask ≠ 0#32 →
        r ∈ c.warp.entries → r.handler = true → (c.warp.entries.map Entry.id).Nodup →
        (∀ e ∈ c.warp.entries, e.handler = true → e.id ≠ r.id → ∃ j ∈ c.warp.entries, e.parent = some j.id ∧ j.handler = true) →
        (∀ j ∈ c.warp.entries, r.parent = some j.id → j.handler = false ∧ j.pc ≠ pc) →
          exec .eret s = .next (s.issued.updWarp c.ref.team c.ref.warp (fun _ =>
            { c.warp with
              handler := none
              entries := (c.warp.entries.filter (fun e => e.id == r.id || !e.handler)).map (fun e =>
                if e.id == r.id then
                  { r with isLeaf := true, mask := mask, pc := pc, passes := 0, promo := 0, yielded := false, handler := false
                           retJoin := if c.warp.tlen = 0 then c.warp.tret else none }
                else e) })))

/-- R326, R327, R328: CAPN narrows, CAPQ reads a field, CAPS seals. CAPN and CAPS check each guarded thread in order, and the
lowest one that fails decides the trap; where none fails, each has its capability, whole and tagged. -/
def Obligations.Capabilities : Prop :=
  ∀ (s : State) (g : Guard) (mask : BitVec 5) (d k a b : Opnd) (c : Ctx),
    let pd := Pos.dst d true
    let pk := Pos.src 1 k true
    let pa := Pos.src 2 a (capnSrc a)
    let pb := Pos.src 3 b (capnSrc b)
    let po := Pos.src 2 a a.src32
    let K := fun i => c.cap i pk
    let len := fun i => (K i).len * (if (K i).fmt = 1 then 65536 else 1)
    let x := fun i => c.u64 i pa
    let y := fun i => c.u64 i pb
    let info := fun (i order : Nat) => (K i).base % 2 ^ 56 + i % 32 * 2 ^ 56 + order * 2 ^ 61
    let sets := fun (ins : Instr) (n : Nat) (val : Nat → Cap) =>
      ∃ w, WarpAfter c 0 w c.on (some pd) (fun i => .ofVal (val i).bits)
        ∧ Goes ins s c n (s.issued.updWarp c.ref.team c.ref.warp (fun _ => { w with
            threads := (w.threads.zipIdx).map (fun p =>
              if p.2 ∈ c.on then { p.1 with tags := p.1.tags ||| granuleMask (pd.start (c.th p.2)) 32 } else p.1) }))
    let capn : Instr := .capn g mask d k a b
    let caps : Instr := .caps g d k a
    let narrow := fun i =>
      let perm := (K i).perm &&& (31 - mask.toNat)
      if y i < 2 ^ 40 then (⟨(K i).base + x i, y i, 0, perm, 0⟩ : Cap) else ⟨(K i).base + x i, y i / 65536, 1, perm, 0⟩
    let fits := fun i => c.capTag i pk = true ∧ (K i).otype = 0 ∧ x i + y i ≤ len i
      ∧ (y i < 2 ^ 40 ∨ ((K i).base + x i) % 65536 = 0 ∧ y i % 65536 = 0)
    let seals := fun i => c.capTag i pk = true ∧ (K i).otype = 0 ∧ (K i).perm.testBit 4 = true
      ∧ 0x100 ≤ c.u32 i po ∧ c.u32 i po ≤ 0xFFFF
    (s.Ready g [pd, pk, pa, pb] c →
      ((∀ i ∈ c.on, fits i) → sets capn 12 narrow)
      ∧ (∀ n, (∀ i ∈ c.on, i < n → fits i) → n ∈ c.on →
        (c.capTag n pk = false → Traps capn s c 0x06#8 (info n 2))
        ∧ (c.capTag n pk = true → (K n).otype ≠ 0 → Traps capn s c 0x08#8 (info n 3))
        ∧ (c.capTag n pk = true → (K n).otype = 0 → len n < x n + y n → Traps capn s c 0x09#8 (info n 4))))
    ∧ (s.Ready g [pd, pk, po] c →
      ((∀ i ∈ c.on, seals i) → sets caps 8 (fun i => { K i with otype := c.u32 i po }))
      ∧ (∀ n, (∀ i ∈ c.on, i < n → seals i) → n ∈ c.on →
        (c.capTag n pk = false → Traps caps s c 0x06#8 (info n 2))
        ∧ (c.capTag n pk = true → ¬ seals n → Traps caps s c 0x08#8 (info n 3))))
    ∧ (∀ op : CapField,
      let pq := Pos.dst d (match d with | .reg w _ => w == .w32 || w == .w64 | _ => false)
      s.Ready g [pq, pk] c →
        Computes (.capq g op d k) s c 8 0 (some pq) (fun i => .ofVal ((match op with
          | .base => (K i).base | .len => len i | .perm => (K i).perm | .otype => (K i).otype | .fmt => (K i).fmt
          | .tag => if c.capTag i pk then 1 else 0) % 2 ^ d.bits)))

/-- R59, R62: GIVE and CLAIM of n slices by a leaf that holds every live thread, with no claim waiting: the allocation, the
lane's pool and the promise or allowance move by n, the slices given up or gained are invalid and untagged. RGN sets the
region to the union of its spans. -/
def Obligations.LanePool : Prop :=
  ∀ (s : State) (k s0 s1 s2 s3 : Opnd) (c : Ctx) (n : Nat),
    let pk := Pos.src 1 k k.isUniImm
    let pool := fun (t : State) (f : Nat → Nat) (cl : Tbl (List (LeafRef × Nat)) → Tbl (List (LeafRef × Nat))) =>
      t.updCore c.team.die c.team.core (fun x => { x with
        charged := Tbl.put c.warp.lane (f (Tbl.get x.charged c.warp.lane 0)) x.charged, claims := cl x.claims })
    let wiped := fun (u : Warp) (a m : Nat) => u.threads.length = c.warp.threads.length ∧ ∀ i < u.threads.length,
      ((∀ q < 512, ¬ inSlices a m q → (u.thread i).raw q 1 = (c.th i).raw q 1)
        ∧ (∀ q < 256, (u.thread i).valid.getLsbD q = ((c.th i).valid.getLsbD q && !inSlices a m (2 * q)))
        ∧ (∀ q < 16, (u.thread i).tags.getLsbD q = ((c.th i).tags.getLsbD q
            && !(decide (a < 32 * (q + 1)) && decide (32 * q < a + m) && decide (0 < m))))
        ∧ (u.thread i).preds = (c.th i).preds)
    (s.Ready Guard.always [pk] c → c.signed c.low pk = (n : Int) → n % 8 = 0 → c.entry.mask = c.warp.liveMask →
      Tbl.get (s.core c.team.die c.team.core).claims c.warp.lane [] = [] → c.warp.alloc % 8 = 0 → c.warp.alloc ≤ 512 →
      c.entry.isLeaf = true → c.warp.arrives c.entry (c.entry.pc + 8#32) = false →
      (n + 8 ≤ c.warp.alloc → c.warp.pendingSlices (c.warp.alloc - n) c.warp.alloc = false →
        ∃ u : Warp, wiped u (c.warp.alloc - n) n
          ∧ { c.warp with alloc := c.warp.alloc - n, promise := c.warp.promise - n, region := u.region, threads := u.threads } = u
          ∧ (∀ m, c.warp.region = some m → ∃ m', u.region = some m' ∧ ∀ q < 512,
              m'.getLsbD q = (m.getLsbD q && !inSlices (c.warp.alloc - n) n q))
          ∧ exec (.give k) s = .next (pool (s.issued.updWarp c.ref.team c.ref.warp
              (fun _ => u.movedTo c.entry (c.entry.pc + 8#32))) (· - n * c.warp.count) id))
      ∧ (0 < n → n ≤ c.warp.allowance → c.warp.alloc + n ≤ 512 → 0 < c.warp.count →
        n * c.warp.count + Tbl.get (s.core c.team.die c.team.core).charged c.warp.lane 0 ≤ 98304 →
        c.warp.pendingSlices c.warp.alloc (c.warp.alloc + n) = false →
        ∃ u : Warp, wiped u c.warp.alloc n
          ∧ { c.warp with alloc := c.warp.alloc + n, allowance := c.warp.allowance - n, threads := u.threads } = u
          ∧ exec (.claim k) s = .next ((pool s.issued (· + n * c.warp.count) (Tbl.put c.warp.lane [])).updWarp c.ref.team c.ref.warp
              (fun _ => u.movedTo c.entry (c.entry.pc + 8#32)))))
    ∧ (let pos := fun (n : Nat) (o : Opnd) => (⟨n, o, none, o.isReg, false, false, BitVec.allOnes 32⟩ : Pos)
      let covers := fun (o : Opnd) (q : Nat) => match o with
        | .reg w st => !(w == .w4 && st == 0) && inSlices st.toNat w.slices q
        | _ => false
      s.Ready Guard.always [pos 0 s0, pos 1 s1, pos 2 s2, pos 3 s3] c →
        ∃ m : BitVec 512, (∀ q < 512, m.getLsbD q = (covers s0 q || covers s1 q || covers s2 q || covers s3 q))
          ∧ Goes (.rgn s0 s1 s2 s3) s c 12 (s.issued.updWarp c.ref.team c.ref.warp (fun u => { u with region := some m })))

/-- R25, R45, R65, R92, R113, R253, R272, R375, R376, R377: SRD of each special register and of each word of a control space that a
thread may read, SWR of %fctl, %fstat and, in handler mode, of %tepc and of each word, thread by thread; an unassigned number, the
mailbox's read, and a word that a thread may not write take ILLOPND, and so does a write out of handler mode.
R114: an SRD or SWR of %fstat waits while an earlier drain of a guarded thread has flags to raise.
That a word is asked for its Access column alone, and not for who writes it, is the model's reading (log 23). -/
def Obligations.SpecialRegisters : Prop :=
  ∀ (s : State) (g : Guard) (d a : Opnd) (w : WordRef) (c : Ctx),
    let pd := Pos.dst d d.src3264
    let pa := Pos.src 1 a (match a with | .imm _ => false | x => x.src3264)
    let reads := fun (f : Nat → Nat) => Computes (.srd g d w) s c 12 0 (some pd) (fun i => .ofVal (f i % 2 ^ d.bits))
    let claims := Tbl.get (s.core c.team.die c.team.core).claims c.warp.lane []
    let free := (98304 - Tbl.get (s.core c.team.die c.team.core).charged c.warp.lane 0) / 8
    let here := if w.die = 15#4 then c.team.die else w.die.toNat
    let n := w.num.toNat
    let own : List Nat := [0x10, 0x11]
    let clear := n = 0x11 → ∀ i ∈ c.on, s.flagsPending c i = false
    let waits := w.space = .special ∧ n = 0x11 ∧ ∃ i ∈ c.on, s.flagsPending c i = true
    (s.Ready g [pd] c →
      (waits → exec (.srd g d w) s = .next { s.issued with held := .scoreboard })
      ∧ (w.space = .special → clear →
        (n = 0 → reads (fun i => 32 * c.ref.warp + i)) ∧ (n = 1 → reads (fun _ => c.ref.warp)) ∧ (n = 2 → reads (fun _ => c.warp.lane))
        ∧ (n = 3 → reads (fun _ => c.team.num)) ∧ (n = 4 → reads (fun _ => c.team.threads)) ∧ (n = 5 → reads (fun _ => c.launch.teams))
        ∧ (n = 6 → reads (fun _ => if c.team.convoy = none then 0xFFFFFFFF else c.team.slot)) ∧ (n = 7 → reads (fun _ => c.warp.role))
        ∧ (n = 8 → reads (fun _ => c.team.core)) ∧ (n = 9 → reads (fun _ => c.team.die))
        ∧ (n = 0xA → reads (fun _ => (s.core c.team.die c.team.core).cyc.toNat)) ∧ (n = 0xB → reads (fun _ => c.warp.alloc))
        ∧ (n = 0xC → reads (fun _ => claims.length % 65536 * 65536 + free % 65536))
        ∧ (n = 0xD → reads (fun _ => if Config.stepIsB1 then 0xB1 else 0xA0))
        ∧ (n = 0x10 → reads (fun i => (c.th i).fctl.toNat)) ∧ (n = 0x11 → reads (fun i => (c.th i).fstat.toNat))
        ∧ (n = 0x18 → reads (fun _ => c.warp.tcause.toNat)) ∧ (n = 0x19 → reads (fun _ => c.warp.tinfo.toNat))
        ∧ (n = 0x1A → reads (fun _ => c.warp.tepc.toNat)) ∧ (n = 0x1B → reads (fun _ => c.warp.tmask.toNat))
        ∧ (n ∉ [0, 1, 2, 3, 4, 5, 6, 7, 8, 9, 0xA, 0xB, 0xC, 0xD, 0x10, 0x11, 0x18, 0x19, 0x1A, 0x1B] →
            Traps (.srd g d w) s c 0x02#8 0))
      ∧ (w.space = .die → 9 ≤ w.die.toNat → w.die ≠ 15#4 → Traps (.srd g d w) s c 0x02#8 0)
      ∧ (w.space = .die → w.die = 15#4 ∨ w.die.toNat < 9 →
        (0x100 ≤ n → n ≤ 0x108 → reads (fun _ => (s.dieWord here n).toNat))
        ∧ (∀ v, s.readDieWord here n = some v → reads (fun _ => v.toNat))
        ∧ (s.readDieWord here n = none → Traps (.srd g d w) s c 0x02#8 0))
      ∧ (w.space = .package → 0x50 ≤ n → n < 0x60 → Traps (.srd g d w) s c 0x02#8 0)
      ∧ (w.space = .package → 0x4000 ≤ n → n < 0x4000 + 16383 → reads (fun _ => (s.word n).toNat))
      ∧ (w.space = .package → (∀ v, s.readPackageWord n = some v → reads (fun _ => v.toNat))
        ∧ (s.readPackageWord n = none → Traps (.srd g d w) s c 0x02#8 0)))
    ∧ (s.Ready g [pa] c →
      (waits → exec (.swr g a w) s = .next { s.issued with held := .scoreboard })
      ∧ (w.space = .special → n ∉ own → n ≠ 0x1A → Traps (.swr g a w) s c 0x02#8 0)
      ∧ (c.warp.handler = none → w.space ≠ .special ∨ n = 0x1A → Traps (.swr g a w) s c 0x02#8 0)
      ∧ (w.space = .special → n ∈ own → clear →
        ∃ u : Warp, Goes (.swr g a w) s c 12 (s.issued.updWarp c.ref.team c.ref.warp (fun _ => u))
          ∧ { u with threads := c.warp.threads } = c.warp ∧ u.threads.length = c.warp.threads.length
          ∧ ∀ i, u.thread i =
              if i ∈ c.on ∧ i < c.warp.threads.length then
                let v := BitVec.ofNat 32 (c.raw i pa)
                if n = 0x10 then { c.th i with fctl := v &&& 0x1F07#32 } else { c.th i with fstat := v &&& 0x1F#32 }
              else c.th i)
      ∧ (w.space = .special → n = 0x1A → c.warp.handler ≠ none →
        Goes (.swr g a w) s c 12 (s.issued.updWarp c.ref.team c.ref.warp (fun u =>
          { u with tepc := BitVec.ofNat 32 (c.raw (c.on.getLastD 0) pa) })))
      ∧ (w.space = .package → n = 0x20 ∨ n = 0x2100 → c.warp.handler ≠ none →
        Goes (.swr g a w) s c 12 (s.issued.setWord n (BitVec.ofNat 64 (c.raw (c.on.getLastD 0) pa))))
      ∧ (c.warp.handler ≠ none →
        let written := fun (f : Word64 → State → State) (u : State) =>
          Goes (.swr g a w) s c 12 u ∧ (∀ i, c.on = [i] → u = f (BitVec.ofNat 64 (c.raw i pa)) s.issued)
        (w.space = .package →
          ((s.readPackageWord n).isSome = true ∨ isMailbox n = true →
            ∃ u, written (fun v y => y.writePackageWord false n v) u)
          ∧ (s.readPackageWord n = none → isMailbox n = false → Traps (.swr g a w) s c 0x02#8 0))
        ∧ (w.space = .die → w.die = 15#4 ∨ w.die.toNat < 9 →
          ((s.readDieWord here n).isSome = true → ∃ u, written (fun v y => y.writeDieWord false here n v) u)
          ∧ (s.readDieWord here n = none → Traps (.swr g a w) s c 0x02#8 0))))

/-! ### Memory -/

/-- R49, R57, R183, R351, R352, R381: LDS reads and STS writes the bits of its type at the offset that R183 decodes, a nibble
where the access has 4 bits; the later thread's store stands. A misaligned 128-bit access takes ILLOPND before anything, an
offset of 2^25 or more LSBOUND; the %tinfo of that ILLOPND is the model's reading (log 22). -/
def Obligations.LocalStore : Prop :=
  ∀ (s : State) (g : Guard) (la : BitVec 4) (t : Ty) (d o : Opnd) (imm : Word) (c : Ctx) (ld st : Instr) (len : Nat)
      (ps : List Pos) (off team : Nat → Nat),
    let bits := if t = .none then d.bits else t.bits
    let pd := Pos.dst d (loadOk t d)
    let pa : Pos := ⟨0, d, none, storeOk t d, true, false, BitVec.allOnes 32⟩
    let po := Pos.src 2 o o.src32
    let v := fun i => if bits = 4 then off i / 2 else off i
    let n := if bits = 4 then 1 else bits / 8
    let base := fun i => 2 * (v i % 2 ^ 19) + (if bits = 4 then off i % 2 else 0)
    let misaligned := fun i => bits == 128 && off i % 16 != 0
    (ld = .lds g la t d o ∧ st = .sts g la t o d ∧ len = 8 ∧ ps = [po] ∧ off = (fun i => c.u32 i po)
      ∨ ld = .ldsI g la t d imm ∧ st = .stsI g la t d imm ∧ len = 12 ∧ ps = [] ∧ off = fun _ => imm.toNat) →
      (s.Ready g (pd :: ps) c →
        ((∀ i ∈ c.runs (some pd), misaligned i = false ∧ s.Local c (v i) n (team i)) →
          ∃ x : Nat → Nat, (∀ i ∈ c.runs (some pd), x i < 2 ^ bits
              ∧ ∀ k < bits / 4, x i / 16 ^ k % 16 = s.localNibble (team i) (base i + k))
            ∧ Computes ld s c len la.toNat (some pd) (fun i => .ofVal (
                if t.isLogic then writeWidth t.isSigned false bits d.bits (intVal t.isSigned bits (x i)) else x i)))
        ∧ (∀ i, (c.runs (some pd)).find? misaligned = some i → Traps ld s c 0x02#8 (i % 32 + 512))
        ∧ ((∀ i ∈ c.runs (some pd), misaligned i = false) → (∃ i ∈ c.runs (some pd), 2 ^ 25 ≤ v i) → Traps ld s c 0x10#8 0))
      ∧ (s.Ready g (pa :: ps) c →
        ((∀ i ∈ c.on, misaligned i = false ∧ s.Local c (v i) n (team i)) →
          ∃ u, Goes st s c len u ∧ { u with teams := s.teams } = s.issued
            ∧ (∀ T, (u.team? T).map (fun y => { y with loc := [] }) = (s.team? T).map (fun y => { y with loc := [] }))
            ∧ ∀ T a, u.localNibble T a =
                match c.on.reverse.find? (fun i => team i == T && base i ≤ a && a < base i + bits / 4) with
                | some i => (if t = .none then c.raw i pa else c.int t i pa) / 16 ^ (a - base i) % 16
                | none => s.localNibble T a)
        ∧ (∀ i, c.on.find? misaligned = some i → Traps st s c 0x02#8 (i % 32 + 512))
        ∧ ((∀ i ∈ c.on, misaligned i = false) → (∃ i ∈ c.on, 2 ^ 25 ≤ v i) → Traps st s c 0x10#8 0))

/-- R48, R164, R165, R173, R174, R348, R349: an LD whose threads' accesses pass and translate, with no gather in flight and room
in the Quay, issues: its destinations pend, each line of each thread has a Quay entry that will answer that thread, or the gather
unit has them, and no byte of memory and no register has changed. -/
def Obligations.LoadsIssue : Prop :=
  ∀ (s : State) (g : Guard) (la : BitVec 4) (t : Ty) (d k o : Opnd) (imm : Word) (c : Ctx) (ld : Instr) (len : Nat)
      (ps : List Pos) (off : Nat → Int) (pas : Nat → List Nat) (lines : Nat → List LineAt),
    let bits := if t = .none then d.bits else t.bits
    let pd := Pos.dst d (loadOk t d)
    let pk := Pos.src 1 k true
    let po := Pos.src 2 o o.src3264
    let run := c.runs (some pd)
    let va := fun i => ((c.cap i pk).base : Int) + (if bits = 4 then off i / 2 else off i)
    let half := fun i => if bits = 4 then some (off i % 2 == 1) else none
    let n := if bits = 4 then 1 else bits / 8
    (ld = .ld g la t d k o ∧ len = 8 ∧ ps = [pd, pk, po] ∧ off = (fun i => c.signed i po)
      ∨ ld = .ldI g la t d k imm ∧ len = 12 ∧ ps = [pd, pk] ∧ off = fun _ => imm.toInt) →
    s.Ready g ps c →
    (∀ i ∈ run, Passes s c i pk (va i) n 1 (bits == 128) ⟨true, false, false⟩ (pas i) (lines i)) →
    (s.core c.team.die c.team.core).gathers = [] →
    (s.core c.team.die c.team.core).quay.length + (run.flatMap lines).length ≤ 256 →
      ∃ u w, Goes ld s c len u ∧ u.warp? c.ref.team c.ref.warp = some w ∧ Pending c w run pd s.nextId la.toNat
        ∧ u.mem = s.mem ∧ u.tags = s.tags ∧ u.teams = s.teams ∧ u.dies = s.dies ∧ u.writes = s.writes
        ∧ (u.core c.team.die c.team.core).loads = (s.core c.team.die c.team.core).loads
            ++ [⟨s.nextId, c.ref.team, c.ref.warp, ⟨t, bits, d.bits⟩,
                match d with | .uni r => some (r, c.warp.handler.isSome) | _ => none,
                run.map (fun i => ⟨i, pd.start (c.th i), (pas i).map (fun p => (p, none)), half i,
                  bits == 128 && (c.cap i pk).perm.testBit 2, false, false⟩)⟩]
        ∧ (∀ i ∈ run, ∀ l ∈ lines i,
            (∃ e ∈ (u.core c.team.die c.team.core).quay, e.store = false ∧ e.sent = false ∧ e.at_.line = l.line
              ∧ ∃ m : BitVec 32, (s.nextId, m) ∈ e.ops ∧ m.getLsbD i = true)
            ∨ ∃ x ∈ (u.core c.team.die c.team.core).gathers, x.load = some s.nextId ∧ ∃ y ∈ x.lines, y.line = l.line)

/-- R164, R165, R167, R173 to R175, R379, R380: an ST whose threads' accesses pass and translate, with no gather or scatter in
flight and room in the Quay, issues: every byte of every thread lies in a store entry of its line, or in the scatter; the
core's L1 is as it was; no byte of memory and no register has changed. A 128-bit store of a tagged granule needs STC. -/
def Obligations.StoresIssue : Prop :=
  ∀ (s : State) (g : Guard) (la : BitVec 4) (t : Ty) (a k o : Opnd) (imm : Word) (c : Ctx) (st : Instr) (len : Nat)
      (ps : List Pos) (off : Nat → Int) (pas : Nat → List Nat) (lines : Nat → List LineAt),
    let bits := if t = .none then a.bits else t.bits
    let pa : Pos := ⟨0, a, none, storeOk t a, true, false, BitVec.allOnes 32⟩
    let pk := Pos.src 1 k true
    let po := Pos.src 2 o o.src3264
    let va := fun i => ((c.cap i pk).base : Int) + (if bits = 4 then off i / 2 else off i)
    let half := fun i => if bits = 4 then some (off i % 2 == 1) else none
    let n := if bits = 4 then 1 else bits / 8
    let tagged := fun i => bits == 128 && a.isReg && c.capTag i pa
    let value := fun i => if t = .none then c.raw i pa else c.int t i pa
    let byte := fun (i j : Nat) => BitVec.ofNat 8 (if bits = 4 then value i % 16 else value i / 256 ^ j)
    let core := fun (u : State) => u.core c.team.die c.team.core
    (st = .st g la t k o a ∧ len = 8 ∧ ps = [pa, pk, po] ∧ off = (fun i => c.signed i po)
      ∨ st = .stI g la t k a imm ∧ len = 12 ∧ ps = [pa, pk] ∧ off = fun _ => imm.toInt) →
    s.Ready g ps c →
    (∀ i ∈ c.on, Passes s c i pk (va i) n (if tagged i then 10 else 2) (bits == 128) ⟨false, true, false⟩ (pas i) (lines i)) →
    (core s).gathers = [] → (core s).quay.length + (c.on.flatMap lines).length ≤ 256 →
      ∃ u, Goes st s c len u ∧ u.mem = s.mem ∧ u.tags = s.tags ∧ u.warps = s.warps ∧ u.teams = s.teams ∧ u.writes = s.writes
        ∧ (core u).loads = (core s).loads
        ∧ (core u).l1 = (core s).l1
        ∧ ∀ i ∈ c.on, ∀ (j p : Nat), j < n → (pas i)[j]? = some p → (∃ l ∈ lines i, l.line = p / 128) →
            let b : StoreByte := ⟨p, byte i j, half i, ⟨c.ref.team, c.ref.warp, i⟩, s.nextId⟩
            (∃ e ∈ (core u).quay, e.store = true ∧ e.sent = false ∧ e.at_.line = p / 128 ∧ b ∈ e.bytes)
            ∨ ∃ x ∈ (core u).gathers, x.load = none ∧ b ∈ x.bytes ∧ ∃ y ∈ x.lines, y.line = p / 128

/-- R156, R164, R165, R315, R316, R329, R363, R364, R366: ATOM and CAS send their threads' operations: an integer form's
destinations pend, a floating form's leaf waits for the return. RED's operations are counted in their launch, untranslated.
PREF takes no trap but those of R51 and changes no register and no byte. -/
def Obligations.AtomicsIssue : Prop :=
  ∀ (s : State) (g : Guard) (la : BitVec 4) (t : Ty) (op : AtomOp) (rop : RedOp) (l2 : Bool) (d k o a : Opnd) (x : XCtl) (c : Ctx)
      (pas : Nat → List Nat) (lines : Nat → List LineAt),
    let pd := (Pos.dst d (d.bits == t.bits)).withIx x
    let pk := Pos.src 1 k true
    let po := (Pos.src 2 o o.src3264).withIx x
    let pa := (Pos.src 3 a (atomSrc t a)).withIx x
    let qd := Pos.both 0 d (d.isReg && d.bits == t.bits)
    let qo := Pos.src 2 o o.src3264
    let qb := Pos.src 3 a (match a with | .reg w _ => w.bits == t.bits | .uni _ => t.bits == 32 | .imm _ => false)
    let n := t.bits / 8
    let val := fun i => x.sw3.apply t (c.int t i pa)
    let va := fun (p : Pos) i => ((c.cap i pk).base : Int) + c.signed i p
    let thread := fun (p : Pos) (i v w : Nat) => (⟨i, p.start (c.th i), (pas i).headD 0, (lines i).headD ⟨0, 0, 0, 0, 0⟩, v, w, none, 0#5, false⟩ : AtomThread)
    let sent := fun (i : Instr) (len : Nat) (p : Pos) (blocks : Bool) (r : AtomRec) =>
      (blocks = false → ∃ u w, Goes i s c len u ∧ u.warp? c.ref.team c.ref.warp = some w ∧ Pending c w (c.runs (some p)) p s.nextId la.toNat
        ∧ u.atoms = s.atoms ++ [r] ∧ u.mem = s.mem ∧ u.teams = s.teams)
      ∧ (blocks = true → ∃ u, exec i s = .next u ∧ u.atoms = s.atoms ++ [r] ∧ u.mem = s.mem ∧ u.teams = s.teams
        ∧ u.warp? c.ref.team c.ref.warp = some { c.warp with entries := c.warp.entries.map (fun e =>
            if e.id == c.entry.id then { e with wait := .atomic s.nextId, passes := 0, promo := 0, yielded := false } else e) })
    let free := (s.core c.team.die c.team.core).gathers = []
    let sound := fun (f : Nat → Nat) => t = .f32 → ∀ i ∈ c.on, isAbandoned (f i) = false
    8 ≤ t.bits →
    (s.Ready g [pd, pk, po, pa] c → free → sound val →
      (∀ i ∈ c.runs (some pd), Passes s c i pk (va po i) n 3 true ⟨true, true, false⟩ (pas i) (lines i)) →
        sent (.atom g la t op d k o a x) 12 pd t.fmt.isSome
          ⟨s.nextId, .rmw op, t, c.ref, c.entry.pc, match d with | .uni r => some (r, c.warp.handler.isSome) | _ => none, la.toNat,
            t.fmt.isSome, (c.runs (some pd)).map (fun i => thread pd i (val i) 0)⟩)
    ∧ (s.Ready g [qd, pk, qo, qb] c → free → sound (fun i => c.raw i qd) → sound (fun i => c.raw i qb) →
      (∀ i ∈ c.on, Passes s c i pk (va qo i) n 3 true ⟨true, true, false⟩ (pas i) (lines i)) →
        sent (.cas g la t d k o a) 16 qd (t == .f32)
          ⟨s.nextId, .cas, t, c.ref, c.entry.pc, none, la.toNat, t == .f32,
            c.on.map (fun i => thread qd i (c.raw i qb) (c.raw i qd))⟩)
    ∧ (s.Ready g [pk, po, pa] c → sound val →
      (∀ i ∈ c.on, c.capTag i pk = true ∧ (c.cap i pk).otype = 0 ∧ (c.cap i pk).perm &&& 3 = 3 ∧ va po i % n = 0
        ∧ ((c.cap i pk).base : Int) ≤ va po i ∧ va po i + n ≤ ((c.cap i pk).base + (c.cap i pk).length : Nat) ∧ va po i + n ≤ (2 ^ 56 : Nat)) →
        ∃ u, Goes (.red g la t rop k o a x) s c 12 u ∧ u.mem = s.mem ∧ u.warps = s.warps ∧ u.teams = s.teams
          ∧ (u.completion c.team.launch).count = (s.completion c.team.launch).count + c.on.length
          ∧ u.reds = s.reds ++ (c.on.zipIdx).map (fun p =>
              ⟨s.nextId + 1 + p.2, s.nextId, c.team.launch, c.launch.asid, c.launch.secure, c.team.die, c.team.core,
                ⟨c.ref.team, c.ref.warp, p.1⟩, rop, t, (va po p.1).toNat, val p.1, none⟩))
    ∧ (s.Ready g [pk, qo] c →
        ∃ u, Goes (.pref g la l2 k o) s c 8 u ∧ u.mem = s.mem ∧ u.tags = s.tags ∧ u.warps = s.warps ∧ u.teams = s.teams)

/-- R10, R173, R174, R178, R233: a Quay entry is sent, a load's behind the older stores of its line: a load entry stays, sent; a
store entry becomes a write on its way to its home. The gather unit takes the next line of its oldest gather or scatter: the line of
a scatter becomes a write with that line's bytes. No byte of memory changes.
R48, R49, R173, R174, R349: a line that returns, or that the gather unit reads, fills the bytes of the threads that wait for it, once
what they must follow is performed; what that is is the model's reading of the order rules (logs 20, 50).
A load of one thread, all of whose bytes came, lands: its destination slices hold the value, are valid, and pend no more; the
load is gone. One whose bytes have not all come waits on with those it has. -/
def Obligations.LoadsReturn : Prop :=
  (∀ (s : State) (die core entry : Nat) (e : QuayEntry) (x : GatherOp) (l : LineAt) (rest : List LineAt) (more : List GatherOp),
     let k := fun (u : State) => u.core die core
     ((k s).quay.find? (fun y => y.id == entry && !y.sent) = some e →
       (e.store = true ∨ ∀ o ∈ (k s).quay, o.store = true → o.at_.line = e.at_.line → e.id ≤ o.id) →
       ∃ u, exec (.quayWindowClose die core entry) s = .next u ∧ u.mem = s.mem ∧ u.warps = s.warps ∧ (k u).loads = (k s).loads
         ∧ (e.store = false → u.writes = s.writes
           ∧ (k u).quay = (k s).quay.map (fun y => if y.id == entry then { y with sent := true } else y))
         ∧ (e.store = true → u.writes = s.writes ++ [⟨e.id, e.at_, die, core, e.bytes, e.tagged, []⟩]
           ∧ (k u).quay = (k s).quay.filter (fun y => y.id != entry)))
     ∧ ((k s).gathers = x :: more → x.lines = l :: rest → x.load = none →
       s.linked die (homeOf (l.line * 128)) = true →
       ∃ u, exec (.gatherLine die core) s = .next u ∧ u.mem = s.mem ∧ u.warps = s.warps
         ∧ (rest = [] → (k u).gathers = more)
         ∧ (rest ≠ [] → (k u).gathers = ((k s).gathers).map (fun y =>
             if y.id == x.id then { y with lines := rest, bytes := y.bytes.filter (fun b => b.addr / 128 != l.line) } else y))
         ∧ ∃ n, u.writes = s.writes ++ [⟨n, l, die, core, x.bytes.filter (fun b => b.addr / 128 == l.line),
             x.tagged.filter (fun q => q / 8 == l.line), []⟩]))
  ∧ (∀ (s : State) (die core entry : Nat) (e : QuayEntry) (x : GatherOp) (at_ : LineAt) (rest : List LineAt) (ld : LoadOp) (t : LoadThread)
         (w : Warp) (b : Window) (byte : Nat → Byte) (m : BitVec 32) (i : Instr),
       let k := fun (u : State) => u.core die core
       let line := at_.line
       let cells := t.cells.map (fun p => if p.1 / 128 = line && p.2.isNone then (p.1, some (byte p.1)) else p)
       let raw := leNat (cells.map (fun p => p.2.getD 0#8))
       let part := match t.half with | none => raw | some h => if h then raw / 16 % 16 else raw % 16
       let value := if ld.form.ty.isLogic then
           writeWidth ld.form.ty.isSigned false ld.form.bits ld.form.dw (intVal ld.form.ty.isSigned ld.form.bits part) else part
       let n := ld.form.dw / 4
       let th := w.thread t.thread
       (i = .loadLineReturn die core entry ∧ s.choice = 0#128 ∧ (k s).quay.find? (fun y => y.id == entry && y.sent) = some e ∧ e.at_ = at_
           ∧ e.ops = [(ld.id, m)] ∧ m.getLsbD t.thread = true ∧ (k s).line? line = none ∧ s.mayFill die core e.ops line = true
         ∨ i = .gatherLine die core ∧ (k s).gathers = [x] ∧ x.lines = at_ :: rest ∧ x.load = some ld.id
           ∧ s.mayFill die core [(ld.id, BitVec.allOnes 32)] line = true) →
       (∀ p ∈ t.cells, p.1 / 128 = line → byte p.1 = s.physByte p.1) →
       (k s).loads = [ld] → ld.threads = [t] → t.done = false → s.warp? ld.team ld.warp = some w →
       (∀ y ∈ w.entries, ∀ c j m, y.wait ≠ .trap c j m) →
         ((∃ p ∈ cells, p.2 = none) →
           ∃ u, exec i s = .next u ∧ u.mem = s.mem ∧ u.warps = s.warps
             ∧ ∃ tag, (k u).loads = [{ ld with threads := [{ t with cells := cells, tag := tag }] }])
         ∧ ((∀ p ∈ cells, p.2 ≠ none) → ld.uni = none → t.thread < w.threads.length →
           th.wins = [b] → b.op = ld.id → b.landed = false → b.left = 0 → b.todo = sliceMask t.start n → 0 < n → t.start + n ≤ 512 →
           ∃ u v, exec i s = .next u ∧ u.mem = s.mem ∧ (k u).loads = [] ∧ u.warp? ld.team ld.warp = some v
             ∧ (∀ q < n, (v.thread t.thread).raw (t.start + q) 1 = value / 16 ^ q % 16)
             ∧ (∀ q < 512, inSlices t.start n q = false → th.halfOf t.start n q = false → (v.thread t.thread).raw q 1 = th.raw q 1)
             ∧ (v.thread t.thread).valid = th.valid ||| byteMask t.start n ∧ (v.thread t.thread).wins = []
             ∧ (∀ j, j ≠ t.thread → v.thread j = w.thread j) ∧ v.entries = w.entries))

/-- R10, R167, R173, R181, R184, R233, R237, R248: the bytes of a sent write at the offsets that the step selects, and the tagged units
among them whole, are performed at their home once it can be reached, their page does not move, and what they must follow is
performed (which accesses those are is the model's reading, logs 20, 50). They stand there, the later of two over one byte; every byte of another cell is as it was; the units they touch are
untagged but for those the write tags; the rest of the write is still on its way. A nibble store reads its byte first, in a step of
its own, and is laid over what it read.
R156, R245, R246, R315, R329: the next thread's operation of an ATOM or CAS: one indivisible read and write of its element at
the home. An abandoned FP32 element stays and the thread is marked; every other byte of memory is as it was.
R114, R156, R247, R316, R329: an ATOM or CAS whose threads' operations are all performed returns. Each thread's destination
holds its old value, its flags are raised, and a leaf that waited goes on after the instruction; where a thread's operand in
memory was abandoned, or a thread raises a flag that it enables, the waiting leaf takes ABANDON or FPEXC with bit 31 set. -/
def Obligations.RequestsPerform : Prop :=
  (∀ (s : State) (id : Nat) (w : WriteRec),
     let sel := ~~~s.choice
     let cell := fun (b : StoreByte) => s.cell? b.addr
     let bs := w.chosen sel
     let units := bs.map (fun b => b.addr / 16)
     let rest := s.setWrite (w.without bs)
     s.writes.find? (fun x => x.id == id) = some w → bs ≠ [] → rest.mayWrite w.die bs = true →
       (w.unread bs ≠ [] →
         ∃ u r, exec (.memoryWritePerform id) s = .next u ∧ { u with writes := s.writes } = s
           ∧ u.writes = s.writes.map (fun x => if x.id == w.id then { w with reads := r } else x)
           ∧ ∀ a, Tbl.look a r = if a ∈ w.unread bs then some (s.physByte a) else Tbl.look a w.reads)
       ∧ (w.unread bs = [] →
         ∃ u, exec (.memoryWritePerform id) s = .next u ∧ u.writes = rest.writes
           ∧ (∀ a, (∀ b ∈ bs, cell b ≠ s.cell? a) → u.physByte a = s.physByte a)
           ∧ (∀ l b r, bs = l ++ b :: r → b.nib = none → (∀ x ∈ r, cell x ≠ cell b) → (cell b).isSome = true →
               u.physByte b.addr = b.byte)
           ∧ (∀ b h v, bs = [b] → b.nib = some h → Tbl.look b.addr w.reads = some v → (cell b).isSome = true →
               (u.physByte b.addr).toNat = if h then v.toNat % 16 + 16 * (b.byte.toNat % 16)
                 else 16 * (v.toNat / 16) + b.byte.toNat % 16)
           ∧ (∀ b ∈ bs, (cell b).isSome = true →
               (∀ x ∈ w.tagged, x ∈ units → (s.cell? (16 * x)).map (· / 16) ≠ (cell b).map (· / 16)) → u.unitTag b.addr = false)
           ∧ (∀ x ∈ w.tagged, x ∈ units → (s.cell? (16 * x)).isSome = true → u.unitTag (16 * x) = true)))
  ∧ ((∀ (s : State) (team warp op : Nat) (a : AtomRec) (t : Team) (x : AtomThread),
        let n := a.ty.bits / 8
        let old := leNat (s.physRead x.addr n)
        let bits := a.ty.bits
        let ord := fun (v w : Nat) => decide (intVal a.ty.isSigned bits v ≤ intVal a.ty.isSigned bits w)
        let bad := a.ty = .f32 ∧ isAbandoned old = true
        let flt := fun (r : RedOp) (f : Fmt) (l : List Nat) => match r with
          | .add => f.add .rn false (l.getD 0 0) (l.getD 1 0)
          | .min => f.select true false (l.getD 0 0) (l.getD 1 0)
          | _ => f.select false false (l.getD 0 0) (l.getD 1 0)
        let done := fun (u : State) (v : Nat) (y : AtomThread → AtomThread) =>
          u.atoms = s.atoms.map (fun r => if r.id == op then
              { r with threads := r.threads.map (fun z => if z.thread == x.thread then y z else z) } else r)
            ∧ u.physRead x.addr n = natLe n v ∧ KeepsBytes s u x.addr n
        s.atoms.find? (fun r => r.id == op && r.leaf.team == team && r.leaf.warp == warp) = some a → s.team? team = some t →
        a.threads.find? (fun y => y.old.isNone && !y.bad) = some x → s.linked t.die (homeOf x.addr) = true →
        (∀ i < n, s.writeFree ⟨team, warp, x.thread⟩ a.id (x.addr + i) = true) →
        s.monitorsReleased ⟨team, warp, x.thread⟩ a.id (((List.range n).map (fun i => x.addr + i)).filterMap s.cell?) = true →
        s.pageMoving x.addr = false → bits % 8 = 0 → s.Apart x.addr n → x.a < 2 ^ bits →
          ∃ u, exec (.atomPerform team warp op) s = .next u
            ∧ (bad → done u old (fun z => { z with bad := true }))
            ∧ (¬ bad → a.kind = .cas → done u (if old = x.cmp then x.a else old) (fun z => { z with old := some old, flags := 0#5 }))
            ∧ (¬ bad → a.kind = .rmw .xchg → done u x.a (fun z => { z with old := some old, flags := 0#5 }))
            ∧ (¬ bad → ∀ r, a.kind = .rmw (.red r) → a.ty.fmt = none → done u (match r with
                  | .add => (old + x.a) % 2 ^ bits
                  | .min => if ord old x.a then old else x.a
                  | .max => if ord old x.a then x.a else old
                  | .and => old &&& x.a | .or => old ||| x.a | .xor => old ^^^ x.a) (fun z => { z with old := some old, flags := 0#5 }))
            ∧ (¬ bad → ∀ r f, a.kind = .rmw (.red r) → a.ty.fmt = some f →
                ∃ v e, FltResult a.ty (flt r f) [old, x.a] e ∧ e.val = some v ∧ done u v (fun z => { z with old := some old, flags := e.flags })))
     ∧ (∀ (s : State) (team warp op n : Nat) (a : AtomRec) (w : Warp) (e : Entry) (x : AtomThread) (v : Nat → Nat),
          let len := match a.kind with | .cas => 16 | .rmw _ => 12
          let base : State := { s with atoms := s.atoms.filter (fun r => r.id != op), fresh := s.fresh + 1 }
          let trips := fun (y : AtomThread) => y.flags &&& enablesOf (w.thread y.thread).fctl != 0#5
          s.atoms.find? (fun r => r.id == op && r.leaf.team == team && r.leaf.warp == warp) = some a → s.warp? team warp = some w →
          (∀ y ∈ a.threads, y.old = some (v y.thread) ∨ y.bad = true) → w.entry? a.leaf.leaf = some e →
          (a.blocks = true → e.wait = .atomic op) → (∀ y ∈ w.entries, ∀ c j m, y.wait ≠ .trap c j m) →
            (a.blocks = true → a.threads.find? AtomThread.bad = some x →
              exec (.atomReturn team warp op) s = .next ((base.unblock a.leaf).deliver a.leaf
                ⟨0x0C#8, BitVec.ofNat 64 (x.thread % 32 + 256 + 2 ^ 31), len⟩))
            ∧ (a.blocks = true → (∀ y ∈ a.threads, y.bad = false) → a.threads.find? trips = some x →
              exec (.atomReturn team warp op) s = .next ((base.unblock a.leaf).deliver a.leaf
                ⟨0x11#8, BitVec.ofNat 64 (x.flags.toNat + 65536 * x.thread + 2 ^ 31), len⟩))
            ∧ ((∀ y ∈ a.threads, y.bad = false ∧ trips y = false ∧ (w.thread y.thread).exited = false ∧ y.thread < w.threads.length) →
              (a.threads.map AtomThread.thread).Nodup → a.uni = none → a.ty.bits = 4 * n → 0 < n →
              (∀ y ∈ a.threads, y.start + n ≤ 512) →
              ∃ u, u.threads.length = w.threads.length ∧ { u with threads := w.threads } = w
                ∧ (∀ i, (∀ y ∈ a.threads, y.thread ≠ i) → u.thread i = w.thread i)
                ∧ (∀ y ∈ a.threads, (u.thread y.thread).fstat = (w.thread y.thread).fstat ||| y.flags.zeroExtend 32
                  ∧ (u.thread y.thread).preds = (w.thread y.thread).preds)
                ∧ (a.blocks = true → (∀ y ∈ a.threads, Slices (w.thread y.thread) (u.thread y.thread) a.pc a.la y.start n (v y.thread))
                  ∧ exec (.atomReturn team warp op) s = .next ((base.updWarp team warp (fun _ => u)).complete a.leaf len))
                ∧ (a.blocks = false →
                  (∀ y ∈ a.threads, ∀ b, (w.thread y.thread).wins = [b] → b.op = op → b.landed = false → b.todo = sliceMask y.start n →
                    (∀ q < n, (u.thread y.thread).raw (y.start + q) 1 = v y.thread / 16 ^ q % 16)
                    ∧ (u.thread y.thread).valid = (w.thread y.thread).valid ||| byteMask y.start n
                    ∧ (b.left = 0 → (u.thread y.thread).wins = []))
                  ∧ exec (.atomReturn team warp op) s = .next (base.updWarp team warp (fun _ => u))))))

/-- R40, R156, R169, R172, R245 to R247, R366: a RED whose address translates is performed: its element is updated, its flags go
to the home die's AFLG, it leaves its launch's COUNT; an abandoned FP32 element stays and the launch has faulted. One of the
oldest 96 page walks that finds a leaf caches it in its core and die, and its access goes on; the walk reads a four-level table. -/
def Obligations.ReductionsAndWalks : Prop :=
  ∀ (s : State) (op : Nat) (r : RedRec) (p : Phys) (die : Nat) (q : WalkReq) (l : LeafRef) (pte : Word64) (level : Nat),
    let n := r.ty.bits / 8
    let old := leNat (s.physRead p.pa n)
    let home := homeOf p.pa
    let ended := fun (u : State) => u.reds = s.reds.filter (fun x => x.id != op)
      ∧ (u.completion r.launch).count = (s.completion r.launch).count - 1 ∧ KeepsBytes s u p.pa n
    (s.reds.find? (fun x => x.id == op) = some r → s.redReady r = true → r.ty.bits % 8 = 0 → s.Apart p.pa n →
      s.engineXlate r.die r.core r.asid r.va ⟨true, true, false⟩ r.secure = .ok p →
        ∃ u, exec (.redPerform op) s = .next u ∧ ended u
          ∧ (r.ty = .f32 ∧ isAbandoned old = true → u.physRead p.pa n = s.physRead p.pa n
            ∧ (u.completion r.launch).anyFault = true)
          ∧ (r.ty.fmt = none → u.physRead p.pa n = natLe n (match r.op with
              | .add => (old + r.a) % 2 ^ r.ty.bits
              | .min => if intVal r.ty.isSigned r.ty.bits old ≤ intVal r.ty.isSigned r.ty.bits r.a then old else r.a
              | .max => if intVal r.ty.isSigned r.ty.bits old ≤ intVal r.ty.isSigned r.ty.bits r.a then r.a else old
              | .and => old &&& r.a | .or => old ||| r.a | .xor => old ^^^ r.a))
          ∧ (∀ f, r.ty.fmt = some f → ¬ (r.ty = .f32 ∧ isAbandoned old = true) →
              ∃ v e, FltResult r.ty (fun l => match r.op with
                  | .add => f.add .rn false (l.getD 0 0) (l.getD 1 0)
                  | .min => f.select true false (l.getD 0 0) (l.getD 1 0)
                  | _ => f.select false false (l.getD 0 0) (l.getD 1 0)) [old, r.a] e
                ∧ e.val = some v ∧ u.physRead p.pa n = natLe n v
                ∧ ∀ b < 5, (u.dieWord home 0x104).getLsbD b = ((s.dieWord home 0x104).getLsbD b || e.flags.getLsbD b)))
    ∧ ((s.die die).walkq[s.choice.toNat]? = some q → s.choice.toNat < 96 → q.who = some l →
        s.walk die q.asid q.va q.write (((s.team? l.team).map (fun t => s.launchSecure t.launch)).getD (s.coreSecure die q.core))
          = .leaf pte level →
        ∃ u, exec (.pageWalk die) s = .next u ∧ (u.die die).walkq = (s.die die).walkq.eraseIdx s.choice.toNat ∧ u.mem = s.mem
          ∧ (u.core die q.core).tlb.head? = some (tlbOf q.asid q.va pte level)
          ∧ (u.die die).walkCache.head? = some (tlbOf q.asid q.va pte level)
          ∧ u.warp? l.team l.warp = (s.warp? l.team l.warp).map (fun w => { w with
              entries := w.entries.map (fun e => if e.id == l.leaf then { e with wait := .none } else e) }))
    ∧ (∀ (asid va t0 t1 t2 t3 e3 : Nat) (write secure : Bool),
        let entry := fun (table index : Nat) => leNat (s.physRead (table + 8 * index) 8)
        let readable := fun (table index : Nat) => (s.cell? (table + 8 * index)).isSome = true
          ∧ (secure = true ∨ s.secureAt (table + 8 * index) = false)
        s.spaceOn die asid = true → t0 = (s.dieWord die (0x200 + asid)).toNat / 2 ^ 20 % 2 ^ 32 * 2 ^ 20 →
        t1 % 4096 = 0 → t2 % 4096 = 0 → t3 % 256 = 0 → t1 < 2 ^ 52 → t2 < 2 ^ 52 → t3 < 2 ^ 52 →
        readable t0 (va / 2 ^ 39 % 2 ^ 17) → entry t0 (va / 2 ^ 39 % 2 ^ 17) = t1 + 1 →
        readable t1 (va / 2 ^ 30 % 2 ^ 9) → entry t1 (va / 2 ^ 30 % 2 ^ 9) = t2 + 1 →
        readable t2 (va / 2 ^ 21 % 2 ^ 9) → entry t2 (va / 2 ^ 21 % 2 ^ 9) = t3 + 1 →
        readable t3 (va / 2 ^ 16 % 2 ^ 5) → entry t3 (va / 2 ^ 16 % 2 ^ 5) = e3 → e3 % 4 = 3 →
          s.walk die asid va write secure = .leaf (BitVec.ofNat 64 e3) 3)

/-! ### Synchronisation -/

/-- R230, R232, R235 to R243, R264: FENCE, ACQ, REL, BIND, UNBIND and IFLUSH. A fence waits while a load or an atomic of a guarded
thread is still to be performed, and a release fence of the package or beyond while a store is; one of a narrower scope makes the
thread's stores precede what its unit does later (log 50), and passes. A release waits for its thread's covered accesses and passes when
everything is performed; an acquire waits for a release that is not complete where each one's scope contains the other's thread, and
then drops the covered lines of its core (log 24); a binding joins its die's table, or puts it into overflow; IFLUSH empties its core's
fetch buffer (log 28). The %tinfo of ILLOPND for a name or a count is the model's reading (log 22). No byte of memory and no register changes. -/
def Obligations.Ordering : Prop :=
  ∀ (s : State) (g : Guard) (kind : FenceKind) (sc : Scope) (a k : Opnd) (c : Ctx),
    let here := fun (u : State) => u.core c.team.die c.team.core
    let pa := Pos.src 1 a true
    let pk := Pos.src 1 k true
    let pb := Pos.src 2 a true
    let pn := Pos.src 2 a a.src32
    let wide := sc = .convoy ∨ sc = .die ∨ sc = .package ∨ sc = .system
    let K := c.cap c.low pk
    let len := K.len * (if K.fmt = 1 then 65536 else 1)
    let base := K.base / 128 * 128
    let lines := (K.base + len + 127) / 128 * 128 - base
    let region := c.capTag c.low pk = true ∧ K.otype = 0 ∧ K.perm.testBit 0 = true
    let b : Binding := ⟨base, lines, BitVec.ofNat 64 (c.raw c.low pb), c.launch.asid, c.launch.secure, c.team.launch⟩
    let d := s.die c.team.die
    let n := toSigned 32 (c.u32 c.low pn)
    let asid := ((Tbl.look c.team.launch s.launches).map Launch.asid).getD 0
    let same := fun (u : State) => u.mem = s.mem ∧ u.tags = s.tags ∧ u.warps = s.warps ∧ u.teams = s.teams ∧ u.writes = s.writes
    let me := fun (i : Nat) => (⟨c.ref.team, c.ref.warp, i⟩ : Origin)
    let home := sc = .package ∨ sc = .system
    let name := fun (i : Nat) => BitVec.ofNat 64 (c.raw i pa)
    (s.Ready g [] c →
      (kind ≠ .acq → home → ∀ w ∈ s.writes, ∀ y ∈ w.bytes, ∀ i ∈ c.on, y.by_ = me i → y.inst < s.nextId →
        Holds (.fence g kind sc) s .busy)
      ∧ (∀ k ∈ s.cores, ∀ e ∈ k.2.quay, ∀ q ∈ e.ops, ∀ l ∈ k.2.loads, ∀ i ∈ c.on, l.id = q.1 → q.1 < s.nextId → q.2.getLsbD i = true →
        l.team = c.ref.team → l.warp = c.ref.warp → Holds (.fence g kind sc) s .busy)
      ∧ (∀ a ∈ s.atoms, ∀ t ∈ a.threads, a.leaf.team = c.ref.team → a.leaf.warp = c.ref.warp → t.thread ∈ c.on → t.old = none → t.bad = false →
        Holds (.fence g kind sc) s .busy)
      ∧ (kind ≠ .acq → ¬ home →
        (∀ i ∈ c.on, s.readsDone (me i) = true ∧ s.scattersDone (me i) = true ∧ s.redsDone c.team.die c.team.core (me i) = true) →
        ∃ u, Goes (.fence g kind sc) s c 8 u ∧ same u ∧ u.dies = s.dies
          ∧ ∀ i ∈ c.on, ∀ y ∈ s.storesLeft, y.by_ = me i → y.inst < s.nextId →
              ∃ p ∈ u.published, p.by_ = y.by_ ∧ y.inst < p.upTo ∧ p.unit = s.unitOf sc (me i))
      ∧ (kind = .acq ∧ (∀ i ∈ c.on, s.readsDone (me i) = true) ∨ s.Drained →
        (kind = .rls ∨ ¬ wide → Goes (.fence g kind sc) s c 8 s.issued)
        ∧ (kind ≠ .rls → wide → ∃ u, Goes (.fence g kind sc) s c 8 u ∧ (here u).l1 = [] ∧ same u ∧ u.dies = s.dies)))
    ∧ (s.Ready g [pa] c →
      ((∀ i ∈ c.on, nameBad (c.raw i pa) = false) →
        ((∃ i ∈ c.on, s.acquireWaits sc (me i) (name i) = true) → Holds (.acq g sc a) s .busy)
        ∧ ((∀ i ∈ c.on, s.acquireWaits sc (me i) (name i) = false) → ∃ u, Goes (.acq g sc a) s c 8 u ∧ same u ∧ u.dies = s.dies
          ∧ ∀ x, x ∈ (here u).l1 ↔ x ∈ (here s).l1 ∧ x.at_.asid = asid
              ∧ ∀ i ∈ c.on, d.covered c.team.launch (name i) x.at_ = false)
        ∧ (s.Drained ∨ (∀ i ∈ c.on, s.released c i (name i) = true) → Goes (.rel g sc a) s c 8 s.issued)
        ∧ ((∃ i ∈ c.on, s.released c i (name i) = false) → Holds (.rel g sc a) s (.release sc (c.on.map (fun i => (i, name i)))))
        ∧ (d.bindOver = true → ∀ w ∈ s.writes, ∀ y ∈ w.bytes, ∀ i ∈ c.on, y.by_ = me i → y.inst < s.nextId →
          s.released c i (name i) = false))
      ∧ (∀ i, c.on.find? (fun i => nameBad (c.raw i pa)) = some i →
        Traps (.acq g sc a) s c 0x02#8 (i % 32 + 256) ∧ Traps (.rel g sc a) s c 0x02#8 (i % 32 + 256)))
    ∧ (s.Ready g [pk, pb] c → region →
      (nameBad (c.raw c.low pb) = true → Traps (.bind g k a) s c 0x02#8 (c.low % 32 + 512))
      ∧ (nameBad (c.raw c.low pb) = false →
        (b ∈ d.bindings → Goes (.bind g k a) s c 8 s.issued)
        ∧ (b ∉ d.bindings → ∃ u, Goes (.bind g k a) s c 8 u ∧ same u
          ∧ (d.bindings.length < 1024 → (u.die c.team.die).bindings = d.bindings ++ [b] ∧ (u.die c.team.die).bindOver = d.bindOver)
          ∧ (1024 ≤ d.bindings.length → (u.die c.team.die).bindings = d.bindings ∧ (u.die c.team.die).bindOver = true
            ∧ u.dieWord c.team.die 0x105 = s.dieWord c.team.die 0x105 + 1#64))))
    ∧ (s.Ready g [pk] c → region → ∃ u, Goes (.unbind g k) s c 8 u ∧ same u
        ∧ (∀ x, x ∈ (u.die c.team.die).bindings ↔ x ∈ d.bindings ∧ ¬ (x.launch = c.team.launch ∧ x.base = base ∧ x.len = lines))
        ∧ ((u.die c.team.die).bindings = [] → (u.die c.team.die).bindOver = false))
    ∧ (s.Ready g [pk, pn] c → region →
      ((len : Int) < n → Traps (.iflush g k a) s c 0x07#8 (K.base % 2 ^ 56 + c.low % 32 * 2 ^ 56 + 4 * 2 ^ 61))
      ∧ (n < 0 → Traps (.iflush g k a) s c 0x02#8 (c.low % 32 + 512))
      ∧ (0 ≤ n → n ≤ len → n = 0 ∨ (s.codeFolio c.launch.asid K.base n.toNat).isSome = true → s.Drained →
        ∃ u, Goes (.iflush g k a) s c 8 u ∧ same u ∧ u.dies = s.dies ∧ (here u).blocks = [] ∧ (here u).tlb = (here s).tlb))

/-- R237, R248, R249: WAITC of one thread, on a location that is not pinned. Where its comparison holds it passes, the location
acquired; where it does not, a monitor at the location's home arms, or waits for a free one, and the leaf waits. -/
def Obligations.MonitorWait : Prop :=
  ∀ (s : State) (g : Guard) (t : Ty) (op : Cmp) (k o a : Opnd) (x : XCtl) (c : Ctx) (i : Nat) (pas : List Nat) (l : LineAt),
    let pk := Pos.src 1 k true
    let po := (Pos.src 2 o o.src3264).withIx x
    let pa := (Pos.src 3 a (match a with | .reg w _ => w.bits == t.bits | .uni _ => t.bits == 32 | .imm _ => false)).withIx x
    let n := t.bits / 8
    let va := ((c.cap i pk).base : Int) + c.signed i po
    let v := intVal t.isSigned t.bits (leNat (pas.map s.physByte))
    let w := intVal t.isSigned t.bits (c.int t i pa)
    let holds : Bool := match op with
      | .eq => decide (v = w) | .ne => decide (v ≠ w) | .lt => decide (v < w) | .le => decide (v ≤ w)
      | .gt => decide (v > w) | .ge => decide (v ≥ w)
    let home := homeOf (pas.headD 0)
    let old := (s.die home).monitors
    t.bits % 8 = 0 → s.Ready g [pk, po, pa] c → c.on = [i] → Passes s c i pk va n 1 false ⟨true, false, false⟩ pas [l] → l.home ≠ 1 →
    (∀ p ∈ pas, (s.cell? p).isSome = true) → s.reaches c.team.die pas = true → s.Drained →
      (holds = true → ∃ u, Goes (.waitc g t op k o a x) s c 12 u ∧ u.mem = s.mem ∧ u.warps = s.warps ∧ u.teams = s.teams)
      ∧ (holds = false → ∃ u, exec (.waitc g t op k o a x) s = .next u ∧ u.mem = s.mem ∧ u.teams = s.teams
        ∧ u.warp? c.ref.team c.ref.warp = some (c.warp.waiting c.entry.id (.monitor (maskOf [i])))
        ∧ (u.die home).monitors = old ++ [⟨c.ref, i, va.toNat, pas.filterMap s.cell?, t, op, c.int t i pa,
            old.all Monitor.armed && decide (old.length < 4096)⟩])

/-- R192 to R197: the rendezvous instructions at a point k. RVINIT makes it fresh; RVARR adds its threads' arrivals and RVEXP its
bytes; a phase completes when the arrivals are all there and no byte is owed, and releases a leaf that waits for it; RVWAIT
passes when its phase is over and waits otherwise; RVINV ends it. The other points are as they were. A point that is not
valid, or above 23, takes ILLOPND, whose %tinfo is the model's reading (log 22); a posted overrun is taken first, as RVOVER. That phases
are numbered from RVINIT is the model's choice (log 30). -/
def Obligations.Rendezvous : Prop :=
  ∀ (s : State) (g : Guard) (n a : Opnd) (q : BitVec 3) (x : XCtl) (c : Ctx) (r : LeafRef) (w2 : Warp) (e2 : Entry) (ph : Nat),
    let pn := Pos.src 1 n n.isUniImm
    let pa := Pos.src 2 a a.src32
    let px := pa.withIx x
    let k := c.u32 c.low pn
    let team := c.ref.team
    let p := s.point team k
    let v := c.u32 c.low pa
    let others := fun (u : State) => u.mem = s.mem ∧ ∀ m < 24, m ≠ k → u.point team m = s.point team m
    let all := s.sharers team k
    let unarrived := fun (u : State) => ∀ y ∈ u.warps, y.2.team ∈ all → y.2.arrived.getLsbD k = false
    let phase := if c.warp.arrived.getLsbD k then Tbl.get c.warp.arrPhase k 0 else s.seenPhase team k
    let left : Warp := { c.warp with arrived := c.warp.arrived &&& ~~~(1#24 <<< k) }
    let came : Warp := { c.warp with arrived := c.warp.arrived ||| (1#24 <<< k), arrPhase := Tbl.put k p.phase c.warp.arrPhase }
    let after := fun (w : Warp) (len : Nat) => ((s.issued.updWarp team c.ref.warp (fun _ => w)).complete c.ref len).warps
    let m := p.arrivals + c.on.length
    let done : Point := { p with phase := p.phase + 1, arrivals := 0, balance := 0,
                                 overrun := if p.balance < 0 then some (-p.balance).toNat else none }
    (24 ≤ k → (s.Ready g [pn] c → Traps (.rvarr g n) s c 0x02#8 (c.low % 32 + 256) ∧ Traps (.rvinv g n) s c 0x02#8 (c.low % 32 + 256)))
    ∧ (k < 24 → ∀ o, p.overrun = some o → s.Ready g [pn] c → s.HasPoint team k →
        exec (.rvarr g n) s = .next ((s.issued.updPoint team k (fun p => { p with overrun := none })).deliver c.ref
          ⟨0x0F#8, BitVec.ofNat 64 (k + o * 2 ^ 32), 0⟩))
    ∧ (k < 24 → p.overrun = none → s.HasPoint team k →
      (s.Ready g [pn, pa] c →
        (0 < v → v < 2 ^ 16 → p.valid = false ∨ s.copyRefs team k = false ∧ s.rvWaiters all (fun j _ => j == k) = [] →
          ∃ u, Goes (.rvinit g n a) s c 8 u ∧ u.point team k = ⟨true, v, 0, 0, 0, none⟩ ∧ others u ∧ unarrived u)
        ∧ (v = 0 ∨ 2 ^ 16 ≤ v → Traps (.rvinit g n a) s c 0x02#8 (c.low % 32 + 512))
        ∧ (0 < v → v < 2 ^ 16 → p.valid = true → s.copyRefs team k = true → Traps (.rvinit g n a) s c 0x0E#8 0)
        ∧ (p.valid = false → Traps (.rvexp g n a) s c 0x02#8 (c.low % 32 + 256))
        ∧ (p.valid = true → 0 < p.balance + (v : Int) → p.balance + (v : Int) < 2 ^ 32 →
          ∃ u, exec (.rvexp g n a) s = .next u ∧ u.point team k = { p with balance := p.balance + (v : Int) } ∧ others u
            ∧ u.warps = after c.warp 8))
      ∧ (s.Ready g [pn] c →
        (p.valid = false → Traps (.rvarr g n) s c 0x02#8 (c.low % 32 + 256) ∧ Traps (.rvwaitPlain g n) s c 0x02#8 (c.low % 32 + 256))
        ∧ (p.valid = true → (∀ i ∈ c.on, s.released c i (objectName 2 k) = true) →
          (m < p.exp ∨ 0 < p.balance → ∃ u, exec (.rvarr g n) s = .next u ∧ u.point team k = { p with arrivals := m } ∧ others u
            ∧ u.warps = after came 8)
          ∧ (k < 16 → m = p.exp → p.balance ≤ 0 →
            (s.rvWaiters [team] (fun j f => j == k && f ≤ p.phase) = [] →
              ∃ u, exec (.rvarr g n) s = .next u ∧ u.point team k = done ∧ others u ∧ u.warps = after came 8)
            ∧ (s.rvWaiters [team] (fun j f => j == k && f ≤ p.phase) = [r] → r.team = team → r.warp ≠ c.ref.warp →
              s.warp? team r.warp = some w2 → w2.entry? r.leaf = some e2 → e2.wait = .rv k ph none →
              ∃ u, exec (.rvarr g n) s = .next u ∧ u.point team k = done ∧ others u
                ∧ u.warp? team r.warp = some (w2.finish r.leaf 12) ∧ u.warp? team c.ref.warp = some (came.finish c.ref.leaf 8))))
        ∧ (p.valid = true → k < 16 → phase < s.seenPhase team k →
          ∃ u, exec (.rvwaitPlain g n) s = .next u ∧ u.point team k = p ∧ others u ∧ u.warps = after left 12)
        ∧ (p.valid = true → s.seenPhase team k ≤ phase →
          ∃ u, exec (.rvwaitPlain g n) s = .next u ∧ u.point team k = p ∧ others u
            ∧ u.warp? team c.ref.warp = some (left.waiting c.entry.id (.rv k phase none)))
        ∧ (s.copyRefs team k = true → Traps (.rvinv g n) s c 0x0E#8 0)
        ∧ (s.copyRefs team k = false → s.rvWaiters all (fun j _ => j == k) = [] →
          ∃ u, Goes (.rvinv g n) s c 8 u ∧ u.point team k = { p with valid := false } ∧ others u ∧ unarrived u))
      ∧ (s.Ready g [pn, px] c →
        (c.u32 c.low px = 0 → Traps (.rvwaitTimed g n a q x) s c 0x02#8 (c.low % 32 + 512))
        ∧ (p.valid = true → 0 < c.u32 c.low px → k < 16 → phase < s.seenPhase team k →
          ∃ u, exec (.rvwaitTimed g n a q x) s = .next u ∧ u.point team k = p ∧ others u
            ∧ u.warps = after { left with threads := (left.threads.zipIdx).map (fun y =>
                if y.2 ∈ c.on then { y.1 with preds := setPred y.1.preds q true } else y.1) } 12)
        ∧ (p.valid = true → 0 < c.u32 c.low px → s.seenPhase team k ≤ phase →
          ∃ u, exec (.rvwaitTimed g n a q x) s = .next u ∧ u.point team k = p ∧ others u
            ∧ u.warp? team c.ref.warp = some (left.waiting c.entry.id (.rv k phase (some (c.u32 c.low px, q, maskOf c.on)))))))

/-- R102, R198 to R200, R202, R331, R370: RINIT makes a ring with its header; RWAIT returns the oldest filled slot's offset or
waits; RREL releases that slot; CPWAIT passes when few enough collectives of its warp are open, and counts in DEPCNT; a k
above 255, or negative, takes ILLOPND; the %tinfo of the rings' ILLOPND is the model's reading (log 22), and so is which tile a
receiver drains first (log 38).
R191, R200, R202: a fill takes the next slot of its ring once one is free; a receiver drains its oldest held tile for a ring with room into such a
slot, which is then filled; an acknowledged message's bytes have landed. -/
def Obligations.Rings : Prop :=
  (∀ (s : State) (g : Guard) (d a b k : Opnd) (c : Ctx) (r : Ring),
     let po := Pos.src 1 a a.src32
     let pn := Pos.src 2 b b.src32
     let pz := Pos.src 3 k k.src32
     let pd := Pos.dst d d.reg32
     let pk := Pos.src 1 k k.isUniImm
     let off := c.u32 c.low po
     let cnt := c.u32 c.low pn
     let sz := c.u32 c.low pz
     let header := fun (x : Ring) => natLe 8 0 ++ [BitVec.ofNat 8 x.rp, BitVec.ofNat 8 x.wp, BitVec.ofNat 8 x.res, BitVec.ofNat 8 x.slots]
       ++ natLe 4 (x.size / 16)
     let ringOf := fun (u : State) (x : Ring) => ∃ t, u.team? c.ref.team = some t ∧ t.rings.find? (fun y => y.off == off) = some x
       ∧ t.loc.read off 16 = header x
       ∧ ∀ j, (j < off ∨ off + 16 ≤ j) → t.loc.byte j = c.team.loc.byte j
     let calm := c.team.convoy = none
     let full := (r.fills.takeWhile RingFill.full).length
     let slot := r.off + 16 + r.rp * r.size
     (s.Ready g [po, pn, pz] c →
       (off % 16 = 0 → off / 2 ^ 24 % 2 = 0 → 2 ≤ cnt → cnt ≤ 64 → 16 ≤ sz → sz ≤ 65536 → sz % 16 = 0 →
         c.team.rings.find? (fun y => y.off == off) = none → c.team.rings.length < 8 →
         (off + 16 + cnt * sz ≤ c.team.lstore → calm →
           ∃ u, Goes (.rinit g a b k) s c 12 u ∧ u.mem = s.mem ∧ u.warps = s.warps ∧ ringOf u ⟨off, cnt, sz, 0, 0, 0, []⟩)
         ∧ (c.team.lstore < off + 16 + cnt * sz → Traps (.rinit g a b k) s c 0x10#8 0))
       ∧ (off % 16 ≠ 0 → Traps (.rinit g a b k) s c 0x02#8 (c.low % 32 + 256))
       ∧ (off % 16 = 0 → off / 2 ^ 24 % 2 = 0 → cnt < 2 ∨ 64 < cnt → Traps (.rinit g a b k) s c 0x02#8 (c.low % 32 + 512))
       ∧ (off % 16 = 0 → off / 2 ^ 24 % 2 = 0 → 2 ≤ cnt → cnt ≤ 64 → sz < 16 ∨ 65536 < sz ∨ sz % 16 ≠ 0 →
           Traps (.rinit g a b k) s c 0x02#8 (c.low % 32 + 768)))
     ∧ (s.Ready g [pd, po] c →
       (c.team.rings.find? (fun y => y.off == off) = none → Traps (.rwait g d a) s c 0x02#8 (c.low % 32 + 256))
       ∧ (c.team.rings.find? (fun y => y.off == off) = some r →
         (full = 0 → ∃ u, exec (.rwait g d a) s = .next u ∧ u.mem = s.mem ∧ u.teams = s.teams
           ∧ u.warp? c.ref.team c.ref.warp = some (c.warp.waiting c.entry.id (.ring off d (maskOf c.on))))
         ∧ (0 < full → c.entry.handler = c.warp.handler.isSome → (∀ y ∈ s.warpsOf c.ref.team, ∀ e ∈ y.entries, ∀ m f, e.wait ≠ .ring off m f) → c.warp.index = c.ref.warp →
           c.warp.team = c.ref.team → (c.warp.entries.map Entry.id).Nodup →
           ∃ u w, WarpAfter c 0 w c.on (some pd) (fun _ => .ofVal slot) ∧ exec (.rwait g d a) s = .next u
             ∧ u.warp? c.ref.team c.ref.warp = some (w.finish c.ref.leaf 8) ∧ u.mem = s.mem ∧ u.teams = s.teams)))
     ∧ (s.Ready g [po] c → c.team.rings.find? (fun y => y.off == off) = some r →
       (full = 0 → Traps (.rrel g a) s c 0x02#8 (c.low % 32 + 256))
       ∧ (0 < full → s.Drained → calm → 0 < r.slots → r.slots ≤ 64 → r.wp < 64 → r.res < 64 →
         ∃ u, Goes (.rrel g a) s c 8 u ∧ u.mem = s.mem ∧ u.warps = s.warps
           ∧ ringOf u { r with rp := (r.rp + 1) % r.slots, fills := r.fills.drop 1 }))
     ∧ (s.Ready g [pk] c →
       (255 < c.u32 c.low pk → Traps (.cpwait g k) s c 0x02#8 (c.low % 32 + 256))
       ∧ (c.u32 c.low pk ≤ 255 → (s.issued.openCopies c.ref.team c.ref.warp : Int) ≤ c.u32 c.low pk →
         Goes (.cpwait g k) s c 8 (s.issued.setDieWord c.team.die 0x108 (s.dieWord c.team.die 0x108 + 1#64)))
       ∧ (c.u32 c.low pk ≤ 255 → (c.u32 c.low pk : Int) < s.issued.openCopies c.ref.team c.ref.warp → Holds (.cpwait g k) s .busy)))
  ∧ (∀ (s : State) (id team die off : Nat) (x : Xfer) (t : Team) (r : Ring) (h : HeldTile) (b : Nat)
         (fr : Option Nat) (m : OutMessage) (sl : XSlice),
       let next : Ring := { r with res := (r.res + 1) % r.slots }
       s.team? team = some t → t.rings.find? (fun y => y.off == off) = some r → r.fills.length < r.slots →
         (s.xfer? id = some x → x.ring = some (team, off, b, fr) → x.slot = none →
           (∀ y ∈ s.xfers, y.id ≠ id → ∀ b f, y.ring ≠ some (team, off, b, f)) →
           ∃ u z, exec (.ringSlotReserve id) s = .next u ∧ u.mem = s.mem ∧ u.warps = s.warps ∧ u.xfer? id = some { x with slot := some r.res }
             ∧ u.team? team = some z ∧ z.rings.find? (fun y => y.off == off) = some { next with fills := r.fills ++ [⟨r.res, id, false, fr⟩] })
         ∧ ((s.die die).holding = [h] → h.drains = [(team, off, none)] → h.bytes.length = h.len → t.state = .resident →
           r.fills = [] →
           (∀ y ∈ s.warpsOf team, ∀ e ∈ y.entries, ∀ d f, e.wait ≠ .ring off d f) →
           ∃ u z, exec (.multicastBufferDrain die team) s = .next u ∧ u.mem = s.mem ∧ u.warps = s.warps
             ∧ (u.die die).holding = [] ∧ u.team? team = some z
             ∧ z.rings.find? (fun y => y.off == off) = some { next with wp := (r.rp + 1) % r.slots, fills := [⟨r.res, s.nextId, true, none⟩] }
             ∧ z.loc.read (off + 16 + r.res * r.size) h.len = h.bytes)
         ∧ (s.outbox = [m] → m.id = id → s.xfer? m.xfer = some x → x.slices = [sl] → m.slice = 0 → (∃ d, x.kind = .copy d) → x.ring = none →
           x.point = none →
           ∃ u, exec (.messageAck id) s = .next u ∧ u.outbox = [] ∧ u.mem = s.mem ∧ u.warps = s.warps
             ∧ u.xfers = s.xfers.filter (fun y => y.id != m.xfer)))

/-! ### Copies -/

/-- R187, R188, R190, R191: a COPY that passes its checks adds its warp's slice to the collective of its point; the collective
starts, as one transfer of all its slices, with the last one. Nothing has moved yet.
The %tinfo of COPY's ILLOPND for an address is the model's reading (log 22).
R201, R202: COPYM outside a convoy takes ILLOPND. In a convoy without a holding buffer it takes a credit of every receiver's
ring and starts a fill of each; without one of the credits it is held. With the holding buffer it starts one copy into the
buffer of each receiver's die.
R189, R191, R194, R200: a part of a transfer's only slice lands: the bytes of the source stand at the destination, every other
byte is as it was, and the part is counted down at the transfer's point; with its last byte the transfer is over. -/
def Obligations.Copies : Prop :=
  (∀ (s : State) (g : Guard) (la : BitVec 4) (dir : CopyDir) (dest frm o : Opnd) (lenm : BitVec 16) (pt : BitVec 5) (nwm : BitVec 6)
       (soff : BitVec 12) (c : Ctx) (tm lo : Nat) (old : List XSlice) (cw : Nat),
     let lg := dir = .lg
     let p0 := Pos.src 0 dest (match dir with | .lg => dest.isCap | .gx => dest.isD64 | _ => dest.reg32)
     let p1 := Pos.src 1 frm (if dir = .lg then frm.reg32 else frm.isCap)
     let p2 := Pos.src 2 o o.src3264
     let pk := if dir = .lg then p0 else p1
     let pl := if dir = .lg then p1 else p0
     let len := (lenm.toNat + 1) * 16
     let nw := nwm.toNat + 1
     let point := pt.toNat
     let i := c.low
     let k := c.cap i pk
     let va := ((k.base : Int) + c.signed i p2)
     let off := c.u32 i pl
     let desc := c.raw i p0
     let mine := fun (x : Collective) => x.point == point && (point != 31 || x.warp == c.ref.warp)
     let rest := c.team.collectives.filter (fun x => !mine x)
     let sl : XSlice := ⟨c.ref.warp,
       match dir with | .lg => .loc tm lo | _ => .mem va.toNat,
       match dir with
         | .gl => .loc tm lo | .lg => .mem va.toNat | .gr => .loc c.ref.team (16 * soff.toNat)
         | .gx => .msg (desc % 1024) (BitVec.ofNat 32 (desc / 2 ^ 32)),
       len, s.nextId, [], []⟩
     let header := if dir = .gr then off else 0
     let slices := old ++ [sl]
     let ins : Instr := .copy g la dir dest frm o lenm pt nwm soff
     s.Ready g [p0, p1, p2] c →
       ((s.warpsOf c.ref.team).length < nw ∨ 24 ≤ point ∧ point ≠ 31 → Traps ins s c 0x02#8 0)
       ∧ (nw ≤ (s.warpsOf c.ref.team).length → (point = 31 ∨ point < 24 ∧ (s.point c.ref.team point).valid = true) →
         (va % 16 ≠ 0 → Traps ins s c 0x02#8 (i % 32 + 512))
         ∧ (va % 16 = 0 → (dir ≠ .gx → off % 16 = 0) →
           (dir = .gr → ∃ r, c.team.rings.find? (fun y => y.off == off) = some r ∧ 16 * soff.toNat + len ≤ r.size) →
           (dir = .gx → desc / 2 ^ 10 % 2 ^ 22 = 0 ∧ (s.word (0x3000 + desc % 1024)).getLsbD 61 = true) →
           (dir = .gl ∨ dir = .lg → s.lsTarget c off len = some (tm, lo)) →
           c.capTag i pk = true → k.otype = 0 → k.perm.testBit (if lg then 1 else 0) = true →
           (k.base : Int) ≤ va → va + len ≤ (k.base + k.length : Nat) → va + len ≤ (2 ^ 56 : Nat) →
           (c.team.collectives.find? mine = none ∧ old = [] ∧ cw = c.ref.warp
             ∨ ∃ x, c.team.collectives.find? mine = some x ∧ x = ⟨point, cw, dir, nw, header, 0, old⟩ ∧ ∀ y ∈ old, y.warp ≠ c.ref.warp) →
             ∃ u, Goes ins s c 16 u ∧ u.mem = s.mem ∧ u.warps = s.warps
               ∧ (slices.length < nw → u.xfers = s.xfers
                 ∧ u.team? c.ref.team = some { c.team with collectives := rest ++ [⟨point, cw, dir, nw, header, 0, slices⟩] })
               ∧ (nw ≤ slices.length → u.team? c.ref.team = some { c.team with collectives := rest }
                 ∧ u.xfers = s.xfers ++ [⟨s.nextId, .copy dir, some c.ref.team, slices.map XSlice.warp, c.team.launch, c.team.die,
                     c.team.core, c.launch.asid, c.launch.secure, if point = 31 then none else some (c.ref.team, point),
                     if dir = .gr then some (c.ref.team, off, 0, none) else none, none,
                     slices.map (fun y => { y with since := s.nextId + 1 }), false⟩]))))
  ∧ (∀ (s : State) (g : Guard) (la : BitVec 4) (sk : Bool) (dest frm : Opnd) (o : Option Opnd) (lenm : BitVec 16) (pt : BitVec 5)
         (mask : BitVec 16) (c : Ctx) (q : Nat) (v : Convoy) (rs : List (Nat × Nat)) (src : XEnd),
       let p0 := Pos.src 0 dest dest.reg32
       let p1 := Pos.src 1 frm (if sk then frm.reg32 else frm.isCap)
       let p2 := o.map (fun x => Pos.src 2 x x.src3264)
       let len := (lenm.toNat + 1) * 16
       let point := pt.toNat
       let i := c.low
       let off := c.u32 i p0
       let k := c.cap i p1
       let va := ((k.base : Int) + (match p2 with | some p => c.signed i p | none => 0))
       let loc := c.u32 i p1
       let ins : Instr := .copym g la sk dest frm o lenm pt mask
       let xfer := fun (id : Nat) (p : Option (Nat × Nat)) (ring : Option (Nat × Nat × Nat × Option Nat)) (dst : XEnd) =>
         (⟨id, .copym, some c.ref.team, [c.ref.warp], c.team.launch, c.team.die, c.team.core, c.launch.asid, c.launch.secure, p, ring, none,
           [⟨c.ref.warp, src, dst, len, s.nextId, [], []⟩], false⟩ : Xfer)
       let dieOf := fun (t : Nat) => ((s.team? t).map Team.die).getD 0
       s.Ready g ([p0, p1] ++ p2.toList) c →
         (c.team.convoy = none → Traps ins s c 0x02#8 0)
         ∧ (c.team.convoy = some q → Tbl.look q s.convoys = some v →
           (∃ b < 16, mask.getLsbD b = true ∧ Tbl.look b v.members = none) → Traps ins s c 0x02#8 0)
         ∧ (c.team.convoy = some q → Tbl.look q s.convoys = some v → rs ≠ [] →
           (rs.map Prod.fst = (List.range 16).filter (fun b => mask.getLsbD b)) → (∀ r ∈ rs, Tbl.look r.1 v.members = some r.2) →
           (∀ r ∈ rs, point = 31 ∨ point < 24 ∧ (s.point r.2 point).valid = true) →
           (∀ r ∈ rs, ∃ t y, s.team? r.2 = some t ∧ t.rings.find? (fun y => y.off == off) = some y ∧ len ≤ y.size) →
           (sk = true → loc % 16 = 0 ∧ ∃ tm lo, s.lsTarget c loc len = some (tm, lo) ∧ src = .loc tm lo) →
           (sk = false → va % 16 = 0 ∧ src = .mem va.toNat ∧ c.capTag i p1 = true ∧ k.otype = 0 ∧ k.perm.testBit 0 = true
             ∧ (k.base : Int) ≤ va ∧ va + len ≤ (k.base + k.length : Nat) ∧ va + len ≤ (2 ^ 56 : Nat)) →
             (v.holding = false → (∀ r ∈ rs, 0 < v.credit c.team.slot r.1 off) →
               ∃ u w, Goes ins s c 16 u ∧ u.mem = s.mem ∧ u.warps = s.warps ∧ Tbl.look q u.convoys = some w
                 ∧ (∀ r ∈ rs, w.credit c.team.slot r.1 off + 1 = v.credit c.team.slot r.1 off)
                 ∧ u.xfers = s.xfers ++ (rs.zipIdx).map (fun p => xfer (s.nextId + p.2)
                     (if point = 31 then none else some (p.1.2, point)) (some (p.1.2, off, 0, some c.team.slot)) (.loc p.1.2 0)))
             ∧ (v.holding = false → (∃ r ∈ rs, v.credit c.team.slot r.1 off = 0) → Holds ins s .busy)
             ∧ (v.holding = true → (∀ r ∈ rs, dieOf r.2 < 9 ∧ (s.die (dieOf r.2)).holdRoom len = true) →
               ∃ u, Goes ins s c 16 u ∧ u.mem = s.mem ∧ u.warps = s.warps
                 ∧ u.xfers = s.xfers ++ [xfer (s.nextId + 1) none none (.hold s.nextId)]
                 ∧ ∀ r ∈ rs, (u.die (dieOf r.2)).holding = (s.die (dieOf r.2)).holding ++ [⟨s.nextId, q, c.ref.team, len, [],
                     (rs.filter (fun y => dieOf y.2 == dieOf r.2)).map (fun y => (y.2, off, if point = 31 then none else some point))⟩])))
  ∧ (∀ (s : State) (id off len : Nat) (x : Xfer) (sl : XSlice) (rp wp : List Nat) (rl wl : List LineAt) (bytes : List Byte)
         (T o : Nat) (y : Team),
       let rv := sl.vas true off len
       let wv := sl.vas false off len
       let p := match x.point with | some (t, n) => s.point t n | none => Point.reset
       let after := fun (u : State) =>
         (off = 0 → len = sl.len → u.xfers = s.xfers.filter (fun z => z.id != id))
         ∧ (len < sl.len → sl.landed = [] → u.xfer? id = some { x with slices := [{ sl with landed := [(off, len)] }] })
         ∧ (∀ t n, x.point = some (t, n) → s.HasPoint t n → p.valid = true →
             u.point t n = { p with balance := p.balance - (len : Int) })
       s.xfer? id = some x → x.slices = [sl] → (∃ d, x.kind = .copy d) → x.ring = none → s.canLand x sl off len = true →
       (s.xfers.map Xfer.id).Nodup → (s.issued).endCells x rv ⟨true, false, false⟩ = .ok rp rl → s.issued.endCells x wv ⟨false, true, false⟩ = .ok wp wl →
       (x.point = none ∨ p.arrivals < p.exp ∨ (len : Int) < p.balance) → bytes.length = len →
       s.reaches x.die rp = true → s.reaches x.die wp = true →
       ((∃ a, sl.src = .mem a) ∧ bytes = rp.map s.physByte ∨ ∃ a t z, sl.src = .loc t a ∧ s.team? t = some z ∧ bytes = z.loc.read (a + off) len) →
         (sl.dst = .loc T o → (∀ a t, sl.src = .loc t a → False) → s.team? T = some y →
           ∃ u z, exec (.copyBytesLand id 0 off len) s = .next u ∧ u.mem = s.mem ∧ u.warps = s.warps ∧ u.team? T = some z
             ∧ z.loc.read (o + off) len = bytes ∧ (∀ j, j < o + off ∨ o + off + len ≤ j → z.loc.byte j = y.loc.byte j) ∧ after u)
         ∧ (sl.dst = .mem o → wp.length = len → wp.Nodup → (∀ a ∈ wp, (s.cell? a).isSome = true ∧ ∀ b ∈ wp, s.cell? b = s.cell? a → b = a) →
           ∃ u, exec (.copyBytesLand id 0 off len) s = .next u ∧ wp.map u.physByte = bytes
             ∧ (∀ a, (∀ b ∈ wp, s.cell? b ≠ s.cell? a) → u.physByte a = s.physByte a)
             ∧ (∀ b ∈ wp, u.unitTag b = false) ∧ after u))

/-! ### Tasks, keys, queues -/

/-- R205, R206, R208, R209, R213: a TASK whose manifest passes enters its die's table with the next number of its launch, whose
COUNT rises; it is Ready, or acquires its keys, where no earlier version that is not home overlaps its read tiles; a write tile
is renamed exactly where R209 says. The %tinfo of its ILLOPND is the model's reading (log 22). While the table is full it waits, with what it has read (R383). KREL gives up a key that its team's task holds, and the key goes to the first in its queue. -/
def Obligations.Tasks : Prop :=
  ∀ (s : State) (g : Guard) (a o : Opnd) (c : Ctx) (pas pas2 : List Nat) (lines lines2 : List LineAt) (folio : Nat) (f : Folio)
      (e : FolioEntry) (d : Nat) (t : Task) (y : KeyEntry) (who : Nat),
    let pk := Pos.src 1 a a.isCap
    let po := Pos.src 2 o o.src3264
    let pa := Pos.src 1 a a.isD64
    let i := c.low
    let va := ((c.cap i pk).base : Int) + c.signed i po
    let tags := (List.range 16).map (fun j => s.unitTag (pas.getD (16 * j) 0) && (c.cap i pk).grants pLDC)
    let m := parseManifest (pas.map s.physByte) tags
    let die := s.die c.team.die
    let num := ((Tbl.look c.team.launch s.launches).map Launch.taskNum).getD 0
    let me := taskName d t.seq
    (s.Ready g [pk, po] c →
      (c.signed i po % 16 ≠ 0 → Traps (.task g a o) s c 0x02#8 (i % 32 + 512))
      ∧ (c.signed i po % 16 = 0 → va % 16 = 0 → Passes s c i pk va 256 1 false ⟨true, false, false⟩ pas lines →
        (∀ n b k, c.entry.wait ≠ .task n b k) → s.Drained → s.reaches c.team.die pas = true → s.reaches c.team.die pas2 = true →
        m.handle.2 = true → (∀ x ∈ m.reads ++ m.writes, x.2 = true) → s.handleFolio c.launch.asid m.handle.1 = some (folio, f) →
        f.image.entries[m.entry]? = some e → m.nr ≤ 8 → m.nwt ≤ 4 → m.nk ≤ 4 → m.reserved = false → (m.keys.map Prod.fst).Nodup →
        e.convoy = none → e.args ≤ 512 → 32 * (m.nr + m.nwt) ≤ e.regs →
        (if e.args = 0 then pas2 = [] else Passes s c i pk (va + 256) e.args 1 false ⟨true, false, false⟩ pas2 lines2) →
        (∀ x ∈ m.reads, x.1.otype = 0 ∧ x.1.perm &&& 1 = 1) → (∀ x ∈ m.writes, x.1.otype = 0 ∧ x.1.perm &&& 3 = 3) →
        ((Tbl.look folio s.folios).map Folio.secure).getD false = c.launch.secure →
        num ≤ 0xFFFFFF → (s.completion c.team.launch).cxr = false → (∀ z ∈ die.tasks, z.seq < die.taskSeq) →
        (1024 ≤ die.tasks.length → Holds (.task g a o) s (.task folio ((pas ++ pas2).map s.physByte) tags))
        ∧ (die.tasks.length < 1024 →
          ∃ u z, Goes (.task g a o) s c 16 u ∧ u.mem = s.mem ∧ u.warps = s.warps ∧ u.teams = s.teams
            ∧ (u.die c.team.die).tasks.map Task.seq = die.tasks.map Task.seq ++ [die.taskSeq]
            ∧ (u.completion c.team.launch).count = (s.completion c.team.launch).count + 1
            ∧ ((Tbl.look c.team.launch s.launches).isSome = true →
                (Tbl.look c.team.launch u.launches).map Launch.taskNum = some (num + 1))
            ∧ z ∈ (u.die c.team.die).tasks ∧ z.seq = die.taskSeq ∧ z.num = num ∧ z.launch = c.team.launch ∧ z.folio = folio
            ∧ z.entry = m.entry ∧ z.args = pas2.map s.physByte ∧ z.held = [] ∧ z.team = none
            ∧ z.reads = m.reads.map (fun x => (x.1.base, x.1.length, BitVec.ofNat 5 x.1.perm))
            ∧ z.writes.map (fun w => (w.base, w.len)) = m.writes.map (fun x => (x.1.base, x.1.length))
            ∧ (∀ w ∈ z.writes, w.state = .live ∧ w.pool = none ∧ (w.renamed = true ↔ ∃ q ∈ die.tasks,
                (∃ v ∈ q.writes, v.pending = true ∧ overlap v.base v.len w.base w.len = true)
                ∨ q.stage ≠ .retired ∧ ∃ r ∈ q.reads, overlap r.1 r.2.1 w.base w.len = true))
            ∧ ((∀ q ∈ die.tasks, ∀ v ∈ q.writes, v.pending = true → ∀ r ∈ z.reads, overlap r.1 r.2.1 v.base v.len = false) →
                z.stage = if m.keys = [] then .ready else .acquiring)
            ∧ ((∃ q ∈ die.tasks, ∃ v ∈ q.writes, v.pending = true ∧ ∃ r ∈ z.reads, overlap r.1 r.2.1 v.base v.len = true) →
                z.stage = .submitted))))
    ∧ (s.Ready g [pa] c →
      let v := c.raw c.low pa
      (2 ^ 48 ≤ v ∨ s.taskOf c.ref.team c.team = none → Traps (.krel g a) s c 0x02#8 (c.low % 32 + 256))
      ∧ (v < 2 ^ 48 → s.taskOf c.ref.team c.team = some (d, t) →
        ((∀ k ∈ t.held, k.1 ≠ v) → Traps (.krel g a) s c 0x02#8 (c.low % 32 + 256))
        ∧ ((∃ k ∈ t.held, k.1 = v) → s.Drained →
          ∃ u, Goes (.krel g a) s c 8 u ∧ u.mem = s.mem ∧ u.warps = s.warps
            ∧ (∀ z ∈ (u.die d).tasks, z.seq = t.seq → ∀ k ∈ z.held, k.1 ≠ v)
            ∧ (∀ z ∈ (u.die (keyHome v)).keys, z.secure = s.launchSecure t.launch → z.key = v → z.excl ≠ some me ∧ me ∉ z.shared)
            ∧ ((s.die (keyHome v)).keys = [y] → y.secure = s.launchSecure t.launch → y.key = v → y.excl = some me → y.shared = [] →
                y.queue = [(who, true)] → who ≠ me →
                (u.die (keyHome v)).keys = [{ y with excl := some who, queue := [] }]))))

/-- R211, R212: a request reaches its key's home: a new key is granted at once, a held one queues the task, and a full table sends
the task, without the keys it held, to the tail of its die's order. A grant reaches the task, which is Ready with its last key.
R208 to R210: a Ready task's renamed tile takes storage of its world's pool, whose bytes are not the program's, where no task
that waits for that pool was Ready before it (this order, and where the storage lies, are the model's, log 10); a retired
task's version that may go home is copied there by a transfer; with the transfer's end it is home, or discarded where the
transfer was stopped (log 42), and a task with no version left leaves the table and its launch's COUNT. -/
def Obligations.KeysAndRenaming : Prop :=
  (∀ (s : State) (die task key : Nat) (excl : Bool) (t : Task),
     let d := s.die die
     let home := keyHome key
     let table := (s.die home).keys
     let secure := s.launchSecure t.launch
     let me := taskName die task
     let is := fun (e : KeyEntry) => e.secure == secure && e.key == key
     let part := 256 * ((s.dieWord home 0x144).toNat % 16)
     let room := if secure then part else 4096 - part
     let used := (table.filter (fun e => e.secure == secure)).length
     let asks := fun (u : State) => (u.die die).task? task = some { t with asked := true }
     s.linked die home = true → d.task? task = some t → t.seq = task → t.stage = .acquiring → t.keys[t.held.length]? = some (key, excl) →
       (t.asked = false → (t.held ≠ [] ∨ d.acquireq.head? = some task) →
         ((∀ e ∈ table, is e = false) → used < room →
           ∃ u, exec (.keyRequestArrival die task) s = .next u ∧ u.mem = s.mem ∧ asks u ∧ (u.die home).keys
             = table ++ [if excl then ⟨secure, key, some me, [], []⟩ else ⟨secure, key, none, [me], []⟩])
         ∧ (∀ e, table = [e] → is e = true → e.queue = [] →
           ∃ u, exec (.keyRequestArrival die task) s = .next u ∧ u.mem = s.mem ∧ asks u
             ∧ (e.excl ≠ none ∨ excl = true ∧ e.shared ≠ [] → (u.die home).keys = [{ e with queue := [(me, excl)] }])
             ∧ (e.excl = none → excl = false → e.shared.length < 4095 → (u.die home).keys = [{ e with shared := e.shared ++ [me] }]))
         ∧ ((∀ e ∈ table, is e = false) → room ≤ used → t.held = [] →
           ∃ u, exec (.keyRequestArrival die task) s = .next u ∧ u.mem = s.mem
             ∧ (u.die die).task? task = some { t with asked := false }
             ∧ (u.die die).acquireq = d.acquireq.filter (fun q => q != task) ++ [task]
             ∧ u.dieWord die 0x103 = s.dieWord die 0x103 + 1#64))
       ∧ (t.asked = true → (∃ e ∈ table, is e = true ∧ (e.excl = some me ∨ me ∈ e.shared)) →
         ∃ u now, exec (.keyGrantArrival die task) s = .next u ∧ u.mem = s.mem
           ∧ (t.held.length + 1 < t.keys.length → (u.die die).task? task = some { t with held := t.held ++ [(key, excl)], asked := false }
             ∧ (u.die die).acquireq = d.acquireq)
           ∧ (t.held.length + 1 = t.keys.length →
             (u.die die).task? task = some { t with held := t.held ++ [(key, excl)], asked := false, stage := .ready, readyAt := now }
             ∧ (u.die die).acquireq = d.acquireq.filter (fun q => q != task))))
  ∧ (∀ (s : State) (die task : Nat) (t : Task) (w : WTile) (x : Xfer),
       let d := s.die die
       let l := Tbl.get s.launches t.launch Launch.none
       let pool := s.renamePool die (s.launchSecure t.launch)
       let name := taskName die task
       d.task? task = some t → t.seq = task → t.writes = [w] → w.renamed = true →
         (t.stage = .ready → w.pool = none → s.poolUse die (s.launchSecure t.launch) = [] → w.len ≤ pool.2 →
           (∀ q ∈ d.tasks, q.stage = .ready → s.launchSecure q.launch = s.launchSecure t.launch →
             (∃ v ∈ q.writes, v.renamed = true ∧ v.pool = none) → t.readyAt ≤ q.readyAt) →
           ∃ u p, exec (.renameStorageTake die task) s = .next u ∧ p + w.len ≤ pool.2
             ∧ (u.die die).task? task = some { t with writes := [{ w with pool := some p }] }
             ∧ KeepsBytes s u (pool.1 + p) w.len ∧ u.tags = s.tags ∧ u.warps = s.warps)
         ∧ (t.stage = .retired → w.pool.isSome = true → w.state = .live →
           (∀ q ∈ d.tasks, q.seq < task → (∀ v ∈ q.writes, v.pending = true → overlap v.base v.len w.base w.len = false)
             ∧ (q.stage ≠ .retired → ∀ r ∈ q.reads, overlap r.1 r.2.1 w.base w.len = false)) →
           ∃ u, exec (.copybackStart die task 0) s = .next u ∧ u.mem = s.mem
             ∧ (u.die die).task? task = some { t with writes := [{ w with state := .copying }] }
             ∧ u.xfers = s.xfers ++ [⟨s.nextId, .copyback name 0, none, [], t.launch, die, 31, l.asid, l.secure, none, none, none,
                 [⟨0, .mem ((s.dieWord die (if l.secure then 0x38D else 0x38E)).toNat / 2 ^ 16 % 2 ^ 40 * 65536 + w.pool.getD 0),
                   .mem w.base, w.len, 0, [], []⟩], false⟩])
         ∧ (t.stage = .retired → s.xfers.find? (fun y => y.kind == .copyback name 0) = some x →
           x.stopped = true ∨ (∀ sl ∈ x.slices, sl.len ≤ (sl.landed.map Prod.snd).sum) →
           ∃ u, exec (.copybackComplete die task 0) s = .next u ∧ u.mem = s.mem ∧ u.xfers = s.xfers.filter (fun y => y.id != x.id)
             ∧ (u.die die).tasks.map Task.seq = (d.tasks.map Task.seq).filter (fun q => q != task)
             ∧ (u.completion t.launch).count = (s.completion t.launch).count - 1))

/-- R216 to R218, R265, R266, R310: QPUSH appends its threads' records, to the spill ring once that holds any, and takes QSPILL where they do
not fit, and WORLD where one would go to a secure region (log 47); the %tinfo of ILLOPND is the model's reading (log 22); QPOP gives the oldest records to its threads, or waits for enough of them; a refill moves records from the spill
ring to the hardware entries. -/
def Obligations.Queues : Prop :=
  ∀ (s : State) (g : Guard) (w : Width) (st : BitVec 9) (a : Opnd) (c : Ctx) (i : Nat),
    let pq := Pos.src 1 a a.isUniImm
    let reg : Opnd := .reg w st
    let n := c.u32 c.low pq
    let q := s.queue n
    let on := n ≤ 575 ∧ s.queueWord n % 2 = 1 ∧ (s.dieWord (n / 64) 0x380).getLsbD (n % 64) = c.launch.secure
    let record := fun j => natLe 32 ((c.th j).read (c.pick j 2) st.toNat 64)
    let ready := if q.spCount = 0 ∧ q.refill = [] then 32 - q.hw.length else 0
    let spare := s.spillSize n - q.spCount
    (s.Ready g (pq :: recordPos 2 reg true false) c →
      (575 < n ∨ s.queueWord n % 2 = 0 → Traps (.qpush g a reg) s c 0x02#8 (c.low % 32 + 256))
      ∧ (n ≤ 575 → s.queueWord n % 2 = 1 → (s.dieWord (n / 64) 0x380).getLsbD (n % 64) ≠ c.launch.secure →
        Traps (.qpush g a reg) s c 0x0B#8 0)
      ∧ (on → ready + spare < c.on.length → Traps (.qpush g a reg) s c 0x1B#8 0)
      ∧ (on → q.spCount = 0 → q.refill = [] → q.waiting = [] → q.hw.length + c.on.length ≤ 32 →
        ∃ u, exec (.qpush g a reg) s = .next u ∧ u.mem = s.mem ∧ u.queue n = { q with hw := q.hw ++ c.on.map record }
          ∧ u.warps = (s.issued.complete c.ref 8).warps)
      ∧ (on → c.on = [i] → 0 < q.spCount → q.spCount < s.spillSize n → q.waiting = [] → 8 ≤ q.hw.length →
        s.pushShut n 1 = false → s.Apart (s.spillAddr n q.spTail) 32 →
        ∃ u, exec (.qpush g a reg) s = .next u ∧ u.physRead (s.spillAddr n q.spTail) 32 = record i
          ∧ KeepsBytes s u (s.spillAddr n q.spTail) 32
          ∧ u.queue n = { q with spCount := q.spCount + 1, spTail := (q.spTail + 1) % s.spillSize n })
      ∧ (on → c.on.length ≤ ready + spare → s.pushShut n c.on.length = true → Traps (.qpush g a reg) s c 0x0B#8 0))
    ∧ (s.Ready g (recordPos 0 reg false true ++ [pq]) c → on → q.waiting = [] →
      (q.hw.length < c.on.length →
        ∃ u, exec (.qpop g reg a) s = .next u ∧ u.mem = s.mem ∧ u.queue n = { q with waiting := [c.ref] }
          ∧ u.warp? c.ref.team c.ref.warp = some (c.warp.waiting c.entry.id (.qpop n st.toNat (maskOf c.on))))
      ∧ (c.on.length ≤ q.hw.length → q.spCount = 0 →
        ∃ (u : State) (v : Warp), exec (.qpop g reg a) s = .next u ∧ u.mem = s.mem ∧ u.queue n = { q with hw := q.hw.drop c.on.length }
          ∧ u.warp? c.ref.team c.ref.warp = some (v.finish c.ref.leaf 8) ∧ { v with threads := c.warp.threads } = c.warp
          ∧ (∀ j, j ∉ c.on → v.thread j = c.th j)
          ∧ ∀ p ∈ c.on.zip q.hw, p.1 < c.warp.threads.length →
              Slices (c.th p.1) (v.thread p.1) c.entry.pc 0 st.toNat 64 (leNat p.2)))
    ∧ (∀ m : Nat, let x := s.queue m
      x.refill ≠ [] → x.waiting = [] → x.spCount = x.refill.length →
        exec (.queueRefillLand m) s = .next (s.updQueue m (fun _ => { x with
          hw := x.hw ++ x.refill, refill := [], spCount := 0, spHead := (x.spHead + x.refill.length) % max 1 (s.spillSize m) })))

/-! ### Launches, completion, jobs -/

/-- R39, R42, R205, R221 to R223, R330, R333, R353: LNCH of a loaded folio makes a running entry and a launch of it, and writes its
handle, or waits with what it has read while the table is full; CNCL sets CXR in a running entry, those below it, and nothing else where the handle is stale or the entry is complete or its COUNT is 0;
CWAIT writes an ended entry's state, 2 for a stale handle, and waits for a running entry. The %tinfo of their ILLOPND is the model's
reading (log 22); that the lowest free entry is taken is the model's choice (log 48). -/
def Obligations.Launches : Prop :=
  ∀ (s : State) (g : Guard) (d a k rec : Opnd) (c : Ctx) (idx folio : Nat) (f : Folio) (e : FolioEntry) (hdr : List Nat) (hl : List LineAt)
      (pas : Nat → List Nat) (lines : Nat → List LineAt) (r : LaunchRec) (entry : Nat),
    let pd := Pos.dst d d.reg32
    let pk := Pos.src 1 k k.isCap
    let pa := Pos.src 2 a a.src32
    let pr := Pos.src 3 rec rec.isCap
    let ph := Pos.src 1 a a.reg32
    let i := c.low
    let base := (c.cap i pr).base
    let n := e.args
    let args := ((List.range ((n + 4095) / 4096)).flatMap pas).map s.physByte
    let parent := (s.completion c.team.launch).parent
    let gen := if (s.completion idx).state = .free then (s.completion idx).gen else (s.completion idx).gen + 1
    let handle := fun (x : Completion) (j : Nat) => x.level.toNat * 2 ^ 30 + j * 2 ^ 16 + x.gen.toNat
    let own := fun (j : Nat) => s.jobOf j = some c.launch.job
    (s.Ready g [pd, pk, pa, pr] c →
      (c.capTag i pk = false → Traps (.lnch g d k a rec) s c 0x06#8 ((c.cap i pk).base % 2 ^ 56 + i % 32 * 2 ^ 56 + 2 * 2 ^ 61))
      ∧ (c.capTag i pk = true → s.handleFolio c.launch.asid (c.cap i pk) = none → Traps (.lnch g d k a rec) s c 0x02#8 (i % 32 + 256))
      ∧ (c.capTag i pk = true → s.handleFolio c.launch.asid (c.cap i pk) = some (folio, f) →
        f.image.entries[c.u32 i pa]? = some e → Passes s c i pr base 64 1 false ⟨true, false, false⟩ hdr hl →
        (∀ q < (n + 4095) / 4096, Passes s c i pr (base + 64 + 4096 * q : Nat) (min 4096 (n - 4096 * q)) 1 false ⟨true, false, false⟩
          (pas q) (lines q)) →
        f.secure = c.launch.secure → parseLaunch (hdr.map s.physByte) = some r → hdr.length = 64 → r.folio = 0 → r.entry = 0 →
        askLaunch r f (c.u32 i pa) args = .ok entry → (∀ n e b, c.entry.wait ≠ .launch n e b) → s.Drained →
        s.reaches c.team.die (hdr ++ (List.range ((n + 4095) / 4096)).flatMap pas) = true →
        (s.newIndex = none → Holds (.lnch g d k a rec) s (.launch folio entry (hdr.map s.physByte ++ args)))
        ∧ (s.newIndex = some idx → idx < 16383 → idx ≠ parent → parent = 0x3FFF ∨ parent < 16383 →
          ∃ u w L, WarpAfter c 0 w c.on (some pd) (fun _ => .ofVal (idx * 2 ^ 16 + gen.toNat))
            ∧ Goes (.lnch g d k a rec) s c 16 u ∧ u.warp? c.ref.team c.ref.warp = some w ∧ u.mem = s.mem ∧ u.teams = s.teams
            ∧ u.completion idx = ⟨0#2, .running, false, parent, gen, r.teams, false, false, 0⟩ ∧ u.word (0x4000 + idx) = 0#64
            ∧ (parent < 16383 → (u.completion parent).count = (s.completion parent).count + 1)
            ∧ Tbl.look idx u.launches = some L ∧ L.teams = r.teams ∧ L.next = 0 ∧ L.taskNum = r.teams ∧ L.folio = folio
            ∧ L.entry = entry ∧ L.args = args ∧ L.asid = c.launch.asid ∧ L.secure = c.launch.secure ∧ L.job = c.launch.job
            ∧ L.rfolio = c.launch.rfolio ∧ L.pri = r.pri ∧ L.strict = r.strict ∧ L.holding = r.holding
            ∧ L.dmask = if r.dmask = 0#9 then 1#9 <<< c.team.die else r.dmask)))
    ∧ (s.Ready g [ph] c →
      let h := BitVec.ofNat 32 (c.u32 i ph)
      (∀ j, s.ofHandle h = some j → ¬ own j → Traps (.cncl g a) s c 0x02#8 (i % 32 + 256))
      ∧ (s.ofHandle h = none → exec (.cncl g a) s = .next (s.issued.complete c.ref 8))
      ∧ (∀ j, s.ofHandle h = some j → own j →
        ((s.completion j).state ≠ .running ∨ (s.completion j).count = 0 → exec (.cncl g a) s = .next (s.issued.complete c.ref 8))
        ∧ ((s.completion j).state = .running → (s.completion j).count ≠ 0 → ∃ u, exec (.cncl g a) s = .next u ∧ u.mem = s.mem ∧ (u.completion j).cxr = true
          ∧ ∀ q ∈ s.completions.map Prod.fst, (s.completion q).state = .running → (s.completion q).count ≠ 0 →
              (s.completion q).parent = j →
              (s.completions.map Prod.fst).Nodup → (u.completion q).cxr = true)))
    ∧ (s.Ready g [pd, ph] c →
      let h := BitVec.ofNat 32 (c.u32 i ph)
      let writes := fun (code : Nat) => ∃ u w, WarpAfter c 0 w c.on (some pd) (fun _ => .ofVal code) ∧ Goes (.cwait g d a) s c 8 u
        ∧ u.warp? c.ref.team c.ref.warp = some w ∧ u.mem = s.mem ∧ u.teams = s.teams ∧ u.completions = s.completions
      (s.ofHandle h = none → writes 2)
      ∧ (∀ j, s.ofHandle h = some j → ¬ own j → Traps (.cwait g d a) s c 0x02#8 (i % 32 + 256))
      ∧ (∀ j, s.ofHandle h = some j → own j →
        (handle (s.completion j) j = h.toNat ∧ (s.completion j).state ≠ .free)
        ∧ ((s.completion j).state = .done → writes 2) ∧ ((s.completion j).state = .cancelled → writes 3)
        ∧ ((s.completion j).state = .faulted → writes 4)
        ∧ ((s.completion j).state = .running → ∃ u, exec (.cwait g d a) s = .next u ∧ u.mem = s.mem ∧ u.teams = s.teams
          ∧ u.warp? c.ref.team c.ref.warp = some (c.warp.waiting c.entry.id (.entry h d (maskOf c.on))))))

/-- R39 to R41, R43, R225, R228, R277, R333: an entry whose COUNT is zero completes: FAULTED where a member faulted, CANCELLED where it
or a member was cancelled, else DONE. A launch, a graph or a last phase leaves the COUNT above it; a job writes its STATUS and
raises its queue's vector. A leaf that waits for it goes on with the state. A copy node whose bytes have landed ends DONE. -/
def Obligations.Completes : Prop :=
  ∀ (s : State) (idx node : Nat) (j : Job) (x : Xfer) (T W : Nat) (w : Warp) (e : Entry) (q : Width) (st : BitVec 9) (m : BitVec 32)
      (bw aw : Tbl Warp) (be ae : List Entry),
    let k := s.completion idx
    let final : EntryState := if k.anyFault then .faulted else if k.cxr || k.anyCancel then .cancelled else .done
    let code := match final with | .free => 0 | .running => 1 | .done => 2 | .cancelled => 3 | .faulted => 4
    let h := handleOf idx k
    let p := s.completion k.parent
    let upward := fun (u : State) => k.parent ≠ 0x3FFF → k.parent ≠ idx →
      u.completion k.parent = { p with count := p.count - 1, anyFault := p.anyFault || final == .faulted, anyCancel := p.anyCancel || final == .cancelled }
    let silent := fun (x : Warp) => ∀ y ∈ x.entries, ∀ o m, y.wait ≠ .entry h o m
    let plain := s.inbox = [] ∧ k.state = .running ∧ k.count = 0 ∧
      ((k.level = 0#2 ∧ (∀ L, Tbl.look idx s.launches = some L → L.node = none ∧ L.slot = none)) ∨ k.level = 1#2
        ∨ (k.level = 2#2 ∧ ∃ y, Tbl.look k.parent s.jobs = some y ∧ (final ≠ .done ∨ y.phase + 1 = y.nph)))
    (plain →
      ((∀ y ∈ s.warps, silent y.2) → ∃ u, exec (.entryComplete idx) s = .next u ∧ (u.completion idx).state = final
        ∧ (u.completion idx).left = s.clock ∧ upward u ∧ u.mem = s.mem ∧ u.warps = s.warps ∧ u.teams = s.teams)
      ∧ (s.warps = bw ++ [(warpKey T W, w)] ++ aw → (∀ y ∈ bw ++ aw, silent y.2 ∧ y.1 ≠ warpKey T W) → w.team = T → w.index = W →
        w.entries = be ++ [e] ++ ae → (∀ y ∈ be ++ ae, y.id ≠ e.id ∧ ∀ o m, y.wait ≠ .entry h o m) → e.wait = .entry h (.reg q st) m →
        q = .w32 →
        ∃ (u : State) (v : Warp), exec (.entryComplete idx) s = .next u ∧ (u.completion idx).state = final ∧ upward u ∧ u.mem = s.mem
          ∧ u.warp? T W = some (v.finish e.id 8) ∧ { v with threads := w.threads } = w ∧ v.threads.length = w.threads.length
          ∧ ∀ i < w.threads.length, if m.getLsbD i then Slices (w.thread i) (v.thread i) 0#32 0 st.toNat 8 code else v.thread i = w.thread i))
    ∧ (s.inbox = [] → k.state = .running → k.count = 0 → k.level = 3#2 → Tbl.look idx s.jobs = some j → (∀ y ∈ s.warps, silent y.2) → s.Apart j.rec_ 8 →
      (∀ y, (s.die y).monitors = []) →
      ∃ u, exec (.entryComplete idx) s = .next u ∧ (u.completion idx).state = final
        ∧ u.physRead j.rec_ 8 = natLe 8 (code + 8 + h.toNat * 2 ^ 32) ∧ KeepsBytes s u j.rec_ 8
        ∧ u.msix = (s.word (0x1001 + 4 * j.queue)).toNat / 2 ^ 16 % 2 ^ 11 :: s.msix ∧ u.warps = s.warps)
    ∧ (∀ G n, s.xfers.find? (fun y => y.kind == .node idx node) = some x → Tbl.look idx s.graphs = some G → G.nodes[node]? = some n →
      x.stopped = false → (∀ sl ∈ x.slices, sl.len ≤ (sl.landed.map Prod.snd).sum) → n.succs = [] → idx ≠ 0x3FFF →
      ∃ u, exec (.graphCopyNodeComplete idx node) s = .next u ∧ u.mem = s.mem ∧ u.warps = s.warps
        ∧ u.xfers = s.xfers.filter (fun y => y.id != x.id) ∧ (u.completion idx).count = k.count - 1
        ∧ (u.completion idx).anyFault = k.anyFault ∧ (u.completion idx).anyCancel = k.anyCancel)

/-- R225 to R227: a launch queue's words: EN is set only with a legal size and vector, and then HEAD and TAIL are zero; a
write of TAIL more than the queue's size ahead of HEAD is ignored. The device takes the job at the HEAD of the queue of highest priority: HEAD
advances, the job is a running entry, its STATUS shows bit 3 and the handle, its folios have their owner, and its first phase
starts; a refused job has a member that faulted. While the completion table lacks an entry for the job, its phase or an item, the
device does not take it (log 36); of queues of one priority the lowest number comes first, and a refused job still shows its STATUS
(log 40). In recovery mode the words do not answer (R281). -/
def Obligations.Jobs : Prop :=
  ∀ (s : State) (n i : Nat) (v : Word64) (j : Job) (folios : List Nat) (t : State),
    let w := fun k => s.word (0x1000 + 4 * n + k)
    let log := (w 1).toNat % 32
    let vec := (w 1).toNat / 2 ^ 16 % 2 ^ 11
    let head := (w 2).toNat
    let tail := v.toNat % 2 ^ 32
    let ahead := fun (x : Nat) => (x + 2 ^ 32 - head) % 2 ^ 32
    let slot := (w 0).toNat / 8 % 2 ^ 49 * 8 + 8 * (head % 2 ^ log)
    let pa := leNat (s.physRead slot 8) / 64 % 2 ^ 46 * 64
    let gen := if (s.completion i).state = .free then (s.completion i).gen else (s.completion i).gen + 1
    let entered : State := { s with
      completions := Tbl.put i ⟨3#2, .running, false, 0x3FFF, gen, 1, false, false, 0⟩ s.completions
      words := Tbl.put (0x1002 + 4 * n) (BitVec.ofNat 64 ((head + 1) % 2 ^ 32)) (Tbl.put (0x4000 + i) 0#64 s.words)
      launches := Tbl.del i s.launches, graphs := Tbl.del i s.graphs, jobs := Tbl.del i s.jobs }
    let running : State := { entered with jobs := Tbl.put i { j with queue := n } entered.jobs }
    let started := (running.place pa (natLe 8 (8 + (entered.handle i).toNat * 2 ^ 32))).ownFolios i folios
    let best := ∀ m < 64, s.queueWork m = true → s.queuePri m < s.queuePri n ∨ s.queuePri m = s.queuePri n ∧ n ≤ m
    n < 64 → s.recovery = false →
      ((w 0).getLsbD 63 = true ∨ v.getLsbD 63 = false → ∃ u, exec (.launchQueueEnable n v) s = .next u ∧ u.mem = s.mem
        ∧ (∀ k, k ≠ 0x1000 + 4 * n → u.word k = s.word k)
        ∧ (∀ b < 64, (u.word (0x1000 + 4 * n)).getLsbD b = if 3 ≤ b ∧ b < 52 ∨ b = 63 then v.getLsbD b else (w 0).getLsbD b))
      ∧ ((w 0).getLsbD 63 = false → v.getLsbD 63 = true → ∃ u, exec (.launchQueueEnable n v) s = .next u ∧ u.mem = s.mem
        ∧ ((u.word (0x1000 + 4 * n)).getLsbD 63 = (decide (4 ≤ log) && decide (log ≤ 16) && decide (64 ≤ vec)))
        ∧ (∀ b, 3 ≤ b → b < 52 → (u.word (0x1000 + 4 * n)).getLsbD b = v.getLsbD b)
        ∧ ((u.word (0x1000 + 4 * n)).getLsbD 63 = true → u.word (0x1002 + 4 * n) = 0#64 ∧ u.word (0x1003 + 4 * n) = 0#64))
      ∧ (∃ u, exec (.launchQueueDoorbell n v) s = .next u ∧ u.mem = s.mem ∧ u.word (0x1003 + 4 * n) =
          if ahead tail ≤ 2 ^ log then BitVec.ofNat 64 tail else w 3)
      ∧ (s.queueWork n = true → best → s.newIndex = none → (s.cell? slot).isSome = true → (s.cell? pa).isSome = true →
          exec (.jobStart n) s = .next s)
      ∧ (s.queueWork n = true → best → s.ckpt = .idle → (s.cell? slot).isSome = true → (s.cell? pa).isSome = true →
        s.newIndex = some i → i < 16383 →
        (s.parseJob pa = none → ∃ u, exec (.jobStart n) s = .next u ∧ u.mem = s.mem ∧ u.word (0x1002 + 4 * n) = BitVec.ofNat 64 ((head + 1) % 2 ^ 32)
          ∧ (u.completion i).count = 0 ∧ (u.completion i).anyFault = true ∧ (u.completion i).state = .running ∧ (Tbl.look i u.jobs).isSome = true)
        ∧ (s.parseJob pa = some (j, folios) →
          (started.startPhase i 0 = .ok t → exec (.jobStart n) s = .next t)
          ∧ (started.startPhase i 0 = .faulted → exec (.jobStart n) s = .next (started.memberEnd i .faulted))
          ∧ (started.startPhase i 0 = .full → exec (.jobStart n) s = .next s)))

/-- R191, R220, R224: an armed entry is enabled only with slots and a slot size. A message whose tag no enabled entry has is
dropped and counted; one for a full ring waits; one that fits lands in slot NXT and fires its launch, which has no entry above
it, and ONESHOT clears EN. -/
def Obligations.ArmedLaunches : Prop :=
  ∀ (s : State) (e idx : Nat) (v : Word64) (m : InMessage) (r : LaunchRec) (x : Folio) (job : Nat) (j : Job) (at_ : List (Nat × LineAt))
      (entry : Nat),
    let pas := at_.map Prod.fst
    let w := fun k => s.word (0x2000 + 4 * e + k)
    let port := s.word (0x3000 + m.circuit)
    let tagged := fun k => (s.word (0x2000 + 4 * k)).getLsbD 63 && (s.word (0x2000 + 4 * k)).extractLsb' 0 32 == m.tag
    let size := (w 3).toNat % 2 ^ 14 * 256
    let slots := (w 3).toNat / 2 ^ 45 % 64 + 1
    let nxt := (w 3).toNat / 2 ^ 51 % 64
    let pa := (w 1).toNat / 64 % 2 ^ 46 * 64
    let va := (w 2).toNat / 256 % 2 ^ 48 * 256 + nxt * size
    let n := ((x.image.entries[r.entry]?).map FolioEntry.args).getD 0
    let args := (natLe 8 (va + 16) ++ (s.physRead (pa + 64) n).drop 8).take n
    let die := min 8 (port.toNat / 2 ^ 53 % 16)
    let gen := if (s.completion idx).state = .free then (s.completion idx).gen else (s.completion idx).gen + 1
    let bytes := natLe 4 m.tag.toNat ++ natLe 4 m.payload.length ++ natLe 4 m.pkg.toNat ++ natLe 4 (idx * 2 ^ 16 + gen.toNat) ++ m.payload
    e < 64 →
      (s.recovery = false → (w 0).getLsbD 63 = false → v.getLsbD 63 = true → ∃ u, exec (.armedEntryEnable e v) s = .next u ∧ u.mem = s.mem
        ∧ (u.word (0x2000 + 4 * e)).getLsbD 63 = (decide ((w 3).toNat / 2 ^ 45 % 64 ≠ 0) && decide ((w 3).toNat % 2 ^ 14 ≠ 0))
        ∧ (u.word (0x2000 + 4 * e)).extractLsb' 0 32 = v.extractLsb' 0 32
        ∧ ((u.word (0x2000 + 4 * e)).getLsbD 63 = true → (u.word (0x2003 + 4 * e)).toNat / 2 ^ 51 % 64 = 0))
      ∧ (port.getLsbD 61 = true → port.getLsbD 62 = true → (∀ y ∈ s.inbox, y.circuit ≠ m.circuit) →
        ((∀ k < 64, tagged k = false) → exec (.messageArrival m) s = .next (s.setWord 0x2100 (s.word 0x2100 + 1#64)))
        ∧ (tagged e = true → (∀ k < e, tagged k = false) → parseLaunch (s.physRead pa 64) = some r → Tbl.look r.folio s.folios = some x →
          x.job = some job → Tbl.look job s.jobs = some j → m.payload.length + 16 ≤ size → x.live = true → r.dmask ≠ 0#9 →
          (slots ≤ (Tbl.get s.slots e []).length → exec (.messageArrival m) s = .next { s with inbox := s.inbox ++ [m] })
          ∧ ((Tbl.get s.slots e []).length < slots → (∀ y ∈ Tbl.get s.slots e [], y.1 ≠ nxt) →
            s.landing die j.asid va (16 + m.payload.length) j.secure = some at_ → askLaunch r x r.entry args = .ok entry →
            s.newIndex = some idx → idx < 16383 → (pas.map s.cell?).Nodup → (∀ a ∈ pas, (s.cell? a).isSome = true) →
            ∃ u L, exec (.messageArrival m) s = .next u ∧ pas.map u.physByte = bytes
              ∧ (∀ a, s.cell? a ∉ pas.map s.cell? → u.physByte a = s.physByte a)
              ∧ u.completion idx = ⟨0#2, .running, false, 0x3FFF, gen, r.teams, false, false, 0⟩
              ∧ Tbl.look idx u.launches = some L ∧ L.teams = r.teams ∧ L.next = 0 ∧ L.folio = r.folio ∧ L.entry = entry ∧ L.args = args
              ∧ L.job = job ∧ L.asid = j.asid ∧ L.slot = some (e, nxt)
              ∧ Tbl.get u.slots e [] = Tbl.get s.slots e [] ++ [(nxt, idx, false)]
              ∧ (u.word (0x2003 + 4 * e)).toNat / 2 ^ 51 % 64 = (nxt + 1) % slots
              ∧ (u.word (0x2000 + 4 * e)).getLsbD 63 = !(w 0).getLsbD 62 ∧ u.inbox = s.inbox)))


/-! ### The matrix engine -/

/-- R123, R127, R129 to R135, R139, R140, R144, R151: MMA and MSPA with A in registers join the instance that gathers their
tile and version, or form one, whatever their guard; with A in local store they, MLOOP, MZRO and VDSET form one of one issue.
Without the token they take TOKEN; an issue whose fields differ from the instance's, or whose lane has joined it, takes ILLOPND.
Which fields are compared, and that a full instance counts here, is the model's choice (log 31); that an issue is held while its
lane's staging buffer holds two is R130's. Which rows, tags and operands are checked, in which order, and the %tinfo of ILLOPND for a value are the
model's readings (logs 22, 32); TOKEN comes after the checks of R79, as R135 says. -/
def Obligations.MatrixIssue : Prop :=
  ∀ (s : State) (g : Guard) (la : BitVec 4) (t : Ty) (a n tile ver kb : Opnd) (ks : Option (BitVec 7)) (u : MmaUp) (ul : MloopUp)
      (uv : VdsetUp) (vop : VerdictOp) (thr : Option Opnd) (pm : Option (SparsePat × Opnd)) (c : Ctx) (x : Tile) (i : Instr) (y : Instance),
    let pk := ks.map (fun k => Pos.src 2 (.uni k) true)
    let ksv := match pk with | some p => c.u32 c.low p | none => 0
    let kw := BitVec.ofNat 32 ksv
    let sa := ksv % 2 ^ 16
    let sb := ksv / 2 ^ 16 % 2 ^ 16
    let loc := Pos.src 1 a (match a with | .uni _ => true | _ => false)
    let a0 := c.u32 c.low loc
    let pat := pm.map Prod.fst
    let pa := (Pos.src 1 a (match a with | .reg w _ => w.bits == t.unitBits | _ => false)).inHalf u.half
    let mp := pm.map (fun p => (Pos.src 0 p.2 (p.2.bits == p.1.metaBits t)).inHalf u.half)
    let num := suppliers u.half
    let sup := c.on.filter (· < num)
    let from_ := fun (p : Pos) => (List.range num).map (fun j => if sup.contains j then c.raw j p else 0)
    let part : Participant := { c.part with units := from_ pa, metas := match mp with | some p => from_ p | none => [] }
    let use := fun (rows : List Nat) (a0 : Nat) => (⟨t, u.scl, denseK t u.half pat, rowBytes t u.half pat, rows, a0, u.astr.toNat * 16, 0,
      u.boff.toNat * 32, 0, 1, sa, sb⟩ : MatUse)
    let own := use [c.warp.lane] 0
    let them := use (bandRows u.bm) a0
    let op := fun (a0 : Nat) => MatOp.mma t u pat a0 kw
    let pn := Pos.src 0 n true
    let w := c.u32 c.low pn
    let l0 := Pos.src 1 a true
    let la0 := c.u32 c.low l0
    let loop : MatUse := ⟨t, ul.scl, denseK t ul.half none, rowBytes t ul.half none, bandRows ul.bm, la0, ul.astr.toNat * 16,
      w / 2 ^ 16 % 2 ^ 16 * 16, ul.boff.toNat * 32, ul.binc.toNat * 64, w % 2 ^ 16, sa, sb⟩
    let pt := Pos.src 1 tile tile.isUniImm
    let pv := Pos.src 2 ver ver.isUniImm
    let zt := c.u32 c.low pt
    let ph := thr.map (fun o => Pos.src 1 o o.reg32)
    let pb := Pos.src 2 kb true
    let tv : Word := match ph with | some p => BitVec.ofNat 32 (c.u32 c.low p) | none => 0#32
    let bo := c.u32 c.low pb
    ((pm = none ∧ i = .mma g la t a ks u ∨ ∃ q o, pm = some (q, o) ∧ (q ≠ .s28 ∨ Config.stepIsB1 = true) ∧ i = .mspa g la t q o a ks u) →
      (u.asrc = true → s.Ready g (loc :: pk.toList) c →
        (¬ s.Tokened c → Traps i s c 0x19#8 0)
        ∧ (s.Tokened c → s.tileAt c u.tile.toNat = some x → u.bm = 0#8 → Traps i s c 0x02#8 0)
        ∧ (s.Tokened c → s.tileAt c u.tile.toNat = some x → u.bm ≠ 0#8 → them.bOk c.team.bsize = true → a0 % 16 = 0 →
          them.sOk c.team.sents = true →
          (them.aOk c.team.lstore = false → Traps i s c 0x10#8 0)
          ∧ (them.aOk c.team.lstore = true → them.tagsOk c.team x = false → Traps i s c 0x12#8 0)
          ∧ (them.aOk c.team.lstore = true → them.tagsOk c.team x = true →
            Forms i s c 16 u.tile.toNat u.ver (op a0) (u.npm.toNat + 1) none c.part)))
      ∧ (u.asrc = false → s.Collects g (mp.toList ++ [pa] ++ pk.toList) c → s.Tokened c →
        s.tileAt c u.tile.toNat = some x → own.bOk c.team.bsize = true → c.entry.mask = c.warp.liveMask → num ≤ c.warp.count →
        u.bm.getLsbD (c.warp.lane / 8) = true → own.sOk c.team.sents = true →
        (∀ q o p, pm = some (q, o) → mp = some p → badMeta t q (sup.map (fun j => (j, c.raw j p))) = none) →
          (¬ s.fitsIn c u.tile.toNat u.ver (op 0) → Traps i s c 0x02#8 0)
          ∧ (s.fitsIn c u.tile.toNat u.ver (op 0) → own.tagsOk c.team x = false → Traps i s c 0x12#8 0)
          ∧ (s.fitsIn c u.tile.toNat u.ver (op 0) → own.tagsOk c.team x = true →
            (2 ≤ s.stagedOn c.team.die c.team.core c.warp.lane → Holds i s .busy)
            ∧ (s.stagedOn c.team.die c.team.core c.warp.lane < 2 →
              (s.gathersNone c u.tile.toNat u.ver → Forms i s c 16 u.tile.toNat u.ver (op 0) (u.npm.toNat + 1) none part)
              ∧ (s.gathers c u.tile.toNat u.ver y → Joins i s c 16 y part)))))
    ∧ (s.Ready g ([pn, l0] ++ pk.toList) c → s.Tokened c → s.tileAt c ul.tile.toNat = some x →
      (w % 2 ^ 16 = 0 → Traps (.mloop g la t n a ks ul) s c 0x02#8 (c.low % 32))
      ∧ (w % 2 ^ 16 ≠ 0 → ul.bm ≠ 0#8 → loop.bOk c.team.bsize = true → la0 % 16 = 0 → loop.sOk c.team.sents = true →
        loop.aOk c.team.lstore = true → loop.tagsOk c.team x = true →
          Forms (.mloop g la t n a ks ul) s c 16 ul.tile.toNat ul.ver (.mloop t ul (w % 2 ^ 16) (w / 2 ^ 16 % 2 ^ 16) la0 kw) 1 none c.part))
    ∧ (s.Ready g [pt, pv] c → s.Tokened c → zt < c.team.tiles.length → (∀ z, ver = .imm z → 0 ≤ z.toInt) →
      Forms (.mzro g la t tile ver) s c 8 zt (BitVec.ofNat 16 (c.u32 c.low pv)) (.mzro t) 1 none c.part)
    ∧ (s.Ready g (ph.toList ++ [pb]) c → s.Tokened c → s.tileAt c uv.tile.toNat = some x → (f32Val tv).isNan = false → uv.km.toNat < 64 →
      bo % 4 = 0 → bo + 256 * (uv.nbm.toNat + 1) ≤ c.team.lstore →
      (vop = .topk → uv.ks.toNat * 16 + 512 * 63 + 8 * (uv.km.toNat + 1) ≤ c.team.lstore) →
      (x.tag ≠ 0xA#4 → Traps (.vdset g la vop thr kb uv) s c 0x12#8 0)
      ∧ (x.tag = 0xA#4 → Forms (.vdset g la vop thr kb uv) s c 16 uv.tile.toNat uv.ver (.vdset vop tv bo uv) 1 none c.part))

/-- R120 to R122, R142, R143, R146, R147, R156, R159: MLDB and MLDS set the tags of every block or group they touch and start a
transfer that counts down at their point. MDRN to registers joins its instance, and its threads' destinations are pending;
MDRN to memory or local store forms one. A tile without an accumulator's tag takes FMTTAG. What the drain's checks cover, that an
MDRN.add counts in COUNT from its issue, and that a VDSET ahead counts as a declaration are the model's readings (logs 32, 33, 34). -/
def Obligations.MatrixTransfers : Prop :=
  ∀ (s : State) (g : Guard) (la : BitVec 4) (t : Ty) (sk : Bool) (rec frm : Opnd) (o : Option Opnd) (boff lenu base : BitVec 16)
      (pt : BitVec 5) (op : DrainOp) (vd : Bool) (q : Width) (st : BitVec 9) (u : MdrnUp) (c : Ctx) (x : Tile) (e : XEnd) (y : Instance),
    let pf := Pos.src 1 frm true
    let po := o.map (fun x => Pos.src 2 x x.src3264)
    let i := c.low
    let at_ : Int := (c.cap i pf).base + (match po with | some p => c.signed i p | none => 0)
    let from_ := fun (n : Nat) => (sk = true ∧ ∃ tm, s.Local c (c.u32 i pf) n tm ∧ e = .loc tm (c.u32 i pf % 2 ^ 19))
      ∨ (sk = false ∧ c.Grants i pf at_ n 1 ∧ e = .mem at_.toNat)
    let len := lenu.toNat * 32
    let off := boff.toNat * 32
    let pr := Pos.src 0 rec true
    let v := c.raw i pr
    let rows := v / 2 ^ 48 % 2 ^ 16
    let kblk := v / 2 ^ 32 % 2 ^ 16
    let span := (rows - 1) * (v / 2 ^ 96 % 2 ^ 32) + (kblk - 1) * (v / 2 ^ 64 % 2 ^ 32) + 1
    let d : Opnd := .reg q st
    let pd := (Pos.dst d (d.bits == 32 || d.bits == 64)).inHalf true
    let dt : Ty := if vd then .n32 else if x.tag = 0xB#4 then .f64 else if x.tag = 0xC#4 then .i32 else .f32
    let acc := x.tag = 0xA#4 ∨ x.tag = 0xB#4 ∨ x.tag = 0xC#4
    let mop := MatOp.mdrn .reg dt vd u (.data [])
    let get := c.on.filter (· < 16)
    let part : Participant := { c.part with
      starts := (List.range 16).map (fun j => if get.contains j then pd.start (c.th j) else 0) }
    let others := fun (n : State) => ∀ j, j ≠ c.ref.team → n.team? j = s.team? j
    let rb := 16 * (dt.bits / 8)
    let to_ := (u.tgt = true ∧ ∃ tm z, s.Local c (c.u32 i pf) 0 tm ∧ s.team? tm = some z ∧ e = .loc tm (c.u32 i pf % 2 ^ 19)
        ∧ ∀ r < 64, u.bm.getLsbD (r / 8) = true → c.u32 i pf % 2 ^ 19 + r * (u.rstr.toNat * 16) + rb ≤ z.lstore)
      ∨ (u.tgt = false ∧ e = .mem at_.toNat ∧ ∀ r < 64, u.bm.getLsbD (r / 8) = true →
          c.Grants i pf (at_ + (r * (u.rstr.toNat * 16) : Nat)) rb (if op = .add then 3 else 2))
    (s.Ready g (pf :: po.toList) c → s.Tokened c → s.pointOk c pt → len ≠ 0 → off + len ≤ c.team.bsize → from_ len →
      ∃ (n : State) (tags : Tbl (BitVec 4)), Goes (.mldb g la t sk frm o boff lenu pt) s c 16 n ∧ n.mem = s.mem ∧ n.warps = s.warps
        ∧ n.team? c.ref.team = some { c.team with btags := tags } ∧ Tagged c.team.btags tags 4096 off len t.bTag ∧ others n
        ∧ n.xfers = s.xfers ++ [c.matXfer s.nextId .mldb pt e (.bst c.ref.team off) len])
    ∧ (s.Ready g ([pr, pf] ++ po.toList) c → s.Tokened c → s.pointOk c pt → v / 16 % 16 = 5 → (v % 16 = 1 ∨ v % 16 = 2) → rows ≠ 0 →
      kblk ≠ 0 → rows * kblk ≤ 65536 → v / 256 % 2 ^ 24 = 0 → base.toNat % 64 = 0 → base.toNat + rows * kblk ≤ c.team.sents → from_ span →
      ∃ (n : State) (tags : Tbl (BitVec 4)), Goes (.mlds g la sk rec frm o base pt) s c 16 n ∧ n.mem = s.mem ∧ n.warps = s.warps
        ∧ n.team? c.ref.team = some { c.team with stags := tags } ∧ others n
        ∧ Tagged c.team.stags tags 64 base.toNat (rows * kblk) (if v % 16 = 1 then 0xD#4 else 0xE#4)
        ∧ n.xfers = s.xfers ++ [c.matXfer s.nextId .mlds pt e (.scl c.ref.team base.toNat (BitVec.ofNat 128 v)) (rows * kblk)])
    ∧ (s.tileAt c u.tile.toNat = some x → u.bm ≠ 0#8 → s.drainBad c u.tile.toNat u.ver x vd (op == .add) = false → s.Tokened c →
      (op = .reg → s.Collects g [pd] c → pd.o.bits = dt.bits → u.bm.getLsbD (c.warp.lane / 8) = true →
        (¬ s.fitsIn c u.tile.toNat u.ver mop → Traps (.mdrn g la op vd (some d) none none u) s c 0x02#8 0)
        ∧ (acc → s.fitsIn c u.tile.toNat u.ver mop → s.gathersNone c u.tile.toNat u.ver →
          ∃ (n : State) (w : Warp), Goes (.mdrn g la op vd (some d) none none u) s c 16 n ∧ n.mem = s.mem ∧ n.teams = s.teams
            ∧ (n.core c.team.die c.team.core).insts = (s.core c.team.die c.team.core).insts
              ++ [⟨s.nextId, c.ref.team, u.tile.toNat, u.ver, mop, u.npm.toNat + 1, [part], c.entry.pc, none, none⟩]
            ∧ n.warp? c.ref.team c.ref.warp = some w ∧ Pending c w get pd s.nextId la.toNat)
        ∧ (acc → s.fitsIn c u.tile.toNat u.ver mop → s.gathers c u.tile.toNat u.ver y →
          ∃ (n : State) (w : Warp), Goes (.mdrn g la op vd (some d) none none u) s c 16 n ∧ n.mem = s.mem ∧ n.teams = s.teams
            ∧ (n.core c.team.die c.team.core).insts = (s.core c.team.die c.team.core).insts.map
              (fun z => if z.id == y.id then { z with parts := z.parts ++ [part] } else z)
            ∧ n.warp? c.ref.team c.ref.warp = some w ∧ Pending c w get pd y.id la.toNat)
        ∧ (¬ acc → s.fitsIn c u.tile.toNat u.ver mop → Traps (.mdrn g la op vd (some d) none none u) s c 0x12#8 0))
      ∧ (op ≠ .reg → s.Ready g (pf :: po.toList) c → s.pointOk c u.pt → rb ≤ u.rstr.toNat * 16 → to_ →
        (¬ acc → Traps (.mdrn g la op vd none (some frm) o u) s c 0x12#8 0)
        ∧ (acc → ∃ n, Goes (.mdrn g la op vd none (some frm) o u) s c 16 n ∧ n.mem = s.mem ∧ n.teams = s.teams ∧ n.warps = s.warps
          ∧ (n.core c.team.die c.team.core).insts = (s.core c.team.die c.team.core).insts
            ++ [⟨s.nextId, c.ref.team, u.tile.toNat, u.ver, .mdrn op dt vd u e, 1, [c.part], c.entry.pc,
                if u.pt = 31#5 then none else some u.pt.toNat, none⟩]
          ∧ (op = .add → u.tgt = false → (n.completion c.team.launch).count = (s.completion c.team.launch).count + 1))))

/-- R144, R145, R157, R158, R160: TOKP passes the token to a resident team of its launch or a role, or frees it for the oldest
waiter; TOKW goes on where its warp may issue, takes a free token, else waits. VTHR forms an instance of one issue that will raise its
row's threshold, and takes VTHRDN below the threshold that the VTHRs before it leave; that it acts at its turn in the array is the
model's reading (log 34), and so is the %tinfo of their ILLOPND (log 22). TOPK reads an entry or the true count of its
row's k-set, after the started instances. -/
def Obligations.TokenAndTopk : Prop :=
  ∀ (s : State) (g : Guard) (la : BitVec 4) (a tile d e : Opnd) (c : Ctx) (p : Nat × Team) (r : LeafRef) (w : Warp) (x : Tile) (v : Verdict),
    let pa := Pos.src 1 a a.isUniImm
    let k := fun (u : State) => u.core c.team.die c.team.core
    let n := c.u32 c.low pa
    let team := s.teams.find? (fun q => q.2.launch == c.team.launch && q.2.num == n % 2 ^ 24 && q.2.state.holds
      && q.2.die == c.team.die && q.2.core == c.team.core)
    let passes := fun (tok : Option Token) => ∃ u, Goes (.tokp g a) s c 8 u ∧ u.mem = s.mem ∧ u.teams = s.teams ∧ u.warps = s.warps
      ∧ k u = { k s with token := tok }
    let pt := Pos.src 1 tile true
    let pv := Pos.src 2 a a.reg32
    let m := c.u32 c.low pt
    let row := c.warp.lane
    let nv := BitVec.ofNat 32 (c.u32 c.low pv)
    let before := (k s).insts.filterMap (fun i => match i.op with
      | .vthr r t => if i.team = c.ref.team ∧ i.tile = m ∧ r = row then some t else Option.none
      | _ => Option.none)
    let old := before.getLastD (Tbl.get v.ts row v.thr)
    let pd := Pos.dst d d.reg32
    let pe := Pos.src 2 e true
    let ent := c.u32 c.low pe
    let word := fun (j o : Nat) => leNat (c.team.loc.read (v.kset * 16 + 512 * row + 8 * j + o) 4)
    let count := ((List.range v.k).filter (fun j => word j 0 != 0xFF800000 || word j 4 != 0xFFFFFFFF)).length
    let idle := ∀ i ∈ (k s).insts, i.team = c.ref.team → i.tile = m → i.input = none
    (s.Ready g [pa] c →
      (¬ s.Tokened c → Traps (.tokp g a) s c 0x19#8 0)
      ∧ (s.Tokened c →
        (n / 2 ^ 30 % 4 = 3 ∨ n / 2 ^ 30 % 4 = 0 ∧ team = none → Traps (.tokp g a) s c 0x02#8 (c.low % 32 + 256))
        ∧ ((k s).tokens = [] →
          (n / 2 ^ 30 % 4 = 0 → team = some p → passes (some ⟨p.1, none⟩))
          ∧ (n / 2 ^ 30 % 4 = 1 → passes (some ⟨c.ref.team, some (n % 16)⟩))
          ∧ (n / 2 ^ 30 % 4 = 2 → passes none))
        ∧ ((k s).tokens = [r] → s.warp? r.team r.warp = some w → n / 2 ^ 30 % 4 = 2 →
          ∃ u, Goes (.tokp g a) s c 8 u ∧ u.mem = s.mem ∧ u.teams = s.teams ∧ u.warp? r.team r.warp = some (w.finish r.leaf 8)
            ∧ k u = { k s with token := some ⟨r.team, none⟩, tokens := [] })))
    ∧ (s.Ready g [] c →
      (s.Tokened c → exec (.tokw g) s = .next (s.issued.complete c.ref 8))
      ∧ ((k s).tokens = [] → (k s).token = none →
        ∃ u, exec (.tokw g) s = .next u ∧ u.mem = s.mem ∧ u.teams = s.teams ∧ k u = { k s with token := some ⟨c.ref.team, none⟩ }
          ∧ u.warp? c.ref.team c.ref.warp = some ((c.warp.waiting c.entry.id .token).finish c.ref.leaf 8))
      ∧ (¬ s.Tokened c → (k s).tokens = [] → (k s).token ≠ none →
        ∃ u, exec (.tokw g) s = .next u ∧ u.mem = s.mem ∧ u.teams = s.teams ∧ k u = { k s with tokens := [c.ref] }
          ∧ u.warp? c.ref.team c.ref.warp = some (c.warp.waiting c.entry.id .token)))
    ∧ (s.Tokened c → c.team.tiles[m]? = some x →
      (s.Ready g [pt, pv] c →
        ((∀ z, x.decl = some z → z.op ≠ .topk) → Traps (.vthr g la tile a) s c 0x02#8 (c.low % 32 + 256))
        ∧ (x.decl = some v → v.op = .topk →
          ((f32Val nv).isNan = true → Traps (.vthr g la tile a) s c 0x02#8 (c.low % 32 + 512))
          ∧ ((f32Val nv).isNan = false →
            ((f32Val nv).cmp (f32Val old) < 0 → Traps (.vthr g la tile a) s c 0x18#8 0)
            ∧ (0 ≤ (f32Val nv).cmp (f32Val old) →
              Forms (.vthr g la tile a) s c 8 m 0#16 (.vthr row nv) 1 none c.part))))
      ∧ (x.decl = some v → v.op = .topk →
        (s.Ready g [pd, pt, pe] c → v.k ≤ ent → Traps (.topk g la .val d tile (some e)) s c 0x02#8 (c.low % 32 + 512)
          ∧ Traps (.topk g la .idx d tile (some e)) s c 0x02#8 (c.low % 32 + 512))
        ∧ (idle →
          (s.Ready g [pd, pt, pe] c → ent < v.k →
            Computes (.topk g la .val d tile (some e)) s c 12 la.toNat (some pd) (fun _ => .ofVal (word ent 0))
            ∧ Computes (.topk g la .idx d tile (some e)) s c 12 la.toNat (some pd) (fun _ => .ofVal (word ent 4)))
          ∧ (s.Ready g [pd, pt] c →
            Computes (.topk g la .cnt d tile none) s c 12 la.toNat (some pd) (fun _ => .ofVal count))
          ∧ (s.Ready g [pt] c → ∀ q st, d = .reg q st →
            Computes (.topk g la .full d tile none) s c 12 la.toNat none
              (fun _ => ⟨none, some (st.extractLsb' 0 3, count == v.k), 0#5⟩)))
        ∧ (s.Ready g [pd, pt] c → ¬ idle → Holds (.topk g la .cnt d tile none) s .busy)))

/-- R131 to R134, R140, R148, R149, R152: the instance that became startable first starts, and reads its inputs: A of its rows, B,
its scales; a block of a declared tile is counted. A drain's rows leave the tile at its start, as elements or as verdict words,
and under `.topk` the index base rises by 16 (R159). A started MLOOP runs its first step and stays in the sequencer for the
others, at addresses that advance; each step writes its tile, and the version waits. That all inputs are read at the start, and what
a drain does then, are the model's readings (logs 31, 33). -/
def Obligations.MatrixStarts : Prop :=
  ∀ (s : State) (die core inst : Nat) (rest : List Nat) (i : Instance) (t : Team) (x : Tile) (m : MacroSeq),
    let k := fun (u : State) => u.core die core
    let begun := fun (u : State) (j : MatInput) => u.mem = s.mem ∧ u.warps = s.warps ∧ (k u).inst? inst = some { i with input := some j }
    let others := fun (u : State) => ∀ j, j ≠ i.team → u.team? j = s.team? j
    let counted := fun (y : Tile) => { y with decl := y.decl.map (fun v => { v with counter := v.counter + 1 }) }
    let single := ∀ p ∈ s.teams, p.2.macroSeq = none
    let word := fun (bits : Nat) (vd : Bool) (row col : Nat) =>
      if vd then (match x.decl with | some v => v.wordOf ((x.elem row col).truncate 32) | none => 0)
      else (x.elem row col).toNat % 2 ^ bits
    let stepped := fun (u : State) (ty : Ty) (up : MloopUp) (ainc left a0 boff sa sb : Nat) =>
      let n := ty.perUnit * suppliers up.half
      (∃ (v : Team) (y : Tile) (j : MatInput), u.team? i.team = some v ∧ t.Retiled v i.tile (counted y) ∧ y.ver = x.ver ∧ y.decl = x.decl
        ∧ ReadsA t ty n up.bm a0 (up.astr.toNat * 16) j ∧ ReadsB t ty up.scl n boff sa sb j ∧ x.After y ty up.scl up.ftz j)
      ∧ (1 < left → (k u).mloop =
          some ⟨inst, left - 1, a0 + ainc * 16, boff + up.binc.toNat * 64, sa + 64 * (n / 32), sb + 16 * (n / 32)⟩)
      ∧ (left ≤ 1 → (k u).mloop = none) ∧ others u ∧ u.mem = s.mem ∧ u.warps = s.warps
    (k s).inst? inst = some i → s.team? i.team = some t → t.tiles[i.tile]? = some x →
      ((k s).startq = inst :: rest →
        (∀ ty up pat a0 ks, i.op = .mma ty up pat a0 ks →
          let n := ty.perUnit * suppliers up.half
          ∃ (u : State) (v : Team) (j : MatInput), exec (.instanceStart die core inst) s = .next u ∧ begun u j ∧ others u
            ∧ u.team? i.team = some v ∧ t.Retiled v i.tile (counted x)
            ∧ ReadsB t ty up.scl (denseK ty up.half pat) (up.boff.toNat * 32) (ks.toNat % 2 ^ 16) (ks.toNat / 2 ^ 16) j
            ∧ (pat = none → up.asrc = true → ReadsA t ty n up.bm a0 (up.astr.toNat * 16) j)
            ∧ (pat = none → up.asrc = false → (i.parts.map Participant.lane).Nodup → ∀ p ∈ i.parts, p.units.length = suppliers up.half →
                Tbl.get j.a p.lane [] = (List.range n).map (fun e =>
                  (e, p.units.getD (e / ty.perUnit) 0 / 2 ^ (ty.ebits * (e % ty.perUnit)) % 2 ^ ty.ebits))))
        ∧ (∀ ty up n ainc a0 ks, i.op = .mloop ty up n ainc a0 ks → 1 < n ∨ single →
          ∃ u, exec (.instanceStart die core inst) s = .next u ∧ (k u).inst? inst = some { i with input := some .empty }
            ∧ stepped u ty up ainc n a0 (up.boff.toNat * 32) (ks.toNat % 2 ^ 16) (ks.toNat / 2 ^ 16))
        ∧ (∀ op ty vd up dest, i.op = .mdrn op ty vd up dest →
          let rows := if op = .reg then i.parts.map Participant.lane else bandRows up.bm
          ((vd = true → ∃ v, x.decl = some v ∧ v.op ≠ .topk) →
            ∃ (u : State) (j : MatInput), exec (.instanceStart die core inst) s = .next u ∧ begun u j ∧ (∀ n, u.team? n = s.team? n)
              ∧ (∀ r, r ∈ j.words.map Prod.fst ↔ r ∈ rows)
              ∧ ∀ r ∈ rows, Tbl.get j.words r [] = (List.range 16).map (fun col => word ty.bits vd r col))
          ∧ (vd = true → ∀ v, x.decl = some v → v.op = .topk →
            ∃ (u : State) (j : MatInput) (y : Team) (z : Verdict), exec (.instanceStart die core inst) s = .next u ∧ begun u j ∧ others u
              ∧ u.team? i.team = some y ∧ y = { t with tiles := y.tiles, loc := y.loc }
              ∧ y.tiles[i.tile]? = some { x with decl := some z } ∧ z = { v with run := z.run, ib := v.ib + 16 }
              ∧ ∀ r, r ∈ j.words.map Prod.fst ↔ r ∈ rows))
        ∧ ((∀ ty up pat a0 ks, i.op ≠ .mma ty up pat a0 ks) → (∀ ty up n ainc a0 ks, i.op ≠ .mloop ty up n ainc a0 ks) →
          (∀ op ty vd up dest, i.op ≠ .mdrn op ty vd up dest) →
          ∃ u, exec (.instanceStart die core inst) s = .next u ∧ begun u .empty ∧ u.teams = s.teams))
      ∧ ((k s).mloop = some m → m.inst = inst → t.stopping = false → 1 < m.left ∨ single → ∀ ty up n ainc a0 ks, i.op = .mloop ty up n ainc a0 ks →
        ∃ u, exec (.mloopStepStart die core) s = .next u ∧ stepped u ty up ainc m.left m.a0 m.boff m.sa m.sb)

/-- R133, R136, R138, R141, R146, R147, R151, R154, R159: an instance completes: its tile's version advances and the instance is gone.
MMA and MSPA have changed the elements of their rows, an integer one by the wrapped sum of products; MZRO has zeroed and tagged
the tile; VDSET has declared it and emptied the k-sets; VTHR, which names no version, has raised its row's threshold (log 34); MDRN
has handed the flags to its guarded threads' %fstat, and the rows to its participants' registers or to a transfer. That the
effects on a tile stand at the completion, and where the flags go, are the model's readings (logs 31, 33). -/
def Obligations.MatrixCompletes : Prop :=
  ∀ (s : State) (die core inst : Nat) (i : Instance) (t : Team) (x : Tile) (inp : MatInput) (p : Participant) (w : Warp) (b : Window) (j : Nat),
    let k := fun (u : State) => u.core die core
    let done := fun (u : State) => exec (.instanceComplete die core inst) s = .next u ∧ u.mem = s.mem
      ∧ (k u).insts = (k s).insts.filter (fun z => z.id != inst) ∧ ∀ n, n ≠ i.team → u.team? n = s.team? n
    let ends := fun (u : State) (y : Tile) => ∃ v, u.team? i.team = some v ∧ t.Retiled v i.tile { y with ver := i.ver + 1#16 }
    let word := fun (row col : Nat) => (Tbl.get inp.words row []).getD col 0
    let th := w.thread j
    let start := p.starts.getD j 0
    let l := Tbl.get s.launches t.launch Launch.none
    (k s).inst? inst = some i → s.team? i.team = some t → t.tiles[i.tile]? = some x → i.input = some inp →
    (∀ m, (k s).mloop = some m → m.inst ≠ inst) → (∀ m, t.macroSeq = some m → m.inst ≠ inst) →
      (∀ ty up pat a0 ks, i.op = .mma ty up pat a0 ks → (inp.a.map Prod.fst).Nodup →
        ∃ u y, done u ∧ ends u y ∧ u.warps = s.warps ∧ x.After y ty up.scl up.ftz inp ∧ y.decl = x.decl
          ∧ (up.scl = false → (ty = .i8 ∨ ty = .i4) → x.tag = 0xC#4 → ∀ row ∈ inp.a.map Prod.fst, ∀ col < 16,
              (y.elem row col).toNat = wrap 32 (intVal true 32 (x.elem row col).toNat
                + ((Tbl.get inp.a row []).map (fun q => intVal true ty.bits q.2
                    * intVal true ty.bits ((inp.b.getD q.1 []).getD col 0))).sum)))
      ∧ (∀ ty up n ainc a0 ks, i.op = .mloop ty up n ainc a0 ks → ∃ u, done u ∧ ends u x ∧ u.warps = s.warps)
      ∧ (∀ ty, i.op = .mzro ty → ∃ u, done u ∧ u.warps = s.warps ∧ ends u { x with
          elems := [], flags := 0#5, tag := if ty = .f64 then 0xB#4 else if ty = .i32 then 0xC#4 else 0xA#4,
          decl := x.decl.map (fun v => { v with counter := 0 }) })
      ∧ (∀ op thr bo up, i.op = .vdset op thr bo up →
        let v : Verdict := ⟨op, up.nbm.toNat + 1, 0, bo, thr, [], up.km.toNat + 1, up.ks.toNat, [], 0⟩
        (op ≠ .topk → ∃ u, done u ∧ u.warps = s.warps ∧ ends u { x with decl := some v })
        ∧ (op = .topk → up.km.toNat < 64 → ∃ (u : State) (z : Team), done u ∧ u.warps = s.warps ∧ u.team? i.team = some z
          ∧ z.tiles[i.tile]? = some { x with decl := some v, ver := i.ver + 1#16 }
          ∧ (∀ r < 64, ∀ e < up.km.toNat + 1, leNat (z.loc.read (up.ks.toNat * 16 + 512 * r + 8 * e) 4) = 0xFF800000
              ∧ leNat (z.loc.read (up.ks.toNat * 16 + 512 * r + 8 * e + 4) 4) = 0xFFFFFFFF)
          ∧ ∀ a, (∀ r < 64, ¬ (up.ks.toNat * 16 + 512 * r ≤ a ∧ a < up.ks.toNat * 16 + 512 * r + 8 * (up.km.toNat + 1))) →
              z.loc.byte a = t.loc.byte a))
      ∧ (∀ row thr d, i.op = .vthr row thr → x.decl = some d →
        ∃ (u : State) (v : Team) (ts : Tbl Word), done u ∧ u.warps = s.warps ∧ u.team? i.team = some v
          ∧ t.Retiled v i.tile { x with decl := some { d with ts := ts } }
          ∧ ∀ n z, Tbl.get ts n z = if n = row then thr else Tbl.get d.ts n z)
      ∧ (∀ op ty vd up dest, i.op = .mdrn op ty vd up dest → i.parts = [p] → s.warp? i.team p.warp = some w → w.team = i.team → w.index = p.warp →
        (op = .reg → ty.bits % 4 = 0 → (∀ y ∈ w.entries, ∀ c j m, y.wait ≠ .trap c j m) →
          ∃ (u : State) (v : Warp), done u ∧ ends u { x with flags := 0#5 } ∧ u.warp? i.team p.warp = some v
            ∧ { v with threads := w.threads } = w
            ∧ (p.mask.getLsbD j = false → v.thread j = th)
            ∧ (p.mask.getLsbD j = true → j < w.threads.length → (v.thread j).fstat = th.fstat ||| x.flags.zeroExtend 32)
            ∧ (p.mask.getLsbD j = true → j < w.threads.length → j < 16 → th.exited = false → th.wins = [b] → b.op = inst →
                b.landed = false → b.left = 0 → b.todo = sliceMask start (ty.bits / 4) → 0 < ty.bits → start + ty.bits / 4 ≤ 512 →
                (∀ q < ty.bits / 4, (v.thread j).raw (start + q) 1 = word p.lane j / 16 ^ q % 16)
                ∧ (∀ q < 512, inSlices start (ty.bits / 4) q = false → th.halfOf start (ty.bits / 4) q = false →
                    (v.thread j).raw q 1 = th.raw q 1)
                ∧ (v.thread j).valid = th.valid ||| byteMask start (ty.bits / 4) ∧ (v.thread j).wins = []))
        ∧ (op ≠ .reg → ∀ e, ((∃ va, dest = .mem va ∧ e = fun r => .mem (va + r * up.rstr.toNat * 16))
              ∨ (∃ tm o, dest = .loc tm o ∧ e = fun r => .loc tm (o + r * up.rstr.toNat * 16))) →
          ∃ u, done u ∧ ends u { x with flags := 0#5 }
            ∧ u.xfers = s.xfers ++ [⟨s.nextId, if op = .add then .drainAdd ty else .drainSt, some i.team, [p.warp], t.launch, die, core,
                l.asid, l.secure, i.point.map (fun n => (i.team, n)), none, none,
                inp.words.map (fun r => ⟨p.warp, .data (r.2.flatMap (natLe (ty.bits / 8))), e r.1, 16 * (ty.bits / 8), inst, [], []⟩),
                false⟩]))

/-! ### Teams, lanes and posted traps -/

/-- R26 to R31, R53, R60, R61, R128, R214, R261 to R263: a dispatcher admits the next team of its first launch: the team is as at
admission, its warps start at the entry with their registers invalid and their arguments in k0 up. A pre-emption stops a
team's issue, or is deferred by a held key, and the drained team leaves with its context; a team whose leaves all wait in
WAITC is swapped; a saved one enters a core again. A finished team leaves, and its launch's COUNT falls (when it has
finished is log 37's reading; the units of a save record are free, log 27). That a lane's split table is
counted with each warp's least share, and what is spilled where a new warp finds it fuller, is the model's choice (log 39): the premise
`roomy` leaves that case aside. -/
def Obligations.TeamPlacement : Prop :=
  ∀ (s : State) (die core l team : Nat) (lanes : List Nat) (x : Launch) (e : FolioEntry) (t : Team),
    let launches := fun (p : Nat × Launch) => p.2.dmask.getLsbD die = true ∧ p.2.next < p.2.teams
    let n := if x.nthr = 0 then e.team else x.nthr
    let threads := fun (w : Nat) => min 32 (n - 32 * w)
    let dem : Demand := ⟨(List.range ((n + 31) / 32)).map (fun w => ⟨e.regs * threads w, 1, none⟩), e.lstore + 256 * ((n + 31) / 32),
      x.breg * 65536, x.sreg * 64, x.ntile, x.secure, false⟩
    let role := fun (w : Nat) => (e.roles.find? (fun r => r.first ≤ w && w ≤ r.last)).getD ⟨0, 0, 31, 0, 512 - e.regs⟩
    let k := s.core t.die t.core
    let mine := k.insts.filter (fun i => i.team == team)
    let keeps := fun (u : State) => u.mem = s.mem ∧ KeepsTeams s u team
    let still := fun (d c : Nat) => (∀ lane, Tbl.get (s.core d c).claims lane [] = []) ∧ ∀ q ∈ s.queues, q.2.waiting = []
    let idle := k.tokens = [] ∧ still t.die t.core ∧ (∀ p ∈ s.teams, p.2.macroSeq = none)
      ∧ ∀ w ∈ s.warpsOf team, ∀ y ∈ w.entries, y.wait.saveWithdraws = false
    let pool := fun (l : List Nat) => if l.contains team then l else l ++ [team]
    let use := fun (ws : List Warp) => (ws.map (fun w => max 1 w.tabled.length)).sum
    let roomy := fun (new : Nat → Nat) => ∀ lane ∈ lanes, use (s.laneWarps die core lane) + new lane ≤ 16
    let leaves := fun (u : State) (to_ : TeamState) (stopping : Bool) => keeps u
      ∧ u.team? team = some { t with
          state := to_
          stopping := stopping
          insts := mine
          savedToken := k.token.filter (fun z => z.team == team)
          deferred := none
          macroSeq := k.mloop.filter (fun m => mine.any (fun i => i.id == m.inst)) }
      ∧ (∀ w y, s.warp? team w = some y → y.team = team → u.warp? team w
          = some { y with threads := y.threads.map (fun th =>
              { th with wins := (th.wins.filter (fun z => !z.landed)).map (fun z => { z with left := 0 }) }) })
      ∧ (u.die t.die).savePool = pool (s.die t.die).savePool
      ∧ (u.core t.die t.core).insts = k.insts.filter (fun i => i.team != team)
      ∧ (u.core t.die t.core).token = k.token.filter (fun z => z.team != team)
    (Tbl.look l s.launches = some x → launches (l, x) → s.entryOf x.folio x.entry = some e → e.convoy = none →
      (∀ z ∈ (s.die die).tasks, z.stage ≠ .ready) → (∀ z ∈ s.teams, s.holdsKey z.1 = true → s.resumePlan die z.1 = none) →
      (∀ z ∈ s.launches, z.1 ≠ l → launches z → z.2.pri < x.pri ∨ z.2.pri = x.pri ∧ x.order < z.2.order) →
      s.Best die core dem lanes → n ≤ 1024 → (∀ z ∈ s.warps, z.2.team < s.nextId) → roomy (fun lane => (lanes.filter (· == lane)).length) →
      ∃ u id y, exec (.teamAdmit die) s = .next u ∧ u.mem = s.mem ∧ KeepsTeams s u id
        ∧ Tbl.look l u.launches = some { x with next := x.next + 1 } ∧ u.team? id = some y
        ∧ y.state = .resident ∧ y.launch = l ∧ y.num = x.next ∧ y.die = die ∧ y.core = core ∧ y.threads = n ∧ y.lstore = e.lstore
        ∧ y.loc = [] ∧ y.bbytes = [] ∧ y.sbytes = [] ∧ y.btags = [] ∧ y.stags = [] ∧ y.bsize = x.breg * 65536 ∧ y.sents = x.sreg * 64
        ∧ y.points = List.replicate 24 Point.reset ∧ y.tiles = List.replicate x.ntile Tile.reset ∧ y.folio = x.folio
        ∧ ∀ w < (n + 31) / 32, ∃ (wp : Warp) (root : Nat), u.warp? id w = some wp ∧ lanes[w]? = some wp.lane ∧ wp.count = threads w
          ∧ wp.alloc = e.regs ∧ wp.role = (role w).role ∧ wp.promise = (role w).give ∧ wp.allowance = (role w).claim ∧ wp.handler = none
          ∧ wp.entries = [⟨root, true, maskOf (List.range (threads w)), BitVec.ofNat 32 e.code, none, false, .none, 0, 0, false, false, none⟩]
          ∧ wp.threads = List.replicate (threads w) Thread.reset
          ∧ ∀ j < 128, wp.uniReg j = leNat (((x.args.take e.args).drop (4 * j)).take 4))
    ∧ (s.Alone team t →
      (t.state = .resident →
        (s.holdsKey team = true → t.stopping = false → t.deferred = none → ∃ u, exec (.teamSave team) s = .next u ∧ keeps u
          ∧ u.warps = s.warps ∧ u.team? team = some { t with deferred := some k.cyc.toNat })
        ∧ (s.holdsKey team = false → t.stopping = false → s.roomFor [team] = false → exec (.teamSave team) s = .next s)
        ∧ (s.holdsKey team = false → t.stopping = false → s.roomFor [team] = true → s.drained team = false →
          ∃ u, exec (.teamSave team) s = .next u ∧ keeps u ∧ u.warps = s.warps
            ∧ u.team? team = some { t with stopping := true, deferred := none } ∧ (u.die t.die).savePool = pool (s.die t.die).savePool)
        ∧ ((s.holdsKey team = false ∧ s.roomFor [team] = true ∨ t.stopping = true) → s.drained team = true → idle →
          ∃ u, exec (.teamSave team) s = .next u ∧ leaves u .saved true)
        ∧ (s.allMonitoring team = true → s.roomFor [team] = true → s.drained team = true → idle →
          ∃ u, exec (.teamSwap team) s = .next u ∧ leaves u .swapped t.stopping))
      ∧ (∀ c, t.deferred = some c → t.state = .resident → c + 170000 ≤ k.cyc.toNat ∨ s.holdsKey team = false → s.roomFor [team] = true →
        exec (.keyHolderDeferExpiry team) s = .next ((s.updTeam team (fun z => { z with stopping := true, deferred := none })).updDie t.die
          (fun z => { z with savePool := pool z.savePool })))
      ∧ (t.ended = false → (t.state = .pendingResume ∨ t.state = .saved ∧ t.escalated = false ∧ s.ckpt = .idle) →
        s.Best die core (s.resumeDemand team t) lanes → (∀ w ∈ s.warpsOf team, w.index < lanes.length) → lanes.length ≤ 32 → still die core →
        roomy (fun lane => use ((s.warpsOf team).filter (fun w => lanes[w.index]? == some lane))) →
        (s.holdsKey team = true ∨ ∀ z ∈ s.teams, z.1 ≠ team → s.holdsKey z.1 = false) →
        (∀ w ∈ s.warpsOf team, w.postedCancel = false ∧ ∀ y ∈ w.entries, ∀ c j m, y.wait ≠ .trap c j m) → t.macroSeq = none →
        ∃ u, exec (.teamResume die team) s = .next u ∧ keeps u
          ∧ u.team? team = some { t with
              state := .resident, die := die, core := core, stopping := false, savedToken := none, insts := [], deferred := none }
          ∧ (u.core die core).insts = (s.core die core).insts ++ t.insts ∧ (u.core die core).mloop = (s.core die core).mloop
          ∧ (∀ z, t.savedToken = some z → (u.core die core).token = some z)
          ∧ ∀ w y, s.warp? team w = some y → w < lanes.length → ∃ since lane, lanes[w]? = some lane
              ∧ u.warp? team w = some { y with lane := lane, since := since })
      ∧ (t.task = none → (t.state = .resident ∨ t.state = .saved ∧ t.ended = true) → (∀ w ∈ s.warpsOf team, w.entries = []) → s.teamCopies team = false →
        (t.state = .resident → mine = [] ∧ s.teamAccesses t team = false) → t.insts = [] → k.tokens = [] → (∀ i ∈ k.insts, i.team ≠ team) →
        (∀ p ∈ s.teams, p.2.macroSeq = none) →
        ∃ u, exec (.teamRetire team) s = .next u ∧ keeps u ∧ u.warpsOf team = [] ∧ (u.team? team).map Team.state = some .retired
          ∧ (u.completion t.launch).count = (s.completion t.launch).count - 1
          ∧ (t.state = .resident → (u.core t.die t.core).token = k.token.filter (fun z => z.team != team))))

/-- R34, R37, R42, R64, R195, R252, R253: a spilled ready leaf fills a free table entry, or changes places with a blocked leaf; a held
split may look again; a leaf that has lost 256 choices is promoted one class; a timed RVWAIT that expires clears its predicate
and sets its arrival bit again; a completion notice releases the far die's waiters; a claim-deadlocked warp takes CLAIMDL with
its shortfall and its team's promises on the lane; a posted ECC or CANCEL is taken by the warp's oldest ready leaf. Which spilled leaf and
which blocked leaf change places is the model's choice (log 39). -/
def Obligations.LaneEvents : Prop :=
  ∀ (s : State) (die core lane T W convoy point n phase : Nat) (w : Warp) (e b : Entry) (r : LeafRef) (t : Team) (p : BitVec 3) (m : BitVec 32)
      (k : Convoy) (info : Word64) (v : Word),
    let rest := fun (u : State) => u.mem = s.mem ∧ u.teams = s.teams ∧ ∀ q, q ≠ warpKey T W → Tbl.look q u.warps = Tbl.look q s.warps
    let old := (k.points.getD (point - 16) Point.reset).phase - 1
    let quiet : State := s.updConvoy convoy (fun c => { c with notices := modAt (point - 16) (fun _ => false) c.notices })
    let waits := s.rvWaiters ((k.members.map Prod.snd).filter (fun z => quiet.isFar z point)) (fun x q => x == point && q ≤ old)
    let oldest := e.ready = true ∧ ∀ y ∈ w.entries, y.ready = true → y ≠ e → e.lowest < y.lowest
    let clear := s.warpPending T W = false ∧ w.handler = none ∧ s.vector t.launch = some v
    s.warp? T W = some w → s.team? T = some t →
      (s.laneWarps die core lane = [w] → w.team = T → w.index = W → w.entries.filter Entry.spilledReady = [e] →
        (w.tabled.length < s.tableRoom die core w → ∃ u, exec (.splitFill die core lane) s = .next u ∧ rest u
          ∧ u.warp? T W = some { w with entries := w.entries.map (fun y => if y.id == e.id then { y with spilled := false } else y) })
        ∧ (s.tableRoom die core w ≤ w.tabled.length → (w.entries.filter (fun y => !y.spilled && y.isLeaf && y.wait != .none)).head? = some b →
          e.id ≠ b.id → ∃ u, exec (.splitFill die core lane) s = .next u ∧ rest u
          ∧ u.warp? T W = some { w with entries := w.entries.map (fun y =>
              if y.id == e.id then { y with spilled := false } else if y.id == b.id then { y with spilled := true } else y) }))
      ∧ (r = ⟨T, W, e.id⟩ → w.entry? e.id = some e → (∀ y ∈ w.entries, y.id = e.id → y = e) →
        (e.wait = .split → w.entries.length + 2 ≤ s.tableRoom t.die t.core w + 32 →
          ∃ u, exec (.heldSplitRelease r) s = .next u ∧ rest u
            ∧ u.warp? T W = some { w with entries := w.entries.map (fun y => if y.id == e.id then { y with wait := .none } else y) })
        ∧ (256 ≤ e.passes → ∃ u, exec (.passPromotion r) s = .next u ∧ rest u
            ∧ u.warp? T W = some { w with entries := w.entries.map (fun y => if y.id == e.id then { y with
                passes := 0
                promo := if min 2 (s.baseClass T + e.promo) = 2 then e.promo else e.promo + 1 } else y) })
        ∧ (e.wait = .rv n phase (some (0, p, m)) → p ≠ 7#3 →
          ∃ (u : State) (x : Warp), exec (.rvwaitExpiry r) s = .next u ∧ rest u ∧ u.warp? T W = some x
            ∧ x.entries = (w.finish e.id 12).entries ∧ x.arrived = w.arrived ||| (1#24 <<< n) ∧ Tbl.get x.arrPhase n 0 = phase
            ∧ x.threads.length = w.threads.length
            ∧ ∀ j < w.threads.length, (x.thread j).regs = (w.thread j).regs
                ∧ ∀ q < 7, (x.thread j).preds.getLsbD q = (if m.getLsbD j ∧ q = p.toNat then false else (w.thread j).preds.getLsbD q)))
      ∧ (Tbl.look convoy s.convoys = some k → k.notices.getD (point - 16) false = true →
        (waits = [] → exec (.convoyNoticeArrival convoy point) s = .next quiet)
        ∧ (waits = [r] → r = ⟨T, W, e.id⟩ → w.entry? e.id = some e → e.wait = .rv point phase none →
          ∃ u, exec (.convoyNoticeArrival convoy point) s = .next u ∧ rest u ∧ u.convoys = quiet.convoys
            ∧ u.warp? T W = some (w.finish e.id 12)))
      ∧ ((s.teams.filter (fun z => z.2.state.holds && z.2.die == die && z.2.core == core)).map Prod.fst = [T] → s.warpsOf T = [w] →
        w.index = W → w.entries = [e] → e.isLeaf = true → e.wait = .claim n → s.helped T = false →
        (∀ z ∈ s.laneWarps die core w.lane, z.team = T) → clear →
          let short : Int := ((n * w.count : Nat) : Int) - ((s.core die core).poolFree w.lane : Int)
          ∃ u, exec (.claimdlReport die core) s = .next u ∧ rest u
            ∧ u.warp? T W = some (w.handles e 0x0D#8 (wrap 32 short + w.promise * w.count * 2 ^ 32) 0 v)
            ∧ ∀ q l, (q, l) ∈ (u.core die core).claims → ∀ z ∈ l, z.1 ≠ ⟨T, W, e.id⟩)
      ∧ (t.state = .resident → t.stopping = false → e ∈ w.entries → w.entry? e.id = some e → oldest → clear →
        (w.postedEcc = some info → ∃ u, exec (.asyncTrapTake T W) s = .next u ∧ rest u
          ∧ u.warp? T W = some ({ w with postedEcc := none }.handles e 0x1C#8 info.toNat 0 v))
        ∧ (w.postedEcc = none → w.postedCancel = true → ∃ u, exec (.asyncTrapTake T W) s = .next u ∧ u.mem = s.mem
          ∧ u.team? T = some { t with cancelled := true } ∧ (∀ q, q ≠ T → u.team? q = s.team? q)
          ∧ (∀ q, q ≠ warpKey T W → Tbl.look q u.warps = Tbl.look q s.warps)
          ∧ u.warp? T W = some ({ w with postedCancel := false }.handles e 0x1D#8 0 0 v)))

/-! ### Faults, escalations, errors -/

/-- R252, R254, R256 to R260, R267: the oldest fault, and the escalation of a saved team, are posted as records of their rings with
the next number; TAIL advances and an empty ring raises its vector. The driver's answers act on what is outstanding alone: a
serviced fault is replayed, an unrecoverable one is TRANS or ends its operation; an escalated team waits for admission again, or
its launch is cancelled. An uncorrectable error posts ECC; a corrected one is counted; a failed flit of a secure agent posts ECC and
retrains its link. In recovery mode the driver's writes have no effect (R281). That of the escalations of a die the oldest whose team is
saved is posted is the model's choice (log 49). -/
def Obligations.FaultsAndAnswers : Prop :=
  ∀ (s : State) (die num team warp link : Nat) (f : FaultRec) (e : EscRec) (t : Team) (w : Warp) (r : LeafRef) (n : Entry) (v : Word)
      (va : BitVec 56) (x : RedRec),
    let d := s.die die
    let conf := fun (ring : Nat) => (s.dieWord die (0x392 + 2 * ring)).toNat
    let ptr := fun (u : State) (ring : Nat) => (u.dieWord die (0x393 + 2 * ring)).toNat
    let size := fun (ring : Nat) => 16 * 2 ^ (conf ring / 16 % 16)
    let head := fun (ring : Nat) => ptr s ring / 2 ^ 32
    let tail := fun (ring : Nat) => ptr s ring % 2 ^ 32
    let pa := fun (ring : Nat) => conf ring / 2 ^ 8 % 2 ^ 44 * 256 + 32 * (tail ring % size ring)
    let room := fun (ring : Nat) => conf ring % 2 = 1 ∧ (tail ring + 2 ^ 32 - head ring) % 2 ^ 32 < size ring ∧ s.Apart (pa ring) 32
    let posted := fun (u : State) (ring : Nat) (bytes : List Byte) => u.physRead (pa ring) 32 = bytes ∧ KeepsBytes s u (pa ring) 32
      ∧ ptr u ring = head ring * 2 ^ 32 + (tail ring + 1) % 2 ^ 32
      ∧ u.msix = if head ring = tail ring then (16 + ring + 4 * die) :: s.msix else s.msix
    let asked := d.faults.find? (fun z => z.num == some num)
    let answered := fun (u : State) => u.mem = s.mem ∧ (u.die die).faults = d.faults.filter (fun z => z.num != some num)
    let entry := fun (z : Wait) => { w with entries := w.entries.map (fun y => if y.id == r.leaf then { y with wait := z } else y) }
    let quiet := ∀ y, (s.die y).monitors = []
    (d.faults.find? (fun z => z.num.isNone) = some f → room 0 → quiet → ∃ u, exec (.faultRecordPost die) s = .next u
      ∧ posted u 0 (natLe 8 f.info.toNat ++ natLe 4 (s.handle f.launch).toNat ++ natLe 1 f.source ++ natLe 1 f.asid
          ++ natLe 2 (die * 4096 + f.core * 128) ++ natLe 4 (f.team.getD (2 ^ 32 - 1))
          ++ natLe 4 (match f.warp with | some (w, l) => w + l * 65536 | none => 0xFFFF) ++ natLe 4 d.faultNum ++ natLe 4 0)
      ∧ (u.die die).faultNum = (d.faultNum + 1) % 2 ^ 32
      ∧ (u.die die).faults = d.faults.map (fun z => if z.num.isNone && z.who == f.who then { z with num := some d.faultNum } else z))
    ∧ (d.escalations.find? (fun z => z.num.isNone && s.isSaved z.team) = some e → e.record.length = 32 → room 1 →
      quiet → ∃ u, exec (.escalationRecordPost die) s = .next u ∧ posted u 1 (e.record.take 14 ++ natLe 2 d.escNum ++ e.record.drop 16)
        ∧ (u.die die).escNum = (d.escNum + 1) % 65536
        ∧ (u.die die).escalations = d.escalations.map (fun z =>
            if z.num.isNone && z.team == e.team then { z with num := some d.escNum } else z))
    ∧ (asked = none → exec (.frespServiced die num) s = .next s ∧ exec (.frespUnrecoverable die num) s = .next s)
    ∧ (s.recovery = true → exec (.frespServiced die num) s = .next s ∧ exec (.frespUnrecoverable die num) s = .next s
      ∧ exec (.erespResume die num) s = .next s ∧ exec (.erespCancel die num) s = .next s)
    ∧ (asked = some f → s.recovery = false →
      (f.who = .leaf r → s.team? r.team = some t → s.warp? r.team r.warp = some w → w.entry? r.leaf = some n →
        (∃ u, exec (.frespServiced die num) s = .next u ∧ answered u ∧ u.warp? r.team r.warp = some (entry .none))
        ∧ (t.state = .resident → s.warpPending r.team r.warp = false → w.handler = none → s.vector t.launch = some v →
          ∃ u, exec (.frespUnrecoverable die num) s = .next u ∧ answered u
            ∧ u.warp? r.team r.warp = some (w.handles n 0x0A#8 f.info.toNat 0 v))
        ∧ (t.state = .saved → ∃ u, exec (.frespUnrecoverable die num) s = .next u ∧ answered u
          ∧ u.warp? r.team r.warp = some (w.waiting r.leaf (.trap 0x0A#8 f.info 0))))
      ∧ (∀ id, f.who = .red id →
        (∃ u, exec (.frespServiced die num) s = .next u ∧ answered u
          ∧ u.reds = s.reds.map (fun z => if z.id == id then { z with fault := none } else z))
        ∧ (s.reds.find? (fun z => z.id == id) = some x → ∃ u, exec (.frespUnrecoverable die num) s = .next u ∧ u.mem = s.mem
          ∧ (∀ z ∈ u.reds, z.id ≠ id) ∧ (u.completion x.launch).anyFault = true)))
    ∧ (d.escalations.find? (fun z => z.num == some num) = none →
      exec (.erespResume die num) s = .next s ∧ exec (.erespCancel die num) s = .next s)
    ∧ (d.escalations.find? (fun z => z.num == some num) = some e → s.recovery = false →
      let rest := d.escalations.filter (fun z => z.num != some num)
      (s.team? e.team = some t → t.escalated = true → ∃ u, exec (.erespResume die num) s = .next u ∧ u.mem = s.mem ∧ u.warps = s.warps
        ∧ (u.die die).escalations = rest
        ∧ u.team? e.team = some { t with escalated := false, stopping := false, state := .pendingResume })
      ∧ (s.ofHandle e.handle = none → ∃ u, exec (.erespCancel die num) s = .next u ∧ u.mem = s.mem ∧ u.warps = s.warps
        ∧ u.teams = s.teams ∧ (u.die die).escalations = rest)
      ∧ (∀ i, s.ofHandle e.handle = some i → (s.completion i).state = .running → (s.completion i).count ≠ 0 → ∃ u, exec (.erespCancel die num) s = .next u
        ∧ u.mem = s.mem ∧ (u.completion i).cxr = true))
    ∧ (s.warp? team warp = some w → w.entries ≠ [] →
      (∃ u, exec (.eccUncorrectable team warp va) s = .next u ∧ u.mem = s.mem ∧ u.teams = s.teams
        ∧ u.warp? team warp = some { w with postedEcc := some (w.postedEcc.getD (va.zeroExtend 64)) })
      ∧ (s.team? team = some t → s.launchSecure t.launch = false → exec (.linkFlitCheckFail link team warp) s = .next s)
      ∧ (s.team? team = some t → s.launchSecure t.launch = true → ∃ u, exec (.linkFlitCheckFail link team warp) s = .next u ∧ u.mem = s.mem ∧ u.teams = s.teams
        ∧ u.warp? team warp = some { w with postedEcc := some (w.postedEcc.getD 0#64) }
        ∧ ∀ k, k ∈ u.retraining ↔ k = link ∨ k ∈ s.retraining))
    ∧ (die < 9 → exec (.eccCorrected die) s = .next (s.setDieWord die 0x107 (s.dieWord die 0x107 + 1#64)))
    ∧ (link ∈ s.retraining → exec (.linkRetrainDone link) s = .next { s with retraining := s.retraining.filter (fun k => k != link) })

/-- R172, R180 to R182, R257: a shootdown waits until no access translated in its range is on its way and no cache holds the range;
while it is busy a second one is ignored. A ring's EN resets its pointers, and a pointer write that would leave more records than
it holds, or fewer than none, is ignored. A page whose count has reached its threshold starts to move to a frame of the last
die; it has moved once its bytes stand there, its leaf names them and its old frame is returned. -/
def Obligations.TranslationAndRings : Prop :=
  ∀ (s : State) (v : Word64) (die ring page : Nat) (k : PageCount) (pte e level : Nat) (m : Migration),
    let shoot := s.word 0x40
    let range : PageRange :=
      let n : Option Nat := match s.shoot.toNat / 2 ^ 60 % 4 with | 0 => some 1 | 1 => some 32 | 2 => some 16384 | _ => none
      let p := s.shoot.toNat / 2 ^ 8 % 2 ^ 40
      ⟨s.shoot.toNat / 2 ^ 52 % 256, p - p % n.getD 1, n⟩
    let meets := fun (x : TlbEntry) => range.meets x.asid x.page x.pages
    let conf := fun (d r : Nat) => s.dieWord d (0x392 + 2 * r)
    let ptr := fun (u : State) (d r : Nat) => (u.dieWord d (0x393 + 2 * r)).toNat
    let size := fun (d r : Nat) => 16 * 2 ^ ((conf d r).toNat / 16 % 16)
    let count := fun (h t : Nat) => (t + 2 ^ 32 - h) % 2 ^ 32
    let head := fun (d r : Nat) => ptr s d r / 2 ^ 32
    let tail := fun (d r : Nat) => ptr s d r % 2 ^ 32
    let at_ := fun (d r i : Nat) => (conf d r).toNat / 2 ^ 8 % 2 ^ 44 * 256 + 8 * (i % size d r)
    let bytes := if level = 2 then 2 ^ 21 else 2 ^ 16
    let free := if level = 2 then 3 else 2
    let frame := leNat (s.physRead (at_ k.last free (head k.last free)) 8)
    let good := frame / 2 ^ 52 = 0 ∧ frame / 2 ^ 48 % 16 = 1 ∧ frame / 2 ^ 44 % 16 = k.last ∧ frame % bytes = 0
      ∧ frame % 2 ^ 44 + bytes ≤ 64 * 10 ^ 9
    let room := (conf die 4).toNat % 2 = 1 ∧ count (head die 4) (tail die 4) < size die 4
    let supply := (conf k.last free).toNat % 2 = 1 ∧ head k.last free ≠ tail k.last free
    let leaf := leNat (s.physRead m.pte 8)
    let ret := at_ die 4 (tail die 4)
    let apart := fun (pa n : Nat) => s.Apart pa n ∧ ∀ j < n, ∀ x, s.cell? (pa + j) = some x →
      ¬ (m.new ≤ x ∧ x < m.new + m.bytes) ∧ ¬ (m.old ≤ x ∧ x < m.old + m.bytes)
    let fields := fun (w : Word64) => w.extractLsb' 52 10 = v.extractLsb' 52 10 ∧ w.extractLsb' 8 40 = v.extractLsb' 8 40
    (shoot.getLsbD 63 = true ∨ s.recovery = true → exec (.shootdownStart v) s = .next s)
    ∧ (shoot.getLsbD 63 = false → s.recovery = false → ∃ w x, exec (.shootdownStart v) s = .next { s.setWord 0x40 w with shoot := x }
      ∧ w.getLsbD 63 = true ∧ w.getLsbD 62 = false ∧ fields w ∧ fields x)
    ∧ (shoot.getLsbD 63 = true → s.readsPending range = false → s.writesPending range = false →
      ∃ u, exec .shootdownComplete s = .next u ∧ u.mem = s.mem ∧ u.warps = s.warps
        ∧ (∀ b < 64, (u.word 0x40).getLsbD b = if b = 63 then false else if b = 62 then true else shoot.getLsbD b)
        ∧ (∀ d c, (u.core d c).tlb = (s.core d c).tlb.filter (fun x => !meets x))
        ∧ ∀ d, (u.die d).walkCache = (s.die d).walkCache.filter (fun x => !meets x))
    ∧ (die < 9 → ring < 5 → s.recovery = false →
      (∃ u, exec (.serviceRingEnable die ring v) s = .next u ∧ u.mem = s.mem ∧ u.warps = s.warps
        ∧ (u.dieWord die (0x392 + 2 * ring)).getLsbD 0 = true
        ∧ (∀ b, 4 ≤ b → b < 56 → (u.dieWord die (0x392 + 2 * ring)).getLsbD b = v.getLsbD b)
        ∧ ptr u die ring = if (conf die ring).getLsbD 0 then ptr s die ring else 0)
      ∧ (∃ u, exec (.serviceRingPointerWrite die ring v) s = .next u ∧ u.mem = s.mem ∧ u.warps = s.warps
        ∧ ptr u die ring =
          if ring = 2 ∨ ring = 3 then
            (if count (head die ring) (v.toNat % 2 ^ 32) ≤ size die ring then head die ring * 2 ^ 32 + v.toNat % 2 ^ 32 else ptr s die ring)
          else
            (if count (v.toNat / 2 ^ 32) (tail die ring) ≤ size die ring then
              v.toNat / 2 ^ 32 * 2 ^ 32 + tail die ring else ptr s die ring)))
    ∧ (Tbl.look page (s.die die).pages = some k → s.leafOf die k.asid k.va = some (pte, e, level) → 0 < s.migth die k.asid →
      s.migth die k.asid ≤ k.count → (s.die die).migrations = [] → e / 2 ^ 56 % 4 = 1 → e / 2 ^ 60 % 16 = die →
      (e / 2 ^ 58 % 4 = 0 ∨ e / 2 ^ 58 % 4 = 3) → e / 2 ^ 53 % 2 = 0 → 2 ≤ level → leafAddr e level (k.va - k.va % bytes) = page →
      ((¬ room ∨ ¬ supply) → exec (.migrationStart die page) s = .next (s.updDie die (fun d => { d with pages := Tbl.del page d.pages })))
      ∧ (room → supply → ∃ u, exec (.migrationStart die page) s = .next u ∧ u.mem = s.mem ∧ u.warps = s.warps
        ∧ ptr u k.last free = (head k.last free + 1) % 2 ^ 32 * 2 ^ 32 + tail k.last free
        ∧ (good → (u.die die).migrations = [⟨k.asid, k.va - k.va % bytes, pte, page, frame, bytes, k.last⟩])
        ∧ (¬ good → (u.die die).migrations = [])))
    ∧ ((s.die die).migrations = [m] → m.old = page →
      (leaf / 2 ^ 53 % 2 = 1 → ∃ u, exec (.migrationComplete die page) s = .next u ∧ u.mem = s.mem ∧ (u.die die).migrations = [])
      ∧ (leaf / 2 ^ 53 % 2 = 0 → room → s.mem.wf = true →
        (∀ y, (s.die y).monitors = []) → m.toDie < 16 → (m.old + m.bytes ≤ m.new ∨ m.new + m.bytes ≤ m.old) → apart m.pte 8 → apart ret 8 →
        (∀ i < 8, ∀ j < 8, s.cell? (m.pte + i) ≠ s.cell? (ret + j)) →
        ∃ u, exec (.migrationComplete die page) s = .next u ∧ u.warps = s.warps ∧ (u.die die).migrations = []
          ∧ (∀ q < m.bytes, u.mem.byte (m.new + q) = s.mem.byte (m.old + q))
          ∧ u.physRead ret 8 = natLe 8 (m.old + (if m.bytes = 2 ^ 21 then 1 else 0))
          ∧ leNat (u.physRead m.pte 8) = setBits (setBits leaf 63 60 m.toDie) 47 16 (m.new % 2 ^ 44 / 65536)
          ∧ ptr u die 4 = head die 4 * 2 ^ 32 + (tail die 4 + 1) % 2 ^ 32
          ∧ Tbl.look page (u.die die).pages = none))

/-! ### The package -/

/-- R5, R265, R266, R277 to R280: a circuit's set-up sets EN, or ERR where it is refused; it becomes active, is torn down, and is
inactive once its messages have landed. TIERCFG's 0b11 is ignored; a trained port brings its capacity.
The aperture answers and writes bytes outside secure regions, and aborts within them. Of entries that claim one wavelength at once the
lower wins; a set-up on a fixed circuit that clashes sets ERR and changes nothing (log 25). In recovery mode the host's writes have no
effect (R281). A host's write of a word takes its RW bits; a word of the Igtahild
controller takes the controller's writes alone. -/
def Obligations.PackageWords : Prop :=
  ∀ (s : State) (c die n port capacity off len : Nat) (persistent : Bool) (v : Word64) (bytes : List Byte),
    let w := s.word (0x3000 + c)
    let field := fun (x : Word64) (lo bits : Nat) => x.toNat / 2 ^ lo % 2 ^ bits
    let x := fun (u : State) (i : Nat) => u.word (0x3000 + i)
    let claims := fun (v : Word64) (i : Nat) => i < 1024 ∧ i ≠ c ∧ ((x s i).getLsbD 63 = true ∨ (x s i).getLsbD 62 = true)
      ∧ (x s i).getLsbD 61 = v.getLsbD 61
      ∧ (if v.getLsbD 61 then field (x s i) 57 4 = field v 57 4
          else (field (x s i) 53 4 = field v 53 4 ∧ field (x s i) 49 4 = field v 49 4)
            ∨ (field (x s i) 53 4 = field v 49 4 ∧ field (x s i) 49 4 = field v 53 4))
      ∧ ∃ k < 16, (x s i).getLsbD k = true ∧ v.getLsbD k = true
    let pending := fun (i : Nat) => 24 ≤ i ∧ (x s i).getLsbD 63 = true ∧ (x s i).getLsbD 62 = false
    let refused := fun (v : Word64) => 8 < field v 53 4
      ∨ (v.getLsbD 61 = false ∧ (8 < field v 49 4 ∨ adjacent (field v 53 4) (field v 49 4) = true))
      ∨ (v.getLsbD 61 = true ∧ s.pkgId = 0xFFFFF#20) ∨ ∃ i, claims v i ∧ (i < c ∨ ¬ pending i)
    let claimed := fun (u : State) (v : Word64) => u.mem = s.mem ∧ u.teams = s.teams ∧ u.warps = s.warps ∧ u.dies = s.dies
      ∧ ∀ i < 1024, i ≠ c → ∀ k < 64, (claims v i → (x u i).getLsbD k = if k = 63 then false else if k = 18 then true else (x s i).getLsbD k)
        ∧ (¬ claims v i → x u i = x s i)
    let pa := (s.word 0x11).toNat / 2 ^ 32 % 2 ^ 20 * 2 ^ 32 + off
    let inside := ∀ k < bytes.length, (pa + k) / 2 ^ 48 ≤ 2
    let silent := ∀ y, (s.die y).monitors = []
    (c < 1024 → s.recovery = false →
      (c < 24 → ∀ y : Word64, (∀ k < 64, y.getLsbD k = if k < 16 then v.getLsbD k else w.getLsbD k) →
        (refused y → exec (.circuitSetup c v) s = .next (s.setWord (0x3000 + c) (w ||| 1#64 <<< 18)))
        ∧ (¬ refused y → ∃ u, exec (.circuitSetup c v) s = .next u ∧ claimed u y
          ∧ ∀ k < 64, (x u c).getLsbD k = if k = 18 then false else y.getLsbD k))
      ∧ (24 ≤ c → w.getLsbD 63 = true → exec (.circuitSetup c v) s = .next s)
      ∧ (24 ≤ c → w.getLsbD 63 = false →
        (refused v → ∃ y, exec (.circuitSetup c v) s = .next (s.setWord (0x3000 + c) y)
          ∧ (∀ k < 62, 18 < k ∨ k < 16 → y.getLsbD k = v.getLsbD k) ∧ y.getLsbD 63 = false ∧ y.getLsbD 18 = true)
        ∧ (¬ refused v → ∃ u, exec (.circuitSetup c v) s = .next u ∧ claimed u v
          ∧ (∀ k < 62, 18 < k ∨ k < 16 → (x u c).getLsbD k = v.getLsbD k) ∧ (x u c).getLsbD 63 = true ∧ (x u c).getLsbD 18 = false))
      ∧ (24 ≤ c → w.getLsbD 63 = true → exec (.circuitTeardown c) s = .next (s.setWord (0x3000 + c) (w &&& ~~~(1#64 <<< 63))))
      ∧ (w.getLsbD 63 = true → w.getLsbD 62 = false →
        exec (.circuitActive c) s = .next (s.setWord (0x3000 + c) (w ||| 1#64 <<< 62)))
      ∧ (w.getLsbD 63 = false → w.getLsbD 62 = true → (∀ m ∈ s.outbox, m.circuit ≠ c) →
        exec (.circuitInactive c) s = .next (s.setWord (0x3000 + c) (w &&& ~~~(1#64 <<< 62)))))
    ∧ (s.recovery = false → exec (.tiercfgWrite v) s = .next (if v &&& 3#64 = 3#64 then s else s.setWord 0x12 (v &&& 3#64)))
    ∧ (s.recovery = true → exec (.circuitSetup c v) s = .next s ∧ exec (.circuitTeardown c) s = .next s ∧ exec (.tiercfgWrite v) s = .next s
      ∧ exec (.pkgidWrite v) s = .next s)
    ∧ (port < 4 → capacity ≤ 4096 * 10 ^ 9 → exec (.cxlPortTrained port capacity persistent) s
        = .next { s with ports := Tbl.put port (capacity, persistent) s.ports })
    ∧ (off + bytes.length ≤ 2 ^ 32 → off + len ≤ 2 ^ 32 →
      ((s.recovery = true ∨ ∃ k < bytes.length, s.secureAt (pa + k) = true) →
        exec (.hostApertureAccess off (some bytes) len) s = .next s)
      ∧ (s.recovery = false → (∀ k < bytes.length, s.secureAt (pa + k) = false) → inside → s.Apart pa bytes.length → silent →
        ∃ u, exec (.hostApertureAccess off (some bytes) len) s = .next u ∧ u.physRead pa bytes.length = bytes
          ∧ KeepsBytes s u pa bytes.length ∧ u.warps = s.warps ∧ u.teams = s.teams)
      ∧ ((s.recovery = true ∨ ∃ k < len, s.secureAt (pa + k) = true) →
        exec (.hostApertureAccess off none len) s = .next { s with answers := none :: s.answers })
      ∧ (s.recovery = false → (∀ k < len, s.secureAt (pa + k) = false) → (∀ k < len, (pa + k) / 2 ^ 48 ≤ 2 ∧ (s.cell? (pa + k)).isSome = true) →
        exec (.hostApertureAccess off none len) s
          = .next { s with answers := some ((List.range len).map (fun k => s.physByte (pa + k))) :: s.answers }))
    ∧ (die < 9 → s.recovery = false →
      (0x200 ≤ n → n < 0x300 → ∃ x, exec (.registerWrite .die die n v) s = .next (s.setDieWord die n x)
        ∧ ∀ k < 64, x.getLsbD k = if k = 0 ∨ 12 ≤ k ∧ k < 52 then v.getLsbD k else (s.dieWord die n).getLsbD k)
      ∧ (0x130 ≤ n → n < 0x142 → exec (.registerWrite .die die n v) s = .next s
        ∧ ∃ x, exec (.igtahildWorldWrite .die die n v) s = .next (s.setDieWord die n x)
          ∧ ∀ k < 64, x.getLsbD k = if k = 0 then v.getLsbD k else (s.dieWord die n).getLsbD k)
      ∧ (0x50 ≤ n → n < 0x60 → exec (.registerWrite .package die n v) s = .next (s.setWord n v))
      ∧ (0x400 ≤ n → n < 0x420 → exec (.registerWrite .package die n v) s = .next s
        ∧ ∃ x, exec (.igtahildWorldWrite .package die n v) s = .next (s.setWord n x)
          ∧ ∀ k, 16 ≤ k → k < 52 → x.getLsbD k = v.getLsbD k))

/-- R283 to R288: PCEIL takes a ceiling from 500 to 1,400 alone. The limiter reports its average, lowers the fastest islands by one
state when the projection exceeds the ceiling, and raises the furthest after ten steps below. A request moves an island; DPARK
drains, parks and unparks dies, and a waiting microcode image takes effect with the unpark. A lowering ends a raise at the state it has
reached, which is a free value between the two (log 12); the averages come with the limiter's steps (log 41). In recovery mode the host's writes have no effect (R281). -/
def Obligations.PowerAndParking : Prop :=
  ∀ (s : State) (v : Word64) (i die version avg projected goal : Nat) (ecdsa lms : Bool),
    let ceil := (s.word 0x30).toNat % 2 ^ 11
    let cur := fun (u : State) (k : Nat) => (u.word (0x800 + k)).toNat / 2 ^ 13 % 8
    let req := fun (u : State) (k : Nat) => (u.word (0x800 + k)).toNat / 2 ^ 8 % 8
    let busy := fun (u : State) (k : Nat) => (u.word (0x800 + k)).getLsbD 0
    let cap := fun (u : State) (k : Nat) => Tbl.get u.caps k 0
    let pair := fun (k : Nat) => k < 126 ∧ k % 14 < 9
    let runs := fun (k : Nat) => pair k ∧ cur s k ≠ 7
    let dpst := fun (u : State) (d : Nat) => (u.word 0x61).toNat / 2 ^ (2 * d) % 4
    let dpark := fun (u : State) (d : Nat) => (u.word 0x60).getLsbD d
    let keeps := fun (u : State) => u.mem = s.mem ∧ u.teams = s.teams ∧ u.warps = s.warps
    let asked := v.toNat / 2 ^ 8 % 8
    let gap := fun (k : Nat) => cap s k - req s k
    let fast := fun (k : Nat) => runs k ∧ cur s k < 6 ∧ ∀ j, runs j → cur s k ≤ cur s j
    let far := fun (k : Nat) => runs k ∧ 0 < gap k ∧ ∀ j, runs j → gap j ≤ gap k
    (s.recovery = true → exec (.ceilingWrite v) s = .next s ∧ exec (.islandRequestWrite i v) s = .next s ∧ exec (.diePark die) s = .next s
      ∧ exec (.dieUnpark die) s = .next s)
    ∧ (s.recovery = false → ∃ x, exec (.ceilingWrite v) s = .next (s.setWord 0x30 x) ∧ (∀ b, 32 ≤ b → b < 64 → x.getLsbD b = (s.word 0x30).getLsbD b)
      ∧ (500 ≤ v.toNat % 2 ^ 11 → v.toNat % 2 ^ 11 ≤ 1400 → x.toNat % 2 ^ 11 = v.toNat % 2 ^ 11)
      ∧ (v.toNat % 2 ^ 11 < 500 ∨ 1400 < v.toNat % 2 ^ 11 → x.toNat % 2 ^ 11 = ceil ∧ x.getLsbD 30 = true))
    ∧ (avg < 2 ^ 32 → ∃ u, exec (.limiterStep avg projected) s = .next u ∧ keeps u ∧ (u.word 0x30).toNat / 2 ^ 32 = avg
      ∧ (ceil * 1000 < avg → (u.word 0x30).getLsbD 31 = true ∧ u.msix = 0 :: s.msix)
      ∧ (avg ≤ ceil * 1000 → (u.word 0x30).getLsbD 31 = (s.word 0x30).getLsbD 31 ∧ u.msix = s.msix)
      ∧ u.below = (if projected * 100 < ceil * 1000 * 97 then s.below + 1 else 0)
      ∧ (projected ≤ ceil * 1000 → u.caps = s.caps)
      ∧ (ceil * 1000 < projected → ∀ k,
        (fast k → ∃ r, cap u k = r + 1 ∧ cur u k = r ∧ busy u k = true ∧ Tbl.look k u.moving = some (max (req s k) (r + 1))
          ∧ (∀ g, Tbl.look k s.moving = some g → g < cur s k → g < r ∧ r ≤ cur s k)
          ∧ ((∀ g, Tbl.look k s.moving = some g → cur s k ≤ g) → r = cur s k))
        ∧ (¬ fast k → cap u k = cap s k ∧ cur u k = cur s k)))
    ∧ (10 ≤ s.below → ∃ u, exec .limiterRaise s = .next u ∧ keeps u ∧ u.below = 0
      ∧ ∀ k, (far k → cap u k = cap s k - 1) ∧ (¬ far k → cap u k = cap s k))
    ∧ (i < 128 →
      s.recovery = false →
      (asked = 7 ∨ asked ≠ 0 ∧ ¬ pair i → exec (.islandRequestWrite i v) s = .next s)
      ∧ (asked ≠ 7 → asked = 0 ∨ pair i → ∃ u, exec (.islandRequestWrite i v) s = .next u ∧ keeps u ∧ req u i = asked
        ∧ cur u i = cur s i ∧ (cur s i ≠ 7 → busy s i = false → max asked (cap s i) ≠ cur s i →
          busy u i = true ∧ Tbl.look i u.moving = some (max asked (cap s i))))
      ∧ (Tbl.look i s.moving = some goal → goal < 7 → goal = max (req s i) (cap s i) → ∃ u, exec (.islandTransitionDone i) s = .next u
        ∧ keeps u ∧ cur u i = goal ∧ busy u i = false ∧ Tbl.look i u.moving = none))
    ∧ (die < 9 → s.recovery = false →
      (∃ u, exec (.diePark die) s = .next u ∧ keeps u ∧ dpark u die = true
        ∧ dpst u die = (if dpst s die = 0 then 1 else dpst s die))
      ∧ (∃ u, exec (.dieUnpark die) s = .next u ∧ keeps u ∧ dpark u die = false
        ∧ dpst u die = (if dpst s die = 2 then 3 else dpst s die)
        ∧ (dpst s die = 2 → ∀ k < 9, cur u (14 * die + k) = 7 ∧ busy u (14 * die + k) = true))
      ∧ (dpst s die = 1 → (∀ p ∈ s.teams, p.2.die = die → p.2.state ≠ .resident) → ∃ u, exec (.dieDrainEnd die) s = .next u ∧ keeps u
        ∧ (dpark s die = true → dpst u die = 2 ∧ ∀ k < 9, cur u (14 * die + k) = 7 ∧ busy u (14 * die + k) = false)
        ∧ (dpark s die = false → dpst u die = 3 ∧ ∀ k < 9, cur u (14 * die + k) = 7 ∧ busy u (14 * die + k) = true))
      ∧ (dpst s die = 3 → ∃ u, exec (.dieUnparkDone die) s = .next u ∧ keeps u
        ∧ dpst u die = (if dpark s die then 1 else 0)
        ∧ (∀ k < 9, cur u (14 * die + k) = max (req s (14 * die + k)) (cap s (14 * die + k)) % 8 ∧ busy u (14 * die + k) = false)
        ∧ (u.die die).micro = (s.die die).microPending.getD (s.die die).micro ∧ (u.die die).microPending = none)
      ∧ (dpst s die = 2 → ∃ u, exec (.microcodeUpdate die version ecdsa lms) s = .next u ∧ keeps u ∧ (u.die die).micro = (s.die die).micro
        ∧ (u.die die).microPending =
          if ecdsa = true ∧ lms = true ∧ Config.fusedVersion ≤ version then some version else (s.die die).microPending))

/-- R266, R268 to R274, R281, R282, R289: a checkpoint that is not refused saves every team and copies each die's memory to its place
in the region; a restore copies it back. A cold reset leaves the machine at reset (memory kept, but what an ENC region's cells read as is
free, log 14), in recovery mode where an image is refused. A report answers a nonce; digests, signatures and the sealing pad are opaque (logs
11, 13). A folio that passes the loader's checks has a number, its code, spine and other
quires in memory, its code pages mapped and its tagged handle; one unloaded is no longer LIVE. Quires whose layout
the spec does not give come parsed with the request (log 15). -/
def Obligations.CheckpointAndFolios : Prop :=
  ∀ (s : State) (ecdsa lms current : Bool) (nonce : List Byte) (f : FolioFile) (m : FolioImage) (image : Option Nat) (num c x : Nat) (y : Folio),
    let word := s.word 0x70
    let refused := s.ckptPersistent = false ∨ s.anySecure = true ∧ s.ckptSecure = false
    let plain := ∀ e < 16, (s.word (0x400 + 2 * e)).getLsbD 2 = false
    let place := fun (z : Nat) => (s.tierCell (s.ckptBase + (z % 2 ^ 48 / 2 ^ 44 * (64 * 10 ^ 9) + z % 2 ^ 44))).getD 0
    let home := c / 2 ^ 48 = 1 ∧ c % 2 ^ 48 / 2 ^ 44 < 9 ∧ c % 2 ^ 44 < 64 * 10 ^ 9
    let off := c % 2 ^ 48 / 2 ^ 44 * (64 * 10 ^ 9) + c % 2 ^ 44
    let resumed := fun (u : State) => ∀ t z, t ∈ s.ckptTeams → s.team? t = some z → z.state = .saved → z.escalated = false → z.ended = false →
      u.team? t = some { z with state := .pendingResume }
    let rest := s.worldWords.flatMap (fun w => natLe 8 w.toNat)
    let report := natLe 4 s.pkgId.toNat ++ natLe 4 stepCode.toNat ++ (List.range 3).flatMap (fun i => Config.firmwareDigest i 0)
      ++ (List.range 9).flatMap (fun d => Config.firmwareDigest 3 (s.die d).micro)
      ++ (List.range 32).flatMap (fun i => natLe 8 (s.word (0x400 + i)).toNat) ++ rest ++ nonce
    let silent := ∀ z, (s.die z).monitors = []
    let n := 32 + 16 * m.entries.length
    let owner := fileOwner f.bytes
    let loaded : Folio := ⟨m, fileWritable f.bytes, owner, true, none, f.asid, f.codeVA, f.codePA, f.spineVA, f.spinePA⟩
    let writes := folioWrites f loaded image num
    let clear := fun (a b : Nat × List Byte) => ∀ i < a.2.length, ∀ j < b.2.length, s.cell? (a.1 + i) ≠ s.cell? (b.1 + j)
    let handle := natLe 16 (f.spineVA % 2 ^ 56 + n * 2 ^ 56 + 2 ^ 112)
    let spans := writes.map (fun w => (w.1, w.2.length)) ++ (f.handlePA.map (fun h => (h, 16))).toList
    (s.recovery = true → exec .checkpointStart s = .next s ∧ exec .restoreStart s = .next s ∧ exec (.folioLoad f) s = .next s
      ∧ exec (.folioUnload num) s = .next s)
    ∧ (s.ckpt = .idle → s.recovery = false →
      (refused → ∃ u, exec .checkpointStart s = .next u ∧ u.mem = s.mem ∧ u.teams = s.teams ∧ u.ckpt = .idle
        ∧ (u.word 0x70).getLsbD 3 = true)
      ∧ (¬ refused → ∃ u, exec .checkpointStart s = .next u ∧ u.mem = s.mem ∧ u.teams = s.teams ∧ u.ckpt = .saving ∧ u.word 0x70 = word
        ∧ ∀ t, t ∈ u.ckptTeams ↔ ∃ z, (t, z) ∈ s.teams ∧ z.state = .resident)
      ∧ (s.jobRuns = true → ∃ u, exec .restoreStart s = .next u ∧ u.mem = s.mem ∧ u.teams = s.teams ∧ u.ckpt = .idle ∧ u.word 0x70 = word)
      ∧ (s.jobRuns = false → ∃ u, exec .restoreStart s = .next u ∧ u.mem = s.mem ∧ u.teams = s.teams ∧ u.ckpt = .restoring
        ∧ u.word 0x70 = word))
    ∧ (s.ckpt = .saving → (∀ p ∈ s.teams, p.2.state ≠ .resident) → s.quiet = true → plain →
      ∃ u, exec .checkpointDone s = .next u ∧ u.ckpt = .idle ∧ u.word 0x70 = word ||| 4#64 ∧ u.msix = 1 :: s.msix ∧ resumed u
        ∧ (∀ z, z / 2 ^ 48 = 1 → u.mem.byte z = s.mem.byte z)
        ∧ (home → s.inCkpt (place c) = some off → (∀ z ∈ s.mem, z.1 / 2 ^ 48 = 1 → place z.1 = place c → z.1 = c) →
          u.mem.byte (place c) = s.mem.byte c))
    ∧ (s.ckpt = .restoring → plain → s.mem.wf = true →
      ∃ u, exec .restoreDone s = .next u ∧ u.ckpt = .idle ∧ u.word 0x70 = word ||| 4#64 ∧ u.msix = 1 :: s.msix ∧ u.teams = s.teams
        ∧ (∀ z, z / 2 ^ 48 = 2 → u.mem.byte z = s.mem.byte z)
        ∧ (home → s.inCkpt x = some off → (∀ z, s.inCkpt z = some off → z = x) → u.mem.byte c = s.mem.byte x))
    ∧ (∃ mem : Memory, exec (.coldReset ecdsa lms current) s = .next { State.reset with
          mem := mem
          tags := s.tags
          agenda := s.agenda
          fresh := s.fresh + 1
          nextId := s.nextId
          recovery := !(ecdsa && lms && current) }
        ∧ ∀ a, a ∉ s.encCells → mem.byte a = s.mem.byte a)
    ∧ (nonce.length = 32 → exec (.attestationRequest nonce) s = .next { s with reports := (report, Config.attestSign report) :: s.reports })
    ∧ ((fileOk f.bytes = false ∨ owner ≠ f.world ∨ s.chooseImage f = none) → exec (.folioLoad f) s = .next s)
    ∧ (fileOk f.bytes = true → owner = f.world → f.asid ≤ 255 → s.recovery = false → s.chooseImage f = some (m, image) →
      (imageOk m = false ∨ placesAll f m image = false → exec (.folioLoad f) s = .next s)
      ∧ (imageOk m = true → placesAll f m image = true → s.loadShut owner spans = false → 1 ≤ num → num ≤ 65535 → num ≤ s.folios.length + 1 → Tbl.look num s.folios = none →
        (∀ k, 1 ≤ k → k < num → (Tbl.look k s.folios).isSome = true) → (∀ w ∈ writes, s.Apart w.1 w.2.length) → writes.Pairwise clear → silent →
        (∀ h, f.handlePA = some h → h % 16 = 0 ∧ s.Apart h 16 ∧ ∀ w ∈ writes, clear w (h, handle)) →
        ∃ u, exec (.folioLoad f) s = .next u ∧ Tbl.look num u.folios = some loaded ∧ (∀ w ∈ writes, u.physRead w.1 w.2.length = w.2)
          ∧ u.physRead f.codePA m.code.length = m.code ∧ u.physRead f.spinePA n = loaded.header num ++ loaded.records
          ∧ (∀ k h, f.leaves[k]? = some h → k < codePages f.codePA m.code.length →
            u.physRead h 8 = natLe 8 (codeLeaf (f.codePA + 65536 * k) loaded.writable owner))
          ∧ u.warps = s.warps ∧ ∀ h, f.handlePA = some h → u.physRead h 16 = handle ∧ u.unitTag h = true))
    ∧ (Tbl.look num s.folios = some y → y.live = true → s.recovery = false → s.Apart y.spinePA 32 → silent →
      ∃ u, exec (.folioUnload num) s = .next u ∧ Tbl.look num u.folios = some { y with live := false }
        ∧ u.physRead y.spinePA 32 = ({ y with live := false } : Folio).header num ∧ KeepsBytes s u y.spinePA 32 ∧ u.warps = s.warps)

/-! ### Words, steps and invariants -/

/-- R66 to R106: the word that the encoding tables give a well-formed instruction is read back as that instruction, with every
operand, sub-code and field at every value that the encoding admits. -/
def Obligations.EncodeDecode : Prop := ∀ i : Instr, i.hasWord = true → i.wf = true → decodeWord (encode i) = .ok i

/-- R66, R69, R71, R72, R91, R93 to R107: words written out from the spec's layout and opcode map; an opcode that the map does not assign is refused. -/
def Obligations.DecodeWords : Prop :=
  let w (k : Nat) : Opnd := .reg .w32 (BitVec.ofNat 9 (8 * k))
  decodeWord 0x0F060C50C40DC004#128 = .ok (.iadd Guard.always .i8x4 true (w 4) (w 5) (w 6))
  ∧ decodeWord 0x0380BCC0CD0DC034#128 = .ok (.shl Guard.always .n32 (w 13) (w 12) (.imm 5#9))
  ∧ decodeWord 0x33809807A80DC06C#128 = .ok (.sel Guard.always .n32 ⟨false, 6#3⟩ (w 40) (.uni 3#7) (.uni 4#7))
  ∧ decodeWord 0x7000E00E00C1C2E0#128 = .ok (.plop Guard.always 0xE#4 6#3 ⟨false, 7#3⟩ ⟨false, 7#3⟩)
  ∧ decodeWord 0x04C01C41450DC208#128 = .ok (.st Guard.always 0#4 .b32 (.reg .w128 32#9) (.imm 0#9) (w 5))
  ∧ decodeWord 0x00860C07C001C3AC#128 = .ok (.vthr Guard.always 0#4 (.imm 3#9) (w 6))
  ∧ decodeWord 0x680000000001C300#128 = .ok (.fence Guard.always .acq .package)
  ∧ decodeWord 0x0000000FC001C3C8#128 = .ok (.sysc Guard.always (.imm 7#9))
  ∧ decode 0#128 = .unassignedOpcode 0#128

/-- R36, R66, R67, R79: one step. A lane in which no leaf stands, whose best candidate has no trap posted and is not late, whose fetch
translates, and at whose address stand the bytes of an instruction within one 32-byte block, runs exactly that instruction: exec of it,
by that leaf, in the state after the fetch, is the step, but that the other leaves found blocked are marked so, those that were ready
count the choice they lost, and the lane's pipeline notes the leaf (logs 1, 12). An instruction that the scoreboard holds or that is
blocked leaves the choice to the others, and with none the lane does nothing else; one that its lane waits for stands in the lane, and
acts when it can. An event acts as exec says. With nothing left to act the machine stays as it is. -/
def Obligations.StepRunsDecoded : Prop :=
  (∀ (s : State) (d c lane : Nat) (late : List LeafRef) (rest : List Agent) (k : Candidate) (others : List Candidate) (t : Team) (w : Warp)
      (e : Entry) (p : Phys) (i : Instr),
    s.agenda = .lane d c lane late :: rest → Tbl.look lane (s.core d c).holder = none →
    let a := { s with agenda := rest }.promoteLane d c lane
    a.candidates d c lane = k :: others → k.ref ∉ late →
    let b := a.endYields (k.ref :: others.map Candidate.ref)
    b.asyncTake k.ref.team k.ref.warp = none →
    b.team? k.ref.team = some t → b.warp? k.ref.team k.ref.warp = some w → w.entry? k.ref.leaf = some e →
    e.pc.toNat % 4 = 0 →
    let x := Tbl.get b.launches t.launch Launch.none
    let va := b.fetchVA t w e
    b.xlate t.die t.core x.asid va ⟨false, false, true⟩ x.secure = .ok p →
    let f := b.fetchBlock t.die t.core p.pa
    decodeWord (wordOfBytes ((f.1.drop (va % 32)).take 16)) = .ok i → va % 32 + i.bytes ≤ 32 →
    let o := exec i { f.2 with issuer := some k.ref }
    let tried := others.map (fun y => (y.ref,
      if y.ref ∈ late ∧ b.inPipe d c lane y.ref = true then Tried.unready else b.tryLeaf exec y.ref))
    let rank := fun (u : State) =>
      (u.markBusy (tried.filterMap (fun q => match q.2 with | .blocked z => some (q.1, z) | _ => none))).lost
        ((tried.filter (fun q => q.2.takes)).map Prod.fst)
    (Tbl.look (p.pa / 32) (b.core t.die t.core).blocks = none → f.1 = b.physRead (32 * (p.pa / 32)) 32)
    ∧ (∀ v, o = .next v → v.held = .no → step s = .next ((rank { v with issuer := none }).issuedOn d c lane k.ref))
    ∧ (∀ v, o = .next v → v.held = .lane →
        step s = .next ((rank b).updCore d c (fun z => { z with holder := Tbl.put lane k.ref z.holder })))
    ∧ (∀ v, o = .next v → v.held = .scoreboard → others = [] → step s = .next a)
    ∧ (∀ v z, o = .next v → v.held = .blocked z → others = [] → step s = .next (a.updEntry k.ref (fun y =>
        if y.wait == .none || y.wait == .busy then { y with wait := z } else y)))
    ∧ (∀ q, o = .fault q → step s = .fault q)
    ∧ ∀ q, o = .refused q → step s = .refused q)
  ∧ (∀ (s : State) (d c lane : Nat) (late : List LeafRef) (rest : List Agent) (r : LeafRef) (i : Instr) (t v : State),
    s.agenda = .lane d c lane late :: rest → Tbl.look lane (s.core d c).holder = some r →
    let a := { s with agenda := rest }
    r ∈ (a.candidates d c lane).map Candidate.ref → a.fetch r = .instr i t → exec i { t with issuer := some r } = .next v →
      (v.held = .no → step s = .next ({ v with issuer := none }.issuedOn d c lane r)) ∧ (v.held = .lane → step s = .next a))
  ∧ (∀ (s : State) (i : Instr) (choice : BitVec 128) (rest : List Agent), s.agenda = .event i choice :: rest →
      step s = exec i { s with agenda := rest, choice := choice })
  ∧ (∀ (s : State) (d pair n : Nat) (rest : List Agent), s.agenda = .elapse d pair n :: rest →
      step s = .next (State.elapse { s with agenda := rest } d pair n))
  ∧ ∀ s : State, s.agenda = [] → step s = .next s

/-- Log 3: package memory stays in its canonical form, addresses rising and no listed zero, through every step of every state
that has it. -/
def Obligations.MemoryInvariant : Prop := ∀ s t : State, s.mem.wf = true → step s = .next t → t.mem.wf = true

/-- R68: primary opcode 0x00 is unassigned: a word with it, whatever its other bits, is no instruction, and a zero-filled
64-bit word takes the precise trap ILLINS, with the pc at the word: the leaf enters the handler, or the trap waits for the
warp's writes or escalates, as every delivered trap does. -/
def Obligations.OpcodeZero : Prop :=
  (∀ w : IWord, w.extractLsb' 2 8 = 0#8 → decode w = .unassignedOpcode (clip w) ∧ ∀ i, decodeWord w ≠ .ok i)
  ∧ decode 0#128 = .unassignedOpcode 0#128
  ∧ (∀ (s : State) (c : Ctx), s.ctx Guard.always = some c → c.on ≠ [] →
      Traps (.unassignedOpcode 0#128) s c 0x01#8 0
      ∧ ∀ v, State.Handled s c v → Enters (.unassignedOpcode 0#128) s c 0x01#8 0 0 v)

/-- R278: PKGID, word 0x0010, resets to 0xF_FFFF, unassigned; the first write, outside recovery mode (R281), sets bits 19..0 and leaves the reserved bits zero,
later writes are ignored, and only reset lets a write set it again; while it is unassigned no write sets up an external circuit. -/
def Obligations.PackageIdentifier : Prop :=
  State.reset.word 0x10 = 0xFFFFF#64
  ∧ (∀ (s : State) (v : Word64),
      (s.pkgSet = false → s.recovery = false → ∃ t, exec (.pkgidWrite v) s = .next t ∧ t = { s.setWord 0x10 (v &&& 0xFFFFF#64) with pkgSet := true }
        ∧ t.word 0x10 = v &&& 0xFFFFF#64)
      ∧ (s.pkgSet = true → exec (.pkgidWrite v) s = .next s))
  ∧ (∀ (s : State) (a b r : Bool), ∃ t, exec (.coldReset a b r) s = .next t ∧ t.pkgSet = false ∧ t.word 0x10 = 0xFFFFF#64)
  ∧ (∀ (s : State) (c : Nat) (v : Word64), s.word 0x10 &&& 0xFFFFF#64 = 0xFFFFF#64 → 24 ≤ c → c < 1024 → v.getLsbD 61 = true →
      (s.word (0x3000 + c)).getLsbD 63 = false → s.recovery = false →
      ∃ x, exec (.circuitSetup c v) s = .next (s.setWord (0x3000 + c) x) ∧ x.getLsbD 63 = false ∧ x.getLsbD 18 = true)

/-- R5, R45, R226, R278, R280, R283: the machine at reset. The package words have the reset values that the spec gives; every
cycle counter is zero; no team, launch, job or request is there; the words and the memory for which the spec gives no value
read as zero (logs 3 and 6, the model's choice), and package memory is in its canonical form. Cycles of a core-pair island raise the
counters of its two cores, of no other, and of none while it is parked. -/
def Obligations.ResetAndCycles : Prop :=
  let r := State.reset
  r.memoryOk ∧ (∀ d c, (r.core d c).cyc = 0#64) ∧ r.teams = [] ∧ r.warps = [] ∧ r.launches = [] ∧ r.completions = [] ∧ r.agenda = []
  ∧ r.word 0x10 = 0xFFFFF#64 ∧ r.word 0x30 = 0x3E8#64
  ∧ (∀ n < 64, r.word (0x1000 + 4 * n + 1) = 0x400004#64)
  ∧ (∀ n < 24, let w := r.word (0x3000 + n)
      w.getLsbD 63 = true ∧ w.getLsbD 61 = false ∧ w.toNat % 2 ^ 16 = 1
      ∧ w.toNat / 2 ^ 53 % 16 < w.toNat / 2 ^ 49 % 16 ∧ w.toNat / 2 ^ 49 % 16 < 9 ∧ adjacent (w.toNat / 2 ^ 53 % 16) (w.toNat / 2 ^ 49 % 16) = false)
  ∧ (∀ n m, n < m → m < 24 → let v := r.word (0x3000 + n)
      let w := r.word (0x3000 + m)
      16 * (v.toNat / 2 ^ 53 % 16) + v.toNat / 2 ^ 49 % 16 < 16 * (w.toNat / 2 ^ 53 % 16) + w.toNat / 2 ^ 49 % 16)
  ∧ (∀ d n, d < 9 → r.dieWord d n = 0#64) ∧ (∀ a, r.physByte a = 0#8)
  ∧ (∀ (s : State) (d pair n : Nat),
      let parked := (s.word (0x800 + 14 * d + pair)).toNat / 2 ^ 13 % 8 = 7
      let t := s.elapse d pair n
      (parked → t = s)
      ∧ (¬ parked → pair < 9 → ∀ e, ∀ c < 18, (t.core e c).cyc =
          if e = d ∧ c / 2 = pair then (s.core e c).cyc + BitVec.ofNat 64 n else (s.core e c).cyc)
      ∧ t.mem = s.mem ∧ t.dies = s.dies ∧ t.teams = s.teams ∧ t.words = s.words)

/-- R70: the PRED field of a word selects the guard of the instruction that it holds, and 0b1111, `?!p7`, is legal wherever the
opcode has a guard (all but GIVE, CLAIM, RGN and ERET): the word with that field is the same opcode's instruction, and it never
runs, in any thread of any state. -/
def Obligations.GuardField : Prop :=
  (∀ (w : IWord) (i : Instr), decodeWord w = .ok i →
      guardOf i = ⟨w.getLsbD 17, w.extractLsb' 14 3⟩
      ∧ ((∀ k, i ≠ .give k) → (∀ k, i ≠ .claim k) → (∀ a b c d, i ≠ .rgn a b c d) → i ≠ .eret →
          ∃ j, decodeWord (w ||| 0x3C000#128) = .ok j ∧ guardOf j = ⟨true, 7#3⟩ ∧ j.bytes = i.bytes
            ∧ encode j = encode i ||| 0x3C000#128))
  ∧ ∀ (s : State) (c : Ctx), s.ctx ⟨true, 7#3⟩ = some c → c.on = []
end

