-- ==== Sys2Proof/Laws/Bits.lean ====
section
/-! SUPPORT. Bits of numbers with a field replaced, slices of a thread after a write. -/

namespace Sys2Proof.Machine

theorem setBits_eq (v hi lo x : Nat) (h : lo ≤ hi + 1) :
    setBits v hi lo x = 2 ^ (hi + 1) * (v / 2 ^ (hi + 1)) + (2 ^ lo * (x % 2 ^ (hi + 1 - lo)) + v % 2 ^ lo) := by
  have e : 2 ^ (hi + 1) = 2 ^ lo * 2 ^ (hi + 1 - lo) := by rw [← pow_add]; congr 1; omega
  have h1 : v = 2 ^ lo * (v / 2 ^ lo) + v % 2 ^ lo := (Nat.div_add_mod _ _).symm
  have h2 : v / 2 ^ lo = 2 ^ (hi + 1 - lo) * (v / 2 ^ (hi + 1)) + v / 2 ^ lo % 2 ^ (hi + 1 - lo) := by
    rw [e, ← Nat.div_div_eq_div_mul]; exact (Nat.div_add_mod _ _).symm
  unfold setBits bitsOf
  have h3 : v = 2 ^ (hi + 1) * (v / 2 ^ (hi + 1)) + v / 2 ^ lo % 2 ^ (hi + 1 - lo) * 2 ^ lo + v % 2 ^ lo := by
    conv_lhs => rw [h1, h2]
    rw [e]; ring
  have h4 : v - v / 2 ^ lo % 2 ^ (hi + 1 - lo) * 2 ^ lo = 2 ^ (hi + 1) * (v / 2 ^ (hi + 1)) + v % 2 ^ lo := by omega
  rw [h4]; ring

theorem testBit_setBits (v hi lo x i : Nat) (h : lo ≤ hi + 1) :
    (setBits v hi lo x).testBit i = if lo ≤ i ∧ i ≤ hi then x.testBit (i - lo) else v.testBit i := by
  have hl : v % 2 ^ lo < 2 ^ lo := Nat.mod_lt _ (Nat.two_pow_pos _)
  have hm : 2 ^ lo * (x % 2 ^ (hi + 1 - lo)) + v % 2 ^ lo < 2 ^ (hi + 1) := by
    have e : 2 ^ (hi + 1) = 2 ^ lo * 2 ^ (hi + 1 - lo) := by rw [← pow_add]; congr 1; omega
    have : x % 2 ^ (hi + 1 - lo) < 2 ^ (hi + 1 - lo) := Nat.mod_lt _ (Nat.two_pow_pos _)
    rw [e]; nlinarith [Nat.two_pow_pos lo]
  rw [setBits_eq _ _ _ _ h, Nat.testBit_two_pow_mul_add _ hm, Nat.testBit_two_pow_mul_add _ hl]
  rcases Nat.lt_or_ge i lo with h1 | h1
  · have : i < hi + 1 := by omega
    simp [this, h1, Nat.testBit_mod_two_pow, show ¬ lo ≤ i by omega]
  · rcases Nat.lt_or_ge i (hi + 1) with h2 | h2
    · simp [h2, show ¬ i < lo by omega, Nat.testBit_mod_two_pow, show lo ≤ i ∧ i ≤ hi by omega, show i - lo < hi + 1 - lo by omega]
    · simp [show ¬ i < hi + 1 by omega, Nat.testBit_div_two_pow, show ¬ (lo ≤ i ∧ i ≤ hi) by omega,
        show i - (hi + 1) + (hi + 1) = i by omega]

theorem getLsbD_putSlices (r : BitVec 2048) (s n v i : Nat) (hn : 0 < n) :
    (putSlices r s n v).getLsbD i = if 4 * s ≤ i ∧ i < 4 * (s + n) then decide (i < 2048) && v.testBit (i - 4 * s) else r.getLsbD i := by
  unfold putSlices
  rw [BitVec.getLsbD_ofNat, testBit_setBits _ _ _ _ _ (by omega)]
  have : i ≤ 4 * (s + n) - 1 ↔ i < 4 * (s + n) := by omega
  simp only [this]
  split
  · rfl
  · rw [← BitVec.getLsbD]; by_cases h : i < 2048
    · simp [h]
    · simp [h, BitVec.getLsbD_of_ge r i (by omega)]

theorem testBit_raw (th : Thread) (s n j : Nat) :
    (th.raw s n).testBit j = (decide (j < 4 * n) && th.regs.getLsbD (4 * s + j)) := by
  unfold Thread.raw
  rw [Nat.testBit_mod_two_pow, Nat.testBit_div_two_pow, BitVec.getLsbD, Nat.add_comm]

/-- A slice in bits. -/
theorem raw_eq_iff (a b : Thread) (s t : Nat) :
    a.raw s 1 = b.raw t 1 ↔ ∀ j < 4, a.regs.getLsbD (4 * s + j) = b.regs.getLsbD (4 * t + j) := by
  constructor
  · intro h j hj
    have := congrArg (fun v => v.testBit j) h
    simpa [testBit_raw, hj] using this
  · intro h
    apply Nat.eq_of_testBit_eq
    intro j
    rw [testBit_raw, testBit_raw]
    by_cases hj : j < 4
    · simp [hj, h j hj]
    · simp [hj]

/-- A thread with other registers. -/
theorem raw_mk (th : Thread) (r : BitVec 2048) (k : Nat) : ({ th with regs := r } : Thread).raw k 1 = r.toNat / 2 ^ (4 * k) % 16 := rfl

/-- A slice of 2048 bits after n slices from s were replaced. -/
theorem slice_putSlices (r : BitVec 2048) (s n v k : Nat) (hn : 0 < n) (hs : s + n ≤ 512) :
    (putSlices r s n v).toNat / 2 ^ (4 * k) % 16
      = if s ≤ k ∧ k < s + n then v / 16 ^ (k - s) % 16 else r.toNat / 2 ^ (4 * k) % 16 := by
  have e16 : (16 : Nat) = 2 ^ 4 := rfl
  apply Nat.eq_of_testBit_eq
  intro j
  split
  · rename_i h
    have : (16 : Nat) ^ (k - s) = 2 ^ (4 * (k - s)) := by rw [e16, ← pow_mul]
    rw [this, e16, Nat.testBit_mod_two_pow, Nat.testBit_div_two_pow, Nat.testBit_mod_two_pow, Nat.testBit_div_two_pow]
    by_cases hj : j < 4
    · have := getLsbD_putSlices r s n v (j + 4 * k) hn
      rw [BitVec.getLsbD] at this
      rw [this, if_pos (by omega)]
      simp [hj, show j + 4 * k < 2048 by omega, show j + 4 * k - 4 * s = j + 4 * (k - s) by omega]
    · simp [hj]
  · rename_i h
    rw [e16, Nat.testBit_mod_two_pow, Nat.testBit_div_two_pow, Nat.testBit_mod_two_pow, Nat.testBit_div_two_pow]
    by_cases hj : j < 4
    · have := getLsbD_putSlices r s n v (j + 4 * k) hn
      rw [BitVec.getLsbD] at this
      rw [this, if_neg (by omega)]
      rfl
    · simp [hj]

end Sys2Proof.Machine
end

