-- ==== Sys2Proof/Laws/Regs.lean ====
section
/-! SUPPORT. What a register write leaves in a thread, and what an instruction that computes in registers leaves in its
warp. -/

namespace Sys2Proof.Machine

/-- Slice k of 2048 bits. -/
theorem raw_one (th : Thread) (k : Nat) : th.raw k 1 = th.regs.toNat / 2 ^ (4 * k) % 16 := rfl

theorem slice_half (r : BitVec 2048) (c : Bool) (i k : Nat) (hi : i < 512) :
    (if c then r else putSlices r i 1 0).toNat / 2 ^ (4 * k) % 16
      = if c = false ∧ k = i then 0 else r.toNat / 2 ^ (4 * k) % 16 := by
  cases c
  · simp only [Bool.false_eq_true, if_false, true_and]
    rw [slice_putSlices _ _ _ _ _ (by omega) (by omega)]
    by_cases h : k = i
    · subst h; simp
    · rw [if_neg (by omega), if_neg h]
  · simp

/-- What Thread.plain leaves in each slice. -/
theorem raw_plain (th : Thread) (s n v k : Nat) (hn : 0 < n) (hs : s + n ≤ 512) :
    (th.plain s n v).raw k 1
      = if s ≤ k ∧ k < s + n then v / 16 ^ (k - s) % 16
        else if k < 512 ∧ th.halfOf s n k = true then 0 else th.raw k 1 := by
  unfold Thread.plain
  rw [raw_one]
  simp only
  rw [slice_putSlices _ _ _ _ _ hn hs]
  split
  · rfl
  · rename_i hk
    rw [raw_one]
    have key : ∀ (r : BitVec 2048), (if (s + n) % 2 = 1 then (if th.valid.getLsbD ((s + n) / 2) then r else putSlices r (s + n) 1 0) else r).toNat / 2 ^ (4 * k) % 16
        = if (s + n) % 2 = 1 ∧ th.valid.getLsbD ((s + n) / 2) = false ∧ k = s + n then 0 else r.toNat / 2 ^ (4 * k) % 16 := by
      intro r
      by_cases h : (s + n) % 2 = 1
      · rw [if_pos h, slice_half _ _ _ _ (by omega)]; simp [h]
      · rw [if_neg h]; simp [h]
    have key' : (if s % 2 = 1 then (if th.valid.getLsbD ((s - 1) / 2) then th.regs else putSlices th.regs (s - 1) 1 0) else th.regs).toNat / 2 ^ (4 * k) % 16
        = if s % 2 = 1 ∧ th.valid.getLsbD ((s - 1) / 2) = false ∧ k = s - 1 then 0 else th.regs.toNat / 2 ^ (4 * k) % 16 := by
      by_cases h : s % 2 = 1
      · rw [if_pos h, slice_half _ _ _ _ (by omega)]; simp [h]
      · rw [if_neg h]; simp [h]
    rw [key, key']
    unfold Thread.halfOf
    by_cases hk5 : k < 512
    · simp only [hk5, true_and, Bool.and_eq_true, Bool.or_eq_true, beq_iff_eq, Bool.not_eq_true']
      by_cases h1 : (s + n) % 2 = 1 ∧ th.valid.getLsbD ((s + n) / 2) = false ∧ k = s + n
      · rw [if_pos h1, if_pos]
        obtain ⟨_, hv, rfl⟩ := h1
        exact ⟨by omega, hv⟩
      · rw [if_neg h1]
        by_cases h2 : s % 2 = 1 ∧ th.valid.getLsbD ((s - 1) / 2) = false ∧ k = s - 1
        · rw [if_pos h2, if_pos]
          obtain ⟨_, hv, rfl⟩ := h2
          exact ⟨by omega, hv⟩
        · rw [if_neg h2, if_neg]
          rintro ⟨hb, hv⟩
          rcases hb with hb | hb
          · by_cases hks : k < s
            · exact h2 ⟨by omega, by rw [show (s - 1) / 2 = k / 2 by omega]; exact hv, by omega⟩
            · exact h1 ⟨by omega, by rw [show (s + n) / 2 = k / 2 by omega]; exact hv, by omega⟩
          · by_cases hks : k < s
            · exact h2 ⟨by omega, by rw [show (s - 1) / 2 = k / 2 by omega]; exact hv, by omega⟩
            · exact h1 ⟨by omega, by rw [show (s + n) / 2 = k / 2 by omega]; exact hv, by omega⟩
    · rw [if_neg (by omega), if_neg (by omega), if_neg (by omega)]

/-- Slices put back one by one. -/
theorem slice_foldl (c : Nat → Bool) (f : Nat → Nat) (s k : Nat) : ∀ (n : Nat) (r : BitVec 2048), s + n ≤ 512 →
    ((List.range n).foldl (fun r i => if c i then putSlices r (s + i) 1 (f i) else r) r).toNat / 2 ^ (4 * k) % 16
      = if s ≤ k ∧ k < s + n ∧ c (k - s) = true then f (k - s) % 16 else r.toNat / 2 ^ (4 * k) % 16
  | 0, r, _ => by simp; intro; omega
  | n + 1, r, h => by
    rw [List.range_succ, List.foldl_append]
    simp only [List.foldl_cons, List.foldl_nil]
    have ih := slice_foldl c f s k n r (by omega)
    by_cases hc : c n
    · rw [if_pos hc, slice_putSlices _ _ _ _ _ (by omega) (by omega), ih]
      by_cases hk : k = s + n
      · subst hk; simp [hc]
      · rw [if_neg (by omega)]
        by_cases h2 : s ≤ k ∧ k < s + n ∧ c (k - s) = true
        · rw [if_pos h2, if_pos ⟨h2.1, by omega, h2.2.2⟩]
        · rw [if_neg h2, if_neg]; rintro ⟨a, b, d⟩; exact h2 ⟨a, by omega, d⟩
    · rw [if_neg (by simpa using hc), ih]
      by_cases h2 : s ≤ k ∧ k < s + n ∧ c (k - s) = true
      · rw [if_pos h2, if_pos ⟨h2.1, by omega, h2.2.2⟩]
      · rw [if_neg h2, if_neg]
        rintro ⟨a, b, d⟩
        refine h2 ⟨a, ?_, d⟩
        rcases Nat.lt_or_ge k (s + n) with q | q
        · exact q
        · have : k - s = n := by omega
          rw [this] at d; exact absurd d hc

theorem getLsbD_foldl_or {α : Type} (g : α → BitVec 512) (k : Nat) : ∀ (l : List α) (m : BitVec 512),
    (l.foldl (fun m w => m ||| g w) m).getLsbD k = true → m.getLsbD k = true ∨ ∃ w ∈ l, (g w).getLsbD k = true
  | [], m, h => .inl h
  | a :: l, m, h => by
    rcases getLsbD_foldl_or g k l (m ||| g a) h with h | ⟨w, hw, h⟩
    · rw [BitVec.getLsbD_or, Bool.or_eq_true] at h
      rcases h with h | h
      · exact .inl h
      · exact .inr ⟨a, by simp, h⟩
    · exact .inr ⟨w, by simp [hw], h⟩

theorem read_noWins (th : Thread) (pick : Nat → Bool) (s n : Nat) (h : th.wins = []) : th.read pick s n = th.raw s n := by
  simp [Thread.read, h]

theorem write_noWins (th : Thread) (pick : Nat → Bool) (s n v : Nat) (h : th.wins = []) :
    th.write pick s n v = th.plain s n v := by
  simp [Thread.write, h]

/-- What Thread.write leaves in each slice. -/
theorem raw_write (th : Thread) (pick : Nat → Bool) (s n v k : Nat) (hs : s + n ≤ 512) :
    (th.write pick s n v).raw k 1 = (th.plain s n v).raw k 1
      ∨ (s ≤ k ∧ k < s + n ∧ th.windowed k = true ∧ (th.write pick s n v).raw k 1 = th.raw k 1) := by
  unfold Thread.write
  split
  · exact .inl rfl
  · simp only [raw_one]
    rw [slice_foldl _ (fun i => th.regs.toNat / 2 ^ (4 * (s + i)) % 16) s k n _ hs]
    split
    · rename_i h
      refine .inr ⟨h.1, h.2.1, ?_, ?_⟩
      · have hk := h.2.2
        rw [show s + (k - s) = k by omega] at hk
        have hk := getLsbD_foldl_or
          (fun w : Window => if w.landed && 0 < w.left then (w.mask &&& sliceMask s n &&&
            ~~~((List.range n).foldl (fun (m : BitVec 512) i => if pick (s + i) then m ||| sliceMask (s + i) 1 else m) 0#512)) else 0#512)
          k th.wins 0#512 (by
            refine Eq.trans (congrArg (fun m => BitVec.getLsbD m k) (congrArg (fun f => List.foldl f 0#512 th.wins) ?_)) hk
            funext m w
            split
            · rfl
            · rw [BitVec.or_zero])
        rcases hk with hk | ⟨w, hw, hk⟩
        · simp at hk
        · simp only [Thread.windowed, List.any_eq_true]
          refine ⟨w, hw, ?_⟩
          split at hk
          · rename_i h; rw [BitVec.getLsbD_and, BitVec.getLsbD_and] at hk; simp_all
          · simp at hk
      · simp [show s + (k - s) = k by omega]
    · exact .inl rfl

theorem write_valid (th : Thread) (pick : Nat → Bool) (s n v : Nat) :
    (th.write pick s n v).valid = th.valid ||| byteMask s n := by
  unfold Thread.write; split <;> rfl

theorem write_other (th : Thread) (pick : Nat → Bool) (s n v : Nat) :
    let b := th.write pick s n v
    b.preds = th.preds ∧ b.fstat = th.fstat ∧ (b.ix0 = th.ix0 ∧ b.ix1 = th.ix1 ∧ b.ix2 = th.ix2 ∧ b.ix3 = th.ix3)
      ∧ b.fctl = th.fctl ∧ b.exited = th.exited := by
  unfold Thread.write; split <;> exact ⟨rfl, rfl, ⟨rfl, rfl, rfl, rfl⟩, rfl, rfl⟩

/-- A write with lookahead is a write as Slices says. -/
theorem writeAhead_slices (th : Thread) (pick : Nat → Bool) (pc : Word) (la s n v : Nat) (hn : 0 < n) (hs : s + n ≤ 512) :
    Slices th (th.writeAhead pick 0 pc.toNat la s n v) pc la s n v := by
  have hr : ∀ k, (th.writeAhead pick 0 pc.toNat la s n v).raw k 1 = (th.write pick s n v).raw k 1 := by
    intro k; unfold Thread.writeAhead; simp only; split <;> rfl
  have hp := fun k => raw_plain th s n v k hn hs
  have hw := fun k => raw_write th pick s n v k hs
  constructor
  · intro k hk
    rw [hr]
    rcases hw (s + k) with h | ⟨_, _, h, e⟩
    · left; rw [h, hp, if_pos (by omega)]; congr 3; omega
    · exact .inr ⟨h, e⟩
  · intro k hk ho hh
    have ho' : ¬ (s ≤ k ∧ k < s + n) := by simpa [inSlices] using ho
    rw [hr]
    rcases hw k with h | h
    · rw [h, hp, if_neg ho', if_pos ⟨hk, hh⟩]
    · exact absurd ⟨h.1, h.2.1⟩ ho'
  · intro k hk ho hh
    have ho' : ¬ (s ≤ k ∧ k < s + n) := by simpa [inSlices] using ho
    rw [hr]
    rcases hw k with h | h
    · rw [h, hp, if_neg ho', if_neg (by simp [hh])]
    · exact absurd ⟨h.1, h.2.1⟩ ho'
  · unfold Thread.writeAhead; simp only; split <;> exact write_valid ..
  · intro h
    unfold Thread.writeAhead; rw [write_noWins _ _ _ _ _ h]; simp only; split <;> rfl
  · intro h hl
    unfold Thread.writeAhead; rw [write_noWins _ _ _ _ _ h]; simp [hl, Thread.plain, h]
  · intro h hl
    unfold Thread.writeAhead; rw [write_noWins _ _ _ _ _ h, read_noWins _ _ _ _ h]
    simp only [hl, if_false]
    refine ⟨⟨pc, 0, la + 1, sliceMask s n, 0#512, putSlices 0#2048 s n (th.raw s n), true⟩, ?_, rfl, rfl, rfl, rfl, ?_⟩
    · have e : sliceMask s n &&& ~~~(0#512) = sliceMask s n := by rw [BitVec.not_zero, BitVec.and_allOnes]
      have ep : BitVec.ofNat 32 pc.toNat = pc := by simp
      simp only [Thread.plain, h, List.foldl_nil, List.nil_append, e]
      exact congrArg (fun q => [(⟨q, 0, la + 1, sliceMask s n, 0#512, putSlices 0#2048 s n (th.raw s n), true⟩ : Window)]) ep
    · intro k hk
      simp only
      rw [slice_putSlices _ _ _ _ _ hn hs, if_pos (by omega), show s + k - s = k by omega, raw_one]
      have e16 : (16 : Nat) = 2 ^ 4 := rfl
      have : (16 : Nat) ^ k = 2 ^ (4 * k) := by rw [e16, ← pow_mul]
      rw [this]
      apply Nat.eq_of_testBit_eq
      intro j
      rw [e16, Nat.testBit_mod_two_pow, Nat.testBit_div_two_pow, testBit_raw, Nat.testBit_mod_two_pow, Nat.testBit_div_two_pow, BitVec.getLsbD]
      by_cases hj : j < 4
      · simp [hj, show j + 4 * k < 4 * n by omega, show 4 * s + (j + 4 * k) = j + 4 * (s + k) by omega]
      · simp [hj]

theorem writeAhead_other (th : Thread) (pick : Nat → Bool) (op pc la s n v : Nat) :
    let b := th.writeAhead pick op pc la s n v
    b.preds = th.preds ∧ b.fstat = th.fstat ∧ (b.ix0 = th.ix0 ∧ b.ix1 = th.ix1 ∧ b.ix2 = th.ix2 ∧ b.ix3 = th.ix3)
      ∧ b.fctl = th.fctl ∧ b.exited = th.exited := by
  unfold Thread.writeAhead; simp only; split <;> exact write_other ..

/-! ### Threads and warps -/

theorem getLsbD_setPred (preds : BitVec 7) (p : BitVec 3) (v : Bool) (q : Nat) (hq : q < 7) :
    (setPred preds p v).getLsbD q = if p.toNat = q then v else preds.getLsbD q := by
  unfold setPred
  have hp := p.isLt
  by_cases h7 : p = 7#3
  · subst h7; simp; omega
  · have : p.toNat ≠ 7 := fun h => h7 (by apply BitVec.eq_of_toNat_eq; simpa using h)
    have e : (p == 7#3) = false := by simpa using h7
    simp only [e, Bool.false_eq_true, if_false]
    have one : (1#7 <<< p.toNat).getLsbD q = decide (p.toNat = q) := by
      rw [BitVec.getLsbD_shiftLeft]
      rcases Nat.lt_trichotomy p.toNat q with h | h | h
      · simp [BitVec.getLsbD_one, show ¬ p.toNat = q by omega, show q - p.toNat ≠ 0 by omega]
      · simp [h, hq]
      · simp [h, show ¬ p.toNat = q by omega]
    cases v <;> simp only [Bool.false_eq_true, if_false, if_true]
    · rw [BitVec.getLsbD_and, BitVec.getLsbD_not, one]; by_cases h : p.toNat = q <;> simp [h, hq]
    · rw [BitVec.getLsbD_or, one]; by_cases h : p.toNat = q <;> simp [h]

/-- Slices depends on the slices, valid bits, tags and windows alone. -/
theorem Slices.congr {a b t : Thread} {pc : Word} {la st n v : Nat} (h : Slices a b pc la st n v) (h1 : t.regs = b.regs)
    (h2 : t.valid = b.valid) (h3 : t.tags = b.tags) (h4 : t.wins = b.wins) : Slices a t pc la st n v := by
  have hr : ∀ k, t.raw k 1 = b.raw k 1 := fun k => by rw [raw_one, raw_one, h1]
  refine ⟨?_, ?_, ?_, ?_, ?_, ?_, ?_⟩
  · intro k hk; rw [hr]; exact h.digits k hk
  · intro k; rw [hr]; exact h.halves k
  · intro k; rw [hr]; exact h.others k
  · rw [h2]; exact h.valid
  · rw [h3]; exact h.tags
  · rw [h4]; exact h.shut
  · rw [h4]; exact h.opened

theorem flags_after (pc : Word) (la : Nat) (a t : Thread) (d : Option Pos) (e : Eff)
    (hw : ∀ p v, d = some p → e.val = some v → p.slices ≠ 0 → Slices a t pc la (p.start a) p.slices v)
    (hk : (∀ p v, d = some p → e.val = some v → p.slices = 0) → t.regs = a.regs ∧ t.valid = a.valid ∧ t.tags = a.tags ∧ t.wins = a.wins)
    (ho : t.preds = a.preds ∧ t.fstat = a.fstat ∧ (t.ix0 = a.ix0 ∧ t.ix1 = a.ix1 ∧ t.ix2 = a.ix2 ∧ t.ix3 = a.ix3)
      ∧ t.fctl = a.fctl ∧ t.exited = a.exited) :
    ThreadAfter pc la a
      (let u := match e.pred with
        | some (p, b) => { t with preds := setPred t.preds p b }
        | none => t
       { u with fstat := u.fstat ||| e.flags.zeroExtend 32 }) d e := by
  obtain ⟨val, pred, flags⟩ := e
  obtain ⟨o1, o2, o3, o4, o5⟩ := ho
  cases pred with
  | none =>
    refine ⟨fun p v h1 h2 h3 => (hw p v h1 h2 h3).congr rfl rfl rfl rfl, hk, ?_, ?_, o3, o4, o5⟩
    · intro q hq; simp only [o1]
    · simp only [o2]
  | some pv =>
    obtain ⟨p, v⟩ := pv
    refine ⟨fun p v h1 h2 h3 => (hw p v h1 h2 h3).congr rfl rfl rfl rfl, hk, ?_, ?_, o3, o4, o5⟩
    · intro q hq; simp only; rw [getLsbD_setPred _ _ _ _ hq, o1]
    · simp only [o2]

/-- Ctx.put leaves what ThreadAfter says. -/
theorem put_after (c : Ctx) (d : Option Pos) (la i : Nat) (e : Eff)
    (h : ∀ p, d = some p → p.start (c.th i) + p.slices ≤ 512) :
    ThreadAfter c.entry.pc la (c.th i) (c.put d la i e) d e := by
  have same : ∀ t : Thread, t.preds = t.preds ∧ t.fstat = t.fstat ∧ (t.ix0 = t.ix0 ∧ t.ix1 = t.ix1 ∧ t.ix2 = t.ix2 ∧ t.ix3 = t.ix3)
      ∧ t.fctl = t.fctl ∧ t.exited = t.exited := fun _ => by simp
  obtain ⟨val, pred, flags⟩ := e
  unfold Ctx.put
  cases d with
  | none =>
    refine flags_after _ _ _ (c.th i) none ⟨val, pred, flags⟩ ?_ ?_ (same _)
    · intro p v h; cases h
    · intro _; exact ⟨rfl, rfl, rfl, rfl⟩
  | some p =>
    cases val with
    | none =>
      refine flags_after _ _ _ (c.th i) (some p) ⟨none, pred, flags⟩ ?_ ?_ (same _)
      · intro p v _ h; cases h
      · intro _; exact ⟨rfl, rfl, rfl, rfl⟩
    | some v =>
      by_cases hs : p.slices = 0
      · simp only [hs, if_true]
        refine flags_after _ _ _ (c.th i) (some p) ⟨some v, pred, flags⟩ ?_ ?_ (same _)
        · intro p' v' h1 h2 h3; cases h1; exact absurd hs h3
        · intro _; exact ⟨rfl, rfl, rfl, rfl⟩
      · simp only [hs, if_false]
        refine flags_after _ _ _ _ (some p) ⟨some v, pred, flags⟩ ?_ ?_ (writeAhead_other ..)
        · intro p' v' h1 h2 h3; cases h1; cases h2
          exact writeAhead_slices _ _ _ _ _ _ _ (by omega) (h p rfl)
        · intro hk; exact absurd (hk p v rfl rfl) hs

theorem thread_map (w : Warp) (f : Thread × Nat → Thread) (i : Nat) :
    ({ w with threads := (w.threads.zipIdx).map f } : Warp).thread i
      = if i < w.threads.length then f (w.thread i, i) else w.thread i := by
  unfold Warp.thread
  by_cases h : i < w.threads.length
  · simp [List.getD_eq_getElem?_getD, h]
  · simp [List.getD_eq_getElem?_getD, h]

theorem uniReg_setUni (u : BitVec 4096) (k v j : Nat) (hk : k < 128) (hj : j < 128) :
    (setUni u k v).toNat / 2 ^ (32 * j) % 2 ^ 32 = if j = k then v % 2 ^ 32 else u.toNat / 2 ^ (32 * j) % 2 ^ 32 := by
  unfold setUni
  apply Nat.eq_of_testBit_eq
  intro i
  rw [Nat.testBit_mod_two_pow, Nat.testBit_div_two_pow, ← BitVec.getLsbD, BitVec.getLsbD_ofNat, testBit_setBits _ _ _ _ _ (by omega)]
  by_cases hi : i < 32
  · by_cases h : j = k
    · subst h
      rw [if_pos (by omega), if_pos rfl, Nat.testBit_mod_two_pow]
      simp [hi, show i + 32 * j < 4096 by omega]
    · rw [if_neg (by omega), if_neg h, Nat.testBit_mod_two_pow, Nat.testBit_div_two_pow]
      simp [hi, show i + 32 * j < 4096 by omega]
  · have e : (if j = k then v % 2 ^ 32 else u.toNat / 2 ^ (32 * j) % 2 ^ 32).testBit i = false := by
      split <;> rw [Nat.testBit_mod_two_pow] <;> simp [hi]
    rw [e]; simp [hi]

theorem uniReg_setUniReg (w : Warp) (k v j : Nat) (hk : k < 128) (hj : j < 128) :
    (w.setUniReg k v).uniReg j = if j = k then v % 2 ^ 32 else w.uniReg j := by
  unfold Warp.setUniReg Warp.setUniIn Warp.uniReg
  cases h : w.handler.isSome <;> simp only [h, Bool.false_eq_true, if_true, if_false] <;>
    exact uniReg_setUni _ _ _ _ hk hj

/-- Ctx.commit leaves what WarpAfter says. -/
theorem commit_after (c : Ctx) (run : List Nat) (d : Option Pos) (la : Nat) (eff : Nat → Eff)
    (h : ∀ i ∈ run, ∀ p, d = some p → p.start (c.th i) + p.slices ≤ 512) :
    WarpAfter c la (c.commit run d la eff) run d eff := by
  set base : Warp := { c.warp with
    threads := (c.warp.threads.zipIdx).map (fun p => if run.contains p.2 then c.put d la p.2 (eff p.2) else p.1) } with hb
  have ht : ∀ i, base.thread i = if i < c.warp.threads.length then (if run.contains i then c.put d la i (eff i) else c.th i) else c.th i := by
    intro i; rw [hb, thread_map]; rfl
  have hcases : c.commit run d la eff = base ∨ ∃ p k i v, d = some p ∧ p.o = .uni k ∧ run.head? = some i ∧ (eff i).val = some v
      ∧ c.commit run d la eff = base.setUniReg k.toNat (v % 2 ^ 32) := by
    unfold Ctx.commit
    cases d with
    | none => exact .inl rfl
    | some p =>
      simp only
      split
      · rename_i k i hk hi
        cases hv : (eff i).val with
        | none => exact .inl rfl
        | some v => exact .inr ⟨p, k, i, v, rfl, hk, hi, hv, rfl⟩
      · exact .inl rfl
  have hthreads : (c.commit run d la eff).threads = base.threads := by
    rcases hcases with e | ⟨p, k, i, v, _, _, _, _, e⟩
    · rw [e]
    · rw [e]; unfold Warp.setUniReg Warp.setUniIn; split <;> rfl
  have hth : ∀ i, (c.commit run d la eff).thread i = base.thread i := by
    intro i; unfold Warp.thread; rw [hthreads]
  refine ⟨?_, ?_, ?_, ?_, ?_, ?_⟩
  · intro i hi hl
    rw [hth, ht, if_pos hl, if_pos (by simpa using hi)]
    exact put_after c d la i (eff i) (h i hi)
  · intro i hi
    rw [hth, ht]
    simp [hi]
  · intro p k i v hd hk hi hv
    have e : c.commit run d la eff = base.setUniReg k.toNat (v % 2 ^ 32) := by
      subst hd; unfold Ctx.commit; simp only [hk, hi, hv]; rfl
    have hku : k.toNat < 128 := k.isLt
    rw [e]
    refine ⟨?_, ?_⟩
    · rw [uniReg_setUniReg _ _ _ _ hku hku, if_pos rfl]; simp
    · intro j hj hne; rw [uniReg_setUniReg _ _ _ _ hku hj, if_neg hne]; rfl
  · intro hno
    rcases hcases with e | ⟨p, k, i, v, hd, hk, _, _, _⟩
    · rw [e]; exact ⟨rfl, rfl⟩
    · exact absurd hk (hno p k hd)
  · rcases hcases with e | ⟨p, k, i, v, _, _, _, _, e⟩
    · rw [e]
    · rw [e]; unfold Warp.setUniReg Warp.setUniIn; split <;> rfl
  · rw [hthreads, hb]; simp

end Sys2Proof.Machine
end

