-- ==== Sys2Proof/Laws/Issue.lean ====
section
/-! SUPPORT. The issue of one instruction: what it answers where its operands pass, where they fail, and where the guard
holds nowhere. -/

namespace Sys2Proof.Machine

theorem ready_checks {s : State} {c : Ctx} {ps : List Pos} (h : c.ready s ps = true) :
    c.on ≠ [] ∧ c.waits ps = false ∧ s.uniWaits c ps = false ∧ c.regTrap ps = none ∧ c.strictTrap ps = none := by
  simp only [Ctx.ready, Bool.and_eq_true, Bool.not_eq_true', Bool.or_eq_true, List.all_eq_true, List.isEmpty_eq_false_iff,
    Option.isNone_iff_eq_none] at h
  obtain ⟨⟨⟨⟨h1, h2⟩, h3⟩, h4⟩, h5⟩ := h
  have nofirst : ∀ bad : Pos → Nat → Bool, (∀ i ∈ c.on, ∀ p ∈ ps, bad p i = false) → c.first ps bad = none := by
    intro bad hb
    unfold Ctx.first
    rw [List.findSome?_eq_none_iff]
    intro i hi
    rw [Option.map_eq_none_iff, List.find?_eq_none]
    intro p hp; simp [hb i hi p hp]
  refine ⟨h1, h2, h3, ?_, ?_⟩
  · unfold Ctx.regTrap
    rw [nofirst _ (fun i hi p hp => (h4 i hi p hp).1.1.1), nofirst _ (fun i hi p hp => (h4 i hi p hp).1.1.2),
      nofirst _ (fun i hi p hp => (h4 i hi p hp).1.2), nofirst _ (fun i hi p hp => (h4 i hi p hp).2)]
    rfl
  · unfold Ctx.strictTrap
    split
    · rename_i hs
      rcases h5 with h5 | h5
      · simp [hs] at h5
      · rw [Option.map_eq_none_iff, List.findSome?_eq_none_iff]
        intro i hi
        rw [List.findSome?_eq_none_iff]
        intro p hp
        rcases h5 i hi p hp with h | h <;> simp [h]
    · rfl

/-- The mark of an issue is the issuing leaf's own. -/
theorem issued_mark {s : State} {g : Guard} {c : Ctx} (h : s.ctx g = some c) : s.mark c.ref = s.issued := by
  unfold State.issued State.mark
  unfold State.ctx at h
  split at h
  · cases h
  · rename_i r hr
    rw [hr]
    split at h
    · split at h <;> cases h; rfl
    · cases h

/-- A ready instruction runs its body. -/
theorem issueWith_ready {s : State} {g : Guard} {ps : List Pos} {c : Ctx} (h : s.Ready g ps c) (always : Bool) (len : Nat)
    (body : Ctx → State → Done) :
    s.issueWith always len g ps body = .next ((body c s.issued).state s.issued c.ref len) := by
  obtain ⟨hc, hr⟩ := h
  obtain ⟨h1, h2, h3, h4, h5⟩ := ready_checks hr
  unfold State.issueWith
  rw [hc]
  simp only [h2, h3, h4, h5, issued_mark hc]
  have : c.on.isEmpty = false := by simpa using h1
  simp [this]

theorem issue_ready {s : State} {g : Guard} {ps : List Pos} {c : Ctx} (h : s.Ready g ps c) (len : Nat)
    (body : Ctx → State → Done) : s.issue len g ps body = .next ((body c s.issued).state s.issued c.ref len) :=
  issueWith_ready h false len body

theorem runs_subset (c : Ctx) (d : Option Pos) : ∀ i ∈ c.runs d, i ∈ c.on := by
  intro i hi
  unfold Ctx.runs at hi
  split at hi
  · split at hi
    · exact List.mem_of_mem_take hi
    · exact hi
  · exact hi

/-- A destination among the positions of a ready instruction lies in the 512 slices. -/
theorem ready_start {s : State} {c : Ctx} {ps : List Pos} (h : c.ready s ps = true) {p : Pos} (hp : p ∈ ps) {i : Nat} (hi : i ∈ c.on) :
    p.start (c.th i) + p.slices ≤ 512 := by
  simp only [Ctx.ready, Bool.and_eq_true, Bool.not_eq_true', List.all_eq_true] at h
  have := (h.1.2 i hi p hp).1.2
  by_cases hz : p.slices = 0
  · have : p.start (c.th i) = 0 := by
      unfold Pos.slices at hz
      unfold Pos.start
      split
      · rename_i w st hw; rw [hw] at hz; cases w <;> simp [Width.slices, Width.bits] at hz
      · rfl
    omega
  · simp only [Pos.range, Bool.and_eq_false_iff, bne_eq_false_iff_eq, decide_eq_false_iff_not] at this
    rcases this with h | h
    · exact absurd h hz
    · omega

theorem quiet_fpTrap {c : Ctx} {d : Option Pos} {eff : Nat → Eff} (h : c.quiet d eff = true) : c.fpTrap (c.runs d) eff = none := by
  unfold Ctx.fpTrap
  rw [List.findSome?_eq_none_iff]
  intro i hi
  simp only [Ctx.quiet, List.all_eq_true, beq_iff_eq] at h
  simp [h i hi]

/-- An instruction that computes in registers, ready, no operand abandoned, no enabled flag raised. -/
theorem alu_ready {s : State} {g : Guard} {ps : List Pos} {c : Ctx} (h : s.Ready g ps c) (len la : Nat) {d : Option Pos}
    {ab : Ctx → List (Pos × (Nat → Nat))} {eff : Ctx → Nat → Eff} (hd : ∀ p, d = some p → p ∈ ps)
    (ha : Ctx.abandonTrap (c.runs d) (ab c) = none) (hq : c.quiet d (eff c) = true) :
    ∃ w, WarpAfter c la w (c.runs d) d (eff c) ∧
      s.alu len la g ps d ab eff = .next ((s.issued.updWarp c.ref.team c.ref.warp (fun _ => w)).complete c.ref len) := by
  refine ⟨c.commit (c.runs d) d la (eff c), commit_after _ _ _ _ _ ?_, ?_⟩
  · intro i hi p hp
    exact ready_start h.2 (hd p hp) (runs_subset c d i hi)
  · unfold State.alu
    rw [issue_ready h]
    unfold Ctx.compute
    rw [ha, quiet_fpTrap hq]
    rfl

theorem noAb_none (run : List Nat) (c : Ctx) : Ctx.abandonTrap run (noAb c) = none := by
  unfold Ctx.abandonTrap noAb
  rw [List.findSome?_eq_none_iff]; simp

/-- Where no flag is raised no trap is. -/
theorem quiet_zero (c : Ctx) (d : Option Pos) (eff : Nat → Eff) (h : ∀ i, (eff i).flags = 0#5) : c.quiet d eff = true := by
  simp [Ctx.quiet, h]

/-- A plain result: no operand tested, no flag. -/
theorem alu_plain {s : State} {g : Guard} {ps : List Pos} {c : Ctx} (h : s.Ready g ps c) (len la : Nat) {d : Option Pos}
    {eff : Ctx → Nat → Eff} (hd : ∀ p, d = some p → p ∈ ps) (hf : ∀ i, (eff c i).flags = 0#5) :
    ∃ w, WarpAfter c la w (c.runs d) d (eff c) ∧
      s.alu len la g ps d noAb eff = .next ((s.issued.updWarp c.ref.team c.ref.warp (fun _ => w)).complete c.ref len) :=
  alu_ready h len la hd (noAb_none _ _) (quiet_zero _ _ _ hf)

/-! ### Records of the issuing leaf -/

theorem ix_setIx (th : Thread) (j k : BitVec 2) (v : Word) : (th.setIx j v).ix k = if k = j then v else th.ix k := by
  have : ∀ j k : BitVec 2, ∀ th : Thread, (th.setIx j v).ix k = if k = j then v else th.ix k := by
    intro j k th
    have hj := j.isLt
    unfold Thread.setIx Thread.ix
    match j, k with
    | 0#2, 0#2 => rfl
    | 0#2, 1#2 => rfl
    | 0#2, 2#2 => rfl
    | 0#2, 3#2 => rfl
    | 1#2, 0#2 => rfl
    | 1#2, 1#2 => rfl
    | 1#2, 2#2 => rfl
    | 1#2, 3#2 => rfl
    | 2#2, 0#2 => rfl
    | 2#2, 1#2 => rfl
    | 2#2, 2#2 => rfl
    | 2#2, 3#2 => rfl
    | 3#2, 0#2 => rfl
    | 3#2, 1#2 => rfl
    | 3#2, 2#2 => rfl
    | 3#2, 3#2 => rfl
  exact this j k th

theorem updWarp_at (s : State) (r : LeafRef) (f : Warp → Warp) (w : Warp) (h : s.warp? r.team r.warp = some w) :
    s.updWarp r.team r.warp f = s.updWarp r.team r.warp (fun _ => f w) := by
  have : ∀ (l : Tbl Warp) k, Tbl.look k l = some w → Tbl.alter k f l = Tbl.alter k (fun _ => f w) l := by
    intro l k
    induction l with
    | nil => intro _; rfl
    | cons p l ih =>
      intro hl
      unfold Tbl.alter
      unfold Tbl.look at hl
      split
      · rename_i hk; rw [if_pos hk] at hl; cases hl; rfl
      · rename_i hk; rw [if_neg hk] at hl; rw [ih hl]
  unfold State.updWarp
  rw [this _ _ h]

theorem ctx_facts {s : State} {g : Guard} {c : Ctx} (h : s.ctx g = some c) :
    s.issuer = some c.ref ∧ s.team? c.ref.team = some c.team ∧ s.warp? c.ref.team c.ref.warp = some c.warp
      ∧ c.warp.entry? c.ref.leaf = some c.entry ∧ c.launch = Tbl.get s.launches c.team.launch Launch.none
      ∧ c.on = (maskThreads c.entry.mask).filter (fun i => g.holds (c.warp.thread i).preds) ∧ c.fresh = s.fresh := by
  unfold State.ctx at h
  split at h
  · cases h
  · rename_i r hr
    split at h
    · rename_i t w ht hw
      split at h
      · rename_i e he
        cases h
        exact ⟨hr, ht, hw, he, rfl, rfl, rfl⟩
      · cases h
    · cases h

end Sys2Proof.Machine
end

