-- ==== Sys2Proof/Laws/Values.lean ====
section
/-! SUPPORT. What the result functions of integer, bit and floating instructions give. -/

namespace Sys2Proof.Machine

theorem wrap_lt (w : Nat) (v : Int) : wrap w v < 2 ^ w := by
  unfold wrap
  have h : (0 : Int) < (2 ^ w : Nat) := by positivity
  have := Int.emod_lt_of_pos v h
  have := Int.emod_nonneg v (ne_of_gt h)
  omega

theorem writeWidth_lt (sg sat : Bool) (w dw : Nat) (v : Int) : writeWidth sg sat w dw v < 2 ^ dw := wrap_lt ..

theorem joinElems_cons (w x : Nat) (l : List Nat) : joinElems w (x :: l) = x % 2 ^ w + 2 ^ w * joinElems w l := rfl

/-- Element k of joined elements. -/
theorem joinElems_digit (w : Nat) : ∀ (l : List Nat) (k : Nat), k < l.length →
    joinElems w l / 2 ^ (w * k) % 2 ^ w = l.getD k 0 % 2 ^ w
  | [], k, h => by simp at h
  | x :: l, 0, _ => by simp [joinElems_cons, Nat.add_mod]
  | x :: l, k + 1, h => by
    rw [joinElems_cons, show w * (k + 1) = w + w * k by ring, pow_add, ← Nat.div_div_eq_div_mul]
    have hx : x % 2 ^ w < 2 ^ w := Nat.mod_lt _ (Nat.two_pow_pos _)
    rw [Nat.add_mul_div_left _ _ (Nat.two_pow_pos w), Nat.div_eq_of_lt hx, Nat.zero_add, joinElems_digit w l k (by simpa using h)]
    simp

theorem joinElems_map (w n : Nat) (f : Nat → Nat) (k : Nat) (h : k < n) :
    joinElems w ((List.range n).map f) / 2 ^ (w * k) % 2 ^ w = f k % 2 ^ w := by
  rw [joinElems_digit _ _ _ (by simpa using h)]
  simp [List.getD_eq_getElem?_getD, h]

theorem intResult_spec (t : Ty) (sat : Bool) (dw : Nat) (f : List Int → Int) (xs : List Nat) :
    IntResult t sat dw f xs (intResult t sat dw f xs) := by
  unfold IntResult intResult
  split
  · intro k hk
    rw [joinElems_map _ _ _ _ hk, Nat.mod_eq_of_lt (writeWidth_lt ..)]
  · rfl

/-- A w-bit pattern extended to any width keeps its bits and repeats its sign. -/
theorem testBit_wrap_intVal (sg : Bool) (w dw v k : Nat) (hw : 0 < w) (hk : k < dw) :
    (wrap dw (intVal sg w v)).testBit k = if k < w then v.testBit k else sg && v.testBit (w - 1) := by
  have hv : v % 2 ^ w < 2 ^ w := Nat.mod_lt _ (Nat.two_pow_pos _)
  have bit : ∀ u : Nat, (wrap dw (u : Int)).testBit k = u.testBit k := by
    intro u
    have : wrap dw (u : Int) = u % 2 ^ dw := by
      unfold wrap; rw [← Int.natCast_emod, Int.toNat_natCast]
    rw [this, Nat.testBit_mod_two_pow]; simp [hk]
  have high : ∀ u : Nat, u < 2 ^ w → k ≥ w → u.testBit k = false := by
    intro u hu hkw
    exact Nat.testBit_lt_two_pow (lt_of_lt_of_le hu (Nat.pow_le_pow_right (by omega) hkw))
  have e : v % 2 ^ w < 2 ^ (w - 1) ↔ v.testBit (w - 1) = false := by
    have : v.testBit (w - 1) = (v % 2 ^ w).testBit (w - 1) := by rw [Nat.testBit_mod_two_pow]; simp [hw]
    rw [this]
    have h2 : 2 ^ w = 2 * 2 ^ (w - 1) := by rw [← pow_succ']; congr 1; omega
    constructor
    · exact Nat.testBit_lt_two_pow
    · intro h
      by_contra hc
      have hd : v % 2 ^ w / 2 ^ (w - 1) = 1 := by
        apply Nat.div_eq_of_lt_le <;> omega
      simp [Nat.testBit, Nat.shiftRight_eq_div_pow, hd] at h
  have low : k < w → (v % 2 ^ w).testBit k = v.testBit k := by
    intro h; rw [Nat.testBit_mod_two_pow]; simp [h]
  cases sg with
  | false =>
    simp only [intVal, Bool.false_eq_true, if_false, Bool.false_and]
    rw [bit]
    by_cases h : k < w
    · rw [if_pos h, low h]
    · rw [if_neg h, high _ hv (by omega)]
  | true =>
    simp only [intVal, if_true, Bool.true_and, toSigned]
    by_cases h1 : v % 2 ^ w < 2 ^ (w - 1)
    · rw [if_pos h1, bit, e.mp h1]
      by_cases h : k < w
      · rw [if_pos h, low h]
      · rw [if_neg h, high _ hv (by omega)]
    · rw [if_neg h1]
      have hb : v.testBit (w - 1) = true := by
        cases hb : v.testBit (w - 1)
        · exact absurd (e.mpr hb) h1
        · rfl
      rw [hb]
      have hd : (1 : Nat) ≤ 2 ^ dw := Nat.one_le_two_pow
      have key : wrap dw (((v % 2 ^ w : Nat) : Int) - ((2 ^ w : Nat) : Int)) = (2 ^ w * (2 ^ dw - 1) + v % 2 ^ w) % 2 ^ dw := by
        have e1 : ((2 ^ w * (2 ^ dw - 1) + v % 2 ^ w : Nat) : Int)
            = ((v % 2 ^ w : Nat) : Int) - ((2 ^ w : Nat) : Int) + ((2 ^ dw : Nat) : Int) * ((2 ^ w : Nat) : Int) := by
          push_cast [hd]; ring
        have e2 : (((v % 2 ^ w : Nat) : Int) - ((2 ^ w : Nat) : Int)) % ((2 ^ dw : Nat) : Int)
            = ((2 ^ w * (2 ^ dw - 1) + v % 2 ^ w : Nat) : Int) % ((2 ^ dw : Nat) : Int) := by
          rw [e1, Int.add_mul_emod_self_left]
        unfold wrap
        rw [e2, ← Int.natCast_emod, Int.toNat_natCast]
      rw [key, Nat.testBit_mod_two_pow, Nat.testBit_two_pow_mul_add _ hv]
      by_cases h : k < w
      · simp [h, hk, low h]
      · simp [h, hk, Nat.testBit_two_pow_sub_one]; omega

/-- A bit result by its bits. -/
theorem bitResult_spec (t : Ty) (dw v : Nat) (bit : Nat → Bool) (hw : 0 < t.bits) (hb : ∀ k < t.bits, v.testBit k = bit k) :
    BitResult t dw bit (bitResult t dw v) := by
  have e : bitResult t dw v = wrap dw (intVal t.isSigned t.bits v) := by
    unfold bitResult writeWidth
    simp only [Bool.false_eq_true, if_false]
    congr 1
    unfold intVal
    have hv : v % 2 ^ t.bits < 2 ^ t.bits := Nat.mod_lt _ (Nat.two_pow_pos _)
    split
    · unfold toSigned
      split
      · rw [show wrap t.bits ((v % 2 ^ t.bits : Nat) : Int) = v % 2 ^ t.bits by
          unfold wrap; rw [← Int.natCast_emod, Int.toNat_natCast, Nat.mod_mod]]
        rw [Nat.mod_mod, if_pos ‹_›]
      · rw [show wrap t.bits (((v % 2 ^ t.bits : Nat) : Int) - ((2 ^ t.bits : Nat) : Int)) = v % 2 ^ t.bits by
          unfold wrap
          rw [Int.sub_emod_right, ← Int.natCast_emod, Int.toNat_natCast, Nat.mod_mod]]
        rw [Nat.mod_mod, if_neg ‹_›]
    · rw [show wrap t.bits ((v % 2 ^ t.bits : Nat) : Int) = v % 2 ^ t.bits by
        unfold wrap; rw [← Int.natCast_emod, Int.toNat_natCast, Nat.mod_mod], Nat.mod_mod]
  rw [e]
  refine ⟨wrap_lt .., ?_⟩
  intro k hk
  rw [testBit_wrap_intVal _ _ _ _ _ hw hk, hb (t.bits - 1) (by omega)]
  by_cases h : k < t.bits
  · simp [h, hb k h]
  · simp [h]

theorem foldl_flags_bit (b : Nat) (hb : b < 5) : ∀ (l : List (Nat × Flags)) (a : Flags),
    (l.foldl (fun a p => a ||| p.2) a).getLsbD b = true ↔ a.getLsbD b = true ∨ ∃ p ∈ l, p.2.getLsbD b = true
  | [], a => by simp
  | x :: l, a => by
    rw [List.foldl_cons, foldl_flags_bit b hb l, BitVec.getLsbD_or, Bool.or_eq_true]
    simp [or_assoc]

/-- A floating result element by element. -/
theorem fltResult_spec (t : Ty) (fm : Fmt) (h : t.fmt = some fm) (f : Fmt → List Nat → Nat × Flags) (xs : List Nat) :
    FltResult t (f fm) xs (fltResult t f xs) := by
  unfold fltResult
  rw [h]
  refine ⟨rfl, ⟨_, rfl, ?_⟩, ?_⟩
  · intro k hk
    simp only [collect, List.map_map]
    rw [joinElems_map _ _ _ _ hk]
    rfl
  · intro b hb
    simp only [collect]
    rw [foldl_flags_bit b hb]
    simp

/-! ### From an instruction that computes in registers to what claims say of it -/

theorem withIx_o (p : Pos) (x : XCtl) : (p.withIx x).o = p.o := by
  unfold Pos.withIx; split <;> simp only <;> split <;> rfl

theorem intComputes_of {i : Instr} {s : State} {c : Ctx} {g : Guard} {ps : List Pos} {len : Nat} {pd : Pos} {t : Ty} {sat : Bool}
    {f : List Int → Int} {xs : Nat → List Nat} (h : s.Ready g ps c) (hd : pd ∈ ps) (v : Ctx → Nat → Nat)
    (hv : ∀ j, IntResult t sat pd.o.bits f (xs j) (v c j))
    (e : exec i s = s.alu len 0 g ps (some pd) noAb (fun c j => .ofVal (v c j))) : IntComputes i s c len pd t sat f xs := by
  obtain ⟨w, hw, hs⟩ := alu_plain (eff := fun c j => Eff.ofVal (v c j)) h len 0 (d := some pd) (by rintro p ⟨⟩; exact hd) (fun _ => rfl)
  exact ⟨v c, fun j _ => hv j, w, hw, by unfold Goes; rw [e, hs]⟩

theorem bitComputes_of {i : Instr} {s : State} {c : Ctx} {g : Guard} {ps : List Pos} {len : Nat} {pd : Pos} {t : Ty}
    {bit : Nat → Nat → Bool} (h : s.Ready g ps c) (hd : pd ∈ ps) (v : Ctx → Nat → Nat)
    (hv : ∀ j, BitResult t pd.o.bits (bit j) (v c j))
    (e : exec i s = s.alu len 0 g ps (some pd) noAb (fun c j => .ofVal (v c j))) : BitComputes i s c len pd t bit := by
  obtain ⟨w, hw, hs⟩ := alu_plain (eff := fun c j => Eff.ofVal (v c j)) h len 0 (d := some pd) (by rintro p ⟨⟩; exact hd) (fun _ => rfl)
  exact ⟨v c, fun j _ => hv j, w, hw, by unfold Goes; rw [e, hs]⟩

theorem computes_of {i : Instr} {s : State} {c : Ctx} {g : Guard} {ps : List Pos} {len la : Nat} {d : Option Pos}
    {eff : Ctx → Nat → Eff} (h : s.Ready g ps c) (hd : ∀ p, d = some p → p ∈ ps) (hf : ∀ j, (eff c j).flags = 0#5)
    (e : exec i s = s.alu len la g ps d noAb eff) : Computes i s c len la d (eff c) := by
  obtain ⟨w, hw, hs⟩ := alu_plain h len la hd hf
  exact ⟨w, hw, by unfold Goes; rw [e, hs]⟩

/-- The flags of a floating result raise no trap where no element's flags do. -/
theorem silent_quiet {c : Ctx} {d : Option Pos} {t : Ty} {f : Nat → List Nat → Nat × Flags} {xs : Nat → List Nat} {e : Nat → Eff}
    (h : Silent c d t f xs) (he : ∀ j ∈ c.runs d, FltResult t (f j) (xs j) (e j)) : c.quiet d e = true := by
  simp only [Ctx.quiet, List.all_eq_true, beq_iff_eq]
  intro j hj
  apply BitVec.eq_of_getLsbD_eq
  intro b hb
  rw [BitVec.getLsbD_and]
  by_cases hf : (e j).flags.getLsbD b = true
  · obtain ⟨k, hk, hk2⟩ := ((he j hj).2.2 b hb).mp hf
    have := congrArg (fun m => BitVec.getLsbD m b) (h j hj k hk)
    simp only [BitVec.getLsbD_and, hk2, Bool.true_and] at this
    rw [this]; simp
  · simp only [Bool.not_eq_true] at hf; rw [hf]; simp

theorem fltComputes_of {i : Instr} {s : State} {c : Ctx} {g : Guard} {ps : List Pos} {len la : Nat} {pd : Pos} {t : Ty} {fm : Fmt}
    {f : Nat → List Nat → Nat × Flags} {xs : Nat → List Nat} {ab : Ctx → List (Pos × (Nat → Nat))} {eff : Ctx → Nat → Eff}
    (h : s.Ready g ps c) (hd : pd ∈ ps) (F : Nat → Fmt → List Nat → Nat × Flags) (hfm : t.fmt = some fm)
    (hf : ∀ j, f j = F j fm) (he : ∀ j, eff c j = fltResult t (F j) (xs j))
    (hs : Silent c (some pd) t f xs) (ha : Ctx.abandonTrap (c.runs (some pd)) (ab c) = none)
    (e : exec i s = s.alu len la g ps (some pd) ab eff) : FltComputes i s c len la pd t f xs := by
  have hr : ∀ j ∈ c.runs (some pd), FltResult t (f j) (xs j) (eff c j) := by
    intro j _; rw [he j, hf j]; exact fltResult_spec t fm hfm (F j) (xs j)
  obtain ⟨w, hw, hq⟩ := alu_ready (eff := eff) h len la (d := some pd) (by rintro p ⟨⟩; exact hd) ha (silent_quiet hs hr)
  exact ⟨eff c, hr, w, hw, by unfold Goes; rw [e, hq]⟩

theorem abandonTrap_none {run : List Nat} {l : List (Pos × (Nat → Nat))} (h : ∀ j ∈ run, ∀ p ∈ l, isAbandoned (p.2 j) = false) :
    Ctx.abandonTrap run l = none := by
  unfold Ctx.abandonTrap
  rw [List.findSome?_eq_none_iff]
  intro j hj
  rw [Option.map_eq_none_iff, List.find?_eq_none]
  intro p hp; simp [h j hj p hp]

end Sys2Proof.Machine
end

