-- ==== Sys2Proof/Laws/BitFns.lean ====
section
/-! SUPPORT. The bit functions of the integer instructions, bit by bit. -/

namespace Sys2Proof.Machine

theorem bitOf_eq (v i : Nat) : bitOf v i = v.testBit i := by
  unfold bitOf
  rw [Nat.testBit, Nat.shiftRight_eq_div_pow, Nat.one_and_eq_mod_two]
  rcases Nat.mod_two_eq_zero_or_one (v / 2 ^ i) with h | h <;> simp [h]

theorem leadingZeros_spec (w x : Nat) :
    leadingZeros w x ≤ w ∧ (∀ k, w - leadingZeros w x ≤ k → k < w → x.testBit k = false)
      ∧ (leadingZeros w x < w → x.testBit (w - 1 - leadingZeros w x) = true) := by
  unfold leadingZeros
  by_cases h : x % 2 ^ w = 0
  · rw [if_pos h]
    refine ⟨le_refl _, ?_, by omega⟩
    intro k _ hk
    have : (x % 2 ^ w).testBit k = x.testBit k := by rw [Nat.testBit_mod_two_pow]; simp [hk]
    rw [← this, h]; simp
  · rw [if_neg h]
    have hl : Nat.log2 (x % 2 ^ w) < w := (Nat.log2_lt h).mpr (Nat.mod_lt _ (Nat.two_pow_pos _))
    refine ⟨by omega, ?_, ?_⟩
    · intro k hk hkw
      have : (x % 2 ^ w).testBit k = x.testBit k := by rw [Nat.testBit_mod_two_pow]; simp [hkw]
      rw [← this]
      exact Nat.testBit_lt_two_pow ((Nat.log2_lt h).mp (by omega))
    · intro _
      have e : w - 1 - (w - 1 - Nat.log2 (x % 2 ^ w)) = Nat.log2 (x % 2 ^ w) := by omega
      rw [e]
      have : (x % 2 ^ w).testBit (Nat.log2 (x % 2 ^ w)) = x.testBit (Nat.log2 (x % 2 ^ w)) := by
        rw [Nat.testBit_mod_two_pow]; simp [hl]
      rw [← this]
      exact Nat.testBit_log2 h

theorem testBit_two_mul_add (a b k : Nat) (hb : b < 2) :
    (2 * a + b).testBit k = if k = 0 then decide (b = 1) else a.testBit (k - 1) := by
  have := Nat.testBit_two_pow_mul_add a (i := 1) (b := b) (by omega) k
  simp only [pow_one] at this
  rw [this]
  by_cases h : k = 0
  · subst h
    have : b = 0 ∨ b = 1 := by omega
    rcases this with h | h <;> subst h <;> simp
  · rw [if_neg (by omega), if_neg h]

theorem reverseBits_testBit (w x k : Nat) (hk : k < w) : (reverseBits w x).testBit k = x.testBit (w - 1 - k) := by
  have key : ∀ n k, ((List.range n).foldl (fun acc i => 2 * acc + (if bitOf x i then 1 else 0)) 0).testBit k
      = (decide (k < n) && x.testBit (n - 1 - k)) := by
    intro n
    induction n with
    | zero => simp
    | succ n ih =>
      intro k
      rw [List.range_succ, List.foldl_append, List.foldl_cons, List.foldl_nil, testBit_two_mul_add _ _ _ (by split <;> omega)]
      by_cases h : k = 0
      · subst h; simp [bitOf_eq]
      · rw [if_neg h, ih]
        rw [show n + 1 - 1 - k = n - 1 - (k - 1) by omega]
        congr 1
        simp; omega
  unfold reverseBits
  rw [key]; simp [hk]

theorem shiftLeft_testBit (w x n k : Nat) (hk : k < w) :
    (shiftLeft w x n).testBit k = (decide (n ≤ k) && x.testBit (k - n)) := by
  unfold shiftLeft
  split
  · simp; omega
  · rw [Nat.testBit_mod_two_pow, Nat.mul_comm, Nat.testBit_two_pow_mul]
    simp [hk]

theorem shiftRight_testBit (w x n k : Nat) :
    (shiftRight w x n).testBit k = (decide (k + n < w) && x.testBit (k + n)) := by
  unfold shiftRight
  split
  · simp; omega
  · rw [Nat.testBit_div_two_pow, Nat.testBit_mod_two_pow]

/-- The sign bit of a pattern by its size. -/
theorem lt_half_iff (w v : Nat) (hw : 0 < w) (hv : v < 2 ^ w) : v < 2 ^ (w - 1) ↔ v.testBit (w - 1) = false := by
  constructor
  · exact Nat.testBit_lt_two_pow
  · intro h
    by_contra hc
    have h2 : 2 ^ w = 2 * 2 ^ (w - 1) := by rw [← pow_succ']; congr 1; omega
    have hd : v / 2 ^ (w - 1) = 1 := by apply Nat.div_eq_of_lt_le <;> omega
    simp [Nat.testBit, Nat.shiftRight_eq_div_pow, hd] at h

theorem shiftArith_testBit (w x n k : Nat) (hk : k < w) :
    (shiftArith w x n).testBit k = x.testBit (min (k + n) (w - 1)) := by
  set v := x % 2 ^ w with hv
  have hvl : v < 2 ^ w := Nat.mod_lt _ (Nat.two_pow_pos _)
  have hb : ∀ i < w, v.testBit i = x.testBit i := by
    intro i hi; rw [hv, Nat.testBit_mod_two_pow]; simp [hi]
  have hw : 0 < w := by omega
  have hh := lt_half_iff w v hw hvl
  unfold shiftArith
  rw [← hv]
  rcases Nat.lt_or_ge n w with hn | hn
  · rw [Nat.min_eq_left (by omega)]
    have hu : v / 2 ^ n < 2 ^ (w - n) := by
      rw [Nat.div_lt_iff_lt_mul (Nat.two_pow_pos _), ← pow_add]; rwa [show w - n + n = w by omega]
    have e : toSigned w v / ((2 ^ n : Nat) : Int) = intVal true (w - n) (v / 2 ^ n) := by
      unfold intVal
      rw [if_pos rfl, Nat.mod_eq_of_lt hu]
      have hub : (v / 2 ^ n).testBit (w - n - 1) = v.testBit (w - 1) := by
        rw [Nat.testBit_div_two_pow]; congr 1; omega
      have h3 := lt_half_iff (w - n) (v / 2 ^ n) (by omega) hu
      rw [hub] at h3
      unfold toSigned
      by_cases hc : v < 2 ^ (w - 1)
      · rw [if_pos hc, if_pos (h3.mpr (hh.mp hc))]; rw [Int.natCast_ediv]
      · rw [if_neg hc, if_neg (fun q => hc (hh.mpr (h3.mp q)))]
        have : ((2 ^ w : Nat) : Int) = ((2 ^ (w - n) : Nat) : Int) * ((2 ^ n : Nat) : Int) := by
          rw [← Nat.cast_mul, ← pow_add, show w - n + n = w by omega]
        rw [this, Int.sub_mul_ediv_right _ _ (by positivity), Int.natCast_ediv]
    rw [e, testBit_wrap_intVal _ _ _ _ _ (by omega) hk]
    by_cases h : k < w - n
    · rw [if_pos h, Nat.testBit_div_two_pow, hb _ (by omega), Nat.min_eq_left (by omega), Nat.add_comm]
    · rw [if_neg h, Nat.testBit_div_two_pow, Nat.min_eq_right (by omega), hb _ (by omega), Bool.true_and]; congr 1; omega
  · rw [Nat.min_eq_right (by omega), Nat.min_eq_right (by omega), ← hb _ (by omega)]
    unfold toSigned
    by_cases hc : v < 2 ^ (w - 1)
    · rw [if_pos hc, hh.mp hc]
      have : ((v : Int) / ((2 ^ w : Nat) : Int)) = 0 := Int.ediv_eq_zero_of_lt (by positivity) (by exact_mod_cast hvl)
      rw [this]; simp [wrap]
    · rw [if_neg hc]
      have hbit : v.testBit (w - 1) = true := by
        cases hq : v.testBit (w - 1)
        · exact absurd (hh.mpr hq) hc
        · rfl
      have : (((v : Int) - ((2 ^ w : Nat) : Int)) / ((2 ^ w : Nat) : Int)) = -1 := by
        rw [Int.sub_ediv_of_dvd _ (dvd_refl _), Int.ediv_self (by positivity), Int.ediv_eq_zero_of_lt (by positivity) (by exact_mod_cast hvl)]
        rfl
      rw [this, hbit]
      have e : wrap w (-1) = 2 ^ w - 1 := by
        unfold wrap
        have h1 : (1 : Nat) ≤ 2 ^ w := Nat.one_le_two_pow
        have : (-1 : Int) % ((2 ^ w : Nat) : Int) = ((2 ^ w - 1 : Nat) : Int) := by
          rw [show (-1 : Int) = ((2 ^ w - 1 : Nat) : Int) - ((2 ^ w : Nat) : Int) by push_cast [h1]; ring, Int.sub_emod_right,
            Int.emod_eq_of_lt (by positivity) (by exact_mod_cast (by omega : 2 ^ w - 1 < 2 ^ w))]
        rw [this, Int.toNat_natCast]
      rw [e, Nat.testBit_two_pow_sub_one]; simp [hk]

theorem rotateLeft_testBit (w x n k : Nat) (hk : k < w) :
    (rotateLeft w x n).testBit k = x.testBit ((k + w - n % w) % w) := by
  have hm : n % w < w := Nat.mod_lt _ (by omega)
  unfold rotateLeft
  simp only
  set m := n % w
  set v := x % 2 ^ w with hv
  have hvl : v < 2 ^ w := Nat.mod_lt _ (Nat.two_pow_pos _)
  have hd : v / 2 ^ (w - m) < 2 ^ m := by
    rw [Nat.div_lt_iff_lt_mul (Nat.two_pow_pos _), ← pow_add]; rwa [show m + (w - m) = w by omega]
  rw [Nat.testBit_mod_two_pow, Nat.mul_comm, Nat.testBit_two_pow_mul_add _ hd]
  by_cases h : k < m
  · rw [if_pos h, Nat.testBit_div_two_pow, hv, Nat.testBit_mod_two_pow, Nat.mod_eq_of_lt (show k + w - m < w by omega)]
    rw [show k + (w - m) = k + w - m by omega]; simp [hk]; omega
  · rw [if_neg h, hv, Nat.testBit_mod_two_pow, show k + w - m = (k - m) + w by omega, Nat.add_mod_right,
      Nat.mod_eq_of_lt (show k - m < w by omega)]
    simp [hk]; omega

theorem andNot_testBit (w x y k : Nat) (hk : k < w) : (andNot w x y).testBit k = (x.testBit k && !y.testBit k) := by
  unfold andNot
  rw [Nat.testBit_and]
  congr 1
  have hy : y % 2 ^ w < 2 ^ w := Nat.mod_lt _ (Nat.two_pow_pos _)
  have : 2 ^ w - 1 - y % 2 ^ w = 2 ^ w - (y % 2 ^ w + 1) := by omega
  rw [this, Nat.testBit_two_pow_sub_succ hy, Nat.testBit_mod_two_pow]
  simp [hk]

theorem insertField_testBit (w r y f k : Nat) (hk : k < w) :
    (insertField w r y f).testBit k
      = if f % 256 ≤ k ∧ k < f % 256 + f / 256 % 256 then y.testBit (k - f % 256) else r.testBit k := by
  unfold insertField
  simp only
  generalize f % 256 = pos
  generalize f / 256 % 256 = len
  have key : ∀ n, ((List.range n).foldl (fun acc i => if pos + i < w then setBits acc (pos + i) (pos + i) (if bitOf y i then 1 else 0) else acc) r).testBit k
      = if pos ≤ k ∧ k < pos + n then y.testBit (k - pos) else r.testBit k := by
    intro n
    induction n with
    | zero => rw [if_neg (by omega)]; rfl
    | succ n ih =>
      rw [List.range_succ, List.foldl_append, List.foldl_cons, List.foldl_nil]
      by_cases hp : pos + n < w
      · rw [if_pos hp, testBit_setBits _ _ _ _ _ (by omega)]
        by_cases he : k = pos + n
        · rw [if_pos (show pos + n ≤ k ∧ k ≤ pos + n by omega), if_pos (show pos ≤ k ∧ k < pos + (n + 1) by omega),
            show k - (pos + n) = 0 by omega, show k - pos = n by omega, bitOf_eq]
          cases y.testBit n <;> simp
        · rw [if_neg (by omega), ih]
          by_cases h2 : pos ≤ k ∧ k < pos + n
          · rw [if_pos h2, if_pos (by omega)]
          · rw [if_neg h2, if_neg (by omega)]
      · rw [if_neg hp, ih]
        by_cases h2 : pos ≤ k ∧ k < pos + n
        · rw [if_pos h2, if_pos (by omega)]
        · rw [if_neg h2, if_neg (by omega)]
  exact key len

/-- A number from its n low bits. -/
theorem sumBits (n : Nat) (b : Nat → Bool) :
    (List.range n).foldl (fun acc i => acc + (if b i then 2 ^ i else 0)) 0 < 2 ^ n
      ∧ ∀ i < n, ((List.range n).foldl (fun acc i => acc + (if b i then 2 ^ i else 0)) 0).testBit i = b i := by
  induction n with
  | zero => simp
  | succ n ih =>
    rw [List.range_succ, List.foldl_append, List.foldl_cons, List.foldl_nil]
    obtain ⟨h1, h2⟩ := ih
    set v := (List.range n).foldl (fun acc i => acc + (if b i then 2 ^ i else 0)) 0
    have e : v + (if b n then 2 ^ n else 0) = 2 ^ n * (if b n then 1 else 0) + v := by split <;> omega
    rw [e]
    refine ⟨?_, ?_⟩
    · rw [pow_succ]; split <;> omega
    · intro i hi
      rw [Nat.testBit_two_pow_mul_add _ h1]
      by_cases h : i < n
      · rw [if_pos h, h2 i h]
      · rw [if_neg h, show i - n = 0 by omega, show i = n by omega]; cases b n <;> simp

theorem toSigned_toInt (imm : Word) : toSigned 32 imm.toNat = imm.toInt := by
  unfold toSigned; rw [BitVec.toInt_eq_toNat_cond]; simp; split <;> split <;> omega

theorem ixWord_bit (v k : Nat) (hk : k < 32) : (ixWord v).getLsbD k = (v.testBit k && decide (k < 9 ∨ 10 ≤ k ∧ k < 29)) := by
  have e : v % 2 ^ 29 - v % 2 ^ 10 + v % 2 ^ 9 = 2 ^ 10 * (v / 2 ^ 10 % 2 ^ 19) + v % 2 ^ 9 := by omega
  unfold ixWord
  rw [e, BitVec.getLsbD_ofNat, Nat.testBit_two_pow_mul_add _ (by omega), Nat.testBit_mod_two_pow, Nat.testBit_mod_two_pow,
    Nat.testBit_div_two_pow]
  by_cases h : k < 10
  · simp only [hk, h, if_true, decide_true, Bool.true_and]; rw [Bool.and_comm]; congr 2; simp; omega
  · simp only [hk, h, if_false, decide_true, Bool.true_and]; rw [Bool.and_comm, show k - 10 + 10 = k by omega]; congr 2; simp; omega

end Sys2Proof.Machine
end

