-- ==== Sys2Proof/Laws/Encoding.lean ====
section
/-! SUPPORT. Fields of the encoding read back: each operand, code and group of fields written into its place is what the
decoder reads there. -/

namespace Sys2Proof

/-! ### Appended fields as numbers -/

theorem toNat_app {n m : Nat} (x : BitVec n) (y : BitVec m) : (x ++ y).toNat = y.toNat + 2 ^ m * x.toNat := by
  rw [BitVec.toNat_append, Nat.shiftLeft_eq, Nat.mul_comm, ← Nat.two_pow_add_eq_or_of_lt y.isLt, Nat.add_comm]

theorem bit_num {n : Nat} (x : BitVec n) (k : Nat) : x.getLsbD k = decide (x.toNat / 2 ^ k % 2 = 1) := by
  rw [BitVec.getLsbD, Nat.testBit_eq_decide_div_mod_eq]

theorem ofBool_num (b : Bool) : (BitVec.ofBool b).toNat = b.toNat := by cases b <;> rfl

theorem bool_num (b : Bool) (n : Nat) (h : n = b.toNat) : decide (n = 1) = b := by subst h; cases b <;> rfl

theorem low_app {n m : Nat} (x : BitVec n) (y : BitVec m) : (x ++ y).extractLsb' 0 m = y := by
  apply BitVec.eq_of_toNat_eq
  rw [BitVec.extractLsb'_toNat, toNat_app, Nat.shiftRight_zero, Nat.add_mul_mod_self_left, Nat.mod_eq_of_lt y.isLt]

theorem high_app {n m : Nat} (x : BitVec n) (y : BitVec m) : (x ++ y).extractLsb' m n = x := by
  apply BitVec.eq_of_toNat_eq
  rw [BitVec.extractLsb'_toNat, toNat_app, Nat.shiftRight_eq_div_pow, Nat.add_mul_div_left _ _ (Nat.two_pow_pos m),
    Nat.div_eq_of_lt y.isLt, Nat.zero_add, Nat.mod_eq_of_lt x.isLt]

/-! ### Operands, guards, predicates, types -/

@[simp] theorem Opnd.ofField_toField (o : Opnd) : Opnd.ofField o.toField = .ok o := by
  cases o with
  | reg w s =>
    have h1 : (s ++ w.code).extractLsb' 0 3 = w.code := low_app s w.code
    have h2 : (s ++ w.code).extractLsb' 3 9 = s := high_app s w.code
    simp only [Opnd.toField, Opnd.ofField, h1, h2]
    cases w <;> simp [Width.code]
  | uni k =>
    have h1 : ((0#2 ++ k) ++ 6#3).extractLsb' 0 3 = 6#3 := low_app _ _
    have h2 : ((0#2 ++ k) ++ 6#3).extractLsb' 3 9 = 0#2 ++ k := high_app (0#2 ++ k) 6#3
    have h3 : (0#2 ++ k).extractLsb' 7 2 = 0#2 := high_app 0#2 k
    have h4 : (0#2 ++ k).extractLsb' 0 7 = k := low_app 0#2 k
    simp only [Opnd.toField, Opnd.ofField, h1, h2, h3, h4]
    simp
  | imm v =>
    have h1 : (v ++ 7#3).extractLsb' 0 3 = 7#3 := low_app _ _
    have h2 : (v ++ 7#3).extractLsb' 3 9 = v := high_app v 7#3
    simp only [Opnd.toField, Opnd.ofField, h1, h2]
    simp

@[simp] theorem Guard.ofField_toField (g : Guard) : Guard.ofField g.toField = g := by
  obtain ⟨n, p⟩ := g; revert n p; decide

@[simp] theorem pdstOf_pdstField (p : BitVec 3) : pdstOf (pdstField p) = .ok p := by revert p; decide

@[simp] theorem PSrc.ofField_toField (q : PSrc) : PSrc.ofField q.toField = .ok q := by
  obtain ⟨n, p⟩ := q; revert n p; decide

@[simp] theorem PSrc.ofSelCode_selCode (q : PSrc) : PSrc.ofSelCode q.selCode = q := by
  obtain ⟨n, p⟩ := q; revert n p; decide

@[simp] theorem Ty.ofCode_code (t : Ty) : Ty.ofCode t.code = t := by cases t <;> rfl

/-! ### Sub-codes -/

@[simp] theorem Swz.ofCode_code (x : Swz) : Swz.ofCode x.code = .ok x := by cases x <;> rfl
@[simp] theorem Rnd.ofCode_code (x : Rnd) : Rnd.ofCode x.code = .ok x := by cases x <;> rfl
@[simp] theorem Flush.ofCode_code (x : Flush) : Flush.ofCode x.code = .ok x := by cases x <;> rfl
@[simp] theorem FMode.ofCode_code (x : FMode) : FMode.ofCode x.code = .ok x := by
  obtain ⟨a, b⟩ := x; cases a <;> cases b <;> rfl
@[simp] theorem MulMod.ofCode_code (x : MulMod) : MulMod.ofCode x.code = .ok x := by cases x <;> rfl
@[simp] theorem Cmp.ofCode_code (x : Cmp) : Cmp.ofCode x.code = .ok x := by cases x <;> rfl
@[simp] theorem FCmp.ofCode_code (x : FCmp) : FCmp.ofCode x.code = .ok x := by cases x <;> rfl
@[simp] theorem RedOp.ofCode_code (x : RedOp) : RedOp.ofCode x.code = .ok x := by cases x <;> rfl
@[simp] theorem AtomOp.ofCode_code (x : AtomOp) : AtomOp.ofCode x.code = .ok x := by
  cases x with
  | red op => cases op <;> rfl
  | xchg => rfl
@[simp] theorem ShflOp.ofCode_code (x : ShflOp) : ShflOp.ofCode x.code = .ok x := by cases x <;> rfl
@[simp] theorem VoteOp.ofCode_code (x : VoteOp) : VoteOp.ofCode x.code = .ok x := by cases x <;> rfl
@[simp] theorem SfnOp.ofCode_code (x : SfnOp) : SfnOp.ofCode x.code = .ok x := by cases x <;> rfl
@[simp] theorem Scope.ofCode_code (x : Scope) : Scope.ofCode x.code = .ok x := by cases x <;> rfl
@[simp] theorem FenceKind.ofCode_code (x : FenceKind) : FenceKind.ofCode x.code = .ok x := by cases x <;> rfl
@[simp] theorem SparsePat.ofCode_code (x : SparsePat) : SparsePat.ofCode x.code = .ok x := by cases x <;> rfl
@[simp] theorem DrainOp.ofCode_code (x : DrainOp) : DrainOp.ofCode x.code = .ok x := by cases x <;> rfl
@[simp] theorem VerdictOp.ofCode_code (x : VerdictOp) : VerdictOp.ofCode x.code = .ok x := by cases x <;> rfl
@[simp] theorem CapField.ofCode_code (x : CapField) : CapField.ofCode x.code = .ok x := by cases x <;> rfl
@[simp] theorem TopkOp.ofCode_code (x : TopkOp) : TopkOp.ofCode x.code = .ok x := by cases x <;> rfl
@[simp] theorem CopyDir.ofCode_code (x : CopyDir) : CopyDir.ofCode x.code = x := by cases x <;> rfl
@[simp] theorem Space.ofCode_code (x : Space) : Space.ofCode x.code = .ok x := by cases x <;> rfl

/-! ### MOD flags and pairs -/

@[simp] theorem modBit_zero (b : Bool) : (modBit 0 b).getLsbD 0 = b := by cases b <;> rfl
@[simp] theorem modBit_one (b : Bool) : (modBit 1 b).getLsbD 1 = b := by cases b <;> rfl
@[simp] theorem modBits_zero (a b : Bool) : (modBit 0 a ||| modBit 1 b).getLsbD 0 = a := by cases a <;> cases b <;> rfl
@[simp] theorem modBits_one (a b : Bool) : (modBit 0 a ||| modBit 1 b).getLsbD 1 = b := by cases a <;> cases b <;> rfl
@[simp] theorem ixMod_read (j : BitVec 2) : (0#2 ++ j ++ 0#1).getLsbD 0 = false ∧ (0#2 ++ j ++ 0#1).extractLsb' 1 2 = j := by
  revert j; decide
@[simp] theorem ixMod_write (j : BitVec 2) : (0#2 ++ j ++ 1#1).getLsbD 0 = true ∧ (0#2 ++ j ++ 1#1).extractLsb' 1 2 = j := by
  revert j; decide
theorem flushMod (x : Flush) (c : BitVec 3) : (x.code ++ c).extractLsb' 3 2 = x.code ∧ (x.code ++ c).extractLsb' 0 3 = c :=
  ⟨high_app x.code c, low_app x.code c⟩
theorem fcmpMod (b : Bool) (x : FCmp) :
    (BitVec.ofBool b ++ x.code).extractLsb' 0 4 = x.code ∧ (BitVec.ofBool b ++ x.code).getLsbD 4 = b := by
  cases b <;> cases x <;> decide
theorem fenceMod (k : FenceKind) (x : Scope) :
    (k.code ++ x.code).extractLsb' 3 2 = k.code ∧ (k.code ++ x.code).extractLsb' 0 3 = x.code :=
  ⟨high_app k.code x.code, low_app k.code x.code⟩
theorem scopeMod (x : Scope) : (0#2 ++ x.code).extractLsb' 0 3 = x.code := low_app 0#2 x.code
theorem plopMod (t : BitVec 4) : (0#1 ++ t).extractLsb' 0 4 = t := low_app 0#1 t
theorem drainMod (b : Bool) (x : DrainOp) :
    (modBit 2 b ||| (0#3 ++ x.code)).extractLsb' 0 2 = x.code ∧ (modBit 2 b ||| (0#3 ++ x.code)).getLsbD 2 = b := by
  cases b <;> cases x <;> decide
@[simp] theorem cvtModes_control (m : FMode) (b : Bool) : cvtModes (cvtControl m b) = .ok m := by
  obtain ⟨r, f⟩ := m; cases r <;> cases f <;> cases b <;> rfl
@[simp] theorem cvtControl_sat (m : FMode) (b : Bool) : (cvtControl m b).getLsbD 3 = b := by
  obtain ⟨r, f⟩ := m; cases r <;> cases f <;> cases b <;> rfl

/-! ### Upper words -/

@[simp] theorem src3Of_app (o : BitVec 12) : src3Of (0#20 ++ o) = o := low_app 0#20 o

theorem XCtl.parts (x : XCtl) (c : BitVec 12) :
    src3Of (x.toWord c) = c ∧ (x.toWord c).extractLsb' 12 3 = x.sw1.code ∧ (x.toWord c).extractLsb' 15 3 = x.sw2.code
    ∧ (x.toWord c).extractLsb' 18 3 = x.sw3.code ∧ (x.toWord c).extractLsb' 21 2 = x.ixr ∧ (x.toWord c).getLsbD 23 = x.ix3
    ∧ (x.toWord c).getLsbD 24 = x.ix2 ∧ (x.toWord c).getLsbD 25 = x.ix1 ∧ (x.toWord c).getLsbD 26 = x.ixD := by
  have n : (x.toWord c).toNat = c.toNat + 2 ^ 12 * (x.sw1.code.toNat + 2 ^ 3 * (x.sw2.code.toNat + 2 ^ 3 * (x.sw3.code.toNat
      + 2 ^ 3 * (x.ixr.toNat + 2 ^ 2 * (x.ix3.toNat + 2 * (x.ix2.toNat + 2 * (x.ix1.toNat + 2 * x.ixD.toNat))))))) := by
    have e : (x.toWord c).toNat = BitVec.toNat (w := 5 + 1 + 1 + 1 + 1 + 2 + 3 + 3 + 3 + 12)
        (0#5 ++ BitVec.ofBool x.ixD ++ BitVec.ofBool x.ix1 ++ BitVec.ofBool x.ix2 ++ BitVec.ofBool x.ix3 ++ x.ixr
          ++ x.sw3.code ++ x.sw2.code ++ x.sw1.code ++ c) := rfl
    rw [e]
    simp only [toNat_app, ofBool_num]
    rfl
  have h1 := c.isLt; have h2 := x.sw1.code.isLt; have h3 := x.sw2.code.isLt; have h4 := x.sw3.code.isLt; have h5 := x.ixr.isLt
  have b1 := x.ix3.toNat_le; have b2 := x.ix2.toNat_le; have b3 := x.ix1.toNat_le; have b4 := x.ixD.toNat_le
  refine ⟨?_, ?_, ?_, ?_, ?_, ?_, ?_, ?_, ?_⟩
  iterate 5
    apply BitVec.eq_of_toNat_eq
    simp only [src3Of, BitVec.extractLsb'_toNat, Nat.shiftRight_eq_div_pow, n]
    omega
  all_goals
    rw [bit_num]
    apply bool_num
    rw [n]
    omega

@[simp] theorem XCtl.ofWord_toWord (x : XCtl) (c : BitVec 12) : XCtl.ofWord (x.toWord c) = .ok x := by
  obtain ⟨-, h1, h2, h3, h4, h5, h6, h7, h8⟩ := x.parts c
  simp only [XCtl.ofWord, h1, h2, h3, h4, h5, h6, h7, h8, Swz.ofCode_code]; rfl

@[simp] theorem src3Of_toWord (x : XCtl) (c : BitVec 12) : src3Of (x.toWord c) = c := (x.parts c).1

@[simp] theorem WordRef.ofWord_toWord (w : WordRef) : WordRef.ofWord w.toWord = .ok w := by
  have n : w.toWord.toNat = w.num.toNat + 2 ^ 16 * (w.die.toNat + 2 ^ 4 * (2 ^ 10 * w.space.code.toNat)) := by
    have e : w.toWord.toNat = BitVec.toNat (w := 2 + 10 + 4 + 16) (w.space.code ++ 0#10 ++ w.die ++ w.num) := rfl
    rw [e]; simp only [toNat_app]; rw [show (0#10).toNat = 0 from rfl]; omega
  have h1 := w.num.isLt; have h2 := w.die.isLt; have h3 := w.space.code.isLt
  have a1 : w.toWord.extractLsb' 30 2 = w.space.code := by
    apply BitVec.eq_of_toNat_eq; simp only [BitVec.extractLsb'_toNat, Nat.shiftRight_eq_div_pow, n]; omega
  have a2 : w.toWord.extractLsb' 16 4 = w.die := by
    apply BitVec.eq_of_toNat_eq; simp only [BitVec.extractLsb'_toNat, Nat.shiftRight_eq_div_pow, n]; omega
  have a3 : w.toWord.extractLsb' 0 16 = w.num := by
    apply BitVec.eq_of_toNat_eq; simp only [BitVec.extractLsb'_toNat, Nat.shiftRight_eq_div_pow, n]; omega
  simp only [WordRef.ofWord, a1, a2, a3, Space.ofCode_code]; rfl

@[simp] theorem up_halves (v : BitVec 64) : v.extractLsb' 32 32 ++ v.extractLsb' 0 32 = v := by
  apply BitVec.eq_of_toNat_eq
  rw [toNat_app]
  simp only [BitVec.extractLsb'_toNat, Nat.shiftRight_eq_div_pow]
  have := v.isLt
  omega

@[simp] theorem MmaUp.ofWord_toWord (u : MmaUp) : MmaUp.ofWord u.toWord = u := by
  have n : u.toWord.toNat = u.asrc.toNat + 2 * (u.npm.toNat + 2 ^ 6 * (u.astr.toNat + 2 ^ 9 * (u.ftz.toNat + 2 * (u.scl.toNat
      + 2 * (u.half.toNat + 2 * (u.boff.toNat + 2 ^ 16 * (u.bm.toNat + 2 ^ 8 * (u.tile.toNat + 2 ^ 5 * u.ver.toNat)))))))) := by
    have e : u.toWord.toNat = BitVec.toNat (w := 16 + 5 + 8 + 16 + 1 + 1 + 1 + 9 + 6 + 1)
      (u.ver ++ u.tile ++ u.bm ++ u.boff ++ BitVec.ofBool u.half ++ BitVec.ofBool u.scl ++ BitVec.ofBool u.ftz ++ u.astr
        ++ u.npm ++ BitVec.ofBool u.asrc) := rfl
    rw [e]; simp only [toNat_app, ofBool_num]; rfl
  have h1 := u.ver.isLt; have h2 := u.tile.isLt; have h3 := u.bm.isLt; have h4 := u.boff.isLt; have h5 := u.astr.isLt
  have h6 := u.npm.isLt
  have b1 := u.asrc.toNat_le; have b2 := u.ftz.toNat_le; have b3 := u.scl.toNat_le; have b4 := u.half.toNat_le
  obtain ⟨ver, tile, bm, boff, half, scl, ftz, astr, npm, asrc⟩ := u
  simp only [MmaUp.ofWord, MmaUp.mk.injEq, bit_num] at *
  refine ⟨?_, ?_, ?_, ?_, ?_, ?_, ?_, ?_, ?_, ?_⟩
  all_goals
    first
    | (apply bool_num; rw [n]; omega)
    | (apply BitVec.eq_of_toNat_eq; simp only [BitVec.extractLsb'_toNat, Nat.shiftRight_eq_div_pow, n]; omega)

@[simp] theorem MloopUp.ofWord_toWord (u : MloopUp) : MloopUp.ofWord u.toWord = u := by
  have n : u.toWord.toNat = u.binc.toNat + 2 ^ 7 * (u.astr.toNat + 2 ^ 9 * (u.ftz.toNat + 2 * (u.scl.toNat
      + 2 * (u.half.toNat + 2 * (u.boff.toNat + 2 ^ 16 * (u.bm.toNat + 2 ^ 8 * (u.tile.toNat + 2 ^ 5 * u.ver.toNat))))))) := by
    have e : u.toWord.toNat = BitVec.toNat (w := 16 + 5 + 8 + 16 + 1 + 1 + 1 + 9 + 7)
      (u.ver ++ u.tile ++ u.bm ++ u.boff ++ BitVec.ofBool u.half ++ BitVec.ofBool u.scl ++ BitVec.ofBool u.ftz ++ u.astr
        ++ u.binc) := rfl
    rw [e]; simp only [toNat_app, ofBool_num]; rfl
  have h1 := u.ver.isLt; have h2 := u.tile.isLt; have h3 := u.bm.isLt; have h4 := u.boff.isLt; have h5 := u.astr.isLt
  have h6 := u.binc.isLt
  have b2 := u.ftz.toNat_le; have b3 := u.scl.toNat_le; have b4 := u.half.toNat_le
  obtain ⟨ver, tile, bm, boff, half, scl, ftz, astr, binc⟩ := u
  simp only [MloopUp.ofWord, MloopUp.mk.injEq, bit_num] at *
  refine ⟨?_, ?_, ?_, ?_, ?_, ?_, ?_, ?_, ?_⟩
  all_goals
    first
    | (apply bool_num; rw [n]; omega)
    | (apply BitVec.eq_of_toNat_eq; simp only [BitVec.extractLsb'_toNat, Nat.shiftRight_eq_div_pow, n]; omega)

@[simp] theorem MdrnUp.ofWord_toWord (u : MdrnUp) : MdrnUp.ofWord u.toWord = u := by
  have n : u.toWord.toNat = 2 ^ 7 * (u.pt.toNat + 2 ^ 5 * (u.rstr.toNat + 2 ^ 16 * (u.tgt.toNat + 2 * (u.npm.toNat
      + 2 ^ 6 * (u.bm.toNat + 2 ^ 8 * (u.tile.toNat + 2 ^ 5 * u.ver.toNat)))))) := by
    have e : u.toWord.toNat = BitVec.toNat (w := 16 + 5 + 8 + 6 + 1 + 16 + 5 + 7)
      (u.ver ++ u.tile ++ u.bm ++ u.npm ++ BitVec.ofBool u.tgt ++ u.rstr ++ u.pt ++ 0#7) := rfl
    rw [e]; simp only [toNat_app, ofBool_num]; rw [show (0#7).toNat = 0 from rfl]; omega
  have h1 := u.ver.isLt; have h2 := u.tile.isLt; have h3 := u.bm.isLt; have h4 := u.rstr.isLt; have h5 := u.pt.isLt
  have h6 := u.npm.isLt
  have b2 := u.tgt.toNat_le
  obtain ⟨ver, tile, bm, npm, tgt, rstr, pt⟩ := u
  simp only [MdrnUp.ofWord, MdrnUp.mk.injEq, bit_num] at *
  refine ⟨?_, ?_, ?_, ?_, ?_, ?_, ?_⟩
  all_goals
    first
    | (apply bool_num; rw [n]; omega)
    | (apply BitVec.eq_of_toNat_eq; simp only [BitVec.extractLsb'_toNat, Nat.shiftRight_eq_div_pow, n]; omega)

@[simp] theorem VdsetUp.ofWord_toWord (u : VdsetUp) : VdsetUp.ofWord u.toWord = u := by
  have n : u.toWord.toNat = 2 ^ 5 * (u.ks.toNat + 2 ^ 15 * (u.km.toNat + 2 ^ 7 * (u.nbm.toNat + 2 ^ 16 * (u.tile.toNat
      + 2 ^ 5 * u.ver.toNat)))) := by
    have e : u.toWord.toNat = BitVec.toNat (w := 16 + 5 + 16 + 7 + 15 + 5)
      (u.ver ++ u.tile ++ u.nbm ++ u.km ++ u.ks ++ 0#5) := rfl
    rw [e]; simp only [toNat_app]; rw [show (0#5).toNat = 0 from rfl]; omega
  have h1 := u.ver.isLt; have h2 := u.tile.isLt; have h3 := u.nbm.isLt; have h4 := u.km.isLt; have h5 := u.ks.isLt
  obtain ⟨ver, tile, nbm, km, ks⟩ := u
  simp only [VdsetUp.ofWord, VdsetUp.mk.injEq] at *
  refine ⟨?_, ?_, ?_, ?_, ?_⟩ <;>
  · apply BitVec.eq_of_toNat_eq; simp only [BitVec.extractLsb'_toNat, Nat.shiftRight_eq_div_pow, n]; omega

@[simp] theorem copyUp_parts (l : BitVec 16) (p : BitVec 5) (n : BitVec 6) (d : CopyDir) (o : BitVec 12) :
    (copyUp l p n d o).extractLsb' 48 16 = l ∧ (copyUp l p n d o).extractLsb' 43 5 = p ∧ (copyUp l p n d o).extractLsb' 37 6 = n
    ∧ (copyUp l p n d o).extractLsb' 33 2 = d.code ∧ (copyUp l p n d o).extractLsb' 21 12 = o := by
  have e : (copyUp l p n d o).toNat = 2 ^ 21 * (o.toNat + 2 ^ 12 * (d.code.toNat + 2 ^ 2 * (2 ^ 2 * (n.toNat + 2 ^ 6 * (p.toNat
      + 2 ^ 5 * l.toNat))))) := by
    have e : (copyUp l p n d o).toNat = BitVec.toNat (w := 16 + 5 + 6 + 2 + 2 + 12 + 21) (l ++ p ++ n ++ 0#2 ++ d.code ++ o ++ 0#21) := rfl
    rw [e]; simp only [toNat_app]; rw [show (0#21).toNat = 0 from rfl, show (0#2).toNat = 0 from rfl]; omega
  have h1 := l.isLt; have h2 := p.isLt; have h3 := n.isLt; have h4 := d.code.isLt; have h5 := o.isLt
  refine ⟨?_, ?_, ?_, ?_, ?_⟩ <;>
  · apply BitVec.eq_of_toNat_eq; simp only [BitVec.extractLsb'_toNat, Nat.shiftRight_eq_div_pow, e]; omega

@[simp] theorem copymUp_parts (l : BitVec 16) (p : BitVec 5) (m : BitVec 16) (k : Bool) :
    (copymUp l p m k).extractLsb' 48 16 = l ∧ (copymUp l p m k).extractLsb' 43 5 = p ∧ (copymUp l p m k).extractLsb' 27 16 = m
    ∧ (copymUp l p m k).getLsbD 26 = k := by
  have e : (copymUp l p m k).toNat = 2 ^ 26 * (k.toNat + 2 * (m.toNat + 2 ^ 16 * (p.toNat + 2 ^ 5 * l.toNat))) := by
    have e : (copymUp l p m k).toNat = BitVec.toNat (w := 16 + 5 + 16 + 1 + 26) (l ++ p ++ m ++ BitVec.ofBool k ++ 0#26) := rfl
    rw [e]; simp only [toNat_app, ofBool_num]; rw [show (0#26).toNat = 0 from rfl]; omega
  have h1 := l.isLt; have h2 := p.isLt; have h3 := m.isLt; have b := k.toNat_le
  refine ⟨?_, ?_, ?_, ?_⟩
  iterate 3
    apply BitVec.eq_of_toNat_eq
    simp only [BitVec.extractLsb'_toNat, Nat.shiftRight_eq_div_pow, e]
    omega
  rw [bit_num]; apply bool_num; rw [e]; omega

@[simp] theorem mldbUp_parts (l n : BitVec 16) (p : BitVec 5) (k : Bool) :
    (mldbUp l n p k).extractLsb' 48 16 = l ∧ (mldbUp l n p k).extractLsb' 32 16 = n ∧ (mldbUp l n p k).extractLsb' 27 5 = p
    ∧ (mldbUp l n p k).getLsbD 26 = k := by
  have e : (mldbUp l n p k).toNat = 2 ^ 26 * (k.toNat + 2 * (p.toNat + 2 ^ 5 * (n.toNat + 2 ^ 16 * l.toNat))) := by
    have e : (mldbUp l n p k).toNat = BitVec.toNat (w := 16 + 16 + 5 + 1 + 26) (l ++ n ++ p ++ BitVec.ofBool k ++ 0#26) := rfl
    rw [e]; simp only [toNat_app, ofBool_num]; rw [show (0#26).toNat = 0 from rfl]; omega
  have h1 := l.isLt; have h2 := p.isLt; have h3 := n.isLt; have b := k.toNat_le
  refine ⟨?_, ?_, ?_, ?_⟩
  iterate 3
    apply BitVec.eq_of_toNat_eq
    simp only [BitVec.extractLsb'_toNat, Nat.shiftRight_eq_div_pow, e]
    omega
  rw [bit_num]; apply bool_num; rw [e]; omega

@[simp] theorem mldsUp_parts (l : BitVec 16) (p : BitVec 5) (k : Bool) :
    (mldsUp l p k).extractLsb' 48 16 = l ∧ (mldsUp l p k).extractLsb' 27 5 = p ∧ (mldsUp l p k).getLsbD 26 = k := by
  have e : (mldsUp l p k).toNat = 2 ^ 26 * (k.toNat + 2 * (p.toNat + 2 ^ 5 * (2 ^ 16 * l.toNat))) := by
    have e : (mldsUp l p k).toNat = BitVec.toNat (w := 16 + 16 + 5 + 1 + 26) (l ++ 0#16 ++ p ++ BitVec.ofBool k ++ 0#26) := rfl
    rw [e]; simp only [toNat_app, ofBool_num]; rw [show (0#26).toNat = 0 from rfl, show (0#16).toNat = 0 from rfl]; omega
  have h1 := l.isLt; have h2 := p.isLt; have b := k.toNat_le
  refine ⟨?_, ?_, ?_⟩
  iterate 2
    apply BitVec.eq_of_toNat_eq
    simp only [BitVec.extractLsb'_toNat, Nat.shiftRight_eq_div_pow, e]
    omega
  rw [bit_num]; apply bool_num; rw [e]; omega

/-! ### The whole word -/

theorem Raw.toNat_toWord (r : Raw) : r.toWord.toNat = r.len.toNat + 2 ^ 2 * (r.opc.toNat + 2 ^ 8 * (r.la.toNat
    + 2 ^ 4 * (r.pred.toNat + 2 ^ 4 * (r.dst.toNat + 2 ^ 12 * (r.src1.toNat + 2 ^ 12 * (r.src2.toNat + 2 ^ 12 * (r.ty.toNat
    + 2 ^ 5 * (r.md.toNat + 2 ^ 5 * (r.lo.toNat + 2 ^ 32 * r.hi.toNat))))))))) := by
  have e : r.toWord.toNat = BitVec.toNat (w := 32 + 32 + 5 + 5 + 12 + 12 + 12 + 4 + 4 + 8 + 2)
      (r.hi ++ r.lo ++ r.md ++ r.ty ++ r.src2 ++ r.src1 ++ r.dst ++ r.pred ++ r.la ++ r.opc ++ r.len) := rfl
  rw [e]
  simp only [toNat_app]

/-- The fields of the word of some fields are those fields. -/
@[simp] theorem Raw.ofWord_toWord (r : Raw) : Raw.ofWord r.toWord = r := by
  have n := r.toNat_toWord
  obtain ⟨hi, lo, md, ty, src2, src1, dst, pred, la, opc, len⟩ := r
  simp only [Raw.ofWord, Raw.mk.injEq]
  have h1 := hi.isLt; have h2 := lo.isLt; have h3 := md.isLt; have h4 := ty.isLt; have h5 := src2.isLt; have h6 := src1.isLt
  have h7 := dst.isLt; have h8 := pred.isLt; have h9 := la.isLt; have h10 := opc.isLt; have h11 := len.isLt
  refine ⟨?_, ?_, ?_, ?_, ?_, ?_, ?_, ?_, ?_, ?_, ?_⟩ <;>
  · apply BitVec.eq_of_toNat_eq
    simp only [BitVec.extractLsb'_toNat, Nat.shiftRight_eq_div_pow, n]
    omega

end Sys2Proof
end

