-- ==== Sys2Proof/Laws/Tables.lean ====
section
/-! SUPPORT. Tables: a read after a put, a deletion or a change. Memories: read after write, and the canonical form, which
every memory operation keeps. -/

namespace Sys2Proof.Machine

/-! ### Tables -/

theorem Tbl.look_put {α : Type} (k j : Nat) (v : α) (t : Tbl α) :
    Tbl.look j (Tbl.put k v t) = if j = k then some v else Tbl.look j t := by
  induction t with
  | nil => simp only [Tbl.put, Tbl.look]; split <;> simp_all [eq_comm]
  | cons p r ih =>
    obtain ⟨i, w⟩ := p
    simp only [Tbl.put]
    split
    · simp only [Tbl.look]; split <;> simp_all [eq_comm]
    · split
      · subst i; simp only [Tbl.look]; split <;> simp_all [eq_comm]
      · simp only [Tbl.look, ih]
        by_cases h : i = j
        · subst h; simp only [if_true]; rw [if_neg (by omega)]
        · simp only [if_neg h]

theorem Tbl.look_del {α : Type} (k j : Nat) (t : Tbl α) : Tbl.look j (Tbl.del k t) = if j = k then none else Tbl.look j t := by
  induction t with
  | nil => simp [Tbl.del, Tbl.look]
  | cons p r ih =>
    obtain ⟨i, w⟩ := p
    simp only [Tbl.del]
    split
    · subst i; rw [ih]; simp only [Tbl.look]; split <;> simp_all [eq_comm]
    · simp only [Tbl.look, ih]; split <;> simp_all

theorem Tbl.look_alter {α : Type} (k j : Nat) (f : α → α) (t : Tbl α) :
    Tbl.look j (Tbl.alter k f t) = if j = k then (Tbl.look j t).map f else Tbl.look j t := by
  induction t with
  | nil => simp [Tbl.alter, Tbl.look]
  | cons p r ih =>
    obtain ⟨i, w⟩ := p
    simp only [Tbl.alter]
    by_cases h : i = k
    · subst h; simp only [if_true, Tbl.look]; split <;> simp_all [eq_comm]
    · simp only [if_neg h, Tbl.look, ih]; split <;> simp_all

theorem Tbl.alter_alter {α : Type} (k : Nat) (f g : α → α) (t : Tbl α) :
    Tbl.alter k f (Tbl.alter k g t) = Tbl.alter k (fun x => f (g x)) t := by
  induction t with
  | nil => rfl
  | cons p r ih =>
    obtain ⟨i, w⟩ := p
    by_cases h : i = k
    · simp [Tbl.alter, h]
    · simp [Tbl.alter, h, ih]

theorem Tbl.get_put {α : Type} (k j : Nat) (v d : α) (t : Tbl α) :
    Tbl.get (Tbl.put k v t) j d = if j = k then v else Tbl.get t j d := by
  simp only [Tbl.get, Tbl.look_put]; split <;> rfl

theorem Tbl.get_del {α : Type} (k j : Nat) (d : α) (t : Tbl α) : Tbl.get (Tbl.del k t) j d = if j = k then d else Tbl.get t j d := by
  simp only [Tbl.get, Tbl.look_del]; split <;> rfl

/-- Every number of the table is at least k. -/
def Tbl.from {α : Type} (k : Nat) (t : Tbl α) : Prop := ∀ p ∈ t, k ≤ p.1

theorem Tbl.rising_cons {α : Type} (p : Nat × α) (t : Tbl α) :
    Tbl.rising (p :: t) = true ↔ Tbl.rising t = true ∧ Tbl.from (p.1 + 1) t := by
  induction t generalizing p with
  | nil => simp [Tbl.rising, Tbl.from]
  | cons q r ih =>
    obtain ⟨i, v⟩ := p
    obtain ⟨j, w⟩ := q
    simp only [Tbl.rising, Bool.and_eq_true, decide_eq_true_eq]
    constructor
    · rintro ⟨h, hr⟩
      refine ⟨hr, fun x hx => ?_⟩
      rcases List.mem_cons.mp hx with rfl | hx
      · exact h
      · have := ((ih (j, w)).mp hr).2 x hx
        simp only at this ⊢; omega
    · rintro ⟨hr, hf⟩
      exact ⟨hf (j, w) (by simp), hr⟩

theorem Tbl.from_put {α : Type} {m k : Nat} {v : α} {t : Tbl α} (h : Tbl.from m t) (hk : m ≤ k) : Tbl.from m (Tbl.put k v t) := by
  induction t with
  | nil => intro p hp; simp only [Tbl.put, List.mem_singleton] at hp; subst hp; exact hk
  | cons q r ih =>
    obtain ⟨j, w⟩ := q
    have hr : Tbl.from m r := fun p hp => h p (List.mem_cons_of_mem _ hp)
    intro p hp
    simp only [Tbl.put] at hp
    split at hp
    · rcases List.mem_cons.mp hp with rfl | hp
      · exact hk
      · exact h p hp
    · split at hp
      · rcases List.mem_cons.mp hp with rfl | hp
        · exact hk
        · exact hr p hp
      · rcases List.mem_cons.mp hp with rfl | hp
        · exact h (j, w) (by simp)
        · exact ih hr p hp

theorem Tbl.mem_del {α : Type} {k : Nat} {t : Tbl α} {p : Nat × α} (h : p ∈ Tbl.del k t) : p ∈ t := by
  induction t with
  | nil => simp [Tbl.del] at h
  | cons q r ih =>
    obtain ⟨j, w⟩ := q
    simp only [Tbl.del] at h
    split at h
    · exact List.mem_cons_of_mem _ (ih h)
    · rcases List.mem_cons.mp h with rfl | h
      · simp
      · exact List.mem_cons_of_mem _ (ih h)

theorem Tbl.rising_put {α : Type} (k : Nat) (v : α) (t : Tbl α) (h : Tbl.rising t = true) : Tbl.rising (Tbl.put k v t) = true := by
  induction t with
  | nil => rfl
  | cons q r ih =>
    obtain ⟨j, w⟩ := q
    obtain ⟨hr, hf⟩ := (Tbl.rising_cons _ _).mp h
    simp only [Tbl.put]
    split
    · rename_i hkj
      refine (Tbl.rising_cons _ _).mpr ⟨h, fun p hp => ?_⟩
      rcases List.mem_cons.mp hp with rfl | hp
      · exact hkj
      · have := hf p hp; simp only at this ⊢; omega
    · split
      · subst j; exact (Tbl.rising_cons _ _).mpr ⟨hr, hf⟩
      · exact (Tbl.rising_cons _ _).mpr ⟨ih hr, Tbl.from_put hf (by simp only; omega)⟩

theorem Tbl.rising_del {α : Type} (k : Nat) (t : Tbl α) (h : Tbl.rising t = true) : Tbl.rising (Tbl.del k t) = true := by
  induction t with
  | nil => rfl
  | cons q r ih =>
    obtain ⟨j, w⟩ := q
    obtain ⟨hr, hf⟩ := (Tbl.rising_cons _ _).mp h
    simp only [Tbl.del]
    split
    · exact ih hr
    · exact (Tbl.rising_cons _ _).mpr ⟨ih hr, fun p hp => hf p (Tbl.mem_del hp)⟩

/-! ### Memories -/

theorem Memory.byte_set (m : Memory) (a b : Nat) (v : Byte) : (m.set a v).byte b = if b = a then v else m.byte b := by
  unfold Memory.set Memory.byte
  split
  · subst v; rw [Tbl.get_del]
  · rw [Tbl.get_put]

theorem Memory.wf_set (m : Memory) (a : Nat) (v : Byte) (h : m.wf = true) : (m.set a v).wf = true := by
  simp only [Memory.wf, Bool.and_eq_true, List.all_eq_true] at h ⊢
  unfold Memory.set
  split
  · exact ⟨Tbl.rising_del _ _ h.1, fun p hp => h.2 p (Tbl.mem_del hp)⟩
  · rename_i hv
    refine ⟨Tbl.rising_put _ _ _ h.1, fun p hp => ?_⟩
    have key : ∀ (t : Memory), (∀ q ∈ t, (q.2 != 0#8) = true) → ∀ q ∈ Tbl.put a v t, (q.2 != 0#8) = true := by
      intro t
      induction t with
      | nil => intro _ q hq; simp only [Tbl.put, List.mem_singleton] at hq; subst hq; simpa using hv
      | cons x r ih =>
        obtain ⟨j, w⟩ := x
        intro ht q hq
        simp only [Tbl.put] at hq
        split at hq
        · rcases List.mem_cons.mp hq with rfl | hq
          · simpa using hv
          · exact ht q hq
        · split at hq
          · rcases List.mem_cons.mp hq with rfl | hq
            · simpa using hv
            · exact ht q (List.mem_cons_of_mem _ hq)
          · rcases List.mem_cons.mp hq with rfl | hq
            · exact ht _ (by simp)
            · exact ih (fun x hx => ht x (List.mem_cons_of_mem _ hx)) q hq
    exact key m h.2 p hp

theorem Memory.byte_write (m : Memory) (a b : Nat) (bs : List Byte) :
    (m.write a bs).byte b = if a ≤ b ∧ b < a + bs.length then bs.getD (b - a) 0#8 else m.byte b := by
  induction bs generalizing m a with
  | nil => simp only [Memory.write, List.length_nil]; rw [if_neg (by omega)]
  | cons x r ih =>
    simp only [Memory.write, ih, Memory.byte_set, List.length_cons]
    by_cases h1 : b = a
    · subst h1; simp
    · by_cases h2 : a + 1 ≤ b ∧ b < a + 1 + r.length
      · rw [if_pos h2, if_pos (by omega), show b - a = (b - (a + 1)) + 1 by omega, List.getD_cons_succ]
      · rw [if_neg h2, if_neg h1, if_neg (by omega)]

theorem Memory.wf_write (m : Memory) (a : Nat) (bs : List Byte) (h : m.wf = true) : (m.write a bs).wf = true := by
  induction bs generalizing m a with
  | nil => exact h
  | cons x r ih => exact ih _ _ (Memory.wf_set m a x h)

/-- Two memories in canonical form that read alike are equal data. -/
theorem Memory.ext_of_wf (m n : Memory) (hm : m.wf = true) (hn : n.wf = true) (h : ∀ a, m.byte a = n.byte a) : m = n := by
  simp only [Memory.wf, Bool.and_eq_true, List.all_eq_true] at hm hn
  have low : ∀ (t : Memory) (k : Nat), Tbl.from (k + 1) t → Tbl.look k t = none := by
    intro t k
    induction t with
    | nil => intro _; rfl
    | cons q r ih =>
      obtain ⟨j, w⟩ := q
      intro hf
      have := hf (j, w) (by simp)
      simp only at this
      simp only [Tbl.look]
      rw [if_neg (by omega)]
      exact ih (fun p hp => hf p (List.mem_cons_of_mem _ hp))
  induction m generalizing n with
  | nil =>
    cases n with
    | nil => rfl
    | cons q r =>
      obtain ⟨j, w⟩ := q
      have hw := hn.2 (j, w) (by simp)
      have := h j
      simp [Memory.byte, Tbl.get, Tbl.look] at this hw
      exact absurd this.symm hw
  | cons p t ih =>
    obtain ⟨i, v⟩ := p
    have hv := hm.2 (i, v) (by simp)
    obtain ⟨hmr, hmf⟩ := (Tbl.rising_cons _ _).mp hm.1
    cases n with
    | nil =>
      have := h i
      simp [Memory.byte, Tbl.get, Tbl.look] at this hv
      exact absurd this hv
    | cons q r =>
      obtain ⟨j, w⟩ := q
      have hw := hn.2 (j, w) (by simp)
      obtain ⟨hnr, hnf⟩ := (Tbl.rising_cons _ _).mp hn.1
      have hij : i = j := by
        rcases Nat.lt_trichotomy i j with hl | he | hl
        · have := h i
          have e : Tbl.look i r = none := low r i (fun p hp => by have := hnf p hp; simp only at this; omega)
          simp only [Memory.byte, Tbl.get, Tbl.look, if_neg (show ¬ j = i by omega), e] at this
          simp at this hv; exact absurd this hv
        · exact he
        · have := h j
          have e : Tbl.look j t = none := low t j (fun p hp => by have := hmf p hp; simp only at this; omega)
          simp only [Memory.byte, Tbl.get, Tbl.look, if_neg (show ¬ i = j by omega), e] at this
          simp at this hw; exact absurd this.symm hw
      subst hij
      have hvw : v = w := by have := h i; simpa [Memory.byte, Tbl.get, Tbl.look] using this
      subst hvw
      congr 1
      refine ih r (fun a => ?_) ⟨hmr, fun p hp => hm.2 p (List.mem_cons_of_mem _ hp)⟩ ⟨hnr, fun p hp => hn.2 p (List.mem_cons_of_mem _ hp)⟩
      by_cases ha : a = i
      · subst ha
        have e1 := low t a hmf
        have e2 := low r a hnf
        simp [Memory.byte, Tbl.get, e1, e2]
      · have := h a
        simpa only [Memory.byte, Tbl.get, Tbl.look, if_neg (show ¬ i = a from fun x => ha x.symm)] using this

/-! ### Package memory -/

theorem State.physByte_physSet (s : State) (pa a : Nat) (b : Byte) :
    (s.physSet pa b).physByte a = if s.cell? a = s.cell? pa ∧ (s.cell? pa).isSome = true then b else s.physByte a := by
  have hc : ∀ x, (s.physSet pa b).cell? x = s.cell? x := by
    intro x; unfold State.physSet; split <;> rfl
  simp only [State.physByte, hc]
  unfold State.physSet
  cases hp : s.cell? pa with
  | none => simp
  | some c =>
    cases ha : s.cell? a with
    | none => simp
    | some d => simp [Memory.byte_set]

theorem State.physSet_wf (s : State) (pa : Nat) (b : Byte) (h : s.mem.wf = true) : (s.physSet pa b).mem.wf = true := by
  unfold State.physSet
  split
  · exact Memory.wf_set _ _ _ h
  · exact h

theorem State.physWrite_wf (s : State) (pa : Nat) (bs : List Byte) (h : s.mem.wf = true) : (s.physWrite pa bs).mem.wf = true := by
  induction bs generalizing s pa with
  | nil => exact h
  | cons b r ih => exact ih _ _ (s.physSet_wf pa b h)

/-- A byte write of package memory changes memory alone. -/
theorem State.physSet_eq (s : State) (pa : Nat) (b : Byte) : s.physSet pa b = { s with mem := (s.physSet pa b).mem } := by
  unfold State.physSet; split <;> rfl

theorem State.setUnitTag_eq (s : State) (pa : Nat) (v : Bool) : s.setUnitTag pa v = { s with tags := (s.setUnitTag pa v).tags } := by
  unfold State.setUnitTag; split <;> rfl

theorem State.physWrite_eq (s : State) (pa : Nat) (bs : List Byte) : s.physWrite pa bs = { s with mem := (s.physWrite pa bs).mem } := by
  induction bs generalizing s pa with
  | nil => rfl
  | cons b r ih =>
    have e := ih (s.physSet pa b) (pa + 1)
    have k : ∀ m, ({ s.physSet pa b with mem := m } : State) = { s with mem := m } := by
      intro m; unfold State.physSet; split <;> rfl
    rw [k] at e; exact e

theorem State.reset_mem_wf : State.reset.mem.wf = true := rfl

end Sys2Proof.Machine
end

