-- ==== Sys2Proof/Laws/State.lean ====
section
/-! SUPPORT. One lemma per field per update of State: the fields that an update leaves as they were; and what the accessors
read after an update. -/

namespace Sys2Proof.Machine.State

variable (s : State)

/-! ### updDie -/

@[simp] theorem updDie_agenda (d : Nat) (f : Die → Die) : (s.updDie d f).agenda = s.agenda := rfl
@[simp] theorem updDie_issuer (d : Nat) (f : Die → Die) : (s.updDie d f).issuer = s.issuer := rfl
@[simp] theorem updDie_held (d : Nat) (f : Die → Die) : (s.updDie d f).held = s.held := rfl
@[simp] theorem updDie_choice (d : Nat) (f : Die → Die) : (s.updDie d f).choice = s.choice := rfl
@[simp] theorem updDie_fresh (d : Nat) (f : Die → Die) : (s.updDie d f).fresh = s.fresh := rfl
@[simp] theorem updDie_nextId (d : Nat) (f : Die → Die) : (s.updDie d f).nextId = s.nextId := rfl
@[simp] theorem updDie_mem (d : Nat) (f : Die → Die) : (s.updDie d f).mem = s.mem := rfl
@[simp] theorem updDie_tags (d : Nat) (f : Die → Die) : (s.updDie d f).tags = s.tags := rfl
@[simp] theorem updDie_cores (d : Nat) (f : Die → Die) : (s.updDie d f).cores = s.cores := rfl
@[simp] theorem updDie_teams (d : Nat) (f : Die → Die) : (s.updDie d f).teams = s.teams := rfl
@[simp] theorem updDie_warps (d : Nat) (f : Die → Die) : (s.updDie d f).warps = s.warps := rfl
@[simp] theorem updDie_convoys (d : Nat) (f : Die → Die) : (s.updDie d f).convoys = s.convoys := rfl
@[simp] theorem updDie_xfers (d : Nat) (f : Die → Die) : (s.updDie d f).xfers = s.xfers := rfl
@[simp] theorem updDie_writes (d : Nat) (f : Die → Die) : (s.updDie d f).writes = s.writes := rfl
@[simp] theorem updDie_reds (d : Nat) (f : Die → Die) : (s.updDie d f).reds = s.reds := rfl
@[simp] theorem updDie_atoms (d : Nat) (f : Die → Die) : (s.updDie d f).atoms = s.atoms := rfl
@[simp] theorem updDie_published (d : Nat) (f : Die → Die) : (s.updDie d f).published = s.published := rfl
@[simp] theorem updDie_olds (d : Nat) (f : Die → Die) : (s.updDie d f).olds = s.olds := rfl
@[simp] theorem updDie_lastIssue (d : Nat) (f : Die → Die) : (s.updDie d f).lastIssue = s.lastIssue := rfl
@[simp] theorem updDie_words (d : Nat) (f : Die → Die) : (s.updDie d f).words = s.words := rfl
@[simp] theorem updDie_shoot (d : Nat) (f : Die → Die) : (s.updDie d f).shoot = s.shoot := rfl
@[simp] theorem updDie_completions (d : Nat) (f : Die → Die) : (s.updDie d f).completions = s.completions := rfl
@[simp] theorem updDie_launches (d : Nat) (f : Die → Die) : (s.updDie d f).launches = s.launches := rfl
@[simp] theorem updDie_graphs (d : Nat) (f : Die → Die) : (s.updDie d f).graphs = s.graphs := rfl
@[simp] theorem updDie_jobs (d : Nat) (f : Die → Die) : (s.updDie d f).jobs = s.jobs := rfl
@[simp] theorem updDie_folios (d : Nat) (f : Die → Die) : (s.updDie d f).folios = s.folios := rfl
@[simp] theorem updDie_queues (d : Nat) (f : Die → Die) : (s.updDie d f).queues = s.queues := rfl
@[simp] theorem updDie_slots (d : Nat) (f : Die → Die) : (s.updDie d f).slots = s.slots := rfl
@[simp] theorem updDie_outbox (d : Nat) (f : Die → Die) : (s.updDie d f).outbox = s.outbox := rfl
@[simp] theorem updDie_inbox (d : Nat) (f : Die → Die) : (s.updDie d f).inbox = s.inbox := rfl
@[simp] theorem updDie_msix (d : Nat) (f : Die → Die) : (s.updDie d f).msix = s.msix := rfl
@[simp] theorem updDie_ports (d : Nat) (f : Die → Die) : (s.updDie d f).ports = s.ports := rfl
@[simp] theorem updDie_caps (d : Nat) (f : Die → Die) : (s.updDie d f).caps = s.caps := rfl
@[simp] theorem updDie_below (d : Nat) (f : Die → Die) : (s.updDie d f).below = s.below := rfl
@[simp] theorem updDie_moving (d : Nat) (f : Die → Die) : (s.updDie d f).moving = s.moving := rfl
@[simp] theorem updDie_pkgSet (d : Nat) (f : Die → Die) : (s.updDie d f).pkgSet = s.pkgSet := rfl
@[simp] theorem updDie_retraining (d : Nat) (f : Die → Die) : (s.updDie d f).retraining = s.retraining := rfl
@[simp] theorem updDie_recovery (d : Nat) (f : Die → Die) : (s.updDie d f).recovery = s.recovery := rfl
@[simp] theorem updDie_ckpt (d : Nat) (f : Die → Die) : (s.updDie d f).ckpt = s.ckpt := rfl
@[simp] theorem updDie_ckptTeams (d : Nat) (f : Die → Die) : (s.updDie d f).ckptTeams = s.ckptTeams := rfl
@[simp] theorem updDie_reports (d : Nat) (f : Die → Die) : (s.updDie d f).reports = s.reports := rfl
@[simp] theorem updDie_answers (d : Nat) (f : Die → Die) : (s.updDie d f).answers = s.answers := rfl
@[simp] theorem updDie_clock (d : Nat) (f : Die → Die) : (s.updDie d f).clock = s.clock := rfl

/-! ### mapDies -/

@[simp] theorem mapDies_agenda (f : Die → Die) : (s.mapDies f).agenda = s.agenda := rfl
@[simp] theorem mapDies_issuer (f : Die → Die) : (s.mapDies f).issuer = s.issuer := rfl
@[simp] theorem mapDies_held (f : Die → Die) : (s.mapDies f).held = s.held := rfl
@[simp] theorem mapDies_choice (f : Die → Die) : (s.mapDies f).choice = s.choice := rfl
@[simp] theorem mapDies_fresh (f : Die → Die) : (s.mapDies f).fresh = s.fresh := rfl
@[simp] theorem mapDies_nextId (f : Die → Die) : (s.mapDies f).nextId = s.nextId := rfl
@[simp] theorem mapDies_mem (f : Die → Die) : (s.mapDies f).mem = s.mem := rfl
@[simp] theorem mapDies_tags (f : Die → Die) : (s.mapDies f).tags = s.tags := rfl
@[simp] theorem mapDies_cores (f : Die → Die) : (s.mapDies f).cores = s.cores := rfl
@[simp] theorem mapDies_teams (f : Die → Die) : (s.mapDies f).teams = s.teams := rfl
@[simp] theorem mapDies_warps (f : Die → Die) : (s.mapDies f).warps = s.warps := rfl
@[simp] theorem mapDies_convoys (f : Die → Die) : (s.mapDies f).convoys = s.convoys := rfl
@[simp] theorem mapDies_xfers (f : Die → Die) : (s.mapDies f).xfers = s.xfers := rfl
@[simp] theorem mapDies_writes (f : Die → Die) : (s.mapDies f).writes = s.writes := rfl
@[simp] theorem mapDies_reds (f : Die → Die) : (s.mapDies f).reds = s.reds := rfl
@[simp] theorem mapDies_atoms (f : Die → Die) : (s.mapDies f).atoms = s.atoms := rfl
@[simp] theorem mapDies_published (f : Die → Die) : (s.mapDies f).published = s.published := rfl
@[simp] theorem mapDies_olds (f : Die → Die) : (s.mapDies f).olds = s.olds := rfl
@[simp] theorem mapDies_lastIssue (f : Die → Die) : (s.mapDies f).lastIssue = s.lastIssue := rfl
@[simp] theorem mapDies_words (f : Die → Die) : (s.mapDies f).words = s.words := rfl
@[simp] theorem mapDies_shoot (f : Die → Die) : (s.mapDies f).shoot = s.shoot := rfl
@[simp] theorem mapDies_completions (f : Die → Die) : (s.mapDies f).completions = s.completions := rfl
@[simp] theorem mapDies_launches (f : Die → Die) : (s.mapDies f).launches = s.launches := rfl
@[simp] theorem mapDies_graphs (f : Die → Die) : (s.mapDies f).graphs = s.graphs := rfl
@[simp] theorem mapDies_jobs (f : Die → Die) : (s.mapDies f).jobs = s.jobs := rfl
@[simp] theorem mapDies_folios (f : Die → Die) : (s.mapDies f).folios = s.folios := rfl
@[simp] theorem mapDies_queues (f : Die → Die) : (s.mapDies f).queues = s.queues := rfl
@[simp] theorem mapDies_slots (f : Die → Die) : (s.mapDies f).slots = s.slots := rfl
@[simp] theorem mapDies_outbox (f : Die → Die) : (s.mapDies f).outbox = s.outbox := rfl
@[simp] theorem mapDies_inbox (f : Die → Die) : (s.mapDies f).inbox = s.inbox := rfl
@[simp] theorem mapDies_msix (f : Die → Die) : (s.mapDies f).msix = s.msix := rfl
@[simp] theorem mapDies_ports (f : Die → Die) : (s.mapDies f).ports = s.ports := rfl
@[simp] theorem mapDies_caps (f : Die → Die) : (s.mapDies f).caps = s.caps := rfl
@[simp] theorem mapDies_below (f : Die → Die) : (s.mapDies f).below = s.below := rfl
@[simp] theorem mapDies_moving (f : Die → Die) : (s.mapDies f).moving = s.moving := rfl
@[simp] theorem mapDies_pkgSet (f : Die → Die) : (s.mapDies f).pkgSet = s.pkgSet := rfl
@[simp] theorem mapDies_retraining (f : Die → Die) : (s.mapDies f).retraining = s.retraining := rfl
@[simp] theorem mapDies_recovery (f : Die → Die) : (s.mapDies f).recovery = s.recovery := rfl
@[simp] theorem mapDies_ckpt (f : Die → Die) : (s.mapDies f).ckpt = s.ckpt := rfl
@[simp] theorem mapDies_ckptTeams (f : Die → Die) : (s.mapDies f).ckptTeams = s.ckptTeams := rfl
@[simp] theorem mapDies_reports (f : Die → Die) : (s.mapDies f).reports = s.reports := rfl
@[simp] theorem mapDies_answers (f : Die → Die) : (s.mapDies f).answers = s.answers := rfl
@[simp] theorem mapDies_clock (f : Die → Die) : (s.mapDies f).clock = s.clock := rfl

/-! ### updCore -/

@[simp] theorem updCore_agenda (d c : Nat) (f : Core → Core) : (s.updCore d c f).agenda = s.agenda := rfl
@[simp] theorem updCore_issuer (d c : Nat) (f : Core → Core) : (s.updCore d c f).issuer = s.issuer := rfl
@[simp] theorem updCore_held (d c : Nat) (f : Core → Core) : (s.updCore d c f).held = s.held := rfl
@[simp] theorem updCore_choice (d c : Nat) (f : Core → Core) : (s.updCore d c f).choice = s.choice := rfl
@[simp] theorem updCore_fresh (d c : Nat) (f : Core → Core) : (s.updCore d c f).fresh = s.fresh := rfl
@[simp] theorem updCore_nextId (d c : Nat) (f : Core → Core) : (s.updCore d c f).nextId = s.nextId := rfl
@[simp] theorem updCore_mem (d c : Nat) (f : Core → Core) : (s.updCore d c f).mem = s.mem := rfl
@[simp] theorem updCore_tags (d c : Nat) (f : Core → Core) : (s.updCore d c f).tags = s.tags := rfl
@[simp] theorem updCore_dies (d c : Nat) (f : Core → Core) : (s.updCore d c f).dies = s.dies := rfl
@[simp] theorem updCore_teams (d c : Nat) (f : Core → Core) : (s.updCore d c f).teams = s.teams := rfl
@[simp] theorem updCore_warps (d c : Nat) (f : Core → Core) : (s.updCore d c f).warps = s.warps := rfl
@[simp] theorem updCore_convoys (d c : Nat) (f : Core → Core) : (s.updCore d c f).convoys = s.convoys := rfl
@[simp] theorem updCore_xfers (d c : Nat) (f : Core → Core) : (s.updCore d c f).xfers = s.xfers := rfl
@[simp] theorem updCore_writes (d c : Nat) (f : Core → Core) : (s.updCore d c f).writes = s.writes := rfl
@[simp] theorem updCore_reds (d c : Nat) (f : Core → Core) : (s.updCore d c f).reds = s.reds := rfl
@[simp] theorem updCore_atoms (d c : Nat) (f : Core → Core) : (s.updCore d c f).atoms = s.atoms := rfl
@[simp] theorem updCore_published (d c : Nat) (f : Core → Core) : (s.updCore d c f).published = s.published := rfl
@[simp] theorem updCore_olds (d c : Nat) (f : Core → Core) : (s.updCore d c f).olds = s.olds := rfl
@[simp] theorem updCore_lastIssue (d c : Nat) (f : Core → Core) : (s.updCore d c f).lastIssue = s.lastIssue := rfl
@[simp] theorem updCore_words (d c : Nat) (f : Core → Core) : (s.updCore d c f).words = s.words := rfl
@[simp] theorem updCore_shoot (d c : Nat) (f : Core → Core) : (s.updCore d c f).shoot = s.shoot := rfl
@[simp] theorem updCore_completions (d c : Nat) (f : Core → Core) : (s.updCore d c f).completions = s.completions := rfl
@[simp] theorem updCore_launches (d c : Nat) (f : Core → Core) : (s.updCore d c f).launches = s.launches := rfl
@[simp] theorem updCore_graphs (d c : Nat) (f : Core → Core) : (s.updCore d c f).graphs = s.graphs := rfl
@[simp] theorem updCore_jobs (d c : Nat) (f : Core → Core) : (s.updCore d c f).jobs = s.jobs := rfl
@[simp] theorem updCore_folios (d c : Nat) (f : Core → Core) : (s.updCore d c f).folios = s.folios := rfl
@[simp] theorem updCore_queues (d c : Nat) (f : Core → Core) : (s.updCore d c f).queues = s.queues := rfl
@[simp] theorem updCore_slots (d c : Nat) (f : Core → Core) : (s.updCore d c f).slots = s.slots := rfl
@[simp] theorem updCore_outbox (d c : Nat) (f : Core → Core) : (s.updCore d c f).outbox = s.outbox := rfl
@[simp] theorem updCore_inbox (d c : Nat) (f : Core → Core) : (s.updCore d c f).inbox = s.inbox := rfl
@[simp] theorem updCore_msix (d c : Nat) (f : Core → Core) : (s.updCore d c f).msix = s.msix := rfl
@[simp] theorem updCore_ports (d c : Nat) (f : Core → Core) : (s.updCore d c f).ports = s.ports := rfl
@[simp] theorem updCore_caps (d c : Nat) (f : Core → Core) : (s.updCore d c f).caps = s.caps := rfl
@[simp] theorem updCore_below (d c : Nat) (f : Core → Core) : (s.updCore d c f).below = s.below := rfl
@[simp] theorem updCore_moving (d c : Nat) (f : Core → Core) : (s.updCore d c f).moving = s.moving := rfl
@[simp] theorem updCore_pkgSet (d c : Nat) (f : Core → Core) : (s.updCore d c f).pkgSet = s.pkgSet := rfl
@[simp] theorem updCore_retraining (d c : Nat) (f : Core → Core) : (s.updCore d c f).retraining = s.retraining := rfl
@[simp] theorem updCore_recovery (d c : Nat) (f : Core → Core) : (s.updCore d c f).recovery = s.recovery := rfl
@[simp] theorem updCore_ckpt (d c : Nat) (f : Core → Core) : (s.updCore d c f).ckpt = s.ckpt := rfl
@[simp] theorem updCore_ckptTeams (d c : Nat) (f : Core → Core) : (s.updCore d c f).ckptTeams = s.ckptTeams := rfl
@[simp] theorem updCore_reports (d c : Nat) (f : Core → Core) : (s.updCore d c f).reports = s.reports := rfl
@[simp] theorem updCore_answers (d c : Nat) (f : Core → Core) : (s.updCore d c f).answers = s.answers := rfl
@[simp] theorem updCore_clock (d c : Nat) (f : Core → Core) : (s.updCore d c f).clock = s.clock := rfl

/-! ### updTeam -/

@[simp] theorem updTeam_agenda (t : Nat) (f : Team → Team) : (s.updTeam t f).agenda = s.agenda := rfl
@[simp] theorem updTeam_issuer (t : Nat) (f : Team → Team) : (s.updTeam t f).issuer = s.issuer := rfl
@[simp] theorem updTeam_held (t : Nat) (f : Team → Team) : (s.updTeam t f).held = s.held := rfl
@[simp] theorem updTeam_choice (t : Nat) (f : Team → Team) : (s.updTeam t f).choice = s.choice := rfl
@[simp] theorem updTeam_fresh (t : Nat) (f : Team → Team) : (s.updTeam t f).fresh = s.fresh := rfl
@[simp] theorem updTeam_nextId (t : Nat) (f : Team → Team) : (s.updTeam t f).nextId = s.nextId := rfl
@[simp] theorem updTeam_mem (t : Nat) (f : Team → Team) : (s.updTeam t f).mem = s.mem := rfl
@[simp] theorem updTeam_tags (t : Nat) (f : Team → Team) : (s.updTeam t f).tags = s.tags := rfl
@[simp] theorem updTeam_dies (t : Nat) (f : Team → Team) : (s.updTeam t f).dies = s.dies := rfl
@[simp] theorem updTeam_cores (t : Nat) (f : Team → Team) : (s.updTeam t f).cores = s.cores := rfl
@[simp] theorem updTeam_warps (t : Nat) (f : Team → Team) : (s.updTeam t f).warps = s.warps := rfl
@[simp] theorem updTeam_convoys (t : Nat) (f : Team → Team) : (s.updTeam t f).convoys = s.convoys := rfl
@[simp] theorem updTeam_xfers (t : Nat) (f : Team → Team) : (s.updTeam t f).xfers = s.xfers := rfl
@[simp] theorem updTeam_writes (t : Nat) (f : Team → Team) : (s.updTeam t f).writes = s.writes := rfl
@[simp] theorem updTeam_reds (t : Nat) (f : Team → Team) : (s.updTeam t f).reds = s.reds := rfl
@[simp] theorem updTeam_atoms (t : Nat) (f : Team → Team) : (s.updTeam t f).atoms = s.atoms := rfl
@[simp] theorem updTeam_published (t : Nat) (f : Team → Team) : (s.updTeam t f).published = s.published := rfl
@[simp] theorem updTeam_olds (t : Nat) (f : Team → Team) : (s.updTeam t f).olds = s.olds := rfl
@[simp] theorem updTeam_lastIssue (t : Nat) (f : Team → Team) : (s.updTeam t f).lastIssue = s.lastIssue := rfl
@[simp] theorem updTeam_words (t : Nat) (f : Team → Team) : (s.updTeam t f).words = s.words := rfl
@[simp] theorem updTeam_shoot (t : Nat) (f : Team → Team) : (s.updTeam t f).shoot = s.shoot := rfl
@[simp] theorem updTeam_completions (t : Nat) (f : Team → Team) : (s.updTeam t f).completions = s.completions := rfl
@[simp] theorem updTeam_launches (t : Nat) (f : Team → Team) : (s.updTeam t f).launches = s.launches := rfl
@[simp] theorem updTeam_graphs (t : Nat) (f : Team → Team) : (s.updTeam t f).graphs = s.graphs := rfl
@[simp] theorem updTeam_jobs (t : Nat) (f : Team → Team) : (s.updTeam t f).jobs = s.jobs := rfl
@[simp] theorem updTeam_folios (t : Nat) (f : Team → Team) : (s.updTeam t f).folios = s.folios := rfl
@[simp] theorem updTeam_queues (t : Nat) (f : Team → Team) : (s.updTeam t f).queues = s.queues := rfl
@[simp] theorem updTeam_slots (t : Nat) (f : Team → Team) : (s.updTeam t f).slots = s.slots := rfl
@[simp] theorem updTeam_outbox (t : Nat) (f : Team → Team) : (s.updTeam t f).outbox = s.outbox := rfl
@[simp] theorem updTeam_inbox (t : Nat) (f : Team → Team) : (s.updTeam t f).inbox = s.inbox := rfl
@[simp] theorem updTeam_msix (t : Nat) (f : Team → Team) : (s.updTeam t f).msix = s.msix := rfl
@[simp] theorem updTeam_ports (t : Nat) (f : Team → Team) : (s.updTeam t f).ports = s.ports := rfl
@[simp] theorem updTeam_caps (t : Nat) (f : Team → Team) : (s.updTeam t f).caps = s.caps := rfl
@[simp] theorem updTeam_below (t : Nat) (f : Team → Team) : (s.updTeam t f).below = s.below := rfl
@[simp] theorem updTeam_moving (t : Nat) (f : Team → Team) : (s.updTeam t f).moving = s.moving := rfl
@[simp] theorem updTeam_pkgSet (t : Nat) (f : Team → Team) : (s.updTeam t f).pkgSet = s.pkgSet := rfl
@[simp] theorem updTeam_retraining (t : Nat) (f : Team → Team) : (s.updTeam t f).retraining = s.retraining := rfl
@[simp] theorem updTeam_recovery (t : Nat) (f : Team → Team) : (s.updTeam t f).recovery = s.recovery := rfl
@[simp] theorem updTeam_ckpt (t : Nat) (f : Team → Team) : (s.updTeam t f).ckpt = s.ckpt := rfl
@[simp] theorem updTeam_ckptTeams (t : Nat) (f : Team → Team) : (s.updTeam t f).ckptTeams = s.ckptTeams := rfl
@[simp] theorem updTeam_reports (t : Nat) (f : Team → Team) : (s.updTeam t f).reports = s.reports := rfl
@[simp] theorem updTeam_answers (t : Nat) (f : Team → Team) : (s.updTeam t f).answers = s.answers := rfl
@[simp] theorem updTeam_clock (t : Nat) (f : Team → Team) : (s.updTeam t f).clock = s.clock := rfl

/-! ### updWarp -/

@[simp] theorem updWarp_agenda (t w : Nat) (f : Warp → Warp) : (s.updWarp t w f).agenda = s.agenda := rfl
@[simp] theorem updWarp_issuer (t w : Nat) (f : Warp → Warp) : (s.updWarp t w f).issuer = s.issuer := rfl
@[simp] theorem updWarp_held (t w : Nat) (f : Warp → Warp) : (s.updWarp t w f).held = s.held := rfl
@[simp] theorem updWarp_choice (t w : Nat) (f : Warp → Warp) : (s.updWarp t w f).choice = s.choice := rfl
@[simp] theorem updWarp_fresh (t w : Nat) (f : Warp → Warp) : (s.updWarp t w f).fresh = s.fresh := rfl
@[simp] theorem updWarp_nextId (t w : Nat) (f : Warp → Warp) : (s.updWarp t w f).nextId = s.nextId := rfl
@[simp] theorem updWarp_mem (t w : Nat) (f : Warp → Warp) : (s.updWarp t w f).mem = s.mem := rfl
@[simp] theorem updWarp_tags (t w : Nat) (f : Warp → Warp) : (s.updWarp t w f).tags = s.tags := rfl
@[simp] theorem updWarp_dies (t w : Nat) (f : Warp → Warp) : (s.updWarp t w f).dies = s.dies := rfl
@[simp] theorem updWarp_cores (t w : Nat) (f : Warp → Warp) : (s.updWarp t w f).cores = s.cores := rfl
@[simp] theorem updWarp_teams (t w : Nat) (f : Warp → Warp) : (s.updWarp t w f).teams = s.teams := rfl
@[simp] theorem updWarp_convoys (t w : Nat) (f : Warp → Warp) : (s.updWarp t w f).convoys = s.convoys := rfl
@[simp] theorem updWarp_xfers (t w : Nat) (f : Warp → Warp) : (s.updWarp t w f).xfers = s.xfers := rfl
@[simp] theorem updWarp_writes (t w : Nat) (f : Warp → Warp) : (s.updWarp t w f).writes = s.writes := rfl
@[simp] theorem updWarp_reds (t w : Nat) (f : Warp → Warp) : (s.updWarp t w f).reds = s.reds := rfl
@[simp] theorem updWarp_atoms (t w : Nat) (f : Warp → Warp) : (s.updWarp t w f).atoms = s.atoms := rfl
@[simp] theorem updWarp_published (t w : Nat) (f : Warp → Warp) : (s.updWarp t w f).published = s.published := rfl
@[simp] theorem updWarp_olds (t w : Nat) (f : Warp → Warp) : (s.updWarp t w f).olds = s.olds := rfl
@[simp] theorem updWarp_lastIssue (t w : Nat) (f : Warp → Warp) : (s.updWarp t w f).lastIssue = s.lastIssue := rfl
@[simp] theorem updWarp_words (t w : Nat) (f : Warp → Warp) : (s.updWarp t w f).words = s.words := rfl
@[simp] theorem updWarp_shoot (t w : Nat) (f : Warp → Warp) : (s.updWarp t w f).shoot = s.shoot := rfl
@[simp] theorem updWarp_completions (t w : Nat) (f : Warp → Warp) : (s.updWarp t w f).completions = s.completions := rfl
@[simp] theorem updWarp_launches (t w : Nat) (f : Warp → Warp) : (s.updWarp t w f).launches = s.launches := rfl
@[simp] theorem updWarp_graphs (t w : Nat) (f : Warp → Warp) : (s.updWarp t w f).graphs = s.graphs := rfl
@[simp] theorem updWarp_jobs (t w : Nat) (f : Warp → Warp) : (s.updWarp t w f).jobs = s.jobs := rfl
@[simp] theorem updWarp_folios (t w : Nat) (f : Warp → Warp) : (s.updWarp t w f).folios = s.folios := rfl
@[simp] theorem updWarp_queues (t w : Nat) (f : Warp → Warp) : (s.updWarp t w f).queues = s.queues := rfl
@[simp] theorem updWarp_slots (t w : Nat) (f : Warp → Warp) : (s.updWarp t w f).slots = s.slots := rfl
@[simp] theorem updWarp_outbox (t w : Nat) (f : Warp → Warp) : (s.updWarp t w f).outbox = s.outbox := rfl
@[simp] theorem updWarp_inbox (t w : Nat) (f : Warp → Warp) : (s.updWarp t w f).inbox = s.inbox := rfl
@[simp] theorem updWarp_msix (t w : Nat) (f : Warp → Warp) : (s.updWarp t w f).msix = s.msix := rfl
@[simp] theorem updWarp_ports (t w : Nat) (f : Warp → Warp) : (s.updWarp t w f).ports = s.ports := rfl
@[simp] theorem updWarp_caps (t w : Nat) (f : Warp → Warp) : (s.updWarp t w f).caps = s.caps := rfl
@[simp] theorem updWarp_below (t w : Nat) (f : Warp → Warp) : (s.updWarp t w f).below = s.below := rfl
@[simp] theorem updWarp_moving (t w : Nat) (f : Warp → Warp) : (s.updWarp t w f).moving = s.moving := rfl
@[simp] theorem updWarp_pkgSet (t w : Nat) (f : Warp → Warp) : (s.updWarp t w f).pkgSet = s.pkgSet := rfl
@[simp] theorem updWarp_retraining (t w : Nat) (f : Warp → Warp) : (s.updWarp t w f).retraining = s.retraining := rfl
@[simp] theorem updWarp_recovery (t w : Nat) (f : Warp → Warp) : (s.updWarp t w f).recovery = s.recovery := rfl
@[simp] theorem updWarp_ckpt (t w : Nat) (f : Warp → Warp) : (s.updWarp t w f).ckpt = s.ckpt := rfl
@[simp] theorem updWarp_ckptTeams (t w : Nat) (f : Warp → Warp) : (s.updWarp t w f).ckptTeams = s.ckptTeams := rfl
@[simp] theorem updWarp_reports (t w : Nat) (f : Warp → Warp) : (s.updWarp t w f).reports = s.reports := rfl
@[simp] theorem updWarp_answers (t w : Nat) (f : Warp → Warp) : (s.updWarp t w f).answers = s.answers := rfl
@[simp] theorem updWarp_clock (t w : Nat) (f : Warp → Warp) : (s.updWarp t w f).clock = s.clock := rfl

/-! ### updWarps -/

@[simp] theorem updWarps_agenda (t : Nat) (f : Warp → Warp) : (s.updWarps t f).agenda = s.agenda := rfl
@[simp] theorem updWarps_issuer (t : Nat) (f : Warp → Warp) : (s.updWarps t f).issuer = s.issuer := rfl
@[simp] theorem updWarps_held (t : Nat) (f : Warp → Warp) : (s.updWarps t f).held = s.held := rfl
@[simp] theorem updWarps_choice (t : Nat) (f : Warp → Warp) : (s.updWarps t f).choice = s.choice := rfl
@[simp] theorem updWarps_fresh (t : Nat) (f : Warp → Warp) : (s.updWarps t f).fresh = s.fresh := rfl
@[simp] theorem updWarps_nextId (t : Nat) (f : Warp → Warp) : (s.updWarps t f).nextId = s.nextId := rfl
@[simp] theorem updWarps_mem (t : Nat) (f : Warp → Warp) : (s.updWarps t f).mem = s.mem := rfl
@[simp] theorem updWarps_tags (t : Nat) (f : Warp → Warp) : (s.updWarps t f).tags = s.tags := rfl
@[simp] theorem updWarps_dies (t : Nat) (f : Warp → Warp) : (s.updWarps t f).dies = s.dies := rfl
@[simp] theorem updWarps_cores (t : Nat) (f : Warp → Warp) : (s.updWarps t f).cores = s.cores := rfl
@[simp] theorem updWarps_teams (t : Nat) (f : Warp → Warp) : (s.updWarps t f).teams = s.teams := rfl
@[simp] theorem updWarps_convoys (t : Nat) (f : Warp → Warp) : (s.updWarps t f).convoys = s.convoys := rfl
@[simp] theorem updWarps_xfers (t : Nat) (f : Warp → Warp) : (s.updWarps t f).xfers = s.xfers := rfl
@[simp] theorem updWarps_writes (t : Nat) (f : Warp → Warp) : (s.updWarps t f).writes = s.writes := rfl
@[simp] theorem updWarps_reds (t : Nat) (f : Warp → Warp) : (s.updWarps t f).reds = s.reds := rfl
@[simp] theorem updWarps_atoms (t : Nat) (f : Warp → Warp) : (s.updWarps t f).atoms = s.atoms := rfl
@[simp] theorem updWarps_published (t : Nat) (f : Warp → Warp) : (s.updWarps t f).published = s.published := rfl
@[simp] theorem updWarps_olds (t : Nat) (f : Warp → Warp) : (s.updWarps t f).olds = s.olds := rfl
@[simp] theorem updWarps_lastIssue (t : Nat) (f : Warp → Warp) : (s.updWarps t f).lastIssue = s.lastIssue := rfl
@[simp] theorem updWarps_words (t : Nat) (f : Warp → Warp) : (s.updWarps t f).words = s.words := rfl
@[simp] theorem updWarps_shoot (t : Nat) (f : Warp → Warp) : (s.updWarps t f).shoot = s.shoot := rfl
@[simp] theorem updWarps_completions (t : Nat) (f : Warp → Warp) : (s.updWarps t f).completions = s.completions := rfl
@[simp] theorem updWarps_launches (t : Nat) (f : Warp → Warp) : (s.updWarps t f).launches = s.launches := rfl
@[simp] theorem updWarps_graphs (t : Nat) (f : Warp → Warp) : (s.updWarps t f).graphs = s.graphs := rfl
@[simp] theorem updWarps_jobs (t : Nat) (f : Warp → Warp) : (s.updWarps t f).jobs = s.jobs := rfl
@[simp] theorem updWarps_folios (t : Nat) (f : Warp → Warp) : (s.updWarps t f).folios = s.folios := rfl
@[simp] theorem updWarps_queues (t : Nat) (f : Warp → Warp) : (s.updWarps t f).queues = s.queues := rfl
@[simp] theorem updWarps_slots (t : Nat) (f : Warp → Warp) : (s.updWarps t f).slots = s.slots := rfl
@[simp] theorem updWarps_outbox (t : Nat) (f : Warp → Warp) : (s.updWarps t f).outbox = s.outbox := rfl
@[simp] theorem updWarps_inbox (t : Nat) (f : Warp → Warp) : (s.updWarps t f).inbox = s.inbox := rfl
@[simp] theorem updWarps_msix (t : Nat) (f : Warp → Warp) : (s.updWarps t f).msix = s.msix := rfl
@[simp] theorem updWarps_ports (t : Nat) (f : Warp → Warp) : (s.updWarps t f).ports = s.ports := rfl
@[simp] theorem updWarps_caps (t : Nat) (f : Warp → Warp) : (s.updWarps t f).caps = s.caps := rfl
@[simp] theorem updWarps_below (t : Nat) (f : Warp → Warp) : (s.updWarps t f).below = s.below := rfl
@[simp] theorem updWarps_moving (t : Nat) (f : Warp → Warp) : (s.updWarps t f).moving = s.moving := rfl
@[simp] theorem updWarps_pkgSet (t : Nat) (f : Warp → Warp) : (s.updWarps t f).pkgSet = s.pkgSet := rfl
@[simp] theorem updWarps_retraining (t : Nat) (f : Warp → Warp) : (s.updWarps t f).retraining = s.retraining := rfl
@[simp] theorem updWarps_recovery (t : Nat) (f : Warp → Warp) : (s.updWarps t f).recovery = s.recovery := rfl
@[simp] theorem updWarps_ckpt (t : Nat) (f : Warp → Warp) : (s.updWarps t f).ckpt = s.ckpt := rfl
@[simp] theorem updWarps_ckptTeams (t : Nat) (f : Warp → Warp) : (s.updWarps t f).ckptTeams = s.ckptTeams := rfl
@[simp] theorem updWarps_reports (t : Nat) (f : Warp → Warp) : (s.updWarps t f).reports = s.reports := rfl
@[simp] theorem updWarps_answers (t : Nat) (f : Warp → Warp) : (s.updWarps t f).answers = s.answers := rfl
@[simp] theorem updWarps_clock (t : Nat) (f : Warp → Warp) : (s.updWarps t f).clock = s.clock := rfl

/-! ### updCompletion -/

@[simp] theorem updCompletion_agenda (i : Nat) (f : Completion → Completion) : (s.updCompletion i f).agenda = s.agenda := rfl
@[simp] theorem updCompletion_issuer (i : Nat) (f : Completion → Completion) : (s.updCompletion i f).issuer = s.issuer := rfl
@[simp] theorem updCompletion_held (i : Nat) (f : Completion → Completion) : (s.updCompletion i f).held = s.held := rfl
@[simp] theorem updCompletion_choice (i : Nat) (f : Completion → Completion) : (s.updCompletion i f).choice = s.choice := rfl
@[simp] theorem updCompletion_fresh (i : Nat) (f : Completion → Completion) : (s.updCompletion i f).fresh = s.fresh := rfl
@[simp] theorem updCompletion_nextId (i : Nat) (f : Completion → Completion) : (s.updCompletion i f).nextId = s.nextId := rfl
@[simp] theorem updCompletion_mem (i : Nat) (f : Completion → Completion) : (s.updCompletion i f).mem = s.mem := rfl
@[simp] theorem updCompletion_tags (i : Nat) (f : Completion → Completion) : (s.updCompletion i f).tags = s.tags := rfl
@[simp] theorem updCompletion_dies (i : Nat) (f : Completion → Completion) : (s.updCompletion i f).dies = s.dies := rfl
@[simp] theorem updCompletion_cores (i : Nat) (f : Completion → Completion) : (s.updCompletion i f).cores = s.cores := rfl
@[simp] theorem updCompletion_teams (i : Nat) (f : Completion → Completion) : (s.updCompletion i f).teams = s.teams := rfl
@[simp] theorem updCompletion_warps (i : Nat) (f : Completion → Completion) : (s.updCompletion i f).warps = s.warps := rfl
@[simp] theorem updCompletion_convoys (i : Nat) (f : Completion → Completion) : (s.updCompletion i f).convoys = s.convoys := rfl
@[simp] theorem updCompletion_xfers (i : Nat) (f : Completion → Completion) : (s.updCompletion i f).xfers = s.xfers := rfl
@[simp] theorem updCompletion_writes (i : Nat) (f : Completion → Completion) : (s.updCompletion i f).writes = s.writes := rfl
@[simp] theorem updCompletion_reds (i : Nat) (f : Completion → Completion) : (s.updCompletion i f).reds = s.reds := rfl
@[simp] theorem updCompletion_atoms (i : Nat) (f : Completion → Completion) : (s.updCompletion i f).atoms = s.atoms := rfl
@[simp] theorem updCompletion_published (i : Nat) (f : Completion → Completion) : (s.updCompletion i f).published = s.published := rfl
@[simp] theorem updCompletion_olds (i : Nat) (f : Completion → Completion) : (s.updCompletion i f).olds = s.olds := rfl
@[simp] theorem updCompletion_lastIssue (i : Nat) (f : Completion → Completion) : (s.updCompletion i f).lastIssue = s.lastIssue := rfl
@[simp] theorem updCompletion_words (i : Nat) (f : Completion → Completion) : (s.updCompletion i f).words = s.words := rfl
@[simp] theorem updCompletion_shoot (i : Nat) (f : Completion → Completion) : (s.updCompletion i f).shoot = s.shoot := rfl
@[simp] theorem updCompletion_launches (i : Nat) (f : Completion → Completion) : (s.updCompletion i f).launches = s.launches := rfl
@[simp] theorem updCompletion_graphs (i : Nat) (f : Completion → Completion) : (s.updCompletion i f).graphs = s.graphs := rfl
@[simp] theorem updCompletion_jobs (i : Nat) (f : Completion → Completion) : (s.updCompletion i f).jobs = s.jobs := rfl
@[simp] theorem updCompletion_folios (i : Nat) (f : Completion → Completion) : (s.updCompletion i f).folios = s.folios := rfl
@[simp] theorem updCompletion_queues (i : Nat) (f : Completion → Completion) : (s.updCompletion i f).queues = s.queues := rfl
@[simp] theorem updCompletion_slots (i : Nat) (f : Completion → Completion) : (s.updCompletion i f).slots = s.slots := rfl
@[simp] theorem updCompletion_outbox (i : Nat) (f : Completion → Completion) : (s.updCompletion i f).outbox = s.outbox := rfl
@[simp] theorem updCompletion_inbox (i : Nat) (f : Completion → Completion) : (s.updCompletion i f).inbox = s.inbox := rfl
@[simp] theorem updCompletion_msix (i : Nat) (f : Completion → Completion) : (s.updCompletion i f).msix = s.msix := rfl
@[simp] theorem updCompletion_ports (i : Nat) (f : Completion → Completion) : (s.updCompletion i f).ports = s.ports := rfl
@[simp] theorem updCompletion_caps (i : Nat) (f : Completion → Completion) : (s.updCompletion i f).caps = s.caps := rfl
@[simp] theorem updCompletion_below (i : Nat) (f : Completion → Completion) : (s.updCompletion i f).below = s.below := rfl
@[simp] theorem updCompletion_moving (i : Nat) (f : Completion → Completion) : (s.updCompletion i f).moving = s.moving := rfl
@[simp] theorem updCompletion_pkgSet (i : Nat) (f : Completion → Completion) : (s.updCompletion i f).pkgSet = s.pkgSet := rfl
@[simp] theorem updCompletion_retraining (i : Nat) (f : Completion → Completion) : (s.updCompletion i f).retraining = s.retraining := rfl
@[simp] theorem updCompletion_recovery (i : Nat) (f : Completion → Completion) : (s.updCompletion i f).recovery = s.recovery := rfl
@[simp] theorem updCompletion_ckpt (i : Nat) (f : Completion → Completion) : (s.updCompletion i f).ckpt = s.ckpt := rfl
@[simp] theorem updCompletion_ckptTeams (i : Nat) (f : Completion → Completion) : (s.updCompletion i f).ckptTeams = s.ckptTeams := rfl
@[simp] theorem updCompletion_reports (i : Nat) (f : Completion → Completion) : (s.updCompletion i f).reports = s.reports := rfl
@[simp] theorem updCompletion_answers (i : Nat) (f : Completion → Completion) : (s.updCompletion i f).answers = s.answers := rfl
@[simp] theorem updCompletion_clock (i : Nat) (f : Completion → Completion) : (s.updCompletion i f).clock = s.clock := rfl

/-! ### updQueue -/

@[simp] theorem updQueue_agenda (q : Nat) (f : HwQueue → HwQueue) : (s.updQueue q f).agenda = s.agenda := rfl
@[simp] theorem updQueue_issuer (q : Nat) (f : HwQueue → HwQueue) : (s.updQueue q f).issuer = s.issuer := rfl
@[simp] theorem updQueue_held (q : Nat) (f : HwQueue → HwQueue) : (s.updQueue q f).held = s.held := rfl
@[simp] theorem updQueue_choice (q : Nat) (f : HwQueue → HwQueue) : (s.updQueue q f).choice = s.choice := rfl
@[simp] theorem updQueue_fresh (q : Nat) (f : HwQueue → HwQueue) : (s.updQueue q f).fresh = s.fresh := rfl
@[simp] theorem updQueue_nextId (q : Nat) (f : HwQueue → HwQueue) : (s.updQueue q f).nextId = s.nextId := rfl
@[simp] theorem updQueue_mem (q : Nat) (f : HwQueue → HwQueue) : (s.updQueue q f).mem = s.mem := rfl
@[simp] theorem updQueue_tags (q : Nat) (f : HwQueue → HwQueue) : (s.updQueue q f).tags = s.tags := rfl
@[simp] theorem updQueue_dies (q : Nat) (f : HwQueue → HwQueue) : (s.updQueue q f).dies = s.dies := rfl
@[simp] theorem updQueue_cores (q : Nat) (f : HwQueue → HwQueue) : (s.updQueue q f).cores = s.cores := rfl
@[simp] theorem updQueue_teams (q : Nat) (f : HwQueue → HwQueue) : (s.updQueue q f).teams = s.teams := rfl
@[simp] theorem updQueue_warps (q : Nat) (f : HwQueue → HwQueue) : (s.updQueue q f).warps = s.warps := rfl
@[simp] theorem updQueue_convoys (q : Nat) (f : HwQueue → HwQueue) : (s.updQueue q f).convoys = s.convoys := rfl
@[simp] theorem updQueue_xfers (q : Nat) (f : HwQueue → HwQueue) : (s.updQueue q f).xfers = s.xfers := rfl
@[simp] theorem updQueue_writes (q : Nat) (f : HwQueue → HwQueue) : (s.updQueue q f).writes = s.writes := rfl
@[simp] theorem updQueue_reds (q : Nat) (f : HwQueue → HwQueue) : (s.updQueue q f).reds = s.reds := rfl
@[simp] theorem updQueue_atoms (q : Nat) (f : HwQueue → HwQueue) : (s.updQueue q f).atoms = s.atoms := rfl
@[simp] theorem updQueue_published (q : Nat) (f : HwQueue → HwQueue) : (s.updQueue q f).published = s.published := rfl
@[simp] theorem updQueue_olds (q : Nat) (f : HwQueue → HwQueue) : (s.updQueue q f).olds = s.olds := rfl
@[simp] theorem updQueue_lastIssue (q : Nat) (f : HwQueue → HwQueue) : (s.updQueue q f).lastIssue = s.lastIssue := rfl
@[simp] theorem updQueue_words (q : Nat) (f : HwQueue → HwQueue) : (s.updQueue q f).words = s.words := rfl
@[simp] theorem updQueue_shoot (q : Nat) (f : HwQueue → HwQueue) : (s.updQueue q f).shoot = s.shoot := rfl
@[simp] theorem updQueue_completions (q : Nat) (f : HwQueue → HwQueue) : (s.updQueue q f).completions = s.completions := rfl
@[simp] theorem updQueue_launches (q : Nat) (f : HwQueue → HwQueue) : (s.updQueue q f).launches = s.launches := rfl
@[simp] theorem updQueue_graphs (q : Nat) (f : HwQueue → HwQueue) : (s.updQueue q f).graphs = s.graphs := rfl
@[simp] theorem updQueue_jobs (q : Nat) (f : HwQueue → HwQueue) : (s.updQueue q f).jobs = s.jobs := rfl
@[simp] theorem updQueue_folios (q : Nat) (f : HwQueue → HwQueue) : (s.updQueue q f).folios = s.folios := rfl
@[simp] theorem updQueue_slots (q : Nat) (f : HwQueue → HwQueue) : (s.updQueue q f).slots = s.slots := rfl
@[simp] theorem updQueue_outbox (q : Nat) (f : HwQueue → HwQueue) : (s.updQueue q f).outbox = s.outbox := rfl
@[simp] theorem updQueue_inbox (q : Nat) (f : HwQueue → HwQueue) : (s.updQueue q f).inbox = s.inbox := rfl
@[simp] theorem updQueue_msix (q : Nat) (f : HwQueue → HwQueue) : (s.updQueue q f).msix = s.msix := rfl
@[simp] theorem updQueue_ports (q : Nat) (f : HwQueue → HwQueue) : (s.updQueue q f).ports = s.ports := rfl
@[simp] theorem updQueue_caps (q : Nat) (f : HwQueue → HwQueue) : (s.updQueue q f).caps = s.caps := rfl
@[simp] theorem updQueue_below (q : Nat) (f : HwQueue → HwQueue) : (s.updQueue q f).below = s.below := rfl
@[simp] theorem updQueue_moving (q : Nat) (f : HwQueue → HwQueue) : (s.updQueue q f).moving = s.moving := rfl
@[simp] theorem updQueue_pkgSet (q : Nat) (f : HwQueue → HwQueue) : (s.updQueue q f).pkgSet = s.pkgSet := rfl
@[simp] theorem updQueue_retraining (q : Nat) (f : HwQueue → HwQueue) : (s.updQueue q f).retraining = s.retraining := rfl
@[simp] theorem updQueue_recovery (q : Nat) (f : HwQueue → HwQueue) : (s.updQueue q f).recovery = s.recovery := rfl
@[simp] theorem updQueue_ckpt (q : Nat) (f : HwQueue → HwQueue) : (s.updQueue q f).ckpt = s.ckpt := rfl
@[simp] theorem updQueue_ckptTeams (q : Nat) (f : HwQueue → HwQueue) : (s.updQueue q f).ckptTeams = s.ckptTeams := rfl
@[simp] theorem updQueue_reports (q : Nat) (f : HwQueue → HwQueue) : (s.updQueue q f).reports = s.reports := rfl
@[simp] theorem updQueue_answers (q : Nat) (f : HwQueue → HwQueue) : (s.updQueue q f).answers = s.answers := rfl
@[simp] theorem updQueue_clock (q : Nat) (f : HwQueue → HwQueue) : (s.updQueue q f).clock = s.clock := rfl

/-! ### updLaunch -/

@[simp] theorem updLaunch_agenda (l : Nat) (f : Launch → Launch) : (s.updLaunch l f).agenda = s.agenda := rfl
@[simp] theorem updLaunch_issuer (l : Nat) (f : Launch → Launch) : (s.updLaunch l f).issuer = s.issuer := rfl
@[simp] theorem updLaunch_held (l : Nat) (f : Launch → Launch) : (s.updLaunch l f).held = s.held := rfl
@[simp] theorem updLaunch_choice (l : Nat) (f : Launch → Launch) : (s.updLaunch l f).choice = s.choice := rfl
@[simp] theorem updLaunch_fresh (l : Nat) (f : Launch → Launch) : (s.updLaunch l f).fresh = s.fresh := rfl
@[simp] theorem updLaunch_nextId (l : Nat) (f : Launch → Launch) : (s.updLaunch l f).nextId = s.nextId := rfl
@[simp] theorem updLaunch_mem (l : Nat) (f : Launch → Launch) : (s.updLaunch l f).mem = s.mem := rfl
@[simp] theorem updLaunch_tags (l : Nat) (f : Launch → Launch) : (s.updLaunch l f).tags = s.tags := rfl
@[simp] theorem updLaunch_dies (l : Nat) (f : Launch → Launch) : (s.updLaunch l f).dies = s.dies := rfl
@[simp] theorem updLaunch_cores (l : Nat) (f : Launch → Launch) : (s.updLaunch l f).cores = s.cores := rfl
@[simp] theorem updLaunch_teams (l : Nat) (f : Launch → Launch) : (s.updLaunch l f).teams = s.teams := rfl
@[simp] theorem updLaunch_warps (l : Nat) (f : Launch → Launch) : (s.updLaunch l f).warps = s.warps := rfl
@[simp] theorem updLaunch_convoys (l : Nat) (f : Launch → Launch) : (s.updLaunch l f).convoys = s.convoys := rfl
@[simp] theorem updLaunch_xfers (l : Nat) (f : Launch → Launch) : (s.updLaunch l f).xfers = s.xfers := rfl
@[simp] theorem updLaunch_writes (l : Nat) (f : Launch → Launch) : (s.updLaunch l f).writes = s.writes := rfl
@[simp] theorem updLaunch_reds (l : Nat) (f : Launch → Launch) : (s.updLaunch l f).reds = s.reds := rfl
@[simp] theorem updLaunch_atoms (l : Nat) (f : Launch → Launch) : (s.updLaunch l f).atoms = s.atoms := rfl
@[simp] theorem updLaunch_published (l : Nat) (f : Launch → Launch) : (s.updLaunch l f).published = s.published := rfl
@[simp] theorem updLaunch_olds (l : Nat) (f : Launch → Launch) : (s.updLaunch l f).olds = s.olds := rfl
@[simp] theorem updLaunch_lastIssue (l : Nat) (f : Launch → Launch) : (s.updLaunch l f).lastIssue = s.lastIssue := rfl
@[simp] theorem updLaunch_words (l : Nat) (f : Launch → Launch) : (s.updLaunch l f).words = s.words := rfl
@[simp] theorem updLaunch_shoot (l : Nat) (f : Launch → Launch) : (s.updLaunch l f).shoot = s.shoot := rfl
@[simp] theorem updLaunch_completions (l : Nat) (f : Launch → Launch) : (s.updLaunch l f).completions = s.completions := rfl
@[simp] theorem updLaunch_graphs (l : Nat) (f : Launch → Launch) : (s.updLaunch l f).graphs = s.graphs := rfl
@[simp] theorem updLaunch_jobs (l : Nat) (f : Launch → Launch) : (s.updLaunch l f).jobs = s.jobs := rfl
@[simp] theorem updLaunch_folios (l : Nat) (f : Launch → Launch) : (s.updLaunch l f).folios = s.folios := rfl
@[simp] theorem updLaunch_queues (l : Nat) (f : Launch → Launch) : (s.updLaunch l f).queues = s.queues := rfl
@[simp] theorem updLaunch_slots (l : Nat) (f : Launch → Launch) : (s.updLaunch l f).slots = s.slots := rfl
@[simp] theorem updLaunch_outbox (l : Nat) (f : Launch → Launch) : (s.updLaunch l f).outbox = s.outbox := rfl
@[simp] theorem updLaunch_inbox (l : Nat) (f : Launch → Launch) : (s.updLaunch l f).inbox = s.inbox := rfl
@[simp] theorem updLaunch_msix (l : Nat) (f : Launch → Launch) : (s.updLaunch l f).msix = s.msix := rfl
@[simp] theorem updLaunch_ports (l : Nat) (f : Launch → Launch) : (s.updLaunch l f).ports = s.ports := rfl
@[simp] theorem updLaunch_caps (l : Nat) (f : Launch → Launch) : (s.updLaunch l f).caps = s.caps := rfl
@[simp] theorem updLaunch_below (l : Nat) (f : Launch → Launch) : (s.updLaunch l f).below = s.below := rfl
@[simp] theorem updLaunch_moving (l : Nat) (f : Launch → Launch) : (s.updLaunch l f).moving = s.moving := rfl
@[simp] theorem updLaunch_pkgSet (l : Nat) (f : Launch → Launch) : (s.updLaunch l f).pkgSet = s.pkgSet := rfl
@[simp] theorem updLaunch_retraining (l : Nat) (f : Launch → Launch) : (s.updLaunch l f).retraining = s.retraining := rfl
@[simp] theorem updLaunch_recovery (l : Nat) (f : Launch → Launch) : (s.updLaunch l f).recovery = s.recovery := rfl
@[simp] theorem updLaunch_ckpt (l : Nat) (f : Launch → Launch) : (s.updLaunch l f).ckpt = s.ckpt := rfl
@[simp] theorem updLaunch_ckptTeams (l : Nat) (f : Launch → Launch) : (s.updLaunch l f).ckptTeams = s.ckptTeams := rfl
@[simp] theorem updLaunch_reports (l : Nat) (f : Launch → Launch) : (s.updLaunch l f).reports = s.reports := rfl
@[simp] theorem updLaunch_answers (l : Nat) (f : Launch → Launch) : (s.updLaunch l f).answers = s.answers := rfl
@[simp] theorem updLaunch_clock (l : Nat) (f : Launch → Launch) : (s.updLaunch l f).clock = s.clock := rfl

/-! ### updConvoy -/

@[simp] theorem updConvoy_agenda (c : Nat) (f : Convoy → Convoy) : (s.updConvoy c f).agenda = s.agenda := rfl
@[simp] theorem updConvoy_issuer (c : Nat) (f : Convoy → Convoy) : (s.updConvoy c f).issuer = s.issuer := rfl
@[simp] theorem updConvoy_held (c : Nat) (f : Convoy → Convoy) : (s.updConvoy c f).held = s.held := rfl
@[simp] theorem updConvoy_choice (c : Nat) (f : Convoy → Convoy) : (s.updConvoy c f).choice = s.choice := rfl
@[simp] theorem updConvoy_fresh (c : Nat) (f : Convoy → Convoy) : (s.updConvoy c f).fresh = s.fresh := rfl
@[simp] theorem updConvoy_nextId (c : Nat) (f : Convoy → Convoy) : (s.updConvoy c f).nextId = s.nextId := rfl
@[simp] theorem updConvoy_mem (c : Nat) (f : Convoy → Convoy) : (s.updConvoy c f).mem = s.mem := rfl
@[simp] theorem updConvoy_tags (c : Nat) (f : Convoy → Convoy) : (s.updConvoy c f).tags = s.tags := rfl
@[simp] theorem updConvoy_dies (c : Nat) (f : Convoy → Convoy) : (s.updConvoy c f).dies = s.dies := rfl
@[simp] theorem updConvoy_cores (c : Nat) (f : Convoy → Convoy) : (s.updConvoy c f).cores = s.cores := rfl
@[simp] theorem updConvoy_teams (c : Nat) (f : Convoy → Convoy) : (s.updConvoy c f).teams = s.teams := rfl
@[simp] theorem updConvoy_warps (c : Nat) (f : Convoy → Convoy) : (s.updConvoy c f).warps = s.warps := rfl
@[simp] theorem updConvoy_xfers (c : Nat) (f : Convoy → Convoy) : (s.updConvoy c f).xfers = s.xfers := rfl
@[simp] theorem updConvoy_writes (c : Nat) (f : Convoy → Convoy) : (s.updConvoy c f).writes = s.writes := rfl
@[simp] theorem updConvoy_reds (c : Nat) (f : Convoy → Convoy) : (s.updConvoy c f).reds = s.reds := rfl
@[simp] theorem updConvoy_atoms (c : Nat) (f : Convoy → Convoy) : (s.updConvoy c f).atoms = s.atoms := rfl
@[simp] theorem updConvoy_published (c : Nat) (f : Convoy → Convoy) : (s.updConvoy c f).published = s.published := rfl
@[simp] theorem updConvoy_olds (c : Nat) (f : Convoy → Convoy) : (s.updConvoy c f).olds = s.olds := rfl
@[simp] theorem updConvoy_lastIssue (c : Nat) (f : Convoy → Convoy) : (s.updConvoy c f).lastIssue = s.lastIssue := rfl
@[simp] theorem updConvoy_words (c : Nat) (f : Convoy → Convoy) : (s.updConvoy c f).words = s.words := rfl
@[simp] theorem updConvoy_shoot (c : Nat) (f : Convoy → Convoy) : (s.updConvoy c f).shoot = s.shoot := rfl
@[simp] theorem updConvoy_completions (c : Nat) (f : Convoy → Convoy) : (s.updConvoy c f).completions = s.completions := rfl
@[simp] theorem updConvoy_launches (c : Nat) (f : Convoy → Convoy) : (s.updConvoy c f).launches = s.launches := rfl
@[simp] theorem updConvoy_graphs (c : Nat) (f : Convoy → Convoy) : (s.updConvoy c f).graphs = s.graphs := rfl
@[simp] theorem updConvoy_jobs (c : Nat) (f : Convoy → Convoy) : (s.updConvoy c f).jobs = s.jobs := rfl
@[simp] theorem updConvoy_folios (c : Nat) (f : Convoy → Convoy) : (s.updConvoy c f).folios = s.folios := rfl
@[simp] theorem updConvoy_queues (c : Nat) (f : Convoy → Convoy) : (s.updConvoy c f).queues = s.queues := rfl
@[simp] theorem updConvoy_slots (c : Nat) (f : Convoy → Convoy) : (s.updConvoy c f).slots = s.slots := rfl
@[simp] theorem updConvoy_outbox (c : Nat) (f : Convoy → Convoy) : (s.updConvoy c f).outbox = s.outbox := rfl
@[simp] theorem updConvoy_inbox (c : Nat) (f : Convoy → Convoy) : (s.updConvoy c f).inbox = s.inbox := rfl
@[simp] theorem updConvoy_msix (c : Nat) (f : Convoy → Convoy) : (s.updConvoy c f).msix = s.msix := rfl
@[simp] theorem updConvoy_ports (c : Nat) (f : Convoy → Convoy) : (s.updConvoy c f).ports = s.ports := rfl
@[simp] theorem updConvoy_caps (c : Nat) (f : Convoy → Convoy) : (s.updConvoy c f).caps = s.caps := rfl
@[simp] theorem updConvoy_below (c : Nat) (f : Convoy → Convoy) : (s.updConvoy c f).below = s.below := rfl
@[simp] theorem updConvoy_moving (c : Nat) (f : Convoy → Convoy) : (s.updConvoy c f).moving = s.moving := rfl
@[simp] theorem updConvoy_pkgSet (c : Nat) (f : Convoy → Convoy) : (s.updConvoy c f).pkgSet = s.pkgSet := rfl
@[simp] theorem updConvoy_retraining (c : Nat) (f : Convoy → Convoy) : (s.updConvoy c f).retraining = s.retraining := rfl
@[simp] theorem updConvoy_recovery (c : Nat) (f : Convoy → Convoy) : (s.updConvoy c f).recovery = s.recovery := rfl
@[simp] theorem updConvoy_ckpt (c : Nat) (f : Convoy → Convoy) : (s.updConvoy c f).ckpt = s.ckpt := rfl
@[simp] theorem updConvoy_ckptTeams (c : Nat) (f : Convoy → Convoy) : (s.updConvoy c f).ckptTeams = s.ckptTeams := rfl
@[simp] theorem updConvoy_reports (c : Nat) (f : Convoy → Convoy) : (s.updConvoy c f).reports = s.reports := rfl
@[simp] theorem updConvoy_answers (c : Nat) (f : Convoy → Convoy) : (s.updConvoy c f).answers = s.answers := rfl
@[simp] theorem updConvoy_clock (c : Nat) (f : Convoy → Convoy) : (s.updConvoy c f).clock = s.clock := rfl

/-! ### updEntry -/

@[simp] theorem updEntry_agenda (r : LeafRef) (f : Entry → Entry) : (s.updEntry r f).agenda = s.agenda := rfl
@[simp] theorem updEntry_issuer (r : LeafRef) (f : Entry → Entry) : (s.updEntry r f).issuer = s.issuer := rfl
@[simp] theorem updEntry_held (r : LeafRef) (f : Entry → Entry) : (s.updEntry r f).held = s.held := rfl
@[simp] theorem updEntry_choice (r : LeafRef) (f : Entry → Entry) : (s.updEntry r f).choice = s.choice := rfl
@[simp] theorem updEntry_fresh (r : LeafRef) (f : Entry → Entry) : (s.updEntry r f).fresh = s.fresh := rfl
@[simp] theorem updEntry_nextId (r : LeafRef) (f : Entry → Entry) : (s.updEntry r f).nextId = s.nextId := rfl
@[simp] theorem updEntry_mem (r : LeafRef) (f : Entry → Entry) : (s.updEntry r f).mem = s.mem := rfl
@[simp] theorem updEntry_tags (r : LeafRef) (f : Entry → Entry) : (s.updEntry r f).tags = s.tags := rfl
@[simp] theorem updEntry_dies (r : LeafRef) (f : Entry → Entry) : (s.updEntry r f).dies = s.dies := rfl
@[simp] theorem updEntry_cores (r : LeafRef) (f : Entry → Entry) : (s.updEntry r f).cores = s.cores := rfl
@[simp] theorem updEntry_teams (r : LeafRef) (f : Entry → Entry) : (s.updEntry r f).teams = s.teams := rfl
@[simp] theorem updEntry_convoys (r : LeafRef) (f : Entry → Entry) : (s.updEntry r f).convoys = s.convoys := rfl
@[simp] theorem updEntry_xfers (r : LeafRef) (f : Entry → Entry) : (s.updEntry r f).xfers = s.xfers := rfl
@[simp] theorem updEntry_writes (r : LeafRef) (f : Entry → Entry) : (s.updEntry r f).writes = s.writes := rfl
@[simp] theorem updEntry_reds (r : LeafRef) (f : Entry → Entry) : (s.updEntry r f).reds = s.reds := rfl
@[simp] theorem updEntry_atoms (r : LeafRef) (f : Entry → Entry) : (s.updEntry r f).atoms = s.atoms := rfl
@[simp] theorem updEntry_published (r : LeafRef) (f : Entry → Entry) : (s.updEntry r f).published = s.published := rfl
@[simp] theorem updEntry_olds (r : LeafRef) (f : Entry → Entry) : (s.updEntry r f).olds = s.olds := rfl
@[simp] theorem updEntry_lastIssue (r : LeafRef) (f : Entry → Entry) : (s.updEntry r f).lastIssue = s.lastIssue := rfl
@[simp] theorem updEntry_words (r : LeafRef) (f : Entry → Entry) : (s.updEntry r f).words = s.words := rfl
@[simp] theorem updEntry_shoot (r : LeafRef) (f : Entry → Entry) : (s.updEntry r f).shoot = s.shoot := rfl
@[simp] theorem updEntry_completions (r : LeafRef) (f : Entry → Entry) : (s.updEntry r f).completions = s.completions := rfl
@[simp] theorem updEntry_launches (r : LeafRef) (f : Entry → Entry) : (s.updEntry r f).launches = s.launches := rfl
@[simp] theorem updEntry_graphs (r : LeafRef) (f : Entry → Entry) : (s.updEntry r f).graphs = s.graphs := rfl
@[simp] theorem updEntry_jobs (r : LeafRef) (f : Entry → Entry) : (s.updEntry r f).jobs = s.jobs := rfl
@[simp] theorem updEntry_folios (r : LeafRef) (f : Entry → Entry) : (s.updEntry r f).folios = s.folios := rfl
@[simp] theorem updEntry_queues (r : LeafRef) (f : Entry → Entry) : (s.updEntry r f).queues = s.queues := rfl
@[simp] theorem updEntry_slots (r : LeafRef) (f : Entry → Entry) : (s.updEntry r f).slots = s.slots := rfl
@[simp] theorem updEntry_outbox (r : LeafRef) (f : Entry → Entry) : (s.updEntry r f).outbox = s.outbox := rfl
@[simp] theorem updEntry_inbox (r : LeafRef) (f : Entry → Entry) : (s.updEntry r f).inbox = s.inbox := rfl
@[simp] theorem updEntry_msix (r : LeafRef) (f : Entry → Entry) : (s.updEntry r f).msix = s.msix := rfl
@[simp] theorem updEntry_ports (r : LeafRef) (f : Entry → Entry) : (s.updEntry r f).ports = s.ports := rfl
@[simp] theorem updEntry_caps (r : LeafRef) (f : Entry → Entry) : (s.updEntry r f).caps = s.caps := rfl
@[simp] theorem updEntry_below (r : LeafRef) (f : Entry → Entry) : (s.updEntry r f).below = s.below := rfl
@[simp] theorem updEntry_moving (r : LeafRef) (f : Entry → Entry) : (s.updEntry r f).moving = s.moving := rfl
@[simp] theorem updEntry_pkgSet (r : LeafRef) (f : Entry → Entry) : (s.updEntry r f).pkgSet = s.pkgSet := rfl
@[simp] theorem updEntry_retraining (r : LeafRef) (f : Entry → Entry) : (s.updEntry r f).retraining = s.retraining := rfl
@[simp] theorem updEntry_recovery (r : LeafRef) (f : Entry → Entry) : (s.updEntry r f).recovery = s.recovery := rfl
@[simp] theorem updEntry_ckpt (r : LeafRef) (f : Entry → Entry) : (s.updEntry r f).ckpt = s.ckpt := rfl
@[simp] theorem updEntry_ckptTeams (r : LeafRef) (f : Entry → Entry) : (s.updEntry r f).ckptTeams = s.ckptTeams := rfl
@[simp] theorem updEntry_reports (r : LeafRef) (f : Entry → Entry) : (s.updEntry r f).reports = s.reports := rfl
@[simp] theorem updEntry_answers (r : LeafRef) (f : Entry → Entry) : (s.updEntry r f).answers = s.answers := rfl
@[simp] theorem updEntry_clock (r : LeafRef) (f : Entry → Entry) : (s.updEntry r f).clock = s.clock := rfl

/-! ### updThread -/

@[simp] theorem updThread_agenda (t w i : Nat) (f : Thread → Thread) : (s.updThread t w i f).agenda = s.agenda := rfl
@[simp] theorem updThread_issuer (t w i : Nat) (f : Thread → Thread) : (s.updThread t w i f).issuer = s.issuer := rfl
@[simp] theorem updThread_held (t w i : Nat) (f : Thread → Thread) : (s.updThread t w i f).held = s.held := rfl
@[simp] theorem updThread_choice (t w i : Nat) (f : Thread → Thread) : (s.updThread t w i f).choice = s.choice := rfl
@[simp] theorem updThread_fresh (t w i : Nat) (f : Thread → Thread) : (s.updThread t w i f).fresh = s.fresh := rfl
@[simp] theorem updThread_nextId (t w i : Nat) (f : Thread → Thread) : (s.updThread t w i f).nextId = s.nextId := rfl
@[simp] theorem updThread_mem (t w i : Nat) (f : Thread → Thread) : (s.updThread t w i f).mem = s.mem := rfl
@[simp] theorem updThread_tags (t w i : Nat) (f : Thread → Thread) : (s.updThread t w i f).tags = s.tags := rfl
@[simp] theorem updThread_dies (t w i : Nat) (f : Thread → Thread) : (s.updThread t w i f).dies = s.dies := rfl
@[simp] theorem updThread_cores (t w i : Nat) (f : Thread → Thread) : (s.updThread t w i f).cores = s.cores := rfl
@[simp] theorem updThread_teams (t w i : Nat) (f : Thread → Thread) : (s.updThread t w i f).teams = s.teams := rfl
@[simp] theorem updThread_convoys (t w i : Nat) (f : Thread → Thread) : (s.updThread t w i f).convoys = s.convoys := rfl
@[simp] theorem updThread_xfers (t w i : Nat) (f : Thread → Thread) : (s.updThread t w i f).xfers = s.xfers := rfl
@[simp] theorem updThread_writes (t w i : Nat) (f : Thread → Thread) : (s.updThread t w i f).writes = s.writes := rfl
@[simp] theorem updThread_reds (t w i : Nat) (f : Thread → Thread) : (s.updThread t w i f).reds = s.reds := rfl
@[simp] theorem updThread_atoms (t w i : Nat) (f : Thread → Thread) : (s.updThread t w i f).atoms = s.atoms := rfl
@[simp] theorem updThread_published (t w i : Nat) (f : Thread → Thread) : (s.updThread t w i f).published = s.published := rfl
@[simp] theorem updThread_olds (t w i : Nat) (f : Thread → Thread) : (s.updThread t w i f).olds = s.olds := rfl
@[simp] theorem updThread_lastIssue (t w i : Nat) (f : Thread → Thread) : (s.updThread t w i f).lastIssue = s.lastIssue := rfl
@[simp] theorem updThread_words (t w i : Nat) (f : Thread → Thread) : (s.updThread t w i f).words = s.words := rfl
@[simp] theorem updThread_shoot (t w i : Nat) (f : Thread → Thread) : (s.updThread t w i f).shoot = s.shoot := rfl
@[simp] theorem updThread_completions (t w i : Nat) (f : Thread → Thread) : (s.updThread t w i f).completions = s.completions := rfl
@[simp] theorem updThread_launches (t w i : Nat) (f : Thread → Thread) : (s.updThread t w i f).launches = s.launches := rfl
@[simp] theorem updThread_graphs (t w i : Nat) (f : Thread → Thread) : (s.updThread t w i f).graphs = s.graphs := rfl
@[simp] theorem updThread_jobs (t w i : Nat) (f : Thread → Thread) : (s.updThread t w i f).jobs = s.jobs := rfl
@[simp] theorem updThread_folios (t w i : Nat) (f : Thread → Thread) : (s.updThread t w i f).folios = s.folios := rfl
@[simp] theorem updThread_queues (t w i : Nat) (f : Thread → Thread) : (s.updThread t w i f).queues = s.queues := rfl
@[simp] theorem updThread_slots (t w i : Nat) (f : Thread → Thread) : (s.updThread t w i f).slots = s.slots := rfl
@[simp] theorem updThread_outbox (t w i : Nat) (f : Thread → Thread) : (s.updThread t w i f).outbox = s.outbox := rfl
@[simp] theorem updThread_inbox (t w i : Nat) (f : Thread → Thread) : (s.updThread t w i f).inbox = s.inbox := rfl
@[simp] theorem updThread_msix (t w i : Nat) (f : Thread → Thread) : (s.updThread t w i f).msix = s.msix := rfl
@[simp] theorem updThread_ports (t w i : Nat) (f : Thread → Thread) : (s.updThread t w i f).ports = s.ports := rfl
@[simp] theorem updThread_caps (t w i : Nat) (f : Thread → Thread) : (s.updThread t w i f).caps = s.caps := rfl
@[simp] theorem updThread_below (t w i : Nat) (f : Thread → Thread) : (s.updThread t w i f).below = s.below := rfl
@[simp] theorem updThread_moving (t w i : Nat) (f : Thread → Thread) : (s.updThread t w i f).moving = s.moving := rfl
@[simp] theorem updThread_pkgSet (t w i : Nat) (f : Thread → Thread) : (s.updThread t w i f).pkgSet = s.pkgSet := rfl
@[simp] theorem updThread_retraining (t w i : Nat) (f : Thread → Thread) : (s.updThread t w i f).retraining = s.retraining := rfl
@[simp] theorem updThread_recovery (t w i : Nat) (f : Thread → Thread) : (s.updThread t w i f).recovery = s.recovery := rfl
@[simp] theorem updThread_ckpt (t w i : Nat) (f : Thread → Thread) : (s.updThread t w i f).ckpt = s.ckpt := rfl
@[simp] theorem updThread_ckptTeams (t w i : Nat) (f : Thread → Thread) : (s.updThread t w i f).ckptTeams = s.ckptTeams := rfl
@[simp] theorem updThread_reports (t w i : Nat) (f : Thread → Thread) : (s.updThread t w i f).reports = s.reports := rfl
@[simp] theorem updThread_answers (t w i : Nat) (f : Thread → Thread) : (s.updThread t w i f).answers = s.answers := rfl
@[simp] theorem updThread_clock (t w i : Nat) (f : Thread → Thread) : (s.updThread t w i f).clock = s.clock := rfl

/-! ### setWord -/

@[simp] theorem setWord_agenda (n : Nat) (v : Word64) : (s.setWord n v).agenda = s.agenda := rfl
@[simp] theorem setWord_issuer (n : Nat) (v : Word64) : (s.setWord n v).issuer = s.issuer := rfl
@[simp] theorem setWord_held (n : Nat) (v : Word64) : (s.setWord n v).held = s.held := rfl
@[simp] theorem setWord_choice (n : Nat) (v : Word64) : (s.setWord n v).choice = s.choice := rfl
@[simp] theorem setWord_fresh (n : Nat) (v : Word64) : (s.setWord n v).fresh = s.fresh := rfl
@[simp] theorem setWord_nextId (n : Nat) (v : Word64) : (s.setWord n v).nextId = s.nextId := rfl
@[simp] theorem setWord_mem (n : Nat) (v : Word64) : (s.setWord n v).mem = s.mem := rfl
@[simp] theorem setWord_tags (n : Nat) (v : Word64) : (s.setWord n v).tags = s.tags := rfl
@[simp] theorem setWord_dies (n : Nat) (v : Word64) : (s.setWord n v).dies = s.dies := rfl
@[simp] theorem setWord_cores (n : Nat) (v : Word64) : (s.setWord n v).cores = s.cores := rfl
@[simp] theorem setWord_teams (n : Nat) (v : Word64) : (s.setWord n v).teams = s.teams := rfl
@[simp] theorem setWord_warps (n : Nat) (v : Word64) : (s.setWord n v).warps = s.warps := rfl
@[simp] theorem setWord_convoys (n : Nat) (v : Word64) : (s.setWord n v).convoys = s.convoys := rfl
@[simp] theorem setWord_xfers (n : Nat) (v : Word64) : (s.setWord n v).xfers = s.xfers := rfl
@[simp] theorem setWord_writes (n : Nat) (v : Word64) : (s.setWord n v).writes = s.writes := rfl
@[simp] theorem setWord_reds (n : Nat) (v : Word64) : (s.setWord n v).reds = s.reds := rfl
@[simp] theorem setWord_atoms (n : Nat) (v : Word64) : (s.setWord n v).atoms = s.atoms := rfl
@[simp] theorem setWord_published (n : Nat) (v : Word64) : (s.setWord n v).published = s.published := rfl
@[simp] theorem setWord_olds (n : Nat) (v : Word64) : (s.setWord n v).olds = s.olds := rfl
@[simp] theorem setWord_lastIssue (n : Nat) (v : Word64) : (s.setWord n v).lastIssue = s.lastIssue := rfl
@[simp] theorem setWord_shoot (n : Nat) (v : Word64) : (s.setWord n v).shoot = s.shoot := rfl
@[simp] theorem setWord_completions (n : Nat) (v : Word64) : (s.setWord n v).completions = s.completions := rfl
@[simp] theorem setWord_launches (n : Nat) (v : Word64) : (s.setWord n v).launches = s.launches := rfl
@[simp] theorem setWord_graphs (n : Nat) (v : Word64) : (s.setWord n v).graphs = s.graphs := rfl
@[simp] theorem setWord_jobs (n : Nat) (v : Word64) : (s.setWord n v).jobs = s.jobs := rfl
@[simp] theorem setWord_folios (n : Nat) (v : Word64) : (s.setWord n v).folios = s.folios := rfl
@[simp] theorem setWord_queues (n : Nat) (v : Word64) : (s.setWord n v).queues = s.queues := rfl
@[simp] theorem setWord_slots (n : Nat) (v : Word64) : (s.setWord n v).slots = s.slots := rfl
@[simp] theorem setWord_outbox (n : Nat) (v : Word64) : (s.setWord n v).outbox = s.outbox := rfl
@[simp] theorem setWord_inbox (n : Nat) (v : Word64) : (s.setWord n v).inbox = s.inbox := rfl
@[simp] theorem setWord_msix (n : Nat) (v : Word64) : (s.setWord n v).msix = s.msix := rfl
@[simp] theorem setWord_ports (n : Nat) (v : Word64) : (s.setWord n v).ports = s.ports := rfl
@[simp] theorem setWord_caps (n : Nat) (v : Word64) : (s.setWord n v).caps = s.caps := rfl
@[simp] theorem setWord_below (n : Nat) (v : Word64) : (s.setWord n v).below = s.below := rfl
@[simp] theorem setWord_moving (n : Nat) (v : Word64) : (s.setWord n v).moving = s.moving := rfl
@[simp] theorem setWord_pkgSet (n : Nat) (v : Word64) : (s.setWord n v).pkgSet = s.pkgSet := rfl
@[simp] theorem setWord_retraining (n : Nat) (v : Word64) : (s.setWord n v).retraining = s.retraining := rfl
@[simp] theorem setWord_recovery (n : Nat) (v : Word64) : (s.setWord n v).recovery = s.recovery := rfl
@[simp] theorem setWord_ckpt (n : Nat) (v : Word64) : (s.setWord n v).ckpt = s.ckpt := rfl
@[simp] theorem setWord_ckptTeams (n : Nat) (v : Word64) : (s.setWord n v).ckptTeams = s.ckptTeams := rfl
@[simp] theorem setWord_reports (n : Nat) (v : Word64) : (s.setWord n v).reports = s.reports := rfl
@[simp] theorem setWord_answers (n : Nat) (v : Word64) : (s.setWord n v).answers = s.answers := rfl
@[simp] theorem setWord_clock (n : Nat) (v : Word64) : (s.setWord n v).clock = s.clock := rfl

/-! ### setDieWord -/

@[simp] theorem setDieWord_agenda (d n : Nat) (v : Word64) : (s.setDieWord d n v).agenda = s.agenda := rfl
@[simp] theorem setDieWord_issuer (d n : Nat) (v : Word64) : (s.setDieWord d n v).issuer = s.issuer := rfl
@[simp] theorem setDieWord_held (d n : Nat) (v : Word64) : (s.setDieWord d n v).held = s.held := rfl
@[simp] theorem setDieWord_choice (d n : Nat) (v : Word64) : (s.setDieWord d n v).choice = s.choice := rfl
@[simp] theorem setDieWord_fresh (d n : Nat) (v : Word64) : (s.setDieWord d n v).fresh = s.fresh := rfl
@[simp] theorem setDieWord_nextId (d n : Nat) (v : Word64) : (s.setDieWord d n v).nextId = s.nextId := rfl
@[simp] theorem setDieWord_mem (d n : Nat) (v : Word64) : (s.setDieWord d n v).mem = s.mem := rfl
@[simp] theorem setDieWord_tags (d n : Nat) (v : Word64) : (s.setDieWord d n v).tags = s.tags := rfl
@[simp] theorem setDieWord_cores (d n : Nat) (v : Word64) : (s.setDieWord d n v).cores = s.cores := rfl
@[simp] theorem setDieWord_teams (d n : Nat) (v : Word64) : (s.setDieWord d n v).teams = s.teams := rfl
@[simp] theorem setDieWord_warps (d n : Nat) (v : Word64) : (s.setDieWord d n v).warps = s.warps := rfl
@[simp] theorem setDieWord_convoys (d n : Nat) (v : Word64) : (s.setDieWord d n v).convoys = s.convoys := rfl
@[simp] theorem setDieWord_xfers (d n : Nat) (v : Word64) : (s.setDieWord d n v).xfers = s.xfers := rfl
@[simp] theorem setDieWord_writes (d n : Nat) (v : Word64) : (s.setDieWord d n v).writes = s.writes := rfl
@[simp] theorem setDieWord_reds (d n : Nat) (v : Word64) : (s.setDieWord d n v).reds = s.reds := rfl
@[simp] theorem setDieWord_atoms (d n : Nat) (v : Word64) : (s.setDieWord d n v).atoms = s.atoms := rfl
@[simp] theorem setDieWord_published (d n : Nat) (v : Word64) : (s.setDieWord d n v).published = s.published := rfl
@[simp] theorem setDieWord_olds (d n : Nat) (v : Word64) : (s.setDieWord d n v).olds = s.olds := rfl
@[simp] theorem setDieWord_lastIssue (d n : Nat) (v : Word64) : (s.setDieWord d n v).lastIssue = s.lastIssue := rfl
@[simp] theorem setDieWord_words (d n : Nat) (v : Word64) : (s.setDieWord d n v).words = s.words := rfl
@[simp] theorem setDieWord_shoot (d n : Nat) (v : Word64) : (s.setDieWord d n v).shoot = s.shoot := rfl
@[simp] theorem setDieWord_completions (d n : Nat) (v : Word64) : (s.setDieWord d n v).completions = s.completions := rfl
@[simp] theorem setDieWord_launches (d n : Nat) (v : Word64) : (s.setDieWord d n v).launches = s.launches := rfl
@[simp] theorem setDieWord_graphs (d n : Nat) (v : Word64) : (s.setDieWord d n v).graphs = s.graphs := rfl
@[simp] theorem setDieWord_jobs (d n : Nat) (v : Word64) : (s.setDieWord d n v).jobs = s.jobs := rfl
@[simp] theorem setDieWord_folios (d n : Nat) (v : Word64) : (s.setDieWord d n v).folios = s.folios := rfl
@[simp] theorem setDieWord_queues (d n : Nat) (v : Word64) : (s.setDieWord d n v).queues = s.queues := rfl
@[simp] theorem setDieWord_slots (d n : Nat) (v : Word64) : (s.setDieWord d n v).slots = s.slots := rfl
@[simp] theorem setDieWord_outbox (d n : Nat) (v : Word64) : (s.setDieWord d n v).outbox = s.outbox := rfl
@[simp] theorem setDieWord_inbox (d n : Nat) (v : Word64) : (s.setDieWord d n v).inbox = s.inbox := rfl
@[simp] theorem setDieWord_msix (d n : Nat) (v : Word64) : (s.setDieWord d n v).msix = s.msix := rfl
@[simp] theorem setDieWord_ports (d n : Nat) (v : Word64) : (s.setDieWord d n v).ports = s.ports := rfl
@[simp] theorem setDieWord_caps (d n : Nat) (v : Word64) : (s.setDieWord d n v).caps = s.caps := rfl
@[simp] theorem setDieWord_below (d n : Nat) (v : Word64) : (s.setDieWord d n v).below = s.below := rfl
@[simp] theorem setDieWord_moving (d n : Nat) (v : Word64) : (s.setDieWord d n v).moving = s.moving := rfl
@[simp] theorem setDieWord_pkgSet (d n : Nat) (v : Word64) : (s.setDieWord d n v).pkgSet = s.pkgSet := rfl
@[simp] theorem setDieWord_retraining (d n : Nat) (v : Word64) : (s.setDieWord d n v).retraining = s.retraining := rfl
@[simp] theorem setDieWord_recovery (d n : Nat) (v : Word64) : (s.setDieWord d n v).recovery = s.recovery := rfl
@[simp] theorem setDieWord_ckpt (d n : Nat) (v : Word64) : (s.setDieWord d n v).ckpt = s.ckpt := rfl
@[simp] theorem setDieWord_ckptTeams (d n : Nat) (v : Word64) : (s.setDieWord d n v).ckptTeams = s.ckptTeams := rfl
@[simp] theorem setDieWord_reports (d n : Nat) (v : Word64) : (s.setDieWord d n v).reports = s.reports := rfl
@[simp] theorem setDieWord_answers (d n : Nat) (v : Word64) : (s.setDieWord d n v).answers = s.answers := rfl
@[simp] theorem setDieWord_clock (d n : Nat) (v : Word64) : (s.setDieWord d n v).clock = s.clock := rfl

/-! ### bumpDie -/

@[simp] theorem bumpDie_agenda (d w n : Nat) : (s.bumpDie d w n).agenda = s.agenda := rfl
@[simp] theorem bumpDie_issuer (d w n : Nat) : (s.bumpDie d w n).issuer = s.issuer := rfl
@[simp] theorem bumpDie_held (d w n : Nat) : (s.bumpDie d w n).held = s.held := rfl
@[simp] theorem bumpDie_choice (d w n : Nat) : (s.bumpDie d w n).choice = s.choice := rfl
@[simp] theorem bumpDie_fresh (d w n : Nat) : (s.bumpDie d w n).fresh = s.fresh := rfl
@[simp] theorem bumpDie_nextId (d w n : Nat) : (s.bumpDie d w n).nextId = s.nextId := rfl
@[simp] theorem bumpDie_mem (d w n : Nat) : (s.bumpDie d w n).mem = s.mem := rfl
@[simp] theorem bumpDie_tags (d w n : Nat) : (s.bumpDie d w n).tags = s.tags := rfl
@[simp] theorem bumpDie_cores (d w n : Nat) : (s.bumpDie d w n).cores = s.cores := rfl
@[simp] theorem bumpDie_teams (d w n : Nat) : (s.bumpDie d w n).teams = s.teams := rfl
@[simp] theorem bumpDie_warps (d w n : Nat) : (s.bumpDie d w n).warps = s.warps := rfl
@[simp] theorem bumpDie_convoys (d w n : Nat) : (s.bumpDie d w n).convoys = s.convoys := rfl
@[simp] theorem bumpDie_xfers (d w n : Nat) : (s.bumpDie d w n).xfers = s.xfers := rfl
@[simp] theorem bumpDie_writes (d w n : Nat) : (s.bumpDie d w n).writes = s.writes := rfl
@[simp] theorem bumpDie_reds (d w n : Nat) : (s.bumpDie d w n).reds = s.reds := rfl
@[simp] theorem bumpDie_atoms (d w n : Nat) : (s.bumpDie d w n).atoms = s.atoms := rfl
@[simp] theorem bumpDie_published (d w n : Nat) : (s.bumpDie d w n).published = s.published := rfl
@[simp] theorem bumpDie_olds (d w n : Nat) : (s.bumpDie d w n).olds = s.olds := rfl
@[simp] theorem bumpDie_lastIssue (d w n : Nat) : (s.bumpDie d w n).lastIssue = s.lastIssue := rfl
@[simp] theorem bumpDie_words (d w n : Nat) : (s.bumpDie d w n).words = s.words := rfl
@[simp] theorem bumpDie_shoot (d w n : Nat) : (s.bumpDie d w n).shoot = s.shoot := rfl
@[simp] theorem bumpDie_completions (d w n : Nat) : (s.bumpDie d w n).completions = s.completions := rfl
@[simp] theorem bumpDie_launches (d w n : Nat) : (s.bumpDie d w n).launches = s.launches := rfl
@[simp] theorem bumpDie_graphs (d w n : Nat) : (s.bumpDie d w n).graphs = s.graphs := rfl
@[simp] theorem bumpDie_jobs (d w n : Nat) : (s.bumpDie d w n).jobs = s.jobs := rfl
@[simp] theorem bumpDie_folios (d w n : Nat) : (s.bumpDie d w n).folios = s.folios := rfl
@[simp] theorem bumpDie_queues (d w n : Nat) : (s.bumpDie d w n).queues = s.queues := rfl
@[simp] theorem bumpDie_slots (d w n : Nat) : (s.bumpDie d w n).slots = s.slots := rfl
@[simp] theorem bumpDie_outbox (d w n : Nat) : (s.bumpDie d w n).outbox = s.outbox := rfl
@[simp] theorem bumpDie_inbox (d w n : Nat) : (s.bumpDie d w n).inbox = s.inbox := rfl
@[simp] theorem bumpDie_msix (d w n : Nat) : (s.bumpDie d w n).msix = s.msix := rfl
@[simp] theorem bumpDie_ports (d w n : Nat) : (s.bumpDie d w n).ports = s.ports := rfl
@[simp] theorem bumpDie_caps (d w n : Nat) : (s.bumpDie d w n).caps = s.caps := rfl
@[simp] theorem bumpDie_below (d w n : Nat) : (s.bumpDie d w n).below = s.below := rfl
@[simp] theorem bumpDie_moving (d w n : Nat) : (s.bumpDie d w n).moving = s.moving := rfl
@[simp] theorem bumpDie_pkgSet (d w n : Nat) : (s.bumpDie d w n).pkgSet = s.pkgSet := rfl
@[simp] theorem bumpDie_retraining (d w n : Nat) : (s.bumpDie d w n).retraining = s.retraining := rfl
@[simp] theorem bumpDie_recovery (d w n : Nat) : (s.bumpDie d w n).recovery = s.recovery := rfl
@[simp] theorem bumpDie_ckpt (d w n : Nat) : (s.bumpDie d w n).ckpt = s.ckpt := rfl
@[simp] theorem bumpDie_ckptTeams (d w n : Nat) : (s.bumpDie d w n).ckptTeams = s.ckptTeams := rfl
@[simp] theorem bumpDie_reports (d w n : Nat) : (s.bumpDie d w n).reports = s.reports := rfl
@[simp] theorem bumpDie_answers (d w n : Nat) : (s.bumpDie d w n).answers = s.answers := rfl
@[simp] theorem bumpDie_clock (d w n : Nat) : (s.bumpDie d w n).clock = s.clock := rfl

/-! ### raiseMsix -/

@[simp] theorem raiseMsix_agenda (v : Nat) : (s.raiseMsix v).agenda = s.agenda := rfl
@[simp] theorem raiseMsix_issuer (v : Nat) : (s.raiseMsix v).issuer = s.issuer := rfl
@[simp] theorem raiseMsix_held (v : Nat) : (s.raiseMsix v).held = s.held := rfl
@[simp] theorem raiseMsix_choice (v : Nat) : (s.raiseMsix v).choice = s.choice := rfl
@[simp] theorem raiseMsix_fresh (v : Nat) : (s.raiseMsix v).fresh = s.fresh := rfl
@[simp] theorem raiseMsix_nextId (v : Nat) : (s.raiseMsix v).nextId = s.nextId := rfl
@[simp] theorem raiseMsix_mem (v : Nat) : (s.raiseMsix v).mem = s.mem := rfl
@[simp] theorem raiseMsix_tags (v : Nat) : (s.raiseMsix v).tags = s.tags := rfl
@[simp] theorem raiseMsix_dies (v : Nat) : (s.raiseMsix v).dies = s.dies := rfl
@[simp] theorem raiseMsix_cores (v : Nat) : (s.raiseMsix v).cores = s.cores := rfl
@[simp] theorem raiseMsix_teams (v : Nat) : (s.raiseMsix v).teams = s.teams := rfl
@[simp] theorem raiseMsix_warps (v : Nat) : (s.raiseMsix v).warps = s.warps := rfl
@[simp] theorem raiseMsix_convoys (v : Nat) : (s.raiseMsix v).convoys = s.convoys := rfl
@[simp] theorem raiseMsix_xfers (v : Nat) : (s.raiseMsix v).xfers = s.xfers := rfl
@[simp] theorem raiseMsix_writes (v : Nat) : (s.raiseMsix v).writes = s.writes := rfl
@[simp] theorem raiseMsix_reds (v : Nat) : (s.raiseMsix v).reds = s.reds := rfl
@[simp] theorem raiseMsix_atoms (v : Nat) : (s.raiseMsix v).atoms = s.atoms := rfl
@[simp] theorem raiseMsix_published (v : Nat) : (s.raiseMsix v).published = s.published := rfl
@[simp] theorem raiseMsix_olds (v : Nat) : (s.raiseMsix v).olds = s.olds := rfl
@[simp] theorem raiseMsix_lastIssue (v : Nat) : (s.raiseMsix v).lastIssue = s.lastIssue := rfl
@[simp] theorem raiseMsix_words (v : Nat) : (s.raiseMsix v).words = s.words := rfl
@[simp] theorem raiseMsix_shoot (v : Nat) : (s.raiseMsix v).shoot = s.shoot := rfl
@[simp] theorem raiseMsix_completions (v : Nat) : (s.raiseMsix v).completions = s.completions := rfl
@[simp] theorem raiseMsix_launches (v : Nat) : (s.raiseMsix v).launches = s.launches := rfl
@[simp] theorem raiseMsix_graphs (v : Nat) : (s.raiseMsix v).graphs = s.graphs := rfl
@[simp] theorem raiseMsix_jobs (v : Nat) : (s.raiseMsix v).jobs = s.jobs := rfl
@[simp] theorem raiseMsix_folios (v : Nat) : (s.raiseMsix v).folios = s.folios := rfl
@[simp] theorem raiseMsix_queues (v : Nat) : (s.raiseMsix v).queues = s.queues := rfl
@[simp] theorem raiseMsix_slots (v : Nat) : (s.raiseMsix v).slots = s.slots := rfl
@[simp] theorem raiseMsix_outbox (v : Nat) : (s.raiseMsix v).outbox = s.outbox := rfl
@[simp] theorem raiseMsix_inbox (v : Nat) : (s.raiseMsix v).inbox = s.inbox := rfl
@[simp] theorem raiseMsix_ports (v : Nat) : (s.raiseMsix v).ports = s.ports := rfl
@[simp] theorem raiseMsix_caps (v : Nat) : (s.raiseMsix v).caps = s.caps := rfl
@[simp] theorem raiseMsix_below (v : Nat) : (s.raiseMsix v).below = s.below := rfl
@[simp] theorem raiseMsix_moving (v : Nat) : (s.raiseMsix v).moving = s.moving := rfl
@[simp] theorem raiseMsix_pkgSet (v : Nat) : (s.raiseMsix v).pkgSet = s.pkgSet := rfl
@[simp] theorem raiseMsix_retraining (v : Nat) : (s.raiseMsix v).retraining = s.retraining := rfl
@[simp] theorem raiseMsix_recovery (v : Nat) : (s.raiseMsix v).recovery = s.recovery := rfl
@[simp] theorem raiseMsix_ckpt (v : Nat) : (s.raiseMsix v).ckpt = s.ckpt := rfl
@[simp] theorem raiseMsix_ckptTeams (v : Nat) : (s.raiseMsix v).ckptTeams = s.ckptTeams := rfl
@[simp] theorem raiseMsix_reports (v : Nat) : (s.raiseMsix v).reports = s.reports := rfl
@[simp] theorem raiseMsix_answers (v : Nat) : (s.raiseMsix v).answers = s.answers := rfl
@[simp] theorem raiseMsix_clock (v : Nat) : (s.raiseMsix v).clock = s.clock := rfl

/-! ### mark -/

@[simp] theorem mark_agenda (r : LeafRef) : (s.mark r).agenda = s.agenda := rfl
@[simp] theorem mark_issuer (r : LeafRef) : (s.mark r).issuer = s.issuer := rfl
@[simp] theorem mark_held (r : LeafRef) : (s.mark r).held = s.held := rfl
@[simp] theorem mark_choice (r : LeafRef) : (s.mark r).choice = s.choice := rfl
@[simp] theorem mark_nextId (r : LeafRef) : (s.mark r).nextId = s.nextId := rfl
@[simp] theorem mark_mem (r : LeafRef) : (s.mark r).mem = s.mem := rfl
@[simp] theorem mark_tags (r : LeafRef) : (s.mark r).tags = s.tags := rfl
@[simp] theorem mark_dies (r : LeafRef) : (s.mark r).dies = s.dies := rfl
@[simp] theorem mark_cores (r : LeafRef) : (s.mark r).cores = s.cores := rfl
@[simp] theorem mark_teams (r : LeafRef) : (s.mark r).teams = s.teams := rfl
@[simp] theorem mark_warps (r : LeafRef) : (s.mark r).warps = s.warps := rfl
@[simp] theorem mark_convoys (r : LeafRef) : (s.mark r).convoys = s.convoys := rfl
@[simp] theorem mark_xfers (r : LeafRef) : (s.mark r).xfers = s.xfers := rfl
@[simp] theorem mark_writes (r : LeafRef) : (s.mark r).writes = s.writes := rfl
@[simp] theorem mark_reds (r : LeafRef) : (s.mark r).reds = s.reds := rfl
@[simp] theorem mark_atoms (r : LeafRef) : (s.mark r).atoms = s.atoms := rfl
@[simp] theorem mark_published (r : LeafRef) : (s.mark r).published = s.published := rfl
@[simp] theorem mark_olds (r : LeafRef) : (s.mark r).olds = s.olds := rfl
@[simp] theorem mark_words (r : LeafRef) : (s.mark r).words = s.words := rfl
@[simp] theorem mark_shoot (r : LeafRef) : (s.mark r).shoot = s.shoot := rfl
@[simp] theorem mark_completions (r : LeafRef) : (s.mark r).completions = s.completions := rfl
@[simp] theorem mark_launches (r : LeafRef) : (s.mark r).launches = s.launches := rfl
@[simp] theorem mark_graphs (r : LeafRef) : (s.mark r).graphs = s.graphs := rfl
@[simp] theorem mark_jobs (r : LeafRef) : (s.mark r).jobs = s.jobs := rfl
@[simp] theorem mark_folios (r : LeafRef) : (s.mark r).folios = s.folios := rfl
@[simp] theorem mark_queues (r : LeafRef) : (s.mark r).queues = s.queues := rfl
@[simp] theorem mark_slots (r : LeafRef) : (s.mark r).slots = s.slots := rfl
@[simp] theorem mark_outbox (r : LeafRef) : (s.mark r).outbox = s.outbox := rfl
@[simp] theorem mark_inbox (r : LeafRef) : (s.mark r).inbox = s.inbox := rfl
@[simp] theorem mark_msix (r : LeafRef) : (s.mark r).msix = s.msix := rfl
@[simp] theorem mark_ports (r : LeafRef) : (s.mark r).ports = s.ports := rfl
@[simp] theorem mark_caps (r : LeafRef) : (s.mark r).caps = s.caps := rfl
@[simp] theorem mark_below (r : LeafRef) : (s.mark r).below = s.below := rfl
@[simp] theorem mark_moving (r : LeafRef) : (s.mark r).moving = s.moving := rfl
@[simp] theorem mark_pkgSet (r : LeafRef) : (s.mark r).pkgSet = s.pkgSet := rfl
@[simp] theorem mark_retraining (r : LeafRef) : (s.mark r).retraining = s.retraining := rfl
@[simp] theorem mark_recovery (r : LeafRef) : (s.mark r).recovery = s.recovery := rfl
@[simp] theorem mark_ckpt (r : LeafRef) : (s.mark r).ckpt = s.ckpt := rfl
@[simp] theorem mark_ckptTeams (r : LeafRef) : (s.mark r).ckptTeams = s.ckptTeams := rfl
@[simp] theorem mark_reports (r : LeafRef) : (s.mark r).reports = s.reports := rfl
@[simp] theorem mark_answers (r : LeafRef) : (s.mark r).answers = s.answers := rfl
@[simp] theorem mark_clock (r : LeafRef) : (s.mark r).clock = s.clock := rfl

/-! ### issued -/

@[simp] theorem issued_agenda : (s.issued).agenda = s.agenda := rfl
@[simp] theorem issued_issuer : (s.issued).issuer = s.issuer := rfl
@[simp] theorem issued_held : (s.issued).held = s.held := rfl
@[simp] theorem issued_choice : (s.issued).choice = s.choice := rfl
@[simp] theorem issued_nextId : (s.issued).nextId = s.nextId := rfl
@[simp] theorem issued_mem : (s.issued).mem = s.mem := rfl
@[simp] theorem issued_tags : (s.issued).tags = s.tags := rfl
@[simp] theorem issued_dies : (s.issued).dies = s.dies := rfl
@[simp] theorem issued_cores : (s.issued).cores = s.cores := rfl
@[simp] theorem issued_teams : (s.issued).teams = s.teams := rfl
@[simp] theorem issued_warps : (s.issued).warps = s.warps := rfl
@[simp] theorem issued_convoys : (s.issued).convoys = s.convoys := rfl
@[simp] theorem issued_xfers : (s.issued).xfers = s.xfers := rfl
@[simp] theorem issued_writes : (s.issued).writes = s.writes := rfl
@[simp] theorem issued_reds : (s.issued).reds = s.reds := rfl
@[simp] theorem issued_atoms : (s.issued).atoms = s.atoms := rfl
@[simp] theorem issued_published : (s.issued).published = s.published := rfl
@[simp] theorem issued_olds : (s.issued).olds = s.olds := rfl
@[simp] theorem issued_words : (s.issued).words = s.words := rfl
@[simp] theorem issued_shoot : (s.issued).shoot = s.shoot := rfl
@[simp] theorem issued_completions : (s.issued).completions = s.completions := rfl
@[simp] theorem issued_launches : (s.issued).launches = s.launches := rfl
@[simp] theorem issued_graphs : (s.issued).graphs = s.graphs := rfl
@[simp] theorem issued_jobs : (s.issued).jobs = s.jobs := rfl
@[simp] theorem issued_folios : (s.issued).folios = s.folios := rfl
@[simp] theorem issued_queues : (s.issued).queues = s.queues := rfl
@[simp] theorem issued_slots : (s.issued).slots = s.slots := rfl
@[simp] theorem issued_outbox : (s.issued).outbox = s.outbox := rfl
@[simp] theorem issued_inbox : (s.issued).inbox = s.inbox := rfl
@[simp] theorem issued_msix : (s.issued).msix = s.msix := rfl
@[simp] theorem issued_ports : (s.issued).ports = s.ports := rfl
@[simp] theorem issued_caps : (s.issued).caps = s.caps := rfl
@[simp] theorem issued_below : (s.issued).below = s.below := rfl
@[simp] theorem issued_moving : (s.issued).moving = s.moving := rfl
@[simp] theorem issued_pkgSet : (s.issued).pkgSet = s.pkgSet := rfl
@[simp] theorem issued_retraining : (s.issued).retraining = s.retraining := rfl
@[simp] theorem issued_recovery : (s.issued).recovery = s.recovery := rfl
@[simp] theorem issued_ckpt : (s.issued).ckpt = s.ckpt := rfl
@[simp] theorem issued_ckptTeams : (s.issued).ckptTeams = s.ckptTeams := rfl
@[simp] theorem issued_reports : (s.issued).reports = s.reports := rfl
@[simp] theorem issued_answers : (s.issued).answers = s.answers := rfl
@[simp] theorem issued_clock : (s.issued).clock = s.clock := rfl

/-! ### Accessors after an update -/

@[simp] theorem updDie_coreAt (d : Nat) (f : Die → Die) (e k : Nat) : (s.updDie d f).core e k = s.core e k := rfl
@[simp] theorem updDie_teamAt (d : Nat) (f : Die → Die) (u : Nat) : (s.updDie d f).team? u = s.team? u := rfl
@[simp] theorem updDie_warpAt (d : Nat) (f : Die → Die) (x y : Nat) : (s.updDie d f).warp? x y = s.warp? x y := rfl
@[simp] theorem updDie_completionAt (d : Nat) (f : Die → Die) (j : Nat) : (s.updDie d f).completion j = s.completion j := rfl
@[simp] theorem updDie_queueAt (d : Nat) (f : Die → Die) (j : Nat) : (s.updDie d f).queue j = s.queue j := rfl
@[simp] theorem updDie_wordAt (d : Nat) (f : Die → Die) (j : Nat) : (s.updDie d f).word j = s.word j := rfl
@[simp] theorem mapDies_coreAt (f : Die → Die) (e k : Nat) : (s.mapDies f).core e k = s.core e k := rfl
@[simp] theorem mapDies_teamAt (f : Die → Die) (u : Nat) : (s.mapDies f).team? u = s.team? u := rfl
@[simp] theorem mapDies_warpAt (f : Die → Die) (x y : Nat) : (s.mapDies f).warp? x y = s.warp? x y := rfl
@[simp] theorem mapDies_completionAt (f : Die → Die) (j : Nat) : (s.mapDies f).completion j = s.completion j := rfl
@[simp] theorem mapDies_queueAt (f : Die → Die) (j : Nat) : (s.mapDies f).queue j = s.queue j := rfl
@[simp] theorem mapDies_wordAt (f : Die → Die) (j : Nat) : (s.mapDies f).word j = s.word j := rfl
@[simp] theorem updCore_dieAt (d c : Nat) (f : Core → Core) (e : Nat) : (s.updCore d c f).die e = s.die e := rfl
@[simp] theorem updCore_teamAt (d c : Nat) (f : Core → Core) (u : Nat) : (s.updCore d c f).team? u = s.team? u := rfl
@[simp] theorem updCore_warpAt (d c : Nat) (f : Core → Core) (x y : Nat) : (s.updCore d c f).warp? x y = s.warp? x y := rfl
@[simp] theorem updCore_completionAt (d c : Nat) (f : Core → Core) (j : Nat) : (s.updCore d c f).completion j = s.completion j := rfl
@[simp] theorem updCore_queueAt (d c : Nat) (f : Core → Core) (j : Nat) : (s.updCore d c f).queue j = s.queue j := rfl
@[simp] theorem updCore_wordAt (d c : Nat) (f : Core → Core) (j : Nat) : (s.updCore d c f).word j = s.word j := rfl
@[simp] theorem updCore_dieWordAt (d c : Nat) (f : Core → Core) (e j : Nat) : (s.updCore d c f).dieWord e j = s.dieWord e j := rfl
@[simp] theorem updTeam_dieAt (t : Nat) (f : Team → Team) (e : Nat) : (s.updTeam t f).die e = s.die e := rfl
@[simp] theorem updTeam_coreAt (t : Nat) (f : Team → Team) (e k : Nat) : (s.updTeam t f).core e k = s.core e k := rfl
@[simp] theorem updTeam_warpAt (t : Nat) (f : Team → Team) (x y : Nat) : (s.updTeam t f).warp? x y = s.warp? x y := rfl
@[simp] theorem updTeam_completionAt (t : Nat) (f : Team → Team) (j : Nat) : (s.updTeam t f).completion j = s.completion j := rfl
@[simp] theorem updTeam_queueAt (t : Nat) (f : Team → Team) (j : Nat) : (s.updTeam t f).queue j = s.queue j := rfl
@[simp] theorem updTeam_wordAt (t : Nat) (f : Team → Team) (j : Nat) : (s.updTeam t f).word j = s.word j := rfl
@[simp] theorem updTeam_dieWordAt (t : Nat) (f : Team → Team) (e j : Nat) : (s.updTeam t f).dieWord e j = s.dieWord e j := rfl
@[simp] theorem updWarp_dieAt (t w : Nat) (f : Warp → Warp) (e : Nat) : (s.updWarp t w f).die e = s.die e := rfl
@[simp] theorem updWarp_coreAt (t w : Nat) (f : Warp → Warp) (e k : Nat) : (s.updWarp t w f).core e k = s.core e k := rfl
@[simp] theorem updWarp_teamAt (t w : Nat) (f : Warp → Warp) (u : Nat) : (s.updWarp t w f).team? u = s.team? u := rfl
@[simp] theorem updWarp_completionAt (t w : Nat) (f : Warp → Warp) (j : Nat) : (s.updWarp t w f).completion j = s.completion j := rfl
@[simp] theorem updWarp_queueAt (t w : Nat) (f : Warp → Warp) (j : Nat) : (s.updWarp t w f).queue j = s.queue j := rfl
@[simp] theorem updWarp_wordAt (t w : Nat) (f : Warp → Warp) (j : Nat) : (s.updWarp t w f).word j = s.word j := rfl
@[simp] theorem updWarp_dieWordAt (t w : Nat) (f : Warp → Warp) (e j : Nat) : (s.updWarp t w f).dieWord e j = s.dieWord e j := rfl
@[simp] theorem updWarps_dieAt (t : Nat) (f : Warp → Warp) (e : Nat) : (s.updWarps t f).die e = s.die e := rfl
@[simp] theorem updWarps_coreAt (t : Nat) (f : Warp → Warp) (e k : Nat) : (s.updWarps t f).core e k = s.core e k := rfl
@[simp] theorem updWarps_teamAt (t : Nat) (f : Warp → Warp) (u : Nat) : (s.updWarps t f).team? u = s.team? u := rfl
@[simp] theorem updWarps_completionAt (t : Nat) (f : Warp → Warp) (j : Nat) : (s.updWarps t f).completion j = s.completion j := rfl
@[simp] theorem updWarps_queueAt (t : Nat) (f : Warp → Warp) (j : Nat) : (s.updWarps t f).queue j = s.queue j := rfl
@[simp] theorem updWarps_wordAt (t : Nat) (f : Warp → Warp) (j : Nat) : (s.updWarps t f).word j = s.word j := rfl
@[simp] theorem updWarps_dieWordAt (t : Nat) (f : Warp → Warp) (e j : Nat) : (s.updWarps t f).dieWord e j = s.dieWord e j := rfl
@[simp] theorem updCompletion_dieAt (i : Nat) (f : Completion → Completion) (e : Nat) : (s.updCompletion i f).die e = s.die e := rfl
@[simp] theorem updCompletion_coreAt (i : Nat) (f : Completion → Completion) (e k : Nat) : (s.updCompletion i f).core e k = s.core e k := rfl
@[simp] theorem updCompletion_teamAt (i : Nat) (f : Completion → Completion) (u : Nat) : (s.updCompletion i f).team? u = s.team? u := rfl
@[simp] theorem updCompletion_warpAt (i : Nat) (f : Completion → Completion) (x y : Nat) : (s.updCompletion i f).warp? x y = s.warp? x y := rfl
@[simp] theorem updCompletion_queueAt (i : Nat) (f : Completion → Completion) (j : Nat) : (s.updCompletion i f).queue j = s.queue j := rfl
@[simp] theorem updCompletion_wordAt (i : Nat) (f : Completion → Completion) (j : Nat) : (s.updCompletion i f).word j = s.word j := rfl
@[simp] theorem updCompletion_dieWordAt (i : Nat) (f : Completion → Completion) (e j : Nat) : (s.updCompletion i f).dieWord e j = s.dieWord e j := rfl
@[simp] theorem updQueue_dieAt (q : Nat) (f : HwQueue → HwQueue) (e : Nat) : (s.updQueue q f).die e = s.die e := rfl
@[simp] theorem updQueue_coreAt (q : Nat) (f : HwQueue → HwQueue) (e k : Nat) : (s.updQueue q f).core e k = s.core e k := rfl
@[simp] theorem updQueue_teamAt (q : Nat) (f : HwQueue → HwQueue) (u : Nat) : (s.updQueue q f).team? u = s.team? u := rfl
@[simp] theorem updQueue_warpAt (q : Nat) (f : HwQueue → HwQueue) (x y : Nat) : (s.updQueue q f).warp? x y = s.warp? x y := rfl
@[simp] theorem updQueue_completionAt (q : Nat) (f : HwQueue → HwQueue) (j : Nat) : (s.updQueue q f).completion j = s.completion j := rfl
@[simp] theorem updQueue_wordAt (q : Nat) (f : HwQueue → HwQueue) (j : Nat) : (s.updQueue q f).word j = s.word j := rfl
@[simp] theorem updQueue_dieWordAt (q : Nat) (f : HwQueue → HwQueue) (e j : Nat) : (s.updQueue q f).dieWord e j = s.dieWord e j := rfl
@[simp] theorem updLaunch_dieAt (l : Nat) (f : Launch → Launch) (e : Nat) : (s.updLaunch l f).die e = s.die e := rfl
@[simp] theorem updLaunch_coreAt (l : Nat) (f : Launch → Launch) (e k : Nat) : (s.updLaunch l f).core e k = s.core e k := rfl
@[simp] theorem updLaunch_teamAt (l : Nat) (f : Launch → Launch) (u : Nat) : (s.updLaunch l f).team? u = s.team? u := rfl
@[simp] theorem updLaunch_warpAt (l : Nat) (f : Launch → Launch) (x y : Nat) : (s.updLaunch l f).warp? x y = s.warp? x y := rfl
@[simp] theorem updLaunch_completionAt (l : Nat) (f : Launch → Launch) (j : Nat) : (s.updLaunch l f).completion j = s.completion j := rfl
@[simp] theorem updLaunch_queueAt (l : Nat) (f : Launch → Launch) (j : Nat) : (s.updLaunch l f).queue j = s.queue j := rfl
@[simp] theorem updLaunch_wordAt (l : Nat) (f : Launch → Launch) (j : Nat) : (s.updLaunch l f).word j = s.word j := rfl
@[simp] theorem updLaunch_dieWordAt (l : Nat) (f : Launch → Launch) (e j : Nat) : (s.updLaunch l f).dieWord e j = s.dieWord e j := rfl
@[simp] theorem updConvoy_dieAt (c : Nat) (f : Convoy → Convoy) (e : Nat) : (s.updConvoy c f).die e = s.die e := rfl
@[simp] theorem updConvoy_coreAt (c : Nat) (f : Convoy → Convoy) (e k : Nat) : (s.updConvoy c f).core e k = s.core e k := rfl
@[simp] theorem updConvoy_teamAt (c : Nat) (f : Convoy → Convoy) (u : Nat) : (s.updConvoy c f).team? u = s.team? u := rfl
@[simp] theorem updConvoy_warpAt (c : Nat) (f : Convoy → Convoy) (x y : Nat) : (s.updConvoy c f).warp? x y = s.warp? x y := rfl
@[simp] theorem updConvoy_completionAt (c : Nat) (f : Convoy → Convoy) (j : Nat) : (s.updConvoy c f).completion j = s.completion j := rfl
@[simp] theorem updConvoy_queueAt (c : Nat) (f : Convoy → Convoy) (j : Nat) : (s.updConvoy c f).queue j = s.queue j := rfl
@[simp] theorem updConvoy_wordAt (c : Nat) (f : Convoy → Convoy) (j : Nat) : (s.updConvoy c f).word j = s.word j := rfl
@[simp] theorem updConvoy_dieWordAt (c : Nat) (f : Convoy → Convoy) (e j : Nat) : (s.updConvoy c f).dieWord e j = s.dieWord e j := rfl
@[simp] theorem updEntry_dieAt (r : LeafRef) (f : Entry → Entry) (e : Nat) : (s.updEntry r f).die e = s.die e := rfl
@[simp] theorem updEntry_coreAt (r : LeafRef) (f : Entry → Entry) (e k : Nat) : (s.updEntry r f).core e k = s.core e k := rfl
@[simp] theorem updEntry_teamAt (r : LeafRef) (f : Entry → Entry) (u : Nat) : (s.updEntry r f).team? u = s.team? u := rfl
@[simp] theorem updEntry_completionAt (r : LeafRef) (f : Entry → Entry) (j : Nat) : (s.updEntry r f).completion j = s.completion j := rfl
@[simp] theorem updEntry_queueAt (r : LeafRef) (f : Entry → Entry) (j : Nat) : (s.updEntry r f).queue j = s.queue j := rfl
@[simp] theorem updEntry_wordAt (r : LeafRef) (f : Entry → Entry) (j : Nat) : (s.updEntry r f).word j = s.word j := rfl
@[simp] theorem updEntry_dieWordAt (r : LeafRef) (f : Entry → Entry) (e j : Nat) : (s.updEntry r f).dieWord e j = s.dieWord e j := rfl
@[simp] theorem updThread_dieAt (t w i : Nat) (f : Thread → Thread) (e : Nat) : (s.updThread t w i f).die e = s.die e := rfl
@[simp] theorem updThread_coreAt (t w i : Nat) (f : Thread → Thread) (e k : Nat) : (s.updThread t w i f).core e k = s.core e k := rfl
@[simp] theorem updThread_teamAt (t w i : Nat) (f : Thread → Thread) (u : Nat) : (s.updThread t w i f).team? u = s.team? u := rfl
@[simp] theorem updThread_completionAt (t w i : Nat) (f : Thread → Thread) (j : Nat) : (s.updThread t w i f).completion j = s.completion j := rfl
@[simp] theorem updThread_queueAt (t w i : Nat) (f : Thread → Thread) (j : Nat) : (s.updThread t w i f).queue j = s.queue j := rfl
@[simp] theorem updThread_wordAt (t w i : Nat) (f : Thread → Thread) (j : Nat) : (s.updThread t w i f).word j = s.word j := rfl
@[simp] theorem updThread_dieWordAt (t w i : Nat) (f : Thread → Thread) (e j : Nat) : (s.updThread t w i f).dieWord e j = s.dieWord e j := rfl
@[simp] theorem setWord_dieAt (n : Nat) (v : Word64) (e : Nat) : (s.setWord n v).die e = s.die e := rfl
@[simp] theorem setWord_coreAt (n : Nat) (v : Word64) (e k : Nat) : (s.setWord n v).core e k = s.core e k := rfl
@[simp] theorem setWord_teamAt (n : Nat) (v : Word64) (u : Nat) : (s.setWord n v).team? u = s.team? u := rfl
@[simp] theorem setWord_warpAt (n : Nat) (v : Word64) (x y : Nat) : (s.setWord n v).warp? x y = s.warp? x y := rfl
@[simp] theorem setWord_completionAt (n : Nat) (v : Word64) (j : Nat) : (s.setWord n v).completion j = s.completion j := rfl
@[simp] theorem setWord_queueAt (n : Nat) (v : Word64) (j : Nat) : (s.setWord n v).queue j = s.queue j := rfl
@[simp] theorem setWord_dieWordAt (n : Nat) (v : Word64) (e j : Nat) : (s.setWord n v).dieWord e j = s.dieWord e j := rfl
@[simp] theorem setDieWord_coreAt (d n : Nat) (v : Word64) (e k : Nat) : (s.setDieWord d n v).core e k = s.core e k := rfl
@[simp] theorem setDieWord_teamAt (d n : Nat) (v : Word64) (u : Nat) : (s.setDieWord d n v).team? u = s.team? u := rfl
@[simp] theorem setDieWord_warpAt (d n : Nat) (v : Word64) (x y : Nat) : (s.setDieWord d n v).warp? x y = s.warp? x y := rfl
@[simp] theorem setDieWord_completionAt (d n : Nat) (v : Word64) (j : Nat) : (s.setDieWord d n v).completion j = s.completion j := rfl
@[simp] theorem setDieWord_queueAt (d n : Nat) (v : Word64) (j : Nat) : (s.setDieWord d n v).queue j = s.queue j := rfl
@[simp] theorem setDieWord_wordAt (d n : Nat) (v : Word64) (j : Nat) : (s.setDieWord d n v).word j = s.word j := rfl
@[simp] theorem bumpDie_coreAt (d w n : Nat) (e k : Nat) : (s.bumpDie d w n).core e k = s.core e k := rfl
@[simp] theorem bumpDie_teamAt (d w n : Nat) (u : Nat) : (s.bumpDie d w n).team? u = s.team? u := rfl
@[simp] theorem bumpDie_warpAt (d w n : Nat) (x y : Nat) : (s.bumpDie d w n).warp? x y = s.warp? x y := rfl
@[simp] theorem bumpDie_completionAt (d w n : Nat) (j : Nat) : (s.bumpDie d w n).completion j = s.completion j := rfl
@[simp] theorem bumpDie_queueAt (d w n : Nat) (j : Nat) : (s.bumpDie d w n).queue j = s.queue j := rfl
@[simp] theorem bumpDie_wordAt (d w n : Nat) (j : Nat) : (s.bumpDie d w n).word j = s.word j := rfl
@[simp] theorem raiseMsix_dieAt (v : Nat) (e : Nat) : (s.raiseMsix v).die e = s.die e := rfl
@[simp] theorem raiseMsix_coreAt (v : Nat) (e k : Nat) : (s.raiseMsix v).core e k = s.core e k := rfl
@[simp] theorem raiseMsix_teamAt (v : Nat) (u : Nat) : (s.raiseMsix v).team? u = s.team? u := rfl
@[simp] theorem raiseMsix_warpAt (v : Nat) (x y : Nat) : (s.raiseMsix v).warp? x y = s.warp? x y := rfl
@[simp] theorem raiseMsix_completionAt (v : Nat) (j : Nat) : (s.raiseMsix v).completion j = s.completion j := rfl
@[simp] theorem raiseMsix_queueAt (v : Nat) (j : Nat) : (s.raiseMsix v).queue j = s.queue j := rfl
@[simp] theorem raiseMsix_wordAt (v : Nat) (j : Nat) : (s.raiseMsix v).word j = s.word j := rfl
@[simp] theorem raiseMsix_dieWordAt (v : Nat) (e j : Nat) : (s.raiseMsix v).dieWord e j = s.dieWord e j := rfl
@[simp] theorem mark_dieAt (r : LeafRef) (e : Nat) : (s.mark r).die e = s.die e := rfl
@[simp] theorem mark_coreAt (r : LeafRef) (e k : Nat) : (s.mark r).core e k = s.core e k := rfl
@[simp] theorem mark_teamAt (r : LeafRef) (u : Nat) : (s.mark r).team? u = s.team? u := rfl
@[simp] theorem mark_warpAt (r : LeafRef) (x y : Nat) : (s.mark r).warp? x y = s.warp? x y := rfl
@[simp] theorem mark_completionAt (r : LeafRef) (j : Nat) : (s.mark r).completion j = s.completion j := rfl
@[simp] theorem mark_queueAt (r : LeafRef) (j : Nat) : (s.mark r).queue j = s.queue j := rfl
@[simp] theorem mark_wordAt (r : LeafRef) (j : Nat) : (s.mark r).word j = s.word j := rfl
@[simp] theorem mark_dieWordAt (r : LeafRef) (e j : Nat) : (s.mark r).dieWord e j = s.dieWord e j := rfl
@[simp] theorem issued_dieAt (e : Nat) : (s.issued).die e = s.die e := rfl
@[simp] theorem issued_coreAt (e k : Nat) : (s.issued).core e k = s.core e k := rfl
@[simp] theorem issued_teamAt (u : Nat) : (s.issued).team? u = s.team? u := rfl
@[simp] theorem issued_warpAt (x y : Nat) : (s.issued).warp? x y = s.warp? x y := rfl
@[simp] theorem issued_completionAt (j : Nat) : (s.issued).completion j = s.completion j := rfl
@[simp] theorem issued_queueAt (j : Nat) : (s.issued).queue j = s.queue j := rfl
@[simp] theorem issued_wordAt (j : Nat) : (s.issued).word j = s.word j := rfl
@[simp] theorem issued_dieWordAt (e j : Nat) : (s.issued).dieWord e j = s.dieWord e j := rfl

theorem die_updDie (d e : Nat) (f : Die → Die) : (s.updDie d f).die e = if e = d then f (s.die d) else s.die e := Tbl.get_put ..

theorem core_updCore (d c e k : Nat) (f : Core → Core) :
    (s.updCore d c f).core e k = if coreKey e k = coreKey d c then f (s.core d c) else s.core e k := Tbl.get_put ..

theorem team_updTeam (t u : Nat) (f : Team → Team) : (s.updTeam t f).team? u = if u = t then (s.team? u).map f else s.team? u :=
  Tbl.look_alter ..

theorem warp_updWarp (t w u v : Nat) (f : Warp → Warp) :
    (s.updWarp t w f).warp? u v = if warpKey u v = warpKey t w then (s.warp? u v).map f else s.warp? u v := Tbl.look_alter ..

theorem completion_updCompletion (i j : Nat) (f : Completion → Completion) :
    (s.updCompletion i f).completion j = if j = i then f (s.completion i) else s.completion j := Tbl.get_put ..

theorem queue_updQueue (i j : Nat) (f : HwQueue → HwQueue) :
    (s.updQueue i f).queue j = if j = i then f (s.queue i) else s.queue j := Tbl.get_put ..

theorem word_setWord (n j : Nat) (v : Word64) : (s.setWord n v).word j = if j = n then v else s.word j := by
  unfold State.word State.setWord Tbl.get
  simp only [Tbl.look_put]
  by_cases h : j = n
  · subst h; simp
  · simp [h]

theorem dieWord_setDieWord (d n e j : Nat) (v : Word64) :
    (s.setDieWord d n v).dieWord e j = if e = d ∧ j = n then v else s.dieWord e j := by
  unfold State.dieWord State.setDieWord
  rw [die_updDie]
  by_cases h : e = d
  · subst h; simp only [if_true, true_and]; exact Tbl.get_put ..
  · rw [if_neg h, if_neg (fun x => h x.1)]

end Sys2Proof.Machine.State
end

