-- ==== Sys2Proof/Laws/Ops.lean ====
section
/-! SUPPORT. What the shared operations do, once for each: the issue of an instruction, the end of an instruction, a trap that
enters the handler, the checks of an access, bytes of package memory. -/

namespace Sys2Proof.Machine

/-! ### The issue (R16, R48, R51, R79) -/

/-- All that an issue can answer: the model's refusal with no issuer, the mark that it was held, a trap of its operands, the pass
of an instruction whose guard holds nowhere, or its body's outcome. -/
theorem issueWith_cases (s : State) (always : Bool) (len : Nat) (g : Guard) (ps : List Pos) (body : Ctx → State → Done) :
    (s.ctx g = none ∧ s.issueWith always len g ps body = .refused .noIssuer)
    ∨ ∃ c, s.ctx g = some c ∧
      ((s.issueWith always len g ps body = .next { s with held := if c.firstWaits ps || s.uniWaits c ps then .scoreboard else .lane }
          ∧ (c.waits ps = true ∨ c.on ≠ [] ∧ s.uniWaits c ps = true))
        ∨ (∃ t, s.issueWith always len g ps body = .next (s.issued.deliver c.ref t))
        ∨ (c.on = [] ∧ always = false ∧ s.issueWith always len g ps body = .next (s.issued.complete c.ref len))
        ∨ s.issueWith always len g ps body = .next ((body c s.issued).state s.issued c.ref len)) := by
  unfold State.issueWith
  cases hc : s.ctx g with
  | none => exact .inl ⟨rfl, rfl⟩
  | some c =>
    refine .inr ⟨c, rfl, ?_⟩
    simp only [issued_mark hc]
    split
    · rename_i h
      refine .inl ⟨rfl, ?_⟩
      simp only [Bool.or_eq_true, Bool.and_eq_true, Bool.not_eq_true', List.isEmpty_eq_false_iff] at h
      exact h
    · split
      · exact .inr (.inl ⟨_, rfl⟩)
      · split
        · rename_i h
          simp only [Bool.and_eq_true, List.isEmpty_iff, Bool.not_eq_true'] at h
          exact .inr (.inr (.inl ⟨h.1, h.2, rfl⟩))
        · exact .inr (.inr (.inr rfl))

/-- An issue never faults. -/
theorem issueWith_noFault (s : State) (always : Bool) (len : Nat) (g : Guard) (ps : List Pos) (body : Ctx → State → Done) (f : Fault) :
    s.issueWith always len g ps body ≠ .fault f := by
  rcases issueWith_cases s always len g ps body with ⟨-, h⟩ | ⟨c, -, ⟨h, -⟩ | ⟨t, h⟩ | ⟨-, -, h⟩ | h⟩ <;> rw [h] <;> exact fun x => nomatch x

/-- While a leaf issues, an issue always answers a next state. -/
theorem issueWith_next (s : State) (always : Bool) (len : Nat) (g : Guard) (ps : List Pos) (body : Ctx → State → Done) {c : Ctx}
    (h : s.ctx g = some c) : ∃ t, s.issueWith always len g ps body = .next t := by
  rcases issueWith_cases s always len g ps body with ⟨h', -⟩ | ⟨d, -, ⟨h', -⟩ | ⟨t, h'⟩ | ⟨-, -, h'⟩ | h'⟩
  · rw [h] at h'; cases h'
  all_goals exact ⟨_, h'⟩

/-- A guard that holds in no active thread: the instruction passes (R16). -/
theorem issue_idle {s : State} {g : Guard} {ps : List Pos} {c : Ctx} (h : s.ctx g = some c) (hn : c.on = []) (len : Nat)
    (body : Ctx → State → Done) : s.issue len g ps body = .next (s.issued.complete c.ref len) := by
  have w : c.waits ps = false := by simp [Ctx.waits, hn]
  have r : c.regTrap ps = none := by simp [Ctx.regTrap, Ctx.first, hn]
  have t : c.strictTrap ps = none := by simp [Ctx.strictTrap, hn]
  unfold State.issue State.issueWith
  rw [h]
  simp [w, hn, r, t, issued_mark h]

/-! ### Taking a trap (R83, R253) -/

theorem updWarp_updWarp (s : State) (t w : Nat) (f g : Warp → Warp) :
    (s.updWarp t w f).updWarp t w g = s.updWarp t w (fun x => g (f x)) := by
  unfold State.updWarp; simp only [Tbl.alter_alter]

/-- A trap other than CANCEL that nothing stands before enters the handler: the issuing warp is as Ctx.handles says, and nothing
else changes. -/
theorem deliver_handled {s : State} {g : Guard} {c : Ctx} {v : Word} (h : s.ctx g = some c) (hh : s.Handled c v) (t : Trap)
    (hk : (t.cause == BitVec.ofNat 8 cCANCEL) = false) :
    s.deliver c.ref t = s.updWarp c.ref.team c.ref.warp (fun _ => c.handles t.cause t.info.toNat t.len v) := by
  obtain ⟨-, ht, hw, he, -, -, -⟩ := ctx_facts h
  obtain ⟨hp, hn, hv⟩ := hh
  have hb : s.heldByHandler c.ref = false := by simp [State.heldByHandler, hw, hn]
  have raw : s.trapRaw c.ref t = (s.updWarp c.ref.team c.ref.warp (fun _ => c.handles t.cause t.info.toNat t.len v), false) := by
    unfold State.trapRaw
    simp only [ht, hw, he, hn, hk, Option.isSome_none, Bool.false_eq_true, if_false]
    have hv' : (s.updWarp c.ref.team c.ref.warp (fun w => { w with
          tcause := BitVec.ofNat 32 t.cause.toNat
          tinfo := t.info
          tepc := c.entry.pc
          tmask := c.entry.mask
          tlen := t.len
          tret := c.entry.retJoin
          threads := w.threads.map Thread.closeWindows })).vector c.team.launch = some v := hv
    rw [hv']
    simp only [Prod.mk.injEq, and_true]
    rw [updWarp_updWarp, updWarp_at s c.ref _ c.warp hw]
    congr 1
    funext _
    unfold Ctx.handles Warp.handles Warp.updEntry mapIf
    have hid : c.entry.id = c.ref.leaf := by simpa using List.find?_some he
    simp only [BitVec.ofNat_toNat, BitVec.setWidth_eq, hid]
    rfl
  unfold State.deliver State.takeTrap
  rw [hp, hb, raw]
  simp [ht]

/-! ### The checks of an access (R165) -/

/-- Checks 1 to 4 of R165 pass exactly where the access is aligned, tagged, unsealed, granted and within the bounds. -/
theorem check_none (r : AccReq) : r.check = none ↔
    (r.aligned = true → r.va % r.size = 0) ∧ r.tag = true ∧ r.cap.otype = 0 ∧ r.cap.grants r.perm = true ∧ (r.cap.base : Int) ≤ r.va
      ∧ r.va + r.size ≤ ((r.cap.base + r.cap.length : Nat) : Int) ∧ r.va + r.size ≤ ((2 ^ 56 : Nat) : Int) := by
  unfold AccReq.check
  constructor
  · intro h
    simp only at h
    split at h; · cases h
    split at h; · cases h
    split at h; · cases h
    split at h; · cases h
    rename_i h1 h2 h3 h4
    simp only [Bool.and_eq_true, bne_iff_ne, ne_eq, not_and, Decidable.not_not] at h1
    simp only [Bool.not_eq_true', Bool.not_eq_false] at h2
    simp only [Bool.or_eq_true, bne_iff_ne, ne_eq, Bool.not_eq_true', not_or, Decidable.not_not, Bool.not_eq_false] at h3
    simp only [Bool.or_eq_true, decide_eq_true_eq, not_or] at h4
    exact ⟨h1, h2, h3.1, h3.2, by omega, by omega, by omega⟩
  · rintro ⟨h1, h2, h3, h4, h5, h6, h7⟩
    have a1 : ¬ (r.aligned && r.va % r.size != 0) = true := by
      simp only [Bool.and_eq_true, bne_iff_ne, ne_eq, not_and, Decidable.not_not]; exact h1
    simp only
    rw [if_neg a1, if_neg (by simp [h2]), if_neg (by simp [h3, h4]),
      if_neg (by simp only [Bool.or_eq_true, decide_eq_true_eq, not_or]; omega)]

/-! ### Bytes of package memory -/

/-- Bytes written from an address change no byte of another cell. -/
theorem keeps_physWrite (s : State) (pa : Nat) (bs : List Byte) : KeepsBytes s (s.physWrite pa bs) pa bs.length := by
  have hc : ∀ (s : State) pa b x, (s.physSet pa b).cell? x = s.cell? x := by
    intro s pa b x; unfold State.physSet; split <;> rfl
  induction bs generalizing s pa with
  | nil => intro a _; rfl
  | cons b r ih =>
    intro a h
    have h0 := h 0 (by simp)
    rw [Nat.add_zero] at h0
    have := ih (s.physSet pa b) (pa + 1) a (fun k hk => by
      rw [hc, hc, Nat.add_assoc, Nat.add_comm 1 k]; exact h (k + 1) (by simpa using hk))
    show ((s.physSet pa b).physWrite (pa + 1) r).physByte a = _
    rw [this, State.physByte_physSet, if_neg (fun x => h0 x.1)]

/-- Bytes written to cells of their own read back. -/
theorem read_physWrite (s : State) (pa : Nat) (bs : List Byte) (h : s.Apart pa bs.length) (j : Nat) (hj : j < bs.length) :
    (s.physWrite pa bs).physByte (pa + j) = bs.getD j 0#8 := by
  have hc : ∀ (s : State) pa b x, (s.physSet pa b).cell? x = s.cell? x := by
    intro s pa b x; unfold State.physSet; split <;> rfl
  induction bs generalizing s pa j with
  | nil => simp at hj
  | cons b r ih =>
    have ha : (s.physSet pa b).Apart (pa + 1) r.length := by
      intro i hi
      obtain ⟨x, hx, hk⟩ := h (i + 1) (by simpa using hi)
      refine ⟨x, by rw [hc, Nat.add_assoc, Nat.add_comm 1 i]; exact hx, fun k hk2 hk3 => ?_⟩
      rw [hc, Nat.add_assoc, Nat.add_comm 1 k] at hk3
      have := hk (k + 1) (by simpa using hk2) hk3
      omega
    cases j with
    | zero =>
      have keep := keeps_physWrite (s.physSet pa b) (pa + 1) r pa (fun k hk he => by
        rw [hc, hc, Nat.add_assoc, Nat.add_comm 1 k] at he
        obtain ⟨x, hx, hu⟩ := h 0 (by simp)
        have := hu (k + 1) (by simpa using hk) (he.symm.trans hx)
        omega)
      show ((s.physSet pa b).physWrite (pa + 1) r).physByte pa = _
      rw [keep, State.physByte_physSet]
      obtain ⟨x, hx, -⟩ := h 0 (by simp)
      rw [Nat.add_zero] at hx
      rw [if_pos ⟨rfl, by rw [hx]; rfl⟩]; rfl
    | succ j =>
      have := ih (s.physSet pa b) (pa + 1) ha j (by simpa using hj)
      show ((s.physSet pa b).physWrite (pa + 1) r).physByte (pa + (j + 1)) = _
      rw [show pa + (j + 1) = pa + 1 + j by omega, this]; rfl

end Sys2Proof.Machine
end

