-- ==== Sys2Proof/Laws/PerInstr.lean ====
section
/-! SUPPORT. The family Reads: for each instruction, the fields that the encoding tables give it are read by the opcode map as
that instruction. -/

set_option linter.unusedSimpArgs false

namespace Sys2Proof

theorem okBind {α β : Type} (x : α) (f : α → Except DecodeError β) : (Except.ok x >>= f) = f x := rfl

theorem optOf_some (o : Opnd) : optOf true o.toField = .ok (some o) := by simp [optOf, Except.map]

theorem optOf_none (f : BitVec 12) : optOf false f = .ok none := rfl

theorem ksOf_some (k : BitVec 7) : ksOf true (optUniField (some k)) = .ok (some k) := by
  simp [ksOf, optUniField]

theorem optOf_isSome {used : Bool} {o : Option Opnd} (h : o.isSome = used) : optOf used (optField o) = .ok o := by
  subst h; cases o with
  | none => rfl
  | some p => exact optOf_some p

theorem ksOf_isSome {used : Bool} {k : Option (BitVec 7)} (h : k.isSome = used) : ksOf used (optUniField k) = .ok k := by
  subst h; cases k with
  | none => rfl
  | some p => exact ksOf_some p

theorem XCtl.ofWord_zero (c : BitVec 12) : XCtl.ofWord (0#20 ++ c) = .ok XCtl.plain := by
  have e : (0#20 ++ c : BitVec 32) = XCtl.plain.toWord c := by
    apply BitVec.eq_of_toNat_eq
    have n : (XCtl.plain.toWord c).toNat = BitVec.toNat (w := 5 + 1 + 1 + 1 + 1 + 2 + 3 + 3 + 3 + 12)
      (0#5 ++ 0#1 ++ 0#1 ++ 0#1 ++ 0#1 ++ 0#2 ++ 0#3 ++ 0#3 ++ 0#3 ++ c) := rfl
    rw [n]; simp only [toNat_app]; rfl
  rw [e, XCtl.ofWord_toWord]

/-- A bound that does not hold. -/
theorem below_absurd {P : Prop} (a b : Nat) (h : ¬ a < b) : a < b → P := fun x => absurd x h

theorem ksOf_none (f : BitVec 12) : ksOf false f = .ok none := rfl

/-! ### The opcode map, opcode by opcode -/

theorem parse_0 {r : Raw} (h : r.opc.toNat / 16 = 0x0) : parse r = parse0 r := by
  simp only [parse, h]

theorem parse_1 {r : Raw} (h : r.opc.toNat / 16 = 0x1) : parse r = parse1 r := by
  simp only [parse, h]

theorem parse_2 {r : Raw} (h : r.opc.toNat / 16 = 0x2) : parse r = parse2 r := by
  simp only [parse, h]

theorem parse_3 {r : Raw} (h : r.opc.toNat / 16 = 0x3) : parse r = parse3 r := by
  simp only [parse, h]

theorem parse_4 {r : Raw} (h : r.opc.toNat / 16 = 0x4) : parse r = parse4 r := by
  simp only [parse, h]

theorem parse_5 {r : Raw} (h : r.opc.toNat / 16 = 0x5) : parse r = parse5 r := by
  simp only [parse, h]

theorem parse_6 {r : Raw} (h : r.opc.toNat / 16 = 0x6) : parse r = parse5 r := by
  simp only [parse, h]

theorem parse_7 {r : Raw} (h : r.opc.toNat / 16 = 0x7) : parse r = parse7 r := by
  simp only [parse, h]

theorem parse_8 {r : Raw} (h : r.opc.toNat / 16 = 0x8) : parse r = parse8 r := by
  simp only [parse, h]

theorem parse_A {r : Raw} (h : r.opc.toNat / 16 = 0xA) : parse r = parseA r := by
  simp only [parse, h]

theorem parse_B {r : Raw} (h : r.opc.toNat / 16 = 0xB) : parse r = parseB r := by
  simp only [parse, h]

theorem parse_C {r : Raw} (h : r.opc.toNat / 16 = 0xC) : parse r = parseC r := by
  simp only [parse, h]

theorem parse_D {r : Raw} (h : r.opc.toNat / 16 = 0xD) : parse r = parseD r := by
  simp only [parse, h]

theorem parse_E {r : Raw} (h : r.opc.toNat / 16 = 0xE) : parse r = parseE r := by
  simp only [parse, h]

theorem parse_F {r : Raw} (h : r.opc.toNat / 16 = 0xF) : parse r = parseF r := by
  simp only [parse, h]

theorem parse_01 {r : Raw} (h : r.opc = 0x01#8) : parse r = (r.oDAB (.iadd r.g r.t r.m0)) := by
  rw [parse_0 (by rw [h]; rfl)]; unfold parse0; rw [h]; rfl

theorem parse_02 {r : Raw} (h : r.opc = 0x02#8) : parse r = (r.oDAB (.isub r.g r.t r.m0)) := by
  rw [parse_0 (by rw [h]; rfl)]; unfold parse0; rw [h]; rfl

theorem parse_03 {r : Raw} (h : r.opc = 0x03#8) : parse r = (do r.oDAB (.imul r.g r.t (← MulMod.ofCode r.md))) := by
  rw [parse_0 (by rw [h]; rfl)]; unfold parse0; rw [h]; rfl

theorem parse_04 {r : Raw} (h : r.opc = 0x04#8) : parse r = (r.oDAB (.idiv r.g r.t r.m0 r.m1)) := by
  rw [parse_0 (by rw [h]; rfl)]; unfold parse0; rw [h]; rfl

theorem parse_05 {r : Raw} (h : r.opc = 0x05#8) : parse r = (r.oDAB (.imin r.g r.t r.m0)) := by
  rw [parse_0 (by rw [h]; rfl)]; unfold parse0; rw [h]; rfl

theorem parse_06 {r : Raw} (h : r.opc = 0x06#8) : parse r = (r.oDAB (.imax r.g r.t r.m0)) := by
  rw [parse_0 (by rw [h]; rfl)]; unfold parse0; rw [h]; rfl

theorem parse_07 {r : Raw} (h : r.opc = 0x07#8) : parse r = (r.oDA (.iabs r.g r.t r.m0)) := by
  rw [parse_0 (by rw [h]; rfl)]; unfold parse0; rw [h]; rfl

theorem parse_08 {r : Raw} (h : r.opc = 0x08#8) : parse r = (do r.oAB (.iset r.g r.t (← Cmp.ofCode r.md) (← pdstOf r.dst))) := by
  rw [parse_0 (by rw [h]; rfl)]; unfold parse0; rw [h]; rfl

theorem parse_09 {r : Raw} (h : r.opc = 0x09#8) : parse r = (r.oDAB (.and r.g r.t)) := by
  rw [parse_0 (by rw [h]; rfl)]; unfold parse0; rw [h]; rfl

theorem parse_0A {r : Raw} (h : r.opc = 0x0A#8) : parse r = (r.oDAB (.andn r.g r.t)) := by
  rw [parse_0 (by rw [h]; rfl)]; unfold parse0; rw [h]; rfl

theorem parse_0B {r : Raw} (h : r.opc = 0x0B#8) : parse r = (r.oDAB (.or r.g r.t)) := by
  rw [parse_0 (by rw [h]; rfl)]; unfold parse0; rw [h]; rfl

theorem parse_0C {r : Raw} (h : r.opc = 0x0C#8) : parse r = (r.oDAB (.xor r.g r.t)) := by
  rw [parse_0 (by rw [h]; rfl)]; unfold parse0; rw [h]; rfl

theorem parse_0D {r : Raw} (h : r.opc = 0x0D#8) : parse r = (r.oDAB (.shl r.g r.t)) := by
  rw [parse_0 (by rw [h]; rfl)]; unfold parse0; rw [h]; rfl

theorem parse_0E {r : Raw} (h : r.opc = 0x0E#8) : parse r = (r.oDAB (.shr r.g r.t)) := by
  rw [parse_0 (by rw [h]; rfl)]; unfold parse0; rw [h]; rfl

theorem parse_0F {r : Raw} (h : r.opc = 0x0F#8) : parse r = (r.oDAB (.sha r.g r.t)) := by
  rw [parse_0 (by rw [h]; rfl)]; unfold parse0; rw [h]; rfl

theorem parse_10 {r : Raw} (h : r.opc = 0x10#8) : parse r = (r.oDAB (.rot r.g r.t)) := by
  rw [parse_1 (by rw [h]; rfl)]; unfold parse1; rw [h]; rfl

theorem parse_11 {r : Raw} (h : r.opc = 0x11#8) : parse r = (r.oDA (.popc r.g r.t)) := by
  rw [parse_1 (by rw [h]; rfl)]; unfold parse1; rw [h]; rfl

theorem parse_12 {r : Raw} (h : r.opc = 0x12#8) : parse r = (r.oDA (.clz r.g r.t)) := by
  rw [parse_1 (by rw [h]; rfl)]; unfold parse1; rw [h]; rfl

theorem parse_13 {r : Raw} (h : r.opc = 0x13#8) : parse r = (r.oDA (.brev r.g r.t)) := by
  rw [parse_1 (by rw [h]; rfl)]; unfold parse1; rw [h]; rfl

theorem parse_14 {r : Raw} (h : r.opc = 0x14#8) : parse r = (r.oDAB (.bfx r.g r.t)) := by
  rw [parse_1 (by rw [h]; rfl)]; unfold parse1; rw [h]; rfl

theorem parse_15 {r : Raw} (h : r.opc = 0x15#8) : parse r = (r.oDA (.mov r.g r.t r.m0)) := by
  rw [parse_1 (by rw [h]; rfl)]; unfold parse1; rw [h]; rfl

theorem parse_16 {r : Raw} (h : r.opc = 0x16#8) : parse r = (
    if r.m0 then r.oA (.movxWrite r.g (r.md.extractLsb' 1 2)) else r.oD (.movxRead r.g (r.md.extractLsb' 1 2))) := by
  rw [parse_1 (by rw [h]; rfl)]; unfold parse1; rw [h]; rfl

theorem parse_17 {r : Raw} (h : r.opc = 0x17#8) : parse r = (do r.oDAB (.shfl r.g r.t (← ShflOp.ofCode r.md))) := by
  rw [parse_1 (by rw [h]; rfl)]; unfold parse1; rw [h]; rfl

theorem parse_18 {r : Raw} (h : r.opc = 0x18#8) : parse r = (do return .vote r.g (← VoteOp.ofCode r.md) (← pdstOf r.dst) (← PSrc.ofField r.src1)) := by
  rw [parse_1 (by rw [h]; rfl)]; unfold parse1; rw [h]; rfl

theorem parse_19 {r : Raw} (h : r.opc = 0x19#8) : parse r = (do return .ballot r.g (← Opnd.ofField r.dst) (← PSrc.ofField r.src1)) := by
  rw [parse_1 (by rw [h]; rfl)]; unfold parse1; rw [h]; rfl

theorem parse_1A {r : Raw} (h : r.opc = 0x1A#8) : parse r = (do r.oDA (.redw r.g r.t (← RedOp.ofCode r.md))) := by
  rw [parse_1 (by rw [h]; rfl)]; unfold parse1; rw [h]; rfl

theorem parse_1B {r : Raw} (h : r.opc = 0x1B#8) : parse r = (r.oDAB (.sel r.g r.t (PSrc.ofSelCode r.md))) := by
  rw [parse_1 (by rw [h]; rfl)]; unfold parse1; rw [h]; rfl

theorem parse_20 {r : Raw} (h : r.opc = 0x20#8) : parse r = (r.xDABC (.imad r.g r.t r.m0)) := by
  rw [parse_2 (by rw [h]; rfl)]; unfold parse2; rw [h]; rfl

theorem parse_21 {r : Raw} (h : r.opc = 0x21#8) : parse r = (r.xDABC (.bfi r.g r.t)) := by
  rw [parse_2 (by rw [h]; rfl)]; unfold parse2; rw [h]; rfl

theorem parse_22 {r : Raw} (h : r.opc = 0x22#8) : parse r = (r.xDAB (.selX r.g r.t (PSrc.ofSelCode r.md))) := by
  rw [parse_2 (by rw [h]; rfl)]; unfold parse2; rw [h]; rfl

theorem parse_23 {r : Raw} (h : r.opc = 0x23#8) : parse r = (r.xDAB (.iaddX r.g r.t r.m0)) := by
  rw [parse_2 (by rw [h]; rfl)]; unfold parse2; rw [h]; rfl

theorem parse_24 {r : Raw} (h : r.opc = 0x24#8) : parse r = (r.xDAB (.isubX r.g r.t r.m0)) := by
  rw [parse_2 (by rw [h]; rfl)]; unfold parse2; rw [h]; rfl

theorem parse_25 {r : Raw} (h : r.opc = 0x25#8) : parse r = (do r.xDAB (.imulX r.g r.t (← MulMod.ofCode r.md))) := by
  rw [parse_2 (by rw [h]; rfl)]; unfold parse2; rw [h]; rfl

theorem parse_26 {r : Raw} (h : r.opc = 0x26#8) : parse r = (r.xDAB (.iminX r.g r.t r.m0)) := by
  rw [parse_2 (by rw [h]; rfl)]; unfold parse2; rw [h]; rfl

theorem parse_27 {r : Raw} (h : r.opc = 0x27#8) : parse r = (r.xDAB (.imaxX r.g r.t r.m0)) := by
  rw [parse_2 (by rw [h]; rfl)]; unfold parse2; rw [h]; rfl

theorem parse_28 {r : Raw} (h : r.opc = 0x28#8) : parse r = (r.xDAB (.andX r.g r.t)) := by
  rw [parse_2 (by rw [h]; rfl)]; unfold parse2; rw [h]; rfl

theorem parse_29 {r : Raw} (h : r.opc = 0x29#8) : parse r = (r.xDAB (.orX r.g r.t)) := by
  rw [parse_2 (by rw [h]; rfl)]; unfold parse2; rw [h]; rfl

theorem parse_2A {r : Raw} (h : r.opc = 0x2A#8) : parse r = (r.xDAB (.xorX r.g r.t)) := by
  rw [parse_2 (by rw [h]; rfl)]; unfold parse2; rw [h]; rfl

theorem parse_2B {r : Raw} (h : r.opc = 0x2B#8) : parse r = (r.xDA (.movX r.g r.t r.m0)) := by
  rw [parse_2 (by rw [h]; rfl)]; unfold parse2; rw [h]; rfl

theorem parse_30 {r : Raw} (h : r.opc = 0x30#8) : parse r = (r.oD (.movi r.g r.t r.m0 · r.lo)) := by
  rw [parse_3 (by rw [h]; rfl)]; unfold parse3; rw [h]; rfl

theorem parse_31 {r : Raw} (h : r.opc = 0x31#8) : parse r = (r.oDA (.iaddI r.g r.t r.m0 · · r.lo)) := by
  rw [parse_3 (by rw [h]; rfl)]; unfold parse3; rw [h]; rfl

theorem parse_32 {r : Raw} (h : r.opc = 0x32#8) : parse r = (do r.oDA (.imulI r.g r.t (← MulMod.ofCode r.md) · · r.lo)) := by
  rw [parse_3 (by rw [h]; rfl)]; unfold parse3; rw [h]; rfl

theorem parse_33 {r : Raw} (h : r.opc = 0x33#8) : parse r = (r.oDA (.andI r.g r.t · · r.lo)) := by
  rw [parse_3 (by rw [h]; rfl)]; unfold parse3; rw [h]; rfl

theorem parse_34 {r : Raw} (h : r.opc = 0x34#8) : parse r = (r.oDA (.orI r.g r.t · · r.lo)) := by
  rw [parse_3 (by rw [h]; rfl)]; unfold parse3; rw [h]; rfl

theorem parse_35 {r : Raw} (h : r.opc = 0x35#8) : parse r = (r.oDA (.xorI r.g r.t · · r.lo)) := by
  rw [parse_3 (by rw [h]; rfl)]; unfold parse3; rw [h]; rfl

theorem parse_36 {r : Raw} (h : r.opc = 0x36#8) : parse r = (do r.oA (.isetI r.g r.t (← Cmp.ofCode r.md) (← pdstOf r.dst) · r.lo)) := by
  rw [parse_3 (by rw [h]; rfl)]; unfold parse3; rw [h]; rfl

theorem parse_40 {r : Raw} (h : r.opc = 0x40#8) : parse r = (do r.oDAB (.fadd r.g r.t (← FMode.ofCode r.md))) := by
  rw [parse_4 (by rw [h]; rfl)]; unfold parse4; rw [h]; rfl

theorem parse_41 {r : Raw} (h : r.opc = 0x41#8) : parse r = (do r.oDAB (.fsub r.g r.t (← FMode.ofCode r.md))) := by
  rw [parse_4 (by rw [h]; rfl)]; unfold parse4; rw [h]; rfl

theorem parse_42 {r : Raw} (h : r.opc = 0x42#8) : parse r = (do r.oDAB (.fmul r.g r.t (← FMode.ofCode r.md))) := by
  rw [parse_4 (by rw [h]; rfl)]; unfold parse4; rw [h]; rfl

theorem parse_43 {r : Raw} (h : r.opc = 0x43#8) : parse r = (do r.oDAB (.fmin r.g r.t (← Flush.ofCode (r.md.extractLsb' 3 2)))) := by
  rw [parse_4 (by rw [h]; rfl)]; unfold parse4; rw [h]; rfl

theorem parse_44 {r : Raw} (h : r.opc = 0x44#8) : parse r = (do r.oDAB (.fmax r.g r.t (← Flush.ofCode (r.md.extractLsb' 3 2)))) := by
  rw [parse_4 (by rw [h]; rfl)]; unfold parse4; rw [h]; rfl

theorem parse_45 {r : Raw} (h : r.opc = 0x45#8) : parse r = (do r.oDA (.frcp r.g r.la r.t (← FMode.ofCode r.md))) := by
  rw [parse_4 (by rw [h]; rfl)]; unfold parse4; rw [h]; rfl

theorem parse_46 {r : Raw} (h : r.opc = 0x46#8) : parse r = (do r.oDA (.frsq r.g r.la r.t (← FMode.ofCode r.md))) := by
  rw [parse_4 (by rw [h]; rfl)]; unfold parse4; rw [h]; rfl

theorem parse_47 {r : Raw} (h : r.opc = 0x47#8) : parse r = (do
    r.oDA (.fsfn r.g r.la r.t (← SfnOp.ofCode (r.md.extractLsb' 0 3)) (← Flush.ofCode (r.md.extractLsb' 3 2)))) := by
  rw [parse_4 (by rw [h]; rfl)]; unfold parse4; rw [h]; rfl

theorem parse_48 {r : Raw} (h : r.opc = 0x48#8) : parse r = (do r.oAB (.fset r.g r.t (← FCmp.ofCode (r.md.extractLsb' 0 4)) (r.md.getLsbD 4) (← pdstOf r.dst))) := by
  rw [parse_4 (by rw [h]; rfl)]; unfold parse4; rw [h]; rfl

theorem parse_49 {r : Raw} (h : r.opc = 0x49#8) : parse r = (r.oDA (.fcls r.g r.t)) := by
  rw [parse_4 (by rw [h]; rfl)]; unfold parse4; rw [h]; rfl

theorem parse_4A {r : Raw} (h : r.opc = 0x4A#8) : parse r = (do r.oDA (.frnd r.g r.t (← FMode.ofCode r.md))) := by
  rw [parse_4 (by rw [h]; rfl)]; unfold parse4; rw [h]; rfl

theorem parse_50 {r : Raw} (h : r.opc = 0x50#8) : parse r = (do r.xDABC (.ffma r.g r.t (← FMode.ofCode r.md))) := by
  rw [parse_5 (by rw [h]; rfl)]; unfold parse5; rw [h]; rfl

theorem parse_51 {r : Raw} (h : r.opc = 0x51#8) : parse r = (do r.xDAB (.faddX r.g r.t (← FMode.ofCode r.md))) := by
  rw [parse_5 (by rw [h]; rfl)]; unfold parse5; rw [h]; rfl

theorem parse_52 {r : Raw} (h : r.opc = 0x52#8) : parse r = (do r.xDAB (.fsubX r.g r.t (← FMode.ofCode r.md))) := by
  rw [parse_5 (by rw [h]; rfl)]; unfold parse5; rw [h]; rfl

theorem parse_53 {r : Raw} (h : r.opc = 0x53#8) : parse r = (do r.xDAB (.fmulX r.g r.t (← FMode.ofCode r.md))) := by
  rw [parse_5 (by rw [h]; rfl)]; unfold parse5; rw [h]; rfl

theorem parse_54 {r : Raw} (h : r.opc = 0x54#8) : parse r = (do r.xDAB (.fminX r.g r.t (← Flush.ofCode (r.md.extractLsb' 3 2)))) := by
  rw [parse_5 (by rw [h]; rfl)]; unfold parse5; rw [h]; rfl

theorem parse_55 {r : Raw} (h : r.opc = 0x55#8) : parse r = (do r.xDAB (.fmaxX r.g r.t (← Flush.ofCode (r.md.extractLsb' 3 2)))) := by
  rw [parse_5 (by rw [h]; rfl)]; unfold parse5; rw [h]; rfl

theorem parse_56 {r : Raw} (h : r.opc = 0x56#8) : parse r = (do
    return .fsetX r.g r.t (← FCmp.ofCode (r.md.extractLsb' 0 4)) (r.md.getLsbD 4) (← pdstOf r.dst)
      (← Opnd.ofField r.src1) (← Opnd.ofField r.src2) (← XCtl.ofWord r.lo)) := by
  rw [parse_5 (by rw [h]; rfl)]; unfold parse5; rw [h]; rfl

theorem parse_60 {r : Raw} (h : r.opc = 0x60#8) : parse r = (do r.oDA (.faddI r.g r.t (← FMode.ofCode r.md) · · r.lo)) := by
  rw [parse_6 (by rw [h]; rfl)]; unfold parse5; rw [h]; rfl

theorem parse_61 {r : Raw} (h : r.opc = 0x61#8) : parse r = (do r.oDA (.fmulI r.g r.t (← FMode.ofCode r.md) · · r.lo)) := by
  rw [parse_6 (by rw [h]; rfl)]; unfold parse5; rw [h]; rfl

theorem parse_62 {r : Raw} (h : r.opc = 0x62#8) : parse r = (do
    r.oA (.fsetI r.g r.t (← FCmp.ofCode (r.md.extractLsb' 0 4)) (r.md.getLsbD 4) (← pdstOf r.dst) · r.lo)) := by
  rw [parse_6 (by rw [h]; rfl)]; unfold parse5; rw [h]; rfl

theorem parse_70 {r : Raw} (h : r.opc = 0x70#8) : parse r = (do r.oDA (.fcvt r.g r.t (Ty.ofCode r.md) (← cvtModes r.src2) (r.src2.getLsbD 3))) := by
  rw [parse_7 (by rw [h]; rfl)]; unfold parse7; rw [h]; rfl

theorem parse_71 {r : Raw} (h : r.opc = 0x71#8) : parse r = (do r.xDA (.fcvtX r.g r.t (Ty.ofCode r.md) (← cvtModes r.src2) (r.src2.getLsbD 3))) := by
  rw [parse_7 (by rw [h]; rfl)]; unfold parse7; rw [h]; rfl

theorem parse_72 {r : Raw} (h : r.opc = 0x72#8) : parse r = (r.oDA (.cvti r.g r.t (Ty.ofCode r.md) (r.src2.getLsbD 3))) := by
  rw [parse_7 (by rw [h]; rfl)]; unfold parse7; rw [h]; rfl

theorem parse_73 {r : Raw} (h : r.opc = 0x73#8) : parse r = (r.xDA (.cvtiX r.g r.t (Ty.ofCode r.md) (r.src2.getLsbD 3))) := by
  rw [parse_7 (by rw [h]; rfl)]; unfold parse7; rw [h]; rfl

theorem parse_74 {r : Raw} (h : r.opc = 0x74#8) : parse r = (r.oDAB (.pack r.g r.t r.md)) := by
  rw [parse_7 (by rw [h]; rfl)]; unfold parse7; rw [h]; rfl

theorem parse_75 {r : Raw} (h : r.opc = 0x75#8) : parse r = (r.xDAB (.packX r.g r.t r.md)) := by
  rw [parse_7 (by rw [h]; rfl)]; unfold parse7; rw [h]; rfl

theorem parse_76 {r : Raw} (h : r.opc = 0x76#8) : parse r = (r.oDA (.unpk r.g r.t r.m1)) := by
  rw [parse_7 (by rw [h]; rfl)]; unfold parse7; rw [h]; rfl

theorem parse_77 {r : Raw} (h : r.opc = 0x77#8) : parse r = (r.xDA (.unpkX r.g r.t r.m1)) := by
  rw [parse_7 (by rw [h]; rfl)]; unfold parse7; rw [h]; rfl

theorem parse_80 {r : Raw} (h : r.opc = 0x80#8) : parse r = (r.oDAB (.ld r.g r.la r.t)) := by
  rw [parse_8 (by rw [h]; rfl)]; unfold parse8; rw [h]; rfl

theorem parse_81 {r : Raw} (h : r.opc = 0x81#8) : parse r = (r.oDA (.ldI r.g r.la r.t · · r.lo)) := by
  rw [parse_8 (by rw [h]; rfl)]; unfold parse8; rw [h]; rfl

theorem parse_82 {r : Raw} (h : r.opc = 0x82#8) : parse r = (r.oDAB (fun a c o => .st r.g r.la r.t c o a)) := by
  rw [parse_8 (by rw [h]; rfl)]; unfold parse8; rw [h]; rfl

theorem parse_83 {r : Raw} (h : r.opc = 0x83#8) : parse r = (r.oDA (fun a c => .stI r.g r.la r.t c a r.lo)) := by
  rw [parse_8 (by rw [h]; rfl)]; unfold parse8; rw [h]; rfl

theorem parse_84 {r : Raw} (h : r.opc = 0x84#8) : parse r = (r.oDB (.lds r.g r.la r.t)) := by
  rw [parse_8 (by rw [h]; rfl)]; unfold parse8; rw [h]; rfl

theorem parse_85 {r : Raw} (h : r.opc = 0x85#8) : parse r = (r.oD (.ldsI r.g r.la r.t · r.lo)) := by
  rw [parse_8 (by rw [h]; rfl)]; unfold parse8; rw [h]; rfl

theorem parse_86 {r : Raw} (h : r.opc = 0x86#8) : parse r = (r.oDB (fun a o => .sts r.g r.la r.t o a)) := by
  rw [parse_8 (by rw [h]; rfl)]; unfold parse8; rw [h]; rfl

theorem parse_87 {r : Raw} (h : r.opc = 0x87#8) : parse r = (r.oD (.stsI r.g r.la r.t · r.lo)) := by
  rw [parse_8 (by rw [h]; rfl)]; unfold parse8; rw [h]; rfl

theorem parse_88 {r : Raw} (h : r.opc = 0x88#8) : parse r = (r.oAB (.pref r.g r.la r.m0)) := by
  rw [parse_8 (by rw [h]; rfl)]; unfold parse8; rw [h]; rfl

theorem parse_89 {r : Raw} (h : r.opc = 0x89#8) : parse r = (do r.xDABC (.atom r.g r.la r.t (← AtomOp.ofCode r.md))) := by
  rw [parse_8 (by rw [h]; rfl)]; unfold parse8; rw [h]; rfl

theorem parse_8A {r : Raw} (h : r.opc = 0x8A#8) : parse r = (do
    return .cas r.g r.la r.t (← Opnd.ofField r.dst) (← Opnd.ofField r.src1) (← Opnd.ofField r.src2)
      (← Opnd.ofField (src3Of r.lo))) := by
  rw [parse_8 (by rw [h]; rfl)]; unfold parse8; rw [h]; rfl

theorem parse_8B {r : Raw} (h : r.opc = 0x8B#8) : parse r = (do r.xABC (.red r.g r.la r.t (← RedOp.ofCode r.md))) := by
  rw [parse_8 (by rw [h]; rfl)]; unfold parse8; rw [h]; rfl

theorem parse_A0 {r : Raw} (h : r.opc = 0xA0#8) : parse r = (do
    return .capn r.g r.md (← Opnd.ofField r.dst) (← Opnd.ofField r.src1) (← Opnd.ofField r.src2)
      (← Opnd.ofField (src3Of r.lo))) := by
  rw [parse_A (by rw [h]; rfl)]; unfold parseA; rw [h]; rfl

theorem parse_A1 {r : Raw} (h : r.opc = 0xA1#8) : parse r = (do r.oDA (.capq r.g (← CapField.ofCode r.md))) := by
  rw [parse_A (by rw [h]; rfl)]; unfold parseA; rw [h]; rfl

theorem parse_A2 {r : Raw} (h : r.opc = 0xA2#8) : parse r = (r.oDAB (.caps r.g)) := by
  rw [parse_A (by rw [h]; rfl)]; unfold parseA; rw [h]; rfl

theorem parse_A4 {r : Raw} (h : r.opc = 0xA4#8) : parse r = (r.oA .give) := by
  rw [parse_A (by rw [h]; rfl)]; unfold parseA; rw [h]; rfl

theorem parse_A5 {r : Raw} (h : r.opc = 0xA5#8) : parse r = (r.oA .claim) := by
  rw [parse_A (by rw [h]; rfl)]; unfold parseA; rw [h]; rfl

theorem parse_A6 {r : Raw} (h : r.opc = 0xA6#8) : parse r = (do
    return .rgn (← Opnd.ofField r.dst) (← Opnd.ofField r.src1) (← Opnd.ofField r.src2) (← Opnd.ofField (src3Of r.lo))) := by
  rw [parse_A (by rw [h]; rfl)]; unfold parseA; rw [h]; rfl

theorem parse_A7 {r : Raw} (h : r.opc = 0xA7#8) : parse r = (do r.oD (.srd r.g · (← WordRef.ofWord r.lo))) := by
  rw [parse_A (by rw [h]; rfl)]; unfold parseA; rw [h]; rfl

theorem parse_A8 {r : Raw} (h : r.opc = 0xA8#8) : parse r = (do r.oA (.swr r.g · (← WordRef.ofWord r.lo))) := by
  rw [parse_A (by rw [h]; rfl)]; unfold parseA; rw [h]; rfl

theorem parse_B0 {r : Raw} (h : r.opc = 0xB0#8) : parse r = (.ok (.bra r.g r.lo r.hi)) := by
  rw [parse_B (by rw [h]; rfl)]; unfold parseB; rw [h]; rfl

theorem parse_B1 {r : Raw} (h : r.opc = 0xB1#8) : parse r = (r.oA (.brx r.g · r.hi)) := by
  rw [parse_B (by rw [h]; rfl)]; unfold parseB; rw [h]; rfl

theorem parse_B2 {r : Raw} (h : r.opc = 0xB2#8) : parse r = (r.oD (.call r.g · r.lo)) := by
  rw [parse_B (by rw [h]; rfl)]; unfold parseB; rw [h]; rfl

theorem parse_B3 {r : Raw} (h : r.opc = 0xB3#8) : parse r = (r.oA (.ret r.g)) := by
  rw [parse_B (by rw [h]; rfl)]; unfold parseB; rw [h]; rfl

theorem parse_B4 {r : Raw} (h : r.opc = 0xB4#8) : parse r = (.ok (.exit r.g)) := by
  rw [parse_B (by rw [h]; rfl)]; unfold parseB; rw [h]; rfl

theorem parse_B5 {r : Raw} (h : r.opc = 0xB5#8) : parse r = (.ok (.nop r.g)) := by
  rw [parse_B (by rw [h]; rfl)]; unfold parseB; rw [h]; rfl

theorem parse_B6 {r : Raw} (h : r.opc = 0xB6#8) : parse r = (.ok (.nopLong r.g)) := by
  rw [parse_B (by rw [h]; rfl)]; unfold parseB; rw [h]; rfl

theorem parse_B7 {r : Raw} (h : r.opc = 0xB7#8) : parse r = (.ok (.yield r.g)) := by
  rw [parse_B (by rw [h]; rfl)]; unfold parseB; rw [h]; rfl

theorem parse_B8 {r : Raw} (h : r.opc = 0xB8#8) : parse r = (do
    return .plop r.g (r.md.extractLsb' 0 4) (← pdstOf r.dst) (← PSrc.ofField r.src1) (← PSrc.ofField r.src2)) := by
  rw [parse_B (by rw [h]; rfl)]; unfold parseB; rw [h]; rfl

theorem parse_C0 {r : Raw} (h : r.opc = 0xC0#8) : parse r = (do
    return .fence r.g (← FenceKind.ofCode (r.md.extractLsb' 3 2)) (← Scope.ofCode (r.md.extractLsb' 0 3))) := by
  rw [parse_C (by rw [h]; rfl)]; unfold parseC; rw [h]; rfl

theorem parse_C1 {r : Raw} (h : r.opc = 0xC1#8) : parse r = (do r.oA (.acq r.g (← Scope.ofCode (r.md.extractLsb' 0 3)))) := by
  rw [parse_C (by rw [h]; rfl)]; unfold parseC; rw [h]; rfl

theorem parse_C2 {r : Raw} (h : r.opc = 0xC2#8) : parse r = (do r.oA (.rel r.g (← Scope.ofCode (r.md.extractLsb' 0 3)))) := by
  rw [parse_C (by rw [h]; rfl)]; unfold parseC; rw [h]; rfl

theorem parse_C3 {r : Raw} (h : r.opc = 0xC3#8) : parse r = (r.oAB (.bind r.g)) := by
  rw [parse_C (by rw [h]; rfl)]; unfold parseC; rw [h]; rfl

theorem parse_C4 {r : Raw} (h : r.opc = 0xC4#8) : parse r = (r.oA (.unbind r.g)) := by
  rw [parse_C (by rw [h]; rfl)]; unfold parseC; rw [h]; rfl

theorem parse_C5 {r : Raw} (h : r.opc = 0xC5#8) : parse r = (do r.xABC (.waitc r.g r.t (← Cmp.ofCode r.md))) := by
  rw [parse_C (by rw [h]; rfl)]; unfold parseC; rw [h]; rfl

theorem parse_C6 {r : Raw} (h : r.opc = 0xC6#8) : parse r = (r.oAB (.rvinit r.g)) := by
  rw [parse_C (by rw [h]; rfl)]; unfold parseC; rw [h]; rfl

theorem parse_C7 {r : Raw} (h : r.opc = 0xC7#8) : parse r = (r.oA (.rvarr r.g)) := by
  rw [parse_C (by rw [h]; rfl)]; unfold parseC; rw [h]; rfl

theorem parse_C8 {r : Raw} (h : r.opc = 0xC8#8) : parse r = (
    if r.m0 then do
      return .rvwaitTimed r.g (← Opnd.ofField r.src1) (← Opnd.ofField r.src2) (← pdstOf r.dst) (← XCtl.ofWord r.lo)
    else r.oA (.rvwaitPlain r.g)) := by
  rw [parse_C (by rw [h]; rfl)]; unfold parseC; rw [h]; rfl

theorem parse_C9 {r : Raw} (h : r.opc = 0xC9#8) : parse r = (r.oAB (.rvexp r.g)) := by
  rw [parse_C (by rw [h]; rfl)]; unfold parseC; rw [h]; rfl

theorem parse_CA {r : Raw} (h : r.opc = 0xCA#8) : parse r = (r.oA (.rvinv r.g)) := by
  rw [parse_C (by rw [h]; rfl)]; unfold parseC; rw [h]; rfl

theorem parse_CB {r : Raw} (h : r.opc = 0xCB#8) : parse r = (r.xABC (fun o s z _ => .rinit r.g o s z)) := by
  rw [parse_C (by rw [h]; rfl)]; unfold parseC; rw [h]; rfl

theorem parse_CC {r : Raw} (h : r.opc = 0xCC#8) : parse r = (r.oDA (.rwait r.g)) := by
  rw [parse_C (by rw [h]; rfl)]; unfold parseC; rw [h]; rfl

theorem parse_CD {r : Raw} (h : r.opc = 0xCD#8) : parse r = (r.oA (.rrel r.g)) := by
  rw [parse_C (by rw [h]; rfl)]; unfold parseC; rw [h]; rfl

theorem parse_CE {r : Raw} (h : r.opc = 0xCE#8) : parse r = (r.oA (.cpwait r.g)) := by
  rw [parse_C (by rw [h]; rfl)]; unfold parseC; rw [h]; rfl

theorem parse_D0 {r : Raw} (h : r.opc = 0xD0#8) : parse r = (
    r.oDAB (.copy r.g r.la (CopyDir.ofCode (r.up.extractLsb' 33 2)) · · · (r.up.extractLsb' 48 16)
      (r.up.extractLsb' 43 5) (r.up.extractLsb' 37 6) (r.up.extractLsb' 21 12))) := by
  rw [parse_D (by rw [h]; rfl)]; unfold parseD; rw [h]; rfl

theorem parse_D1 {r : Raw} (h : r.opc = 0xD1#8) : parse r = (do
    let sk := r.up.getLsbD 26
    return .copym r.g r.la sk (← Opnd.ofField r.dst) (← Opnd.ofField r.src1) (← optOf (!sk) r.src2)
      (r.up.extractLsb' 48 16) (r.up.extractLsb' 43 5) (r.up.extractLsb' 27 16)) := by
  rw [parse_D (by rw [h]; rfl)]; unfold parseD; rw [h]; rfl

theorem parse_D2 {r : Raw} (h : r.opc = 0xD2#8) : parse r = (r.oAB (.task r.g)) := by
  rw [parse_D (by rw [h]; rfl)]; unfold parseD; rw [h]; rfl

theorem parse_D3 {r : Raw} (h : r.opc = 0xD3#8) : parse r = (r.oA (.krel r.g)) := by
  rw [parse_D (by rw [h]; rfl)]; unfold parseD; rw [h]; rfl

theorem parse_D4 {r : Raw} (h : r.opc = 0xD4#8) : parse r = (r.oAB (.qpush r.g)) := by
  rw [parse_D (by rw [h]; rfl)]; unfold parseD; rw [h]; rfl

theorem parse_D5 {r : Raw} (h : r.opc = 0xD5#8) : parse r = (r.oDA (.qpop r.g)) := by
  rw [parse_D (by rw [h]; rfl)]; unfold parseD; rw [h]; rfl

theorem parse_D6 {r : Raw} (h : r.opc = 0xD6#8) : parse r = (do
    return .lnch r.g (← Opnd.ofField r.dst) (← Opnd.ofField r.src1) (← Opnd.ofField r.src2)
      (← Opnd.ofField (src3Of r.lo))) := by
  rw [parse_D (by rw [h]; rfl)]; unfold parseD; rw [h]; rfl

theorem parse_D7 {r : Raw} (h : r.opc = 0xD7#8) : parse r = (r.oA (.cncl r.g)) := by
  rw [parse_D (by rw [h]; rfl)]; unfold parseD; rw [h]; rfl

theorem parse_D8 {r : Raw} (h : r.opc = 0xD8#8) : parse r = (r.oDA (.cwait r.g)) := by
  rw [parse_D (by rw [h]; rfl)]; unfold parseD; rw [h]; rfl

theorem parse_E0 {r : Raw} (h : r.opc = 0xE0#8) : parse r = (do
    let u := MmaUp.ofWord r.up
    return .mma r.g r.la r.t (← Opnd.ofField r.src1) (← ksOf u.scl r.src2) u) := by
  rw [parse_E (by rw [h]; rfl)]; unfold parseE; rw [h]; rfl

theorem parse_E1 {r : Raw} (h : r.opc = 0xE1#8) : parse r = (do
    let u := MmaUp.ofWord r.up
    return .mspa r.g r.la r.t (← SparsePat.ofCode r.md) (← Opnd.ofField r.dst) (← Opnd.ofField r.src1)
      (← ksOf u.scl r.src2) u) := by
  rw [parse_E (by rw [h]; rfl)]; unfold parseE; rw [h]; rfl

theorem parse_E2 {r : Raw} (h : r.opc = 0xE2#8) : parse r = (do
    let u := MloopUp.ofWord r.up
    return .mloop r.g r.la r.t (← Opnd.ofField r.dst) (← Opnd.ofField r.src1) (← ksOf u.scl r.src2) u) := by
  rw [parse_E (by rw [h]; rfl)]; unfold parseE; rw [h]; rfl

theorem parse_E3 {r : Raw} (h : r.opc = 0xE3#8) : parse r = (do
    let sk := r.up.getLsbD 26
    return .mldb r.g r.la r.t sk (← Opnd.ofField r.src1) (← optOf (!sk) r.src2) (r.up.extractLsb' 48 16)
      (r.up.extractLsb' 32 16) (r.up.extractLsb' 27 5)) := by
  rw [parse_E (by rw [h]; rfl)]; unfold parseE; rw [h]; rfl

theorem parse_E4 {r : Raw} (h : r.opc = 0xE4#8) : parse r = (do
    let sk := r.up.getLsbD 26
    return .mlds r.g r.la sk (← Opnd.ofField r.dst) (← Opnd.ofField r.src1) (← optOf (!sk) r.src2)
      (r.up.extractLsb' 48 16) (r.up.extractLsb' 27 5)) := by
  rw [parse_E (by rw [h]; rfl)]; unfold parseE; rw [h]; rfl

theorem parse_E5 {r : Raw} (h : r.opc = 0xE5#8) : parse r = (do
    let u := MdrnUp.ofWord r.up
    let op ← DrainOp.ofCode (r.md.extractLsb' 0 2)
    let st := op != .reg
    return .mdrn r.g r.la op (r.md.getLsbD 2) (← optOf (!st) r.dst) (← optOf st r.src1) (← optOf (st && !u.tgt) r.src2) u) := by
  rw [parse_E (by rw [h]; rfl)]; unfold parseE; rw [h]; rfl

theorem parse_E6 {r : Raw} (h : r.opc = 0xE6#8) : parse r = (r.oAB (.mzro r.g r.la r.t)) := by
  rw [parse_E (by rw [h]; rfl)]; unfold parseE; rw [h]; rfl

theorem parse_E7 {r : Raw} (h : r.opc = 0xE7#8) : parse r = (r.oA (.tokp r.g)) := by
  rw [parse_E (by rw [h]; rfl)]; unfold parseE; rw [h]; rfl

theorem parse_E8 {r : Raw} (h : r.opc = 0xE8#8) : parse r = (.ok (.tokw r.g)) := by
  rw [parse_E (by rw [h]; rfl)]; unfold parseE; rw [h]; rfl

theorem parse_E9 {r : Raw} (h : r.opc = 0xE9#8) : parse r = (do
    let op ← VerdictOp.ofCode r.md
    return .vdset r.g r.la op (← optOf (op != .sign) r.src1) (← Opnd.ofField r.src2) (VdsetUp.ofWord r.up)) := by
  rw [parse_E (by rw [h]; rfl)]; unfold parseE; rw [h]; rfl

theorem parse_EA {r : Raw} (h : r.opc = 0xEA#8) : parse r = (do r.xDABC (.vdot r.g r.la r.t (← FMode.ofCode r.md))) := by
  rw [parse_E (by rw [h]; rfl)]; unfold parseE; rw [h]; rfl

theorem parse_EB {r : Raw} (h : r.opc = 0xEB#8) : parse r = (r.oAB (.vthr r.g r.la)) := by
  rw [parse_E (by rw [h]; rfl)]; unfold parseE; rw [h]; rfl

theorem parse_EC {r : Raw} (h : r.opc = 0xEC#8) : parse r = (do
    let op ← TopkOp.ofCode r.md
    return .topk r.g r.la op (← Opnd.ofField r.dst) (← Opnd.ofField r.src1)
      (← optOf (op == .val || op == .idx) r.src2)) := by
  rw [parse_E (by rw [h]; rfl)]; unfold parseE; rw [h]; rfl

theorem parse_F0 {r : Raw} (h : r.opc = 0xF0#8) : parse r = (r.oA (.trap r.g)) := by
  rw [parse_F (by rw [h]; rfl)]; unfold parseF; rw [h]; rfl

theorem parse_F1 {r : Raw} (h : r.opc = 0xF1#8) : parse r = (.ok (.bkpt r.g)) := by
  rw [parse_F (by rw [h]; rfl)]; unfold parseF; rw [h]; rfl

theorem parse_F2 {r : Raw} (h : r.opc = 0xF2#8) : parse r = (r.oA (.sysc r.g)) := by
  rw [parse_F (by rw [h]; rfl)]; unfold parseF; rw [h]; rfl

theorem parse_F3 {r : Raw} (h : r.opc = 0xF3#8) : parse r = (.ok .eret) := by
  rw [parse_F (by rw [h]; rfl)]; unfold parseF; rw [h]; rfl

theorem parse_F4 {r : Raw} (h : r.opc = 0xF4#8) : parse r = (r.oAB (.iflush r.g)) := by
  rw [parse_F (by rw [h]; rfl)]; unfold parseF; rw [h]; rfl

/-! ### Each instruction -/

namespace Laws.Reads

/-- A well-formed instruction with a word: its fields are read as it. -/
def Statement (i : Instr) : Prop := i.hasWord = true → i.wf = true → parse (encRaw i) = .ok i

theorem iadd (g t sat d a b) : Statement (.iadd g t sat d a b) := fun _ _ => by
  rw [show encRaw (.iadd g t sat d a b) = ((((enc 0 0x01 g).tm t (modBit 0 sat)).wD d).wA a |>.wB b) from rfl, parse_01 rfl]
  simp only [enc, Raw.tm, Raw.wD, Raw.wA, Raw.wB, Raw.wLo, Raw.wUp, Raw.wLa, Raw.g, Raw.t, Raw.m0, Raw.m1, Raw.up, okBind, pure, Except.pure, Opnd.ofField_toField, Guard.ofField_toField, Ty.ofCode_code, Raw.oDAB, modBit_zero]

theorem iaddX (g t sat d a b x) : Statement (.iaddX g t sat d a b x) := fun _ _ => by
  rw [show encRaw (.iaddX g t sat d a b x) = (((((enc 1 0x23 g).tm t (modBit 0 sat)).wD d).wA a |>.wB b).wLo (x.toWord 0#12)) from rfl, parse_23 rfl]
  simp only [enc, Raw.tm, Raw.wD, Raw.wA, Raw.wB, Raw.wLo, Raw.wUp, Raw.wLa, Raw.g, Raw.t, Raw.m0, Raw.m1, Raw.up, okBind, pure, Except.pure, Opnd.ofField_toField, Guard.ofField_toField, Ty.ofCode_code, Raw.xDAB, XCtl.ofWord_toWord, modBit_zero]

theorem iaddI (g t sat d a v) : Statement (.iaddI g t sat d a v) := fun _ _ => by
  rw [show encRaw (.iaddI g t sat d a v) = (((((enc 1 0x31 g).tm t (modBit 0 sat)).wD d).wA a).wLo v) from rfl, parse_31 rfl]
  simp only [enc, Raw.tm, Raw.wD, Raw.wA, Raw.wB, Raw.wLo, Raw.wUp, Raw.wLa, Raw.g, Raw.t, Raw.m0, Raw.m1, Raw.up, okBind, pure, Except.pure, Opnd.ofField_toField, Guard.ofField_toField, Ty.ofCode_code, Raw.oDA, modBit_zero]

theorem isub (g t sat d a b) : Statement (.isub g t sat d a b) := fun _ _ => by
  rw [show encRaw (.isub g t sat d a b) = ((((enc 0 0x02 g).tm t (modBit 0 sat)).wD d).wA a |>.wB b) from rfl, parse_02 rfl]
  simp only [enc, Raw.tm, Raw.wD, Raw.wA, Raw.wB, Raw.wLo, Raw.wUp, Raw.wLa, Raw.g, Raw.t, Raw.m0, Raw.m1, Raw.up, okBind, pure, Except.pure, Opnd.ofField_toField, Guard.ofField_toField, Ty.ofCode_code, Raw.oDAB, modBit_zero]

theorem isubX (g t sat d a b x) : Statement (.isubX g t sat d a b x) := fun _ _ => by
  rw [show encRaw (.isubX g t sat d a b x) = (((((enc 1 0x24 g).tm t (modBit 0 sat)).wD d).wA a |>.wB b).wLo (x.toWord 0#12)) from rfl, parse_24 rfl]
  simp only [enc, Raw.tm, Raw.wD, Raw.wA, Raw.wB, Raw.wLo, Raw.wUp, Raw.wLa, Raw.g, Raw.t, Raw.m0, Raw.m1, Raw.up, okBind, pure, Except.pure, Opnd.ofField_toField, Guard.ofField_toField, Ty.ofCode_code, Raw.xDAB, XCtl.ofWord_toWord, modBit_zero]

theorem imul (g t m d a b) : Statement (.imul g t m d a b) := fun _ _ => by
  rw [show encRaw (.imul g t m d a b) = ((((enc 0 0x03 g).tm t m.code).wD d).wA a |>.wB b) from rfl, parse_03 rfl]
  simp only [enc, Raw.tm, Raw.wD, Raw.wA, Raw.wB, Raw.wLo, Raw.wUp, Raw.wLa, Raw.g, Raw.t, Raw.m0, Raw.m1, Raw.up, okBind, pure, Except.pure, Opnd.ofField_toField, Guard.ofField_toField, Ty.ofCode_code, Raw.oDAB, MulMod.ofCode_code]

theorem imulX (g t m d a b x) : Statement (.imulX g t m d a b x) := fun _ _ => by
  rw [show encRaw (.imulX g t m d a b x) = (((((enc 1 0x25 g).tm t m.code).wD d).wA a |>.wB b).wLo (x.toWord 0#12)) from rfl, parse_25 rfl]
  simp only [enc, Raw.tm, Raw.wD, Raw.wA, Raw.wB, Raw.wLo, Raw.wUp, Raw.wLa, Raw.g, Raw.t, Raw.m0, Raw.m1, Raw.up, okBind, pure, Except.pure, Opnd.ofField_toField, Guard.ofField_toField, Ty.ofCode_code, Raw.xDAB, MulMod.ofCode_code, XCtl.ofWord_toWord]

theorem imulI (g t m d a v) : Statement (.imulI g t m d a v) := fun _ _ => by
  rw [show encRaw (.imulI g t m d a v) = (((((enc 1 0x32 g).tm t m.code).wD d).wA a).wLo v) from rfl, parse_32 rfl]
  simp only [enc, Raw.tm, Raw.wD, Raw.wA, Raw.wB, Raw.wLo, Raw.wUp, Raw.wLa, Raw.g, Raw.t, Raw.m0, Raw.m1, Raw.up, okBind, pure, Except.pure, Opnd.ofField_toField, Guard.ofField_toField, Ty.ofCode_code, Raw.oDA, MulMod.ofCode_code]

theorem idiv (g t sat rem d a b) : Statement (.idiv g t sat rem d a b) := fun _ _ => by
  rw [show encRaw (.idiv g t sat rem d a b) = ((((enc 0 0x04 g).tm t (modBit 0 sat ||| modBit 1 rem)).wD d).wA a |>.wB b) from rfl, parse_04 rfl]
  simp only [enc, Raw.tm, Raw.wD, Raw.wA, Raw.wB, Raw.wLo, Raw.wUp, Raw.wLa, Raw.g, Raw.t, Raw.m0, Raw.m1, Raw.up, okBind, pure, Except.pure, Opnd.ofField_toField, Guard.ofField_toField, Ty.ofCode_code, Raw.oDAB, modBits_zero, modBits_one]

theorem imin (g t sat d a b) : Statement (.imin g t sat d a b) := fun _ _ => by
  rw [show encRaw (.imin g t sat d a b) = ((((enc 0 0x05 g).tm t (modBit 0 sat)).wD d).wA a |>.wB b) from rfl, parse_05 rfl]
  simp only [enc, Raw.tm, Raw.wD, Raw.wA, Raw.wB, Raw.wLo, Raw.wUp, Raw.wLa, Raw.g, Raw.t, Raw.m0, Raw.m1, Raw.up, okBind, pure, Except.pure, Opnd.ofField_toField, Guard.ofField_toField, Ty.ofCode_code, Raw.oDAB, modBit_zero]

theorem iminX (g t sat d a b x) : Statement (.iminX g t sat d a b x) := fun _ _ => by
  rw [show encRaw (.iminX g t sat d a b x) = (((((enc 1 0x26 g).tm t (modBit 0 sat)).wD d).wA a |>.wB b).wLo (x.toWord 0#12)) from rfl, parse_26 rfl]
  simp only [enc, Raw.tm, Raw.wD, Raw.wA, Raw.wB, Raw.wLo, Raw.wUp, Raw.wLa, Raw.g, Raw.t, Raw.m0, Raw.m1, Raw.up, okBind, pure, Except.pure, Opnd.ofField_toField, Guard.ofField_toField, Ty.ofCode_code, Raw.xDAB, XCtl.ofWord_toWord, modBit_zero]

theorem imax (g t sat d a b) : Statement (.imax g t sat d a b) := fun _ _ => by
  rw [show encRaw (.imax g t sat d a b) = ((((enc 0 0x06 g).tm t (modBit 0 sat)).wD d).wA a |>.wB b) from rfl, parse_06 rfl]
  simp only [enc, Raw.tm, Raw.wD, Raw.wA, Raw.wB, Raw.wLo, Raw.wUp, Raw.wLa, Raw.g, Raw.t, Raw.m0, Raw.m1, Raw.up, okBind, pure, Except.pure, Opnd.ofField_toField, Guard.ofField_toField, Ty.ofCode_code, Raw.oDAB, modBit_zero]

theorem imaxX (g t sat d a b x) : Statement (.imaxX g t sat d a b x) := fun _ _ => by
  rw [show encRaw (.imaxX g t sat d a b x) = (((((enc 1 0x27 g).tm t (modBit 0 sat)).wD d).wA a |>.wB b).wLo (x.toWord 0#12)) from rfl, parse_27 rfl]
  simp only [enc, Raw.tm, Raw.wD, Raw.wA, Raw.wB, Raw.wLo, Raw.wUp, Raw.wLa, Raw.g, Raw.t, Raw.m0, Raw.m1, Raw.up, okBind, pure, Except.pure, Opnd.ofField_toField, Guard.ofField_toField, Ty.ofCode_code, Raw.xDAB, XCtl.ofWord_toWord, modBit_zero]

theorem iabs (g t sat d a) : Statement (.iabs g t sat d a) := fun _ _ => by
  rw [show encRaw (.iabs g t sat d a) = ((((enc 0 0x07 g).tm t (modBit 0 sat)).wD d).wA a) from rfl, parse_07 rfl]
  simp only [enc, Raw.tm, Raw.wD, Raw.wA, Raw.wB, Raw.wLo, Raw.wUp, Raw.wLa, Raw.g, Raw.t, Raw.m0, Raw.m1, Raw.up, okBind, pure, Except.pure, Opnd.ofField_toField, Guard.ofField_toField, Ty.ofCode_code, Raw.oDA, modBit_zero]

theorem imad (g t sat d a b c x) : Statement (.imad g t sat d a b c x) := fun _ _ => by
  rw [show encRaw (.imad g t sat d a b c x) = (((((enc 1 0x20 g).tm t (modBit 0 sat)).wD d).wA a |>.wB b).wLo (x.toWord c.toField)) from rfl, parse_20 rfl]
  simp only [enc, Raw.tm, Raw.wD, Raw.wA, Raw.wB, Raw.wLo, Raw.wUp, Raw.wLa, Raw.g, Raw.t, Raw.m0, Raw.m1, Raw.up, okBind, pure, Except.pure, Opnd.ofField_toField, Guard.ofField_toField, Ty.ofCode_code, Raw.xDABC, src3Of_toWord, XCtl.ofWord_toWord, modBit_zero]

theorem iset (g t op p a b) : Statement (.iset g t op p a b) := fun _ _ => by
  rw [show encRaw (.iset g t op p a b) = ({ (((enc 0 0x08 g).tm t op.code).wA a).wB b with dst := pdstField p }) from rfl, parse_08 rfl]
  simp only [enc, Raw.tm, Raw.wD, Raw.wA, Raw.wB, Raw.wLo, Raw.wUp, Raw.wLa, Raw.g, Raw.t, Raw.m0, Raw.m1, Raw.up, okBind, pure, Except.pure, Opnd.ofField_toField, Guard.ofField_toField, Ty.ofCode_code, Raw.oAB, Cmp.ofCode_code, pdstOf_pdstField]

theorem isetI (g t op p a v) : Statement (.isetI g t op p a v) := fun _ _ => by
  rw [show encRaw (.isetI g t op p a v) = ({ (((enc 1 0x36 g).tm t op.code).wA a).wLo v with dst := pdstField p }) from rfl, parse_36 rfl]
  simp only [enc, Raw.tm, Raw.wD, Raw.wA, Raw.wB, Raw.wLo, Raw.wUp, Raw.wLa, Raw.g, Raw.t, Raw.m0, Raw.m1, Raw.up, okBind, pure, Except.pure, Opnd.ofField_toField, Guard.ofField_toField, Ty.ofCode_code, Raw.oA, Cmp.ofCode_code, pdstOf_pdstField]

theorem and (g t d a b) : Statement (.and g t d a b) := fun _ _ => by
  rw [show encRaw (.and g t d a b) = ((((enc 0 0x09 g).tm t 0#5).wD d).wA a |>.wB b) from rfl, parse_09 rfl]
  simp only [enc, Raw.tm, Raw.wD, Raw.wA, Raw.wB, Raw.wLo, Raw.wUp, Raw.wLa, Raw.g, Raw.t, Raw.m0, Raw.m1, Raw.up, okBind, pure, Except.pure, Opnd.ofField_toField, Guard.ofField_toField, Ty.ofCode_code, Raw.oDAB]

theorem andX (g t d a b x) : Statement (.andX g t d a b x) := fun _ _ => by
  rw [show encRaw (.andX g t d a b x) = (((((enc 1 0x28 g).tm t 0#5).wD d).wA a |>.wB b).wLo (x.toWord 0#12)) from rfl, parse_28 rfl]
  simp only [enc, Raw.tm, Raw.wD, Raw.wA, Raw.wB, Raw.wLo, Raw.wUp, Raw.wLa, Raw.g, Raw.t, Raw.m0, Raw.m1, Raw.up, okBind, pure, Except.pure, Opnd.ofField_toField, Guard.ofField_toField, Ty.ofCode_code, Raw.xDAB, XCtl.ofWord_toWord]

theorem andI (g t d a v) : Statement (.andI g t d a v) := fun _ _ => by
  rw [show encRaw (.andI g t d a v) = (((((enc 1 0x33 g).tm t 0#5).wD d).wA a).wLo v) from rfl, parse_33 rfl]
  simp only [enc, Raw.tm, Raw.wD, Raw.wA, Raw.wB, Raw.wLo, Raw.wUp, Raw.wLa, Raw.g, Raw.t, Raw.m0, Raw.m1, Raw.up, okBind, pure, Except.pure, Opnd.ofField_toField, Guard.ofField_toField, Ty.ofCode_code, Raw.oDA]

theorem andn (g t d a b) : Statement (.andn g t d a b) := fun _ _ => by
  rw [show encRaw (.andn g t d a b) = ((((enc 0 0x0A g).tm t 0#5).wD d).wA a |>.wB b) from rfl, parse_0A rfl]
  simp only [enc, Raw.tm, Raw.wD, Raw.wA, Raw.wB, Raw.wLo, Raw.wUp, Raw.wLa, Raw.g, Raw.t, Raw.m0, Raw.m1, Raw.up, okBind, pure, Except.pure, Opnd.ofField_toField, Guard.ofField_toField, Ty.ofCode_code, Raw.oDAB]

theorem or (g t d a b) : Statement (.or g t d a b) := fun _ _ => by
  rw [show encRaw (.or g t d a b) = ((((enc 0 0x0B g).tm t 0#5).wD d).wA a |>.wB b) from rfl, parse_0B rfl]
  simp only [enc, Raw.tm, Raw.wD, Raw.wA, Raw.wB, Raw.wLo, Raw.wUp, Raw.wLa, Raw.g, Raw.t, Raw.m0, Raw.m1, Raw.up, okBind, pure, Except.pure, Opnd.ofField_toField, Guard.ofField_toField, Ty.ofCode_code, Raw.oDAB]

theorem orX (g t d a b x) : Statement (.orX g t d a b x) := fun _ _ => by
  rw [show encRaw (.orX g t d a b x) = (((((enc 1 0x29 g).tm t 0#5).wD d).wA a |>.wB b).wLo (x.toWord 0#12)) from rfl, parse_29 rfl]
  simp only [enc, Raw.tm, Raw.wD, Raw.wA, Raw.wB, Raw.wLo, Raw.wUp, Raw.wLa, Raw.g, Raw.t, Raw.m0, Raw.m1, Raw.up, okBind, pure, Except.pure, Opnd.ofField_toField, Guard.ofField_toField, Ty.ofCode_code, Raw.xDAB, XCtl.ofWord_toWord]

theorem orI (g t d a v) : Statement (.orI g t d a v) := fun _ _ => by
  rw [show encRaw (.orI g t d a v) = (((((enc 1 0x34 g).tm t 0#5).wD d).wA a).wLo v) from rfl, parse_34 rfl]
  simp only [enc, Raw.tm, Raw.wD, Raw.wA, Raw.wB, Raw.wLo, Raw.wUp, Raw.wLa, Raw.g, Raw.t, Raw.m0, Raw.m1, Raw.up, okBind, pure, Except.pure, Opnd.ofField_toField, Guard.ofField_toField, Ty.ofCode_code, Raw.oDA]

theorem xor (g t d a b) : Statement (.xor g t d a b) := fun _ _ => by
  rw [show encRaw (.xor g t d a b) = ((((enc 0 0x0C g).tm t 0#5).wD d).wA a |>.wB b) from rfl, parse_0C rfl]
  simp only [enc, Raw.tm, Raw.wD, Raw.wA, Raw.wB, Raw.wLo, Raw.wUp, Raw.wLa, Raw.g, Raw.t, Raw.m0, Raw.m1, Raw.up, okBind, pure, Except.pure, Opnd.ofField_toField, Guard.ofField_toField, Ty.ofCode_code, Raw.oDAB]

theorem xorX (g t d a b x) : Statement (.xorX g t d a b x) := fun _ _ => by
  rw [show encRaw (.xorX g t d a b x) = (((((enc 1 0x2A g).tm t 0#5).wD d).wA a |>.wB b).wLo (x.toWord 0#12)) from rfl, parse_2A rfl]
  simp only [enc, Raw.tm, Raw.wD, Raw.wA, Raw.wB, Raw.wLo, Raw.wUp, Raw.wLa, Raw.g, Raw.t, Raw.m0, Raw.m1, Raw.up, okBind, pure, Except.pure, Opnd.ofField_toField, Guard.ofField_toField, Ty.ofCode_code, Raw.xDAB, XCtl.ofWord_toWord]

theorem xorI (g t d a v) : Statement (.xorI g t d a v) := fun _ _ => by
  rw [show encRaw (.xorI g t d a v) = (((((enc 1 0x35 g).tm t 0#5).wD d).wA a).wLo v) from rfl, parse_35 rfl]
  simp only [enc, Raw.tm, Raw.wD, Raw.wA, Raw.wB, Raw.wLo, Raw.wUp, Raw.wLa, Raw.g, Raw.t, Raw.m0, Raw.m1, Raw.up, okBind, pure, Except.pure, Opnd.ofField_toField, Guard.ofField_toField, Ty.ofCode_code, Raw.oDA]

theorem shl (g t d a b) : Statement (.shl g t d a b) := fun _ _ => by
  rw [show encRaw (.shl g t d a b) = ((((enc 0 0x0D g).tm t 0#5).wD d).wA a |>.wB b) from rfl, parse_0D rfl]
  simp only [enc, Raw.tm, Raw.wD, Raw.wA, Raw.wB, Raw.wLo, Raw.wUp, Raw.wLa, Raw.g, Raw.t, Raw.m0, Raw.m1, Raw.up, okBind, pure, Except.pure, Opnd.ofField_toField, Guard.ofField_toField, Ty.ofCode_code, Raw.oDAB]

theorem shr (g t d a b) : Statement (.shr g t d a b) := fun _ _ => by
  rw [show encRaw (.shr g t d a b) = ((((enc 0 0x0E g).tm t 0#5).wD d).wA a |>.wB b) from rfl, parse_0E rfl]
  simp only [enc, Raw.tm, Raw.wD, Raw.wA, Raw.wB, Raw.wLo, Raw.wUp, Raw.wLa, Raw.g, Raw.t, Raw.m0, Raw.m1, Raw.up, okBind, pure, Except.pure, Opnd.ofField_toField, Guard.ofField_toField, Ty.ofCode_code, Raw.oDAB]

theorem sha (g t d a b) : Statement (.sha g t d a b) := fun _ _ => by
  rw [show encRaw (.sha g t d a b) = ((((enc 0 0x0F g).tm t 0#5).wD d).wA a |>.wB b) from rfl, parse_0F rfl]
  simp only [enc, Raw.tm, Raw.wD, Raw.wA, Raw.wB, Raw.wLo, Raw.wUp, Raw.wLa, Raw.g, Raw.t, Raw.m0, Raw.m1, Raw.up, okBind, pure, Except.pure, Opnd.ofField_toField, Guard.ofField_toField, Ty.ofCode_code, Raw.oDAB]

theorem rot (g t d a b) : Statement (.rot g t d a b) := fun _ _ => by
  rw [show encRaw (.rot g t d a b) = ((((enc 0 0x10 g).tm t 0#5).wD d).wA a |>.wB b) from rfl, parse_10 rfl]
  simp only [enc, Raw.tm, Raw.wD, Raw.wA, Raw.wB, Raw.wLo, Raw.wUp, Raw.wLa, Raw.g, Raw.t, Raw.m0, Raw.m1, Raw.up, okBind, pure, Except.pure, Opnd.ofField_toField, Guard.ofField_toField, Ty.ofCode_code, Raw.oDAB]

theorem popc (g t d a) : Statement (.popc g t d a) := fun _ _ => by
  rw [show encRaw (.popc g t d a) = ((((enc 0 0x11 g).tm t 0#5).wD d).wA a) from rfl, parse_11 rfl]
  simp only [enc, Raw.tm, Raw.wD, Raw.wA, Raw.wB, Raw.wLo, Raw.wUp, Raw.wLa, Raw.g, Raw.t, Raw.m0, Raw.m1, Raw.up, okBind, pure, Except.pure, Opnd.ofField_toField, Guard.ofField_toField, Ty.ofCode_code, Raw.oDA]

theorem clz (g t d a) : Statement (.clz g t d a) := fun _ _ => by
  rw [show encRaw (.clz g t d a) = ((((enc 0 0x12 g).tm t 0#5).wD d).wA a) from rfl, parse_12 rfl]
  simp only [enc, Raw.tm, Raw.wD, Raw.wA, Raw.wB, Raw.wLo, Raw.wUp, Raw.wLa, Raw.g, Raw.t, Raw.m0, Raw.m1, Raw.up, okBind, pure, Except.pure, Opnd.ofField_toField, Guard.ofField_toField, Ty.ofCode_code, Raw.oDA]

theorem brev (g t d a) : Statement (.brev g t d a) := fun _ _ => by
  rw [show encRaw (.brev g t d a) = ((((enc 0 0x13 g).tm t 0#5).wD d).wA a) from rfl, parse_13 rfl]
  simp only [enc, Raw.tm, Raw.wD, Raw.wA, Raw.wB, Raw.wLo, Raw.wUp, Raw.wLa, Raw.g, Raw.t, Raw.m0, Raw.m1, Raw.up, okBind, pure, Except.pure, Opnd.ofField_toField, Guard.ofField_toField, Ty.ofCode_code, Raw.oDA]

theorem bfx (g t d a b) : Statement (.bfx g t d a b) := fun _ _ => by
  rw [show encRaw (.bfx g t d a b) = ((((enc 0 0x14 g).tm t 0#5).wD d).wA a |>.wB b) from rfl, parse_14 rfl]
  simp only [enc, Raw.tm, Raw.wD, Raw.wA, Raw.wB, Raw.wLo, Raw.wUp, Raw.wLa, Raw.g, Raw.t, Raw.m0, Raw.m1, Raw.up, okBind, pure, Except.pure, Opnd.ofField_toField, Guard.ofField_toField, Ty.ofCode_code, Raw.oDAB]

theorem bfi (g t d a b c x) : Statement (.bfi g t d a b c x) := fun _ _ => by
  rw [show encRaw (.bfi g t d a b c x) = (((((enc 1 0x21 g).tm t 0#5).wD d).wA a |>.wB b).wLo (x.toWord c.toField)) from rfl, parse_21 rfl]
  simp only [enc, Raw.tm, Raw.wD, Raw.wA, Raw.wB, Raw.wLo, Raw.wUp, Raw.wLa, Raw.g, Raw.t, Raw.m0, Raw.m1, Raw.up, okBind, pure, Except.pure, Opnd.ofField_toField, Guard.ofField_toField, Ty.ofCode_code, Raw.xDABC, src3Of_toWord, XCtl.ofWord_toWord]

theorem mov (g t sat d a) : Statement (.mov g t sat d a) := fun _ _ => by
  rw [show encRaw (.mov g t sat d a) = ((((enc 0 0x15 g).tm t (modBit 0 sat)).wD d).wA a) from rfl, parse_15 rfl]
  simp only [enc, Raw.tm, Raw.wD, Raw.wA, Raw.wB, Raw.wLo, Raw.wUp, Raw.wLa, Raw.g, Raw.t, Raw.m0, Raw.m1, Raw.up, okBind, pure, Except.pure, Opnd.ofField_toField, Guard.ofField_toField, Ty.ofCode_code, Raw.oDA, modBit_zero]

theorem movX (g t sat d a x) : Statement (.movX g t sat d a x) := fun _ _ => by
  rw [show encRaw (.movX g t sat d a x) = (((((enc 1 0x2B g).tm t (modBit 0 sat)).wD d).wA a).wLo (x.toWord 0#12)) from rfl, parse_2B rfl]
  simp only [enc, Raw.tm, Raw.wD, Raw.wA, Raw.wB, Raw.wLo, Raw.wUp, Raw.wLa, Raw.g, Raw.t, Raw.m0, Raw.m1, Raw.up, okBind, pure, Except.pure, Opnd.ofField_toField, Guard.ofField_toField, Ty.ofCode_code, Raw.xDA, XCtl.ofWord_toWord, modBit_zero]

theorem movi (g t sat d v) : Statement (.movi g t sat d v) := fun _ _ => by
  rw [show encRaw (.movi g t sat d v) = ((((enc 1 0x30 g).tm t (modBit 0 sat)).wD d).wLo v) from rfl, parse_30 rfl]
  simp only [enc, Raw.tm, Raw.wD, Raw.wA, Raw.wB, Raw.wLo, Raw.wUp, Raw.wLa, Raw.g, Raw.t, Raw.m0, Raw.m1, Raw.up, okBind, pure, Except.pure, Opnd.ofField_toField, Guard.ofField_toField, Ty.ofCode_code, Raw.oD, modBit_zero]

theorem movxRead (g j d) : Statement (.movxRead g j d) := fun _ _ => by
  rw [show encRaw (.movxRead g j d) = (((enc 0 0x16 g).tm .none (0#2 ++ j ++ 0#1)).wD d) from rfl, parse_16 rfl]
  simp only [enc, Raw.tm, Raw.wD, Raw.wA, Raw.wB, Raw.wLo, Raw.wUp, Raw.wLa, Raw.g, Raw.t, Raw.m0, Raw.m1, Raw.up, okBind, pure, Except.pure, Opnd.ofField_toField, Guard.ofField_toField, Ty.ofCode_code, Raw.oD, Raw.oA, ixMod_read, if_neg, Bool.false_eq_true, if_false]

theorem movxWrite (g j a) : Statement (.movxWrite g j a) := fun _ _ => by
  rw [show encRaw (.movxWrite g j a) = (((enc 0 0x16 g).tm .none (0#2 ++ j ++ 1#1)).wA a) from rfl, parse_16 rfl]
  simp only [enc, Raw.tm, Raw.wD, Raw.wA, Raw.wB, Raw.wLo, Raw.wUp, Raw.wLa, Raw.g, Raw.t, Raw.m0, Raw.m1, Raw.up, okBind, pure, Except.pure, Opnd.ofField_toField, Guard.ofField_toField, Ty.ofCode_code, Raw.oD, Raw.oA, ixMod_write, if_true]

theorem shfl (g t op d a b) : Statement (.shfl g t op d a b) := fun _ _ => by
  rw [show encRaw (.shfl g t op d a b) = ((((enc 0 0x17 g).tm t op.code).wD d).wA a |>.wB b) from rfl, parse_17 rfl]
  simp only [enc, Raw.tm, Raw.wD, Raw.wA, Raw.wB, Raw.wLo, Raw.wUp, Raw.wLa, Raw.g, Raw.t, Raw.m0, Raw.m1, Raw.up, okBind, pure, Except.pure, Opnd.ofField_toField, Guard.ofField_toField, Ty.ofCode_code, Raw.oDAB, ShflOp.ofCode_code]

theorem vote (g op p q) : Statement (.vote g op p q) := fun _ _ => by
  rw [show encRaw (.vote g op p q) = ({ (enc 0 0x18 g).tm .none op.code with dst := pdstField p, src1 := q.toField }) from rfl, parse_18 rfl]
  simp only [enc, Raw.tm, Raw.wD, Raw.wA, Raw.wB, Raw.wLo, Raw.wUp, Raw.wLa, Raw.g, Raw.t, Raw.m0, Raw.m1, Raw.up, okBind, pure, Except.pure, Opnd.ofField_toField, Guard.ofField_toField, Ty.ofCode_code, VoteOp.ofCode_code, pdstOf_pdstField, PSrc.ofField_toField]

theorem ballot (g d q) : Statement (.ballot g d q) := fun _ _ => by
  rw [show encRaw (.ballot g d q) = ({ (enc 0 0x19 g).wD d with src1 := q.toField }) from rfl, parse_19 rfl]
  simp only [enc, Raw.tm, Raw.wD, Raw.wA, Raw.wB, Raw.wLo, Raw.wUp, Raw.wLa, Raw.g, Raw.t, Raw.m0, Raw.m1, Raw.up, okBind, pure, Except.pure, Opnd.ofField_toField, Guard.ofField_toField, Ty.ofCode_code, PSrc.ofField_toField]

theorem redw (g t op d a) : Statement (.redw g t op d a) := fun _ _ => by
  rw [show encRaw (.redw g t op d a) = ((((enc 0 0x1A g).tm t op.code).wD d).wA a) from rfl, parse_1A rfl]
  simp only [enc, Raw.tm, Raw.wD, Raw.wA, Raw.wB, Raw.wLo, Raw.wUp, Raw.wLa, Raw.g, Raw.t, Raw.m0, Raw.m1, Raw.up, okBind, pure, Except.pure, Opnd.ofField_toField, Guard.ofField_toField, Ty.ofCode_code, Raw.oDA, RedOp.ofCode_code]

theorem sel (g t q d a b) : Statement (.sel g t q d a b) := fun _ _ => by
  rw [show encRaw (.sel g t q d a b) = ((((enc 0 0x1B g).tm t q.selCode).wD d).wA a |>.wB b) from rfl, parse_1B rfl]
  simp only [enc, Raw.tm, Raw.wD, Raw.wA, Raw.wB, Raw.wLo, Raw.wUp, Raw.wLa, Raw.g, Raw.t, Raw.m0, Raw.m1, Raw.up, okBind, pure, Except.pure, Opnd.ofField_toField, Guard.ofField_toField, Ty.ofCode_code, Raw.oDAB, PSrc.ofSelCode_selCode]

theorem selX (g t q d a b x) : Statement (.selX g t q d a b x) := fun _ _ => by
  rw [show encRaw (.selX g t q d a b x) = (((((enc 1 0x22 g).tm t q.selCode).wD d).wA a |>.wB b).wLo (x.toWord 0#12)) from rfl, parse_22 rfl]
  simp only [enc, Raw.tm, Raw.wD, Raw.wA, Raw.wB, Raw.wLo, Raw.wUp, Raw.wLa, Raw.g, Raw.t, Raw.m0, Raw.m1, Raw.up, okBind, pure, Except.pure, Opnd.ofField_toField, Guard.ofField_toField, Ty.ofCode_code, Raw.xDAB, PSrc.ofSelCode_selCode, XCtl.ofWord_toWord]

theorem fadd (g t m d a b) : Statement (.fadd g t m d a b) := fun _ _ => by
  rw [show encRaw (.fadd g t m d a b) = ((((enc 0 0x40 g).tm t m.code).wD d).wA a |>.wB b) from rfl, parse_40 rfl]
  simp only [enc, Raw.tm, Raw.wD, Raw.wA, Raw.wB, Raw.wLo, Raw.wUp, Raw.wLa, Raw.g, Raw.t, Raw.m0, Raw.m1, Raw.up, okBind, pure, Except.pure, Opnd.ofField_toField, Guard.ofField_toField, Ty.ofCode_code, Raw.oDAB, FMode.ofCode_code]

theorem faddX (g t m d a b x) : Statement (.faddX g t m d a b x) := fun _ _ => by
  rw [show encRaw (.faddX g t m d a b x) = (((((enc 1 0x51 g).tm t m.code).wD d).wA a |>.wB b).wLo (x.toWord 0#12)) from rfl, parse_51 rfl]
  simp only [enc, Raw.tm, Raw.wD, Raw.wA, Raw.wB, Raw.wLo, Raw.wUp, Raw.wLa, Raw.g, Raw.t, Raw.m0, Raw.m1, Raw.up, okBind, pure, Except.pure, Opnd.ofField_toField, Guard.ofField_toField, Ty.ofCode_code, Raw.xDAB, FMode.ofCode_code, XCtl.ofWord_toWord]

theorem faddI (g t m d a v) : Statement (.faddI g t m d a v) := fun _ _ => by
  rw [show encRaw (.faddI g t m d a v) = (((((enc 1 0x60 g).tm t m.code).wD d).wA a).wLo v) from rfl, parse_60 rfl]
  simp only [enc, Raw.tm, Raw.wD, Raw.wA, Raw.wB, Raw.wLo, Raw.wUp, Raw.wLa, Raw.g, Raw.t, Raw.m0, Raw.m1, Raw.up, okBind, pure, Except.pure, Opnd.ofField_toField, Guard.ofField_toField, Ty.ofCode_code, Raw.oDA, FMode.ofCode_code]

theorem fsub (g t m d a b) : Statement (.fsub g t m d a b) := fun _ _ => by
  rw [show encRaw (.fsub g t m d a b) = ((((enc 0 0x41 g).tm t m.code).wD d).wA a |>.wB b) from rfl, parse_41 rfl]
  simp only [enc, Raw.tm, Raw.wD, Raw.wA, Raw.wB, Raw.wLo, Raw.wUp, Raw.wLa, Raw.g, Raw.t, Raw.m0, Raw.m1, Raw.up, okBind, pure, Except.pure, Opnd.ofField_toField, Guard.ofField_toField, Ty.ofCode_code, Raw.oDAB, FMode.ofCode_code]

theorem fsubX (g t m d a b x) : Statement (.fsubX g t m d a b x) := fun _ _ => by
  rw [show encRaw (.fsubX g t m d a b x) = (((((enc 1 0x52 g).tm t m.code).wD d).wA a |>.wB b).wLo (x.toWord 0#12)) from rfl, parse_52 rfl]
  simp only [enc, Raw.tm, Raw.wD, Raw.wA, Raw.wB, Raw.wLo, Raw.wUp, Raw.wLa, Raw.g, Raw.t, Raw.m0, Raw.m1, Raw.up, okBind, pure, Except.pure, Opnd.ofField_toField, Guard.ofField_toField, Ty.ofCode_code, Raw.xDAB, FMode.ofCode_code, XCtl.ofWord_toWord]

theorem fmul (g t m d a b) : Statement (.fmul g t m d a b) := fun _ _ => by
  rw [show encRaw (.fmul g t m d a b) = ((((enc 0 0x42 g).tm t m.code).wD d).wA a |>.wB b) from rfl, parse_42 rfl]
  simp only [enc, Raw.tm, Raw.wD, Raw.wA, Raw.wB, Raw.wLo, Raw.wUp, Raw.wLa, Raw.g, Raw.t, Raw.m0, Raw.m1, Raw.up, okBind, pure, Except.pure, Opnd.ofField_toField, Guard.ofField_toField, Ty.ofCode_code, Raw.oDAB, FMode.ofCode_code]

theorem fmulX (g t m d a b x) : Statement (.fmulX g t m d a b x) := fun _ _ => by
  rw [show encRaw (.fmulX g t m d a b x) = (((((enc 1 0x53 g).tm t m.code).wD d).wA a |>.wB b).wLo (x.toWord 0#12)) from rfl, parse_53 rfl]
  simp only [enc, Raw.tm, Raw.wD, Raw.wA, Raw.wB, Raw.wLo, Raw.wUp, Raw.wLa, Raw.g, Raw.t, Raw.m0, Raw.m1, Raw.up, okBind, pure, Except.pure, Opnd.ofField_toField, Guard.ofField_toField, Ty.ofCode_code, Raw.xDAB, FMode.ofCode_code, XCtl.ofWord_toWord]

theorem fmulI (g t m d a v) : Statement (.fmulI g t m d a v) := fun _ _ => by
  rw [show encRaw (.fmulI g t m d a v) = (((((enc 1 0x61 g).tm t m.code).wD d).wA a).wLo v) from rfl, parse_61 rfl]
  simp only [enc, Raw.tm, Raw.wD, Raw.wA, Raw.wB, Raw.wLo, Raw.wUp, Raw.wLa, Raw.g, Raw.t, Raw.m0, Raw.m1, Raw.up, okBind, pure, Except.pure, Opnd.ofField_toField, Guard.ofField_toField, Ty.ofCode_code, Raw.oDA, FMode.ofCode_code]

theorem ffma (g t m d a b c x) : Statement (.ffma g t m d a b c x) := fun _ _ => by
  rw [show encRaw (.ffma g t m d a b c x) = (((((enc 1 0x50 g).tm t m.code).wD d).wA a |>.wB b).wLo (x.toWord c.toField)) from rfl, parse_50 rfl]
  simp only [enc, Raw.tm, Raw.wD, Raw.wA, Raw.wB, Raw.wLo, Raw.wUp, Raw.wLa, Raw.g, Raw.t, Raw.m0, Raw.m1, Raw.up, okBind, pure, Except.pure, Opnd.ofField_toField, Guard.ofField_toField, Ty.ofCode_code, Raw.xDABC, FMode.ofCode_code, src3Of_toWord, XCtl.ofWord_toWord]

theorem fmin (g t fl d a b) : Statement (.fmin g t fl d a b) := fun _ _ => by
  rw [show encRaw (.fmin g t fl d a b) = ((((enc 0 0x43 g).tm t (fl.code ++ 0#3)).wD d).wA a |>.wB b) from rfl, parse_43 rfl]
  simp only [enc, Raw.tm, Raw.wD, Raw.wA, Raw.wB, Raw.wLo, Raw.wUp, Raw.wLa, Raw.g, Raw.t, Raw.m0, Raw.m1, Raw.up, okBind, pure, Except.pure, Opnd.ofField_toField, Guard.ofField_toField, Ty.ofCode_code, Raw.oDAB, flushMod, Flush.ofCode_code]

theorem fminX (g t fl d a b x) : Statement (.fminX g t fl d a b x) := fun _ _ => by
  rw [show encRaw (.fminX g t fl d a b x) = (((((enc 1 0x54 g).tm t (fl.code ++ 0#3)).wD d).wA a |>.wB b).wLo (x.toWord 0#12)) from rfl, parse_54 rfl]
  simp only [enc, Raw.tm, Raw.wD, Raw.wA, Raw.wB, Raw.wLo, Raw.wUp, Raw.wLa, Raw.g, Raw.t, Raw.m0, Raw.m1, Raw.up, okBind, pure, Except.pure, Opnd.ofField_toField, Guard.ofField_toField, Ty.ofCode_code, Raw.xDAB, flushMod, Flush.ofCode_code, XCtl.ofWord_toWord]

theorem fmax (g t fl d a b) : Statement (.fmax g t fl d a b) := fun _ _ => by
  rw [show encRaw (.fmax g t fl d a b) = ((((enc 0 0x44 g).tm t (fl.code ++ 0#3)).wD d).wA a |>.wB b) from rfl, parse_44 rfl]
  simp only [enc, Raw.tm, Raw.wD, Raw.wA, Raw.wB, Raw.wLo, Raw.wUp, Raw.wLa, Raw.g, Raw.t, Raw.m0, Raw.m1, Raw.up, okBind, pure, Except.pure, Opnd.ofField_toField, Guard.ofField_toField, Ty.ofCode_code, Raw.oDAB, flushMod, Flush.ofCode_code]

theorem fmaxX (g t fl d a b x) : Statement (.fmaxX g t fl d a b x) := fun _ _ => by
  rw [show encRaw (.fmaxX g t fl d a b x) = (((((enc 1 0x55 g).tm t (fl.code ++ 0#3)).wD d).wA a |>.wB b).wLo (x.toWord 0#12)) from rfl, parse_55 rfl]
  simp only [enc, Raw.tm, Raw.wD, Raw.wA, Raw.wB, Raw.wLo, Raw.wUp, Raw.wLa, Raw.g, Raw.t, Raw.m0, Raw.m1, Raw.up, okBind, pure, Except.pure, Opnd.ofField_toField, Guard.ofField_toField, Ty.ofCode_code, Raw.xDAB, flushMod, Flush.ofCode_code, XCtl.ofWord_toWord]

theorem frcp (g la t m d a) : Statement (.frcp g la t m d a) := fun _ _ => by
  rw [show encRaw (.frcp g la t m d a) = (((((enc 0 0x45 g).tm t m.code).wD d).wA a).wLa la) from rfl, parse_45 rfl]
  simp only [enc, Raw.tm, Raw.wD, Raw.wA, Raw.wB, Raw.wLo, Raw.wUp, Raw.wLa, Raw.g, Raw.t, Raw.m0, Raw.m1, Raw.up, okBind, pure, Except.pure, Opnd.ofField_toField, Guard.ofField_toField, Ty.ofCode_code, Raw.oDA, FMode.ofCode_code]

theorem frsq (g la t m d a) : Statement (.frsq g la t m d a) := fun _ _ => by
  rw [show encRaw (.frsq g la t m d a) = (((((enc 0 0x46 g).tm t m.code).wD d).wA a).wLa la) from rfl, parse_46 rfl]
  simp only [enc, Raw.tm, Raw.wD, Raw.wA, Raw.wB, Raw.wLo, Raw.wUp, Raw.wLa, Raw.g, Raw.t, Raw.m0, Raw.m1, Raw.up, okBind, pure, Except.pure, Opnd.ofField_toField, Guard.ofField_toField, Ty.ofCode_code, Raw.oDA, FMode.ofCode_code]

theorem fsfn (g la t op fl d a) : Statement (.fsfn g la t op fl d a) := fun _ _ => by
  rw [show encRaw (.fsfn g la t op fl d a) = (((((enc 0 0x47 g).tm t (fl.code ++ op.code)).wD d).wA a).wLa la) from rfl, parse_47 rfl]
  simp only [enc, Raw.tm, Raw.wD, Raw.wA, Raw.wB, Raw.wLo, Raw.wUp, Raw.wLa, Raw.g, Raw.t, Raw.m0, Raw.m1, Raw.up, okBind, pure, Except.pure, Opnd.ofField_toField, Guard.ofField_toField, Ty.ofCode_code, Raw.oDA, SfnOp.ofCode_code, flushMod, Flush.ofCode_code]

theorem fset (g t op ftz p a b) : Statement (.fset g t op ftz p a b) := fun _ _ => by
  rw [show encRaw (.fset g t op ftz p a b) = ({ (((enc 0 0x48 g).tm t (BitVec.ofBool ftz ++ op.code)).wA a).wB b with dst := pdstField p }) from rfl, parse_48 rfl]
  simp only [enc, Raw.tm, Raw.wD, Raw.wA, Raw.wB, Raw.wLo, Raw.wUp, Raw.wLa, Raw.g, Raw.t, Raw.m0, Raw.m1, Raw.up, okBind, pure, Except.pure, Opnd.ofField_toField, Guard.ofField_toField, Ty.ofCode_code, Raw.oAB, fcmpMod, FCmp.ofCode_code, pdstOf_pdstField]

theorem fsetX (g t op ftz p a b x) : Statement (.fsetX g t op ftz p a b x) := fun _ _ => by
  rw [show encRaw (.fsetX g t op ftz p a b x) = ({ ((((enc 1 0x56 g).tm t (BitVec.ofBool ftz ++ op.code)).wA a).wB b).wLo (x.toWord 0#12) with dst := pdstField p }) from rfl, parse_56 rfl]
  simp only [enc, Raw.tm, Raw.wD, Raw.wA, Raw.wB, Raw.wLo, Raw.wUp, Raw.wLa, Raw.g, Raw.t, Raw.m0, Raw.m1, Raw.up, okBind, pure, Except.pure, Opnd.ofField_toField, Guard.ofField_toField, Ty.ofCode_code, fcmpMod, FCmp.ofCode_code, pdstOf_pdstField, XCtl.ofWord_toWord]

theorem fsetI (g t op ftz p a v) : Statement (.fsetI g t op ftz p a v) := fun _ _ => by
  rw [show encRaw (.fsetI g t op ftz p a v) = ({ (((enc 1 0x62 g).tm t (BitVec.ofBool ftz ++ op.code)).wA a).wLo v with dst := pdstField p }) from rfl, parse_62 rfl]
  simp only [enc, Raw.tm, Raw.wD, Raw.wA, Raw.wB, Raw.wLo, Raw.wUp, Raw.wLa, Raw.g, Raw.t, Raw.m0, Raw.m1, Raw.up, okBind, pure, Except.pure, Opnd.ofField_toField, Guard.ofField_toField, Ty.ofCode_code, Raw.oA, fcmpMod, FCmp.ofCode_code, pdstOf_pdstField]

theorem fcls (g t d a) : Statement (.fcls g t d a) := fun _ _ => by
  rw [show encRaw (.fcls g t d a) = ((((enc 0 0x49 g).tm t 0#5).wD d).wA a) from rfl, parse_49 rfl]
  simp only [enc, Raw.tm, Raw.wD, Raw.wA, Raw.wB, Raw.wLo, Raw.wUp, Raw.wLa, Raw.g, Raw.t, Raw.m0, Raw.m1, Raw.up, okBind, pure, Except.pure, Opnd.ofField_toField, Guard.ofField_toField, Ty.ofCode_code, Raw.oDA]

theorem frnd (g t m d a) : Statement (.frnd g t m d a) := fun _ _ => by
  rw [show encRaw (.frnd g t m d a) = ((((enc 0 0x4A g).tm t m.code).wD d).wA a) from rfl, parse_4A rfl]
  simp only [enc, Raw.tm, Raw.wD, Raw.wA, Raw.wB, Raw.wLo, Raw.wUp, Raw.wLa, Raw.g, Raw.t, Raw.m0, Raw.m1, Raw.up, okBind, pure, Except.pure, Opnd.ofField_toField, Guard.ofField_toField, Ty.ofCode_code, Raw.oDA, FMode.ofCode_code]

theorem fcvt (g dest frm m sat d a) : Statement (.fcvt g dest frm m sat d a) := fun _ _ => by
  rw [show encRaw (.fcvt g dest frm m sat d a) = ({ (((enc 0 0x70 g).tm dest frm.code).wD d).wA a with src2 := cvtControl m sat }) from rfl, parse_70 rfl]
  simp only [enc, Raw.tm, Raw.wD, Raw.wA, Raw.wB, Raw.wLo, Raw.wUp, Raw.wLa, Raw.g, Raw.t, Raw.m0, Raw.m1, Raw.up, okBind, pure, Except.pure, Opnd.ofField_toField, Guard.ofField_toField, Ty.ofCode_code, Raw.oDA, cvtModes_control, cvtControl_sat]

theorem fcvtX (g dest frm m sat d a x) : Statement (.fcvtX g dest frm m sat d a x) := fun _ _ => by
  rw [show encRaw (.fcvtX g dest frm m sat d a x) = ({ ((((enc 1 0x71 g).tm dest frm.code).wD d).wA a).wLo (x.toWord 0#12) with src2 := cvtControl m sat }) from rfl, parse_71 rfl]
  simp only [enc, Raw.tm, Raw.wD, Raw.wA, Raw.wB, Raw.wLo, Raw.wUp, Raw.wLa, Raw.g, Raw.t, Raw.m0, Raw.m1, Raw.up, okBind, pure, Except.pure, Opnd.ofField_toField, Guard.ofField_toField, Ty.ofCode_code, Raw.xDA, cvtModes_control, cvtControl_sat, XCtl.ofWord_toWord]

theorem cvti (g dest frm sat d a) : Statement (.cvti g dest frm sat d a) := fun _ _ => by
  rw [show encRaw (.cvti g dest frm sat d a) = ({ (((enc 0 0x72 g).tm dest frm.code).wD d).wA a with src2 := cvtControl FMode.zero sat }) from rfl, parse_72 rfl]
  simp only [enc, Raw.tm, Raw.wD, Raw.wA, Raw.wB, Raw.wLo, Raw.wUp, Raw.wLa, Raw.g, Raw.t, Raw.m0, Raw.m1, Raw.up, okBind, pure, Except.pure, Opnd.ofField_toField, Guard.ofField_toField, Ty.ofCode_code, Raw.oDA, cvtControl_sat]

theorem cvtiX (g dest frm sat d a x) : Statement (.cvtiX g dest frm sat d a x) := fun _ _ => by
  rw [show encRaw (.cvtiX g dest frm sat d a x) = ({ ((((enc 1 0x73 g).tm dest frm.code).wD d).wA a).wLo (x.toWord 0#12) with src2 := cvtControl FMode.zero sat }) from rfl, parse_73 rfl]
  simp only [enc, Raw.tm, Raw.wD, Raw.wA, Raw.wB, Raw.wLo, Raw.wUp, Raw.wLa, Raw.g, Raw.t, Raw.m0, Raw.m1, Raw.up, okBind, pure, Except.pure, Opnd.ofField_toField, Guard.ofField_toField, Ty.ofCode_code, Raw.xDA, cvtControl_sat, XCtl.ofWord_toWord]

theorem pack (g t md d a b) : Statement (.pack g t md d a b) := fun _ _ => by
  rw [show encRaw (.pack g t md d a b) = ((((enc 0 0x74 g).tm t md).wD d).wA a |>.wB b) from rfl, parse_74 rfl]
  simp only [enc, Raw.tm, Raw.wD, Raw.wA, Raw.wB, Raw.wLo, Raw.wUp, Raw.wLa, Raw.g, Raw.t, Raw.m0, Raw.m1, Raw.up, okBind, pure, Except.pure, Opnd.ofField_toField, Guard.ofField_toField, Ty.ofCode_code, Raw.oDAB]

theorem packX (g t md d a b x) : Statement (.packX g t md d a b x) := fun _ _ => by
  rw [show encRaw (.packX g t md d a b x) = (((((enc 1 0x75 g).tm t md).wD d).wA a |>.wB b).wLo (x.toWord 0#12)) from rfl, parse_75 rfl]
  simp only [enc, Raw.tm, Raw.wD, Raw.wA, Raw.wB, Raw.wLo, Raw.wUp, Raw.wLa, Raw.g, Raw.t, Raw.m0, Raw.m1, Raw.up, okBind, pure, Except.pure, Opnd.ofField_toField, Guard.ofField_toField, Ty.ofCode_code, Raw.xDAB, XCtl.ofWord_toWord]

theorem unpk (g t hi d a) : Statement (.unpk g t hi d a) := fun _ _ => by
  rw [show encRaw (.unpk g t hi d a) = ((((enc 0 0x76 g).tm t (modBit 1 hi)).wD d).wA a) from rfl, parse_76 rfl]
  simp only [enc, Raw.tm, Raw.wD, Raw.wA, Raw.wB, Raw.wLo, Raw.wUp, Raw.wLa, Raw.g, Raw.t, Raw.m0, Raw.m1, Raw.up, okBind, pure, Except.pure, Opnd.ofField_toField, Guard.ofField_toField, Ty.ofCode_code, Raw.oDA, modBit_one]

theorem unpkX (g t hi d a x) : Statement (.unpkX g t hi d a x) := fun _ _ => by
  rw [show encRaw (.unpkX g t hi d a x) = (((((enc 1 0x77 g).tm t (modBit 1 hi)).wD d).wA a).wLo (x.toWord 0#12)) from rfl, parse_77 rfl]
  simp only [enc, Raw.tm, Raw.wD, Raw.wA, Raw.wB, Raw.wLo, Raw.wUp, Raw.wLa, Raw.g, Raw.t, Raw.m0, Raw.m1, Raw.up, okBind, pure, Except.pure, Opnd.ofField_toField, Guard.ofField_toField, Ty.ofCode_code, Raw.xDA, XCtl.ofWord_toWord, modBit_one]

theorem ld (g la t d c o) : Statement (.ld g la t d c o) := fun _ _ => by
  rw [show encRaw (.ld g la t d c o) = (((((enc 0 0x80 g).tm t 0#5).wD d).wA c |>.wB o).wLa la) from rfl, parse_80 rfl]
  simp only [enc, Raw.tm, Raw.wD, Raw.wA, Raw.wB, Raw.wLo, Raw.wUp, Raw.wLa, Raw.g, Raw.t, Raw.m0, Raw.m1, Raw.up, okBind, pure, Except.pure, Opnd.ofField_toField, Guard.ofField_toField, Ty.ofCode_code, Raw.oDAB]

theorem ldI (g la t d c v) : Statement (.ldI g la t d c v) := fun _ _ => by
  rw [show encRaw (.ldI g la t d c v) = (((((enc 1 0x81 g).tm t 0#5).wD d).wA c |>.wLo v).wLa la) from rfl, parse_81 rfl]
  simp only [enc, Raw.tm, Raw.wD, Raw.wA, Raw.wB, Raw.wLo, Raw.wUp, Raw.wLa, Raw.g, Raw.t, Raw.m0, Raw.m1, Raw.up, okBind, pure, Except.pure, Opnd.ofField_toField, Guard.ofField_toField, Ty.ofCode_code, Raw.oDA]

theorem st (g la t c o a) : Statement (.st g la t c o a) := fun _ _ => by
  rw [show encRaw (.st g la t c o a) = (((((enc 0 0x82 g).tm t 0#5).wD a).wA c |>.wB o).wLa la) from rfl, parse_82 rfl]
  simp only [enc, Raw.tm, Raw.wD, Raw.wA, Raw.wB, Raw.wLo, Raw.wUp, Raw.wLa, Raw.g, Raw.t, Raw.m0, Raw.m1, Raw.up, okBind, pure, Except.pure, Opnd.ofField_toField, Guard.ofField_toField, Ty.ofCode_code, Raw.oDAB]

theorem stI (g la t c a v) : Statement (.stI g la t c a v) := fun _ _ => by
  rw [show encRaw (.stI g la t c a v) = (((((enc 1 0x83 g).tm t 0#5).wD a).wA c |>.wLo v).wLa la) from rfl, parse_83 rfl]
  simp only [enc, Raw.tm, Raw.wD, Raw.wA, Raw.wB, Raw.wLo, Raw.wUp, Raw.wLa, Raw.g, Raw.t, Raw.m0, Raw.m1, Raw.up, okBind, pure, Except.pure, Opnd.ofField_toField, Guard.ofField_toField, Ty.ofCode_code, Raw.oDA]

theorem lds (g la t d o) : Statement (.lds g la t d o) := fun _ _ => by
  rw [show encRaw (.lds g la t d o) = (((((enc 0 0x84 g).tm t 0#5).wD d).wB o).wLa la) from rfl, parse_84 rfl]
  simp only [enc, Raw.tm, Raw.wD, Raw.wA, Raw.wB, Raw.wLo, Raw.wUp, Raw.wLa, Raw.g, Raw.t, Raw.m0, Raw.m1, Raw.up, okBind, pure, Except.pure, Opnd.ofField_toField, Guard.ofField_toField, Ty.ofCode_code, Raw.oDB]

theorem ldsI (g la t d v) : Statement (.ldsI g la t d v) := fun _ _ => by
  rw [show encRaw (.ldsI g la t d v) = (((((enc 1 0x85 g).tm t 0#5).wD d).wLo v).wLa la) from rfl, parse_85 rfl]
  simp only [enc, Raw.tm, Raw.wD, Raw.wA, Raw.wB, Raw.wLo, Raw.wUp, Raw.wLa, Raw.g, Raw.t, Raw.m0, Raw.m1, Raw.up, okBind, pure, Except.pure, Opnd.ofField_toField, Guard.ofField_toField, Ty.ofCode_code, Raw.oD]

theorem sts (g la t o a) : Statement (.sts g la t o a) := fun _ _ => by
  rw [show encRaw (.sts g la t o a) = (((((enc 0 0x86 g).tm t 0#5).wD a).wB o).wLa la) from rfl, parse_86 rfl]
  simp only [enc, Raw.tm, Raw.wD, Raw.wA, Raw.wB, Raw.wLo, Raw.wUp, Raw.wLa, Raw.g, Raw.t, Raw.m0, Raw.m1, Raw.up, okBind, pure, Except.pure, Opnd.ofField_toField, Guard.ofField_toField, Ty.ofCode_code, Raw.oDB]

theorem stsI (g la t a v) : Statement (.stsI g la t a v) := fun _ _ => by
  rw [show encRaw (.stsI g la t a v) = (((((enc 1 0x87 g).tm t 0#5).wD a).wLo v).wLa la) from rfl, parse_87 rfl]
  simp only [enc, Raw.tm, Raw.wD, Raw.wA, Raw.wB, Raw.wLo, Raw.wUp, Raw.wLa, Raw.g, Raw.t, Raw.m0, Raw.m1, Raw.up, okBind, pure, Except.pure, Opnd.ofField_toField, Guard.ofField_toField, Ty.ofCode_code, Raw.oD]

theorem pref (g la l2 c o) : Statement (.pref g la l2 c o) := fun _ _ => by
  rw [show encRaw (.pref g la l2 c o) = (((((enc 0 0x88 g).tm .none (modBit 0 l2)).wA c).wB o).wLa la) from rfl, parse_88 rfl]
  simp only [enc, Raw.tm, Raw.wD, Raw.wA, Raw.wB, Raw.wLo, Raw.wUp, Raw.wLa, Raw.g, Raw.t, Raw.m0, Raw.m1, Raw.up, okBind, pure, Except.pure, Opnd.ofField_toField, Guard.ofField_toField, Ty.ofCode_code, Raw.oAB, modBit_zero]

theorem atom (g la t op d c o a x) : Statement (.atom g la t op d c o a x) := fun _ _ => by
  rw [show encRaw (.atom g la t op d c o a x) = ((((((enc 1 0x89 g).tm t op.code).wD d).wA c |>.wB o).wLo (x.toWord a.toField)).wLa la) from rfl, parse_89 rfl]
  simp only [enc, Raw.tm, Raw.wD, Raw.wA, Raw.wB, Raw.wLo, Raw.wUp, Raw.wLa, Raw.g, Raw.t, Raw.m0, Raw.m1, Raw.up, okBind, pure, Except.pure, Opnd.ofField_toField, Guard.ofField_toField, Ty.ofCode_code, Raw.xDABC, AtomOp.ofCode_code, src3Of_toWord, XCtl.ofWord_toWord]

theorem cas (g la t d c o b) : Statement (.cas g la t d c o b) := fun _ _ => by
  rw [show encRaw (.cas g la t d c o b) = ((((((enc 2 0x8A g).tm t 0#5).wD d).wA c |>.wB o).wLo (0#20 ++ b.toField)).wLa la) from rfl, parse_8A rfl]
  simp only [enc, Raw.tm, Raw.wD, Raw.wA, Raw.wB, Raw.wLo, Raw.wUp, Raw.wLa, Raw.g, Raw.t, Raw.m0, Raw.m1, Raw.up, okBind, pure, Except.pure, Opnd.ofField_toField, Guard.ofField_toField, Ty.ofCode_code, src3Of_app]

theorem red (g la t op c o a x) : Statement (.red g la t op c o a x) := fun _ _ => by
  rw [show encRaw (.red g la t op c o a x) = (((((enc 1 0x8B g).tm t op.code).wA c |>.wB o).wLo (x.toWord a.toField)).wLa la) from rfl, parse_8B rfl]
  simp only [enc, Raw.tm, Raw.wD, Raw.wA, Raw.wB, Raw.wLo, Raw.wUp, Raw.wLa, Raw.g, Raw.t, Raw.m0, Raw.m1, Raw.up, okBind, pure, Except.pure, Opnd.ofField_toField, Guard.ofField_toField, Ty.ofCode_code, Raw.xABC, RedOp.ofCode_code, src3Of_toWord, XCtl.ofWord_toWord]

theorem capn (g mask d c a b) : Statement (.capn g mask d c a b) := fun _ _ => by
  rw [show encRaw (.capn g mask d c a b) = (((((enc 1 0xA0 g).tm .none mask).wD d).wA c |>.wB a).wLo (0#20 ++ b.toField)) from rfl, parse_A0 rfl]
  simp only [enc, Raw.tm, Raw.wD, Raw.wA, Raw.wB, Raw.wLo, Raw.wUp, Raw.wLa, Raw.g, Raw.t, Raw.m0, Raw.m1, Raw.up, okBind, pure, Except.pure, Opnd.ofField_toField, Guard.ofField_toField, Ty.ofCode_code, src3Of_app]

theorem capq (g op d c) : Statement (.capq g op d c) := fun _ _ => by
  rw [show encRaw (.capq g op d c) = ((((enc 0 0xA1 g).tm .none op.code).wD d).wA c) from rfl, parse_A1 rfl]
  simp only [enc, Raw.tm, Raw.wD, Raw.wA, Raw.wB, Raw.wLo, Raw.wUp, Raw.wLa, Raw.g, Raw.t, Raw.m0, Raw.m1, Raw.up, okBind, pure, Except.pure, Opnd.ofField_toField, Guard.ofField_toField, Ty.ofCode_code, Raw.oDA, CapField.ofCode_code]

theorem caps (g d c a) : Statement (.caps g d c a) := fun _ _ => by
  rw [show encRaw (.caps g d c a) = (((enc 0 0xA2 g).wD d).wA c |>.wB a) from rfl, parse_A2 rfl]
  simp only [enc, Raw.tm, Raw.wD, Raw.wA, Raw.wB, Raw.wLo, Raw.wUp, Raw.wLa, Raw.g, Raw.t, Raw.m0, Raw.m1, Raw.up, okBind, pure, Except.pure, Opnd.ofField_toField, Guard.ofField_toField, Ty.ofCode_code, Raw.oDAB]

theorem give (k) : Statement (.give k) := fun _ _ => by
  rw [show encRaw (.give k) = ((enc 0 0xA4 Guard.always).wA k) from rfl, parse_A4 rfl]
  simp only [enc, Raw.tm, Raw.wD, Raw.wA, Raw.wB, Raw.wLo, Raw.wUp, Raw.wLa, Raw.g, Raw.t, Raw.m0, Raw.m1, Raw.up, okBind, pure, Except.pure, Opnd.ofField_toField, Guard.ofField_toField, Ty.ofCode_code, Raw.oA]

theorem claim (k) : Statement (.claim k) := fun _ _ => by
  rw [show encRaw (.claim k) = ((enc 0 0xA5 Guard.always).wA k) from rfl, parse_A5 rfl]
  simp only [enc, Raw.tm, Raw.wD, Raw.wA, Raw.wB, Raw.wLo, Raw.wUp, Raw.wLa, Raw.g, Raw.t, Raw.m0, Raw.m1, Raw.up, okBind, pure, Except.pure, Opnd.ofField_toField, Guard.ofField_toField, Ty.ofCode_code, Raw.oA]

theorem rgn (s0 s1 s2 s3) : Statement (.rgn s0 s1 s2 s3) := fun _ _ => by
  rw [show encRaw (.rgn s0 s1 s2 s3) = ((((enc 1 0xA6 Guard.always).wD s0).wA s1 |>.wB s2).wLo (0#20 ++ s3.toField)) from rfl, parse_A6 rfl]
  simp only [enc, Raw.tm, Raw.wD, Raw.wA, Raw.wB, Raw.wLo, Raw.wUp, Raw.wLa, Raw.g, Raw.t, Raw.m0, Raw.m1, Raw.up, okBind, pure, Except.pure, Opnd.ofField_toField, Guard.ofField_toField, Ty.ofCode_code, src3Of_app]

theorem srd (g d w) : Statement (.srd g d w) := fun _ _ => by
  rw [show encRaw (.srd g d w) = (((enc 1 0xA7 g).wD d).wLo w.toWord) from rfl, parse_A7 rfl]
  simp only [enc, Raw.tm, Raw.wD, Raw.wA, Raw.wB, Raw.wLo, Raw.wUp, Raw.wLa, Raw.g, Raw.t, Raw.m0, Raw.m1, Raw.up, okBind, pure, Except.pure, Opnd.ofField_toField, Guard.ofField_toField, Ty.ofCode_code, Raw.oD, WordRef.ofWord_toWord]

theorem swr (g a w) : Statement (.swr g a w) := fun _ _ => by
  rw [show encRaw (.swr g a w) = (((enc 1 0xA8 g).wA a).wLo w.toWord) from rfl, parse_A8 rfl]
  simp only [enc, Raw.tm, Raw.wD, Raw.wA, Raw.wB, Raw.wLo, Raw.wUp, Raw.wLa, Raw.g, Raw.t, Raw.m0, Raw.m1, Raw.up, okBind, pure, Except.pure, Opnd.ofField_toField, Guard.ofField_toField, Ty.ofCode_code, Raw.oA, WordRef.ofWord_toWord]

theorem bra (g target join) : Statement (.bra g target join) := fun _ _ => by
  rw [show encRaw (.bra g target join) = ({ enc 2 0xB0 g with lo := target, hi := join }) from rfl, parse_B0 rfl]
  simp only [enc, Raw.tm, Raw.wD, Raw.wA, Raw.wB, Raw.wLo, Raw.wUp, Raw.wLa, Raw.g, Raw.t, Raw.m0, Raw.m1, Raw.up, okBind, pure, Except.pure, Opnd.ofField_toField, Guard.ofField_toField, Ty.ofCode_code]

theorem brx (g a join) : Statement (.brx g a join) := fun _ _ => by
  rw [show encRaw (.brx g a join) = ({ (enc 2 0xB1 g).wA a with hi := join }) from rfl, parse_B1 rfl]
  simp only [enc, Raw.tm, Raw.wD, Raw.wA, Raw.wB, Raw.wLo, Raw.wUp, Raw.wLa, Raw.g, Raw.t, Raw.m0, Raw.m1, Raw.up, okBind, pure, Except.pure, Opnd.ofField_toField, Guard.ofField_toField, Ty.ofCode_code, Raw.oA]

theorem call (g d target) : Statement (.call g d target) := fun _ _ => by
  rw [show encRaw (.call g d target) = (((enc 1 0xB2 g).wD d).wLo target) from rfl, parse_B2 rfl]
  simp only [enc, Raw.tm, Raw.wD, Raw.wA, Raw.wB, Raw.wLo, Raw.wUp, Raw.wLa, Raw.g, Raw.t, Raw.m0, Raw.m1, Raw.up, okBind, pure, Except.pure, Opnd.ofField_toField, Guard.ofField_toField, Ty.ofCode_code, Raw.oD]

theorem ret (g a) : Statement (.ret g a) := fun _ _ => by
  rw [show encRaw (.ret g a) = ((enc 0 0xB3 g).wA a) from rfl, parse_B3 rfl]
  simp only [enc, Raw.tm, Raw.wD, Raw.wA, Raw.wB, Raw.wLo, Raw.wUp, Raw.wLa, Raw.g, Raw.t, Raw.m0, Raw.m1, Raw.up, okBind, pure, Except.pure, Opnd.ofField_toField, Guard.ofField_toField, Ty.ofCode_code, Raw.oA]

theorem exit (g) : Statement (.exit g) := fun _ _ => by
  rw [show encRaw (.exit g) = (enc 0 0xB4 g) from rfl, parse_B4 rfl]
  simp only [enc, Raw.tm, Raw.wD, Raw.wA, Raw.wB, Raw.wLo, Raw.wUp, Raw.wLa, Raw.g, Raw.t, Raw.m0, Raw.m1, Raw.up, okBind, pure, Except.pure, Opnd.ofField_toField, Guard.ofField_toField, Ty.ofCode_code]

theorem nop (g) : Statement (.nop g) := fun _ _ => by
  rw [show encRaw (.nop g) = (enc 0 0xB5 g) from rfl, parse_B5 rfl]
  simp only [enc, Raw.tm, Raw.wD, Raw.wA, Raw.wB, Raw.wLo, Raw.wUp, Raw.wLa, Raw.g, Raw.t, Raw.m0, Raw.m1, Raw.up, okBind, pure, Except.pure, Opnd.ofField_toField, Guard.ofField_toField, Ty.ofCode_code]

theorem nopLong (g) : Statement (.nopLong g) := fun _ _ => by
  rw [show encRaw (.nopLong g) = (enc 1 0xB6 g) from rfl, parse_B6 rfl]
  simp only [enc, Raw.tm, Raw.wD, Raw.wA, Raw.wB, Raw.wLo, Raw.wUp, Raw.wLa, Raw.g, Raw.t, Raw.m0, Raw.m1, Raw.up, okBind, pure, Except.pure, Opnd.ofField_toField, Guard.ofField_toField, Ty.ofCode_code]

theorem yield (g) : Statement (.yield g) := fun _ _ => by
  rw [show encRaw (.yield g) = (enc 0 0xB7 g) from rfl, parse_B7 rfl]
  simp only [enc, Raw.tm, Raw.wD, Raw.wA, Raw.wB, Raw.wLo, Raw.wUp, Raw.wLa, Raw.g, Raw.t, Raw.m0, Raw.m1, Raw.up, okBind, pure, Except.pure, Opnd.ofField_toField, Guard.ofField_toField, Ty.ofCode_code]

theorem plop (g tt p q q2) : Statement (.plop g tt p q q2) := fun _ _ => by
  rw [show encRaw (.plop g tt p q q2) = ({ (enc 0 0xB8 g).tm .none (0#1 ++ tt) with dst := pdstField p, src1 := q.toField, src2 := q2.toField }) from rfl, parse_B8 rfl]
  simp only [enc, Raw.tm, Raw.wD, Raw.wA, Raw.wB, Raw.wLo, Raw.wUp, Raw.wLa, Raw.g, Raw.t, Raw.m0, Raw.m1, Raw.up, okBind, pure, Except.pure, Opnd.ofField_toField, Guard.ofField_toField, Ty.ofCode_code, pdstOf_pdstField, PSrc.ofField_toField, plopMod]

theorem fence (g kind sc) : Statement (.fence g kind sc) := fun _ _ => by
  rw [show encRaw (.fence g kind sc) = ((enc 0 0xC0 g).tm .none (kind.code ++ sc.code)) from rfl, parse_C0 rfl]
  simp only [enc, Raw.tm, Raw.wD, Raw.wA, Raw.wB, Raw.wLo, Raw.wUp, Raw.wLa, Raw.g, Raw.t, Raw.m0, Raw.m1, Raw.up, okBind, pure, Except.pure, Opnd.ofField_toField, Guard.ofField_toField, Ty.ofCode_code, Scope.ofCode_code, fenceMod, FenceKind.ofCode_code]

theorem acq (g sc a) : Statement (.acq g sc a) := fun _ _ => by
  rw [show encRaw (.acq g sc a) = (((enc 0 0xC1 g).tm .none (0#2 ++ sc.code)).wA a) from rfl, parse_C1 rfl]
  simp only [enc, Raw.tm, Raw.wD, Raw.wA, Raw.wB, Raw.wLo, Raw.wUp, Raw.wLa, Raw.g, Raw.t, Raw.m0, Raw.m1, Raw.up, okBind, pure, Except.pure, Opnd.ofField_toField, Guard.ofField_toField, Ty.ofCode_code, Raw.oA, Scope.ofCode_code, scopeMod]

theorem rel (g sc a) : Statement (.rel g sc a) := fun _ _ => by
  rw [show encRaw (.rel g sc a) = (((enc 0 0xC2 g).tm .none (0#2 ++ sc.code)).wA a) from rfl, parse_C2 rfl]
  simp only [enc, Raw.tm, Raw.wD, Raw.wA, Raw.wB, Raw.wLo, Raw.wUp, Raw.wLa, Raw.g, Raw.t, Raw.m0, Raw.m1, Raw.up, okBind, pure, Except.pure, Opnd.ofField_toField, Guard.ofField_toField, Ty.ofCode_code, Raw.oA, Scope.ofCode_code, scopeMod]

theorem bind (g c a) : Statement (.bind g c a) := fun _ _ => by
  rw [show encRaw (.bind g c a) = (((enc 0 0xC3 g).wA c).wB a) from rfl, parse_C3 rfl]
  simp only [enc, Raw.tm, Raw.wD, Raw.wA, Raw.wB, Raw.wLo, Raw.wUp, Raw.wLa, Raw.g, Raw.t, Raw.m0, Raw.m1, Raw.up, okBind, pure, Except.pure, Opnd.ofField_toField, Guard.ofField_toField, Ty.ofCode_code, Raw.oAB]

theorem unbind (g c) : Statement (.unbind g c) := fun _ _ => by
  rw [show encRaw (.unbind g c) = ((enc 0 0xC4 g).wA c) from rfl, parse_C4 rfl]
  simp only [enc, Raw.tm, Raw.wD, Raw.wA, Raw.wB, Raw.wLo, Raw.wUp, Raw.wLa, Raw.g, Raw.t, Raw.m0, Raw.m1, Raw.up, okBind, pure, Except.pure, Opnd.ofField_toField, Guard.ofField_toField, Ty.ofCode_code, Raw.oA]

theorem waitc (g t op c o a x) : Statement (.waitc g t op c o a x) := fun _ _ => by
  rw [show encRaw (.waitc g t op c o a x) = ((((enc 1 0xC5 g).tm t op.code).wA c |>.wB o).wLo (x.toWord a.toField)) from rfl, parse_C5 rfl]
  simp only [enc, Raw.tm, Raw.wD, Raw.wA, Raw.wB, Raw.wLo, Raw.wUp, Raw.wLa, Raw.g, Raw.t, Raw.m0, Raw.m1, Raw.up, okBind, pure, Except.pure, Opnd.ofField_toField, Guard.ofField_toField, Ty.ofCode_code, Raw.xABC, Cmp.ofCode_code, src3Of_toWord, XCtl.ofWord_toWord]

theorem rvinit (g n a) : Statement (.rvinit g n a) := fun _ _ => by
  rw [show encRaw (.rvinit g n a) = (((enc 0 0xC6 g).wA n).wB a) from rfl, parse_C6 rfl]
  simp only [enc, Raw.tm, Raw.wD, Raw.wA, Raw.wB, Raw.wLo, Raw.wUp, Raw.wLa, Raw.g, Raw.t, Raw.m0, Raw.m1, Raw.up, okBind, pure, Except.pure, Opnd.ofField_toField, Guard.ofField_toField, Ty.ofCode_code, Raw.oAB]

theorem rvarr (g n) : Statement (.rvarr g n) := fun _ _ => by
  rw [show encRaw (.rvarr g n) = ((enc 0 0xC7 g).wA n) from rfl, parse_C7 rfl]
  simp only [enc, Raw.tm, Raw.wD, Raw.wA, Raw.wB, Raw.wLo, Raw.wUp, Raw.wLa, Raw.g, Raw.t, Raw.m0, Raw.m1, Raw.up, okBind, pure, Except.pure, Opnd.ofField_toField, Guard.ofField_toField, Ty.ofCode_code, Raw.oA]

theorem rvexp (g n a) : Statement (.rvexp g n a) := fun _ _ => by
  rw [show encRaw (.rvexp g n a) = (((enc 0 0xC9 g).wA n).wB a) from rfl, parse_C9 rfl]
  simp only [enc, Raw.tm, Raw.wD, Raw.wA, Raw.wB, Raw.wLo, Raw.wUp, Raw.wLa, Raw.g, Raw.t, Raw.m0, Raw.m1, Raw.up, okBind, pure, Except.pure, Opnd.ofField_toField, Guard.ofField_toField, Ty.ofCode_code, Raw.oAB]

theorem rvwaitPlain (g n) : Statement (.rvwaitPlain g n) := fun _ _ => by
  rw [show encRaw (.rvwaitPlain g n) = ((enc 1 0xC8 g).wA n) from rfl, parse_C8 rfl]
  simp only [enc, Raw.tm, Raw.wD, Raw.wA, Raw.wB, Raw.wLo, Raw.wUp, Raw.wLa, Raw.g, Raw.t, Raw.m0, Raw.m1, Raw.up, okBind, pure, Except.pure, Opnd.ofField_toField, Guard.ofField_toField, Ty.ofCode_code, Raw.oA, pdstOf_pdstField, XCtl.ofWord_zero]
  rw [if_neg (by decide)]

theorem rvwaitTimed (g n a p x) : Statement (.rvwaitTimed g n a p x) := fun _ _ => by
  rw [show encRaw (.rvwaitTimed g n a p x) = ({ ((((enc 1 0xC8 g).tm .none 1#5).wA n).wB a).wLo (x.toWord 0#12) with dst := pdstField p }) from rfl, parse_C8 rfl]
  simp only [enc, Raw.tm, Raw.wD, Raw.wA, Raw.wB, Raw.wLo, Raw.wUp, Raw.wLa, Raw.g, Raw.t, Raw.m0, Raw.m1, Raw.up, okBind, pure, Except.pure, Opnd.ofField_toField, Guard.ofField_toField, Ty.ofCode_code, Raw.oA, pdstOf_pdstField, XCtl.ofWord_toWord]
  rw [if_pos (by decide)]

theorem rvinv (g n) : Statement (.rvinv g n) := fun _ _ => by
  rw [show encRaw (.rvinv g n) = ((enc 0 0xCA g).wA n) from rfl, parse_CA rfl]
  simp only [enc, Raw.tm, Raw.wD, Raw.wA, Raw.wB, Raw.wLo, Raw.wUp, Raw.wLa, Raw.g, Raw.t, Raw.m0, Raw.m1, Raw.up, okBind, pure, Except.pure, Opnd.ofField_toField, Guard.ofField_toField, Ty.ofCode_code, Raw.oA]

theorem rinit (g o s z) : Statement (.rinit g o s z) := fun _ _ => by
  rw [show encRaw (.rinit g o s z) = ((((enc 1 0xCB g).wA o).wB s).wLo (0#20 ++ z.toField)) from rfl, parse_CB rfl]
  simp only [enc, Raw.tm, Raw.wD, Raw.wA, Raw.wB, Raw.wLo, Raw.wUp, Raw.wLa, Raw.g, Raw.t, Raw.m0, Raw.m1, Raw.up, okBind, pure, Except.pure, Opnd.ofField_toField, Guard.ofField_toField, Ty.ofCode_code, Raw.xABC, src3Of_app, XCtl.ofWord_zero]

theorem rwait (g d o) : Statement (.rwait g d o) := fun _ _ => by
  rw [show encRaw (.rwait g d o) = (((enc 0 0xCC g).wD d).wA o) from rfl, parse_CC rfl]
  simp only [enc, Raw.tm, Raw.wD, Raw.wA, Raw.wB, Raw.wLo, Raw.wUp, Raw.wLa, Raw.g, Raw.t, Raw.m0, Raw.m1, Raw.up, okBind, pure, Except.pure, Opnd.ofField_toField, Guard.ofField_toField, Ty.ofCode_code, Raw.oDA]

theorem rrel (g o) : Statement (.rrel g o) := fun _ _ => by
  rw [show encRaw (.rrel g o) = ((enc 0 0xCD g).wA o) from rfl, parse_CD rfl]
  simp only [enc, Raw.tm, Raw.wD, Raw.wA, Raw.wB, Raw.wLo, Raw.wUp, Raw.wLa, Raw.g, Raw.t, Raw.m0, Raw.m1, Raw.up, okBind, pure, Except.pure, Opnd.ofField_toField, Guard.ofField_toField, Ty.ofCode_code, Raw.oA]

theorem cpwait (g k) : Statement (.cpwait g k) := fun _ _ => by
  rw [show encRaw (.cpwait g k) = ((enc 0 0xCE g).wA k) from rfl, parse_CE rfl]
  simp only [enc, Raw.tm, Raw.wD, Raw.wA, Raw.wB, Raw.wLo, Raw.wUp, Raw.wLa, Raw.g, Raw.t, Raw.m0, Raw.m1, Raw.up, okBind, pure, Except.pure, Opnd.ofField_toField, Guard.ofField_toField, Ty.ofCode_code, Raw.oA]

theorem copy (g la dir dest frm o lenm pt nwm soff) : Statement (.copy g la dir dest frm o lenm pt nwm soff) := fun _ _ => by
  rw [show encRaw (.copy g la dir dest frm o lenm pt nwm soff) = (((((enc 2 0xD0 g).wD dest).wA frm |>.wB o).wUp (copyUp lenm pt nwm dir soff)).wLa la) from rfl, parse_D0 rfl]
  simp only [enc, Raw.tm, Raw.wD, Raw.wA, Raw.wB, Raw.wLo, Raw.wUp, Raw.wLa, Raw.g, Raw.t, Raw.m0, Raw.m1, Raw.up, okBind, pure, Except.pure, Opnd.ofField_toField, Guard.ofField_toField, Ty.ofCode_code, Raw.oDAB, CopyDir.ofCode_code, up_halves, copyUp_parts]

theorem copym (g la sk dest frm o lenm pt mask) : Statement (.copym g la sk dest frm o lenm pt mask) := fun _ hw => by
  rw [show encRaw (.copym g la sk dest frm o lenm pt mask) = ({ (((enc 2 0xD1 g).wD dest).wA frm |>.wUp (copymUp lenm pt mask sk)).wLa la with src2 := optField o }) from rfl, parse_D1 rfl]
  have h : (dest.isHandle && (if sk then frm.isHandle else frm.isCap) && (o.isSome == !sk)) = true := hw
  simp only [Bool.and_eq_true, beq_iff_eq] at h
  simp only [enc, Raw.tm, Raw.wD, Raw.wA, Raw.wB, Raw.wLo, Raw.wUp, Raw.wLa, Raw.g, Raw.t, Raw.m0, Raw.m1, Raw.up, okBind, pure, Except.pure, Opnd.ofField_toField, Guard.ofField_toField, Ty.ofCode_code, up_halves, copymUp_parts, optOf_isSome h.2]

theorem task (g c o) : Statement (.task g c o) := fun _ _ => by
  rw [show encRaw (.task g c o) = (((enc 2 0xD2 g).wA c).wB o) from rfl, parse_D2 rfl]
  simp only [enc, Raw.tm, Raw.wD, Raw.wA, Raw.wB, Raw.wLo, Raw.wUp, Raw.wLa, Raw.g, Raw.t, Raw.m0, Raw.m1, Raw.up, okBind, pure, Except.pure, Opnd.ofField_toField, Guard.ofField_toField, Ty.ofCode_code, Raw.oAB]

theorem krel (g a) : Statement (.krel g a) := fun _ _ => by
  rw [show encRaw (.krel g a) = ((enc 0 0xD3 g).wA a) from rfl, parse_D3 rfl]
  simp only [enc, Raw.tm, Raw.wD, Raw.wA, Raw.wB, Raw.wLo, Raw.wUp, Raw.wLa, Raw.g, Raw.t, Raw.m0, Raw.m1, Raw.up, okBind, pure, Except.pure, Opnd.ofField_toField, Guard.ofField_toField, Ty.ofCode_code, Raw.oA]

theorem qpush (g q c) : Statement (.qpush g q c) := fun _ _ => by
  rw [show encRaw (.qpush g q c) = (((enc 0 0xD4 g).wA q).wB c) from rfl, parse_D4 rfl]
  simp only [enc, Raw.tm, Raw.wD, Raw.wA, Raw.wB, Raw.wLo, Raw.wUp, Raw.wLa, Raw.g, Raw.t, Raw.m0, Raw.m1, Raw.up, okBind, pure, Except.pure, Opnd.ofField_toField, Guard.ofField_toField, Ty.ofCode_code, Raw.oAB]

theorem qpop (g c q) : Statement (.qpop g c q) := fun _ _ => by
  rw [show encRaw (.qpop g c q) = (((enc 0 0xD5 g).wD c).wA q) from rfl, parse_D5 rfl]
  simp only [enc, Raw.tm, Raw.wD, Raw.wA, Raw.wB, Raw.wLo, Raw.wUp, Raw.wLa, Raw.g, Raw.t, Raw.m0, Raw.m1, Raw.up, okBind, pure, Except.pure, Opnd.ofField_toField, Guard.ofField_toField, Ty.ofCode_code, Raw.oDA]

theorem lnch (g d c a rec) : Statement (.lnch g d c a rec) := fun _ _ => by
  rw [show encRaw (.lnch g d c a rec) = ((((enc 2 0xD6 g).wD d).wA c |>.wB a).wLo (0#20 ++ rec.toField)) from rfl, parse_D6 rfl]
  simp only [enc, Raw.tm, Raw.wD, Raw.wA, Raw.wB, Raw.wLo, Raw.wUp, Raw.wLa, Raw.g, Raw.t, Raw.m0, Raw.m1, Raw.up, okBind, pure, Except.pure, Opnd.ofField_toField, Guard.ofField_toField, Ty.ofCode_code, src3Of_app]

theorem cncl (g a) : Statement (.cncl g a) := fun _ _ => by
  rw [show encRaw (.cncl g a) = ((enc 0 0xD7 g).wA a) from rfl, parse_D7 rfl]
  simp only [enc, Raw.tm, Raw.wD, Raw.wA, Raw.wB, Raw.wLo, Raw.wUp, Raw.wLa, Raw.g, Raw.t, Raw.m0, Raw.m1, Raw.up, okBind, pure, Except.pure, Opnd.ofField_toField, Guard.ofField_toField, Ty.ofCode_code, Raw.oA]

theorem cwait (g d a) : Statement (.cwait g d a) := fun _ _ => by
  rw [show encRaw (.cwait g d a) = (((enc 0 0xD8 g).wD d).wA a) from rfl, parse_D8 rfl]
  simp only [enc, Raw.tm, Raw.wD, Raw.wA, Raw.wB, Raw.wLo, Raw.wUp, Raw.wLa, Raw.g, Raw.t, Raw.m0, Raw.m1, Raw.up, okBind, pure, Except.pure, Opnd.ofField_toField, Guard.ofField_toField, Ty.ofCode_code, Raw.oDA]

theorem mma (g la t a ks u) : Statement (.mma g la t a ks u) := fun _ hw => by
  rw [show encRaw (.mma g la t a ks u) = ({ (((enc 2 0xE0 g).tm t 0#5).wA a |>.wUp u.toWord).wLa la with src2 := optUniField ks }) from rfl, parse_E0 rfl]
  have h : (t.isMatrix && a.notImm && sclOk t u.scl && (ks.isSome == u.scl)
    && (if u.asrc then u.npm == 0#6 else u.astr == 0#9)) = true := hw
  simp only [Bool.and_eq_true, beq_iff_eq] at h
  simp only [enc, Raw.tm, Raw.wD, Raw.wA, Raw.wB, Raw.wLo, Raw.wUp, Raw.wLa, Raw.g, Raw.t, Raw.m0, Raw.m1, Raw.up, okBind, pure, Except.pure, Opnd.ofField_toField, Guard.ofField_toField, Ty.ofCode_code, up_halves, MmaUp.ofWord_toWord, ksOf_isSome h.1.2]

theorem mspa (g la t pat m a ks u) : Statement (.mspa g la t pat m a ks u) := fun _ hw => by
  rw [show encRaw (.mspa g la t pat m a ks u) = ({ ((((enc 2 0xE1 g).tm t pat.code).wD m).wA a |>.wUp u.toWord).wLa la with src2 := optUniField ks }) from rfl, parse_E1 rfl]
  have h : (t.isMatrix && t != .f32 && t != .f64 && m.isReg && a.notImm && sclOk t u.scl && (ks.isSome == u.scl)
    && (if u.asrc then u.npm == 0#6 else u.astr == 0#9)) = true := hw
  simp only [Bool.and_eq_true, beq_iff_eq] at h
  simp only [enc, Raw.tm, Raw.wD, Raw.wA, Raw.wB, Raw.wLo, Raw.wUp, Raw.wLa, Raw.g, Raw.t, Raw.m0, Raw.m1, Raw.up, okBind, pure, Except.pure, Opnd.ofField_toField, Guard.ofField_toField, Ty.ofCode_code, SparsePat.ofCode_code, up_halves, MmaUp.ofWord_toWord, ksOf_isSome h.1.2]

theorem mloop (g la t n a ks u) : Statement (.mloop g la t n a ks u) := fun _ hw => by
  rw [show encRaw (.mloop g la t n a ks u) = ({ ((((enc 2 0xE2 g).tm t 0#5).wD n).wA a |>.wUp u.toWord).wLa la with src2 := optUniField ks }) from rfl, parse_E2 rfl]
  have h : (t.isMatrix && n.isUni && a.isUni && sclOk t u.scl && (ks.isSome == u.scl)) = true := hw
  simp only [Bool.and_eq_true, beq_iff_eq] at h
  simp only [enc, Raw.tm, Raw.wD, Raw.wA, Raw.wB, Raw.wLo, Raw.wUp, Raw.wLa, Raw.g, Raw.t, Raw.m0, Raw.m1, Raw.up, okBind, pure, Except.pure, Opnd.ofField_toField, Guard.ofField_toField, Ty.ofCode_code, up_halves, MloopUp.ofWord_toWord, ksOf_isSome h.2]

theorem mldb (g la t sk frm o boff lenu pt) : Statement (.mldb g la t sk frm o boff lenu pt) := fun _ hw => by
  rw [show encRaw (.mldb g la t sk frm o boff lenu pt) = ({ (((enc 2 0xE3 g).tm t 0#5).wA frm |>.wUp (mldbUp boff lenu pt sk)).wLa la with src2 := optField o }) from rfl, parse_E3 rfl]
  have h : (t.isMatrix && (if sk then frm.isUni else frm.isCap) && (o.isSome == !sk)) = true := hw
  simp only [Bool.and_eq_true, beq_iff_eq] at h
  simp only [enc, Raw.tm, Raw.wD, Raw.wA, Raw.wB, Raw.wLo, Raw.wUp, Raw.wLa, Raw.g, Raw.t, Raw.m0, Raw.m1, Raw.up, okBind, pure, Except.pure, Opnd.ofField_toField, Guard.ofField_toField, Ty.ofCode_code, up_halves, mldbUp_parts, optOf_isSome h.2]

theorem mlds (g la sk rec frm o base pt) : Statement (.mlds g la sk rec frm o base pt) := fun _ hw => by
  rw [show encRaw (.mlds g la sk rec frm o base pt) = ({ (((enc 2 0xE4 g).wD rec).wA frm |>.wUp (mldsUp base pt sk)).wLa la with src2 := optField o }) from rfl, parse_E4 rfl]
  have h : (rec.isCap && (if sk then frm.isUni else frm.isCap) && (o.isSome == !sk)) = true := hw
  simp only [Bool.and_eq_true, beq_iff_eq] at h
  simp only [enc, Raw.tm, Raw.wD, Raw.wA, Raw.wB, Raw.wLo, Raw.wUp, Raw.wLa, Raw.g, Raw.t, Raw.m0, Raw.m1, Raw.up, okBind, pure, Except.pure, Opnd.ofField_toField, Guard.ofField_toField, Ty.ofCode_code, up_halves, mldsUp_parts, optOf_isSome h.2]

theorem mdrn (g la op vd d dest o u) : Statement (.mdrn g la op vd d dest o u) := fun _ hw => by
  rw [show encRaw (.mdrn g la op vd d dest o u) = ({ (((enc 2 0xE5 g).tm .none (modBit 2 vd ||| (0#3 ++ op.code))).wUp u.toWord).wLa la with dst := optField d, src1 := optField dest, src2 := optField o }) from rfl, parse_E5 rfl]
  simp only [enc, Raw.tm, Raw.wD, Raw.wA, Raw.wB, Raw.wLo, Raw.wUp, Raw.wLa, Raw.g, Raw.t, Raw.m0, Raw.m1, Raw.up, okBind, pure, Except.pure, Opnd.ofField_toField, Guard.ofField_toField, Ty.ofCode_code, drainMod, DrainOp.ofCode_code, up_halves, MdrnUp.ofWord_toWord]
  cases op with
  | reg =>
    cases d with
    | none => exact nomatch (show false = true from hw)
    | some r =>
      have h : (r.isReg && dest.isNone && o.isNone) = true := hw
      simp only [Bool.and_eq_true, Option.isNone_iff_eq_none] at h
      obtain ⟨⟨-, rfl⟩, rfl⟩ := h
      exact (congrArg (· >>= _) (optOf_some r)).trans rfl
  | st =>
    cases dest with
    | none =>
      have h : (d.isNone && u.npm == 0#6 && (o.isSome == !u.tgt) && false) = true := hw
      rw [Bool.and_false] at h
      exact nomatch h
    | some r =>
      have h : (d.isNone && u.npm == 0#6 && (o.isSome == !u.tgt) && (if u.tgt then r.isUni else r.isCap)) = true := hw
      simp only [Bool.and_eq_true, Option.isNone_iff_eq_none, beq_iff_eq] at h
      obtain ⟨⟨⟨rfl, -⟩, h1⟩, -⟩ := h
      simp only [show (DrainOp.st != DrainOp.reg) = true from rfl,
        Bool.not_true, Bool.true_and, optOf_none, show optField (some r) = r.toField from rfl, optOf_some, optOf_isSome h1, okBind]
  | add =>
    cases dest with
    | none =>
      have h : (d.isNone && u.npm == 0#6 && (o.isSome == !u.tgt) && false) = true := hw
      rw [Bool.and_false] at h
      exact nomatch h
    | some r =>
      have h : (d.isNone && u.npm == 0#6 && (o.isSome == !u.tgt) && (if u.tgt then r.isUni else r.isCap)) = true := hw
      simp only [Bool.and_eq_true, Option.isNone_iff_eq_none, beq_iff_eq] at h
      obtain ⟨⟨⟨rfl, -⟩, h1⟩, -⟩ := h
      simp only [show (DrainOp.add != DrainOp.reg) = true from rfl,
        Bool.not_true, Bool.true_and, optOf_none, show optField (some r) = r.toField from rfl, optOf_some, optOf_isSome h1, okBind]

theorem mzro (g la t tile v) : Statement (.mzro g la t tile v) := fun _ _ => by
  rw [show encRaw (.mzro g la t tile v) = ((((enc 0 0xE6 g).tm t 0#5).wA tile |>.wB v).wLa la) from rfl, parse_E6 rfl]
  simp only [enc, Raw.tm, Raw.wD, Raw.wA, Raw.wB, Raw.wLo, Raw.wUp, Raw.wLa, Raw.g, Raw.t, Raw.m0, Raw.m1, Raw.up, okBind, pure, Except.pure, Opnd.ofField_toField, Guard.ofField_toField, Ty.ofCode_code, Raw.oAB]

theorem tokp (g a) : Statement (.tokp g a) := fun _ _ => by
  rw [show encRaw (.tokp g a) = ((enc 0 0xE7 g).wA a) from rfl, parse_E7 rfl]
  simp only [enc, Raw.tm, Raw.wD, Raw.wA, Raw.wB, Raw.wLo, Raw.wUp, Raw.wLa, Raw.g, Raw.t, Raw.m0, Raw.m1, Raw.up, okBind, pure, Except.pure, Opnd.ofField_toField, Guard.ofField_toField, Ty.ofCode_code, Raw.oA]

theorem tokw (g) : Statement (.tokw g) := fun _ _ => by
  rw [show encRaw (.tokw g) = (enc 0 0xE8 g) from rfl, parse_E8 rfl]
  simp only [enc, Raw.tm, Raw.wD, Raw.wA, Raw.wB, Raw.wLo, Raw.wUp, Raw.wLa, Raw.g, Raw.t, Raw.m0, Raw.m1, Raw.up, okBind, pure, Except.pure, Opnd.ofField_toField, Guard.ofField_toField, Ty.ofCode_code]

theorem vdset (g la op thr kb u) : Statement (.vdset g la op thr kb u) := fun _ hw => by
  rw [show encRaw (.vdset g la op thr kb u) = ({ (((enc 2 0xE9 g).tm .none op.code).wB kb |>.wUp u.toWord).wLa la with src1 := optField thr }) from rfl, parse_E9 rfl]
  have h2 : thr.isSome = (op != .sign) := by
    cases thr with
    | none =>
      have h : (kb.isUni && (true == (op == .sign)) && true && (op == .topk || (u.km == 0#7 && u.ks == 0#15))) = true := hw
      simp only [Bool.and_eq_true, beq_iff_eq] at h
      simp [bne, ← h.1.1.2]
    | some p =>
      have h : (kb.isUni && (false == (op == .sign)) && p.isHandle && (op == .topk || (u.km == 0#7 && u.ks == 0#15))) = true := hw
      simp only [Bool.and_eq_true, beq_iff_eq] at h
      simp [bne, ← h.1.1.2]
  simp only [enc, Raw.tm, Raw.wD, Raw.wA, Raw.wB, Raw.wLo, Raw.wUp, Raw.wLa, Raw.g, Raw.t, Raw.m0, Raw.m1, Raw.up, okBind, pure, Except.pure, Opnd.ofField_toField, Guard.ofField_toField, Ty.ofCode_code, VerdictOp.ofCode_code, up_halves, VdsetUp.ofWord_toWord, optOf_isSome h2]

theorem vdot (g la t m d a b c x) : Statement (.vdot g la t m d a b c x) := fun _ _ => by
  rw [show encRaw (.vdot g la t m d a b c x) = ((((((enc 1 0xEA g).tm t m.code).wD d).wA a |>.wB b).wLo (x.toWord c.toField)).wLa la) from rfl, parse_EA rfl]
  simp only [enc, Raw.tm, Raw.wD, Raw.wA, Raw.wB, Raw.wLo, Raw.wUp, Raw.wLa, Raw.g, Raw.t, Raw.m0, Raw.m1, Raw.up, okBind, pure, Except.pure, Opnd.ofField_toField, Guard.ofField_toField, Ty.ofCode_code, Raw.xDABC, FMode.ofCode_code, src3Of_toWord, XCtl.ofWord_toWord]

theorem vthr (g la tile a) : Statement (.vthr g la tile a) := fun _ _ => by
  rw [show encRaw (.vthr g la tile a) = ((((enc 0 0xEB g).tm .f32 0#5).wA tile |>.wB a).wLa la) from rfl, parse_EB rfl]
  simp only [enc, Raw.tm, Raw.wD, Raw.wA, Raw.wB, Raw.wLo, Raw.wUp, Raw.wLa, Raw.g, Raw.t, Raw.m0, Raw.m1, Raw.up, okBind, pure, Except.pure, Opnd.ofField_toField, Guard.ofField_toField, Ty.ofCode_code, Raw.oAB]

theorem topk (g la op d tile e) : Statement (.topk g la op d tile e) := fun _ hw => by
  rw [show encRaw (.topk g la op d tile e) = ({ (((enc 1 0xEC g).tm .none op.code).wD d |>.wA tile).wLa la with src2 := optField e }) from rfl, parse_EC rfl]
  have no : ∀ a b : Bool, (a && (b && false)) ≠ true := by decide
  have h2 : e.isSome = (op == .val || op == .idx) := by
    cases op <;> cases e <;> first | rfl | exact absurd hw (no tile.isUniImm d.notImm) | exact absurd hw (no tile.isUniImm d.isPred)
  simp only [enc, Raw.tm, Raw.wD, Raw.wA, Raw.wB, Raw.wLo, Raw.wUp, Raw.wLa, Raw.g, Raw.t, Raw.m0, Raw.m1, Raw.up, okBind, pure, Except.pure, Opnd.ofField_toField, Guard.ofField_toField, Ty.ofCode_code, TopkOp.ofCode_code, optOf_isSome h2]

theorem trap (g k) : Statement (.trap g k) := fun _ _ => by
  rw [show encRaw (.trap g k) = ((enc 0 0xF0 g).wA k) from rfl, parse_F0 rfl]
  simp only [enc, Raw.tm, Raw.wD, Raw.wA, Raw.wB, Raw.wLo, Raw.wUp, Raw.wLa, Raw.g, Raw.t, Raw.m0, Raw.m1, Raw.up, okBind, pure, Except.pure, Opnd.ofField_toField, Guard.ofField_toField, Ty.ofCode_code, Raw.oA]

theorem bkpt (g) : Statement (.bkpt g) := fun _ _ => by
  rw [show encRaw (.bkpt g) = (enc 0 0xF1 g) from rfl, parse_F1 rfl]
  simp only [enc, Raw.tm, Raw.wD, Raw.wA, Raw.wB, Raw.wLo, Raw.wUp, Raw.wLa, Raw.g, Raw.t, Raw.m0, Raw.m1, Raw.up, okBind, pure, Except.pure, Opnd.ofField_toField, Guard.ofField_toField, Ty.ofCode_code]

theorem sysc (g k) : Statement (.sysc g k) := fun _ _ => by
  rw [show encRaw (.sysc g k) = ((enc 0 0xF2 g).wA k) from rfl, parse_F2 rfl]
  simp only [enc, Raw.tm, Raw.wD, Raw.wA, Raw.wB, Raw.wLo, Raw.wUp, Raw.wLa, Raw.g, Raw.t, Raw.m0, Raw.m1, Raw.up, okBind, pure, Except.pure, Opnd.ofField_toField, Guard.ofField_toField, Ty.ofCode_code, Raw.oA]

theorem eret : Statement (.eret) := fun _ _ => by
  rw [show encRaw (.eret) = (enc 0 0xF3 Guard.always) from rfl, parse_F3 rfl]

theorem iflush (g c a) : Statement (.iflush g c a) := fun _ _ => by
  rw [show encRaw (.iflush g c a) = (((enc 0 0xF4 g).wA c).wB a) from rfl, parse_F4 rfl]
  simp only [enc, Raw.tm, Raw.wD, Raw.wA, Raw.wB, Raw.wLo, Raw.wUp, Raw.wLa, Raw.g, Raw.t, Raw.m0, Raw.m1, Raw.up, okBind, pure, Except.pure, Opnd.ofField_toField, Guard.ofField_toField, Ty.ofCode_code, Raw.oAB]

theorem unassignedOpcode (w) : Statement (.unassignedOpcode w) := fun h _ => nomatch (show false = true from h)

theorem escalationRecordPost (die) : Statement (.escalationRecordPost die) := fun h _ => nomatch (show false = true from h)

theorem erespResume (die num) : Statement (.erespResume die num) := fun h _ => nomatch (show false = true from h)

theorem erespCancel (die num) : Statement (.erespCancel die num) := fun h _ => nomatch (show false = true from h)

theorem faultRecordPost (die) : Statement (.faultRecordPost die) := fun h _ => nomatch (show false = true from h)

theorem frespServiced (die num) : Statement (.frespServiced die num) := fun h _ => nomatch (show false = true from h)

theorem frespUnrecoverable (die num) : Statement (.frespUnrecoverable die num) := fun h _ => nomatch (show false = true from h)

theorem asyncTrapTake (team warp) : Statement (.asyncTrapTake team warp) := fun h _ => nomatch (show false = true from h)

theorem eccUncorrectable (team warp va) : Statement (.eccUncorrectable team warp va) := fun h _ => nomatch (show false = true from h)

theorem eccCorrected (die) : Statement (.eccCorrected die) := fun h _ => nomatch (show false = true from h)

theorem linkFlitCheckFail (link team warp) : Statement (.linkFlitCheckFail link team warp) := fun h _ => nomatch (show false = true from h)

theorem teamAdmit (die) : Statement (.teamAdmit die) := fun h _ => nomatch (show false = true from h)

theorem teamRetire (team) : Statement (.teamRetire team) := fun h _ => nomatch (show false = true from h)

theorem teamSwap (team) : Statement (.teamSwap team) := fun h _ => nomatch (show false = true from h)

theorem teamSave (team) : Statement (.teamSave team) := fun h _ => nomatch (show false = true from h)

theorem teamResume (die team) : Statement (.teamResume die team) := fun h _ => nomatch (show false = true from h)

theorem keyHolderDeferExpiry (team) : Statement (.keyHolderDeferExpiry team) := fun h _ => nomatch (show false = true from h)

theorem splitFill (die core lane) : Statement (.splitFill die core lane) := fun h _ => nomatch (show false = true from h)

theorem heldSplitRelease (r) : Statement (.heldSplitRelease r) := fun h _ => nomatch (show false = true from h)

theorem passPromotion (r) : Statement (.passPromotion r) := fun h _ => nomatch (show false = true from h)

theorem claimdlReport (die core) : Statement (.claimdlReport die core) := fun h _ => nomatch (show false = true from h)

theorem rvwaitExpiry (r) : Statement (.rvwaitExpiry r) := fun h _ => nomatch (show false = true from h)

theorem convoyNoticeArrival (convoy point) : Statement (.convoyNoticeArrival convoy point) := fun h _ => nomatch (show false = true from h)

theorem copyBytesLand (xfer slice off len) : Statement (.copyBytesLand xfer slice off len) := fun h _ => nomatch (show false = true from h)

theorem ringSlotReserve (xfer) : Statement (.ringSlotReserve xfer) := fun h _ => nomatch (show false = true from h)

theorem multicastBufferDrain (die team) : Statement (.multicastBufferDrain die team) := fun h _ => nomatch (show false = true from h)

theorem messageAck (msg) : Statement (.messageAck msg) := fun h _ => nomatch (show false = true from h)

theorem messageArrival (m) : Statement (.messageArrival m) := fun h _ => nomatch (show false = true from h)

theorem armedEntryEnable (e v) : Statement (.armedEntryEnable e v) := fun h _ => nomatch (show false = true from h)

theorem entryComplete (idx) : Statement (.entryComplete idx) := fun h _ => nomatch (show false = true from h)

theorem graphCopyNodeComplete (idx node) : Statement (.graphCopyNodeComplete idx node) := fun h _ => nomatch (show false = true from h)

theorem launchQueueDoorbell (n v) : Statement (.launchQueueDoorbell n v) := fun h _ => nomatch (show false = true from h)

theorem launchQueueEnable (n v) : Statement (.launchQueueEnable n v) := fun h _ => nomatch (show false = true from h)

theorem jobStart (n) : Statement (.jobStart n) := fun h _ => nomatch (show false = true from h)

theorem keyRequestArrival (die task) : Statement (.keyRequestArrival die task) := fun h _ => nomatch (show false = true from h)

theorem keyGrantArrival (die task) : Statement (.keyGrantArrival die task) := fun h _ => nomatch (show false = true from h)

theorem renameStorageTake (die task) : Statement (.renameStorageTake die task) := fun h _ => nomatch (show false = true from h)

theorem copybackStart (die task tile) : Statement (.copybackStart die task tile) := fun h _ => nomatch (show false = true from h)

theorem copybackComplete (die task tile) : Statement (.copybackComplete die task tile) := fun h _ => nomatch (show false = true from h)

theorem queueRefillLand (q) : Statement (.queueRefillLand q) := fun h _ => nomatch (show false = true from h)

theorem quayWindowClose (die core entry) : Statement (.quayWindowClose die core entry) := fun h _ => nomatch (show false = true from h)

theorem loadLineReturn (die core entry) : Statement (.loadLineReturn die core entry) := fun h _ => nomatch (show false = true from h)

theorem gatherLine (die core) : Statement (.gatherLine die core) := fun h _ => nomatch (show false = true from h)

theorem memoryWritePerform (w) : Statement (.memoryWritePerform w) := fun h _ => nomatch (show false = true from h)

theorem atomPerform (team warp op) : Statement (.atomPerform team warp op) := fun h _ => nomatch (show false = true from h)

theorem atomReturn (team warp op) : Statement (.atomReturn team warp op) := fun h _ => nomatch (show false = true from h)

theorem redPerform (op) : Statement (.redPerform op) := fun h _ => nomatch (show false = true from h)

theorem pageWalk (die) : Statement (.pageWalk die) := fun h _ => nomatch (show false = true from h)

theorem instanceStart (die core inst) : Statement (.instanceStart die core inst) := fun h _ => nomatch (show false = true from h)

theorem instanceComplete (die core inst) : Statement (.instanceComplete die core inst) := fun h _ => nomatch (show false = true from h)

theorem mloopStepStart (die core) : Statement (.mloopStepStart die core) := fun h _ => nomatch (show false = true from h)

theorem shootdownStart (v) : Statement (.shootdownStart v) := fun h _ => nomatch (show false = true from h)

theorem shootdownComplete : Statement (.shootdownComplete) := fun h _ => nomatch (show false = true from h)

theorem migrationStart (die page) : Statement (.migrationStart die page) := fun h _ => nomatch (show false = true from h)

theorem migrationComplete (die page) : Statement (.migrationComplete die page) := fun h _ => nomatch (show false = true from h)

theorem serviceRingEnable (die ring v) : Statement (.serviceRingEnable die ring v) := fun h _ => nomatch (show false = true from h)

theorem serviceRingPointerWrite (die ring v) : Statement (.serviceRingPointerWrite die ring v) := fun h _ => nomatch (show false = true from h)

theorem circuitSetup (c v) : Statement (.circuitSetup c v) := fun h _ => nomatch (show false = true from h)

theorem circuitActive (c) : Statement (.circuitActive c) := fun h _ => nomatch (show false = true from h)

theorem circuitTeardown (c) : Statement (.circuitTeardown c) := fun h _ => nomatch (show false = true from h)

theorem circuitInactive (c) : Statement (.circuitInactive c) := fun h _ => nomatch (show false = true from h)

theorem pkgidWrite (v) : Statement (.pkgidWrite v) := fun h _ => nomatch (show false = true from h)

theorem tiercfgWrite (v) : Statement (.tiercfgWrite v) := fun h _ => nomatch (show false = true from h)

theorem cxlPortTrained (port capacity persistent) : Statement (.cxlPortTrained port capacity persistent) := fun h _ => nomatch (show false = true from h)

theorem hostApertureAccess (off write len) : Statement (.hostApertureAccess off write len) := fun h _ => nomatch (show false = true from h)

theorem ceilingWrite (v) : Statement (.ceilingWrite v) := fun h _ => nomatch (show false = true from h)

theorem limiterStep (avg projected) : Statement (.limiterStep avg projected) := fun h _ => nomatch (show false = true from h)

theorem limiterRaise : Statement (.limiterRaise) := fun h _ => nomatch (show false = true from h)

theorem islandRequestWrite (island v) : Statement (.islandRequestWrite island v) := fun h _ => nomatch (show false = true from h)

theorem islandTransitionDone (island) : Statement (.islandTransitionDone island) := fun h _ => nomatch (show false = true from h)

theorem diePark (die) : Statement (.diePark die) := fun h _ => nomatch (show false = true from h)

theorem dieUnpark (die) : Statement (.dieUnpark die) := fun h _ => nomatch (show false = true from h)

theorem dieDrainEnd (die) : Statement (.dieDrainEnd die) := fun h _ => nomatch (show false = true from h)

theorem dieUnparkDone (die) : Statement (.dieUnparkDone die) := fun h _ => nomatch (show false = true from h)

theorem microcodeUpdate (die version ecdsa lms) : Statement (.microcodeUpdate die version ecdsa lms) := fun h _ => nomatch (show false = true from h)

theorem checkpointStart : Statement (.checkpointStart) := fun h _ => nomatch (show false = true from h)

theorem checkpointDone : Statement (.checkpointDone) := fun h _ => nomatch (show false = true from h)

theorem restoreStart : Statement (.restoreStart) := fun h _ => nomatch (show false = true from h)

theorem restoreDone : Statement (.restoreDone) := fun h _ => nomatch (show false = true from h)

theorem coldReset (ecdsa lms current) : Statement (.coldReset ecdsa lms current) := fun h _ => nomatch (show false = true from h)

theorem attestationRequest (nonce) : Statement (.attestationRequest nonce) := fun h _ => nomatch (show false = true from h)

theorem registerWrite (sp die num v) : Statement (.registerWrite sp die num v) := fun h _ => nomatch (show false = true from h)

theorem igtahildWorldWrite (sp die num v) : Statement (.igtahildWorldWrite sp die num v) := fun h _ => nomatch (show false = true from h)

theorem folioLoad (f) : Statement (.folioLoad f) := fun h _ => nomatch (show false = true from h)

theorem folioUnload (num) : Statement (.folioUnload num) := fun h _ => nomatch (show false = true from h)

theorem linkRetrainDone (link) : Statement (.linkRetrainDone link) := fun h _ => nomatch (show false = true from h)

end Laws.Reads

namespace Laws.Fits

/-- The length code of an instruction's fields is its length, and the fields beyond that length are zero. -/
def Statement (i : Instr) : Prop :=
  i.hasWord = true → lenBytes (encRaw i).len = some i.bytes ∧ (i.bytes < 16 → (encRaw i).hi = 0#32)
    ∧ (i.bytes < 12 → (encRaw i).lo = 0#32)

theorem iadd (g t sat d a b) : Statement (.iadd g t sat d a b) := fun _ => ⟨rfl, fun _ => rfl, fun _ => rfl⟩
theorem iaddX (g t sat d a b x) : Statement (.iaddX g t sat d a b x) := fun _ => ⟨rfl, fun _ => rfl, below_absurd 12 12 (by decide)⟩
theorem iaddI (g t sat d a v) : Statement (.iaddI g t sat d a v) := fun _ => ⟨rfl, fun _ => rfl, below_absurd 12 12 (by decide)⟩
theorem isub (g t sat d a b) : Statement (.isub g t sat d a b) := fun _ => ⟨rfl, fun _ => rfl, fun _ => rfl⟩
theorem isubX (g t sat d a b x) : Statement (.isubX g t sat d a b x) := fun _ => ⟨rfl, fun _ => rfl, below_absurd 12 12 (by decide)⟩
theorem imul (g t m d a b) : Statement (.imul g t m d a b) := fun _ => ⟨rfl, fun _ => rfl, fun _ => rfl⟩
theorem imulX (g t m d a b x) : Statement (.imulX g t m d a b x) := fun _ => ⟨rfl, fun _ => rfl, below_absurd 12 12 (by decide)⟩
theorem imulI (g t m d a v) : Statement (.imulI g t m d a v) := fun _ => ⟨rfl, fun _ => rfl, below_absurd 12 12 (by decide)⟩
theorem idiv (g t sat rem d a b) : Statement (.idiv g t sat rem d a b) := fun _ => ⟨rfl, fun _ => rfl, fun _ => rfl⟩
theorem imin (g t sat d a b) : Statement (.imin g t sat d a b) := fun _ => ⟨rfl, fun _ => rfl, fun _ => rfl⟩
theorem iminX (g t sat d a b x) : Statement (.iminX g t sat d a b x) := fun _ => ⟨rfl, fun _ => rfl, below_absurd 12 12 (by decide)⟩
theorem imax (g t sat d a b) : Statement (.imax g t sat d a b) := fun _ => ⟨rfl, fun _ => rfl, fun _ => rfl⟩
theorem imaxX (g t sat d a b x) : Statement (.imaxX g t sat d a b x) := fun _ => ⟨rfl, fun _ => rfl, below_absurd 12 12 (by decide)⟩
theorem iabs (g t sat d a) : Statement (.iabs g t sat d a) := fun _ => ⟨rfl, fun _ => rfl, fun _ => rfl⟩
theorem imad (g t sat d a b c x) : Statement (.imad g t sat d a b c x) := fun _ => ⟨rfl, fun _ => rfl, below_absurd 12 12 (by decide)⟩
theorem iset (g t op p a b) : Statement (.iset g t op p a b) := fun _ => ⟨rfl, fun _ => rfl, fun _ => rfl⟩
theorem isetI (g t op p a v) : Statement (.isetI g t op p a v) := fun _ => ⟨rfl, fun _ => rfl, below_absurd 12 12 (by decide)⟩
theorem and (g t d a b) : Statement (.and g t d a b) := fun _ => ⟨rfl, fun _ => rfl, fun _ => rfl⟩
theorem andX (g t d a b x) : Statement (.andX g t d a b x) := fun _ => ⟨rfl, fun _ => rfl, below_absurd 12 12 (by decide)⟩
theorem andI (g t d a v) : Statement (.andI g t d a v) := fun _ => ⟨rfl, fun _ => rfl, below_absurd 12 12 (by decide)⟩
theorem andn (g t d a b) : Statement (.andn g t d a b) := fun _ => ⟨rfl, fun _ => rfl, fun _ => rfl⟩
theorem or (g t d a b) : Statement (.or g t d a b) := fun _ => ⟨rfl, fun _ => rfl, fun _ => rfl⟩
theorem orX (g t d a b x) : Statement (.orX g t d a b x) := fun _ => ⟨rfl, fun _ => rfl, below_absurd 12 12 (by decide)⟩
theorem orI (g t d a v) : Statement (.orI g t d a v) := fun _ => ⟨rfl, fun _ => rfl, below_absurd 12 12 (by decide)⟩
theorem xor (g t d a b) : Statement (.xor g t d a b) := fun _ => ⟨rfl, fun _ => rfl, fun _ => rfl⟩
theorem xorX (g t d a b x) : Statement (.xorX g t d a b x) := fun _ => ⟨rfl, fun _ => rfl, below_absurd 12 12 (by decide)⟩
theorem xorI (g t d a v) : Statement (.xorI g t d a v) := fun _ => ⟨rfl, fun _ => rfl, below_absurd 12 12 (by decide)⟩
theorem shl (g t d a b) : Statement (.shl g t d a b) := fun _ => ⟨rfl, fun _ => rfl, fun _ => rfl⟩
theorem shr (g t d a b) : Statement (.shr g t d a b) := fun _ => ⟨rfl, fun _ => rfl, fun _ => rfl⟩
theorem sha (g t d a b) : Statement (.sha g t d a b) := fun _ => ⟨rfl, fun _ => rfl, fun _ => rfl⟩
theorem rot (g t d a b) : Statement (.rot g t d a b) := fun _ => ⟨rfl, fun _ => rfl, fun _ => rfl⟩
theorem popc (g t d a) : Statement (.popc g t d a) := fun _ => ⟨rfl, fun _ => rfl, fun _ => rfl⟩
theorem clz (g t d a) : Statement (.clz g t d a) := fun _ => ⟨rfl, fun _ => rfl, fun _ => rfl⟩
theorem brev (g t d a) : Statement (.brev g t d a) := fun _ => ⟨rfl, fun _ => rfl, fun _ => rfl⟩
theorem bfx (g t d a b) : Statement (.bfx g t d a b) := fun _ => ⟨rfl, fun _ => rfl, fun _ => rfl⟩
theorem bfi (g t d a b c x) : Statement (.bfi g t d a b c x) := fun _ => ⟨rfl, fun _ => rfl, below_absurd 12 12 (by decide)⟩
theorem mov (g t sat d a) : Statement (.mov g t sat d a) := fun _ => ⟨rfl, fun _ => rfl, fun _ => rfl⟩
theorem movX (g t sat d a x) : Statement (.movX g t sat d a x) := fun _ => ⟨rfl, fun _ => rfl, below_absurd 12 12 (by decide)⟩
theorem movi (g t sat d v) : Statement (.movi g t sat d v) := fun _ => ⟨rfl, fun _ => rfl, below_absurd 12 12 (by decide)⟩
theorem movxRead (g j d) : Statement (.movxRead g j d) := fun _ => ⟨rfl, fun _ => rfl, fun _ => rfl⟩
theorem movxWrite (g j a) : Statement (.movxWrite g j a) := fun _ => ⟨rfl, fun _ => rfl, fun _ => rfl⟩
theorem shfl (g t op d a b) : Statement (.shfl g t op d a b) := fun _ => ⟨rfl, fun _ => rfl, fun _ => rfl⟩
theorem vote (g op p q) : Statement (.vote g op p q) := fun _ => ⟨rfl, fun _ => rfl, fun _ => rfl⟩
theorem ballot (g d q) : Statement (.ballot g d q) := fun _ => ⟨rfl, fun _ => rfl, fun _ => rfl⟩
theorem redw (g t op d a) : Statement (.redw g t op d a) := fun _ => ⟨rfl, fun _ => rfl, fun _ => rfl⟩
theorem sel (g t q d a b) : Statement (.sel g t q d a b) := fun _ => ⟨rfl, fun _ => rfl, fun _ => rfl⟩
theorem selX (g t q d a b x) : Statement (.selX g t q d a b x) := fun _ => ⟨rfl, fun _ => rfl, below_absurd 12 12 (by decide)⟩
theorem fadd (g t m d a b) : Statement (.fadd g t m d a b) := fun _ => ⟨rfl, fun _ => rfl, fun _ => rfl⟩
theorem faddX (g t m d a b x) : Statement (.faddX g t m d a b x) := fun _ => ⟨rfl, fun _ => rfl, below_absurd 12 12 (by decide)⟩
theorem faddI (g t m d a v) : Statement (.faddI g t m d a v) := fun _ => ⟨rfl, fun _ => rfl, below_absurd 12 12 (by decide)⟩
theorem fsub (g t m d a b) : Statement (.fsub g t m d a b) := fun _ => ⟨rfl, fun _ => rfl, fun _ => rfl⟩
theorem fsubX (g t m d a b x) : Statement (.fsubX g t m d a b x) := fun _ => ⟨rfl, fun _ => rfl, below_absurd 12 12 (by decide)⟩
theorem fmul (g t m d a b) : Statement (.fmul g t m d a b) := fun _ => ⟨rfl, fun _ => rfl, fun _ => rfl⟩
theorem fmulX (g t m d a b x) : Statement (.fmulX g t m d a b x) := fun _ => ⟨rfl, fun _ => rfl, below_absurd 12 12 (by decide)⟩
theorem fmulI (g t m d a v) : Statement (.fmulI g t m d a v) := fun _ => ⟨rfl, fun _ => rfl, below_absurd 12 12 (by decide)⟩
theorem ffma (g t m d a b c x) : Statement (.ffma g t m d a b c x) := fun _ => ⟨rfl, fun _ => rfl, below_absurd 12 12 (by decide)⟩
theorem fmin (g t fl d a b) : Statement (.fmin g t fl d a b) := fun _ => ⟨rfl, fun _ => rfl, fun _ => rfl⟩
theorem fminX (g t fl d a b x) : Statement (.fminX g t fl d a b x) := fun _ => ⟨rfl, fun _ => rfl, below_absurd 12 12 (by decide)⟩
theorem fmax (g t fl d a b) : Statement (.fmax g t fl d a b) := fun _ => ⟨rfl, fun _ => rfl, fun _ => rfl⟩
theorem fmaxX (g t fl d a b x) : Statement (.fmaxX g t fl d a b x) := fun _ => ⟨rfl, fun _ => rfl, below_absurd 12 12 (by decide)⟩
theorem frcp (g la t m d a) : Statement (.frcp g la t m d a) := fun _ => ⟨rfl, fun _ => rfl, fun _ => rfl⟩
theorem frsq (g la t m d a) : Statement (.frsq g la t m d a) := fun _ => ⟨rfl, fun _ => rfl, fun _ => rfl⟩
theorem fsfn (g la t op fl d a) : Statement (.fsfn g la t op fl d a) := fun _ => ⟨rfl, fun _ => rfl, fun _ => rfl⟩
theorem fset (g t op ftz p a b) : Statement (.fset g t op ftz p a b) := fun _ => ⟨rfl, fun _ => rfl, fun _ => rfl⟩
theorem fsetX (g t op ftz p a b x) : Statement (.fsetX g t op ftz p a b x) := fun _ => ⟨rfl, fun _ => rfl, below_absurd 12 12 (by decide)⟩
theorem fsetI (g t op ftz p a v) : Statement (.fsetI g t op ftz p a v) := fun _ => ⟨rfl, fun _ => rfl, below_absurd 12 12 (by decide)⟩
theorem fcls (g t d a) : Statement (.fcls g t d a) := fun _ => ⟨rfl, fun _ => rfl, fun _ => rfl⟩
theorem frnd (g t m d a) : Statement (.frnd g t m d a) := fun _ => ⟨rfl, fun _ => rfl, fun _ => rfl⟩
theorem fcvt (g dest frm m sat d a) : Statement (.fcvt g dest frm m sat d a) := fun _ => ⟨rfl, fun _ => rfl, fun _ => rfl⟩
theorem fcvtX (g dest frm m sat d a x) : Statement (.fcvtX g dest frm m sat d a x) := fun _ => ⟨rfl, fun _ => rfl, below_absurd 12 12 (by decide)⟩
theorem cvti (g dest frm sat d a) : Statement (.cvti g dest frm sat d a) := fun _ => ⟨rfl, fun _ => rfl, fun _ => rfl⟩
theorem cvtiX (g dest frm sat d a x) : Statement (.cvtiX g dest frm sat d a x) := fun _ => ⟨rfl, fun _ => rfl, below_absurd 12 12 (by decide)⟩
theorem pack (g t md d a b) : Statement (.pack g t md d a b) := fun _ => ⟨rfl, fun _ => rfl, fun _ => rfl⟩
theorem packX (g t md d a b x) : Statement (.packX g t md d a b x) := fun _ => ⟨rfl, fun _ => rfl, below_absurd 12 12 (by decide)⟩
theorem unpk (g t hi d a) : Statement (.unpk g t hi d a) := fun _ => ⟨rfl, fun _ => rfl, fun _ => rfl⟩
theorem unpkX (g t hi d a x) : Statement (.unpkX g t hi d a x) := fun _ => ⟨rfl, fun _ => rfl, below_absurd 12 12 (by decide)⟩
theorem ld (g la t d c o) : Statement (.ld g la t d c o) := fun _ => ⟨rfl, fun _ => rfl, fun _ => rfl⟩
theorem ldI (g la t d c v) : Statement (.ldI g la t d c v) := fun _ => ⟨rfl, fun _ => rfl, below_absurd 12 12 (by decide)⟩
theorem st (g la t c o a) : Statement (.st g la t c o a) := fun _ => ⟨rfl, fun _ => rfl, fun _ => rfl⟩
theorem stI (g la t c a v) : Statement (.stI g la t c a v) := fun _ => ⟨rfl, fun _ => rfl, below_absurd 12 12 (by decide)⟩
theorem lds (g la t d o) : Statement (.lds g la t d o) := fun _ => ⟨rfl, fun _ => rfl, fun _ => rfl⟩
theorem ldsI (g la t d v) : Statement (.ldsI g la t d v) := fun _ => ⟨rfl, fun _ => rfl, below_absurd 12 12 (by decide)⟩
theorem sts (g la t o a) : Statement (.sts g la t o a) := fun _ => ⟨rfl, fun _ => rfl, fun _ => rfl⟩
theorem stsI (g la t a v) : Statement (.stsI g la t a v) := fun _ => ⟨rfl, fun _ => rfl, below_absurd 12 12 (by decide)⟩
theorem pref (g la l2 c o) : Statement (.pref g la l2 c o) := fun _ => ⟨rfl, fun _ => rfl, fun _ => rfl⟩
theorem atom (g la t op d c o a x) : Statement (.atom g la t op d c o a x) := fun _ => ⟨rfl, fun _ => rfl, below_absurd 12 12 (by decide)⟩
theorem cas (g la t d c o b) : Statement (.cas g la t d c o b) := fun _ => ⟨rfl, below_absurd 16 16 (by decide), below_absurd 16 12 (by decide)⟩
theorem red (g la t op c o a x) : Statement (.red g la t op c o a x) := fun _ => ⟨rfl, fun _ => rfl, below_absurd 12 12 (by decide)⟩
theorem capn (g mask d c a b) : Statement (.capn g mask d c a b) := fun _ => ⟨rfl, fun _ => rfl, below_absurd 12 12 (by decide)⟩
theorem capq (g op d c) : Statement (.capq g op d c) := fun _ => ⟨rfl, fun _ => rfl, fun _ => rfl⟩
theorem caps (g d c a) : Statement (.caps g d c a) := fun _ => ⟨rfl, fun _ => rfl, fun _ => rfl⟩
theorem give (k) : Statement (.give k) := fun _ => ⟨rfl, fun _ => rfl, fun _ => rfl⟩
theorem claim (k) : Statement (.claim k) := fun _ => ⟨rfl, fun _ => rfl, fun _ => rfl⟩
theorem rgn (s0 s1 s2 s3) : Statement (.rgn s0 s1 s2 s3) := fun _ => ⟨rfl, fun _ => rfl, below_absurd 12 12 (by decide)⟩
theorem srd (g d w) : Statement (.srd g d w) := fun _ => ⟨rfl, fun _ => rfl, below_absurd 12 12 (by decide)⟩
theorem swr (g a w) : Statement (.swr g a w) := fun _ => ⟨rfl, fun _ => rfl, below_absurd 12 12 (by decide)⟩
theorem bra (g target join) : Statement (.bra g target join) := fun _ => ⟨rfl, below_absurd 16 16 (by decide), below_absurd 16 12 (by decide)⟩
theorem brx (g a join) : Statement (.brx g a join) := fun _ => ⟨rfl, below_absurd 16 16 (by decide), below_absurd 16 12 (by decide)⟩
theorem call (g d target) : Statement (.call g d target) := fun _ => ⟨rfl, fun _ => rfl, below_absurd 12 12 (by decide)⟩
theorem ret (g a) : Statement (.ret g a) := fun _ => ⟨rfl, fun _ => rfl, fun _ => rfl⟩
theorem exit (g) : Statement (.exit g) := fun _ => ⟨rfl, fun _ => rfl, fun _ => rfl⟩
theorem nop (g) : Statement (.nop g) := fun _ => ⟨rfl, fun _ => rfl, fun _ => rfl⟩
theorem nopLong (g) : Statement (.nopLong g) := fun _ => ⟨rfl, fun _ => rfl, below_absurd 12 12 (by decide)⟩
theorem yield (g) : Statement (.yield g) := fun _ => ⟨rfl, fun _ => rfl, fun _ => rfl⟩
theorem plop (g tt p q q2) : Statement (.plop g tt p q q2) := fun _ => ⟨rfl, fun _ => rfl, fun _ => rfl⟩
theorem fence (g kind sc) : Statement (.fence g kind sc) := fun _ => ⟨rfl, fun _ => rfl, fun _ => rfl⟩
theorem acq (g sc a) : Statement (.acq g sc a) := fun _ => ⟨rfl, fun _ => rfl, fun _ => rfl⟩
theorem rel (g sc a) : Statement (.rel g sc a) := fun _ => ⟨rfl, fun _ => rfl, fun _ => rfl⟩
theorem bind (g c a) : Statement (.bind g c a) := fun _ => ⟨rfl, fun _ => rfl, fun _ => rfl⟩
theorem unbind (g c) : Statement (.unbind g c) := fun _ => ⟨rfl, fun _ => rfl, fun _ => rfl⟩
theorem waitc (g t op c o a x) : Statement (.waitc g t op c o a x) := fun _ => ⟨rfl, fun _ => rfl, below_absurd 12 12 (by decide)⟩
theorem rvinit (g n a) : Statement (.rvinit g n a) := fun _ => ⟨rfl, fun _ => rfl, fun _ => rfl⟩
theorem rvarr (g n) : Statement (.rvarr g n) := fun _ => ⟨rfl, fun _ => rfl, fun _ => rfl⟩
theorem rvexp (g n a) : Statement (.rvexp g n a) := fun _ => ⟨rfl, fun _ => rfl, fun _ => rfl⟩
theorem rvwaitPlain (g n) : Statement (.rvwaitPlain g n) := fun _ => ⟨rfl, fun _ => rfl, below_absurd 12 12 (by decide)⟩
theorem rvwaitTimed (g n a p x) : Statement (.rvwaitTimed g n a p x) := fun _ => ⟨rfl, fun _ => rfl, below_absurd 12 12 (by decide)⟩
theorem rvinv (g n) : Statement (.rvinv g n) := fun _ => ⟨rfl, fun _ => rfl, fun _ => rfl⟩
theorem rinit (g o s z) : Statement (.rinit g o s z) := fun _ => ⟨rfl, fun _ => rfl, below_absurd 12 12 (by decide)⟩
theorem rwait (g d o) : Statement (.rwait g d o) := fun _ => ⟨rfl, fun _ => rfl, fun _ => rfl⟩
theorem rrel (g o) : Statement (.rrel g o) := fun _ => ⟨rfl, fun _ => rfl, fun _ => rfl⟩
theorem cpwait (g k) : Statement (.cpwait g k) := fun _ => ⟨rfl, fun _ => rfl, fun _ => rfl⟩
theorem copy (g la dir dest frm o lenm pt nwm soff) : Statement (.copy g la dir dest frm o lenm pt nwm soff) := fun _ => ⟨rfl, below_absurd 16 16 (by decide), below_absurd 16 12 (by decide)⟩
theorem copym (g la sk dest frm o lenm pt mask) : Statement (.copym g la sk dest frm o lenm pt mask) := fun _ => ⟨rfl, below_absurd 16 16 (by decide), below_absurd 16 12 (by decide)⟩
theorem task (g c o) : Statement (.task g c o) := fun _ => ⟨rfl, below_absurd 16 16 (by decide), below_absurd 16 12 (by decide)⟩
theorem krel (g a) : Statement (.krel g a) := fun _ => ⟨rfl, fun _ => rfl, fun _ => rfl⟩
theorem qpush (g q c) : Statement (.qpush g q c) := fun _ => ⟨rfl, fun _ => rfl, fun _ => rfl⟩
theorem qpop (g c q) : Statement (.qpop g c q) := fun _ => ⟨rfl, fun _ => rfl, fun _ => rfl⟩
theorem lnch (g d c a rec) : Statement (.lnch g d c a rec) := fun _ => ⟨rfl, below_absurd 16 16 (by decide), below_absurd 16 12 (by decide)⟩
theorem cncl (g a) : Statement (.cncl g a) := fun _ => ⟨rfl, fun _ => rfl, fun _ => rfl⟩
theorem cwait (g d a) : Statement (.cwait g d a) := fun _ => ⟨rfl, fun _ => rfl, fun _ => rfl⟩
theorem mma (g la t a ks u) : Statement (.mma g la t a ks u) := fun _ => ⟨rfl, below_absurd 16 16 (by decide), below_absurd 16 12 (by decide)⟩
theorem mspa (g la t pat m a ks u) : Statement (.mspa g la t pat m a ks u) := fun _ => ⟨rfl, below_absurd 16 16 (by decide), below_absurd 16 12 (by decide)⟩
theorem mloop (g la t n a ks u) : Statement (.mloop g la t n a ks u) := fun _ => ⟨rfl, below_absurd 16 16 (by decide), below_absurd 16 12 (by decide)⟩
theorem mldb (g la t sk frm o boff lenu pt) : Statement (.mldb g la t sk frm o boff lenu pt) := fun _ => ⟨rfl, below_absurd 16 16 (by decide), below_absurd 16 12 (by decide)⟩
theorem mlds (g la sk rec frm o base pt) : Statement (.mlds g la sk rec frm o base pt) := fun _ => ⟨rfl, below_absurd 16 16 (by decide), below_absurd 16 12 (by decide)⟩
theorem mdrn (g la op vd d dest o u) : Statement (.mdrn g la op vd d dest o u) := fun _ => ⟨rfl, below_absurd 16 16 (by decide), below_absurd 16 12 (by decide)⟩
theorem mzro (g la t tile v) : Statement (.mzro g la t tile v) := fun _ => ⟨rfl, fun _ => rfl, fun _ => rfl⟩
theorem tokp (g a) : Statement (.tokp g a) := fun _ => ⟨rfl, fun _ => rfl, fun _ => rfl⟩
theorem tokw (g) : Statement (.tokw g) := fun _ => ⟨rfl, fun _ => rfl, fun _ => rfl⟩
theorem vdset (g la op thr kb u) : Statement (.vdset g la op thr kb u) := fun _ => ⟨rfl, below_absurd 16 16 (by decide), below_absurd 16 12 (by decide)⟩
theorem vdot (g la t m d a b c x) : Statement (.vdot g la t m d a b c x) := fun _ => ⟨rfl, fun _ => rfl, below_absurd 12 12 (by decide)⟩
theorem vthr (g la tile a) : Statement (.vthr g la tile a) := fun _ => ⟨rfl, fun _ => rfl, fun _ => rfl⟩
theorem topk (g la op d tile e) : Statement (.topk g la op d tile e) := fun _ => ⟨rfl, fun _ => rfl, below_absurd 12 12 (by decide)⟩
theorem trap (g k) : Statement (.trap g k) := fun _ => ⟨rfl, fun _ => rfl, fun _ => rfl⟩
theorem bkpt (g) : Statement (.bkpt g) := fun _ => ⟨rfl, fun _ => rfl, fun _ => rfl⟩
theorem sysc (g k) : Statement (.sysc g k) := fun _ => ⟨rfl, fun _ => rfl, fun _ => rfl⟩
theorem eret : Statement (.eret) := fun _ => ⟨rfl, fun _ => rfl, fun _ => rfl⟩
theorem iflush (g c a) : Statement (.iflush g c a) := fun _ => ⟨rfl, fun _ => rfl, fun _ => rfl⟩
theorem unassignedOpcode (w) : Statement (.unassignedOpcode w) := fun h => nomatch (show false = true from h)
theorem escalationRecordPost (die) : Statement (.escalationRecordPost die) := fun h => nomatch (show false = true from h)
theorem erespResume (die num) : Statement (.erespResume die num) := fun h => nomatch (show false = true from h)
theorem erespCancel (die num) : Statement (.erespCancel die num) := fun h => nomatch (show false = true from h)
theorem faultRecordPost (die) : Statement (.faultRecordPost die) := fun h => nomatch (show false = true from h)
theorem frespServiced (die num) : Statement (.frespServiced die num) := fun h => nomatch (show false = true from h)
theorem frespUnrecoverable (die num) : Statement (.frespUnrecoverable die num) := fun h => nomatch (show false = true from h)
theorem asyncTrapTake (team warp) : Statement (.asyncTrapTake team warp) := fun h => nomatch (show false = true from h)
theorem eccUncorrectable (team warp va) : Statement (.eccUncorrectable team warp va) := fun h => nomatch (show false = true from h)
theorem eccCorrected (die) : Statement (.eccCorrected die) := fun h => nomatch (show false = true from h)
theorem linkFlitCheckFail (link team warp) : Statement (.linkFlitCheckFail link team warp) := fun h => nomatch (show false = true from h)
theorem teamAdmit (die) : Statement (.teamAdmit die) := fun h => nomatch (show false = true from h)
theorem teamRetire (team) : Statement (.teamRetire team) := fun h => nomatch (show false = true from h)
theorem teamSwap (team) : Statement (.teamSwap team) := fun h => nomatch (show false = true from h)
theorem teamSave (team) : Statement (.teamSave team) := fun h => nomatch (show false = true from h)
theorem teamResume (die team) : Statement (.teamResume die team) := fun h => nomatch (show false = true from h)
theorem keyHolderDeferExpiry (team) : Statement (.keyHolderDeferExpiry team) := fun h => nomatch (show false = true from h)
theorem splitFill (die core lane) : Statement (.splitFill die core lane) := fun h => nomatch (show false = true from h)
theorem heldSplitRelease (r) : Statement (.heldSplitRelease r) := fun h => nomatch (show false = true from h)
theorem passPromotion (r) : Statement (.passPromotion r) := fun h => nomatch (show false = true from h)
theorem claimdlReport (die core) : Statement (.claimdlReport die core) := fun h => nomatch (show false = true from h)
theorem rvwaitExpiry (r) : Statement (.rvwaitExpiry r) := fun h => nomatch (show false = true from h)
theorem convoyNoticeArrival (convoy point) : Statement (.convoyNoticeArrival convoy point) := fun h => nomatch (show false = true from h)
theorem copyBytesLand (xfer slice off len) : Statement (.copyBytesLand xfer slice off len) := fun h => nomatch (show false = true from h)
theorem ringSlotReserve (xfer) : Statement (.ringSlotReserve xfer) := fun h => nomatch (show false = true from h)
theorem multicastBufferDrain (die team) : Statement (.multicastBufferDrain die team) := fun h => nomatch (show false = true from h)
theorem messageAck (msg) : Statement (.messageAck msg) := fun h => nomatch (show false = true from h)
theorem messageArrival (m) : Statement (.messageArrival m) := fun h => nomatch (show false = true from h)
theorem armedEntryEnable (e v) : Statement (.armedEntryEnable e v) := fun h => nomatch (show false = true from h)
theorem entryComplete (idx) : Statement (.entryComplete idx) := fun h => nomatch (show false = true from h)
theorem graphCopyNodeComplete (idx node) : Statement (.graphCopyNodeComplete idx node) := fun h => nomatch (show false = true from h)
theorem launchQueueDoorbell (n v) : Statement (.launchQueueDoorbell n v) := fun h => nomatch (show false = true from h)
theorem launchQueueEnable (n v) : Statement (.launchQueueEnable n v) := fun h => nomatch (show false = true from h)
theorem jobStart (n) : Statement (.jobStart n) := fun h => nomatch (show false = true from h)
theorem keyRequestArrival (die task) : Statement (.keyRequestArrival die task) := fun h => nomatch (show false = true from h)
theorem keyGrantArrival (die task) : Statement (.keyGrantArrival die task) := fun h => nomatch (show false = true from h)
theorem renameStorageTake (die task) : Statement (.renameStorageTake die task) := fun h => nomatch (show false = true from h)
theorem copybackStart (die task tile) : Statement (.copybackStart die task tile) := fun h => nomatch (show false = true from h)
theorem copybackComplete (die task tile) : Statement (.copybackComplete die task tile) := fun h => nomatch (show false = true from h)
theorem queueRefillLand (q) : Statement (.queueRefillLand q) := fun h => nomatch (show false = true from h)
theorem quayWindowClose (die core entry) : Statement (.quayWindowClose die core entry) := fun h => nomatch (show false = true from h)
theorem loadLineReturn (die core entry) : Statement (.loadLineReturn die core entry) := fun h => nomatch (show false = true from h)
theorem gatherLine (die core) : Statement (.gatherLine die core) := fun h => nomatch (show false = true from h)
theorem memoryWritePerform (w) : Statement (.memoryWritePerform w) := fun h => nomatch (show false = true from h)
theorem atomPerform (team warp op) : Statement (.atomPerform team warp op) := fun h => nomatch (show false = true from h)
theorem atomReturn (team warp op) : Statement (.atomReturn team warp op) := fun h => nomatch (show false = true from h)
theorem redPerform (op) : Statement (.redPerform op) := fun h => nomatch (show false = true from h)
theorem pageWalk (die) : Statement (.pageWalk die) := fun h => nomatch (show false = true from h)
theorem instanceStart (die core inst) : Statement (.instanceStart die core inst) := fun h => nomatch (show false = true from h)
theorem instanceComplete (die core inst) : Statement (.instanceComplete die core inst) := fun h => nomatch (show false = true from h)
theorem mloopStepStart (die core) : Statement (.mloopStepStart die core) := fun h => nomatch (show false = true from h)
theorem shootdownStart (v) : Statement (.shootdownStart v) := fun h => nomatch (show false = true from h)
theorem shootdownComplete : Statement (.shootdownComplete) := fun h => nomatch (show false = true from h)
theorem migrationStart (die page) : Statement (.migrationStart die page) := fun h => nomatch (show false = true from h)
theorem migrationComplete (die page) : Statement (.migrationComplete die page) := fun h => nomatch (show false = true from h)
theorem serviceRingEnable (die ring v) : Statement (.serviceRingEnable die ring v) := fun h => nomatch (show false = true from h)
theorem serviceRingPointerWrite (die ring v) : Statement (.serviceRingPointerWrite die ring v) := fun h => nomatch (show false = true from h)
theorem circuitSetup (c v) : Statement (.circuitSetup c v) := fun h => nomatch (show false = true from h)
theorem circuitActive (c) : Statement (.circuitActive c) := fun h => nomatch (show false = true from h)
theorem circuitTeardown (c) : Statement (.circuitTeardown c) := fun h => nomatch (show false = true from h)
theorem circuitInactive (c) : Statement (.circuitInactive c) := fun h => nomatch (show false = true from h)
theorem pkgidWrite (v) : Statement (.pkgidWrite v) := fun h => nomatch (show false = true from h)
theorem tiercfgWrite (v) : Statement (.tiercfgWrite v) := fun h => nomatch (show false = true from h)
theorem cxlPortTrained (port capacity persistent) : Statement (.cxlPortTrained port capacity persistent) := fun h => nomatch (show false = true from h)
theorem hostApertureAccess (off write len) : Statement (.hostApertureAccess off write len) := fun h => nomatch (show false = true from h)
theorem ceilingWrite (v) : Statement (.ceilingWrite v) := fun h => nomatch (show false = true from h)
theorem limiterStep (avg projected) : Statement (.limiterStep avg projected) := fun h => nomatch (show false = true from h)
theorem limiterRaise : Statement (.limiterRaise) := fun h => nomatch (show false = true from h)
theorem islandRequestWrite (island v) : Statement (.islandRequestWrite island v) := fun h => nomatch (show false = true from h)
theorem islandTransitionDone (island) : Statement (.islandTransitionDone island) := fun h => nomatch (show false = true from h)
theorem diePark (die) : Statement (.diePark die) := fun h => nomatch (show false = true from h)
theorem dieUnpark (die) : Statement (.dieUnpark die) := fun h => nomatch (show false = true from h)
theorem dieDrainEnd (die) : Statement (.dieDrainEnd die) := fun h => nomatch (show false = true from h)
theorem dieUnparkDone (die) : Statement (.dieUnparkDone die) := fun h => nomatch (show false = true from h)
theorem microcodeUpdate (die version ecdsa lms) : Statement (.microcodeUpdate die version ecdsa lms) := fun h => nomatch (show false = true from h)
theorem checkpointStart : Statement (.checkpointStart) := fun h => nomatch (show false = true from h)
theorem checkpointDone : Statement (.checkpointDone) := fun h => nomatch (show false = true from h)
theorem restoreStart : Statement (.restoreStart) := fun h => nomatch (show false = true from h)
theorem restoreDone : Statement (.restoreDone) := fun h => nomatch (show false = true from h)
theorem coldReset (ecdsa lms current) : Statement (.coldReset ecdsa lms current) := fun h => nomatch (show false = true from h)
theorem attestationRequest (nonce) : Statement (.attestationRequest nonce) := fun h => nomatch (show false = true from h)
theorem registerWrite (sp die num v) : Statement (.registerWrite sp die num v) := fun h => nomatch (show false = true from h)
theorem igtahildWorldWrite (sp die num v) : Statement (.igtahildWorldWrite sp die num v) := fun h => nomatch (show false = true from h)
theorem folioLoad (f) : Statement (.folioLoad f) := fun h => nomatch (show false = true from h)
theorem folioUnload (num) : Statement (.folioUnload num) := fun h => nomatch (show false = true from h)
theorem linkRetrainDone (link) : Statement (.linkRetrainDone link) := fun h => nomatch (show false = true from h)

end Laws.Fits

end Sys2Proof
end

