-- ==== Sys2Proof/Tests/Slice0.lean ====
section
/-! SUPPORT. Tests: ill-formed terms refused, words of the spec decoded, single steps on a small state, and states that meet the
hypotheses of the obligations. -/

namespace Sys2Proof.Tests

open Sys2Proof Sys2Proof.Machine

set_option Elab.async false -- one theorem after another: a kernel evaluation waits for all that stands before it

/-! ### A small state -/

/-- 32-bit register w<n>. -/
def w (n : Nat) : Opnd := .reg .w32 (BitVec.ofNat 9 (8 * n))

/-- 64-bit register d<n>. -/
def d (n : Nat) : Opnd := .reg .w64 (BitVec.ofNat 9 (16 * n))

/-- 16-bit register h<n>. -/
def h (n : Nat) : Opnd := .reg .w16 (BitVec.ofNat 9 (4 * n))

/-- 128-bit register c<n>. -/
def q (n : Nat) : Opnd := .reg .w128 (BitVec.ofNat 9 (32 * n))

/-- Uniform register k<n>. -/
def k (n : Nat) : Opnd := .uni (BitVec.ofNat 7 n)

/-- A small number as an inline immediate. -/
def imm (n : Nat) : Opnd := .imm (BitVec.ofNat 9 n)

/-- A thread with every slice valid and these 32-bit registers from w0. -/
def thread (rs : List Nat) : Thread :=
  { Thread.reset with regs := BitVec.ofNat 2048 (joinElems 32 rs), valid := BitVec.allOnes 256 }

/-- The placed program's warp with two threads, its leaf issuing. -/
def rig2 (a b : Thread) : State :=
  { State.reset.placed.updWarp 0 0 (fun x => { x with
      count := 2
      alloc := 512
      threads := [a, b]
      entries := x.entries.map (fun e => { e with mask := 3#32 }) }) with
    issuer := some ⟨0, 0, 1⟩
    agenda := [] }

/-- The same with threads of these registers. -/
def rig (r0 r1 : List Nat) : State := rig2 (thread r0) (thread r1)

/-- The state with its warp changed. -/
def warped (s : State) (f : Warp → Warp) : State := s.updWarp 0 0 f

/-- The warp of a state. -/
def theWarp (s : State) : Warp := (s.warp? 0 0).getD (admitWarp ⟨0, 64, [], 0, 1, none, 0, []⟩ 0 0 0 1 1 0 [] [])

abbrev g : Guard := Guard.always

/-- The never guard `?!p7`. -/
abbrev never : Guard := ⟨true, 7#3⟩

theorem ready_of {s : State} {g : Guard} {ps : List Pos} (h : s.readyFor g ps = true) : ∃ c, s.Ready g ps c := by
  unfold State.readyFor at h
  cases e : s.ctx g with
  | none => rw [e] at h; cases h
  | some c => rw [e] at h; exact ⟨c, e, h⟩

/-- With no trap enabled every effect is quiet. -/
theorem quiet_of {c : Ctx} {d : Option Pos} (e : Nat → Eff) (h : ∀ j ∈ c.runs d, enablesOf (c.th j).fctl = 0#5) : c.quiet d e = true :=
  List.all_eq_true.mpr (fun j hj => by rw [h j hj, BitVec.and_zero]; rfl)

theorem noTrap_of {es : List Entry} (h : ∀ e ∈ es, e.wait = .none) : ∀ e ∈ es, ∀ a b m, e.wait ≠ .trap a b m :=
  fun e he a b m x => by rw [h e he] at x; cases x

theorem sound_of {c : Ctx} {d : Option Pos} {t : Ty} {xs : Nat → List Nat} (h : t ≠ .f32) : Sound c d t xs := fun x => absurd x h

/-! ### Witnesses: integer, logic and moves -/

/-- Sums at the end of the range; a source that is the destination. -/
theorem witness_IntegerArithmetic : (∃ c, (rig [0, 0x7FFFFFFF, 1] [0, 0x80000000, 0xFFFFFFFF]).Ready g
      [(Pos.dst (w 1) ((w 1).dstTy .i32)).withIx .plain, (Pos.src 1 (w 1) ((w 1).srcTy .i32)).withIx .plain,
        (Pos.src 2 (w 2) ((w 2).srcTy .i32)).withIx .plain] c)
    ∧ 0 < Ty.bits .i32 ∧ Ty.i32 ≠ .f64
    ∧ ∃ c, (rig [0, 1] [0, 2]).Ready g [Pos.dst (w 0) ((w 0).dstTy .i32), Pos.src 1 (w 1) ((w 1).srcTy .i32)] c :=
  ⟨ready_of (by decide +kernel), by decide, by decide, ready_of (by decide +kernel)⟩

/-- A zero divisor in thread 0, the signed overflow in thread 1. -/
theorem witness_DivisionAndOneSource : Ty.isPacked .i32 = false ∧ 0 < Ty.bits .i32
    ∧ (∃ c, (rig [0, 7, 0] [0, 0x80000000, 0xFFFFFFFF]).Ready g
      [Pos.dst (w 0) ((w 0).dstTy .i32), Pos.src 1 (w 1) ((w 1).srcTy .i32), Pos.src 2 (w 2) ((w 2).srcTy .i32)] c)
    ∧ ∃ c, (rig [0, 0x80000000] [0, 0]).Ready g [Pos.dst (w 0) ((w 0).dstTy .i32), Pos.src 1 (w 1) ((w 1).srcTy .i32)] c :=
  ⟨by decide, by decide, ready_of (by decide +kernel), ready_of (by decide +kernel)⟩

/-- A shift by 32 and one by 31. -/
theorem witness_LogicAndShifts : 0 < Ty.bits .n32 ∧ ∃ c, (rig [0, 1, 32] [0, 1, 31]).Ready g
    [(Pos.dst (w 0) ((w 0).dstTy .n32)).withIx .plain, (Pos.src 1 (w 1) ((w 1).srcTy .n32)).withIx .plain,
      (Pos.src 2 (w 2) ((w 2).srcTy .n32)).withIx .plain] c :=
  ⟨by decide, ready_of (by decide +kernel)⟩

/-- A field of length 0, and one that ends at the width. -/
theorem witness_MultiplyAddAndFields : 0 < Ty.bits .i32
    ∧ (∃ c, (rig [0, 1, 2, 3] [0, 4, 5, 6]).Ready g
      [(Pos.dst (w 0) ((w 0).dstTy .i32)).withIx .plain, (Pos.src 1 (w 1) ((w 1).srcTy .i32)).withIx .plain,
        (Pos.src 2 (w 2) ((w 2).srcTy .i32)).withIx .plain, (Pos.src 3 (w 3) ((w 3).srcTy .i32)).withIx .plain] c)
    ∧ (∃ c, (rig [0, 1, 2, 0] [0, 4, 5, 0x0818]).Ready g
      [(Pos.dst (w 0) ((w 0).dstTy .i32)).withIx .plain, (Pos.src 1 (w 1) ((w 1).srcTy .i32)).withIx .plain,
        (Pos.src 2 (w 2) ((w 2).srcTy .i32)).withIx .plain, (Pos.src 3 (w 3) (w 3).src32).withIx .plain] c)
    ∧ ∃ c, (rig [0, 1, 0] [0, 4, 0x0818]).Ready g
      [(Pos.dst (w 0) ((w 0).dstTy .i32)).withIx .plain, (Pos.src 1 (w 1) ((w 1).srcTy .i32)).withIx .plain,
        Pos.src 2 (w 2) (w 2).src32] c :=
  ⟨by decide, ready_of (by decide +kernel), ready_of (by decide +kernel), ready_of (by decide +kernel)⟩

/-- MOV of no type, MOV, SEL and MOVI. -/
theorem witness_Moves : (∃ c, (rig [0, 1] [0, 2]).Ready g
      [(Pos.dst (w 0) (movOk (w 0) (w 1))).withIx .plain, (Pos.src 1 (w 1) (movOk (w 0) (w 1))).withIx .plain] c)
    ∧ (∃ c, (rig [0, 1] [0, 2]).Ready g
      [(Pos.dst (w 0) ((w 0).dstTy .n32)).withIx .plain, (Pos.src 1 (w 1) ((w 1).srcTy .n32)).withIx .plain] c)
    ∧ (∃ c, (rig [0, 1, 2] [0, 3, 4]).Ready g
      [(Pos.dst (w 0) ((w 0).dstTy .n32)).withIx .plain, (Pos.src 1 (w 1) ((w 1).srcTy .n32)).withIx .plain,
        (Pos.src 2 (w 2) ((w 2).srcTy .n32)).withIx .plain] c)
    ∧ ∃ c, (rig [0] [0]).Ready g [(Pos.dst (w 0) ((w 0).dstTy .f32)).withIx .plain] c :=
  ⟨ready_of (by decide +kernel), ready_of (by decide +kernel), ready_of (by decide +kernel), ready_of (by decide +kernel)⟩

/-- A legal index word with HI 512, and one with HI 513 in thread 1. -/
theorem witness_PredicatesAndIndexes : (∃ c, (rig [0, 1, 2] [0, 3, 4]).Ready g
      [Pos.src 1 (w 1) ((w 1).srcTy .i32), Pos.src 2 (w 2) ((w 2).srcTy .i32)] c)
    ∧ (∃ c, (rig [0, 1] [0, 3]).Ready g [Pos.src 1 (w 1) ((w 1).srcTy .i32)] c)
    ∧ (∃ c, (rig [] []).Ready g [] c)
    ∧ (∃ c, (rig [0] [0]).Ready g [Pos.dst (w 0) (w 0).reg32] c)
    ∧ (∃ c, (rig [0, 0x10000000] [0, 0x10000000]).Ready g [Pos.src 1 (w 1) (w 1).src32] c
      ∧ ∀ i ∈ c.on, (let v := c.u32 i (Pos.src 1 (w 1) (w 1).src32)
          decide (512 < v / 2 ^ 19 % 2 ^ 10 ∨ v / 2 ^ 19 % 2 ^ 10 < v / 2 ^ 10 % 2 ^ 9)) = false)
    ∧ ∃ c, (rig [0, 0x10000000] [0, 0x10080000]).Ready g [Pos.src 1 (w 1) (w 1).src32] c
      ∧ c.on.find? (fun i => let v := c.u32 i (Pos.src 1 (w 1) (w 1).src32)
          decide (512 < v / 2 ^ 19 % 2 ^ 10 ∨ v / 2 ^ 19 % 2 ^ 10 < v / 2 ^ 10 % 2 ^ 9)) = some 1 :=
  ⟨ready_of (by decide +kernel), ready_of (by decide +kernel), ready_of (by decide +kernel), ready_of (by decide +kernel),
    ⟨_, ⟨rfl, by decide +kernel⟩, by decide +kernel⟩, ⟨_, ⟨rfl, by decide +kernel⟩, by decide +kernel⟩⟩

/-- SHFL to a thread that is not there, VOTE, BALLOT; REDW of an integer and of FP32. -/
theorem witness_WarpWideAndReduction : (∃ c, (rig [0, 1, 1] [0, 2, 31]).Ready g
      [Pos.dst (w 0) ((w 0).bits == Ty.bits .b32), Pos.src 1 (w 1) ((w 1).isReg && (w 1).bits == Ty.bits .b32),
        Pos.src 2 (w 2) (w 2).src32] c)
    ∧ (∃ c, (rig [] []).Ready g [] c)
    ∧ (∃ c, (rig [0] [0]).Ready g [Pos.dst (w 0) ((w 0).isReg && (w 0).bits == 32)] c)
    ∧ (Ty.fmt .i32 = none ∧ 0 < Ty.bits .i32 ∧ ∃ c, (rig [0, 0x7FFFFFFF] [0, 1]).Ready g
      [Pos.dst (w 0) ((w 0).dstTy .i32), Pos.src 1 (w 1) ((w 1).isReg && (w 1).srcTy .i32)] c)
    ∧ ∃ c, (rig [0, 0x3F800000] [0, 0x40000000]).Ready g
        [Pos.dst (w 0) ((w 0).dstTy .f32), Pos.src 1 (w 1) ((w 1).isReg && (w 1).srcTy .f32)] c
      ∧ (let xs := c.on.map (fun i => c.int .f32 i (Pos.src 1 (w 1) ((w 1).isReg && (w 1).srcTy .f32)))
         (∀ x ∈ xs, isAbandoned x = false) ∧ ∀ i ∈ c.on,
          (redwChain .f32 .add (rmOf (c.th c.low).fctl) (ftzOf (c.th c.low).fctl) xs).2 &&& enablesOf (c.th i).fctl = 0#5) :=
  ⟨ready_of (by decide +kernel), ready_of (by decide +kernel), ready_of (by decide +kernel),
    ⟨by decide, by decide, ready_of (by decide +kernel)⟩, ⟨_, ⟨rfl, by decide +kernel⟩, by decide +kernel⟩⟩

/-! ### Witnesses: floating point, conversion and packing -/

/-- FADD of FP32 values that raises nothing enabled; FFMA and the immediate form. -/
theorem witness_FloatArithmetic : ∃ c, (rig [0, 0x3F800000, 0x7F7FFFFF, 0] [0, 0x00000001, 0x40000000, 0]).Ready g
      [(Pos.dst (w 0) ((w 0).dstTy .f32)).withIx .plain, (Pos.src 1 (w 1) ((w 1).srcTy .f32)).withIx .plain,
        (Pos.src 2 (w 2) ((w 2).srcTy .f32)).withIx .plain, (Pos.src 3 (w 3) ((w 3).srcTy .f32)).withIx .plain] c
    ∧ Ty.fmt .f32 = some .f32
    ∧ Sound c (some ((Pos.dst (w 0) ((w 0).dstTy .f32)).withIx .plain)) .f32
      (fun j => [c.int .f32 j ((Pos.src 1 (w 1) ((w 1).srcTy .f32)).withIx .plain),
        c.int .f32 j ((Pos.src 2 (w 2) ((w 2).srcTy .f32)).withIx .plain),
        c.int .f32 j ((Pos.src 3 (w 3) ((w 3).srcTy .f32)).withIx .plain)])
    ∧ Silent c (some ((Pos.dst (w 0) ((w 0).dstTy .f32)).withIx .plain)) .f32
      (fun j l => Fmt.f32.add (Rnd.mode .fctl (c.th j).fctl) (Flush.on .fctl (c.th j).fctl) (l.getD 0 0) (l.getD 1 0))
      (fun j => [c.int .f32 j ((Pos.src 1 (w 1) ((w 1).srcTy .f32)).withIx .plain),
        c.int .f32 j ((Pos.src 2 (w 2) ((w 2).srcTy .f32)).withIx .plain)])
    ∧ Silent c (some ((Pos.dst (w 0) ((w 0).dstTy .f32)).withIx .plain)) .f32
      (fun j l => Fmt.f32.fma (Rnd.mode .fctl (c.th j).fctl) (Flush.on .fctl (c.th j).fctl) (l.getD 0 0) (l.getD 1 0) (l.getD 2 0))
      (fun j => [c.int .f32 j ((Pos.src 1 (w 1) ((w 1).srcTy .f32)).withIx .plain),
        c.int .f32 j ((Pos.src 2 (w 2) ((w 2).srcTy .f32)).withIx .plain),
        c.int .f32 j ((Pos.src 3 (w 3) ((w 3).srcTy .f32)).withIx .plain)]) :=
  ⟨_, ⟨rfl, by decide +kernel⟩, rfl, fun _ => by decide +kernel, by unfold Silent; decide +kernel, by unfold Silent; decide +kernel⟩

/-- FRCP of 2 and of the least subnormal; FSET and FCLS on the same source. -/
theorem witness_FloatOneSourceAndCompare : ∃ c, (rig [0, 0x40000000] [0, 1]).Ready g
      [Pos.dst (w 0) ((w 0).dstTy .f32), Pos.src 1 (w 1) ((w 1).srcTy .f32)] c
    ∧ c.ready (rig [0, 0x40000000] [0, 1]) [(Pos.src 1 (w 1) ((w 1).srcTy .f32)).withIx .plain] = true
    ∧ Sound c (some (Pos.dst (w 0) ((w 0).dstTy .f32))) .f32 (fun j => [c.int .f32 j (Pos.src 1 (w 1) ((w 1).srcTy .f32))])
    ∧ Sound c none .f32 (fun j => [c.int .f32 j (Pos.src 1 (w 1) ((w 1).srcTy .f32))])
    ∧ Silent c (some (Pos.dst (w 0) ((w 0).dstTy .f32))) .f32
      (fun j l => Fmt.f32.rcp (Rnd.mode .fctl (c.th j).fctl) (Flush.on .fctl (c.th j).fctl) (l.getD 0 0))
      (fun j => [c.int .f32 j (Pos.src 1 (w 1) ((w 1).srcTy .f32))])
    ∧ c.quiet none (fun _ => ⟨none, some (0#3, true), NV⟩) = true :=
  ⟨_, ⟨rfl, by decide +kernel⟩, by decide +kernel, fun _ => by decide +kernel, fun _ => by decide +kernel,
    by unfold Silent; decide +kernel, by decide +kernel⟩

/-- CVTI and FCVT of the least number of .i32 to FP32. -/
theorem witness_Conversions : (∃ c, (rig [0, 0x80000000] [0, 1]).Ready g
      [(Pos.dst (h 0) ((h 0).bits == Ty.bits .i16)).withIx .plain,
        (Pos.src 1 (w 1) (!(w 1).isReg || (w 1).bits == Ty.bits .i32)).withIx .plain] c)
    ∧ ∃ c, (rig [0, 0x80000000] [0, 1]).Ready g
        [(Pos.dst (w 0) ((w 0).dstTy .f32)).withIx .plain, (Pos.src 1 (w 1) (cvtSrc .i32 (w 1))).withIx .plain] c
      ∧ Sound c (some ((Pos.dst (w 0) ((w 0).dstTy .f32)).withIx .plain)) .i32
        (fun j => [c.int .i32 j ((Pos.src 1 (w 1) (cvtSrc .i32 (w 1))).withIx .plain)])
      ∧ ∀ e, c.quiet (some ((Pos.dst (w 0) ((w 0).dstTy .f32)).withIx .plain)) e = true := 
  ⟨ready_of (by decide +kernel), _, ⟨rfl, by decide +kernel⟩, sound_of (by decide), fun e => quiet_of e (by decide +kernel)⟩

/-- PACK of 16-bit elements and UNPK, integer and floating. -/
theorem witness_Packing : Ty.isIPack .i16x2 = true ∧ Ty.fmt .bf16x2 = some .bf16 ∧ Ty.isPacked .bf16x2 = true
    ∧ Ty.ebits .bf16x2 = 16 ∧ FMode.ofCode 0#5 = .ok FMode.zero
    ∧ (∃ c, (rig [0, 0x8000, 0x7FFF] [0, 0xFFFF8000, 1]).Ready g
        [(Pos.dst (w 0) (w 0).reg32).withIx .plain, (Pos.src 1 (w 1) (w 1).src32).withIx .plain,
          (Pos.src 2 (w 2) (w 2).src32).withIx .plain] c
      ∧ (∀ j ∈ c.runs (some ((Pos.dst (w 0) (w 0).reg32).withIx .plain)),
          isAbandoned (c.u32 j ((Pos.src 1 (w 1) (w 1).src32).withIx .plain)) = false
            ∧ isAbandoned (c.u32 j ((Pos.src 2 (w 2) (w 2).src32).withIx .plain)) = false)
      ∧ ∀ j ∈ c.runs (some ((Pos.dst (w 0) (w 0).reg32).withIx .plain)), enablesOf (c.th j).fctl = 0#5)
    ∧ ∃ c, (rig [0, 0x8000] [0, 0x7FFF]).Ready g
        [(Pos.dst (w 0) (w 0).reg32).withIx .plain, (Pos.src 1 (w 1) (w 1).reg32).withIx .plain] c :=
  ⟨by decide, rfl, by decide, by decide, rfl, ⟨_, ⟨rfl, by decide +kernel⟩, by decide +kernel, by decide +kernel⟩,
    ready_of (by decide +kernel)⟩

/-- VDOT on two BF16 elements and an FP32 sum; no trap is enabled. -/
theorem witness_DotProduct : Ty.fmt .bf16x2 = some .bf16 ∧ ∃ c,
    (rig [0, 0x3F803F80, 0x3F803F80, 0x3F800000] [0, 0x40003F80, 0x3F803F80, 0x7FC00001]).Ready g
      [(Pos.dst (w 0) ((w 0).dstFlt .f32)).withIx .plain, (Pos.src 1 (w 1) ((w 1).srcFlt .bf16x2)).withIx .plain,
        (Pos.src 2 (w 2) ((w 2).srcFlt .bf16x2)).withIx .plain, (Pos.src 3 (w 3) (w 3).src32).withIx .plain] c
    ∧ Sound c (some ((Pos.dst (w 0) ((w 0).dstFlt .f32)).withIx .plain)) .bf16x2 (fun _ => [])
    ∧ ∀ j ∈ c.runs (some ((Pos.dst (w 0) ((w 0).dstFlt .f32)).withIx .plain)), enablesOf (c.th j).fctl = 0#5 :=
  ⟨rfl, _, ⟨rfl, by decide +kernel⟩, sound_of (by decide), by decide +kernel⟩

/-- An abandoned value in thread 1's second source; an inexact sum with its trap enabled in thread 0; a divisor of 1. -/
theorem witness_FloatTrapsAndRounding :
    (∃ c, (rig [0, 0x3F800000, 0x3F800000] [0, 0x3F800000, 0x7FB00000]).Ready g
        [Pos.dst (w 0) ((w 0).dstTy .f32), Pos.src 1 (w 1) ((w 1).srcTy .f32), Pos.src 2 (w 2) ((w 2).srcTy .f32)] c
      ∧ (c.runs (some (Pos.dst (w 0) ((w 0).dstTy .f32)))).find? (fun j =>
          isAbandoned (c.int .f32 j (Pos.src 1 (w 1) ((w 1).srcTy .f32)))
            || isAbandoned (c.int .f32 j (Pos.src 2 (w 2) ((w 2).srcTy .f32)))) = some 1)
    ∧ (∃ c, (rig2 { thread [0, 0x3F800000, 0x33000000] with fctl := 0x100#32 } (thread [0, 0, 0])).Ready g
        [Pos.dst (w 0) ((w 0).dstTy .f32), Pos.src 1 (w 1) ((w 1).srcTy .f32), Pos.src 2 (w 2) ((w 2).srcTy .f32)] c
      ∧ ((c.runs (some (Pos.dst (w 0) ((w 0).dstTy .f32)))).find? (fun j =>
          isAbandoned (c.int .f32 j (Pos.src 1 (w 1) ((w 1).srcTy .f32)))
            || isAbandoned (c.int .f32 j (Pos.src 2 (w 2) ((w 2).srcTy .f32)))) = none)
      ∧ ∀ f ∈ [Fmt.f32.add, Fmt.f32.sub], (c.runs (some (Pos.dst (w 0) ((w 0).dstTy .f32)))).find? (fun j =>
          (f (Rnd.mode .fctl (c.th j).fctl) (Flush.on .fctl (c.th j).fctl) (c.int .f32 j (Pos.src 1 (w 1) ((w 1).srcTy .f32)))
            (c.int .f32 j (Pos.src 2 (w 2) ((w 2).srcTy .f32)))).2 &&& enablesOf (c.th j).fctl != 0#5) = some 0)
    ∧ (∃ c, (rig2 { thread [0, 0x3F800001, 0x3F800001] with fctl := 0x100#32 } (thread [0, 0, 0])).Ready g
        [Pos.dst (w 0) ((w 0).dstTy .f32), Pos.src 1 (w 1) ((w 1).srcTy .f32), Pos.src 2 (w 2) ((w 2).srcTy .f32)] c
      ∧ (c.runs (some (Pos.dst (w 0) ((w 0).dstTy .f32)))).find? (fun j =>
          (Fmt.f32.mul (Rnd.mode .fctl (c.th j).fctl) (Flush.on .fctl (c.th j).fctl)
            (c.int .f32 j (Pos.src 1 (w 1) ((w 1).srcTy .f32)))
            (c.int .f32 j (Pos.src 2 (w 2) ((w 2).srcTy .f32)))).2 &&& enablesOf (c.th j).fctl != 0#5) = some 0)
    ∧ 0 < 1 :=
  ⟨⟨_, ⟨rfl, by decide +kernel⟩, by decide +kernel⟩, ⟨_, ⟨rfl, by decide +kernel⟩, by decide +kernel, by decide +kernel⟩,
    ⟨_, ⟨rfl, by decide +kernel⟩, by decide +kernel⟩, by decide⟩

/-! ### Witnesses: the issue, control flow, traps -/

/-- What IssueChecks asks of a state before the kind that fails. -/
def checked (s : State) (ps : List Pos) (bad : List (Ctx → Pos → Thread → Bool)) (fails : Ctx → Pos → Thread → Bool) (i n : Nat) : Bool :=
  (s.ctx g).any (fun c => !c.waits ps && !s.uniWaits c ps
    && bad.all (fun b => c.on.all (fun j => !ps.any (fun p => b c p (c.th j))))
    && c.on.find? (fun j => ps.any (fun p => fails c p (c.th j))) == some i
    && (ps.find? (fun p => fails c p (c.th i))).map Pos.n == some n)

/-- A pending write of w1 in one of two threads. -/
def pend (i : Nat) : State :=
  let th : Thread := { thread [] with wins := [⟨4#32, 7, 0, sliceMask 8 8, sliceMask 8 8, 0#2048, false⟩] }
  if i = 0 then rig2 th (thread []) else rig2 (thread []) th

abbrev pw1 : Pos := Pos.src 1 (w 1) true

/-- A guard that never holds; a wrong operand kind at position 2; an index out of bounds; a slice beyond the allocation; an
invalid byte in thread 1; a slice in a window under the strict attribute; a pending write that no lookahead covers, of the first
thread and of the second. -/
theorem witness_IssueChecks :
    (Instr.hasWord (.nop never) = true ∧ ∃ c, (rig [] []).ctx (guardOf (.nop never)) = some c ∧ c.on = [])
    ∧ checked (rig [] []) [Pos.dst (w 0) true, Pos.src 2 (w 1) false] [] (fun _ p th => p.illopnd th) 0 2 = true
    ∧ checked (rig2 { thread [] with ix0 := 0x00400000#32 } (thread [])) [⟨1, w 1, some 0#2, true, true, false, BitVec.allOnes 32⟩]
      [fun _ p th => p.illopnd th] (fun _ p th => p.ixbound th) 0 1 = true
    ∧ checked (warped (rig [] []) (fun x => { x with alloc := 64 })) [Pos.dst (w 8) true]
      [fun _ p th => p.illopnd th, fun _ p th => p.ixbound th] (fun c p th => p.range c.warp.alloc th) 0 0 = true
    ∧ checked (rig2 (thread []) { thread [] with valid := 0#256 }) [Pos.src 1 (w 1) true]
      [fun _ p th => p.illopnd th, fun _ p th => p.ixbound th, fun c p th => p.range c.warp.alloc th] (fun _ p th => p.invreg th) 1 1 = true
    ∧ (∃ c, ((rig2 { thread [] with wins := [⟨4#32, 7, 2, sliceMask 8 8, 0#512, 0#2048, true⟩] } (thread [])).updLaunch 0
        (fun x => { x with strict := true })).ctx g = some c ∧ c.launch.strict = true
      ∧ (c.on.findSome? (fun j => [pw1].findSome? (fun p => if c.uses [pw1] p j then p.window? (c.th j) else none))).isSome = true)
    ∧ ∀ i ∈ [0, 1], ∃ c, (pend i).ctx g = some c ∧ i ∈ c.on ∧ c.uses [pw1] pw1 i = true ∧ pw1.slices ≠ 0
      ∧ (∃ x ∈ (c.th i).wins, x.landed = false ∧ x.left = 0 ∧ x.todo &&& sliceMask (pw1.start (c.th i)) pw1.slices ≠ 0#512)
      ∧ (maskThreads c.entry.mask).head? = some 0 ∧ (pend i).uniWaits c [pw1] = false ∧ ((c.th 0).wins = [] ↔ i = 1) := by
  refine ⟨⟨rfl, _, rfl, ?_⟩, ?_, ?_, ?_, ?_, ⟨_, rfl, ?_⟩, fun i hi => ?_⟩
  case refine_7 =>
    simp only [List.mem_cons, List.not_mem_nil, or_false] at hi
    rcases hi with rfl | rfl <;> exact ⟨_, rfl, by decide +kernel⟩
  all_goals decide +kernel

/-- A leaf of a warp. -/
def leaf (id : Nat) (mask : BitVec 32) (pc : Word) (parent : Option Nat) (isLeaf : Bool) : Entry :=
  ⟨id, isLeaf, mask, pc, parent, false, .none, 0, 0, false, false, none⟩

/-- A warp of two threads with these entries. -/
def split (es : List Entry) : Warp := { theWarp (rig [] []) with entries := es }

/-- A leaf that stands alone; one that arrives while another child is left; one that arrives as the last child. -/
theorem witness_LeavesAndThreads :
    ((split [leaf 1 3#32 0#32 none true]).entry? 1 = some (leaf 1 3#32 0#32 none true)
      ∧ (split [leaf 1 3#32 0#32 none true]).arrives (leaf 1 3#32 0#32 none true) 8#32 = false)
    ∧ (let x := split [leaf 1 3#32 8#32 none false, leaf 2 1#32 0#32 (some 1) true, leaf 3 2#32 0#32 (some 1) true]
      x.entry? 2 = some (leaf 2 1#32 0#32 (some 1) true) ∧ x.entry? 1 = some (leaf 1 3#32 8#32 none false)
        ∧ ∃ y ∈ x.entries.filter (fun e => e.id != 2), y.parent = some 1)
    ∧ (let x := split [leaf 1 3#32 8#32 none false, leaf 2 1#32 0#32 (some 1) true]
      x.entry? 2 = some (leaf 2 1#32 0#32 (some 1) true) ∧ x.entry? 1 = some (leaf 1 3#32 8#32 none false)
        ∧ (∀ y ∈ x.entries.filter (fun e => e.id != 2), y.parent ≠ some 1)
        ∧ 3#32 &&& (x.movedTo (leaf 2 1#32 0#32 (some 1) true) 8#32).liveMask ≠ 0#32
        ∧ x.arrives (leaf 1 3#32 8#32 none false) 8#32 = false)
    ∧ (∃ c, (rig [] []).Ready g [] c ∧ c.warp.handler = none ∧ (∀ e ∈ c.warp.entries, ∀ a b m, e.wait ≠ .trap a b m)
      ∧ c.team.state = .resident ∧ ((rig [] []).core c.team.die c.team.core).claims = []) :=
  ⟨by decide +kernel, by decide +kernel, by decide +kernel,
    ⟨_, ⟨rfl, by decide +kernel⟩, by decide +kernel,
      noTrap_of (by decide +kernel),
      by decide +kernel, by decide +kernel⟩⟩

/-- Guard p0, which holds in thread 0 alone. -/
def half : State := rig2 { thread [0x40] with preds := 1#7 } (thread [0x80])

/-- BRA taken by both threads and by one; BRX and RET to one target and to two; CALL, and CALL under a mixed guard. -/
theorem witness_Branches :
    (∃ c, (rig [] []).Ready g [] c ∧ c.entry.isLeaf = true ∧ maskOf c.on = c.entry.mask
      ∧ c.warp.arrives c.entry (c.entry.pc + 0xFFFFFFFC#32) = false)
    ∧ (∃ c, half.Ready ⟨false, 0#3⟩ [] c ∧ maskOf c.on ≠ c.entry.mask ∧ c.splits half = true ∧ (0x40#32 ≠ 0x10#32 ∨ 16#32 ≠ 0x10#32))
    ∧ (∃ c, (rig [0x40] [0x40]).Ready g [Pos.src 1 (w 0) (w 0).reg32] c
      ∧ (∀ j ∈ maskThreads c.entry.mask, (if j ∈ c.on then BitVec.ofNat 32 (c.u32 j (Pos.src 1 (w 0) (w 0).reg32)) else c.entry.pc + 16#32) = 0x40#32)
      ∧ maskThreads c.entry.mask ≠ [] ∧ c.warp.arrives c.entry 0x40#32 = false)
    ∧ (∃ c, half.Ready g [Pos.src 1 (w 0) (w 0).reg32] c ∧ c.splits half = true
      ∧ (maskThreads c.entry.mask).map (fun j => (BitVec.ofNat 32 (c.u32 j (Pos.src 1 (w 0) (w 0).reg32)))) = [0x40#32, 0x80#32]
      ∧ c.on = maskThreads c.entry.mask ∧ c.entry.isLeaf = true
      ∧ c.entry.pc ≠ c.entry.retJoin.getD (BitVec.ofNat 32 (c.u32 c.low (Pos.src 1 (w 0) (w 0).reg32))))
    ∧ (∃ c, (rig [] []).Ready g [Pos.dst (w 0) (w 0).reg32] c ∧ maskOf c.on = c.entry.mask
      ∧ c.warp.arrives c.entry (c.entry.pc + 0x100#32) = false)
    ∧ ∃ c, half.Ready ⟨false, 0#3⟩ [Pos.dst (w 0) (w 0).reg32] c ∧ maskOf c.on ≠ c.entry.mask :=
  ⟨⟨_, ⟨rfl, by decide +kernel⟩, by decide +kernel⟩, ⟨_, ⟨rfl, by decide +kernel⟩, by decide +kernel⟩,
    ⟨_, ⟨rfl, by decide +kernel⟩, by decide +kernel⟩, ⟨_, ⟨rfl, by decide +kernel⟩, by decide +kernel⟩,
    ⟨_, ⟨rfl, by decide +kernel⟩, by decide +kernel⟩, ⟨_, ⟨rfl, by decide +kernel⟩, by decide +kernel⟩⟩

/-- A warp in handler mode whose leaf is the handler's, after this trap, and another leaf that it holds. -/
def handling (k : BitVec 8) : State :=
  warped (rig [] []) (fun x => { x with
    handler := some k
    tepc := 0x20#32
    tmask := 1#32
    tlen := 8
    entries := [{ leaf 1 1#32 0#32 none true with handler := true }, leaf 2 2#32 0x40#32 none true] })

/-- A trap with nothing before it; an escalation from the handler, and of a warp without a vector. -/
theorem witness_TrapEntry :
    (∃ c v, (rig [5] [6]).Handled c v ∧ (rig [5] [6]).Ready g [Pos.src 1 (w 0) (w 0).src32] c ∧ (rig [5] [6]).Ready g [] c)
    ∧ (∃ c, ((handling 0x17#8).setDieWord 0 0x394 1#64).Ready g [Pos.src 1 (imm 3) (imm 3).src32] c
      ∧ ((handling 0x17#8).setDieWord 0 0x394 1#64).warpPending c.ref.team c.ref.warp = false
      ∧ ((handling 0x17#8).setDieWord 0 0x394 1#64).ringOn c.team.die 1 = true
      ∧ c.warp.handler ≠ none ∧ c.entry.handler = true ∧ c.team.escalated = false ∧ c.team.die < 9 ∧ c.team.core < 18 ∧ c.warp.lane < 64
      ∧ c.warp.index < 1024 ∧ c.team.num < 2 ^ 32)
    ∧ ∃ c, (((rig [] []).setDieWord 0 0x394 1#64).updLaunch 0 (fun x => { x with rfolio := 0 })).Ready g [Pos.src 1 (imm 3) (imm 3).src32] c
      ∧ c.warp.handler = none ∧ c.team.escalated = false ∧ (((rig [] []).setDieWord 0 0x394 1#64).updLaunch 0 (fun x => { x with rfolio := 0 })).vector c.team.launch = none :=
  ⟨⟨_, 0#32, by unfold State.Handled; decide +kernel, ⟨rfl, by decide +kernel⟩, ⟨rfl, by decide +kernel⟩⟩,
    ⟨_, ⟨rfl, by decide +kernel⟩, by decide +kernel⟩, ⟨_, ⟨rfl, by decide +kernel⟩, by decide +kernel⟩⟩

/-- A handler that returns, after a CANCEL and after a SYSC. -/
theorem witness_TrapReturn : ∀ k ∈ [0x1D#8, 0x17#8], ∃ c, (handling k).Ready g [] c ∧ c.warp.handler = some k
    ∧ (handling k).warpPending c.ref.team c.ref.warp = false ∧ (∀ e ∈ c.warp.entries, e.wait = .none) ∧ c.warp.postedCancel = false
    ∧ ((handling k).core c.team.die c.team.core).claims = [] ∧ c.warp.tmask &&& c.warp.liveMask ≠ 0#32
    ∧ ∃ r ∈ c.warp.entries, r.handler = true ∧ (c.warp.entries.map Entry.id).Nodup
      ∧ (∀ e ∈ c.warp.entries, e.handler = true → e.id ≠ r.id → ∃ j ∈ c.warp.entries, e.parent = some j.id ∧ j.handler = true)
      ∧ ∀ j ∈ c.warp.entries, r.parent = some j.id → j.handler = false ∧ j.pc ≠ c.warp.tepc + BitVec.ofNat 32 c.warp.tlen := by
  intro k hk
  simp only [List.mem_cons, List.not_mem_nil, or_false] at hk
  rcases hk with rfl | rfl <;> exact ⟨_, ⟨rfl, by decide +kernel⟩, by decide +kernel⟩

/-! ### Witnesses: capabilities, pools, special registers -/

/-- A thread with these registers in w0 to w3 and a tagged capability in c1. -/
def capThread (x : Cap) (rs : List Nat) : Thread :=
  { thread ((rs ++ [0, 0, 0, 0]).take 4 ++ (List.range 4).map (fun i => x.bits / 2 ^ (32 * i) % 2 ^ 32)) with tags := 2#16 }

/-- A capability over 4 KiB of the placed page. -/
def cap (perm otype : Nat) : Cap := ⟨0x1000, 0x1000, 0, perm, otype⟩

/-- Two threads with the same capability in c1. -/
def capRig (x : Cap) (rs rt : List Nat) : State := rig2 (capThread x rs) (capThread x rt)

/-- CAPN over the whole capability, beyond it by a byte, untagged, sealed; CAPS with the least user type, untagged, without SEAL;
CAPQ. -/
theorem witness_Capabilities :
    (∃ c, (capRig (cap 31 0) [] []).Ready g [Pos.dst (q 2) true, Pos.src 1 (q 1) true, Pos.src 2 (imm 0) (capnSrc (imm 0)), Pos.src 3 (d 1) (capnSrc (d 1))] c)
    ∧ (∃ c, (capRig (cap 31 0) [0, 0, 0x1000, 0] [0, 0, 0x1001, 0]).Ready g
        [Pos.dst (q 2) true, Pos.src 1 (q 1) true, Pos.src 2 (d 0) (capnSrc (d 0)), Pos.src 3 (d 1) (capnSrc (d 1))] c
      ∧ c.on = [0, 1] ∧ (∀ i ∈ c.on, c.capTag i (Pos.src 1 (q 1) true) = true ∧ (c.cap i (Pos.src 1 (q 1) true)).otype = 0)
      ∧ c.u64 0 (Pos.src 2 (d 0) true) + c.u64 0 (Pos.src 3 (d 1) true) = (c.cap 0 (Pos.src 1 (q 1) true)).len
      ∧ (c.cap 1 (Pos.src 1 (q 1) true)).len < c.u64 1 (Pos.src 2 (d 0) true) + c.u64 1 (Pos.src 3 (d 1) true))
    ∧ (∃ c, (rig [] []).Ready g [Pos.dst (q 2) true, Pos.src 1 (q 1) true, Pos.src 2 (d 0) (capnSrc (d 0)), Pos.src 3 (d 1) (capnSrc (d 1))] c
      ∧ 0 ∈ c.on ∧ c.capTag 0 (Pos.src 1 (q 1) true) = false)
    ∧ (∃ c, (capRig (cap 31 0x100) [] []).Ready g
        [Pos.dst (q 2) true, Pos.src 1 (q 1) true, Pos.src 2 (d 0) (capnSrc (d 0)), Pos.src 3 (d 1) (capnSrc (d 1))] c
      ∧ 0 ∈ c.on ∧ (c.cap 0 (Pos.src 1 (q 1) true)).otype ≠ 0)
    ∧ (∃ c, (capRig (cap 16 0) [0x100] [0xFFFF]).Ready g [Pos.dst (q 2) true, Pos.src 1 (q 1) true, Pos.src 2 (w 0) (w 0).src32] c
      ∧ ∀ i ∈ c.on, c.capTag i (Pos.src 1 (q 1) true) = true ∧ (c.cap i (Pos.src 1 (q 1) true)).otype = 0
        ∧ (c.cap i (Pos.src 1 (q 1) true)).perm.testBit 4 = true ∧ 0x100 ≤ c.u32 i (Pos.src 2 (w 0) (w 0).src32)
        ∧ c.u32 i (Pos.src 2 (w 0) (w 0).src32) ≤ 0xFFFF)
    ∧ (∃ c, (capRig (cap 15 0) [0x100] [0x100]).Ready g [Pos.dst (q 2) true, Pos.src 1 (q 1) true, Pos.src 2 (w 0) (w 0).src32] c
      ∧ c.capTag 0 (Pos.src 1 (q 1) true) = true ∧ (c.cap 0 (Pos.src 1 (q 1) true)).perm.testBit 4 = false)
    ∧ ∃ c, (capRig (cap 31 0) [] []).Ready g [Pos.dst (d 0) true, Pos.src 1 (q 1) true] c :=
  ⟨ready_of (by decide +kernel), ⟨_, ⟨rfl, by decide +kernel⟩, by decide +kernel⟩, ⟨_, ⟨rfl, by decide +kernel⟩, by decide +kernel⟩,
    ⟨_, ⟨rfl, by decide +kernel⟩, by decide +kernel⟩, ⟨_, ⟨rfl, by decide +kernel⟩, by decide +kernel⟩,
    ⟨_, ⟨rfl, by decide +kernel⟩, by decide +kernel⟩, ready_of (by decide +kernel)⟩

/-- A warp with 64 slices and an allowance of 8. -/
def pooled : State := warped (rig [] []) (fun x => { x with alloc := 64, allowance := 8, promise := 8, region := some (BitVec.allOnes 512) })

/-- GIVE and CLAIM of 8 slices, GIVE of all but 8; RGN. -/
theorem witness_LanePool :
    (∀ n ∈ [8, 56], ∃ c, pooled.Ready g [Pos.src 1 (imm n) (imm n).isUniImm] c ∧ c.signed c.low (Pos.src 1 (imm n) (imm n).isUniImm) = (n : Int)
      ∧ n % 8 = 0 ∧ c.entry.mask = c.warp.liveMask ∧ Tbl.get (pooled.core c.team.die c.team.core).claims c.warp.lane [] = []
      ∧ c.warp.alloc % 8 = 0 ∧ c.warp.alloc ≤ 512 ∧ c.entry.isLeaf = true
      ∧ c.warp.arrives c.entry (c.entry.pc + 8#32) = false ∧ n + 8 ≤ c.warp.alloc
      ∧ c.warp.pendingSlices (c.warp.alloc - n) c.warp.alloc = false)
    ∧ (∃ c, pooled.Ready g [Pos.src 1 (imm 8) (imm 8).isUniImm] c ∧ 8 ≤ c.warp.allowance ∧ c.warp.alloc + 8 ≤ 512 ∧ 0 < c.warp.count
      ∧ 8 * c.warp.count + Tbl.get (pooled.core c.team.die c.team.core).charged c.warp.lane 0 ≤ 98304
      ∧ c.warp.pendingSlices c.warp.alloc (c.warp.alloc + 8) = false)
    ∧ ∃ c, (rig [] []).Ready g ((([0, 1, 2, 3] : List Nat).zip [w 63, d 0, q 2, .reg .w4 0#9]).map (fun p => ⟨p.1, p.2, none, p.2.isReg, false, false, BitVec.allOnes 32⟩)) c := by
  refine ⟨?_, ⟨_, ⟨rfl, by decide +kernel⟩, by decide +kernel⟩, ready_of (by decide +kernel)⟩
  intro n hn
  simp only [List.mem_cons, List.not_mem_nil, or_false] at hn
  rcases hn with rfl | rfl <;> exact ⟨_, ⟨rfl, by decide +kernel⟩, by decide +kernel⟩

/-- The state with a drain to registers that its threads' flags wait for. -/
def draining (s : State) : State :=
  s.updCore 0 0 (fun k => { k with insts := [⟨4, 0, 0, 0#16, .mdrn .reg .f32 false ⟨0#16, 0#5, 0xFF#8, 0#6, false, 0#16, 31#5⟩ (.data []), 1,
    [⟨0, 0, [], [], 3#32, []⟩], 0#32, none, none⟩] })

/-- SRD of the first and last numbers of each range, an unassigned one; SWR in and out of handler mode. -/
theorem witness_SpecialRegisters :
    (∃ c, (rig [] []).Ready g [Pos.dst (d 0) (d 0).src3264] c)
    ∧ 0x1C ∉ [0, 1, 2, 3, 4, 5, 6, 7, 8, 9, 0xA, 0xB, 0xC, 0xD, 0x10, 0x11, 0x18, 0x19, 0x1A, 0x1B]
    ∧ (9 ≤ (9#4).toNat ∧ 9#4 ≠ 15#4) ∧ (8#4).toNat < 9 ∧ 0x100 ≤ 0x108 ∧ 0x50 < 0x60 ∧ 0x4000 + 16382 < 0x4000 + 16383
    ∧ (∃ c, (rig [5] [6]).Ready g [Pos.src 1 (w 0) (w 0).src3264] c ∧ c.warp.handler = none ∧ ∀ i ∈ c.on, (rig [5] [6]).flagsPending c i = false)
    ∧ (∃ c, (draining (rig [5] [6])).Ready g [Pos.src 1 (w 0) (w 0).src3264] c ∧ (draining (rig [5] [6])).Ready g [Pos.dst (d 0) (d 0).src3264] c
      ∧ ∃ i ∈ c.on, (draining (rig [5] [6])).flagsPending c i = true)
    ∧ ∃ c, (handling 0x17#8).Ready g [Pos.src 1 (w 0) (w 0).src3264] c ∧ c.warp.handler ≠ none ∧ c.on = [0]
      ∧ ((handling 0x17#8).readPackageWord 0x20).isSome = true ∧ isMailbox 0x50 = true ∧ ((handling 0x17#8).readPackageWord 0x6F0000).isNone = true
      ∧ ((handling 0x17#8).readDieWord 0 0x200).isSome = true ∧ ((handling 0x17#8).readDieWord 0 0x8000).isNone = true := by
  refine ⟨ready_of ?_, ?_, ?_, ?_, ?_, ?_, ?_, ⟨_, ⟨rfl, ?_⟩, ?_⟩, ⟨_, ⟨rfl, ?_⟩, ⟨rfl, ?_⟩, ?_⟩, ⟨_, ⟨rfl, ?_⟩, ?_⟩⟩ <;> decide +kernel

/-! ### Witnesses: memory -/

/-- A team with 4 KiB of local store. -/
def stored (s : State) : State := s.updTeam 0 (fun t => { t with lstore := 4096 })

/-- A test of accesses to the issuing team's local store. -/
theorem locals_of {s : State} {c : Ctx} {is : List Nat} {v : Nat → Nat} {n : Nat}
    (h : is.all (fun i => match s.team? c.ref.team with
      | some y => decide (v i % 2 ^ 19 + n ≤ y.lstore) && decide (v i < 2 ^ 19)
      | none => false) = true) : ∀ i ∈ is, s.Local c (v i) n c.ref.team := by
  intro i hi
  have h := List.all_eq_true.mp h i hi
  split at h
  · rename_i y e
    obtain ⟨a, b⟩ := Bool.and_eq_true_iff.mp h
    exact ⟨y, e, of_decide_eq_true a, .inl ⟨of_decide_eq_true b, rfl⟩⟩
  · cases h

/-- LDS and STS at the last word; a misaligned 128-bit access; an offset beyond the convoy window. -/
theorem witness_LocalStore :
    (∃ c, (stored (rig [4092] [0])).Ready g [Pos.dst (w 1) (loadOk .b32 (w 1)), Pos.src 2 (w 0) (w 0).src32] c
      ∧ (stored (rig [4092] [0])).Ready g [⟨0, w 1, none, storeOk .b32 (w 1), true, false, BitVec.allOnes 32⟩, Pos.src 2 (w 0) (w 0).src32] c
      ∧ ∀ i ∈ c.on, (stored (rig [4092] [0])).Local c (c.u32 i (Pos.src 2 (w 0) (w 0).src32)) 4 0)
    ∧ (∃ c, (stored (rig [8] [0])).Ready g [Pos.dst (q 1) (loadOk .none (q 1)), Pos.src 2 (w 0) (w 0).src32] c
      ∧ (stored (rig [8] [0])).Ready g [⟨0, q 1, none, storeOk .none (q 1), true, false, BitVec.allOnes 32⟩, Pos.src 2 (w 0) (w 0).src32] c
      ∧ c.on.find? (fun i => c.u32 i (Pos.src 2 (w 0) (w 0).src32) % 16 != 0) = some 0)
    ∧ ∃ c, (stored (rig [0x2000000] [0])).Ready g [Pos.dst (w 1) (loadOk .b32 (w 1)), Pos.src 2 (w 0) (w 0).src32] c
      ∧ (stored (rig [0x2000000] [0])).Ready g [⟨0, w 1, none, storeOk .b32 (w 1), true, false, BitVec.allOnes 32⟩, Pos.src 2 (w 0) (w 0).src32] c
      ∧ ∃ i ∈ c.on, 2 ^ 25 ≤ c.u32 i (Pos.src 2 (w 0) (w 0).src32) := by
  exact ⟨⟨_, ⟨rfl, by decide +kernel⟩, ⟨rfl, by decide +kernel⟩, locals_of (by decide +kernel)⟩,
    ⟨_, ⟨rfl, by decide +kernel⟩, ⟨rfl, by decide +kernel⟩, by decide +kernel⟩,
    ⟨_, ⟨rfl, by decide +kernel⟩, ⟨rfl, by decide +kernel⟩, 0, by decide +kernel, by decide +kernel⟩⟩

/-- The physical bytes of a thread's access. -/
def bytesOf (s : State) (c : Ctx) (va : Nat → Int) (n : Nat) (need : Need) (i : Nat) : List Nat :=
  match s.cells c.team.die c.team.core c.launch.asid (va i).toNat n need c.launch.secure with
  | .ok ps _ => ps
  | _ => []

/-- Their lines. -/
def linesOf (s : State) (c : Ctx) (va : Nat → Int) (n : Nat) (need : Need) (i : Nat) : List LineAt :=
  match s.cells c.team.die c.team.core c.launch.asid (va i).toNat n need c.launch.secure with
  | .ok _ ls => ls
  | _ => []

/-- A test that these threads' accesses pass. -/
def passing (s : State) (c : Ctx) (is : List Nat) (p : Pos) (va : Nat → Int) (n : Nat) (perm : Nat → Nat) (aligned : Bool) (need : Need) : Bool :=
  is.all (fun i => (!aligned || va i % n == 0) && c.capTag i p && (c.cap i p).otype == 0 && (c.cap i p).perm &&& perm i == perm i
    && decide (((c.cap i p).base : Int) ≤ va i)
    && decide (va i + n ≤ (((c.cap i p).base + (c.cap i p).len * (if (c.cap i p).fmt = 1 then 65536 else 1) : Nat) : Int))
    && decide (va i + n ≤ ((2 ^ 56 : Nat) : Int))
    && match s.cells c.team.die c.team.core c.launch.asid (va i).toNat n need c.launch.secure with | .ok _ _ => true | _ => false)

theorem passes_of {s : State} {c : Ctx} {is : List Nat} {p : Pos} {va : Nat → Int} {n : Nat} {perm : Nat → Nat} {aligned : Bool} {need : Need}
    (h : passing s c is p va n perm aligned need = true) :
    ∀ i ∈ is, Passes s c i p (va i) n (perm i) aligned need (bytesOf s c va n need i) (linesOf s c va n need i) := by
  intro i hi
  have h := List.all_eq_true.mp h i hi
  simp only [Bool.and_eq_true, decide_eq_true_eq, beq_iff_eq, Bool.or_eq_true, Bool.not_eq_true'] at h
  obtain ⟨⟨⟨⟨⟨⟨⟨h1, h2⟩, h3⟩, h4⟩, h5⟩, h6⟩, h7⟩, h8⟩ := h
  refine ⟨fun a => h1.resolve_left (by simp [a]), h2, h3, h4, h5, h6, h7, ?_⟩
  unfold bytesOf linesOf
  split at h8
  · rename_i e; rw [e]
  · cases h8

/-- LD of the capability's first word and its last, of a nibble, and with an immediate offset. -/
theorem witness_LoadsIssue :
    (∃ c, ∃ (pas : Nat → List Nat) (lines : Nat → List LineAt), (capRig (cap 31 0) [0, 0] [4092, 0]).Ready g
        [Pos.dst (w 2) (loadOk .n32 (w 2)), Pos.src 1 (q 1) true, Pos.src 2 (d 0) (d 0).src3264] c
      ∧ (∀ i ∈ c.runs (some (Pos.dst (w 2) (loadOk .n32 (w 2)))), Passes (capRig (cap 31 0) [0, 0] [4092, 0]) c i (Pos.src 1 (q 1) true)
          (((c.cap i (Pos.src 1 (q 1) true)).base : Int) + c.signed i (Pos.src 2 (d 0) (d 0).src3264)) 4 1 false ⟨true, false, false⟩ (pas i) (lines i))
      ∧ ((capRig (cap 31 0) [0, 0] [4092, 0]).core c.team.die c.team.core).gathers = []
      ∧ ((capRig (cap 31 0) [0, 0] [4092, 0]).core c.team.die c.team.core).quay.length ≤ 248)
    ∧ ∃ c, ∃ (pas : Nat → List Nat) (lines : Nat → List LineAt), (capRig (cap 31 0) [0, 0] [0, 0]).Ready g [Pos.dst (q 2) (loadOk .none (q 2)), Pos.src 1 (q 1) true] c
      ∧ (∀ i ∈ c.runs (some (Pos.dst (q 2) (loadOk .none (q 2)))), Passes (capRig (cap 31 0) [0, 0] [0, 0]) c i (Pos.src 1 (q 1) true)
          (((c.cap i (Pos.src 1 (q 1) true)).base : Int) + (0xFF0#32).toInt) 16 1 true ⟨true, false, false⟩ (pas i) (lines i))
      ∧ ((capRig (cap 31 0) [0, 0] [0, 0]).core c.team.die c.team.core).gathers = []
      ∧ ((capRig (cap 31 0) [0, 0] [0, 0]).core c.team.die c.team.core).quay.length ≤ 248 :=
  ⟨⟨_, _, _, ⟨rfl, by decide +kernel⟩, passes_of (by decide +kernel), by decide +kernel⟩,
    ⟨_, _, _, ⟨rfl, by decide +kernel⟩, passes_of (by decide +kernel), by decide +kernel⟩⟩

/-- ST of a tagged 128-bit register at the capability's last granule; of a word in two threads. -/
theorem witness_StoresIssue :
    (∃ c, ∃ (pas : Nat → List Nat) (lines : Nat → List LineAt), (capRig (cap 31 0) [0, 0] [0, 0]).Ready g
        [⟨0, q 1, none, storeOk .none (q 1), true, false, BitVec.allOnes 32⟩, Pos.src 1 (q 1) true] c
      ∧ (∀ i ∈ c.on, Passes (capRig (cap 31 0) [0, 0] [0, 0]) c i (Pos.src 1 (q 1) true)
          (((c.cap i (Pos.src 1 (q 1) true)).base : Int) + (0xFF0#32).toInt) 16
          (if (16 * 8 == 128 && (q 1).isReg && c.capTag i ⟨0, q 1, none, storeOk .none (q 1), true, false, BitVec.allOnes 32⟩) then 10 else 2) true ⟨false, true, false⟩ (pas i) (lines i))
      ∧ ((capRig (cap 31 0) [0, 0] [0, 0]).core c.team.die c.team.core).gathers = []
      ∧ ((capRig (cap 31 0) [0, 0] [0, 0]).core c.team.die c.team.core).quay.length + (c.on.flatMap lines).length ≤ 256)
    ∧ ∃ c, ∃ (pas : Nat → List Nat) (lines : Nat → List LineAt), (capRig (cap 2 0) [0, 0] [4092, 0]).Ready g
        [⟨0, w 0, none, storeOk .n32 (w 0), true, false, BitVec.allOnes 32⟩, Pos.src 1 (q 1) true, Pos.src 2 (d 0) (d 0).src3264] c
      ∧ (∀ i ∈ c.on, Passes (capRig (cap 2 0) [0, 0] [4092, 0]) c i (Pos.src 1 (q 1) true)
          (((c.cap i (Pos.src 1 (q 1) true)).base : Int) + c.signed i (Pos.src 2 (d 0) (d 0).src3264)) 4 2 false ⟨false, true, false⟩ (pas i) (lines i))
      ∧ ((capRig (cap 2 0) [0, 0] [4092, 0]).core c.team.die c.team.core).gathers = []
      ∧ ((capRig (cap 2 0) [0, 0] [4092, 0]).core c.team.die c.team.core).quay.length + (c.on.flatMap lines).length ≤ 256 :=
  ⟨⟨_, _, _, ⟨rfl, by decide +kernel⟩, passes_of (by decide +kernel), by decide +kernel⟩,
    ⟨_, _, _, ⟨rfl, by decide +kernel⟩, passes_of (by decide +kernel), by decide +kernel⟩⟩

/-- ATOM and CAS of a word at the capability's end; RED of two threads on one word; PREF. -/
theorem witness_AtomicsIssue :
    8 ≤ Ty.bits .i32
    ∧ (∃ c, ∃ (pas : Nat → List Nat) (lines : Nat → List LineAt), (capRig (cap 3 0) [4092, 0] [4092, 0]).Ready g
        [(Pos.dst (w 8) ((w 8).bits == Ty.bits .i32)).withIx .plain, Pos.src 1 (q 1) true, (Pos.src 2 (d 0) (d 0).src3264).withIx .plain,
          (Pos.src 3 (w 2) (atomSrc .i32 (w 2))).withIx .plain] c
      ∧ ((capRig (cap 3 0) [4092, 0] [4092, 0]).core c.team.die c.team.core).gathers = []
      ∧ (∀ i ∈ c.runs (some ((Pos.dst (w 8) ((w 8).bits == Ty.bits .i32)).withIx .plain)), Passes (capRig (cap 3 0) [4092, 0] [4092, 0]) c i
          (Pos.src 1 (q 1) true) (((c.cap i (Pos.src 1 (q 1) true)).base : Int) + c.signed i ((Pos.src 2 (d 0) (d 0).src3264).withIx .plain))
          4 3 true ⟨true, true, false⟩ (pas i) (lines i)))
    ∧ (∃ c, ∃ (pas : Nat → List Nat) (lines : Nat → List LineAt), (capRig (cap 3 0) [4092, 0] [0, 0]).Ready g
        [Pos.both 0 (w 2) ((w 2).isReg && (w 2).bits == Ty.bits .f32), Pos.src 1 (q 1) true, Pos.src 2 (d 0) (d 0).src3264,
          Pos.src 3 (w 3) true] c
      ∧ ((capRig (cap 3 0) [4092, 0] [0, 0]).core c.team.die c.team.core).gathers = []
      ∧ (∀ i ∈ c.on, isAbandoned (c.raw i (Pos.both 0 (w 2) ((w 2).isReg && (w 2).bits == Ty.bits .f32))) = false
        ∧ isAbandoned (c.raw i (Pos.src 3 (w 3) true)) = false)
      ∧ (∀ i ∈ c.on, Passes (capRig (cap 3 0) [4092, 0] [0, 0]) c i
          (Pos.src 1 (q 1) true) (((c.cap i (Pos.src 1 (q 1) true)).base : Int) + c.signed i (Pos.src 2 (d 0) (d 0).src3264))
          4 3 true ⟨true, true, false⟩ (pas i) (lines i)))
    ∧ (∃ c, (capRig (cap 3 0) [4092, 0] [4092, 0]).Ready g
        [Pos.src 1 (q 1) true, (Pos.src 2 (d 0) (d 0).src3264).withIx .plain, (Pos.src 3 (w 2) (atomSrc .i32 (w 2))).withIx .plain] c
      ∧ ∀ i ∈ c.on, let va := ((c.cap i (Pos.src 1 (q 1) true)).base : Int) + c.signed i ((Pos.src 2 (d 0) (d 0).src3264).withIx .plain)
        c.capTag i (Pos.src 1 (q 1) true) = true ∧ (c.cap i (Pos.src 1 (q 1) true)).otype = 0 ∧ (c.cap i (Pos.src 1 (q 1) true)).perm &&& 3 = 3
        ∧ va % 4 = 0 ∧ ((c.cap i (Pos.src 1 (q 1) true)).base : Int) ≤ va
        ∧ va + 4 ≤ ((c.cap i (Pos.src 1 (q 1) true)).base + (c.cap i (Pos.src 1 (q 1) true)).length : Nat) ∧ va + 4 ≤ (2 ^ 56 : Nat))
    ∧ ∃ c, (capRig (cap 3 0) [] []).Ready g [Pos.src 1 (q 1) true, Pos.src 2 (d 0) (d 0).src3264] c :=
  ⟨by decide,
    ⟨_, _, _, ⟨rfl, by decide +kernel⟩, by decide +kernel, passes_of (by decide +kernel)⟩,
    ⟨_, _, _, ⟨rfl, by decide +kernel⟩, by decide +kernel, by decide +kernel, passes_of (by decide +kernel)⟩,
    ⟨_, ⟨rfl, by decide +kernel⟩, by decide +kernel⟩, ready_of (by decide +kernel)⟩

/-- The line of address 0x1000. -/
def line32 : LineAt := ⟨32, 0, 3, 0, 0x1000⟩

/-- The state with core 0 of die 0 changed. -/
def cored (s : State) (f : Core → Core) : State := s.updCore 0 0 f

/-- A load's entry and a store's entry of the Quay. -/
def loadEntry (id : Nat) (sent : Bool) : QuayEntry := ⟨id, false, line32, sent, false, [(5, 1#32)], [], []⟩
def storeEntry (id : Nat) : QuayEntry := ⟨id, true, line32, false, false, [], [⟨0x1000, 0xAA#8, none, ⟨0, 0, 0⟩, 7⟩], []⟩

/-- One thread of a word load, with bytes of the line below too or not. -/
def loading (low : Bool) : LoadThread := ⟨0, 8, [(if low then 0xFFF else 0x1000, none), (0x1001, none), (0x1002, none), (0x1003, none)], none, false, false, false⟩

/-- A load whose line returns or that the gather unit reads. -/
def loadRig (x : LoadThread) (gather : Bool) : State :=
  cored (rig2 { thread [] with wins := [⟨0#32, 5, 0, sliceMask 8 8, sliceMask 8 8, 0#2048, false⟩] } (thread [])) (fun k => { k with
    quay := if gather then [] else [loadEntry 6 true]
    gathers := if gather then [⟨6, some 5, [line32], [], []⟩] else []
    loads := [⟨5, 0, 0, ⟨.n32, 32, 32⟩, none, [x]⟩] })

/-- A load entry and a store entry sent; the last and the first line of a scatter; a load that has all its bytes, and one that
waits on, both ways. -/
theorem witness_LoadsReturn :
    (∀ e ∈ [loadEntry 6 false, storeEntry 6], ∃ s : State,
      (s.core 0 0).quay.find? (fun y => y.id == 6 && !y.sent) = some e
        ∧ (e.store = true ∨ ∀ o ∈ (s.core 0 0).quay, o.store = true → o.at_.line = e.at_.line → e.id ≤ o.id))
    ∧ (∀ rest ∈ [[], [line32]], ∃ s : State, ∃ x more, (s.core 0 0).gathers = x :: more ∧ x.lines = line32 :: rest ∧ x.load = none
      ∧ s.linked 0 (homeOf (line32.line * 128)) = true)
    ∧ ∀ low ∈ [true, false], ∀ gather ∈ [true, false],
      (let s := loadRig (loading low) gather;
       if gather then (s.core 0 0).gathers = [⟨6, some 5, [line32], [], []⟩] ∧ s.mayFill 0 0 [(5, BitVec.allOnes 32)] 32 = true
       else (s.core 0 0).quay.find? (fun y => y.id == 6 && y.sent) = some (loadEntry 6 true) ∧ ((s.core 0 0).line? 32).isNone = true
        ∧ (loadEntry 6 true).ops = [(5, 1#32)] ∧ (1#32).getLsbD (loading low).thread = true
        ∧ s.mayFill 0 0 (loadEntry 6 true).ops 32 = true)
      ∧ ((loadRig (loading low) gather).core 0 0).loads = [⟨5, 0, 0, ⟨.n32, 32, 32⟩, none, [loading low]⟩]
      ∧ (∃ w, (loadRig (loading low) gather).warp? 0 0 = some w ∧ (∀ y ∈ w.entries, y.wait = .none) ∧ 0 < w.threads.length
        ∧ (w.thread 0).wins = [⟨0#32, 5, 0, sliceMask 8 8, sliceMask 8 8, 0#2048, false⟩])
      ∧ ((loading low).cells.all (fun p => p.1 / 128 == 32) = !low) := by
  refine ⟨fun e he => ?_, fun rest hr => ?_, fun low hl gather hg => ?_⟩
  · simp only [List.mem_cons, List.not_mem_nil, or_false] at he
    rcases he with rfl | rfl
    · exact ⟨cored (rig [] []) (fun k => { k with quay := [loadEntry 6 false] }), by decide +kernel, .inr (by decide +kernel)⟩
    · exact ⟨cored (rig [] []) (fun k => { k with quay := [storeEntry 6] }), by decide +kernel, .inl rfl⟩
  · exact ⟨cored (rig [] []) (fun k => { k with gathers := [⟨6, none, line32 :: rest, [], []⟩] }), ⟨6, none, line32 :: rest, [], []⟩, [],
      rfl, rfl, rfl, by
        simp only [List.mem_cons, List.not_mem_nil, or_false] at hr
        rcases hr with rfl | rfl <;> decide +kernel⟩
  · simp only [List.mem_cons, List.not_mem_nil, or_false] at hl hg
    rcases hl with rfl | rfl <;> rcases hg with rfl | rfl <;>
      exact ⟨by decide +kernel, by decide +kernel, ⟨_, rfl, by and_intros <;> decide +kernel⟩, by decide +kernel⟩

theorem untrapped_of {es : List Entry} (h : es.all (fun e => match e.wait with | .trap _ _ _ => false | _ => true) = true) :
    ∀ e ∈ es, ∀ a b m, e.wait ≠ .trap a b m := by
  intro e he a b m x
  have h := List.all_eq_true.mp h e he
  rw [x] at h
  cases h

/-- A test of bytes that stand in different cells. -/
theorem apart_of {s : State} {pa n : Nat} (h : (List.range n).all (fun j => match s.cell? (pa + j) with
      | some x => (List.range n).all (fun k => s.cell? (pa + k) != some x || k == j)
      | none => false) = true) : s.Apart pa n := by
  intro j hj
  have h := List.all_eq_true.mp h j (List.mem_range.mpr hj)
  split at h
  · rename_i x e
    refine ⟨x, e, fun k hk ek => ?_⟩
    have := List.all_eq_true.mp h k (List.mem_range.mpr hk)
    simpa [ek] using this
  · cases h

/-- An atomic of thread 0 on the word at 0x1000 that holds this value. -/
def atomic (kind : AtomKind) (ty : Ty) (blocks : Bool) (x : AtomThread) : State :=
  { (warped (rig [] []) (fun y => if blocks then { y with entries := y.entries.map (fun e => { e with wait := .atomic 5 }) } else
      { y with threads := [{ thread [] with wins := [⟨0#32, 5, 0, sliceMask 0 8, sliceMask 0 8, 0#2048, false⟩] }, thread []] }))
    with atoms := [⟨5, kind, ty, ⟨0, 0, 1⟩, 0#32, none, 0, blocks, [x]⟩] }

/-- Its thread before and after it is performed. -/
def atomThread (old : Option Nat) (flags : BitVec 5) (bad : Bool) : AtomThread := ⟨0, 0, 0x1000, line32, 1, 0, old, flags, bad⟩

/-- A store's bytes and a granule's tag on their way. -/
def stores (l : List StoreByte) (r : Tbl Byte) : WriteRec := ⟨5, line32, 0, 0, l, [0x106], r⟩

/-- The bytes of a store perform, in a state that has sent it, as the step selects them: with so many nibbles still to read. -/
def performs (w : WriteRec) (sel : BitVec 128) (unread : Nat) : Bool :=
  let s : State := { rig [] [] with writes := [w], choice := ~~~sel };
  ~~~s.choice == sel &&
  s.writes.find? (fun x => x.id == 5) == some w && !(w.chosen sel).isEmpty && (s.setWrite (w.without (w.chosen sel))).mayWrite w.die (w.chosen sel)
    && (w.unread (w.chosen sel)).length == unread && (w.chosen sel).all (fun b => (s.cell? b.addr).isSome)

/-- An atomic of thread 0 on the word at 0x1000, its operation due, which stores a value of the word's width. -/
def atomDue (s : State) : Bool :=
  (s.atoms.find? (fun r => r.id == 5 && r.leaf.team == 0 && r.leaf.warp == 0)).any (fun a =>
      (a.threads.find? (fun y => y.old.isNone && !y.bad)).any (fun x => x.addr == 0x1000 && a.ty.bits == 32 && decide (x.a < 2 ^ 32)))
    && (s.team? 0).any (fun t => s.linked t.die (homeOf 0x1000)) && !s.pageMoving 0x1000
    && (List.range 4).all (fun i => s.writeFree ⟨0, 0, 0⟩ 5 (0x1000 + i))
    && s.monitorsReleased ⟨0, 0, 0⟩ 5 (((List.range 4).map (fun i => 0x1000 + i)).filterMap s.cell?)

/-- A store of two values to a byte and to the line's last, all of it or a byte alone, one with a tagged granule, one to a nibble
that is not read and one that is; an atomic of each kind, one on an abandoned element; the returns: a waiting leaf's abandoned
operand, its enabled flag, its result, and the result of one that does not wait. -/
theorem witness_RequestsPerform :
    (∀ v ∈ ([([⟨0x1000, 0xAA#8, none, ⟨0, 0, 0⟩, 7⟩, ⟨0x1000, 0xBB#8, none, ⟨0, 0, 1⟩, 7⟩, ⟨0x107F, 0xCC#8, none, ⟨0, 0, 1⟩, 7⟩], [], 0),
          ([⟨0x1060, 0xAA#8, none, ⟨0, 0, 0⟩, 7⟩], [], 0), ([⟨0x1000, 0x05#8, some true, ⟨0, 0, 0⟩, 7⟩], [], 1),
          ([⟨0x1000, 0x05#8, some true, ⟨0, 0, 0⟩, 7⟩], [(0x1000, 0x12#8)], 0)] : List (List StoreByte × Tbl Byte × Nat)),
      performs (stores v.1 v.2.1) (BitVec.allOnes 128) v.2.2 = true)
    ∧ performs (stores [⟨0x1000, 0xAA#8, none, ⟨0, 0, 0⟩, 7⟩, ⟨0x107F, 0xCC#8, none, ⟨0, 0, 1⟩, 7⟩] []) 1#128 0 = true
    ∧ (∀ k ∈ [AtomKind.cas, .rmw .xchg, .rmw (.red .add), .rmw (.red .max)], atomDue (atomic k .i32 false (atomThread none 0#5 false)) = true)
    ∧ (rig [] []).Apart 0x1000 4
    ∧ (let s := (atomic (.rmw (.red .add)) .f32 true (atomThread none 0#5 false)).physWrite 0x1000 (natLe 4 0x7FB00000);
        isAbandoned (leNat (s.physRead 0x1000 4)) = true ∧ atomDue s = true)
    ∧ ∀ y ∈ [(true, atomThread none 0#5 true), (true, atomThread (some 3) 4#5 false), (false, atomThread (some 3) 0#5 false)],
        let s := atomic (.rmw (.red .add)) (if y.1 then .f32 else .i32) y.1 y.2;
        ∃ w e, s.warp? 0 0 = some w ∧ (y.2.old = some 3 ∨ y.2.bad = true) ∧ w.entry? 1 = some e
          ∧ (y.1 = true → e.wait = .atomic 5) ∧ (∀ x ∈ w.entries, ∀ a b m, x.wait ≠ .trap a b m) ∧ 0 < w.threads.length
          ∧ (w.thread 0).exited = false
          ∧ (y.1 = false → (w.thread 0).wins = [⟨0#32, 5, 0, sliceMask 0 8, sliceMask 0 8, 0#2048, false⟩]) := by
  refine ⟨?_, ?_, ?_, apart_of ?_, ?_, fun y hy => ?_⟩
  case refine_6 =>
    simp only [List.mem_cons, List.not_mem_nil, or_false] at hy
    rcases hy with rfl | rfl | rfl <;> refine ⟨_, _, rfl, ?_, rfl, ?_, untrapped_of ?_, ?_, ?_, ?_⟩ <;> decide +kernel
  all_goals decide +kernel

/-- Every engine and queue of a state is empty. -/
theorem drained_of {s : State} (h : (s.cores.all (fun k => k.2.insts == [] && k.2.quay == [] && k.2.gathers == []) && s.writes == []
    && s.atoms == [] && s.reds == [] && s.xfers == []) = true) : s.Drained := by
  simp only [Bool.and_eq_true, beq_iff_eq, List.all_eq_true] at h
  obtain ⟨⟨⟨⟨hc, h1⟩, h2⟩, h3⟩, h4⟩ := h
  refine ⟨fun d c => ?_, fun k hk => ⟨(hc k hk).1.2, (hc k hk).2⟩, h1, h2, h3, h4⟩
  have : ∀ (l : Tbl Core) (n : Nat), (∀ k ∈ l, k.2.insts = []) → (Tbl.get l n Core.reset).insts = [] := by
    intro l n
    induction l with
    | nil => intro _; rfl
    | cons p l ih =>
      intro hl
      unfold Tbl.get Tbl.look
      split
      · exact hl p List.mem_cons_self
      · exact ih (fun k hk => hl k (List.mem_cons_of_mem _ hk))
  exact this _ _ (fun k hk => (hc k hk).1.1)

/-! ### Witnesses: reductions, walks and synchronisation -/

/-- A RED on the word at 0x1000. -/
def red (ty : Ty) : RedRec := ⟨5, 4, 0, 0, false, 0, 0, ⟨0, 0, 0⟩, .add, ty, 0x1000, 1, none⟩

/-- Eight bytes of a page table. -/
def pte (s : State) (pa v : Nat) : State := s.physWrite pa (natLe 8 v)

/-- A four-level table at 1 MiB that maps address 0x30000 in its last level. -/
def tables : State :=
  pte (pte (pte (pte ((rig [] []).setDieWord 0 0x205 0x100001#64) 0x100000 0x200001) 0x200000 0x300001) 0x300000 0x400001) 0x400018 0x50073

theorem leaf_of {x : WalkResult} (h : (match x with | .leaf _ _ => true | _ => false) = true) : ∃ e level, x = .leaf e level := by
  cases x with
  | leaf e l => exact ⟨e, l, rfl⟩
  | fault i => cases h

/-- A RED of an integer, of FP32, and on an abandoned element; a walk that a leaf waits for; a walk through four levels. -/
theorem witness_ReductionsAndWalks :
    (∀ v ∈ [(Ty.i32, 0), (Ty.f32, 0x3F800000), (Ty.f32, 0x7FB00000)],
      let s := (State.physWrite { rig [] [] with reds := [red v.1] } 0x1000 (natLe 4 v.2));
      s.reds.find? (fun x => x.id == 5) = some (red v.1) ∧ s.redReady (red v.1) = true ∧ s.Apart 0x1000 4
        ∧ ∃ p, s.engineXlate 0 0 0 0x1000 ⟨true, true, false⟩ false = .ok p ∧ p.pa = 0x1000
          ∧ (isAbandoned (leNat (s.physRead p.pa 4)) = decide (v.2 = 0x7FB00000)))
    ∧ (let s := (warped tables (fun x => { x with entries := x.entries.map (fun e => { e with wait := .walk }) })).updDie 0 (fun y =>
          { y with walkq := [⟨0, 5, 0x30000, false, some ⟨0, 0, 1⟩, 0⟩] });
        (s.die 0).walkq = [⟨0, 5, 0x30000, false, some ⟨0, 0, 1⟩, 0⟩]
          ∧ ∃ e level, s.walk 0 5 0x30000 false (((s.team? 0).map (fun t => s.launchSecure t.launch)).getD (s.coreSecure 0 0)) = .leaf e level)
    ∧ tables.spaceOn 0 5 = true ∧ (tables.dieWord 0 0x205).toNat / 2 ^ 20 % 2 ^ 32 * 2 ^ 20 = 0x100000
    ∧ leNat (tables.physRead 0x100000 8) = 0x200000 + 1 ∧ leNat (tables.physRead 0x200000 8) = 0x300000 + 1
    ∧ leNat (tables.physRead 0x300000 8) = 0x400000 + 1 ∧ leNat (tables.physRead 0x400018 8) % 4 = 3
    ∧ ∀ a ∈ [0x100000, 0x200000, 0x300000, 0x400018], (tables.cell? a).isSome = true ∧ tables.secureAt a = false := by
  refine ⟨fun v hv => ?_, ?_, by decide +kernel⟩
  · simp only [List.mem_cons, List.not_mem_nil, or_false] at hv
    rcases hv with rfl | rfl | rfl <;> exact ⟨by decide +kernel, by decide +kernel, apart_of (by decide +kernel), _, rfl, by decide +kernel, by decide +kernel⟩
  · exact ⟨by decide +kernel, leaf_of (by decide +kernel)⟩

/-- Two threads with an object's name, two words of 32 bits, in d0 and a capability in c1. -/
def named (x : Cap) (name : Nat) : State := capRig x [name % 2 ^ 32, name / 2 ^ 32] [name % 2 ^ 32, name / 2 ^ 32]

/-- A write of thread 0 on its way. -/
def sending (s : State) : State := { s with nextId := 9, writes := [⟨5, line32, 0, 0, [⟨0x1000, 0#8, none, ⟨0, 0, 0⟩, 4⟩], [], []⟩] }

/-- A binding of another line. -/
def bound (n : Nat) (b : Binding) (s : State) : State := s.updDie 0 (fun d => { d with bindings := List.replicate n b })

/-- A capability over the placed program's code, of 64 bytes. -/
def coded (n : Nat) : State :=
  let s := capRig ⟨0, 64, 0, 31, 0⟩ [n] [n]
  { s with folios := Tbl.alter 1 (fun f => { f with image := { f.image with code := List.replicate 64 0#8 } }) s.folios }

/-- A release of another warp of the team stands incomplete. -/
def standing (s : State) (name : Nat) : State :=
  { s with warps := Tbl.put (warpKey 0 1) { theWarp s with
      index := 1
      entries := (theWarp s).entries.map (fun e => { e with wait := .release .team [(0, BitVec.ofNat 64 name)] }) } s.warps }

/-- What keeps a fence: a store, a load and an atomic of a guarded thread, each named before the fence; what a narrow fence publishes. -/
theorem witness_Fences :
    (∃ c, (sending (rig [] [])).Ready g [] c ∧ 0 ∈ c.on ∧ c.ref.team = 0 ∧ c.ref.warp = 0
      ∧ (∃ w ∈ (sending (rig [] [])).writes, ∃ y ∈ w.bytes, y.by_ = ⟨0, 0, 0⟩ ∧ y.inst < (sending (rig [] [])).nextId)
      ∧ ∀ i ∈ c.on, (sending (rig [] [])).readsDone ⟨0, 0, i⟩ = true ∧ (sending (rig [] [])).scattersDone ⟨0, 0, i⟩ = true
        ∧ (sending (rig [] [])).redsDone c.team.die c.team.core ⟨0, 0, i⟩ = true)
    ∧ (let s : State := { loadRig (loading false) false with nextId := 9 };
      (s.ctx g).any (fun c => c.ready s [] && c.on.contains 0) = true ∧ ∃ k ∈ s.cores, ∃ e ∈ k.2.quay, ∃ q ∈ e.ops, ∃ l ∈ k.2.loads,
        l.id = q.1 ∧ q.1 < s.nextId ∧ q.2.getLsbD 0 = true ∧ l.team = 0 ∧ l.warp = 0)
    ∧ (let s : State := { atomic .cas .i32 false (atomThread none 0#5 false) with nextId := 9 };
      (s.ctx g).any (fun c => c.ready s [] && c.on.contains 0) = true ∧ ∃ a ∈ s.atoms, ∃ t ∈ a.threads,
        a.leaf.team = 0 ∧ a.leaf.warp = 0 ∧ t.thread = 0 ∧ t.old = none ∧ t.bad = false) := by
  refine ⟨⟨_, ⟨rfl, ?_⟩, ?_⟩, ⟨?_, ?_⟩, ?_, ?_⟩ <;> decide +kernel

/-- A release behind a write, one that is drained, an acquire; one behind a release that is not complete; names in range and not, a table in overflow; a binding that is
there, a new one, one too many; the end of a binding; a flush of all, of none, of too many, of a negative count. -/
theorem witness_Ordering :
    (∃ c, (standing (named (cap 31 0) 0x2000000000000003) 0x2000000000000003).Ready g [Pos.src 1 (d 0) true] c
      ∧ (∀ i ∈ c.on, nameBad (c.raw i (Pos.src 1 (d 0) true)) = false)
      ∧ ∃ i ∈ c.on, (standing (named (cap 31 0) 0x2000000000000003) 0x2000000000000003).acquireWaits .team ⟨0, 0, i⟩
          (BitVec.ofNat 64 (c.raw i (Pos.src 1 (d 0) true))) = true)
    ∧ (∃ c, (rig [] []).Ready g [] c ∧ (rig [] []).Drained)
    ∧ (∃ c, (named (cap 31 0) 0x2000000000000003).Ready g [Pos.src 1 (d 0) true] c
      ∧ (∀ i ∈ c.on, nameBad (c.raw i (Pos.src 1 (d 0) true)) = false
        ∧ (named (cap 31 0) 0x2000000000000003).acquireWaits .package ⟨0, 0, i⟩ (BitVec.ofNat 64 (c.raw i (Pos.src 1 (d 0) true))) = false)
      ∧ (named (cap 31 0) 0x2000000000000003).Drained)
    ∧ (∃ c, (sending ((named (cap 31 0) 0x2000000000000017).updDie 0 (fun d => { d with bindOver := true }))).Ready g [Pos.src 1 (d 0) true] c
      ∧ (∀ i ∈ c.on, nameBad (c.raw i (Pos.src 1 (d 0) true)) = false) ∧ 0 ∈ c.on
      ∧ ((sending ((named (cap 31 0) 0x2000000000000017).updDie 0 (fun d => { d with bindOver := true }))).die c.team.die).bindOver = true)
    ∧ (∃ c, (named (cap 31 0) 0x2000000000000018).Ready g [Pos.src 1 (d 0) true] c
      ∧ c.on.find? (fun i => nameBad (c.raw i (Pos.src 1 (d 0) true))) = some 0)
    ∧ (∀ v ∈ [(0x2000000000000003, 0), (0x2000000000000018, 0), (0x2000000000000003, 1023), (0x2000000000000003, 1024)],
      ∀ b ∈ [⟨0x1000, 0x1000, 0x2000000000000003#64, 0, false, 0⟩, (⟨0x2000, 128, 0#64, 0, false, 0⟩ : Binding)],
        ∃ c, (bound v.2 b (named (cap 31 0) v.1)).Ready g [Pos.src 1 (q 1) true, Pos.src 2 (d 0) true] c
          ∧ c.capTag c.low (Pos.src 1 (q 1) true) = true ∧ (c.cap c.low (Pos.src 1 (q 1) true)).otype = 0
          ∧ (c.cap c.low (Pos.src 1 (q 1) true)).perm.testBit 0 = true
          ∧ nameBad (c.raw c.low (Pos.src 2 (d 0) true)) = decide (v.1 = 0x2000000000000018)
          ∧ ((bound v.2 b (named (cap 31 0) v.1)).die c.team.die).bindings.length = v.2
          ∧ (bound v.2 b (named (cap 31 0) v.1)).Ready g [Pos.src 1 (q 1) true] c)
    ∧ ∀ v ∈ [(0, true), (64, true), (65, false), (0xFFFFFFFF, false)],
        ∃ c, (coded v.1).Ready g [Pos.src 1 (q 1) true, Pos.src 2 (w 0) (w 0).src32] c
          ∧ c.capTag c.low (Pos.src 1 (q 1) true) = true ∧ (c.cap c.low (Pos.src 1 (q 1) true)).otype = 0
          ∧ (c.cap c.low (Pos.src 1 (q 1) true)).perm.testBit 0 = true
          ∧ (let n := toSigned 32 (c.u32 c.low (Pos.src 2 (w 0) (w 0).src32));
            decide (0 ≤ n ∧ n ≤ 64) = v.2 ∧ (v.2 = true → n = 0 ∨ ((coded v.1).codeFolio c.launch.asid 0 n.toNat).isSome = true))
          ∧ (coded v.1).Drained := by
  refine ⟨⟨_, ⟨rfl, by decide +kernel⟩, by and_intros <;> decide +kernel⟩, ⟨_, ⟨rfl, by decide +kernel⟩, drained_of (by decide +kernel)⟩,
    ⟨_, ⟨rfl, by decide +kernel⟩, by decide +kernel, drained_of (by decide +kernel)⟩,
    ⟨_, ⟨rfl, by decide +kernel⟩, by decide +kernel⟩, ⟨_, ⟨rfl, by decide +kernel⟩, by decide +kernel⟩, fun v hv b hb => ?_, fun v hv => ?_⟩
  · simp only [List.mem_cons, List.not_mem_nil, or_false] at hv hb
    rcases hv with rfl | rfl | rfl | rfl <;> rcases hb with rfl | rfl <;>
      exact ⟨_, ⟨rfl, by decide +kernel⟩, by decide +kernel, by decide +kernel, by decide +kernel, by decide +kernel, by decide +kernel, rfl, by decide +kernel⟩
  · simp only [List.mem_cons, List.not_mem_nil, or_false] at hv
    rcases hv with rfl | rfl | rfl | rfl <;>
      exact ⟨_, ⟨rfl, by decide +kernel⟩, by decide +kernel, by decide +kernel, by decide +kernel, by decide +kernel, drained_of (by decide +kernel)⟩

/-- Thread 0 alone, its capability in c1. -/
def alone (x : Cap) (rs : List Nat) : State := capRig x rs rs |> fun s => warped s (fun y => { y with entries := y.entries.map (fun e => { e with mask := 1#32 }) })

theorem passes_one {s : State} {c : Ctx} {i : Nat} {p : Pos} {va : Int} {n perm : Nat} {aligned : Bool} {need : Need} {l : LineAt}
    (h : passing s c [i] p (fun _ => va) n (fun _ => perm) aligned need = true) (e : linesOf s c (fun _ => va) n need i = [l]) :
    Passes s c i p va n perm aligned need (bytesOf s c (fun _ => va) n need i) [l] :=
  e ▸ passes_of h i (List.mem_singleton.mpr rfl)

/-- WAITC on the capability's last word, with a comparison that holds and one that does not. -/
theorem witness_MonitorWait : ∀ v ∈ [0, 1],
    ∃ c pas l, Ty.bits .i32 % 8 = 0 ∧ (alone (cap 31 0) [4092, 0, v]).Ready g
      [Pos.src 1 (q 1) true, (Pos.src 2 (d 0) (d 0).src3264).withIx .plain, (Pos.src 3 (w 2) true).withIx .plain] c
    ∧ c.on = [0] ∧ Passes (alone (cap 31 0) [4092, 0, v]) c 0 (Pos.src 1 (q 1) true)
        (((c.cap 0 (Pos.src 1 (q 1) true)).base : Int) + c.signed 0 ((Pos.src 2 (d 0) (d 0).src3264).withIx .plain)) 4 1 false
        ⟨true, false, false⟩ pas [l]
    ∧ l.home ≠ 1 ∧ (∀ p ∈ pas, ((alone (cap 31 0) [4092, 0, v]).cell? p).isSome = true)
    ∧ (alone (cap 31 0) [4092, 0, v]).reaches c.team.die pas = true ∧ (alone (cap 31 0) [4092, 0, v]).Drained
    ∧ decide (intVal true 32 (leNat (pas.map (alone (cap 31 0) [4092, 0, v]).physByte))
        = intVal true 32 (c.int .i32 0 ((Pos.src 3 (w 2) true).withIx .plain))) = decide (v = 0) := by
  intro v hv
  simp only [List.mem_cons, List.not_mem_nil, or_false] at hv
  rcases hv with rfl | rfl <;>
    exact ⟨_, _, ⟨63, 0, 3, 0, 0x1FFC⟩, by decide, ⟨rfl, by decide +kernel⟩, by decide +kernel, passes_one (by decide +kernel) (by decide +kernel),
      by decide +kernel, by decide +kernel, by decide +kernel, drained_of (by decide +kernel), by decide +kernel⟩

/-! ### Witnesses: rendezvous points, rings and copies -/

/-- The operands pass in a state, and the issue meets a condition. -/
def met (s : State) (ps : List Pos) (P : Ctx → Bool) : Bool := (s.ctx g).any (fun c => c.ready s ps && P c)

/-- What `met` tests: the hypotheses of a statement, together. -/
theorem ready_of_met {s : State} {ps : List Pos} {P : Ctx → Bool} (h : met s ps P = true) : ∃ c, s.Ready g ps c ∧ P c = true := by
  unfold met at h
  cases e : s.ctx g with
  | none => rw [e] at h; cases h
  | some c =>
    rw [e] at h
    exact ⟨c, ⟨e, (Bool.and_eq_true_iff.mp h).1⟩, (Bool.and_eq_true_iff.mp h).2⟩

/-- Point k of the team at this value; thread registers w0. -/
def pointed (k : Nat) (p : Point) (v : Nat) : State := (rig [v] [v]).updPoint 0 k (fun _ => p)

/-- The same with a transfer at the point. -/
def busy (k : Nat) (p : Point) (v : Nat) : State :=
  { pointed k p v with xfers := [⟨4, .fill, some 0, [0], 0, 0, 0, 0, false, some (0, k), none, none, [], false⟩] }

/-- The same with another warp of the team, whose leaf waits for the phase. -/
def awaited (k : Nat) (p : Point) : State :=
  let s := pointed k p 1
  { s with warps := Tbl.put (warpKey 0 1) { theWarp s with index := 1, entries := [{ leaf 1 3#32 0#32 none true with wait := .rv k p.phase none }] } s.warps }

/-- The same with the issuing warp arrived in the phase before. -/
def passed (k : Nat) (p : Point) (v : Nat) : State :=
  warped (pointed k p v) (fun y => { y with arrived := 1#24 <<< k, arrPhase := Tbl.put k (p.phase - 1) [] })

abbrev pnOf (k : Nat) : Pos := Pos.src 1 (imm k) (imm k).isUniImm
abbrev pvOf : Pos := Pos.src 2 (w 0) (w 0).src32

/-- A number above 23; a posted overrun; RVINIT of 0, 1, 0xFFFF and 0x10000 on a point that is fresh or valid, and on one with a
transfer; RVEXP from a negative balance and to its limit; an arrival that is not the last, one that owes bytes, the last without and
with a waiter; RVWAIT of a phase that is over and of one that is not, with no cycles, one, and all. -/
theorem witness_Rendezvous :
    met (rig [] []) [pnOf 24] (fun c => 24 ≤ c.u32 c.low (pnOf 24)) = true
    ∧ met (pointed 15 ⟨true, 1, 0, 0, 0, some 5⟩ 1) [pnOf 15] (fun c =>
        ((pointed 15 ⟨true, 1, 0, 0, 0, some 5⟩ 1).point c.ref.team 15).overrun == some 5) = true
    ∧ (pointed 15 ⟨true, 1, 0, 0, 0, some 5⟩ 1).HasPoint 0 15
    ∧ (∀ v ∈ [0, 1, 0xFFFF, 0x10000], ∀ p ∈ [Point.reset, ⟨true, 2, 1, 5, 3, none⟩],
        met (pointed 0 p v) [pnOf 0, pvOf] (fun c => c.u32 c.low pvOf == v
          && !(pointed 0 p v).copyRefs c.ref.team 0 && (pointed 0 p v).rvWaiters ((pointed 0 p v).sharers c.ref.team 0) (fun j _ => j == 0) == []) = true)
    ∧ met (busy 0 ⟨true, 2, 1, 5, 3, none⟩ 1) [pnOf 0, pvOf] (fun c => (busy 0 ⟨true, 2, 1, 5, 3, none⟩ 1).copyRefs c.ref.team 0) = true
    ∧ (∀ b ∈ [0, -3, 0xFFFFFFFF - 4], met (pointed 15 ⟨true, 2, 1, b, 3, none⟩ 4) [pnOf 15, pvOf] (fun c =>
        0 < b + (c.u32 c.low pvOf : Int) && b + (c.u32 c.low pvOf : Int) < 2 ^ 32) = true)
    ∧ (∀ p ∈ [⟨true, 3, 0, 0, 3, none⟩, ⟨true, 2, 0, 1, 3, none⟩, ⟨true, 2, 0, 0, 3, none⟩, (⟨true, 2, 0, -1, 3, none⟩ : Point)],
        met (pointed 15 p 1) [pnOf 15] (fun c => c.on.all (fun i => (pointed 15 p 1).released c i (objectName 2 15))
          && (pointed 15 p 1).rvWaiters [c.ref.team] (fun j f => j == 15 && f ≤ p.phase) == []
          && (pointed 15 p 1).seenPhase c.ref.team 15 == p.phase && c.warp.arrived == 0#24
          && (p.arrivals + c.on.length < p.exp || 0 < p.balance || p.arrivals + c.on.length == p.exp && p.balance ≤ 0)) = true)
    ∧ met (awaited 15 ⟨true, 2, 0, 0, 3, none⟩) [pnOf 15] (fun c =>
        (awaited 15 ⟨true, 2, 0, 0, 3, none⟩).rvWaiters [c.ref.team] (fun j f => j == 15 && f ≤ 3) == [⟨0, 1, 1⟩]
          && c.ref.team == 0 && c.ref.warp == 0
          && ((awaited 15 ⟨true, 2, 0, 0, 3, none⟩).warp? 0 1).any (fun y => (y.entry? 1).any (fun e => e.wait == .rv 15 3 none))) = true
    ∧ met (passed 15 ⟨true, 2, 0, 0, 3, none⟩ 7) [pnOf 15] (fun c => c.warp.arrived.getLsbD 15 && Tbl.get c.warp.arrPhase 15 0 == 2
        && (passed 15 ⟨true, 2, 0, 0, 3, none⟩ 7).seenPhase c.ref.team 15 == 3) = true
    ∧ (∀ v ∈ [0, 1, 2 ^ 32 - 1], met (passed 15 ⟨true, 2, 0, 0, 3, none⟩ v) [pnOf 15, pvOf.withIx .plain] (fun c => c.u32 c.low (pvOf.withIx .plain) == v) = true
        ∧ met (pointed 15 ⟨true, 2, 0, 0, 3, none⟩ v) [pnOf 15, pvOf.withIx .plain] (fun c => c.u32 c.low (pvOf.withIx .plain) == v) = true) := by
  refine ⟨?_, ?_, ⟨_, rfl, ?_⟩, ?_⟩
  case refine_4 => and_intros <;> decide +kernel
  all_goals decide +kernel

/-- The state with its team changed. -/
def teamed (s : State) (f : Team → Team) : State := s.updTeam 0 f

/-- A team of 4 KiB of local store with a ring of two slots of 32 bytes at offset 64, so many filled. -/
def ringed (full : Nat) (s : State) : State :=
  teamed (stored s) (fun t => { t with rings := [⟨64, 2, 32, full % 2, full % 2, 0, (List.range full).map (fun i => ⟨i, 9, true, none⟩)⟩] })

abbrev p1w : Pos := Pos.src 1 (w 0) (w 0).src32
abbrev p2w : Pos := Pos.src 2 (w 1) (w 1).src32
abbrev p3w : Pos := Pos.src 3 (w 2) (w 2).src32

/-- A transfer of the team. -/
def moving (kind : XferKind) (point : Option (Nat × Nat)) (ring : Option (Nat × Nat × Nat × Option Nat)) (sl : XSlice) : Xfer :=
  ⟨4, kind, some 0, [0], 0, 0, 0, 0, false, point, ring, none, [sl], false⟩

/-- A slice of 32 bytes. -/
def piece (src dst : XEnd) : XSlice := ⟨0, src, dst, 32, 0, [], []⟩

/-- The state with k0 at this value. -/
def kreg (n : Nat) (s : State) : State := warped s (fun x => { x with uni := BitVec.ofNat 4096 n })

abbrev pk0 : Pos := Pos.src 1 (.uni 0#7) (Opnd.uni 0#7).isUniImm

/-- RINIT of the least and the largest ring that fits, and of one by a slot too large; a header, a count and a size that are
refused; RWAIT and RREL of a ring with nothing filled, and with both slots; CPWAIT with nothing and with one copy open, and beyond 255; a fill that
takes the last slot; a tile that drains; a message answered. -/
theorem witness_Rings :
    (∀ v ∈ [([0, 2, 16], true), ([16, 64, 48], true), ([1, 2, 16], false), ([0, 1, 16], false), ([0, 65, 16], false), ([0, 2, 0], false),
        ([0, 2, 24], false), ([0, 64, 65536], true), ([0, 2, 65552], false)],
      met (stored (rig v.1 v.1)) [p1w, p2w, p3w] (fun c =>
        let off := c.u32 c.low p1w; let cnt := c.u32 c.low p2w; let sz := c.u32 c.low p3w;
        decide (off % 16 = 0 ∧ 2 ≤ cnt ∧ cnt ≤ 64 ∧ 16 ≤ sz ∧ sz ≤ 65536 ∧ sz % 16 = 0) == v.2 && off / 2 ^ 24 % 2 == 0
          && (c.team.rings.find? (fun y => y.off == off)).isNone && c.team.rings.length == 0 && c.team.convoy.isNone
          && decide (off + 16 + cnt * sz ≤ c.team.lstore) == (sz != 65536 && sz != 65552)) = true)
    ∧ met (stored (rig [64] [64])) [Pos.dst (w 1) (w 1).reg32, p1w] (fun c => (c.team.rings.find? (fun y => y.off == c.u32 c.low p1w)).isNone) = true
    ∧ (∀ n ∈ [0, 1, 2], met (ringed n (rig [64] [64])) [Pos.dst (w 1) (w 1).reg32, p1w] (fun c =>
        (c.team.rings.find? (fun y => y.off == c.u32 c.low p1w)).any (fun r => (r.fills.takeWhile RingFill.full).length == n && r.slots == 2)
          && ((ringed n (rig [64] [64])).warpsOf c.ref.team).all (fun y => y.entries.all (fun e => e.wait == .none))
          && c.warp.index == c.ref.warp && c.warp.team == c.ref.team && decide (c.warp.entries.map Entry.id).Nodup && c.team.convoy.isNone
          && c.entry.handler == c.warp.handler.isSome && c.ready (ringed n (rig [64] [64])) [p1w]) = true ∧ (ringed n (rig [64] [64])).Drained)
    ∧ (∀ x ∈ [[], [moving (.copy .gl) none none (piece (.mem 0) (.loc 0 0))]], ∀ n ∈ [0, 1, 255],
        met { rig [] [] with xfers := x } [pnOf n] (fun c => c.u32 c.low (pnOf n) == n
          && (State.issued { rig [] [] with xfers := x }).openCopies c.ref.team c.ref.warp == x.length) = true)
    ∧ (∀ n ∈ [256, 2 ^ 32 - 1], met (kreg n (rig [] [])) [pk0] (fun c => c.u32 c.low pk0 == n) = true)
    ∧ (let s := { ringed 1 (rig [] []) with xfers := [moving (.copy .gr) none (some (0, 64, 0, none)) (piece (.mem 0) (.loc 0 0))] };
        (s.team? 0).any (fun t => (t.rings.find? (fun y => y.off == 64)).any (fun r => r.fills.length < r.slots)) = true
          ∧ (s.xfer? 4).any (fun x => x.ring == some (0, 64, 0, none) && x.slot.isNone) = true ∧ s.xfers.length = 1)
    ∧ (let s := (ringed 0 (rig [] [])).updDie 0 (fun x => { x with holding := [⟨3, 0, 0, 32, List.replicate 32 1#8, [(0, 64, none)]⟩] });
        (s.die 0).holding.length = 1 ∧ (s.team? 0).any (fun t => t.state == .resident
          && (t.rings.find? (fun y => y.off == 64)).any (fun r => r.fills == [] && r.slots == 2)) = true
          ∧ (s.warpsOf 0).all (fun y => y.entries.all (fun e => e.wait == .none)) = true)
    ∧ (let s := { ringed 1 (rig [] []) with
          xfers := [moving (.copy .gx) none none (piece (.mem 0) (.msg 5 0#32))], outbox := [⟨7, 5, 0#32, 0#20, [], false, 4, 0⟩] };
        (s.xfer? 4).any (fun x => x.slices.length == 1 && x.ring.isNone && x.point.isNone && x.kind == .copy .gx) = true
          ∧ s.outbox.map OutMessage.id = [7]) := by
  refine ⟨?_, ?_, fun n hn => ⟨?_, drained_of ?_⟩, ?_, ?_, ?_, ?_⟩
  case refine_3 | refine_4 => revert n; decide +kernel
  all_goals decide +kernel

/-- The hypotheses of a COPY that is issued, tested: dest, from and offset as operands. -/
def copies (s : State) (dir : CopyDir) (dest frm o : Opnd) (len point nw soff : Nat) : Bool :=
  let p0 := Pos.src 0 dest (match dir with | .lg => dest.isCap | .gx => dest.isD64 | _ => dest.reg32)
  let p1 := Pos.src 1 frm (if dir = .lg then frm.reg32 else frm.isCap)
  let p2 := Pos.src 2 o o.src3264
  let pk := if dir = .lg then p0 else p1
  let pl := if dir = .lg then p1 else p0
  met s [p0, p1, p2] (fun c =>
    let k := c.cap c.low pk; let va := ((k.base : Int) + c.signed c.low p2); let off := c.u32 c.low pl; let desc := c.raw c.low p0;
    let mine := fun (x : Collective) => x.point == point && (point != 31 || x.warp == c.ref.warp);
    decide (nw ≤ (s.warpsOf c.ref.team).length) && (point == 31 || point < 24 && (s.point c.ref.team point).valid) && va % 16 == 0
      && (dir == .gx || off % 16 == 0)
      && (dir != .gr || (c.team.rings.find? (fun y => y.off == off)).any (fun r => 16 * soff + len ≤ r.size))
      && (dir != .gx || desc / 2 ^ 10 % 2 ^ 22 == 0 && (s.word (0x3000 + desc % 1024)).getLsbD 61)
      && (dir == .gr || dir == .gx || s.lsTarget c off len == some (0, off))
      && c.capTag c.low pk && k.otype == 0 && k.perm.testBit (if dir = .lg then 1 else 0) && decide ((k.base : Int) ≤ va)
      && decide (va + len ≤ (k.base + k.length : Nat)) && decide (va + len ≤ (2 ^ 56 : Nat))
      && (match c.team.collectives.find? mine with
          | none => true
          | some x => x.point == point && x.dir == dir && x.nw == nw && x.header == 0 && x.slotOff == 0 && x.slices.all (fun y => y.warp != c.ref.warp)))

/-- The placed team with two warps, point 3 valid, and these collectives. -/
def crew (cs : List Collective) (s : State) : State :=
  let s := (teamed s (fun t => { t with collectives := cs })).updPoint 0 3 (fun _ => ⟨true, 2, 0, 0, 0, none⟩)
  { s with warps := Tbl.put (warpKey 0 1) { theWarp s with index := 1 } s.warps }

/-- The state whose team is slot 0 of a convoy of two with a ring each. -/
def convoyed (holding : Bool) (credit : Nat) : State :=
  let s := teamed (ringed 0 (capRig (cap 31 0) [64, 16, 16] [64, 16, 16])) (fun t => { t with convoy := some 2 })
  { s with
    teams := (s.team? 0).toList.flatMap (fun t => [(0, t), (1, { t with slot := 1 })])
    convoys := [(2, ⟨[(0, 0), (1, 1)], false, holding, List.replicate 8 Point.reset, List.replicate 8 false, [(0, 1, 64, credit)]⟩)] }

abbrev q0 : Pos := Pos.src 0 (w 0) (w 0).reg32
abbrev q1s : Pos := Pos.src 1 (w 1) (w 1).reg32
abbrev q1c : Pos := Pos.src 1 (q 1) (q 1).isCap
abbrev q2 : Pos := Pos.src 2 (w 2) (w 2).src3264

/-- The hypotheses of a landing, tested. -/
def lands (s : State) (off len : Nat) : Bool :=
  (s.xfer? 4).any (fun x => x.slices.any (fun sl => s.canLand x sl off len
    && (match s.issued.endCells x (sl.vas true off len) ⟨true, false, false⟩, s.issued.endCells x (sl.vas false off len) ⟨false, true, false⟩ with
      | .ok rp _, .ok wp _ => s.reaches x.die rp && s.reaches x.die wp && (sl.dst == .loc 0 0 || wp.length == len && decide wp.Nodup
        && wp.all (fun a => (s.cell? a).isSome && wp.all (fun b => b == a || s.cell? b != s.cell? a)))
      | _, _ => false)))

/-- COPY in each direction, with a point and without, first and last of its collective, to the end of the capability; more warps
than the team has, a point 24, an address that is not aligned; COPYM outside a convoy, with no receiver at a bit, from memory and
from the local store, with the last credit, without one, and with a holding buffer; a part and the whole of a slice landing, both
ways, with a point and without. -/
theorem witness_Copies :
    copies (crew [] (stored (capRig (cap 1 0) [4064, 4064] [0]))) .gl (w 0) (q 1) (w 1) 32 31 1 0 = true
    ∧ copies (crew [⟨3, 1, .gl, 2, 0, 0, [⟨1, .mem 0x1000, .loc 0 0, 32, 0, [], []⟩]⟩] (stored (capRig (cap 1 0) [4064, 4064] [0]))) .gl (w 0) (q 1) (w 1) 32 3 2 0 = true
    ∧ copies (crew [] (stored (capRig (cap 2 0) [4064, 4064] [0]))) .lg (q 1) (w 0) (w 1) 32 3 2 0 = true
    ∧ copies (ringed 0 (capRig (cap 1 0) [64, 0] [0])) .gr (w 0) (q 1) (w 1) 16 31 1 1 = true
    ∧ copies ((capRig (cap 1 0) [5, 9, 0] [0]).setWord 0x3005 (BitVec.ofNat 64 (2 ^ 61))) .gx (d 0) (q 1) (w 2) 16 31 1 0 = true
    ∧ met (rig [0, 1] []) [] (fun c => ((rig [0, 1] []).warpsOf c.ref.team).length < 2) = true
    ∧ met (crew [] (stored (capRig (cap 1 0) [0, 1] [0]))) [Pos.src 0 (w 0) (w 0).reg32, Pos.src 1 (q 1) (q 1).isCap, Pos.src 2 (w 1) (w 1).src3264]
        (fun c => ((c.cap c.low (Pos.src 1 (q 1) (q 1).isCap)).base + c.signed c.low (Pos.src 2 (w 1) (w 1).src3264)) % 16 != 0) = true
    ∧ met (rig [0, 0] []) [q0, q1s] (fun c => c.team.convoy.isNone) = true
    ∧ (∀ v ∈ [(false, 0), (false, 1), (true, 0)], ∀ ps ∈ [[q0, q1s], [q0, q1c, q2]],
        met (convoyed v.1 v.2) ps (fun c => c.team.convoy == some 2 && (Tbl.look 2 (convoyed v.1 v.2).convoys).any (fun y =>
          (Tbl.look 2 y.members).isNone && Tbl.look 1 y.members == some 1 && y.holding == v.1 && y.credit c.team.slot 1 64 == v.2)
          && c.u32 c.low q0 == 64 && ((convoyed v.1 v.2).team? 1).any (fun t => (t.rings.find? (fun y => y.off == 64)).any (fun r => 32 ≤ r.size))
          && (convoyed v.1 v.2).lsTarget c (c.u32 c.low q1s) 32 == some (0, 16) && ((convoyed v.1 v.2).die 0).holdRoom 32
          && ((c.cap c.low q1c).base + c.signed c.low q2) % 16 == 0 && c.capTag c.low q1c && (c.cap c.low q1c).otype == 0
          && (c.cap c.low q1c).perm.testBit 0) = true)
    ∧ ∀ n ∈ [16, 32], ∀ pt ∈ [none, some (0, 3)], ∀ sl ∈ [piece (.mem 0x1000) (.loc 0 0), piece (.loc 0 0) (.mem 0x1FE0)],
        lands { crew [] (stored (rig [] [])) with xfers := [moving (.copy .gl) pt none sl] } 0 n = true := by
  and_intros <;> decide +kernel

/-! ### Witnesses: tasks, keys, queues, launches and jobs -/

/-- Bytes of 16-byte units at addresses, their tags set. -/
def granules (s : State) (l : List (Nat × Nat)) : State :=
  l.foldl (fun s p => ((s.physWrite p.1 (natLe 16 p.2)).setUnitTag p.1 true)) s

/-- The handle of the placed folio. -/
def handleCap : Cap := ⟨0x8000, 64, 0, 0, 1⟩

/-- A task of launch 0. -/
def task (seq : Nat) (stage : Stage) (keys held : List (Nat × Bool)) (writes : List WTile) : Task :=
  ⟨seq, 0, 0, 1, 0, [], keys, held, false, [], writes, stage, 0, none, []⟩

/-- The placed folio's spine stands at virtual address 0x8000. -/
def spined (s : State) : State := ({ s with folios := Tbl.alter 1 (fun f => { f with spineVA := 0x8000 }) s.folios } : State).writeSpine 1

/-- A manifest of one read tile, one write tile and one key at 0x1000, the task table holding these. -/
def manifested (old : List Task) : State :=
  let s := capRig (cap 31 0) [0, 0] [0, 0]
  let s := granules s [(0x1000, handleCap.bits), (0x1040, (cap 1 0).bits), (0x10C0, (⟨0x3000, 256, 0, 3, 0⟩ : Cap).bits)]
  let s := (s.physWrite 0x1010 (natLe 8 (1 * 2 ^ 16 + 1 * 2 ^ 20 + 1 * 2 ^ 23))).physWrite 0x1020 (natLe 8 (2 ^ 63 + 7))
  (spined s).updDie 0 (fun d => { d with tasks := old, taskSeq := old.length })

/-- The team runs a task that holds key 7, whose home is die 7. -/
def keyed (key : Nat) : State :=
  let s := teamed (capRig (cap 31 0) [key % 2 ^ 32, key / 2 ^ 32] []) (fun t => { t with task := some 0 })
  (s.updDie 0 (fun d => { d with tasks := [{ task 0 .resident [(7, true)] [(7, true)] [] with team := some 0 }] })).updDie 7 (fun d =>
    { d with keys := [⟨false, 7, some (taskName 0 0), [], [(taskName 1 0, true)]⟩] })

/-- A TASK with nothing before it, behind an earlier version, and with a full table; an offset that is not aligned; KREL of the key that is held, of
one that is not, beyond 48 bits, and without a task. -/
theorem witness_Tasks :
    (∀ old ∈ [[], [task 0 .resident [] [] [⟨0x3080, 256, 3#5, false, none, .live⟩]], List.replicate 1024 (task 0 .resident [] [] [])],
      met (manifested old) [Pos.src 1 (q 1) (q 1).isCap, Pos.src 2 (d 0) (d 0).src3264] (fun c =>
        let pk := Pos.src 1 (q 1) (q 1).isCap; let po := Pos.src 2 (d 0) (d 0).src3264; let s := manifested old;
        let va := fun (_ : Nat) => ((c.cap 0 pk).base : Int) + c.signed 0 po;
        let pas := bytesOf s c va 256 ⟨true, false, false⟩ 0;
        let m := parseManifest (pas.map s.physByte) ((List.range 16).map (fun j => s.unitTag (pas.getD (16 * j) 0) && (c.cap 0 pk).grants pLDC));
        c.low == 0 && c.signed 0 po % 16 == 0 && passing s c [0] pk va 256 (fun _ => 1) false ⟨true, false, false⟩
          && m.handle.2 && (m.reads ++ m.writes).all Prod.snd && m.reads.length == 1 && m.writes.length == 1
          && (s.handleFolio c.launch.asid m.handle.1).any (fun p => p.1 == 1 && (p.2.image.entries[m.entry]?).any (fun e =>
            e.convoy.isNone && e.args == 0 && decide (32 * (m.nr + m.nwt) ≤ e.regs)))
          && m.nr == 1 && m.nwt == 1 && m.nk == 1 && !m.reserved && decide (m.keys.map Prod.fst).Nodup
          && m.reads.all (fun x => x.1.otype == 0 && x.1.perm &&& 1 == 1) && m.writes.all (fun x => x.1.otype == 0 && x.1.perm &&& 3 == 3)
          && (((Tbl.look 1 s.folios).map Folio.secure).getD false == c.launch.secure)
          && ((Tbl.look c.team.launch s.launches).map Launch.taskNum).getD 0 ≤ 0xFFFFFF && (s.die c.team.die).tasks.length == old.length
          && c.entry.wait == .none && s.reaches c.team.die pas && !(s.completion c.team.launch).cxr
          && (s.die c.team.die).tasks.all (fun z => z.seq < (s.die c.team.die).taskSeq)) = true)
    ∧ (manifested []).Drained
    ∧ met (capRig (cap 31 0) [8, 0] []) [Pos.src 1 (q 1) (q 1).isCap, Pos.src 2 (d 0) (d 0).src3264]
        (fun c => c.signed c.low (Pos.src 2 (d 0) (d 0).src3264) % 16 != 0) = true
    ∧ (∀ v ∈ [7, 8, 2 ^ 48], met (keyed v) [Pos.src 1 (d 0) (d 0).isD64] (fun c => c.raw c.low (Pos.src 1 (d 0) (d 0).isD64) == v
        && ((keyed v).taskOf c.ref.team c.team).any (fun p => p.1 == 0 && p.2.held == [(7, true)])) = true ∧ (keyed v).Drained)
    ∧ met (rig [7, 0] []) [Pos.src 1 (d 0) (d 0).isD64] (fun c => ((rig [7, 0] []).taskOf c.ref.team c.team).isNone) = true
    ∧ keyHome 7 = 7 ∧ ((keyed 7).die 7).keys.all (fun y => y.secure == false && y.key == 7 && y.excl == some 0 && y.shared == []
        && y.queue == [(1, true)]) = true := by
  refine ⟨by decide +kernel, drained_of (by decide +kernel), by decide +kernel, fun v hv => ⟨?_, drained_of ?_⟩, by decide +kernel, by decide +kernel⟩ <;>
    revert v <;> decide +kernel

/-- A die with one task that asks for key 1, or has asked, and the key's home. -/
def asking (held : List (Nat × Bool)) (excl asked : Bool) (home : List KeyEntry) : State :=
  (State.reset.updDie 0 (fun d => { d with
    tasks := [{ task 0 .acquiring (held ++ [(1, excl)]) held [] with asked := asked }], acquireq := [0] })).updDie 1 (fun d => { d with keys := home })

/-- A renamed tile of a task of this stage, in a pool of 64 KiB. -/
def renamingRig (stage : Stage) (pool : Option Nat) (state : VerState) (x : List Xfer) : State :=
  { (State.reset.setDieWord 0 0x390 1#64).updDie 0 (fun d => { d with
    tasks := [task 0 stage [] [] [⟨0x1000, 65536, 3#5, true, pool, state⟩]] }) with xfers := x }

/-- A copy-back of the tile. -/
def home (stopped : Bool) (landed : Nat) : Xfer :=
  { moving (.copyback 0 0) none none ⟨0, .mem 0, .mem 0x1000, 65536, 0, [(0, landed)], []⟩ with stopped := stopped }

/-- A request for a new key, for one held exclusively, for one held by others, with a full table; a grant that is the last and one
that is not; a tile as large as the pool; a copy-back that starts, that ends, that was stopped. -/
theorem witness_KeysAndRenaming :
    (∀ excl ∈ [true, false], ∀ h ∈ [[], [⟨false, 1, some 9, [], []⟩], [⟨false, 1, none, [9], []⟩],
        List.replicate 4096 (⟨false, 16, some 9, [], []⟩ : KeyEntry)],
      (((asking [] excl false h).die 0).task? 0).any (fun t => t.seq == 0 && t.stage == .acquiring && t.keys[t.held.length]? == some (1, excl)
          && !t.asked && (asking [] excl false h).linked 0 (keyHome 1) && ((asking [] excl false h).die 0).acquireq.head? == some 0) = true
        ∧ ((asking [] excl false h).die (keyHome 1)).keys.length = h.length)
    ∧ (((asking [] true false []).dieWord 1 0x144).toNat % 16 = 0)
    ∧ (let s := asking [(3, true)] true true [⟨false, 1, some 0, [], []⟩];
        ((s.die 0).task? 0).any (fun t => t.asked && t.held.length + 1 == t.keys.length && t.keys[t.held.length]? == some (1, true)) = true
          ∧ ((s.die (keyHome 1)).keys.any (fun e => e.key == 1 && e.excl == some (taskName 0 0))) = true)
    ∧ (((renamingRig .ready none .live []).die 0).task? 0).any (fun t => t.stage == .ready && t.writes.all (fun v => v.renamed && v.pool.isNone
        && v.len ≤ ((renamingRig .ready none .live []).renamePool 0 ((renamingRig .ready none .live []).launchSecure 0)).2)) = true
    ∧ (renamingRig .ready none .live []).poolUse 0 false = []
    ∧ ((renamingRig .ready none .live []).die 0).tasks.all (fun q => (((renamingRig .ready none .live []).die 0).task? 0).any
        (fun t => t.readyAt ≤ q.readyAt)) = true
    ∧ (((renamingRig .retired (some 0) .live []).die 0).task? 0).any (fun t => t.stage == .retired && t.writes.all (fun v => v.pool.isSome && v.state == .live)) = true
    ∧ ((renamingRig .retired (some 0) .live []).die 0).tasks.filter (fun q => q.seq < 0) = []
    ∧ ∀ x ∈ [home true 16, home false 65536],
        (renamingRig .retired (some 0) .copying [x]).xfers.find? (fun y => y.kind == .copyback (taskName 0 0) 0) = some x
          ∧ (x.stopped || x.slices.all (fun sl => decide (sl.len ≤ (sl.landed.map Prod.snd).sum))) = true := by
  and_intros <;> decide +kernel

/-- A queue that is enabled, with a spill ring of 64 records or without one. -/
def queued (n : Nat) (x : HwQueue) (spill : Bool) (s : State) : State :=
  ((s.setDieWord (n / 64) (0x300 + 2 * (n % 64)) (if spill then 0x100011#64 else 1#64))).updQueue n (fun _ => x)

/-- Records in a queue. -/
def records (n : Nat) : List (List Byte) := List.replicate n (natLe 32 n)

abbrev rec8 : Opnd := .reg .w128 64#9

/-- QPUSH to an empty queue, to the last two entries, to a full one, to a spill ring with one place left; a queue beyond 575, one not
enabled, one of the other world; QPOP of two records, and of one too many; a refill. -/
theorem witness_Queues :
    (∀ m ∈ [0, 30, 31, 32], met (queued 575 ⟨records m, 0, 0, 0, [], []⟩ false (kreg 575 (rig [] []))) (pk0 :: recordPos 2 rec8 true false) (fun c =>
        let s := queued 575 ⟨records m, 0, 0, 0, [], []⟩ false (kreg 575 (rig [] [])); let n := c.u32 c.low (pk0);
        n == 575 && s.queueWord n % 2 == 1 && (s.dieWord (n / 64) 0x380).getLsbD (n % 64) == c.launch.secure && c.on.length == 2
          && (s.queue n).hw.length == m && s.spillSize n == 0) = true)
    ∧ met (queued 5 ⟨records 8, 63, 0, 63, [], []⟩ true (alone (cap 0 0) [])) (pnOf 5 :: recordPos 2 rec8 true false) (fun c =>
        let s := queued 5 ⟨records 8, 63, 0, 63, [], []⟩ true (alone (cap 0 0) []); let n := c.u32 c.low (pnOf 5);
        c.on == [0] && (s.queue n).spCount < s.spillSize n && s.queueWord n % 2 == 1 && (s.queue n).hw.length == 8) = true
    ∧ (let s := queued 5 ⟨records 8, 63, 0, 63, [], []⟩ true (alone (cap 0 0) []); s.Apart (s.spillAddr 5 63) 32)
    ∧ (∀ n ∈ [575, 576], met (kreg n (rig [] [])) (pk0 :: recordPos 2 rec8 true false) (fun c => c.u32 c.low pk0 == n
        && (kreg n (rig [] [])).queueWord n % 2 == 0) = true)
    ∧ met (((queued 5 HwQueue.reset false (rig [] []))).setDieWord 0 0x380 32#64) (pnOf 5 :: recordPos 2 rec8 true false) (fun c =>
        (((queued 5 HwQueue.reset false (rig [] []))).setDieWord 0 0x380 32#64).queueWord 5 % 2 == 1 && !c.launch.secure) = true
    ∧ (∀ m ∈ [1, 2], met (queued 5 ⟨records m, 0, 0, 0, [], []⟩ false (rig [] [])) (recordPos 0 rec8 false true ++ [pnOf 5]) (fun c =>
        let s := queued 5 ⟨records m, 0, 0, 0, [], []⟩ false (rig [] []); let n := c.u32 c.low (pnOf 5);
        (s.queue n).waiting == [] && (s.queue n).hw.length == m && c.on.length == 2 && c.warp.threads.length == 2 && s.queueWord n % 2 == 1) = true)
    ∧ (let x := (queued 575 ⟨records 7, 25, 40, 1, records 25, []⟩ true (rig [] [])).queue 575;
        x.refill ≠ [] ∧ x.waiting = [] ∧ x.spCount = x.refill.length) :=
  ⟨by decide +kernel, by decide +kernel, apart_of (by decide +kernel), by decide +kernel, by decide +kernel, by decide +kernel, by decide +kernel⟩

/-- Two threads with capabilities in c1 and c2, tagged as told. -/
def capsRig (x y : Cap) (tags : BitVec 16) : State :=
  let th : Thread := { thread ([0, 0, 0, 0] ++ (List.range 4).map (fun i => x.bits / 2 ^ (32 * i) % 2 ^ 32)
    ++ (List.range 4).map (fun i => y.bits / 2 ^ (32 * i) % 2 ^ 32)) with tags := tags }
  spined (rig2 th th)

/-- A completion entry. -/
def ended (st : EntryState) (count : Nat) : Completion := ⟨0#2, st, false, noParent, 3#16, count, false, false, 0⟩

/-- Entry 1, of the issuing launch's job or of another, in a state; the handle in w0. -/
def launched (st : EntryState) (job h count : Nat) : State :=
  let s := rig [h] [h]
  { s with
    completions := Tbl.put 1 (ended st count) s.completions
    launches := Tbl.put 1 { Launch.none with job := job } s.launches }

/-- The placed folio's handle in c1, a launch record of zeros under c2. -/
def lnchRig : State := capsRig handleCap (cap 1 0) 6#16

/-- LNCH of the placed folio, with a handle that is untagged and one that is no handle; CNCL and CWAIT of entry 1 in each state, of
another job's, and of a stale handle. -/
theorem witness_Launches :
    met lnchRig [Pos.dst (w 0) (w 0).reg32, Pos.src 1 (q 1) (q 1).isCap, Pos.src 2 (imm 0) (imm 0).src32, Pos.src 3 (q 2) (q 2).isCap] (fun c =>
        let s := lnchRig; let hdr := bytesOf s c (fun _ => 0x1000) 64 ⟨true, false, false⟩ 0;
        c.low == 0 && c.capTag 0 (Pos.src 1 (q 1) true) && (s.handleFolio c.launch.asid (c.cap 0 (Pos.src 1 (q 1) true))).any (fun p =>
            p.1 == 1 && (p.2.image.entries[c.u32 0 (Pos.src 2 (imm 0) true)]?).any (fun e => e.args == 0) && p.2.secure == c.launch.secure
            && (parseLaunch (hdr.map s.physByte)).any (fun r => r.folio == 0 && r.entry == 0
              && (match askLaunch r p.2 0 [] with | .ok _ => true | _ => false)))
          && passing s c [0] (Pos.src 3 (q 2) true) (fun _ => 0x1000) 64 (fun _ => 1) false ⟨true, false, false⟩ && hdr.length == 64
          && (c.cap 0 (Pos.src 3 (q 2) true)).base == 0x1000 && s.newIndex == some 1 && c.entry.wait == .none && s.reaches c.team.die hdr && (s.completion c.team.launch).parent == 0x3FFF) = true
        ∧ lnchRig.Drained
    ∧ (∀ t ∈ [4, 6], met (capsRig (cap 1 0) (cap 1 0) (BitVec.ofNat 16 t))
        [Pos.dst (w 0) (w 0).reg32, Pos.src 1 (q 1) (q 1).isCap, Pos.src 2 (imm 0) (imm 0).src32, Pos.src 3 (q 2) (q 2).isCap] (fun c =>
        c.capTag c.low (Pos.src 1 (q 1) true) == (t == 6)
          && ((capsRig (cap 1 0) (cap 1 0) (BitVec.ofNat 16 t)).handleFolio c.launch.asid (c.cap c.low (Pos.src 1 (q 1) true))).isNone) = true)
    ∧ ∀ st ∈ [EntryState.running, .done, .cancelled, .faulted], ∀ h ∈ [0x10003, 0x10002], ∀ j ∈ [noParent, 9], ∀ n ∈ [0, 2],
        met (launched st j h n) [Pos.src 1 (w 0) (w 0).reg32] (fun c =>
          (launched st j h n).ofHandle (BitVec.ofNat 32 (c.u32 c.low (Pos.src 1 (w 0) (w 0).reg32))) == (if h = 0x10003 then some 1 else none)
            && ((launched st j h n).jobOf 1 == some c.launch.job) == (j == noParent) && ((launched st j h n).completion 1).state == st
            && ((launched st j h n).completion 1).count == n
            && c.ready (launched st j h n) [Pos.dst (w 1) (w 1).reg32, Pos.src 1 (w 0) (w 0).reg32]
            && decide ((launched st j h n).completions.map Prod.fst).Nodup) = true :=
  ⟨by decide +kernel, drained_of (by decide +kernel), by decide +kernel, by decide +kernel⟩

theorem noMonitors_of {s : State} (h : s.dies.all (fun p => p.2.monitors == []) = true) (y : Nat) : (s.die y).monitors = [] := by
  have : ∀ l : Tbl Die, l.all (fun p => p.2.monitors == []) = true → (Tbl.get l y Die.reset).monitors = [] := by
    intro l
    induction l with
    | nil => intro _; rfl
    | cons p l ih =>
      intro hl
      simp only [List.all_cons, Bool.and_eq_true, beq_iff_eq] at hl
      unfold Tbl.get Tbl.look
      split
      · exact hl.1
      · exact ih (by simpa using hl.2)
  exact this _ h

/-- Entry 5 runs with a COUNT of zero under entry 6; the leaf of the warp waits for it or not; a job at 0x1000. -/
def counted (level : BitVec 2) (parent : Nat) (fault cxr cancel wait : Bool) : State :=
  let s := warped (rig [] []) (fun y => if wait then { y with entries := y.entries.map (fun e => { e with
    wait := .entry (handleOf 5 ⟨level, .running, false, parent, 3#16, 0, fault, cancel, 0⟩) (w 0) 3#32 }) } else y)
  { s with
    completions := Tbl.put 5 ⟨level, .running, cxr, parent, 3#16, 0, fault, cancel, 0⟩ (Tbl.put 6 ⟨3#2, .running, false, noParent, 0#16, 2, false, false, 0⟩ s.completions)
    jobs := [(5, ⟨0x1000, 63, 0, false, 0, 1, 0⟩), (6, ⟨0x1000, 0, 0, false, 0, 1, 0⟩)]
    graphs := [(5, ⟨0, [⟨true, 0, 0, [], 0x1000, 0x2000, 32, true, false⟩], false, 6⟩)]
    xfers := [⟨4, .node 5 0, none, [], 5, 0, 0, 0, false, none, none, none, [⟨0, .mem 0x1000, .mem 0x2000, 32, 0, [(0, 32)], []⟩], false⟩] }

/-- A launch, a graph and a last phase, with and without a leaf that waits, in each final state; a job; a copy node. -/
theorem witness_Completes :
    (∀ l ∈ [0#2, 1#2, 2#2], ∀ f ∈ [true, false], ∀ x ∈ [true, false], ∀ t ∈ [true, false],
      let s := counted l 6 f x x t; let k := s.completion 5;
      k.state = .running ∧ k.count = 0 ∧ k.level = l ∧ k.parent = 6 ∧ (Tbl.look 5 s.launches).isNone = true
        ∧ (Tbl.look 6 s.jobs).any (fun y => y.phase + 1 == y.nph) = true
        ∧ ∃ y, s.warps = [(warpKey 0 0, y)] ∧ y.team = 0 ∧ y.index = 0 ∧ y.entries.length = 1
          ∧ (y.entries.all (fun e => e.wait == (if t then .entry (handleOf 5 k) (w 0) 3#32 else .none))) = (x == false || !t || f == f))
    ∧ (let s := counted 3#2 noParent false false false false;
        (s.completion 5).state = .running ∧ (s.completion 5).count = 0 ∧ (s.completion 5).level = 3#2 ∧ (Tbl.look 5 s.jobs).isSome = true
          ∧ (∀ y ∈ s.warps, y.2.entries.all (fun e => e.wait == .none) = true) ∧ s.Apart 0x1000 8 ∧ ∀ y, (s.die y).monitors = [])
    ∧ (let s := counted 1#2 6 false false false false;
        (s.xfers.find? (fun y => y.kind == .node 5 0)).any (fun x => !x.stopped
            && x.slices.all (fun sl => decide (sl.len ≤ (sl.landed.map Prod.snd).sum))) = true
          ∧ (Tbl.look 5 s.graphs).any (fun G => (G.nodes[0]?).any (fun n => n.succs == [])) = true) := by
  refine ⟨?_, ⟨by decide +kernel, by decide +kernel, by decide +kernel, by decide +kernel, by decide +kernel, apart_of (by decide +kernel),
    noMonitors_of (by decide +kernel)⟩, by decide +kernel⟩
  intro l hl f hf x hx t ht
  simp only [List.mem_cons, List.not_mem_nil, or_false] at hl hf hx ht
  rcases hl with rfl | rfl | rfl <;> rcases hf with rfl | rfl <;> rcases hx with rfl | rfl <;> rcases ht with rfl | rfl <;>
    exact ⟨by decide +kernel, by decide +kernel, by decide +kernel, by decide +kernel, by decide +kernel, by decide +kernel, _, rfl,
      by decide +kernel, by decide +kernel, by decide +kernel, by decide +kernel⟩

/-- Launch queue 63: a job of one phase, whose record stands at 0x3000, or whose slot names a record that is refused. -/
def submitted (good : Bool) : State :=
  let s := State.reset.placed
  let s := (((s.setWord 0x10FC (BitVec.ofNat 64 (2 ^ 63 + 0x2000))).setWord 0x10FD (BitVec.ofNat 64 (64 * 2 ^ 16 + 4))).setWord 0x10FE 15#64).setWord 0x10FF 16#64
  let s := s.physWrite 0x2078 (natLe 8 (if good then 0x3000 else 0x3200))
  ((s.physWrite 0x300C (natLe 4 1)).physWrite 0x3020 (natLe 8 1)).physWrite 0x3028 (natLe 8 0x4000) |>.physWrite 0x4000 (natLe 8 0x5000)

/-- A queue enabled with a legal size and vector, with a size too large and a vector too low; a doorbell; a job started, and one
refused. -/
theorem witness_Jobs :
    (∀ v ∈ [64 * 2 ^ 16 + 16, 64 * 2 ^ 16 + 17, 63 * 2 ^ 16 + 4],
      let s := State.reset.setWord 0x10FD (BitVec.ofNat 64 v);
      (s.word 0x10FC).getLsbD 63 = false ∧ (BitVec.ofNat 64 (2 ^ 63)).getLsbD 63 = true)
    ∧ (let s := submitted true; s.queueWork 63 = true
      ∧ (∀ m < 64, s.queueWork m = true → s.queuePri m < s.queuePri 63 ∨ s.queuePri m = s.queuePri 63 ∧ 63 ≤ m) ∧ s.recovery = false
      ∧ s.ckpt = .idle ∧ leNat (s.physRead (0x2000 + 8 * (15 % 2 ^ 4)) 8) = 0x3000
      ∧ (s.cell? 0x3000).isSome = true ∧ s.newIndex = some 1
      ∧ (s.parseJob 0x3000).any (fun p =>
        let gen := (s.completion 1).gen;
        let entered : State := { s with
          completions := Tbl.put 1 ⟨3#2, .running, false, 0x3FFF, gen, 1, false, false, 0⟩ s.completions
          words := Tbl.put 0x10FE 16#64 (Tbl.put 0x4001 0#64 s.words)
          launches := Tbl.del 1 s.launches, graphs := Tbl.del 1 s.graphs, jobs := Tbl.del 1 s.jobs };
        let running : State := { entered with jobs := Tbl.put 1 { p.1 with queue := 63 } entered.jobs };
        match ((running.place 0x3000 (natLe 8 (8 + (entered.handle 1).toNat * 2 ^ 32))).ownFolios 1 p.2).startPhase 1 0 with
        | .ok _ => true
        | _ => false) = true)
    ∧ (let s := submitted false; s.queueWork 63 = true ∧ leNat (s.physRead (0x2000 + 8 * (15 % 2 ^ 4)) 8) = 0x3200
        ∧ (s.parseJob 0x3200).isNone = true) :=
  ⟨by decide +kernel, by decide +kernel, by decide +kernel⟩

/-- An entry 63 armed for tag 5 with so many slots in use; its launch record at 0x1000, its slots at 0x30000 of address space 5. -/
def armed (used : List (Nat × Nat × Bool)) (enabled : Bool) : State :=
  let s := { tables with
    slots := [(63, used)]
    folios := Tbl.alter 1 (fun f => { f with job := some 9 }) tables.folios
    jobs := [(9, ⟨0x4000, 0, 5, false, 0, 1, 0⟩)] }
  let s := (((s.setWord 0x20FC (BitVec.ofNat 64 ((if enabled then 2 ^ 63 else 0) + 5))).setWord 0x20FD 0x1000#64).setWord 0x20FE 0x30000#64).setWord 0x20FF
    (BitVec.ofNat 64 (2 ^ 51 + 2 ^ 45 + 1))
  ((s.setWord 0x3007 (BitVec.ofNat 64 (2 ^ 61 + 2 ^ 62))).physWrite 0x1000 (natLe 8 (2 ^ 31))).physWrite 0x1008 (natLe 8 (2 ^ 48))

/-- The hypotheses of a message's arrival, tested. -/
def arrives (s : State) (n : Nat) (enabled : Bool) : Bool :=
  let m : InMessage := ⟨7, 5#32, 0#20, List.replicate n 1#8⟩
  (s.word (0x3000 + m.circuit)).getLsbD 61 && (s.word (0x3000 + m.circuit)).getLsbD 62 && s.inbox == []
    && (List.range 64).all (fun k => ((s.word (0x2000 + 4 * k)).getLsbD 63 && (s.word (0x2000 + 4 * k)).extractLsb' 0 32 == m.tag) == (enabled && k == 63))
    && (parseLaunch (s.physRead 0x1000 64)).any (fun r => r.folio == 1 && r.dmask == 1#9 && (Tbl.look 1 s.folios).any (fun x => x.live && x.job == some 9
        && (match askLaunch r x r.entry [] with | .ok _ => true | _ => false) && (x.image.entries[r.entry]?).any (fun e => e.args == 0)))
    && (Tbl.look 9 s.jobs).isSome && m.payload.length + 16 ≤ 256 && s.newIndex == some 1
    && ((s.landing 0 5 0x30100 (16 + n) false).map (fun l => l.map Prod.fst)).any (fun pas => decide (pas.map s.cell?).Nodup && pas.all (fun a => (s.cell? a).isSome))

/-- An entry enabled with slots; a message without an entry, one for a full ring, one that lands in the last slot. -/
theorem witness_ArmedLaunches :
    ((armed [] false).word 0x20FC).getLsbD 63 = false
    ∧ arrives (armed [] false) 0 false = true ∧ arrives (armed [(0, 7, false), (1, 8, false)] true) 0 true = true
    ∧ arrives (armed [(0, 7, false)] true) 1 true = true :=
  ⟨by decide +kernel, by decide +kernel, by decide +kernel, by decide +kernel⟩

/-! ### Witnesses: the matrix engine -/

/-- A full warp that holds the token; k0 has a value; a tile, 64 KiB of B of this tag, 1024 scale entries, 64 KiB of local store. -/
def matRig (tile : Tile) (bt : BitVec 4) (k0 : Nat) (insts : List Instance) (token : Option Token) (rs : List Nat) : State :=
  let s := (kreg k0 (rig [] [])).updTeam 0 (fun t => { t with
    tiles := [tile], bsize := 65536, btags := (List.range 16).map (fun i => (i, bt)), sents := 1024, stags := [], lstore := 65536 })
  cored (warped s (fun x => { x with
      count := 32, threads := List.replicate 32 (thread rs), entries := x.entries.map (fun e => { e with mask := BitVec.allOnes 32 }) }))
    (fun k => { k with token := token, insts := insts })

/-- An accumulator tile of FP32. -/
def accTile : Tile := { Tile.reset with tag := 0xA#4 }

abbrev mine : Option Token := some ⟨0, none⟩

/-- The fields of an MMA: local-store form, band mask, fields of a half. -/
def mmaUp (asrc half : Bool) (bm : BitVec 8) : MmaUp := ⟨7#16, 0#5, bm, 0#16, half, false, false, 4#9, 1#6, asrc⟩

/-- The token lets the warp issue, tested. -/
def tokened (s : State) (c : Ctx) : Bool :=
  (s.core c.team.die c.team.core).token.any (fun k => k.team == c.ref.team && (k.role.isNone || k.role == some c.warp.role))

theorem tokened_of {s : State} {c : Ctx} (h : tokened s c = true) : s.Tokened c := by
  unfold tokened at h
  cases e : (s.core c.team.die c.team.core).token with
  | none => rw [e] at h; cases h
  | some k =>
    rw [e] at h
    simp only [Option.any_some, Bool.and_eq_true, beq_iff_eq, Bool.or_eq_true, Option.isNone_iff_eq_none] at h
    obtain ⟨a, b⟩ := h
    exact ⟨k.role, by rw [e, ← a], b⟩

/-- An MMA of BF16 by another warp that gathers. -/
def gathering (op : MatOp) (lane : Nat) : Instance := ⟨9, 0, 0, 7#16, op, 2, [⟨lane, 1, [], [], 0#32, []⟩], 0#32, none, none⟩

/-- An issue fits the instances that collect for its tile and version, tested. -/
def fits (s : State) (c : Ctx) (tile : Nat) (ver : BitVec 16) (op : MatOp) : Bool :=
  (s.core c.team.die c.team.core).insts.all (fun i => i.team != c.ref.team || i.tile != tile || i.ver != ver || !i.collective
    || i.op == op && i.parts.all (fun p => p.lane != c.warp.lane))

/-- The hypotheses of an MMA or MSPA, tested: from registers or from local store; whether it fits, and has room in its staging buffer. -/
def multiplies (fit room : Bool) (s : State) (pat : Option (SparsePat × Opnd)) (a : Opnd) (u : MmaUp) (a0 : Nat) (tags : Bool) : Bool :=
  let t := Ty.bf16
  let pa : Pos := if u.asrc then Pos.src 1 a (match a with | .uni _ => true | _ => false)
    else (Pos.src 1 a (match a with | .reg w _ => w.bits == t.unitBits | _ => false)).inHalf u.half
  let mp := if u.asrc then none else pat.map (fun p => (Pos.src 0 p.2 (p.2.bits == p.1.metaBits t)).inHalf u.half)
  met s (mp.toList ++ [pa]) (fun c =>
    let p := pat.map Prod.fst; let rows := if u.asrc then bandRows u.bm else [c.warp.lane];
    let use : MatUse := ⟨t, u.scl, denseK t u.half p, rowBytes t u.half p, rows, a0, u.astr.toNat * 16, 0, u.boff.toNat * 32, 0, 1, 0, 0⟩;
    let num := suppliers u.half; let sup := c.on.filter (· < num);
    tokened s c && use.bOk c.team.bsize && use.aOk c.team.lstore && use.sOk c.team.sents && a0 % 16 == 0
      && (!u.asrc || c.u32 c.low pa == a0) && (s.tileAt c u.tile.toNat).any (fun x => use.tagsOk c.team x == tags) && u.bm != 0#8
      && (u.asrc || c.entry.mask == c.warp.liveMask && decide (num ≤ c.warp.count) && u.bm.getLsbD (c.warp.lane / 8)
        && decide (s.stagedOn c.team.die c.team.core c.warp.lane < 2) == room && fits s c u.tile.toNat u.ver (.mma t u p 0 0#32) == fit
        && (match pat, mp with | some (q, _), some p => (badMeta t q (sup.map (fun j => (j, c.raw j p)))).isNone | _, _ => true)))

/-- MMA from registers and from the local store, to its end; a half; a B tag that differs; sparse; an instance that gathers with the
same fields and with others, from this lane and from another; a full staging buffer; no token; MLOOP of one step and of none; MZRO; VDSET, and on a tile
of another format. -/
theorem witness_MatrixIssue :
    multiplies true true (matRig accTile 1#4 0 [] mine []) none (h 0) (mmaUp false false 1#8) 0 true = true
    ∧ multiplies true true (matRig accTile 1#4 0 [] mine []) none (h 0) (mmaUp false true 0xFF#8) 0 true = true
    ∧ multiplies true true (matRig accTile 1#4 0 [] mine []) (some (.s14, .reg .w4 8#9)) (h 0) (mmaUp false false 1#8) 0 true = true
    ∧ multiplies true true (matRig accTile 1#4 61440 [] mine []) none (.uni 0#7) (mmaUp true false 0xFF#8) 61440 true = true
    ∧ multiplies true true (matRig accTile 2#4 61440 [] mine []) none (.uni 0#7) (mmaUp true false 0xFF#8) 61440 false = true
    ∧ met (matRig accTile 1#4 61456 [] mine []) [Pos.src 1 (.uni 0#7) true] (fun c =>
        let a0 := c.u32 c.low (Pos.src 1 (.uni 0#7) true);
        let use : MatUse := ⟨.bf16, false, 32, 64, bandRows 0xFF#8, a0, 64, 0, 0, 0, 1, 0, 0⟩;
        tokened (matRig accTile 1#4 61456 [] mine []) c && a0 % 16 == 0 && !use.aOk c.team.lstore) = true
    ∧ met (matRig accTile 1#4 0 [] none []) [Pos.src 1 (.uni 0#7) true] (fun c => ((matRig accTile 1#4 0 [] none []).core c.team.die c.team.core).token.isNone) = true
    ∧ (let op := MatOp.mma .bf16 (mmaUp false false 1#8) none 0 0#32;
        multiplies true false (matRig accTile 1#4 0 [{ gathering op 0 with ver := 8#16 }, { gathering op 0 with ver := 9#16 }] mine []) none (h 0)
          (mmaUp false false 1#8) 0 true = true)
    ∧ (∀ v ∈ [(gathering (.mma .bf16 (mmaUp false false 1#8) none 0 0#32) 5, true), (gathering (.mma .bf16 (mmaUp false false 3#8) none 0 0#32) 5, false),
          (gathering (.mma .bf16 (mmaUp false false 1#8) none 0 0#32) 0, false)], let y := v.1;
        multiplies v.2 true (matRig accTile 1#4 0 [y] mine []) none (h 0) (mmaUp false false 1#8) 0 true = true
          ∧ ((matRig accTile 1#4 0 [y] mine []).core 0 0).insts.find? (fun i =>
            i.team == 0 && i.tile == 0 && i.ver == 7#16 && i.collective && i.input.isNone && !i.full) = some y)
    ∧ (∀ n ∈ [0, 1], met (matRig accTile 1#4 n [] mine []) [Pos.src 0 (.uni 0#7) true, Pos.src 1 (.uni 1#7) true] (fun c =>
        let loop : MatUse := ⟨.bf16, false, denseK .bf16 false none, rowBytes .bf16 false none, bandRows 1#8, 0, 64, 0, 0, 0, n, 0, 0⟩;
        c.u32 c.low (Pos.src 0 (.uni 0#7) true) == n && c.u32 c.low (Pos.src 1 (.uni 1#7) true) == 0 && tokened (matRig accTile 1#4 n [] mine []) c
          && loop.bOk c.team.bsize && loop.sOk c.team.sents && loop.aOk c.team.lstore && (n == 0 || loop.tagsOk c.team accTile)) = true)
    ∧ met (matRig accTile 1#4 0 [] mine []) [pnOf 0, Pos.src 2 (imm 7) (imm 7).isUniImm] (fun c =>
        tokened (matRig accTile 1#4 0 [] mine []) c && decide (c.u32 c.low (pnOf 0) < c.team.tiles.length)) = true
    ∧ (∀ x ∈ [accTile, Tile.reset], met (matRig x 1#4 65280 [] mine [0x3F800000]) [Pos.src 1 (w 0) (w 0).reg32, Pos.src 2 (.uni 0#7) true] (fun c =>
        let bo := c.u32 c.low (Pos.src 2 (.uni 0#7) true);
        tokened (matRig x 1#4 65280 [] mine [0x3F800000]) c && bo % 4 == 0 && bo + 256 * 1 ≤ c.team.lstore
          && !(f32Val (BitVec.ofNat 32 (c.u32 c.low (Pos.src 1 (w 0) (w 0).reg32)))).isNan
          && ((matRig x 1#4 65280 [] mine [0x3F800000]).tileAt c 0).any (fun y => y.tag == x.tag) && 2040 * 16 + 512 * 63 + 8 * 64 ≤ c.team.lstore) = true) := by
  and_intros <;> decide +kernel

/-- The same with a capability in c1 of every thread, and point 3 valid. -/
def matCap (x : Cap) (rs : List Nat) (s : State) : State :=
  (warped s (fun y => { y with threads := List.replicate 32 (capThread x rs) })).updPoint 0 3 (fun _ => ⟨true, 2, 0, 0, 0, none⟩)

/-- n bytes at va are granted by a capability operand, tested. -/
def granted (c : Ctx) (p : Pos) (va : Int) (n perm : Nat) : Bool :=
  c.capTag c.low p && (c.cap c.low p).otype == 0 && (c.cap c.low p).perm &&& perm == perm && decide (((c.cap c.low p).base : Int) ≤ va)
    && decide (va + n ≤ (((c.cap c.low p).base + (c.cap c.low p).len * (if (c.cap c.low p).fmt = 1 then 65536 else 1) : Nat) : Int))
    && decide (va + n ≤ ((2 ^ 56 : Nat) : Int))

theorem grants_of {c : Ctx} {p : Pos} {va : Int} {n perm : Nat} (h : granted c p va n perm = true) : c.Grants c.low p va n perm := by
  simp only [granted, Bool.and_eq_true, decide_eq_true_eq, beq_iff_eq] at h
  obtain ⟨⟨⟨⟨⟨h1, h2⟩, h3⟩, h4⟩, h5⟩, h6⟩ := h
  exact ⟨h1, h2, h3, h4, h5, h6⟩

/-- A scale layout record: MXFP4 kind 1 of so many rows and blocks, strides of 1 and 64. -/
def layout (rows kblk : Nat) : Nat := 5 * 16 + 1 + kblk * 2 ^ 32 + rows * 2 ^ 48 + 1 * 2 ^ 64 + 64 * 2 ^ 96

/-- A tile whose format is not an accumulator's. -/
def strangeTile : Tile := { Tile.reset with tag := 0x1#4 }

/-- A drain of the tile's first band to registers that another warp gathers. -/
def drainUp (tgt : Bool) (pt : BitVec 5) : MdrnUp := ⟨7#16, 0#5, 1#8, 1#6, tgt, 4#16, pt⟩

/-- MLDB to the end of B from the local store and from memory; MLDS of 1024 entries; MDRN to registers, alone, joining, and of a tile
of no format; MDRN to memory and to the local store, at their ends. -/
theorem witness_MatrixTransfers :
    met (matCap (cap 1 0) [65536 - 32] (matRig accTile 0#4 0 [] mine [])) [Pos.src 1 (w 0) true] (fun c =>
        tokened (matCap (cap 1 0) [65536 - 32] (matRig accTile 0#4 0 [] mine [])) c && decide (2047 * 32 + 32 ≤ c.team.bsize)
          && decide (c.u32 c.low (Pos.src 1 (w 0) true) % 2 ^ 19 + 32 ≤ c.team.lstore)
          && ((matCap (cap 1 0) [65536 - 32] (matRig accTile 0#4 0 [] mine [])).point c.ref.team 3).valid) = true
    ∧ met (matCap (cap 1 0) [0x1000 - 32] (matRig accTile 0#4 0 [] mine [])) [Pos.src 1 (q 1) true, Pos.src 2 (w 0) (w 0).src3264] (fun c =>
        granted c (Pos.src 1 (q 1) true) ((c.cap c.low (Pos.src 1 (q 1) true)).base + c.signed c.low (Pos.src 2 (w 0) true)) 32 1) = true
    ∧ met (warped (matRig accTile 0#4 0 [] mine []) (fun x => { x with
          threads := List.replicate 32 (thread (((List.range 4).map (fun i => layout 64 16 / 2 ^ (32 * i) % 2 ^ 32)) ++ [0])) }))
        [Pos.src 0 (q 0) true, Pos.src 1 (w 4) true] (fun c =>
        let v := c.raw c.low (Pos.src 0 (q 0) true); let rows := v / 2 ^ 48 % 2 ^ 16; let kblk := v / 2 ^ 32 % 2 ^ 16;
        v / 16 % 16 == 5 && v % 16 == 1 && rows == 64 && kblk == 16 && rows * kblk ≤ 65536 && v / 256 % 2 ^ 24 == 0
          && decide (0 + rows * kblk ≤ c.team.sents)
          && decide (c.u32 c.low (Pos.src 1 (w 4) true) % 2 ^ 19 + ((rows - 1) * (v / 2 ^ 96 % 2 ^ 32) + (kblk - 1) * (v / 2 ^ 64 % 2 ^ 32) + 1) ≤ c.team.lstore)) = true
    ∧ (∀ x ∈ [accTile, strangeTile], ∀ i ∈ [[], [gathering (.mdrn .reg .f32 false (drainUp false 31#5) (.data [])) 5]],
        met (matRig x 0#4 0 i mine []) [(Pos.dst (w 0) true).inHalf true] (fun c => tokened (matRig x 0#4 0 i mine []) c && c.warp.lane / 8 == 0
          && !(matRig x 0#4 0 i mine []).drainBad c 0 7#16 x false false
          && fits (matRig x 0#4 0 i mine []) c 0 7#16 (.mdrn .reg .f32 false (drainUp false 31#5) (.data []))
          && (matRig x 0#4 0 i mine []).tileAt c 0 == some x
          && (((matRig x 0#4 0 i mine []).core c.team.die c.team.core).insts.find? (fun y => y.team == c.ref.team && y.tile == 0 && y.ver == 7#16
            && y.collective && y.input.isNone && !y.full)) == i.head?) = true)
    ∧ (∀ x ∈ [accTile, strangeTile],
        met (matCap (cap 3 0) [65536 - 512] (matRig x 0#4 0 [] mine [])) [Pos.src 1 (w 0) true] (fun c =>
          (List.range 8).all (fun r => c.u32 c.low (Pos.src 1 (w 0) true) % 2 ^ 19 + r * 64 + 64 ≤ c.team.lstore)
            && !(matCap (cap 3 0) [65536 - 512] (matRig x 0#4 0 [] mine [])).drainBad c 0 7#16 x false true) = true
        ∧ met (matCap (cap 3 0) [0x1000 - 512] (matRig x 0#4 0 [] mine [])) [Pos.src 1 (q 1) true, Pos.src 2 (w 0) (w 0).src3264] (fun c =>
          (List.range 8).all (fun r => granted c (Pos.src 1 (q 1) true)
            ((c.cap c.low (Pos.src 1 (q 1) true)).base + c.signed c.low (Pos.src 2 (w 0) true) + (r * 64 : Nat)) 64 3)) = true) := by
  refine ⟨?_, ?_, ?_, ?_, ?_⟩ <;> decide +kernel

/-- The tile with a verdict of this kind declared: a k-set of 4 entries at offset 0, threshold 1. -/
def declared (op : VerdictOp) : Tile := { accTile with decl := some ⟨op, 1, 0, 0, 0x3F800000#32, [(1, 0x40000000#32)], 4, 0, [], 0⟩ }

/-- An instance of the tile that has started. -/
def started : Instance :=
  { gathering (.mzro .bf16) 0 with input := some .empty }

/-- TOKP to a team, to a role, to nobody, to a team that is not there, of no mode, without the token, with a waiter; TOKW with the
token, with none, with another's; VTHR of a threshold as it is, above, below, no number, behind another VTHR, and without a declaration; TOPK of the last
entry, of one beyond, and behind a started instance. -/
theorem witness_TokenAndTopk :
    (∀ n ∈ [0, 2 ^ 30 + 15, 2 ^ 31, 5, 3 * 2 ^ 30], ∀ tk ∈ [mine, none, some ⟨1, none⟩],
      met (matRig accTile 0#4 n [] tk []) [Pos.src 1 (.uni 0#7) true] (fun c =>
        let s := matRig accTile 0#4 n [] tk [];
        c.u32 c.low (Pos.src 1 (.uni 0#7) true) == n && tokened s c == (tk == mine) && (s.core c.team.die c.team.core).tokens == []
          && (s.teams.find? (fun q => q.2.launch == c.team.launch && q.2.num == n % 2 ^ 24 && q.2.state.holds
            && q.2.die == c.team.die && q.2.core == c.team.core)).isSome == (n % 2 ^ 24 == 0) && c.ready s []) = true)
    ∧ met (cored (awaited 5 Point.reset) (fun k => { k with token := mine, tokens := [⟨0, 1, 1⟩] })) [Pos.src 1 (imm 255) true] (fun c =>
        tokened (cored (awaited 5 Point.reset) (fun k => { k with token := mine, tokens := [⟨0, 1, 1⟩] })) c
          && ((awaited 5 Point.reset).warp? 0 1).isSome) = true
    ∧ (∀ v ∈ [(0x3F800000, 0), (0x40000000, 1), (0x3F7FFFFF, -1), (0x7FC00000, 2)],
        met (matRig (declared .topk) 0#4 0 [] mine [v.1]) [Pos.src 1 (imm 0) true, Pos.src 2 (w 0) (w 0).reg32] (fun c =>
          let nv := BitVec.ofNat 32 (c.u32 c.low (Pos.src 2 (w 0) (w 0).reg32));
          tokened (matRig (declared .topk) 0#4 0 [] mine [v.1]) c && (f32Val nv).isNan == (v.2 == 2)
            && (v.2 == 2 || ((f32Val nv).cmp (f32Val 0x3F800000#32) < 0) == (v.2 == -1)) && c.warp.lane == 0) = true)
    ∧ (∀ v ∈ [(0x40000000, false), (0x3F800000, true)],
        let ahead : Instance := { gathering (.vthr 0 0x40000000#32) 0 with ver := 0#16 };
        met (matRig (declared .topk) 0#4 0 [ahead] mine [v.1]) [Pos.src 1 (imm 0) true, Pos.src 2 (w 0) (w 0).reg32] (fun c =>
          ((f32Val (BitVec.ofNat 32 (c.u32 c.low (Pos.src 2 (w 0) (w 0).reg32)))).cmp (f32Val 0x40000000#32) < 0) == v.2 && c.warp.lane == 0) = true)
    ∧ met (matRig accTile 0#4 0 [] mine []) [Pos.src 1 (imm 0) true, Pos.src 2 (w 0) (w 0).reg32] (fun c => (c.team.tiles[0]?).any (fun x => x.decl.all (fun z => z.op != .topk))) = true
    ∧ (∀ e ∈ [0, 3, 4], ∀ i ∈ [[], [started]],
        met (matRig (declared .topk) 0#4 0 i mine []) [Pos.dst (w 1) (w 1).reg32, Pos.src 1 (imm 0) true, Pos.src 2 (imm e) true] (fun c =>
          let s := matRig (declared .topk) 0#4 0 i mine [];
          tokened s c && c.u32 c.low (Pos.src 2 (imm e) true) == e && c.ready s [Pos.dst (w 1) (w 1).reg32, Pos.src 1 (imm 0) true]
            && c.ready s [Pos.src 1 (imm 0) true]
            && ((s.core c.team.die c.team.core).insts.all (fun y => y.team != c.ref.team || y.tile != 0 || y.input.isNone)) == i.isEmpty) = true) := by
  and_intros <;> decide +kernel

/-- The core's instance 9 at the head of those that can start, or begun with these inputs; the sequencer as told. -/
def instRig (tile : Tile) (op : MatOp) (inp : Option MatInput) (m : Option MacroSeq) : State :=
  cored (matRig tile 1#4 0 [{ gathering op 0 with input := inp, parts := [⟨0, 0, List.replicate 32 1, [], 3#32, List.replicate 16 0⟩] }] mine [])
    (fun k => { k with startq := if inp.isNone then [9] else [], mloop := m })

/-- The fields of an MLOOP. -/
def loopUp : MloopUp := ⟨7#16, 0#5, 0x80#8, 0#16, false, false, false, 4#9, 16#7⟩

/-- An MMA from registers and from the local store, an MLOOP of one and of two steps, an MZRO, that start; a later step of an MLOOP,
and its last. -/
theorem witness_MatrixStarts :
    (∀ op ∈ [.mma .bf16 (mmaUp false false 1#8) none 0 0#32, .mma .i8 (mmaUp true false 0xFF#8) none 61440 0#32,
        .mloop .bf16 loopUp 1 4 0 0#32, .mloop .bf16 loopUp 2 4 0 0#32, .mzro .bf16, .vthr 0 0x40000000#32,
        .mdrn .reg .f32 false (drainUp false 31#5) (.data []), .mdrn .st .n32 true (drainUp false 31#5) (.mem 0x1000)],
      (((instRig (declared .topk) op none none).core 0 0).inst? 9).any (fun i => i.team == 0 && i.tile == 0 && i.op == op
          && i.parts.all (fun p => p.units.length == 32)) = true
        ∧ ((instRig (declared .topk) op none none).core 0 0).startq = [9]
        ∧ ((instRig (declared .topk) op none none).team? 0).any (fun t => t.tiles.length == 1) = true
        ∧ (instRig (declared .topk) op none none).teams.all (fun p => p.2.macroSeq.isNone) = true)
    ∧ (∀ n ∈ [1, 2], let s := instRig accTile (.mloop .bf16 loopUp 3 4 0 0#32) (some .empty) (some ⟨9, n, 64, 1024, 64, 16⟩);
        (s.core 0 0).mloop = some ⟨9, n, 64, 1024, 64, 16⟩ ∧ ((s.core 0 0).inst? 9).isSome = true
          ∧ (s.team? 0).any (fun t => !t.stopping && t.tiles.length == 1) = true ∧ s.teams.all (fun p => p.2.macroSeq.isNone) = true) := by
  refine ⟨?_, ?_⟩ <;> decide +kernel

/-- Inputs of one row of two elements. -/
def inputs : MatInput := ⟨[(5, [(0, 1), (31, 0x80)])], List.replicate 32 (List.replicate 16 0xFF), [], [], [], [], 0, [(0, List.range 16)]⟩

/-- An integer MMA, an MLOOP whose steps have run, MZRO, VDSET of each kind, MDRN to registers with threads in and out of its mask,
with and without VD, to memory and to the local store, that complete. -/
theorem witness_MatrixCompletes :
    (∀ v ∈ [({ Tile.reset with tag := 0xC#4 }, .mma .i8 (mmaUp false false 1#8) none 0 0#32), (accTile, .mloop .bf16 loopUp 1 4 0 0#32),
        (accTile, .mzro .i32), (accTile, .vdset .topk 0#32 0 ⟨7#16, 0#5, 0#16, 63#7, 2040#15⟩), (accTile, .vdset .ge 0#32 0 ⟨7#16, 0#5, 0#16, 0#7, 0#15⟩),
        (declared .topk, .vthr 0 0x40000000#32), (declared .ge, .mdrn .reg .n32 true (drainUp false 31#5) (.data [])), (accTile, .mdrn .reg .f32 false (drainUp false 31#5) (.data [])),
        (accTile, .mdrn .st .f32 false (drainUp false 31#5) (.mem 0x1000)), (accTile, .mdrn .add .f32 false (drainUp true 3#5) (.loc 0 0))],
      let s := instRig v.1 v.2 (some inputs) none;
      ((s.core 0 0).inst? 9).any (fun i => i.op == v.2 && i.team == 0 && i.tile == 0 && i.input == some inputs && i.parts.length == 1) = true
        ∧ (s.team? 0).any (fun t => t.tiles[0]? == some v.1 && t.macroSeq.isNone) = true ∧ (s.core 0 0).mloop.isNone = true
        ∧ (inputs.a.map Prod.fst).Nodup
        ∧ (s.warp? 0 0).any (fun y => y.team == 0 && y.index == 0 && y.entries.all (fun e => e.wait == .none) && 2 < y.threads.length) = true)
    ∧ (let s := warped (instRig accTile (.mdrn .reg .f32 false (drainUp false 31#5) (.data [])) (some inputs) none) (fun y => { y with
          threads := y.threads.map (fun th => { th with wins := [⟨0#32, 9, 0, sliceMask 0 8, sliceMask 0 8, 0#2048, false⟩] }) });
        (s.warp? 0 0).any (fun y => !(y.thread 1).exited && (y.thread 1).wins == [⟨0#32, 9, 0, sliceMask 0 8, sliceMask 0 8, 0#2048, false⟩]) = true) := by
  refine ⟨?_, ?_⟩ <;> decide +kernel

/-! ### Witnesses: teams, lanes, faults -/

/-- `Best`, tested. -/
def best (s : State) (die core : Nat) (x : Demand) : Bool :=
  core < 18 && (s.fits die core x).isSome && (List.range 18).all (fun k => (s.fits die k x).isNone
    || s.coreFree die k < s.coreFree die core || s.coreFree die k == s.coreFree die core && core ≤ k)

theorem best_of {s : State} {die core : Nat} {x : Demand} (h : best s die core x = true) : ∃ lanes, s.Best die core x lanes := by
  simp only [best, Bool.and_eq_true, decide_eq_true_eq, List.all_eq_true, Bool.or_eq_true, beq_iff_eq, Option.isNone_iff_eq_none] at h
  obtain ⟨⟨a, b⟩, c⟩ := h
  refine ⟨(s.fits die core x).get b, a, (Option.some_get b).symm, fun k hk hs => ?_⟩
  rcases c k (List.mem_range.mpr hk) with (e | e) | e
  · rw [e] at hs; cases hs
  · exact .inl e
  · exact .inr e

/-- A launch of two teams of 40 threads, one still to come, whose entry has a role for warp 1. -/
def admitting : State :=
  let s := State.reset.placed
  { s with
    launches := Tbl.alter 0 (fun x => { x with teams := 2, nthr := 40 }) s.launches
    folios := Tbl.alter 1 (fun f => { f with image := { f.image with entries := [⟨0x40, 64, [⟨3, 1, 1, 8, 16⟩], 8, 64, none, 4096, []⟩] } }) s.folios }

/-- The team, its warp's leaf in this wait. -/
def leaving (st : TeamState) (stopping : Bool) (wait : Wait) (f : Team → Team) : State :=
  teamed (warped ((rig [] []).setDieWord 0 0x391 65535#64) (fun x => { x with entries := x.entries.map (fun e => { e with wait := wait }) }))
    (fun t => f { t with state := st, stopping := stopping })

/-- A team with a task that holds a key. -/
def holder (s : State) : State :=
  (teamed s (fun t => { t with task := some 0 })).updDie 0 (fun d => { d with tasks := [{ task 0 .resident [(7, true)] [(7, true)] [] with team := some 0 }] })

theorem alone_of {s : State} (h : ((s.team? 0).any (fun t => t.convoy.isNone)
    && s.warps.all (fun p => p.2.team != 0 || decide (p.2.index < 32) && p.1 == warpKey 0 p.2.index)) = true) : ∃ t, s.Alone 0 t := by
  obtain ⟨a, b⟩ := Bool.and_eq_true_iff.mp h
  cases e : s.team? 0 with
  | none => rw [e] at a; cases a
  | some t =>
    rw [e] at a
    refine ⟨t, e, Option.isNone_iff_eq_none.mp a, fun p hp ht => ?_⟩
    have := List.all_eq_true.mp b p hp
    simpa [ht] using this

theorem roomFor_of {s : State} {t : Team} (e : s.team? 0 = some t) (z : t.die = 0) (a : (s.die 0).savePool = [])
    (b : bitsOf (s.dieWord 0 0x391).toNat 15 0 = 65535) : s.roomFor [0] = true := by
  unfold State.roomFor
  rw [List.all_eq_true]
  intro d _
  by_cases h : d = 0
  · subst h
    have : saveUnits ≤ 65535 := by unfold saveUnits; omega
    simp [e, z, State.saveRoom, a, b, this]
  · simp [e, z, Ne.symm h]

/-- A save pool of no capacity has no room. -/
theorem noRoom_of {s : State} {d n : Nat} (h : bitsOf (s.dieWord d 0x391).toNat 15 0 = 0) (hn : 0 < n) : s.saveRoom d n = false := by
  have : 0 < saveUnits := by unfold saveUnits; omega
  have : 0 < ((s.die d).savePool.length + n) * saveUnits := Nat.mul_pos (by omega) this
  unfold State.saveRoom
  rw [h]
  simp only [decide_eq_false_iff_not]
  omega

/-- Each lane's split table has room for the warps that come, tested. -/
def roomFor16 (s : State) (core : Nat) (d : Demand) : Bool :=
  (s.fits 0 core d).any (fun lanes => lanes.all (fun lane =>
    decide (((s.laneWarps 0 core lane).map (fun w => max 1 w.tabled.length)).sum + (lanes.filter (· == lane)).length ≤ 16)))

/-- A team admitted; saved while it holds a key, while a write is on its way, when drained; swapped; a deferral that has run out; a
saved team that resumes; a team that has finished, resident and saved. -/
theorem witness_TeamPlacement :
    (∃ lanes, admitting.Best 0 1 ⟨[⟨64 * 32, 1, none⟩, ⟨64 * 8, 1, none⟩], 4096 + 512, 0, 0, 0, false, false⟩ lanes)
    ∧ (Tbl.look 0 admitting.launches).any (fun x => x.dmask.getLsbD 0 && x.next < x.teams
        && (admitting.entryOf x.folio x.entry).any (fun e => e.convoy.isNone)) = true
    ∧ (admitting.die 0).tasks = [] ∧ admitting.teams.all (fun z => !admitting.holdsKey z.1) = true ∧ admitting.launches.length = 1
    ∧ roomFor16 admitting 1 ⟨[⟨64 * 32, 1, none⟩, ⟨64 * 8, 1, none⟩], 4096 + 512, 0, 0, 0, false, false⟩ = true
    ∧ admitting.warps.all (fun z => decide (z.2.team < admitting.nextId)) = true
    ∧ (∃ t, (rig [] []).Alone 0 t) ∧ (rig [] []).saveRoom 0 1 = false
    ∧ (∀ s ∈ [leaving .resident false .none id, holder (leaving .resident false .none id), leaving .resident true .none id,
          leaving .resident false (.monitor 3#32) id, { leaving .resident false .none id with xfers := [moving (.copy .gl) none none (piece (.mem 0) (.loc 0 0))] },
          leaving .resident false .none (fun t => { t with deferred := some 0 }), leaving .pendingResume false .none id, leaving .saved false .none id],
        (∃ t, s.Alone 0 t) ∧ s.roomFor [0] = true
          ∧ (s.core 0 0).tokens = [] ∧ (s.core 0 0).claims = [] ∧ (∀ q ∈ s.queues, q.2.waiting = []) ∧ (∀ p ∈ s.teams, p.2.macroSeq = none)
          ∧ (s.warpsOf 0).all (fun y => !y.postedCancel && y.entries.all (fun e => !e.wait.saveWithdraws)) = true)
    ∧ (leaving .resident false .none id).drained 0 = true
    ∧ ({ leaving .resident false .none id with xfers := [moving (.copy .gl) none none (piece (.mem 0) (.loc 0 0))] } : State).drained 0 = false
    ∧ (holder (leaving .resident false .none id)).holdsKey 0 = true ∧ (leaving .resident false .none id).holdsKey 0 = false
    ∧ (leaving .resident false (.monitor 3#32) id).allMonitoring 0 = true
    ∧ (∀ st ∈ [.pendingResume, .saved], ∃ lanes, ((leaving st false .none id).team? 0).any (fun t => t.state == st && !t.escalated && !t.ended && t.macroSeq.isNone) = true
        ∧ (leaving st false .none id).ckpt = .idle ∧ (leaving st false .none id).teams.all (fun z => !(leaving st false .none id).holdsKey z.1) = true
        ∧ roomFor16 (leaving st false .none id) 1 ((leaving st false .none id).resumeDemand 0
          (((leaving st false .none id).team? 0).getD (admitTeam Launch.none 0 0 none none 0 0 0 0 0))) = true
        ∧ (leaving st false .none id).Best 0 1 ((leaving st false .none id).resumeDemand 0
          (((leaving st false .none id).team? 0).getD (admitTeam Launch.none 0 0 none none 0 0 0 0 0))) lanes)
    ∧ (∀ st ∈ [TeamState.resident, .saved],
        let s := warped (leaving st false .none (fun t => { t with ended := st == .saved })) (fun y => { y with entries := [] });
        (s.team? 0).any (fun t => t.ended == (st == .saved) && t.task.isNone && t.insts == [] && !s.teamAccesses t 0) = true ∧ (s.warpsOf 0).all (fun y => y.entries == []) = true
          ∧ s.teamCopies 0 = false ∧ (s.core 0 0).insts = []) := by
  refine ⟨best_of ?_, ?_, ?_, ?_, ?_, ?_, ?_, alone_of ?_, noRoom_of ?_ Nat.one_pos, fun s hs => ⟨?_, ?_⟩, ?_, ?_, ?_, ?_, ?_, fun st hs => ?_, ?_⟩
  case refine_10 =>
    simp only [List.mem_cons, List.not_mem_nil, or_false] at hs
    rcases hs with rfl | rfl | rfl | rfl | rfl | rfl | rfl | rfl <;> exact alone_of (by decide +kernel)
  case refine_11 =>
    have : ∀ p ∈ s.teams, p.2.macroSeq = none := by revert s; decide +kernel
    refine ⟨?_, ?_, ?_, ?_, this, ?_⟩
    case refine_1 =>
      simp only [List.mem_cons, List.not_mem_nil, or_false] at hs
      rcases hs with rfl | rfl | rfl | rfl | rfl | rfl | rfl | rfl <;> refine roomFor_of rfl ?_ ?_ ?_ <;> decide +kernel
    all_goals revert s; decide +kernel
  case refine_17 =>
    simp only [List.mem_cons, List.not_mem_nil, or_false] at hs
    rcases hs with rfl | rfl <;> refine Exists.imp (fun l h => ⟨?_, ?_, ?_, ?_, h⟩) (best_of ?_) <;> decide +kernel
  all_goals decide +kernel

/-- The warp with these entries, on lane 0 of core 0. -/
def entered (es : List Entry) (f : Warp → Warp) : State := warped (rig [] []) (fun x => f { x with entries := es })

/-- Leaf 2 spilled and ready, with n blocked leaves in the table. -/
def spilledLeaves (n : Nat) : List Entry :=
  { leaf 2 1#32 0#32 none true with spilled := true } :: (List.range n).map (fun i => { leaf (3 + i) 0#32 0#32 none true with wait := .token })

/-- A convoy over two dies, of team 0 on die 1, whose leaf waits or does not, and team 1 at slot 0; a notice under way for point 16. -/
def noticed (wait : Wait) : State :=
  let s := teamed (entered [{ leaf 1 3#32 0#32 none true with wait := wait }] id) (fun t => { t with convoy := some 2, slot := 8, die := 1 })
  { s with
    teams := s.teams ++ [(1, admitTeam Launch.none 0 0 (some 2) none 0 0 0 0 0)]
    convoys := [(2, ⟨[(0, 1), (8, 0)], true, false, List.replicate 8 ⟨true, 1, 0, 0, 4, none⟩, List.replicate 8 true, []⟩)] }

/-- A spilled leaf with room and without; a held split; a leaf at 256 passes; a timed wait that has run out; a notice with nobody and
with a leaf that waits; a claim that nobody helps; a posted ECC and CANCEL. -/
theorem witness_LaneEvents :
    (∀ n ∈ [0, 15, 16], let s := entered (spilledLeaves n) id;
      ∃ x, s.laneWarps 0 0 0 = [x] ∧ x.team = 0 ∧ x.index = 0 ∧ x.entries.filter Entry.spilledReady = [{ leaf 2 1#32 0#32 none true with spilled := true }]
        ∧ decide (x.tabled.length < s.tableRoom 0 0 x) = decide (n < 16)
        ∧ (n = 16 → ((x.entries.filter (fun y => !y.spilled && y.isLeaf && y.wait != .none)).head?).any (fun y => y.id == 3) = true))
    ∧ (∀ e ∈ [{ leaf 1 3#32 0#32 none true with wait := .split }, { leaf 1 3#32 0#32 none true with passes := 256 },
          { leaf 1 3#32 0#32 none true with wait := .rv 3 2 (some (0, 6#3, 1#32)) }],
        ∃ x, (entered [e] id).warp? 0 0 = some x ∧ x.entry? 1 = some e ∧ x.entries.length + 2 ≤ (entered [e] id).tableRoom 0 0 x + 32 ∧ e.id = 1)
    ∧ (∀ v ∈ [Wait.none, .rv 16 3 none],
        (Tbl.look 2 (noticed v).convoys).any (fun k => k.notices.getD 0 false && (k.points.getD 0 Point.reset).phase - 1 == 3
          && (noticed v).rvWaiters ((k.members.map Prod.snd).filter (fun z => ((noticed v).updConvoy 2 (fun c =>
            { c with notices := modAt 0 (fun _ => false) c.notices })).isFar z 16)) (fun x q => x == 16 && q ≤ 3)
            == (if v = .none then [] else [⟨0, 0, 1⟩])) = true)
    ∧ (let s := entered [{ leaf 1 3#32 0#32 none true with wait := .claim 8 }] id;
        (s.teams.filter (fun z => z.2.state.holds && z.2.die == 0 && z.2.core == 0)).map Prod.fst = [0] ∧ s.helped 0 = false
          ∧ (s.laneWarps 0 0 0).all (fun z => z.team == 0) = true ∧ s.warpPending 0 0 = false
          ∧ (s.warpsOf 0).all (fun x => x.lane == 0 && x.index == 0 && x.handler.isNone) = true ∧ (s.vector 0).isSome = true)
    ∧ (∀ f ∈ [fun (x : Warp) => { x with postedEcc := some 5#64 }, fun x => { x with postedCancel := true }],
        let s := entered [leaf 1 1#32 0#32 none true, leaf 2 2#32 0#32 none true] f;
        (s.team? 0).any (fun t => t.state == .resident && !t.stopping) = true
          ∧ (s.warp? 0 0).any (fun x => (x.postedEcc.isSome || x.postedCancel) && x.handler.isNone) = true ∧ s.warpPending 0 0 = false
          ∧ (s.vector 0).isSome = true ∧ (leaf 1 1#32 0#32 none true).ready = true ∧ (leaf 1 1#32 0#32 none true).lowest < (leaf 2 2#32 0#32 none true).lowest) := by
  refine ⟨fun n hn => ?_, fun e he => ?_, by decide +kernel, by decide +kernel, fun f hf => ?_⟩
  · simp only [List.mem_cons, List.not_mem_nil, or_false] at hn
    rcases hn with rfl | rfl | rfl <;> exact ⟨_, rfl, by decide +kernel, by decide +kernel, by decide +kernel, by decide +kernel, by decide +kernel⟩
  · simp only [List.mem_cons, List.not_mem_nil, or_false] at he
    rcases he with rfl | rfl | rfl <;> exact ⟨_, rfl, by decide +kernel, by decide +kernel, by decide +kernel⟩
  · simp only [List.mem_cons, List.not_mem_nil, or_false] at hf
    rcases hf with rfl | rfl <;> and_intros <;> decide +kernel

/-- Fault and escalation rings of 16 records at 0x2000 and 0x3000, one record posted before; these faults and escalations. -/
def serviced (faults : List FaultRec) (esc : List EscRec) (s : State) : State :=
  ((((s.setDieWord 0 0x392 0x2001#64).setDieWord 0 0x393 1#64).setDieWord 0 0x394 0x3001#64).setDieWord 0 0x395 1#64).updDie 0 (fun d =>
    { d with faults := faults, escalations := esc })

/-- A fault of the leaf or of a reduction. -/
def faulting (who : Faulter) (num : Option Nat) : FaultRec := ⟨who, 0x5000#64, 0, 0, 0, 0, some 0, some (0, 0), num⟩

/-- A record to be posted; a fault of a leaf, resident or saved, and of a reduction, answered; an escalation answered, of a handle that
is stale and of one that runs; an error in a warp; a link that retrains. -/
theorem witness_FaultsAndAnswers :
    (let s := serviced [faulting (.leaf ⟨0, 0, 1⟩) none] [⟨0, 0#32, List.replicate 32 0#8, none⟩] (leaving .saved false .none id);
      (s.die 0).faults.find? (fun z => z.num.isNone) = some (faulting (.leaf ⟨0, 0, 1⟩) none)
        ∧ ((s.die 0).escalations.find? (fun z => z.num.isNone && s.isSaved z.team)).any (fun e => e.team == 0 && e.record.length == 32) = true
        ∧ (s.team? 0).any (fun t => t.state == .saved) = true ∧ (s.dieWord 0 0x393).toNat < 16 ∧ s.Apart (0x2000 + 32) 32 ∧ s.Apart (0x3000 + 32) 32
        ∧ ∀ y, (s.die y).monitors = [])
    ∧ (∀ st ∈ [TeamState.resident, .saved], let s := serviced [faulting (.leaf ⟨0, 0, 1⟩) (some 7)] [] (leaving st false (.fault (some 7) 0x5000#64) id);
        (s.die 0).faults.find? (fun z => z.num == some 7) = some (faulting (.leaf ⟨0, 0, 1⟩) (some 7))
          ∧ (s.die 0).faults.find? (fun z => z.num == some 8) = none ∧ s.warpPending 0 0 = false
          ∧ (s.warp? 0 0).any (fun x => x.handler.isNone && (x.entry? 1).isSome) = true ∧ (s.vector 0).isSome = true)
    ∧ (let s := { serviced [faulting (.red 5) (some 7)] [] (rig [] []) with reds := [red .i32] };
        (s.die 0).faults.find? (fun z => z.num == some 7) = some (faulting (.red 5) (some 7)) ∧ s.reds.find? (fun z => z.id == 5) = some (red .i32))
    ∧ (∀ h ∈ [0, 1], let s := serviced [] [⟨0, BitVec.ofNat 32 h, [], some 7⟩] (leaving .saved false .none (fun t => { t with escalated := true }));
        (s.die 0).escalations.find? (fun z => z.num == some 7) = some ⟨0, BitVec.ofNat 32 h, [], some 7⟩
          ∧ (s.team? 0).any (fun t => t.escalated) = true ∧ (s.ofHandle (BitVec.ofNat 32 h)).isSome = (h == 0)
          ∧ (s.completion 0).state = .running)
    ∧ ((rig [] []).warp? 0 0).any (fun x => x.entries != []) = true ∧ (rig [] []).launchSecure 0 = false
    ∧ ((rig [] []).updLaunch 0 (fun x => { x with secure := true })).launchSecure 0 = true ∧ (rig [] []).recovery = false
    ∧ ({ rig [] [] with recovery := true } : State).recovery = true ∧ (40 ∈ ({ rig [] [] with retraining := [40] } : State).retraining) := by
  refine ⟨⟨?_, ?_, ?_, ?_, apart_of ?_, apart_of ?_, noMonitors_of ?_⟩, ?_, ?_, ?_, ?_, ?_, ?_, ?_, ?_, ?_⟩ <;> decide +kernel

/-! ### Witnesses: translation service and the package -/

/-- A shootdown of one page under way. -/
def shooting : State := { (rig [] []).setWord 0x40 (BitVec.ofNat 64 (2 ^ 63 + 5 * 2 ^ 52 + 3 * 2 ^ 8)) with
  shoot := BitVec.ofNat 64 (5 * 2 ^ 52 + 3 * 2 ^ 8) }

/-- A page of die 0, at its threshold of 3 requests, the last of die 1, whose free-frame ring offers this frame; die 0's return ring. -/
def hot (frame : Nat) (supply : Bool) : State :=
  let s := pte (pte (pte (pte ((rig [] []).setDieWord 0 0x205 0x103001#64) 0x100000 0x200001) 0x200000 0x300001) 0x300000 0x400001) 0x400018
    (2 ^ 56 + 0x50073)
  let s := (s.setDieWord 0 0x39A 0x2001#64).updDie 0 (fun d => { d with pages := [(leafAddr (2 ^ 56 + 0x50073) 3 0x30000, ⟨3, 1, 5, 0x30000⟩)] })
  if supply then ((s.setDieWord 1 0x396 0x3001#64).setDieWord 1 0x397 1#64).physWrite 0x3000 (natLe 8 frame) else s

/-- A page of die 0 that moves to die 1, its leaf pinned meanwhile or not. -/
def migrating (pin : Bool) : State :=
  let s := (hot 0 false).updDie 0 (fun d => { d with migrations := [⟨5, 0x30000, 0x400018, 2 ^ 48 + 0x50000, 2 ^ 48 + 2 ^ 44, 65536, 1⟩] })
  if pin then s.physWrite 0x400018 (natLe 8 (2 ^ 56 + 2 ^ 53 + 0x50073)) else s

theorem clear_of {s : State} {pa n a b l : Nat} (h : (List.range n).all (fun j => match s.cell? (pa + j) with
      | some x => !(decide (a ≤ x) && decide (x < a + l)) && !(decide (b ≤ x) && decide (x < b + l))
      | none => true) = true) :
    ∀ j < n, ∀ x, s.cell? (pa + j) = some x → ¬ (a ≤ x ∧ x < a + l) ∧ ¬ (b ≤ x ∧ x < b + l) := by
  intro j hj x e
  have h := List.all_eq_true.mp h j (List.mem_range.mpr hj)
  rw [e] at h
  simp only [Bool.and_eq_true, Bool.not_eq_true', Bool.and_eq_false_iff, decide_eq_false_iff_not] at h
  omega

/-- A shootdown that may start and one that is busy and may end; every ring; a page that cannot move, that moves, whose frame is
refused; a page that has moved, and one pinned meanwhile. -/
theorem witness_TranslationAndRings :
    (shooting.word 0x40).getLsbD 63 = true ∧ (State.reset.word 0x40).getLsbD 63 = false
    ∧ shooting.readsPending ⟨5, 3, some 1⟩ = false ∧ shooting.writesPending ⟨5, 3, some 1⟩ = false
    ∧ (∀ v ∈ [(0, false), (2 ^ 48 + 2 ^ 44 + 65536, true), (2 ^ 48 + 65536, true)],
        let s := hot v.1 v.2; let page := leafAddr (2 ^ 56 + 0x50073) 3 0x30000;
        Tbl.look page (s.die 0).pages = some ⟨3, 1, 5, 0x30000⟩ ∧ s.leafOf 0 5 0x30000 = some (0x400018, 2 ^ 56 + 0x50073, 3) ∧ s.migth 0 5 = 3
          ∧ (s.die 0).migrations = [] ∧ (s.dieWord 0 0x39A).toNat % 2 = 1 ∧ (s.dieWord 0 0x39B).toNat = 0
          ∧ decide ((s.dieWord 1 0x396).toNat % 2 = 1 ∧ (s.dieWord 1 0x397).toNat = 1) = v.2
          ∧ (v.2 = true → leNat (s.physRead 0x3000 8) = v.1))
    ∧ (∀ b ∈ [true, false], ((migrating b).die 0).migrations = [⟨5, 0x30000, 0x400018, 2 ^ 48 + 0x50000, 2 ^ 48 + 2 ^ 44, 65536, 1⟩]
        ∧ leNat ((migrating b).physRead 0x400018 8) / 2 ^ 53 % 2 = (if b then 1 else 0))
    ∧ (migrating false).mem.wf = true ∧ (∀ y, ((migrating false).die y).monitors = [])
    ∧ ((migrating false).Apart 0x400018 8 ∧ ∀ j < 8, ∀ x, (migrating false).cell? (0x400018 + j) = some x →
        ¬ (2 ^ 48 + 2 ^ 44 ≤ x ∧ x < 2 ^ 48 + 2 ^ 44 + 65536) ∧ ¬ (2 ^ 48 + 0x50000 ≤ x ∧ x < 2 ^ 48 + 0x50000 + 65536))
    ∧ ((migrating false).Apart 0x2000 8 ∧ ∀ j < 8, ∀ x, (migrating false).cell? (0x2000 + j) = some x →
        ¬ (2 ^ 48 + 2 ^ 44 ≤ x ∧ x < 2 ^ 48 + 2 ^ 44 + 65536) ∧ ¬ (2 ^ 48 + 0x50000 ≤ x ∧ x < 2 ^ 48 + 0x50000 + 65536))
    ∧ ∀ i < 8, ∀ j < 8, (migrating false).cell? (0x400018 + i) ≠ (migrating false).cell? (0x2000 + j) := by
  refine ⟨?_, ?_, ?_, ?_, ?_, ?_, ?_, noMonitors_of ?_, ⟨apart_of ?_, clear_of ?_⟩, ⟨apart_of ?_, clear_of ?_⟩, ?_⟩ <;> decide +kernel

/-- Circuit 30, from die 0 to die 2, asks for wavelength 1, or holds it. -/
def claimant (act : Bool) : State := State.reset.setWord 0x301E (BitVec.ofNat 64 (2 ^ 63 + (if act then 2 ^ 62 else 0) + 2 * 2 ^ 49 + 2))

/-- The other circuits of the model that claim what entry c would claim with word v, of one die pair or external die. -/
def rivals (s : State) (c : Nat) (v : Word64) : List Nat :=
  (List.range 1024).filter (fun i => let x := s.word (0x3000 + i); let field := fun (x : Word64) (lo : Nat) => x.toNat / 2 ^ lo % 16
    i != c && (x.getLsbD 63 || x.getLsbD 62) && x.getLsbD 61 == v.getLsbD 61
      && (if v.getLsbD 61 then field x 57 == field v 57
          else (field x 53 == field v 53 && field x 49 == field v 49) || (field x 53 == field v 49 && field x 49 == field v 53))
      && (List.range 16).any (fun k => x.getLsbD k && v.getLsbD k))

/-- A circuit in each state; one with and without a clash, and with one that asks as well, of a lower and a higher number, for an entry
that is set up and for one that is fixed; the aperture over memory that is the program's, over a secure region, and in
recovery mode. -/
theorem witness_PackageWords :
    (State.reset.word 0x3018).getLsbD 63 = false ∧ (State.reset.word 0x3017).getLsbD 63 = true ∧ (State.reset.word 0x3017).getLsbD 62 = false
    ∧ ((State.reset.setWord 0x3018 (BitVec.ofNat 64 (2 ^ 62))).word 0x3018).getLsbD 62 = true ∧ State.reset.outbox = []
    ∧ (∃ y, y = State.reset.word 0x3000 ∧ y.getLsbD 63 = true ∧ y.getLsbD 61 = false ∧ y.toNat / 2 ^ 53 % 16 = 0 ∧ y.toNat / 2 ^ 49 % 16 = 2
      ∧ y.getLsbD 0 = true)
    ∧ (8 < 9 ∧ adjacent 0 1 = true ∧ adjacent 0 2 = false ∧ adjacent 0 8 = false)
    ∧ State.reset.recovery = false ∧ (∀ k < 4, State.reset.secureAt (2 ^ 32 - 4 + k) = false ∧ (2 ^ 32 - 4 + k) / 2 ^ 48 ≤ 2
      ∧ (State.reset.cell? (2 ^ 32 - 4 + k)).isSome = true)
    ∧ State.reset.Apart (2 ^ 32 - 4) 4 ∧ (∀ y, (State.reset.die y).monitors = [])
    ∧ ((State.reset.setWord 0x400 (BitVec.ofNat 64 3)).setWord 0x401 (BitVec.ofNat 64 65536)).secureAt 0 = true
    ∧ ({ State.reset with recovery := true } : State).recovery = true
    ∧ (∀ act ∈ [true, false], ∀ c ∈ [24, 31], rivals (claimant act) c (BitVec.ofNat 64 (2 * 2 ^ 49 + 2)) = [30])
    ∧ (∀ act ∈ [true, false], rivals (claimant act) 0 (State.reset.word 0x3000 ||| 2#64) = [30])
    ∧ (∀ act ∈ [true, false], ((claimant act).word 0x301E).getLsbD 63 = true ∧ ((claimant act).word 0x301E).getLsbD 62 = act)
    ∧ rivals State.reset 1 (BitVec.ofNat 64 (2 * 2 ^ 49 + 1)) = [0] := by
  refine ⟨?_, ?_, ?_, ?_, ?_, ⟨_, rfl, ?_⟩, ?_, ?_, ?_, apart_of ?_, noMonitors_of ?_, ?_, ?_, ?_, ?_, ?_, ?_⟩ <;> decide +kernel

/-- Die d's park state. -/
def parkState (d v : Nat) : State := State.reset.setWord 0x61 (BitVec.ofNat 64 (v * 2 ^ (2 * d)))

/-- Only the first island of die 0 runs, at state 3, on its way to state 1. -/
def raising : State :=
  { ((List.range 126).foldl (fun s k => s.setWord (0x800 + k) 0xE000#64) State.reset).setWord 0x800 0x6001#64 with moving := [(0, 1)] }

/-- An average at the ceiling and above it, a projection above it and not; ten steps below; an island that moves, and one whose raise a
lowering ends; a die in each state of its park word, to be parked or not. -/
theorem witness_PowerAndParking :
    (State.reset.word 0x30).toNat % 2 ^ 11 = 1000 ∧ ((State.reset.word 0x30).toNat % 2 ^ 11) * 1000 < 1000001
    ∧ 10 ≤ ({ State.reset with below := 10 } : State).below
    ∧ (State.reset.word 0x800).toNat / 2 ^ 13 % 8 ≠ 7 ∧ (State.reset.word 0x800).getLsbD 0 = false
    ∧ (let s : State := { State.reset.setWord 0x87D (BitVec.ofNat 64 (5 * 2 ^ 8)) with moving := [(125, 5)] };
        Tbl.look 125 s.moving = some 5 ∧ 5 = max ((s.word (0x800 + 125)).toNat / 2 ^ 8 % 8) (Tbl.get s.caps 125 0))
    ∧ (∀ v < 4, ∀ b ∈ [false, true], let s := (parkState 8 v).setWord 0x60 (if b then 256#64 else 0#64);
        (s.word 0x61).toNat / 2 ^ (2 * 8) % 4 = v ∧ (s.word 0x60).getLsbD 8 = b ∧ s.teams = [] ∧ s.recovery = false)
    ∧ ({ State.reset with recovery := true } : State).recovery = true
    ∧ (Tbl.look 0 raising.moving = some 1 ∧ (raising.word 0x800).toNat / 2 ^ 13 % 8 = 3
      ∧ ∀ k < 126, k ≠ 0 → (raising.word (0x800 + k)).toNat / 2 ^ 13 % 8 = 7) := by
  refine ⟨?_, ?_, ?_, ?_, ?_, ?_, ?_, ?_, ?_, ?_⟩ <;> decide +kernel

/-- Four ports of 200 GB, persistent or not. -/
def tiered (persistent : Bool) (s : State) : State := { s with ports := (List.range 4).map (fun i => (i, (200 * 10 ^ 9, persistent))) }

/-- An image of one EXIT. -/
def exitImage : FolioImage := ⟨0#64, 9, 0, natLe 8 0x1C2D0, [⟨0, 8, [], 0, 32, none, 0, []⟩]⟩

/-- A folio file of one EXIT for a team of 32 threads (R268 to R270): the header, a code quire at 96 and an image table at 128. -/
def exitFile (owner : Nat) : List Byte :=
  natLe 4 0x39464F58 ++ natLe 2 1 ++ natLe 2 2 ++ natLe 2 1 ++ natLe 1 1 ++ natLe 1 owner ++ natLe 52 0
    ++ natLe 4 1 ++ natLe 4 96 ++ natLe 4 8 ++ natLe 4 0 ++ natLe 4 8 ++ natLe 4 128 ++ natLe 4 32 ++ natLe 4 0
    ++ natLe 32 0x1C2D0 ++ natLe 8 0 ++ natLe 24 9

/-- A load of a file for the non-secure world: code at 0x10000, spine at 0x20000, the image table at 0x50000, the code page's leaf entry at
0x40000, the handle at 0x30000. -/
def file (bytes : List Byte) : FolioFile :=
  ⟨bytes, [exitImage.entries], exitImage, false, 5, 0x10000, 0x10000, 0x20000, 0x20000, [0x50000], [0x40000], some 0x30000⟩

theorem chosen (s : State) : s.chooseImage (file (exitFile 0)) = some (exitImage, some 0) := by
  have e : s.eligible exitImage = true := by
    simp [State.eligible, exitImage]
  have i : fileImages (file (exitFile 0)) = [exitImage] := by decide +kernel
  have p : (fileImages (file (exitFile 0))).zipIdx.filter (fun p => s.eligible p.1) = [(exitImage, 0)] := by
    rw [i]
    exact List.filter_eq_self.mpr (by simp [e])
  unfold State.chooseImage
  rw [p]
  rfl

/-- What the load of `file (exitFile 0)` writes: code, image table, spine, one leaf entry with V, T, RD, W and X. -/
theorem test_folioWrites : folioWrites (file (exitFile 0))
    ⟨exitImage, true, false, true, none, 5, 0x10000, 0x10000, 0x20000, 0x20000⟩ (some 0) 1
      = [(0x10000, natLe 8 0x1C2D0), (0x50000, natLe 8 0 ++ natLe 24 9),
        (0x20000, natLe 32 (2 ^ 150 + 2 ^ 152 + 0x3FFF * 2 ^ 160 + 2 ^ 176 + 2 ^ 192) ++ natLe 8 0 ++ natLe 4 0 ++ natLe 2 0xFFFF ++ natLe 2 0),
        (0x40000, natLe 8 0x10073)] := by
  decide +kernel

/-- The place of a cell of the checkpoint region is that of no other cell. -/
theorem inCkpt_cell {s : State} {z o : Nat} (h : s.inCkpt z = some o) : s.tierCell (s.ckptBase + o) = some z := by
  unfold State.inCkpt at h
  dsimp only at h
  split at h
  · rename_i c
    simp only [Bool.and_eq_true, decide_eq_true_eq] at c
    have e : s.ckptBase + o = s.tierOffset z := by
      have := Option.some.inj h
      omega
    rw [e]
    exact c.1.1
  · cases h

/-- A checkpoint that may start, one refused, one that may end, a restore; a nonce; a file of the other world, without an image, one
that the loader takes; a folio that is live. -/
theorem witness_CheckpointAndFolios :
    (tiered true State.reset).ckptPersistent = true ∧ (tiered true State.reset).anySecure = false ∧ (tiered false State.reset).ckptPersistent = false
    ∧ (tiered true State.reset).ckpt = .idle ∧ State.reset.jobRuns = false ∧ (counted 3#2 noParent false false false false).jobRuns = true
    ∧ (∀ e < 16, ((tiered true State.reset).word (0x400 + 2 * e)).getLsbD 2 = false) ∧ (tiered true State.reset).quiet = true
    ∧ (tiered true State.reset).mem.wf = true
    ∧ (∀ c ∈ [2 ^ 48, 2 ^ 48 + 8 * 2 ^ 44 + (64 * 10 ^ 9 - 1)], ∃ x, (tiered true State.reset).tierCell (c % 2 ^ 48 / 2 ^ 44 * (64 * 10 ^ 9) + c % 2 ^ 44) = some x
        ∧ (tiered true State.reset).inCkpt x = some (c % 2 ^ 48 / 2 ^ 44 * (64 * 10 ^ 9) + c % 2 ^ 44)
        ∧ ∀ z, (tiered true State.reset).inCkpt z = some (c % 2 ^ 48 / 2 ^ 44 * (64 * 10 ^ 9) + c % 2 ^ 44) → z = x)
    ∧ (List.replicate 32 5#8).length = 32
    ∧ fileOk [] = false ∧ fileOk (exitFile 1) = true ∧ fileOwner (exitFile 1) ≠ (file (exitFile 1)).world
    ∧ (fileOk (exitFile 0) = true ∧ fileOwner (exitFile 0) = (file (exitFile 0)).world ∧ (file (exitFile 0)).asid ≤ 255)
    ∧ State.reset.chooseImage (file (exitFile 0)) = some (exitImage, some 0) ∧ imageOk exitImage = true ∧ imageOk { exitImage with code := natLe 8 0 } = false
    ∧ State.reset.chooseImage { file (exitFile 0) with bytes := (exitFile 0).set 136 10#8 } = none
    ∧ Tbl.look 1 State.reset.folios = none ∧ State.reset.Apart 0x10000 8 ∧ State.reset.Apart 0x20000 48 ∧ State.reset.Apart 0x30000 16
    ∧ State.reset.Apart 0x40000 8 ∧ State.reset.Apart 0x50000 32
    ∧ ([(0x10000, 8), (0x50000, 32), (0x20000, 48), (0x40000, 8), (0x30000, 16)] : List (Nat × Nat)).Pairwise (fun a b =>
        ∀ i < a.2, ∀ j < b.2, State.reset.cell? (a.1 + i) ≠ State.reset.cell? (b.1 + j))
    ∧ (Tbl.look 1 (rig [] []).folios).any (fun y => y.live && y.spinePA == 0x8000) = true ∧ (rig [] []).Apart 0x8000 32
    ∧ placesAll (file (exitFile 0)) exitImage (some 0) = true ∧ placesAll { file (exitFile 0) with leaves := [] } exitImage (some 0) = false
    ∧ State.reset.loadShut false [(0x10000, 8), (0x50000, 32), (0x20000, 48), (0x40000, 8), (0x30000, 16)] = false ∧ 0x30000 % 16 = 0
    ∧ (rig [] []).recovery = false ∧ State.reset.recovery = false ∧ ({ State.reset with recovery := true } : State).recovery = true :=
  ⟨by decide +kernel, rfl, by decide +kernel, rfl, rfl, by decide +kernel, by decide +kernel, by decide +kernel, rfl,
    by
      intro c hc
      simp only [List.mem_cons, List.not_mem_nil, or_false] at hc
      rcases hc with rfl | rfl <;> exact ⟨_, rfl, by decide +kernel, fun z hz => (Option.some.inj (inCkpt_cell hz)).symm⟩,
    rfl, rfl, by decide +kernel, by decide +kernel, by decide +kernel, chosen _, rfl, by decide +kernel,
    by
      have i : fileImages { file (exitFile 0) with bytes := (exitFile 0).set 136 10#8 } = [{ exitImage with lvl := 10 }] := by decide +kernel
      have p : filePortable { file (exitFile 0) with bytes := (exitFile 0).set 136 10#8 } = none := by decide +kernel
      have q (s : State) : (fileImages { file (exitFile 0) with bytes := (exitFile 0).set 136 10#8 }).zipIdx.filter (fun p => s.eligible p.1)
          = [] := by
        rw [i]
        simp [State.eligible]
      unfold State.chooseImage
      rw [q, p]
      rfl,
    rfl, apart_of (by decide +kernel), apart_of (by decide +kernel), apart_of (by decide +kernel), apart_of (by decide +kernel), apart_of (by decide +kernel),
    by decide +kernel, rfl, apart_of (by decide +kernel), by decide +kernel, rfl, by decide +kernel, rfl, rfl, rfl, rfl⟩

/-! ### Witnesses: words, steps and invariants -/

/-- Instructions whose fields stand at the ends of their ranges. -/
theorem witness_EncodeDecode : ∀ i ∈ ([.iadd never .i8x4 true (w 63) (w 0) (imm 511), .sysc g (imm 0), .exit g,
    .lds g 15#4 .b32 (w 63) (.uni 127#7), .plop g 0xE#4 6#3 ⟨false, 7#3⟩ ⟨true, 7#3⟩] : List Instr), i.hasWord = true ∧ i.wf = true := by
  decide +kernel

/-- A lane with one leaf whose instruction, a YIELD, stands in memory; the same leaf standing in its lane; an event; elapsing cycles;
nothing. -/
theorem witness_StepRunsDecoded :
    (let s := State.reset.withFetchWord 64 0x1C2DC; s.agenda = [.lane 0 0 0 []] ∧ Tbl.look 0 (s.core 0 0).holder = none
      ∧ (let a := State.endYields (State.promoteLane { s with agenda := [] } 0 0 0) [⟨0, 0, 1⟩];
          ((State.promoteLane { s with agenda := [] } 0 0 0).candidates 0 0 0).map Candidate.ref = [⟨0, 0, 1⟩] ∧ (a.asyncTake 0 0).isNone = true
            ∧ (a.warp? 0 0).any (fun x => (x.entry? 1).any (fun e => (a.team? 0).any (fun t => e.pc.toNat % 4 == 0
              && (match a.xlate t.die t.core (Tbl.get a.launches t.launch Launch.none).asid (a.fetchVA t x e) ⟨false, false, true⟩
                  (Tbl.get a.launches t.launch Launch.none).secure with
                | .ok p => (match decodeWord (wordOfBytes (((a.fetchBlock t.die t.core p.pa).1.drop (a.fetchVA t x e % 32)).take 16)) with
                  | .ok i => i == .yield g && a.fetchVA t x e % 32 + i.bytes ≤ 32
                  | _ => false)
                | _ => false)))) = true
            ∧ (match exec (.yield g) { (a.fetchBlock 0 0 0x8000).2 with issuer := some ⟨0, 0, 1⟩ } with | .next v => v.held == .no | _ => false) = true))
    ∧ (let s := (State.reset.withFetchWord 64 0x1C2DC).updCore 0 0 (fun z => { z with holder := [(0, ⟨0, 0, 1⟩)] }); s.agenda = [.lane 0 0 0 []]
      ∧ Tbl.look 0 (s.core 0 0).holder = some ⟨0, 0, 1⟩
      ∧ (let a : State := { s with agenda := [] };
          ⟨0, 0, 1⟩ ∈ (a.candidates 0 0 0).map Candidate.ref
            ∧ (match a.fetch ⟨0, 0, 1⟩ with
              | .instr i t => i == .yield g && (match exec i { t with issuer := some ⟨0, 0, 1⟩ } with | .next v => v.held == .no | _ => false)
              | _ => false) = true))
    ∧ ({ State.reset with agenda := [.event .limiterRaise 5#128] } : State).agenda = .event .limiterRaise 5#128 :: []
    ∧ ({ State.reset with agenda := [.elapse 8 8 1] } : State).agenda = .elapse 8 8 1 :: []
    ∧ State.reset.agenda = [] := by
  refine ⟨⟨?_, ?_, ?_⟩, ⟨?_, ?_, ?_⟩, ?_, ?_, ?_⟩ <;> decide +kernel

/-- A step that stores to memory from a state in canonical form. -/
theorem witness_MemoryInvariant :
    let s : State := { sending (rig [] []) with agenda := [.event (.memoryWritePerform 5)] };
    s.mem.wf = true ∧ (match step s with | .next _ => true | _ => false) = true := by
  refine ⟨?_, ?_⟩ <;> decide +kernel

/-- A word with other bits set; a leaf at a word of zeros, with nothing between it and its handler. -/
theorem witness_OpcodeZero : (BitVec.ofNat 128 (2 ^ 64 - 2 ^ 10)).extractLsb' 2 8 = 0#8
    ∧ ∃ c, (rig [] []).ctx Guard.always = some c ∧ c.on ≠ [] ∧ ∃ v, (rig [] []).Handled c v :=
  ⟨by decide, _, rfl, by decide +kernel, 0#32, by unfold State.Handled; decide +kernel⟩

/-- PKGID written and not, outside recovery mode; an external circuit while it is unassigned. -/
theorem witness_PackageIdentifier : State.reset.pkgSet = false ∧ ({ State.reset with pkgSet := true } : State).pkgSet = true
    ∧ State.reset.word 0x10 &&& 0xFFFFF#64 = 0xFFFFF#64 ∧ (BitVec.ofNat 64 (2 ^ 63 + 2 ^ 61)).getLsbD 61 = true
    ∧ (State.reset.word (0x3000 + 24)).getLsbD 63 = false ∧ (State.reset.word (0x3000 + 1023)).getLsbD 63 = false
    ∧ State.reset.recovery = false := by
  refine ⟨?_, ?_, ?_, ?_, ?_, ?_, ?_⟩ <;> decide +kernel

/-- An island that runs, and one that is parked. -/
theorem witness_ResetAndCycles : (State.reset.word (0x800 + 14 * 8 + 8)).toNat / 2 ^ 13 % 8 ≠ 7
    ∧ ((State.reset.setWord (0x800 + 14 * 8 + 8) 0xE000#64).word (0x800 + 14 * 8 + 8)).toNat / 2 ^ 13 % 8 = 7 := by
  refine ⟨?_, ?_⟩ <;> decide +kernel

/-- A word that decodes to an instruction with a guard; an issue under `?!p7`. -/
theorem witness_GuardField : decodeWord 0x0380BCC0CD0DC034#128 = .ok (.shl g .n32 (w 13) (w 12) (imm 5))
    ∧ ∃ c, (rig [] []).ctx ⟨true, 7#3⟩ = some c := ⟨rfl, _, rfl⟩

/-! ### Ill-formed terms, one for each check -/

/-- A type outside the opcode's list; a destination that is an immediate. -/
theorem test_illFormed_types : ∀ i ∈ ([.iadd g .f32 false (w 0) (w 1) (w 2), .iaddX g .b32 false (w 0) (w 1) (w 2) .plain,
    .iaddI g .none false (w 0) (w 1) 0#32, .iadd g .i32 false (imm 0) (w 1) (w 2), .imul g .i8x4 .lo (w 0) (w 1) (w 2),
    .imulX g .f32 .lo (w 0) (w 1) (w 2) .plain, .imulI g .i32 .lo (imm 0) (w 1) 0#32, .idiv g .i16x2 false false (w 0) (w 1) (w 2),
    .iabs g .n32 false (w 0) (w 1), .imad g .b32 false (w 0) (w 1) (w 2) (w 3) .plain, .iset g .b32 .lt 0#3 (w 0) (w 1),
    .isetI g .f32 .eq 0#3 (w 0) 0#32, .and g .i8x4 (w 0) (w 1) (w 2), .andX g .f32 (w 0) (w 1) (w 2) .plain, .andI g .f32 (w 0) (w 1) 0#32,
    .shl g .f32 (w 0) (w 1) (w 2), .popc g .f32 (w 0) (w 1), .bfx g .f32 (w 0) (w 1) (w 2), .bfi g .f32 (w 0) (w 1) (w 2) (w 3) .plain,
    .mov g .b32 true (w 0) (w 1), .movX g .b32 true (w 0) (w 1) .plain, .movi g .bf16 false (w 0) 0#32, .movxRead g 0#2 (imm 0),
    .shfl g .i32 .idx (w 0) (w 1) (w 2), .ballot g (imm 0) ⟨false, 7#3⟩, .redw g .f32 .and (w 0) (w 1), .redw g .b32 .add (w 0) (w 1),
    .sel g .none ⟨false, 7#3⟩ (w 0) (w 1) (w 2), .selX g .none ⟨false, 7#3⟩ (w 0) (w 1) (w 2) .plain] : List Instr), i.wf = false := by
  decide +kernel

/-- The same for floating point, conversion and packing. -/
theorem test_illFormed_float : ∀ i ∈ ([.fadd g .i32 .zero (w 0) (w 1) (w 2), .faddX g .d8 .zero (w 0) (w 1) (w 2) .plain,
    .faddI g .e4m3 .zero (w 0) (w 1) 0#32, .ffma g .d8 .zero (w 0) (w 1) (w 2) (w 3) .plain, .fmin g .e4m3x4 .fctl (w 0) (w 1) (w 2),
    .fminX g .d8 .fctl (w 0) (w 1) (w 2) .plain, .frcp g 0#4 .e4m3x4 .zero (w 0) (w 1), .fsfn g 0#4 .f64 .sin .fctl (d 0) (d 1),
    .fset g .bf16x2 .eq false 0#3 (w 0) (w 1), .fsetX g .d8 .eq false 0#3 (w 0) (w 1) .plain, .fsetI g .e4m3 .eq false 0#3 (w 0) 0#32,
    .fcls g .bf16x2 (w 0) (w 1), .frnd g .d8 .zero (w 0) (w 1), .fcvt g .b32 .f32 .zero false (w 0) (w 1), .fcvt g .f32 .i8x4 .zero false (w 0) (w 1),
    .fcvtX g .f32 .none .zero false (w 0) (w 1) .plain, .cvti g .f32 .i32 false (w 0) (w 1), .cvtiX g .i32 .b32 false (w 0) (w 1) .plain,
    .pack g .i8x4 2#5 (w 0) (w 1) (w 2), .pack g .bf16x2 5#5 (w 0) (w 1) (w 2), .pack g .bf16x2 24#5 (w 0) (w 1) (w 2),
    .packX g .e4m3x4 0#5 (w 0) (w 1) (w 2) .plain, .unpk g .i32 false (w 0) (w 1), .unpkX g .f32 false (w 0) (w 1) .plain,
    .vdot g 0#4 .i8x4 .zero (w 0) (w 1) (w 2) (w 3) .plain] : List Instr), i.wf = false := by
  decide +kernel

/-- An operand that is no capability, no uniform register, no handle, no predicate, an immediate where none may stand; an index or a
swizzle on a position that takes none; an index register without an indexed position. -/
theorem test_illFormed_operands : ∀ i ∈ ([.ld g 0#4 .b32 (w 0) (w 1) (imm 0), .ldI g 0#4 .b32 (imm 0) (q 1) 0#32, .st g 0#4 .b32 (w 1) (imm 0) (w 0),
    .stI g 0#4 .b32 (q 1) (imm 0) 0#32, .lds g 0#4 .b32 (imm 0) (w 1), .sts g 0#4 .b32 (w 1) (imm 0), .pref g 0#4 false (w 0) (imm 0),
    .atom g 0#4 .i16 (.red .add) (w 0) (q 1) (imm 0) (w 2) .plain, .atom g 0#4 .i32 .xchg (w 0) (q 1) (imm 0) (w 2) .plain,
    .cas g 0#4 .i32 (w 0) (q 1) (imm 0) (w 2), .red g 0#4 .b32 .add (q 1) (imm 0) (w 2) .plain, .capn g 0#5 (w 0) (q 1) (w 2) (w 3),
    .capq g .base (d 0) (d 1), .caps g (q 0) (w 1) (w 2), .rgn (imm 0) (w 1) (w 2) (w 3), .srd g (d 0) ⟨.package, 1#4, 0#16⟩, .swr g (d 0) ⟨.special, 1#4, 0#16⟩,
    .brx g (imm 0) 0#32, .call g (imm 0) 0#32, .acq g .die (w 0), .bind g (q 0) (w 0), .unbind g (w 0), .waitc g .i16 .eq (q 1) (imm 0) (w 0) .plain,
    .waitc g .b32 .lt (q 1) (imm 0) (w 0) .plain, .rvarr g (w 0), .rwait g (imm 0) (w 0), .cpwait g (w 0), .task g (w 0) (imm 0), .krel g (w 0),
    .qpush g (w 0) (q 1), .qpop g (w 0) (imm 0), .lnch g (w 0) (q 1) (w 1) (w 2), .cncl g (imm 0), .cwait g (w 0) (d 0), .tokp g (w 0),
    .vthr g 0#4 (w 0) (w 1), .topk g 0#4 .full (w 8) (imm 0) none, .iflush g (w 0) (w 1), .unassignedOpcode 0#128,
    .iaddX g .i32 false (w 0) (imm 1) (w 2) { XCtl.plain with ix1 := true }, .iaddX g .i32 false (w 0) (w 1) (w 2) { XCtl.plain with ixr := 1#2 },
    .iaddX g .i32 false (w 0) (w 1) (w 2) { XCtl.plain with sw1 := .rev }, .iaddX g .i16x2 false (w 0) (w 1) (w 2) { XCtl.plain with sw2 := .bc2 },
    .iaddX g .i32 false (w 0) (w 1) (w 2) { XCtl.plain with ix3 := true }] : List Instr), i.wf = false := by
  decide +kernel

/-- Copies and the matrix unit: a slot offset outside `.gr`, a second source that the form does not take, a scaled form of BF16, an
unscaled one of D8, a stride in the register form, a participant count in the local-store form. -/
theorem test_illFormed_engines : ∀ i ∈ ([.copy g 0#4 .gl (w 0) (q 1) (imm 0) 0#16 31#5 0#6 1#12, .copy g 0#4 .gx (w 0) (q 1) (imm 0) 0#16 31#5 0#6 0#12,
    .copym g 0#4 true (w 0) (w 1) (some (imm 0)) 0#16 31#5 0#16, .mma g 0#4 .bf16 (h 0) (some 0#7) { mmaUp false false 1#8 with astr := 0#9, scl := true },
    .mma g 0#4 .d8 (h 0) none { mmaUp false false 1#8 with astr := 0#9 }, .mma g 0#4 .bf16 (h 0) none (mmaUp false false 1#8),
    .mma g 0#4 .bf16 (.uni 0#7) none (mmaUp true false 1#8), .mma g 0#4 .i32 (h 0) none { mmaUp false false 1#8 with astr := 0#9 },
    .mspa g 0#4 .f32 .s24 (h 1) (h 0) none { mmaUp false false 1#8 with astr := 0#9 }, .mloop g 0#4 .bf16 (w 0) (.uni 0#7) none loopUp,
    .mldb g 0#4 .bf16 true (q 0) none 0#16 1#16 31#5, .mlds g 0#4 false (w 0) (q 0) (some (imm 0)) 0#16 31#5,
    .mdrn g 0#4 .reg false none none none (drainUp false 31#5), .mdrn g 0#4 .st false (some (w 0)) (some (q 1)) (some (imm 0)) (drainUp false 31#5),
    .mdrn g 0#4 .st false none (some (q 1)) none (drainUp false 31#5), .mzro g 0#4 .bf16 (imm 0) (imm 0),
    .vdset g 0#4 .sign (some (w 0)) (.uni 0#7) ⟨0#16, 0#5, 0#16, 0#7, 0#15⟩, .vdset g 0#4 .ge (some (w 0)) (.uni 0#7) ⟨0#16, 0#5, 0#16, 1#7, 0#15⟩,
    .topk g 0#4 .cnt (w 0) (imm 0) (some (imm 0))] : List Instr), i.wf = false := by
  decide +kernel

/-- Events of a die, a core, a lane, an entry, a queue, a circuit or a port that is not there. -/
theorem test_illFormed_events : ∀ i ∈ ([.faultRecordPost 9, .frespServiced 9 0, .teamAdmit 9, .splitFill 0 18 0, .splitFill 0 0 64, .claimdlReport 9 0,
    .convoyNoticeArrival 0 15, .copyBytesLand 0 0 0 0, .multicastBufferDrain 9 0, .messageArrival ⟨1024, 0#32, 0#20, []⟩, .armedEntryEnable 64 0#64,
    .entryComplete 16383, .graphCopyNodeComplete 0 4096, .jobStart 64, .keyRequestArrival 9 0, .copybackStart 0 0 4, .queueRefillLand 576,
    .quayWindowClose 0 18 0, .instanceStart 9 0 0, .migrationStart 9 0, .serviceRingEnable 0 5 0#64, .circuitSetup 1024 0#64, .circuitActive 1024,
    .cxlPortTrained 4 0 false, .hostApertureAccess 1 none 4294967296, .islandRequestWrite 128 0#64, .islandTransitionDone 128, .diePark 9,
    .attestationRequest [], .registerWrite .special 0 0 0#64, .igtahildWorldWrite .die 9 0 0#64] : List Instr), i.wf = false := by
  decide +kernel

/-! ### Words written out from the spec's encodings, and single results worked out by the spec -/

/-- What the decoder reads from a word. -/
def reads (n : Nat) (i : Instr) : Bool := (decodeWord (BitVec.ofNat 128 n)).toOption == some i

/-- Integer, logic and moves (R93, R94, R344, R347, R357; 17_programs_irregular's binary search). -/
theorem test_decode_integer :
    reads 0x04C60C50C40DC028 (.andn g .b32 (w 4) (w 5) (w 6)) && reads 0x000186A02A400040C061C0D9 (.isetI g .i32 .ge 3#3 (w 4) 100000#32)
      && reads 0x13A10E80C0A1C020 (.iset g .n32 .lt 5#3 (w 40) (w 33)) && reads 0x1800000F8001C058 (.movxWrite g 1#2 (k 7))
      && reads 0x0420000004C00040C10DC0AD (.movX g .b32 false (.reg .w32 8#9) (w 4) { XCtl.plain with ixD := true, ixr := 1#2 }) = true := by
  decide +kernel

/-- Warp-wide operations, predicates and control (R94, R100, R320, R368, R387). -/
theorem test_decode_control :
    reads 0x0800000A0041C060 (.vote g .any 2#3 ⟨false, 5#3⟩) && reads 0x00800040C70DC068 (.redw g .f32 .add (w 7) (w 4))
      && reads 0x00000040C001C2CC (.ret g (w 4)) && reads 0x1C2D0 (.exit g) && reads 0x1C2DC (.yield g)
      && reads 0xFFFFFFC0FFFFFFC000000000000042C2 (.bra ⟨false, 1#3⟩ 0xFFFFFFC0#32 0xFFFFFFC0#32) = true := by
  decide +kernel

/-- Floating point, the word laid out from R69, R72, R73 and R95: MOD .rz and .ftz, TYPE .f32, OPC 0x40; conversion and packing (R97). -/
theorem test_decode_float_convert :
    reads 0x50860C50C40DC100 (.fadd g .f32 ⟨.rz, .ftz⟩ (w 4) (w 5) (w 6)) && reads 0x11C00450C105C1C0 (.fcvt g .d8 .f32 ⟨.rn, .fctl⟩ false (.reg .w8 8#9) (w 5))
      && reads 0x17000050C40DC1D8 (.unpk g .i8x4 true (w 4) (w 5)) = true := by
  decide +kernel

/-- Memory and atomics (R98, R348, R315, R366; 18_programs_system's load). -/
theorem test_decode_memory :
    reads 0x00001000048000414611C205 (.ldI g 0#4 .b64 (d 3) (q 1) 4096#32) && reads 0x008D0C01500DC200 (.ld g 0#4 .f32 (w 16) (q 0) (w 13))
      && reads 0x0000018300850C41440DC225 (.atom g 0#4 .f32 (.red .add) (w 4) (q 1) (w 5) (w 6) .plain)
      && reads 0x0000018300850C414001C22D (.red g 0#4 .f32 .add (q 1) (w 5) (w 6) .plain) = true := by
  decide +kernel

/-- Capabilities, register management and special registers (R99, R326, R62, R375). -/
theorem test_decode_capability :
    reads 0x0000002E500098814015C281 (.capn g 0x0A#5 (q 0) (q 2) (k 4) (k 5)) && reads 0x000001C1C001C294 (.claim (imm 224))
      && reads 0x000000118001C290 (.give (k 8)) && reads 0x000000000C0DC29D (.srd g (w 12) ⟨.special, 0#4, 0#16⟩) = true := by
  decide +kernel

/-- Synchronisation, copies, queues and keys (R101, R103, R188, R195, R213, R217, R241). -/
theorem test_decode_sync :
    reads 0x280001010001C304 (.acq g .package (d 8)) && reads 0x0000000BC001C31C (.rvarr g (imm 5))
      && reads 0x08013809C021C321 (.rvwaitTimed g (imm 4) (k 9) 1#3 .plain) && reads 0x000000610001C34C (.krel g (d 3))
      && reads 0x0008140380008350 (.qpush ⟨false, 2#3⟩ (k 1) (q 2)) && reads 0x0000000388148354 (.qpop ⟨false, 2#3⟩ (q 2) (k 1))
      && reads 0x001F20200000000000001C4140D9C342 (.copy g 0#4 .gl (k 6) (q 1) (imm 0) 31#16 4#5 1#6 0#12) = true := by
  decide +kernel

/-- Matrix, verdict and system (R104, R105, R146, R255, R264, R319). -/
theorem test_decode_matrix_system :
    reads 0x00801C01C001C398 (.mzro g 0#4 .f32 (imm 0) (imm 0)) && reads 0x1C3A0 (.tokw g) && reads 0x000000158001C39C (.tokp g (k 10))
      && reads 0x000207F80000408008001C814001C396 (.mdrn g 0#4 .st false none (some (q 2)) (some (imm 0)) ⟨2#16, 0#5, 0xFF#8, 0#6, false, 4#16, 1#5⟩)
      && reads 0x000107F80004010100C000078001C382 (.mma g 0#4 .bf16 (k 3) none ⟨1#16, 0#5, 0xFF#8, 0#16, true, false, false, 2#9, 0#6, true⟩)
      && reads 0x1C3CC .eret && reads 0x1C3C4 (.bkpt g) && reads 0x0000B8814001C3D0 (.iflush g (q 2) (k 5)) = true := by
  decide +kernel

/-- Thread 0's 32-bit register w`r` and %fstat after one instruction on these 32-bit registers; nothing where the step does not end in
a next state that has passed it. -/
def gives (i : Instr) (rs : List Nat) (r : Nat) (v fstat : Nat) : Bool :=
  match exec i (rig rs rs) with
  | .next u => (u.warp? 0 0).any (fun x => x.threads.head?.any (fun t =>
      t.regs.toNat / 2 ^ (32 * r) % 2 ^ 32 == v && t.fstat.toNat == fstat))
  | _ => false

/-- R346's table of division; R344's worked example of the packed sum, saturated and wrapped. -/
theorem test_step_integer :
    gives (.idiv g .i32 false false (w 0) (w 1) (w 2)) [0, 0xFFFFFFF9, 2] 0 0xFFFFFFFD 0
      && gives (.idiv g .i32 false true (w 0) (w 1) (w 2)) [0, 0xFFFFFFF9, 2] 0 0xFFFFFFFF 0
      && gives (.idiv g .i32 false false (w 0) (w 1) (w 2)) [0, 0x80000000, 0xFFFFFFFF] 0 0x80000000 0
      && gives (.iadd g .i8x4 true (w 4) (w 5) (w 6)) [0, 0, 0, 0, 0, 0x7F800102, 0x0180FF01] 4 0x7F800003 0
      && gives (.iadd g .i8x4 false (w 4) (w 5) (w 6)) [0, 0, 0, 0, 0, 0x7F800102, 0x0180FF01] 4 0x80000003 0 = true := by
  decide +kernel

/-- R336's worked example: one rounding of a product and a sum; R118's: a number to D8, inexact. -/
theorem test_step_float :
    gives (.ffma g .f32 ⟨.rn, .fctl⟩ (w 0) (w 1) (w 2) (w 3) .plain) [0, 0x3F800800, 0x3F800800, 0xBF801000] 0 0x33800000 0
      && gives (.fcvt g .d8 .f32 ⟨.rn, .fctl⟩ false (.reg .w8 0#9) (w 1)) [0, 0x40533333] 0 0x14 1 = true := by
  decide +kernel
/-- R326's worked example: narrowed to 1,024 bytes from 2,048, without ST and STC. -/
theorem test_capn : capnTrap ⟨0x2000000000, 4096, 0, 0xF, 0⟩ true 0 0x800 0x400 = none
    ∧ capnResult ⟨0x2000000000, 4096, 0, 0xF, 0⟩ 0x800 0x400 0x0A = ⟨0x2000000800, 1024, 0, 5, 0⟩ := by
  decide +kernel

/-- R136's group sum: sixteen products of 2^-26 are added to 1 at once. -/
theorem test_matElem :
    matElem .bf16 false false ⟨[(0, (List.range 16).map (fun i => (i, 0x3900)))], List.replicate 16 [0x3900], [], [], [], [], 0, []⟩ 0 0 0x3F800000
      = (0x3F800002, 0#5) := by
  decide +kernel

/-- 08_verdict_accumulation's table: T = 10, a threshold passed below and above, and not decided. -/
theorem test_monitor :
    monitor .ge 0 0x40400000#32 0x41200000#32 0x40000000#32 = 0x7FB00000#32
      ∧ monitor .ge 0 0x40400000#32 0x41200000#32 0x41580000#32 = 0x7FB10000#32
      ∧ monitor .ge 0 0x40400000#32 0x41200000#32 0x41000000#32 = 0x41000000#32
      ∧ monitor .ge 1 0x3F800000#32 0x41200000#32 0x41340000#32 = 0x7FB10001#32 := by
  decide +kernel

/-- R211's key, and R177's home die and slice of an address. -/
theorem test_homes : keyHome 0x123456 = 2 ∧ homeOf 0x1234567880 = 4 ∧ sliceOf 0x1234567880 = 14 := by
  decide +kernel

end Sys2Proof.Tests
end

/-! PROOFS. The package's words (spec/00, spec/15): bits of control words, circuits, the host's aperture, writes of words from outside
the lanes, the machine at reset and its cycle counters. -/

namespace Sys2Proof.Machine

/-! ### Bits of control words (R5) -/

theorem getLsbD_bitRange {hi lo : Nat} (h : lo ≤ hi) (hi64 : hi < 64) (k : Nat) :
    (bitRange hi lo).getLsbD k = decide (lo ≤ k ∧ k ≤ hi) := by
  unfold bitRange
  rw [BitVec.getLsbD_ofNat, Nat.testBit_mul_two_pow, Nat.testBit_two_pow_sub_one]
  grind

theorem getLsbD_mergeWord (old v rw w1c : Word64) (k : Nat) :
    (mergeWord old v rw w1c).getLsbD k
      = if rw.getLsbD k then v.getLsbD k else (old.getLsbD k && !(w1c.getLsbD k && v.getLsbD k)) := by
  unfold mergeWord
  by_cases hk : k < 64
  · cases h : rw.getLsbD k <;> simp [h, hk, -BitVec.getLsbD_eq_getElem]
  · simp [BitVec.getLsbD_of_ge _ k (not_lt.mp hk)]

/-- A write of a word without W1C bits. -/
theorem getLsbD_mergeWord_rw (old v rw : Word64) (k : Nat) :
    (mergeWord old v rw 0#64).getLsbD k = if rw.getLsbD k then v.getLsbD k else old.getLsbD k := by
  rw [getLsbD_mergeWord, BitVec.getLsbD_zero, Bool.false_and, Bool.not_false, Bool.and_true]

theorem getLsbD_setBit (v : Word64) {i : Nat} (hi : i < 64) (k : Nat) :
    (v ||| bitRange i i).getLsbD k = if k = i then true else v.getLsbD k := by
  rw [BitVec.getLsbD_or, getLsbD_bitRange le_rfl hi]
  grind

theorem getLsbD_clearBit (v : Word64) {i : Nat} (hi : i < 64) (k : Nat) :
    (v &&& ~~~(bitRange i i)).getLsbD k = if k = i then false else v.getLsbD k := by
  rw [BitVec.getLsbD_and, BitVec.getLsbD_not, getLsbD_bitRange le_rfl hi]
  by_cases hk : k < 64
  · grind
  · simp [BitVec.getLsbD_of_ge v k (not_lt.mp hk)]

/-- A field depends on its own bits alone. -/
theorem bitsOf_congr {v w : Word64} {hi lo : Nat} (h : ∀ k, lo ≤ k → k ≤ hi → v.getLsbD k = w.getLsbD k) :
    bitsOf v.toNat hi lo = bitsOf w.toNat hi lo := by
  apply Nat.eq_of_testBit_eq
  intro j
  unfold bitsOf
  rw [Nat.testBit_mod_two_pow, Nat.testBit_div_two_pow, Nat.testBit_mod_two_pow, Nat.testBit_div_two_pow]
  by_cases hj : j < hi + 1 - lo
  · rw [BitVec.testBit_toNat, BitVec.testBit_toNat, h (j + lo) (by omega) (by omega)]
  · simp [hj]

/-! ### The host's writes in recovery mode and out of it (R281) -/

theorem hostWrote_of_awake {s : State} (h : s.recovery = false) (t : State) : s.hostWrote t = .next t := by
  simp [State.hostWrote, h]

theorem hostWrote_of_recovery {s : State} (h : s.recovery = true) (t : State) : s.hostWrote t = .next s := by
  simp [State.hostWrote, State.noEvent, h]

/-! ### Circuits (R280) -/

@[simp] theorem circuitOf_en (w : Word64) : (circuitOf w).en = w.getLsbD 63 := bitOf_eq w.toNat 63
@[simp] theorem circuitOf_act (w : Word64) : (circuitOf w).act = w.getLsbD 62 := bitOf_eq w.toNat 62
@[simp] theorem circuitOf_ext (w : Word64) : (circuitOf w).ext = w.getLsbD 61 := bitOf_eq w.toNat 61

theorem testBit_wmask (w : Word64) (k : Nat) : (circuitOf w).wmask.testBit k = (decide (k < 16) && w.getLsbD k) := by
  simp only [circuitOf, bitsOf, Nat.testBit_mod_two_pow, Nat.testBit_div_two_pow]
  rfl

/-- Two masks claim one wavelength where both have its bit. -/
theorem wmask_and_ne_zero_iff (v w : Word64) :
    (circuitOf v).wmask &&& (circuitOf w).wmask ≠ 0 ↔ ∃ k < 16, w.getLsbD k = true ∧ v.getLsbD k = true := by
  constructor
  · intro h
    by_contra none
    refine h (Nat.zero_of_testBit_eq_false fun k => ?_)
    rw [Nat.testBit_and, testBit_wmask, testBit_wmask]
    grind
  · rintro ⟨k, hk, hw, hv⟩ h
    have := Nat.zero_testBit k
    rw [← h, Nat.testBit_and, testBit_wmask, testBit_wmask] at this
    simp [hk, hw, hv] at this

/-- Two words agree in what a set-up asks for: EXT, PORT, the dies and WMASK. -/
def SameRequest (v w : Word64) : Prop := ∀ k < 62, 48 < k ∨ k < 16 → v.getLsbD k = w.getLsbD k

theorem SameRequest.circuitOf {v w : Word64} (h : SameRequest v w) :
    circuitOf v = { circuitOf w with en := (circuitOf v).en, act := (circuitOf v).act } := by
  have ext : bitOf v.toNat 61 = bitOf w.toNat 61 := by
    rw [bitOf_eq, bitOf_eq]; exact h 61 (by omega) (by omega)
  have port := bitsOf_congr (hi := 60) (lo := 57) (fun k _ _ => h k (by omega) (by omega))
  have dieA := bitsOf_congr (hi := 56) (lo := 53) (fun k _ _ => h k (by omega) (by omega))
  have dieB := bitsOf_congr (hi := 52) (lo := 49) (fun k _ _ => h k (by omega) (by omega))
  have wmask := bitsOf_congr (hi := 15) (lo := 0) (fun k _ _ => h k (by omega) (by omega))
  simp only [Machine.circuitOf, ext, port, dieA, dieB, wmask]

theorem SameRequest.circuitRivals {v w : Word64} (h : SameRequest v w) (s : State) (c : Nat) :
    s.circuitRivals c (Machine.circuitOf v) = s.circuitRivals c (Machine.circuitOf w) := by
  rw [h.circuitOf]; rfl

theorem SameRequest.circuitRefused {v w : Word64} (h : SameRequest v w) (s : State) (c : Nat) :
    s.circuitRefused c (Machine.circuitOf v) = s.circuitRefused c (Machine.circuitOf w) := by
  rw [h.circuitOf]; rfl

/-- Entry i, set up or still active, has a wavelength that word v asks for as entry c, on the same port or die pair. -/
def State.Claims (s : State) (c : Nat) (v : Word64) (i : Nat) : Prop :=
  let w := s.word (0x3000 + i)
  i < 1024 ∧ i ≠ c ∧ (w.getLsbD 63 = true ∨ w.getLsbD 62 = true) ∧ w.getLsbD 61 = v.getLsbD 61
    ∧ (if v.getLsbD 61 then bitsOf w.toNat 60 57 = bitsOf v.toNat 60 57
        else (bitsOf w.toNat 56 53 = bitsOf v.toNat 56 53 ∧ bitsOf w.toNat 52 49 = bitsOf v.toNat 52 49)
          ∨ (bitsOf w.toNat 56 53 = bitsOf v.toNat 52 49 ∧ bitsOf w.toNat 52 49 = bitsOf v.toNat 56 53))
    ∧ ∃ k < 16, w.getLsbD k = true ∧ v.getLsbD k = true

/-- A set-up of entry c with word v is refused (R280). -/
def State.Refuses (s : State) (c : Nat) (v : Word64) : Prop :=
  8 < bitsOf v.toNat 56 53
    ∨ (v.getLsbD 61 = false ∧ (8 < bitsOf v.toNat 52 49 ∨ adjacent (bitsOf v.toNat 56 53) (bitsOf v.toNat 52 49) = true))
    ∨ (v.getLsbD 61 = true ∧ s.pkgId = 0xFFFFF#20)
    ∨ ∃ i, s.Claims c v i ∧ (i < c
        ∨ ¬ (24 ≤ i ∧ (s.word (0x3000 + i)).getLsbD 63 = true ∧ (s.word (0x3000 + i)).getLsbD 62 = false))

theorem circuitOf_meets_iff (v w : Word64) : (circuitOf v).meets (circuitOf w) = true ↔
    w.getLsbD 61 = v.getLsbD 61
    ∧ (if v.getLsbD 61 then bitsOf w.toNat 60 57 = bitsOf v.toNat 60 57
        else (bitsOf w.toNat 56 53 = bitsOf v.toNat 56 53 ∧ bitsOf w.toNat 52 49 = bitsOf v.toNat 52 49)
          ∨ (bitsOf w.toNat 56 53 = bitsOf v.toNat 52 49 ∧ bitsOf w.toNat 52 49 = bitsOf v.toNat 56 53)) := by
  simp only [Circuit.meets, circuitOf_ext]
  by_cases same : w.getLsbD 61 = v.getLsbD 61
  · simp only [same, bne_self_eq_false, Bool.false_eq_true, if_false, true_and]
    cases v.getLsbD 61 with
    | true =>
      simp only [circuitOf, if_true, beq_iff_eq]
      exact eq_comm
    | false => grind [circuitOf]
  · simp [same, Ne.symm same, -BitVec.getLsbD_eq_getElem]

theorem mem_circuitRivals (s : State) (c : Nat) (v : Word64) (i : Nat) :
    i ∈ s.circuitRivals c (circuitOf v) ↔ s.Claims c v i := by
  have mask := wmask_and_ne_zero_iff v (s.word (0x3000 + i))
  have meets := circuitOf_meets_iff v (s.word (0x3000 + i))
  simp only [State.circuitRivals, List.mem_filter, List.mem_range, Bool.and_eq_true, bne_iff_ne, Bool.or_eq_true, circuitOf_en,
    circuitOf_act, meets, mask, State.Claims, and_assoc]

theorem circuitPending_iff (s : State) (i : Nat) : s.circuitPending i = true ↔
    24 ≤ i ∧ (s.word (0x3000 + i)).getLsbD 63 = true ∧ (s.word (0x3000 + i)).getLsbD 62 = false := by
  simp [State.circuitPending, and_assoc]

theorem circuitRefused_iff (s : State) (c : Nat) (v : Word64) :
    s.circuitRefused c (circuitOf v) = true ↔ s.Refuses c v := by
  simp only [State.circuitRefused, State.Refuses, Bool.or_eq_true, Bool.and_eq_true, decide_eq_true_eq, Bool.not_eq_true',
    List.any_eq_true, mem_circuitRivals, ← Bool.not_eq_true, circuitPending_iff, circuitOf_ext, beq_iff_eq, or_assoc]
  rfl

/-- The word of an entry whose claim is refused: EN clears, ERR is set. -/
def revokedWord (w : Word64) : Word64 := (w &&& ~~~(bitRange 63 63)) ||| bitRange 18 18

theorem getLsbD_revokedWord (w : Word64) (k : Nat) :
    (revokedWord w).getLsbD k = if k = 63 then false else if k = 18 then true else w.getLsbD k := by
  rw [revokedWord, getLsbD_setBit _ (by omega), getLsbD_clearBit _ (by omega)]
  grind

/-- The state after entry i's claim is refused. -/
def State.revokeCircuit (s : State) (i : Nat) : State := s.setWord (0x3000 + i) (revokedWord (s.word (0x3000 + i)))

theorem claimCircuit_eq (s : State) (c : Nat) (w : Word64) :
    s.claimCircuit c w = (s.circuitRivals c (circuitOf w)).foldl State.revokeCircuit (s.setWord (0x3000 + c) w) := rfl

/-- Refusals write words alone. -/
theorem foldl_revokeCircuit_frame (l : List Nat) (s : State) :
    ∃ words, l.foldl State.revokeCircuit s = { s with words := words } := by
  induction l generalizing s with
  | nil => exact ⟨s.words, rfl⟩
  | cons i r ih =>
    obtain ⟨words, h⟩ := ih (s.revokeCircuit i)
    exact ⟨words, h⟩

theorem word_foldl_revokeCircuit_of_notMem {l : List Nat} {i : Nat} (h : i ∉ l) (s : State) :
    (l.foldl State.revokeCircuit s).word (0x3000 + i) = s.word (0x3000 + i) := by
  induction l generalizing s with
  | nil => rfl
  | cons j r ih =>
    rw [List.mem_cons, not_or] at h
    obtain ⟨hj, hr⟩ := h
    rw [List.foldl_cons, ih hr, State.revokeCircuit, State.word_setWord, if_neg (by omega)]

theorem word_foldl_revokeCircuit_of_mem {l : List Nat} (nodup : l.Nodup) {i : Nat} (h : i ∈ l) (s : State) :
    (l.foldl State.revokeCircuit s).word (0x3000 + i) = revokedWord (s.word (0x3000 + i)) := by
  induction l generalizing s with
  | nil => cases h
  | cons j r ih =>
    obtain ⟨hj, hr⟩ := List.nodup_cons.mp nodup
    rw [List.foldl_cons]
    by_cases hij : i = j
    · subst hij
      rw [word_foldl_revokeCircuit_of_notMem hj, State.revokeCircuit, State.word_setWord, if_pos rfl]
    · rw [ih hr ((List.mem_cons.mp h).resolve_left hij), State.revokeCircuit, State.word_setWord, if_neg (by omega)]

/-- A claim writes words alone. -/
theorem claimCircuit_frame (s : State) (c : Nat) (w : Word64) : ∃ words, s.claimCircuit c w = { s with words := words } :=
  foldl_revokeCircuit_frame _ _

theorem word_claimCircuit_self (s : State) (c : Nat) (w : Word64) : (s.claimCircuit c w).word (0x3000 + c) = w := by
  have self : c ∉ s.circuitRivals c (circuitOf w) := fun h => by
    obtain ⟨-, other, -⟩ := (mem_circuitRivals ..).mp h
    exact other rfl
  rw [claimCircuit_eq, word_foldl_revokeCircuit_of_notMem self, State.word_setWord, if_pos rfl]

theorem word_claimCircuit_of_claims {s : State} {c i : Nat} {w : Word64} (h : s.Claims c w i) :
    (s.claimCircuit c w).word (0x3000 + i) = revokedWord (s.word (0x3000 + i)) := by
  have nodup : (s.circuitRivals c (circuitOf w)).Nodup := List.nodup_range.filter _
  obtain ⟨-, hi, -⟩ := id h
  rw [claimCircuit_eq, word_foldl_revokeCircuit_of_mem nodup ((mem_circuitRivals ..).mpr h), State.word_setWord, if_neg (by omega)]

theorem word_claimCircuit_of_not_claims {s : State} {c i : Nat} {w : Word64} (hi : i ≠ c) (h : ¬ s.Claims c w i) :
    (s.claimCircuit c w).word (0x3000 + i) = s.word (0x3000 + i) := by
  rw [claimCircuit_eq, word_foldl_revokeCircuit_of_notMem (mt (mem_circuitRivals ..).mp h), State.word_setWord, if_neg (by omega)]

/-- Entry c's claim by word v, made between s and u: the entries that clash with it are refused, every other entry and the memory, teams,
warps and dies are as they were. -/
def State.Claimed (s u : State) (c : Nat) (v : Word64) : Prop :=
  u.mem = s.mem ∧ u.teams = s.teams ∧ u.warps = s.warps ∧ u.dies = s.dies
    ∧ ∀ i < 1024, i ≠ c → ∀ k < 64,
      (s.Claims c v i → (u.word (0x3000 + i)).getLsbD k
        = if k = 63 then false else if k = 18 then true else (s.word (0x3000 + i)).getLsbD k)
      ∧ (¬ s.Claims c v i → u.word (0x3000 + i) = s.word (0x3000 + i))

theorem SameRequest.claims_iff {v w : Word64} (h : SameRequest v w) (s : State) (c i : Nat) : s.Claims c v i ↔ s.Claims c w i := by
  rw [← mem_circuitRivals, ← mem_circuitRivals, h.circuitRivals]

theorem SameRequest.refuses_iff {v w : Word64} (h : SameRequest v w) (s : State) (c : Nat) : s.Refuses c v ↔ s.Refuses c w := by
  rw [← circuitRefused_iff, ← circuitRefused_iff, h.circuitRefused]

theorem claimCircuit_claimed {v w : Word64} (h : SameRequest w v) (s : State) (c : Nat) : s.Claimed (s.claimCircuit c w) c v := by
  obtain ⟨words, frame⟩ := claimCircuit_frame s c w
  refine ⟨by rw [frame], by rw [frame], by rw [frame], by rw [frame], fun i _ hic k hk => ⟨fun hi => ?_, fun hi => ?_⟩⟩
  · rw [word_claimCircuit_of_claims ((h.claims_iff ..).mpr hi), getLsbD_revokedWord]
  · exact word_claimCircuit_of_not_claims hic (mt (h.claims_iff ..).mp hi)

/-! ### A write of a circuit's word -/

theorem bitRange_self {i : Nat} (h : i < 64) : bitRange i i = 1#64 <<< i := by
  refine BitVec.eq_of_getLsbD_eq fun k hk => ?_
  rw [getLsbD_bitRange le_rfl h, BitVec.getLsbD_shiftLeft, BitVec.getLsbD_one]
  grind

/-- The new word of a fixed circuit: WMASK as written (R280). -/
def fixedWord (old v : Word64) : Word64 := mergeWord old v (bitRange 15 0) 0#64

theorem getLsbD_fixedWord (old v : Word64) (k : Nat) :
    (fixedWord old v).getLsbD k = if k < 16 then v.getLsbD k else old.getLsbD k := by
  rw [fixedWord, getLsbD_mergeWord_rw, getLsbD_bitRange (by omega) (by omega)]
  grind

/-- The new word of a circuit that the host sets up: the fields as written (R280). -/
def requestWord (old v : Word64) : Word64 := mergeWord old v (bitRange 61 19 ||| bitRange 15 0) 0#64

theorem getLsbD_requestWord (old v : Word64) (k : Nat) :
    (requestWord old v).getLsbD k = if k < 62 ∧ (18 < k ∨ k < 16) then v.getLsbD k else old.getLsbD k := by
  rw [requestWord, getLsbD_mergeWord_rw, BitVec.getLsbD_or, getLsbD_bitRange (by omega) (by omega),
    getLsbD_bitRange (by omega) (by omega)]
  grind

theorem writeCircuit_fixed (s : State) {c : Nat} (hc : c < 24) (v : Word64) : s.writeCircuit c v =
    let y := fixedWord (s.word (0x3000 + c)) v
    if s.circuitRefused c (circuitOf y) then s.setWord (0x3000 + c) (s.word (0x3000 + c) ||| bitRange 18 18)
    else s.claimCircuit c (y &&& ~~~(bitRange 18 18)) := if_pos hc

theorem writeCircuit_enabled {s : State} {c : Nat} (hc : 24 ≤ c) (hw : (s.word (0x3000 + c)).getLsbD 63 = true) (v : Word64) :
    s.writeCircuit c v = if v.getLsbD 63 then s else s.setWord (0x3000 + c) (s.word (0x3000 + c) &&& ~~~(bitRange 63 63)) :=
  (if_neg (not_lt.mpr hc)).trans (if_pos hw)

theorem writeCircuit_request {s : State} {c : Nat} (hc : 24 ≤ c) (hw : (s.word (0x3000 + c)).getLsbD 63 = false) {v : Word64}
    (hv : v.getLsbD 63 = true) : s.writeCircuit c v =
    let y := requestWord (s.word (0x3000 + c)) v
    if s.circuitRefused c (circuitOf y) then s.setWord (0x3000 + c) (y ||| bitRange 18 18)
    else s.claimCircuit c ((y &&& ~~~(bitRange 18 18)) ||| bitRange 63 63) :=
  (if_neg (not_lt.mpr hc)).trans ((if_neg (by rw [hw]; decide)).trans (if_neg (by rw [hv]; decide)))

/-! ### The circuit events (R280) -/

theorem exec_circuitSetup {s : State} {c : Nat} (hc : c < 1024) (awake : s.recovery = false) (v : Word64) :
    exec (.circuitSetup c v) s = .next (s.writeCircuit c (v ||| bitRange 63 63)) :=
  (if_pos hc).trans (hostWrote_of_awake awake _)

section
variable {s : State} {c : Nat} (v : Word64)

/-- A write of a fixed circuit's WMASK, y the word it asks for. -/
theorem circuitSetup_fixed (hc : c < 24) (awake : s.recovery = false) {y : Word64}
    (hy : ∀ k < 64, y.getLsbD k = if k < 16 then v.getLsbD k else (s.word (0x3000 + c)).getLsbD k) :
    (s.Refuses c y → exec (.circuitSetup c v) s = .next (s.setWord (0x3000 + c) (s.word (0x3000 + c) ||| 1#64 <<< 18)))
    ∧ (¬ s.Refuses c y → ∃ u, exec (.circuitSetup c v) s = .next u ∧ s.Claimed u c y
      ∧ ∀ k < 64, (u.word (0x3000 + c)).getLsbD k = if k = 18 then false else y.getLsbD k) := by
  have word : fixedWord (s.word (0x3000 + c)) (v ||| bitRange 63 63) = y := BitVec.eq_of_getLsbD_eq fun k hk => by
    rw [getLsbD_fixedWord, hy k hk, getLsbD_setBit _ (by omega)]
    grind
  have same : SameRequest (y &&& ~~~(bitRange 18 18)) y := fun k hk h => by
    rw [getLsbD_clearBit _ (by omega)]
    grind
  rw [exec_circuitSetup (by omega) awake, writeCircuit_fixed s hc, word, ← bitRange_self (i := 18) (by omega)]
  refine ⟨fun h => ?_, fun h => ⟨_, rfl, ?_⟩⟩
  · rw [if_pos ((circuitRefused_iff ..).mpr h)]
  · rw [if_neg (mt (circuitRefused_iff ..).mp h)]
    refine ⟨claimCircuit_claimed same s c, fun k hk => ?_⟩
    rw [word_claimCircuit_self, getLsbD_clearBit _ (by omega)]

/-- A set-up of a circuit whose EN is 0. -/
theorem circuitSetup_request (low : 24 ≤ c) (hc : c < 1024) (awake : s.recovery = false)
    (hw : (s.word (0x3000 + c)).getLsbD 63 = false) :
    (s.Refuses c v → ∃ y, exec (.circuitSetup c v) s = .next (s.setWord (0x3000 + c) y)
      ∧ (∀ k < 62, 18 < k ∨ k < 16 → y.getLsbD k = v.getLsbD k) ∧ y.getLsbD 63 = false ∧ y.getLsbD 18 = true)
    ∧ (¬ s.Refuses c v → ∃ u, exec (.circuitSetup c v) s = .next u ∧ s.Claimed u c v
      ∧ (∀ k < 62, 18 < k ∨ k < 16 → (u.word (0x3000 + c)).getLsbD k = v.getLsbD k)
      ∧ (u.word (0x3000 + c)).getLsbD 63 = true ∧ (u.word (0x3000 + c)).getLsbD 18 = false) := by
  have hv : (v ||| bitRange 63 63).getLsbD 63 = true := by rw [getLsbD_setBit _ (by omega)]; rfl
  have field : ∀ k < 62, 18 < k ∨ k < 16 → (requestWord (s.word (0x3000 + c)) (v ||| bitRange 63 63)).getLsbD k = v.getLsbD k := by
    intro k hk h
    rw [getLsbD_requestWord, getLsbD_setBit _ (by omega)]
    grind
  have en : (requestWord (s.word (0x3000 + c)) (v ||| bitRange 63 63)).getLsbD 63 = false := by
    rw [getLsbD_requestWord, if_neg (by omega), hw]
  rw [exec_circuitSetup hc awake, writeCircuit_request low hw hv]
  generalize requestWord (s.word (0x3000 + c)) (v ||| bitRange 63 63) = y at field en
  have same : SameRequest y v := fun k hk h => field k hk (by omega)
  refine ⟨fun h => ⟨y ||| bitRange 18 18, ?_, fun k hk h => ?_, ?_, ?_⟩, fun h => ⟨_, rfl, ?_⟩⟩
  · rw [if_pos ((circuitRefused_iff ..).mpr ((same.refuses_iff ..).mpr h))]
  · rw [getLsbD_setBit _ (by omega), field k hk h]
    grind
  · rw [getLsbD_setBit _ (by omega), en]; rfl
  · rw [getLsbD_setBit _ (by omega)]; rfl
  · rw [if_neg (mt (circuitRefused_iff ..).mp (mt (same.refuses_iff ..).mp h))]
    have bit : ∀ k, ((y &&& ~~~(bitRange 18 18)) ||| bitRange 63 63).getLsbD k
        = if k = 63 then true else if k = 18 then false else y.getLsbD k := fun k => by
      rw [getLsbD_setBit _ (by omega), getLsbD_clearBit _ (by omega)]
    refine ⟨claimCircuit_claimed (fun k hk h => ?_) s c, fun k hk h => ?_, ?_, ?_⟩
    · rw [bit, same k hk h]; grind
    · rw [word_claimCircuit_self, bit, field k hk h]; grind
    · rw [word_claimCircuit_self, bit]; rfl
    · rw [word_claimCircuit_self, bit]; rfl

theorem circuitSetup_enabled (low : 24 ≤ c) (hc : c < 1024) (awake : s.recovery = false)
    (hw : (s.word (0x3000 + c)).getLsbD 63 = true) : exec (.circuitSetup c v) s = .next s := by
  rw [exec_circuitSetup hc awake, writeCircuit_enabled low hw, getLsbD_setBit _ (by omega)]
  simp

end

theorem circuitTeardown_enabled {s : State} {c : Nat} (low : 24 ≤ c) (hc : c < 1024) (awake : s.recovery = false)
    (hw : (s.word (0x3000 + c)).getLsbD 63 = true) :
    exec (.circuitTeardown c) s = .next (s.setWord (0x3000 + c) (s.word (0x3000 + c) &&& ~~~(1#64 <<< 63))) := by
  have e : exec (.circuitTeardown c) s = .next (s.writeCircuit c (s.word (0x3000 + c) &&& ~~~(bitRange 63 63))) :=
    (if_pos hc).trans (hostWrote_of_awake awake _)
  rw [e, writeCircuit_enabled low hw, getLsbD_clearBit _ (by omega), bitRange_self (by omega)]
  rfl

theorem circuitActive_requested {s : State} {c : Nat} (hc : c < 1024) (en : (s.word (0x3000 + c)).getLsbD 63 = true)
    (act : (s.word (0x3000 + c)).getLsbD 62 = false) :
    exec (.circuitActive c) s = .next (s.setWord (0x3000 + c) (s.word (0x3000 + c) ||| 1#64 <<< 62)) := by
  rw [← bitRange_self (i := 62) (by omega)]
  exact if_pos (by simp [hc, en, act, -BitVec.getLsbD_eq_getElem])

theorem circuitInactive_landed {s : State} {c : Nat} (hc : c < 1024) (en : (s.word (0x3000 + c)).getLsbD 63 = false)
    (act : (s.word (0x3000 + c)).getLsbD 62 = true) (landed : ∀ m ∈ s.outbox, m.circuit ≠ c) :
    exec (.circuitInactive c) s = .next (s.setWord (0x3000 + c) (s.word (0x3000 + c) &&& ~~~(1#64 <<< 62))) := by
  rw [← bitRange_self (i := 62) (by omega)]
  refine if_pos ?_
  have none : s.outbox.any (fun m => m.circuit == c) = false := by simpa using landed
  simp [hc, en, act, none, -BitVec.getLsbD_eq_getElem]

/-! ### Bytes that a device or the host writes at their homes (R167, R248) -/

/-- Bytes laid one by one, the tags of their units cleared. -/
def State.layBytes (s : State) (l : List (Nat × Byte)) : State :=
  l.foldl (fun s p => (s.physSet p.1 p.2).setUnitTag p.1 false) s

theorem physSet_withTags (s : State) (tags : List Nat) (pa : Nat) (b : Byte) :
    ({ s with tags := tags } : State).physSet pa b = { s.physSet pa b with tags := tags } := by
  have cell : ({ s with tags := tags } : State).cell? pa = s.cell? pa := rfl
  unfold State.physSet
  rw [cell]
  split <;> rfl

theorem physWrite_withTags (s : State) (tags : List Nat) (pa : Nat) (bs : List Byte) :
    ({ s with tags := tags } : State).physWrite pa bs = { s.physWrite pa bs with tags := tags } := by
  induction bs generalizing s pa with
  | nil => rfl
  | cons b r ih => rw [State.physWrite, State.physWrite, physSet_withTags, ih]

/-- Bytes laid in a row are the bytes written, tags aside. -/
theorem layBytes_row (s : State) (pa : Nat) (bs : List Byte) (k : Nat) :
    ∃ tags, s.layBytes ((bs.zipIdx k).map (fun p => (pa + p.2, p.1))) = { s.physWrite (pa + k) bs with tags := tags } := by
  induction bs generalizing s k with
  | nil => exact ⟨s.tags, rfl⟩
  | cons b r ih =>
    obtain ⟨tags, h⟩ := ih ((s.physSet (pa + k) b).setUnitTag (pa + k) false) (k + 1)
    refine ⟨tags, ?_⟩
    rw [List.zipIdx_cons, List.map_cons, State.layBytes, List.foldl_cons]
    refine Eq.trans h ?_
    rw [State.setUnitTag_eq, physWrite_withTags]
    rfl

/-- Dies without monitors have nothing to evaluate. -/
theorem evalMonitors_of_silent {s : State} (silent : ∀ d, (s.die d).monitors = []) (cells : List Nat) : s.evalMonitors cells = s := by
  unfold State.evalMonitors
  generalize List.range 9 = l
  induction l with
  | nil => rfl
  | cons d r ih => rw [List.foldl_cons, silent d]; exact ih

theorem Tbl.look_map {α β : Type} (f : α → β) (k : Nat) (t : Tbl α) :
    Tbl.look k (t.map (fun p => (p.1, f p.2))) = (Tbl.look k t).map f := by
  induction t with
  | nil => rfl
  | cons p r ih =>
    simp only [List.map_cons, Tbl.look, ih]
    split <;> rfl

theorem die_mapDies (s : State) (f : Die → Die) (d : Nat) : (s.mapDies f).die d = ((Tbl.look d s.dies).map f).getD Die.reset := by
  rw [← Tbl.look_map]; rfl

theorem monitors_mapDies {s : State} {f : Die → Die} (keeps : ∀ x, (f x).monitors = x.monitors) (d : Nat) :
    ((s.mapDies f).die d).monitors = (s.die d).monitors := by
  rw [die_mapDies, State.die, Tbl.get]
  cases Tbl.look d s.dies with
  | none => rfl
  | some x => exact keeps x

/-- What the tasks note of a write changes the dies alone, and no monitor. -/
theorem noteDirty_eq_mapDies (s : State) (cells : List Nat) :
    ∃ f : Die → Die, s.noteDirty cells = s.mapDies f ∧ ∀ x, (f x).monitors = x.monitors := by
  unfold State.noteDirty
  split
  · exact ⟨_, rfl, fun _ => rfl⟩
  · refine ⟨id, ?_, fun _ => rfl⟩
    simp [State.mapDies]

theorem place_eq (s : State) (pa : Nat) (bs : List Byte) :
    ∃ cells, s.place pa bs = ((s.layBytes (bs.zipIdx.map (fun p => (pa + p.2, p.1)))).noteDirty cells).evalMonitors cells := by
  unfold State.place State.writeHome
  exact ⟨_, rfl⟩

/-- Where no die has a monitor, bytes placed from an address are the bytes written there: nothing else changes but tags and what the
tasks note of their tiles. -/
theorem place_of_silent {s : State} (silent : ∀ d, (s.die d).monitors = []) (pa : Nat) (bs : List Byte) :
    ∃ tags f, s.place pa bs = ({ s.physWrite pa bs with tags := tags } : State).mapDies f := by
  obtain ⟨cells, place⟩ := place_eq s pa bs
  obtain ⟨tags, row⟩ := layBytes_row s pa bs 0
  rw [Nat.add_zero] at row
  have quiet : ∀ d, (({ s.physWrite pa bs with tags := tags } : State).die d).monitors = [] := by
    rw [State.physWrite_eq]; exact silent
  obtain ⟨f, note, keeps⟩ := noteDirty_eq_mapDies { s.physWrite pa bs with tags := tags } cells
  refine ⟨tags, f, ?_⟩
  rw [place, row, note, evalMonitors_of_silent]
  intro d
  rw [monitors_mapDies keeps, quiet]

/-- Placed bytes read as bytes written. -/
theorem physByte_place {s : State} (silent : ∀ d, (s.die d).monitors = []) (pa : Nat) (bs : List Byte) (a : Nat) :
    (s.place pa bs).physByte a = (s.physWrite pa bs).physByte a := by
  obtain ⟨tags, f, placed⟩ := place_of_silent silent pa bs
  rw [placed]
  rfl

/-- Bytes placed in cells of their own read back. -/
theorem physRead_place {s : State} (silent : ∀ d, (s.die d).monitors = []) {pa : Nat} {bs : List Byte} (apart : s.Apart pa bs.length) :
    (s.place pa bs).physRead pa bs.length = bs := by
  refine List.ext_getElem (by simp [State.physRead]) fun j _ hj => ?_
  have read := read_physWrite s pa bs apart j hj
  rw [← physByte_place silent, List.getD_eq_getElem _ _ hj] at read
  simpa only [State.physRead, List.getElem_map, List.getElem_range] using read

theorem keeps_place {s : State} (silent : ∀ d, (s.die d).monitors = []) (pa : Nat) (bs : List Byte) :
    KeepsBytes s (s.place pa bs) pa bs.length := by
  intro a apart
  rw [physByte_place silent, keeps_physWrite s pa bs a apart]

theorem place_warps_teams {s : State} (silent : ∀ d, (s.die d).monitors = []) (pa : Nat) (bs : List Byte) :
    (s.place pa bs).warps = s.warps ∧ (s.place pa bs).teams = s.teams := by
  obtain ⟨tags, f, placed⟩ := place_of_silent silent pa bs
  rw [placed, State.physWrite_eq]
  exact ⟨rfl, rfl⟩

/-! ### The host's aperture (R266, R277) -/

/-- The address that an offset in the host's aperture names. -/
def State.apertureAddr (s : State) (off : Nat) : Nat := bitsOf (s.word 0x11).toNat 51 32 * 2 ^ 32 + off

/-- Bytes of an access that the aperture does not answer: in recovery mode, or some byte in a secure region. -/
def State.apertureShut (s : State) (pa n : Nat) : Bool := s.recovery || (List.range n).any (fun i => s.secureAt (pa + i))

theorem apertureShut_iff (s : State) (pa n : Nat) :
    s.apertureShut pa n = true ↔ s.recovery = true ∨ ∃ k < n, s.secureAt (pa + k) = true := by
  simp [State.apertureShut]

/-- Every byte of an access lies in an installed cell of a view that an address can name. -/
def State.Installed (s : State) (pa n : Nat) : Prop := ∀ k < n, (pa + k) / 2 ^ 48 ≤ 2 ∧ (s.cell? (pa + k)).isSome = true

theorem find_uninstalled {s : State} {pa n : Nat} (h : s.Installed pa n) :
    (List.range n).find? (fun i => 2 < (pa + i) / 2 ^ 48 || (s.cell? (pa + i)).isNone) = none := by
  rw [List.find?_eq_none]
  intro k hk
  obtain ⟨view, cell⟩ := h k (List.mem_range.mp hk)
  rw [decide_eq_false (not_lt.mpr view), Option.isNone_eq_false_iff.mpr cell]
  decide

section
variable {s : State} {off len : Nat}

theorem apertureWrite_shut {bytes : List Byte} (fits : off + bytes.length ≤ 2 ^ 32)
    (shut : s.apertureShut (s.apertureAddr off) bytes.length = true) :
    exec (.hostApertureAccess off (some bytes) len) s = .next s :=
  (if_neg (not_lt.mpr fits)).trans (if_pos shut)

theorem apertureWrite_open {bytes : List Byte} (fits : off + bytes.length ≤ 2 ^ 32)
    (answers : s.apertureShut (s.apertureAddr off) bytes.length = false) (installed : s.Installed (s.apertureAddr off) bytes.length) :
    exec (.hostApertureAccess off (some bytes) len) s = .next (s.place (s.apertureAddr off) bytes) := by
  refine (if_neg (not_lt.mpr fits)).trans ((if_neg (ne_true_of_eq_false answers)).trans ?_)
  split
  next h => exact nomatch h.symm.trans (find_uninstalled installed)
  next => rfl

theorem apertureRead_shut (fits : off + len ≤ 2 ^ 32) (shut : s.apertureShut (s.apertureAddr off) len = true) :
    exec (.hostApertureAccess off none len) s = .next { s with answers := none :: s.answers } :=
  (if_neg (not_lt.mpr fits)).trans (if_pos shut)

theorem apertureRead_open (fits : off + len ≤ 2 ^ 32) (answers : s.apertureShut (s.apertureAddr off) len = false)
    (installed : s.Installed (s.apertureAddr off) len) :
    exec (.hostApertureAccess off none len) s
      = .next { s with answers := some (s.physRead (s.apertureAddr off) len) :: s.answers } := by
  refine (if_neg (not_lt.mpr fits)).trans ((if_neg (ne_true_of_eq_false answers)).trans ?_)
  split
  next h => exact nomatch h.symm.trans (find_uninstalled installed)
  next => rfl

end

/-! ### Writes of words from outside the lanes (R5, R265, R377) -/

/-- A write of a die control word that has no behaviour of its own takes its RW bits and clears its W1C bits. -/
theorem writeDieWord_plain (s : State) {fw : Bool} {n : Nat} (own : fwDieWord n = true → fw = true) (disable : n ≠ 0x124)
    (rings : n < 0x392) (bits : (dieWordBits n).1 ||| (dieWordBits n).2 ≠ 0#64) (d : Nat) (v : Word64) :
    s.writeDieWord fw d n v
      = s.setDieWord d n (mergeWord (s.dieWord d n) v (dieWordBits n).1 (dieWordBits n).2) := by
  have mine : (fwDieWord n && !fw) = false := by
    cases h : fwDieWord n with
    | false => rfl
    | true => rw [own h]; rfl
  simp [State.writeDieWord, mine, disable, show ¬ 0x392 ≤ n by omega, show n ≠ 0x39C by omega, show n ≠ 0x39D by omega, bits]

theorem writeDieWord_of_fw (s : State) {n : Nat} (h : fwDieWord n = true) (d : Nat) (v : Word64) : s.writeDieWord false d n v = s :=
  if_pos (by rw [h]; rfl)

section
variable {n : Nat}

theorem dieWordBits_world (lo : 0x130 ≤ n) (hi : n < 0x142) : dieWordBits n = (bitRange 0 0, 0#64) := by
  grind [dieWordBits]

theorem dieWordBits_addressSpace (lo : 0x200 ≤ n) (hi : n < 0x300) : dieWordBits n = (bitRange 51 12 ||| bitRange 0 0, 0#64) := by
  grind [dieWordBits]

theorem readDieWord_world (s : State) (d : Nat) (lo : 0x130 ≤ n) (hi : n < 0x142) : s.readDieWord d n = some (s.dieWord d n) := by
  grind [State.readDieWord]

theorem readDieWord_addressSpace (s : State) (d : Nat) (lo : 0x200 ≤ n) (hi : n < 0x300) : s.readDieWord d n = some (s.dieWord d n) := by
  grind [State.readDieWord]

theorem readPackageWord_region (s : State) (lo : 0x400 ≤ n) (hi : n < 0x420) : s.readPackageWord n = some (s.word n) := by
  grind [State.readPackageWord]

/-- The RW bits of word n of the secure-region table (R266). -/
def regionBits (n : Nat) : Word64 := if n % 2 = 0 then bitRange 51 16 ||| bitRange 2 0 else bitRange 51 16

theorem writePackageWord_region (s : State) (fw : Bool) (lo : 0x400 ≤ n) (hi : n < 0x420) (v : Word64) :
    s.writePackageWord fw n v = if fw then s.setWord n (mergeWord (s.word n) v (regionBits n) 0#64) else s := by
  grind [State.writePackageWord, regionBits, isMailbox]

theorem writePackageWord_mailbox (s : State) (fw : Bool) (lo : 0x50 ≤ n) (hi : n < 0x60) (v : Word64) :
    s.writePackageWord fw n v = s.setWord n v := by
  grind [State.writePackageWord, isMailbox]

end

/-! ### The events that write words -/

section
variable {s : State} {die n : Nat}

theorem exec_registerWrite_die (hd : die < 9) (assigned : (s.readDieWord die n).isSome = true) (awake : s.recovery = false)
    (v : Word64) : exec (.registerWrite .die die n v) s = .next (s.writeDieWord false die n v) := by
  have none : (s.readDieWord die n).isNone = false := Option.isNone_eq_false_iff.mpr assigned
  simp [exec, execRegisterWrite, State.writeOutside, not_le.mpr hd, none, awake]

theorem exec_igtahildWorldWrite_die (hd : die < 9) (assigned : (s.readDieWord die n).isSome = true) (own : fwDieWord n = true)
    (v : Word64) : exec (.igtahildWorldWrite .die die n v) s = .next (s.writeDieWord true die n v) := by
  have none : (s.readDieWord die n).isNone = false := Option.isNone_eq_false_iff.mpr assigned
  simp [exec, execIgtahildWorldWrite, State.writeOutside, not_le.mpr hd, none, own]

theorem exec_registerWrite_package (assigned : (s.readPackageWord n).isSome = true ∨ isMailbox n = true) (awake : s.recovery = false)
    (v : Word64) : exec (.registerWrite .package die n v) s = .next (s.writePackageWord false n v) := by
  have none : ((s.readPackageWord n).isNone && !isMailbox n) = false := by
    rcases assigned with h | h
    · rw [Option.isNone_eq_false_iff.mpr h]; rfl
    · rw [h, Bool.not_true, Bool.and_false]
  simp [exec, execRegisterWrite, State.writeOutside, none, awake]

theorem exec_igtahildWorldWrite_region (lo : 0x400 ≤ n) (hi : n < 0x420) (v : Word64) :
    exec (.igtahildWorldWrite .package die n v) s = .next (s.writePackageWord true n v) := by
  simp [exec, execIgtahildWorldWrite, State.writeOutside, readPackageWord_region s lo hi, lo, hi]

/-- The host's write of an address space's word takes bit 0 and bits 51..12 (R169). -/
theorem registerWrite_addressSpace (hd : die < 9) (awake : s.recovery = false) (lo : 0x200 ≤ n) (hi : n < 0x300) (v : Word64) :
    ∃ x, exec (.registerWrite .die die n v) s = .next (s.setDieWord die n x)
      ∧ ∀ k < 64, x.getLsbD k = if k = 0 ∨ 12 ≤ k ∧ k < 52 then v.getLsbD k else (s.dieWord die n).getLsbD k := by
  refine ⟨mergeWord (s.dieWord die n) v (bitRange 51 12 ||| bitRange 0 0) 0#64, ?_, fun k _ => ?_⟩
  · have own : fwDieWord n = true → false = true := fun h => by grind [fwDieWord]
    rw [exec_registerWrite_die hd (by rw [readDieWord_addressSpace s die lo hi]; rfl) awake,
      writeDieWord_plain s own (by omega) (by omega) (by rw [dieWordBits_addressSpace lo hi]; decide), dieWordBits_addressSpace lo hi]
  · rw [getLsbD_mergeWord_rw, getLsbD_setBit _ (by omega), getLsbD_bitRange (by omega) (by omega)]
    grind

/-- A core's world word takes the controller's writes alone (R265). -/
theorem worldWord_writes (hd : die < 9) (awake : s.recovery = false) (lo : 0x130 ≤ n) (hi : n < 0x142) (v : Word64) :
    exec (.registerWrite .die die n v) s = .next s
    ∧ ∃ x, exec (.igtahildWorldWrite .die die n v) s = .next (s.setDieWord die n x)
      ∧ ∀ k < 64, x.getLsbD k = if k = 0 then v.getLsbD k else (s.dieWord die n).getLsbD k := by
  have own : fwDieWord n = true := by simp [fwDieWord, lo, hi]
  have assigned : (s.readDieWord die n).isSome = true := by rw [readDieWord_world s die lo hi]; rfl
  refine ⟨?_, mergeWord (s.dieWord die n) v (bitRange 0 0) 0#64, ?_, fun k _ => ?_⟩
  · rw [exec_registerWrite_die hd assigned awake, writeDieWord_of_fw s own]
  · rw [exec_igtahildWorldWrite_die hd assigned own,
      writeDieWord_plain s (fun _ => rfl) (by omega) (by omega) (by rw [dieWordBits_world lo hi]; decide), dieWordBits_world lo hi]
  · rw [getLsbD_mergeWord_rw, getLsbD_bitRange le_rfl (by omega)]
    grind

theorem registerWrite_mailbox (awake : s.recovery = false) (lo : 0x50 ≤ n) (hi : n < 0x60) (v : Word64) :
    exec (.registerWrite .package die n v) s = .next (s.setWord n v) := by
  rw [exec_registerWrite_package (.inr (by simp [isMailbox, lo, hi])) awake, writePackageWord_mailbox s false lo hi]

/-- A word of the secure-region table takes the controller's writes alone (R266). -/
theorem regionWord_writes (awake : s.recovery = false) (lo : 0x400 ≤ n) (hi : n < 0x420) (v : Word64) :
    exec (.registerWrite .package die n v) s = .next s
    ∧ ∃ x, exec (.igtahildWorldWrite .package die n v) s = .next (s.setWord n x)
      ∧ ∀ k, 16 ≤ k → k < 52 → x.getLsbD k = v.getLsbD k := by
  refine ⟨?_, mergeWord (s.word n) v (regionBits n) 0#64, ?_, fun k _ _ => ?_⟩
  · rw [exec_registerWrite_package (.inl (by rw [readPackageWord_region s lo hi]; rfl)) awake, writePackageWord_region s false lo hi]
    rfl
  · rw [exec_igtahildWorldWrite_region lo hi, writePackageWord_region s true lo hi]
    rfl
  · have written : (regionBits n).getLsbD k = true := by
      have address : (bitRange 51 16).getLsbD k = true := by
        rw [getLsbD_bitRange (by omega) (by omega)]
        exact decide_eq_true (by omega)
      unfold regionBits
      split
      · rw [BitVec.getLsbD_or, address, Bool.true_or]
      · exact address
    rw [getLsbD_mergeWord_rw, written, if_pos rfl]

end

/-! ### The package's words (R265, R266, R277 to R280) -/

/-- In recovery mode the host's writes of circuits, TIERCFG and PKGID have no effect (R281). -/
theorem hostWrites_of_recovery {s : State} (h : s.recovery = true) (c : Nat) (v : Word64) :
    exec (.circuitSetup c v) s = .next s ∧ exec (.circuitTeardown c) s = .next s ∧ exec (.tiercfgWrite v) s = .next s
      ∧ exec (.pkgidWrite v) s = .next s := by
  have refuse := hostWrote_of_recovery h
  refine ⟨?_, ?_, refuse _, refuse _⟩
  · by_cases hc : c < 1024
    · exact (if_pos hc).trans (refuse _)
    · exact if_neg hc
  · by_cases hc : c < 1024
    · exact (if_pos hc).trans (refuse _)
    · exact if_neg hc

theorem exec_cxlPortTrained {port capacity : Nat} (hp : port < 4) (hc : capacity ≤ 4096 * 10 ^ 9) (persistent : Bool) (s : State) :
    exec (.cxlPortTrained port capacity persistent) s = .next { s with ports := Tbl.put port (capacity, persistent) s.ports } :=
  if_pos (by rw [decide_eq_true hp, decide_eq_true hc]; rfl)

/-- Settles O50: each circuit event by its own lemma, the aperture by what bytes placed without monitors read as, the words by their RW
bits. -/
theorem packageWords : Obligations.PackageWords := by
  intro s c die n port capacity off len persistent v bytes w field x claims pending refused claimed pa inside silent
  refine ⟨fun hc awake => ⟨fun low y hy => circuitSetup_fixed v low awake hy, fun high en => circuitSetup_enabled v high hc awake en,
    fun high en => circuitSetup_request v high hc awake en, fun high en => circuitTeardown_enabled high hc awake en,
    fun en act => circuitActive_requested hc en act, fun en act landed => circuitInactive_landed hc en act landed⟩,
    fun awake => hostWrote_of_awake awake _, fun asleep => hostWrites_of_recovery asleep c v,
    fun hp hcap => exec_cxlPortTrained hp hcap persistent s, ?aperture, ?words⟩
  case aperture =>
    intro fits fitsRead
    have shut (n : Nat) : s.apertureShut pa n = true ↔ s.recovery = true ∨ ∃ k < n, s.secureAt (pa + k) = true :=
      apertureShut_iff s pa n
    have opened {n : Nat} (awake : s.recovery = false) (plain : ∀ k < n, s.secureAt (pa + k) = false) : s.apertureShut pa n = false := by
      rw [← Bool.not_eq_true, shut]
      simp only [awake, Bool.false_eq_true, false_or, not_exists, not_and, Bool.not_eq_true]
      exact plain
    refine ⟨fun h => apertureWrite_shut fits ((shut _).mpr h), fun awake plain views apart quiet => ?_,
      fun h => apertureRead_shut fitsRead ((shut _).mpr h), fun awake plain installed =>
        apertureRead_open fitsRead (opened awake plain) installed⟩
    have installed : s.Installed pa bytes.length := fun k hk => by
      obtain ⟨cell, hcell, -⟩ := apart k hk
      exact ⟨views k hk, by rw [hcell]; rfl⟩
    exact ⟨_, apertureWrite_open fits (opened awake plain) installed, physRead_place quiet apart, keeps_place quiet pa bytes,
      place_warps_teams quiet pa bytes⟩
  case words =>
    intro hd awake
    exact ⟨fun lo hi => registerWrite_addressSpace hd awake lo hi v, fun lo hi => worldWord_writes hd awake lo hi v,
      fun lo hi => registerWrite_mailbox awake lo hi v, fun lo hi => regionWord_writes awake lo hi v⟩

/-! ### The circuits at reset (R280) -/

/-- The fixed circuits join dies that are not edge-adjacent, each pair once, the lower die first. -/
theorem circuitPairs_distinct : ∀ p ∈ circuitPairs, p.1 < p.2 ∧ p.2 < 9 ∧ adjacent p.1 p.2 = false := by decide

theorem circuitPairs_rising : circuitPairs.Pairwise (fun p q => 16 * p.1 + p.2 < 16 * q.1 + q.2) := by decide

theorem circuitPairs_length : circuitPairs.length = 24 := by decide

theorem word_reset (n : Nat) : State.reset.word n = wordReset n := rfl

/-- A fixed circuit at reset: enabled, between its two dies, on wavelength 0. -/
theorem toNat_wordReset_circuit {n : Nat} (h : n < circuitPairs.length) :
    (wordReset (0x3000 + n)).toNat = 2 ^ 63 + circuitPairs[n].1 * 2 ^ 53 + circuitPairs[n].2 * 2 ^ 49 + 1 := by
  obtain ⟨lt, dies, -⟩ := circuitPairs_distinct _ (List.getElem_mem h)
  have word : wordReset (0x3000 + n) = BitVec.ofNat 64 (2 ^ 63 + circuitPairs[n].1 * 2 ^ 53 + circuitPairs[n].2 * 2 ^ 49 + 1) := by
    have hn : n < 24 := circuitPairs_length ▸ h
    simp only [wordReset, Nat.add_sub_cancel_left, List.getD_eq_getElem _ _ h]
    rw [if_neg (by omega), if_neg (by omega), if_neg (by simp; omega), if_pos (by simp; omega)]
  rw [word, BitVec.toNat_ofNat, Nat.mod_eq_of_lt (by omega)]

section
variable {n : Nat} (h : n < circuitPairs.length)
include h

theorem dieA_reset : (State.reset.word (0x3000 + n)).toNat / 2 ^ 53 % 16 = circuitPairs[n].1 := by
  obtain ⟨lt, dies, -⟩ := circuitPairs_distinct _ (List.getElem_mem h)
  rw [word_reset, toNat_wordReset_circuit h]
  omega

theorem dieB_reset : (State.reset.word (0x3000 + n)).toNat / 2 ^ 49 % 16 = circuitPairs[n].2 := by
  obtain ⟨lt, dies, -⟩ := circuitPairs_distinct _ (List.getElem_mem h)
  rw [word_reset, toNat_wordReset_circuit h]
  omega

theorem circuit_reset :
    let w := State.reset.word (0x3000 + n)
    w.getLsbD 63 = true ∧ w.getLsbD 61 = false ∧ w.toNat % 2 ^ 16 = 1 := by
  obtain ⟨lt, dies, -⟩ := circuitPairs_distinct _ (List.getElem_mem h)
  simp only [BitVec.getLsbD, Nat.testBit_eq_decide_div_mod_eq, word_reset, toNat_wordReset_circuit h, decide_eq_true_eq,
    decide_eq_false_iff_not]
  omega

end

theorem queueWord_reset {n : Nat} (h : n < 64) : State.reset.word (0x1000 + 4 * n + 1) = 0x400004#64 := by
  rw [word_reset, wordReset, if_neg (by omega), if_neg (by omega), if_pos (by simp; omega)]

/-! ### Cycles (R45) -/

theorem coreKey_inj {d e c k : Nat} (hc : c < 32) (hk : k < 32) : coreKey e k = coreKey d c ↔ e = d ∧ k = c := by
  unfold coreKey
  omega

/-- n cycles of a core raise its counter, and no other's. -/
theorem cyc_cycles (s : State) (d n e : Nat) {c k : Nat} (hc : c < 32) (hk : k < 32) :
    ((s.cycles d c n).core e k).cyc = if e = d ∧ k = c then (s.core e k).cyc + BitVec.ofNat 64 n else (s.core e k).cyc := by
  have core : (s.cycles d c n).core e k = (s.updCore d c (fun x => { x with cyc := x.cyc + BitVec.ofNat 64 n })).core e k := rfl
  rw [core, State.core_updCore]
  simp only [coreKey_inj hc hk]
  split
  · rename_i h
    obtain ⟨rfl, rfl⟩ := h
    rfl
  · rfl

theorem elapse_parked {s : State} {d pair : Nat} (parked : (s.word (0x800 + 14 * d + pair)).toNat / 2 ^ 13 % 8 = 7) (n : Nat) :
    s.elapse d pair n = s := if_pos parked

theorem elapse_running {s : State} {d pair : Nat} (runs : ¬ (s.word (0x800 + 14 * d + pair)).toNat / 2 ^ 13 % 8 = 7) (n : Nat) :
    s.elapse d pair n = (s.cycles d (2 * pair) n).cycles d (2 * pair + 1) n := if_neg runs

/-- Cycles of an island touch no memory, die, team or word. -/
theorem elapse_frame (s : State) (d pair n : Nat) : (s.elapse d pair n).mem = s.mem ∧ (s.elapse d pair n).dies = s.dies
    ∧ (s.elapse d pair n).teams = s.teams ∧ (s.elapse d pair n).words = s.words := by
  unfold State.elapse
  split <;> exact ⟨rfl, rfl, rfl, rfl⟩

theorem cyc_elapse {s : State} {d pair : Nat} (runs : ¬ (s.word (0x800 + 14 * d + pair)).toNat / 2 ^ 13 % 8 = 7) (hp : pair < 9)
    (n e : Nat) {c : Nat} (hc : c < 18) : ((s.elapse d pair n).core e c).cyc
      = if e = d ∧ c / 2 = pair then (s.core e c).cyc + BitVec.ofNat 64 n else (s.core e c).cyc := by
  rw [elapse_running runs, cyc_cycles _ _ _ _ (by omega) (by omega), cyc_cycles _ _ _ _ (by omega) (by omega)]
  by_cases he : e = d
  · have half : c / 2 = pair ↔ c = 2 * pair ∨ c = 2 * pair + 1 := by omega
    simp only [he, half]
    by_cases h1 : c = 2 * pair + 1
    · simp [h1]
    · simp [h1]
  · simp [he]

/-- Settles O59: reset's words by circuitPairs and wordReset, and a running island's cycles by its two cores'. -/
theorem resetAndCycles : Obligations.ResetAndCycles := by
  have len {n : Nat} (hn : n < 24) : n < circuitPairs.length := by rw [circuitPairs_length]; exact hn
  refine ⟨⟨rfl, fun p hp => nomatch hp⟩, fun _ _ => rfl, rfl, rfl, rfl, rfl, rfl, rfl, rfl, fun n hn => queueWord_reset hn,
    fun n hn => ?circuit, fun n m hnm hm => ?order, fun _ _ _ => rfl, fun a => ?memory, fun s d pair n => ?cycles⟩
  case circuit =>
    obtain ⟨en, ext, wmask⟩ := circuit_reset (len hn)
    refine ⟨en, ext, wmask, ?_⟩
    rw [dieA_reset (len hn), dieB_reset (len hn)]
    exact circuitPairs_distinct _ (List.getElem_mem _)
  case order =>
    intro v w
    rw [dieA_reset (len (hnm.trans hm)), dieB_reset (len (hnm.trans hm)), dieA_reset (len hm), dieB_reset (len hm)]
    exact List.pairwise_iff_getElem.mp circuitPairs_rising n m _ _ hnm
  case memory =>
    unfold State.physByte
    split <;> rfl
  case cycles =>
    exact ⟨fun parked => elapse_parked parked n, fun runs hp e c hc => cyc_elapse runs hp n e hc, elapse_frame s d pair n⟩

end Sys2Proof.Machine

/-! PROOFS. The issue of an instruction (spec/02, spec/03, spec/04): a guard that holds nowhere, the order of the register checks, the
scoreboard. -/

namespace Sys2Proof.Machine

/-! ### A guard that holds in no active thread (R16, R54, R312) -/

/-- An issue that passes over a guard false in every active thread: what stands behind the scoreboard, behind the register checks
and behind the guard is left open. -/
def State.guarded (s : State) (len : Nat) (g : Guard) (ps : List Pos) (held : Ctx → Host.Outcome State Fault Refusal)
    (trapped : Ctx → Trap → Host.Outcome State Fault Refusal) (rest : Ctx → Host.Outcome State Fault Refusal) :
    Host.Outcome State Fault Refusal :=
  match s.ctx g with
  | none => .refused .noIssuer
  | some c =>
    if c.waits ps || (!c.on.isEmpty && s.uniWaits c ps) then held c
    else
      match c.regTrap ps <|> c.strictTrap ps with
      | some trap => trapped c trap
      | none => if c.on.isEmpty && !false then .next ((s.mark c.ref).complete c.ref len) else rest c

/-- The instructions that act, or count their issue, where their guard holds in no active thread (R102, R129). -/
def Instr.actsIdle : Instr → Bool
  | .mma .. | .mspa .. | .cpwait .. => true
  | .mdrn _ _ op .. => op == .reg
  | _ => false

/-- Every other instruction of a lane issues under its guard: its meaning unfolds to that shape. -/
theorem exec_eq_guarded {i : Instr} (word : i.hasWord = true) (passes : Instr.actsIdle i = false) (s : State) :
    ∃ ps held trapped rest, exec i s = s.guarded i.bytes (guardOf i) ps held trapped rest := by
  cases i with
  | mdrn g la op vd d dest o u =>
    cases op with
    | reg => cases passes
    | _ => exact ⟨_, _, _, _, rfl⟩
  | _ => cases word <;> cases passes <;> exact ⟨_, _, _, _, rfl⟩

section
variable {s : State} {g : Guard} {ps : List Pos} {c : Ctx}

theorem guarded_idle (ctx : s.ctx g = some c) (idle : c.on = []) (len : Nat)
    (held : Ctx → Host.Outcome State Fault Refusal) (trapped : Ctx → Trap → Host.Outcome State Fault Refusal)
    (rest : Ctx → Host.Outcome State Fault Refusal) :
    s.guarded len g ps held trapped rest = .next (s.issued.complete c.ref len) := by
  have free : c.waits ps = false := by simp [Ctx.waits, idle]
  have passed : c.regTrap ps = none := by simp [Ctx.regTrap, Ctx.first, idle]
  have strict : c.strictTrap ps = none := by simp [Ctx.strictTrap, idle]
  simp [State.guarded, ctx, free, idle, passed, strict, issued_mark ctx]

/-! ### The register checks (R51, R79, R84) -/

/-- The first failure of a check is of the lowest thread that fails it, at its first position. -/
theorem first_eq_some {bad : Pos → Nat → Bool} {i n : Nat} (thread : c.on.find? (fun j => ps.any (fun p => bad p j)) = some i)
    (pos : (ps.find? (fun p => bad p i)).map Pos.n = some n) : c.first ps bad = some (i, n) := by
  obtain ⟨-, before, after, on, passed⟩ := List.find?_eq_some_iff_append.mp thread
  obtain ⟨p, found, rfl⟩ := Option.map_eq_some_iff.mp pos
  refine List.findSome?_eq_some_iff.mpr ⟨before, i, after, on, by rw [found]; rfl, fun j hj => ?_⟩
  have none : ps.find? (fun p => bad p j) = none := by simpa using passed j hj
  rw [none]
  rfl

theorem first_eq_none {bad : Pos → Nat → Bool} (passed : c.on.all (fun j => !ps.any (fun p => bad p j)) = true) :
    c.first ps bad = none := by
  refine List.findSome?_eq_none_iff.mpr fun j hj => ?_
  have none : ps.find? (fun p => bad p j) = none := by simpa using List.all_eq_true.mp passed j hj
  rw [none]
  rfl

/-- Free of the scoreboard, an instruction whose checks answer a trap takes it in the state before. -/
theorem issueWith_trap {trap : Trap} (ctx : s.ctx g = some c) (free : c.waits ps = false) (uniFree : s.uniWaits c ps = false)
    (fails : (c.regTrap ps <|> c.strictTrap ps) = some trap) (always : Bool) (len : Nat) (body : Ctx → State → Done) :
    s.issueWith always len g ps body = .next (s.issued.deliver c.ref trap) := by
  simp [State.issueWith, ctx, free, uniFree, fails, issued_mark ctx]

/-! ### The scoreboard (R36, R48, R81) -/

theorem waits_iff {p : Pos} {th : Thread} : p.waits th = true ↔ p.slices ≠ 0 ∧ ∃ w ∈ th.wins,
    w.landed = false ∧ w.left = 0 ∧ w.todo &&& sliceMask (p.start th) p.slices ≠ 0#512 := by
  simp [Pos.waits, and_assoc]

theorem waitsIn_iff {j : Nat} : c.waitsIn ps j = true ↔ ∃ q ∈ ps, c.uses ps q j = true ∧ q.slices ≠ 0 ∧ ∃ x ∈ (c.th j).wins,
    x.landed = false ∧ x.left = 0 ∧ x.todo &&& sliceMask (q.start (c.th j)) q.slices ≠ 0#512 := by
  simp only [Ctx.waitsIn, List.any_eq_true, Bool.and_eq_true, waits_iff]

theorem firstWaits_eq {j : Nat} (first : (maskThreads c.entry.mask).head? = some j) :
    c.firstWaits ps = (c.on.contains j && c.waitsIn ps j) := by
  obtain ⟨rest, threads⟩ := List.head?_eq_some_iff.mp first
  rw [Ctx.firstWaits, threads]

/-- An instruction that the scoreboard holds in some thread changes nothing but the mark that it was held. -/
theorem issueWith_held {i : Nat} (ctx : s.ctx g = some c) (on : i ∈ c.on) (waits : c.waitsIn ps i = true) (always : Bool) (len : Nat)
    (body : Ctx → State → Done) : s.issueWith always len g ps body
      = .next { s with held := if c.firstWaits ps || s.uniWaits c ps then .scoreboard else .lane } := by
  have held : c.waits ps = true := List.any_eq_true.mpr ⟨i, on, waits⟩
  simp [State.issueWith, ctx, held]

end

/-- Settles O14: the guard by the shape of every instruction's issue, the checks by the order in which regTrap tries them, the
scoreboard by the threads that it holds. -/
theorem issueChecks : Obligations.IssueChecks := by
  refine ⟨fun s i c word acts ctx idle => ?guard, fun s always len g ps body c i n => ?checks, fun s always len g ps body c i p w => ?held⟩
  case guard =>
    have passes : Instr.actsIdle i = false := by
      clear word ctx
      cases i with
      | mma | mspa | cpwait => exact acts.elim
      | mdrn => exact beq_false_of_ne acts
      | _ => rfl
    obtain ⟨ps, held, trapped, rest, shape⟩ := exec_eq_guarded word passes s
    rw [shape, guarded_idle ctx idle]
  case checks =>
    intro fails none named traps illopnd ixbound range invreg ctx free uniFree
    have trap {t : Trap} (h : (c.regTrap ps <|> c.strictTrap ps) = some t) := issueWith_trap ctx free uniFree h always len body
    have info : i % 32 + 256 * n = opInfo i n := by rw [opInfo, Nat.mul_comm n]
    rw [info]
    refine ⟨fun bad => trap ?_, fun p1 bad => trap ?_, fun p1 p2 bad => trap ?_, fun p1 p2 p3 bad => trap ?_,
      fun w p1 p2 p3 p4 strict window => trap ?_⟩
    · rw [Ctx.regTrap, first_eq_some bad.1 bad.2]
      rfl
    · rw [Ctx.regTrap, first_eq_none p1, first_eq_some bad.1 bad.2]
      rfl
    · rw [Ctx.regTrap, first_eq_none p1, first_eq_none p2, first_eq_some bad.1 bad.2]
      rfl
    · rw [Ctx.regTrap, first_eq_none p1, first_eq_none p2, first_eq_none p3, first_eq_some bad.1 bad.2]
      rfl
    · rw [Ctx.regTrap, first_eq_none p1, first_eq_none p2, first_eq_none p3, first_eq_none p4, Ctx.strictTrap, if_pos strict, window]
      rfl
  case held =>
    intro holds ctx on pos uses slices win landed left todo
    have waits : c.waitsIn ps i = true := waitsIn_iff.mpr ⟨p, pos, uses, slices, w, win, landed, left, todo⟩
    refine ⟨fun j first held => ?_, fun j first free uniFree => ?_⟩
    · obtain ⟨hj, held⟩ := held
      rw [issueWith_held ctx on waits, firstWaits_eq first, waitsIn_iff.mpr held, List.contains_iff_mem.mpr hj]
      rfl
    · have first : c.firstWaits ps = false := by
        rw [firstWaits_eq first, Bool.and_eq_false_iff, ← Bool.not_eq_true, ← Bool.not_eq_true, List.contains_iff_mem, waitsIn_iff]
        exact not_and_or.mp free
      rw [issueWith_held ctx on waits, first, uniFree]
      rfl

end Sys2Proof.Machine

/-! PROOFS. Writes and atomics performed at their homes (spec/09, spec/12): what an event of a home leaves of memory, tags and the accesses on
their way, bytes laid one by one, sent writes, atomics and their return. -/

namespace Sys2Proof.Machine

/-! ### The homes -/

/-- What the homes hold and what is on its way to them: bytes, tags, sent writes and atomics, and the words and ports that place the second
tier (R167, R168, R233, R279). -/
structure Homes where
  mem : Memory
  tags : List Nat
  writes : List WriteRec
  atoms : List AtomRec
  words : Tbl Word64
  ports : Tbl (Nat × Bool)

def State.homes (s : State) : Homes := ⟨s.mem, s.tags, s.writes, s.atoms, s.words, s.ports⟩

section
variable {s t : State}

/-- The cell of an address is placed by the package's words and the ports alone. -/
theorem cell?_congr (words : t.words = s.words) (ports : t.ports = s.ports) (a : Nat) : t.cell? a = s.cell? a := by
  have placed (s : State) : s.cell? a = ({ State.reset with words := s.words, ports := s.ports } : State).cell? a := rfl
  rw [placed t, placed s, words, ports]

theorem cell?_of_homes (h : t.homes = s.homes) (a : Nat) : t.cell? a = s.cell? a :=
  cell?_congr (congrArg Homes.words h) (congrArg Homes.ports h) a

theorem atoms_of_homes (h : t.homes = s.homes) : t.atoms = s.atoms := congrArg Homes.atoms h

theorem physByte_of_homes (h : t.homes = s.homes) (a : Nat) : t.physByte a = s.physByte a := by
  have mem : t.mem = s.mem := congrArg Homes.mem h
  rw [State.physByte, State.physByte, cell?_of_homes h, mem]

theorem physRead_of_homes (h : t.homes = s.homes) (a n : Nat) : t.physRead a n = s.physRead a n := by
  simp only [State.physRead, physByte_of_homes h]

theorem unitTag_of_homes (h : t.homes = s.homes) (a : Nat) : t.unitTag a = s.unitTag a := by
  have tags : t.tags = s.tags := congrArg Homes.tags h
  rw [State.unitTag, State.unitTag, cell?_of_homes h, tags]

end

/-! ### What touches no home -/

theorem homes_foldl {α : Type} {f : State → α → State} (keeps : ∀ s x, (f s x).homes = s.homes) (l : List α) (s : State) :
    (l.foldl f s).homes = s.homes := by
  induction l generalizing s with
  | nil => rfl
  | cons x r ih => rw [List.foldl_cons, ih, keeps]

theorem homes_touchHome (s : State) (l : LineAt) : (s.touchHome l).homes = s.homes := by
  simp only [State.touchHome]
  split
  · split
    · rfl
    · split <;> rfl
  · rfl

theorem homes_noteDirty (s : State) (cells : List Nat) : (s.noteDirty cells).homes = s.homes := by
  unfold State.noteDirty
  split <;> rfl

theorem homes_acquire (s : State) (team : Nat) (name : Word64) : (s.acquire team name).homes = s.homes := by
  unfold State.acquire
  split <;> rfl

theorem homes_wakeSwapped (s : State) (team : Nat) : (s.wakeSwapped team).homes = s.homes := by
  unfold State.wakeSwapped
  split
  · split <;> rfl
  · rfl

/-- A satisfied monitor moves its leaf, its team and its core's L1. -/
theorem homes_satisfy (s : State) (m : Monitor) : (s.satisfy m).homes = s.homes := by
  simp only [State.satisfy]
  split
  · split
    · rw [homes_wakeSwapped, homes_acquire]
      split <;> rfl
    · rfl
  · rfl

theorem homes_grantMonitors (s : State) (die fuel : Nat) : (s.grantMonitors die fuel).homes = s.homes := by
  induction fuel generalizing s with
  | zero => rfl
  | succ fuel ih =>
    simp only [State.grantMonitors]
    split
    · rfl
    · split
      · rfl
      · split
        · rw [ih, homes_satisfy]
          rfl
        · rw [ih]
          rfl

theorem homes_evalMonitors (s : State) (written : List Nat) : (s.evalMonitors written).homes = s.homes := by
  refine homes_foldl (fun s d => homes_foldl (fun s m => ?_) _ _) _ _
  simp only
  split
  · rw [homes_grantMonitors, homes_satisfy]
    rfl
  · rfl

theorem homes_writeHome (s : State) (l : List (Nat × Byte)) : (s.writeHome l).homes = (s.layBytes l).homes := by
  simp only [State.writeHome]
  rw [homes_evalMonitors, homes_noteDirty]
  rfl

/-! ### Bytes laid one by one -/

section
variable {s t : State}

theorem homes_physSet (h : t.homes = s.homes) (a : Nat) (b : Byte) : (t.physSet a b).homes = (s.physSet a b).homes := by
  unfold State.physSet
  rw [cell?_of_homes h]
  split
  next c _ => exact congrArg (fun x : Homes => { x with mem := x.mem.set c b }) h
  next => exact h

theorem homes_setUnitTag (h : t.homes = s.homes) (a : Nat) (v : Bool) : (t.setUnitTag a v).homes = (s.setUnitTag a v).homes := by
  unfold State.setUnitTag
  rw [cell?_of_homes h]
  split
  next c _ => exact congrArg (fun x : Homes => { x with tags := if v then insNat (c / 16) x.tags else x.tags.filter (· != c / 16) }) h
  next => exact h

theorem homes_foldl_congr {α : Type} {f : State → α → State} (keeps : ∀ s t x, t.homes = s.homes → (f t x).homes = (f s x).homes)
    (l : List α) (h : t.homes = s.homes) : (l.foldl f t).homes = (l.foldl f s).homes := by
  induction l generalizing s t with
  | nil => exact h
  | cons x r ih => exact ih (keeps s t x h)

theorem homes_layBytes (h : t.homes = s.homes) (l : List (Nat × Byte)) : (t.layBytes l).homes = (s.layBytes l).homes :=
  homes_foldl_congr (fun _ _ p h => homes_setUnitTag (homes_physSet h p.1 p.2) p.1 false) l h

end

/-- Bytes laid one by one change memory and tags alone. -/
theorem layBytes_eq (s : State) (l : List (Nat × Byte)) : ∃ mem tags, s.layBytes l = { s with mem := mem, tags := tags } := by
  induction l generalizing s with
  | nil => exact ⟨s.mem, s.tags, rfl⟩
  | cons p r ih =>
    obtain ⟨mem, tags, laid⟩ := ih ((s.physSet p.1 p.2).setUnitTag p.1 false)
    refine ⟨mem, tags, laid.trans ?_⟩
    rw [State.setUnitTag_eq, State.physSet_eq]

theorem layBytes_cons (s : State) (p : Nat × Byte) (l : List (Nat × Byte)) :
    s.layBytes (p :: l) = ((s.physSet p.1 p.2).setUnitTag p.1 false).layBytes l := rfl

theorem layBytes_append (s : State) (l r : List (Nat × Byte)) : s.layBytes (l ++ r) = (s.layBytes l).layBytes r := List.foldl_append

@[simp] theorem cell?_physSet (s : State) (pa a : Nat) (b : Byte) : (s.physSet pa b).cell? a = s.cell? a := by
  unfold State.physSet
  split <;> rfl

@[simp] theorem cell?_setUnitTag (s : State) (pa a : Nat) (v : Bool) : (s.setUnitTag pa v).cell? a = s.cell? a := by
  unfold State.setUnitTag
  split <;> rfl

@[simp] theorem cell?_layBytes (s : State) (l : List (Nat × Byte)) (a : Nat) : (s.layBytes l).cell? a = s.cell? a := by
  obtain ⟨mem, tags, laid⟩ := layBytes_eq s l
  rw [laid]
  rfl

@[simp] theorem physByte_setUnitTag (s : State) (pa a : Nat) (v : Bool) : (s.setUnitTag pa v).physByte a = s.physByte a := by
  rw [State.setUnitTag_eq]
  rfl

@[simp] theorem unitTag_physSet (s : State) (pa a : Nat) (b : Byte) : (s.physSet pa b).unitTag a = s.unitTag a := by
  rw [State.physSet_eq]
  rfl

/-- Bytes laid elsewhere leave a byte as it was. -/
theorem physByte_layBytes_of_ne {s : State} {l : List (Nat × Byte)} {a : Nat} (apart : ∀ p ∈ l, s.cell? p.1 ≠ s.cell? a) :
    (s.layBytes l).physByte a = s.physByte a := by
  induction l generalizing s with
  | nil => rfl
  | cons p r ih =>
    rw [layBytes_cons, ih (fun q hq => ?_), physByte_setUnitTag, State.physByte_physSet, if_neg]
    · exact fun same => apart p List.mem_cons_self same.1.symm
    · simpa using apart q (List.mem_cons_of_mem _ hq)

/-- The last byte laid in a cell stands there. -/
theorem physByte_layBytes_last {s : State} {l r : List (Nat × Byte)} {p : Nat × Byte} (last : ∀ q ∈ r, s.cell? q.1 ≠ s.cell? p.1)
    (installed : (s.cell? p.1).isSome = true) : (s.layBytes (l ++ p :: r)).physByte p.1 = p.2 := by
  rw [layBytes_append, layBytes_cons, physByte_layBytes_of_ne (by simpa using last), physByte_setUnitTag, State.physByte_physSet,
    if_pos (by simpa using installed)]

/-! ### Tags of units (R167) -/

theorem mem_insNat {x y : Nat} {l : List Nat} : y ∈ insNat x l ↔ y = x ∨ y ∈ l := by
  induction l with
  | nil => simp [insNat]
  | cons z r ih =>
    unfold insNat
    split
    · simp
    · split
      · subst x
        simp
      · simp only [List.mem_cons, ih]
        tauto

theorem unitTag_iff {s : State} {a : Nat} : s.unitTag a = true ↔ ∃ c, s.cell? a = some c ∧ c / 16 ∈ s.tags := by
  unfold State.unitTag
  cases s.cell? a <;> simp

theorem unitTag_setUnitTag_true {s : State} {pa a : Nat} :
    (s.setUnitTag pa true).unitTag a = true ↔
      s.unitTag a = true ∨ ∃ c, s.cell? pa = some c ∧ (s.cell? a).map (· / 16) = some (c / 16) := by
  rw [unitTag_iff, unitTag_iff, cell?_setUnitTag]
  unfold State.setUnitTag
  cases s.cell? pa with
  | none => simp
  | some c =>
    simp only [if_true, mem_insNat, Option.some.injEq, exists_eq_left', Option.map_eq_some_iff]
    constructor
    · rintro ⟨d, cell, same | tagged⟩
      · exact .inr ⟨d, cell, same⟩
      · exact .inl ⟨d, cell, tagged⟩
    · rintro (⟨d, cell, tagged⟩ | ⟨d, cell, same⟩)
      · exact ⟨d, cell, .inr tagged⟩
      · exact ⟨d, cell, .inl same⟩

theorem unitTag_setUnitTag_false {s : State} {pa a : Nat} (h : (s.setUnitTag pa false).unitTag a = true) :
    s.unitTag a = true ∧ s.cell? pa ≠ s.cell? a := by
  rw [unitTag_iff, cell?_setUnitTag] at h
  obtain ⟨c, cell, tagged⟩ := h
  rw [unitTag_iff, cell]
  unfold State.setUnitTag at tagged
  split at tagged
  next d hd =>
    simp only [Bool.false_eq_true, if_false, List.mem_filter, bne_iff_ne] at tagged
    refine ⟨⟨c, rfl, tagged.1⟩, fun same => tagged.2 ?_⟩
    rw [Option.some.inj (same.symm.trans hd)]
  next hd => exact ⟨⟨c, rfl, tagged⟩, by rw [hd]; exact nofun⟩

/-- Bytes laid one by one leave their units untagged, and tag none. -/
theorem unitTag_layBytes {s : State} {l : List (Nat × Byte)} {a : Nat} (h : (s.layBytes l).unitTag a = true) :
    s.unitTag a = true ∧ ∀ p ∈ l, s.cell? p.1 ≠ s.cell? a := by
  induction l generalizing s with
  | nil => exact ⟨h, nofun⟩
  | cons p r ih =>
    obtain ⟨tagged, apart⟩ := ih h
    obtain ⟨tagged, first⟩ := unitTag_setUnitTag_false tagged
    rw [unitTag_physSet] at tagged
    simp only [cell?_setUnitTag, cell?_physSet] at apart first
    exact ⟨tagged, List.forall_mem_cons.mpr ⟨first, apart⟩⟩

/-- Units tagged one by one. -/
def State.tagUnits (s : State) (units : List Nat) : State := units.foldl (fun s u => s.setUnitTag (u * 16) true) s

theorem homes_tagUnits {s t : State} (h : t.homes = s.homes) (units : List Nat) : (t.tagUnits units).homes = (s.tagUnits units).homes :=
  homes_foldl_congr (fun _ _ u h => homes_setUnitTag h (u * 16) true) units h

theorem tagUnits_eq (s : State) (units : List Nat) : ∃ tags, s.tagUnits units = { s with tags := tags } := by
  induction units generalizing s with
  | nil => exact ⟨s.tags, rfl⟩
  | cons u r ih =>
    obtain ⟨tags, tagged⟩ := ih (s.setUnitTag (u * 16) true)
    refine ⟨tags, tagged.trans ?_⟩
    rw [State.setUnitTag_eq]

theorem unitTag_tagUnits {s : State} {units : List Nat} {a : Nat} : (s.tagUnits units).unitTag a = true ↔
    s.unitTag a = true ∨ ∃ u ∈ units, ∃ c, s.cell? (u * 16) = some c ∧ (s.cell? a).map (· / 16) = some (c / 16) := by
  induction units generalizing s with
  | nil => simp [State.tagUnits]
  | cons u r ih =>
    have step : s.tagUnits (u :: r) = (s.setUnitTag (u * 16) true).tagUnits r := rfl
    rw [step, ih, unitTag_setUnitTag_true]
    simp only [cell?_setUnitTag, List.exists_mem_cons_iff, or_assoc]

/-! ### A sent write performed (R173, R184, R233) -/

/-- The bytes that runs of stores lay, in order; `left` holds the bytes that nibble stores have read. -/
def laidBytes (left : Tbl Byte) : List (List StoreByte) → List (Nat × Byte)
  | [] => []
  | run :: rest => runBytes left run ++ laidBytes ((runBytes left run).foldl (fun t p => Tbl.put p.1 p.2 t) left) rest

theorem homes_performRuns (s : State) (left : Tbl Byte) (runs : List (List StoreByte)) :
    (s.performRuns left runs).homes = (s.layBytes (laidBytes left runs)).homes := by
  induction runs generalizing s left with
  | nil => rfl
  | cons run rest ih => rw [State.performRuns, ih, laidBytes, layBytes_append, homes_layBytes (homes_writeHome s _)]

theorem storeRuns_flatten (bs : List StoreByte) : (storeRuns bs).flatten = bs := by
  induction bs with
  | nil => rfl
  | cons b r ih =>
    rw [storeRuns]
    split
    next x xs rest runs =>
      rw [runs] at ih
      split <;> simpa using ih
    next => simpa using ih

/-- A pair of an address and the byte that a store byte leaves there over some old one. -/
def StoreByte.Lays (b : StoreByte) (p : Nat × Byte) : Prop := p.1 = b.addr ∧ ∃ old, p.2 = b.over old

/-- Runs lay one byte for each of theirs, in their order. -/
theorem laidBytes_lays (left : Tbl Byte) (runs : List (List StoreByte)) :
    List.Forall₂ StoreByte.Lays runs.flatten (laidBytes left runs) := by
  induction runs generalizing left with
  | nil => exact .nil
  | cons run rest ih =>
    refine List.rel_append ?_ (ih _)
    exact List.forall₂_map_right_iff.mpr (List.forall₂_same.mpr fun b _ => ⟨rfl, _, rfl⟩)

theorem storeRuns_lays (left : Tbl Byte) (bs : List StoreByte) : List.Forall₂ StoreByte.Lays bs (laidBytes left (storeRuns bs)) := by
  simpa only [storeRuns_flatten] using laidBytes_lays left (storeRuns bs)

section
variable {bs : List StoreByte} {laid : List (Nat × Byte)} (lays : List.Forall₂ StoreByte.Lays bs laid)
include lays

theorem lays_addr {p : Nat × Byte} (hp : p ∈ laid) : ∃ b ∈ bs, p.1 = b.addr := by
  induction lays with
  | nil => exact nomatch hp
  | cons head _ ih =>
    rcases List.mem_cons.mp hp with rfl | hp
    · exact ⟨_, List.mem_cons_self, head.1⟩
    · obtain ⟨b, hb, addr⟩ := ih hp
      exact ⟨b, List.mem_cons_of_mem _ hb, addr⟩

theorem addr_lays {b : StoreByte} (hb : b ∈ bs) : ∃ p ∈ laid, p.1 = b.addr := by
  induction lays with
  | nil => exact nomatch hb
  | cons head _ ih =>
    rcases List.mem_cons.mp hb with rfl | hb
    · exact ⟨_, List.mem_cons_self, head.1⟩
    · obtain ⟨p, hp, addr⟩ := ih hb
      exact ⟨p, List.mem_cons_of_mem _ hp, addr⟩

theorem lays_split {l r : List StoreByte} {b : StoreByte} (at_ : bs = l ++ b :: r) :
    ∃ l' p r', laid = l' ++ p :: r' ∧ b.Lays p ∧ List.Forall₂ StoreByte.Lays r r' := by
  subst at_
  have drop := List.forall₂_drop_append laid l (b :: r) lays.flip
  obtain ⟨p, r', hb, hr, rest⟩ := List.forall₂_cons_right_iff.mp drop
  exact ⟨laid.take l.length, p, r', by rw [← rest, List.take_append_drop], hb, hr.flip⟩

end

/-- Bytes of a sent write performed leave at the homes what laying them one by one leaves, and the tags of the write's units. -/
theorem homes_performWrite (s : State) (w : WriteRec) (bs : List StoreByte) : (s.performWrite w bs).homes
    = ((s.layBytes (laidBytes w.reads (storeRuns bs))).tagUnits (w.tagged.filter (unitsOf bs).contains)).homes := by
  have runs : ((s.touchHome w.at_).performRuns w.reads (storeRuns bs)).homes = (s.layBytes (laidBytes w.reads (storeRuns bs))).homes := by
    rw [homes_performRuns, homes_layBytes (homes_touchHome s w.at_)]
  exact homes_tagUnits runs _

section
variable (s : State) (w : WriteRec) (bs : List StoreByte)

theorem performWrite_writes : (s.performWrite w bs).writes = s.writes := by
  refine (congrArg Homes.writes (homes_performWrite s w bs)).trans ?_
  obtain ⟨tags, tagged⟩ := tagUnits_eq (s.layBytes (laidBytes w.reads (storeRuns bs))) (w.tagged.filter (unitsOf bs).contains)
  obtain ⟨mem, tags', laid⟩ := layBytes_eq s (laidBytes w.reads (storeRuns bs))
  rw [tagged, laid]
  rfl

theorem physByte_performWrite (a : Nat) : (s.performWrite w bs).physByte a = (s.layBytes (laidBytes w.reads (storeRuns bs))).physByte a := by
  rw [physByte_of_homes (homes_performWrite s w bs)]
  obtain ⟨tags, tagged⟩ := tagUnits_eq (s.layBytes (laidBytes w.reads (storeRuns bs))) (w.tagged.filter (unitsOf bs).contains)
  rw [tagged]
  rfl

variable {s w bs}

/-- Every byte of another cell is as it was. -/
theorem performWrite_keeps {a : Nat} (apart : ∀ b ∈ bs, s.cell? b.addr ≠ s.cell? a) :
    (s.performWrite w bs).physByte a = s.physByte a := by
  rw [physByte_performWrite, physByte_layBytes_of_ne]
  intro p hp
  obtain ⟨b, hb, addr⟩ := lays_addr (storeRuns_lays w.reads bs) hp
  exact addr ▸ apart b hb

/-- The last byte of a cell stands there. -/
theorem performWrite_last {l r : List StoreByte} {b : StoreByte} (at_ : bs = l ++ b :: r) (whole : b.nib = none)
    (last : ∀ x ∈ r, s.cell? x.addr ≠ s.cell? b.addr) (installed : (s.cell? b.addr).isSome = true) :
    (s.performWrite w bs).physByte b.addr = b.byte := by
  obtain ⟨l', ⟨a, v⟩, r', laid, ⟨rfl, old, rfl⟩, rest⟩ := lays_split (storeRuns_lays w.reads bs) at_
  rw [physByte_performWrite, laid, physByte_layBytes_last (fun q hq => ?_) installed]
  · simp only [StoreByte.over, whole]
  · obtain ⟨x, hx, addr⟩ := lays_addr rest hq
    exact addr ▸ last x hx

theorem over_nibble {b : StoreByte} {hi : Bool} (nib : b.nib = some hi) (v : Byte) : (b.over v).toNat
    = if hi then v.toNat % 16 + 16 * (b.byte.toNat % 16) else 16 * (v.toNat / 16) + b.byte.toNat % 16 := by
  have := v.isLt
  rw [StoreByte.over, nib]
  cases hi <;> simp [setBits, bitsOf] <;> omega

/-- A nibble store alone is laid over what it read. -/
theorem performWrite_nibble {b : StoreByte} {v : Byte} (read : Tbl.look b.addr w.reads = some v)
    (installed : (s.cell? b.addr).isSome = true) : (s.performWrite w [b]).physByte b.addr = b.over v := by
  have laid : laidBytes w.reads (storeRuns [b]) = [] ++ (b.addr, b.over v) :: [] := by
    simp [storeRuns, laidBytes, runBytes, Tbl.get, read]
  rw [physByte_performWrite, laid, physByte_layBytes_last (by simp) installed]

theorem unitTag_performWrite {a : Nat} : (s.performWrite w bs).unitTag a = true ↔
    (s.layBytes (laidBytes w.reads (storeRuns bs))).unitTag a = true
      ∨ ∃ u ∈ w.tagged, u ∈ unitsOf bs ∧ ∃ c, s.cell? (u * 16) = some c ∧ (s.cell? a).map (· / 16) = some (c / 16) := by
  rw [unitTag_of_homes (homes_performWrite s w bs), unitTag_tagUnits]
  simp [and_assoc]

/-- A unit that the write touches and does not tag is untagged. -/
theorem performWrite_untags {b : StoreByte} (hb : b ∈ bs)
    (untagged : ∀ u ∈ w.tagged, u ∈ unitsOf bs → (s.cell? (16 * u)).map (· / 16) ≠ (s.cell? b.addr).map (· / 16)) :
    (s.performWrite w bs).unitTag b.addr = false := by
  rw [← Bool.not_eq_true, unitTag_performWrite]
  rintro (before | ⟨u, tagged, touched, c, cell, same⟩)
  · obtain ⟨p, hp, addr⟩ := addr_lays (storeRuns_lays w.reads bs) hb
    exact (unitTag_layBytes before).2 p hp (addr ▸ rfl)
  · exact untagged u tagged touched (by rw [Nat.mul_comm, cell, same]; rfl)

/-- A unit that the write tags is tagged. -/
theorem performWrite_tags {u : Nat} (tagged : u ∈ w.tagged) (touched : u ∈ unitsOf bs) (installed : (s.cell? (16 * u)).isSome = true) :
    (s.performWrite w bs).unitTag (16 * u) = true := by
  obtain ⟨c, cell⟩ := Option.isSome_iff_exists.mp installed
  exact unitTag_performWrite.mpr (.inr ⟨u, tagged, touched, c, Nat.mul_comm 16 u ▸ cell, by rw [cell]; rfl⟩)

end

/-! ### MEMORY_WRITE_PERFORM (R233) -/

section
variable {s : State} {id : Nat} {w : WriteRec} {bs : List StoreByte} (found : s.writes.find? (fun x => x.id == id) = some w)
  (chosen : w.chosen (~~~s.choice) = bs) (some_ : bs ≠ []) (may : (s.setWrite (w.without bs)).mayWrite w.die bs = true)
include found chosen some_ may

/-- A nibble store's first step: it reads its bytes. -/
theorem memoryWritePerform_reads (unread : w.unread bs ≠ []) : exec (.memoryWritePerform id) s
    = .next (s.setWrite { w with reads := (w.unread bs).foldl (fun t a => Tbl.put a (s.physByte a) t) w.reads }) := by
  have waits : (w.unread bs).isEmpty = false := List.isEmpty_eq_false_iff.mpr unread
  have picks : bs.isEmpty = false := List.isEmpty_eq_false_iff.mpr some_
  show execMemoryWritePerform id s = _
  simp [execMemoryWritePerform, found, chosen, picks, may, waits]

theorem memoryWritePerform_writes (read : w.unread bs = []) :
    exec (.memoryWritePerform id) s = .next ((s.setWrite (w.without bs)).performWrite w bs) := by
  have picks : bs.isEmpty = false := List.isEmpty_eq_false_iff.mpr some_
  show execMemoryWritePerform id s = _
  simp [execMemoryWritePerform, found, chosen, picks, may, read]

end

theorem chosen_of_empty {w : WriteRec} (empty : w.bytes = []) (sel : BitVec 128) : w.chosen sel = [] := by
  rw [WriteRec.chosen, empty]
  rfl

/-- A sent write that has bytes left stands changed in its place. -/
theorem setWrite_writes {s : State} {w : WriteRec} (some_ : w.bytes ≠ []) :
    (s.setWrite w).writes = s.writes.map (fun x => if x.id == w.id then w else x) := by
  have left : w.bytes.isEmpty = false := List.isEmpty_eq_false_iff.mpr some_
  simp [State.setWrite, left, mapIf]

theorem look_foldl_put {α : Type} (f : Nat → α) (keys : List Nat) (t : Tbl α) (a : Nat) :
    Tbl.look a (keys.foldl (fun t k => Tbl.put k (f k) t) t) = if a ∈ keys then some (f a) else Tbl.look a t := by
  induction keys generalizing t with
  | nil => rfl
  | cons k r ih =>
    rw [List.foldl_cons, ih, Tbl.look_put]
    by_cases here : a = k
    · subst a
      simp
    · simp [here]

/-! ### Elements of memory (R3, R245, R246) -/

theorem leNat_cons (b : Byte) (l : List Byte) : leNat (b :: l) = b.toNat + 256 * leNat l := rfl

theorem natLe_succ (n v : Nat) : natLe (n + 1) v = BitVec.ofNat 8 v :: natLe n (v / 256) := by
  simp only [natLe, List.range_succ_eq_map, List.map_cons, List.map_map, Nat.mul_zero, pow_zero, Nat.div_one, List.cons.injEq, true_and]
  refine List.map_congr_left fun i _ => ?_
  rw [Function.comp, Nat.div_div_eq_div_mul, show 256 * 2 ^ (8 * i) = 2 ^ (8 * (i + 1)) by rw [mul_add, pow_add]; ring]

theorem length_natLe (n v : Nat) : (natLe n v).length = n := by simp [natLe]

/-- The bytes of the number of some bytes are those bytes. -/
theorem natLe_leNat (l : List Byte) : natLe l.length (leNat l) = l := by
  induction l with
  | nil => rfl
  | cons b r ih =>
    have low := b.isLt
    rw [List.length_cons, natLe_succ, leNat_cons, show (b.toNat + 256 * leNat r) / 256 = leNat r by omega, ih]
    congr 1
    apply BitVec.eq_of_toNat_eq
    rw [BitVec.toNat_ofNat]
    omega

theorem leNat_lt (l : List Byte) : leNat l < 2 ^ (8 * l.length) := by
  induction l with
  | nil => exact Nat.one_pos
  | cons b r ih =>
    have low := b.isLt
    rw [leNat_cons, List.length_cons, mul_add, pow_add]
    omega

theorem length_physRead (s : State) (pa n : Nat) : (s.physRead pa n).length = n := by simp [State.physRead]

theorem natLe_physRead (s : State) (pa n : Nat) : natLe n (leNat (s.physRead pa n)) = s.physRead pa n := by
  have read := natLe_leNat (s.physRead pa n)
  rwa [length_physRead] at read

theorem leNat_physRead_lt (s : State) (pa n : Nat) : leNat (s.physRead pa n) < 2 ^ (8 * n) := by
  have below := leNat_lt (s.physRead pa n)
  rwa [length_physRead] at below

/-- A pattern and its value under a signedness agree modulo its width. -/
theorem intVal_emod (sg : Bool) (w v : Nat) : intVal sg w v % (2 ^ w : Nat) = (v : Int) % (2 ^ w : Nat) := by
  unfold intVal toSigned
  cases sg
  · rw [if_neg Bool.false_ne_true, Int.natCast_emod, Int.emod_emod]
  · rw [if_pos rfl]
    split
    · rw [Int.natCast_emod, Int.emod_emod]
    · rw [Int.sub_emod_right, Int.natCast_emod, Int.emod_emod]

theorem wrap_intVal (sg : Bool) (w v : Nat) : wrap w (intVal sg w v) = v % 2 ^ w := by
  rw [wrap, intVal_emod, ← Int.natCast_emod, Int.toNat_natCast]

section
variable {t : Ty} (integer : t.fmt = none) {old a : Nat}
include integer

theorem redApply_add : redApply .add t old a = ((old + a) % 2 ^ t.bits, 0#5) := by
  simp only [redApply, integer, wrap]
  rw [Int.add_emod, intVal_emod, intVal_emod, ← Int.add_emod, ← Int.natCast_add, ← Int.natCast_emod, Int.toNat_natCast]

variable (ho : old < 2 ^ t.bits) (ha : a < 2 ^ t.bits)
include ho ha

theorem redApply_min : redApply .min t old a
    = (if decide (intVal t.isSigned t.bits old ≤ intVal t.isSigned t.bits a) then old else a, 0#5) := by
  simp only [redApply, integer, min_def, decide_eq_true_eq]
  split <;> rw [wrap_intVal, Nat.mod_eq_of_lt ‹_›]

theorem redApply_max : redApply .max t old a
    = (if decide (intVal t.isSigned t.bits old ≤ intVal t.isSigned t.bits a) then a else old, 0#5) := by
  simp only [redApply, integer, max_def, decide_eq_true_eq]
  split <;> rw [wrap_intVal, Nat.mod_eq_of_lt ‹_›]

end

/-- A reduction's operation on two elements of a format (R246). -/
def redFloat (op : RedOp) (f : Fmt) (l : List Nat) : Nat × Flags :=
  match op with
  | .add => f.add .rn false (l.getD 0 0) (l.getD 1 0)
  | .min => f.select true false (l.getD 0 0) (l.getD 1 0)
  | _ => f.select false false (l.getD 0 0) (l.getD 1 0)

theorem redApply_float {t : Ty} {f : Fmt} (float : t.fmt = some f) (op : RedOp) (old a : Nat) :
    FltResult t (redFloat op f) [old, a] ⟨some (redApply op t old a).1, none, (redApply op t old a).2⟩ := by
  have same : fltResult t (redFloat op) [old, a] = ⟨some (redApply op t old a).1, none, (redApply op t old a).2⟩ := by
    simp only [fltResult, redApply, float, Ty.split, List.zipWith_map, List.zipWith_self]
    cases op <;> rfl
  rw [← same]
  exact fltResult_spec t f float (redFloat op) [old, a]

/-! ### ATOM_PERFORM (R245, R246, R315, R316, R329) -/

theorem physRead_physWrite {s : State} {pa : Nat} {bs : List Byte} (apart : s.Apart pa bs.length) :
    (s.physWrite pa bs).physRead pa bs.length = bs := by
  refine List.ext_getElem (length_physRead _ _ _) fun j _ hj => ?_
  have read := read_physWrite s pa bs apart j hj
  rw [List.getD_eq_getElem _ _ hj] at read
  simpa only [State.physRead, List.getElem_map, List.getElem_range] using read

/-- The state once the next thread's operation is performed at the home: the core's copies of its line are gone, the thread's record is
marked. -/
def State.atomDone (s : State) (t : Team) (op : Nat) (x : AtomThread) (mark : AtomThread → AtomThread) : State :=
  { s.updCore t.die t.core (fun k => { k with l1 := k.l1.filter (fun l => l.at_.line != x.at_.line) }) with
    atoms := mapIf (fun y => y.id == op) (fun y => { y with threads := mapIf (fun z => z.thread == x.thread) mark y.threads }) s.atoms }

/-- What an atomic's operation leaves: the thread's record marked, the element at the home, every other byte as it was. -/
def Performed (s u : State) (op n : Nat) (x : AtomThread) (v : Nat) (mark : AtomThread → AtomThread) : Prop :=
  u.atoms = s.atoms.map (fun r => if r.id == op then
      { r with threads := r.threads.map (fun z => if z.thread == x.thread then mark z else z) } else r)
    ∧ u.physRead x.addr n = natLe n v ∧ KeepsBytes s u x.addr n

section
variable {s : State} (t : Team) (op n : Nat) (x : AtomThread) (mark : AtomThread → AtomThread)

theorem performed_atomDone {u : State} {v : Nat} (atoms : u.atoms = s.atoms) (read : u.physRead x.addr n = natLe n v)
    (keeps : KeepsBytes s u x.addr n) : Performed s (u.atomDone t op x mark) op n x v mark := by
  refine ⟨?_, read, keeps⟩
  rw [← atoms]
  rfl

theorem performed_touchHome :
    Performed s ((s.touchHome x.at_).atomDone t op x mark) op n x (leNat (s.physRead x.addr n)) mark := by
  have same := homes_touchHome s x.at_
  refine performed_atomDone t op n x mark (atoms_of_homes same) ?_ fun a _ => physByte_of_homes same a
  rw [physRead_of_homes same, natLe_physRead]

theorem performed_writeHome (apart : s.Apart x.addr n) (v : Nat) :
    Performed s (((s.touchHome x.at_).writeHome (valueBytes x.addr n v)).atomDone t op x mark) op n x v mark := by
  obtain ⟨tags, row⟩ := layBytes_row s x.addr (natLe n v) 0
  rw [Nat.add_zero, State.physWrite_eq] at row
  have same : ((s.touchHome x.at_).writeHome (valueBytes x.addr n v)).homes
      = ({ s with mem := (s.physWrite x.addr (natLe n v)).mem, tags := tags } : State).homes := by
    rw [homes_writeHome, homes_layBytes (homes_touchHome s x.at_), valueBytes, row]
  have written := physRead_physWrite (s := s) (pa := x.addr) (bs := natLe n v) (by rwa [length_natLe])
  have keeps := keeps_physWrite s x.addr (natLe n v)
  rw [length_natLe, State.physWrite_eq] at written keeps
  refine performed_atomDone t op n x mark ?_ ((physRead_of_homes same _ _).trans written)
    fun a other => (physByte_of_homes same a).trans (keeps a other)
  rw [atoms_of_homes same]

end

/-- The memory operand of an atomic is an abandoned FP32 element (R156). -/
def AtomRec.abandons (a : AtomRec) (old : Nat) : Bool := a.ty == .f32 && isAbandoned old

/-- The state with what a thread's operation writes over the old value: an abandoned element stays. -/
def AtomRec.lay (a : AtomRec) (x : AtomThread) (old : Nat) (s : State) : State :=
  match a.abandons old, (a.kind.apply a.ty old x.a x.cmp).1 with
  | false, some v => s.writeHome (valueBytes x.addr (accBytes a.ty.bits) v)
  | _, _ => s

/-- The thread's record after its operation. -/
def AtomRec.mark (a : AtomRec) (x : AtomThread) (old : Nat) (y : AtomThread) : AtomThread :=
  if a.abandons old then { y with bad := true } else { y with old := some old, flags := (a.kind.apply a.ty old x.a x.cmp).2 }

section
variable {s : State} {team warp op n : Nat} {a : AtomRec} {t : Team} {x : AtomThread} (width : accBytes a.ty.bits = n)
include width

/-- The next thread's operation of an ATOM or CAS, where the home can be reached and what it must follow is performed. -/
theorem atomPerform_next (found : s.atoms.find? (fun r => r.id == op && r.leaf.team == team && r.leaf.warp == warp) = some a)
    (ht : s.team? team = some t) (next : a.threads.find? (fun y => y.old.isNone && !y.bad) = some x)
    (link : s.linked t.die (homeOf x.addr) = true)
    (free : ∀ i < n, s.writeFree ⟨team, warp, x.thread⟩ a.id (x.addr + i) = true)
    (released : s.monitorsReleased ⟨team, warp, x.thread⟩ a.id (((List.range n).map (fun i => x.addr + i)).filterMap s.cell?) = true)
    (still : s.pageMoving x.addr = false) :
    let old := leNat (s.physRead x.addr n)
    exec (.atomPerform team warp op) s = .next ((a.lay x old (s.touchHome x.at_)).atomDone t op x (a.mark x old)) := by
  subst width
  have frees : ((List.range (accBytes a.ty.bits)).map (fun i => x.addr + i)).all (s.writeFree ⟨team, warp, x.thread⟩ a.id) = true := by
    simpa using free
  rw [← physRead_of_homes (homes_touchHome s x.at_)]
  show execAtomPerform team warp op s = _
  simp -zeta only [execAtomPerform, found, ht, next]
  refine (if_neg (by simp only [link, still, frees, released, Bool.not_true, Bool.or_false, Bool.false_eq_true,
    not_false_eq_true])).trans ?_
  extract_lets h old bad r w mark u
  show Host.Outcome.next (w.atomDone t op x mark) = _
  rfl

omit width in
/-- An abandoned FP32 element stays, and the thread is marked. -/
theorem performed_abandoned (bad : a.abandons (leNat (s.physRead x.addr n)) = true) :
    let old := leNat (s.physRead x.addr n)
    Performed s ((a.lay x old (s.touchHome x.at_)).atomDone t op x (a.mark x old)) op n x old (fun z => { z with bad := true }) := by
  intro old
  have lay : a.lay x old (s.touchHome x.at_) = s.touchHome x.at_ := by rw [AtomRec.lay, bad]
  have mark : a.mark x old = fun z => { z with bad := true } := funext fun z => if_pos bad
  rw [lay, mark]
  exact performed_touchHome t op n x _

/-- Every other operation leaves the value that it writes, or the old one. -/
theorem performed_applied (sound : a.abandons (leNat (s.physRead x.addr n)) = false) (apart : s.Apart x.addr n) {new : Option Nat}
    {flags : Flags} (result : a.kind.apply a.ty (leNat (s.physRead x.addr n)) x.a x.cmp = (new, flags)) :
    let old := leNat (s.physRead x.addr n)
    Performed s ((a.lay x old (s.touchHome x.at_)).atomDone t op x (a.mark x old)) op n x (new.getD old)
      (fun z => { z with old := some old, flags := flags }) := by
  intro old
  have mark : a.mark x old = fun z => { z with old := some old, flags := flags } := by
    funext z
    rw [AtomRec.mark, sound, result]
    rfl
  rw [mark]
  cases new with
  | none =>
    have lay : a.lay x old (s.touchHome x.at_) = s.touchHome x.at_ := by rw [AtomRec.lay, sound, result]
    rw [lay]
    exact performed_touchHome t op n x _
  | some v =>
    have lay : a.lay x old (s.touchHome x.at_) = (s.touchHome x.at_).writeHome (valueBytes x.addr n v) := by
      rw [AtomRec.lay, sound, result, width]
    rw [lay]
    exact performed_writeHome t op n x _ apart v

end

/-! ### Pending writes that land (R48, R50, R82) -/

theorem testBit_ones_shifted (n s i : Nat) : ((2 ^ n - 1) * 2 ^ s).testBit i = (decide (s ≤ i) && decide (i < s + n)) := by
  rw [Nat.testBit_mul_two_pow, Nat.testBit_two_pow_sub_one, ← Bool.decide_and, ← Bool.decide_and]
  exact decide_eq_decide.mpr (by omega)

theorem getLsbD_sliceMask (s n i : Nat) : (sliceMask s n).getLsbD i = (decide (i < 512) && inSlices s n i) := by
  rw [sliceMask, BitVec.getLsbD_ofNat, testBit_ones_shifted, inSlices]

/-- The bytes that slices touch. -/
theorem getLsbD_byteMask (s n b : Nat) :
    (byteMask s n).getLsbD b = decide (b < 256 ∧ 0 < n ∧ s / 2 ≤ b ∧ b ≤ (s + n - 1) / 2) := by
  unfold byteMask
  split
  next none => simp [none]
  next some =>
    rw [BitVec.getLsbD_ofNat, testBit_ones_shifted, ← Bool.decide_and, ← Bool.decide_and]
    exact decide_eq_decide.mpr (by omega)

theorem byteMask_succ (s n : Nat) : byteMask s n ||| byteMask (s + n) 1 = byteMask s (n + 1) := by
  refine BitVec.eq_of_getLsbD_eq fun b hb => ?_
  rw [BitVec.getLsbD_or, getLsbD_byteMask, getLsbD_byteMask, getLsbD_byteMask, ← Bool.decide_or]
  exact decide_eq_decide.mpr (by omega)

/-- The digits of a value written slice by slice. -/
def Thread.layDigits (th : Thread) (s n v : Nat) : Thread :=
  (List.range n).foldl (fun t i => t.plain (s + i) 1 (v / 2 ^ (4 * i) % 16)) th

theorem layDigits_succ (th : Thread) (s n v : Nat) :
    th.layDigits s (n + 1) v = (th.layDigits s n v).plain (s + n) 1 (v / 2 ^ (4 * n) % 16) := by
  simp [Thread.layDigits, List.range_succ, List.foldl_append]

theorem layDigits_valid (th : Thread) (s n v : Nat) : (th.layDigits s n v).valid = th.valid ||| byteMask s n := by
  induction n with
  | zero => simp [Thread.layDigits, byteMask]
  | succ n ih => rw [layDigits_succ, Thread.plain, ih, BitVec.or_assoc, byteMask_succ]

/-- What digits written slice by slice leave as it was. -/
theorem layDigits_other (th : Thread) (s n v : Nat) : (th.layDigits s n v).wins = th.wins ∧ (th.layDigits s n v).preds = th.preds
    ∧ (th.layDigits s n v).fstat = th.fstat := by
  induction n with
  | zero => exact ⟨rfl, rfl, rfl⟩
  | succ n ih =>
    rw [layDigits_succ]
    exact ih

theorem raw_layDigits (th : Thread) (s n v : Nat) (fits : s + n ≤ 512) {q : Nat} (hq : q < n) :
    (th.layDigits s n v).raw (s + q) 1 = v / 16 ^ q % 16 := by
  induction n with
  | zero => omega
  | succ n ih =>
    have digit : 2 ^ (4 * n) = 16 ^ n := by rw [pow_mul]; rfl
    rw [layDigits_succ, raw_plain _ _ _ _ _ Nat.one_pos (by omega)]
    by_cases here : q = n
    · subst q
      rw [if_pos (by omega), Nat.sub_self, pow_zero, Nat.div_one, Nat.mod_mod, digit]
    · have written : (th.layDigits s n v).halfOf (s + n) 1 (s + q) = false := by
        have valid : (th.layDigits s n v).valid.getLsbD ((s + q) / 2) = true := by
          rw [layDigits_valid, BitVec.getLsbD_or, getLsbD_byteMask, Bool.or_eq_true, decide_eq_true_eq]
          right
          omega
        rw [Thread.halfOf, valid, Bool.not_true, Bool.and_false]
      rw [if_neg (by omega), written, if_neg (by simp), ih (by omega) (by omega)]

section
variable {th : Thread} {w : Window} {op s n : Nat} (wins : th.wins = [w]) (mine : w.op = op) (pending : w.landed = false)
  (todo : w.todo = sliceMask s n) (fits : s + n ≤ 512)
include wins mine pending todo fits

/-- The one pending write of a thread, none of its slices overtaken, lands digit by digit. -/
theorem land_eq (v : Nat) (tag : Bool) : ∃ tags, th.land op s n v tag = { th.layDigits s n v with
    tags := tags, wins := [{ w with landed := true, mask := w.todo }].filter (fun u => !u.landed || 0 < u.left) } := by
  have found : th.wins.find? (fun u => u.op == op && !u.landed) = some w := by simp [wins, mine, pending]
  have lays : (List.range n).foldl (fun (t : Thread) i => if w.todo.getLsbD (s + i) then t.plain (s + i) 1 (v / 2 ^ (4 * i) % 16) else t) th
      = th.layDigits s n v := by
    refine List.foldl_ext _ _ _ fun t i hi => if_pos ?_
    have hi := List.mem_range.mp hi
    rw [todo, getLsbD_sliceMask, inSlices]
    simp
    omega
  refine ⟨(th.land op s n v tag).tags, ?_⟩
  rw [Thread.land, found]
  simp only [lays, (layDigits_other th s n v).1, wins]
  simp [mine, pending]

end

/-- Landing raises no flag and writes no predicate. -/
theorem land_other (th : Thread) (op s n v : Nat) (tag : Bool) :
    (th.land op s n v tag).preds = th.preds ∧ (th.land op s n v tag).fstat = th.fstat := by
  have lays (c : Nat → Bool) (l : List Nat) (t : Thread) :
      (l.foldl (fun (t : Thread) i => if c i then t.plain (s + i) 1 (v / 2 ^ (4 * i) % 16) else t) t).preds = t.preds
      ∧ (l.foldl (fun (t : Thread) i => if c i then t.plain (s + i) 1 (v / 2 ^ (4 * i) % 16) else t) t).fstat = t.fstat := by
    induction l generalizing t with
    | nil => exact ⟨rfl, rfl⟩
    | cons i r ih =>
      obtain ⟨preds, fstat⟩ := ih (if c i then t.plain (s + i) 1 (v / 2 ^ (4 * i) % 16) else t)
      refine ⟨preds.trans ?_, fstat.trans ?_⟩ <;> split <;> rfl
  unfold Thread.land
  split
  next => exact ⟨rfl, rfl⟩
  next w _ => exact lays (fun i => w.todo.getLsbD (s + i)) (List.range n) th

/-! ### Threads of a warp changed one by one -/

theorem length_modAt {α : Type} (i : Nat) (f : α → α) (l : List α) : (modAt i f l).length = l.length := by
  induction l generalizing i with
  | nil => simp [modAt]
  | cons x r ih => cases i <;> simp [modAt, ih]

theorem getElem?_modAt {α : Type} (i : Nat) (f : α → α) (l : List α) (j : Nat) :
    (modAt i f l)[j]? = if j = i then l[j]?.map f else l[j]? := by
  induction l generalizing i j with
  | nil => simp [modAt]
  | cons x r ih =>
    cases i with
    | zero => cases j <;> simp [modAt]
    | succ i => cases j <;> simp [modAt, ih]

theorem modAt_modAt {α : Type} (i : Nat) (f g : α → α) (l : List α) : modAt i g (modAt i f l) = modAt i (fun x => g (f x)) l := by
  induction l generalizing i with
  | nil => simp [modAt]
  | cons x r ih => cases i <;> simp [modAt, ih]

theorem updThread_updThread (w : Warp) (t : Nat) (f g : Thread → Thread) :
    (w.updThread t f).updThread t g = w.updThread t (fun th => g (f th)) := by
  simp only [Warp.updThread, modAt_modAt]

theorem thread_updThread {w : Warp} {t : Nat} (f : Thread → Thread) (i : Nat) (there : t < w.threads.length) :
    (w.updThread t f).thread i = if i = t then f (w.thread i) else w.thread i := by
  simp only [Warp.thread, Warp.updThread, List.getD_eq_getElem?_getD, getElem?_modAt]
  split
  next here =>
    subst i
    rw [List.getElem?_eq_getElem there]
    rfl
  next => rfl

section
variable {α : Type} (key : α → Nat) (f : α → Thread → Thread)

/-- A warp with the threads that some records name changed, each by its record. -/
def Warp.updEach (w : Warp) (l : List α) : Warp := l.foldl (fun w x => w.updThread (key x) (f x)) w

theorem updEach_frame (w : Warp) (l : List α) :
    (w.updEach key f l).threads.length = w.threads.length ∧ { w.updEach key f l with threads := w.threads } = w := by
  induction l generalizing w with
  | nil => exact ⟨rfl, rfl⟩
  | cons x r ih =>
    obtain ⟨length, frame⟩ := ih (w.updThread (key x) (f x))
    refine ⟨length.trans (length_modAt _ _ _), ?_⟩
    exact congrArg (fun u : Warp => { u with threads := w.threads }) frame

theorem updEach_entries (w : Warp) (l : List α) : (w.updEach key f l).entries = w.entries := by
  have frame := congrArg Warp.entries (updEach_frame key f w l).2
  exact frame

variable {w : Warp} {l : List α} (there : ∀ x ∈ l, key x < w.threads.length)
include there

theorem thread_updEach_other {i : Nat} (other : ∀ x ∈ l, key x ≠ i) : (w.updEach key f l).thread i = w.thread i := by
  induction l generalizing w with
  | nil => rfl
  | cons x r ih =>
    have step : (w.updThread (key x) (f x)).threads.length = w.threads.length := length_modAt _ _ _
    refine (ih (fun y hy => step ▸ there y (List.mem_cons_of_mem _ hy)) fun y hy => other y (List.mem_cons_of_mem _ hy)).trans ?_
    rw [thread_updThread _ _ (there x List.mem_cons_self), if_neg (other x List.mem_cons_self).symm]

theorem thread_updEach (distinct : (l.map key).Nodup) {x : α} (hx : x ∈ l) :
    (w.updEach key f l).thread (key x) = f x (w.thread (key x)) := by
  induction l generalizing w with
  | nil => exact nomatch hx
  | cons y r ih =>
    obtain ⟨first, distinct⟩ := List.nodup_cons.mp distinct
    have step : (w.updThread (key y) (f y)).threads.length = w.threads.length := length_modAt _ _ _
    have rest : ∀ z ∈ r, key z < (w.updThread (key y) (f y)).threads.length := fun z hz => step ▸ there z (List.mem_cons_of_mem _ hz)
    have head := there y List.mem_cons_self
    rcases List.mem_cons.mp hx with rfl | hx
    · refine (thread_updEach_other key f rest fun z hz same => first (List.mem_map.mpr ⟨z, hz, same⟩)).trans ?_
      rw [thread_updThread _ _ head, if_pos rfl]
    · have apart : key x ≠ key y := fun same => first (same ▸ List.mem_map_of_mem hx)
      refine (ih rest distinct hx).trans ?_
      rw [thread_updThread _ _ head, if_neg apart]

end

/-! ### Traps that wait (R83) -/

/-- No leaf of the warp waits to take a trap. -/
def Warp.untrapped (w : Warp) : Prop := ∀ e ∈ w.entries, ∀ c i n, e.wait ≠ .trap c i n

theorem untrapped_updEntry {w : Warp} (h : w.untrapped) (id : Nat) {f : Entry → Entry}
    (keeps : ∀ e, (f e).wait = e.wait ∨ (f e).wait = .none) : (w.updEntry id f).untrapped := by
  intro e he c i n
  obtain ⟨x, hx, rfl⟩ := List.mem_map.mp he
  split
  · rcases keeps x with same | none
    · exact same ▸ h x hx c i n
    · exact none ▸ nofun
  · exact h x hx c i n

theorem untrapped_dropEntry {w : Warp} (h : w.untrapped) (id : Nat) : (w.dropEntry id).untrapped :=
  fun e he => h e (List.mem_of_mem_filter he)

/-- Arrival and fusion make no leaf wait. -/
theorem untrapped_settle {w : Warp} (h : w.untrapped) (id fuel : Nat) : (w.settle id fuel).untrapped := by
  induction fuel generalizing w id with
  | zero => exact h
  | succ fuel ih =>
    have dropped := untrapped_dropEntry h id
    rw [Warp.settle]
    split
    next => exact h
    next e _ =>
      split
      next =>
        split
        next =>
          split
          · exact ih dropped _
          · exact dropped
        next =>
          split
          next =>
            split
            · exact ih dropped _
            · exact h
          next => exact h
      next =>
        split
        next => exact h
        next =>
          dsimp only
          split
          next =>
            split
            · exact ih dropped _
            · exact dropped
          next =>
            refine ih (untrapped_updEntry h id ?_) id
            exact fun _ => .inl rfl

theorem untrapped_finish {w : Warp} (h : w.untrapped) (id len : Nat) : (w.finish id len).untrapped := by
  unfold Warp.finish
  split
  next => exact h
  next e _ => exact untrapped_settle (untrapped_updEntry (w := w.tickMask e.mask) h id fun _ => .inr rfl) _ _

theorem settleTraps_untrapped {s : State} {team warp : Nat} (h : ∀ w, s.warp? team warp = some w → w.untrapped) :
    s.settleTraps team warp = s := by
  rw [State.settleTraps, State.settleWith]
  split
  next => rfl
  next w hw =>
    split
    · rfl
    · simp only
      rw [(List.filter_eq_nil_iff (l := w.entries)).mpr fun e he => ?_]
      · rfl
      · have open_ := h w hw e he
        split
        next c i n wait => exact absurd wait (open_ c i n)
        next => simp

/-! ### ATOM_RETURN (R114, R156, R247, R315, R316, R329) -/

/-- A thread after an atomic's return: its destination holds the old value, its flags are raised. -/
def AtomRec.landIn (a : AtomRec) (fresh : Nat) (x : AtomThread) (th : Thread) : Thread :=
  let y :=
    if a.blocks then
      th.writeAhead (fun slice => Config.windowPick fresh (slice + 512 * x.thread)) 0 a.pc.toNat a.la x.start (a.ty.bits / 4) (x.old.getD 0)
    else th.land a.id x.start (a.ty.bits / 4) (x.old.getD 0) false
  { y with fstat := y.fstat ||| x.flags.zeroExtend 32 }

theorem atomDeliver_eq {a : AtomRec} {w : Warp} (noUni : a.uni = none) (live : ∀ y ∈ a.threads, (w.thread y.thread).exited = false)
    (fresh : Nat) : a.deliver fresh w = w.updEach AtomThread.thread (a.landIn fresh) a.threads := by
  have all : a.threads.filter (fun x => !(w.thread x.thread).exited) = a.threads :=
    List.filter_eq_self.mpr fun y hy => by rw [live y hy]; rfl
  unfold AtomRec.deliver Warp.updEach
  rw [all]
  refine List.foldl_ext _ _ _ fun u x _ => ?_
  simp only [noUni, updThread_updThread]
  rfl

section
variable {a : AtomRec} {x : AtomThread} {n v : Nat} (bits : a.ty.bits = 4 * n) (some_ : 0 < n) (fits : x.start + n ≤ 512)
  (old : x.old = some v) (fresh : Nat) (th : Thread)
include bits some_ fits old

theorem landIn_blocking (blocks : a.blocks = true) : Slices th (a.landIn fresh x th) a.pc a.la x.start n v := by
  have width : a.ty.bits / 4 = n := by omega
  let pick := fun slice => Config.windowPick fresh (slice + 512 * x.thread)
  have lands : a.landIn fresh x th = { th.writeAhead pick 0 a.pc.toNat a.la x.start n v with
      fstat := (th.writeAhead pick 0 a.pc.toNat a.la x.start n v).fstat ||| x.flags.zeroExtend 32 } := by
    simp only [AtomRec.landIn, blocks, if_true, width, old, Option.getD_some, pick]
  rw [lands]
  exact (writeAhead_slices th pick a.pc a.la x.start n v some_ fits).congr rfl rfl rfl rfl

omit some_ in
theorem landIn_pending (free : a.blocks = false) {w : Window} (wins : th.wins = [w]) (mine : w.op = a.id)
    (pending : w.landed = false) (todo : w.todo = sliceMask x.start n) :
    (∀ q < n, (a.landIn fresh x th).raw (x.start + q) 1 = v / 16 ^ q % 16)
      ∧ (a.landIn fresh x th).valid = th.valid ||| byteMask x.start n ∧ (w.left = 0 → (a.landIn fresh x th).wins = []) := by
  have width : a.ty.bits / 4 = n := by omega
  obtain ⟨tags, land⟩ := land_eq wins mine pending todo fits v false
  have lands : a.landIn fresh x th = { th.land a.id x.start n v false with
      fstat := (th.land a.id x.start n v false).fstat ||| x.flags.zeroExtend 32 } := by
    simp only [AtomRec.landIn, free, Bool.false_eq_true, if_false, width, old, Option.getD_some]
  rw [lands, land]
  refine ⟨fun q hq => raw_layDigits th x.start n v fits hq, layDigits_valid th x.start n v, fun closed => ?_⟩
  simp [closed]

end

theorem landIn_other (a : AtomRec) (fresh : Nat) (x : AtomThread) (th : Thread) :
    (a.landIn fresh x th).fstat = th.fstat ||| x.flags.zeroExtend 32 ∧ (a.landIn fresh x th).preds = th.preds := by
  unfold AtomRec.landIn
  split
  next =>
    obtain ⟨preds, fstat, -⟩ := writeAhead_other th (fun slice => Config.windowPick fresh (slice + 512 * x.thread)) 0 a.pc.toNat a.la x.start
      (a.ty.bits / 4) (x.old.getD 0)
    exact ⟨congrArg (· ||| x.flags.zeroExtend 32) fstat, preds⟩
  next =>
    obtain ⟨preds, fstat⟩ := land_other th a.id x.start (a.ty.bits / 4) (x.old.getD 0) false
    exact ⟨congrArg (· ||| x.flags.zeroExtend 32) fstat, preds⟩

theorem atomTrap_none {a : AtomRec} {w : Warp}
    (quiet : ∀ y ∈ a.threads, y.bad = false ∧ (y.flags &&& enablesOf (w.thread y.thread).fctl != 0#5) = false) : a.trap w = none := by
  have sound : a.threads.find? AtomThread.bad = none := List.find?_eq_none.mpr fun y hy => by simp [(quiet y hy).1]
  have silent : a.threads.find? (fun y => y.flags &&& enablesOf (w.thread y.thread).fctl != 0#5) = none :=
    List.find?_eq_none.mpr fun y hy => by simp only [(quiet y hy).2, Bool.false_eq_true, not_false_eq_true]
  simp only [AtomRec.trap, sound, silent, Option.map_none]

/-- The state without an atomic that returns. -/
def State.dropAtom (s : State) (op : Nat) : State := { s with atoms := s.atoms.filter (fun r => r.id != op), fresh := s.fresh + 1 }

section
variable {s : State} {team warp op : Nat} {a : AtomRec} {w : Warp} {e : Entry}
  (found : s.atoms.find? (fun r => r.id == op && r.leaf.team == team && r.leaf.warp == warp) = some a) (hw : s.warp? team warp = some w)
  (performed : a.threads.any (fun y => y.old.isNone && !y.bad) = false) (he : w.entry? a.leaf.leaf = some e)
  (waits : a.blocks = true → e.wait = .atomic op)
include found hw performed he waits

/-- An atomic's return whose trap the waiting leaf takes. -/
theorem atomReturn_trap (blocks : a.blocks = true) {t : Trap} (trap : a.trap w = some t) :
    exec (.atomReturn team warp op) s = .next (((s.dropAtom op).unblock a.leaf).deliver a.leaf t) := by
  show execAtomReturn team warp op s = _
  simp -zeta only [execAtomReturn, found, hw, performed, Bool.false_eq_true, if_false]
  simp only [trap, he, Option.map_some, waits blocks, blocks, beq_self_eq_true, if_true]
  rfl

/-- An atomic's return without a trap: the old values land, and a leaf that waited goes on. -/
theorem atomReturn_lands (trap : a.trap w = none) (untrapped : w.untrapped) (frame : (a.deliver (s.fresh + 1) w).entries = w.entries) :
    let lands := (s.dropAtom op).updWarp team warp (fun _ => a.deliver (s.fresh + 1) w)
    exec (.atomReturn team warp op) s = .next (if a.blocks then lands.complete a.leaf a.kind.bytes else lands) := by
  intro lands
  have at_ : (s.dropAtom op).updWarp team warp (a.deliver (s.fresh + 1)) = lands :=
    updWarp_at (s.dropAtom op) ⟨team, warp, a.leaf.leaf⟩ _ w hw
  have settled : (if a.blocks then lands.complete a.leaf a.kind.bytes else lands).settleTraps team warp
      = if a.blocks then lands.complete a.leaf a.kind.bytes else lands := by
    have leaf := List.find?_some found
    simp only [Bool.and_eq_true, beq_iff_eq] at leaf
    obtain ⟨⟨-, rfl⟩, rfl⟩ := leaf
    have landed : lands.warp? a.leaf.team a.leaf.warp = some (a.deliver (s.fresh + 1) w) := by
      have here : (s.dropAtom op).warp? a.leaf.team a.leaf.warp = some w := hw
      rw [State.warp_updWarp, if_pos rfl, here]
      rfl
    have still : (a.deliver (s.fresh + 1) w).untrapped := fun e he => untrapped e (frame ▸ he)
    refine settleTraps_untrapped fun u hu => ?_
    split at hu
    · rw [State.complete, State.warp_updWarp, if_pos rfl, landed] at hu
      exact Option.some.inj hu ▸ untrapped_finish still a.leaf.leaf a.kind.bytes
    · rw [landed] at hu
      exact Option.some.inj hu ▸ still
  rw [← settled, ← at_]
  show execAtomReturn team warp op s = _
  simp -zeta only [execAtomReturn, found, hw, performed, Bool.false_eq_true, if_false]
  cases blocks : a.blocks
  · simp only [trap, Bool.false_and]
    rfl
  · simp only [trap, he, Option.map_some, waits blocks, beq_self_eq_true, Bool.and_self, if_true]
    rfl

end

/-- Settles O27: a write's bytes by `performWrite`'s laws over the cells, an atomic's operation by `Performed`, its return by
`atomReturn_trap` and `atomReturn_lands`. -/
theorem requestsPerform : Obligations.RequestsPerform := by
  refine ⟨fun s id w => ?write, fun s team warp op a t x => ?perform, fun s team warp op n a w e x v => ?return_⟩
  case write =>
    intro sel cell bs units rest found some_ may
    refine ⟨fun unread => ⟨_, _, memoryWritePerform_reads found rfl some_ may unread, rfl, setWrite_writes ?_, fun a => ?_⟩,
      fun read => ⟨_, memoryWritePerform_writes found rfl some_ may read, performWrite_writes _ _ _, fun a apart => performWrite_keeps apart,
      fun l b r at_ whole last installed => performWrite_last at_ whole last installed, fun b hi v one nib read installed => ?_,
      fun b hb installed untagged => performWrite_untags hb untagged,
      fun u tagged touched installed => performWrite_tags tagged touched installed⟩⟩
    · exact fun empty => some_ (chosen_of_empty empty sel)
    · exact look_foldl_put s.physByte _ _ a
    · have laid : (rest.performWrite w bs).physByte b.addr = b.over v := one ▸ performWrite_nibble (s := rest) read installed
      exact (congrArg BitVec.toNat laid).trans (over_nibble nib v)
  case perform =>
    intro n old bits ord bad flt done found ht next link free released still whole apart small
    have width : accBytes a.ty.bits = n := by
      show (bits + 7) / 8 = bits / 8
      omega
    have below : old < 2 ^ bits := by
      have size : 8 * n = bits := Nat.mul_div_cancel' (Nat.dvd_of_mod_eq_zero whole)
      exact size ▸ leNat_physRead_lt s x.addr n
    have badly : a.abandons old = true ↔ bad := by rw [AtomRec.abandons, Bool.and_eq_true, beq_iff_eq]
    have applied (sound : ¬ bad) {new : Option Nat} {flags : Flags} (result : a.kind.apply a.ty old x.a x.cmp = (new, flags)) :=
      performed_applied (t := t) (op := op) width (Bool.eq_false_iff.mpr fun h => sound (badly.mp h)) apart result
    have reduces {r : RedOp} (red : a.kind = .rmw (.red r)) {v : Nat} {flags : Flags} (result : redApply r a.ty old x.a = (v, flags)) :
        a.kind.apply a.ty old x.a x.cmp = (some v, flags) := by
      rw [red, AtomKind.apply, result]
    refine ⟨_, atomPerform_next width found ht next link free released still, fun h => performed_abandoned (badly.mpr h),
      fun sound cas => ?_, fun sound xchg => ?_, fun sound r red integer => ?_, fun sound r f red float => ?_⟩
    · have result : a.kind.apply a.ty old x.a x.cmp = (if old = x.cmp then some x.a else none, 0#5) := by
        rw [cas]
        rfl
      have value : (if old = x.cmp then some x.a else none).getD old = if old = x.cmp then x.a else old := by split <;> rfl
      exact value ▸ applied sound result
    · exact applied sound (new := some x.a) (by rw [xchg]; rfl)
    · cases r with
      | add => exact applied sound (reduces red (redApply_add integer))
      | min => exact applied sound (reduces red (redApply_min integer below small))
      | max => exact applied sound (reduces red (redApply_max integer below small))
      | and | or | xor => exact applied sound (reduces red (by simp only [redApply, integer]))
    · refine ⟨(redApply r a.ty old x.a).1, ⟨some (redApply r a.ty old x.a).1, none, (redApply r a.ty old x.a).2⟩, ?_, rfl,
        applied sound (reduces red rfl)⟩
      have result := redApply_float float r old x.a
      cases r <;> exact result
  case return_ =>
    intro len base trips found hw done he waits untrapped
    have performed : a.threads.any (fun y => y.old.isNone && !y.bad) = false := by
      refine List.any_eq_false.mpr fun y hy => ?_
      rcases done y hy with old | bad
      · simp [old]
      · simp [bad]
    have bytes : a.kind.bytes = len := rfl
    refine ⟨fun blocks bad => ?_, fun blocks sound trip => ?_, fun quiet distinct noUni bits some_ fits => ?_⟩
    · have trap : a.trap w = some ⟨0x0C#8, BitVec.ofNat 64 (x.thread % 32 + 256 + 2 ^ 31), len⟩ := by
        rw [AtomRec.trap, bad]
        rfl
      exact atomReturn_trap found hw performed he waits blocks trap
    · have none : a.threads.find? AtomThread.bad = none := List.find?_eq_none.mpr fun y hy => by simp [sound y hy]
      have trap : a.trap w = some ⟨0x11#8, BitVec.ofNat 64 (x.flags.toNat + 65536 * x.thread + 2 ^ 31), len⟩ := by
        rw [AtomRec.trap, none, Nat.mul_comm]
        simp only
        rw [trip]
        rfl
      exact atomReturn_trap found hw performed he waits blocks trap
    · obtain ⟨length, frame⟩ := updEach_frame AtomThread.thread (a.landIn (s.fresh + 1)) w a.threads
      have there : ∀ y ∈ a.threads, y.thread < w.threads.length := fun y hy => (quiet y hy).2.2.2
      have eq := atomDeliver_eq noUni (fun y hy => (quiet y hy).2.2.1) (s.fresh + 1)
      have after : ∀ y ∈ a.threads, (a.deliver (s.fresh + 1) w).thread y.thread = a.landIn (s.fresh + 1) y (w.thread y.thread) :=
        fun y hy => eq ▸ thread_updEach _ _ there distinct hy
      have value : ∀ y ∈ a.threads, y.old = some (v y.thread) := fun y hy =>
        (done y hy).resolve_right (by rw [(quiet y hy).1]; exact Bool.false_ne_true)
      have mine : a.id = op := by
        have leaf := List.find?_some found
        simp only [Bool.and_eq_true, beq_iff_eq] at leaf
        exact leaf.1.1
      have lands := atomReturn_lands found hw performed he waits
        (atomTrap_none fun y hy => ⟨(quiet y hy).1, (quiet y hy).2.1⟩) untrapped (eq ▸ updEach_entries _ _ w a.threads)
      refine ⟨a.deliver (s.fresh + 1) w, eq ▸ length, eq ▸ frame, fun i other => eq ▸ thread_updEach_other _ _ there other,
        fun y hy => after y hy ▸ landIn_other a _ y _, fun blocks => ⟨fun y hy => ?_, ?_⟩,
        fun free => ⟨fun y hy b wins id pending todo => ?_, ?_⟩⟩
      · exact after y hy ▸ landIn_blocking bits some_ (fits y hy) (value y hy) _ _ blocks
      · exact lands.trans (by rw [if_pos blocks]; rfl)
      · exact after y hy ▸ landIn_pending bits (fits y hy) (value y hy) _ _ free wins (id.trans mine.symm) pending todo
      · exact lands.trans (by rw [free]; rfl)

end Sys2Proof.Machine

/-! PROOFS. Loads that return (spec/08, spec/09): a gather's line passes over a load's thread numbered beyond the 32 of a warp. -/

namespace Sys2Proof.Machine

/-! ### A gather's line names threads 0 to 31 -/

/-- A load's thread numbered 40, which a warp of 32 cannot have: a byte of line 0 and one of line 1 have not come. -/
def strayThread : LoadThread := ⟨40, 0, [(0, none), (128, none)], none, false, false, false⟩

/-- A 16-bit load of that thread alone. -/
def strayLoad : LoadOp := ⟨0, 0, 0, ⟨.n16, 16, 16⟩, none, [strayThread]⟩

/-- The load's gather: line 0, then line 1. -/
def strayGather : GatherOp := ⟨0, some 0, [⟨0, 0, 0, 0, 0⟩, ⟨1, 0, 0, 0, 128⟩], [], []⟩

/-- A warp without a leaf or a thread. -/
def emptyWarp : Warp where
  team := 0
  index := 0
  lane := 0
  count := 32
  alloc := 16
  role := 0
  promise := 0
  allowance := 0
  region := none
  uni := 0
  shadow := 0
  entries := []
  threads := []
  tcause := 0
  tinfo := 0
  tepc := 0
  tmask := 0
  tlen := 0
  tret := none
  handler := none
  postedEcc := none
  postedCancel := false
  arrived := 0
  arrPhase := []
  since := 0

/-- Core 0 of die 0 with that load and its gather, the rest as at cold reset. -/
def strayState : State := { State.reset with
  cores := [(coreKey 0 0, { Core.reset with loads := [strayLoad], gathers := [strayGather] })]
  warps := [(warpKey 0 0, emptyWarp)] }

theorem strayState_mayFill : strayState.mayFill 0 0 [(0, BitVec.allOnes 32)] 0 = true := by decide

/-- The gather unit reads line 0, and the load stays without its byte. -/
theorem strayState_gatherLine : ∃ u, exec (.gatherLine 0 0) strayState = .next u ∧ (u.core 0 0).loads = [strayLoad] :=
  ⟨_, rfl, by decide⟩

/-- Refutes O26: its gather case does not bound the thread's number, as its Quay case does by the mask, and the gather unit fills
threads 0 to 31 alone. In `strayState` thread 40, a number that no warp has, waits for a byte of line 0; the line is read, and the byte
has not come. -/
theorem not_loadsReturn : ¬ Obligations.LoadsReturn := by
  rintro ⟨-, fills⟩
  obtain ⟨waits, -⟩ := fills strayState 0 0 0 ⟨0, false, ⟨0, 0, 0, 0, 0⟩, false, false, [], [], []⟩ strayGather ⟨0, 0, 0, 0, 0⟩
    [⟨1, 0, 0, 0, 128⟩] strayLoad strayThread emptyWarp ⟨0, 0, 0, 0, 0, 0, false⟩ strayState.physByte 0 (.gatherLine 0 0)
    (.inr ⟨rfl, rfl, rfl, rfl, strayState_mayFill⟩) (fun _ _ _ => rfl) rfl rfl rfl rfl (fun _ h => nomatch h)
  obtain ⟨u, run, -, -, tag, filled⟩ := waits ⟨(128, none), .tail _ (.head _), rfl⟩
  obtain ⟨v, stays, unfilled⟩ := strayState_gatherLine
  obtain rfl : v = u := Host.Outcome.next.inj (stays.symm.trans run)
  have came := unfilled.symm.trans filled
  simp [strayLoad, strayThread] at came

end Sys2Proof.Machine

/-! PROOFS. One step (spec/01, spec/02, spec/04): the fetched bytes decode to the instruction that a lane runs, and the lane's
choice goes to its best candidate where that one is taken. -/

namespace Sys2Proof

/-- The clipped word keeps the length code (R66). -/
theorem extractLsb'_clip (w : IWord) : (clip w).extractLsb' 0 2 = w.extractLsb' 0 2 := by
  unfold clip
  split
  · rename_i n hn
    have known : n = 8 ∨ n = 12 ∨ n = 16 := by unfold lenBytes at hn; split at hn <;> simp at hn <;> omega
    rcases known with rfl | rfl | rfl <;> ext k hk <;> interval_cases k <;> simp
  · rfl

/-- A word that decodes carries its instruction's length in its length code (R66). -/
theorem lenBytes_of_decodeWord {w : IWord} {i : Instr} (h : decodeWord w = .ok i) : lenBytes (w.extractLsb' 0 2) = some i.bytes := by
  rw [← extractLsb'_clip]
  unfold decodeWord at h
  dsimp only at h
  cases hp : parse (Raw.ofWord (clip w)) with
  | error e => rw [hp] at h; cases h
  | ok j =>
    rw [hp, okBind] at h
    by_cases hl : lenBytes (Raw.ofWord (clip w)).len = some j.bytes
    · rw [if_neg (not_not_intro hl)] at h
      split at h
      · cases h
      · split at h
        · cases h
        · cases h
          exact hl
    · rw [if_pos hl] at h
      cases h

namespace Machine

/-- Bytes that decode, in one block with their offset, are what a fetch at that offset gives (R66, R67). -/
theorem blockInstr_of_decodeWord {block : List Byte} {off : Nat} {i : Instr}
    (h : decodeWord (wordOfBytes ((block.drop off).take 16)) = .ok i) (fits : off + i.bytes ≤ 32) : blockInstr block off = some i := by
  have len := lenBytes_of_decodeWord h
  simp [blockInstr, len, decodeBytes, decode, h, fits]

/-! ### The lane's act (R36) -/

section
variable {s : State} {d c lane : Nat} {late : List LeafRef} {r : LeafRef}

/-- A lane in which no leaf stands chooses one. -/
theorem laneAct_choose (free : Tbl.look lane (s.core d c).holder = none) (run : Instr → State → Host.Outcome State Fault Refusal) :
    s.laneAct run d c lane late = (s.promoteLane d c lane).chooseLeaf run d c lane late := by
  simp [State.laneAct, free]

/-- The leaf that stands in a lane, where it is still a candidate, goes on. -/
theorem laneAct_resume (stands : Tbl.look lane (s.core d c).holder = some r) (offered : r ∈ (s.candidates d c lane).map Candidate.ref)
    (run : Instr → State → Host.Outcome State Fault Refusal) : s.laneAct run d c lane late = s.resumeLeaf run d c lane r := by
  have h : (s.candidates d c lane).any (fun k => k.ref == r) = true := by
    obtain ⟨k, hk, e⟩ := List.mem_map.mp offered
    exact List.any_eq_true.mpr ⟨k, hk, by simp [e]⟩
  rw [State.laneAct, stands, Option.filter_some, if_pos h]

/-- What the best candidate and the others do at a choice. -/
theorem tried_cons {k : Candidate} {others : List Candidate} (cands : s.candidates d c lane = k :: others) (ready : k.ref ∉ late)
    (run : Instr → State → Host.Outcome State Fault Refusal) :
    let b := s.endYields (k.ref :: others.map Candidate.ref)
    s.tried run d c lane late = (k.ref, b.tryLeaf run k.ref) :: others.map (fun y => (y.ref,
      if y.ref ∈ late ∧ b.inPipe d c lane y.ref = true then Tried.unready else b.tryLeaf run y.ref)) := by
  simp [State.tried, cands, ready]

/-- A leaf whose warp has no trap posted, and whose bytes stand in one block, fetches the instruction that they decode to (R66, R252,
R313). -/
theorem fetch_instr {t : Team} {w : Warp} {e : Entry} {p : Phys} {i : Instr} (team : s.team? r.team = some t)
    (warp : s.warp? r.team r.warp = some w) (entry : w.entry? r.leaf = some e) (aligned : e.pc.toNat % 4 = 0)
    (xlate : s.xlate t.die t.core (Tbl.get s.launches t.launch Launch.none).asid (s.fetchVA t w e) ⟨false, false, true⟩
      (Tbl.get s.launches t.launch Launch.none).secure = .ok p)
    (word : decodeWord (wordOfBytes (((s.fetchBlock t.die t.core p.pa).1.drop (s.fetchVA t w e % 32)).take 16)) = .ok i)
    (fits : s.fetchVA t w e % 32 + i.bytes ≤ 32) : s.fetch r = .instr i (s.fetchBlock t.die t.core p.pa).2 := by
  simp [State.fetch, team, warp, entry, aligned, xlate, blockInstr_of_decodeWord word fits]

/-- A block that the core has not fetched before is fetched from memory (R264). -/
theorem fetchBlock_fresh {pa : Nat} (fresh : Tbl.look (pa / 32) (s.core d c).blocks = none) :
    (s.fetchBlock d c pa).1 = s.physRead (32 * (pa / 32)) 32 := by
  simp [State.fetchBlock, fresh]

end

/-- What a leaf that runs an instruction does at a choice, by the outcome. -/
theorem tryIssue_instr {run : Instr → State → Host.Outcome State Fault Refusal} {s t : State} {r : LeafRef} {i : Instr}
    (fetch : s.fetch r = .instr i t) : s.tryIssue run r = match run i { t with issuer := some r } with
      | .next u => (match u.held with
        | .no => .acts (.next { u with issuer := none })
        | .scoreboard => .unready
        | .blocked w => .blocked w
        | .lane => .stands)
      | x => .acts x := by
  rw [State.tryIssue, fetch] <;> rfl

/-- The first agent of the agenda acts (log 1). -/
theorem step_cons {s : State} {a : Agent} {rest : List Agent} (h : s.agenda = a :: rest) : step s = act a { s with agenda := rest } := by
  rw [step, h]

/-- Settles O55: a lane's act is its choice, the choice takes the best candidate where that one is taken, and the candidate's fetch is
the instruction that the bytes decode to. -/
theorem stepRunsDecoded : Obligations.StepRunsDecoded := by
  refine ⟨?_, ?_, ?_, ?_, ?_⟩
  · intro s d c lane late rest k others t w e p i agenda free a cands ready b untrapped team warp entry aligned x va xlate f word fits
      o tried rank
    have acts : step s = a.chooseLeaf exec d c lane late :=
      (step_cons agenda).trans (laneAct_choose (s := { s with agenda := rest }) free exec)
    have first : b.tryLeaf exec k.ref = match o with
        | .next u => (match u.held with
          | .no => .acts (.next { u with issuer := none })
          | .scoreboard => .unready
          | .blocked w => .blocked w
          | .lane => .stands)
        | x => .acts x := by
      rw [State.tryLeaf, untrapped]
      exact tryIssue_instr (fetch_instr team warp entry aligned xlate word fits)
    have all : a.tried exec d c lane late = (k.ref, b.tryLeaf exec k.ref) :: tried := tried_cons cands ready exec
    have refs : (a.candidates d c lane).map Candidate.ref = k.ref :: others.map Candidate.ref := by rw [cands]; rfl
    rw [acts, State.chooseLeaf, all, refs, first]
    refine ⟨fetchBlock_fresh, ?_, ?_, ?_, ?_, ?_, ?_⟩
    · intro v next held
      rw [next]
      simp only [held]
      rfl
    · intro v next held
      rw [next]
      simp only [held]
      rfl
    · rintro v next held rfl
      rw [next]
      simp only [held]
      rfl
    · rintro v z next held rfl
      rw [next]
      simp only [held]
      rfl
    · intro q stops
      rw [stops]
      rfl
    · intro q stops
      rw [stops]
      rfl
  · intro s d c lane late rest r i t v agenda stands a offered fetch next
    have acts : step s = a.resumeLeaf exec d c lane r :=
      (step_cons agenda).trans (laneAct_resume (s := { s with agenda := rest }) stands offered exec)
    rw [acts, State.resumeLeaf, tryIssue_instr fetch, next]
    exact ⟨fun held => by simp only [held], fun held => by simp only [held]⟩
  · exact fun s i choice rest agenda => step_cons agenda
  · exact fun s d pair n rest agenda => step_cons agenda
  · intro s agenda
    rw [step, agenda]

end Machine

end Sys2Proof

/-! PROOFS. The ends of instructions (spec/02): a warp in whose table two leaves bear one name. -/

namespace Sys2Proof.Machine

/-- A leaf of thread 0 that bears the name 0. -/
def twinLeaf (pc : Word) : Entry := ⟨0, true, 1#32, pc, none, false, .none, 0, 0, false, false, none⟩

/-- A warp with two leaves of one name at different addresses. -/
def twinWarp : Warp := { emptyWarp with entries := [twinLeaf 0#32, twinLeaf 4#32] }

/-- The end of the instruction takes each of the two leaves 8 bytes further from where it stands. -/
theorem twinWarp_finish : (twinWarp.finish 0 8).entries.map Entry.pc = [8#32, 12#32] := by decide

/-- Refutes O15: nothing in it says that the names of a warp's entries differ. In `twinWarp` the leaf 0 ends an instruction of 8 bytes,
each entry of that name goes on by 8 from its own address, and `movedTo` has put both at the first one's. -/
theorem not_leavesAndThreads : ¬ Obligations.LeavesAndThreads := by
  rintro ⟨leaves, -, -⟩
  obtain ⟨stands, -⟩ := leaves twinWarp 0 8 (twinLeaf 0#32) (twinLeaf 0#32) rfl rfl (by decide)
  have moved : twinWarp.finish 0 8 = twinWarp.movedTo (twinLeaf 0#32) 8#32 := stands rfl
  have pcs := twinWarp_finish
  rw [moved] at pcs
  exact absurd pcs (by decide)

end Sys2Proof.Machine

/-! PROOFS. Branches (spec/02, spec/19): a warp whose divergence reserve holds more than its 32 entries. -/

namespace Sys2Proof.Machine

/-- A team of one warp, resident on core 0 of die 0, with nothing of its own. -/
def bareTeam : Team where
  state := .resident
  escalated := false
  cancelled := false
  ended := false
  stopping := false
  launch := 0
  num := 0
  task := none
  convoy := none
  slot := 0
  die := 0
  core := 0
  threads := 2
  lstore := 0
  loc := []
  points := []
  rings := []
  collectives := []
  tiles := []
  bsize := 0
  bbytes := []
  btags := []
  sents := 0
  sbytes := []
  stags := []
  folio := 0
  savedToken := none
  insts := []
  macroSeq := none
  deferred := none

/-- The leaf of threads 0 and 1 that issues. -/
def crowdedLeaf : Entry := ⟨0, true, 3#32, 0#32, none, false, .none, 0, 0, false, false, none⟩

/-- A join in the reserve. -/
def reserveJoin (id : Nat) : Entry := ⟨id, false, 0#32, 0#32, none, true, .none, 0, 0, false, false, none⟩

/-- A warp whose guard p0 holds in thread 0 alone, with one leaf in the table and 46 joins in the reserve of 32. -/
def crowdedWarp : Warp := { emptyWarp with
  threads := [{ Thread.reset with preds := 1#7 }, Thread.reset]
  entries := crowdedLeaf :: (List.range 46).map (fun i => reserveJoin (i + 1)) }

/-- The leaf of that warp issues, and nothing else is on its lane. -/
def crowdedState : State := { State.reset with
  issuer := some ⟨0, 0, 0⟩
  nextId := 47
  teams := [(0, bareTeam)]
  warps := [(warpKey 0 0, crowdedWarp)] }

/-- What the leaf issues with under p0. -/
def crowdedCtx : Ctx := ⟨⟨0, 0, 0⟩, bareTeam, crowdedWarp, crowdedLeaf, Launch.none, [0], 0⟩

theorem crowdedState_ready : crowdedState.Ready ⟨false, 0#3⟩ [] crowdedCtx := ⟨rfl, by decide⟩

/-- The split finds no room for its two entries and is held: no entry is added (R34). -/
theorem crowdedState_bra : ∃ u, exec (.bra ⟨false, 0#3⟩ 0x40#32 0x10#32) crowdedState = .next u
    ∧ (u.warp? 0 0).map (fun w => w.entries.length) = some 47 :=
  ⟨_, rfl, by decide⟩

/-- Refutes O16: it asks for room in the lane's table alone and not in the reserve. In `crowdedState` the table has room for 16 entries
and the reserve is over its 32, so that the split of a BRA under a mixed guard is held. -/
theorem not_branches : ¬ Obligations.Branches := by
  intro h
  obtain ⟨bra, -⟩ := h crowdedState ⟨false, 0#3⟩ (.imm 0#9) (.imm 0#9) 0x40#32 0x10#32 crowdedCtx rfl
  have split := (bra crowdedState_ready).2 (by decide) (by decide) (.inl (by decide))
  obtain ⟨u, held, length⟩ := crowdedState_bra
  obtain rfl := Host.Outcome.next.inj (held.symm.trans split)
  exact absurd length (by decide)

end Sys2Proof.Machine

/-! PROOFS. Special registers and control words (spec/21): SRD by what a reference reads in each thread, SWR by the writes of its
threads one after another. -/

namespace Sys2Proof.Machine

/-! ### SRD (R375 to R377) -/

section
variable {s : State} {g : Guard} {d : Opnd} {w : WordRef} {c : Ctx}

theorem exec_srd (ready : s.Ready g [Pos.dst d d.src3264] c) (free : s.fstatWaits c w = false) :
    exec (.srd g d w) s = .next ((if (s.readRef c w c.low).isNone then Done.trap (mkTrap cILLOPND 0)
      else c.compute s.issued (c.runs (some (Pos.dst d d.src3264))) (some (Pos.dst d d.src3264)) 0 []
        (fun i => .ofVal ((s.readRef c w i).getD 0 % 2 ^ d.bits))).state s.issued c.ref 12) := by
  change execSrd g d w s = _
  rw [execSrd, issue_ready ready]
  change Host.Outcome.next ((if s.fstatWaits c w then Done.unready else _).state s.issued c.ref 12) = _
  rw [free]
  rfl

theorem srd_waits (ready : s.Ready g [Pos.dst d d.src3264] c) (waits : s.fstatWaits c w = true) :
    exec (.srd g d w) s = .next { s.issued with held := .scoreboard } := by
  change execSrd g d w s = _
  rw [execSrd, issue_ready ready]
  change Host.Outcome.next ((if s.fstatWaits c w then Done.unready else _).state s.issued c.ref 12) = _
  rw [waits]
  rfl

/-- A reference that is assigned in every thread is written to the destination. -/
theorem srd_reads (ready : s.Ready g [Pos.dst d d.src3264] c) (free : s.fstatWaits c w = false) {f : Nat → Nat}
    (value : ∀ i, s.readRef c w i = some (f i)) :
    Computes (.srd g d w) s c 12 0 (some (Pos.dst d d.src3264)) (fun i => .ofVal (f i % 2 ^ d.bits)) := by
  refine ⟨c.commit (c.runs (some (Pos.dst d d.src3264))) (some (Pos.dst d d.src3264)) 0 (fun i => .ofVal (f i % 2 ^ d.bits)),
    commit_after _ _ _ _ _ ?_, ?_⟩
  · rintro i hi p ⟨⟩
    exact ready_start ready.2 (List.mem_singleton_self _) (runs_subset c _ i hi)
  · rw [Goes, exec_srd ready free]
    simp only [value, Option.isNone_some, Bool.false_eq_true, if_false, Option.getD_some, Ctx.compute]
    rw [quiet_fpTrap (quiet_zero c _ _ fun _ => rfl), show Ctx.abandonTrap (c.runs (some (Pos.dst d d.src3264))) [] = none from noAb_none _ c]
    rfl

theorem srd_traps (ready : s.Ready g [Pos.dst d d.src3264] c) (free : s.fstatWaits c w = false) (unassigned : s.readRef c w c.low = none) :
    Traps (.srd g d w) s c 0x02#8 0 := by
  rw [Traps, exec_srd ready free, unassigned]
  rfl

end

/-! ### SWR (R376, R377) -/

/-- A fold whose every step succeeds. -/
theorem foldlM_eq_some {α σ : Type} {f : σ → α → Option σ} {h : σ → α → σ} {l : List α} (steps : ∀ u, ∀ x ∈ l, f u x = some (h u x)) (u : σ) :
    l.foldlM f u = some (l.foldl h u) := by
  induction l generalizing u with
  | nil => rfl
  | cons x r ih =>
    rw [List.foldlM_cons, steps u x List.mem_cons_self]
    exact ih (fun u y hy => steps u y (List.mem_cons_of_mem _ hy)) _

/-- Of writes that overwrite one another the last one stands. -/
theorem foldl_last {α σ : Type} {h : σ → α → σ} (last : ∀ u x y, h (h u x) y = h u y) (l : List α) (a : α) (u : σ) :
    (a :: l).foldl h u = h u ((a :: l).getLastD a) := by
  induction l generalizing a u with
  | nil => rfl
  | cons b r ih =>
    rw [List.foldl_cons, ih, last]
    rfl

section
variable {s : State} {g : Guard} {a : Opnd} {w : WordRef} {c : Ctx}

/-- The source of SWR: a register of 32 or 64 bits or a uniform register. -/
abbrev swrPos (a : Opnd) : Pos := Pos.src 1 a (match a with | .imm _ => false | x => x.src3264)

theorem exec_swr (ready : s.Ready g [swrPos a] c) (free : s.fstatWaits c w = false) :
    exec (.swr g a w) s = .next ((match c.on.foldlM (fun (u : State) i => u.writeRef c w i (c.raw i (swrPos a))) s.issued with
      | some u => Done.next u
      | none => Done.trap (mkTrap cILLOPND 0)).state s.issued c.ref 12) := by
  change execSwr g a w s = _
  unfold execSwr
  change s.issue 12 g [swrPos a] _ = _
  rw [issue_ready ready]
  change Host.Outcome.next ((if s.fstatWaits c w then Done.unready else _).state s.issued c.ref 12) = _
  rw [free]
  rfl

theorem swr_waits (ready : s.Ready g [swrPos a] c) (waits : s.fstatWaits c w = true) :
    exec (.swr g a w) s = .next { s.issued with held := .scoreboard } := by
  change execSwr g a w s = _
  unfold execSwr
  change s.issue 12 g [swrPos a] _ = _
  rw [issue_ready ready]
  change Host.Outcome.next ((if s.fstatWaits c w then Done.unready else _).state s.issued c.ref 12) = _
  rw [waits]
  rfl

/-- A write that succeeds in every thread is made thread by thread. -/
theorem swr_goes (ready : s.Ready g [swrPos a] c) (free : s.fstatWaits c w = false) {h : State → Nat → State}
    (writes : ∀ u : State, ∀ i ∈ c.on, u.writeRef c w i (c.raw i (swrPos a)) = some (h u i)) :
    Goes (.swr g a w) s c 12 (c.on.foldl h s.issued) := by
  rw [Goes, exec_swr ready free, foldlM_eq_some writes]
  rfl

/-- A write that no thread may make takes ILLOPND. -/
theorem swr_traps (ready : s.Ready g [swrPos a] c) (free : s.fstatWaits c w = false)
    (refused : ∀ i, s.issued.writeRef c w i (c.raw i (swrPos a)) = none) : Traps (.swr g a w) s c 0x02#8 0 := by
  obtain ⟨i, r, on⟩ := List.exists_cons_of_ne_nil (ready_checks ready.2).1
  rw [Traps, exec_swr ready free, on, List.foldlM_cons, refused]
  rfl

/-- The word that the last thread writes stands, where each write overwrites the one before. -/
theorem swr_last (ready : s.Ready g [swrPos a] c) (free : s.fstatWaits c w = false) {h : Nat → State → State}
    (writes : ∀ (u : State) i, u.writeRef c w i (c.raw i (swrPos a)) = some (h (c.raw i (swrPos a)) u)) (last : ∀ u x y, h y (h x u) = h y u) :
    Goes (.swr g a w) s c 12 (h (c.raw (c.on.getLastD 0) (swrPos a)) s.issued) := by
  have goes := swr_goes ready free fun u i _ => writes u i
  obtain ⟨i, r, on⟩ := List.exists_cons_of_ne_nil (ready_checks ready.2).1
  rw [on] at goes ⊢
  rwa [foldl_last (fun u x y => last u _ _)] at goes

end

/-- Whether a number of a die's control space is assigned does not hang on the state. -/
theorem readDieWord_isSome (s t : State) (d n : Nat) : (s.readDieWord d n).isSome = (t.readDieWord d n).isSome := by
  simp only [State.readDieWord, apply_ite Option.isSome, Option.isSome_some]

/-- Whether a number of the package's control space is assigned does not hang on the state. -/
theorem readPackageWord_isSome (s t : State) (n : Nat) : (s.readPackageWord n).isSome = (t.readPackageWord n).isSome := by
  simp only [State.readPackageWord, apply_ite Option.isSome, Option.isSome_some, readDieWord_isSome s t]

theorem Tbl.put_put {α : Type} (k : Nat) (u v : α) (t : Tbl α) : Tbl.put k v (Tbl.put k u t) = Tbl.put k v t := by
  induction t with
  | nil => simp [Tbl.put]
  | cons p r ih =>
    obtain ⟨j, x⟩ := p
    simp only [Tbl.put]
    split
    · simp [Tbl.put]
    · split
      · simp [Tbl.put]
      · simp [Tbl.put, *]

theorem updWarp_id (s : State) (t w : Nat) : s.updWarp t w (fun x => x) = s := by
  have same (l : Tbl Warp) (k : Nat) : Tbl.alter k (fun x => x) l = l := by
    induction l with
    | nil => rfl
    | cons p r ih => simp [Tbl.alter, ih]
  rw [State.updWarp, same]

theorem modAt_of_le {α : Type} {i : Nat} (f : α → α) {l : List α} (beyond : l.length ≤ i) : modAt i f l = l := by
  induction l generalizing i with
  | nil => simp [modAt]
  | cons x r ih =>
    cases i with
    | zero => simp at beyond
    | succ i => simp [modAt, ih (Nat.le_of_succ_le_succ beyond)]

/-- SWR of %fctl or %fstat changes the guarded threads of its warp, each by its own source. -/
theorem foldl_updThread {c : Ctx} {s : State} (here : s.warp? c.ref.team c.ref.warp = some c.warp) (f : Nat → Thread → Thread) (l : List Nat) :
    l.foldl (fun u i => u.updThread c.ref.team c.ref.warp i (f i)) s
      = s.updWarp c.ref.team c.ref.warp (fun _ => c.warp.updEach id f l) := by
  have fold (l : List Nat) (s : State) : l.foldl (fun u i => u.updThread c.ref.team c.ref.warp i (f i)) s
      = s.updWarp c.ref.team c.ref.warp (fun w => w.updEach id f l) := by
    induction l generalizing s with
    | nil => exact (updWarp_id ..).symm
    | cons i r ih => rw [List.foldl_cons, ih]; exact updWarp_updWarp ..
  rw [fold, updWarp_at _ _ _ _ here]

theorem thread_updEach_nat (f : Nat → Thread → Thread) {l : List Nat} (distinct : l.Nodup) (w : Warp) (i : Nat) :
    (w.updEach id f l).thread i = if i ∈ l ∧ i < w.threads.length then f i (w.thread i) else w.thread i := by
  induction l generalizing w with
  | nil => simp [Warp.updEach]
  | cons j r ih =>
    obtain ⟨first, distinct⟩ := List.nodup_cons.mp distinct
    change ((w.updThread j (f j)).updEach id f r).thread i = _
    have length : (w.updThread j (f j)).threads.length = w.threads.length := length_modAt _ _ _
    rw [ih distinct, length]
    by_cases there : j < w.threads.length
    · rw [thread_updThread _ _ there]
      by_cases same : i = j
      · subst i; simp [first, there]
      · simp [same]
    · have same : w.updThread j (f j) = w := by rw [Warp.updThread, modAt_of_le _ (Nat.le_of_not_lt there)]
      have other : i < w.threads.length → i ≠ j := fun h e => there (e ▸ h)
      rw [same]
      by_cases inside : i < w.threads.length
      · simp [inside, other inside]
      · simp [inside]

/-! ### What a reference names (R375) -/

section
variable {s : State} {c : Ctx} {w : WordRef}

theorem fstatWaits_of_clear (clear : w.space = .special → w.num.toNat = 0x11 → ∀ i ∈ c.on, s.flagsPending c i = false) :
    s.fstatWaits c w = false := by
  by_cases special : w.space = .special
  · by_cases fstat : w.num.toNat = 0x11
    · have none_ : c.on.any (s.flagsPending c) = false := List.any_eq_false.mpr fun i hi => by simp [clear special fstat i hi]
      simp [State.fstatWaits, none_]
    · simp [State.fstatWaits, fstat]
  · simp [State.fstatWaits, special]

theorem fstatWaits_of_waits (special : w.space = .special) (fstat : w.num.toNat = 0x11) (pending : ∃ i ∈ c.on, s.flagsPending c i = true) :
    s.fstatWaits c w = true := by
  simpa [State.fstatWaits, special, fstat] using pending

theorem dieOf_here (h : w.die = 15#4 ∨ w.die.toNat < 9) (here : Nat) :
    WordRef.dieOf w here = some (if w.die = 15#4 then here else w.die.toNat) := by
  unfold WordRef.dieOf
  split
  · rfl
  · rename_i other
    rw [if_pos (h.resolve_left other)]

theorem dieOf_none (low : 9 ≤ w.die.toNat) (other : w.die ≠ 15#4) (here : Nat) : WordRef.dieOf w here = none := by
  unfold WordRef.dieOf
  rw [if_neg other, if_neg (by omega)]

theorem readRef_special (special : w.space = .special) (i : Nat) : s.readRef c w i = s.special c i w.num.toNat := by
  rw [State.readRef, special]

theorem readRef_package (package : w.space = .package) (i : Nat) :
    s.readRef c w i = (s.readPackageWord w.num.toNat).map BitVec.toNat := by
  rw [State.readRef, package]

theorem readRef_die (die : w.space = .die) (h : w.die = 15#4 ∨ w.die.toNat < 9) (i : Nat) :
    s.readRef c w i = (s.readDieWord (if w.die = 15#4 then c.team.die else w.die.toNat) w.num.toNat).map BitVec.toNat := by
  rw [State.readRef, die]
  simp only [dieOf_here h, Option.bind_some]

theorem special_unassigned {n : Nat}
    (unassigned : n ∉ [0, 1, 2, 3, 4, 5, 6, 7, 8, 9, 0xA, 0xB, 0xC, 0xD, 0x10, 0x11, 0x18, 0x19, 0x1A, 0x1B]) (i : Nat) :
    s.special c i n = none := by
  unfold State.special
  split
  case h_21 => rfl
  all_goals simp at unassigned

/-- The mailbox is not read (R377). -/
theorem readPackageWord_mailbox {n : Nat} (low : 0x50 ≤ n) (high : n < 0x60) : s.readPackageWord n = none := by
  interval_cases n <;> rfl

theorem readPackageWord_fault {n : Nat} (low : 0x4000 ≤ n) (high : n < 0x4000 + 16383) : s.readPackageWord n = some (s.word n) := by
  unfold State.readPackageWord entryCount
  simp only [Bool.or_eq_true, Bool.and_eq_true, decide_eq_true_eq]
  repeat rw [if_neg (by omega)]
  rw [if_pos ⟨low, high⟩]

theorem readDieWord_counter {d n : Nat} (low : 0x100 ≤ n) (high : n ≤ 0x108) : s.readDieWord d n = some (s.dieWord d n) := by
  simp [State.readDieWord, low, high]

end

/-! ### What one thread's write does (R376, R377) -/

section
variable {s : State} {c : Ctx} {w : WordRef}

theorem writeRef_special_refused (special : w.space = .special) (own : w.num.toNat ∉ [0x10, 0x11]) (tepc : w.num.toNat ≠ 0x1A) (i v : Nat) :
    s.writeRef c w i v = none := by
  simp only [List.mem_cons, List.not_mem_nil, or_false, not_or] at own
  simp [State.writeRef, special, own]

theorem writeRef_outside (outside : c.warp.handler = none) (who : w.space ≠ .special ∨ w.num.toNat = 0x1A) (i v : Nat) :
    s.writeRef c w i v = none := by
  cases space : w.space with
  | special => simp [State.writeRef, space, outside, who.resolve_left (not_not_intro space)]
  | die => cases die : WordRef.dieOf w c.team.die <;> simp [State.writeRef, space, outside, die]
  | package => simp [State.writeRef, space, outside]

theorem writeRef_tepc (special : w.space = .special) (tepc : w.num.toNat = 0x1A) (inside : c.warp.handler ≠ none) (i v : Nat) :
    s.writeRef c w i v = some (s.updWarp c.ref.team c.ref.warp (fun y => { y with tepc := BitVec.ofNat 32 v })) := by
  simp [State.writeRef, special, tepc, Option.isSome_iff_ne_none.mpr inside]

theorem writeRef_package (package : w.space = .package) (inside : c.warp.handler ≠ none)
    (assigned : (s.readPackageWord w.num.toNat).isSome = true ∨ isMailbox w.num.toNat = true) (i v : Nat) :
    s.writeRef c w i v = some (s.writePackageWord false w.num.toNat (BitVec.ofNat 64 v)) := by
  have known : ((s.readPackageWord w.num.toNat).isNone && !isMailbox w.num.toNat) = false := by
    rcases assigned with h | h <;> simp [← Option.not_isSome, h]
  simp [State.writeRef, package, Option.isNone_eq_false_iff.mpr (Option.isSome_iff_ne_none.mpr inside), known]

theorem writeRef_package_refused (package : w.space = .package) (unassigned : s.readPackageWord w.num.toNat = none)
    (mailbox : isMailbox w.num.toNat = false) (i v : Nat) : s.writeRef c w i v = none := by
  simp [State.writeRef, package, unassigned, mailbox]

theorem writeRef_die (die : w.space = .die) (reached : w.die = 15#4 ∨ w.die.toNat < 9) (inside : c.warp.handler ≠ none)
    (assigned : (s.readDieWord (if w.die = 15#4 then c.team.die else w.die.toNat) w.num.toNat).isSome = true) (i v : Nat) :
    s.writeRef c w i v
      = some (s.writeDieWord false (if w.die = 15#4 then c.team.die else w.die.toNat) w.num.toNat (BitVec.ofNat 64 v)) := by
  simp only [State.writeRef, die, dieOf_here reached, Option.isNone_eq_false_iff.mpr (Option.isSome_iff_ne_none.mpr inside),
    Option.isNone_eq_false_iff.mpr assigned, Bool.or_false, Bool.false_eq_true, if_false]

theorem writeRef_die_refused (die : w.space = .die) (reached : w.die = 15#4 ∨ w.die.toNat < 9)
    (unassigned : s.readDieWord (if w.die = 15#4 then c.team.die else w.die.toNat) w.num.toNat = none) (i v : Nat) :
    s.writeRef c w i v = none := by
  simp [State.writeRef, die, dieOf_here reached, unassigned]

theorem writePackageWord_plain {n : Nat} (plain : n = 0x20 ∨ n = 0x2100) (v : Word64) : s.writePackageWord false n v = s.setWord n v := by
  rcases plain with rfl | rfl <;> rfl

theorem readPackageWord_plain {n : Nat} (plain : n = 0x20 ∨ n = 0x2100) : (s.readPackageWord n).isSome = true := by
  rcases plain with rfl | rfl <;> rfl

/-- What SWR makes of a thread whose source is v. -/
def fieldWritten (n : Nat) (v : Nat) (th : Thread) : Thread :=
  if n = 0x10 then { th with fctl := BitVec.ofNat 32 v &&& 0x1F07#32 } else { th with fstat := BitVec.ofNat 32 v &&& 0x1F#32 }

theorem writeRef_own (special : w.space = .special) (own : w.num.toNat ∈ [0x10, 0x11]) (i v : Nat) :
    s.writeRef c w i v = some (s.updThread c.ref.team c.ref.warp i (fieldWritten w.num.toNat v)) := by
  simp only [List.mem_cons, List.not_mem_nil, or_false] at own
  rcases own with h | h <;> simp only [State.writeRef, special, h] <;> rfl

end

theorem ctx_on_nodup {s : State} {g : Guard} {c : Ctx} (ctx : s.ctx g = some c) : c.on.Nodup := by
  obtain ⟨-, -, -, -, -, on, -⟩ := ctx_facts ctx
  rw [on]
  exact (List.nodup_range.filter _).filter _

/-- Settles O21: SRD by the table of what each reference reads, SWR by the fold of its threads' writes. -/
theorem specialRegisters : Obligations.SpecialRegisters := by
  intro s g d a w c pd pa reads claims free here n own clear waits
  refine ⟨?_, ?_⟩
  · intro ready
    have value {f : Nat → Nat} (free : s.fstatWaits c w = false) (value : ∀ i, s.readRef c w i = some (f i)) : reads f :=
      srd_reads ready free value
    have plain (other : w.space ≠ .special) : s.fstatWaits c w = false := fstatWaits_of_clear fun special => absurd special other
    refine ⟨?_, ?_, ?_, ?_, ?_, ?_, ?_⟩
    · rintro ⟨special, fstat, pending⟩
      exact srd_waits ready (fstatWaits_of_waits special fstat pending)
    · intro special_ settled
      have clear := fstatWaits_of_clear fun _ => settled
      have special {f : Nat → Nat} (h : ∀ i, s.special c i n = some (f i)) : reads f :=
        value clear fun i => (readRef_special special_ i).trans (h i)
      refine ⟨fun h => special fun i => ?_, fun h => special fun i => ?_, fun h => special fun i => ?_, fun h => special fun i => ?_,
        fun h => special fun i => ?_, fun h => special fun i => ?_, fun h => special fun i => ?_, fun h => special fun i => ?_,
        fun h => special fun i => ?_, fun h => special fun i => ?_, fun h => special fun i => ?_, fun h => special fun i => ?_,
        fun h => special fun i => ?_, fun h => special fun i => ?_, fun h => special fun i => ?_, fun h => special fun i => ?_,
        fun h => special fun i => ?_, fun h => special fun i => ?_, fun h => special fun i => ?_, fun h => special fun i => ?_, ?_⟩
      case refine_1 => rw [h, Nat.mul_comm]; rfl
      case refine_7 =>
        rw [h]
        cases hc : c.team.convoy <;> simp [State.special, hc]
      case refine_14 =>
        rw [h]
        cases hb : Config.stepIsB1 <;> simp [State.special, stepCode, hb]
      iterate 17 (rw [h]; rfl)
      intro unassigned
      exact srd_traps ready clear ((readRef_special special_ _).trans (special_unassigned unassigned _))
    · intro die low other
      exact srd_traps ready (plain (by simp [die])) (by simp [State.readRef, die, dieOf_none low other])
    · intro die reached
      have other := plain (by simp [die])
      have word {v : Word64} (h : s.readDieWord here n = some v) : reads fun _ => v.toNat :=
        value other fun i => (readRef_die die reached i).trans (congrArg (Option.map BitVec.toNat) h)
      exact ⟨fun low high => word (readDieWord_counter low high), fun v => word,
        fun h => srd_traps ready other ((readRef_die die reached _).trans (congrArg (Option.map BitVec.toNat) h))⟩
    all_goals
      intro package
      have other := plain (by simp [package])
      have word {v : Word64} (h : s.readPackageWord n = some v) : reads fun _ => v.toNat :=
        value other fun i => (readRef_package package i).trans (congrArg (Option.map BitVec.toNat) h)
      have unassigned (h : s.readPackageWord n = none) : Traps (.srd g d w) s c 0x02#8 0 :=
        srd_traps ready other ((readRef_package package _).trans (congrArg (Option.map BitVec.toNat) h))
    · exact fun low high => unassigned (readPackageWord_mailbox low high)
    · exact fun low high => word (readPackageWord_fault low high)
    · exact ⟨fun v => word, unassigned⟩
  · intro ready
    obtain ⟨-, -, here_, -⟩ := ctx_facts ready.1
    have plain (other : w.space ≠ .special) : s.fstatWaits c w = false := fstatWaits_of_clear fun special => absurd special other
    refine ⟨?_, ?_, ?_, ?_, ?_, ?_, ?_⟩
    · rintro ⟨special, fstat, pending⟩
      exact swr_waits ready (fstatWaits_of_waits special fstat pending)
    · exact fun special own tepc => swr_traps ready (fstatWaits_of_clear fun _ fstat => absurd (show w.num.toNat ∈ [0x10, 0x11] by simp [fstat]) own)
        fun i => writeRef_special_refused special own tepc _ _
    · intro outside who
      refine swr_traps ready (fstatWaits_of_clear fun special fstat => ?_) fun i => writeRef_outside outside who _ _
      exact absurd (fstat.symm.trans (who.resolve_left (not_not_intro special))) (by decide)
    · intro special own clear
      have goes := swr_goes ready (fstatWaits_of_clear fun _ => clear) fun u i _ => writeRef_own (s := u) special own i (c.raw i pa)
      rw [foldl_updThread (s := s.issued) here_ (fun i => fieldWritten w.num.toNat (c.raw i pa))] at goes
      obtain ⟨length, frame⟩ := updEach_frame id (fun i => fieldWritten w.num.toNat (c.raw i pa)) c.warp c.on
      exact ⟨_, goes, frame, length, thread_updEach_nat _ (ctx_on_nodup ready.1) _⟩
    · intro special tepc inside
      have free : s.fstatWaits c w = false := fstatWaits_of_clear fun _ fstat => absurd (fstat.symm.trans tepc) (by decide)
      exact swr_last (h := fun v u => u.updWarp c.ref.team c.ref.warp (fun y => { y with tepc := BitVec.ofNat 32 v })) ready free
        (fun u i => writeRef_tepc special tepc inside i _) fun u x y => updWarp_updWarp ..
    · intro package word inside
      refine swr_last (h := fun v u => u.setWord n (BitVec.ofNat 64 v)) ready (plain (by simp [package])) (fun u i => ?_)
        fun u x y => by simp only [State.setWord, Tbl.put_put]
      rw [writeRef_package package inside (.inl (readPackageWord_plain word)), writePackageWord_plain word]
    · intro inside written
      have single {h : State → Nat → State} (i : Nat) (on : c.on = [i]) : c.on.foldl h s.issued = h s.issued i := by rw [on]; rfl
      refine ⟨fun package => ⟨fun assigned => ?_, fun unassigned mailbox => ?_⟩,
        fun die reached => ⟨fun assigned => ?_, fun unassigned => ?_⟩⟩
      · refine ⟨_, swr_goes ready (plain (by simp [package])) fun u i _ => writeRef_package package inside ?_ i _, single⟩
        rwa [readPackageWord_isSome u s]
      · exact swr_traps ready (plain (by simp [package])) fun i => writeRef_package_refused (s := s.issued) package unassigned mailbox _ _
      · refine ⟨_, swr_goes ready (plain (by simp [die])) fun u i _ => writeRef_die die reached inside ?_ i _, single⟩
        rwa [readDieWord_isSome u s]
      · exact swr_traps ready (plain (by simp [die])) fun i => writeRef_die_refused (s := s.issued) die reached unassigned _ _

end Sys2Proof.Machine

/-! PROOFS. Lane events (R34, R37, R42, R64, R195, R252, R253): each is one change of one warp. -/

namespace Sys2Proof.Machine

/-- The states agree on memory, on the teams and on every warp but one. -/
def State.OnlyWarp (s u : State) (T W : Nat) : Prop :=
  u.mem = s.mem ∧ u.teams = s.teams ∧ ∀ q, q ≠ warpKey T W → Tbl.look q u.warps = Tbl.look q s.warps

theorem look_updWarp_ne (s : State) {T W q : Nat} (f : Warp → Warp) (other : q ≠ warpKey T W) :
    Tbl.look q (s.updWarp T W f).warps = Tbl.look q s.warps := by
  simp [State.updWarp, Tbl.look_alter, other]

theorem onlyWarp_updWarp (s : State) (T W : Nat) (f : Warp → Warp) : s.OnlyWarp (s.updWarp T W f) T W :=
  ⟨rfl, rfl, fun _ other => look_updWarp_ne s f other⟩

theorem warp_updWarp_self {s : State} {T W : Nat} {w : Warp} (h : s.warp? T W = some w) (f : Warp → Warp) :
    (s.updWarp T W f).warp? T W = some (f w) := by
  simp [State.warp_updWarp, h]

/-! ### The split table (R34, R37) -/

theorem exec_splitFill (die core lane : Nat) (s : State) : exec (.splitFill die core lane) s = execSplitFill die core lane s := rfl

theorem any_of_filter_singleton {α : Type} {p : α → Bool} {l : List α} {a : α} (h : l.filter p = [a]) : l.any p = true := by
  have inside : a ∈ l.filter p := by simp [h]
  exact List.any_eq_true.mpr ⟨a, List.mem_filter.mp inside⟩

/-- The one spilled ready leaf of a lane with one warp takes a free entry of the table. -/
theorem splitFill_free {s : State} {die core lane : Nat} {w : Warp} {e : Entry} (alone : s.laneWarps die core lane = [w])
    (spilled : w.entries.filter Entry.spilledReady = [e]) (room : w.tabled.length < s.tableRoom die core w) :
    exec (.splitFill die core lane) s
      = .next (s.updWarp w.team w.index (fun x => x.updEntry e.id (fun y => { y with spilled := false }))) := by
  rw [exec_splitFill, execSplitFill]
  simp [alone, any_of_filter_singleton spilled, spilled, room, sortBy, insertBy]

/-- With the table full, it changes places with the table's first blocked leaf. -/
theorem splitFill_swap {s : State} {die core lane : Nat} {w : Warp} {e b : Entry} (alone : s.laneWarps die core lane = [w])
    (spilled : w.entries.filter Entry.spilledReady = [e]) (full : s.tableRoom die core w ≤ w.tabled.length)
    (blocked : w.tabled.find? (fun y => y.isLeaf && y.wait != .none) = some b) :
    exec (.splitFill die core lane) s
      = .next (s.updWarp w.team w.index (fun x => (x.updEntry e.id (fun y => { y with spilled := false })).updEntry b.id
          (fun y => { y with spilled := true }))) := by
  rw [exec_splitFill, execSplitFill]
  simp [alone, any_of_filter_singleton spilled, spilled, Nat.not_lt.mpr full, blocked, sortBy, insertBy]

theorem find_tabled_blocked (w : Warp) : w.tabled.find? (fun y => y.isLeaf && y.wait != .none)
    = (w.entries.filter (fun y => !y.spilled && y.isLeaf && y.wait != .none)).head? := by
  rw [← List.head?_filter, Warp.tabled, List.filter_filter]
  congr 2
  funext y
  cases y.spilled <;> cases y.isLeaf <;> cases (y.wait != .none) <;> rfl

/-- Two entries of different names change at once. -/
theorem updEntry_updEntry_ne (w : Warp) {i j : Nat} (apart : i ≠ j) (f g : Entry → Entry) (keeps : ∀ y, (f y).id = y.id) :
    (w.updEntry i f).updEntry j g
      = { w with entries := w.entries.map (fun y => if y.id == i then f y else if y.id == j then g y else y) } := by
  simp only [Warp.updEntry, mapIf, List.map_map]
  congr 2
  funext y
  by_cases hi : y.id = i
  · simp [hi, keeps, apart]
  · simp [hi]

theorem heldSplitRelease_looks {s : State} {r : LeafRef} {t : Team} {w : Warp} {e : Entry} (team : s.team? r.team = some t)
    (warp : s.warp? r.team r.warp = some w) (entry : w.entry? r.leaf = some e) (held : e.wait = .split)
    (room : w.entries.length + 2 ≤ s.tableRoom t.die t.core w + 32) : exec (.heldSplitRelease r) s = .next (s.unblock r) := by
  have room' : s.splitRoom t.die t.core w = true := by simpa [State.splitRoom] using room
  change execHeldSplitRelease r s = _
  simp [execHeldSplitRelease, team, warp, entry, held, room']

theorem passPromotion_promotes {s : State} {r : LeafRef} {w : Warp} {e : Entry} (warp : s.warp? r.team r.warp = some w)
    (entry : w.entry? r.leaf = some e) (late : 256 ≤ e.passes) : exec (.passPromotion r) s = .next (s.promote r) := by
  change execPassPromotion r s = _
  simp [execPassPromotion, warp, entry, late]

/-- The promotion of the only entry of that name. -/
theorem warp_promote {s : State} {r : LeafRef} {w : Warp} {e : Entry} (warp : s.warp? r.team r.warp = some w) (named : e.id = r.leaf)
    (single : ∀ y ∈ w.entries, y.id = e.id → y = e) (late : 256 ≤ e.passes) :
    (s.promote r).warp? r.team r.warp = some { w with entries := w.entries.map (fun y => if y.id == e.id then { y with
      passes := 0
      promo := if min 2 (s.baseClass r.team + e.promo) = 2 then e.promo else e.promo + 1 } else y) } := by
  rw [State.promote, State.updEntry, warp_updWarp_self warp]
  simp only [Warp.updEntry, mapIf]
  congr 2
  refine List.map_congr_left fun y inside => ?_
  by_cases same : y.id = e.id
  · obtain rfl := single y inside same
    simp [named, late, State.leafClass]
  · simp [← named, same]

/-! ### Timed waits and notices (R195) -/

theorem liveMask_congr {w x : Warp} (length : x.threads.length = w.threads.length)
    (exited : ∀ i, (x.thread i).exited = (w.thread i).exited) : x.liveMask = w.liveMask := by
  simp only [Warp.liveMask, length, exited]

theorem tick_exited (th : Thread) : th.tick.exited = th.exited := by unfold Thread.tick; split <;> rfl
theorem tick_regs (th : Thread) : th.tick.regs = th.regs := by unfold Thread.tick; split <;> rfl
theorem tick_preds (th : Thread) : th.tick.preds = th.preds := by unfold Thread.tick; split <;> rfl

/-- Settling reads a warp's entries and its live threads, and changes its entries alone. -/
theorem settle_with (x w : Warp) (live : x.liveMask = w.liveMask) (id fuel : Nat) :
    ({ x with entries := w.entries } : Warp).settle id fuel = { x with entries := (w.settle id fuel).entries } := by
  induction fuel generalizing w id with
  | zero => rfl
  | succ fuel ih =>
    have dropped (j : Nat) := ih (w.dropEntry id) live j
    have led (m : BitVec 32) := ih (w.updEntry id fun y => { y with isLeaf := true, mask := m }) live id
    simp only [Warp.settle]
    change (match w.entry? id with | none => _ | some e => _) = _
    cases w.entry? id with
    | none => rfl
    | some e =>
      have live' : ({ x with entries := w.entries } : Warp).liveMask = w.liveMask := live
      have drop' : ({ x with entries := w.entries } : Warp).dropEntry id = { x with entries := (w.dropEntry id).entries } := rfl
      have lead' (m : BitVec 32) : ({ x with entries := w.entries } : Warp).updEntry id (fun y => { y with isLeaf := true, mask := m })
          = { x with entries := (w.updEntry id fun y => { y with isLeaf := true, mask := m }).entries } := rfl
      have find' : ({ x with entries := w.entries } : Warp).entry? = w.entry? := rfl
      simp only [live', drop', lead', find', dropped, led]
      by_cases leaf : e.isLeaf = true
      · by_cases none : e.mask = 0#32
        · cases e.parent <;> simp [leaf, none]
        · cases e.parent.bind w.entry? with
          | none => simp [leaf, none]
          | some j => simp only [leaf, none, if_true, if_false]; split <;> rfl
      · by_cases child : w.entries.any (fun c => c.parent == some id) = true
        · simp [leaf, child]
        · by_cases none : e.mask &&& w.liveMask = 0#32
          · cases e.parent <;> simp [leaf, child, none]
          · simp [leaf, child, none]

theorem thread_tickMask (w : Warp) (m : BitVec 32) (i : Nat) :
    (w.tickMask m).thread i = if i < w.threads.length ∧ m.getLsbD i = true then (w.thread i).tick else w.thread i := by
  rw [Warp.tickMask, thread_map]
  by_cases inside : i < w.threads.length <;> simp [inside]

theorem thread_setPredIn (w : Warp) (m : BitVec 32) (p : BitVec 3) (v : Bool) (i : Nat) :
    (w.setPredIn m p v).thread i = if i < w.threads.length ∧ m.getLsbD i = true
      then { w.thread i with preds := setPred (w.thread i).preds p v } else w.thread i := by
  rw [Warp.setPredIn, thread_map]
  by_cases inside : i < w.threads.length <;> simp [inside]

@[simp] theorem length_tickMask (w : Warp) (m : BitVec 32) : (w.tickMask m).threads.length = w.threads.length := by
  simp [Warp.tickMask]

@[simp] theorem length_setPredIn (w : Warp) (m : BitVec 32) (p : BitVec 3) (v : Bool) :
    (w.setPredIn m p v).threads.length = w.threads.length := by
  simp [Warp.setPredIn]

theorem thread_tickMask_exited (w : Warp) (m : BitVec 32) (i : Nat) : ((w.tickMask m).thread i).exited = (w.thread i).exited := by
  rw [thread_tickMask]; split <;> simp [tick_exited]

theorem thread_setPredIn_exited (w : Warp) (m : BitVec 32) (p : BitVec 3) (v : Bool) (i : Nat) :
    ((w.setPredIn m p v).thread i).exited = (w.thread i).exited := by
  rw [thread_setPredIn]; split <;> rfl

/-- The entry of a leaf that has passed an instruction of len bytes, before it arrives. -/
def Entry.ended (len : Nat) (x : Entry) : Entry :=
  { x.issued with pc := x.pc + BitVec.ofNat 32 len, wait := .none, retJoin := none }

theorem finish_of_entry {w : Warp} {id : Nat} {e : Entry} (entry : w.entry? id = some e) (len : Nat) :
    w.finish id len = ((w.tickMask e.mask).updEntry id (Entry.ended len)).settled id := by
  simp only [Warp.finish, entry]; rfl

/-- A leaf's end changes no more than windows and entries. -/
theorem finish_eq {w : Warp} {id : Nat} {e : Entry} (entry : w.entry? id = some e) (len : Nat) :
    w.finish id len = { w.tickMask e.mask with entries := (w.finish id len).entries } := by
  rw [finish_of_entry entry]
  exact settle_with (w.tickMask e.mask) ((w.tickMask e.mask).updEntry id (Entry.ended len)) rfl id _

/-- A predicate write beforehand leaves the entries that a leaf's end leaves. -/
theorem finish_setPredIn (w : Warp) (m : BitVec 32) (p : BitVec 3) (v : Bool) (id len : Nat) :
    ((w.setPredIn m p v).finish id len).entries = (w.finish id len).entries := by
  have found : (w.setPredIn m p v).entry? id = w.entry? id := rfl
  cases entry : w.entry? id with
  | none => simp only [Warp.finish, found, entry]; rfl
  | some e =>
    have live : ((w.setPredIn m p v).tickMask e.mask).liveMask = (w.tickMask e.mask).liveMask := by
      refine liveMask_congr (by simp) fun i => ?_
      rw [thread_tickMask_exited, thread_setPredIn_exited, thread_tickMask_exited]
    rw [finish_of_entry (found.trans entry), finish_of_entry entry]
    have same := congrArg Warp.entries
      (settle_with ((w.setPredIn m p v).tickMask e.mask) ((w.tickMask e.mask).updEntry id (Entry.ended len)) live id
        (2 * ((w.tickMask e.mask).updEntry id (Entry.ended len)).entries.length + 2))
    exact same

/-- The threads after a predicate write and a leaf's end. -/
theorem thread_setPredIn_finish {w : Warp} {id : Nat} {e : Entry} (entry : w.entry? id = some e) (m : BitVec 32) (p : BitVec 3)
    (v : Bool) (len : Nat) {j : Nat} (hj : j < w.threads.length) :
    (((w.setPredIn m p v).finish id len).thread j).regs = (w.thread j).regs
      ∧ (((w.setPredIn m p v).finish id len).thread j).preds
        = if m.getLsbD j then setPred (w.thread j).preds p v else (w.thread j).preds := by
  have found : (w.setPredIn m p v).entry? id = some e := entry
  rw [finish_eq found]
  change ((Warp.tickMask _ _).thread j).regs = _ ∧ ((Warp.tickMask _ _).thread j).preds = _
  simp only [thread_tickMask, thread_setPredIn, length_setPredIn, hj, true_and]
  by_cases named : m.getLsbD j = true <;> by_cases active : e.mask.getLsbD j = true <;>
    simp [named, active, tick_regs, tick_preds]

/-- The end of a timed RVWAIT that expires: one change of its warp. -/
theorem rvwaitExpiry_ends {s : State} {r : LeafRef} {w : Warp} {e : Entry} {n phase : Nat} {p : BitVec 3} {m : BitVec 32}
    (warp : s.warp? r.team r.warp = some w) (entry : w.entry? r.leaf = some e) (wait : e.wait = .rv n phase (some (0, p, m))) :
    exec (.rvwaitExpiry r) s
      = .next (s.updWarp r.team r.warp fun x => ((x.setPredIn m p false).finish r.leaf 12).arrive n phase) := by
  change execRvwaitExpiry r s = _
  simp [execRvwaitExpiry, State.rvDone, warp, entry, wait, State.complete, updWarp_updWarp]

theorem length_finish (w : Warp) (id len : Nat) : (w.finish id len).threads.length = w.threads.length := by
  cases entry : w.entry? id with
  | none => simp [Warp.finish, entry]
  | some e => rw [finish_eq entry]; simp [Warp.tickMask]

theorem finish_arrived (w : Warp) (id len : Nat) : (w.finish id len).arrived = w.arrived := by
  cases entry : w.entry? id with
  | none => simp [Warp.finish, entry]
  | some e => rw [finish_eq entry]; rfl

/-- An RVWAIT ends with an acquire: of its warps it changes the leaf's alone, and no memory, team or convoy. -/
theorem rvDone_true {s : State} {r : LeafRef} {w : Warp} {e : Entry} {n phase : Nat} (warp : s.warp? r.team r.warp = some w)
    (entry : w.entry? r.leaf = some e) (wait : e.wait = .rv n phase none) :
    s.OnlyWarp (s.rvDone r true) r.team r.warp ∧ (s.rvDone r true).convoys = s.convoys
      ∧ (s.rvDone r true).warp? r.team r.warp = some (w.finish r.leaf 12) := by
  have acquired (u : State) (name : Word64) : (u.acquire r.team name).mem = u.mem ∧ (u.acquire r.team name).teams = u.teams
      ∧ (u.acquire r.team name).warps = u.warps ∧ (u.acquire r.team name).convoys = u.convoys := by
    unfold State.acquire; split <;> simp
  have joined (u : State) : (u.joinEngines r.team).mem = u.mem ∧ (u.joinEngines r.team).teams = u.teams
      ∧ (u.joinEngines r.team).warps = u.warps ∧ (u.joinEngines r.team).convoys = u.convoys := by
    unfold State.joinEngines; split <;> simp [State.dropL1]
  have ended := warp_updWarp_self warp (fun x => x.finish r.leaf 12)
  have frame := onlyWarp_updWarp s r.team r.warp (fun x => x.finish r.leaf 12)
  simp only [State.warp?, State.OnlyWarp] at ended frame ⊢
  have done : s.rvDone r true = (if ((s.complete r 12).convoyOf r.team n).isSome
      then ((s.complete r 12).acquire r.team (objectName 2 n)).joinEngines r.team
      else (s.complete r 12).acquire r.team (objectName 2 n)) := by
    simp [State.rvDone, warp, entry, wait]
  rw [done]
  split <;> simp only [joined, acquired] <;> exact ⟨frame, rfl, ended⟩

/-- A notice that finds no leaf waiting only ends its way. -/
theorem convoyNotice_eq {s : State} {convoy point : Nat} {k : Convoy} (found : Tbl.look convoy s.convoys = some k)
    (coming : k.notices.getD (point - 16) false = true) :
    let quiet : State := s.updConvoy convoy (fun c => { c with notices := modAt (point - 16) (fun _ => false) c.notices })
    exec (.convoyNoticeArrival convoy point) s
      = .next ((s.rvWaiters ((k.members.map Prod.snd).filter (fun z => quiet.isFar z point))
          (fun x q => x == point && q ≤ (k.points.getD (point - 16) Point.reset).phase - 1)).foldl (fun u r => u.rvDone r true) quiet) := by
  change execConvoyNoticeArrival convoy point s = _
  simp only [execConvoyNoticeArrival, found, coming, if_true, State.arriveNotice, State.releasePhase, Bool.not_true, Bool.false_eq_true,
    if_false]
  rfl

/-! ### Traps (R64, R252, R253) -/

/-- Pending writes are of the warp's threads, of its team's loads on its core and of its atomics. -/
theorem warpPending_congr {s u : State} {T W : Nat} {w x : Warp} (team : u.team? T = s.team? T) (after : u.warp? T W = some x)
    (before : s.warp? T W = some w) (threads : x.threads = w.threads)
    (loads : ∀ t, s.team? T = some t → (u.core t.die t.core).loads = (s.core t.die t.core).loads) (atoms : u.atoms = s.atoms) :
    u.warpPending T W = s.warpPending T W := by
  simp only [State.warpPending, team, after, before, atoms, Warp.pending]
  cases found : s.team? T with
  | none => rfl
  | some t => simp only [threads, loads t found]

/-- A trap that nothing stands before enters the handler; a CANCEL marks its team. -/
theorem deliver_enters {s : State} {r : LeafRef} {t : Team} {w : Warp} {e : Entry} {v : Word} (trap : Trap)
    (team : s.team? r.team = some t) (warp : s.warp? r.team r.warp = some w) (entry : w.entry? r.leaf = some e)
    (free : s.warpPending r.team r.warp = false) (out : w.handler = none) (vector : s.vector t.launch = some v) :
    s.deliver r trap = (if trap.cause == BitVec.ofNat 8 cCANCEL then s.updTeam r.team (fun t => { t with cancelled := true }) else s).updWarp
      r.team r.warp (fun _ => w.handles e trap.cause trap.info.toNat trap.len v) := by
  have held : s.heldByHandler r = false := by simp [State.heldByHandler, warp, out]
  have raw : s.trapRaw r trap = ((if trap.cause == BitVec.ofNat 8 cCANCEL then s.updTeam r.team (fun t => { t with cancelled := true })
      else s).updWarp r.team r.warp (fun _ => w.handles e trap.cause trap.info.toNat trap.len v), false) := by
    generalize marked : (if trap.cause == BitVec.ofNat 8 cCANCEL then s.updTeam r.team (fun t => { t with cancelled := true })
      else s) = u
    have warp' : u.warp? r.team r.warp = some w := by rw [← marked]; split <;> exact warp
    have vector' (f : Warp → Warp) : (u.updWarp r.team r.warp f).vector t.launch = some v := by
      rw [← marked]; split <;> exact vector
    have named : e.id = r.leaf := by simpa using List.find?_some entry
    unfold State.trapRaw
    simp only [team, warp, entry, out, marked, vector', Option.isSome_none, Bool.false_eq_true, if_false, updWarp_updWarp, Prod.mk.injEq,
      and_true]
    rw [updWarp_at u r _ w warp']
    simp only [Warp.handles, Warp.updEntry, mapIf, BitVec.ofNat_toNat, BitVec.setWidth_eq, named]
    rfl
  have known : ((if trap.cause == BitVec.ofNat 8 cCANCEL then s.updTeam r.team (fun t => { t with cancelled := true })
      else s).updWarp r.team r.warp (fun _ => w.handles e trap.cause trap.info.toNat trap.len v)).team? r.team ≠ none := by
    split <;> simp [State.team_updTeam, team]
  rw [State.deliver, free, held, Bool.or_self, if_neg (by simp), State.takeTrap, raw]
  simp only
  split
  · simp
  · exact absurd ‹_› known

theorem head_insertBy {α : Type} (le : α → α → Bool) (x : α) (l : List α) :
    (insertBy le x l).head? = some (match l.head? with | none => x | some y => if le y x then y else x) := by
  cases l with
  | nil => rfl
  | cons y r => simp only [insertBy, List.head?_cons]; split <;> rfl

/-- The element that stands before every other one comes first. -/
theorem head_sortBy {α : Type} {le : α → α → Bool} {l : List α} {e : α} (inside : e ∈ l)
    (first : ∀ y ∈ l, y ≠ e → le e y = true ∧ le y e = false) : (sortBy le l).head? = some e := by
  have go (r acc : List α) (later : ∀ y ∈ r, y ≠ e → le e y = true ∧ le y e = false)
      (lead : ∀ y, acc.head? = some y → y ≠ e → le e y = true ∧ le y e = false) (some_ : acc.head? = some e ∨ e ∈ r) :
      (r.foldl (fun acc x => insertBy le x acc) acc).head? = some e := by
    induction r generalizing acc with
    | nil => simpa using some_
    | cons x r ih =>
      have here := later x List.mem_cons_self
      refine ih _ (fun y hy => later y (List.mem_cons_of_mem _ hy)) ?_ ?_
      · intro y hy apart
        rw [head_insertBy] at hy
        cases h : acc.head? with
        | none => simp only [h, Option.some.injEq] at hy; exact hy ▸ here (hy ▸ apart)
        | some z =>
          simp only [h, Option.some.injEq] at hy
          split at hy
          · exact lead y (hy ▸ h) apart
          · exact hy ▸ here (hy ▸ apart)
      · rw [head_insertBy]
        rcases some_ with leads | inside
        · by_cases same : x = e
          · left; simp [leads, same]
          · left; simp [leads, (here same).1]
        · rcases List.mem_cons.mp inside with rfl | inside
          · left
            cases h : acc.head? with
            | none => rfl
            | some z =>
              by_cases same : z = e
              · simp [same]
              · simp [(lead z h same).2]
          · exact .inr inside
  exact go l [] first (by simp) (.inr inside)

/-- A trap that is posted to a warp enters the handler as its posting is withdrawn. -/
theorem deliver_posted {s : State} {T W : Nat} {t : Team} {w : Warp} {e : Entry} {v : Word} (f : Warp → Warp) (trap : Trap)
    (threads : (f w).threads = w.threads) (entries : (f w).entries = w.entries) (handler : (f w).handler = w.handler)
    (team : s.team? T = some t) (warp : s.warp? T W = some w) (entry : w.entry? e.id = some e) (free : s.warpPending T W = false)
    (out : w.handler = none) (vector : s.vector t.launch = some v) :
    (s.updWarp T W f).deliver ⟨T, W, e.id⟩ trap
      = (if trap.cause == BitVec.ofNat 8 cCANCEL then s.updTeam T (fun t => { t with cancelled := true }) else s).updWarp
        T W (fun _ => (f w).handles e trap.cause trap.info.toNat trap.len v) := by
  have warp' := warp_updWarp_self warp f
  have entry' : (f w).entry? e.id = some e := by rw [Warp.entry?, entries]; exact entry
  have free' : (s.updWarp T W f).warpPending T W = false :=
    (warpPending_congr (s := s) (u := s.updWarp T W f) rfl warp' warp threads (fun _ _ => rfl) rfl).trans free
  rw [deliver_enters (s := s.updWarp T W f) (r := ⟨T, W, e.id⟩) trap team warp' entry' free' (handler.trans out) vector]
  split
  · exact updWarp_updWarp (s.updTeam T _) T W f _
  · exact updWarp_updWarp s T W f _

/-- The warp's oldest ready leaf takes the trap that is posted to it. -/
theorem asyncTrapTake_oldest {s : State} {T W : Nat} {t : Team} {w : Warp} {e : Entry} (team : s.team? T = some t)
    (warp : s.warp? T W = some w) (here : t.state = .resident) (goes : t.stopping = false) (out : w.handler = none)
    (inside : e ∈ w.entries) (ready : e.ready = true) (oldest : ∀ y ∈ w.entries, y.ready = true → y ≠ e → e.lowest < y.lowest) :
    (∀ info, w.postedEcc = some info → exec (.asyncTrapTake T W) s
        = .next ((s.updWarp T W (fun x => { x with postedEcc := none })).deliver ⟨T, W, e.id⟩ ⟨BitVec.ofNat 8 cECC, info, 0⟩))
      ∧ (w.postedEcc = none → w.postedCancel = true → exec (.asyncTrapTake T W) s
        = .next ((s.updWarp T W (fun x => { x with postedCancel := false })).deliver ⟨T, W, e.id⟩ (mkTrap cCANCEL 0))) := by
  have head : (sortBy (fun (a b : Entry) => a.lowest ≤ b.lowest) (w.entries.filter Entry.ready)).head? = some e := by
    refine head_sortBy (List.mem_filter.mpr ⟨inside, ready⟩) fun y hy apart => ?_
    obtain ⟨hy, ready'⟩ := List.mem_filter.mp hy
    have := oldest y hy ready' apart
    simp; omega
  constructor
  · intro info posted
    change execAsyncTrapTake T W s = _
    simp [execAsyncTrapTake, State.asyncTake, team, warp, here, goes, out, head, posted, TeamState.holds]
  · intro clear posted
    change execAsyncTrapTake T W s = _
    simp [execAsyncTrapTake, State.asyncTake, team, warp, here, goes, out, head, clear, posted, TeamState.holds]

/-- The only team of a core, its one warp waiting in CLAIM without help: its claim is withdrawn and it takes CLAIMDL. -/
theorem claimdlReport_one {s : State} {die core T W n : Nat} {w : Warp} {e : Entry}
    (alone : (s.teams.filter (fun z => z.2.state.holds && z.2.die == die && z.2.core == core)).map Prod.fst = [T])
    (single : s.warpsOf T = [w]) (index : w.index = W) (entries : w.entries = [e]) (wait : e.wait = .claim n)
    (helpless : s.helped T = false) (own : ∀ z ∈ s.laneWarps die core w.lane, z.team = T) :
    let short : Int := ((n * w.count : Nat) : Int) - ((s.core die core).poolFree w.lane : Int)
    let r : LeafRef := ⟨T, W, e.id⟩
    exec (.claimdlReport die core) s = .next (((s.updCore die core (fun c => { c with
        claims := c.claims.map (fun p => (p.1, p.2.filter (fun q => q.1 != r))) })).unblock r).deliver r
      (mkTrap cCLAIMDL (wrap 32 short + w.promise * w.count * 2 ^ 32))) := by
  have mine : w.team = T := by
    have inside : w ∈ s.warpsOf T := by simp [single]
    obtain ⟨p, hp, rfl⟩ := List.mem_map.mp inside
    simpa using (List.mem_filter.mp hp).2
  have claims : w.claims = true := by simp [Warp.claims, entries, wait]
  have stays : s.deadlockedIn die core [T] T = true := by
    have stalls : w.stalled = true := by simp [Warp.stalled, entries, wait, Wait.stalls]
    have there : w.done = false := by simp [Warp.done, entries]
    simpa [State.deadlockedIn, single, helpless, there, stalls, entries, wait] using Or.inr own
  have set : s.deadlockSet die core [T] 1 = [T] := by simp [State.deadlockSet, stays]
  change execClaimdlReport die core s = _
  simp only [execClaimdlReport, alone, List.length_singleton, set]
  simp [single, claims, mine, index, entries, wait]
  rfl

/-- With its one leaf's claim withdrawn, the warp takes CLAIMDL. -/
theorem claimdl_enters {s : State} {die core T W : Nat} {t : Team} {w : Warp} {e : Entry} {v : Word} (info : Nat)
    (gone : List (LeafRef × Nat) → List (LeafRef × Nat)) (team : s.team? T = some t) (warp : s.warp? T W = some w)
    (entries : w.entries = [e]) (free : s.warpPending T W = false) (out : w.handler = none) (vector : s.vector t.launch = some v) :
    ((s.updCore die core (fun c => { c with claims := c.claims.map (fun p => (p.1, gone p.2)) })).unblock ⟨T, W, e.id⟩).deliver ⟨T, W, e.id⟩
        (mkTrap cCLAIMDL info)
      = (s.updCore die core (fun c => { c with claims := c.claims.map (fun p => (p.1, gone p.2)) })).updWarp T W
          (fun _ => w.handles e 0x0D#8 info 0 v) := by
  generalize opened : (s.updCore die core (fun c => { c with claims := c.claims.map (fun p => (p.1, gone p.2)) })) = u
  have warp' : (u.unblock ⟨T, W, e.id⟩).warp? T W = some (w.updEntry e.id (fun y => { y with wait := .none })) := by
    rw [← opened]; exact warp_updWarp_self warp _
  have loads : (u.core t.die t.core).loads = (s.core t.die t.core).loads := by
    rw [← opened, State.core_updCore]; split <;> simp_all [State.core]
  have free' : (u.unblock ⟨T, W, e.id⟩).warpPending T W = false := by
    rw [warpPending_congr (s := s) (by rw [← opened]; rfl) warp' warp rfl (fun z same => ?_) (by rw [← opened]; rfl)]
    · exact free
    · rw [team] at same
      obtain rfl := Option.some.inj same
      exact loads
  have entry : (w.updEntry e.id (fun y => { y with wait := .none })).entry? e.id = some { e with wait := .none } := by
    simp [Warp.entry?, Warp.updEntry, mapIf, entries]
  rw [deliver_enters (mkTrap cCLAIMDL info) (r := ⟨T, W, e.id⟩) (t := t) (v := v) (by rw [← opened]; exact team) warp' entry free' out
    (by rw [← opened]; exact vector)]
  have plain : ((mkTrap cCLAIMDL info).cause == BitVec.ofNat 8 cCANCEL) = false := rfl
  rw [plain, if_neg (by simp), State.unblock, State.updEntry, updWarp_updWarp]
  simp only [Warp.handles, mkTrap, BitVec.ofNat_toNat, BitVec.setWidth_eq]
  simp [Warp.updEntry, mapIf, entries, cCLAIMDL]

/-- Settles O47: each clause is one change of one warp, by the lemmas above. -/
theorem laneEvents : Obligations.LaneEvents := by
  unfold Obligations.LaneEvents
  intro s die core lane T W convoy point n phase w e b r t p m k info v rest old quiet waits oldest clear warp team
  refine ⟨fun alone mine index spilled => ⟨fun room => ?_, fun full blocked apart => ?_⟩, fun named entry single => ⟨fun wait room => ?_,
    fun late => ?_, fun wait real => ?_⟩, fun found coming => ⟨fun none_ => ?_, fun one named entry wait => ?_⟩,
    fun alone single index entries leaf wait helpless own clear => ?_, fun here goes inside entry old clear => ⟨fun posted => ?_,
    fun none_ posted => ?_⟩⟩
  · subst mine index
    exact ⟨_, splitFill_free alone spilled room, onlyWarp_updWarp .., warp_updWarp_self warp _⟩
  · subst mine index
    rw [← find_tabled_blocked] at blocked
    refine ⟨_, splitFill_swap alone spilled full blocked, onlyWarp_updWarp .., ?_⟩
    rw [warp_updWarp_self warp]
    exact congrArg some (updEntry_updEntry_ne w apart _ _ fun _ => rfl)
  · subst named
    exact ⟨_, heldSplitRelease_looks team warp entry wait room, onlyWarp_updWarp .., warp_updWarp_self warp _⟩
  · subst named
    exact ⟨_, passPromotion_promotes warp entry late, onlyWarp_updWarp .., warp_promote warp rfl single late⟩
  · subst named
    refine ⟨_, _, rvwaitExpiry_ends warp entry wait, onlyWarp_updWarp .., warp_updWarp_self warp _, finish_setPredIn .., ?_, ?_, ?_, ?_⟩
    · simp [Warp.arrive, finish_arrived, Warp.setPredIn]
    · simp [Warp.arrive, Tbl.get_put]
    · simp [Warp.arrive, length_finish]
    · intro j hj
      obtain ⟨regs, preds⟩ := thread_setPredIn_finish entry m p false 12 hj
      refine ⟨regs, fun q hq => ?_⟩
      have apart : (p == 7#3) = false := by simpa using real
      change (Thread.preds (Warp.thread ((w.setPredIn m p false).finish e.id 12) j)).getLsbD q = _
      rw [preds]
      by_cases timed : m.getLsbD j = true
      · simp only [timed, if_true, true_and, getLsbD_setPred _ _ _ _ hq, eq_comm (a := q)]
      · simp [timed]
  · rw [convoyNotice_eq found coming]
    exact congrArg (fun l : List LeafRef => Host.Outcome.next (l.foldl (fun u r => u.rvDone r true) quiet)) none_
  · subst named
    obtain ⟨frame, convoys, ended⟩ := rvDone_true (s := quiet) (r := ⟨T, W, e.id⟩) warp entry wait
    refine ⟨quiet.rvDone ⟨T, W, e.id⟩ true, ?_, frame, convoys, ended⟩
    rw [convoyNotice_eq found coming]
    exact congrArg (fun l : List LeafRef => Host.Outcome.next (l.foldl (fun u r => u.rvDone r true) quiet)) one
  · obtain ⟨free, out, vector⟩ := clear
    refine ⟨_, (claimdlReport_one alone single index entries wait helpless own).trans (congrArg _ (claimdl_enters _
      (fun l => l.filter (fun q => q.1 != ⟨T, W, e.id⟩)) team warp entries free out vector)), onlyWarp_updWarp .., ?_, ?_⟩
    · exact warp_updWarp_self warp _
    · intro q l listed z inside
      have claims : (q, l) ∈ (s.core die core).claims.map (fun p => (p.1, p.2.filter (fun q => q.1 != (⟨T, W, e.id⟩ : LeafRef)))) := by
        simpa [State.core_updCore] using listed
      obtain ⟨p, -, same⟩ := List.mem_map.mp claims
      obtain ⟨rfl, rfl⟩ := Prod.mk.inj same
      simpa using (List.mem_filter.mp inside).2
  · obtain ⟨free, out, vector⟩ := clear
    obtain ⟨ready, first⟩ := old
    have taken := (asyncTrapTake_oldest team warp here goes out inside ready first).1 info posted
    rw [deliver_posted _ _ rfl rfl rfl team warp entry free out vector, if_neg (by simp [cECC, cCANCEL])] at taken
    exact ⟨_, taken, onlyWarp_updWarp .., warp_updWarp_self warp _⟩
  · obtain ⟨free, out, vector⟩ := clear
    obtain ⟨ready, first⟩ := old
    have taken := (asyncTrapTake_oldest team warp here goes out inside ready first).2 none_ posted
    rw [deliver_posted _ _ rfl rfl rfl team warp entry free out vector, if_pos (by simp [mkTrap, cCANCEL])] at taken
    refine ⟨_, taken, rfl, ?_, fun q other => ?_, fun q other => look_updWarp_ne (s.updTeam T _) _ other, ?_⟩
    · simp [State.team_updTeam, team]
    · simp [State.team_updTeam, other]
    · exact warp_updWarp_self (s := s.updTeam T _) warp _

end Sys2Proof.Machine

/-! PROOFS. Launches (spec/11, spec/20): a leaf that waits in LNCH with the record it has read. -/

namespace Sys2Proof.Machine

/-- A leaf of thread 0 that has read the record of one team and waited for room in the completion table. -/
def launchingLeaf : Entry := ⟨0, true, 1#32, 0#32, none, false, .launch 0 0 (List.replicate 64 0#8), 0, 0, false, false, none⟩

/-- Its warp: the registers are valid and hold no capability, and a load of slices 200 to 207 is on its way. -/
def launchingWarp : Warp := { emptyWarp with
  alloc := 512
  threads := [({ Thread.reset with valid := BitVec.allOnes 256 } : Thread).pend 0 0 0 200 8]
  entries := [launchingLeaf] }

/-- That leaf issues its LNCH again, and the completion table is empty. -/
def launchingState : State := { State.reset with
  issuer := some ⟨0, 0, 0⟩
  nextId := 1
  teams := [(0, bareTeam)]
  warps := [(warpKey 0 0, launchingWarp)] }

/-- What the leaf issues with. -/
def launchingCtx : Ctx := ⟨⟨0, 0, 0⟩, bareTeam, launchingWarp, launchingLeaf, Launch.none, [0], 0⟩

/-- The handle's operand. -/
def launchingHandle : Pos := Pos.src 1 (.reg .w128 32#9) true

theorem launchingState_ready : launchingState.Ready Guard.always
    [Pos.dst (.reg .w32 0#9) true, launchingHandle, Pos.src 2 (.imm 0#9) true, Pos.src 3 (.reg .w128 64#9) true]
    launchingCtx := ⟨rfl, by decide⟩

/-- The launch that the leaf read before is made, whatever the folio handle's register holds now. -/
theorem launchingState_lnch : ∃ u, exec (.lnch Guard.always (.reg .w32 0#9) (.reg .w128 32#9) (.imm 0#9) (.reg .w128 64#9)) launchingState = .next u
    ∧ (u.completion 0).state = .running :=
  ⟨_, rfl, by decide⟩

/-- A trap waits for the load, and makes no launch. -/
theorem launchingState_trapped (trap : Trap) : ((launchingState.issued.deliver launchingCtx.ref trap).completion 0).state = .free := by
  rw [State.deliver, show launchingState.issued.warpPending launchingCtx.ref.team launchingCtx.ref.warp = true by decide]
  rfl

theorem launchingCtx_untagged : launchingCtx.capTag launchingCtx.low launchingHandle = false := rfl

/-- Refutes O37: its first clause does not ask that the leaf reads its operands. A leaf that waits for room in the completion table has
read the handle and the record, and does not look at them again (R222, R353): in `launchingState` it makes its launch, and takes no CAPTAG,
while the handle's register holds no capability. -/
theorem not_launches : ¬ Obligations.Launches := by
  intro h
  obtain ⟨lnch, -⟩ := h launchingState Guard.always (.reg .w32 0#9) (.imm 0#9) (.reg .w128 32#9) (.reg .w128 64#9) launchingCtx 0 0
    ⟨⟨0#64, 0, 0, [], []⟩, false, false, false, none, 0, 0, 0, 0, 0⟩ ⟨0, 0, [], 0, 0, none, 0, []⟩ [] [] (fun _ => []) (fun _ => []) ⟨1, 0#9, 0, false, false, false, false, 0, 0, 0, 0, 0, 0⟩ 0
  obtain ⟨captag, -⟩ := lnch launchingState_ready
  obtain ⟨u, launched, running⟩ := launchingState_lnch
  obtain rfl := Host.Outcome.next.inj (launched.symm.trans (captag launchingCtx_untagged))
  exact absurd (running.symm.trans (launchingState_trapped _)) (by decide)

end Sys2Proof.Machine

/-! PROOFS. A register write that reaches past the last slice: the slices past it are not written (R46). -/

namespace Sys2Proof.Machine

theorem putSlices_clip (r : BitVec 2048) {s n : Nat} (v : Nat) (inside : s < 512) (past : 512 ≤ s + n) :
    putSlices r s n v = putSlices r s (512 - s) v := by
  refine BitVec.eq_of_getLsbD_eq fun i hi => ?_
  rw [getLsbD_putSlices _ _ _ _ _ (by omega), getLsbD_putSlices _ _ _ _ _ (by omega)]
  have same : (4 * s ≤ i ∧ i < 4 * (s + n)) ↔ (4 * s ≤ i ∧ i < 4 * (s + (512 - s))) := by omega
  simp only [same]

theorem putSlices_beyond (r : BitVec 2048) {s n : Nat} (v : Nat) (past : 512 ≤ s) (some_ : 0 < n) : putSlices r s n v = r := by
  refine BitVec.eq_of_getLsbD_eq fun i hi => ?_
  rw [getLsbD_putSlices _ _ _ _ _ some_, if_neg (by omega)]

theorem sliceMask_clip {s n : Nat} (past : 512 ≤ s + n) : sliceMask s n = sliceMask s (512 - s) := by
  refine BitVec.eq_of_getLsbD_eq fun i hi => ?_
  have same : inSlices s n i = inSlices s (512 - s) i := by
    simp only [inSlices]; congr 1; exact decide_eq_decide.mpr (by omega)
  rw [getLsbD_sliceMask, getLsbD_sliceMask, same]

theorem sliceMask_beyond {s : Nat} (n : Nat) (past : 512 ≤ s) : sliceMask s n = 0#512 := by
  refine BitVec.eq_of_getLsbD_eq fun i hi => ?_
  rw [getLsbD_sliceMask]
  simp [inSlices, show ¬ s ≤ i by omega]

theorem byteMask_clip {s n : Nat} (inside : s < 512) (past : 512 ≤ s + n) : byteMask s n = byteMask s (512 - s) := by
  refine BitVec.eq_of_getLsbD_eq fun b hb => ?_
  rw [getLsbD_byteMask, getLsbD_byteMask]
  exact decide_eq_decide.mpr (by omega)

theorem granuleMask_clip {s n : Nat} (inside : s < 512) (past : 512 ≤ s + n) : granuleMask s n = granuleMask s (512 - s) := by
  refine BitVec.eq_of_getLsbD_eq fun g hg => ?_
  have apart : n ≠ 0 ∧ 512 - s ≠ 0 := by omega
  rw [granuleMask, granuleMask, if_neg apart.1, if_neg apart.2, BitVec.getLsbD_ofNat, BitVec.getLsbD_ofNat, testBit_ones_shifted,
    testBit_ones_shifted]
  congr 2
  exact decide_eq_decide.mpr (by omega)

/-- A fold over a range stops where its step stops changing anything. -/
theorem foldl_range_clip {β : Type} (f : β → Nat → β) {m n : Nat} (le : m ≤ n) (idle : ∀ b i, m ≤ i → f b i = b) (b : β) :
    (List.range n).foldl f b = (List.range m).foldl f b := by
  induction n, le using Nat.le_induction with
  | base => rfl
  | succ n le ih => rw [List.range_succ, List.foldl_append, List.foldl_cons, List.foldl_nil, idle _ _ le, ih]

theorem plain_clip (th : Thread) {s n : Nat} (v : Nat) (inside : s < 512) (past : 512 ≤ s + n) :
    th.plain s n v = th.plain s (512 - s) v := by
  have even : ¬ (s + (512 - s)) % 2 = 1 := by omega
  have outer (r : BitVec 2048) : (if (s + n) % 2 = 1 then if th.valid.getLsbD ((s + n) / 2) then r else putSlices r (s + n) 1 0 else r) = r := by
    rw [putSlices_beyond r 0 past Nat.one_pos]; simp
  simp only [Thread.plain, outer, even, if_false, putSlices_clip _ v inside past, byteMask_clip inside past, granuleMask_clip inside past]

theorem write_clip_regs (th : Thread) (pick : Nat → Bool) {s n : Nat} (v : Nat) (inside : s < 512) (past : 512 ≤ s + n) :
    (th.write pick s n v).regs = (th.write pick s (512 - s) v).regs := by
  have le : 512 - s ≤ n := by omega
  have last (m : BitVec 512) : (List.range n).foldl (fun (m : BitVec 512) i => if pick (s + i) then m ||| sliceMask (s + i) 1 else m) m
      = (List.range (512 - s)).foldl (fun (m : BitVec 512) i => if pick (s + i) then m ||| sliceMask (s + i) 1 else m) m :=
    foldl_range_clip _ le (fun m i hi => by rw [sliceMask_beyond 1 (by omega)]; simp) m
  have back (keep : BitVec 512) (r : BitVec 2048) :
      (List.range n).foldl (fun r i => if keep.getLsbD (s + i) then putSlices r (s + i) 1 (th.raw (s + i) 1) else r) r
        = (List.range (512 - s)).foldl (fun r i => if keep.getLsbD (s + i) then putSlices r (s + i) 1 (th.raw (s + i) 1) else r) r :=
    foldl_range_clip _ le (fun r i hi => by rw [putSlices_beyond r _ (by omega) Nat.one_pos]; simp) r
  unfold Thread.write
  split
  · rw [plain_clip th v inside past]
  · simp only [last, back, sliceMask_clip past, plain_clip th v inside past]

theorem raw_beyond (th : Thread) {k : Nat} (past : 512 ≤ k) : th.raw k 1 = 0 := by
  rw [raw_one, Nat.div_eq_of_lt, Nat.zero_mod]
  exact BitVec.toNat_lt_twoPow_of_le (by omega)

/-- A write without lookahead of a value of one digit, wherever it ends. -/
theorem write_slices (th : Thread) (pick : Nat → Bool) (pc : Word) {s n v : Nat} (inside : s < 512) (some_ : 0 < n) (small : v < 16) :
    Slices th (th.write pick s n v) pc 0 s n v := by
  by_cases within : s + n ≤ 512
  · simpa [Thread.writeAhead] using writeAhead_slices th pick pc 0 s n v some_ within
  · have past : 512 ≤ s + n := by omega
    have clipped : Slices th (th.write pick s (512 - s) v) pc 0 s (512 - s) v := by
      simpa [Thread.writeAhead] using writeAhead_slices th pick pc 0 s (512 - s) v (by omega) (by omega)
    have raw (k : Nat) : (th.write pick s n v).raw k 1 = (th.write pick s (512 - s) v).raw k 1 := by
      rw [raw_one, raw_one, write_clip_regs th pick v inside past]
    have same (k : Nat) (hk : k < 512) (out : inSlices s n k = false) :
        inSlices s (512 - s) k = false ∧ th.halfOf s (512 - s) k = th.halfOf s n k := by
      have out' : ¬ (s ≤ k ∧ k < s + n) := by simpa [inSlices] using out
      refine ⟨by simp only [inSlices, Bool.and_eq_false_iff, decide_eq_false_iff_not]; omega, ?_⟩
      simp only [Thread.halfOf]
      have first : k / 2 = s / 2 ∨ (k / 2 ≠ (s + (512 - s) - 1) / 2 ∧ k / 2 ≠ (s + n - 1) / 2) := by omega
      rcases first with first | ⟨one, two⟩
      · simp [first]
      · rw [beq_eq_false_iff_ne.mpr one, beq_eq_false_iff_ne.mpr two]
    constructor
    · intro k hk
      by_cases real : s + k < 512
      · rw [raw]; exact clipped.digits k (by omega)
      · left
        have zero : v / 16 ^ k = 0 := Nat.div_eq_of_lt (lt_of_lt_of_le small (Nat.le_self_pow (by omega) 16))
        rw [raw_beyond _ (by omega), zero]
    · intro k hk out half
      obtain ⟨out', half'⟩ := same k hk out
      rw [raw]; exact clipped.halves k hk out' (half'.trans half)
    · intro k hk out half
      obtain ⟨out', half'⟩ := same k hk out
      rw [raw]; exact clipped.others k hk out' (half'.trans half)
    · exact write_valid ..
    · intro none_; rw [write_noWins _ _ _ _ _ none_]; rfl
    · intro none_ _; rw [write_noWins _ _ _ _ _ none_]; exact none_
    · exact fun _ ahead => absurd rfl ahead

end Sys2Proof.Machine

/-! PROOFS. Completion entries (R39 to R43, R228, R333): what an entry's end does at its level, then the leaves that wait for it. -/

namespace Sys2Proof.Machine

/-! ### The leaves that wait -/

/-- No leaf of the warp waits for a handle. -/
def Warp.silentOn (h : Word) (x : Warp) : Prop := ∀ y ∈ x.entries, ∀ o m, y.wait ≠ .entry h o m

/-- What an entry's end does to one entry of a warp's table (R333). -/
def State.releaseEntry (h : Word) (code : Nat) (p : Nat × Warp) (s : State) (e : Entry) : State :=
  match e.wait with
  | .entry g d m =>
    if g = h then
      let s := s.updWarp p.2.team p.2.index (fun w =>
        match d with
        | .uni k => w.setUniIn e.handler k.toNat code
        | .reg q st => w.writeIn s.fresh m st.toNat q.slices code
        | .imm _ => w)
      ((({ s with fresh := s.fresh + 1 } : State).complete ⟨p.2.team, p.2.index, e.id⟩ 8).acquire p.2.team
        (objectName 4 h.toNat)).joinEngines p.2.team
    else s
  | _ => s

theorem releaseWaiters_eq (s : State) (h : Word) (code : Nat) :
    s.releaseWaiters h code = s.warps.foldl (fun s p => p.2.entries.foldl (State.releaseEntry h code p) s) s := rfl

theorem releaseEntry_silent {h : Word} {e : Entry} (silent : ∀ o m, e.wait ≠ .entry h o m) (code : Nat) (p : Nat × Warp) (s : State) :
    s.releaseEntry h code p e = s := by
  unfold State.releaseEntry
  split
  next g d m wait => rw [if_neg fun same => silent d m (by rw [wait, same])]
  next => rfl

theorem foldl_idle {α β : Type} {f : β → α → β} {l : List α} (idle : ∀ b, ∀ x ∈ l, f b x = b) (b : β) : l.foldl f b = b := by
  induction l with
  | nil => rfl
  | cons x l ih => rw [List.foldl_cons, idle b x List.mem_cons_self, ih fun b y hy => idle b y (List.mem_cons_of_mem _ hy)]

theorem releaseTable_silent {h : Word} {p : Nat × Warp} (silent : p.2.silentOn h) (code : Nat) (s : State) :
    p.2.entries.foldl (State.releaseEntry h code p) s = s :=
  foldl_idle (fun _ e inside => releaseEntry_silent (silent e inside) code p _) s

theorem releaseWaiters_silent {s : State} {h : Word} (silent : ∀ p ∈ s.warps, p.2.silentOn h) (code : Nat) : s.releaseWaiters h code = s := by
  rw [releaseWaiters_eq]
  exact foldl_idle (fun _ p inside => releaseTable_silent (silent p inside) code _) s

/-- One leaf waits: it alone is released. -/
theorem releaseWaiters_one {s : State} {h : Word} {bw aw : Tbl Warp} {p : Nat × Warp} {be ae : List Entry} {e : Entry}
    (warps : s.warps = bw ++ [p] ++ aw) (others : ∀ y ∈ bw ++ aw, y.2.silentOn h) (entries : p.2.entries = be ++ [e] ++ ae)
    (rest : ∀ y ∈ be ++ ae, ∀ o m, y.wait ≠ .entry h o m) (code : Nat) : s.releaseWaiters h code = s.releaseEntry h code p e := by
  have quiet (l : Tbl Warp) (sub : ∀ y ∈ l, y ∈ bw ++ aw) (u : State) :
      l.foldl (fun s p => p.2.entries.foldl (State.releaseEntry h code p) s) u = u :=
    foldl_idle (fun _ y inside => releaseTable_silent (others y (sub y inside)) code _) u
  have calm (l : List Entry) (sub : ∀ y ∈ l, y ∈ be ++ ae) (u : State) : l.foldl (State.releaseEntry h code p) u = u :=
    foldl_idle (fun _ y inside => releaseEntry_silent (rest y (sub y inside)) code p _) u
  rw [releaseWaiters_eq, warps, List.foldl_append, List.foldl_append, quiet bw (fun _ => List.mem_append_left _),
    quiet aw (fun _ => List.mem_append_right _), List.foldl_cons, List.foldl_nil, entries, List.foldl_append, List.foldl_append,
    calm be (fun _ => List.mem_append_left _), calm ae (fun _ => List.mem_append_right _), List.foldl_cons, List.foldl_nil]

/-- An acquire and an engine join change cores alone. -/
theorem acquire_joinEngines_frame (s : State) (team : Nat) (name : Word64) :
    ∃ cores, (s.acquire team name).joinEngines team = { s with cores := cores } := by
  unfold State.joinEngines State.acquire
  cases found : s.team? team with
  | none => exact ⟨s.cores, by simp [found]⟩
  | some t => exact ⟨_, by simp only [State.updCore_teamAt, found]; rfl⟩

/-- The leaf released has its code, and ends its CWAIT. -/
theorem releaseEntry_waits {s : State} {h : Word} {p : Nat × Warp} {e : Entry} {st : BitVec 9} {m : BitVec 32}
    (wait : e.wait = .entry h (.reg .w32 st) m) (code : Nat) :
    ∃ cores, s.releaseEntry h code p e = { (s.updWarp p.2.team p.2.index fun w => (w.writeIn s.fresh m st.toNat 8 code).finish e.id 8) with
      fresh := s.fresh + 1, cores := cores } := by
  obtain ⟨cores, frame⟩ := acquire_joinEngines_frame
    (({ (s.updWarp p.2.team p.2.index fun w => w.writeIn s.fresh m st.toNat 8 code) with fresh := s.fresh + 1 } : State).complete
      ⟨p.2.team, p.2.index, e.id⟩ 8) p.2.team (objectName 4 h.toNat)
  refine ⟨cores, ?_⟩
  simp only [State.releaseEntry, wait, if_true]
  refine frame.trans ?_
  rw [← updWarp_updWarp s p.2.team p.2.index (fun w => w.writeIn s.fresh m st.toNat 8 code) (fun w => w.finish e.id 8)]
  rfl

/-- The threads after one digit is written in those of a mask. -/
theorem writeIn_threads (w : Warp) (fresh : Nat) (m : BitVec 32) {st n v : Nat} (inside : st < 512) (some_ : 0 < n) (small : v < 16) :
    ∀ i < w.threads.length, if m.getLsbD i then Slices (w.thread i) ((w.writeIn fresh m st n v).thread i) 0#32 0 st n v
      else (w.writeIn fresh m st n v).thread i = w.thread i := by
  intro i hi
  rw [Warp.writeIn, thread_map, if_pos hi]
  by_cases named : m.getLsbD i = true
  · simp only [named, if_true]
    exact write_slices _ _ 0#32 inside some_ small
  · simp [named]

/-! ### The end at each level -/

theorem memberEnd_frame (s : State) (parent : Nat) (st : EntryState) :
    ∃ completions, s.memberEnd parent st = { s with completions := completions } := by
  unfold State.memberEnd
  split
  · exact ⟨s.completions, rfl⟩
  · exact ⟨_, rfl⟩

/-- The entry above: COUNT falls and the flags of R40 are kept. -/
theorem completion_memberEnd (s : State) {parent : Nat} (real : parent ≠ noParent) (st : EntryState) (i : Nat) :
    (s.memberEnd parent st).completion i = if i = parent then { s.completion parent with
      count := (s.completion parent).count - 1
      anyFault := (s.completion parent).anyFault || st == .faulted
      anyCancel := (s.completion parent).anyCancel || st == .cancelled } else s.completion i := by
  rw [State.memberEnd, if_neg real, State.countDown]
  by_cases same : i = parent <;> simp [State.completion_updCompletion, same]

/-- The member that ends keeps its own state, should it stand above itself. -/
theorem memberEnd_state (s : State) (parent : Nat) (st : EntryState) (i : Nat) :
    ((s.memberEnd parent st).completion i).state = (s.completion i).state ∧ ((s.memberEnd parent st).completion i).left = (s.completion i).left := by
  by_cases real : parent = noParent
  · rw [State.memberEnd, if_pos real]; exact ⟨rfl, rfl⟩
  · rw [completion_memberEnd s real]
    by_cases same : i = parent <;> simp [same]

/-- A launch without a node, a graph, and a phase that no other follows end as members of the entry above. -/
theorem entryEnd_member {s : State} {i : Nat} {e : Completion} {st : EntryState}
    (kind : (e.level = 0#2 ∧ ∀ L, Tbl.look i s.launches = some L → L.node = none ∧ L.slot = none) ∨ e.level = 1#2
      ∨ (e.level = 2#2 ∧ ∃ y, Tbl.look e.parent s.jobs = some y ∧ (st ≠ .done ∨ y.phase + 1 = y.nph))) :
    ∃ dies, s.entryEnd i e st = .ok (({ s with dies := dies } : State).memberEnd e.parent st) := by
  rcases kind with ⟨level, plain⟩ | level | ⟨level, y, job, last⟩
  · refine ⟨(s.mapDies (fun d => d.unbind (fun b => b.launch == i))).dies, ?_⟩
    have node : (Tbl.look i s.launches).bind Launch.node = none := by
      cases found : Tbl.look i s.launches with
      | none => rfl
      | some L => exact (plain L found).1
    have slot : (Tbl.look i s.launches).bind Launch.slot = none := by
      cases found : Tbl.look i s.launches with
      | none => rfl
      | some L => exact (plain L found).2
    simp [State.entryEnd, level, node, State.freeSlot, slot]
    rfl
  · exact ⟨s.dies, by simp [State.entryEnd, level]⟩
  · refine ⟨s.dies, ?_⟩
    have stays : (st == .done && y.phase + 1 < y.nph && !(s.completion e.parent).cxr) = false := by
      rcases last with other | last
      · simp [other]
      · simp [last]
    simp only [State.entryEnd, level, job]
    simp [stays]

/-- A job writes its STATUS and raises its queue's vector. -/
theorem entryEnd_job {s : State} {i : Nat} {e : Completion} {j : Job} (st : EntryState) (level : e.level = 3#2)
    (job : Tbl.look i s.jobs = some j) :
    s.entryEnd i e st = .ok ((s.place j.rec_ (natLe 8 (st.code + 8 + (handleOf i e).toNat * 2 ^ 32))).raiseMsix
      ((s.word (0x1001 + 4 * j.queue)).toNat / 2 ^ 16 % 2 ^ 11)) := by
  simp [State.entryEnd, level, job, bitsOf]

/-- The state in which an entry's end acts: its final state stands, and the clock has moved on. -/
def State.ended (s : State) (idx : Nat) : State :=
  ({ s with clock := s.clock + 1 } : State).updCompletion idx (fun e => { e with state := (s.completion idx).final, left := s.clock })

/-- An entry whose COUNT is zero completes; no message waits. -/
theorem entryComplete_eq {s u : State} {idx : Nat} (running : (s.completion idx).state = .running) (count : (s.completion idx).count = 0)
    (ends : (s.ended idx).entryEnd idx (s.completion idx) (s.completion idx).final = .ok u)
    (inbox : (u.releaseWaiters (handleOf idx (s.completion idx)) (s.completion idx).final.code).inbox = []) :
    exec (.entryComplete idx) s = .next (u.releaseWaiters (handleOf idx (s.completion idx)) (s.completion idx).final.code) := by
  change execEntryComplete idx s = _
  have ends' : (({ s with clock := s.clock + 1 } : State).updCompletion idx fun e =>
      { e with state := (s.completion idx).final, left := s.clock }).entryEnd idx (s.completion idx) (s.completion idx).final = .ok u := ends
  simp only [execEntryComplete, State.tick, running, count, ends', inbox, State.retryInbox]
  simp

/-- The end of an entry as a member changes the dies and the completion table alone. -/
theorem ended_member {s : State} {idx : Nat} {st : EntryState}
    (kind : ((s.completion idx).level = 0#2 ∧ ∀ L, Tbl.look idx s.launches = some L → L.node = none ∧ L.slot = none)
      ∨ (s.completion idx).level = 1#2
      ∨ ((s.completion idx).level = 2#2 ∧ ∃ y, Tbl.look (s.completion idx).parent s.jobs = some y ∧ (st ≠ .done ∨ y.phase + 1 = y.nph)))
    (final : st = (s.completion idx).final) :
    ∃ u, (s.ended idx).entryEnd idx (s.completion idx) st = .ok u ∧ u.warps = s.warps ∧ u.teams = s.teams ∧ u.mem = s.mem
      ∧ u.inbox = s.inbox ∧ u.fresh = s.fresh ∧ (u.completion idx).state = st ∧ (u.completion idx).left = s.clock
      ∧ ((s.completion idx).parent ≠ 0x3FFF → (s.completion idx).parent ≠ idx →
        u.completion (s.completion idx).parent = { s.completion (s.completion idx).parent with
          count := (s.completion (s.completion idx).parent).count - 1
          anyFault := (s.completion (s.completion idx).parent).anyFault || st == .faulted
          anyCancel := (s.completion (s.completion idx).parent).anyCancel || st == .cancelled }) := by
  obtain ⟨dies, ends⟩ := entryEnd_member (s := s.ended idx) (i := idx) kind
  obtain ⟨completions, frame⟩ := memberEnd_frame ({ s.ended idx with dies := dies }) (s.completion idx).parent st
  have self : ({ s.ended idx with dies := dies } : State).completion idx
      = { s.completion idx with state := (s.completion idx).final, left := s.clock } := by
    change (s.ended idx).completion idx = _
    rw [State.ended, State.completion_updCompletion, if_pos rfl]; rfl
  obtain ⟨state, left⟩ := memberEnd_state ({ s.ended idx with dies := dies }) (s.completion idx).parent st idx
  refine ⟨_, ends, by rw [frame]; rfl, by rw [frame]; rfl, by rw [frame]; rfl, by rw [frame]; rfl, by rw [frame]; rfl,
    by rw [state, self, final], by rw [left, self], fun real apart => ?_⟩
  have up : ({ s.ended idx with dies := dies } : State).completion (s.completion idx).parent = s.completion (s.completion idx).parent := by
    change (s.ended idx).completion _ = _
    rw [State.ended, State.completion_updCompletion, if_neg apart]; rfl
  rw [completion_memberEnd _ real, if_pos rfl, up]

/-- The copy node of a graph that starts no other: it ends DONE. -/
theorem graphCopyNodeComplete_done {s : State} {idx node : Nat} {x : Xfer} {G : Graph} {n : Node}
    (copy : s.xfers.find? (fun y => y.kind == .node idx node) = some x) (graph : Tbl.look idx s.graphs = some G)
    (named : G.nodes[node]? = some n) (goes : x.stopped = false) (landed : ∀ sl ∈ x.slices, sl.len ≤ (sl.landed.map Prod.snd).sum)
    (leaf : n.succs = []) :
    exec (.graphCopyNodeComplete idx node) s
      = .next (((s.delXfer x.id).updNode idx node (fun n => { n with finished := true })).memberEnd idx .done) := by
  have whole : x.slices.all XSlice.complete = true := by
    refine List.all_eq_true.mpr fun sl inside => ?_
    rw [XSlice.complete, XSlice.landedBytes, ← List.sum_eq_foldl]
    exact decide_eq_true (landed sl inside)
  obtain ⟨completions, frame⟩ := memberEnd_frame ((s.delXfer x.id).updNode idx node (fun n => { n with finished := true })) idx .done
  have graph' : Tbl.look idx (((s.delXfer x.id).updNode idx node (fun n => { n with finished := true })).memberEnd idx .done).graphs
      = some { G with nodes := modAt node (fun n => { n with finished := true }) G.nodes } := by
    rw [frame]
    change Tbl.look idx (Tbl.alter idx _ s.graphs) = _
    rw [Tbl.look_alter, if_pos rfl, graph]; rfl
  have none_ : (((modAt node (fun n : Node => { n with finished := true }) G.nodes)[node]?).map Node.succs).getD [] = [] := by
    rw [getElem?_modAt, if_pos rfl, named]; exact leaf
  change execGraphCopyNodeComplete idx node s = _
  simp only [execGraphCopyNodeComplete, copy, goes, whole, State.nodeEnd, Bool.false_eq_true, if_false, graph', none_]
  simp [State.startNodes]

theorem look_append_of_ne {α : Type} {k : Nat} {l : Tbl α} (other : ∀ y ∈ l, y.1 ≠ k) (r : Tbl α) : Tbl.look k (l ++ r) = Tbl.look k r := by
  induction l with
  | nil => rfl
  | cons y l ih =>
    obtain ⟨i, v⟩ := y
    rw [List.cons_append, Tbl.look, if_neg fun same => other (i, v) List.mem_cons_self same,
      ih fun y inside => other y (List.mem_cons_of_mem _ inside)]

theorem physRead_raiseMsix (s : State) (vec pa n : Nat) : (s.raiseMsix vec).physRead pa n = s.physRead pa n := rfl

theorem keeps_raiseMsix {s u : State} {pa n : Nat} (keeps : KeepsBytes s u pa n) (vec : Nat) : KeepsBytes s (u.raiseMsix vec) pa n := keeps

theorem place_rest {s : State} (still : ∀ d, (s.die d).monitors = []) (pa : Nat) (bytes : List Byte) :
    (s.place pa bytes).warps = s.warps ∧ (s.place pa bytes).inbox = s.inbox ∧ (s.place pa bytes).completions = s.completions
      ∧ (s.place pa bytes).msix = s.msix := by
  obtain ⟨tags, f, placed⟩ := place_of_silent still pa bytes
  rw [placed, State.physWrite_eq]
  exact ⟨rfl, rfl, rfl, rfl⟩

/-- The end of a job: its STATUS is written, its vector raised, and nothing of the warps changes. -/
theorem ended_job {s : State} {idx : Nat} {j : Job} (level : (s.completion idx).level = 3#2) (job : Tbl.look idx s.jobs = some j)
    (apart : s.Apart j.rec_ 8) (still : ∀ d, (s.die d).monitors = []) :
    ∃ u, (s.ended idx).entryEnd idx (s.completion idx) (s.completion idx).final = .ok u ∧ u.warps = s.warps ∧ u.inbox = s.inbox
      ∧ (u.completion idx).state = (s.completion idx).final
      ∧ u.physRead j.rec_ 8 = natLe 8 ((s.completion idx).final.code + 8 + (handleOf idx (s.completion idx)).toNat * 2 ^ 32)
      ∧ KeepsBytes s u j.rec_ 8 ∧ u.msix = (s.word (0x1001 + 4 * j.queue)).toNat / 2 ^ 16 % 2 ^ 11 :: s.msix := by
  have ends := entryEnd_job (s := s.ended idx) (s.completion idx).final level job
  have still' : ∀ d, ((s.ended idx).die d).monitors = [] := still
  have length := length_natLe 8 ((s.completion idx).final.code + 8 + (handleOf idx (s.completion idx)).toNat * 2 ^ 32)
  revert ends length
  generalize natLe 8 ((s.completion idx).final.code + 8 + (handleOf idx (s.completion idx)).toNat * 2 ^ 32) = bytes
  intro ends length
  have apart' : (s.ended idx).Apart j.rec_ bytes.length := by rw [length]; exact apart
  have read := physRead_place still' apart'
  have keeps := keeps_place still' j.rec_ bytes
  obtain ⟨warps, inbox, completions, msix⟩ := place_rest still' j.rec_ bytes
  rw [length] at read keeps
  have entry : ((s.ended idx).completion idx).state = (s.completion idx).final := by
    rw [State.ended, State.completion_updCompletion, if_pos rfl]
  rw [State.completion, ← completions] at entry
  generalize (s.ended idx).place j.rec_ bytes = placed at *
  exact ⟨_, ends, warps, inbox, entry, read, keeps, congrArg (List.cons _) msix⟩

/-- Settles O38: the entry's end at its level, then the release of the leaf that waits. -/
theorem completes : Obligations.Completes := by
  unfold Obligations.Completes
  intro s idx node j x T W w e q st m bw aw be ae k final code h p upward silent plain
  have coded : code = k.final.code := by
    change (match k.final with | .free => 0 | .running => 1 | .done => 2 | .cancelled => 3 | .faulted => 4) = k.final.code
    cases k.final <;> rfl
  refine ⟨fun ⟨inbox, running, count, kind⟩ => ?_, fun inbox running count level job quiet apart still => ?_,
    fun G n copy graph named goes landed leaf real => ?_⟩
  · obtain ⟨u, ends, warps, teams, mem, inbox', fresh, state, left, up⟩ := ended_member kind rfl
    refine ⟨fun quiet => ?_, fun table others team index entries alone wait width => ?_⟩
    · have same := releaseWaiters_silent (s := u) (h := h) (by rw [warps]; exact quiet) k.final.code
      have done := entryComplete_eq running count ends (by rw [same, inbox', inbox])
      rw [same] at done
      exact ⟨u, done, state, left, up, mem, warps, teams⟩
    · subst width
      have one := releaseWaiters_one (s := u) (h := h) (warps.trans table) (fun y inside => (others y inside).1) entries
        (fun y inside => (alone y inside).2) k.final.code
      obtain ⟨cores, released⟩ := releaseEntry_waits (s := u) (p := (warpKey T W, w)) wait k.final.code
      rw [released] at one
      have there : u.warp? T W = some w := by
        rw [State.warp?, warps, table, List.append_assoc, look_append_of_ne fun y inside => (others y (List.mem_append_left _ inside)).2]
        simp [Tbl.look]
      have done := entryComplete_eq running count ends (by rw [one]; exact inbox'.trans inbox)
      rw [one] at done
      refine ⟨_, w.writeIn u.fresh m st.toNat 8 k.final.code, done, state, up, mem, ?_, rfl, by simp [Warp.writeIn], ?_⟩
      · change (u.updWarp w.team w.index _).warp? T W = _
        rw [team, index, warp_updWarp_self there]
      · rw [coded]
        exact writeIn_threads w u.fresh m st.isLt (by omega) (by cases k.final <;> decide)
  · obtain ⟨u, ends, warps, inbox', state, read, keeps, msix⟩ := ended_job level job apart still
    have same := releaseWaiters_silent (s := u) (h := h) (by rw [warps]; exact quiet) k.final.code
    have done := entryComplete_eq running count ends (by rw [same, inbox', inbox])
    rw [same] at done
    exact ⟨u, done, state, coded ▸ read, keeps, msix, warps⟩
  · have real' : idx ≠ noParent := real
    refine ⟨_, graphCopyNodeComplete_done copy graph named goes landed leaf, ?_⟩
    obtain ⟨completions, frame⟩ := memberEnd_frame ((s.delXfer x.id).updNode idx node (fun n => { n with finished := true })) idx .done
    rw [completion_memberEnd _ real', if_pos rfl]
    refine ⟨by rw [frame]; rfl, by rw [frame]; rfl, by rw [frame]; rfl, rfl, Bool.or_false _, Bool.or_false _⟩

end Sys2Proof.Machine

/-! PROOFS. Reductions and page walks (spec/09, spec/12): a reduction performed at its home, one walk's end, and the walk of a four-level
table. -/

namespace Sys2Proof.Machine

/-! ### What a write at its home leaves of the reductions, the completion table and AFLG -/

/-- The reductions on their way, the completion table and each die's AFLG. -/
structure Tallies where
  reds : List RedRec
  completions : Tbl Completion
  aflg : Nat → Word64

def State.tallies (s : State) : Tallies := ⟨s.reds, s.completions, fun d => s.dieWord d 0x104⟩

theorem foldl_keeps {α β : Type} (g : State → β) {f : State → α → State} (keeps : ∀ s x, g (f s x) = g s) (l : List α) (s : State) :
    g (l.foldl f s) = g s := by
  induction l generalizing s with
  | nil => rfl
  | cons x r ih => rw [List.foldl_cons, ih, keeps]

theorem tallies_updDie (s : State) (d : Nat) {f : Die → Die} (keeps : ∀ x, (f x).words = x.words) : (s.updDie d f).tallies = s.tallies := by
  have word (e : Nat) : (s.updDie d f).dieWord e 0x104 = s.dieWord e 0x104 := by
    rw [State.dieWord, State.die_updDie]
    split
    next same => rw [same, keeps]; rfl
    next => rfl
  simp only [State.tallies, word]
  rfl

theorem tallies_mapDies (s : State) {f : Die → Die} (keeps : ∀ x, (f x).words = x.words) : (s.mapDies f).tallies = s.tallies := by
  have words (e : Nat) : ((s.mapDies f).die e).words = (s.die e).words := by
    rw [die_mapDies, State.die, Tbl.get]
    cases Tbl.look e s.dies with
    | none => rfl
    | some x => exact keeps x
  simp only [State.tallies, State.dieWord, words]
  rfl

theorem tallies_setDieWord (s : State) (d : Nat) {n : Nat} (v : Word64) (other : 0x104 ≠ n) : (s.setDieWord d n v).tallies = s.tallies := by
  have word (e : Nat) : (s.setDieWord d n v).dieWord e 0x104 = s.dieWord e 0x104 := by
    rw [State.dieWord_setDieWord, if_neg fun h => other h.2]
  simp only [State.tallies, word]
  rfl

theorem tallies_bumpDie (s : State) (d : Nat) {n : Nat} (k : Nat) (other : 0x104 ≠ n) : (s.bumpDie d n k).tallies = s.tallies :=
  tallies_setDieWord s d _ other

theorem tallies_countReq (s : State) (die : Nat) (l : LineAt) : (s.countReq die l).tallies = s.tallies := by
  simp only [State.countReq]
  split
  · rfl
  · split
    · exact tallies_bumpDie s die 1 (by decide)
    · rw [tallies_updDie _ _ (f := fun d => Die.countPage d _ _ _) fun _ => rfl, tallies_bumpDie _ _ 1 (by decide),
        tallies_bumpDie _ _ 1 (by decide)]

theorem tallies_touchHome (s : State) (l : LineAt) : (s.touchHome l).tallies = s.tallies := by
  simp only [State.touchHome]
  split
  · split
    · rfl
    · split
      · rw [tallies_setDieWord _ _ _ (by omega), tallies_updDie]
        exact fun _ => rfl
      · exact tallies_updDie _ _ fun _ => rfl
  · rfl

theorem tallies_noteDirty (s : State) (cells : List Nat) : (s.noteDirty cells).tallies = s.tallies := by
  unfold State.noteDirty
  split
  · exact tallies_mapDies _ fun _ => rfl
  · rfl

theorem tallies_satisfy (s : State) (m : Monitor) : (s.satisfy m).tallies = s.tallies := by
  have acquired (s : State) (team : Nat) (name : Word64) : (s.acquire team name).tallies = s.tallies := by
    unfold State.acquire; split <;> rfl
  have woken (s : State) (team : Nat) : (s.wakeSwapped team).tallies = s.tallies := by
    unfold State.wakeSwapped
    split
    · split <;> rfl
    · rfl
  simp only [State.satisfy]
  split
  · split
    · rw [woken, acquired]
      split <;> rfl
    · rfl
  · rfl

theorem tallies_grantMonitors (s : State) (die fuel : Nat) : (s.grantMonitors die fuel).tallies = s.tallies := by
  induction fuel generalizing s with
  | zero => rfl
  | succ fuel ih =>
    simp only [State.grantMonitors]
    split
    · rfl
    · split
      · rfl
      · split
        · rw [ih, tallies_satisfy, tallies_updDie]
          exact fun _ => rfl
        · rw [ih, tallies_updDie]
          exact fun _ => rfl

theorem tallies_evalMonitors (s : State) (written : List Nat) : (s.evalMonitors written).tallies = s.tallies := by
  refine foldl_keeps _ (fun s d => foldl_keeps _ (fun s m => ?_) _ _) _ _
  simp only
  split
  · rw [tallies_grantMonitors, tallies_satisfy, tallies_updDie]
    exact fun _ => rfl
  · rfl

theorem tallies_writeHome (s : State) (l : List (Nat × Byte)) : (s.writeHome l).tallies = s.tallies := by
  obtain ⟨mem, tags, laid⟩ := layBytes_eq s l
  have same : (s.layBytes l).tallies = s.tallies := by rw [laid]; rfl
  simp only [State.writeHome]
  rw [tallies_evalMonitors, tallies_noteDirty]
  exact same

theorem homes_countReq (s : State) (die : Nat) (l : LineAt) : (s.countReq die l).homes = s.homes := by
  simp only [State.countReq]
  split
  · rfl
  · split <;> rfl

/-! ### The element at its home (R156, R246, R366) -/

/-- The word of a launch's fault lies apart from the one that places the second tier. -/
theorem cell?_launchFault (s : State) (i : Nat) (info : Word64) (a : Nat) : (s.launchFault i info).cell? a = s.cell? a := by
  have tier : (s.launchFault i info).word 0x12 = s.word 0x12 := by
    simp only [State.launchFault]
    split
    · rfl
    · change (s.setWord (0x4000 + i) info).word 0x12 = _
      rw [State.word_setWord, if_neg (by omega)]
  have ports : (s.launchFault i info).ports = s.ports := by
    simp only [State.launchFault]; split <;> rfl
  have cap (p : Nat) : (s.launchFault i info).portCap p = s.portCap p := by rw [State.portCap, ports]; rfl
  have ways : (s.launchFault i info).tierWays = s.tierWays := by rw [State.tierWays, tier]; rfl
  have group (j : Nat) : (s.launchFault i info).groupCap j = s.groupCap j := by simp only [State.groupCap, ways, cap]
  have base (j : Nat) : (s.launchFault i info).groupBase j = s.groupBase j := by
    rw [State.groupBase, show (s.launchFault i info).groupCap = s.groupCap from funext group]; rfl
  have cell (off : Nat) : (s.launchFault i info).tierCell off = s.tierCell off := by
    simp only [State.tierCell, ways, group, base]
  simp only [State.cell?, cell]

theorem physByte_launchFault (s : State) (i : Nat) (info : Word64) (a : Nat) : (s.launchFault i info).physByte a = s.physByte a := by
  have mem : (s.launchFault i info).mem = s.mem := by simp only [State.launchFault]; split <;> rfl
  rw [State.physByte, State.physByte, cell?_launchFault, mem]

theorem physRead_launchFault (s : State) (i : Nat) (info : Word64) (a n : Nat) : (s.launchFault i info).physRead a n = s.physRead a n := by
  simp only [State.physRead, physByte_launchFault]

theorem natLe_mod (n v : Nat) : natLe n (v % 2 ^ (8 * n)) = natLe n v := by
  refine List.map_congr_left fun i inside => ?_
  have hi := List.mem_range.mp inside
  refine BitVec.eq_of_getLsbD_eq fun b hb => ?_
  rw [BitVec.getLsbD_ofNat, BitVec.getLsbD_ofNat, Nat.testBit_div_two_pow, Nat.testBit_div_two_pow, Nat.testBit_mod_two_pow,
    decide_eq_true (show b + 8 * i < 8 * n by omega), Bool.true_and]

/-- What an integer reduction writes, by its operator (R245). -/
def redInteger (op : RedOp) (t : Ty) (old a : Nat) : Nat :=
  match op with
  | .add => (old + a) % 2 ^ t.bits
  | .min => if intVal t.isSigned t.bits old ≤ intVal t.isSigned t.bits a then old else a
  | .max => if intVal t.isSigned t.bits old ≤ intVal t.isSigned t.bits a then a else old
  | .and => old &&& a
  | .or => old ||| a
  | .xor => old ^^^ a

theorem natLe_redApply {op : RedOp} {t : Ty} {old a n : Nat} (integer : t.fmt = none) (bytes : t.bits = 8 * n) :
    natLe n (redApply op t old a).1 = natLe n (redInteger op t old a) := by
  cases op with
  | add => rw [redApply_add integer]; rfl
  | min =>
    simp only [redApply, integer, redInteger, min_def]
    split <;> rw [wrap_intVal, bytes, natLe_mod]
  | max =>
    simp only [redApply, integer, redInteger, max_def]
    split <;> rw [wrap_intVal, bytes, natLe_mod]
  | and => simp [redApply, integer, redInteger]
  | or => simp [redApply, integer, redInteger]
  | xor => simp [redApply, integer, redInteger]

/-- An abandoned element stays, and its launch has faulted. -/
theorem reduceAt_abandoned {s : State} {launch va pa a : Nat} {op : RedOp} {t : Ty}
    (bad : t = .f32 ∧ isAbandoned (leNat (s.physRead pa (accBytes t.bits))) = true) :
    s.reduceAt launch va op t pa a = s.launchFault launch (s.refusedWord va true) := by
  rw [State.reduceAt, if_pos (by simp [bad.1, ← bad.2])]

/-- Every other element is updated in one write, and its flags are raised. -/
theorem reduceAt_applied {s : State} {launch va pa a : Nat} {op : RedOp} {t : Ty}
    (sound : ¬ (t = .f32 ∧ isAbandoned (leNat (s.physRead pa (accBytes t.bits))) = true)) :
    let r := redApply op t (leNat (s.physRead pa (accBytes t.bits))) a
    s.reduceAt launch va op t pa a = (s.writeHome (valueBytes pa (accBytes t.bits) r.1)).raiseAflg (homeOf pa) r.2 := by
  rw [State.reduceAt, if_neg (by simpa using sound)]

theorem homes_raiseAflg (s : State) (d : Nat) (f : Flags) : (s.raiseAflg d f).homes = s.homes := by
  unfold State.raiseAflg; split <;> rfl

/-- Flags raised stand in the die's AFLG beside those of before. -/
theorem aflg_raiseAflg (s : State) (d : Nat) (f : Flags) : ∀ b < 5,
    ((s.raiseAflg d f).dieWord d 0x104).getLsbD b = ((s.dieWord d 0x104).getLsbD b || f.getLsbD b) := by
  intro b hb
  unfold State.raiseAflg
  split
  next none_ => simp [none_]
  next => simp [State.dieWord_setDieWord, hb, show b < 64 by omega]

theorem raiseAflg_rest (s : State) (d : Nat) (f : Flags) :
    (s.raiseAflg d f).reds = s.reds ∧ (s.raiseAflg d f).completions = s.completions := by
  unfold State.raiseAflg; split <;> exact ⟨rfl, rfl⟩

/-- A value written at its home reads back, and no other byte changes. -/
theorem writeHome_value {s t : State} (before : t.homes = s.homes) {pa n : Nat} (apart : s.Apart pa n) (v : Nat) :
    (t.writeHome (valueBytes pa n v)).physRead pa n = natLe n v ∧ KeepsBytes s (t.writeHome (valueBytes pa n v)) pa n := by
  obtain ⟨tags, row⟩ := layBytes_row s pa (natLe n v) 0
  rw [Nat.add_zero, State.physWrite_eq] at row
  have same : (t.writeHome (valueBytes pa n v)).homes = ({ s with mem := (s.physWrite pa (natLe n v)).mem, tags := tags } : State).homes := by
    rw [homes_writeHome, homes_layBytes before, valueBytes, row]
  have written := physRead_physWrite (s := s) (pa := pa) (bs := natLe n v) (by rwa [length_natLe])
  have keeps := keeps_physWrite s pa (natLe n v)
  rw [length_natLe, State.physWrite_eq] at written keeps
  exact ⟨(physRead_of_homes same _ _).trans written, fun a other => (physByte_of_homes same a).trans (keeps a other)⟩

/-! ### What a translation reads (R169 to R172) -/

section
variable {s t : State} (homes : t.homes = s.homes)
include homes

theorem secureAt_of_homes (pa : Nat) : t.secureAt pa = s.secureAt pa := by
  have words : t.words = s.words := congrArg Homes.words homes
  simp only [State.secureAt, State.word, words]
  rfl

/-- A walk reads memory and the secure regions. -/
theorem walkFrom_of_homes (va : Nat) (write secure : Bool) (table level fuel : Nat) :
    t.walkFrom va write secure table level fuel = s.walkFrom va write secure table level fuel := by
  induction fuel generalizing table level with
  | zero => rfl
  | succ fuel ih => simp only [State.walkFrom, cell?_of_homes homes, secureAt_of_homes homes, physRead_of_homes homes, ih]

theorem walk_congr {d : Nat} (words : (t.die d).words = (s.die d).words) (asid va : Nat) (write secure : Bool) :
    t.walk d asid va write secure = s.walk d asid va write secure := by
  simp only [State.walk, State.dieWord, words, walkFrom_of_homes homes]
  rfl

/-- A translation reads memory, the dies and the cores. -/
theorem engineXlate_congr (dies : t.dies = s.dies) (cores : t.cores = s.cores) (d c asid va : Nat) (need : Need) (secure : Bool) :
    t.engineXlate d c asid va need secure = s.engineXlate d c asid va need secure := by
  have die (e : Nat) : t.die e = s.die e := by rw [State.die, dies]; rfl
  have leaf (pte level va : Nat) (need : Need) (secure : Bool) : t.useLeaf pte level va need secure = s.useLeaf pte level va need secure := by
    simp only [State.useLeaf, State.leafBad, State.lspin, State.dieWord, die, cell?_of_homes homes, secureAt_of_homes homes]
    rfl
  have core (e k : Nat) : t.core e k = s.core e k := by rw [State.core, cores]; rfl
  have found : t.xlate d c asid va need secure = s.xlate d c asid va need secure := by
    simp only [State.xlate, State.spaceOn, State.dieWord, die, core, leaf]
    rfl
  have walked := walk_congr homes (congrArg Die.words (die d)) asid va need.wr secure
  simp only [State.engineXlate, found, walked, leaf]

end

/-! ### The performance of a reduction (R366) -/

/-- The state in which a reduction's element is reached: its request is counted and its line has come to its home. -/
def State.reached (s : State) (r : RedRec) (p : Phys) : State :=
  let l : LineAt := ⟨p.pa / 128, p.kind, p.level, r.asid, r.va⟩
  (({ s with fresh := s.fresh + 1 } : State).countReq r.die l).touchHome l

theorem homes_reached (s : State) (r : RedRec) (p : Phys) : (s.reached r p).homes = s.homes := by
  rw [State.reached, homes_touchHome, homes_countReq]; rfl

theorem tallies_reached (s : State) (r : RedRec) (p : Phys) : (s.reached r p).tallies = s.tallies := by
  rw [State.reached, tallies_touchHome, tallies_countReq]; rfl

/-- The state with a reduction gone: its core's line is dropped, and its launch counts one less. -/
def State.redGone (s : State) (r : RedRec) (p : Phys) : State :=
  let u := s.updCore r.die r.core (fun k => { k with l1 := k.l1.filter (fun x => x.at_.line != p.pa / 128) })
  ({ u with reds := u.reds.filter (fun x => x.id != r.id) } : State).countDown r.launch 1

theorem redPerform_ok {s : State} {op : Nat} {r : RedRec} {p : Phys} (found : s.reds.find? (fun x => x.id == op) = some r)
    (ready : s.redReady r = true) (ok : s.engineXlate r.die r.core r.asid r.va ⟨true, true, false⟩ r.secure = .ok p) :
    exec (.redPerform op) s = .next (((s.reached r p).reduceAt r.launch r.va r.op r.ty p.pa r.a).redGone r p) := by
  have ok' : ({ s with fresh := s.fresh + 1 } : State).engineXlate r.die r.core r.asid r.va ⟨true, true, false⟩ r.secure = .ok p :=
    (engineXlate_congr (s := s) (t := { s with fresh := s.fresh + 1 }) rfl rfl rfl ..).trans ok
  change execRedPerform op s = _
  simp only [execRedPerform, found, ready, if_true, State.performRed, ok']
  rfl

theorem completion_countDown (s : State) (i n : Nat) :
    (s.countDown i n).completion i = { s.completion i with count := (s.completion i).count - n } := by
  rw [State.countDown, State.completion_updCompletion, if_pos rfl]

/-- What the last step of a reduction leaves. -/
theorem redGone_frame (s : State) (r : RedRec) (p : Phys) :
    (s.redGone r p).reds = s.reds.filter (fun x => x.id != r.id) ∧ (s.redGone r p).physByte = s.physByte
      ∧ (s.redGone r p).dieWord = s.dieWord
      ∧ (s.redGone r p).completion r.launch = { s.completion r.launch with count := (s.completion r.launch).count - 1 } := by
  have homes : (s.redGone r p).homes = s.homes := rfl
  have completions : (s.redGone r p).completion = (s.countDown r.launch 1).completion := rfl
  refine ⟨rfl, funext fun a => physByte_of_homes homes a, rfl, ?_⟩
  rw [completions, completion_countDown]

/-- The reduction of an abandoned element. -/
theorem redPerform_abandoned {s : State} {r : RedRec} {p : Phys} {n : Nat} (bytes : accBytes r.ty.bits = n)
    (bad : r.ty = .f32 ∧ isAbandoned (leNat (s.physRead p.pa n)) = true) :
    let u := ((s.reached r p).reduceAt r.launch r.va r.op r.ty p.pa r.a).redGone r p
    u.reds = s.reds.filter (fun x => x.id != r.id) ∧ u.physByte = s.physByte
      ∧ (u.completion r.launch).count = (s.completion r.launch).count - 1 ∧ (u.completion r.launch).anyFault = true := by
  subst bytes
  obtain ⟨reds, byte, -, entry⟩ := redGone_frame ((s.reached r p).reduceAt r.launch r.va r.op r.ty p.pa r.a) r p
  have homes := homes_reached s r p
  have tallies := tallies_reached s r p
  rw [← physRead_of_homes homes] at bad
  have stays := reduceAt_abandoned (s := s.reached r p) (launch := r.launch) (va := r.va) (a := r.a) (op := r.op) bad
  generalize (s.reached r p).refusedWord r.va true = info at stays
  rw [stays] at reds byte entry ⊢
  have completions : (s.reached r p).completion r.launch = s.completion r.launch := by
    rw [State.completion, show (s.reached r p).completions = s.completions from congrArg Tallies.completions tallies]; rfl
  have faulted : ((s.reached r p).launchFault r.launch info).completion r.launch
      = { (s.completion r.launch) with anyFault := true } := by
    simp only [State.launchFault, State.completion_updCompletion, if_true]
    split <;> rw [← completions] <;> rfl
  have kept : ((s.reached r p).launchFault r.launch info).reds = s.reds := by
    refine Eq.trans ?_ (congrArg Tallies.reds tallies)
    simp only [State.launchFault]; split <;> rfl
  refine ⟨by rw [reds, kept], ?_, by rw [entry, faulted], by rw [entry, faulted]⟩
  rw [byte]
  funext a
  rw [physByte_launchFault, physByte_of_homes homes]

/-- The reduction of any other element. -/
theorem redPerform_applied {s : State} {r : RedRec} {p : Phys} {n : Nat} (bytes : accBytes r.ty.bits = n) (apart : s.Apart p.pa n)
    (sound : ¬ (r.ty = .f32 ∧ isAbandoned (leNat (s.physRead p.pa n)) = true)) :
    let u := ((s.reached r p).reduceAt r.launch r.va r.op r.ty p.pa r.a).redGone r p
    let result := redApply r.op r.ty (leNat (s.physRead p.pa n)) r.a
    u.reds = s.reds.filter (fun x => x.id != r.id) ∧ (u.completion r.launch).count = (s.completion r.launch).count - 1
      ∧ u.physRead p.pa n = natLe n result.1 ∧ KeepsBytes s u p.pa n
      ∧ ∀ b < 5, (u.dieWord (homeOf p.pa) 0x104).getLsbD b = ((s.dieWord (homeOf p.pa) 0x104).getLsbD b || result.2.getLsbD b) := by
  subst bytes
  intro u result
  obtain ⟨reds, byte, word, entry⟩ := redGone_frame ((s.reached r p).reduceAt r.launch r.va r.op r.ty p.pa r.a) r p
  have homes := homes_reached s r p
  have old := physRead_of_homes homes p.pa (accBytes r.ty.bits)
  rw [← old] at sound
  have applied := reduceAt_applied (launch := r.launch) (va := r.va) (a := r.a) (op := r.op) sound
  rw [old] at applied
  obtain ⟨written, keeps⟩ := writeHome_value homes apart result.1
  have tallies := (tallies_writeHome (s.reached r p) (valueBytes p.pa (accBytes r.ty.bits) result.1)).trans (tallies_reached s r p)
  change _ = (State.writeHome _ (valueBytes _ _ result.1)).raiseAflg _ result.2 at applied
  change u.reds = _ at reds
  change u.physByte = _ at byte
  change u.dieWord = _ at word
  change u.completion r.launch = _ at entry
  rw [applied] at reds byte word entry
  generalize (s.reached r p).writeHome (valueBytes p.pa (accBytes r.ty.bits) result.1) = t at *
  obtain ⟨sameReds, sameCompletions⟩ := raiseAflg_rest t (homeOf p.pa) result.2
  have sameByte (a : Nat) : u.physByte a = t.physByte a := by rw [byte, physByte_of_homes (homes_raiseAflg ..)]
  have completion : (t.raiseAflg (homeOf p.pa) result.2).completion r.launch = s.completion r.launch := by
    rw [State.completion, sameCompletions, show t.completions = s.completions from congrArg Tallies.completions tallies]; rfl
  have aflg : t.dieWord (homeOf p.pa) 0x104 = s.dieWord (homeOf p.pa) 0x104 :=
    congrFun (congrArg Tallies.aflg tallies) (homeOf p.pa)
  refine ⟨?_, by rw [entry, completion], ?_, fun a other => (sameByte a).trans (keeps a other), fun b hb => ?_⟩
  · rw [reds, sameReds, show t.reds = s.reds from congrArg Tallies.reds tallies]
  · rw [← written]; simp only [State.physRead, sameByte]
  · rw [word, aflg_raiseAflg t _ _ b hb, aflg]

/-! ### Page walks (R169, R172) -/

/-- The walk that ends caches its leaf, and its access goes on. -/
theorem pageWalk_leaf {s : State} {die : Nat} {q : WalkReq} {l : LeafRef} {pte : Word64} {level : Nat}
    (queued : (s.die die).walkq[s.choice.toNat]? = some q) (oldest : s.choice.toNat < 96) (who : q.who = some l)
    (walked : s.walk die q.asid q.va q.write (((s.team? l.team).map (fun t => s.launchSecure t.launch)).getD (s.coreSecure die q.core))
      = .leaf pte level) :
    exec (.pageWalk die) s = .next (((s.updDie die (fun d => { d with walkq := d.walkq.eraseIdx s.choice.toNat })).cacheLeaf die (some q.core)
      (tlbOf q.asid q.va pte level)).unblock l) := by
  have words (e : Nat) : ((s.updDie die (fun d => { d with walkq := d.walkq.eraseIdx s.choice.toNat })).die e).words = (s.die e).words := by
    rw [State.die_updDie]; split
    next same => rw [same]
    next => rfl
  have walks := walk_congr (s := s) (t := s.updDie die (fun d => { d with walkq := d.walkq.eraseIdx s.choice.toNat })) rfl (words die)
    q.asid q.va q.write
  have core : (s.updDie die (fun d => { d with walkq := d.walkq.eraseIdx s.choice.toNat })).coreSecure die q.core = s.coreSecure die q.core := by
    rw [State.coreSecure, State.dieWord, words]; rfl
  change execPageWalk die s = _
  simp only [execPageWalk, walkCount, oldest, if_true, queued, who, Option.bind_some, State.updDie_teamAt]
  cases team : s.team? l.team with
  | none =>
    rw [team, Option.map_none, Option.getD_none] at walked
    simp only [core, walks, walked]
  | some t =>
    rw [team, Option.map_some, Option.getD_some] at walked
    have world : (s.updDie die (fun d => { d with walkq := d.walkq.eraseIdx s.choice.toNat })).launchSecure t.launch = s.launchSecure t.launch :=
      rfl
    simp only [world, walks, walked]

/-- What the cached leaf and the released access leave. -/
theorem cacheLeaf_unblock (s : State) (die core n : Nat) (e : TlbEntry) (l : LeafRef) :
    let u := ((s.updDie die (fun d => { d with walkq := d.walkq.eraseIdx n })).cacheLeaf die (some core) e).unblock l
    (u.die die).walkq = (s.die die).walkq.eraseIdx n ∧ u.mem = s.mem ∧ (u.core die core).tlb.head? = some e
      ∧ (u.die die).walkCache.head? = some e
      ∧ u.warp? l.team l.warp = (s.warp? l.team l.warp).map (fun w => { w with
          entries := w.entries.map (fun e => if e.id == l.leaf then { e with wait := .none } else e) }) := by
  intro u
  have die' : u.die die = { s.die die with walkq := (s.die die).walkq.eraseIdx n, walkCache := (e :: (s.die die).walkCache.filter (· != e)).take 4096 } := by
    simp only [u, State.unblock, State.cacheLeaf, State.updEntry_dieAt, State.updCore_dieAt, State.die_updDie, if_true]
  have core' : u.core die core = { s.core die core with tlb := (e :: (s.core die core).tlb.filter (· != e)).take 64 } := by
    simp only [u, State.unblock, State.cacheLeaf, State.updEntry_coreAt, State.core_updCore, if_true]
    rfl
  refine ⟨by rw [die'], rfl, by rw [core']; rfl, by rw [die']; rfl, ?_⟩
  change (State.updWarp _ l.team l.warp _).warp? l.team l.warp = _
  rw [State.warp_updWarp, if_pos rfl]
  rfl

/-! ### The four levels -/

/-- One level of a walk whose entry names the next table. -/
theorem walkFrom_table {s : State} {va table level next index fuel : Nat} {write secure : Bool} (upper : level < 3)
    (at_ : index = if level = 0 then bitsOf va 55 39 else if level = 1 then bitsOf va 38 30 else bitsOf va 29 21)
    (there : (s.cell? (table + 8 * index)).isSome = true) (readable : secure = true ∨ s.secureAt (table + 8 * index) = false)
    (entry : leNat (s.physRead (table + 8 * index) 8) = next + 1) (aligned : next % (if level = 2 then 256 else 4096) = 0)
    (small : next < 2 ^ 52) :
    s.walkFrom va write secure table level (fuel + 1) = s.walkFrom va write secure next (level + 1) fuel := by
  have whole : next % 256 = 0 := by split at aligned <;> omega
  have low : bitOf (next + 1) 0 = true := by simp [bitOf]; omega
  have inner : bitOf (next + 1) 1 = false := by simp [bitOf]; omega
  have base : bitsOf (next + 1) 51 8 * 256 = next := by simp [bitsOf]; omega
  have zero : bitsOf (next + 1) 7 2 = 0 := by simp [bitsOf]; omega
  have high : (next + 1) / 2 ^ 52 = 0 := by omega
  have index' : (if level = 0 then bitsOf va 55 39 else if level = 1 then bitsOf va 38 30 else if level = 2 then bitsOf va 29 21
      else bitsOf va 20 16) = index := by
    obtain rfl | rfl | rfl : level = 0 ∨ level = 1 ∨ level = 2 := by omega
    all_goals simpa using at_.symm
  have open_ : ((s.cell? (table + 8 * index)).isNone || (!secure && s.secureAt (table + 8 * index))) = false := by
    rcases readable with world | free
    · simp [world, Option.isNone_eq_false_iff.mpr there]
    · simp [free, Option.isNone_eq_false_iff.mpr there]
  rw [State.walkFrom]
  simp only [index', open_, entry, low, inner, base, zero, high, aligned]
  simp [show level ≠ 3 by omega]

/-- The last level's leaf. -/
theorem walkFrom_leaf {s : State} {va table fuel leaf : Nat} {write secure : Bool}
    (there : (s.cell? (table + 8 * bitsOf va 20 16)).isSome = true) (readable : secure = true ∨ s.secureAt (table + 8 * bitsOf va 20 16) = false)
    (entry : leNat (s.physRead (table + 8 * bitsOf va 20 16) 8) = leaf) (valid : leaf % 4 = 3) :
    s.walkFrom va write secure table 3 (fuel + 1) = .leaf (BitVec.ofNat 64 leaf) 3 := by
  have low : bitOf leaf 0 = true := by simp [bitOf]; omega
  have inner : bitOf leaf 1 = true := by simp [bitOf]; omega
  have open_ : ((s.cell? (table + 8 * bitsOf va 20 16)).isNone || (!secure && s.secureAt (table + 8 * bitsOf va 20 16))) = false := by
    rcases readable with world | free
    · simp [world, Option.isNone_eq_false_iff.mpr there]
    · simp [free, Option.isNone_eq_false_iff.mpr there]
  rw [State.walkFrom]
  simp [open_, entry, low, inner]

/-- Settles O28: the reduction by what its element does at its home, the walk level by level. -/
theorem reductionsAndWalks : Obligations.ReductionsAndWalks := by
  unfold Obligations.ReductionsAndWalks
  intro s op r p die q l pte level n old home ended
  refine ⟨fun found ready whole apart ok => ?_, fun queued oldest who walked => ?_, ?_⟩
  · have named : r.id = op := by simpa using List.find?_some found
    have bytes : accBytes r.ty.bits = n := by simp only [accBytes, n]; omega
    have width : r.ty.bits = 8 * n := by simp only [n]; omega
    refine ⟨_, redPerform_ok found ready ok, ?_⟩
    by_cases bad : r.ty = .f32 ∧ isAbandoned old = true
    · obtain ⟨reds, byte, count, fault⟩ := redPerform_abandoned bytes bad
      have float : r.ty.fmt ≠ none := by rw [bad.1]; decide
      refine ⟨⟨named ▸ reds, count, fun a _ => congrFun byte a⟩, fun _ => ⟨?_, fault⟩, fun integer => absurd integer float,
        fun f _ sound => absurd bad sound⟩
      simp only [State.physRead, byte]
    · obtain ⟨reds, count, read, keeps, aflg⟩ := redPerform_applied bytes apart bad
      refine ⟨⟨named ▸ reds, count, keeps⟩, fun abandoned => absurd abandoned bad, fun integer => ?_, fun f float _ => ?_⟩
      · rw [read, natLe_redApply integer width]
        unfold redInteger
        cases r.op <;> rfl
      · exact ⟨_, _, redApply_float float r.op old r.a, rfl, read, aflg⟩
  · exact ⟨_, pageWalk_leaf queued oldest who walked, cacheLeaf_unblock ..⟩
  · intro asid va t0 t1 t2 t3 e3 write secure entry readable on root a1 a2 a3 b1 b2 b3 r0 n0 r1 n1 r2 n2 r3 n3 valid
    have valid' : bitOf (s.dieWord die (0x200 + asid)).toNat 0 = true := by
      simpa [State.spaceOn, BitVec.getLsbD, Nat.testBit_zero, bitOf] using on
    rw [State.walk]
    simp only [valid', Bool.not_true, Bool.false_eq_true, if_false]
    have first : bitsOf (s.dieWord die (0x200 + asid)).toNat 51 20 * 2 ^ 20 = t0 := root.symm
    have at3 : va / 2 ^ 16 % 2 ^ 5 = bitsOf va 20 16 := rfl
    rw [at3] at r3 n3
    have step0 := walkFrom_table (s := s) (va := va) (level := 0) (write := write) (fuel := 3) (by omega) rfl r0.1 r0.2 n0 a1 b1
    have step1 := walkFrom_table (s := s) (va := va) (level := 1) (write := write) (fuel := 2) (by omega) rfl r1.1 r1.2 n1 a2 b2
    have step2 := walkFrom_table (s := s) (va := va) (level := 2) (write := write) (fuel := 1) (by omega) rfl r2.1 r2.2 n2 a3 b3
    rw [first, step0, step1, step2, walkFrom_leaf r3.1 r3.2 n3 valid]

end Sys2Proof.Machine

/-! PROOFS. Teams that resume (spec/02, spec/07): a table of warps that lists one number twice. -/

namespace Sys2Proof.Machine

/-- A leaf of one thread, in the split table. -/
def tabledLeaf (id : Nat) : Entry := ⟨id, true, 1#32, 0#32, none, false, .none, 0, 0, false, false, none⟩

/-- A warp of the team with some leaves in the split table. -/
def returningWarp (index lane leaves : Nat) : Warp := { emptyWarp with
  index := index
  lane := lane
  count := 1
  alloc := 8
  entries := (List.range leaves).map tabledLeaf }

/-- A team that waits to resume. -/
def returningTeam : Team := { bareTeam with state := .pendingResume }

/-- Warps 0 and 1 of that team, and a second record of warp 0 that remembers lane 1; only core 0 of die 0 is there to take it. -/
def returningState : State := { State.reset with
  teams := [(0, returningTeam)]
  warps := [(warpKey 0 0, returningWarp 0 0 1), (warpKey 0 1, returningWarp 1 0 10), (warpKey 0 0, returningWarp 0 1 10)]
  dies := [(0, { Die.reset with words := [(0x124, 0x3FFFE#64)] })] }

theorem returningState_best :
    returningState.Best 0 0 (returningState.resumeDemand 0 returningTeam) [0, 1, 2] := by
  refine ⟨by decide, by decide +kernel, fun k hk hs => ?_⟩
  have hnone : ∀ c < 18, c ≠ 0 → returningState.fits 0 c (returningState.resumeDemand 0 returningTeam) = none := by
    decide +kernel
  by_cases h0 : k = 0
  · exact .inr ⟨by rw [h0], by omega⟩
  · rw [hnone k hk h0] at hs
    cases hs

theorem returningState_alone : returningState.Alone 0 returningTeam := by
  refine ⟨rfl, rfl, ?_⟩
  decide +kernel

theorem returningState_quiet : ∀ w ∈ returningState.warpsOf 0, w.postedCancel = false ∧ ∀ y ∈ w.entries, y.wait = .none := by
  decide +kernel

/-- How many leaves warp 1 of team 0 has in the split table after a step. -/
def tabledAfter : Host.Outcome State Fault Refusal → Option Nat
  | .next u => (u.warp? 0 1).map (fun w => w.tabled.length)
  | _ => none

/-- Lane 1 holds the ten leaves of the second record, so warp 1 keeps six of its ten. -/
theorem returningState_spills : tabledAfter (exec (.teamResume 0 0) returningState) = some 6 := by
  decide +kernel

/-- A new lane spills no leaf. -/
theorem tabled_relaned (w : Warp) (lane since : Nat) : ({ w with lane := lane, since := since } : Warp).tabled = w.tabled := rfl

/-- Refutes O46: the premise `roomy` counts a warp at the lane that its number is given, and the clause on resuming does not ask that the
table of warps lists each number once. In `returningState` the second record of warp 0 stays on lane 1, the lane that warp 1 is given:
the two have 20 leaves there, and four of warp 1 are spilled, which is log 39's case. -/
theorem not_teamPlacement : ¬ Obligations.TeamPlacement := by
  intro h
  obtain ⟨-, placed⟩ := h returningState 0 0 0 0 [0, 1, 2] Launch.none ⟨0, 0, [], 0, 0, none, 0, []⟩ returningTeam
  obtain ⟨-, -, resume, -⟩ := placed returningState_alone
  obtain ⟨u, resumed, -, -, -, -, -, warps⟩ := resume rfl (.inl rfl) returningState_best (by decide +kernel) (by decide)
    ⟨fun _ => rfl, by decide⟩ (by decide +kernel) (.inr (by decide)) (fun w hw => ⟨(returningState_quiet w hw).1, fun y hy _ _ _ trap => by
      rw [(returningState_quiet w hw).2 y hy] at trap
      cases trap⟩) rfl
  obtain ⟨since, lane, -, same⟩ := warps 1 (returningWarp 1 0 10) (by decide +kernel) (by decide)
  have kept : tabledAfter (exec (.teamResume 0 0) returningState) = some 10 := by
    rw [resumed, tabledAfter, same, Option.map_some, tabled_relaned]
    decide
  exact absurd (returningState_spills.symm.trans kept) (by decide)

end Sys2Proof.Machine

/-! PROOFS. A lane's pool (spec/03): GIVE by a warp in whose table two leaves bear one name. -/

namespace Sys2Proof.Machine

/-- A warp of one thread and 16 slices with the two leaves of `twinWarp`. -/
def givingWarp : Warp := { twinWarp with threads := [Thread.reset] }

/-- The leaf that stands at 0 issues; no claim waits on its lane. -/
def givingState : State := { State.reset with
  issuer := some ⟨0, 0, 0⟩
  teams := [(0, bareTeam)]
  warps := [(warpKey 0 0, givingWarp)] }

/-- What the leaf issues with. -/
def givingCtx : Ctx := ⟨⟨0, 0, 0⟩, bareTeam, givingWarp, twinLeaf 0#32, Launch.none, [0], 0⟩

theorem givingState_ready : givingState.Ready Guard.always [Pos.src 1 (.imm 8#9) (Opnd.imm 8#9).isUniImm] givingCtx := ⟨rfl, by decide⟩

/-- The addresses of the entries of warp 0 of team 0. -/
def State.entryPcs (s : State) : Option (List Word) := (s.warp? 0 0).map (fun w => w.entries.map Entry.pc)

/-- GIVE takes each of the two leaves 8 bytes further from where it stands. -/
theorem givingState_give : ∃ u, exec (.give (.imm 8#9)) givingState = .next u ∧ u.entryPcs = some [8#32, 12#32] :=
  ⟨_, rfl, by decide⟩

/-- Refutes O20: nothing in it says that the names of a warp's entries differ. In `givingState` the leaf 0 gives 8 of its warp's 16 slices;
each entry of that name goes on by 8 from its own address, and `movedTo` has put both at the first one's. -/
theorem not_lanePool : ¬ Obligations.LanePool := by
  intro h
  obtain ⟨pool, -⟩ := h givingState (.imm 8#9) (.imm 0#9) (.imm 0#9) (.imm 0#9) (.imm 0#9) givingCtx 8
  obtain ⟨give, -⟩ := pool givingState_ready (by decide) (by decide) (by decide) (by decide) (by decide) (by decide) rfl (by decide)
  obtain ⟨w, -, kept, -, gives⟩ := give (by decide) (by decide)
  obtain ⟨u, given, pcs⟩ := givingState_give
  have entries : w.entries = twinWarp.entries := (congrArg Warp.entries kept).symm
  have moved : u.entryPcs = some ((w.movedTo (twinLeaf 0#32) 8#32).entries.map Entry.pc) := by
    rw [Host.Outcome.next.inj (given.symm.trans gives)]
    rfl
  rw [pcs, Warp.movedTo, entries] at moved
  change _ = some ((twinWarp.movedTo (twinLeaf 0#32) 8#32).entries.map Entry.pc) at moved
  exact absurd moved (by decide)

end Sys2Proof.Machine

/-! PROOFS. LD at its issue (spec/09): the checks of its accesses pass, its lines come to the Quay or to the gather unit, its
destinations pend. -/

namespace Sys2Proof.Machine

/-! ### Operands of loads and stores (R348, R351, R379) -/

/-- An operand's allowed kind and width, once its instruction issues. -/
theorem ready_ok {s : State} {c : Ctx} {ps : List Pos} (h : c.ready s ps = true) {p : Pos} (hp : p ∈ ps) : p.ok = true := by
  obtain ⟨some_, -⟩ := ready_checks h
  obtain ⟨i, hi⟩ := List.exists_mem_of_ne_nil _ some_
  simp only [Ctx.ready, Bool.and_eq_true, Bool.not_eq_true', List.all_eq_true] at h
  have legal := (h.1.2 i hi p hp).1.1.1
  simp only [Pos.illopnd, Bool.or_eq_false_iff, Bool.not_eq_false'] at legal
  exact legal.1

theorem notImm_of_loadOk {t : Ty} {d : Opnd} (h : loadOk t d = true) : d.notImm = true := by
  cases d with
  | imm v => simp [loadOk, Opnd.notImm, Opnd.dstFlt] at h
  | reg | uni => rfl

theorem notImm_of_storeOk {t : Ty} {d : Opnd} (h : storeOk t d = true) : d.notImm = true := by
  cases d with
  | imm v => cases h
  | reg | uni => rfl

/-- An access moves a nibble or 1 to 16 whole bytes. -/
theorem accBits_cases (t : Ty) {d : Opnd} (h : d.notImm = true) : accBits t d ∈ [4, 8, 16, 32, 64, 128] := by
  cases t with
  | none =>
    cases d with
    | imm v => cases h
    | uni k => simp [accBits, Opnd.bits]
    | reg w st => cases w <;> simp [accBits, Opnd.bits, Width.bits]
  | _ => simp [accBits, Ty.bits, Ty.isPacked, Ty.isIPack, Ty.isFPack, Ty.ebits]

theorem accBytes_accBits (t : Ty) {d : Opnd} (h : d.notImm = true) :
    accBytes (accBits t d) = if accBits t d = 4 then 1 else accBits t d / 8 := by
  have cases := accBits_cases t h
  generalize accBits t d = bits at cases
  revert bits
  decide

theorem nibble_fst (bits : Nat) (o : Int) : (nibble bits o).1 = if bits = 4 then o / 2 else o := by
  unfold nibble; split <;> rfl

theorem nibble_snd (bits : Nat) (o : Int) : (nibble bits o).2 = if bits = 4 then some (o % 2 == 1) else none := by
  unfold nibble; split <;> rfl

theorem lt_of_mem_on {s : State} {g : Guard} {c : Ctx} (ctx : s.ctx g = some c) {i : Nat} (hi : i ∈ c.on) : i < 32 := by
  obtain ⟨-, -, -, -, -, on, -⟩ := ctx_facts ctx
  rw [on] at hi
  exact List.mem_range.mp (List.mem_filter.mp (List.mem_filter.mp hi).1).1

/-! ### Accesses that pass (R165) -/

/-- What R165 checks of a thread's access. -/
theorem Passes.check {s : State} {c : Ctx} {i : Nat} {p : Pos} {va : Int} {n perm : Nat} {aligned : Bool} {need : Need}
    {pas : List Nat} {lines : List LineAt} (h : Passes s c i p va n perm aligned need pas lines) (half : Option Bool) :
    (⟨i, c.cap i p, c.capTag i p, va, n, half, aligned, perm, need⟩ : AccReq).check = none := by
  refine (check_none _).mpr ⟨h.aligned, h.tag, h.unsealed, beq_iff_eq.mpr h.perm, h.low, ?_, h.space⟩
  refine le_of_le_of_eq h.high ?_
  simp only [Cap.length]
  split <;> simp

theorem cells_issued (s : State) (d c asid va n : Nat) (need : Need) (secure : Bool) :
    s.issued.cells d c asid va n need secure = s.cells d c asid va n need secure := rfl

/-- Accesses that all pass and translate. -/
theorem access_ok {s : State} {c : Ctx} {req : Nat → AccReq} {pas : Nat → List Nat} {lines : Nat → List LineAt} {run : List Nat}
    (passes : ∀ i ∈ run, (req i).check = none)
    (cells : ∀ i ∈ run, s.cells c.team.die c.team.core c.launch.asid (req i).va.toNat (req i).size (req i).need c.launch.secure
      = .ok (pas i) (lines i)) :
    s.access c (run.map req) = .ok (run.map (fun i => ⟨(req i).thread, (req i).va.toNat, pas i, (req i).half, lines i⟩)) := by
  induction run with
  | nil => rfl
  | cons i rest ih =>
    rw [List.forall_mem_cons] at passes cells
    simp only [List.map_cons, State.access, passes.1, cells.1, ih passes.2 cells.2]

/-! ### Loads at the Quay (R173) -/

/-- The entry, an unsent one of loads, will answer a load's thread with a line. -/
def QuayEntry.Answers (e : QuayEntry) (op line thread : Nat) : Prop :=
  e.store = false ∧ e.sent = false ∧ e.at_.line = line ∧ ∃ m : BitVec 32, (op, m) ∈ e.ops ∧ m.getLsbD thread = true

/-- The Quay has an entry that will. -/
def Beats.Answers (b : Beats) (op line thread : Nat) : Prop := ∃ e ∈ b.quay, e.Answers op line thread

theorem mem_addThreads_new (ops : List (Nat × BitVec 32)) (op : Nat) (m : BitVec 32) {i : Nat} (hi : m.getLsbD i = true) :
    ∃ n : BitVec 32, (op, n) ∈ addThreads ops op m ∧ n.getLsbD i = true := by
  unfold addThreads
  split
  next joined =>
    obtain ⟨q, hq, same⟩ := List.any_eq_true.mp joined
    obtain rfl := beq_iff_eq.mp same
    exact ⟨q.2 ||| m, List.mem_map.mpr ⟨q, hq, if_pos same⟩, by simp [-BitVec.getLsbD_eq_getElem, hi]⟩
  next => exact ⟨m, List.mem_append_right _ (List.mem_singleton.mpr rfl), hi⟩

theorem mem_addThreads_old {ops : List (Nat × BitVec 32)} (op : Nat) (m : BitVec 32) {o : Nat} {n : BitVec 32} (hn : (o, n) ∈ ops)
    {i : Nat} (hi : n.getLsbD i = true) : ∃ n' : BitVec 32, (o, n') ∈ addThreads ops op m ∧ n'.getLsbD i = true := by
  unfold addThreads
  split
  next =>
    by_cases same : o = op
    · refine ⟨n ||| m, List.mem_map.mpr ⟨(o, n), hn, by simp [same]⟩, by simp [-BitVec.getLsbD_eq_getElem, hi]⟩
    · exact ⟨n, List.mem_map.mpr ⟨(o, n), hn, by simp [same]⟩, hi⟩
  next => exact ⟨n, List.mem_append_left _ hn, hi⟩

section
variable (b : Beats) (x : Windows) (id op : Nat) (m : BitVec 32) (l : LineAt) (beat : Nat)

/-- What a load finds open to it. -/
theorem joinable_load {e : QuayEntry} {line : Nat} (found : b.joinable x false line beat = some e) :
    e ∈ b.quay ∧ e.store = false ∧ e.sent = false ∧ e.at_.line = line := by
  have test := List.find?_some found
  simp only [Bool.and_eq_true, beq_iff_eq, Bool.not_eq_true', and_assoc] at test
  obtain ⟨store, sent, line, -⟩ := test
  exact ⟨List.mem_of_find?_eq_some found, store, sent, line⟩

/-- The Quay answers a load's threads with the line that it brings. -/
theorem load_answers {i : Nat} (hi : m.getLsbD i = true) : (b.load x id op m l beat).Answers op l.line i := by
  unfold Beats.load
  split
  next e found =>
    obtain ⟨he, store, sent, line⟩ := joinable_load b x beat found
    exact ⟨_, List.mem_map.mpr ⟨e, he, if_pos (beq_self_eq_true _)⟩, store, sent, line, mem_addThreads_new e.ops op m hi⟩
  next =>
    exact ⟨_, List.mem_append_right _ (List.mem_singleton.mpr rfl), rfl, rfl, rfl, m, List.mem_singleton.mpr rfl, hi⟩

/-- It still answers whom it would have answered. -/
theorem load_keeps_answers {o line i : Nat} (h : b.Answers o line i) : (b.load x id op m l beat).Answers o line i := by
  obtain ⟨e, he, store, sent, at_, n, hn, hi⟩ := h
  unfold Beats.load
  split
  next y _ =>
    by_cases same : e.id = y.id
    · exact ⟨_, List.mem_map.mpr ⟨e, he, if_pos (beq_iff_eq.mpr same)⟩, store, sent, at_, mem_addThreads_old op m hn hi⟩
    · exact ⟨e, List.mem_map.mpr ⟨e, he, if_neg (by simpa using same)⟩, store, sent, at_, n, hn, hi⟩
  next => exact ⟨e, List.mem_append_left _ he, store, sent, at_, n, hn, hi⟩

theorem length_load_le : (b.load x id op m l beat).quay.length ≤ b.quay.length + 1 := by
  unfold Beats.load
  split
  · simp [mapIf]
  · simp

end

/-- The Quay after a load's pieces, each a line and a thread, have come to it in order. -/
def Beats.loads (b : Beats) (x : Windows) (op : Nat) (beat : Nat → Nat) (pieces : List ((LineAt × Nat) × Nat)) : Beats :=
  pieces.foldl (fun b p => b.load x (op + 1 + p.2) op (maskOf [p.1.2]) p.1.1 (beat p.1.2)) b

theorem getLsbD_maskOf_singleton {i : Nat} (hi : i < 32) : (maskOf [i]).getLsbD i = true := by
  simp [maskOf, -BitVec.getLsbD_eq_getElem, hi]

theorem loads_keeps_answers {b : Beats} {o line i : Nat} (h : b.Answers o line i) (x : Windows) (op : Nat) (beat : Nat → Nat)
    (pieces : List ((LineAt × Nat) × Nat)) : (b.loads x op beat pieces).Answers o line i := by
  induction pieces generalizing b with
  | nil => exact h
  | cons p r ih => exact ih (load_keeps_answers _ _ _ _ _ _ _ h)

theorem loads_answers (b : Beats) (x : Windows) (op : Nat) (beat : Nat → Nat) {pieces : List ((LineAt × Nat) × Nat)}
    {p : (LineAt × Nat) × Nat} (hp : p ∈ pieces) (thread : p.1.2 < 32) : (b.loads x op beat pieces).Answers op p.1.1.line p.1.2 := by
  induction pieces generalizing b with
  | nil => cases hp
  | cons q r ih =>
    rcases List.mem_cons.mp hp with rfl | hp
    · exact loads_keeps_answers (load_answers _ _ _ _ _ _ _ (getLsbD_maskOf_singleton thread)) ..
    · exact ih _ hp

theorem length_loads_le (b : Beats) (x : Windows) (op : Nat) (beat : Nat → Nat) (pieces : List ((LineAt × Nat) × Nat)) :
    (b.loads x op beat pieces).quay.length ≤ b.quay.length + pieces.length := by
  induction pieces generalizing b with
  | nil => exact le_rfl
  | cons p r ih =>
    have first := length_load_le b x (op + 1 + p.2) op (maskOf [p.1.2]) p.1.1 (beat p.1.2)
    have rest := ih (b.load x (op + 1 + p.2) op (maskOf [p.1.2]) p.1.1 (beat p.1.2))
    rw [List.length_cons]
    exact rest.trans (by omega)

/-- Distinct lines and one more. -/
def addLine (acc : List LineAt) (x : LineAt) : List LineAt := if acc.any (fun y => y.line == x.line) then acc else acc ++ [x]

theorem addLine_covers {acc : List LineAt} {x z : LineAt} (h : x = z ∨ ∃ y ∈ acc, y.line = x.line) :
    ∃ y ∈ addLine acc z, y.line = x.line := by
  unfold addLine
  split
  next there =>
    rcases h with rfl | h
    · simpa using there
    · exact h
  next =>
    rcases h with rfl | ⟨y, hy, same⟩
    · exact ⟨x, List.mem_append_right _ (List.mem_singleton.mpr rfl), rfl⟩
    · exact ⟨y, List.mem_append_left _ hy, same⟩

theorem foldl_addLine_covers {l acc : List LineAt} {x : LineAt} (h : x ∈ l ∨ ∃ y ∈ acc, y.line = x.line) :
    ∃ y ∈ l.foldl addLine acc, y.line = x.line := by
  induction l generalizing acc with
  | nil => simpa using h
  | cons z r ih =>
    rw [List.mem_cons, or_right_comm] at h
    exact ih (h.symm.imp_right addLine_covers)

/-- Each line of a list stands among the distinct ones. -/
theorem mem_distinctLines {l : List LineAt} {x : LineAt} (hx : x ∈ l) : ∃ y ∈ distinctLines l, y.line = x.line :=
  foldl_addLine_covers (.inl hx)

/-! ### A load starts (R48, R173, R174) -/

/-- The lines and threads of a load's accesses, numbered in the order in which they come to the Quay. -/
def piecesOf (accs : List Acc) : List ((LineAt × Nat) × Nat) := (accs.flatMap (fun a => a.lines.map (fun l => (l, a.thread)))).zipIdx

theorem length_piecesOf (accs : List Acc) : (piecesOf accs).length = (accs.flatMap Acc.lines).length := by
  simp [piecesOf, List.length_flatMap]

theorem mem_piecesOf {accs : List Acc} {a : Acc} (ha : a ∈ accs) {l : LineAt} (hl : l ∈ a.lines) : ∃ n, ((l, a.thread), n) ∈ piecesOf accs := by
  have inside : (l, a.thread) ∈ accs.flatMap (fun a => a.lines.map (fun l => (l, a.thread))) :=
    List.mem_flatMap.mpr ⟨a, ha, List.mem_map.mpr ⟨l, hl, rfl⟩⟩
  obtain ⟨n, hn⟩ := List.mem_iff_getElem?.mp inside
  exact ⟨n, List.mem_zipIdx_iff_getElem?.mpr hn⟩

/-- The warp of a load whose threads' destinations pend. -/
def Ctx.pended (c : Ctx) (op la : Nat) (pd : Pos) (run : List Nat) (w : Warp) : Warp :=
  { w with threads := (w.threads.zipIdx).map (fun p =>
      if run.contains p.2 then p.1.pend op c.entry.pc.toNat la (pd.start p.1) pd.slices else p.1) }

theorem pended_accs (c : Ctx) (op la : Nat) (pd : Pos) (accs : List Acc) : c.pended op la pd (accs.map Acc.thread) = fun w =>
    { w with threads := (w.threads.zipIdx).map (fun p =>
      if accs.any (fun a => a.thread == p.2) then p.1.pend op c.entry.pc.toNat la (pd.start p.1) pd.slices else p.1) } := by
  have named (i : Nat) : (accs.map Acc.thread).contains i = accs.any (fun a => a.thread == i) := by
    rw [List.contains_eq_any_beq, List.any_map]
    exact congrArg accs.any (funext fun _ => BEq.comm)
  funext w
  simp only [Ctx.pended, named]

/-- The state with a load that has started: it is on its core's list, its lines are at the Quay or with the gather unit, and its
destinations pend, if they are no uniform register. -/
def State.loading (s : State) (c : Ctx) (la : Nat) (pd : Pos) (op : LoadOp) (next : Nat) (quay : List QuayEntry) (gathers : List GatherOp)
    (run : List Nat) : State :=
  let u := { s with nextId := next }.updCore c.team.die c.team.core (fun k => { k with
    loads := k.loads ++ [op], quay := quay, gathers := gathers })
  if op.uni.isSome then u else u.updWarp c.ref.team c.ref.warp (c.pended s.nextId la pd run)

/-- The load of these accesses. -/
def State.loadOp (s : State) (c : Ctx) (pd : Pos) (f : LoadForm) (caps : Nat → Cap) (accs : List Acc) : LoadOp :=
  ⟨s.nextId, c.ref.team, c.ref.warp, f, match pd.o with | .uni r => some (r, c.warp.handler.isSome) | _ => none,
    accs.map (fun a => ⟨a.thread, pd.start (c.th a.thread), a.pas.map (fun p => (p, none)), a.half,
      f.bits == 128 && (caps a.thread).grants pLDC, false, false⟩)⟩

/-- With no gather in flight and room in the Quay a load starts, and each line of each access is at the Quay or with the gather unit. -/
theorem startLoad_starts {s : State} {c : Ctx} {accs : List Acc} (noGather : (s.core c.team.die c.team.core).gathers = [])
    (room : (s.core c.team.die c.team.core).quay.length + (accs.flatMap Acc.lines).length ≤ 256) (la : Nat) (pd : Pos) (f : LoadForm)
    (caps : Nat → Cap) (beat : Nat → Nat) :
    ∃ next quay gathers, s.startLoad c la pd f caps beat accs
        = some (s.loading c la pd (s.loadOp c pd f caps accs) next quay gathers (accs.map Acc.thread))
      ∧ ∀ a ∈ accs, a.thread < 32 → ∀ l ∈ a.lines, (∃ e ∈ quay, e.Answers s.nextId l.line a.thread)
        ∨ ∃ x ∈ gathers, x.load = some s.nextId ∧ ∃ y ∈ x.lines, y.line = l.line := by
  set k := s.core c.team.die c.team.core
  set lines := distinctLines (accs.flatMap Acc.lines)
  set quay := ((⟨k.quay, []⟩ : Beats).loads (s.windows c.team.die c.team.core) s.nextId beat (piecesOf accs)).quay
  have small : quay.length ≤ 256 := by
    refine (length_loads_le ..).trans ?_
    rw [length_piecesOf]
    exact room
  have free : ((decide (8 < lines.length) && decide (gatherSize ≤ k.gathers.length))
      || (!decide (8 < lines.length) && decide (quaySize < quay.length))) = false := by
    rw [noGather, decide_eq_false (show ¬ quaySize < quay.length from not_lt.mpr small)]
    simp [gatherSize]
  refine ⟨s.nextId + 2 + (accs.flatMap (fun a => a.lines.map (fun l => (l, a.thread)))).length, if 8 < lines.length then k.quay else quay,
    if 8 < lines.length then k.gathers ++ [⟨s.nextId, some s.nextId, lines, [], []⟩] else k.gathers, ?_, ?_⟩
  · refine (if_neg (ne_true_of_eq_false free)).trans ?_
    rw [State.loading, pended_accs]
    rfl
  · intro a ha thread l hl
    split
    · obtain ⟨y, hy, same⟩ := mem_distinctLines (List.mem_flatMap.mpr ⟨a, ha, hl⟩)
      exact .inr ⟨_, List.mem_append_right _ (List.mem_singleton.mpr rfl), rfl, y, hy, same⟩
    · obtain ⟨n, hn⟩ := mem_piecesOf ha hl
      exact .inl (loads_answers _ _ _ _ hn thread)

/-! ### What a started load leaves -/

section
variable (s : State) (c : Ctx) (la : Nat) (pd : Pos) (op : LoadOp) (next : Nat) (quay : List QuayEntry) (gathers : List GatherOp)
  (run : List Nat)

theorem loading_frame (u : State) (h : u = s.loading c la pd op next quay gathers run) :
    u.mem = s.mem ∧ u.tags = s.tags ∧ u.teams = s.teams ∧ u.dies = s.dies ∧ u.writes = s.writes := by
  subst h
  unfold State.loading
  split <;> exact ⟨rfl, rfl, rfl, rfl, rfl⟩

theorem core_loading : (s.loading c la pd op next quay gathers run).core c.team.die c.team.core =
    { s.core c.team.die c.team.core with
      loads := (s.core c.team.die c.team.core).loads ++ [op], quay := quay, gathers := gathers } := by
  have core : (({ s with nextId := next } : State).updCore c.team.die c.team.core (fun k => { k with
      loads := k.loads ++ [op], quay := quay, gathers := gathers })).core c.team.die c.team.core = _ :=
    (State.core_updCore ..).trans (if_pos rfl)
  unfold State.loading
  split <;> exact core

theorem warp_loading (here : s.warp? c.ref.team c.ref.warp = some c.warp) :
    (s.loading c la pd op next quay gathers run).warp? c.ref.team c.ref.warp
      = some (if op.uni.isSome then c.warp else c.pended s.nextId la pd run c.warp) := by
  unfold State.loading
  split
  · exact here
  · exact warp_updWarp_self (s := ({ s with nextId := next } : State).updCore ..) here _

end

theorem pended_pending (c : Ctx) (op la : Nat) {pd : Pos} (noUni : ∀ k, pd.o ≠ .uni k) (run : List Nat) :
    Pending c (c.pended op la pd run c.warp) run pd op la := by
  refine ⟨by simp [Ctx.pended], rfl, fun i => ?_⟩
  rw [Ctx.pended, thread_map]
  by_cases inside : i < c.warp.threads.length
  · by_cases runs : i ∈ run
    · rw [if_pos inside, if_pos (List.contains_iff_mem.mpr runs), if_pos ⟨runs, inside, noUni⟩]
      simp [Thread.pend, Ctx.th]
    · rw [if_pos inside, if_neg (by simpa using runs), if_neg (fun h => runs h.1)]
      rfl
  · rw [if_neg inside, if_neg (fun h => inside h.2.1)]
    rfl

theorem pending_uni (c : Ctx) (op la : Nat) {pd : Pos} {k : BitVec 7} (uni : pd.o = .uni k) (run : List Nat) :
    Pending c c.warp run pd op la :=
  ⟨rfl, rfl, fun _ => (if_neg (fun h => h.2.2 k uni)).symm⟩

theorem loadOp_pending (s : State) (c : Ctx) (pd : Pos) (f : LoadForm) (caps : Nat → Cap) (accs : List Acc) (op la : Nat) (run : List Nat) :
    Pending c (if (s.loadOp c pd f caps accs).uni.isSome then c.warp else c.pended op la pd run c.warp) run pd op la := by
  cases h : pd.o with
  | uni k =>
    rw [if_pos (by simp [State.loadOp, h])]
    exact pending_uni c op la h run
  | reg | imm =>
    rw [if_neg (by simp [State.loadOp, h])]
    exact pended_pending c op la (by simp [h]) run

/-! ### LD (R348 to R350) -/

section
variable {s : State} {g : Guard} {t : Ty} {d k : Opnd} {c : Ctx} {extra : List Pos} {off : Ctx → Nat → Int}
  {pas : Nat → List Nat} {lines : Nat → List LineAt}

theorem grants_pLDC (k : Cap) : k.grants pLDC = k.perm.testBit 2 := by
  rw [Cap.grants, Bool.eq_iff_iff, beq_iff_eq, pLDC, show (4 : Nat) = 2 ^ 2 from rfl, Nat.and_two_pow]
  cases k.perm.testBit 2 <;> decide

/-- The access that a thread's LD asks for. -/
def Ctx.loadReq (c : Ctx) (k : Opnd) (bits : Nat) (off : Nat → Int) (i : Nat) : AccReq :=
  ⟨i, c.cap i (Pos.src 1 k true), c.capTag i (Pos.src 1 k true), (c.cap i (Pos.src 1 k true)).base + (nibble bits (off i)).1, accBytes bits,
    (nibble bits (off i)).2, bits == 128, pLD, ⟨true, false, false⟩⟩

/-- The access when it has passed. -/
def Ctx.loadAcc (c : Ctx) (k : Opnd) (bits : Nat) (off : Nat → Int) (pas : Nat → List Nat) (lines : Nat → List LineAt) (i : Nat) : Acc :=
  ⟨i, (c.loadReq k bits off i).va.toNat, pas i, (nibble bits (off i)).2, lines i⟩

theorem load_starts (ready : s.Ready g ([Pos.dst d (loadOk t d), Pos.src 1 k true] ++ extra) c) (len la : Nat)
    (passes : ∀ i ∈ c.runs (some (Pos.dst d (loadOk t d))), Passes s c i (Pos.src 1 k true)
      (c.loadReq k (accBits t d) (off c) i).va (accBytes (accBits t d)) 1 (accBits t d == 128) ⟨true, false, false⟩ (pas i) (lines i))
    (noGather : (s.core c.team.die c.team.core).gathers = [])
    (room : (s.core c.team.die c.team.core).quay.length + ((c.runs (some (Pos.dst d (loadOk t d)))).flatMap lines).length ≤ 256) :
    ∃ next quay gathers,
      s.load len la g t d k extra off = .next ((s.issued.loading c la (Pos.dst d (loadOk t d))
        (s.loadOp c (Pos.dst d (loadOk t d)) ⟨t, accBits t d, d.bits⟩ (fun i => c.cap i (Pos.src 1 k true))
          ((c.runs (some (Pos.dst d (loadOk t d)))).map (c.loadAcc k (accBits t d) (off c) pas lines)))
        next quay gathers (c.runs (some (Pos.dst d (loadOk t d))))).complete c.ref len)
      ∧ ∀ i ∈ c.runs (some (Pos.dst d (loadOk t d))), ∀ l ∈ lines i, (∃ e ∈ quay, e.Answers s.nextId l.line i)
        ∨ ∃ x ∈ gathers, x.load = some s.nextId ∧ ∃ y ∈ x.lines, y.line = l.line := by
  set pd := Pos.dst d (loadOk t d)
  set run := c.runs (some pd)
  set accs := run.map (c.loadAcc k (accBits t d) (off c) pas lines) with haccs
  have access : s.issued.access c (run.map (c.loadReq k (accBits t d) (off c))) = .ok accs :=
    access_ok (s := s.issued) (fun i hi => (passes i hi).check _) (fun i hi => (passes i hi).cells)
  have threads : accs.map Acc.thread = run := by
    rw [haccs, List.map_map]
    exact List.map_id run
  have noScatter : accs.any (s.issued.scatterHolds c) = false := by
    have holds (a : Acc) : s.issued.scatterHolds c a = false := by
      rw [State.scatterHolds, State.issued_coreAt, noGather]
      rfl
    simp [holds]
  have room' : (s.issued.core c.team.die c.team.core).quay.length + (accs.flatMap Acc.lines).length ≤ 256 := by
    rw [haccs, List.flatMap_map]
    exact room
  obtain ⟨next, quay, gathers, starts, answers⟩ := startLoad_starts (s := s.issued) (accs := accs) noGather room' la pd ⟨t, accBits t d, d.bits⟩
    (fun i => c.cap i (Pos.src 1 k true))
    (if ((c.on.map (fun i => (c.raw i (Pos.src 1 k true), c.capTag i (Pos.src 1 k true)))).eraseDups.length ≤ 1 && extra.all c.affineOp)
      then fun _ => 0 else c.beatOf ([pd, Pos.src 1 k true] ++ extra))
  rw [threads] at starts
  refine ⟨next, quay, gathers, ?_, fun i hi l hl => ?_⟩
  · rw [State.load, issue_ready ready]
    change Host.Outcome.next (((s.issued.access c (run.map (c.loadReq k (accBits t d) (off c)))).then_ c s.issued _).state s.issued c.ref len) = _
    rw [access]
    simp only [Accs.then_, noScatter, Bool.false_eq_true, if_false]
    rw [starts]
    rfl
  · exact answers (c.loadAcc k (accBits t d) (off c) pas lines i) (List.mem_map_of_mem hi)
      (lt_of_mem_on ready.1 (runs_subset c _ i hi)) l hl

end

/-- Settles O23: the accesses pass one by one, and the Quay or the gather unit takes each of their lines. -/
theorem loadsIssue : Obligations.LoadsIssue := by
  intro s g la t d k o imm c ld len ps off pas lines bits pd pk po run va half n form ready passes noGather room
  obtain ⟨extra, offs, rfl, rfl, runs⟩ : ∃ (extra : List Pos) (offs : Ctx → Nat → Int), ps = [pd, pk] ++ extra ∧ off = offs c
      ∧ exec ld s = s.load len la.toNat g t d k extra offs := by
    rcases form with ⟨rfl, rfl, rfl, rfl⟩ | ⟨rfl, rfl, rfl, rfl⟩
    · exact ⟨[po], fun x i => x.signed i po, rfl, rfl, rfl⟩
    · exact ⟨[], fun _ _ => imm.toInt, rfl, rfl, rfl⟩
  have reg : d.notImm = true := notImm_of_loadOk (ready_ok ready.2 (p := pd) (by simp))
  have size : accBytes (accBits t d) = n := accBytes_accBits t reg
  have address (i : Nat) : (c.loadReq k (accBits t d) (offs c) i).va = va i := by rw [Ctx.loadReq, nibble_fst]; rfl
  have passes' : ∀ i ∈ run, Passes s c i pk (c.loadReq k (accBits t d) (offs c) i).va (accBytes (accBits t d)) 1 (accBits t d == 128)
      ⟨true, false, false⟩ (pas i) (lines i) := by
    intro i hi
    rw [address, size]
    exact passes i hi
  obtain ⟨next, quay, gathers, starts, answers⟩ := load_starts ready len la.toNat passes' noGather room
  obtain ⟨-, -, here, -⟩ := ctx_facts ready.1
  refine ⟨_, _, runs.trans starts, warp_loading _ _ _ _ _ _ _ _ _ here, loadOp_pending .., ?_⟩
  obtain ⟨mem, tags, teams, dies, writes⟩ := loading_frame s.issued c la.toNat pd _ next quay gathers run _ rfl
  refine ⟨mem, tags, teams, dies, writes, ?_, ?_⟩
  · rw [core_loading]
    have threads : (run.map (c.loadAcc k (accBits t d) (offs c) pas lines)).map (fun a => (⟨a.thread, pd.start (c.th a.thread),
          a.pas.map (fun p => (p, none)), a.half, accBits t d == 128 && (c.cap a.thread pk).grants pLDC, false, false⟩ : LoadThread))
        = run.map (fun i => ⟨i, pd.start (c.th i), (pas i).map (fun p => (p, none)), half i,
          bits == 128 && (c.cap i pk).perm.testBit 2, false, false⟩) := by
      rw [List.map_map]
      refine List.map_congr_left fun i _ => ?_
      simp only [Function.comp, Ctx.loadAcc, nibble_snd, grants_pLDC]
      rfl
    exact congrArg (fun ths => (s.core c.team.die c.team.core).loads ++ [(⟨s.nextId, c.ref.team, c.ref.warp, ⟨t, bits, d.bits⟩,
      match d with | .uni r => some (r, c.warp.handler.isSome) | _ => none, ths⟩ : LoadOp)]) threads
  · rw [core_loading]
    exact answers

end Sys2Proof.Machine

/-! PROOFS. LDS and STS (spec/03): the local store nibble by nibble, the offsets that R183 decodes, the accesses of a warp's threads. -/

namespace Sys2Proof.Machine

/-! ### Byte memories by nibbles (R46, R184) -/

/-- Nibble a of a byte memory, two to a byte, the lower first. -/
def Memory.nibble (m : Memory) (a : Nat) : Nat := (m.byte (a / 2)).toNat / 16 ^ (a % 2) % 16

/-- The nibble of a byte in place. -/
theorem nibble_byte (v k : Nat) : v / 16 ^ k % 16 = v / 2 ^ (8 * (k / 2)) % 256 / 16 ^ (k % 2) % 16 := by
  have split : 16 ^ k = 2 ^ (8 * (k / 2)) * 16 ^ (k % 2) := by
    conv_lhs => rw [← Nat.div_add_mod k 2, pow_add, pow_mul]
    rw [pow_mul 2 8]
    rfl
  rw [split, ← Nat.div_div_eq_div_mul]
  generalize v / 2 ^ (8 * (k / 2)) = x
  rcases Nat.mod_two_eq_zero_or_one k with h | h <;> rw [h] <;> omega

/-- A byte of a list in the number that it stands for. -/
theorem byte_leNat (l : List Byte) {j : Nat} (hj : j < l.length) : leNat l / 2 ^ (8 * j) % 256 = (l.getD j 0#8).toNat := by
  have read : (natLe l.length (leNat l)).getD j 0#8 = l.getD j 0#8 := by rw [natLe_leNat]
  rw [← read, natLe, List.getD_eq_getElem?_getD, List.getElem?_map, List.getElem?_range hj]
  rfl

theorem leNat_read_lt (m : Memory) (a n : Nat) : leNat (m.read a n) < 2 ^ (8 * n) := by
  have lt := leNat_lt (m.read a n)
  rwa [Memory.read, List.length_map, List.length_range] at lt

/-- The bytes that an access reads are its nibbles. -/
theorem nibble_read (m : Memory) (a : Nat) {n k : Nat} (hk : k < 2 * n) : leNat (m.read a n) / 16 ^ k % 16 = m.nibble (2 * a + k) := by
  have byte : (m.read a n).getD (k / 2) 0#8 = m.byte (a + k / 2) := by
    simp [Memory.read, show k / 2 < n by omega]
  rw [nibble_byte, byte_leNat _ (by simp [Memory.read]; omega), byte, Memory.nibble, show (2 * a + k) / 2 = a + k / 2 by omega,
    show (2 * a + k) % 2 = k % 2 by omega]

/-- The bytes that an access writes are its nibbles. -/
theorem nibble_write (m : Memory) (a n v q : Nat) :
    (m.write a (natLe n v)).nibble q = if 2 * a ≤ q ∧ q < 2 * a + 2 * n then v / 16 ^ (q - 2 * a) % 16 else m.nibble q := by
  rw [Memory.nibble, Memory.byte_write, length_natLe]
  have place : (a ≤ q / 2 ∧ q / 2 < a + n) ↔ (2 * a ≤ q ∧ q < 2 * a + 2 * n) := by omega
  by_cases inside : 2 * a ≤ q ∧ q < 2 * a + 2 * n
  · have byte : (natLe n v).getD (q / 2 - a) 0#8 = BitVec.ofNat 8 (v / 2 ^ (8 * (q / 2 - a))) := by
      simp [natLe, show q / 2 - a < n by omega]
    rw [if_pos (place.mpr inside), if_pos inside, byte, nibble_byte v, BitVec.toNat_ofNat, show (q - 2 * a) / 2 = q / 2 - a by omega,
      show (q - 2 * a) % 2 = q % 2 by omega]
  · rw [if_neg (mt place.mp inside), if_neg inside]
    rfl

theorem toNat_setNibble {old : Nat} (small : old < 256) (v : Nat) (high : Bool) :
    (BitVec.ofNat 8 (if high then setBits old 7 4 v else setBits old 3 0 v)).toNat
      = if high then old % 16 + 16 * (v % 16) else 16 * (old / 16) + v % 16 := by
  cases high <;> simp [setBits, bitsOf] <;> omega

/-- A nibble written over what its byte held. -/
theorem nibble_set (m : Memory) (a v q : Nat) (high : Bool) :
    (m.set a (BitVec.ofNat 8 (if high then setBits (m.byte a).toNat 7 4 v else setBits (m.byte a).toNat 3 0 v))).nibble q
      = if q = 2 * a + high.toNat then v % 16 else m.nibble q := by
  rw [Memory.nibble, Memory.nibble, Memory.byte_set]
  by_cases here : q / 2 = a
  · subst here
    have small := (m.byte (q / 2)).isLt
    rw [if_pos rfl, toNat_setNibble small]
    generalize (m.byte (q / 2)).toNat = old at small
    have bit := high.toNat_lt
    by_cases written : q = 2 * (q / 2) + high.toNat
    · rw [if_pos written, show q % 2 = high.toNat by omega]
      cases high <;> simp
      omega
    · rw [if_neg written, show q % 2 = 1 - high.toNat by omega]
      cases high <;> simp
      omega
  · have bit := high.toNat_lt
    rw [if_neg here, if_neg (show ¬ q = 2 * a + high.toNat by omega)]

theorem localNibble_eq {s : State} {T : Nat} {y : Team} (team : s.team? T = some y) (a : Nat) : s.localNibble T a = y.loc.nibble a := by
  rw [State.localNibble, team]
  rfl

/-! ### Offsets (R183) -/

/-- A thread's 128-bit access off its boundary. -/
abbrev lsMisaligned (bits : Nat) (off : Nat → Nat) (j : Nat) : Bool := bits == 128 && off j % 16 != 0

/-- The byte offset of a thread's access and, where the access has 4 bits, the nibble. -/
def lsAt (bits off : Nat) : Nat × Option Bool := if bits = 4 then (off / 2, some (off % 2 == 1)) else (off, none)

theorem lsAt_fst (bits off : Nat) : (lsAt bits off).1 = if bits = 4 then off / 2 else off := by
  unfold lsAt; split <;> rfl

section
variable {s : State} {c : Ctx}

/-- R183 decodes the offset of an access of n bytes that reaches a team. -/
theorem lsTarget_of_local {v n team : Nat} (h : s.Local c v n team) : s.lsTarget c v n = some (team, v % 2 ^ 19) := by
  obtain ⟨y, named, fits, where_⟩ := h
  rcases where_ with ⟨own, rfl⟩ | ⟨low, high, q, k, convoy, found, slot⟩
  · have plain : bitOf v 24 = false ∧ bitsOf v 23 19 = 0 := by
      refine ⟨?_, ?_⟩
      · rw [bitOf, Nat.div_eq_of_lt (by omega)]; rfl
      · rw [bitsOf, Nat.div_eq_of_lt (by omega)]; rfl
    simp only [State.lsTarget, show ¬ 2 ^ 25 ≤ v by omega, plain, named, fits, if_false, if_true, Bool.not_false]
  · have window : bitOf v 24 = true := by
      rw [bitOf, beq_iff_eq]
      omega
    have column : bitsOf v 22 19 = v / 2 ^ 19 % 32 % 16 := by
      rw [bitsOf]
      omega
    have row : (if bitOf v 23 then 1 else 0) = v / 2 ^ 19 % 32 / 16 := by
      have bit : bitOf v 23 = decide (v / 2 ^ 19 % 32 / 16 = 1) := by
        rw [bitOf, Bool.eq_iff_iff, beq_iff_eq, decide_eq_true_iff]
        omega
      rw [bit]
      simp only [decide_eq_true_eq]
      split <;> omega
    simp only [State.lsTarget, show ¬ 2 ^ 25 ≤ v by omega, window, convoy, found, column, row, if_false, Bool.not_true,
      Bool.false_eq_true, Option.bind_some]
    cases straddles : k.straddles with
    | true =>
      simp only [straddles, if_true] at slot
      obtain ⟨left, member⟩ := slot
      simp only [left, if_true, Option.bind_some, Nat.mul_comm _ 8, member, named, fits]
    | false =>
      simp only [straddles, Bool.false_eq_true, if_false] at slot
      obtain ⟨lower, member⟩ := slot
      simp only [Bool.false_eq_true, if_false, show v / 2 ^ 19 % 32 / 16 = 0 by omega, if_true, Option.bind_some,
        Nat.mod_eq_of_lt lower, member, named, fits]

theorem lsTarget_beyond {v : Nat} (beyond : 2 ^ 25 ≤ v) (n : Nat) : s.lsTarget c v n = none := if_pos beyond

variable {bits : Nat} {off : Nat → Nat} {i : Nat} {rest run : List Nat}

theorem lsTargets_misaligned (found : run.find? (lsMisaligned bits off) = some i) :
    s.lsTargets c run bits off = .error (mkTrap cILLOPND (opInfo i 2)) := by
  simp only [State.lsTargets, found]

theorem find_aligned (aligned : ∀ j ∈ run, lsMisaligned bits off j = false) :
    run.find? (lsMisaligned bits off) = none := by
  rw [List.find?_eq_none]
  exact fun j hj => by rw [aligned j hj]; decide

theorem lsTargets_cons_ok (aligned : ∀ j ∈ i :: rest, lsMisaligned bits off j = false) {target : Nat × Nat}
    (first : s.lsTarget c (lsAt bits (off i)).1 (accBytes bits) = some target) {l : List (Nat × Nat × Nat × Option Bool)}
    (others : s.lsTargets c rest bits off = .ok l) :
    s.lsTargets c (i :: rest) bits off = .ok ((i, target.1, target.2, (lsAt bits (off i)).2) :: l) := by
  simp only [State.lsTargets, find_aligned aligned, find_aligned (List.forall_mem_cons.mp aligned).2, List.foldr_cons] at others ⊢
  rw [others]
  unfold lsAt at first ⊢
  rw [first]

theorem lsTargets_cons_beyond (aligned : ∀ j ∈ i :: rest, lsMisaligned bits off j = false)
    (first : s.lsTarget c (lsAt bits (off i)).1 (accBytes bits) = none) :
    s.lsTargets c (i :: rest) bits off = .error (mkTrap cLSBOUND 0) := by
  simp only [State.lsTargets, find_aligned aligned, List.foldr_cons]
  unfold lsAt at first
  rw [first]

theorem lsTargets_cons_error (aligned : ∀ j ∈ i :: rest, lsMisaligned bits off j = false)
    (others : s.lsTargets c rest bits off = .error (mkTrap cLSBOUND 0)) :
    s.lsTargets c (i :: rest) bits off = .error (mkTrap cLSBOUND 0) := by
  cases first : s.lsTarget c (lsAt bits (off i)).1 (accBytes bits) with
  | none => exact lsTargets_cons_beyond aligned first
  | some target =>
    simp only [State.lsTargets, find_aligned aligned, find_aligned (List.forall_mem_cons.mp aligned).2, List.foldr_cons] at others ⊢
    rw [others]
    unfold lsAt at first
    rw [first]

/-- Every thread's access reaches its team. -/
theorem lsTargets_local {team : Nat → Nat} (aligned : ∀ j ∈ run, lsMisaligned bits off j = false)
    (reach : ∀ j ∈ run, s.Local c (lsAt bits (off j)).1 (accBytes bits) (team j)) : s.lsTargets c run bits off
      = .ok (run.map (fun j => (j, team j, (lsAt bits (off j)).1 % 2 ^ 19, (lsAt bits (off j)).2))) := by
  induction run with
  | nil => rfl
  | cons j rest ih =>
    obtain ⟨-, aligned'⟩ := List.forall_mem_cons.mp aligned
    obtain ⟨first, others⟩ := List.forall_mem_cons.mp reach
    exact lsTargets_cons_ok aligned (lsTarget_of_local first) (ih aligned' others)

/-- Some thread's offset lies beyond every window. -/
theorem lsTargets_beyond (aligned : ∀ j ∈ run, lsMisaligned bits off j = false)
    (beyond : ∃ j ∈ run, 2 ^ 25 ≤ (lsAt bits (off j)).1) : s.lsTargets c run bits off = .error (mkTrap cLSBOUND 0) := by
  induction run with
  | nil =>
    obtain ⟨j, hj, -⟩ := beyond
    cases hj
  | cons j rest ih =>
    rw [List.exists_mem_cons_iff] at beyond
    rcases beyond with first | others
    · exact lsTargets_cons_beyond aligned (lsTarget_beyond first _)
    · exact lsTargets_cons_error aligned (ih (List.forall_mem_cons.mp aligned).2 others)

end

/-! ### LDS (R351, R352) -/

/-- A step's effect matters in the threads that run alone. -/
theorem WarpAfter.congr {c : Ctx} {la : Nat} {w : Warp} {run : List Nat} {d : Option Pos} {e e' : Nat → Eff}
    (h : WarpAfter c la w run d e) (same : ∀ i ∈ run, e i = e' i) : WarpAfter c la w run d e' := by
  obtain ⟨ran, idle, uni, noUni, other, count⟩ := h
  refine ⟨fun i hi inside => same i hi ▸ ran i hi inside, idle, fun p k i v hd hk first hv => ?_, noUni, other, count⟩
  exact uni p k i v hd hk first ((same i (List.mem_of_mem_head? first)) ▸ hv)

/-- The bits at an offset of a team's local store. -/
def State.localValue (s : State) (team off bits : Nat) (half : Option Bool) : Nat :=
  halfOf half (leNat (match s.team? team with | some x => x.loc.read off (accBytes bits) | none => []))

/-- Such an access moves a nibble or whole bytes. -/
theorem nibble_or_bytes : ∀ bits ∈ [4, 8, 16, 32, 64, 128], bits = 4 ∨ bits ≠ 4 ∧ bits = 8 * accBytes bits := by decide

/-- The first nibble of an access of some bits at an offset of a team's local store. -/
def localBase (bits off r : Nat) : Nat := 2 * r + (if bits = 4 then off % 2 else 0)

/-- What a load writes for a thread whose target is listed. -/
def State.loadedValue (s : State) (f : LoadForm) (l : List (Nat × Nat × Nat × Option Bool)) (i : Nat) : Nat :=
  match l.find? (fun p => p.1 == i) with
  | some (_, team, off, half) => writeLoad f (s.localValue team off f.bits half)
  | none => 0

theorem loadedValue_map {s : State} (f : LoadForm) (target : Nat → Nat × Nat × Option Bool) {run : List Nat} {i : Nat} (hi : i ∈ run) :
    s.loadedValue f (run.map (fun j => (j, target j))) i = writeLoad f (s.localValue (target i).1 (target i).2.1 f.bits (target i).2.2) := by
  have found : (run.map (fun j => (j, target j))).find? (fun p => p.1 == i) = some (i, target i) := by
    cases hp : (run.map (fun j => (j, target j))).find? (fun p => p.1 == i) with
    | none => exact absurd (beq_self_eq_true i) (List.find?_eq_none.mp hp _ (List.mem_map_of_mem hi))
    | some p =>
      obtain ⟨j, -, rfl⟩ := List.mem_map.mp (List.mem_of_find?_eq_some hp)
      have same := List.find?_some hp
      obtain rfl : j = i := beq_iff_eq.mp same
      rfl
  rw [State.loadedValue, found]

/-- The bits of a local access are the nibbles from its offset. -/
theorem localValue_nibbles {s : State} {team bits : Nat} {y : Team} (named : s.team? team = some y) (sizes : bits ∈ [4, 8, 16, 32, 64, 128])
    (off r : Nat) : s.localValue team r bits (lsAt bits off).2 < 2 ^ bits ∧ ∀ k < bits / 4,
      s.localValue team r bits (lsAt bits off).2 / 16 ^ k % 16 = s.localNibble team (localBase bits off r + k) := by
  simp only [State.localValue, named, localNibble_eq named]
  rcases nibble_or_bytes bits sizes with rfl | ⟨four, whole⟩
  · simp only [lsAt, if_true, accBytes]
    have digit (k : Nat) (hk : k < 2) : leNat (y.loc.read r 1) / 16 ^ k % 16 = y.loc.nibble (2 * r + k) := nibble_read y.loc r (by omega)
    have half : halfOf (some (off % 2 == 1)) (leNat (y.loc.read r 1)) = y.loc.nibble (2 * r + off % 2) := by
      rcases Nat.mod_two_eq_zero_or_one off with h | h
      · simpa [halfOf, h] using digit 0 (by omega)
      · simpa [halfOf, h] using digit 1 (by omega)
    change halfOf (some (off % 2 == 1)) (leNat (y.loc.read r 1)) < 2 ^ 4 ∧ ∀ k < 1,
      halfOf (some (off % 2 == 1)) (leNat (y.loc.read r 1)) / 16 ^ k % 16 = y.loc.nibble (2 * r + off % 2 + k)
    rw [half]
    have lt : y.loc.nibble (2 * r + off % 2) < 16 := Nat.mod_lt _ (by decide)
    refine ⟨lt, fun k hk => ?_⟩
    obtain rfl : k = 0 := by omega
    rw [pow_zero, Nat.div_one, Nat.mod_eq_of_lt lt, Nat.add_zero]
  · simp only [lsAt, localBase, four, if_false, halfOf, Nat.add_zero]
    refine ⟨lt_of_lt_of_eq (leNat_read_lt ..) (by rw [← whole]), fun k hk => nibble_read _ _ (by omega)⟩

section
variable {s : State} {g : Guard} {t : Ty} {d : Opnd} {c : Ctx} {extra : List Pos} {off : Ctx → Nat → Nat}

theorem loadLocal_traps (ready : s.Ready g (Pos.dst d (loadOk t d) :: extra) c) {trap : Trap}
    (fails : s.lsTargets c (c.runs (some (Pos.dst d (loadOk t d)))) (accBits t d) (off c) = .error trap) (len la : Nat) :
    s.loadLocal len la g t d extra off = .next (s.issued.deliver c.ref trap) := by
  have fails' : s.issued.lsTargets c (c.runs (some (Pos.dst d (loadOk t d)))) (accBits t d) (off c) = .error trap := fails
  rw [State.loadLocal, issue_ready ready]
  simp only [fails', Done.state]

theorem loadLocal_reads (ready : s.Ready g (Pos.dst d (loadOk t d) :: extra) c) {target : Nat → Nat × Nat × Option Bool}
    (found : s.lsTargets c (c.runs (some (Pos.dst d (loadOk t d)))) (accBits t d) (off c)
      = .ok ((c.runs (some (Pos.dst d (loadOk t d)))).map (fun i => (i, target i)))) (len la : Nat) :
    ∃ w, WarpAfter c la w (c.runs (some (Pos.dst d (loadOk t d)))) (some (Pos.dst d (loadOk t d)))
        (fun i => .ofVal (writeLoad ⟨t, accBits t d, d.bits⟩ (s.localValue (target i).1 (target i).2.1 (accBits t d) (target i).2.2)))
      ∧ s.loadLocal len la g t d extra off = .next ((s.issued.updWarp c.ref.team c.ref.warp (fun _ => w)).complete c.ref len) := by
  set pd := Pos.dst d (loadOk t d)
  set run := c.runs (some pd)
  have found' : s.issued.lsTargets c run (accBits t d) (off c) = .ok (run.map (fun i => (i, target i))) := found
  have start : ∀ i ∈ run, ∀ p, some pd = some p → p.start (c.th i) + p.slices ≤ 512 := by
    rintro i hi _ ⟨⟩
    exact ready_start ready.2 List.mem_cons_self (runs_subset c _ i hi)
  have after := commit_after c run (some pd) la
    (fun i => .ofVal (s.loadedValue ⟨t, accBits t d, d.bits⟩ (run.map (fun i => (i, target i))) i)) start
  refine ⟨_, after.congr fun i hi => congrArg Eff.ofVal (loadedValue_map _ _ hi), ?_⟩
  rw [State.loadLocal, issue_ready ready]
  simp only
  rw [found']
  rfl

end

/-! ### STS (R381) -/

/-- A write of some bits at an offset is a write of its nibbles. -/
theorem localNibble_lsWrite {s : State} {team bits : Nat} {y : Team} (named : s.team? team = some y) (sizes : bits ∈ [4, 8, 16, 32, 64, 128])
    (off r v T a : Nat) : (s.lsWrite team r bits (lsAt bits off).2 v).localNibble T a =
      if T = team ∧ localBase bits off r ≤ a ∧ a < localBase bits off r + bits / 4 then v / 16 ^ (a - localBase bits off r) % 16
      else s.localNibble T a := by
  by_cases mine : T = team
  · subst mine
    have after : (s.lsWrite T r bits (lsAt bits off).2 v).team? T = _ := (State.team_updTeam ..).trans ((if_pos rfl).trans (congrArg _ named))
    rw [localNibble_eq named, localNibble_eq after]
    simp only [true_and]
    rcases nibble_or_bytes bits sizes with rfl | ⟨four, whole⟩
    · have parity : (off % 2 == 1).toNat = off % 2 := by
        rcases Nat.mod_two_eq_zero_or_one off with h | h <;> rw [h] <;> rfl
      refine (nibble_set y.loc r v a (off % 2 == 1)).trans ?_
      rw [parity, localBase, if_pos rfl]
      by_cases here : a = 2 * r + off % 2
      · simp [here]
      · rw [if_neg here, if_neg (show ¬ (2 * r + off % 2 ≤ a ∧ a < 2 * r + off % 2 + 4 / 4) by omega)]
    · simp only [lsAt, localBase, four, if_false, Nat.add_zero, show bits / 4 = 2 * accBytes bits by omega]
      exact nibble_write y.loc r (accBytes bits) v a
  · have other : (s.lsWrite team r bits (lsAt bits off).2 v).team? T = s.team? T := (State.team_updTeam ..).trans (if_neg mine)
    rw [State.localNibble, other]
    simp [mine, State.localNibble]

/-- The states agree but for the contents of the teams' local stores. -/
def State.SameButLocal (s u : State) : Prop :=
  { u with teams := s.teams } = s ∧ ∀ T, (u.team? T).map (fun y => { y with loc := [] }) = (s.team? T).map (fun y => { y with loc := [] })

theorem sameButLocal_lsWrite (s : State) (team r bits : Nat) (half : Option Bool) (v : Nat) : s.SameButLocal (s.lsWrite team r bits half v) := by
  refine ⟨rfl, fun T => ?_⟩
  rw [State.lsWrite, State.team_updTeam]
  split
  · rw [Option.map_map]
    rfl
  · rfl

theorem State.SameButLocal.trans {s t u : State} (first : s.SameButLocal t) (second : t.SameButLocal u) : s.SameButLocal u :=
  ⟨(congrArg (fun x : State => { x with teams := s.teams }) second.1).trans first.1, fun T => (second.2 T).trans (first.2 T)⟩

/-- A team keeps its place. -/
theorem State.SameButLocal.team {s u : State} (h : s.SameButLocal u) {T : Nat} {y : Team} (named : s.team? T = some y) : ∃ z, u.team? T = some z := by
  have same := h.2 T
  rw [named] at same
  obtain ⟨z, hz, -⟩ := Option.map_eq_some_iff.mp same
  exact ⟨z, hz⟩

/-- Threads' values written one after another, each at its target. -/
def State.lsWrites (s : State) (bits : Nat) (off team r value : Nat → Nat) (run : List Nat) : State :=
  run.foldl (fun u i => u.lsWrite (team i) (r i) bits (lsAt bits (off i)).2 (value i)) s

section
variable {s : State} {bits : Nat} {off team r value : Nat → Nat} {run : List Nat}

theorem lsWrites_concat (i : Nat) : s.lsWrites bits off team r value (run ++ [i])
    = (s.lsWrites bits off team r value run).lsWrite (team i) (r i) bits (lsAt bits (off i)).2 (value i) := by
  rw [State.lsWrites, List.foldl_append]
  rfl

theorem sameButLocal_lsWrites : s.SameButLocal (s.lsWrites bits off team r value run) := by
  induction run using List.reverseRecOn with
  | nil => exact ⟨rfl, fun _ => rfl⟩
  | append_singleton rest i ih =>
    rw [lsWrites_concat]
    exact State.SameButLocal.trans ih (sameButLocal_lsWrite ..)

/-- The last thread that writes a nibble leaves its digit there. -/
theorem localNibble_lsWrites (sizes : bits ∈ [4, 8, 16, 32, 64, 128]) (named : ∀ i ∈ run, ∃ y, s.team? (team i) = some y) (T a : Nat)
    {base : Nat → Nat} (hbase : ∀ i, base i = localBase bits (off i) (r i)) :
    (s.lsWrites bits off team r value run).localNibble T a
      = ((run.reverse.find? (fun i => team i == T && base i ≤ a && a < base i + bits / 4)).map
          (fun i => value i / 16 ^ (a - base i) % 16)).getD (s.localNibble T a) := by
  induction run using List.reverseRecOn with
  | nil => rfl
  | append_singleton rest i ih =>
    obtain ⟨y, hy⟩ := named i (by simp)
    obtain ⟨z, hz⟩ := State.SameButLocal.team (sameButLocal_lsWrites (bits := bits) (off := off) (r := r) (value := value) (run := rest)) hy
    rw [lsWrites_concat, localNibble_lsWrite hz sizes, ← hbase, ih (fun j hj => named j (by simp [hj])), List.reverse_append,
      List.reverse_singleton, List.singleton_append]
    have test : (team i == T && base i ≤ a && a < base i + bits / 4) = true ↔ T = team i ∧ base i ≤ a ∧ a < base i + bits / 4 := by
      simp only [Bool.and_eq_true, beq_iff_eq, decide_eq_true_eq, and_assoc, eq_comm (a := T)]
    rw [List.find?_cons]
    cases hit : (team i == T && base i ≤ a && a < base i + bits / 4) with
    | true =>
      rw [if_pos (test.mp hit)]
      rfl
    | false => rw [if_neg (mt test.mpr (by rw [hit]; decide))]

end

section
variable {s : State} {g : Guard} {t : Ty} {d : Opnd} {c : Ctx} {extra : List Pos} {off : Ctx → Nat → Nat}

/-- The position of the data that a store reads. -/
abbrev storePos (t : Ty) (d : Opnd) : Pos := ⟨0, d, none, storeOk t d, true, false, BitVec.allOnes 32⟩

theorem storeLocal_traps (ready : s.Ready g (storePos t d :: extra) c) {trap : Trap}
    (fails : s.lsTargets c c.on (accBits t d) (off c) = .error trap) (len : Nat) :
    s.storeLocal len g t d extra off = .next (s.issued.deliver c.ref trap) := by
  have fails' : s.issued.lsTargets c c.on (accBits t d) (off c) = .error trap := fails
  rw [State.storeLocal, issue_ready ready]
  simp only [fails', Done.state]

theorem storeLocal_writes (ready : s.Ready g (storePos t d :: extra) c) {team r : Nat → Nat}
    (found : s.lsTargets c c.on (accBits t d) (off c) = .ok (c.on.map (fun i => (i, team i, r i, (lsAt (accBits t d) (off c i)).2)))) (len : Nat) :
    s.storeLocal len g t d extra off = .next ((s.issued.lsWrites (accBits t d) (off c) team r
      (fun i => if t = .none then c.raw i (storePos t d) else c.int t i (storePos t d)) c.on).complete c.ref len) := by
  have found' : s.issued.lsTargets c c.on (accBits t d) (off c) = _ := found
  rw [State.storeLocal, issue_ready ready]
  simp only [found', Done.state, List.foldl_map]
  rfl

end

/-- Settles O22: the targets of the threads by R183's decoding, the value read and the values written nibble by nibble. -/
theorem localStore : Obligations.LocalStore := by
  intro s g la t d o imm c ld st len ps off team bits pd pa po v n base misaligned form
  obtain ⟨offs, rfl, lds, sts⟩ : ∃ offs : Ctx → Nat → Nat, off = offs c ∧ exec ld s = s.loadLocal len la.toNat g t d ps offs
      ∧ exec st s = s.storeLocal len g t d ps offs := by
    rcases form with ⟨rfl, rfl, rfl, rfl, rfl⟩ | ⟨rfl, rfl, rfl, rfl, rfl⟩
    · exact ⟨fun x i => x.u32 i po, rfl, rfl, rfl⟩
    · exact ⟨fun _ _ => imm.toNat, rfl, rfl, rfl⟩
  have offset (i : Nat) : (lsAt (accBits t d) (offs c i)).1 = v i := lsAt_fst ..
  have targets {run : List Nat} (reg : d.notImm = true) (pass : ∀ i ∈ run, misaligned i = false ∧ s.Local c (v i) n (team i)) :
      s.lsTargets c run (accBits t d) (offs c) = .ok (run.map (fun i => (i, team i, v i % 2 ^ 19, (lsAt (accBits t d) (offs c i)).2))) := by
    have size : accBytes (accBits t d) = n := accBytes_accBits t reg
    have reach : ∀ i ∈ run, s.Local c (lsAt (accBits t d) (offs c i)).1 (accBytes (accBits t d)) (team i) := by
      intro i hi
      rw [offset, size]
      exact (pass i hi).2
    have found := lsTargets_local (bits := accBits t d) (off := offs c) (fun i hi => (pass i hi).1) reach
    simpa only [offset] using found
  have beyond {run : List Nat} (aligned : ∀ i ∈ run, misaligned i = false) (far : ∃ i ∈ run, 2 ^ 25 ≤ v i) :
      s.lsTargets c run (accBits t d) (offs c) = .error (mkTrap cLSBOUND 0) :=
    lsTargets_beyond aligned (by simpa only [offset] using far)
  refine ⟨fun ready => ?load, fun ready => ?store⟩
  case load =>
    have reg : d.notImm = true := notImm_of_loadOk (ready_ok ready.2 (p := pd) List.mem_cons_self)
    refine ⟨fun pass => ?_, fun i found => lds.trans (loadLocal_traps ready (lsTargets_misaligned found) ..),
      fun aligned far => lds.trans (loadLocal_traps ready (beyond aligned far) ..)⟩
    obtain ⟨w, after, goes⟩ := loadLocal_reads ready (target := fun i => (team i, v i % 2 ^ 19, (lsAt (accBits t d) (offs c i)).2))
      (targets reg pass) len la.toNat
    refine ⟨fun i => s.localValue (team i) (v i % 2 ^ 19) bits (lsAt bits (offs c i)).2, fun i hi => ?_, w, after, lds.trans goes⟩
    obtain ⟨y, named, -⟩ := (pass i hi).2
    exact localValue_nibbles named (accBits_cases t reg) (offs c i) _
  case store =>
    have reg : d.notImm = true := notImm_of_storeOk (ready_ok ready.2 (p := pa) List.mem_cons_self)
    refine ⟨fun pass => ?_, fun i found => sts.trans (storeLocal_traps ready (lsTargets_misaligned found) ..),
      fun aligned far => sts.trans (storeLocal_traps ready (beyond aligned far) ..)⟩
    obtain ⟨same, teams⟩ := sameButLocal_lsWrites (s := s.issued) (bits := accBits t d) (off := offs c) (team := team)
      (r := fun i => v i % 2 ^ 19) (value := fun i => if t = .none then c.raw i pa else c.int t i pa) (run := c.on)
    refine ⟨_, sts.trans (storeLocal_writes ready (targets reg pass) len), same, teams, fun T a => ?_⟩
    have named : ∀ i ∈ c.on, ∃ y, s.issued.team? (team i) = some y := by
      intro i hi
      obtain ⟨y, named, -⟩ := (pass i hi).2
      exact ⟨y, named⟩
    have last : _ = ((c.on.reverse.find? (fun i => team i == T && base i ≤ a && a < base i + bits / 4)).map
        (fun i => (if t = .none then c.raw i pa else c.int t i pa) / 16 ^ (a - base i) % 16)).getD (s.localNibble T a) :=
      localNibble_lsWrites (accBits_cases t reg) named T a (fun _ => rfl)
    refine last.trans ?_
    cases c.on.reverse.find? (fun i => team i == T && base i ≤ a && a < base i + bits / 4) with
    | some i => rfl
    | none => rfl

end Sys2Proof.Machine

/-! PROOFS. The encoding (spec/04, spec/05): words decoded and encoded, the opcode 0, the guard's field. -/

namespace Sys2Proof.Laws.Reads

/-- Every instruction with a word is read back, each by its own law. -/
theorem statement_all (i : Instr) : Statement i := by
  by_cases word : i.hasWord = true
  · cases i <;> cases word <;> simp only [
      iadd, iaddX, iaddI, isub, isubX, imul, imulX, imulI, idiv, imin, iminX, imax, imaxX, iabs, imad, iset, isetI, and, andX, andI,
      andn, or, orX, orI, xor, xorX, xorI, shl, shr, sha, rot, popc, clz, brev, bfx, bfi, mov, movX, movi, movxRead, movxWrite, shfl,
      vote, ballot, redw, sel, selX, fadd, faddX, faddI, fsub, fsubX, fmul, fmulX, fmulI, ffma, fmin, fminX, fmax, fmaxX, frcp, frsq,
      fsfn, fset, fsetX, fsetI, fcls, frnd, fcvt, fcvtX, cvti, cvtiX, pack, packX, unpk, unpkX, ld, ldI, st, stI, lds, ldsI, sts, stsI,
      pref, atom, cas, red, capn, capq, caps, give, claim, rgn, srd, swr, bra, brx, call, ret, exit, nop, nopLong, yield, plop, fence,
      acq, rel, bind, unbind, waitc, rvinit, rvarr, rvexp, rvwaitPlain, rvwaitTimed, rvinv, rinit, rwait, rrel, cpwait, copy, copym,
      task, krel, qpush, qpop, lnch, cncl, cwait, mma, mspa, mloop, mldb, mlds, mdrn, mzro, tokp, tokw, vdset, vdot, vthr, topk, trap,
      bkpt, sysc, eret, iflush]
  · exact fun h => absurd h word

end Sys2Proof.Laws.Reads

namespace Sys2Proof.Laws.Fits

/-- Every instruction with a word fits its length, each by its own law. -/
theorem statement_all (i : Instr) : Statement i := by
  by_cases word : i.hasWord = true
  · cases i <;> cases word <;> simp only [
      iadd, iaddX, iaddI, isub, isubX, imul, imulX, imulI, idiv, imin, iminX, imax, imaxX, iabs, imad, iset, isetI, and, andX, andI,
      andn, or, orX, orI, xor, xorX, xorI, shl, shr, sha, rot, popc, clz, brev, bfx, bfi, mov, movX, movi, movxRead, movxWrite, shfl,
      vote, ballot, redw, sel, selX, fadd, faddX, faddI, fsub, fsubX, fmul, fmulX, fmulI, ffma, fmin, fminX, fmax, fmaxX, frcp, frsq,
      fsfn, fset, fsetX, fsetI, fcls, frnd, fcvt, fcvtX, cvti, cvtiX, pack, packX, unpk, unpkX, ld, ldI, st, stI, lds, ldsI, sts, stsI,
      pref, atom, cas, red, capn, capq, caps, give, claim, rgn, srd, swr, bra, brx, call, ret, exit, nop, nopLong, yield, plop, fence,
      acq, rel, bind, unbind, waitc, rvinit, rvarr, rvexp, rvwaitPlain, rvwaitTimed, rvinv, rinit, rwait, rrel, cpwait, copy, copym,
      task, krel, qpush, qpop, lnch, cncl, cwait, mma, mspa, mloop, mldb, mlds, mdrn, mzro, tokp, tokw, vdset, vdot, vthr, topk, trap,
      bkpt, sysc, eret, iflush]
  · exact fun h => absurd h word

end Sys2Proof.Laws.Fits

namespace Sys2Proof.Machine

/-! ### The part of a word that its length code covers (R66) -/

theorem lenBytes_cases {c : BitVec 2} {n : Nat} (len : lenBytes c = some n) : n = 8 ∨ n = 12 ∨ n = 16 := by
  unfold lenBytes at len
  split at len <;> cases len <;> decide

theorem clip_eq {w : IWord} {n : Nat} (len : lenBytes (w.extractLsb' 0 2) = some n) :
    clip w = w &&& (BitVec.allOnes 128 >>> (128 - 8 * n)) := by
  rw [clip, len]

/-- What fits in a length is covered by it. -/
theorem and_cover {w : IWord} {n : Nat} {c : BitVec 2} (len : lenBytes c = some n) (fits : w.toNat < 2 ^ (8 * n)) :
    w &&& (BitVec.allOnes 128 >>> (128 - 8 * n)) = w := by
  have mask : (BitVec.allOnes 128 >>> (128 - 8 * n)).toNat = 2 ^ (8 * n) - 1 := by
    rcases lenBytes_cases len with rfl | rfl | rfl <;> rfl
  apply BitVec.eq_of_toNat_eq
  rw [BitVec.toNat_and, mask, Nat.and_two_pow_sub_one_eq_mod, Nat.mod_eq_of_lt fits]

theorem getLsbD_clip (w : IWord) {k : Nat} (hk : k < 64) : (clip w).getLsbD k = w.getLsbD k := by
  cases len : lenBytes (w.extractLsb' 0 2) with
  | none => rw [clip, len]
  | some n =>
    have covered : 128 - 8 * n + k < 128 := by
      rcases lenBytes_cases len with rfl | rfl | rfl <;> omega
    rw [clip_eq len, BitVec.getLsbD_and, BitVec.getLsbD_ushiftRight, BitVec.getLsbD_allOnes, decide_eq_true covered, Bool.and_true]

theorem extractLsb'_clip (w : IWord) {lo n : Nat} (low : lo + n ≤ 64) : (clip w).extractLsb' lo n = w.extractLsb' lo n := by
  apply BitVec.eq_of_getLsbD_eq
  intro k hk
  rw [BitVec.getLsbD_extractLsb', BitVec.getLsbD_extractLsb', getLsbD_clip w (by omega)]

/-- A word with nothing beyond its length is covered whole. -/
theorem clip_toWord {r : Raw} {n : Nat} (len : lenBytes r.len = some n) (hi : n < 16 → r.hi = 0#32) (lo : n < 12 → r.lo = 0#32) :
    clip r.toWord = r.toWord := by
  have code : r.toWord.extractLsb' 0 2 = r.len := congrArg Raw.len (Raw.ofWord_toWord r)
  have small : r.toWord.toNat < 2 ^ (8 * n) := by
    have word := r.toNat_toWord
    have h1 := r.len.isLt; have h2 := r.opc.isLt; have h3 := r.la.isLt; have h4 := r.pred.isLt; have h5 := r.dst.isLt
    have h6 := r.src1.isLt; have h7 := r.src2.isLt; have h8 := r.ty.isLt; have h9 := r.md.isLt; have h10 := r.lo.isLt
    have h11 := r.hi.isLt
    rcases lenBytes_cases len with rfl | rfl | rfl
    · rw [hi (by decide), lo (by decide), BitVec.toNat_zero] at word
      omega
    · rw [hi (by decide), BitVec.toNat_zero] at word
      omega
    · omega
  rw [clip_eq (code ▸ len), and_cover len small]

/-- Bits of the first 64 that are no length code stand in every length. -/
theorem clip_or {m : IWord} (code : m.extractLsb' 0 2 = 0#2) (low : m.toNat < 2 ^ 64) (w : IWord) : clip (w ||| m) = clip w ||| m := by
  have same : (w ||| m).extractLsb' 0 2 = w.extractLsb' 0 2 := by rw [BitVec.extractLsb'_or, code, BitVec.or_zero]
  cases len : lenBytes (w.extractLsb' 0 2) with
  | none => rw [clip, clip, same, len]
  | some n =>
    have long : 2 ^ 64 ≤ 2 ^ (8 * n) := by
      rcases lenBytes_cases len with rfl | rfl | rfl <;> decide
    rw [clip_eq len, clip_eq (same ▸ len), BitVec.and_or_distrib_right, and_cover len (low.trans_le long)]

/-! ### The word of an instruction -/

theorem encode_of_wf {i : Instr} (wf : i.wf = true) : encode i = (encRaw i).toWord := by
  cases i with
  | unassignedOpcode => cases wf
  | _ => rfl

/-- What has no word has the length code that no word has. -/
theorem lenBytes_of_wordless {i : Instr} (wordless : i.hasWord = false) : lenBytes (encRaw i).len = none := by
  unfold Instr.hasWord at wordless
  unfold encRaw
  cases group : i.group with
  | other | event => rfl
  | _ => rw [group] at wordless; cases wordless

theorem clip_encode {i : Instr} (word : i.hasWord = true) (wf : i.wf = true) : clip (encode i) = encode i := by
  obtain ⟨len, hi, lo⟩ := Laws.Fits.statement_all i word
  rw [encode_of_wf wf, clip_toWord len hi lo]

/-- Check 2 of R79 on a word whose fields are read as an instruction. -/
theorem decodeWord_of_parse {w : IWord} {i : Instr} (parsed : parse (Raw.ofWord (clip w)) = .ok i) :
    decodeWord w = if lenBytes (Raw.ofWord (clip w)).len ≠ some i.bytes then .error .badLength
      else if i.wf = false then .error .illFormed
      else if encode i ≠ clip w then .error .reservedBits
      else .ok i := by
  simp only [decodeWord, parsed, okBind]
  split_ifs <;> rfl

/-- A word decodes to the well-formed instruction whose word it covers, and to nothing else. -/
theorem decodeWord_eq_ok_iff {w : IWord} {i : Instr} :
    decodeWord w = .ok i ↔ i.hasWord = true ∧ i.wf = true ∧ encode i = clip w := by
  constructor
  · intro decoded
    cases parsed : parse (Raw.ofWord (clip w)) with
    | error e =>
      rw [decodeWord, parsed] at decoded
      cases decoded
    | ok k =>
      rw [decodeWord_of_parse parsed] at decoded
      split_ifs at decoded with len illFormed reserved
      cases decoded
      have wf : i.wf = true := Bool.eq_true_of_not_eq_false illFormed
      have covers : encode i = clip w := not_not.mp reserved
      refine ⟨?_, wf, covers⟩
      by_contra wordless
      rw [← covers, encode_of_wf wf, Raw.ofWord_toWord, lenBytes_of_wordless (Bool.eq_false_of_not_eq_true wordless)] at len
      exact len nofun
  · rintro ⟨word, wf, covers⟩
    have fields : Raw.ofWord (clip w) = encRaw i := by rw [← covers, encode_of_wf wf, Raw.ofWord_toWord]
    have parsed : parse (Raw.ofWord (clip w)) = .ok i := fields ▸ Laws.Reads.statement_all i word wf
    have len : lenBytes (Raw.ofWord (clip w)).len = some i.bytes := fields ▸ (Laws.Fits.statement_all i word).1
    rw [decodeWord_of_parse parsed, if_neg (not_not.mpr len), if_neg (by simp [wf]), if_neg (not_not.mpr covers)]

/-- Settles O53: the fields that the tables give are read back as the instruction, and nothing stands beyond its length. -/
theorem encodeDecode : Obligations.EncodeDecode :=
  fun _ word wf => decodeWord_eq_ok_iff.mpr ⟨word, wf, (clip_encode word wf).symm⟩

/-! ### Opcode 0 (R68) -/

theorem parse_opcodeZero {r : Raw} (opc : r.opc = 0#8) : parse r = .error .unassigned := by
  rw [parse_0 (by rw [opc]; rfl), parse0, opc]
  rfl

theorem decodeWord_opcodeZero {w : IWord} (opc : w.extractLsb' 2 8 = 0#8) : decodeWord w = .error .unassigned := by
  have fields : (Raw.ofWord (clip w)).opc = 0#8 := (extractLsb'_clip w (by decide)).trans opc
  rw [decodeWord, parse_opcodeZero fields]
  rfl

/-- Settles O57: no row of the opcode map reads opcode 0, and what is no instruction issues into the trap. -/
theorem opcodeZero : Obligations.OpcodeZero := by
  have unassigned {w : IWord} (opc : w.extractLsb' 2 8 = 0#8) : decode w = .unassignedOpcode (clip w) := by
    rw [decode, decodeWord_opcodeZero opc]
  refine ⟨fun w opc => ⟨unassigned opc, fun i => by simp [decodeWord_opcodeZero opc]⟩, unassigned rfl, fun s c ctx on => ?_⟩
  have ready : s.Ready Guard.always [] c := ⟨ctx, by simp [Ctx.ready, Ctx.waits, Ctx.waitsIn, State.uniWaits, on]⟩
  have traps : Traps (.unassignedOpcode 0#128) s c 0x01#8 0 :=
    issueWith_ready ready true 8 fun _ _ => .trap (mkTrap cILLINS 0)
  refine ⟨traps, fun v handled => ?_⟩
  obtain ⟨free, out, vector⟩ := handled
  obtain ⟨-, team, warp, entry, -⟩ := ctx_facts ctx
  exact traps.trans (congrArg _ (deliver_enters (s := s.issued) _ team warp entry free out vector))

/-! ### The guard's field (R69, R70) -/

theorem pred_encRaw {i : Instr} (word : i.hasWord = true) : (encRaw i).pred = (guardOf i).toField := by
  cases i <;> cases word <;> rfl

/-- A family of instructions that differ in their guards alone. -/
def Guarded (k : Guard → Instr) : Prop := ∀ g h, (k h).hasWord = (k g).hasWord ∧ (k h).wf = (k g).wf ∧ guardOf (k h) = h
  ∧ (k h).bytes = (k g).bytes ∧ encRaw (k h) = { encRaw (k g) with pred := h.toField }

theorem Guarded.exists {k : Guard → Instr} (guarded : Guarded k) (g : Guard) : ∃ f h, Guarded f ∧ k g = f h :=
  ⟨k, g, guarded, rfl⟩

/-- Every instruction but GIVE, CLAIM, RGN and ERET is one of such a family: its guard is its constructor's first field. -/
theorem exists_guarded {i : Instr} (word : i.hasWord = true) (give : ∀ k, i ≠ .give k) (claim : ∀ k, i ≠ .claim k)
    (rgn : ∀ a b c d, i ≠ .rgn a b c d) (eret : i ≠ .eret) : ∃ k g, Guarded k ∧ i = k g := by
  cases i with
  | eret => exact absurd rfl eret
  | give k => exact absurd rfl (give k)
  | claim k => exact absurd rfl (claim k)
  | rgn a b c d => exact absurd rfl (rgn a b c d)
  | shootdownComplete | limiterRaise | checkpointStart | checkpointDone | restoreStart | restoreDone => cases word
  | _ g =>
    clear give claim rgn eret
    cases word <;> (revert g; exact Guarded.exists fun _ _ => ⟨rfl, rfl, rfl, rfl, rfl⟩)

/-- The fields of a word with PRED all ones. -/
theorem toWord_never (r : Raw) : { r with pred := Guard.toField ⟨true, 7#3⟩ }.toWord = r.toWord ||| 0x3C000#128 := by
  have ones : r.pred ||| Guard.toField ⟨true, 7#3⟩ = Guard.toField ⟨true, 7#3⟩ := BitVec.or_allOnes
  change _ = (r.hi ++ r.lo ++ r.md ++ r.ty ++ r.src2 ++ r.src1 ++ r.dst ++ r.pred ++ r.la ++ r.opc ++ r.len)
    ||| (0#32 ++ 0#32 ++ 0#5 ++ 0#5 ++ 0#12 ++ 0#12 ++ 0#12 ++ Guard.toField ⟨true, 7#3⟩ ++ 0#4 ++ 0#8 ++ 0#2)
  simp only [BitVec.or_append, ones, BitVec.or_zero]
  rfl

/-- The guard of what a word decodes to is its PRED field's. -/
theorem guardOf_of_decodeWord {w : IWord} {i : Instr} (decoded : decodeWord w = .ok i) :
    guardOf i = ⟨w.getLsbD 17, w.extractLsb' 14 3⟩ := by
  obtain ⟨word, wf, covers⟩ := decodeWord_eq_ok_iff.mp decoded
  have pred : (guardOf i).toField = w.extractLsb' 14 4 := by
    rw [← pred_encRaw word, ← Raw.ofWord_toWord (encRaw i), ← encode_of_wf wf, covers]
    exact extractLsb'_clip w (by decide)
  have number : (w.extractLsb' 14 4).extractLsb' 0 3 = w.extractLsb' 14 3 := by
    ext k hk
    simp [show k < 4 by omega]
  rw [← Guard.ofField_toField (guardOf i), pred, Guard.ofField, number, BitVec.getLsbD_extractLsb']
  rfl

/-- Settles O60: an instruction's word holds its guard in PRED alone, and `?!p7` holds in no thread. -/
theorem guardField : Obligations.GuardField := by
  refine ⟨fun w i decoded => ⟨guardOf_of_decodeWord decoded, fun give claim rgn eret => ?_⟩, fun s c ctx => ?_⟩
  · obtain ⟨word, wf, covers⟩ := decodeWord_eq_ok_iff.mp decoded
    obtain ⟨k, g, guarded, rfl⟩ := exists_guarded word give claim rgn eret
    obtain ⟨word', wf', guard, bytes, fields⟩ := guarded g ⟨true, 7#3⟩
    have encoded : encode (k ⟨true, 7#3⟩) = encode (k g) ||| 0x3C000#128 := by
      rw [encode_of_wf (wf'.trans wf), encode_of_wf wf, fields, toWord_never]
    refine ⟨k ⟨true, 7#3⟩, decodeWord_eq_ok_iff.mpr ⟨word'.trans word, wf'.trans wf, ?_⟩, guard, bytes, encoded⟩
    rw [encoded, covers, clip_or rfl (by decide)]
  · obtain ⟨-, -, -, -, -, on, -⟩ := ctx_facts ctx
    simp [on, Guard.holds]

/-! ### Words of the spec (R66 to R107) -/

/-- Settles O54: each word is its instruction's own, but for the last, whose opcode is 0. -/
theorem decodeWords : Obligations.DecodeWords := by
  refine ⟨?_, ?_, ?_, ?_, ?_, ?_, ?_, ?_, opcodeZero.2.1⟩ <;> exact decodeWord_eq_ok_iff.mpr ⟨rfl, rfl, by decide⟩

end Sys2Proof.Machine

/-! PROOFS. Floating-point instructions of one source, comparisons and classes (spec/06, spec/19): what each
thread's effect is. -/

namespace Sys2Proof.Machine

/-! ### Operands tested for abandoned values (R156) -/

section
variable {c : Ctx} {d : Option Pos} {t : Ty}

theorem abandonTrap_abOf {ps : List Pos} (sound : Sound c d t (fun j => ps.map (c.int t j))) :
    Ctx.abandonTrap (c.runs d) (abOf t ps c) = none := by
  refine abandonTrap_none fun j hj q hq => ?_
  unfold abOf at hq
  split at hq
  case isTrue f32 =>
    obtain ⟨p, hp, rfl⟩ := List.mem_map.mp hq
    exact sound f32 j hj _ (List.mem_map_of_mem hp)
  case isFalse => cases hq

/-- An immediate of type .f32 is tested beside the register. -/
theorem abandonTrap_immediate {p q : Pos} {k : Nat} (sound : Sound c d t (fun j => [c.int t j p, k])) :
    Ctx.abandonTrap (c.runs d) (abOf t [p] c ++ if t = .f32 then [(q, fun _ => k)] else []) = none := by
  refine abandonTrap_none fun j hj r hr => ?_
  by_cases f32 : t = .f32
  · simp only [abOf, if_pos f32, List.map_cons, List.map_nil, List.cons_append, List.nil_append, List.mem_cons, List.not_mem_nil,
      or_false] at hr
    rcases hr with rfl | rfl
    · exact sound f32 j hj _ List.mem_cons_self
    · exact sound f32 j hj _ (List.mem_cons_of_mem _ List.mem_cons_self)
  · simp [abOf, f32] at hr

end

section
variable {i : Instr} {s : State} {c : Ctx} {g : Guard} {t : Ty} {f : Fmt}

/-! ### One source (R339, R340, R342) -/

theorem flt1_computes {pd pa : Pos} {la : Nat} {h : Word → Fmt → Nat → Nat × Flags} (fmt : t.fmt = some f)
    (ready : s.Ready g [pd, pa] c) (sound : Sound c (some pd) t (fun j => [c.int t j pa]))
    (silent : Silent c (some pd) t (fun j l => h (c.th j).fctl f (l.getD 0 0)) (fun j => [c.int t j pa]))
    (runs : exec i s = s.alu 8 la g [pd, pa] (some pd) (abOf t [pa]) (fun c j =>
      fltResult t (fun fm l => h (c.th j).fctl fm (l.getD 0 0)) [c.int t j pa])) :
    FltComputes i s c 8 la pd t (fun j l => h (c.th j).fctl f (l.getD 0 0)) (fun j => [c.int t j pa]) :=
  fltComputes_of ready List.mem_cons_self (fun j fm l => h (c.th j).fctl fm (l.getD 0 0)) fmt (fun _ => rfl) (fun _ => rfl) silent
    (abandonTrap_abOf sound) runs

/-! ### Comparisons (R341) -/

/-- An instruction that computes in registers, with operands tested and flags raised. -/
theorem computes_of_quiet {ps : List Pos} {len la : Nat} {d : Option Pos} {ab : Ctx → List (Pos × (Nat → Nat))}
    {eff : Ctx → Nat → Eff} (ready : s.Ready g ps c) (among : ∀ p, d = some p → p ∈ ps)
    (unabandoned : Ctx.abandonTrap (c.runs d) (ab c) = none) (quiet : c.quiet d (eff c) = true)
    (runs : exec i s = s.alu len la g ps d ab eff) : Computes i s c len la d (eff c) := by
  obtain ⟨w, after, goes⟩ := alu_ready ready len la among unabandoned quiet
  exact ⟨w, after, runs.trans goes⟩

theorem snanFlag_pair (f : Fmt) (x y : Nat) : f.snanFlag [x, y] = if f.isSnan x || f.isSnan y then NV else 0#5 := by
  rw [Fmt.snanFlag, flagIf, List.any_cons, List.any_cons, List.any_nil, Bool.or_false]

theorem cmpEff_eq (fmt : t.fmt = some f) (op : FCmp) (p : BitVec 3) (flush : Bool) (u v : Nat) :
    cmpEff t op p flush u v = ⟨none, some (p, (f.compare op flush u v).1),
      if f.isSnan (f.flushIn flush u) || f.isSnan (f.flushIn flush v) then NV else 0#5⟩ := by
  rw [cmpEff, fmt, ← snanFlag_pair]
  rfl

theorem fset_computes {op : FCmp} {ftz : Bool} {p : BitVec 3} {pa pb : Pos} {len : Nat} (ready : s.Ready g [pa, pb] c)
    (sound : Sound c none t (fun j => [c.int t j pa, c.int t j pb])) {eff : Nat → Eff}
    (same : eff = fun j => cmpEff t op p (ftz || ftzOf (c.th j).fctl) (c.int t j pa) (c.int t j pb)) (quiet : c.quiet none eff = true)
    (runs : exec i s = s.alu len 0 g [pa, pb] none (abOf t [pa, pb]) (fun c j =>
      cmpEff t op p (ftz || ftzOf (c.th j).fctl) (c.int t j pa) (c.int t j pb))) : Computes i s c len 0 none eff := by
  subst same
  exact computes_of_quiet (d := none) ready nofun (abandonTrap_abOf sound) quiet runs

theorem isSigned_of_fmt (fmt : t.fmt = some f) : t.isSigned = false := by
  cases t <;> cases fmt <;> rfl

theorem immediate_of_fmt (fmt : t.fmt = some f) (imm : Word) :
    t.immediate imm = if t = .f64 then (Fmt.f64.ofVal .rn false (Fmt.f32.val imm.toNat)).1 else imm.toNat % 2 ^ t.bits := by
  unfold Ty.immediate
  split
  · rfl
  · rw [isSigned_of_fmt fmt, if_neg Bool.false_ne_true, if_neg ‹_›]

/-! ### Classes (R337) -/

theorem fit_lt (o : Opnd) (sg : Bool) (w raw : Nat) : o.fit sg w raw < 2 ^ w := by
  have low : raw % 2 ^ w < 2 ^ w := Nat.mod_lt _ (Nat.two_pow_pos w)
  cases o with
  | reg _ _ | uni _ =>
    rw [Opnd.fit]
    split
    · exact wrap_lt ..
    · exact low
  | imm _ => exact low

/-- The class of a pattern of a floating format. -/
theorem classOf_fmt (fmt : t.fmt = some f) (v : Nat) :
    if t = .f32 ∧ isAbandoned v = true then classOf t v = 10
    else if f.isSnan v = true then classOf t v = 0
    else if f.isNan v = true then classOf t v = 1
    else if f.isInf v = true then classOf t v = (if f.neg v then 2 else 9)
    else if f.mag v = 0 then classOf t v = (if f.neg v then 5 else 6)
    else if f.isSub v = true then classOf t v = (if f.neg v then 4 else 7)
    else classOf t v = (if f.neg v then 3 else 8) := by
  simp only [classOf, fmt, Bool.and_eq_true, decide_eq_true_eq]
  split_ifs <;> rfl

/-- The class of a D8 pattern. -/
theorem classOf_d8 {v : Nat} (byte : v < 2 ^ 8) :
    classOf .d8 v = if v = 0x80 then 11 else if v = 0 then 6 else if 0x80 < v then 3 else 8 := by
  have sign : bitOf v 7 = true ↔ 0x80 ≤ v := by
    rw [bitOf, beq_iff_eq]
    omega
  simp only [classOf, Ty.fmt, sign]
  split_ifs <;> omega

end

/-- Settles O9: one source by the elements' results, a comparison by its flushed values, a class by the pattern. -/
theorem floatOneSourceAndCompare : Obligations.FloatOneSourceAndCompare := by
  refine ⟨?source, ?format, ?d8⟩
  case source =>
    intro s g la t f m fl op d a c pd pa xs op1 sfn goes fmt ready sound
    have one {i : Instr} {n : Nat} (h : Word → Fmt → Nat → Nat × Flags) (runs : exec i s = s.flt1 n g t d a h) :
        goes i n (fun j l => h (c.th j).fctl f (l.getD 0 0)) := fun silent => flt1_computes fmt ready sound silent runs
    exact ⟨one (fun fc f => f.rcp (m.rnd.mode fc) (m.flush.on fc)) rfl, one (fun fc f => f.rsq (m.rnd.mode fc) (m.flush.on fc)) rfl,
      one (fun fc f => f.sfn op (rmOf fc) (fl.on fc)) rfl, one (fun fc f => f.rint (m.rnd.mode fc) (m.flush.on fc)) rfl⟩
  case format =>
    intro s g t f op ftz p d a b x imm c pd pa pb y flushed nan rel eff fmt
    have same (z : Nat → Nat) : eff z = fun j => cmpEff t op p (ftz || ftzOf (c.th j).fctl) (c.int t j pa) (z j) := by
      funext j
      rw [cmpEff_eq fmt]
      cases op <;> rfl
    refine ⟨fun ready sound quiet => ?registers, fun plain ready sound quiet => ?immediate, fun plain ready => ?classes⟩
    case registers =>
      refine ⟨fset_computes ready sound (same _) quiet rfl, fun plain => ?_⟩
      subst plain
      exact fset_computes ready sound (same _) quiet rfl
    case immediate =>
      subst plain
      have constant : y = t.immediate imm := (immediate_of_fmt fmt imm).symm
      rw [same, constant] at quiet ⊢
      rw [constant] at sound
      exact computes_of_quiet (d := none) (eff := fun c j => cmpEff t op p (ftz || ftzOf (c.th j).fctl) (c.int t j pa) (t.immediate imm))
        ready nofun (abandonTrap_immediate sound) quiet rfl
    case classes =>
      subst plain
      refine ⟨fun j => classOf t (c.int t j pa), ?_, fun j => classOf_fmt fmt _⟩
      exact computes_of (d := some pd) (eff := fun c j => .ofVal (2 ^ classOf t (c.int t j pa))) ready
        (by rintro _ ⟨⟩; exact List.mem_cons_self) (fun _ => rfl) rfl
  case d8 =>
    intro s g d a c pd pa ready
    have pattern (j : Nat) : classOf .d8 (c.int .d8 j pa) = _ := classOf_d8 (fit_lt ..)
    simp only [← pattern]
    exact computes_of (d := some pd) (eff := fun c j => .ofVal (2 ^ classOf .d8 (c.int .d8 j pa))) ready
      (by rintro _ ⟨⟩; exact List.mem_cons_self) (fun _ => rfl) rfl

end Sys2Proof.Machine

/-! PROOFS. Traps (spec/05, spec/13): what enters the handler, what escalates and with which record, the return from a handler. -/

namespace Sys2Proof.Machine

/-! ### Entry (R253) -/

section
variable {i : Instr} {s : State} {g : Guard} {ps : List Pos} {c : Ctx} {always : Bool} {n : Nat} {body : Ctx → State → Done}

/-- A ready instruction whose body traps delivers the trap in the state of its issue. -/
theorem exec_of_traps {trap : Trap} (ready : s.Ready g ps c) (runs : exec i s = s.issueWith always n g ps body)
    (traps : body c s.issued = .trap trap) : exec i s = .next (s.issued.deliver c.ref trap) := by
  rw [runs, issueWith_ready ready, traps]
  rfl

/-- An instruction that traps, where nothing stands before the handler, enters it. -/
theorem enters_of_traps {v : Word} {cause : BitVec 8} {info len : Nat} (ready : s.Ready g ps c) (handled : s.Handled c v)
    (own : (cause == BitVec.ofNat 8 cCANCEL) = false) (runs : exec i s = s.issueWith always n g ps body)
    (traps : body c s.issued = .trap ⟨cause, BitVec.ofNat 64 info, len⟩) : Enters i s c cause info len v := by
  obtain ⟨-, team, warp, entry, -, -, -⟩ := ctx_facts ready.1
  obtain ⟨free, out, vector⟩ := handled
  have enters := deliver_enters (s := s.issued) ⟨cause, BitVec.ofNat 64 info, len⟩ team warp entry free out vector
  rw [own, if_neg Bool.false_ne_true] at enters
  have same : c.warp.handles c.entry cause (BitVec.ofNat 64 info).toNat len v = c.handles cause info len v := by
    rw [Ctx.handles, Warp.handles, Warp.handles, BitVec.ofNat_toNat, BitVec.setWidth_eq]
  rw [Enters, exec_of_traps ready runs traps, enters, same]

end

/-! ### Escalation (R256, R259) -/

/-- The bytes of a number read back, modulo their count. -/
theorem leNat_natLe (n v : Nat) : leNat (natLe n v) = v % 2 ^ (8 * n) := by
  induction n generalizing v with
  | zero => rw [Nat.mul_zero, pow_zero, Nat.mod_one]; rfl
  | succ n ih =>
    rw [natLe_succ, leNat_cons, ih, BitVec.toNat_ofNat, Nat.mul_succ, Nat.add_comm (8 * n), pow_add, Nat.mod_mul]
    rfl

/-- A list's first element that meets p, after those that do are changed and still meet it. -/
theorem find_mapIf {α : Type} {p : α → Bool} {f : α → α} (keeps : ∀ x, p x = true → p (f x) = true) (l : List α) :
    (mapIf p f l).find? p = (l.find? p).map f := by
  induction l with
  | nil => rfl
  | cons x l ih =>
    rw [mapIf, List.map_cons, ← mapIf, List.find?_cons, List.find?_cons]
    by_cases meets : p x = true
    · simp [meets, keeps x meets]
    · simp [meets, ih]

/-- The entry of a name after a change of it that keeps the name. -/
theorem entry_updEntry {w : Warp} {id : Nat} {e : Entry} (entry : w.entry? id = some e) {f : Entry → Entry}
    (keeps : ∀ x, (f x).id = x.id) : (w.updEntry id f).entry? id = some (f e) := by
  rw [Warp.entry?] at entry
  rw [Warp.entry?, Warp.updEntry, find_mapIf (fun x named => by rwa [keeps]), entry]
  rfl

/-- What an escalation leaves of the leaf: it stands after a TRAP, BKPT or SYSC, and waits. -/
def Entry.escalates (trap : Trap) (e : Entry) : Entry :=
  { e.issued with pc := if trap.passes then e.pc + BitVec.ofNat 32 trap.len else e.pc, wait := .escalated }

/-- The record that an escalation posts. -/
def State.escalation (s : State) (r : LeafRef) (t : Team) (w : Warp) (e : Entry) (trap : Trap) : EscRec :=
  ⟨r.team, s.handle t.launch,
    escRecord (s.handle t.launch) t w (w.handler.getD trap.cause).toNat trap e.pc e.mask, none⟩

/-- The state of a team that escalates for the first time. -/
def State.escalated (s : State) (r : LeafRef) (t : Team) (w : Warp) (e : Entry) (trap : Trap) : State :=
  ((s.updDie t.die (fun d => { d with escalations := d.escalations ++ [s.escalation r t w e trap] })).updTeam r.team
    (fun t => { t with escalated := true })).updEntry r (Entry.escalates trap)

theorem escalate_first (s : State) (r : LeafRef) {t : Team} (first : t.escalated = false) (w : Warp) (e : Entry) (trap : Trap) :
    s.escalate r t w e trap = s.escalated r t w e trap := by
  rw [State.escalate, if_neg (by rw [first]; exact Bool.false_ne_true), State.escalated, State.escalation]
  cases w.handler <;> rfl

theorem ringOn_escalated (s : State) (r : LeafRef) (t : Team) (w : Warp) (e : Entry) (trap : Trap) (d n : Nat) :
    (s.escalated r t w e trap).ringOn d n = s.ringOn d n := by
  have words : ((s.escalated r t w e trap).die d).words = (s.die d).words := by
    rw [State.escalated, State.updEntry, State.updWarp_dieAt, State.updTeam_dieAt, State.die_updDie]
    split
    · next same => rw [same]
    · rfl
  rw [State.ringOn, State.ringOn, State.dieWord, State.dieWord, words]

/-- No trap vector stands open to the leaf: it belongs to the handler itself, or its job has none. -/
def State.Unhandled (s : State) (t : Team) (w : Warp) (e : Entry) : Prop :=
  w.handler ≠ none ∧ e.handler = true ∨ w.handler = none ∧ s.vector t.launch = none

/-- The trap registers record a trap of the leaf e; the threads' landed windows close. -/
def Warp.recording (e : Entry) (trap : Trap) (w : Warp) : Warp :=
  { w with
    tcause := BitVec.ofNat 32 trap.cause.toNat
    tinfo := trap.info
    tepc := e.pc
    tmask := e.mask
    tlen := trap.len
    tret := e.retJoin
    threads := w.threads.map Thread.closeWindows }

/-- A trap that no handler can take escalates while the queue is enabled; first its trap registers may be written. -/
theorem deliver_escalates {s : State} {r : LeafRef} {t : Team} {w : Warp} {e : Entry} (trap : Trap)
    (team : s.team? r.team = some t) (warp : s.warp? r.team r.warp = some w) (entry : w.entry? r.leaf = some e)
    (free : s.warpPending r.team r.warp = false) (on : s.ringOn t.die 1 = true) (unhandled : s.Unhandled t w e)
    (own : (trap.cause == BitVec.ofNat 8 cCANCEL) = false) (first : t.escalated = false) :
    ∃ f : Warp → Warp, (∀ x, (f x).entries = x.entries)
      ∧ s.deliver r trap = (s.updWarp r.team r.warp f).escalated r t w e trap := by
  have held : s.heldByHandler r = false := by
    rcases unhandled with ⟨-, handler⟩ | ⟨out, -⟩
    · simp [State.heldByHandler, warp, entry, handler]
    · simp [State.heldByHandler, warp, out]
  have raw : ∃ f : Warp → Warp, (∀ x, (f x).entries = x.entries)
      ∧ s.trapRaw r trap = ((s.updWarp r.team r.warp f).escalated r t w e trap, true) := by
    rcases unhandled with ⟨inside, -⟩ | ⟨out, none_⟩
    · refine ⟨fun x => x, fun _ => rfl, ?_⟩
      rw [updWarp_id, ← escalate_first s r first]
      simp [State.trapRaw, team, warp, entry, Option.isSome_iff_ne_none.mpr inside, first]
    · have none' (f : Warp → Warp) : (s.updWarp r.team r.warp f).vector t.launch = none := none_
      refine ⟨Warp.recording e trap, fun _ => rfl, ?_⟩
      rw [← escalate_first _ r first]
      simp only [State.trapRaw, team, warp, entry, out, own, none', first, Option.isSome_none, Bool.false_eq_true, if_false,
        Bool.not_false]
      rfl
  obtain ⟨f, keeps, raw⟩ := raw
  refine ⟨f, keeps, ?_⟩
  have team' : ((s.updWarp r.team r.warp f).escalated r t w e trap).team? r.team = some { t with escalated := true } := by
    change ((s.updWarp r.team r.warp f).updTeam r.team _).team? r.team = _
    simp [State.team_updTeam, team]
  have on' : ((s.updWarp r.team r.warp f).escalated r t w e trap).ringOn t.die 1 = true := (ringOn_escalated ..).trans on
  simp [State.deliver, free, held, State.takeTrap, raw, team', on']

/-- The bytes of an escalation record, field by field (R256). -/
theorem escRecord_fields (handle : Word) (t : Team) (w : Warp) (first : Nat) (trap : Trap) (pc : Word) (mask : BitVec 32) :
    let r := escRecord handle t w first trap pc mask
    let at_ := fun (a n : Nat) => leNat ((r.drop a).take n)
    r.length = 32 ∧ at_ 0 4 = handle.toNat ∧ at_ 4 4 = t.num % 2 ^ 32 ∧ at_ 8 2 = (w.index % 1024 + w.lane * 1024) % 2 ^ 16
      ∧ at_ 10 2 = (t.die * 4096 + t.core * 128) % 2 ^ 16 ∧ at_ 12 1 = first % 2 ^ 8 ∧ at_ 13 1 = trap.cause.toNat
      ∧ at_ 16 8 = trap.info.toNat ∧ at_ 24 4 = pc.toNat ∧ at_ 28 4 = mask.toNat := by
  have word (v : Word) : leNat (natLe 4 v.toNat) = v.toNat := (leNat_natLe ..).trans (Nat.mod_eq_of_lt v.isLt)
  refine ⟨rfl, word handle, leNat_natLe 4 _, leNat_natLe 2 _, leNat_natLe 2 _, leNat_natLe 1 _, ?_, ?_, word pc, word mask⟩
  · exact (leNat_natLe 1 _).trans (Nat.mod_eq_of_lt trap.cause.isLt)
  · exact (leNat_natLe 8 _).trans (Nat.mod_eq_of_lt trap.info.isLt)

/-- Settles O17: a trap enters the handler where one stands open, and else escalates with its record. -/
theorem trapEntry : Obligations.TrapEntry := by
  refine ⟨?enters, ?escalates⟩
  case enters =>
    intro s g k w c v pk handled
    have outside : c.warp.handler.isNone = true := by rw [handled.2.1]; rfl
    refine ⟨fun ready => ⟨?trap, ?sysc⟩, fun ready => ?bkpt, fun ready => ⟨?eret, ?unassigned⟩⟩
    case trap => exact enters_of_traps (body := fun c _ => .trap ⟨_, BitVec.ofNat 64 (c.u32 c.low pk), _⟩) ready handled rfl rfl rfl
    case sysc => exact enters_of_traps (body := fun c _ => .trap ⟨_, BitVec.ofNat 64 (c.u32 c.low pk), _⟩) ready handled rfl rfl rfl
    case bkpt => exact enters_of_traps (body := fun _ _ => .trap _) ready handled rfl rfl rfl
    case eret =>
      exact enters_of_traps (body := fun c u => if c.warp.handler.isNone then .trap (mkTrap cILLINS 0) else _) ready handled rfl rfl
        (if_pos outside)
    case unassigned => exact enters_of_traps (body := fun _ _ => .trap (mkTrap cILLINS 0)) ready handled rfl rfl rfl
  case escalates =>
    intro s g k c pk at_ ready free on unhandled first die core lane index num
    obtain ⟨-, team, warp, entry, -, -, -⟩ := ctx_facts ready.1
    let trap : Trap := ⟨BitVec.ofNat 8 cSYSC, BitVec.ofNat 64 (c.u32 c.low pk), 8⟩
    have runs : exec (.sysc g k) s = .next (s.issued.deliver c.ref trap) :=
      exec_of_traps (body := fun c _ => .trap ⟨_, BitVec.ofNat 64 (c.u32 c.low pk), _⟩) ready rfl rfl
    obtain ⟨f, keeps, delivers⟩ := deliver_escalates (s := s.issued) trap team warp entry free on unhandled rfl first
    obtain ⟨length, handle, number, place, home, cause1, cause, info, pc, mask⟩ :=
      escRecord_fields (s.handle c.team.launch) c.team c.warp (c.warp.handler.getD 0x17#8).toNat trap c.entry.pc c.entry.mask
    have entry' : ((f c.warp).updEntry c.ref.leaf (Entry.escalates trap)).entry? c.ref.leaf = some (Entry.escalates trap c.entry) :=
      entry_updEntry (by rw [Warp.entry?, keeps]; exact entry) fun _ => rfl
    refine ⟨_, _, _, _, runs.trans (congrArg _ delivers), ?team, ?warp, entry', rfl, rfl, ?posted, length, handle, ?num, ?index, ?core,
      ?first, cause, ?info, pc, mask, rfl⟩
    case team =>
      change ((s.issued.updWarp c.ref.team c.ref.warp f).updTeam c.ref.team _).team? c.ref.team = _
      rw [State.team_updTeam, if_pos rfl, State.updWarp_teamAt, State.issued_teamAt, team]
      rfl
    case warp =>
      exact warp_updWarp_self (s := s.issued.updWarp c.ref.team c.ref.warp f) (warp_updWarp_self (s := s.issued) warp f) _
    case posted =>
      rw [State.escalated, State.updEntry, State.updWarp_dieAt, State.updTeam_dieAt, State.die_updDie, if_pos rfl]
      rfl
    case num => exact number.trans (Nat.mod_eq_of_lt num)
    case index => exact place.trans (by omega)
    case core => exact home.trans (by omega)
    case first => exact cause1.trans (Nat.mod_eq_of_lt (BitVec.isLt _))
    case info => exact info.trans (BitVec.toNat_ofNat ..)

/-! ### The return (R255) -/

/-- The one element of a list that meets p is the first. -/
theorem find_of_unique {α : Type} {p : α → Bool} {l : List α} {a : α} (inside : a ∈ l) (meets : p a = true)
    (only : ∀ x ∈ l, p x = true → x = a) : l.find? p = some a := by
  cases found : l.find? p with
  | none => exact absurd meets (List.find?_eq_none.mp found a inside)
  | some x => rw [only x (List.mem_of_find?_eq_some found) (List.find?_some found)]

/-- Where no two entries share a name, a name leads to its entry. -/
theorem entry_of_mem {w : Warp} (distinct : (w.entries.map Entry.id).Nodup) {e : Entry} (inside : e ∈ w.entries) :
    w.entry? e.id = some e :=
  find_of_unique inside (beq_self_eq_true _) fun _ hx same => List.inj_on_of_nodup_map distinct hx inside (beq_iff_eq.mp same)

/-- A leaf with threads that does not stand at its parent's address stays where it is. -/
theorem settled_of_apart {w : Warp} {id : Nat} {e : Entry} (entry : w.entry? id = some e) (leaf : e.isLeaf = true)
    (live : e.mask ≠ 0#32) (apart : ∀ j, e.parent.bind w.entry? = some j → e.pc ≠ j.pc) : w.settled id = w := by
  rw [Warp.settled, Warp.settle]
  simp only [entry, leaf, live, if_true, if_false]
  split
  next j parent => simp [apart j parent]
  next => rfl

/-- The trapped leaf r as it returns at pc (R255). -/
def Warp.back (w : Warp) (r : Entry) (pc : Word) : Entry :=
  { r with isLeaf := true, mask := w.tmask &&& w.liveMask, pc := pc, passes := 0, promo := 0, yielded := false, handler := false,
           retJoin := if w.tlen = 0 then w.tret else none }

/-- The warp after its handler, whose root is r, has returned at pc (R255). -/
def Warp.returned (w : Warp) (r : Entry) (pc : Word) : Warp :=
  { w with
    handler := none
    entries := (w.entries.filter (fun e => e.id == r.id || !e.handler)).map (fun e => if e.id == r.id then w.back r pc else e) }

section
variable {w : Warp} {r : Entry} {pc : Word}

theorem mem_returned {e : Entry} (inside : e ∈ (w.returned r pc).entries) :
    e = w.back r pc ∨ e ∈ w.entries ∧ e.id ≠ r.id := by
  obtain ⟨x, hx, rfl⟩ := List.mem_map.mp inside
  by_cases same : x.id = r.id
  · exact .inl (if_pos (beq_iff_eq.mpr same))
  · rw [if_neg (by simpa using same)]
    exact .inr ⟨List.mem_of_mem_filter hx, same⟩

theorem back_mem_returned (inside : r ∈ w.entries) : w.back r pc ∈ (w.returned r pc).entries :=
  List.mem_map.mpr ⟨r, List.mem_filter.mpr ⟨inside, by simp⟩, by simp⟩

/-- The handler's root is its one entry whose parent is not the handler's. -/
theorem endHandler_eq (inside : r ∈ w.entries) (handler : r.handler = true) (distinct : (w.entries.map Entry.id).Nodup)
    (below : ∀ e ∈ w.entries, e.handler = true → e.id ≠ r.id → ∃ j ∈ w.entries, e.parent = some j.id ∧ j.handler = true)
    (above : ∀ j ∈ w.entries, r.parent = some j.id → j.handler = false) (idle : r.wait = .none) :
    w.endHandler pc = (w.returned r pc).settled r.id := by
  have kept : w.entries.filterMap (fun e => if e.id == r.id then some (w.back r pc) else if e.handler then none else some e)
      = (w.returned r pc).entries := by
    rw [Warp.returned, ← List.filterMap_eq_filter, List.map_filterMap]
    refine List.filterMap_congr fun e _ => ?_
    by_cases same : e.id = r.id
    · simp [same]
    · cases h : e.handler <;> simp [same, h]
  rw [Warp.endHandler]
  dsimp only
  split
  next none_ =>
    refine absurd (List.find?_eq_none.mp none_ r inside) (not_not_intro ?_)
    cases parent : r.parent.bind w.entry? with
    | none => simp [handler]
    | some j =>
      obtain ⟨k, named, found⟩ := Option.bind_eq_some_iff.mp parent
      rw [Warp.entry?] at found
      have same : j.id = k := by simpa using List.find?_some found
      simp [handler, above j (List.mem_of_find?_eq_some found) (by rw [named, same])]
  next x first =>
    obtain rfl : x = r := by
      have hx := List.mem_of_find?_eq_some first
      have top := List.find?_some first
      by_contra apart
      have other : x.id ≠ r.id := fun same => apart (List.inj_on_of_nodup_map distinct hx inside same)
      obtain ⟨mine, free⟩ := Bool.and_eq_true_iff.mp top
      obtain ⟨j, hj, parent, held⟩ := below x hx mine other
      simp [parent, entry_of_mem distinct hj, held] at free
    rw [← idle]
    exact congrArg (fun l => ({ w with handler := none, entries := l } : Warp).settled x.id) kept

/-- The root returns to where it trapped: it has not arrived at its join. -/
theorem endHandler_returns (inside : r ∈ w.entries) (handler : r.handler = true) (distinct : (w.entries.map Entry.id).Nodup)
    (below : ∀ e ∈ w.entries, e.handler = true → e.id ≠ r.id → ∃ j ∈ w.entries, e.parent = some j.id ∧ j.handler = true)
    (above : ∀ j ∈ w.entries, r.parent = some j.id → j.handler = false ∧ j.pc ≠ pc) (idle : r.wait = .none)
    (live : w.tmask &&& w.liveMask ≠ 0#32) : w.endHandler pc = w.returned r pc := by
  rw [endHandler_eq inside handler distinct below (fun j hj parent => (above j hj parent).1) idle]
  have named : (w.returned r pc).entry? r.id = some (w.back r pc) :=
    find_of_unique (back_mem_returned inside) (beq_self_eq_true _) fun x hx same =>
      (mem_returned hx).resolve_right fun other => other.2 (beq_iff_eq.mp same)
  refine settled_of_apart named rfl live fun j joined => ?_
  obtain ⟨k, parent, found⟩ := Option.bind_eq_some_iff.mp joined
  change r.parent = some k at parent
  rw [Warp.entry?] at found
  obtain rfl : j.id = k := by simpa using List.find?_some found
  rcases mem_returned (List.mem_of_find?_eq_some found) with rfl | ⟨hj, -⟩
  · exact absurd (above r inside parent).1 (by simp [handler])
  · exact (above j hj parent).2.symm

end

section
variable {s : State} {T W : Nat} {w : Warp}

/-- A return other than from a CANCEL changes its warp alone, where nothing was posted to it. -/
theorem returnTrap_returns (warp : s.warp? T W = some w) {k : BitVec 8} (handler : w.handler = some k)
    (own : k ≠ BitVec.ofNat 8 cCANCEL) {x : Warp} (ended : w.endHandler (w.tepc + BitVec.ofNat 32 w.tlen) = x) (some_ : x.entries ≠ [])
    (untrapped : x.untrapped) (calm : x.postedCancel = false) : s.returnTrap T W = s.updWarp T W (fun _ => x) := by
  have change_ := updWarp_at s ⟨T, W, 0⟩ (fun w => w.endHandler (w.tepc + BitVec.ofNat 32 w.tlen)) w warp
  simp only [ended] at change_
  have warp' : (s.updWarp T W fun _ => x).warp? T W = some x := warp_updWarp_self warp _
  have busy : x.done = false := List.isEmpty_eq_false_iff.mpr some_
  have stays : (s.updWarp T W fun _ => x).warpGone T W = s.updWarp T W fun _ => x := by
    cases team : s.team? T with
    | none => simp [State.warpGone, team]
    | some t => simp [State.warpGone, team, warp', busy]
  have settles : (s.updWarp T W fun _ => x).settleTraps T W = s.updWarp T W fun _ => x := by
    refine settleTraps_untrapped fun y found => ?_
    rw [warp'] at found
    cases found
    exact untrapped
  rw [State.returnTrap, warp]
  simp only [handler, beq_eq_false_iff_ne.mpr own, Bool.false_eq_true, if_false, change_, stays, settles]
  cases team : s.team? T with
  | none => simp [State.lateCancel, team]
  | some t => simp [State.lateCancel, team, warp', calm]

/-! ### The return from a CANCEL -/

theorem withdrawWarp_idle (warp : s.warp? T W = some w) (idle : ∀ e ∈ w.entries, e.wait = .none) : s.withdrawWarp T W = s := by
  rw [State.withdrawWarp, warp]
  exact foldl_idle (fun u e inside => by simp [idle e inside]) s

theorem startRefill_warps (s : State) (q : Nat) : (s.startRefill q).warps = s.warps := by
  unfold State.startRefill
  dsimp only
  split <;> rfl

/-- Pops that are served leave alone a warp that has no leaf. -/
theorem warp_servePops (gone : w.entries = []) (q fuel : Nat) (warp : s.warp? T W = some w) :
    (s.servePops q fuel).warp? T W = some w := by
  induction fuel generalizing s with
  | zero => exact warp
  | succ fuel ih =>
    rw [State.servePops]
    dsimp only
    split
    next => exact warp
    next r rest _ =>
      split
      next q' start mask wait =>
        split
        · exact warp
        · refine ih ?_
          have other : warpKey T W ≠ warpKey r.team r.warp := by
            intro same
            have here : s.warp? r.team r.warp = some w := by rw [← warp, State.warp?, State.warp?, same]
            simp [here, Warp.entry?, gone] at wait
          rw [State.warp?, startRefill_warps, State.complete, look_updWarp_ne _ _ other]
          exact (look_updWarp_ne _ _ other).trans warp
      next => exact ih warp

theorem warp_settleQueues (gone : w.entries = []) (warp : s.warp? T W = some w) : s.settleQueues.warp? T W = some w := by
  rw [State.settleQueues]
  generalize s.queues.filter _ = l
  induction l generalizing s with
  | nil => exact warp
  | cons p l ih => exact ih (warp_servePops gone _ _ warp)

/-- With no claim on its core, a grant to those that wait leaves alone a warp that has no leaf. -/
theorem warp_regrant (gone : w.entries = []) (warp : s.warp? T W = some w) {d c : Nat} (claims : (s.core d c).claims = []) :
    (s.regrant d c).warp? T W = some w := by
  rw [State.regrant, State.grantCore, claims]
  exact warp_settleQueues gone warp

/-- What the end of a warp leaves: the warps as they were, and no claim on the core of the warp's team. -/
def State.AfterWarp (s u : State) (T : Nat) (t : Team) : Prop :=
  u.warps = s.warps ∧ (∃ x, u.team? T = some x ∧ x.die = t.die ∧ x.core = t.core) ∧ (u.core t.die t.core).claims = []

/-- Where no claim waits on the core, a finished warp's slices only go back to its pool. -/
theorem warpGone_finished {t : Team} (team : s.team? T = some t) (warp : s.warp? T W = some w) (done : w.done = true)
    (claims : (s.core t.die t.core).claims = []) : s.AfterWarp (s.warpGone T W) T t := by
  have pooled (u : State) (n : Nat) (hu : s.AfterWarp u T t) : s.AfterWarp (u.poolReturn t.die t.core w.lane n) T t := by
    obtain ⟨warps, team, claims⟩ := hu
    have none_ : ((u.updCore t.die t.core fun x =>
        { x with charged := Tbl.put w.lane (Tbl.get x.charged w.lane 0 - n) x.charged }).core t.die t.core).claims = [] := by
      rw [State.core_updCore, if_pos rfl]
      exact claims
    rw [State.poolReturn, State.grantLane, none_]
    exact ⟨warps, team, none_⟩
  have dropped : s.AfterWarp (if (s.warpsOf T).all Warp.done then s.updTeam T (fun t => { t with collectives := [] }) else s) T t := by
    split
    · exact ⟨rfl, ⟨{ t with collectives := [] }, by rw [State.team_updTeam, if_pos rfl, team]; rfl, rfl, rfl⟩, claims⟩
    · exact ⟨rfl, ⟨t, team, rfl, rfl⟩, claims⟩
  simp only [State.warpGone, team, warp, done, Bool.not_true, Bool.false_eq_true, if_false]
  split
  · exact pooled _ _ dropped
  · exact dropped

/-- A warp whose leaves wait for nothing exits whole. -/
theorem exitWarps_one {t : Team} (team : s.team? T = some t) (warp : s.warp? T W = some w) (busy : w.done = false)
    (idle : ∀ e ∈ w.entries, e.wait = .none) (claims : (s.core t.die t.core).claims = []) :
    (s.exitWarps T [W]).warp? T W = some w.exitAll := by
  have exited : (s.updWarp T W Warp.exitAll).warp? T W = some w.exitAll := warp_updWarp_self warp _
  obtain ⟨warps, ⟨x, team', die, core⟩, claims'⟩ := warpGone_finished (s := s.updWarp T W Warp.exitAll) team exited rfl claims
  have stands : ((s.updWarp T W Warp.exitAll).warpGone T W).warp? T W = some w.exitAll := by
    rw [State.warp?, warps]
    exact exited
  simp only [State.exitWarps, warp, Option.map_some, Option.getD_some, busy, Bool.not_false, List.filter_cons_of_pos, List.filter_nil,
    List.foldl_cons, List.foldl_nil, withdrawWarp_idle warp idle, team', die, core]
  exact warp_regrant rfl stands claims'

end

/-- ERET in a handler none of whose leaves wait returns. -/
theorem exec_eret {s : State} {c : Ctx} (ready : s.Ready Guard.always [] c) {k : BitVec 8} (handler : c.warp.handler = some k)
    (idle : ∀ e ∈ c.warp.entries, e.wait = .none) : exec .eret s = .next (s.issued.returnTrap c.ref.team c.ref.warp) := by
  have quiet : c.warp.entries.filter (fun e => e.handler && e.wait != .none) = [] :=
    List.filter_eq_nil_iff.mpr fun e he => by simp [idle e he]
  change execEret s = _
  rw [execEret, issue_ready ready]
  simp [handler, quiet, Done.state]

/-- Settles O18: after a CANCEL the warp exits whole, after another trap its handler's root returns and is all that changes. -/
theorem trapReturn : Obligations.TrapReturn := by
  intro s c r k pc mask ready handler free idle claims calm
  obtain ⟨-, team, warp, entry, -, -, -⟩ := ctx_facts ready.1
  have runs := exec_eret ready handler idle
  refine ⟨fun cancel => ?exits, fun own live inside held distinct below above => ?returns⟩
  case exits =>
    subst cancel
    have busy : c.warp.done = false := List.isEmpty_eq_false_iff.mpr (List.ne_nil_of_mem (List.mem_of_find?_eq_some entry))
    have gone : s.issued.returnTrap c.ref.team c.ref.warp = s.issued.exitWarps c.ref.team [c.ref.warp] := by
      simp only [State.returnTrap, State.issued_warpAt, warp, handler]
      exact if_pos rfl
    refine ⟨_, c.warp.exitAll, runs, ?_, rfl, rfl, fun th hth => ?_⟩
    · rw [gone]
      exact exitWarps_one (s := s.issued) team warp busy idle claims
    · obtain ⟨x, -, rfl⟩ := List.mem_map.mp hth
      exact ⟨rfl, rfl⟩
  case returns =>
    have ended := endHandler_returns inside held distinct below above (idle r inside) live
    have untrapped : (c.warp.returned r pc).untrapped := fun e he => by
      rcases mem_returned he with rfl | ⟨he, -⟩
      · exact fun _ _ _ => by simp [Warp.back, idle r inside]
      · exact fun _ _ _ => by simp [idle e he]
    exact runs.trans (congrArg _ (returnTrap_returns (s := s.issued) warp handler own ended
      (List.ne_nil_of_mem (back_mem_returned inside)) untrapped calm))

end Sys2Proof.Machine

/-! PROOFS. Rings (spec/10, spec/21): a ring and the header that mirrors it, the RWAITs that a filled slot ends, the rings'
instructions and CPWAIT, fills, drains of multicast buffers and acknowledgements. -/

namespace Sys2Proof.Machine

/-! ### A ring and its header (R198) -/

theorem natLe_add (m n v : Nat) : natLe (m + n) v = natLe m v ++ natLe n (v / 2 ^ (8 * m)) := by
  rw [natLe, natLe, natLe, List.range_add, List.map_append, List.map_map]
  congr 1
  refine List.map_congr_left fun i _ => ?_
  rw [Function.comp, Nat.mul_add, pow_add, Nat.div_div_eq_div_mul]

/-- A number whose low byte is b. -/
theorem natLe_byte (n : Nat) {b : Nat} (byte : b < 256) (v : Nat) : natLe (n + 1) (b + 256 * v) = BitVec.ofNat 8 b :: natLe n v := by
  rw [natLe_succ, show (b + 256 * v) / 256 = v by omega]
  congr 1
  apply BitVec.eq_of_toNat_eq
  rw [BitVec.toNat_ofNat, BitVec.toNat_ofNat]
  omega

theorem header_eq {r : Ring} (slots : r.slots < 256) (res : r.res < 256) (wp : r.wp < 256) (rp : r.rp < 256) :
    r.header = natLe 8 0 ++ [BitVec.ofNat 8 r.rp, BitVec.ofNat 8 r.wp, BitVec.ofNat 8 r.res, BitVec.ofNat 8 r.slots]
      ++ natLe 4 (r.size / 16) := by
  have horner : r.size / 16 * 2 ^ 96 + r.slots * 2 ^ 88 + r.res * 2 ^ 80 + r.wp * 2 ^ 72 + r.rp * 2 ^ 64
      = 2 ^ (8 * 8) * (r.rp + 256 * (r.wp + 256 * (r.res + 256 * (r.slots + 256 * (r.size / 16))))) := by ring
  rw [Ring.header, horner, natLe_add 8 8, ← natLe_mod 8, Nat.mul_mod_right, Nat.mul_div_cancel_left _ (Nat.two_pow_pos _),
    natLe_byte 7 rp, natLe_byte 6 wp, natLe_byte 5 res, natLe_byte 4 slots]
  rfl

theorem length_header (r : Ring) : r.header.length = 16 := length_natLe ..

theorem read_write_self (m : Memory) (a : Nat) (bs : List Byte) : (m.write a bs).read a bs.length = bs := by
  refine List.ext_getElem (by simp [Memory.read]) fun i _ hi => ?_
  simp [Memory.read, Memory.byte_write, hi]

theorem read_write_apart (m : Memory) {a b n : Nat} {bs : List Byte} (apart : a + bs.length ≤ b ∨ b + n ≤ a) :
    (m.write a bs).read b n = m.read b n := by
  refine List.map_congr_left fun i hi => ?_
  rw [Memory.byte_write, if_neg (by have := List.mem_range.mp hi; omega)]

theorem byte_write_apart (m : Memory) {a j : Nat} {bs : List Byte} (apart : j < a ∨ a + bs.length ≤ j) :
    (m.write a bs).byte j = m.byte j := by
  rw [Memory.byte_write, if_neg (by omega)]

theorem ring_setRing (t : Team) (r : Ring) : (t.setRing r).rings.find? (fun y => y.off == r.off) = some r := by
  rw [Team.setRing]
  dsimp only
  split
  next listed =>
    obtain ⟨x, hx, named⟩ := List.any_eq_true.mp listed
    rw [find_mapIf (p := fun y => y.off == r.off) (f := fun _ => r) fun _ _ => beq_self_eq_true _]
    cases found : t.rings.find? (fun y => y.off == r.off) with
    | none => exact absurd named (List.find?_eq_none.mp found x hx)
    | some _ => rfl
  next unlisted =>
    rw [List.find?_append, List.find?_eq_none.mpr fun x hx named => unlisted (List.any_eq_true.mpr ⟨x, hx, named⟩)]
    simp

/-! ### RWAITs that return (R200) -/

/-- No leaf of the warp waits for the ring. -/
def Warp.deafTo (off : Nat) (w : Warp) : Prop := ∀ e ∈ w.entries, ∀ d m, e.wait ≠ .ring off d m

/-- A destination written in the threads of a mask, a uniform one in a chosen set. -/
def Warp.receive (w : Warp) (shadow : Bool) (fresh : Nat) (m : BitVec 32) (d : Opnd) (v : Nat) : Warp :=
  match d with
  | .uni k => w.setUniIn shadow k.toNat v
  | .reg q st => w.writeIn fresh m st.toNat q.slices v
  | .imm _ => w

/-- What a filled slot of the ring does to one entry of a warp's table. -/
def State.wakeEntry (team off : Nat) (r : Ring) (w : Warp) (s : State) (e : Entry) : State :=
  match e.wait with
  | .ring o d m =>
    if o = off then
      let s := s.updWarp team w.index (fun w => w.receive e.handler s.fresh m d (r.slotAt r.rp))
      (({ s with fresh := s.fresh + 1 } : State).complete ⟨team, w.index, e.id⟩ 8).acquire team (objectName 3 off)
    else s
  | _ => s

section
variable {s : State} {team off : Nat} {t : Team} {r : Ring}

theorem wakeEntry_deaf {e : Entry} (deaf : ∀ d m, e.wait ≠ .ring off d m) (r : Ring) (w : Warp) (s : State) :
    s.wakeEntry team off r w e = s := by
  rw [State.wakeEntry]
  split
  next o d m wait => rw [if_neg fun same => deaf d m (by rw [wait, same])]
  next => rfl

theorem wakeTable_deaf {w : Warp} (deaf : w.deafTo off) (r : Ring) (s : State) : w.entries.foldl (State.wakeEntry team off r w) s = s :=
  foldl_idle (fun _ e inside => wakeEntry_deaf (deaf e inside) r w _) s

theorem wakeRing_empty (named : s.team? team = some t) (ring : t.ring? off = some r) (empty : r.filled = 0) :
    s.wakeRing team off = s := by
  simp [State.wakeRing, named, ring, empty]

theorem wakeRing_filled (named : s.team? team = some t) (ring : t.ring? off = some r) (filled : r.filled ≠ 0) :
    s.wakeRing team off = (s.warpsOf team).foldl (fun s w => w.entries.foldl (State.wakeEntry team off r w) s) s := by
  simp only [State.wakeRing, named, ring, filled, if_false]
  rfl

/-- No leaf waits: nothing changes. -/
theorem wakeRing_deaf (deaf : ∀ w ∈ s.warpsOf team, w.deafTo off) : s.wakeRing team off = s := by
  cases named : s.team? team with
  | none => simp [State.wakeRing, named]
  | some t =>
    cases ring : t.ring? off with
    | none => simp [State.wakeRing, named, ring]
    | some r =>
      by_cases filled : r.filled = 0
      · exact wakeRing_empty named ring filled
      · rw [wakeRing_filled named ring filled]
        exact foldl_idle (fun _ w inside => wakeTable_deaf (deaf w inside) r _) s

/-- One leaf waits: it alone returns. -/
theorem wakeRing_one (named : s.team? team = some t) (ring : t.ring? off = some r) (filled : r.filled ≠ 0) {bw aw : List Warp} {w : Warp}
    {be ae : List Entry} {e : Entry} (warps : s.warpsOf team = bw ++ w :: aw) (others : ∀ y ∈ bw ++ aw, y.deafTo off)
    (entries : w.entries = be ++ e :: ae) (rest : ∀ y ∈ be ++ ae, ∀ d m, y.wait ≠ .ring off d m) :
    s.wakeRing team off = s.wakeEntry team off r w e := by
  have quiet (l : List Warp) (sub : ∀ y ∈ l, y ∈ bw ++ aw) (u : State) :
      l.foldl (fun s w => w.entries.foldl (State.wakeEntry team off r w) s) u = u :=
    foldl_idle (fun _ y inside => wakeTable_deaf (others y (sub y inside)) r _) u
  have calm (l : List Entry) (sub : ∀ y ∈ l, y ∈ be ++ ae) (u : State) : l.foldl (State.wakeEntry team off r w) u = u :=
    foldl_idle (fun _ y inside => wakeEntry_deaf (rest y (sub y inside)) r w _) u
  rw [wakeRing_filled named ring filled, warps, List.foldl_append, quiet bw (fun _ => List.mem_append_left _), List.foldl_cons,
    quiet aw (fun _ => List.mem_append_right _), entries, List.foldl_append, calm be (fun _ => List.mem_append_left _), List.foldl_cons,
    calm ae (fun _ => List.mem_append_right _)]

/-- An acquire changes cores alone. -/
theorem acquire_frame (s : State) (team : Nat) (name : Word64) : ∃ cores, s.acquire team name = { s with cores := cores } := by
  unfold State.acquire
  split
  · exact ⟨_, rfl⟩
  · exact ⟨_, rfl⟩

/-- The leaf that returns has the slot's offset, and ends its RWAIT. -/
theorem wakeEntry_returns {w : Warp} {e : Entry} {d : Opnd} {m : BitVec 32} (wait : e.wait = .ring off d m) (r : Ring) (s : State) :
    ∃ cores, s.wakeEntry team off r w e = { (s.updWarp team w.index fun x =>
      (x.receive e.handler s.fresh m d (r.slotAt r.rp)).finish e.id 8) with fresh := s.fresh + 1, cores := cores } := by
  obtain ⟨cores, frame⟩ := acquire_frame
    (({ (s.updWarp team w.index fun x => x.receive e.handler s.fresh m d (r.slotAt r.rp)) with fresh := s.fresh + 1 } : State).complete
      ⟨team, w.index, e.id⟩ 8) team (objectName 3 off)
  refine ⟨cores, ?_⟩
  simp only [State.wakeEntry, wait, if_true]
  refine frame.trans ?_
  rw [← updWarp_updWarp s team w.index (fun x => x.receive e.handler s.fresh m d (r.slotAt r.rp)) (fun x => x.finish e.id 8)]
  rfl

end

/-! ### RWAIT (R200, R370) -/

theorem Tbl.look_split {α : Type} {k : Nat} {v : α} {t : Tbl α} (h : Tbl.look k t = some v) :
    ∃ a b, t = a ++ (k, v) :: b ∧ ∀ f : α → α, Tbl.alter k f t = a ++ (k, f v) :: b := by
  induction t with
  | nil => cases h
  | cons p t ih =>
    obtain ⟨j, x⟩ := p
    by_cases here : j = k
    · subst here
      obtain rfl : x = v := by simpa [Tbl.look] using h
      exact ⟨[], t, rfl, fun f => by simp [Tbl.alter]⟩
    · obtain ⟨a, b, split_, alter⟩ := ih (by simpa [Tbl.look, here] using h)
      exact ⟨(j, x) :: a, b, by rw [split_]; rfl, fun f => by simp [Tbl.alter, here, alter]⟩

/-- A warp among its team's warps, before and after a change of it. -/
theorem warpsOf_updWarp {s : State} {T W : Nat} {w : Warp} (warp : s.warp? T W = some w) (own : w.team = T) :
    ∃ bw aw, s.warpsOf T = bw ++ w :: aw ∧ ∀ f : Warp → Warp, (f w).team = T → (s.updWarp T W f).warpsOf T = bw ++ f w :: aw := by
  obtain ⟨a, b, split_, alter⟩ := Tbl.look_split warp
  refine ⟨(a.filter fun p => p.2.team == T).map Prod.snd, (b.filter fun p => p.2.team == T).map Prod.snd, ?_, fun f own' => ?_⟩
  · simp [State.warpsOf, split_, own]
  · simp [State.warpsOf, State.updWarp, alter, own']

/-- An entry among its warp's, where no other has its name. -/
theorem entries_split {w : Warp} {id : Nat} {e : Entry} (entry : w.entry? id = some e) (distinct : (w.entries.map Entry.id).Nodup) :
    ∃ be ae, w.entries = be ++ e :: ae ∧ ∀ y ∈ be ++ ae, y.id ≠ id := by
  obtain ⟨be, ae, split_⟩ := List.append_of_mem (List.mem_of_find?_eq_some entry)
  refine ⟨be, ae, split_, fun y inside same => ?_⟩
  have named : e.id = id := by simpa using List.find?_some entry
  rw [split_, List.map_append, List.map_cons, List.nodup_middle, List.nodup_cons, ← List.map_append] at distinct
  exact distinct.1 (List.mem_map.mpr ⟨y, inside, same.trans named.symm⟩)

theorem block_eq (s : State) (r : LeafRef) (x : Wait) : s.block r x = s.updWarp r.team r.warp (fun w => w.waiting r.leaf x) := rfl

/-- A leaf ends its instruction alike, whatever it waited for. -/
theorem finish_waiting {w : Warp} {id : Nat} {e : Entry} (entry : w.entry? id = some e) (x : Wait) (len : Nat) :
    (w.waiting id x).finish id len = w.finish id len := by
  have waits : (w.waiting id x).entry? id = some { e with wait := x, passes := 0, promo := 0, yielded := false } :=
    entry_updEntry entry fun _ => rfl
  have same : ((w.waiting id x).tickMask e.mask).updEntry id (Entry.ended len) = (w.tickMask e.mask).updEntry id (Entry.ended len) := by
    simp only [Warp.updEntry, Warp.tickMask, Warp.waiting, mapIf, List.map_map]
    congr 2
    funext y
    by_cases named : y.id = id
    · simp [named, Entry.ended, Entry.issued]
    · simp [named]
  rw [finish_of_entry waits, finish_of_entry entry, same]

theorem getLsbD_maskOf (l : List Nat) {i : Nat} (hi : i < 32) : (maskOf l).getLsbD i = decide (i ∈ l) := by
  have go (m : BitVec 32) : (l.foldl (fun m t => m ||| (1#32 <<< t)) m).getLsbD i = (m.getLsbD i || decide (i ∈ l)) := by
    induction l generalizing m with
    | nil => simp
    | cons t l ih =>
      have bit : (1#32 <<< t).getLsbD i = decide (i = t) := by
        rw [BitVec.getLsbD_shiftLeft, BitVec.getLsbD_one]
        by_cases same : i = t
        · subst same; simp [hi]
        · simp only [same, decide_false]
          simp
          omega
      rw [List.foldl_cons, ih, BitVec.getLsbD_or, bit, Bool.or_assoc]
      simp
  rw [maskOf, go, BitVec.getLsbD_zero, Bool.false_or]

/-- A value written to the slices of a position. -/
theorem write_after (th : Thread) (pick : Nat → Bool) (pc : Word) {p : Pos} (some_ : p.slices ≠ 0) (fits : p.start th + p.slices ≤ 512)
    (v : Nat) : ThreadAfter pc 0 th (th.write pick (p.start th) p.slices v) (some p) (.ofVal v) := by
  obtain ⟨preds, fstat, index, rest⟩ := write_other th pick (p.start th) p.slices v
  refine ⟨?_, fun none_ => absurd (none_ p v rfl rfl) some_, fun q _ => by rw [preds]; rfl, by rw [fstat]; simp [Eff.ofVal], index, rest⟩
  rintro q u ⟨⟩ ⟨⟩ -
  exact writeAhead_slices th pick pc 0 _ _ v (Nat.pos_of_ne_zero some_) fits

/-- A thread that a position has no slices in. -/
theorem same_after (th : Thread) (pc : Word) {p : Pos} (none_ : p.slices = 0) (v : Nat) : ThreadAfter pc 0 th th (some p) (.ofVal v) := by
  refine ⟨?_, fun _ => ⟨rfl, rfl, rfl, rfl⟩, fun _ _ => rfl, by simp [Eff.ofVal], ⟨rfl, rfl, rfl, rfl⟩, rfl, rfl⟩
  rintro q u ⟨⟩ ⟨⟩ some_
  exact absurd none_ some_

/-- A destination written at a wait's end: as by an instruction in the waiting threads (R52, R200). -/
theorem receive_after {c : Ctx} {d : Opnd} {ok : Bool} (small : ∀ i ∈ c.on, i < 32)
    (fits : ∀ i ∈ c.on, (Pos.dst d ok).start (c.th i) + (Pos.dst d ok).slices ≤ 512) (fresh v : Nat) :
    WarpAfter c 0 (c.warp.receive c.warp.handler.isSome fresh (maskOf c.on) d v) c.on (some (Pos.dst d ok)) (fun _ => .ofVal v) := by
  cases d with
  | imm x =>
    exact ⟨fun i _ _ => same_after _ _ rfl v, fun _ _ => rfl, by rintro _ k i u ⟨⟩ ⟨⟩, fun _ => ⟨rfl, rfl⟩, rfl, rfl⟩
  | uni k =>
    have threads : (c.warp.receive c.warp.handler.isSome fresh (maskOf c.on) (.uni k) v).threads = c.warp.threads := by
      simp only [Warp.receive, Warp.setUniIn]
      split <;> rfl
    have same (i : Nat) : (c.warp.receive c.warp.handler.isSome fresh (maskOf c.on) (.uni k) v).thread i = c.th i := by
      rw [Warp.thread, threads]
      rfl
    refine ⟨fun i _ _ => ?_, fun i _ => same i, ?_, fun none_ => absurd rfl (none_ _ k rfl), ?_, by rw [threads]⟩
    · rw [same]
      exact same_after _ _ rfl v
    · rintro _ _ i u ⟨⟩ ⟨⟩ - ⟨⟩
      refine ⟨(uniReg_setUniReg c.warp _ v _ k.isLt k.isLt).trans (if_pos rfl), fun j hj other => ?_⟩
      exact (uniReg_setUniReg c.warp _ v j k.isLt hj).trans (if_neg other)
    · simp only [Warp.receive, Warp.setUniIn]
      split <;> rfl
  | reg q st =>
    have some_ : q.slices ≠ 0 := by cases q <;> decide
    have thread (i : Nat) := thread_map c.warp (fun x => if (maskOf c.on).getLsbD x.2 then
      Thread.write x.1 (fun slice => Config.windowPick fresh (slice + 512 * x.2)) st.toNat q.slices v else x.1) i
    refine ⟨fun i on inside => ?_, fun i off => ?_, by rintro _ k i u ⟨⟩ ⟨⟩, fun _ => ⟨rfl, rfl⟩, rfl, by simp [Warp.receive, Warp.writeIn]⟩
    · have mine : (maskOf c.on).getLsbD i = true := by rw [getLsbD_maskOf _ (small i on)]; simpa using on
      have written : (c.warp.receive c.warp.handler.isSome fresh (maskOf c.on) (.reg q st) v).thread i
          = (c.th i).write (fun slice => Config.windowPick fresh (slice + 512 * i)) st.toNat q.slices v :=
        (thread i).trans (by rw [if_pos inside, if_pos mine]; rfl)
      rw [written]
      exact write_after (p := Pos.dst (.reg q st) ok) (c.th i) _ c.entry.pc some_ (fits i on) v
    · refine (thread i).trans ?_
      have other : (maskOf c.on).getLsbD i = false := by
        by_cases hi : i < 32
        · rw [getLsbD_maskOf _ hi]; simpa using off
        · exact BitVec.getLsbD_of_ge _ _ (Nat.le_of_not_lt hi)
      simp [other, Ctx.th]

theorem receive_entries (w : Warp) (shadow : Bool) (fresh : Nat) (m : BitVec 32) (d : Opnd) (v : Nat) :
    (w.receive shadow fresh m d v).entries = w.entries := by
  cases d with
  | uni k => cases shadow <;> rfl
  | reg _ _ => rfl
  | imm _ => rfl

theorem receive_waiting (w : Warp) (id : Nat) (x : Wait) (shadow : Bool) (fresh : Nat) (m : BitVec 32) (d : Opnd) (v : Nat) :
    (w.waiting id x).receive shadow fresh m d v = (w.receive shadow fresh m d v).waiting id x := by
  cases d with
  | uni k => cases shadow <;> rfl
  | reg _ _ => rfl
  | imm _ => rfl

/-- An entry that begins a wait. -/
def Entry.waits (x : Wait) (e : Entry) : Entry :=
  { e with wait := x, passes := 0, promo := 0, yielded := false }

/-- Of a warp's entries, a wait changes the one that it names. -/
theorem entries_waiting {w : Warp} {id : Nat} {be ae : List Entry} {e : Entry} (entries : w.entries = be ++ e :: ae) (named : e.id = id)
    (others : ∀ y ∈ be ++ ae, y.id ≠ id) (x : Wait) : (w.waiting id x).entries = be ++ e.waits x :: ae := by
  have same (l : List Entry) (sub : ∀ y ∈ l, y ∈ be ++ ae) : l.map (fun e => if e.id == id then e.waits x else e) = l :=
    (List.map_congr_left (g := fun e => e) fun y hy => if_neg (by simpa using others y (sub y hy))).trans (List.map_id l)
  change w.entries.map (fun e => if e.id == id then e.waits x else e) = _
  rw [entries, List.map_append, List.map_cons, same be fun _ => List.mem_append_left _, same ae fun _ => List.mem_append_right _,
    if_pos (beq_iff_eq.mpr named)]

section
variable {s : State} {g : Guard} {c : Ctx} {d a : Opnd} {r : Ring} {off : Nat}

theorem rwait_noRing (ready : s.Ready g [Pos.dst d d.reg32, Pos.src 1 a a.src32] c) (named : c.u32 c.low (Pos.src 1 a a.src32) = off)
    (none_ : c.team.ring? off = none) : Traps (.rwait g d a) s c 0x02#8 (c.low % 32 + 256) := by
  change execRwait g d a s = _
  rw [execRwait, issue_ready ready]
  simp only [named, none_]
  rfl

theorem exec_rwait (ready : s.Ready g [Pos.dst d d.reg32, Pos.src 1 a a.src32] c) (named : c.u32 c.low (Pos.src 1 a a.src32) = off)
    (ring : c.team.ring? off = some r) :
    exec (.rwait g d a) s = .next ((s.issued.block c.ref (.ring off d (maskOf c.on))).wakeRing c.ref.team off) := by
  change execRwait g d a s = _
  rw [execRwait, issue_ready ready]
  simp only [named, ring]
  rfl

/-- With no slot filled, RWAIT waits. -/
theorem rwait_waits (ready : s.Ready g [Pos.dst d d.reg32, Pos.src 1 a a.src32] c) (named : c.u32 c.low (Pos.src 1 a a.src32) = off)
    (ring : c.team.ring? off = some r) (empty : r.filled = 0) : exec (.rwait g d a) s
      = .next (s.issued.updWarp c.ref.team c.ref.warp fun w => w.waiting c.ref.leaf (.ring off d (maskOf c.on))) := by
  obtain ⟨-, team, -, -, -, -, -⟩ := ctx_facts ready.1
  exact (exec_rwait ready named ring).trans (congrArg _ (wakeRing_empty (s := s.issued.block c.ref _) team ring empty))

/-- With a slot filled, RWAIT returns at once with its offset. -/
theorem rwait_returns (ready : s.Ready g [Pos.dst d d.reg32, Pos.src 1 a a.src32] c) (named : c.u32 c.low (Pos.src 1 a a.src32) = off)
    (ring : c.team.ring? off = some r) (filled : r.filled ≠ 0) (deaf : ∀ y ∈ s.warpsOf c.ref.team, y.deafTo off)
    (index : c.warp.index = c.ref.warp) (own : c.warp.team = c.ref.team) (distinct : (c.warp.entries.map Entry.id).Nodup) :
    ∃ cores, exec (.rwait g d a) s = .next { (s.issued.updWarp c.ref.team c.ref.warp fun _ =>
      (c.warp.receive c.entry.handler s.issued.fresh (maskOf c.on) d (r.slotAt r.rp)).finish c.ref.leaf 8) with
        fresh := s.issued.fresh + 1, cores := cores } := by
  obtain ⟨-, team, warp, entry, -, -, -⟩ := ctx_facts ready.1
  have leaf : c.entry.id = c.ref.leaf := by simpa using List.find?_some entry
  obtain ⟨bw, aw, before, after⟩ := warpsOf_updWarp (s := s.issued) warp own
  obtain ⟨be, ae, entries, others⟩ := entries_split entry distinct
  have listed (y : Warp) (hy : y = c.warp ∨ y ∈ bw ++ aw) : y.deafTo off := by
    refine deaf y ?_
    change y ∈ s.issued.warpsOf c.ref.team
    rw [before]
    simp only [List.mem_append, List.mem_cons] at hy ⊢
    tauto
  have rest (y : Entry) (hy : y ∈ be ++ ae) : ∀ d m, y.wait ≠ .ring off d m := by
    refine listed c.warp (.inl rfl) y ?_
    rw [entries]
    simp only [List.mem_append, List.mem_cons] at hy ⊢
    tauto
  have wakes : (s.issued.block c.ref (.ring off d (maskOf c.on))).wakeRing c.ref.team off = _ :=
    wakeRing_one (s := s.issued.block c.ref (.ring off d (maskOf c.on))) team ring filled (after _ own) (fun y hy => listed y (.inr hy))
      (entries_waiting entries leaf others (.ring off d (maskOf c.on))) rest
  obtain ⟨cores, returns⟩ := wakeEntry_returns (team := c.ref.team) (off := off)
    (w := c.warp.waiting c.ref.leaf (.ring off d (maskOf c.on))) (e := c.entry.waits (.ring off d (maskOf c.on))) rfl r
    (s.issued.block c.ref (.ring off d (maskOf c.on)))
  refine ⟨cores, (exec_rwait ready named ring).trans (congrArg _ ((wakes.trans returns).trans ?_))⟩
  have received : ((c.warp.waiting c.ref.leaf (.ring off d (maskOf c.on))).receive c.entry.handler s.issued.fresh (maskOf c.on) d
      (r.slotAt r.rp)).finish c.entry.id 8
        = (c.warp.receive c.entry.handler s.issued.fresh (maskOf c.on) d (r.slotAt r.rp)).finish c.ref.leaf 8 := by
    rw [receive_waiting, leaf]
    exact finish_waiting (by rw [Warp.entry?, receive_entries]; exact entry) _ 8
  have changes : (s.issued.block c.ref (.ring off d (maskOf c.on))).updWarp c.ref.team c.warp.index (fun x =>
        (x.receive c.entry.handler s.issued.fresh (maskOf c.on) d (r.slotAt r.rp)).finish c.entry.id 8)
      = s.issued.updWarp c.ref.team c.ref.warp fun _ =>
        (c.warp.receive c.entry.handler s.issued.fresh (maskOf c.on) d (r.slotAt r.rp)).finish c.ref.leaf 8 := by
    change (s.issued.updWarp c.ref.team c.ref.warp fun w => w.waiting c.ref.leaf (.ring off d (maskOf c.on))).updWarp _ _ _ = _
    rw [index, updWarp_updWarp, updWarp_at s.issued c.ref _ c.warp warp, received]
  exact congrArg (fun v : State => { v with fresh := s.issued.fresh + 1, cores := cores }) changes

end

/-! ### RINIT, RREL and CPWAIT (R102, R199, R200, R331) -/

/-- A ring set in a team, with its header in the team's local store and every other byte as it was (R198). -/
theorem setRing_mirrored {s : State} {T off : Nat} {t : Team} (team : s.team? T = some t) {x : Ring} (named : x.off = off)
    (slots : x.slots < 256) (res : x.res < 256) (wp : x.wp < 256) (rp : x.rp < 256) :
    ∃ z, (s.updTeam T fun t => t.setRing x).team? T = some z
      ∧ z.rings.find? (fun y => y.off == off) = some x
      ∧ z.loc.read off 16 = natLe 8 0 ++ [BitVec.ofNat 8 x.rp, BitVec.ofNat 8 x.wp, BitVec.ofNat 8 x.res, BitVec.ofNat 8 x.slots]
        ++ natLe 4 (x.size / 16)
      ∧ ∀ j, (j < off ∨ off + 16 ≤ j) → z.loc.byte j = t.loc.byte j := by
  subst named
  refine ⟨t.setRing x, by rw [State.team_updTeam, if_pos rfl, team]; rfl, ring_setRing t x, ?_, fun j apart => ?_⟩
  · rw [← header_eq slots res wp rp]
    have read := read_write_self t.loc x.off x.header
    rwa [length_header] at read
  · exact byte_write_apart t.loc (by rwa [length_header])

/-- A team takes no ring at an offset: one there has fills, or it is a ninth (R199). -/
def Team.refusesRing (t : Team) (off : Nat) : Bool :=
  match t.ring? off with
  | some r => !r.fills.isEmpty
  | none => 8 ≤ t.rings.length

/-- A ring made for the issuing team, with its credits in a convoy. -/
def State.makeRing (u : State) (c : Ctx) (r : Ring) : State :=
  match c.team.convoy with
  | some k => (u.updTeam c.ref.team fun t => t.setRing r).updConvoy k (fun v => v.setCredits c.team.slot r.off r.slots)
  | none => u.updTeam c.ref.team fun t => t.setRing r

section
variable {s : State} {g : Guard} {c : Ctx} {a b k : Opnd} {off : Nat} {r : Ring}

/-- RINIT by its checks, in their order. -/
theorem exec_rinit {cnt sz : Nat} (ready : s.Ready g [Pos.src 1 a a.src32, Pos.src 2 b b.src32, Pos.src 3 k k.src32] c)
    (offset : c.u32 c.low (Pos.src 1 a a.src32) = off) (count : c.u32 c.low (Pos.src 2 b b.src32) = cnt)
    (size : c.u32 c.low (Pos.src 3 k k.src32) = sz) : exec (.rinit g a b k) s = .next (
      if off % 16 != 0 || bitOf off 24 then s.issued.deliver c.ref (mkTrap cILLOPND (opInfo c.low 1))
      else if cnt < 2 || 64 < cnt then s.issued.deliver c.ref (mkTrap cILLOPND (opInfo c.low 2))
      else if sz < 16 || 65536 < sz || sz % 16 != 0 then s.issued.deliver c.ref (mkTrap cILLOPND (opInfo c.low 3))
      else if c.team.refusesRing off then s.issued.deliver c.ref (mkTrap cILLOPND (opInfo c.low 1))
      else if c.team.lstore < off + 16 + cnt * sz then s.issued.deliver c.ref (mkTrap cLSBOUND 0)
      else (s.issued.makeRing c ⟨off, cnt, sz, 0, 0, 0, []⟩).complete c.ref 12) := by
  subst offset count size
  change execRinit g a b k s = _
  rw [execRinit, issue_ready ready]
  change Host.Outcome.next (Done.state (if _ then _ else if _ then _ else if _ then _ else if c.team.refusesRing _ then _ else if _ then _
    else Done.next (s.issued.makeRing c _)) _ _ _) = _
  split_ifs <;> rfl

/-- The release of an object finds every access complete. -/
theorem released_of_drained (drained : s.Drained) (c : Ctx) (i : Nat) (name : Word64) : s.issued.released c i name = true := by
  obtain ⟨-, cores, writes, atoms, -, -⟩ := drained
  rw [State.released, State.releasedBy]
  split
  next t _ =>
    have quay (k) (hk : k ∈ s.cores) := (cores k hk).1
    have gathers (k) (hk : k ∈ s.cores) := (cores k hk).2
    simp +contextual [State.writesDone, State.loadsDone, writes, atoms, quay, gathers]
  next => rfl

theorem rrel_empty (ready : s.Ready g [Pos.src 1 a a.src32] c) (offset : c.u32 c.low (Pos.src 1 a a.src32) = off)
    (ring : c.team.ring? off = some r) (empty : r.filled = 0) : Traps (.rrel g a) s c 0x02#8 (c.low % 32 + 256) := by
  change execRrel g a s = _
  rw [execRrel, issue_ready ready]
  simp only [offset, ring, empty, if_true]
  rfl

/-- RREL of a filled slot, once every access is complete. -/
theorem rrel_releases (ready : s.Ready g [Pos.src 1 a a.src32] c) (offset : c.u32 c.low (Pos.src 1 a a.src32) = off)
    (ring : c.team.ring? off = some r) (filled : r.filled ≠ 0) (drained : s.Drained) (alone : c.team.convoy = none) :
    Goes (.rrel g a) s c 8 (s.issued.updTeam c.ref.team fun t =>
      t.setRing { r with rp := (r.rp + 1) % r.slots, fills := r.fills.drop 1 }) := by
  change execRrel g a s = _
  rw [execRrel, issue_ready ready]
  simp only [offset, ring, filled, released_of_drained drained, alone, Bool.not_true, Bool.false_eq_true, if_false]
  rfl

/-- CPWAIT counts in DEPCNT where it passes alone. -/
theorem exec_cpwait (ready : s.Ready g [Pos.src 1 k k.isUniImm] c) {n : Nat} (bound : c.u32 c.low (Pos.src 1 k k.isUniImm) = n) :
    exec (.cpwait g k) s = .next (
      if 255 < n then s.issued.deliver c.ref (mkTrap cILLOPND (opInfo c.low 1))
      else if n < s.issued.openCopies c.ref.team c.ref.warp then { s.issued with held := .blocked .busy }
      else (s.issued.bumpDie c.team.die 0x108 1).complete c.ref 8) := by
  subst bound
  have some_ : c.on.isEmpty = false := List.isEmpty_eq_false_iff.mpr (ready_checks ready.2).1
  change execCpwait g k s = _
  rw [execCpwait, issueWith_ready ready]
  simp only [some_, Bool.false_eq_true, if_false]
  change Host.Outcome.next (Done.state (if _ then _ else if _ < s.issued.openCopies c.ref.team c.ref.warp then _ else _) _ _ _) = _
  split_ifs <;> rfl

end

/-! ### Fills, drains and acknowledgements (R191, R200, R202) -/

theorem off_of_ring {t : Team} {off : Nat} {r : Ring} (ring : t.ring? off = some r) : r.off = off := by
  rw [Team.ring?] at ring
  simpa using List.find?_some ring

/-- A ring in which a fill has taken slot RES. -/
def Ring.reserving (r : Ring) (xfer : Nat) (sender : Option Nat) : Ring :=
  { r with res := (r.res + 1) % r.slots, fills := r.fills ++ [⟨r.res, xfer, false, sender⟩] }

/-- Where every transfer that meets p has one name, the first of them has it. -/
theorem find_named {l : List Xfer} {p : Xfer → Bool} {x : Xfer} {id : Nat} (inside : x ∈ l) (meets : p x = true)
    (only : ∀ y ∈ l, p y = true → y.id = id) : (l.find? p).map Xfer.id = some id := by
  cases found : l.find? p with
  | none => exact absurd meets (List.find?_eq_none.mp found x inside)
  | some y => rw [Option.map_some, only y (List.mem_of_find?_eq_some found) (List.find?_some found)]

section
variable {s : State} {T off : Nat} {t : Team} {r : Ring}

theorem reserveSlot_takes (team : s.team? T = some t) (ring : t.ring? off = some r) (room : r.fills.length < r.slots) (xfer : Nat)
    (sender : Option Nat) :
    s.reserveSlot T off xfer sender = some (r.res, s.updTeam T fun t => t.setRing (r.reserving xfer sender)) := by
  simp only [State.reserveSlot, team, Option.bind_some, ring, room, if_true]
  rfl

theorem team_setRing (team : s.team? T = some t) (r : Ring) : (s.updTeam T fun t => t.setRing r).team? T = some (t.setRing r) := by
  rw [State.team_updTeam, if_pos rfl, team]
  rfl

theorem xfer_updXfer {id : Nat} {x : Xfer} (found : s.xfer? id = some x) {f : Xfer → Xfer} (keeps : ∀ y, (f y).id = y.id) :
    (s.updXfer id f).xfer? id = some (f x) := by
  rw [State.xfer?] at found
  rw [State.xfer?, State.updXfer, find_mapIf fun y named => by rwa [keeps], found]
  rfl

/-- The only fill that waits for a ring takes its free slot. -/
theorem exec_ringSlotReserve (team : s.team? T = some t) (ring : t.ring? off = some r) (room : r.fills.length < r.slots) {id b : Nat}
    {x : Xfer} {sender : Option Nat} (found : s.xfer? id = some x) (fills : x.ring = some (T, off, b, sender)) (waits : x.slot = none)
    (only : ∀ y ∈ s.xfers, y.id ≠ id → ∀ b f, y.ring ≠ some (T, off, b, f)) : exec (.ringSlotReserve id) s
      = .next ((s.updTeam T fun t => t.setRing (r.reserving id sender)).updXfer id fun x => { x with slot := some r.res }) := by
  change execRingSlotReserve id s = _
  simp only [execRingSlotReserve, found, fills, waits]
  refine (if_pos (beq_iff_eq.mpr (find_named (List.mem_of_find?_eq_some found) ?_ fun y hy waiting => ?_))).trans ?_
  · simp [fills, waits]
  · by_contra other
    obtain ⟨-, filling⟩ := Bool.and_eq_true_iff.mp waiting
    split at filling
    next T' off' b' f ring' =>
      obtain ⟨rfl, rfl⟩ : T' = T ∧ off' = off := by simpa using filling
      exact only y hy other b' f ring'
    next => cases filling
  · rw [reserveSlot_takes team ring room]

/-- A ring in which the fill of a transfer has landed. -/
def Ring.landed (r : Ring) (xfer : Nat) : Ring :=
  { r with fills := mapIf (fun f => f.xfer == xfer) (fun f => { f with full := true }) r.fills }

/-- A fill that has landed marks its slot full; where no leaf waits for the ring, that is all. -/
theorem slotFilled_deaf (team : s.team? T = some t) (ring : t.ring? off = some r) (deaf : ∀ y ∈ s.warpsOf T, y.deafTo off) (xfer : Nat) :
    s.slotFilled T off xfer = s.updTeam T fun t => t.setRing (r.landed xfer).advance := by
  simp only [State.slotFilled, team, Option.bind_some, ring]
  exact wakeRing_deaf (s := s.updTeam T _) deaf

/-- A ring without a fill whose next slot has been filled at once. -/
def Ring.filling (r : Ring) (xfer : Nat) : Ring :=
  { r with res := (r.res + 1) % r.slots, wp := (r.rp + 1) % r.slots, fills := [⟨r.res, xfer, true, none⟩] }

theorem advance_landed (empty : r.fills = []) (room : 0 < r.slots) (xfer : Nat) :
    ((r.reserving xfer none).landed xfer).advance = r.filling xfer := by
  have slots : max 1 r.slots = r.slots := Nat.max_eq_right room
  simp [Ring.advance, Ring.landed, Ring.reserving, Ring.filling, Ring.filled, mapIf, empty, slots]

/-- A team with a slot of its ring taken and a copy's bytes in it, the fill not yet marked full. -/
def Team.laying (t : Team) (r : Ring) (xfer : Nat) (bytes : List Byte) : Team :=
  let u := t.setRing (r.reserving xfer none)
  { u with loc := u.loc.write (r.slotAt r.res) bytes }

/-- A receiving team after a copy's bytes are laid in the next slot of its ring. -/
def Team.draining (t : Team) (r : Ring) (xfer : Nat) (bytes : List Byte) : Team :=
  (t.laying r xfer bytes).setRing (r.filling xfer)

theorem ring_reserving (t : Team) (r : Ring) (xfer : Nat) (sender : Option Nat) :
    (t.setRing (r.reserving xfer sender)).rings.find? (fun y => y.off == r.off) = some (r.reserving xfer sender) :=
  ring_setRing t (r.reserving xfer sender)

theorem ring_draining (t : Team) (r : Ring) (xfer : Nat) (bytes : List Byte) :
    (t.draining r xfer bytes).rings.find? (fun y => y.off == r.off) = some (r.filling xfer) :=
  ring_setRing _ (r.filling xfer)

/-- The header written last leaves the slot's bytes. -/
theorem read_draining (t : Team) (r : Ring) (xfer : Nat) (bytes : List Byte) :
    (t.draining r xfer bytes).loc.read (r.off + 16 + r.res * r.size) bytes.length = bytes := by
  refine (read_write_apart _ (a := r.off) (bs := (r.filling xfer).header) (.inl ?_)).trans (read_write_self _ _ bytes)
  rw [length_header, Nat.add_assoc (r.off)]
  exact Nat.add_le_add_left (Nat.le_add_right _ _) _

/-- A die whose copies have one drain less at a receiver's ring; those without a drain are gone. -/
def Die.drained (d : Die) (tile T off : Nat) : Die :=
  { d with holding := (mapIf (fun x => x.id == tile)
      (fun x => { x with drains := dropFirst (fun e => e.1 == T && e.2.1 == off) x.drains }) d.holding).filter (fun x => !x.drains.isEmpty) }

/-- The state in which a die's copy lies in a receiver's slot, the fill not yet marked full. -/
def State.laying (s : State) (die T : Nat) (r : Ring) (h : HeldTile) : State :=
  ((({ s with nextId := s.nextId + 1 } : State).updTeam T fun t => t.setRing (r.reserving s.nextId none)).updTeam T fun t =>
    { t with loc := t.loc.write (r.slotAt r.res) h.bytes }).updDie die fun d => d.drained h.id T r.off

theorem team_laying (team : s.team? T = some t) (die : Nat) (r : Ring) (h : HeldTile) :
    (s.laying die T r h).team? T = some (t.laying r s.nextId h.bytes) := by
  have reserved := team_setRing (s := { s with nextId := s.nextId + 1 }) team (r.reserving s.nextId none)
  rw [State.laying, State.updDie_teamAt, State.team_updTeam, if_pos rfl, reserved]
  rfl

/-- The one copy that a die holds, for one receiver whose ring is empty, goes into its next slot, which is then filled. -/
theorem exec_multicastBufferDrain (team : s.team? T = some t) (ring : t.ring? off = some r) (room : r.fills.length < r.slots)
    {die : Nat} {h : HeldTile} (holds : (s.die die).holding = [h]) (drains : h.drains = [(T, off, none)])
    (whole : h.bytes.length = h.len) (resident : t.state = .resident) (empty : r.fills = [])
    (deaf : ∀ y ∈ s.warpsOf T, y.deafTo off) : ∃ u, exec (.multicastBufferDrain die T) s = .next u ∧ u.mem = s.mem ∧ u.warps = s.warps
      ∧ u.die die = (s.die die).drained h.id T off ∧ u.team? T = some (t.draining r s.nextId h.bytes) := by
  have finds : s.drainable die T = some (h, off, none) := by
    simp [State.drainable, holds, whole, drains, team, ring, room]
  obtain rfl : r.off = off := off_of_ring ring
  have deaf' : ∀ y ∈ (s.laying die T r h).warpsOf T, y.deafTo r.off := by
    rw [State.laying, State.warpsOf, State.updDie_warps, State.updTeam_warps, State.updTeam_warps]
    exact deaf
  refine ⟨(s.laying die T r h).updTeam T fun t => t.setRing (r.filling s.nextId), ?_, rfl, rfl, ?_,
    team_setRing (team_laying team die r h) _⟩
  · have fills := slotFilled_deaf (team_laying team die r h) (ring_reserving t r s.nextId none) deaf' s.nextId
    rw [advance_landed empty (by omega)] at fills
    change execMulticastBufferDrain die T s = _
    simp only [execMulticastBufferDrain, finds, team, resident, TeamState.holds, Bool.not_true, Bool.false_eq_true, if_false,
      State.takeId]
    rw [reserveSlot_takes (s := { s with nextId := s.nextId + 1 }) team ring room]
    simp only [team_setRing (s := { s with nextId := s.nextId + 1 }) team, Option.bind_some, Team.ring?, ring_reserving, Option.map_some,
      Option.getD_some]
    exact congrArg _ fills
  · rw [State.updTeam_dieAt, State.laying, State.die_updDie, if_pos rfl]
    rfl

/-- A transfer that changes and then goes: the others stay as they were. -/
theorem filter_mapIf_named (id : Nat) {f : Xfer → Xfer} (keeps : ∀ y, (f y).id = y.id) (l : List Xfer) :
    (mapIf (fun y => y.id == id) f l).filter (fun y => y.id != id) = l.filter (fun y => y.id != id) := by
  induction l with
  | nil => rfl
  | cons x l ih =>
    rw [mapIf, List.map_cons, ← mapIf, List.filter_cons, List.filter_cons, ih]
    by_cases named : x.id = id <;> simp [named, keeps]

/-- A copy of one slice, outside a ring, is over with its last byte. -/
theorem finishXfer_copy {x : Xfer} {sl : XSlice} (slices : x.slices = [sl]) (copy : ∃ d, x.kind = .copy d) (noRing : x.ring = none)
    (whole : sl.complete = true) : s.finishXfer x = s.delXfer x.id := by
  obtain ⟨d, kind⟩ := copy
  simp [State.finishXfer, slices, whole, kind, noRing, Xfer.counted]

/-- A transfer whose first slice has landed whole. -/
def Xfer.acked (x : Xfer) : Xfer :=
  { x with slices := modAt 0 (fun sl => { sl with landed := [(0, sl.len)] }) x.slices }

/-- The state with no message on its way. -/
def State.unsent (s : State) : State :=
  { s with outbox := [] }

/-- The only message on its way is acknowledged: its copy of one slice is over. -/
theorem exec_messageAck {m : OutMessage} {x : Xfer} {sl : XSlice} (only : s.outbox = [m]) (found : s.xfer? m.xfer = some x)
    (slices : x.slices = [sl]) (slice : m.slice = 0) (copy : ∃ d, x.kind = .copy d) (noRing : x.ring = none) (noPoint : x.point = none) :
    ∃ u, exec (.messageAck m.id) s = .next u ∧ u.outbox = [] ∧ u.mem = s.mem ∧ u.warps = s.warps
      ∧ u.xfers = s.xfers.filter (fun y => y.id != m.xfer) := by
  have named : x.id = m.xfer := by
    rw [State.xfer?] at found
    simpa using List.find?_some found
  have ends : (s.unsent.updXfer m.xfer Xfer.acked).finishXfer x.acked = (s.unsent.updXfer m.xfer Xfer.acked).delXfer m.xfer := by
    rw [← named]
    refine finishXfer_copy (x := x.acked) (sl := { sl with landed := [(0, sl.len)] }) ?_ copy noRing ?_
    · simp [Xfer.acked, slices, modAt]
    · simp [XSlice.complete, XSlice.landedBytes]
  refine ⟨(s.unsent.updXfer m.xfer Xfer.acked).delXfer m.xfer, ?_, rfl, rfl, rfl,
    filter_mapIf_named (f := Xfer.acked) m.xfer (fun _ => rfl) s.xfers⟩
  have found' : s.unsent.xfer? m.xfer = some x := found
  have head : s.outbox.find? (fun o => o.id == m.id) = some m := by simp [only]
  have first : s.outbox.takeWhile (fun o => o.id != m.id) = [] := by simp [only]
  have sent : ({ s with outbox := s.outbox.filter (fun o => o.id != m.id) } : State) = s.unsent := by simp [State.unsent, only]
  change execMessageAck m.id s = _
  rw [execMessageAck, head]
  dsimp only
  rw [first, List.any_nil, if_neg Bool.false_ne_true, sent, found']
  dsimp only
  rw [noPoint, slice, named]
  change Host.Outcome.next (match (s.unsent.updXfer m.xfer Xfer.acked).xfer? m.xfer with | some y => _ | none => _) = _
  rw [xfer_updXfer (s := s.unsent) found' (f := Xfer.acked) fun _ => rfl]
  exact congrArg _ ends

end

/-- Settles O32: the instructions by their checks and the ring that they leave, RWAIT by the leaf that a filled slot wakes, the events by
the ring's next slot. -/
theorem rings : Obligations.Rings := by
  refine ⟨?instructions, ?events⟩
  case instructions =>
    intro s g d a b k c r po pn pz pd pk off cnt sz header ringOf calm full slot
    refine ⟨fun ready => ?rinit, fun ready => ?rwait, fun ready ring => ?rrel, fun ready => ?cpwait⟩
    case rinit =>
      have run := exec_rinit ready (off := off) (cnt := cnt) (sz := sz) rfl rfl rfl
      have place (aligned : off % 16 = 0) (own : off / 2 ^ 24 % 2 = 0) : ¬ (off % 16 != 0 || bitOf off 24) = true := by
        rw [bitOf, own, aligned]; decide
      have number (two : 2 ≤ cnt) (most : cnt ≤ 64) : ¬ (decide (cnt < 2) || decide (64 < cnt)) = true := by
        simp; omega
      refine ⟨?made, fun misaligned => ?misaligned, fun aligned own bad => ?count, fun aligned own two most bad => ?size⟩
      case made =>
        intro aligned own two most some_ small units new few
        have bytes : ¬ (decide (sz < 16) || decide (65536 < sz) || sz % 16 != 0) = true := by simp [units]; omega
        have takes : ¬ c.team.refusesRing off = true := by
          have none_ : c.team.ring? off = none := new
          rw [Team.refusesRing, none_]
          simpa using few
        rw [if_neg (place aligned own), if_neg (number two most), if_neg bytes, if_neg takes] at run
        refine ⟨fun fits alone => ?_, fun beyond => ?_⟩
        · obtain ⟨-, team, -, -, -, -, -⟩ := ctx_facts ready.1
          rw [if_neg (Nat.not_lt.mpr fits), State.makeRing, alone] at run
          exact ⟨_, run, rfl, rfl, setRing_mirrored (s := s.issued) team (x := ⟨off, cnt, sz, 0, 0, 0, []⟩) rfl (by simp only; omega)
            (Nat.zero_lt_succ _) (Nat.zero_lt_succ _) (Nat.zero_lt_succ _)⟩
        · rw [if_pos beyond] at run
          exact run
      case misaligned =>
        rw [if_pos (by simp [misaligned])] at run
        exact run
      case count =>
        rw [if_neg (place aligned own), if_pos (by simpa using bad)] at run
        exact run
      case size =>
        rw [if_neg (place aligned own), if_neg (number two most), if_pos (by simpa [or_assoc] using bad)] at run
        exact run
    case rwait =>
      refine ⟨rwait_noRing ready rfl, fun ring => ⟨fun empty => ?waits, fun filled shadow deaf index own distinct => ?returns⟩⟩
      case waits =>
        obtain ⟨-, -, warp, entry, -, -, -⟩ := ctx_facts ready.1
        have leaf : c.entry.id = c.ref.leaf := by simpa using List.find?_some entry
        rw [leaf]
        exact ⟨_, rwait_waits ready rfl ring empty, rfl, rfl, warp_updWarp_self (s := s.issued) warp _⟩
      case returns =>
        obtain ⟨-, -, warp, -, -, -, -⟩ := ctx_facts ready.1
        obtain ⟨cores, runs⟩ := rwait_returns ready rfl ring (Nat.ne_of_gt filled) deaf index own distinct
        refine ⟨_, c.warp.receive c.entry.handler s.issued.fresh (maskOf c.on) d (r.slotAt r.rp), ?_, runs,
          warp_updWarp_self (s := s.issued) warp _, rfl, rfl⟩
        rw [shadow]
        exact receive_after (fun i => lt_of_mem_on ready.1) (fun i on => ready_start ready.2 List.mem_cons_self on) _ _
    case rrel =>
      refine ⟨rrel_empty ready rfl ring, fun filled drained alone slots most wp res => ?_⟩
      obtain ⟨-, team, -, -, -, -, -⟩ := ctx_facts ready.1
      refine ⟨_, rrel_releases ready rfl ring (Nat.ne_of_gt filled) drained alone, rfl, rfl, ?_⟩
      have named : r.off = off := off_of_ring ring
      have rp : (r.rp + 1) % r.slots < 256 := (Nat.mod_lt _ slots).trans_le (by omega)
      exact setRing_mirrored (s := s.issued) team (x := { r with rp := (r.rp + 1) % r.slots, fills := r.fills.drop 1 })
        named (by simp only; omega) (by simp only; omega) (by simp only; omega) rp
    case cpwait =>
      have run := exec_cpwait ready (n := c.u32 c.low pk) rfl
      refine ⟨fun beyond => ?_, fun fits few => ?_, fun fits many => ?_⟩
      · rw [if_pos beyond] at run
        exact run
      · rw [if_neg (Nat.not_lt.mpr fits), if_neg (Nat.not_lt.mpr (Int.ofNat_le.mp few))] at run
        exact run
      · rw [if_neg (Nat.not_lt.mpr fits), if_pos (Int.ofNat_lt.mp many)] at run
        exact run
  case events =>
    intro s id T die off x t r h b fr m sl next team ring room
    have off_ : r.off = off := off_of_ring ring
    refine ⟨fun found fills waits only => ?reserve, fun holds drains whole resident empty deaf => ?drain,
      fun only named found slices slice copy noRing noPoint => ?ack⟩
    case reserve =>
      refine ⟨_, t.setRing (r.reserving id fr), exec_ringSlotReserve team ring room found fills waits only, rfl, rfl, ?_,
        team_setRing team _, ?_⟩
      · exact xfer_updXfer (s := s.updTeam T _) found (f := fun x => { x with slot := some r.res }) fun _ => rfl
      · rw [← off_]
        exact ring_reserving t r id fr
    case drain =>
      obtain ⟨u, runs, mem, warps, held, team'⟩ := exec_multicastBufferDrain team ring room holds drains whole resident empty deaf
      refine ⟨u, _, runs, mem, warps, ?_, team', ?_, ?_⟩
      · rw [held, Die.drained, holds]
        simp [mapIf, drains, dropFirst]
      · rw [← off_, ring_draining, Ring.filling]
      · rw [← off_, ← whole]
        exact read_draining t r s.nextId h.bytes
    case ack =>
      subst named
      exact exec_messageAck only found slices slice copy noRing noPoint

end Sys2Proof.Machine

/-! PROOFS. Floating-point arithmetic and conversion (spec/06, spec/19): results of several sources element by element, the traps ABANDON
and FPEXC, rounding to a unit, and FCVT of an infinity into a wider format. -/

namespace Sys2Proof.Machine

/-- A source of an instruction with a type. -/
abbrev tySrc (t : Ty) (k : Nat) (o : Opnd) : Pos := Pos.src k o (o.srcTy t)

/-- Its destination. -/
abbrev tyDst (t : Ty) (d : Opnd) : Pos := Pos.dst d (d.dstTy t)

section
variable {i : Instr} {s : State} {c : Ctx} {g : Guard} {t : Ty} {f : Fmt}

/-! ### Arithmetic of several sources (R335, R336, R338) -/

/-- A floating instruction that tests its register sources for abandoned values. -/
theorem flt_computes {pd : Pos} {ps : List Pos} {len : Nat} {h : Word → Fmt → List Nat → Nat × Flags} {xs : Ctx → Nat → List Nat}
    (fmt : t.fmt = some f) (ready : s.Ready g (pd :: ps) c) (sound : Sound c (some pd) t (fun j => ps.map (c.int t j)))
    (runs : exec i s = s.alu len 0 g (pd :: ps) (some pd) (abOf t ps) (fun c j => fltResult t (h (c.th j).fctl) (xs c j)))
    (silent : Silent c (some pd) t (fun j => h (c.th j).fctl f) (xs c)) :
    FltComputes i s c len 0 pd t (fun j => h (c.th j).fctl f) (xs c) :=
  fltComputes_of ready List.mem_cons_self (fun j => h (c.th j).fctl) fmt (fun _ => rfl) (fun _ => rfl) silent
    (abandonTrap_abOf sound) runs

/-- A register and an immediate (R74). -/
theorem fltImm_computes {d a : Opnd} {imm : Word} {h : Word → Fmt → Nat → Nat → Nat × Flags} (fmt : t.fmt = some f)
    (ready : s.Ready g [tyDst t d, tySrc t 1 a] c)
    (sound : Sound c (some (tyDst t d)) t (fun j => [c.int t j (tySrc t 1 a), t.immediate imm]))
    (runs : exec i s = s.fltImm g t d a imm h)
    (silent : Silent c (some (tyDst t d)) t (fun j l => h (c.th j).fctl f (l.getD 0 0) (l.getD 1 0))
      (fun j => [c.int t j (tySrc t 1 a), t.immediate imm])) :
    FltComputes i s c 12 0 (tyDst t d) t (fun j l => h (c.th j).fctl f (l.getD 0 0) (l.getD 1 0))
      (fun j => [c.int t j (tySrc t 1 a), t.immediate imm]) :=
  fltComputes_of ready List.mem_cons_self (fun j fm l => h (c.th j).fctl fm (l.getD 0 0) (l.getD 1 0)) fmt (fun _ => rfl) (fun _ => rfl)
    silent (abandonTrap_immediate sound) runs

end

/-- Settles O8: each form is one list of sources and one function of their elements. -/
theorem floatArithmetic : Obligations.FloatArithmetic := by
  refine ⟨?registers, ?others⟩
  case registers =>
    intro s g t f m fl d a b x c pd pa pb xs op2 sel goes fmt ready sound
    have two {i : Instr} {n : Nat} (h : Word → Fmt → Nat → Nat → Nat × Flags) (runs : exec i s = s.flt2 n g t d a b x h) :
        goes i n (fun j l => h (c.th j).fctl f (l.getD 0 0) (l.getD 1 0)) :=
      flt_computes (h := fun fc fm l => h fc fm (l.getD 0 0) (l.getD 1 0))
        (xs := fun c j => [x.sw1.apply t (c.int t j pa), x.sw2.apply t (c.int t j pb)]) fmt ready sound runs
    refine ⟨two (fun fc f => f.add (m.rnd.mode fc) (m.flush.on fc)) rfl, two (fun fc f => f.sub (m.rnd.mode fc) (m.flush.on fc)) rfl,
      two (fun fc f => f.mul (m.rnd.mode fc) (m.flush.on fc)) rfl, two (fun fc f => f.select true (fl.on fc)) rfl,
      two (fun fc f => f.select false (fl.on fc)) rfl, fun plain => ?_⟩
    subst plain
    exact ⟨two (fun fc f => f.add (m.rnd.mode fc) (m.flush.on fc)) rfl, two (fun fc f => f.sub (m.rnd.mode fc) (m.flush.on fc)) rfl,
      two (fun fc f => f.mul (m.rnd.mode fc) (m.flush.on fc)) rfl, two (fun fc f => f.select true (fl.on fc)) rfl,
      two (fun fc f => f.select false (fl.on fc)) rfl⟩
  case others =>
    intro s g t f m d a b k imm x c pd pa pb pk y op2 fma xi x3 fmt
    refine ⟨fun plain ready sound => ?immediate, fun ready sound => ?fused⟩
    case immediate =>
      subst plain
      have constant : t.immediate imm = y := immediate_of_fmt fmt imm
      have one {i : Instr} (h : Word → Fmt → Nat → Nat → Nat × Flags) (runs : exec i s = s.fltImm g t d a imm h) :
          Silent c (some pd) t (fun j l => h (c.th j).fctl f (l.getD 0 0) (l.getD 1 0)) xi →
            FltComputes i s c 12 0 pd t (fun j l => h (c.th j).fctl f (l.getD 0 0) (l.getD 1 0)) xi := by
        intro silent
        have computes := fltImm_computes (i := i) (h := h) (imm := imm) fmt ready
        rw [constant] at computes
        exact computes sound runs silent
      exact ⟨one (fun fc f => f.add (m.rnd.mode fc) (m.flush.on fc)) rfl, one (fun fc f => f.mul (m.rnd.mode fc) (m.flush.on fc)) rfl⟩
    case fused =>
      exact flt_computes
        (h := fun fc fm l => fm.fma (m.rnd.mode fc) (m.flush.on fc) (l.getD 0 0) (l.getD 1 0) (l.getD 2 0))
        (xs := fun c j => [x.sw1.apply t (c.int t j pa), x.sw2.apply t (c.int t j pb), x.sw3.apply t (c.int t j pk)])
        fmt ready sound rfl

/-! ### ABANDON and FPEXC (R117, R156) -/

/-- The answer of a function at the first element that meets p, where it has none at the others. -/
theorem findSome_of_find {α β : Type} {p : α → Bool} {f : α → Option β} {l : List α} {a : α} {b : β} (found : l.find? p = some a)
    (answer : f a = some b) (others : ∀ x, p x = false → f x = none) : l.findSome? f = some b := by
  obtain ⟨-, before, after, split, passed⟩ := List.find?_eq_some_iff_append.mp found
  exact List.findSome?_eq_some_iff.mpr ⟨before, a, after, split, answer, fun x hx => others x (by simpa using passed x hx)⟩

/-- ABANDON names the lowest thread that reads an abandoned value, and its first such operand. -/
theorem abandonTrap_eq_some {run : List Nat} {l : List (Pos × (Nat → Nat))} {n : Nat} {p : Pos × (Nat → Nat)}
    (thread : run.find? (fun j => l.any (fun q => isAbandoned (q.2 j))) = some n) (operand : l.find? (fun q => isAbandoned (q.2 n)) = some p) :
    Ctx.abandonTrap run l = some (mkTrap cABANDON (opInfo n p.1.n)) := by
  refine findSome_of_find thread (by rw [operand]; rfl) fun j clear => ?_
  rw [List.find?_eq_none.mpr fun q hq => by simpa using List.any_eq_false.mp clear q hq]
  rfl

/-- FPEXC names the lowest thread that raises a flag it enables. -/
theorem fpTrap_eq_some {c : Ctx} {run : List Nat} {eff : Nat → Eff} {n : Nat}
    (thread : run.find? (fun j => (eff j).flags &&& enablesOf (c.th j).fctl != 0#5) = some n) :
    c.fpTrap run eff = some (mkTrap cFPEXC ((eff n).flags.toNat + n * 65536)) :=
  findSome_of_find thread (if_pos (List.find?_some thread)) fun _ clear => if_neg (ne_true_of_eq_false clear)

/-- An instruction that computes in registers takes its trap in the state before it. -/
theorem alu_traps {s : State} {g : Guard} {ps : List Pos} {c : Ctx} (ready : s.Ready g ps c) {len la : Nat} {d : Option Pos}
    {ab : Ctx → List (Pos × (Nat → Nat))} {eff : Ctx → Nat → Eff} {x : Trap}
    (fails : (Ctx.abandonTrap (c.runs d) (ab c) <|> c.fpTrap (c.runs d) (eff c)) = some x) :
    s.alu len la g ps d ab eff = .next (s.issued.deliver c.ref x) := by
  rw [State.alu, issue_ready ready, Ctx.compute, fails]
  rfl

/-- The flags of an .f32 result are its one element's. -/
theorem fltResult_f32_flags (h : Fmt → List Nat → Nat × Flags) {x y : Nat} (hx : x < 2 ^ 32) (hy : y < 2 ^ 32) :
    (fltResult .f32 h [x, y]).flags = (h .f32 [x, y]).2 := by
  have element (v : Nat) (hv : v < 2 ^ 32) : v / 2 ^ (Ty.ebits .f32 * 0) % 2 ^ Ty.ebits .f32 = v := by
    rw [Nat.mul_zero, pow_zero, Nat.div_one]
    exact Nat.mod_eq_of_lt hv
  change 0#5 ||| (h .f32 [x / 2 ^ (Ty.ebits .f32 * 0) % 2 ^ Ty.ebits .f32, y / 2 ^ (Ty.ebits .f32 * 0) % 2 ^ Ty.ebits .f32]).2 = _
  rw [element x hx, element y hy, BitVec.zero_or]

section
variable {i : Instr} {s : State} {c : Ctx} {g : Guard} {d a b : Opnd} {n : Nat} {h : Word → Fmt → Nat → Nat → Nat × Flags}

/-- A source of an .f32 instruction in a thread. -/
abbrev Ctx.f32Src (c : Ctx) (k : Nat) (o : Opnd) (j : Nat) : Nat := c.int .f32 j (tySrc .f32 k o)

theorem flt2_plain (s : State) (len : Nat) (g : Guard) (t : Ty) (d a b : Opnd) (h : Word → Fmt → Nat → Nat → Nat × Flags) :
    s.flt2 len g t d a b .plain h = s.alu len 0 g [tyDst t d, tySrc t 1 a, tySrc t 2 b]
      (some (tyDst t d)) (abOf t [tySrc t 1 a, tySrc t 2 b]) (fun c j =>
        fltResult t (fun fm l => h (c.th j).fctl fm (l.getD 0 0) (l.getD 1 0))
          [c.int t j (tySrc t 1 a), c.int t j (tySrc t 2 b)]) := rfl

theorem flt2_abandons (runs : exec i s = s.flt2 8 g .f32 d a b .plain h)
    (ready : s.Ready g [tyDst .f32 d, tySrc .f32 1 a, tySrc .f32 2 b] c)
    (thread : (c.runs (some (tyDst .f32 d))).find? (fun j => isAbandoned (c.f32Src 1 a j) || isAbandoned (c.f32Src 2 b j)) = some n) :
    exec i s = .next (s.issued.deliver c.ref
      ⟨0x0C#8, BitVec.ofNat 64 (n % 32 + 256 * (if isAbandoned (c.f32Src 1 a n) then 1 else 2)), 0⟩) := by
  have takes {p : Pos × (Nat → Nat)} {k : Nat} (pos : p.1.n = k) (operand : (abOf .f32 [tySrc .f32 1 a, tySrc .f32 2 b] c).find?
      (fun q => isAbandoned (q.2 n)) = some p) : exec i s = .next (s.issued.deliver c.ref ⟨0x0C#8, BitVec.ofNat 64 (n % 32 + 256 * k), 0⟩) := by
    rw [runs, flt2_plain, alu_traps ready (by rw [abandonTrap_eq_some (by simpa [abOf] using thread) operand]; rfl), pos, opInfo,
      Nat.mul_comm k]
    rfl
  by_cases first : isAbandoned (c.f32Src 1 a n) = true
  · rw [if_pos first]
    exact takes (p := (tySrc .f32 1 a, c.f32Src 1 a)) rfl (by simp [abOf, first])
  · have second : isAbandoned (c.f32Src 2 b n) = true := by simpa [first] using List.find?_some thread
    rw [if_neg first]
    exact takes (p := (tySrc .f32 2 b, c.f32Src 2 b)) rfl (by simp [abOf, first, second])

theorem flt2_raises (runs : exec i s = s.flt2 8 g .f32 d a b .plain h)
    (ready : s.Ready g [tyDst .f32 d, tySrc .f32 1 a, tySrc .f32 2 b] c)
    (clear : (c.runs (some (tyDst .f32 d))).find? (fun j => isAbandoned (c.f32Src 1 a j) || isAbandoned (c.f32Src 2 b j)) = none)
    (thread : (c.runs (some (tyDst .f32 d))).find? (fun j =>
      (h (c.th j).fctl .f32 (c.f32Src 1 a j) (c.f32Src 2 b j)).2 &&& enablesOf (c.th j).fctl != 0#5) = some n) :
    exec i s = .next (s.issued.deliver c.ref
      ⟨0x11#8, BitVec.ofNat 64 ((h (c.th n).fctl .f32 (c.f32Src 1 a n) (c.f32Src 2 b n)).2.toNat + 65536 * n), 0⟩) := by
  have sound : Sound c (some (tyDst .f32 d)) .f32
      (fun j => [tySrc .f32 1 a, tySrc .f32 2 b].map (c.int .f32 j)) := by
    intro _ j hj
    simpa using List.find?_eq_none.mp clear j hj
  have flags (j : Nat) : (fltResult .f32 (fun fm l => h (c.th j).fctl fm (l.getD 0 0) (l.getD 1 0)) [c.f32Src 1 a j, c.f32Src 2 b j]).flags
      = (h (c.th j).fctl .f32 (c.f32Src 1 a j) (c.f32Src 2 b j)).2 := fltResult_f32_flags _ (fit_lt ..) (fit_lt ..)
  have raised := fpTrap_eq_some (c := c) (eff := fun j =>
    fltResult .f32 (fun fm l => h (c.th j).fctl fm (l.getD 0 0) (l.getD 1 0)) [c.f32Src 1 a j, c.f32Src 2 b j]) (by simpa only [flags] using thread)
  rw [flags, Nat.mul_comm n] at raised
  rw [runs, flt2_plain, alu_traps ready (by rw [abandonTrap_abOf sound]; exact raised)]
  rfl

end

/-! ### Rounding to a unit (R115) -/

/-- A whole part m with a rest r below v, rounded. -/
def rounded (mode : RMode) (neg : Bool) (m r v : Nat) : Nat := if roundUp mode neg m r v then m + 1 else m

/-- The magnitude over a common scale: its whole part and its rest decide. -/
theorem roundAt_eq (mode : RMode) (neg : Bool) (q : Int) (n d : Nat) : roundAt mode neg q n d =
    (rounded mode neg (n * 2 ^ (-q).toNat / (d * 2 ^ q.toNat)) (n * 2 ^ (-q).toNat % (d * 2 ^ q.toNat)) (d * 2 ^ q.toNat),
      n * 2 ^ (-q).toNat % (d * 2 ^ q.toNat) != 0) := by
  rw [roundAt, rounded]
  by_cases whole : 0 ≤ q
  · rw [if_pos whole, if_pos whole, Int.toNat_eq_zero.mpr (by omega : -q ≤ 0), pow_zero, Nat.mul_one]
  · rw [if_neg whole, if_neg whole, Int.toNat_eq_zero.mpr (by omega : q ≤ 0), pow_zero, Nat.mul_one]

section
variable {mode : RMode} {neg : Bool} {m r v : Nat}

theorem rounded_whole (whole : r = 0) (pos : 0 < v) (mode : RMode) (neg : Bool) (m : Nat) : rounded mode neg m r v = m := by
  refine if_neg ?_
  subst whole
  cases mode <;> simp [roundUp, pos.ne]

theorem rounded_floor (down : mode = .rz ∨ (mode = .ru ∧ neg = true) ∨ (mode = .rd ∧ neg = false)) : rounded mode neg m r v = m := by
  rcases down with rfl | ⟨rfl, rfl⟩ | ⟨rfl, rfl⟩ <;> rfl

theorem rounded_ceil (up : (mode = .ru ∧ neg = false) ∨ (mode = .rd ∧ neg = true)) (part : r ≠ 0) : rounded mode neg m r v = m + 1 := by
  rcases up with ⟨rfl, rfl⟩ | ⟨rfl, rfl⟩ <;> exact if_pos (by simpa [roundUp] using part)

theorem rounded_nearest : rounded .rn neg m r v = if v < 2 * r ∨ (2 * r = v ∧ m % 2 = 1) then m + 1 else m := by
  simp [rounded, roundUp]

end

/-- Settles O13: the traps by the lowest thread and operand, a rounded magnitude by its whole part and rest. -/
theorem floatTrapsAndRounding : Obligations.FloatTrapsAndRounding := by
  refine ⟨?traps, ?rounding⟩
  case traps =>
    intro s g m d a b c n pd pa pb bad flags enabled traps ready
    refine ⟨fun thread => ?abandoned, fun clear => ?raised⟩
    case abandoned =>
      have one {i : Instr} (h : Word → Fmt → Nat → Nat → Nat × Flags) (runs : exec i s = s.flt2 8 g .f32 d a b .plain h) :=
        flt2_abandons runs ready thread
      exact ⟨one (fun fc f => f.add (m.rnd.mode fc) (m.flush.on fc)) rfl, one (fun fc f => f.sub (m.rnd.mode fc) (m.flush.on fc)) rfl,
        one (fun fc f => f.mul (m.rnd.mode fc) (m.flush.on fc)) rfl⟩
    case raised =>
      have one {i : Instr} (h : Word → Fmt → Nat → Nat → Nat × Flags) (runs : exec i s = s.flt2 8 g .f32 d a b .plain h) :=
        flt2_raises (n := n) runs ready clear
      exact ⟨one (fun fc f => f.add (m.rnd.mode fc) (m.flush.on fc)) rfl, one (fun fc f => f.sub (m.rnd.mode fc) (m.flush.on fc)) rfl,
        one (fun fc f => f.mul (m.rnd.mode fc) (m.flush.on fc)) rfl⟩
  case rounding =>
    intro mode neg q n d u v r pos
    have vpos : 0 < v := Nat.mul_pos pos (Nat.two_pow_pos _)
    have fst : r.1 = rounded mode neg (u / v) (u % v) v := congrArg Prod.fst (roundAt_eq mode neg q n d)
    have snd : r.2 = (u % v != 0) := congrArg Prod.snd (roundAt_eq mode neg q n d)
    have parts : u / v * v + u % v = u := by rw [Nat.mul_comm]; exact Nat.div_add_mod u v
    have rest : u % v < v := Nat.mod_lt _ vpos
    have next : (u / v + 1) * v = u / v * v + v := Nat.succ_mul _ _
    have whole : v ∣ u ↔ u % v = 0 := Nat.dvd_iff_mod_eq_zero
    rw [fst, snd, whole]
    refine ⟨by simp, fun exact_ => ?whole, fun down => ?floor, fun up => ?ceil, fun near => ?nearest⟩
    case whole =>
      rw [rounded_whole exact_ vpos]
      omega
    case floor =>
      rw [rounded_floor down, next]
      omega
    case ceil =>
      by_cases exact_ : u % v = 0
      · rw [rounded_whole exact_ vpos]
        omega
      · rw [rounded_ceil up exact_, next]
        omega
    case nearest =>
      subst near
      rw [rounded_nearest]
      split
      · rw [next]
        omega
      · omega

/-! ### FCVT of an infinity into a wider format (R118) -/

/-- A warp with the BF16 infinity in uniform register 1 and one leaf. -/
def wideningWarp : Warp := { emptyWarp with
  uni := 0x7F8000000000#4096
  entries := [twinLeaf 0#32] }

/-- The leaf of that warp issues. -/
def wideningState : State := { State.reset with
  issuer := some ⟨0, 0, 0⟩
  teams := [(0, bareTeam)]
  warps := [(warpKey 0 0, wideningWarp)] }

/-- What the leaf issues with. -/
def wideningCtx : Ctx := ⟨⟨0, 0, 0⟩, bareTeam, wideningWarp, twinLeaf 0#32, Launch.none, [0], 0⟩

/-- FCVT.f32.bf16.sat of uniform register 1 into uniform register 0. -/
def wideningFcvt : Instr := .fcvt Guard.always .f32 .bf16 .zero true (.uni 0#7) (.uni 1#7)

theorem wideningState_ready : wideningState.Ready Guard.always
    [Pos.dst (.uni 0#7) ((Opnd.uni 0#7).dstTy .f32), Pos.src 1 (.uni 1#7) (cvtSrc .bf16 (.uni 1#7))] wideningCtx := ⟨rfl, by decide⟩

/-- Uniform register 0 of warp 0 of team 0. -/
def State.firstUni (s : State) : Option Nat := (s.warp? 0 0).map (fun w => w.uniReg 0)

/-- The widening is exact: the infinity stays one. -/
theorem wideningState_fcvt : ∃ u, exec wideningFcvt wideningState = .next u ∧ u.firstUni = some 0x7F800000 :=
  ⟨_, rfl, by decide +kernel⟩

/-- The end of an instruction changes no uniform register. -/
theorem uniReg_finish {w : Warp} {id : Nat} {e : Entry} (entry : w.entry? id = some e) (len k : Nat) :
    (w.finish id len).uniReg k = w.uniReg k := by
  rw [finish_eq entry]
  rfl

/-- Refutes O10: it gives `.sat` to every conversion between floating formats, where R118 has it for a narrowing. In `wideningState`
FCVT.f32.bf16.sat converts an infinity: the widening is exact and gives FP32's infinity, and the statement asks for the greatest finite
number. -/
theorem not_conversions : ¬ Obligations.Conversions := by
  intro h
  obtain ⟨-, fcvt⟩ := h wideningState Guard.always .f32 .bf16 .zero true (.uni 0#7) (.uni 1#7) .plain wideningCtx
  obtain ⟨-, computes⟩ := fcvt wideningState_ready nofun (by decide +kernel)
  obtain ⟨w, after, goes⟩ := computes rfl
  have saturated : w.uniReg 0 = 0x7F7FFFFF := (after.uni _ 0#7 0 0x7F7FFFFF rfl rfl rfl (by decide +kernel)).1
  obtain ⟨u, run, infinite⟩ := wideningState_fcvt
  obtain rfl := Host.Outcome.next.inj (run.symm.trans goes)
  have entries : w.entries = wideningWarp.entries := (congrArg Warp.entries after.other).trans rfl
  have entry : w.entry? 0 = some (twinLeaf 0#32) := by rw [Warp.entry?, entries]; rfl
  have kept : some (w.uniReg 0) = some 0x7F800000 := by
    rw [← uniReg_finish entry 8 0]
    exact infinite
  rw [saturated] at kept
  exact absurd kept (by decide)

end Sys2Proof.Machine

/-! PROOFS. Matrix instructions at their issue (spec/07, spec/08): the token, an `Instance` formed or joined, what each form checks and does. -/

namespace Sys2Proof.Machine

/-! ### The token (R135, R144) -/

theorem tokenAllows_iff {s : State} {c : Ctx} :
    tokenAllows (s.core c.team.die c.team.core).token c.ref.team c.warp.role = true ↔ s.Tokened c := by
  unfold tokenAllows State.Tokened
  cases (s.core c.team.die c.team.core).token with
  | none => simp
  | some x =>
    obtain ⟨team, role⟩ := x
    cases role <;> simp

section
variable {s : State} {g : Guard} {ps : List Pos} {c : Ctx}

/-- A collective runs its body whether or not its guard holds anywhere (R129). -/
theorem issueWith_collects (collects : s.Collects g ps c) (len : Nat) (body : Ctx → State → Done) :
    s.issueWith true len g ps body = .next ((body c s.issued).state s.issued c.ref len) := by
  obtain ⟨ctx, idle | ready⟩ := collects
  · have free : c.waits ps = false := by simp [Ctx.waits, idle]
    have passed : c.regTrap ps = none := by simp [Ctx.regTrap, Ctx.first, idle]
    have strict : c.strictTrap ps = none := by simp [Ctx.strictTrap, idle]
    simp [State.issueWith, ctx, free, idle, passed, strict, issued_mark ctx]
  · exact issueWith_ready ⟨ctx, ready⟩ true len body

theorem matrix_ready (ready : s.Ready g ps c) (token : s.Tokened c) (always : Bool) (len : Nat) (body : Ctx → State → Done) :
    s.matrix always len g ps body = .next ((body c s.issued).state s.issued c.ref len) := by
  rw [State.matrix, issueWith_ready ready, State.issued_coreAt, tokenAllows_iff.mpr token]
  rfl

theorem matrix_collects (collects : s.Collects g ps c) (token : s.Tokened c) (len : Nat) (body : Ctx → State → Done) :
    s.matrix true len g ps body = .next ((body c s.issued).state s.issued c.ref len) := by
  rw [State.matrix, issueWith_collects collects, State.issued_coreAt, tokenAllows_iff.mpr token]
  rfl

/-- Without the token a matrix instruction takes TOKEN, after its register checks. -/
theorem matrix_untokened (ready : s.Ready g ps c) (token : ¬ s.Tokened c) (always : Bool) (len : Nat) (body : Ctx → State → Done) :
    s.matrix always len g ps body = .next (s.issued.deliver c.ref ⟨0x19#8, 0#64, 0⟩) := by
  rw [State.matrix, issueWith_ready ready, State.issued_coreAt, Bool.eq_false_iff.mpr (mt tokenAllows_iff.mp token)]
  rfl

end

/-! ### Instances formed and joined (R129) -/

section
variable (s : State) (c : Ctx) (tile : Nat) (ver : BitVec 16) (op : MatOp) (np : Nat) (point : Option Nat) (one : Bool) (p : Participant)

/-- An update of the start queue leaves the instances as they were. -/
theorem insts_refreshStart (d k : Nat) : ((s.refreshStart d k).core d k).insts = (s.core d k).insts := by
  rw [State.refreshStart, State.core_updCore, if_pos rfl]

/-- An issue touches its core, and where it forms an `Instance` the machine's next name. -/
theorem joinInstance_frame (u : State) (h : u = (s.joinInstance c tile ver op np point one p).2) :
    u.mem = s.mem ∧ u.teams = s.teams ∧ u.warps = s.warps ∧ u.completions = s.completions := by
  subst h
  unfold State.joinInstance
  dsimp only
  split <;> exact ⟨rfl, rfl, rfl, rfl⟩

theorem joinInstance_forms (new : (if one then none else s.gathering c tile ver) = none) :
    (s.joinInstance c tile ver op np point one p).1 = s.nextId
      ∧ ((s.joinInstance c tile ver op np point one p).2.core c.team.die c.team.core).insts
        = (s.core c.team.die c.team.core).insts ++ [⟨s.nextId, c.ref.team, tile, ver, op, np, [p], c.entry.pc, point, none⟩] := by
  simp only [State.joinInstance, new]
  refine ⟨rfl, ?_⟩
  rw [insts_refreshStart, State.core_updCore, if_pos rfl]
  rfl

theorem joinInstance_joins {x : Instance} (gathers : s.gathering c tile ver = some x) :
    (s.joinInstance c tile ver op np point false p).1 = x.id
      ∧ ((s.joinInstance c tile ver op np point false p).2.core c.team.die c.team.core).insts
        = (s.core c.team.die c.team.core).insts.map (fun y => if y.id == x.id then { y with parts := y.parts ++ [p] } else y) := by
  simp only [State.joinInstance, Bool.false_eq_true, if_false, gathers]
  refine ⟨trivial, ?_⟩
  rw [insts_refreshStart, State.core_updCore, if_pos rfl]
  rfl

theorem gathering_eq_none (none_ : s.gathersNone c tile ver) : s.gathering c tile ver = none := by
  refine List.find?_eq_none.mpr fun i hi test => ?_
  simp only [Bool.and_eq_true, beq_iff_eq, Option.isNone_iff_eq_none, Bool.not_eq_true', and_assoc] at test
  obtain ⟨team, tile, ver, collective, waits, room⟩ := test
  exact absurd (none_ i hi team tile ver collective waits) (by rw [room]; decide)

theorem misfit_eq_false_iff : s.misfit c tile ver op = false ↔ s.fitsIn c tile ver op := by
  simp only [State.misfit, State.fitsIn, List.any_eq_false, Bool.and_eq_true, Bool.or_eq_true, beq_iff_eq, bne_iff_ne, ne_eq, List.any_eq_true,
    not_and, not_or, not_exists, Decidable.not_not, and_imp]

end

section
variable {i : Instr} {s : State} {c : Ctx} {len tile : Nat} {ver : BitVec 16} {op : MatOp} {np : Nat} {point : Option Nat} {one : Bool}
  {p : Participant}

/-- The issue that ends with an `Instance` of its own forms it. -/
theorem forms_of_runs (runs : exec i s = .next ((s.issued.joinInstance c tile ver op np point one p).2.complete c.ref len))
    (new : one = true ∨ s.gathersNone c tile ver) : Forms i s c len tile ver op np point p := by
  have alone : (if one then none else s.issued.gathering c tile ver) = none := by
    rcases new with rfl | none_
    · rfl
    · rw [gathering_eq_none s.issued c tile ver none_, ite_self]
  obtain ⟨mem, teams, warps, -⟩ := joinInstance_frame s.issued c tile ver op np point one p _ rfl
  exact ⟨_, runs, mem, teams, warps, (joinInstance_forms s.issued c tile ver op np point one p alone).2⟩

theorem joins_of_runs {x : Instance} (runs : exec i s = .next ((s.issued.joinInstance c tile ver op np point false p).2.complete c.ref len))
    (gathers : s.gathers c tile ver x) : Joins i s c len x p := by
  obtain ⟨mem, teams, warps, -⟩ := joinInstance_frame s.issued c tile ver op np point false p _ rfl
  exact ⟨_, runs, mem, teams, warps, (joinInstance_joins s.issued c tile ver op np point p gathers).2⟩

end


theorem bitsOf_low (v : Nat) : bitsOf v 15 0 = v % 2 ^ 16 := by rw [bitsOf, pow_zero, Nat.div_one]

theorem bitsOf_high (v : Nat) : bitsOf v 31 16 = v / 2 ^ 16 % 2 ^ 16 := rfl

/-! ### MMA and MSPA (R130, R131, R134, R139) -/

/-- A in local store, and in registers, of a multiply. -/
def localA (a : Opnd) : Pos := Pos.src 1 a (match a with | .uni _ => true | _ => false)

def unitA (t : Ty) (half : Bool) (a : Opnd) : Pos :=
  (Pos.src 1 a (match a with | .reg w _ => w.bits == t.unitBits | _ => false)).inHalf half

def metaPos (t : Ty) (half : Bool) (p : SparsePat × Opnd) : Pos := (Pos.src 0 p.2 (p.2.bits == p.1.metaBits t)).inHalf half

/-- kS, and its value. -/
def scalePos (ks : Option (BitVec 7)) : Option Pos := ks.map (fun k => Pos.src 2 (.uni k) true)

def Ctx.scaleVal (c : Ctx) (ks : Option (BitVec 7)) : Nat := match scalePos ks with | some p => c.u32 c.low p | none => 0

/-- The ranges of a multiply. -/
def multiplyUse (t : Ty) (u : MmaUp) (pat : Option SparsePat) (rows : List Nat) (a0 ksv : Nat) : MatUse :=
  ⟨t, u.scl, denseK t u.half pat, rowBytes t u.half pat, rows, a0, u.astr.toNat * 16, 0, u.boff.toNat * 32, 0, 1, bitsOf ksv 15 0,
    bitsOf ksv 31 16⟩

/-- What a multiply with A at a0 of the local store does with the token and a tile: R135's checks, then an `Instance` of one issue. -/
def State.localMultiply (s : State) (c : Ctx) (x : Tile) (t : Ty) (u : MmaUp) (pat : Option SparsePat) (a0 ksv : Nat) : Done :=
  let use := multiplyUse t u pat (bandRows u.bm) a0 ksv
  if u.bm = 0#8 || !use.bOk c.team.bsize then illField
  else if a0 % 16 != 0 then c.illAt 1
  else if !use.sOk c.team.sents then c.illAt 2
  else if !use.aOk c.team.lstore then .trap (mkTrap cLSBOUND 0)
  else if !use.tagsOk c.team x then .trap (mkTrap cFMTTAG 0)
  else .next (s.joinInstance c u.tile.toNat u.ver (.mma t u pat a0 (BitVec.ofNat 32 ksv)) (u.npm.toNat + 1) none true c.part).2

/-- The threads' values of a position, for the threads that supply. -/
def Ctx.supplied (c : Ctx) (half : Bool) (p : Pos) : List Nat :=
  (List.range (suppliers half)).map (fun j => if (c.on.filter (· < suppliers half)).contains j then c.raw j p else 0)

/-- The part of a warp that supplies units of A and metadata. -/
def Ctx.unitPart (c : Ctx) (t : Ty) (half : Bool) (pat : Option (SparsePat × Opnd)) (a : Opnd) : Participant :=
  { c.part with
    units := c.supplied half (unitA t half a)
    metas := match pat.map (metaPos t half) with | some p => c.supplied half p | none => [] }

/-- What a multiply with A in registers does. -/
def State.unitMultiply (s : State) (c : Ctx) (x : Tile) (t : Ty) (u : MmaUp) (pat : Option (SparsePat × Opnd)) (a : Opnd) (ksv : Nat) : Done :=
  let use := multiplyUse t u (pat.map Prod.fst) [c.warp.lane] 0 ksv
  let op := MatOp.mma t u (pat.map Prod.fst) 0 (BitVec.ofNat 32 ksv)
  if u.bm = 0#8 || !use.bOk c.team.bsize then illField
  else if c.entry.mask != c.warp.liveMask || c.warp.count < suppliers u.half || !u.bm.getLsbD (c.warp.lane / 8) then illField
  else if !use.sOk c.team.sents then c.illAt 2
  else
    match pat.bind (fun p => badMeta t p.1 ((c.on.filter (· < suppliers u.half)).map (fun i => (i, c.raw i (metaPos t u.half p))))) with
    | some i => .trap (mkTrap cILLOPND (opInfo i 0))
    | none =>
      if s.misfit c u.tile.toNat u.ver op then illField
      else if !use.tagsOk c.team x then .trap (mkTrap cFMTTAG 0)
      else if decide (2 ≤ s.stagedOn c.team.die c.team.core c.warp.lane) then .hold .busy
      else .next (s.joinInstance c u.tile.toNat u.ver op (u.npm.toNat + 1) none false (c.unitPart t u.half pat a)).2

section
variable {s : State} {g : Guard} {t : Ty} {pat : Option (SparsePat × Opnd)} {a : Opnd} {ks : Option (BitVec 7)} {u : MmaUp} {c : Ctx} {x : Tile}

theorem multiply_local (inStore : u.asrc = true) (ready : s.Ready g (localA a :: (scalePos ks).toList) c) (token : s.Tokened c)
    (tile : s.tileAt c u.tile.toNat = some x) : s.multiply g t pat a ks u
      = .next ((s.issued.localMultiply c x t u (pat.map Prod.fst) (c.u32 c.low (localA a)) (c.scaleVal ks)).state s.issued c.ref 16) := by
  have tile' : s.issued.tileAt c u.tile.toNat = some x := tile
  obtain ⟨⟩ := u
  cases inStore
  cases a <;>
  · refine (matrix_ready ready token _ _ _).trans ?_
    simp only
    rw [tile']
    cases pat <;> rfl

theorem multiply_units (inRegs : u.asrc = false)
    (collects : s.Collects g ((pat.map (metaPos t u.half)).toList ++ [unitA t u.half a] ++ (scalePos ks).toList) c) (token : s.Tokened c)
    (tile : s.tileAt c u.tile.toNat = some x) : s.multiply g t pat a ks u
      = .next ((s.issued.unitMultiply c x t u pat a (c.scaleVal ks)).state s.issued c.ref 16) := by
  have tile' : s.issued.tileAt c u.tile.toNat = some x := tile
  obtain ⟨⟩ := u
  cases inRegs
  cases a <;>
  · refine (matrix_collects collects token _ _).trans ?_
    simp only
    rw [tile']
    cases pat <;> rfl

end

/-! ### Clauses of an issue -/

section
variable {i : Instr} {s : State} {c : Ctx} {len : Nat} {x : Done}

/-- An instruction whose body traps takes the trap in the state before it. -/
theorem traps_of_runs {code info : Nat} (runs : exec i s = .next (x.state s.issued c.ref len)) (trap : x = .trap (mkTrap code info)) :
    Traps i s c (BitVec.ofNat 8 code) info := by
  subst trap
  exact runs

theorem holds_of_runs {w : Wait} (runs : exec i s = .next (x.state s.issued c.ref len)) (hold : x = .hold w) : Holds i s w := by
  subst hold
  exact runs

theorem goes_of_runs {u : State} (runs : exec i s = .next (x.state s.issued c.ref len)) (next : x = .next u) : Goes i s c len u := by
  subst next
  exact runs

end

/-! ### MLOOP, MZRO and VDSET (R134, R140, R141, R151) -/

/-- The ranges of a loop of n steps. -/
def loopUse (t : Ty) (u : MloopUp) (n ainc a0 ksv : Nat) : MatUse :=
  ⟨t, u.scl, denseK t u.half none, rowBytes t u.half none, bandRows u.bm, a0, u.astr.toNat * 16, ainc * 16, u.boff.toNat * 32,
    u.binc.toNat * 64, n, bitsOf ksv 15 0, bitsOf ksv 31 16⟩

section
variable {s : State} {g : Guard} {t : Ty} {a n : Opnd} {ks : Option (BitVec 7)} {c : Ctx} {x : Tile} {la : BitVec 4}

/-- What MLOOP does on a tile x. -/
def State.loopIssue (s : State) (c : Ctx) (x : Tile) (t : Ty) (u : MloopUp) (w a0 ksv : Nat) : Done :=
  let use := loopUse t u (bitsOf w 15 0) (bitsOf w 31 16) a0 ksv
  if use.n = 0 then c.illAt 0
  else if u.bm = 0#8 || !use.bOk c.team.bsize then illField
  else if a0 % 16 != 0 then c.illAt 1
  else if !use.sOk c.team.sents then c.illAt 2
  else if !use.aOk c.team.lstore then .trap (mkTrap cLSBOUND 0)
  else if !use.tagsOk c.team x then .trap (mkTrap cFMTTAG 0)
  else .next (s.joinInstance c u.tile.toNat u.ver (.mloop t u use.n (bitsOf w 31 16) a0 (BitVec.ofNat 32 ksv)) 1 none true c.part).2

theorem mloop_runs {u : MloopUp} (ready : s.Ready g ([Pos.src 0 n true, Pos.src 1 a true] ++ (scalePos ks).toList) c) (token : s.Tokened c)
    (tile : s.tileAt c u.tile.toNat = some x) : exec (.mloop g la t n a ks u) s
      = .next ((s.issued.loopIssue c x t u (c.u32 c.low (Pos.src 0 n true)) (c.u32 c.low (Pos.src 1 a true)) (c.scaleVal ks)).state
        s.issued c.ref 16) := by
  have tile' : s.issued.tileAt c u.tile.toNat = some x := tile
  change execMloop g la t n a ks u s = _
  refine (matrix_ready ready token _ _ _).trans ?_
  simp only
  rw [tile']
  rfl

theorem mzro_runs {tile ver : Opnd} (ready : s.Ready g [Pos.src 1 tile tile.isUniImm, Pos.src 2 ver ver.isUniImm] c) (token : s.Tokened c)
    (there : c.u32 c.low (Pos.src 1 tile tile.isUniImm) < c.team.tiles.length) (positive : ∀ z, ver = .imm z → 0 ≤ z.toInt) :
    exec (.mzro g la t tile ver) s = .next ((s.issued.joinInstance c (c.u32 c.low (Pos.src 1 tile tile.isUniImm))
      (BitVec.ofNat 16 (c.u32 c.low (Pos.src 2 ver ver.isUniImm))) (.mzro t) 1 none true c.part).2.complete c.ref 8) := by
  change execMzro g la t tile ver s = _
  refine (matrix_ready ready token _ _ _).trans ?_
  have listed : ¬ c.team.tiles.length ≤ c.u32 c.low (Pos.src 1 tile tile.isUniImm) := by omega
  simp only [if_neg listed]
  cases ver with
  | imm z =>
    simp only [not_lt.mpr (positive z rfl), decide_false]
    rfl
  | reg | uni => rfl

/-- What VDSET does on a tile x with a threshold and its bounds' offset. -/
def State.vdsetIssue (s : State) (c : Ctx) (x : Tile) (op : VerdictOp) (thr : Word) (bo : Nat) (u : VdsetUp) : Done :=
  if (f32Val thr).isNan then c.illAt 1
  else if 64 ≤ u.km.toNat then illField
  else if bo % 4 != 0 then c.illAt 2
  else if c.team.lstore < bo + 256 * (u.nbm.toNat + 1) || (op == .topk && c.team.lstore < u.ks.toNat * 16 + 512 * 63 + 8 * (u.km.toNat + 1)) then
    .trap (mkTrap cLSBOUND 0)
  else if x.tag != 0xA#4 then .trap (mkTrap cFMTTAG 0)
  else .next (s.joinInstance c u.tile.toNat u.ver (.vdset op thr bo u) 1 none true c.part).2

/-- VDSET's threshold operand, and its value. -/
def thresholdPos (thr : Option Opnd) : Option Pos := thr.map (fun o => Pos.src 1 o o.reg32)

def Ctx.threshold (c : Ctx) (thr : Option Opnd) : Word :=
  match thresholdPos thr with | some p => BitVec.ofNat 32 (c.u32 c.low p) | none => 0#32

theorem vdset_runs {op : VerdictOp} {thr : Option Opnd} {kb : Opnd} {u : VdsetUp}
    (ready : s.Ready g ((thresholdPos thr).toList ++ [Pos.src 2 kb true]) c) (token : s.Tokened c)
    (tile : s.tileAt c u.tile.toNat = some x) : exec (.vdset g la op thr kb u) s
      = .next ((s.issued.vdsetIssue c x op (c.threshold thr) (c.u32 c.low (Pos.src 2 kb true)) u).state s.issued c.ref 16) := by
  have tile' : s.issued.tileAt c u.tile.toNat = some x := tile
  change execVdset g la op thr kb u s = _
  refine (matrix_ready ready token _ _ _).trans ?_
  simp only
  rw [tile']
  rfl

end

theorem vdsetIssue_legal {s : State} {c : Ctx} {x : Tile} {op : VerdictOp} {thr : Word} {bo : Nat} {u : VdsetUp}
    (number : (f32Val thr).isNan = false) (size : u.km.toNat < 64) (aligned : bo % 4 = 0)
    (bounds : bo + 256 * (u.nbm.toNat + 1) ≤ c.team.lstore)
    (sets : op = .topk → u.ks.toNat * 16 + 512 * 63 + 8 * (u.km.toNat + 1) ≤ c.team.lstore) : s.vdsetIssue c x op thr bo u
      = if x.tag != 0xA#4 then .trap (mkTrap cFMTTAG 0)
        else .next (s.joinInstance c u.tile.toNat u.ver (.vdset op thr bo u) 1 none true c.part).2 := by
  have inside : ¬ (c.team.lstore < bo + 256 * (u.nbm.toNat + 1)
      || (op == .topk && c.team.lstore < u.ks.toNat * 16 + 512 * 63 + 8 * (u.km.toNat + 1))) = true := by
    simp only [Bool.or_eq_true, Bool.and_eq_true, decide_eq_true_eq, beq_iff_eq, not_or, not_and, not_lt]
    exact ⟨bounds, sets⟩
  rw [State.vdsetIssue, number, if_neg Bool.false_ne_true, if_neg (by omega), if_neg (by simp [aligned]), if_neg inside]

/-- A multiply with A in local store whose fields are legal ends with the range of A and the tags (R135). -/
theorem localMultiply_legal {s : State} {c : Ctx} {x : Tile} {t : Ty} {u : MmaUp} {pat : Option SparsePat} {a0 ksv : Nat} {use : MatUse}
    (same : multiplyUse t u pat (bandRows u.bm) a0 ksv = use) (band : u.bm ≠ 0#8) (bOk : use.bOk c.team.bsize = true) (aligned : a0 % 16 = 0)
    (sOk : use.sOk c.team.sents = true) : s.localMultiply c x t u pat a0 ksv
      = if !use.aOk c.team.lstore then .trap (mkTrap cLSBOUND 0)
        else if !use.tagsOk c.team x then .trap (mkTrap cFMTTAG 0)
        else .next (s.joinInstance c u.tile.toNat u.ver (.mma t u pat a0 (BitVec.ofNat 32 ksv)) (u.npm.toNat + 1) none true c.part).2 := by
  simp [State.localMultiply, same, band, bOk, aligned, sOk]

/-- A multiply with A in registers whose fields and operands are legal ends with its `Instance`, the tags and the lane's buffer (R129, R130,
R135). -/
theorem unitMultiply_legal {s : State} {c : Ctx} {x : Tile} {t : Ty} {u : MmaUp} {pat : Option (SparsePat × Opnd)} {a : Opnd} {ksv : Nat}
    {use : MatUse} (same : multiplyUse t u (pat.map Prod.fst) [c.warp.lane] 0 ksv = use) (bOk : use.bOk c.team.bsize = true)
    (whole : c.entry.mask = c.warp.liveMask) (count : suppliers u.half ≤ c.warp.count) (band : u.bm.getLsbD (c.warp.lane / 8) = true)
    (sOk : use.sOk c.team.sents = true)
    (metaOk : ∀ q o, pat = some (q, o) →
      badMeta t q ((c.on.filter (· < suppliers u.half)).map (fun j => (j, c.raw j (metaPos t u.half (q, o))))) = none) :
    s.unitMultiply c x t u pat a ksv
      = if s.misfit c u.tile.toNat u.ver (.mma t u (pat.map Prod.fst) 0 (BitVec.ofNat 32 ksv)) then illField
        else if !use.tagsOk c.team x then .trap (mkTrap cFMTTAG 0)
        else if decide (2 ≤ s.stagedOn c.team.die c.team.core c.warp.lane) then .hold .busy
        else .next (s.joinInstance c u.tile.toNat u.ver (.mma t u (pat.map Prod.fst) 0 (BitVec.ofNat 32 ksv)) (u.npm.toNat + 1) none false
          (c.unitPart t u.half pat a)).2 := by
  have some_band : u.bm ≠ 0#8 := by
    rintro zero
    simp [zero] at band
  have sound : pat.bind (fun p => badMeta t p.1
      ((c.on.filter (· < suppliers u.half)).map (fun j => (j, c.raw j (metaPos t u.half p))))) = none := by
    cases pat with
    | none => rfl
    | some p => exact metaOk p.1 p.2 rfl
  rw [State.unitMultiply]
  simp only [same, some_band, bOk, whole, not_lt.mpr count, band, sOk, sound, bne_self_eq_false, decide_false, Bool.not_true, Bool.or_self,
    Bool.false_eq_true, if_false]

/-- A loop of some steps whose fields are legal forms its `Instance`. -/
theorem loopIssue_legal {s : State} {c : Ctx} {x : Tile} {t : Ty} {u : MloopUp} {w a0 ksv : Nat} {use : MatUse}
    (same : loopUse t u (bitsOf w 15 0) (bitsOf w 31 16) a0 ksv = use) (steps : use.n ≠ 0) (band : u.bm ≠ 0#8)
    (bOk : use.bOk c.team.bsize = true) (aligned : a0 % 16 = 0) (sOk : use.sOk c.team.sents = true) (aOk : use.aOk c.team.lstore = true)
    (tagsOk : use.tagsOk c.team x = true) : s.loopIssue c x t u w a0 ksv
      = .next (s.joinInstance c u.tile.toNat u.ver (.mloop t u use.n (bitsOf w 31 16) a0 (BitVec.ofNat 32 ksv)) 1 none true c.part).2 := by
  simp [State.loopIssue, same, steps, band, bOk, aligned, sOk, aOk, tagsOk]

section
variable {s : State} {g : Guard} {t : Ty} {pat : Option (SparsePat × Opnd)} {a : Opnd} {ks : Option (BitVec 7)} {u : MmaUp} {c : Ctx}

/-- MSPA multiplies where the stepping knows its pattern. -/
theorem mspa_runs {la : BitVec 4} {q : SparsePat} {o : Opnd} (known : q ≠ .s28 ∨ Config.stepIsB1 = true) :
    exec (.mspa g la t q o a ks u) s = s.multiply g t (some (q, o)) a ks u := by
  refine if_neg ?_
  rcases known with other | stepping
  · simp [other]
  · simp [stepping]

theorem multiply_untokened (inStore : u.asrc = true) (ready : s.Ready g (localA a :: (scalePos ks).toList) c) (token : ¬ s.Tokened c) :
    s.multiply g t pat a ks u = .next (s.issued.deliver c.ref ⟨0x19#8, 0#64, 0⟩) := by
  obtain ⟨⟩ := u
  cases inStore
  cases a <;> exact matrix_untokened ready token _ _ _

end

theorem multiplyUse_eq (t : Ty) (u : MmaUp) (pat : Option SparsePat) (rows : List Nat) (a0 ksv : Nat) : multiplyUse t u pat rows a0 ksv =
    ⟨t, u.scl, denseK t u.half pat, rowBytes t u.half pat, rows, a0, u.astr.toNat * 16, 0, u.boff.toNat * 32, 0, 1, ksv % 2 ^ 16,
      ksv / 2 ^ 16 % 2 ^ 16⟩ := by
  rw [multiplyUse, bitsOf_low, bitsOf_high]

theorem loopUse_eq (t : Ty) (u : MloopUp) (n ainc a0 ksv : Nat) : loopUse t u n ainc a0 ksv =
    ⟨t, u.scl, denseK t u.half none, rowBytes t u.half none, bandRows u.bm, a0, u.astr.toNat * 16, ainc * 16, u.boff.toNat * 32,
      u.binc.toNat * 64, n, ksv % 2 ^ 16, ksv / 2 ^ 16 % 2 ^ 16⟩ := by
  rw [loopUse, bitsOf_low, bitsOf_high]

/-- Settles O41: each form by its checks in their order, then the `Instance` that it joins or forms. -/
theorem matrixIssue : Obligations.MatrixIssue := by
  intro s g la t a n tile ver kb ks u ul uv vop thr pm c x i y pk ksv kw sa sb loc a0 pat pa mp num sup from_ part use own them op pn w l0 la0
    loop pt pv zt ph pb tv bo
  refine ⟨fun form => ?multiply, fun ready token tile => ?mloop, fun ready token there positive => ?mzro,
    fun ready token tile number size aligned bounds sets => ?vdset⟩
  case multiply =>
    have runs : exec i s = s.multiply g t pm a ks u := by
      rcases form with ⟨rfl, rfl⟩ | ⟨q, o, rfl, dense, rfl⟩
      · rfl
      · exact mspa_runs dense
    have ranges (rows : List Nat) (a0 : Nat) : multiplyUse t u pat rows a0 ksv = use rows a0 := multiplyUse_eq ..
    refine ⟨fun inStore ready => ?inStore, fun inRegs collects token tile bOk whole count band sOk metaOk => ?inRegs⟩
    case inStore =>
      have body (token : s.Tokened c) (tile : s.tileAt c u.tile.toNat = some x) :
          exec i s = .next ((s.issued.localMultiply c x t u pat a0 ksv).state s.issued c.ref 16) :=
        runs.trans (multiply_local inStore ready token tile)
      refine ⟨fun token => runs.trans (multiply_untokened inStore ready token), fun token tile band => ?_,
        fun token tile band bOk aligned sOk => ?_⟩
      · exact traps_of_runs (body token tile) (if_pos (by simp [band]))
      have legal := body token tile
      rw [localMultiply_legal (ranges _ _) band bOk aligned sOk] at legal
      refine ⟨fun aOk => ?_, fun aOk tagsOk => ?_, fun aOk tagsOk => ?_⟩
      · exact traps_of_runs legal (if_pos (by rw [aOk]; rfl))
      · refine traps_of_runs legal ?_
        rw [aOk, tagsOk]
        rfl
      · refine forms_of_runs (goes_of_runs legal ?_) (.inl rfl)
        rw [aOk, tagsOk]
        rfl
    case inRegs =>
      have body : exec i s = .next ((s.issued.unitMultiply c x t u pm a ksv).state s.issued c.ref 16) :=
        runs.trans (multiply_units inRegs collects token tile)
      have sound := fun q o same => metaOk q o _ same (congrArg (Option.map (metaPos t u.half)) same)
      rw [unitMultiply_legal (ranges _ _) bOk whole count band sOk sound] at body
      rcases misfit : s.issued.misfit c u.tile.toNat u.ver (op 0) with _ | _
      · have fits : s.fitsIn c u.tile.toNat u.ver (op 0) := (misfit_eq_false_iff ..).mp misfit
        rw [misfit, if_neg Bool.false_ne_true] at body
        refine ⟨fun unfit => absurd fits unfit, fun _ tagsOk => ?_, fun _ tagsOk => ?_⟩
        · exact traps_of_runs body (if_pos (by rw [tagsOk]; rfl))
        rw [tagsOk, Bool.not_true, if_neg Bool.false_ne_true] at body
        refine ⟨fun two => holds_of_runs body (if_pos (decide_eq_true two)), fun few => ?_⟩
        have joined := goes_of_runs body (if_neg (mt of_decide_eq_true (not_le.mpr few)))
        exact ⟨fun none_ => forms_of_runs joined (.inr none_), fun gathers => joins_of_runs joined gathers⟩
      · have unfit : ¬ s.fitsIn c u.tile.toNat u.ver (op 0) := fun fits =>
          Bool.false_ne_true (((misfit_eq_false_iff ..).mpr fits).symm.trans misfit)
        rw [misfit, if_pos rfl] at body
        exact ⟨fun _ => traps_of_runs body rfl, fun fits => absurd fits unfit, fun fits => absurd fits unfit⟩
  case mloop =>
    have body : exec (.mloop g la t n a ks ul) s = .next ((s.issued.loopIssue c x t ul w la0 ksv).state s.issued c.ref 16) :=
      mloop_runs ready token tile
    have ranges : loopUse t ul (bitsOf w 15 0) (bitsOf w 31 16) la0 ksv = loop := by
      rw [loopUse_eq, bitsOf_low, bitsOf_high]
    refine ⟨fun none_ => ?_, fun steps band bOk aligned sOk aOk tagsOk => ?_⟩
    · exact traps_of_runs body (if_pos ((congrArg MatUse.n ranges).trans none_))
    · have legal := loopIssue_legal (s := s.issued) ranges steps band bOk aligned sOk aOk tagsOk
      exact forms_of_runs (goes_of_runs body legal) (.inl rfl)
  case mzro => exact forms_of_runs (mzro_runs ready token there positive) (.inl rfl)
  case vdset =>
    have body : exec (.vdset g la vop thr kb uv) s = .next ((s.issued.vdsetIssue c x vop tv bo uv).state s.issued c.ref 16) :=
      vdset_runs ready token tile
    rw [vdsetIssue_legal number size aligned bounds sets] at body
    refine ⟨fun tag => ?_, fun tag => ?_⟩
    · exact traps_of_runs body (if_pos (by simpa using tag))
    · exact forms_of_runs (goes_of_runs body (if_neg (by simpa using tag))) (.inl rfl)

end Sys2Proof.Machine

/-! PROOFS. Loads and drains of matrix state at their issue (spec/07): the places that they read and write, the tags that a load sets, the
transfer or `Instance` that each starts. -/

namespace Sys2Proof.Machine

/-! ### Places in memory and local store (R142, R146, R165) -/

theorem Ctx.Grants.check {c : Ctx} {i : Nat} {p : Pos} {va : Int} {n perm : Nat} (h : c.Grants i p va n perm) (half : Option Bool) (need : Need) :
    (⟨i, c.cap i p, c.capTag i p, va, n, half, false, perm, need⟩ : AccReq).check = none := by
  refine (check_none _).mpr ⟨nofun, h.tag, h.unsealed, beq_iff_eq.mpr h.perm, h.low, ?_, h.space⟩
  refine le_of_le_of_eq h.high ?_
  simp only [Cap.length]
  split <;> simp

/-- The address that a capability and an offset give. -/
def Ctx.place (c : Ctx) (pf : Pos) (po : Option Pos) : Int :=
  (c.cap c.low pf).base + (match po with | some p => c.signed c.low p | none => 0)

theorem pointBad_eq_false {s : State} {c : Ctx} {pt : BitVec 5} (ok : s.pointOk c pt) : s.pointBad c.ref.team pt.toNat = false := by
  rcases ok with rfl | ⟨low, valid⟩
  · rfl
  · simp [State.pointBad, valid, low]

section
variable {s : State} {c : Ctx} {sk : Bool} {pf : Pos} {po : Option Pos} {n : Nat} {e : XEnd}

theorem matSource_ok (from_ : (sk = true ∧ ∃ tm, s.Local c (c.u32 c.low pf) n tm ∧ e = .loc tm (c.u32 c.low pf % 2 ^ 19))
    ∨ (sk = false ∧ c.Grants c.low pf (c.place pf po) n 1 ∧ e = .mem (c.place pf po).toNat)) : s.matSource c sk pf po n = .ok e := by
  rcases from_ with ⟨rfl, tm, inside, rfl⟩ | ⟨rfl, grants, rfl⟩
  · simp only [State.matSource, lsTarget_of_local inside, if_true]
  · have passes := grants.check none ⟨true, false, false⟩
    cases po <;>
    · simp only [Ctx.place] at passes ⊢
      simp only [State.matSource, pLD, passes, Bool.false_eq_true, if_false]

end

/-! ### Tags (R120, R121, R142, R143) -/

theorem get_foldl_put (old : Tbl (BitVec 4)) (lo : Nat) (v : BitVec 4) (n b : Nat) :
    Tbl.get ((List.range n).foldl (fun t i => Tbl.put (lo + i) v t) old) b 0#4 = if lo ≤ b ∧ b < lo + n then v else Tbl.get old b 0#4 := by
  induction n with
  | zero => simp
  | succ n ih =>
    rw [List.range_succ, List.foldl_append, List.foldl_cons, List.foldl_nil, Tbl.get_put, ih]
    by_cases last : b = lo + n
    · simp [last]
    · have same : b < lo + (n + 1) ↔ b < lo + n := by omega
      simp [last, same]

theorem tagged_putTags (old : Tbl (BitVec 4)) (size lo : Nat) {len : Nat} (some_ : len ≠ 0) (v : BitVec 4) :
    Tagged old (putTags old size lo len v) size lo len v := by
  intro b
  have order : lo / size ≤ (lo + len - 1) / size := Nat.div_le_div_right (by omega)
  rw [putTags, get_foldl_put]
  generalize lo / size = first at *
  generalize (lo + len - 1) / size = last at *
  have same : b < first + (last + 1 - first) ↔ b ≤ last := by omega
  simp only [same]

/-! ### MLDB and MLDS (R142, R143) -/

/-- The state of an issued load of matrix state: its team's tags are set, its transfer has started. -/
def State.matLoad (s : State) (c : Ctx) (f : Team → Team) (kind : XferKind) (pt : BitVec 5) (src dst : XEnd) (len : Nat) : State :=
  (s.issued.updTeam c.ref.team f).startMatLoad c kind pt.toNat src dst len

section
variable {s : State} {g : Guard} {c : Ctx} {sk : Bool} {rec frm : Opnd} {o : Option Opnd} {e : XEnd} {la : BitVec 4} {pt : BitVec 5}

theorem matLoad_frame (ctx : s.ctx g = some c) (f : Team → Team) (kind : XferKind) (pt : BitVec 5) (src dst : XEnd) (len : Nat) (u : State)
    (h : u = s.matLoad c f kind pt src dst len) :
    u.mem = s.mem ∧ u.warps = s.warps ∧ u.team? c.ref.team = some (f c.team) ∧ (∀ j, j ≠ c.ref.team → u.team? j = s.team? j)
      ∧ u.xfers = s.xfers ++ [c.matXfer s.nextId kind pt src dst len] := by
  obtain ⟨-, team, -⟩ := ctx_facts ctx
  have teamAt (j : Nat) : u.team? j = if j = c.ref.team then (s.team? j).map f else s.team? j := by
    subst h
    exact State.team_updTeam (s := s.issued) c.ref.team j f
  refine ⟨by subst h; rfl, by subst h; rfl, ?_, fun j other => ?_, ?_⟩
  · rw [teamAt, if_pos rfl, team]
    rfl
  · rw [teamAt, if_neg other]
  · have named : pt.toNat = 31 ↔ pt = 31#5 := by rw [← BitVec.toNat_inj]; rfl
    subst h
    simp only [State.matLoad, State.startMatLoad, State.takeId, Ctx.matXfer, named]
    rfl

/-- The positions of MLDB's and MLDS's source. -/
def sourcePos (o : Option Opnd) : Option Pos := o.map (fun x => Pos.src 2 x x.src3264)

theorem mldb_runs {t : Ty} {boff lenu : BitVec 16} (ready : s.Ready g (Pos.src 1 frm true :: (sourcePos o).toList) c) (token : s.Tokened c)
    (point : s.pointOk c pt) (some_ : lenu.toNat * 32 ≠ 0) (room : boff.toNat * 32 + lenu.toNat * 32 ≤ c.team.bsize)
    (source : s.matSource c sk (Pos.src 1 frm true) (sourcePos o) (lenu.toNat * 32) = .ok e) :
    Goes (.mldb g la t sk frm o boff lenu pt) s c 16 (s.matLoad c
      (fun y => { y with btags := putTags y.btags 4096 (boff.toNat * 32) (lenu.toNat * 32) t.bTag }) .mldb pt e
      (.bst c.ref.team (boff.toNat * 32)) (lenu.toNat * 32)) := by
  have point' : s.issued.pointBad c.ref.team pt.toNat = false := pointBad_eq_false point
  have source' : s.issued.matSource c sk (Pos.src 1 frm true) (o.map (fun x => Pos.src 2 x x.src3264)) (lenu.toNat * 32) = .ok e := source
  change execMldb g la t sk frm o boff lenu pt s = _
  refine (matrix_ready ready token _ _ _).trans ?_
  simp only [point', some_, not_lt.mpr room, source', decide_false, Bool.or_self, Bool.false_eq_true, if_false]
  rfl

/-- The rows and blocks of a layout record, and the bytes from its first element to its last (R120). -/
def recRows (v : Nat) : Nat := bitsOf v 63 48
def recBlocks (v : Nat) : Nat := bitsOf v 47 32
def recSpan (v : Nat) : Nat := (recRows v - 1) * bitsOf v 127 96 + (recBlocks v - 1) * bitsOf v 95 64 + 1

/-- The tag of a layout record's format. -/
def recTag (v : Nat) : BitVec 4 := if bitsOf v 3 0 = 1 then 0xD#4 else 0xE#4

theorem bitsOf_format (v : Nat) : bitsOf v 3 0 = v % 16 := by
  rw [bitsOf, pow_zero, Nat.div_one]
  rfl

theorem layoutBad_eq_false {v : Nat} (format : v / 16 % 16 = 5) (kind : v % 16 = 1 ∨ v % 16 = 2) (rows : recRows v ≠ 0)
    (blocks : recBlocks v ≠ 0) (most : recRows v * recBlocks v ≤ 65536) (zeros : v / 256 % 2 ^ 24 = 0) : layoutBad v = false := by
  have fields : bitsOf v 7 4 = 5 ∧ bitsOf v 31 8 = 0 ∧ bitsOf v 3 0 = v % 16 :=
    ⟨format, zeros, bitsOf_format v⟩
  obtain ⟨format, zeros, low⟩ := fields
  have rows' : bitsOf v 63 48 ≠ 0 := rows
  have blocks' : bitsOf v 47 32 ≠ 0 := blocks
  have most' : ¬ 65536 < bitsOf v 63 48 * bitsOf v 47 32 := not_lt.mpr most
  rcases kind with kind | kind <;> simp [layoutBad, format, zeros, low, kind, rows', blocks', most']

theorem recTag_eq (v : Nat) : recTag v = if v % 16 = 1 then 0xD#4 else 0xE#4 := by rw [recTag, bitsOf_format]

theorem mlds_runs {base : BitVec 16} {v : Nat} (ready : s.Ready g ([Pos.src 0 rec true, Pos.src 1 frm true] ++ (sourcePos o).toList) c)
    (token : s.Tokened c) (point : s.pointOk c pt) (named : v = c.raw c.low (Pos.src 0 rec true)) (sound : layoutBad v = false)
    (aligned : base.toNat % 64 = 0) (room : base.toNat + recRows v * recBlocks v ≤ c.team.sents)
    (source : s.matSource c sk (Pos.src 1 frm true) (sourcePos o) (recSpan v) = .ok e) :
    Goes (.mlds g la sk rec frm o base pt) s c 16 (s.matLoad c
      (fun y => { y with stags := putTags y.stags 64 base.toNat (recRows v * recBlocks v) (recTag v) }) .mlds pt e
      (.scl c.ref.team base.toNat (BitVec.ofNat 128 v)) (recRows v * recBlocks v)) := by
  subst named
  have point' : s.issued.pointBad c.ref.team pt.toNat = false := pointBad_eq_false point
  have source' : s.issued.matSource c sk (Pos.src 1 frm true) (o.map (fun x => Pos.src 2 x x.src3264))
    (recSpan (c.raw c.low (Pos.src 0 rec true))) = .ok e := source
  change execMlds g la sk rec frm o base pt s = _
  refine (matrix_ready ready token _ _ _).trans ?_
  simp only [recSpan, recRows, recBlocks] at source' room
  simp only [sound, point', aligned, not_lt.mpr room, source', decide_false, bne_self_eq_false, Bool.or_self, Bool.false_eq_true, if_false]
  rfl

end

/-! ### MDRN (R146, R147, R156) -/

/-- A tile without an accumulator's tag. -/
def Tile.unready (x : Tile) : Bool := x.tag != 0xA#4 && x.tag != 0xB#4 && x.tag != 0xC#4

theorem unready_eq_false {x : Tile} (acc : x.tag = 0xA#4 ∨ x.tag = 0xB#4 ∨ x.tag = 0xC#4) : x.unready = false := by
  rcases acc with tag | tag | tag <;> simp [Tile.unready, tag]

theorem unready_eq_true {x : Tile} (none_ : ¬ (x.tag = 0xA#4 ∨ x.tag = 0xB#4 ∨ x.tag = 0xC#4)) : x.unready = true := by
  obtain ⟨a, b, c⟩ : x.tag ≠ 0xA#4 ∧ x.tag ≠ 0xB#4 ∧ x.tag ≠ 0xC#4 := by simpa only [not_or] using none_
  simp [Tile.unready, a, b, c]

/-- The bytes of a drained row. -/
def drainBytes (x : Tile) (vd : Bool) : Nat := 16 * ((drainTy x.tag vd).bits / 8)

/-- The state with an MDRN.add to memory counted in its launch (log 33). -/
def State.drainCounted (s : State) (c : Ctx) (op : DrainOp) (dst : XEnd) : State :=
  if op == .add && (match dst with | .mem _ => true | _ => false) then s.countUp c.team.launch 1 else s

theorem drainCounted_frame (s : State) (c : Ctx) (op : DrainOp) (dst : XEnd) :
    (s.drainCounted c op dst).mem = s.mem ∧ (s.drainCounted c op dst).teams = s.teams ∧ (s.drainCounted c op dst).warps = s.warps
      ∧ (s.drainCounted c op dst).cores = s.cores := by
  unfold State.drainCounted
  generalize (op == .add && _) = counts
  cases counts <;> exact ⟨rfl, rfl, rfl, rfl⟩

theorem count_drainCounted (s : State) (c : Ctx) (a : Nat) :
    ((s.drainCounted c .add (.mem a)).completion c.team.launch).count = (s.completion c.team.launch).count + 1 := by
  change ((s.countUp c.team.launch 1).completion c.team.launch).count = _
  rw [State.countUp, State.completion_updCompletion, if_pos rfl]

/-- The state with a drain to memory or local store formed. -/
def State.drainFormed (s : State) (c : Ctx) (x : Tile) (op : DrainOp) (vd : Bool) (u : MdrnUp) (dst : XEnd) : State :=
  (s.joinInstance c u.tile.toNat u.ver (.mdrn op (drainTy x.tag vd) vd u dst) 1 (if u.pt = 31#5 then none else some u.pt.toNat) true
    c.part).2.drainCounted c op dst

theorem drainFormed_frame (s : State) (c : Ctx) (x : Tile) (op : DrainOp) (vd : Bool) (u : MdrnUp) (dst : XEnd) (v : State)
    (h : v = s.drainFormed c x op vd u dst) : v.mem = s.mem ∧ v.teams = s.teams ∧ v.warps = s.warps
      ∧ (v.core c.team.die c.team.core).insts = (s.core c.team.die c.team.core).insts
        ++ [⟨s.nextId, c.ref.team, u.tile.toNat, u.ver, .mdrn op (drainTy x.tag vd) vd u dst, 1, [c.part], c.entry.pc,
            if u.pt = 31#5 then none else some u.pt.toNat, none⟩]
      ∧ (op = .add → ∀ a, dst = .mem a → (v.completion c.team.launch).count = (s.completion c.team.launch).count + 1) := by
  subst h
  obtain ⟨mem, teams, warps, completions⟩ := joinInstance_frame s c u.tile.toNat u.ver (.mdrn op (drainTy x.tag vd) vd u dst) 1
    (if u.pt = 31#5 then none else some u.pt.toNat) true c.part _ rfl
  obtain ⟨mem', teams', warps', cores⟩ := drainCounted_frame (s.joinInstance c u.tile.toNat u.ver (.mdrn op (drainTy x.tag vd) vd u dst) 1
    (if u.pt = 31#5 then none else some u.pt.toNat) true c.part).2 c op dst
  refine ⟨mem'.trans mem, teams'.trans teams, warps'.trans warps, ?_, ?_⟩
  · rw [State.core, State.drainFormed, cores]
    exact (joinInstance_forms s c u.tile.toNat u.ver _ 1 _ true c.part rfl).2
  · rintro rfl a rfl
    rw [State.drainFormed, count_drainCounted, State.completion, completions]
    rfl

/-- What a legal drain to memory or local store does. -/
def State.storeDrain (s : State) (c : Ctx) (x : Tile) (op : DrainOp) (vd : Bool) (u : MdrnUp) (dst : XEnd) : Done :=
  if x.unready then .trap (mkTrap cFMTTAG 0)
  else .next (s.drainFormed c x op vd u dst)

/-- The destination of a drain to registers. -/
def drainDst (d : Opnd) : Pos := (Pos.dst d (d.bits == 32 || d.bits == 64)).inHalf true

/-- The threads that a drain to registers writes. -/
def Ctx.drained (c : Ctx) : List Nat := c.on.filter (· < 16)

/-- The part of a warp that receives a drained row. -/
def Ctx.drainPart (c : Ctx) (p : Pos) : Participant :=
  { c.part with starts := (List.range 16).map (fun i => if c.drained.contains i then p.start (c.th i) else 0) }

/-- The issue of a drain to registers. -/
def drainIn (x : Tile) (vd : Bool) (u : MdrnUp) : MatOp := .mdrn .reg (drainTy x.tag vd) vd u (.data [])

/-- The `Instance` that a drain to registers joins or forms. -/
def State.drainIssue (s : State) (c : Ctx) (x : Tile) (vd : Bool) (u : MdrnUp) (p : Pos) : Nat × State :=
  s.joinInstance c u.tile.toNat u.ver (drainIn x vd u) (u.npm.toNat + 1) none false (c.drainPart p)

/-- The state with that `Instance`, its destinations pending. -/
def State.drainJoined (s : State) (c : Ctx) (x : Tile) (vd : Bool) (u : MdrnUp) (p : Pos) (la : BitVec 4) : State :=
  (s.drainIssue c x vd u p).2.updWarp c.ref.team c.ref.warp
    (Warp.updEach id (fun i th => th.pend (s.drainIssue c x vd u p).1 c.entry.pc.toNat la.toNat (p.start (c.th i)) p.slices) · c.drained)

/-- What a legal drain to registers does. -/
def State.joinDrain (s : State) (c : Ctx) (x : Tile) (vd : Bool) (u : MdrnUp) (p : Pos) (la : BitVec 4) : Done :=
  if s.misfit c u.tile.toNat u.ver (drainIn x vd u) then illField
  else if x.unready then .trap (mkTrap cFMTTAG 0)
  else .next (s.drainJoined c x vd u p la)

section
variable {s : State} {g : Guard} {c : Ctx} {x : Tile} {op : DrainOp} {vd : Bool} {u : MdrnUp} {la : BitVec 4}

theorem mdrn_reg_runs {d : Opnd} (collects : s.Collects g [drainDst d] c) (token : s.Tokened c) (tile : s.tileAt c u.tile.toNat = some x)
    (band : u.bm ≠ 0#8) (legal : s.drainBad c u.tile.toNat u.ver x vd false = false) (width : (drainDst d).o.bits = (drainTy x.tag vd).bits)
    (own : u.bm.getLsbD (c.warp.lane / 8) = true) : exec (.mdrn g la .reg vd (some d) none none u) s
      = .next ((s.issued.joinDrain c x vd u (drainDst d) la).state s.issued c.ref 16) := by
  have tile' : s.issued.tileAt c u.tile.toNat = some x := tile
  have legal' : s.issued.drainBad c u.tile.toNat u.ver x vd (DrainOp.reg == .add) = false := legal
  have width' : (((Pos.dst d (d.bits == 32 || d.bits == 64)).inHalf true).o.bits != (drainTy x.tag vd).bits) = false := 
    bne_eq_false_iff_eq.mpr width
  change execMdrn g la .reg vd (some d) none none u s = _
  refine (matrix_collects collects token _ _).trans ?_
  simp only
  rw [tile']
  simp only [band, legal', width', own, if_false, Bool.false_eq_true, Option.map_some, Bool.not_true, Bool.false_or]
  rfl

/-- The rows that a drain stores stand where its destination allows (R146). -/
theorem drainTarget_ok {pf : Pos} {po : Option Pos} {rb : Nat} {e : XEnd}
    (to_ : (u.tgt = true ∧ ∃ tm z, s.Local c (c.u32 c.low pf) 0 tm ∧ s.team? tm = some z ∧ e = .loc tm (c.u32 c.low pf % 2 ^ 19)
        ∧ ∀ r < 64, u.bm.getLsbD (r / 8) = true → c.u32 c.low pf % 2 ^ 19 + r * (u.rstr.toNat * 16) + rb ≤ z.lstore)
      ∨ (u.tgt = false ∧ e = .mem (c.place pf po).toNat ∧ ∀ r < 64, u.bm.getLsbD (r / 8) = true →
          c.Grants c.low pf (c.place pf po + (r * (u.rstr.toNat * 16) : Nat)) rb (if op = .add then 3 else 2))) :
    s.drainTarget c op u pf po rb = .ok e := by
  have band {r : Nat} (listed : r ∈ bandRows u.bm) : r < 64 ∧ u.bm.getLsbD (r / 8) = true := by
    simpa only [bandRows, List.mem_filter, List.mem_range] using listed
  rcases to_ with ⟨local_, tm, z, inside, team, rfl, fits⟩ | ⟨memory, rfl, grants⟩
  · have all : (bandRows u.bm).all (fun i => c.u32 c.low pf % 2 ^ 19 + i * (u.rstr.toNat * 16) + rb ≤ z.lstore) = true :=
      List.all_eq_true.mpr fun r listed => decide_eq_true (fits r (band listed).1 (band listed).2)
    simp only [State.drainTarget, local_, lsTarget_of_local inside, team, Option.map_some, Option.getD_some, all, if_true]
  · have passes : (bandRows u.bm).findSome? (fun i => (⟨c.low, c.cap c.low pf, c.capTag c.low pf,
        c.place pf po + ((i * (u.rstr.toNat * 16) : Nat) : Int), rb, none, false, if op = .add then pLD + pST else pST,
        ⟨false, true, false⟩⟩ : AccReq).check) = none :=
      List.findSome?_eq_none_iff.mpr fun r listed => (grants r (band listed).1 (band listed).2).check none _
    cases po <;>
    · simp only [Ctx.place] at passes ⊢
      simp only [State.drainTarget, memory, passes, Bool.false_eq_true, if_false]

theorem mdrn_out_runs {frm : Opnd} {o : Option Opnd} {e : XEnd}
    (ready : s.Ready g (Pos.src 1 frm true :: (sourcePos o).toList) c) (token : s.Tokened c) (tile : s.tileAt c u.tile.toNat = some x)
    (band : u.bm ≠ 0#8) (legal : s.drainBad c u.tile.toNat u.ver x vd (op == .add) = false) (point : s.pointOk c u.pt)
    (stride : drainBytes x vd ≤ u.rstr.toNat * 16)
    (target : s.drainTarget c op u (Pos.src 1 frm true) (sourcePos o) (drainBytes x vd) = .ok e) :
    exec (.mdrn g la op vd none (some frm) o u) s = .next ((s.issued.storeDrain c x op vd u e).state s.issued c.ref 16) := by
  have tile' : s.issued.tileAt c u.tile.toNat = some x := tile
  have legal' : s.issued.drainBad c u.tile.toNat u.ver x vd (op == .add) = false := legal
  have point' : s.issued.pointBad c.ref.team u.pt.toNat = false := pointBad_eq_false point
  have target' : s.issued.drainTarget c op u (Pos.src 1 frm true) (o.map (fun x => Pos.src 2 x x.src3264))
    (16 * ((drainTy x.tag vd).bits / 8)) = .ok e := target
  have stride' : ¬ u.rstr.toNat * 16 < 16 * ((drainTy x.tag vd).bits / 8) := not_lt.mpr stride
  change execMdrn g la op vd none (some frm) o u s = _
  refine (matrix_ready ready token _ _ _).trans ?_
  simp only
  rw [tile']
  simp only [band, legal', point', stride', target', if_false, Bool.false_eq_true, Option.map_some, Option.map_none, decide_false, Bool.or_self]
  rfl

end

/-- Threads whose destinations are made pending one by one. -/
theorem pending_updEach (c : Ctx) (op la : Nat) {p : Pos} (noUni : ∀ k, p.o ≠ .uni k) {run : List Nat} (distinct : run.Nodup) :
    Pending c (c.warp.updEach id (fun i th => th.pend op c.entry.pc.toNat la (p.start (c.th i)) p.slices) run) run p op la := by
  obtain ⟨length, frame⟩ := updEach_frame id (fun i th => th.pend op c.entry.pc.toNat la (p.start (c.th i)) p.slices) c.warp run
  refine ⟨length, frame, fun i => ?_⟩
  rw [thread_updEach_nat _ distinct]
  by_cases inside : i ∈ run ∧ i < c.warp.threads.length
  · rw [if_pos inside, if_pos ⟨inside.1, inside.2, noUni⟩]
    simp [Thread.pend, Ctx.th]
  · rw [if_neg inside, if_neg fun h => inside ⟨h.1, h.2.1⟩]
    rfl

section
variable {s : State} {g : Guard} {c : Ctx} {x : Tile} {vd : Bool} {u : MdrnUp} {p : Pos} {la : BitVec 4}

theorem joinDrain_of_fits (fits : s.fitsIn c u.tile.toNat u.ver (drainIn x vd u)) :
    s.issued.joinDrain c x vd u p la = if x.unready then .trap (mkTrap cFMTTAG 0) else .next (s.issued.drainJoined c x vd u p la) :=
  if_neg (Bool.eq_false_iff.mp ((misfit_eq_false_iff s.issued c u.tile.toNat u.ver (drainIn x vd u)).mpr fits))

/-- A drain to registers leaves its warp's destinations pending under its `Instance`'s name. -/
theorem joinDrain_pends {i : Instr} (ctx : s.ctx g = some c) (noUni : ∀ k, p.o ≠ .uni k)
    (runs : exec i s = .next ((s.issued.joinDrain c x vd u p la).state s.issued c.ref 16))
    (fits : s.fitsIn c u.tile.toNat u.ver (drainIn x vd u)) (acc : x.tag = 0xA#4 ∨ x.tag = 0xB#4 ∨ x.tag = 0xC#4) {name : Nat}
    {insts : List Instance} (issue : (s.issued.drainIssue c x vd u p).1 = name
      ∧ ((s.issued.drainIssue c x vd u p).2.core c.team.die c.team.core).insts = insts) :
    ∃ (n : State) (w : Warp), Goes i s c 16 n ∧ n.mem = s.mem ∧ n.teams = s.teams ∧ (n.core c.team.die c.team.core).insts = insts
      ∧ n.warp? c.ref.team c.ref.warp = some w ∧ Pending c w c.drained p name la.toNat := by
  obtain ⟨rfl, rfl⟩ := issue
  rw [joinDrain_of_fits fits, unready_eq_false acc, if_neg Bool.false_ne_true] at runs
  obtain ⟨mem, teams, warps, -⟩ := joinInstance_frame s.issued c u.tile.toNat u.ver (drainIn x vd u) (u.npm.toNat + 1) none false
    (c.drainPart p) _ rfl
  obtain ⟨-, -, warp, -⟩ := ctx_facts ctx
  have here : (s.issued.drainIssue c x vd u p).2.warp? c.ref.team c.ref.warp = some c.warp := by
    rw [State.warp?, State.drainIssue, warps]
    exact warp
  exact ⟨_, _, runs, mem, teams, rfl, warp_updWarp_self here _, pending_updEach c _ _ noUni ((ctx_on_nodup ctx).filter _)⟩

end

/-- Settles O42: a load by its tags and its transfer, a drain by the `Instance` that it joins or forms. -/
theorem matrixTransfers : Obligations.MatrixTransfers := by
  intro s g la t sk rec frm o boff lenu base pt op vd q st u c x e y pf po i at_ from_ len off pr v rows kblk span d pd dt acc mop get part others
    rb to_
  refine ⟨fun ready token point some_ room source => ?mldb,
    fun ready token point format kind rows_ blocks most zeros aligned room source => ?mlds,
    fun tile band legal token => ⟨fun reg collects width own => ?rows, fun other ready point stride target => ?store⟩⟩
  case mldb =>
    obtain ⟨mem, warps, team, others, xfers⟩ := matLoad_frame ready.1
      (fun y => { y with btags := putTags y.btags 4096 off len t.bTag }) .mldb pt e (.bst c.ref.team off) len _ rfl
    exact ⟨_, _, mldb_runs ready token point some_ room (matSource_ok source), mem, warps, team, tagged_putTags _ _ _ some_ _, others, xfers⟩
  case mlds =>
    have sound : layoutBad v = false := layoutBad_eq_false format kind rows_ blocks most zeros
    obtain ⟨mem, warps, team, others, xfers⟩ := matLoad_frame ready.1
      (fun y => { y with stags := putTags y.stags 64 base.toNat (recRows v * recBlocks v) (recTag v) }) .mlds pt e
      (.scl c.ref.team base.toNat (BitVec.ofNat 128 v)) (recRows v * recBlocks v) _ rfl
    have tags := tagged_putTags c.team.stags 64 base.toNat (Nat.mul_ne_zero rows_ blocks) (recTag v)
    refine ⟨_, _, mlds_runs ready token point rfl sound aligned room (matSource_ok source), mem, warps, team, others, ?_, xfers⟩
    exact (recTag_eq v) ▸ tags
  case rows =>
    subst reg
    have body : exec (.mdrn g la .reg vd (some d) none none u) s = .next ((s.issued.joinDrain c x vd u pd la).state s.issued c.ref 16) :=
      mdrn_reg_runs collects token tile band legal width own
    have plain : ∀ k, pd.o ≠ .uni k := fun k same => by cases (show Opnd.reg q st = .uni k from same)
    refine ⟨fun unfit => ?_, fun acc fits none_ => ?_, fun acc fits gathers => ?_, fun unready fits => ?_⟩
    · exact traps_of_runs body (if_pos (eq_true_of_ne_false (mt (misfit_eq_false_iff ..).mp unfit)))
    · have alone := gathering_eq_none s.issued c u.tile.toNat u.ver none_
      exact joinDrain_pends collects.1 plain body fits acc (joinInstance_forms s.issued c u.tile.toNat u.ver mop _ none false part alone)
    · exact joinDrain_pends collects.1 plain body fits acc (joinInstance_joins s.issued c u.tile.toNat u.ver mop _ none part gathers)
    · exact traps_of_runs body ((joinDrain_of_fits fits).trans (if_pos (unready_eq_true unready)))
  case store =>
    have body : exec (.mdrn g la op vd none (some frm) o u) s = .next ((s.issued.storeDrain c x op vd u e).state s.issued c.ref 16) :=
      mdrn_out_runs ready token tile band legal point stride (drainTarget_ok target)
    refine ⟨fun none_ => traps_of_runs body (if_pos (unready_eq_true none_)), fun ready => ?_⟩
    have next : s.issued.storeDrain c x op vd u e = .next _ := if_neg (by rw [unready_eq_false ready]; exact Bool.false_ne_true)
    obtain ⟨mem, teams, warps, formed, counted⟩ := drainFormed_frame s.issued c x op vd u e _ rfl
    refine ⟨_, goes_of_runs body next, mem, teams, warps, formed, fun add memory => ?_⟩
    rcases target with ⟨local_, -⟩ | ⟨-, there, -⟩
    · exact absurd (memory.symm.trans local_) Bool.false_ne_true
    · exact counted add _ there

end Sys2Proof.Machine

/-! PROOFS. The pilot token, and the thresholds and sets of `.topk` (spec/07, spec/08): who holds the token after TOKP and TOKW, when VTHR forms
its `Instance`, what TOPK reads. -/

namespace Sys2Proof.Machine

/-! ### The leaves that wait for the token (R144, R145) -/

theorem updCore_congr {s : State} {d k : Nat} {f g : Core → Core} (same : f (s.core d k) = g (s.core d k)) :
    s.updCore d k f = s.updCore d k g :=
  congrArg (fun x => { s with cores := Tbl.put (coreKey d k) x s.cores }) same

theorem core_updCore_self (s : State) (d k : Nat) (f : Core → Core) : (s.updCore d k f).core d k = f (s.core d k) := by
  rw [State.core_updCore, if_pos rfl]

theorem updCore_updCore (s : State) (d k : Nat) (f g : Core → Core) :
    (s.updCore d k f).updCore d k g = s.updCore d k (fun x => g (f x)) := by
  rw [State.updCore, core_updCore_self]
  exact congrArg (fun cores => { s with cores := cores }) (Tbl.put_put ..)

theorem core_complete (s : State) (r : LeafRef) (len d k : Nat) : (s.complete r len).core d k = s.core d k := rfl

section
variable {s : State} {d k : Nat}

/-- A filter of the leaves that wait which leaves them all leaves the core. -/
theorem updCore_keepTokens : s.updCore d k (fun x => { x with tokens := x.tokens.filter (fun r => !([] : List LeafRef).contains r) })
    = s.updCore d k id := by
  have kept : (s.core d k).tokens.filter (fun r => !([] : List LeafRef).contains r) = (s.core d k).tokens := List.filter_eq_self.mpr fun _ _ => rfl
  exact updCore_congr (congrArg (fun l => { s.core d k with tokens := l }) kept)

/-- Where no leaf waits, who holds the token stays. -/
theorem tokenSettle_idle (none_ : (s.core d k).tokens = []) : s.tokenSettle d k = s.updCore d k id := by
  cases token : (s.core d k).token <;>
  · simp only [State.tokenSettle, token, none_, List.head?_nil, List.filter_nil, List.foldl_nil]
    exact updCore_keepTokens

theorem setToken_idle (none_ : (s.core d k).tokens = []) (t : Option Token) :
    s.setToken d k t = s.updCore d k (fun x => { x with token := t }) := by
  rw [State.setToken, tokenSettle_idle (by rw [core_updCore_self]; exact none_), updCore_updCore]
  rfl

/-- The one leaf that waits receives a free token for its team, and goes on. -/
theorem tokenSettle_grants {r : LeafRef} {w : Warp} (free : (s.core d k).token = none) (one : (s.core d k).tokens = [r])
    (warp : s.warp? r.team r.warp = some w) : s.tokenSettle d k
      = (s.updCore d k (fun x => { x with token := some ⟨r.team, none⟩, tokens := [] })).complete r 8 := by
  have warp' (f : Core → Core) : (s.updCore d k f).warp? r.team r.warp = some w := warp
  simp only [State.tokenSettle, free, one, List.head?_cons, core_updCore_self, warp', updCore_updCore, tokenAllows, List.filter_cons, List.filter_nil,
    beq_self_eq_true, Bool.and_self, if_true, List.foldl_cons, List.foldl_nil]
  refine congrArg (fun u => State.complete u r 8) (updCore_congr ?_)
  simp [one]

theorem setToken_free {r : LeafRef} {w : Warp} (one : (s.core d k).tokens = [r]) (warp : s.warp? r.team r.warp = some w) :
    s.setToken d k none = (s.updCore d k (fun x => { x with token := some ⟨r.team, none⟩, tokens := [] })).complete r 8 := by
  have waits : ((s.updCore d k (fun x => { x with token := none })).core d k).tokens = [r] := by rw [core_updCore_self]; exact one
  rw [State.setToken, tokenSettle_grants (by rw [core_updCore_self]) waits (r := r) (w := w) warp, updCore_updCore]

/-- The one leaf that waits stays where the token's holder leaves it no turn. -/
theorem tokenSettle_keeps {r : LeafRef} {w : Warp} {t : Token} (held : (s.core d k).token = some t) (one : (s.core d k).tokens = [r])
    (warp : s.warp? r.team r.warp = some w) (refused : tokenAllows (some t) r.team w.role = false) :
    s.tokenSettle d k = s.updCore d k id := by
  simp only [State.tokenSettle, held, one, warp, refused, List.filter_cons, List.filter_nil, Bool.false_eq_true, if_false, List.foldl_nil]
  exact updCore_keepTokens

end

/-! ### TOKP and TOKW (R144, R145) -/

/-- The resident team of the issuing one's launch and core that TOKP names. -/
def State.namedTeam (s : State) (c : Ctx) (n : Nat) : Option (Nat × Team) :=
  s.teams.find? (fun p => p.2.launch == c.team.launch && p.2.num == n && p.2.state.holds && p.2.die == c.team.die
    && p.2.core == c.team.core)

/-- What TOKP does with an operand of n. -/
def State.passToken (s : State) (c : Ctx) (n : Nat) : Done :=
  match n / 2 ^ 30 % 4 with
  | 0 =>
    match s.namedTeam c (bitsOf n 23 0) with
    | some p => .next (s.setToken c.team.die c.team.core (some ⟨p.1, none⟩))
    | none => c.illAt 1
  | 1 => .next (s.setToken c.team.die c.team.core (some ⟨c.ref.team, some (bitsOf n 3 0)⟩))
  | 2 => .next (s.setToken c.team.die c.team.core none)
  | _ => c.illAt 1

theorem bitsOf_from_zero (v hi : Nat) : bitsOf v hi 0 = v % 2 ^ (hi + 1) := by rw [bitsOf, pow_zero, Nat.div_one, Nat.sub_zero]

section
variable {s : State} {g : Guard} {c : Ctx} {a : Opnd}

theorem tokp_runs (ready : s.Ready g [Pos.src 1 a a.isUniImm] c) (token : s.Tokened c) : exec (.tokp g a) s
    = .next ((s.issued.passToken c (c.u32 c.low (Pos.src 1 a a.isUniImm))).state s.issued c.ref 8) := by
  change execTokp g a s = _
  exact (matrix_ready ready token _ _ _).trans rfl

theorem tokp_untokened (ready : s.Ready g [Pos.src 1 a a.isUniImm] c) (token : ¬ s.Tokened c) : Traps (.tokp g a) s c 0x19#8 0 := by
  change execTokp g a s = _
  exact matrix_untokened ready token _ _ _

section
variable {n : Nat}

theorem passToken_team {p : Nat × Team} (mode : n / 2 ^ 30 % 4 = 0) (found : s.namedTeam c (n % 2 ^ 24) = some p) :
    s.passToken c n = .next (s.setToken c.team.die c.team.core (some ⟨p.1, none⟩)) := by
  simp only [State.passToken, mode, bitsOf_from_zero, found]

theorem passToken_role (mode : n / 2 ^ 30 % 4 = 1) :
    s.passToken c n = .next (s.setToken c.team.die c.team.core (some ⟨c.ref.team, some (n % 16)⟩)) := by
  simp only [State.passToken, mode, bitsOf_from_zero]
  rfl

theorem passToken_free (mode : n / 2 ^ 30 % 4 = 2) : s.passToken c n = .next (s.setToken c.team.die c.team.core none) := by
  simp only [State.passToken, mode]

theorem passToken_bad (bad : n / 2 ^ 30 % 4 = 3 ∨ n / 2 ^ 30 % 4 = 0 ∧ s.namedTeam c (n % 2 ^ 24) = none) :
    s.passToken c n = c.illAt 1 := by
  rcases bad with mode | ⟨mode, gone⟩
  · simp only [State.passToken, mode]
  · simp only [State.passToken, mode, bitsOf_from_zero, gone]

end

/-- The token passes where no leaf waits for it. -/
theorem passes_of_goes {i : Instr} {len : Nat} {t : Option Token} (goes : Goes i s c len (s.issued.setToken c.team.die c.team.core t))
    (none_ : (s.core c.team.die c.team.core).tokens = []) :
    ∃ u, Goes i s c len u ∧ u.mem = s.mem ∧ u.teams = s.teams ∧ u.warps = s.warps
      ∧ u.core c.team.die c.team.core = { s.core c.team.die c.team.core with token := t } := by
  rw [setToken_idle (s := s.issued) none_] at goes
  exact ⟨_, goes, rfl, rfl, rfl, core_updCore_self s.issued _ _ _⟩

theorem tokw_holds (ready : s.Ready g [] c) (token : s.Tokened c) : exec (.tokw g) s = .next (s.issued.complete c.ref 8) := by
  change execTokw g s = _
  have allowed : tokenAllows (s.issued.core c.team.die c.team.core).token c.ref.team c.warp.role = true := tokenAllows_iff.mpr token
  refine (issue_ready ready _ _).trans ?_
  simp only [allowed, if_true]
  rfl

/-- The state in which a leaf waits in TOKW. -/
def State.tokenWait (s : State) (c : Ctx) : State :=
  (s.issued.block c.ref .token).updCore c.team.die c.team.core (fun x => { x with tokens := x.tokens ++ [c.ref] })

theorem tokw_waits (ready : s.Ready g [] c) (token : ¬ s.Tokened c) :
    exec (.tokw g) s = .next ((s.tokenWait c).tokenSettle c.team.die c.team.core) := by
  change execTokw g s = _
  have refused : ¬ tokenAllows (s.issued.core c.team.die c.team.core).token c.ref.team c.warp.role = true := mt tokenAllows_iff.mp token
  refine (issue_ready ready _ _).trans ?_
  simp only [refused]
  rfl

theorem warp_tokenWait (ctx : s.ctx g = some c) :
    (s.tokenWait c).warp? c.ref.team c.ref.warp = some (c.warp.waiting c.entry.id .token) := by
  obtain ⟨-, -, warp, entry, -⟩ := ctx_facts ctx
  have named : c.entry.id = c.ref.leaf := by simpa using List.find?_some entry
  rw [named]
  exact warp_updWarp_self (s := s.issued) warp _

theorem core_tokenWait (none_ : (s.core c.team.die c.team.core).tokens = []) : (s.tokenWait c).core c.team.die c.team.core
    = { s.core c.team.die c.team.core with tokens := [c.ref] } := by
  rw [State.tokenWait, core_updCore_self]
  exact congrArg (fun l => { s.core c.team.die c.team.core with tokens := l ++ [c.ref] }) none_

end

/-! ### VTHR (R157) -/

section
variable {s : State} {g : Guard} {c : Ctx} {x : Tile} {v : Verdict} {la : BitVec 4} {tile a : Opnd}

theorem topkTile_eq_some {p : Pos} (tile : c.team.tiles[c.u32 c.low p]? = some x) (decl : x.decl = some v) (topk : v.op = .topk) :
    c.topkTile p = some (c.u32 c.low p, v) := by
  rw [Ctx.topkTile, tile, Option.bind_some, decl, Option.filter_some, topk]
  rfl

theorem topkTile_eq_none {p : Pos} (tile : c.team.tiles[c.u32 c.low p]? = some x) (other : ∀ z, x.decl = some z → z.op ≠ .topk) :
    c.topkTile p = none := by
  rw [Ctx.topkTile, tile, Option.bind_some]
  cases decl : x.decl with
  | none => rfl
  | some z =>
    rw [Option.filter_some, if_neg (by simpa using other z decl)]
    rfl

/-- What VTHR does with a threshold nv for its row of the tile it names. -/
def State.raiseIssue (s : State) (c : Ctx) (target : Option (Nat × Verdict)) (nv : Word) : Done :=
  match target with
  | none => c.illAt 1
  | some (n, d) =>
    if (f32Val nv).isNan then c.illAt 2
    else if (f32Val nv).cmp (f32Val (s.nextThreshold c n c.warp.lane d)) < 0 then .trap (mkTrap cVTHRDN 0)
    else .next (s.joinInstance c n 0#16 (.vthr c.warp.lane nv) 1 none true c.part).2

theorem vthr_runs (ready : s.Ready g [Pos.src 1 tile true, Pos.src 2 a a.reg32] c) (token : s.Tokened c) : exec (.vthr g la tile a) s
    = .next ((s.issued.raiseIssue c (c.topkTile (Pos.src 1 tile true)) (BitVec.ofNat 32 (c.u32 c.low (Pos.src 2 a a.reg32)))).state
      s.issued c.ref 8) := by
  change execVthr g la tile a s = _
  exact (matrix_ready ready token _ _ _).trans rfl

end

/-! ### TOPK (R158, R160) -/

/-- TOPK's destination, and its effect with the entry k. -/
def topkDst (op : TopkOp) (d : Opnd) : Option Pos := if op = .full then none else some (Pos.dst d d.reg32)

def Ctx.topkEff (c : Ctx) (op : TopkOp) (d : Opnd) (v : Verdict) (k : Nat) : Eff :=
  match op with
  | .val => .ofVal (ksetEntry c.team.loc (v.setAt c.warp.lane) k).1.toNat
  | .idx => .ofVal (ksetEntry c.team.loc (v.setAt c.warp.lane) k).2.toNat
  | .cnt => .ofVal (v.count c.team.loc c.warp.lane)
  | .full => ⟨none, some ((match d with | .reg _ p => p.extractLsb' 0 3 | _ => 7#3), v.count c.team.loc c.warp.lane == v.k), 0#5⟩

/-- The entry that TOPK names, and its value. -/
def entryPos (e : Option Opnd) : Option Pos := e.map (fun x => Pos.src 2 x true)

def Ctx.entryOf (c : Ctx) (e : Option Opnd) : Nat := match entryPos e with | some p => c.u32 c.low p | none => 0

section
variable {s : State} {g : Guard} {c : Ctx} {v : Verdict} {la : BitVec 4} {op : TopkOp} {d tile : Opnd} {e : Option Opnd} {m : Nat}

theorem topk_runs (ready : s.Ready g ((topkDst op d).toList ++ [Pos.src 1 tile true] ++ (entryPos e).toList) c) (token : s.Tokened c)
    (declared : c.topkTile (Pos.src 1 tile true) = some (m, v)) : exec (.topk g la op d tile e) s
      = .next ((if (entryPos e).isSome && v.k ≤ c.entryOf e then c.illAt 2
        else if s.tileBusy c m then .hold .busy
        else c.compute s.issued (c.runs (topkDst op d)) (topkDst op d) la.toNat [] (fun _ => c.topkEff op d v (c.entryOf e))).state
          s.issued c.ref 12) := by
  change execTopk g la op d tile e s = _
  refine (matrix_ready ready token _ _ _).trans ?_
  simp only
  rw [declared]
  rfl

/-- TOPK computes where its entry is there and no started `Instance` holds the tile. -/
theorem topk_computes (ready : s.Ready g ((topkDst op d).toList ++ [Pos.src 1 tile true] ++ (entryPos e).toList) c) (token : s.Tokened c)
    (declared : c.topkTile (Pos.src 1 tile true) = some (m, v)) (inside : (entryPos e).isSome = true → c.entryOf e < v.k)
    (idle : s.tileBusy c m = false) :
    Computes (.topk g la op d tile e) s c 12 la.toNat (topkDst op d) (fun _ => c.topkEff op d v (c.entryOf e)) := by
  have entry : ((entryPos e).isSome && decide (v.k ≤ c.entryOf e)) = false := by
    simpa using inside
  refine computes_of (eff := fun c _ => c.topkEff op d v (c.entryOf e)) ready (fun p dst => by simp [dst]) (fun j => by cases op <;> rfl) ?_
  rw [topk_runs ready token declared, entry, idle, State.alu, issue_ready ready]
  rfl

theorem tileBusy_eq_false : s.tileBusy c m = false ↔
    ∀ i ∈ (s.core c.team.die c.team.core).insts, i.team = c.ref.team → i.tile = m → i.input = none := by
  simp [State.tileBusy, List.any_eq_false]

end

/-- A word of a k-set's entry. -/
theorem toNat_word_read (m : Memory) (a : Nat) : (BitVec.ofNat 32 (leNat (m.read a 4))).toNat = leNat (m.read a 4) := by
  rw [BitVec.toNat_ofNat, Nat.mod_eq_of_lt (leNat_read_lt m a 4)]

/-- The true entries of a row are those that are no surplus. -/
theorem count_eq (v : Verdict) (m : Memory) (row : Nat) : v.count m row
    = ((List.range v.k).filter (fun j => leNat (m.read (v.setAt row + 8 * j) 4) != 0xFF800000
      || leNat (m.read (v.setAt row + 8 * j + 4) 4) != 0xFFFFFFFF)).length := by
  rw [Verdict.count, Verdict.entries, List.filter_map, List.length_map]
  refine congrArg List.length (List.filter_congr fun j _ => ?_)
  rw [Function.comp, ksetEntry, surplus, negInf, Bool.eq_iff_iff, bne_iff_ne, Bool.or_eq_true, bne_iff_ne, bne_iff_ne, ne_eq, Prod.mk.injEq,
    not_and_or, ← BitVec.toNat_inj, ← BitVec.toNat_inj, toNat_word_read, toNat_word_read]
  rfl

/-- Settles O43: the token by the leaves that wait for it, VTHR and TOPK by the declaration of the tile that they name. -/
theorem tokenAndTopk : Obligations.TokenAndTopk := by
  intro s g la a tile d e c p r w x v pa k n team passes pt pv m row nv before old pd pe ent word count idle
  refine ⟨fun ready => ?tokp, fun ready => ?tokw, fun token tile_ => ⟨fun ready => ?vthr, fun decl topk => ?topk⟩⟩
  case tokp =>
    refine ⟨fun token => tokp_untokened ready token, fun token => ?_⟩
    have body := tokp_runs ready token
    refine ⟨fun bad => ?_, fun none_ => ⟨fun mode found => ?_, fun mode => ?_, fun mode => ?_⟩, fun one warp mode => ?_⟩
    · exact traps_of_runs body (passToken_bad bad)
    · exact passes_of_goes (goes_of_runs body (passToken_team mode found)) none_
    · exact passes_of_goes (goes_of_runs body (passToken_role mode)) none_
    · exact passes_of_goes (goes_of_runs body (passToken_free mode)) none_
    · have goes := goes_of_runs body (passToken_free mode)
      rw [setToken_free (s := s.issued) one warp] at goes
      refine ⟨_, goes, rfl, rfl, warp_updWarp_self (s := s.issued) warp _, ?_⟩
      exact (core_complete ..).trans (core_updCore_self s.issued ..)
  case tokw =>
    refine ⟨tokw_holds ready, fun none_ free => ?_, fun token none_ held => ?_⟩
    · have token : ¬ s.Tokened c := fun ⟨_, holds, _⟩ => nomatch free.symm.trans holds
      have core := core_tokenWait none_
      have runs := tokw_waits ready token
      rw [tokenSettle_grants (by rw [core]; exact free) (by rw [core]) (warp_tokenWait ready.1)] at runs
      refine ⟨_, runs, rfl, rfl, ?_, warp_updWarp_self (s := (s.tokenWait c).updCore _ _ _) (warp_tokenWait ready.1) _⟩
      refine ((core_complete ..).trans (core_updCore_self (s.tokenWait c) ..)).trans ?_
      rw [core, ← none_]
    · obtain ⟨t, some_⟩ := Option.ne_none_iff_exists'.mp held
      have core := core_tokenWait none_
      have refused : tokenAllows (some t) c.ref.team c.warp.role = false := by
        rw [← some_]
        exact Bool.eq_false_iff.mpr (mt tokenAllows_iff.mp token)
      have runs := tokw_waits ready token
      rw [tokenSettle_keeps (by rw [core]; exact some_) (by rw [core]) (warp_tokenWait ready.1) refused] at runs
      exact ⟨_, runs, rfl, rfl, (core_updCore_self (s.tokenWait c) _ _ _).trans core, warp_tokenWait ready.1⟩
  case vthr =>
    have body := vthr_runs (la := la) ready token
    refine ⟨fun other => ?_, fun decl topk => ?_⟩
    · rw [topkTile_eq_none tile_ other] at body
      exact traps_of_runs body rfl
    rw [topkTile_eq_some tile_ decl topk] at body
    refine ⟨fun nan => ?_, fun number => ?_⟩
    · exact traps_of_runs body (if_pos nan)
    have order : s.issued.raiseIssue c (some (m, v)) nv = if (f32Val nv).cmp (f32Val old) < 0 then .trap (mkTrap cVTHRDN 0)
        else .next (s.issued.joinInstance c m 0#16 (.vthr row nv) 1 none true c.part).2 := if_neg (by rw [number]; exact Bool.false_ne_true)
    refine ⟨fun below => traps_of_runs body (order.trans (if_pos below)), fun above => ?_⟩
    exact forms_of_runs (goes_of_runs body (order.trans (if_neg (not_lt.mpr above)))) (.inl rfl)
  case topk =>
    have declared : c.topkTile pt = some (m, v) := topkTile_eq_some tile_ decl topk
    refine ⟨fun ready beyond => ?beyond, fun still => ?idle, fun ready busy => ?busy⟩
    case beyond =>
      have past : ((entryPos (some e)).isSome && decide (v.k ≤ c.entryOf (some e))) = true := decide_eq_true beyond
      exact ⟨traps_of_runs (topk_runs (op := .val) ready token declared) (if_pos past),
        traps_of_runs (topk_runs (op := .idx) ready token declared) (if_pos past)⟩
    case idle =>
      have idle : s.tileBusy c m = false := tileBusy_eq_false.mpr still
      have total : v.count c.team.loc row = count := count_eq ..
      refine ⟨fun ready inside => ⟨?_, ?_⟩, fun ready => ?_, fun ready q st reg => ?_⟩
      · have computes := topk_computes (la := la) (op := .val) (e := some e) ready token declared (fun _ => inside) idle
        rwa [Ctx.topkEff, ksetEntry, toNat_word_read] at computes
      · have computes := topk_computes (la := la) (op := .idx) (e := some e) ready token declared (fun _ => inside) idle
        rwa [Ctx.topkEff, ksetEntry, toNat_word_read] at computes
      · have computes := topk_computes (la := la) (op := .cnt) (e := none) ready token declared nofun idle
        rwa [Ctx.topkEff, total] at computes
      · subst reg
        have computes := topk_computes (la := la) (op := .full) (d := .reg q st) (e := none) ready token declared nofun idle
        rwa [Ctx.topkEff, total] at computes
    case busy =>
      have started : s.issued.tileBusy c m = true := eq_true_of_ne_false (mt tileBusy_eq_false.mp busy)
      exact holds_of_runs (topk_runs (op := .cnt) (e := none) ready token declared) (if_pos started)

end Sys2Proof.Machine

/-! PROOFS. Blocks on a tile (spec/07, spec/08): what a block's inputs hold of the team's memories, and what it leaves in the tile's elements. -/

namespace Sys2Proof.Machine

/-! ### Elements after a block (R136, R138, R154) -/

section
variable (x : Tile) (ty : Ty) (scl ftz : Bool) (inp : MatInput)

theorem elem_setElem (row col : Nat) (v : Word64) (r c : Nat) :
    (x.setElem row col v).elem r c = if 16 * r + c = 16 * row + col then v else x.elem r c := by
  rw [Tile.setElem, Tile.elem, Tile.elem]
  split
  next zero => rw [Tbl.get_del, zero]
  next => rw [Tbl.get_put]

/-- One element of a block: it gains its products and the flags theirs, or stays, abandoned. -/
def Tile.blockElem (row col : Nat) : Tile :=
  if x.tag = 0xA#4 ∧ isAbandoned (x.elem row col).toNat = true then x
  else
    { x.setElem row col (x.elemAfter ty scl ftz inp row col).1 with flags := x.flags ||| (x.elemAfter ty scl ftz inp row col).2 }

/-- The elements that a block touches, in its order. -/
def blockCells (rows : List Nat) : List (Nat × Nat) := rows.flatMap (fun row => (List.range 16).map (fun col => (row, col)))

theorem block_eq_cells : x.block ty scl ftz inp
    = (blockCells (inp.a.map Prod.fst)).foldl (fun x p => x.blockElem ty scl ftz inp p.1 p.2) x := by
  rw [blockCells, List.foldl_flatMap]
  refine List.foldl_ext _ _ _ fun y row _ => ?_
  rw [List.foldl_map]
  refine List.foldl_ext _ _ _ fun z col _ => ?_
  simp only [Tile.blockElem, Tile.elemAfter, Bool.and_eq_true, decide_eq_true_eq]
  split
  next => rfl
  next => rfl

theorem mem_blockCells {rows : List Nat} {r c : Nat} : (r, c) ∈ blockCells rows ↔ r ∈ rows ∧ c < 16 := by
  simp only [blockCells, List.mem_flatMap, List.mem_map, List.mem_range, Prod.mk.injEq]
  constructor
  · rintro ⟨_, listed, _, small, rfl, rfl⟩
    exact ⟨listed, small⟩
  · rintro ⟨listed, small⟩
    exact ⟨r, listed, c, small, rfl, rfl⟩

theorem nodup_blockCells {rows : List Nat} (nodup : rows.Nodup) : (blockCells rows).Nodup := by
  refine List.nodup_flatMap.mpr ⟨fun row _ => List.nodup_range.map fun _ _ same => (Prod.mk.inj same).2, ?_⟩
  refine nodup.imp fun differ p inA inB => differ ?_
  obtain ⟨_, -, rfl⟩ := List.mem_map.mp inA
  obtain ⟨_, -, same⟩ := List.mem_map.mp inB
  exact (Prod.mk.inj same).1.symm

theorem tag_blockElem (row col : Nat) : (x.blockElem ty scl ftz inp row col).tag = x.tag := by
  rw [Tile.blockElem]; split <;> rfl

theorem decl_blockElem (row col : Nat) : (x.blockElem ty scl ftz inp row col).decl = x.decl := by
  rw [Tile.blockElem]; split <;> rfl

theorem ver_blockElem (row col : Nat) : (x.blockElem ty scl ftz inp row col).ver = x.ver := by
  rw [Tile.blockElem]; split <;> rfl

theorem flags_blockElem (row col : Nat) :
    (x.blockElem ty scl ftz inp row col).flags = x.flags ||| (x.elemAfter ty scl ftz inp row col).2 := by
  rw [Tile.blockElem]
  split
  next abandoned => rw [Tile.elemAfter, if_pos abandoned, BitVec.or_zero]
  next => rfl

theorem elem_blockElem {row col r c : Nat} (inside : col < 16) (small : c < 16) :
    (x.blockElem ty scl ftz inp row col).elem r c = if (r, c) = (row, col) then (x.elemAfter ty scl ftz inp row col).1 else x.elem r c := by
  have key : 16 * r + c = 16 * row + col ↔ (r, c) = (row, col) := by rw [Prod.mk.injEq]; omega
  rw [Tile.blockElem]
  split
  next abandoned =>
    rw [Tile.elemAfter, if_pos abandoned]
    split
    next same => obtain ⟨rfl, rfl⟩ := Prod.mk.inj same; rfl
    next => rfl
  next =>
    refine (elem_setElem x row col _ r c).trans ?_
    simp only [key]

/-- What becomes of an element depends on the tile's tag, its declaration and that element alone. -/
theorem elemAfter_congr {x y : Tile} {r c : Nat} (tag : y.tag = x.tag) (decl : y.decl = x.decl) (elem : y.elem r c = x.elem r c) :
    y.elemAfter ty scl ftz inp r c = x.elemAfter ty scl ftz inp r c := by
  simp only [Tile.elemAfter, tag, decl, elem]

/-- A block is its elements, each once: none sees what another has left. -/
theorem cells_after (cells : List (Nat × Nat)) (nodup : cells.Nodup) (inside : ∀ p ∈ cells, p.2 < 16) :
    let y := cells.foldl (fun x p => x.blockElem ty scl ftz inp p.1 p.2) x
    y.tag = x.tag ∧ y.decl = x.decl ∧ y.ver = x.ver
      ∧ (∀ r, ∀ c < 16, y.elem r c = if (r, c) ∈ cells then (x.elemAfter ty scl ftz inp r c).1 else x.elem r c)
      ∧ ∀ b, y.flags.getLsbD b = true ↔ x.flags.getLsbD b = true
          ∨ ∃ p ∈ cells, (x.elemAfter ty scl ftz inp p.1 p.2).2.getLsbD b = true := by
  induction cells generalizing x with
  | nil => simp
  | cons p cells ih =>
    obtain ⟨fresh, nodup⟩ := List.nodup_cons.mp nodup
    obtain ⟨first, inside⟩ := List.forall_mem_cons.mp inside
    obtain ⟨tag, decl, ver, elem, flags⟩ := ih (x.blockElem ty scl ftz inp p.1 p.2) nodup inside
    have later {r c : Nat} (small : c < 16) (other : (r, c) ≠ p) :
        (x.blockElem ty scl ftz inp p.1 p.2).elemAfter ty scl ftz inp r c = x.elemAfter ty scl ftz inp r c :=
      elemAfter_congr ty scl ftz inp (tag_blockElem ..) (decl_blockElem ..) ((elem_blockElem x ty scl ftz inp first small).trans (if_neg other))
    refine ⟨tag.trans (tag_blockElem ..), decl.trans (decl_blockElem ..), ver.trans (ver_blockElem ..), fun r c small => ?_, fun b => ?_⟩
    · rw [List.foldl_cons, elem r c small]
      by_cases same : (r, c) = p
      · subst same
        rw [if_neg fresh, if_pos List.mem_cons_self, elem_blockElem x ty scl ftz inp first small, if_pos rfl]
      · rw [later small same, elem_blockElem x ty scl ftz inp first small, if_neg same]
        simp only [List.mem_cons, same, false_or]
    · have same : (∃ q ∈ cells, ((x.blockElem ty scl ftz inp p.1 p.2).elemAfter ty scl ftz inp q.1 q.2).2.getLsbD b = true)
          ↔ ∃ q ∈ cells, (x.elemAfter ty scl ftz inp q.1 q.2).2.getLsbD b = true :=
        exists_congr fun q => and_congr_right fun listed => by rw [later (inside q listed) fun same => fresh (same ▸ listed)]
      rw [List.foldl_cons, flags b, same, flags_blockElem, BitVec.getLsbD_or, Bool.or_eq_true, List.exists_mem_cons_iff, or_assoc]

theorem block_after (nodup : (inp.a.map Prod.fst).Nodup) :
    x.After (x.block ty scl ftz inp) ty scl ftz inp ∧ (x.block ty scl ftz inp).decl = x.decl ∧ (x.block ty scl ftz inp).ver = x.ver := by
  rw [block_eq_cells]
  obtain ⟨tag, decl, ver, elem, flags⟩ :=
    cells_after x ty scl ftz inp _ (nodup_blockCells nodup) fun p listed => (mem_blockCells.mp listed).2
  refine ⟨⟨tag, fun r c small => ?_, fun b _ => ?_⟩, decl, ver⟩
  · rw [elem r c small]
    simp only [mem_blockCells, small, and_true]
  · rw [flags b, Prod.exists]
    simp only [mem_blockCells, and_assoc, exists_and_left]

end

/-- Integer products are exact, and their sum wraps. -/
theorem matElem_integer {ty : Ty} (integer : ty = .i8 ∨ ty = .i4) (ftz : Bool) (inp : MatInput) (row col acc : Nat) :
    (matElem ty false ftz inp row col acc).1 = wrap 32 (intVal true 32 acc
      + ((Tbl.get inp.a row []).map (fun q => intVal true ty.bits q.2 * intVal true ty.bits ((inp.b.getD q.1 []).getD col 0))).sum) := by
  have exact_ : ((ty == .i8 || ty == .i4) && !false) = true := by rcases integer with rfl | rfl <;> rfl
  simp only [matElem, exact_, if_true, meets, List.foldl_map, List.sum_eq_foldl]

/-- An integer tile knows neither abandoned elements nor a monitor. -/
theorem elemAfter_integer {x : Tile} {ty : Ty} (integer : ty = .i8 ∨ ty = .i4) (tag : x.tag = 0xC#4) (ftz : Bool) (inp : MatInput) (row col : Nat) :
    (x.elemAfter ty false ftz inp row col).1.toNat = wrap 32 (intVal true 32 (x.elem row col).toNat
      + ((Tbl.get inp.a row []).map (fun q => intVal true ty.bits q.2 * intVal true ty.bits ((inp.b.getD q.1 []).getD col 0))).sum) := by
  have other : x.tag ≠ 0xA#4 := by rw [tag]; decide
  have value : (x.elemAfter ty false ftz inp row col).1 = BitVec.ofNat 64 (matElem ty false ftz inp row col (x.elem row col).toNat).1 := by
    simp only [Tile.elemAfter, other, false_and, if_false]
    split <;> rfl
  rw [value, matElem_integer integer, BitVec.toNat_ofNat, Nat.mod_eq_of_lt ((wrap_lt 32 _).trans (by norm_num))]

/-! ### Inputs (R127, R131, R132, R139, R149) -/

theorem Tbl.look_rows {α : Type} (f : Nat → α) (l : List Nat) (r : Nat) :
    Tbl.look r (l.map (fun n => (n, f n))) = if r ∈ l then some (f r) else none := by
  induction l with
  | nil => rfl
  | cons n l ih =>
    rw [List.map_cons, Tbl.look, ih]
    by_cases same : n = r
    · rw [if_pos same, if_pos (same ▸ List.mem_cons_self), same]
    · simp only [List.mem_cons, same, Ne.symm same, false_or, if_false]

theorem Tbl.get_rows {α : Type} (f : Nat → α) {l : List Nat} {r : Nat} (listed : r ∈ l) (d : α) :
    Tbl.get (l.map (fun n => (n, f n))) r d = f r := by
  rw [Tbl.get, Tbl.look_rows, if_pos listed, Option.getD_some]

theorem map_fst_rows {α : Type} (f : Nat → α) (l : List Nat) : (l.map (fun n => (n, f n))).map Prod.fst = l := by
  rw [List.map_map]
  exact List.map_id l

theorem getD_range_map {α : Type} (f : Nat → α) {n i : Nat} (inside : i < n) (d : α) : ((List.range n).map f).getD i d = f i := by
  rw [List.getD_eq_getElem?_getD, List.getElem?_map, List.getElem?_range inside, Option.map_some, Option.getD_some]

theorem nodup_bandRows (bm : BitVec 8) : (bandRows bm).Nodup := List.nodup_range.filter _

theorem matInput_reads (t : Team) (x : Tile) (ty : Ty) (scl : Bool) (k boff sa sb : Nat) (a : Tbl (List (Nat × Nat))) :
    ReadsB t ty scl k boff sa sb (t.matInput x ty scl k boff sa sb a) where
  b r small j inside := by
    simp only [Team.matInput, Team.readB, getD_range_map _ small, elemsOf, getD_range_map _ inside]
    rfl
  rows scaled r listed g small := by
    simp only [Team.matInput, scaled, if_true] at listed ⊢
    rw [Tbl.get_rows _ listed, getD_range_map _ small]
  cols scaled j inside g small := by
    simp only [Team.matInput, scaled, if_true, getD_range_map _ inside, getD_range_map _ small]

/-- Dense elements stand at their places along K. -/
theorem placed_dense (f : Nat → Nat) (n : Nat) (pos : List Nat) :
    placed none ((List.range n).map f) pos = (List.range n).map (fun e => (e, f e)) := by
  refine List.ext_getElem? fun e => ?_
  simp only [placed, List.getElem?_map, List.getElem?_zipIdx]
  by_cases small : e < n
  · simp [List.getElem?_range small]
  · simp [small]

theorem matInput_readsA (t : Team) (x : Tile) (ty : Ty) (scl half : Bool) (k boff sa sb : Nat) (bm : BitVec 8) (a0 stride : Nat) :
    ReadsA t ty (ty.perUnit * suppliers half) bm a0 (stride * 16) (t.matInput x ty scl k boff sa sb
      ((bandRows bm).map (fun r => (r, t.rowA ty half none (a0 + r * stride * 16))))) := by
  refine ⟨map_fst_rows _ _, fun r listed => ?_⟩
  simp only [Team.matInput]
  rw [Tbl.get_rows _ listed, ← Nat.mul_assoc]
  exact placed_dense (fun e => element ty.ebits e (t.loc.read (a0 + r * stride * 16) (ty.perUnit * suppliers half * ty.ebits / 8))) _ []

theorem perm_insertBy {α : Type} (le : α → α → Bool) (x : α) (l : List α) : (insertBy le x l).Perm (x :: l) := by
  induction l with
  | nil => exact .refl _
  | cons y l ih =>
    rw [insertBy]
    split
    · exact (ih.cons y).trans (.swap x y l)
    · exact .refl _

theorem perm_sortBy {α : Type} (le : α → α → Bool) (l : List α) : (sortBy le l).Perm l := by
  have folded (acc : List α) : (l.foldl (fun acc x => insertBy le x acc) acc).Perm (l ++ acc) := by
    induction l generalizing acc with
    | nil => exact .refl _
    | cons x l ih => exact (ih _).trans (((perm_insertBy le x acc).append_left l).trans List.perm_middle)
  exact (folded []).trans (.of_eq (List.append_nil l))

theorem Tbl.look_of_mem {α : Type} {t : Tbl α} (nodup : (t.map Prod.fst).Nodup) {k : Nat} {v : α} (listed : (k, v) ∈ t) :
    Tbl.look k t = some v := by
  induction t with
  | nil => cases listed
  | cons p t ih =>
    obtain ⟨fresh, nodup⟩ := List.nodup_cons.mp nodup
    rw [Tbl.look]
    rcases List.mem_cons.mp listed with rfl | later
    · exact if_pos rfl
    · rw [if_neg fun same : p.1 = k => fresh (same ▸ List.mem_map_of_mem (f := Prod.fst) later)]
      exact ih nodup later

/-- A string of units of m elements each, read element by element. -/
theorem flatMap_units (g : Nat → Nat → Nat) (m : Nat) (units : List Nat) : units.flatMap (fun u => (List.range m).map (g u))
    = (List.range (m * units.length)).map (fun e => g (units.getD (e / m) 0) (e % m)) := by
  induction units with
  | nil => rfl
  | cons u units ih =>
    rw [List.flatMap_cons, ih, List.length_cons, Nat.mul_succ, Nat.add_comm, List.range_add, List.map_append, List.map_map]
    refine congrArg₂ _ (List.map_congr_left fun e small => ?_) (List.map_congr_left fun e small => ?_)
    · have small := List.mem_range.mp small
      rw [Nat.div_eq_of_lt small, Nat.mod_eq_of_lt small, List.getD_cons_zero]
    · have pos : 0 < m := Nat.pos_of_mul_pos_right ((Nat.zero_le e).trans_lt (List.mem_range.mp small))
      simp only [Function.comp_apply, Nat.add_mod_left, Nat.add_div_left e pos, List.getD_cons_succ]

/-- A row of a dense A from a participant's units (R127). -/
theorem rowA_units (p : Participant) (ty : Ty) : p.rowA ty none = (List.range (ty.perUnit * p.units.length)).map (fun e =>
    (e, p.units.getD (e / ty.perUnit) 0 / 2 ^ (ty.ebits * (e % ty.perUnit)) % 2 ^ ty.ebits)) := by
  rw [Participant.rowA, flatMap_units fun u i => u / 2 ^ (ty.ebits * i) % 2 ^ ty.ebits]
  exact placed_dense (fun e => p.units.getD (e / ty.perUnit) 0 / 2 ^ (ty.ebits * (e % ty.perUnit)) % 2 ^ ty.ebits) _ []

/-- Participants of different lanes supply different rows. -/
theorem rowA_sorted {parts : List Participant} (nodup : (parts.map Participant.lane).Nodup) {p : Participant} (listed : p ∈ parts) (ty : Ty) :
    Tbl.get ((sortBy (fun p q => p.lane ≤ q.lane) parts).map (fun p => (p.lane, p.rowA ty none))) p.lane [] = p.rowA ty none := by
  have sorted := perm_sortBy (fun p q : Participant => p.lane ≤ q.lane) parts
  rw [Tbl.get, Tbl.look_of_mem _ (List.mem_map_of_mem (f := fun p : Participant => (p.lane, p.rowA ty none)) (sorted.mem_iff.mpr listed)),
    Option.getD_some]
  rw [List.map_map]
  exact (sorted.map Participant.lane).nodup_iff.mpr nodup
end Sys2Proof.Machine

/-! PROOFS. The matrix engine's instances start (spec/07 R131 to R134, R140, R146 to R149, R152, R159). -/

namespace Sys2Proof.Machine

/-! ### Tiles and instances -/

theorem retiled_updTile {t : Team} {n : Nat} {x : Tile} (tile : t.tiles[n]? = some x) (f : Tile → Tile) :
    t.Retiled (t.updTile n f) n (f x) := by
  refine ⟨rfl, length_modAt n f t.tiles, ?_, fun j other => ?_⟩
  · rw [Team.updTile, getElem?_modAt, if_pos rfl, tile, Option.map_some]
  · rw [Team.updTile, getElem?_modAt, if_neg other]

theorem Team.Retiled.tile {t v : Team} {n : Nat} {y : Tile} (retiled : t.Retiled v n y) : v.tiles[n]? = some y := by
  obtain ⟨-, -, tile, -⟩ := retiled
  exact tile

theorem id_of_inst {k : Core} {inst : Nat} {i : Instance} (named : k.inst? inst = some i) : i.id = inst :=
  beq_iff_eq.mp (List.find?_some (p := fun i : Instance => i.id == inst) named)

theorem inst_updInst {k : Core} {inst : Nat} {i : Instance} (named : k.inst? inst = some i) {f : Instance → Instance}
    (keeps : ∀ x, (f x).id = x.id) : (k.updInst inst f).inst? inst = some (f i) := by
  rw [Core.updInst, Core.inst?, find_mapIf (fun x same => by rwa [keeps])]
  exact congrArg (Option.map f) named

/-- An update of the start queue leaves the instances as they were. -/
theorem inst_refreshStart (s : State) (d c n : Nat) : ((s.refreshStart d c).core d c).inst? n = (s.core d c).inst? n :=
  congrArg (List.find? _) (insts_refreshStart s d c)

/-- Of a core, an update of the start queue changes that queue alone. -/
theorem mloop_refreshStart (s : State) (d c : Nat) : ((s.refreshStart d c).core d c).mloop = (s.core d c).mloop := by
  rw [State.refreshStart, core_updCore_self]

/-- A sequencer that no saved MLOOP awaits stays free. -/
theorem nextSequence_idle {s : State} (single : ∀ p ∈ s.teams, p.2.macroSeq = none) (d c : Nat) : s.nextSequence d c = s.refreshStart d c := by
  have none_ : s.teams.find? (fun p => p.2.macroSeq.isSome && p.2.state.holds && p.2.die == d && p.2.core == c) = none :=
    List.find?_eq_none.mpr fun p listed => by simp [single p listed]
  rw [State.nextSequence, none_]
  cases (s.core d c).mloop <;> rfl

theorem Tbl.mem_alter {α : Type} {k : Nat} {f : α → α} {t : Tbl α} {p : Nat × α} (listed : p ∈ Tbl.alter k f t) :
    p ∈ t ∨ ∃ v, (p.1, v) ∈ t ∧ p.2 = f v := by
  induction t with
  | nil => cases listed
  | cons q t ih =>
    rw [Tbl.alter] at listed
    split at listed
    next =>
      rcases List.mem_cons.mp listed with rfl | later
      · exact .inr ⟨q.2, List.mem_cons_self, rfl⟩
      · exact .inl (List.mem_cons_of_mem _ later)
    next =>
      rcases List.mem_cons.mp listed with rfl | later
      · exact .inl List.mem_cons_self
      · rcases ih later with old | ⟨v, old, same⟩
        · exact .inl (List.mem_cons_of_mem _ old)
        · exact .inr ⟨v, List.mem_cons_of_mem _ old, same⟩

/-! ### Steps of the sequencer (R140) -/

section
variable {s : State} {d c : Nat} {i : Instance} {t : Team} {x : Tile} {ty : Ty} {up : MloopUp} {n ainc a0 : Nat} {ks : Word} (m : MacroSeq)

theorem loopStep_retiles (tile : t.tiles[i.tile]? = some x) :
    ∃ (y : Tile) (j : MatInput), t.Retiled (t.loopStep i.tile ty up m) i.tile y.countBlock ∧ y.ver = x.ver ∧ y.decl = x.decl
      ∧ ReadsA t ty (ty.perUnit * suppliers up.half) up.bm m.a0 (up.astr.toNat * 16) j
      ∧ ReadsB t ty up.scl (ty.perUnit * suppliers up.half) m.boff m.sa m.sb j ∧ x.After y ty up.scl up.ftz j := by
  let a := (bandRows up.bm).map (fun r => (r, t.rowA ty up.half none (m.a0 + r * up.astr.toNat * 16)))
  let j := t.matInput x ty up.scl (denseK ty up.half none) m.boff m.sa m.sb a
  have readsA : ReadsA t ty (ty.perUnit * suppliers up.half) up.bm m.a0 (up.astr.toNat * 16) j :=
    matInput_readsA t x ty up.scl up.half (denseK ty up.half none) m.boff m.sa m.sb up.bm m.a0 up.astr.toNat
  obtain ⟨after, decl, ver⟩ := block_after x ty up.scl up.ftz j (readsA.1 ▸ nodup_bandRows up.bm)
  refine ⟨x.block ty up.scl up.ftz j, j, ?_, ver, decl, readsA, matInput_reads t x ty up.scl _ m.boff m.sa m.sb a, after⟩
  rw [Team.loopStep, tile]
  exact retiled_updTile tile fun x => (x.block ty up.scl up.ftz j).countBlock

theorem macroSeq_loopStep (t : Team) (n : Nat) : (t.loopStep n ty up m).macroSeq = t.macroSeq := by
  rw [Team.loopStep]; split <;> rfl

/-- A K-step: the tile after it, and the sequencer at the next step or, after the last, free. -/
def State.stepAt (s : State) (d c : Nat) (i : Instance) (ty : Ty) (up : MloopUp) (ainc : Nat) (m : MacroSeq) : State :=
  (s.updTeam i.team (fun t => t.loopStep i.tile ty up m)).updCore d c (fun k => { k with mloop := m.next ty up ainc })

theorem runStep_eq_stepAt (op : i.op = .mloop ty up n ainc a0 ks) (last : 1 < m.left ∨ ∀ p ∈ s.teams, p.2.macroSeq = none) :
    s.runStep d c i m = s.stepAt d c i ty up ainc m ∨ s.runStep d c i m = (s.stepAt d c i ty up ainc m).refreshStart d c := by
  have ran : s.runStep d c i m
      = if m.left ≤ 1 then (s.stepAt d c i ty up ainc m).nextSequence d c else s.stepAt d c i ty up ainc m := by rw [State.runStep, op]; rfl
  rw [ran]
  split
  next final =>
    refine .inr (nextSequence_idle (fun p listed => ?_) d c)
    have single := last.resolve_left (Nat.not_lt.mpr final)
    obtain old | ⟨v, old, same⟩ := Tbl.mem_alter (t := s.teams) listed
    · exact single p old
    · rw [same, macroSeq_loopStep]
      exact single _ old
  next => exact .inl rfl

/-- What a state after a K-step holds. -/
structure Stepped (s u : State) (d c : Nat) (i : Instance) (t : Team) (next : Option MacroSeq) : Prop where
  team : u.team? i.team = some t
  others : ∀ j, j ≠ i.team → u.team? j = s.team? j
  mem : u.mem = s.mem
  warps : u.warps = s.warps
  mloop : (u.core d c).mloop = next
  insts : (u.core d c).insts = (s.core d c).insts

theorem Stepped.refresh {u : State} {next : Option MacroSeq} (stepped : Stepped s u d c i t next) :
    Stepped s (u.refreshStart d c) d c i t next where
  team := stepped.team
  others := stepped.others
  mem := stepped.mem
  warps := stepped.warps
  mloop := (mloop_refreshStart u d c).trans stepped.mloop
  insts := (insts_refreshStart u d c).trans stepped.insts

theorem runStep_steps (op : i.op = .mloop ty up n ainc a0 ks) (team : s.team? i.team = some t)
    (last : 1 < m.left ∨ ∀ p ∈ s.teams, p.2.macroSeq = none) :
    Stepped s (s.runStep d c i m) d c i (t.loopStep i.tile ty up m) (m.next ty up ainc) := by
  have core : (s.stepAt d c i ty up ainc m).core d c = { s.core d c with mloop := m.next ty up ainc } := core_updCore_self _ d c _
  have stepped : Stepped s (s.stepAt d c i ty up ainc m) d c i (t.loopStep i.tile ty up m) (m.next ty up ainc) := {
    team := (State.team_updTeam ..).trans (by rw [if_pos rfl, team, Option.map_some])
    others := fun j other => (State.team_updTeam ..).trans (if_neg other)
    mem := rfl
    warps := rfl
    mloop := by rw [core]
    insts := by rw [core] }
  rcases runStep_eq_stepAt m op last with ran | ran <;> rw [ran]
  · exact stepped
  · exact stepped.refresh

end
/-! ### Drains (R146, R147, R159) -/

theorem modAt_self {α : Type} {n : Nat} {l : List α} {x : α} {f : α → α} (at_ : l[n]? = some x) (same : f x = x) : modAt n f l = l := by
  refine List.ext_getElem? fun j => ?_
  rw [getElem?_modAt]
  split
  next here => rw [here, at_, Option.map_some, same]
  next => rfl

/-- One row of a drain of verdict words: the declaration and the local store after it, and the words so far. -/
def drainStep (x : Tile) (acc : Verdict × Memory × Tbl (List Nat)) (row : Nat) : Verdict × Memory × Tbl (List Nat) :=
  let q := acc.1.row acc.2.1 row ((List.range 16).map (fun j => (x.elem row j).truncate 32))
  (q.1, q.2.1, acc.2.2 ++ [(row, q.2.2)])

/-- A team after a drain of verdict words whose rows have left r, under a declaration with operation op. -/
def Team.drained (t : Team) (n : Nat) (op : VerdictOp) (r : Verdict × Memory × Tbl (List Nat)) : Team :=
  let v := if op = .topk then { r.1 with ib := r.1.ib + 16 } else r.1
  { t.updTile n (fun x => { x with decl := some v }) with loc := r.2.1 }

/-- Two declarations that differ in their running thresholds at most. -/
def Verdict.Reruns (v z : Verdict) : Prop := ∃ run, z = { v with run := run }

section
variable {t : Team} {n : Nat} {x : Tile} {v : Verdict} (ty : Ty) (rows : List Nat)

theorem drainWords_elements (tile : t.tiles[n]? = some x) : t.drainWords n ty false rows
    = (t, rows.map (fun row => (row, (List.range 16).map (fun j => (x.elem row j).toNat % 2 ^ ty.bits)))) := by
  rw [Team.drainWords, tile]

theorem drainWords_verdicts (tile : t.tiles[n]? = some x) (decl : x.decl = some v) :
    t.drainWords n ty true rows = (t.drained n v.op (rows.foldl (drainStep x) (v, t.loc, [])), (rows.foldl (drainStep x) (v, t.loc, [])).2.2) := by
  rw [Team.drainWords, tile]
  simp only [decl]
  rfl

/-- Where the declaration is no `.topk`, its words depend on the elements alone. -/
theorem drainRows_plain (other : v.op ≠ .topk) (m : Memory) (words : Tbl (List Nat)) : rows.foldl (drainStep x) (v, m, words)
    = (v, m, words ++ rows.map (fun row => (row, (List.range 16).map (fun j => v.wordOf ((x.elem row j).truncate 32))))) := by
  induction rows generalizing words with
  | nil => simp
  | cons row rows ih =>
    have step : drainStep x (v, m, words) row
        = (v, m, words ++ [(row, (List.range 16).map (fun j => v.wordOf ((x.elem row j).truncate 32)))]) := by
      simp only [drainStep, Verdict.row, other, if_false, List.map_map]
      rfl
    rw [List.foldl_cons, step, ih, List.append_assoc, List.map_cons, List.singleton_append]

theorem drainWords_plain (tile : t.tiles[n]? = some x) (decl : x.decl = some v) (other : v.op ≠ .topk) : t.drainWords n ty true rows
    = (t, rows.map (fun row => (row, (List.range 16).map (fun j => v.wordOf ((x.elem row j).truncate 32))))) := by
  have kept : t.updTile n (fun x => { x with decl := some v }) = t := by
    rw [Team.updTile, modAt_self tile (by rw [← decl])]
  rw [drainWords_verdicts ty rows tile decl, drainRows_plain rows other, Team.drained, if_neg other, kept]
  rfl

/-- A candidate changes of a declaration no more than its running thresholds (R158). -/
theorem insert_reruns {v z : Verdict} (reruns : v.Reruns z) (m : Memory) (row : Nat) (val idx : Word) : v.Reruns (z.insert m row val idx).1 := by
  obtain ⟨run, rfl⟩ := reruns
  rw [Verdict.insert]
  dsimp only
  split
  next => exact ⟨_, rfl⟩
  next => dsimp only; split <;> exact ⟨_, rfl⟩

theorem row_reruns {v z : Verdict} (reruns : v.Reruns z) (m : Memory) (row : Nat) (es : List Word) : v.Reruns (z.row m row es).1 := by
  rw [Verdict.row]
  split
  next =>
    refine List.foldlRecOn (motive := fun acc : Verdict × Memory × List Nat => v.Reruns acc.1) _ _ reruns fun acc reruns p _ => ?_
    dsimp only
    split
    next => exact reruns
    next => exact insert_reruns reruns ..
  next => exact reruns

theorem drainRows_reruns (m : Memory) : v.Reruns (rows.foldl (drainStep x) (v, m, [])).1 :=
  List.foldlRecOn (motive := fun acc : Verdict × Memory × Tbl (List Nat) => v.Reruns acc.1) _ _ ⟨v.run, rfl⟩
    fun _ reruns _ _ => row_reruns reruns ..

theorem drainRows_keys (acc : Verdict × Memory × Tbl (List Nat)) :
    ((rows.foldl (drainStep x) acc).2.2).map Prod.fst = acc.2.2.map Prod.fst ++ rows := by
  induction rows generalizing acc with
  | nil => simp
  | cons row rows ih => rw [List.foldl_cons, ih]; simp [drainStep]

end

end Sys2Proof.Machine

/-! PROOFS. INSTANCE_START and MLOOP_STEP_START (spec/07 R131 to R134, R140, R149). -/

namespace Sys2Proof.Machine

/-! ### INSTANCE_START (R133) -/

theorem bitsOf_word_high (v : Word) : bitsOf v.toNat 31 16 = v.toNat / 2 ^ 16 :=
  Nat.mod_eq_of_lt (Nat.div_lt_of_lt_mul v.isLt)

theorem mem_rows_iff {i : Instance} {op : DrainOp} {ty : Ty} {vd : Bool} {up : MdrnUp} {dest : XEnd} (is : i.op = .mdrn op ty vd up dest)
    (r : Nat) : r ∈ i.rows ↔ r ∈ if op = .reg then i.parts.map Participant.lane else bandRows up.bm := by
  rw [Instance.rows, is]
  cases op with
  | reg => exact (perm_sortBy _ _).mem_iff
  | st => rfl
  | add => rfl

/-- A state whose start queue has lost its first `Instance`. -/
def State.popStart (s : State) (d c : Nat) : State := s.updCore d c (fun k => { k with startq := k.startq.drop 1 })

/-- The core once its first startable `Instance` has left the start queue with its inputs. -/
def State.beginInstance (s : State) (d c inst : Nat) (j : MatInput) : State :=
  (s.popStart d c).updCore d c (fun k => k.updInst inst (fun i => { i with input := some j }))

/-- An `Instance` has started, and read its inputs. -/
structure Begun (s u : State) (d c inst : Nat) (i : Instance) (j : MatInput) : Prop where
  mem : u.mem = s.mem
  warps : u.warps = s.warps
  named : (u.core d c).inst? inst = some { i with input := some j }

section
variable {s : State} {d c inst : Nat} {rest : List Nat} {i : Instance} {t : Team} {x : Tile}

theorem begun_refresh {u : State} {j : MatInput} (begun : Begun s u d c inst i j) : Begun s (u.refreshStart d c) d c inst i j :=
  ⟨begun.mem, begun.warps, (inst_refreshStart u d c inst).trans begun.named⟩

theorem begun_beginInstance (named : (s.core d c).inst? inst = some i) (j : MatInput) : Begun s (s.beginInstance d c inst j) d c inst i j := by
  refine ⟨rfl, rfl, ?_⟩
  rw [State.beginInstance, State.popStart, core_updCore_self, core_updCore_self]
  exact inst_updInst named (f := fun i => { i with input := some j }) fun _ => rfl

theorem begun_updTeam (named : (s.core d c).inst? inst = some i) (j : MatInput) (n : Nat) (f : Team → Team) :
    Begun s ((s.beginInstance d c inst j).updTeam n f) d c inst i j :=
  have begun := begun_beginInstance named j
  ⟨begun.mem, begun.warps, begun.named⟩

theorem target_popStart (team : s.team? i.team = some t) (tile : t.tiles[i.tile]? = some x) :
    ((s.popStart d c).team? i.team).bind (fun t => (t.tiles[i.tile]?).map (fun x => (t, x))) = some (t, x) := by
  change (s.team? i.team).bind _ = _
  rw [team, Option.bind_some, tile]
  rfl

variable (named : (s.core d c).inst? inst = some i) (team : s.team? i.team = some t) (tile : t.tiles[i.tile]? = some x)
  (first : (s.core d c).startq = inst :: rest)
include named

include first in
theorem instanceStart_runs : exec (.instanceStart d c inst) s = .next (((s.popStart d c).startInstance d c i).refreshStart d c) := by
  change execInstanceStart d c inst s = _
  rw [execInstanceStart, first, List.head?_cons, named]
  exact if_pos rfl

include team tile

/-- An MMA or MSPA reads its inputs, and its block is counted. -/
theorem startInstance_mma {ty : Ty} {u : MmaUp} {pat : Option SparsePat} {a0 : Nat} {ks : Word} (op : i.op = .mma ty u pat a0 ks) :
    (s.popStart d c).startInstance d c i
      = (s.beginInstance d c inst (t.mmaInput x ty u pat a0 ks i.parts)).updTeam i.team (fun t => t.updTile i.tile Tile.countBlock) := by
  simp only [State.startInstance, target_popStart team tile, op, id_of_inst named]
  rfl

/-- An MLOOP takes the sequencer, and runs its first step. -/
theorem startInstance_mloop {ty : Ty} {u : MloopUp} {n ainc a0 : Nat} {ks : Word} (op : i.op = .mloop ty u n ainc a0 ks) :
    (s.popStart d c).startInstance d c i = (s.beginInstance d c inst .empty).runStep d c i
      ⟨inst, n, a0, u.boff.toNat * 32, ks.toNat % 2 ^ 16, ks.toNat / 2 ^ 16⟩ := by
  rw [← bitsOf_low, ← bitsOf_word_high]
  simp only [State.startInstance, target_popStart team tile, op, id_of_inst named]
  rfl

/-- A drain's rows leave the array, as the words that it delivers. -/
theorem startInstance_mdrn {op : DrainOp} {ty : Ty} {vd : Bool} {u : MdrnUp} {dest : XEnd} {v : Team} {words : Tbl (List Nat)}
    (is : i.op = .mdrn op ty vd u dest) (drains : t.drainWords i.tile ty vd i.rows = (v, words)) :
    (s.popStart d c).startInstance d c i = (s.beginInstance d c inst { MatInput.empty with words := words }).updTeam i.team (fun _ => v) := by
  simp only [State.startInstance, target_popStart team tile, is, id_of_inst named, drains]
  rfl

theorem startInstance_other (mma : ∀ ty u pat a0 ks, i.op ≠ .mma ty u pat a0 ks) (mloop : ∀ ty u n ainc a0 ks, i.op ≠ .mloop ty u n ainc a0 ks)
    (mdrn : ∀ op ty vd u dest, i.op ≠ .mdrn op ty vd u dest) : (s.popStart d c).startInstance d c i = s.beginInstance d c inst .empty := by
  simp only [State.startInstance, target_popStart team tile, id_of_inst named]
  cases is : i.op with
  | mma ty u pat a0 ks => exact (mma _ _ _ _ _ is).elim
  | mloop ty u n ainc a0 ks => exact (mloop _ _ _ _ _ _ is).elim
  | mdrn op ty vd u dest => exact (mdrn _ _ _ _ _ is).elim
  | mzro | vdset | vthr => rfl

/-! ### What a start leaves -/

omit tile

/-- An `Instance` that changes its team at its start leaves the others. -/
theorem start_updTeam (j : MatInput) (f : Team → Team) : let u := ((s.beginInstance d c inst j).updTeam i.team f).refreshStart d c
    Begun s u d c inst i j ∧ u.team? i.team = some (f t) ∧ ∀ n, n ≠ i.team → u.team? n = s.team? n :=
  ⟨begun_refresh (begun_updTeam named j i.team f), (State.team_updTeam s i.team i.team f).trans (by rw [if_pos rfl, team, Option.map_some]),
    fun n other => (State.team_updTeam s i.team n f).trans (if_neg other)⟩

end

/-- A started or continued MLOOP: its tile after the step, its sequencer, and nothing else of the teams. -/
theorem steps_of_stepped {s u : State} {d c : Nat} {i : Instance} {t : Team} {x : Tile} {ty : Ty} {up : MloopUp} {ainc : Nat} {m : MacroSeq}
    (tile : t.tiles[i.tile]? = some x) (stepped : Stepped s u d c i (t.loopStep i.tile ty up m) (m.next ty up ainc)) :
    let n := ty.perUnit * suppliers up.half
    (∃ (v : Team) (y : Tile) (j : MatInput), u.team? i.team = some v ∧ t.Retiled v i.tile y.countBlock ∧ y.ver = x.ver ∧ y.decl = x.decl
        ∧ ReadsA t ty n up.bm m.a0 (up.astr.toNat * 16) j ∧ ReadsB t ty up.scl n m.boff m.sa m.sb j ∧ x.After y ty up.scl up.ftz j)
      ∧ (1 < m.left → (u.core d c).mloop =
          some ⟨m.inst, m.left - 1, m.a0 + ainc * 16, m.boff + up.binc.toNat * 64, m.sa + 64 * (n / 32), m.sb + 16 * (n / 32)⟩)
      ∧ (m.left ≤ 1 → (u.core d c).mloop = none) ∧ (∀ j, j ≠ i.team → u.team? j = s.team? j) ∧ u.mem = s.mem ∧ u.warps = s.warps := by
  obtain ⟨y, j, retiled, ver, decl, readsA, readsB, after⟩ := loopStep_retiles m tile
  refine ⟨⟨_, y, j, stepped.team, retiled, ver, decl, readsA, readsB, after⟩, fun more => ?_, fun final => ?_, stepped.others,
    stepped.mem, stepped.warps⟩
  · exact stepped.mloop.trans (if_neg (Nat.not_le.mpr more))
  · exact stepped.mloop.trans (if_pos final)

theorem mloopStepStart_runs {s : State} {d c : Nat} {i : Instance} {t : Team} {m : MacroSeq} (seq : (s.core d c).mloop = some m)
    (named : (s.core d c).inst? m.inst = some i) (team : s.team? i.team = some t) (running : t.stopping = false) :
    exec (.mloopStepStart d c) s = .next (s.runStep d c i m) := by
  have idle : ((s.team? i.team).map Team.stopping).getD true = false := by rw [team, Option.map_some, Option.getD_some, running]
  change execMloopStepStart d c s = _
  simp only [execMloopStepStart, seq, named, idle, Bool.false_eq_true, if_false]

/-- What an MMA or MSPA reads: B and the scales; A of its bands, or of its participants' units. -/
theorem mmaInput_reads (t : Team) (x : Tile) (ty : Ty) (up : MmaUp) (pat : Option SparsePat) (a0 : Nat) (ks : Word) (parts : List Participant) :
    ReadsB t ty up.scl (denseK ty up.half pat) (up.boff.toNat * 32) (ks.toNat % 2 ^ 16) (ks.toNat / 2 ^ 16) (t.mmaInput x ty up pat a0 ks parts) := by
  rw [← bitsOf_low, ← bitsOf_word_high]
  exact matInput_reads ..

theorem mmaInput_local {up : MmaUp} (local_ : up.asrc = true) (t : Team) (x : Tile) (ty : Ty) (a0 : Nat) (ks : Word) (parts : List Participant) :
    ReadsA t ty (ty.perUnit * suppliers up.half) up.bm a0 (up.astr.toNat * 16) (t.mmaInput x ty up none a0 ks parts) := by
  rw [Team.mmaInput]
  simp only [local_, if_true]
  exact matInput_readsA ..

theorem mmaInput_units {up : MmaUp} {parts : List Participant} (units : up.asrc = false) (nodup : (parts.map Participant.lane).Nodup)
    {p : Participant} (listed : p ∈ parts) (t : Team) (x : Tile) (ty : Ty) (a0 : Nat) (ks : Word) :
    Tbl.get (t.mmaInput x ty up none a0 ks parts).a p.lane [] = p.rowA ty none := by
  simp only [Team.mmaInput, units, Bool.false_eq_true, if_false]
  exact rowA_sorted nodup listed ty

/-- One word of a drain: a verdict word of a declared tile, or an element. -/
def Tile.drainWord (x : Tile) (bits : Nat) (vd : Bool) (row col : Nat) : Nat :=
  if vd then (match x.decl with | some v => v.wordOf ((x.elem row col).truncate 32) | none => 0) else (x.elem row col).toNat % 2 ^ bits

theorem drainWords_unchanged {t : Team} {n : Nat} {x : Tile} (tile : t.tiles[n]? = some x) {vd : Bool}
    (plain : vd = true → ∃ v, x.decl = some v ∧ v.op ≠ .topk) (ty : Ty) (rows : List Nat) :
    t.drainWords n ty vd rows = (t, rows.map (fun row => (row, (List.range 16).map (x.drainWord ty.bits vd row)))) := by
  cases vd with
  | false => exact drainWords_elements ty rows tile
  | true =>
    obtain ⟨v, decl, other⟩ := plain rfl
    rw [drainWords_plain ty rows tile decl other]
    have words (row : Nat) : x.drainWord ty.bits true row = fun j => v.wordOf ((x.elem row j).truncate 32) :=
      funext fun j => by rw [Tile.drainWord, if_pos rfl, decl]
    simp only [words]

/-- A drain under `.topk` leaves the team with other k-sets, other running thresholds and the next index base. -/
theorem drained_topk {t : Team} {n : Nat} {x : Tile} {v : Verdict} (tile : t.tiles[n]? = some x) (topk : v.op = .topk) (rows : List Nat) :
    let y := t.drained n v.op (rows.foldl (drainStep x) (v, t.loc, []))
    ∃ z : Verdict, y = { t with tiles := y.tiles, loc := y.loc } ∧ y.tiles[n]? = some { x with decl := some z }
      ∧ z = { v with run := z.run, ib := v.ib + 16 } := by
  obtain ⟨run, reruns⟩ := drainRows_reruns (x := x) (v := v) rows t.loc
  refine ⟨{ v with run := run, ib := v.ib + 16 }, rfl, ?_, rfl⟩
  rw [Team.drained, if_pos topk, reruns]
  exact (retiled_updTile tile _).tile

/-- Settles O44: each kind of `Instance` starts by its own equation, and an MLOOP's steps are the sequencer's. -/
theorem matrixStarts : Obligations.MatrixStarts := by
  intro s die core inst rest i t x m k begun others counted single word stepped named team tile
  refine ⟨fun first => ?_, fun seq same running last ty up n ainc a0 ks op => ?_⟩
  · have runs := instanceStart_runs named first
    refine ⟨fun ty up pat a0 ks op => ?mma, fun ty up n ainc a0 ks op last => ?mloop, fun op ty vd up dest is => ⟨fun plain => ?plain, ?topk⟩,
      fun mma mloop mdrn => ?other⟩
    case mma =>
      rw [startInstance_mma named team tile op] at runs
      obtain ⟨⟨mem, warps, inst_⟩, own, rest_⟩ := start_updTeam named team (t.mmaInput x ty up pat a0 ks i.parts)
        (fun t => t.updTile i.tile Tile.countBlock)
      refine ⟨_, _, t.mmaInput x ty up pat a0 ks i.parts, runs, ⟨mem, warps, inst_⟩, rest_, own, retiled_updTile tile _, mmaInput_reads .., ?_, ?_⟩
      · rintro rfl local_
        exact mmaInput_local local_ ..
      · rintro rfl units nodup p listed full
        rw [mmaInput_units units nodup listed, rowA_units, full]
    case mloop =>
      rw [startInstance_mloop named team tile op] at runs
      obtain ⟨mem, warps, inst_⟩ := begun_beginInstance named (d := die) (c := core) .empty
      have ran := (runStep_steps (s := s.beginInstance die core inst .empty) (d := die) (c := core)
        ⟨inst, n, a0, up.boff.toNat * 32, ks.toNat % 2 ^ 16, ks.toNat / 2 ^ 16⟩ op team last).refresh
      exact ⟨_, runs, (congrArg (List.find? _) ran.insts).trans inst_, steps_of_stepped tile ran⟩
    case plain =>
      have drains := drainWords_unchanged tile plain ty i.rows
      rw [startInstance_mdrn named team tile is drains] at runs
      obtain ⟨⟨mem, warps, inst_⟩, own, rest_⟩ := start_updTeam named team
        { MatInput.empty with words := i.rows.map (fun row => (row, (List.range 16).map (x.drainWord ty.bits vd row))) } (fun _ => t)
      refine ⟨_, _, runs, ⟨mem, warps, inst_⟩, fun n => ?_, fun r => ?_, fun r listed => ?_⟩
      · by_cases same : n = i.team
        · rw [same, own, team]
        · exact rest_ n same
      · rw [map_fst_rows]
        exact mem_rows_iff is r
      · exact Tbl.get_rows _ ((mem_rows_iff is r).mpr listed) []
    case topk =>
      rintro rfl v decl topk
      have drains := drainWords_verdicts ty i.rows tile decl
      rw [startInstance_mdrn named team tile is drains] at runs
      obtain ⟨⟨mem, warps, inst_⟩, own, rest_⟩ := start_updTeam named team
        { MatInput.empty with words := (i.rows.foldl (drainStep x) (v, t.loc, [])).2.2 }
        (fun _ => t.drained i.tile v.op (i.rows.foldl (drainStep x) (v, t.loc, [])))
      obtain ⟨z, frame, declared, reruns⟩ := drained_topk tile topk i.rows
      refine ⟨_, _, _, z, runs, ⟨mem, warps, inst_⟩, rest_, own, frame, declared, reruns, fun r => ?_⟩
      rw [drainRows_keys]
      exact mem_rows_iff is r
    case other =>
      rw [startInstance_other named team tile mma mloop mdrn] at runs
      obtain ⟨mem, warps, inst_⟩ := begun_refresh (begun_beginInstance named .empty)
      exact ⟨_, runs, ⟨mem, warps, inst_⟩, rfl⟩
  · have runs := mloopStepStart_runs seq (same.symm ▸ named) team running
    subst same
    exact ⟨_, runs, steps_of_stepped tile (runStep_steps m op team last)⟩
end Sys2Proof.Machine

/-! PROOFS. INSTANCE_COMPLETE (spec/07 R133, R136, R138, R141, R146, R147, R151, R154, R159). -/

namespace Sys2Proof.Machine

/-! ### The end of an `Instance` -/

theorem retiled_refl {t : Team} {n : Nat} {x : Tile} (tile : t.tiles[n]? = some x) : t.Retiled t n x :=
  ⟨rfl, rfl, tile, fun _ _ => rfl⟩

theorem Team.Retiled.updTile {t v : Team} {n : Nat} {y : Tile} (retiled : t.Retiled v n y) (f : Tile → Tile) : t.Retiled (v.updTile n f) n (f y) := by
  obtain ⟨frame, length, tile, others⟩ := retiled
  obtain ⟨-, length', tile', others'⟩ := retiled_updTile tile f
  exact ⟨congrArg (fun u : Team => { u with tiles := (v.updTile n f).tiles }) frame, length'.trans length, tile',
    fun j other => (others' j other).trans (others j other)⟩

/-- What an `Instance` has done, its version aside: its core's instances stand, and of the teams its own alone has changed, to v. -/
structure Finished (s u : State) (d c : Nat) (i : Instance) (v : Team) : Prop where
  mem : u.mem = s.mem
  insts : (u.core d c).insts = (s.core d c).insts
  team : u.team? i.team = some v
  others : ∀ n, n ≠ i.team → u.team? n = s.team? n

/-- A state whose core has an `Instance` less. -/
def State.dropInst (s : State) (d c inst : Nat) : State :=
  (s.updCore d c (fun k => { k with insts := k.insts.filter (fun x => x.id != inst) })).refreshStart d c

/-- A state in which an `Instance`'s tile has its next version. -/
def State.advance (s : State) (i : Instance) : State := s.updTeam i.team (fun t => t.updTile i.tile (fun x => { x with ver := i.ver + 1 }))

section
variable {s u : State} {d c inst : Nat} {i : Instance} {t v : Team} {x : Tile} {inp : MatInput}

theorem finished_updTeam (team : s.team? i.team = some t) (f : Team → Team) : Finished s (s.updTeam i.team f) d c i (f t) where
  mem := rfl
  insts := rfl
  team := (State.team_updTeam ..).trans (by rw [if_pos rfl, team, Option.map_some])
  others n other := (State.team_updTeam ..).trans (if_neg other)

theorem Finished.updTeam (finished : Finished s u d c i v) (f : Team → Team) : Finished s (u.updTeam i.team f) d c i (f v) where
  mem := finished.mem
  insts := finished.insts
  team := (finished_updTeam (d := d) (c := c) finished.team f).team
  others n other := (State.team_updTeam ..).trans ((if_neg other).trans (finished.others n other))

/-- The `Instance` is gone, and its core has no other. -/
theorem insts_dropInst (s : State) (d c inst : Nat) :
    ((s.dropInst d c inst).core d c).insts = (s.core d c).insts.filter (fun z => z.id != inst) := by
  rw [State.dropInst, insts_refreshStart, core_updCore_self]

/-- A state in which an `Instance`'s tile has its next version, but for a VTHR, which names none. -/
def State.versioned (s : State) (i : Instance) : State :=
  match i.op with
  | .vthr _ _ => s
  | _ => s.advance i

theorem versioned_advances (other : ∀ row thr, i.op ≠ .vthr row thr) : u.versioned i = u.advance i := by
  rw [State.versioned]
  split
  next row thr is => exact absurd is (other row thr)
  next => rfl

/-- An `Instance` that has no step to come completes. -/
theorem instanceComplete_runs (named : (s.core d c).inst? inst = some i) (team : s.team? i.team = some t) (input : i.input = some inp)
    (free : ∀ m, (s.core d c).mloop = some m → m.inst ≠ inst) (saved : ∀ m, t.macroSeq = some m → m.inst ≠ inst) :
    exec (.instanceComplete d c inst) s = .next (((s.finishInstance d c i inp).versioned i).dropInst d c inst) := by
  have steps : ((s.core d c).mloop.any (fun m => m.inst == inst) || ((s.team? i.team).bind Team.macroSeq).any (fun m => m.inst == inst)) = false := by
    rw [team, Option.bind_some, Bool.or_eq_false_iff, Option.any_eq_false, Option.any_eq_false]
    exact ⟨fun m has => by simp [free m has], fun m has => by simp [saved m has]⟩
  change execInstanceComplete d c inst s = _
  simp only [execInstanceComplete, named, input, steps, Bool.false_eq_true, if_false]
  rfl

/-- What the completion of an `Instance` leaves. -/
structure Completed (s u : State) (d c inst : Nat) (i : Instance) (v : Team) : Prop where
  runs : exec (.instanceComplete d c inst) s = .next u
  mem : u.mem = s.mem
  insts : (u.core d c).insts = (s.core d c).insts.filter (fun z => z.id != inst)
  others : ∀ n, n ≠ i.team → u.team? n = s.team? n
  team : u.team? i.team = some v

theorem completed_of_finished (finished : Finished s u d c i v) (runs : exec (.instanceComplete d c inst) s = .next (u.dropInst d c inst)) :
    Completed s (u.dropInst d c inst) d c inst i v :=
  ⟨runs, finished.mem, (insts_dropInst u d c inst).trans (congrArg _ finished.insts), finished.others, finished.team⟩

/-- Every `Instance` but a VTHR's ends with its tile's next version. -/
theorem completes_of_finished (finished : Finished s u d c i v) (finish : s.finishInstance d c i inp = u)
    (other : ∀ row thr, i.op ≠ .vthr row thr)
    (runs : exec (.instanceComplete d c inst) s = .next (((s.finishInstance d c i inp).versioned i).dropInst d c inst)) :
    Completed s ((u.advance i).dropInst d c inst) d c inst i (v.updTile i.tile (fun x => { x with ver := i.ver + 1 })) := by
  rw [finish, versioned_advances other] at runs
  exact completed_of_finished (finished.updTeam _) runs

/-- Where an `Instance` does no more than change its tile. -/
theorem completes_updTile {f : Tile → Tile} (team : s.team? i.team = some t) (tile : t.tiles[i.tile]? = some x)
    (finish : s.finishInstance d c i inp = s.updTeam i.team (fun t => t.updTile i.tile f)) (other : ∀ row thr, i.op ≠ .vthr row thr)
    (runs : exec (.instanceComplete d c inst) s = .next (((s.finishInstance d c i inp).versioned i).dropInst d c inst)) :
    ∃ u v, Completed s u d c inst i v ∧ u.warps = s.warps ∧ t.Retiled v i.tile { f x with ver := i.ver + 1 } :=
  ⟨_, _, completes_of_finished (finished_updTeam team _) finish other runs, rfl, (retiled_updTile tile f).updTile _⟩

end

/-! ### The k-sets of a new declaration (R151, R158) -/

/-- A memory with the same bytes written to n places, 512 bytes apart. -/
def Memory.writeRows (m : Memory) (at_ : Nat) (bs : List Byte) (n : Nat) : Memory := (List.range n).foldl (fun m r => m.write (at_ + 512 * r) bs) m

section
variable (m : Memory) (at_ : Nat) (bs : List Byte)

theorem writeRows_succ (n : Nat) : m.writeRows at_ bs (n + 1) = (m.writeRows at_ bs n).write (at_ + 512 * n) bs := by
  rw [Memory.writeRows, List.range_succ, List.foldl_append]
  rfl

theorem byte_writeRows_other {a : Nat} (n : Nat) (apart : ∀ r < n, ¬ (at_ + 512 * r ≤ a ∧ a < at_ + 512 * r + bs.length)) :
    (m.writeRows at_ bs n).byte a = m.byte a := by
  induction n with
  | zero => rfl
  | succ n ih => rw [writeRows_succ, Memory.byte_write, if_neg (apart n n.lt_succ_self), ih fun r below => apart r (Nat.lt_succ_of_lt below)]

theorem byte_writeRows (fits : bs.length ≤ 512) {n r j : Nat} (row : r < n) (inside : j < bs.length) :
    (m.writeRows at_ bs n).byte (at_ + 512 * r + j) = bs.getD j 0#8 := by
  induction n with
  | zero => omega
  | succ n ih =>
    rw [writeRows_succ, Memory.byte_write]
    by_cases last : r = n
    · subst r
      rw [if_pos (by omega), Nat.add_sub_cancel_left]
    · rw [if_neg (by omega), ih (by omega)]

end

/-- Element i of copy e of a string. -/
theorem getD_copies {α : Type} (l : List α) {k e i : Nat} (copy : e < k) (inside : i < l.length) (d : α) :
    (List.replicate k l).flatten.getD (l.length * e + i) d = l.getD i d := by
  induction k generalizing e with
  | zero => omega
  | succ k ih =>
    rw [List.replicate_succ, List.flatten_cons]
    cases e with
    | zero => rw [Nat.mul_zero, Nat.zero_add, List.getD_append _ _ _ _ inside]
    | succ e =>
      rw [Nat.mul_succ, List.getD_append_right _ _ _ _ (by omega), ← ih (e := e) (by omega)]
      congr 1
      omega

/-- The bytes of the surplus entry. -/
def surplusBytes : List Byte := natLe 4 surplus.1.toNat ++ natLe 4 surplus.2.toNat

/-- Every row's k-set as a VDSET leaves it. -/
def Verdict.emptied (v : Verdict) (m : Memory) : Memory := (List.range 64).foldl (fun m r => writeKset m (v.setAt r) (List.replicate v.k surplus)) m

section
variable (v : Verdict) (m : Memory)

theorem emptied_eq_writeRows : v.emptied m = m.writeRows (v.kset * 16) (List.replicate v.k surplusBytes).flatten 64 := by
  simp only [Verdict.emptied, Memory.writeRows, writeKset, Verdict.setAt, List.flatMap_replicate]
  rfl

theorem length_copies (k : Nat) : (List.replicate k surplusBytes).flatten.length = 8 * k := by
  rw [List.length_flatten, List.map_replicate, List.sum_replicate_nat]
  exact Nat.mul_comm ..

theorem byte_emptied_other {a : Nat} (apart : ∀ r < 64, ¬ (v.kset * 16 + 512 * r ≤ a ∧ a < v.kset * 16 + 512 * r + 8 * v.k)) :
    (v.emptied m).byte a = m.byte a := by
  rw [emptied_eq_writeRows]
  exact byte_writeRows_other _ _ _ _ (by rwa [length_copies])

theorem byte_emptied (few : v.k ≤ 64) {r e i : Nat} (row : r < 64) (entry : e < v.k) (inside : i < 8) :
    (v.emptied m).byte (v.kset * 16 + 512 * r + 8 * e + i) = surplusBytes.getD i 0#8 := by
  have length := length_copies v.k
  rw [emptied_eq_writeRows, Nat.add_assoc _ (8 * e), byte_writeRows _ _ _ (by omega) row (by omega)]
  exact getD_copies surplusBytes entry inside 0#8

/-- Every entry of every k-set is surplus. -/
theorem read_emptied (few : v.k ≤ 64) {r e : Nat} (row : r < 64) (entry : e < v.k) :
    leNat ((v.emptied m).read (v.kset * 16 + 512 * r + 8 * e) 4) = 0xFF800000
      ∧ leNat ((v.emptied m).read (v.kset * 16 + 512 * r + 8 * e + 4) 4) = 0xFFFFFFFF := by
  have at_ (n : Nat) (low : n + 4 ≤ 8) : (v.emptied m).read (v.kset * 16 + 512 * r + 8 * e + n) 4
      = (List.range 4).map (fun i => surplusBytes.getD (n + i) 0#8) := by
    refine List.map_congr_left fun i inside => ?_
    have inside := List.mem_range.mp inside
    rw [Nat.add_assoc _ n, byte_emptied v m few row entry (by omega)]
  exact ⟨(congrArg leNat (at_ 0 (by decide))).trans (by decide), (congrArg leNat (at_ 4 (by decide))).trans (by decide)⟩

end

/-- A team whose tile has a new declaration, and the k-sets of that declaration empty. -/
def Team.emptied (t : Team) (n : Nat) (v : Verdict) : Team := { t.updTile n (fun x => { x with decl := some v }) with loc := v.emptied t.loc }

theorem finish_vdset_topk {s : State} {d c : Nat} {i : Instance} {inp : MatInput} {thr : Word} {bo : Nat} {up : VdsetUp}
    (is : i.op = .vdset .topk thr bo up) :
    s.finishInstance d c i inp = s.updTeam i.team (fun t => t.emptied i.tile (vdsetDecl .topk thr bo up)) := by
  rw [State.finishInstance, is]
  simp only [if_true, Team.emptied, Verdict.emptied]
  rfl

theorem loc_emptied (t : Team) (n : Nat) (v : Verdict) (f : Tile → Tile) : ((t.emptied n v).updTile n f).loc = v.emptied t.loc := by
  rw [Team.updTile, Team.emptied]

theorem tile_emptied {t : Team} {n : Nat} {x : Tile} (tile : t.tiles[n]? = some x) (v : Verdict) (f : Tile → Tile) :
    ((t.emptied n v).updTile n f).tiles[n]? = some (f { x with decl := some v }) := by
  have retiled := (retiled_updTile tile (fun x => { x with decl := some v })).updTile f
  rw [Team.updTile, Team.emptied]
  exact retiled.tile

/-- A VDSET under `.topk` ends with its tile declared and its k-sets empty. -/
theorem completes_vdset_topk {s : State} {d c inst : Nat} {i : Instance} {t : Team} {x : Tile} {inp : MatInput} {thr : Word} {bo : Nat}
    {up : VdsetUp} (is : i.op = .vdset .topk thr bo up) (team : s.team? i.team = some t) (tile : t.tiles[i.tile]? = some x)
    (runs : exec (.instanceComplete d c inst) s = .next (((s.finishInstance d c i inp).versioned i).dropInst d c inst)) :
    ∃ u z, Completed s u d c inst i z ∧ u.warps = s.warps
      ∧ z.tiles[i.tile]? = some { x with decl := some (vdsetDecl .topk thr bo up), ver := i.ver + 1#16 }
      ∧ z.loc = (vdsetDecl .topk thr bo up).emptied t.loc := by
  have ended := completes_of_finished (finished_updTeam team (fun t => t.emptied i.tile (vdsetDecl .topk thr bo up)))
    (finish_vdset_topk is) (by simp [is]) runs
  exact ⟨_, _, ended, rfl, tile_emptied tile _ _, loc_emptied ..⟩

/-! ### Drains to registers (R146) -/

/-- What digits written slice by slice leave of the other slices: all of a byte that was valid, and every byte that they do not touch. -/
theorem raw_layDigits_other (th : Thread) (s n v : Nat) (fits : s + n ≤ 512) {q : Nat} (outside : inSlices s n q = false)
    (valid : 0 < n → q / 2 = s / 2 ∨ q / 2 = (s + n - 1) / 2 → th.valid.getLsbD (q / 2) = true) :
    (th.layDigits s n v).raw q 1 = th.raw q 1 := by
  simp only [inSlices, Bool.and_eq_false_iff, decide_eq_false_iff_not] at outside
  induction n with
  | zero => rfl
  | succ n ih =>
    have last : (th.layDigits s n v).halfOf (s + n) 1 q = false := by
      rw [Thread.halfOf, layDigits_valid, BitVec.getLsbD_or]
      by_cases touched : q / 2 = (s + n) / 2
      · rw [valid n.succ_pos (.inr touched), Bool.true_or, Bool.not_true, Bool.and_false]
      · simp [touched]
    rw [layDigits_succ, raw_plain _ _ _ _ _ Nat.one_pos (by omega), if_neg (by omega), last, if_neg (by simp)]
    exact ih (by omega) (fun some_ touched => valid n.succ_pos (by omega)) (by omega)

/-- A warp whose guarded threads have gathered a tile's flags. -/
def Warp.flagged (w : Warp) (mask : BitVec 32) (fl : Flags) : Warp :=
  { w with threads := (w.threads.zipIdx).map (fun q => if mask.getLsbD q.2 then { q.1 with fstat := q.1.fstat ||| fl.zeroExtend 32 } else q.1) }

/-- What a thread receives of its row. -/
def Participant.receives (p : Participant) (inst n : Nat) (words : Tbl (List Nat)) (j : Nat) (th : Thread) : Thread :=
  if th.exited then th else th.land inst (p.starts.getD j 0) n ((Tbl.get words p.lane []).getD j 0) false

/-- The threads of a participant that receive an element. -/
def Participant.receivers (p : Participant) : List Nat := (maskThreads p.mask).filter (· < 16)

/-- A participant's warp after a drain to registers. -/
def Warp.drained (w : Warp) (p : Participant) (fl : Flags) (inst n : Nat) (words : Tbl (List Nat)) : Warp :=
  (w.flagged p.mask fl).updEach id (p.receives inst n words) p.receivers

section
variable (w : Warp) (p : Participant) (fl : Flags) (inst n : Nat) (words : Tbl (List Nat))

theorem mem_receivers {j : Nat} : j ∈ p.receivers ↔ p.mask.getLsbD j = true ∧ j < 16 := by
  simp only [Participant.receivers, maskThreads, List.mem_filter, List.mem_range, decide_eq_true_eq]
  constructor
  · rintro ⟨⟨-, guarded⟩, low⟩
    exact ⟨guarded, low⟩
  · rintro ⟨guarded, low⟩
    exact ⟨⟨by omega, guarded⟩, low⟩

/-- Nothing of the warp changes but its threads. -/
theorem drained_frame : { w.drained p fl inst n words with threads := w.threads } = w :=
  congrArg (fun u : Warp => { u with threads := w.threads }) (updEach_frame id (p.receives inst n words) (w.flagged p.mask fl) p.receivers).2

theorem entries_drained : (w.drained p fl inst n words).entries = w.entries := updEach_entries ..

theorem thread_drained (j : Nat) : (w.drained p fl inst n words).thread j = if j ∈ p.receivers ∧ j < w.threads.length
    then p.receives inst n words j ((w.flagged p.mask fl).thread j) else (w.flagged p.mask fl).thread j := by
  have distinct : p.receivers.Nodup := (List.nodup_range.filter _).filter _
  have length : (w.flagged p.mask fl).threads.length = w.threads.length := by simp [Warp.flagged]
  rw [Warp.drained, thread_updEach_nat _ distinct, length]

theorem thread_flagged (mask : BitVec 32) {j : Nat} (there : j < w.threads.length) : (w.flagged mask fl).thread j
    = if mask.getLsbD j then { w.thread j with fstat := (w.thread j).fstat ||| fl.zeroExtend 32 } else w.thread j := by
  rw [Warp.flagged, thread_map, if_pos there]

/-- A thread that the drain does not guard keeps all it has. -/
theorem thread_drained_unguarded {j : Nat} (idle : p.mask.getLsbD j = false) : (w.drained p fl inst n words).thread j = w.thread j := by
  rw [thread_drained, if_neg (by simp [mem_receivers, idle])]
  by_cases there : j < w.threads.length
  · rw [thread_flagged w fl p.mask there, idle]
    rfl
  · rw [Warp.flagged, thread_map, if_neg there]

/-- Every guarded thread gathers the flags. -/
theorem fstat_drained {j : Nat} (guarded : p.mask.getLsbD j = true) (there : j < w.threads.length) :
    ((w.drained p fl inst n words).thread j).fstat = (w.thread j).fstat ||| fl.zeroExtend 32 := by
  have keeps (th : Thread) : (p.receives inst n words j th).fstat = th.fstat := by
    rw [Participant.receives]
    split
    · rfl
    · exact (land_other ..).2
  rw [thread_drained, apply_ite Thread.fstat, keeps, ite_self, thread_flagged w fl p.mask there, if_pos guarded]

/-- An element lands in a thread whose one write it is: its digits, the halves of their bytes, and no window. -/
theorem thread_drained_lands {j : Nat} {b : Window} (guarded : p.mask.getLsbD j = true) (there : j < w.threads.length) (low : j < 16)
    (lives : (w.thread j).exited = false) (wins : (w.thread j).wins = [b]) (mine : b.op = inst) (pending : b.landed = false) (last : b.left = 0)
    (todo : b.todo = sliceMask (p.starts.getD j 0) n) (fits : p.starts.getD j 0 + n ≤ 512) :
    ∃ (th : Thread) (tags : BitVec 16), (w.drained p fl inst n words).thread j
        = { th.layDigits (p.starts.getD j 0) n ((Tbl.get words p.lane []).getD j 0) with tags := tags, wins := [] }
      ∧ th.regs = (w.thread j).regs ∧ th.valid = (w.thread j).valid := by
  obtain ⟨tags, lands⟩ := land_eq (th := { w.thread j with fstat := (w.thread j).fstat ||| fl.zeroExtend 32 }) (w := b) wins mine pending todo fits
    ((Tbl.get words p.lane []).getD j 0) false
  refine ⟨{ w.thread j with fstat := (w.thread j).fstat ||| fl.zeroExtend 32 }, tags, ?_, rfl, rfl⟩
  rw [thread_drained, if_pos ⟨(mem_receivers p).mpr ⟨guarded, low⟩, there⟩, thread_flagged w fl p.mask there, if_pos guarded, Participant.receives,
    if_neg (by simp [lives]), lands, List.filter_cons_of_neg (by simp [last])]
  rfl

end

/-! ### The machine after a drain (R146, R147) -/

/-- A state in which one participant's warp and its tile's flags have changed by a drain. -/
def State.drainedInto (s : State) (i : Instance) (p : Participant) (f : Warp → Warp) : State :=
  (s.updWarp i.team p.warp f).updTeam i.team (fun t => t.updTile i.tile (fun x => { x with flags := 0#5 }))

/-- The place of a row in memory or in local store. -/
def XEnd.row (e : XEnd) (up : MdrnUp) (r : Nat) : XEnd :=
  match e with
  | .mem va => .mem (va + r * up.rstr.toNat * 16)
  | .loc tm o => .loc tm (o + r * up.rstr.toNat * 16)
  | e => e

/-- The transfer of a drain, a slice for each row. -/
def State.drainXfer (s : State) (d c : Nat) (i : Instance) (t : Team) (p : Participant) (ty : Ty) (op : DrainOp) (e : Nat → XEnd)
    (words : Tbl (List Nat)) : Xfer :=
  let l := Tbl.get s.launches t.launch Launch.none
  ⟨s.nextId, if op = .add then .drainAdd ty else .drainSt, some i.team, [p.warp], t.launch, d, c, l.asid, l.secure,
    i.point.map (fun n => (i.team, n)), none, none,
    words.map (fun r => ⟨p.warp, .data (r.2.flatMap (natLe (ty.bits / 8))), e r.1, 16 * (ty.bits / 8), i.id, [], []⟩), false⟩

theorem finished_drainedInto {s : State} {d c : Nat} {i : Instance} {t : Team} (team : s.team? i.team = some t) (p : Participant) (f : Warp → Warp) :
    Finished s (s.drainedInto i p f) d c i (t.updTile i.tile (fun x => { x with flags := 0#5 })) :=
  have teams := finished_updTeam (d := d) (c := c) team (fun t => t.updTile i.tile (fun x => { x with flags := 0#5 }))
  ⟨teams.mem, teams.insts, teams.team, teams.others⟩

/-- A transfer that starts is nothing to the instances and the teams. -/
theorem Finished.withXfers {s u : State} {d c : Nat} {i : Instance} {v : Team} (finished : Finished s u d c i v) (n : Nat) (l : List Xfer) :
    Finished s { u with nextId := n, xfers := l } d c i v :=
  ⟨finished.mem, finished.insts, finished.team, finished.others⟩

section
variable {s : State} {d c : Nat} {i : Instance} {t : Team} {x : Tile} {inp : MatInput} {p : Participant} {w : Warp} {op : DrainOp} {ty : Ty}
  {vd : Bool} {up : MdrnUp} {dest : XEnd}
variable (team : s.team? i.team = some t) (tile : t.tiles[i.tile]? = some x) (parts : i.parts = [p])
include team tile parts

theorem drainFlags_one : s.drainFlags i = s.drainedInto i p (fun w => w.flagged p.mask x.flags) := by
  rw [State.drainFlags, team, Option.bind_some, tile, parts]
  rfl

theorem finish_reg (is : i.op = .mdrn .reg ty vd up dest) (warp : s.warp? i.team p.warp = some w) (untrapped : w.untrapped) :
    s.finishInstance d c i inp = s.drainedInto i p (fun w => w.drained p x.flags i.id (ty.bits / 4) inp.words) := by
  have here : (s.drainedInto i p (fun w => w.drained p x.flags i.id (ty.bits / 4) inp.words)).warp? i.team p.warp
      = some (w.drained p x.flags i.id (ty.bits / 4) inp.words) := warp_updWarp_self warp _
  have lands : s.finishInstance d c i inp
      = ((s.drainedInto i p (fun w => w.flagged p.mask x.flags)).updWarp i.team p.warp (fun w =>
          w.updEach id (p.receives i.id (ty.bits / 4) inp.words) p.receivers)).settleTraps i.team p.warp := by
    simp only [State.finishInstance, is, drainFlags_one team tile parts, State.drainRegs, parts]
    rfl
  have both : (s.drainedInto i p (fun w => w.flagged p.mask x.flags)).updWarp i.team p.warp (fun w =>
        w.updEach id (p.receives i.id (ty.bits / 4) inp.words) p.receivers)
      = s.drainedInto i p (fun w => w.drained p x.flags i.id (ty.bits / 4) inp.words) :=
    congrArg (fun v : State => v.updTeam i.team (fun t => t.updTile i.tile (fun x => { x with flags := 0#5 })))
      (updWarp_updWarp s i.team p.warp (fun w => w.flagged p.mask x.flags) _)
  rw [lands, both]
  refine settleTraps_untrapped fun v found => ?_
  rw [here] at found
  obtain rfl := Option.some.inj found
  intro e listed
  rw [entries_drained] at listed
  exact untrapped e listed

theorem finish_out (is : i.op = .mdrn op ty vd up dest) (out : op ≠ .reg) : s.finishInstance d c i inp
    = { s.drainedInto i p (fun w => w.flagged p.mask x.flags) with
        nextId := s.nextId + 1
        xfers := s.xfers ++ [s.drainXfer d c i t p ty op (dest.row up) inp.words] } := by
  have own : (s.drainedInto i p (fun w => w.flagged p.mask x.flags)).team? i.team = some (t.updTile i.tile (fun x => { x with flags := 0#5 })) :=
    (finished_updTeam (d := d) (c := c) team _).team
  cases op with
  | reg => exact absurd rfl out
  | st | add =>
    simp only [State.finishInstance, is, drainFlags_one team tile parts, State.drainOut, own, parts, List.head?_cons]
    rfl

end

/-! ### O45 -/

/-- Settles O45: each kind of `Instance` has done its work in `finishInstance`; the version and the core's list follow for all of them. -/
theorem matrixCompletes : Obligations.MatrixCompletes := by
  intro s die core inst i t x inp p w b j k done ends word th start l named team tile input free saved
  have runs := instanceComplete_runs named team input free saved
  refine ⟨fun ty up pat a0 ks op nodup => ?mma, fun ty up n ainc a0 ks op => ?mloop, fun ty op => ?mzro, fun op thr bo up is => ?vdset,
    fun row thr d op decl => ?vthr, fun op ty vd up dest is parts warp _ _ => ?mdrn⟩
  case mma =>
    have finish : s.finishInstance die core i inp = s.updTeam i.team (fun t => t.updTile i.tile (fun x => x.block ty up.scl up.ftz inp)) := by
      rw [State.finishInstance, op]
    obtain ⟨u, v, ⟨ran, mem, insts, others, own⟩, warps, retiled⟩ := completes_updTile team tile finish (by simp [op]) runs
    obtain ⟨after, decl, -⟩ := block_after x ty up.scl up.ftz inp nodup
    refine ⟨u, _, ⟨ran, mem, insts, others⟩, ⟨v, own, retiled⟩, warps, after, decl, fun plain integer tag row listed col small => ?_⟩
    have ⟨_, elem, _⟩ := after
    rw [elem row col small, if_pos listed, plain]
    exact elemAfter_integer integer tag ..
  case mloop =>
    have finish : s.finishInstance die core i inp = s := by rw [State.finishInstance, op]
    obtain ⟨ran, mem, insts, others, own⟩ := completes_of_finished ⟨rfl, rfl, team, fun _ _ => rfl⟩ finish (by simp [op]) runs
    exact ⟨_, ⟨ran, mem, insts, others⟩, ⟨_, own, (retiled_refl tile).updTile _⟩, rfl⟩
  case mzro =>
    obtain ⟨u, v, ⟨ran, mem, insts, others, own⟩, warps, retiled⟩ :=
      completes_updTile team tile (by rw [State.finishInstance, op]) (by simp [op]) runs
    exact ⟨u, ⟨ran, mem, insts, others⟩, warps, v, own, retiled⟩
  case vdset =>
    refine ⟨fun other => ?_, fun topk few => ?_⟩
    · have finish : s.finishInstance die core i inp
          = s.updTeam i.team (fun t => t.updTile i.tile (fun x => { x with decl := some (vdsetDecl op thr bo up) })) := by
        simp only [State.finishInstance, is, other, if_false]
      obtain ⟨u, v, ⟨ran, mem, insts, others, own⟩, warps, retiled⟩ := completes_updTile team tile finish (by simp [is]) runs
      exact ⟨u, ⟨ran, mem, insts, others⟩, warps, v, own, retiled⟩
    · subst topk
      obtain ⟨u, z, ⟨ran, mem, insts, others, own⟩, warps, declared, loc⟩ := completes_vdset_topk is team tile runs
      refine ⟨u, z, ⟨ran, mem, insts, others⟩, warps, own, declared, fun r row e entry => ?_, fun a apart => ?_⟩
      · rw [loc]
        exact read_emptied (vdsetDecl .topk thr bo up) t.loc few row entry
      · rw [loc]
        exact byte_emptied_other (vdsetDecl .topk thr bo up) t.loc apart
  case vthr =>
    have finish : s.finishInstance die core i inp = s.updTeam i.team (fun t => t.updTile i.tile (fun x => x.raise row thr)) := by
      rw [State.finishInstance, op]
    rw [finish, State.versioned, op] at runs
    obtain ⟨ran, mem, insts, others, own⟩ := completed_of_finished (finished_updTeam team _) runs
    refine ⟨_, _, Tbl.put row thr d.ts, ⟨ran, mem, insts, others⟩, rfl, own, ?_, fun n z => Tbl.get_put ..⟩
    have retiled := retiled_updTile tile (fun x => x.raise row thr)
    rw [Tile.raise, decl] at retiled
    exact retiled
  case mdrn =>
    have named_ := id_of_inst named
    have retiled := (retiled_updTile tile (fun x => { x with flags := 0#5 })).updTile (fun x => { x with ver := i.ver + 1 })
    refine ⟨fun reg whole untrapped => ?_, fun out e target => ?_⟩
    · subst reg
      have finish := finish_reg (d := die) (c := core) (inp := inp) team tile parts is warp untrapped
      obtain ⟨ran, mem, insts, others, own⟩ := completes_of_finished (finished_drainedInto team p _) finish (by simp [is]) runs
      refine ⟨_, w.drained p x.flags i.id (ty.bits / 4) inp.words, ⟨ran, mem, insts, others⟩, ⟨_, own, retiled⟩, warp_updWarp_self warp _,
        drained_frame .., fun idle => thread_drained_unguarded w p x.flags _ _ _ idle,
        fun guarded there => fstat_drained w p x.flags _ _ _ guarded there, fun guarded there low lives wins mine pending last todo some_ fits => ?_⟩
      obtain ⟨a, tags, lands, regs, valid⟩ := thread_drained_lands w p x.flags i.id (ty.bits / 4) inp.words guarded there low lives wins
        (mine.trans named_.symm) pending last todo fits
      rw [lands]
      refine ⟨fun q small => raw_layDigits a _ _ _ fits small, fun q _ outside whole => ?_, ?_, rfl⟩
      · refine (raw_layDigits_other a _ _ _ fits outside fun _ touched => ?_).trans ?_
        · simp only [Thread.halfOf, Bool.and_eq_false_iff, Bool.or_eq_false_iff, beq_eq_false_iff_ne, Bool.not_eq_false'] at whole
          rw [valid]
          exact whole.resolve_left fun apart => touched.elim apart.1 apart.2
        · rw [raw_one, raw_one, regs]
      · rw [layDigits_valid, valid]
    · have finish := finish_out (d := die) (c := core) (inp := inp) team tile parts is out
      obtain ⟨ran, mem, insts, others, own⟩ := completes_of_finished ((finished_drainedInto team p _).withXfers _ _) finish (by simp [is]) runs
      refine ⟨_, ⟨ran, mem, insts, others⟩, ⟨_, own, retiled⟩, ?_⟩
      rw [← named_]
      rcases target with ⟨va, rfl, rfl⟩ | ⟨tm, o, rfl, rfl⟩
      · rfl
      · rfl

end Sys2Proof.Machine

/-! PROOFS. VDOT (spec/08): each element's exact product and c in one sum, rounded once. -/

namespace Sys2Proof.Machine

/-- What VDOT leaves in a thread, by its sources' 32 bits and the value of c: a verdict passes (R161, R386). -/
def dotEff (t : Ty) (mode : RMode) (flush : Bool) (a b z : Nat) : Eff :=
  if isAbandoned z then .ofVal z else ⟨some (vdotValue t mode flush a b z).1, none, (vdotValue t mode flush a b z).2⟩

/-- Element i of a source, flushed on input. -/
def dotElem (t : Ty) (f : Fmt) (flush : Bool) (v i : Nat) : Nat := f.flushIn flush (v / 2 ^ (t.ebits * i) % 2 ^ t.ebits)

/-- The terms of the sum: c, then each element's exact product. -/
def dotTerms (t : Ty) (f : Fmt) (flush : Bool) (a b z : Nat) : List FVal :=
  Fmt.f32.val (Fmt.f32.flushIn flush z)
    :: (List.range t.elems).map (fun i => ((f.val (dotElem t f flush a i)).mul (f.val (dotElem t f flush b i))).1)

/-- One rounding, of the exact sum. -/
theorem vdotValue_fst {t : Ty} {f : Fmt} (fmt : t.fmt = some f) (mode : RMode) (flush : Bool) (a b z : Nat) :
    (vdotValue t mode flush a b z).1 = (Fmt.f32.ofVal mode flush (exactSum mode (dotTerms t f flush a b z)).1).1 := by
  have products : ((((t.split a).map (f.flushIn flush)).zip ((t.split b).map (f.flushIn flush))).map
        (fun p => (f.val p.1).mul (f.val p.2))).map Prod.fst
      = (List.range t.elems).map (fun i => ((f.val (dotElem t f flush a i)).mul (f.val (dotElem t f flush b i))).1) := by
    simp only [Ty.split, List.map_map, List.zip_map', Function.comp_def, dotElem]
  rw [dotTerms, ← products, vdotValue, fmt]

/-- Settles O12: a thread's effect is the verdict in c, or the sum of its terms rounded once. -/
theorem dotProduct : Obligations.DotProduct := by
  intro s g la t f m d a b k x c pd pa pb pk z mode flush u v terms eff fmt ready sound quiet
  have effect : (fun j => dotEff t (mode j) (flush j) (x.sw1.apply t (c.int t j pa)) (x.sw2.apply t (c.int t j pb)) (z j)) = eff := by
    funext j
    simp only [dotEff, vdotValue_fst fmt]
    rfl
  rw [← effect] at quiet ⊢
  exact computes_of_quiet (eff := fun c j => dotEff t (m.rnd.mode (c.th j).fctl) (m.flush.on (c.th j).fctl)
    (x.sw1.apply t (c.int t j pa)) (x.sw2.apply t (c.int t j pb)) (c.val j pk false 32)) ready (by simp) (abandonTrap_abOf sound) quiet rfl

end Sys2Proof.Machine

/-! PROOFS. ATOM, CAS, RED and PREF at their issue (spec/09, spec/12): the atomic record that is sent, the reductions counted, the
prefetches that touch no memory. -/

namespace Sys2Proof.Machine

/-! ### What a request that leaves a core keeps (R176 to R178) -/

/-- Bytes and tags, the atomics on their way, teams and warps. -/
structure Standing where
  mem : Memory
  tags : List Nat
  atoms : List AtomRec
  teams : Tbl Team
  warps : Tbl Warp

def State.standing (s : State) : Standing := ⟨s.mem, s.tags, s.atoms, s.teams, s.warps⟩

theorem standing_countReq (s : State) (die : Nat) (l : LineAt) : (s.countReq die l).standing = s.standing := by
  simp only [State.countReq]
  split
  · rfl
  · split <;> rfl

theorem standing_touchHome (s : State) (l : LineAt) : (s.touchHome l).standing = s.standing := by
  simp only [State.touchHome]
  split
  · split
    · rfl
    · split <;> rfl
  · rfl

/-! ### An atomic is sent (R315, R329) -/

/-- The operation of one thread of an atomic, from its access. -/
def Ctx.atomThread (c : Ctx) (pd : Pos) (a cmp : Nat → Nat) (x : Acc) : AtomThread :=
  ⟨x.thread, pd.start (c.th x.thread), x.pas.headD 0, x.lines.headD ⟨0, 0, 0, 0, 0⟩, a x.thread, cmp x.thread, none, 0#5, false⟩

/-- The uniform register that an operand is, and whether it is the handler's. -/
def Ctx.uniOf (c : Ctx) (p : Pos) : Option (BitVec 7 × Bool) := match p.o with | .uni r => some (r, c.warp.handler.isSome) | _ => none

/-- The record of an atomic that is sent. -/
def Ctx.atomRec (c : Ctx) (op la : Nat) (kind : AtomKind) (t : Ty) (pd : Pos) (blocks : Bool) (accs : List Acc) (a cmp : Nat → Nat) : AtomRec :=
  ⟨op, kind, t, c.ref, c.entry.pc, c.uniOf pd, la, blocks, accs.map (c.atomThread pd a cmp)⟩

/-- The destinations pend, unless they are a uniform register or the leaf waits. -/
theorem startAtom_standing (s : State) (c : Ctx) (la : Nat) (kind : AtomKind) (t : Ty) (pd : Pos) (blocks : Bool) (accs : List Acc)
    (a cmp : Nat → Nat) :
    (s.startAtom c la kind t pd blocks accs a cmp).standing = { s.standing with
      atoms := s.atoms ++ [c.atomRec s.nextId la kind t pd blocks accs a cmp]
      warps := if (c.uniOf pd).isSome || blocks then s.warps
        else (s.updWarp c.ref.team c.ref.warp (c.pended s.nextId la pd (accs.map Acc.thread))).warps } := by
  have counted (u : State) : (accs.foldl (fun s x => match x.lines.head? with | some l => s.countReq c.team.die l | none => s) u).standing
      = u.standing := by
    refine foldl_keeps State.standing (fun s x => ?_) accs u
    cases x.lines.head? with
    | none => rfl
    | some l => exact standing_countReq s c.team.die l
  have sent := counted { s with nextId := s.nextId + 1, atoms := s.atoms ++ [c.atomRec s.nextId la kind t pd blocks accs a cmp] }
  by_cases away : ((c.uniOf pd).isSome || blocks) = true
  · rw [if_pos away]
    exact (congrArg State.standing (if_pos away)).trans sent
  · rw [if_neg away]
    refine Eq.trans (congrArg State.standing (if_neg away)) (Eq.trans ?_ (congrArg (fun x : Standing =>
      { x with warps := Tbl.alter (warpKey c.ref.team c.ref.warp) (c.pended s.nextId la pd (accs.map Acc.thread)) x.warps }) sent))
    rw [pended_accs]
    rfl

/-- What ATOM and CAS do once their accesses are asked for: a trap of an access or of an abandoned operand, or the atomic sent. -/
def State.atomBody (s : State) (c : Ctx) (la : Nat) (kind : AtomKind) (t : Ty) (pd pk po : Pos) (blocks : Bool) (run : List Nat)
    (ab : List (Pos × (Nat → Nat))) (a cmp : Nat → Nat) : Done :=
  (s.access c (atomReqs c run t pk po)).then_ c s (fun accs =>
    match Ctx.abandonTrap run ab with
    | some z => .trap z
    | none =>
      if accs.any (s.scatterHolds c) then .unready
      else
        let v := s.startAtom c la kind t pd blocks accs a cmp
        if blocks then .block (v.block c.ref (.atomic s.nextId)) else .next v)

/-- The instruction sends the atomic r: its destinations pend, or, where it blocks, its leaf waits for the return; the machine has one
more atomic on its way. -/
def Sends (i : Instr) (s : State) (c : Ctx) (len : Nat) (p : Pos) (blocks : Bool) (r : AtomRec) : Prop :=
  (blocks = false → ∃ u w, Goes i s c len u ∧ u.warp? c.ref.team c.ref.warp = some w ∧ Pending c w (c.runs (some p)) p s.nextId r.la
    ∧ u.atoms = s.atoms ++ [r] ∧ u.mem = s.mem ∧ u.teams = s.teams)
  ∧ (blocks = true → ∃ u, exec i s = .next u ∧ u.atoms = s.atoms ++ [r] ∧ u.mem = s.mem ∧ u.teams = s.teams
    ∧ u.warp? c.ref.team c.ref.warp = some (c.warp.waiting c.entry.id (.atomic s.nextId)))

section
variable {s : State} {g : Guard} {c : Ctx} {t : Ty} {pd pk po : Pos} {pas : Nat → List Nat} {lines : Nat → List LineAt}

theorem startAtom_warp (here : s.warp? c.ref.team c.ref.warp = some c.warp) (la : Nat) (kind : AtomKind) (blocks : Bool) (accs : List Acc)
    (a cmp : Nat → Nat) : (s.startAtom c la kind t pd blocks accs a cmp).warp? c.ref.team c.ref.warp
      = some (if (c.uniOf pd).isSome || blocks then c.warp else c.pended s.nextId la pd (accs.map Acc.thread) c.warp) := by
  have warps := congrArg Standing.warps (startAtom_standing s c la kind t pd blocks accs a cmp)
  refine (congrArg (Tbl.look (warpKey c.ref.team c.ref.warp)) warps).trans ?_
  by_cases away : ((c.uniOf pd).isSome || blocks) = true
  · simp only [if_pos away]
    exact here
  · simp only [if_neg away]
    exact warp_updWarp_self here _

theorem pended_or_uni (c : Ctx) (op la : Nat) (pd : Pos) (run : List Nat) :
    Pending c (if (c.uniOf pd).isSome then c.warp else c.pended op la pd run c.warp) run pd op la := by
  cases h : pd.o with
  | uni k =>
    rw [if_pos (by simp [Ctx.uniOf, h])]
    exact pending_uni c op la h run
  | reg | imm =>
    rw [if_neg (by simp [Ctx.uniOf, h])]
    exact pended_pending c op la (by simp [h]) run

theorem accBytes_wide (wide : 8 ≤ t.bits) : accBytes t.bits = t.bits / 8 := by
  revert wide
  cases t <;> decide

/-- The access that a thread's atomic or reduction asks for (R315, R366). -/
def Ctx.atomReq (c : Ctx) (t : Ty) (pk po : Pos) (i : Nat) : AccReq :=
  ⟨i, c.cap i pk, c.capTag i pk, (c.cap i pk).base + c.signed i po, accBytes t.bits, none, true, pLD + pST, ⟨true, true, false⟩⟩

/-- An atomic whose threads' accesses pass and whose operands are sound is sent. -/
theorem atom_sends {i : Instr} {len la : Nat} {kind : AtomKind} {blocks : Bool} {run : List Nat} {ab : List (Pos × (Nat → Nat))}
    {a cmp : Nat → Nat} (ctx : s.ctx g = some c) (wide : 8 ≤ t.bits) (all : c.runs (some pd) = run)
    (runs : exec i s = .next ((s.issued.atomBody c la kind t pd pk po blocks run ab a cmp).state s.issued c.ref len))
    (noGather : (s.core c.team.die c.team.core).gathers = []) (unabandoned : Ctx.abandonTrap run ab = none)
    (passes : ∀ i ∈ run, Passes s c i pk ((c.cap i pk).base + c.signed i po) (t.bits / 8) 3 true ⟨true, true, false⟩ (pas i) (lines i)) :
    Sends i s c len pd blocks ⟨s.nextId, kind, t, c.ref, c.entry.pc, c.uniOf pd, la, blocks, run.map (fun i =>
      ⟨i, pd.start (c.th i), (pas i).headD 0, (lines i).headD ⟨0, 0, 0, 0, 0⟩, a i, cmp i, none, 0#5, false⟩)⟩ := by
  set accs : List Acc := run.map (fun i => ⟨i, (c.atomReq t pk po i).va.toNat, pas i, none, lines i⟩) with haccs
  rw [← accBytes_wide wide] at passes
  have access : s.issued.access c (atomReqs c run t pk po) = .ok accs :=
    access_ok (s := s.issued) (req := c.atomReq t pk po) (fun i hi => (passes i hi).check none) (fun i hi => (passes i hi).cells)
  have noScatter : accs.any (s.issued.scatterHolds c) = false := by
    have holds (x : Acc) : s.issued.scatterHolds c x = false := by
      rw [State.scatterHolds, State.issued_coreAt, noGather]
      rfl
    simp [holds]
  have threads : accs.map Acc.thread = run := by
    rw [haccs, List.map_map]
    exact List.map_id run
  have record : c.atomRec s.nextId la kind t pd blocks accs a cmp = ⟨s.nextId, kind, t, c.ref, c.entry.pc, c.uniOf pd, la, blocks,
      run.map (fun i => ⟨i, pd.start (c.th i), (pas i).headD 0, (lines i).headD ⟨0, 0, 0, 0, 0⟩, a i, cmp i, none, 0#5, false⟩)⟩ := by
    rw [Ctx.atomRec, haccs, List.map_map]
    rfl
  rw [State.atomBody, access] at runs
  simp only [Accs.then_, unabandoned, noScatter, Bool.false_eq_true, if_false] at runs
  obtain ⟨-, -, here, entry, -⟩ := ctx_facts ctx
  have leaf : c.entry.id = c.ref.leaf := by simpa using List.find?_some entry
  have left := startAtom_standing s.issued c la kind t pd blocks accs a cmp
  have warp := startAtom_warp (s := s.issued) (t := t) (pd := pd) here la kind blocks accs a cmp
  rw [← record]
  rw [threads, ← all] at warp
  refine ⟨fun goes => ?_, fun waits => ?_⟩
  · subst goes
    rw [Bool.or_false] at warp
    exact ⟨_, _, runs, warp, pended_or_uni .., congrArg Standing.atoms left, congrArg Standing.mem left, congrArg Standing.teams left⟩
  · subst waits
    rw [Bool.or_true, if_pos rfl] at warp
    refine ⟨_, runs, congrArg Standing.atoms left, congrArg Standing.mem left, congrArg Standing.teams left, ?_⟩
    rw [leaf, block_eq]
    exact warp_updWarp_self warp _

end

/-- Sources of an .f32 operation, none abandoned (R156). -/
theorem abandonTrap_sources {t : Ty} {run : List Nat} {l : List (Pos × (Nat → Nat))}
    (sound : t = .f32 → ∀ p ∈ l, ∀ i ∈ run, isAbandoned (p.2 i) = false) : Ctx.abandonTrap run (if t = .f32 then l else []) = none := by
  refine abandonTrap_none fun i hi p hp => ?_
  split at hp
  case isTrue f32 => exact sound f32 p hp i hi
  case isFalse => cases hp

/-! ### RED (R366, R367) -/

/-- The reductions of a RED, one of each request, named in order after the instruction's own name. -/
def State.redRecs (s : State) (c : Ctx) (op : RedOp) (t : Ty) (reqs : List AccReq) (val : Nat → Nat) : List RedRec :=
  reqs.zipIdx.map (fun p => ⟨s.nextId + 1 + p.2, s.nextId, c.team.launch, c.launch.asid, c.launch.secure, c.team.die, c.team.core,
    ⟨c.ref.team, c.ref.warp, p.1.thread⟩, op, t, p.1.va.toNat, val p.1.thread, none⟩)

/-- The state with reductions on their way, counted in their launch. -/
def State.redsSent (s : State) (c : Ctx) (recs : List RedRec) : State :=
  ({ s with nextId := s.nextId + 2 + recs.length, reds := s.reds ++ recs }).countUp c.team.launch recs.length

theorem count_redsSent (s : State) (c : Ctx) (recs : List RedRec) :
    ((s.redsSent c recs).completion c.team.launch).count = (s.completion c.team.launch).count + recs.length := by
  rw [State.redsSent, State.countUp, State.completion_updCompletion, if_pos rfl]
  rfl

theorem length_redRecs (s : State) (c : Ctx) (op : RedOp) (t : Ty) (reqs : List AccReq) (val : Nat → Nat) :
    (s.redRecs c op t reqs val).length = reqs.length := by
  simp [State.redRecs]

/-- What RED does: a trap of the checks or of an abandoned operand, or its reductions sent. -/
def State.redBody (s : State) (c : Ctx) (op : RedOp) (t : Ty) (reqs : List AccReq) (ab : List (Pos × (Nat → Nat))) (val : Nat → Nat) : Done :=
  match reqs.findSome? AccReq.check <|> Ctx.abandonTrap c.on ab with
  | some z => .trap z
  | none => .next (s.redsSent c (s.redRecs c op t reqs val))

theorem redBody_sends {s : State} {c : Ctx} {reqs : List AccReq} {ab : List (Pos × (Nat → Nat))} (passes : ∀ r ∈ reqs, r.check = none)
    (unabandoned : Ctx.abandonTrap c.on ab = none) (op : RedOp) (t : Ty) (val : Nat → Nat) :
    s.redBody c op t reqs ab val = .next (s.redsSent c (s.redRecs c op t reqs val)) := by
  rw [State.redBody, List.findSome?_eq_none_iff.mpr passes, unabandoned]
  rfl

/-! ### PREF (R363, R364) -/

theorem standing_prefetch (s : State) (c : Ctx) (l2 : Bool) (i : Nat) (p : Pos) (o : Int) (seen : List Nat) :
    (s.prefetch c l2 i p o seen).1.standing = s.standing := by
  simp only [State.prefetch]
  split
  · rfl
  · split
    · split
      · rfl
      · split
        · split
          · rfl
          · exact (standing_touchHome ..).trans (standing_countReq ..)
        · split <;> rfl
    · rfl

theorem standing_prefetches (s : State) (c : Ctx) (l2 : Bool) (p : Pos) (off : Nat → Int) (l seen : List Nat) :
    (l.foldl (fun a i => a.1.prefetch c l2 i p (off i) a.2) (s, seen)).1.standing = s.standing := by
  induction l generalizing s seen with
  | nil => rfl
  | cons i rest ih => exact (ih ..).trans (standing_prefetch ..)

/-- Settles O25: the accesses pass and the atomic is sent, the reductions are counted, the prefetches keep memory and registers. -/
theorem atomicsIssue : Obligations.AtomicsIssue := by
  intro s g la t op rop l2 d k o a x c pas lines pd pk po pa qd qo qb n val va thread sent free sound wide
  refine ⟨fun ready noGather unabandoned passes => ?atom, fun ready noGather comparand operand passes => ?cas,
    fun ready unabandoned passes => ?red, fun ready => ?pref⟩
  case atom =>
    have runs : exec (.atom g la t op d k o a x) s = _ := issue_ready ready 12 (fun c u =>
      u.atomBody c la.toNat (.rmw op) t pd pk po t.fmt.isSome (c.runs (some pd))
        (if t = .f32 then [(pa, fun i => x.sw3.apply t (c.int t i pa))] else []) (fun i => x.sw3.apply t (c.int t i pa)) (fun _ => 0))
    have sends := atom_sends ready.1 wide rfl runs noGather
      (abandonTrap_sources fun f32 => by simpa using fun i hi => unabandoned f32 i (runs_subset c _ i hi)) passes
    rw [Ctx.uniOf, withIx_o] at sends
    exact sends
  case cas =>
    have runs : exec (.cas g la t d k o a) s = _ := issue_ready ready 16 (fun c u =>
      u.atomBody c la.toNat .cas t qd pk qo (t == .f32) c.on
        (if t = .f32 then [(qd, fun i => c.raw i qd), (qb, fun i => c.raw i qb)] else []) (fun i => c.raw i qb) (fun i => c.raw i qd))
    have reg : d.isReg = true := (Bool.and_eq_true_iff.mp (ready_ok ready.2 (p := qd) (by simp))).1
    obtain ⟨all, noUni⟩ : c.runs (some qd) = c.on ∧ c.uniOf qd = none := by
      cases d with
      | reg => exact ⟨rfl, rfl⟩
      | uni | imm => cases reg
    have sends := atom_sends ready.1 wide all runs noGather
      (abandonTrap_sources fun f32 => by simpa using ⟨comparand f32, operand f32⟩) passes
    rw [noUni] at sends
    exact sends
  case red =>
    have runs : exec (.red g la t rop k o a x) s = _ := issue_ready ready 12 (fun c u =>
      u.redBody c rop t (c.on.map (c.atomReq t pk po)) (if t = .f32 then [(pa, fun i => x.sw3.apply t (c.int t i pa))] else [])
        (fun i => x.sw3.apply t (c.int t i pa)))
    have checks : ∀ r ∈ c.on.map (c.atomReq t pk po), r.check = none := by
      intro r hr
      obtain ⟨i, hi, rfl⟩ := List.mem_map.mp hr
      obtain ⟨tag, unsealed, perm, aligned, low, high, space⟩ := passes i hi
      rw [check_none, Ctx.atomReq, accBytes_wide wide]
      exact ⟨fun _ => aligned, tag, unsealed, beq_iff_eq.mpr perm, low, high, space⟩
    rw [redBody_sends checks (abandonTrap_sources fun f32 => by simpa using unabandoned f32)] at runs
    refine ⟨_, runs, rfl, rfl, rfl, ?_, ?_⟩
    · rw [count_redsSent, length_redRecs, List.length_map]
      rfl
    · change s.reds ++ s.issued.redRecs .. = _
      rw [State.redRecs, List.zipIdx_map, List.map_map]
      rfl
  case pref =>
    have runs : exec (.pref g la l2 k o) s = _ := issue_ready ready 8 (fun c u =>
      .next (c.on.foldl (fun (a : State × List Nat) i => a.1.prefetch c l2 i pk (c.signed i qo) a.2) (u, [])).1)
    have left := standing_prefetches s.issued c l2 pk (fun i => c.signed i qo) c.on []
    exact ⟨_, runs, congrArg Standing.mem left, congrArg Standing.tags left, congrArg Standing.warps left, congrArg Standing.teams left⟩

end Sys2Proof.Machine

/-! PROOFS. ST at its issue (spec/09): the checks of its accesses pass, its bytes come to the Quay line by line or to the gather unit. -/

namespace Sys2Proof.Machine

/-! ### Stores at the Quay (R173) -/

section
variable {α β : Type} {f : β → α → β}

/-- What one element of a fold makes so, and every element keeps, is so after the fold. -/
theorem foldl_of_mem {P : β → Prop} (keeps : ∀ b x, P b → P (f b x)) {l : List α} {x : α} (hx : x ∈ l) (makes : ∀ b, P (f b x)) (b : β) :
    P (l.foldl f b) := by
  induction l generalizing b with
  | nil => cases hx
  | cons y r ih =>
    rcases List.mem_cons.mp hx with rfl | hx
    · exact List.foldlRecOn r f (makes b) fun c hc z _ => keeps c z hc
    · exact ih hx _

/-- A measure that each element raises by one at most. -/
theorem foldl_measure_le {μ : β → Nat} (step : ∀ b x, μ (f b x) ≤ μ b + 1) (l : List α) (b : β) : μ (l.foldl f b) ≤ μ b + l.length := by
  induction l generalizing b with
  | nil => exact le_rfl
  | cons x r ih =>
    have first := step b x
    rw [List.length_cons]
    exact (ih _).trans (by omega)

end

/-- The entry, an unsent one of stores, holds a byte for a line. -/
def QuayEntry.Holds (e : QuayEntry) (line : Nat) (v : StoreByte) : Prop :=
  e.store = true ∧ e.sent = false ∧ e.at_.line = line ∧ v ∈ e.bytes

section
variable (b : Beats) (x : Windows) (id : Nat) (l : LineAt) (bytes : List StoreByte) (tagged : List Nat) (beat : Nat)

/-- What a store finds open to it. -/
theorem joinable_store {e : QuayEntry} {line : Nat} (found : b.joinable x true line beat = some e) :
    e ∈ b.quay ∧ e.store = true ∧ e.sent = false ∧ e.at_.line = line := by
  have test := List.find?_some found
  simp only [Bool.and_eq_true, beq_iff_eq, Bool.not_eq_true', and_assoc] at test
  obtain ⟨store, sent, line, -⟩ := test
  exact ⟨List.mem_of_find?_eq_some found, store, sent, line⟩

/-- The Quay holds the bytes that a store brings for a line. -/
theorem store_holds {v : StoreByte} (hv : v ∈ bytes) : ∃ e ∈ (b.store x id l bytes tagged beat).quay, e.Holds l.line v := by
  unfold Beats.store
  split
  next e found =>
    obtain ⟨he, store, sent, line⟩ := joinable_store b x beat found
    exact ⟨_, List.mem_map.mpr ⟨e, he, if_pos (beq_self_eq_true _)⟩, store, sent, line, List.mem_append_right _ hv⟩
  next => exact ⟨_, List.mem_append_right _ (List.mem_singleton.mpr rfl), rfl, rfl, rfl, hv⟩

/-- It still holds what it held. -/
theorem store_keeps_holds {line : Nat} {v : StoreByte} (h : ∃ e ∈ b.quay, e.Holds line v) :
    ∃ e ∈ (b.store x id l bytes tagged beat).quay, e.Holds line v := by
  obtain ⟨e, he, holds⟩ := h
  have ⟨store, sent, at_, hv⟩ := holds
  unfold Beats.store
  split
  next y _ =>
    by_cases same : e.id = y.id
    · exact ⟨_, List.mem_map.mpr ⟨e, he, if_pos (beq_iff_eq.mpr same)⟩, store, sent, at_, List.mem_append_left _ hv⟩
    · exact ⟨e, List.mem_map.mpr ⟨e, he, if_neg (by simpa using same)⟩, holds⟩
  next => exact ⟨e, List.mem_append_left _ he, holds⟩

theorem length_store_le : (b.store x id l bytes tagged beat).quay.length ≤ b.quay.length + 1 := by
  unfold Beats.store
  split
  · simp [mapIf]
  · simp

end

/-- The Quay after a store's lines, each with its bytes, its tagged units and its beat, have come to it in order. -/
def Beats.stores (b : Beats) (x : Windows) (op : Nat) (pieces : List ((LineAt × List StoreByte × List Nat × Nat) × Nat)) : Beats :=
  pieces.foldl (fun b p => b.store x (op + 1 + p.2) p.1.1 p.1.2.1 p.1.2.2.1 p.1.2.2.2) b

section
variable (b : Beats) (x : Windows) (op : Nat) (pieces : List ((LineAt × List StoreByte × List Nat × Nat) × Nat))

theorem length_stores_le : (b.stores x op pieces).quay.length ≤ b.quay.length + pieces.length :=
  foldl_measure_le (μ := fun b : Beats => b.quay.length) (fun _ _ => length_store_le ..) pieces b

theorem stores_holds {p : (LineAt × List StoreByte × List Nat × Nat) × Nat} (hp : p ∈ pieces) {v : StoreByte} (hv : v ∈ p.1.2.1) :
    ∃ e ∈ (b.stores x op pieces).quay, e.Holds p.1.1.line v := by
  refine foldl_of_mem (P := fun b : Beats => ∃ e ∈ b.quay, e.Holds p.1.1.line v) (fun _ _ h => ?_) hp (fun _ => ?_) b
  · exact store_keeps_holds _ _ _ _ _ _ _ h
  · exact store_holds _ _ _ _ _ _ _ hv

end

/-! ### The bytes of a store (R379, R380) -/

/-- The byte of a thread's store at each of its addresses. -/
theorem mem_storeBytes (c : Ctx) (inst : Nat) (a : Acc) (v : Nat) {j p : Nat} (at_ : a.pas[j]? = some p) (first : a.half.isSome → j = 0) :
    (⟨p, BitVec.ofNat 8 (if a.half.isSome then v % 16 else v / 256 ^ j), a.half, ⟨c.ref.team, c.ref.warp, a.thread⟩, inst⟩ : StoreByte)
      ∈ storeBytes c inst a v := by
  obtain ⟨thread, va, pas, half, lines⟩ := a
  cases half with
  | some h =>
    obtain rfl : j = 0 := first rfl
    cases pas with
    | nil => cases at_
    | cons q r =>
      obtain rfl : q = p := Option.some.inj at_
      exact List.mem_singleton.mpr rfl
  | none =>
    obtain ⟨inside, at_⟩ := List.getElem?_eq_some_iff.mp at_
    refine List.mem_map.mpr ⟨(p, BitVec.ofNat 8 (v / 256 ^ j)), List.mem_iff_getElem.mpr ⟨j, ?_, ?_⟩, rfl⟩
    · simpa [length_natLe] using inside
    · simp [natLe, at_, pow_mul]

/-! ### A store starts (R173, R174) -/

/-- A store's lines in the order in which they come to the Quay: each with its bytes, its tagged units and its beat. -/
def storePieces (c : Ctx) (inst : Nat) (beat val : Nat → Nat) (tag : Nat → Bool) (accs : List Acc) :
    List (LineAt × List StoreByte × List Nat × Nat) :=
  accs.flatMap (fun a => a.lines.map (fun l => (l, (storeBytes c inst a (val a.thread)).filter (fun b => b.addr / 128 == l.line),
    if tag a.thread then (a.pas.take 1).map (· / 16) else [], beat a.thread)))

section
variable (c : Ctx) (inst : Nat) (beat val : Nat → Nat) (tag : Nat → Bool) {accs : List Acc}

theorem length_storePieces (accs : List Acc) : (storePieces c inst beat val tag accs).length = (accs.flatMap Acc.lines).length := by
  simp [storePieces, List.length_flatMap]

/-- Each byte comes with the line that it lies in. -/
theorem mem_storePieces {a : Acc} (ha : a ∈ accs) {l : LineAt} (hl : l ∈ a.lines) {v : StoreByte}
    (hv : v ∈ storeBytes c inst a (val a.thread)) (here : l.line = v.addr / 128) :
    ∃ q ∈ storePieces c inst beat val tag accs, q.1 = l ∧ v ∈ q.2.1 :=
  ⟨_, List.mem_flatMap.mpr ⟨a, ha, List.mem_map.mpr ⟨l, hl, rfl⟩⟩, rfl, List.mem_filter.mpr ⟨hv, beq_iff_eq.mpr here.symm⟩⟩

end

/-- The state with a store that has started: its lines are at the Quay or with the gather unit. -/
def State.storing (s : State) (c : Ctx) (next : Nat) (quay : List QuayEntry) (gathers : List GatherOp) : State :=
  { s with nextId := next }.updCore c.team.die c.team.core (fun k => { k with quay := quay, gathers := gathers })

theorem core_storing (s : State) (c : Ctx) (next : Nat) (quay : List QuayEntry) (gathers : List GatherOp) :
    (s.storing c next quay gathers).core c.team.die c.team.core
      = { s.core c.team.die c.team.core with quay := quay, gathers := gathers } :=
  (State.core_updCore ..).trans (if_pos rfl)

/-- With no gather or scatter in flight and room in the Quay a store starts, and each byte of each access is at the Quay with its line or
with the gather unit. -/
theorem startStore_starts {s : State} {c : Ctx} {accs : List Acc} (noGather : (s.core c.team.die c.team.core).gathers = [])
    (room : (s.core c.team.die c.team.core).quay.length + (accs.flatMap Acc.lines).length ≤ 256) (beat val : Nat → Nat) (tag : Nat → Bool) :
    ∃ next quay gathers, s.startStore c accs beat val tag = some (s.storing c next quay gathers)
      ∧ ∀ a ∈ accs, ∀ v ∈ storeBytes c s.nextId a (val a.thread), (∃ l ∈ a.lines, l.line = v.addr / 128) →
        (∃ e ∈ quay, e.Holds (v.addr / 128) v) ∨ ∃ x ∈ gathers, x.load = none ∧ v ∈ x.bytes ∧ ∃ y ∈ x.lines, y.line = v.addr / 128 := by
  set k := s.core c.team.die c.team.core
  set lines := distinctLines (accs.flatMap Acc.lines)
  set pieces := storePieces c s.nextId beat val tag accs
  set quay := ((⟨k.quay, []⟩ : Beats).stores (s.windows c.team.die c.team.core) s.nextId pieces.zipIdx).quay
  have small : quay.length ≤ 256 := by
    refine (length_stores_le ..).trans ?_
    rw [List.length_zipIdx, length_storePieces]
    exact room
  have free : ((decide (8 < lines.length) && decide (gatherSize ≤ k.gathers.length))
      || (!decide (8 < lines.length) && decide (quaySize < quay.length))) = false := by
    rw [noGather, decide_eq_false (show ¬ quaySize < quay.length from not_lt.mpr small)]
    simp [gatherSize]
  refine ⟨s.nextId + 2 + pieces.length, if 8 < lines.length then k.quay else quay,
    if 8 < lines.length then k.gathers ++ [⟨s.nextId, none, lines, pieces.flatMap (fun p => p.2.1),
      pieces.foldl (fun u p => u.filter (fun x => !(unitsOf p.2.1).contains x) ++ p.2.2.1) []⟩] else k.gathers, ?_, ?_⟩
  · refine (if_neg (ne_true_of_eq_false free)).trans ?_
    rfl
  · rintro a ha v hv ⟨l, hl, here⟩
    obtain ⟨q, hq, rfl, bytes⟩ := mem_storePieces c s.nextId beat val tag ha hl hv here
    split
    · obtain ⟨y, hy, same⟩ := mem_distinctLines (List.mem_flatMap.mpr ⟨a, ha, hl⟩)
      exact .inr ⟨_, List.mem_append_right _ (List.mem_singleton.mpr rfl), rfl, List.mem_flatMap.mpr ⟨q, hq, bytes⟩, y, hy, same.trans here⟩
    · obtain ⟨n, hn⟩ := List.mem_iff_getElem?.mp hq
      rw [← here]
      exact .inl (stores_holds _ _ _ _ (p := (q, n)) (List.mem_zipIdx_iff_getElem?.mpr hn) bytes)

/-! ### ST (R379, R380) -/

/-- The data operand of a store. -/
abbrev stData (t : Ty) (a : Opnd) : Pos := ⟨0, a, none, storeOk t a, true, false, BitVec.allOnes 32⟩

/-- The value that a thread's ST stores. -/
abbrev Ctx.stValue (c : Ctx) (t : Ty) (a : Opnd) (i : Nat) : Nat := if t = .none then c.raw i (stData t a) else c.int t i (stData t a)

/-- A thread's ST of a tagged granule. -/
abbrev Ctx.stTagged (c : Ctx) (t : Ty) (a : Opnd) (i : Nat) : Bool := accBits t a == 128 && a.isReg && c.capTag i (stData t a)

/-- The access that a thread's ST asks for. -/
def Ctx.storeReq (c : Ctx) (t : Ty) (k a : Opnd) (off : Nat → Int) (i : Nat) : AccReq :=
  ⟨i, c.cap i (Pos.src 1 k true), c.capTag i (Pos.src 1 k true), (c.cap i (Pos.src 1 k true)).base + (nibble (accBits t a) (off i)).1,
    accBytes (accBits t a), (nibble (accBits t a) (off i)).2, accBits t a == 128, if c.stTagged t a i then pST + pSTC else pST,
    ⟨false, true, false⟩⟩

/-- The access when it has passed. -/
def Ctx.storeAcc (c : Ctx) (t : Ty) (k a : Opnd) (off : Nat → Int) (pas : Nat → List Nat) (lines : Nat → List LineAt) (i : Nat) : Acc :=
  ⟨i, (c.storeReq t k a off i).va.toNat, pas i, (nibble (accBits t a) (off i)).2, lines i⟩

theorem store_starts {s : State} {g : Guard} {t : Ty} {a k : Opnd} {c : Ctx} {extra : List Pos} {off : Ctx → Nat → Int}
    {pas : Nat → List Nat} {lines : Nat → List LineAt} (ready : s.Ready g ([stData t a, Pos.src 1 k true] ++ extra) c) (len : Nat)
    (passes : ∀ i ∈ c.on, Passes s c i (Pos.src 1 k true) (c.storeReq t k a (off c) i).va (accBytes (accBits t a))
      (if c.stTagged t a i then 10 else 2) (accBits t a == 128) ⟨false, true, false⟩ (pas i) (lines i))
    (noGather : (s.core c.team.die c.team.core).gathers = [])
    (room : (s.core c.team.die c.team.core).quay.length + (c.on.flatMap lines).length ≤ 256) :
    ∃ next quay gathers, s.store len g t k a extra off = .next ((s.issued.storing c next quay gathers).complete c.ref len)
      ∧ ∀ i ∈ c.on, ∀ v ∈ storeBytes c s.nextId (c.storeAcc t k a (off c) pas lines i) (c.stValue t a i),
        (∃ l ∈ lines i, l.line = v.addr / 128) →
        (∃ e ∈ quay, e.Holds (v.addr / 128) v) ∨ ∃ x ∈ gathers, x.load = none ∧ v ∈ x.bytes ∧ ∃ y ∈ x.lines, y.line = v.addr / 128 := by
  set accs := c.on.map (c.storeAcc t k a (off c) pas lines) with haccs
  have access : s.issued.access c (c.on.map (c.storeReq t k a (off c))) = .ok accs :=
    access_ok (s := s.issued) (fun i hi => (passes i hi).check _) (fun i hi => (passes i hi).cells)
  have noScatter : accs.any (s.issued.scatterHolds c) = false := by
    have holds (x : Acc) : s.issued.scatterHolds c x = false := by
      rw [State.scatterHolds, State.issued_coreAt, noGather]
      rfl
    simp [holds]
  have room' : (s.issued.core c.team.die c.team.core).quay.length + (accs.flatMap Acc.lines).length ≤ 256 := by
    rw [haccs, List.flatMap_map]
    exact room
  obtain ⟨next, quay, gathers, starts, holds⟩ := startStore_starts (s := s.issued) (accs := accs) noGather room'
    (c.beatOf ([stData t a, Pos.src 1 k true] ++ extra)) (c.stValue t a) (c.stTagged t a)
  refine ⟨next, quay, gathers, ?_, fun i hi => holds (c.storeAcc t k a (off c) pas lines i) (List.mem_map_of_mem hi)⟩
  rw [State.store, issue_ready ready]
  change Host.Outcome.next (((s.issued.access c (c.on.map (c.storeReq t k a (off c)))).then_ c s.issued _).state s.issued c.ref len) = _
  rw [access]
  simp only [Accs.then_, noScatter, Bool.false_eq_true, if_false]
  rw [starts]
  rfl

/-- Settles O24: the accesses pass one by one, and the Quay or the gather unit takes each of their bytes with its line. -/
theorem storesIssue : Obligations.StoresIssue := by
  intro s g la t a k o imm c st len ps off pas lines bits pa pk po va half n tagged value byte core form ready passes noGather room
  obtain ⟨extra, offs, rfl, rfl, runs⟩ : ∃ (extra : List Pos) (offs : Ctx → Nat → Int), ps = [pa, pk] ++ extra ∧ off = offs c
      ∧ exec st s = s.store len g t k a extra offs := by
    rcases form with ⟨rfl, rfl, rfl, rfl⟩ | ⟨rfl, rfl, rfl, rfl⟩
    · exact ⟨[po], fun x i => x.signed i po, rfl, rfl, rfl⟩
    · exact ⟨[], fun _ _ => imm.toInt, rfl, rfl, rfl⟩
  have reg : a.notImm = true := notImm_of_storeOk (ready_ok ready.2 (p := pa) (by simp))
  have size : accBytes (accBits t a) = n := accBytes_accBits t reg
  have address (i : Nat) : (c.storeReq t k a (offs c) i).va = va i := by rw [Ctx.storeReq, nibble_fst]; rfl
  have passes' : ∀ i ∈ c.on, Passes s c i pk (c.storeReq t k a (offs c) i).va (accBytes (accBits t a))
      (if c.stTagged t a i then 10 else 2) (accBits t a == 128) ⟨false, true, false⟩ (pas i) (lines i) := by
    intro i hi
    rw [address, size]
    exact passes i hi
  obtain ⟨next, quay, gathers, starts, holds⟩ := store_starts ready len passes' noGather room
  have placed : core (s.issued.storing c next quay gathers) = { core s with quay := quay, gathers := gathers } :=
    core_storing s.issued c next quay gathers
  refine ⟨_, runs.trans starts, rfl, rfl, rfl, rfl, rfl, (congrArg Core.loads placed :), (congrArg Core.l1 placed :), ?_⟩
  · intro i hi j p hj at_ line
    have halves : (c.storeAcc t k a (offs c) pas lines i).half = half i := nibble_snd ..
    have isHalf : (half i).isSome = decide (bits = 4) := by
      by_cases four : bits = 4 <;> simp [half, four]
    have first : (half i).isSome → j = 0 := by
      intro some_
      have four : bits = 4 := of_decide_eq_true (isHalf.symm.trans some_)
      have one : n = 1 := if_pos four
      omega
    have mem := mem_storeBytes c s.nextId (c.storeAcc t k a (offs c) pas lines i) (value i) (j := j) (p := p) at_ (by rwa [halves])
    have stored : BitVec.ofNat 8 (if (half i).isSome then value i % 16 else value i / 256 ^ j) = byte i j := by
      simp only [isHalf, decide_eq_true_eq, byte]
    rw [halves, stored] at mem
    rw [placed]
    exact holds i hi _ mem line

end Sys2Proof.Machine

/-! PROOFS. Shootdowns, service rings and page migration (spec/09 R172, R180 to R182, spec/13 R257): what each event leaves. -/

namespace Sys2Proof.Machine

/-! ### Shootdown (R172) -/

/-- A field depends on its own bits alone. -/
theorem extract_congr {v w : Word64} {lo n : Nat} (same : ∀ k, lo ≤ k → k < lo + n → v.getLsbD k = w.getLsbD k) :
    v.extractLsb' lo n = w.extractLsb' lo n := by
  apply BitVec.eq_of_getLsbD_eq
  intro i hi
  rw [BitVec.getLsbD_extractLsb', BitVec.getLsbD_extractLsb', same _ (by omega) (by omega)]

theorem getLsbD_orOne (v : Word64) (k : Nat) : (v ||| 1#64).getLsbD k = if k = 0 then true else v.getLsbD k :=
  getLsbD_setBit v (i := 0) (by decide) k

/-- SHOOT after a write of its fields, GO and BUSY aside. -/
def shootMerged (old v : Word64) : Word64 := mergeWord old v (bitRange 61 52 ||| bitRange 47 8) (bitRange 62 62)

theorem getLsbD_shootMerged (old v : Word64) {k : Nat} (field : 52 ≤ k ∧ k ≤ 61 ∨ 8 ≤ k ∧ k ≤ 47) :
    (shootMerged old (v ||| 1#64)).getLsbD k = v.getLsbD k := by
  have written : (bitRange 61 52 ||| bitRange 47 8).getLsbD k = true := by
    rw [BitVec.getLsbD_or, getLsbD_bitRange (by decide) (by decide), getLsbD_bitRange (by decide) (by decide)]
    simpa using field
  rw [shootMerged, getLsbD_mergeWord, if_pos written, getLsbD_orOne, if_neg (by omega)]

/-- SHOOT once a shootdown of the written range is on its way. -/
def shootStarted (old v : Word64) : Word64 := (shootMerged old (v ||| 1#64) &&& ~~~(bitRange 62 62)) ||| bitRange 63 63

theorem getLsbD_shootStarted (old v : Word64) (k : Nat) : (shootStarted old v).getLsbD k
    = if k = 63 then true else if k = 62 then false else (shootMerged old (v ||| 1#64)).getLsbD k := by
  rw [shootStarted, getLsbD_setBit _ (by decide), getLsbD_clearBit _ (by decide)]

section
variable (old v : Word64) {lo n : Nat} (field : ∀ k, lo ≤ k → k < lo + n → 52 ≤ k ∧ k ≤ 61 ∨ 8 ≤ k ∧ k ≤ 47)
include field

theorem extract_shootMerged : (shootMerged old (v ||| 1#64)).extractLsb' lo n = v.extractLsb' lo n :=
  extract_congr fun k low high => getLsbD_shootMerged old v (field k low high)

theorem extract_shootStarted : (shootStarted old v).extractLsb' lo n = v.extractLsb' lo n := by
  refine extract_congr fun k low high => ?_
  have inside := field k low high
  rw [getLsbD_shootStarted, if_neg (by omega), if_neg (by omega), getLsbD_shootMerged old v inside]

end

theorem writeShoot_go (s : State) (v : Word64) : s.writeShoot (v ||| 1#64) = if (s.word 0x40).getLsbD 63 then s else
    { s.setWord 0x40 (shootStarted (s.word 0x40) v) with shoot := shootMerged (s.word 0x40) (v ||| 1#64) } := by
  have go : (v ||| 1#64).getLsbD 0 = true := (getLsbD_orOne v 0).trans (if_pos rfl)
  simp only [State.writeShoot, go, Bool.not_true, Bool.false_eq_true, if_false]
  rfl

/-- A core whose translation cache holds nothing of a range. -/
def Core.without (r : PageRange) (k : Core) : Core := { k with tlb := k.tlb.filter (fun x => !r.meets x.asid x.page x.pages) }

/-- A die whose walk cache holds nothing of a range. -/
def Die.without (r : PageRange) (d : Die) : Die := { d with walkCache := d.walkCache.filter (fun x => !r.meets x.asid x.page x.pages) }

section
variable {s : State}

theorem shootdownStart_ignored (v : Word64) (h : (s.word 0x40).getLsbD 63 = true ∨ s.recovery = true) :
    exec (.shootdownStart v) s = .next s := by
  change s.hostWrote (s.writeShoot (v ||| 1#64)) = _
  cases asleep : s.recovery with
  | true => exact hostWrote_of_recovery asleep _
  | false => rw [hostWrote_of_awake asleep, writeShoot_go, if_pos (h.resolve_right (by simp [asleep]))]

theorem shootdownStart_idle (v : Word64) (idle : (s.word 0x40).getLsbD 63 = false) (awake : s.recovery = false) :
    exec (.shootdownStart v) s = .next { s.setWord 0x40 (shootStarted (s.word 0x40) v) with
      shoot := shootMerged (s.word 0x40) (v ||| 1#64) } := by
  change s.hostWrote (s.writeShoot (v ||| 1#64)) = _
  rw [hostWrote_of_awake awake, writeShoot_go, if_neg (ne_true_of_eq_false idle)]

theorem die_dropRange (r : PageRange) (d : Nat) : (s.dropRange r).die d = (s.die d).without r := by
  have kept : (s.dropRange r).die d = (s.mapDies (Die.without r)).die d := rfl
  rw [kept, die_mapDies, State.die, Tbl.get]
  cases Tbl.look d s.dies <;> rfl

theorem core_dropRange (r : PageRange) (d c : Nat) : (s.dropRange r).core d c = (s.core d c).without r := by
  have kept : (s.dropRange r).core d c = (Tbl.look (coreKey d c) (s.cores.map (fun p => (p.1, p.2.without r)))).getD Core.reset := rfl
  rw [kept, Tbl.look_map, State.core, Tbl.get]
  cases Tbl.look (coreKey d c) s.cores <;> rfl

/-- SHOOT once the shootdown has ended: DONE for BUSY. -/
def shootDone (w : Word64) : Word64 := (w &&& ~~~(bitRange 63 63)) ||| bitRange 62 62

theorem getLsbD_shootDone (w : Word64) (b : Nat) :
    (shootDone w).getLsbD b = if b = 63 then false else if b = 62 then true else w.getLsbD b := by
  rw [shootDone, getLsbD_setBit _ (by decide), getLsbD_clearBit _ (by decide)]
  by_cases high : b = 63
  · rw [high]
    rfl
  · rw [if_neg high, if_neg high]

theorem shootdownComplete_quiet (busy : (s.word 0x40).getLsbD 63 = true) (reads : s.readsPending (rangeOf s.shoot) = false)
    (writes : s.writesPending (rangeOf s.shoot) = false) : exec .shootdownComplete s
      = .next ((s.dropRange (rangeOf s.shoot)).setWord 0x40 (shootDone (s.word 0x40))) :=
  if_neg (by simp [shootWord, busy, reads, writes])

/-! ### Service rings (R257) -/

theorem ringWord_succ (ring : Nat) : ringWord ring + 1 = 0x393 + 2 * ring := by rw [ringWord]; omega

theorem ringHead_eq (die ring : Nat) : s.ringHead die ring = (s.dieWord die (0x393 + 2 * ring)).toNat / 2 ^ 32 := by
  rw [State.ringHead, ringWord_succ]

theorem ringTail_eq (die ring : Nat) : s.ringTail die ring = (s.dieWord die (0x393 + 2 * ring)).toNat % 2 ^ 32 := by
  rw [State.ringTail, ringWord_succ]

theorem ringHead_lt (die ring : Nat) : s.ringHead die ring < 2 ^ 32 := by
  have small := (s.dieWord die (ringWord ring + 1)).isLt
  rw [State.ringHead]
  omega

theorem ringTail_lt (die ring : Nat) : s.ringTail die ring < 2 ^ 32 := Nat.mod_lt _ (by decide)

theorem ringOn_iff (die ring : Nat) : s.ringOn die ring = true ↔ (s.dieWord die (0x392 + 2 * ring)).toNat % 2 = 1 := by
  rw [State.ringOn, bit_num, decide_eq_true_iff, pow_zero, Nat.div_one]

theorem ringRoom_iff (die ring : Nat) : s.ringRoom die ring = true ↔ (s.dieWord die (0x392 + 2 * ring)).toNat % 2 = 1
    ∧ ringCount (s.ringHead die ring) (s.ringTail die ring) < s.ringSize die ring := by
  rw [State.ringRoom, Bool.and_eq_true, ringOn_iff, decide_eq_true_iff]

theorem ptr_setRingPtr (die ring head tail : Nat) :
    ((s.setRingPtr die ring head tail).dieWord die (0x393 + 2 * ring)).toNat = head % 2 ^ 32 * 2 ^ 32 + tail % 2 ^ 32 := by
  have high : head % 2 ^ 32 < 2 ^ 32 := Nat.mod_lt _ (by decide)
  have low : tail % 2 ^ 32 < 2 ^ 32 := Nat.mod_lt _ (by decide)
  rw [← ringWord_succ, State.setRingPtr, State.dieWord_setDieWord, if_pos ⟨rfl, rfl⟩, BitVec.toNat_ofNat]
  omega

/-- The configuration word of a ring after a write. -/
def ringMerged (old v : Word64) : Word64 := mergeWord old v (bitRange 55 4 ||| 1#64) 0#64

theorem getLsbD_ringMerged (old v : Word64) {k : Nat} (field : k = 0 ∨ 4 ≤ k ∧ k ≤ 55) :
    (ringMerged old (v ||| 1#64)).getLsbD k = if k = 0 then true else v.getLsbD k := by
  have written : (bitRange 55 4 ||| 1#64).getLsbD k = true := by
    rw [getLsbD_orOne, getLsbD_bitRange (by decide) (by decide)]
    simpa [ite_eq_iff] using field
  rw [ringMerged, getLsbD_mergeWord_rw, if_pos written, getLsbD_orOne]

/-- A write that sets EN: the pointers are reset where the ring was disabled. -/
theorem writeRingConfig_enable (die ring : Nat) (v : Word64) :
    s.writeRingConfig die ring (v ||| 1#64) =
      if s.ringOn die ring then s.setDieWord die (ringWord ring) (ringMerged (s.dieWord die (ringWord ring)) (v ||| 1#64))
      else (s.setDieWord die (ringWord ring) (ringMerged (s.dieWord die (ringWord ring)) (v ||| 1#64))).setRingPtr die ring 0 0 := by
  have enabled : (ringMerged (s.dieWord die (ringWord ring)) (v ||| 1#64)).getLsbD 0 = true := getLsbD_ringMerged _ _ (.inl rfl)
  have on : s.ringOn die ring = (s.dieWord die (ringWord ring)).getLsbD 0 := rfl
  rw [ringMerged] at enabled
  rw [on]
  simp only [State.writeRingConfig, enabled, ringMerged]
  cases (s.dieWord die (ringWord ring)).getLsbD 0 <;> rfl

section
variable {die ring : Nat} (hd : die < 9) (hr : ring < 5) (awake : s.recovery = false) (v : Word64)
include hd hr awake

theorem serviceRingEnable_awake : exec (.serviceRingEnable die ring v) s = .next (s.writeRingConfig die ring (v ||| 1#64)) :=
  (if_pos (by simp [hd, hr])).trans (hostWrote_of_awake awake _)

theorem serviceRingPointerWrite_awake : exec (.serviceRingPointerWrite die ring v) s = .next (s.writeRingPtr die ring v) :=
  (if_pos (by simp [hd, hr])).trans (hostWrote_of_awake awake _)

end

end

/-- What EN leaves of a ring. -/
theorem ring_enabled (s : State) (die ring : Nat) (v : Word64) :
    (s.writeRingConfig die ring (v ||| 1#64)).mem = s.mem ∧ (s.writeRingConfig die ring (v ||| 1#64)).warps = s.warps
      ∧ (s.writeRingConfig die ring (v ||| 1#64)).dieWord die (ringWord ring) = ringMerged (s.dieWord die (ringWord ring)) (v ||| 1#64)
      ∧ ((s.writeRingConfig die ring (v ||| 1#64)).dieWord die (0x393 + 2 * ring)).toNat
        = if s.ringOn die ring then (s.dieWord die (0x393 + 2 * ring)).toNat else 0 := by
  rw [writeRingConfig_enable]
  cases s.ringOn die ring with
  | true =>
    rw [if_pos rfl, if_pos rfl, ← ringWord_succ, State.dieWord_setDieWord, State.dieWord_setDieWord, if_pos ⟨rfl, rfl⟩, if_neg (by simp)]
    exact ⟨rfl, rfl, rfl, rfl⟩
  | false =>
    rw [if_neg Bool.false_ne_true, if_neg Bool.false_ne_true, ptr_setRingPtr, State.setRingPtr, State.dieWord_setDieWord,
      State.dieWord_setDieWord, if_neg (by simp), if_pos ⟨rfl, rfl⟩]
    exact ⟨rfl, rfl, rfl, rfl⟩

/-- What a write of a ring's pointer word leaves. -/
theorem ring_pointed (s : State) (die ring : Nat) (v : Word64) :
    (s.writeRingPtr die ring v).mem = s.mem ∧ (s.writeRingPtr die ring v).warps = s.warps
      ∧ ((s.writeRingPtr die ring v).dieWord die (0x393 + 2 * ring)).toNat =
        if ring = 2 ∨ ring = 3 then
          (if ringCount (s.ringHead die ring) (v.toNat % 2 ^ 32) ≤ s.ringSize die ring then
            s.ringHead die ring * 2 ^ 32 + v.toNat % 2 ^ 32 else (s.dieWord die (0x393 + 2 * ring)).toNat)
        else
          (if ringCount (v.toNat / 2 ^ 32) (s.ringTail die ring) ≤ s.ringSize die ring then
            v.toNat / 2 ^ 32 * 2 ^ 32 + s.ringTail die ring else (s.dieWord die (0x393 + 2 * ring)).toNat) := by
  have rest (head tail : Nat) : (s.setRingPtr die ring head tail).mem = s.mem ∧ (s.setRingPtr die ring head tail).warps = s.warps := ⟨rfl, rfl⟩
  have small := v.isLt
  by_cases drives : ring = 2 ∨ ring = 3
  · have drives' : (ring == 2 || ring == 3) = true := by simpa using drives
    simp only [State.writeRingPtr, drives', if_true, if_pos drives]
    split
    · rw [ptr_setRingPtr, Nat.mod_eq_of_lt (ringHead_lt die ring), Nat.mod_mod]
      exact ⟨rfl, rfl, rfl⟩
    · exact ⟨rfl, rfl, rfl⟩
  · have drives' : (ring == 2 || ring == 3) = false := by simpa using drives
    simp only [State.writeRingPtr, drives', Bool.false_eq_true, if_false, if_neg drives]
    split
    · rw [ptr_setRingPtr, Nat.mod_eq_of_lt (ringTail_lt die ring), Nat.mod_eq_of_lt (show v.toNat / 2 ^ 32 < 2 ^ 32 by omega)]
      exact ⟨rfl, rfl, rfl⟩
    · exact ⟨rfl, rfl, rfl⟩

/-! ### Bytes of a moved page (R181) -/

theorem Tbl.nodup_of_rising {α : Type} {t : Tbl α} (rising : Tbl.rising t = true) : (t.map Prod.fst).Nodup := by
  induction t with
  | nil => exact List.nodup_nil
  | cons p r ih =>
    obtain ⟨rest, above⟩ := (Tbl.rising_cons p r).mp rising
    refine List.nodup_cons.mpr ⟨fun listed => ?_, ih rest⟩
    obtain ⟨q, hq, same⟩ := List.mem_map.mp listed
    have higher := above q hq
    omega

/-- A listed byte is the one that its address reads. -/
theorem Memory.byte_of_mem {x : Memory} (wf : x.wf = true) {c : Host.Cell} (listed : c ∈ x) : x.byte c.1 = c.2 := by
  have rising : Tbl.rising x = true := (Bool.and_eq_true_iff.mp wf).1
  rw [Memory.byte, Tbl.get, Tbl.look_of_mem (Tbl.nodup_of_rising rising) listed]
  rfl

/-- An address that reads no zero is listed. -/
theorem Memory.mem_of_byte {x : Memory} {a : Nat} (byte : x.byte a ≠ 0#8) : (a, x.byte a) ∈ x := by
  cases look : Tbl.look a x with
  | none => exact absurd (show x.byte a = 0#8 by rw [Memory.byte, Tbl.get, look]; rfl) byte
  | some v =>
    obtain ⟨l, r, split, -⟩ := Tbl.look_split look
    have read : x.byte a = v := by rw [Memory.byte, Tbl.get, look]; rfl
    rw [read, split]
    exact List.mem_append_right _ List.mem_cons_self

/-- Bytes set one by one, each at its address. -/
def Memory.sets (x : Memory) (l : List (Nat × Byte)) : Memory := l.foldl (fun m p => m.set p.1 p.2) x

theorem Memory.wf_sets {x : Memory} (wf : x.wf = true) (l : List (Nat × Byte)) : (x.sets l).wf = true :=
  List.foldlRecOn (motive := fun m : Memory => m.wf = true) l _ wf fun m h p _ => Memory.wf_set m p.1 p.2 h

/-- An address reads v where every byte set there is v, and where it read v if none is. -/
theorem Memory.byte_sets {x : Memory} {l : List (Nat × Byte)} {a : Nat} {v : Byte} (given : ∀ p ∈ l, p.1 = a → p.2 = v)
    (other : (∀ p ∈ l, p.1 ≠ a) → x.byte a = v) : (x.sets l).byte a = v := by
  induction l generalizing x with
  | nil => exact other (by simp)
  | cons p r ih =>
    refine ih (x := x.set p.1 p.2) (fun q hq => given q (List.mem_cons_of_mem _ hq)) fun none_ => ?_
    rw [Memory.byte_set]
    split
    next here => exact given p List.mem_cons_self here.symm
    next apart => exact other (List.forall_mem_cons.mpr ⟨Ne.symm apart, none_⟩)

theorem foldl_setMem (at_ : Host.Cell → Nat) (val : Host.Cell → Byte) (l : Memory) (s : State) :
    l.foldl (fun s c => { s with mem := s.mem.set (at_ c) (val c) }) s = { s with mem := s.mem.sets (l.map (fun c => (at_ c, val c))) } := by
  induction l generalizing s with
  | nil => rfl
  | cons c r ih => rw [List.foldl_cons, ih]; rfl

/-- A memory with the frame that a page moves to cleared. -/
def Migration.clear (m : Migration) (x : Memory) : Memory :=
  x.sets ((x.filter (fun c => m.new ≤ c.1 && c.1 < m.new + m.bytes)).map (fun c => (c.1, 0#8)))

/-- A memory with the page's bytes at their new place. -/
def Migration.copy (m : Migration) (x : Memory) : Memory :=
  (m.clear x).sets (((m.clear x).filter (fun c => m.addr c.1 != c.1)).map (fun c => (m.addr c.1, c.2)))

theorem copyPage_eq (s : State) (m : Migration) : ∃ tags, s.copyPage m = { s with mem := m.copy s.mem, tags := tags } := by
  simp only [State.copyPage, foldl_setMem]
  exact ⟨_, rfl⟩

section
variable (m : Migration) (x : Memory)

theorem byte_clear_inside {a : Nat} (inside : m.new ≤ a ∧ a < m.new + m.bytes) : (m.clear x).byte a = 0#8 := by
  refine Memory.byte_sets (fun p hp _ => ?_) fun unlisted => ?_
  · obtain ⟨c, -, rfl⟩ := List.mem_map.mp hp
    rfl
  · by_contra byte
    exact unlisted _ (List.mem_map_of_mem (List.mem_filter.mpr ⟨Memory.mem_of_byte byte, by simpa using inside⟩)) rfl

theorem byte_clear_outside {a : Nat} (outside : ¬ (m.new ≤ a ∧ a < m.new + m.bytes)) : (m.clear x).byte a = x.byte a := by
  refine Memory.byte_sets (fun p hp here => ?_) fun _ => rfl
  obtain ⟨c, hc, rfl⟩ := List.mem_map.mp hp
  have within := (List.mem_filter.mp hc).2
  simp only [Bool.and_eq_true, decide_eq_true_eq] at within
  exact absurd (here ▸ within) outside

/-- The page's bytes stand at their new place. -/
theorem byte_copy {x : Memory} (wf : x.wf = true) (apart : m.old + m.bytes ≤ m.new ∨ m.new + m.bytes ≤ m.old) {q : Nat} (hq : q < m.bytes) :
    (m.copy x).byte (m.new + q) = x.byte (m.old + q) := by
  have old : (m.clear x).byte (m.old + q) = x.byte (m.old + q) := byte_clear_outside m x (by omega)
  have new : (m.clear x).byte (m.new + q) = 0#8 := byte_clear_inside m x (by omega)
  have moves : m.addr (m.old + q) = m.new + q := by
    rw [Migration.addr, if_pos (by simpa using hq)]
    omega
  refine Memory.byte_sets (fun p hp here => ?_) fun unlisted => ?_
  · obtain ⟨c, hc, rfl⟩ := List.mem_map.mp hp
    obtain ⟨listed, moved⟩ := List.mem_filter.mp hc
    have from_ : c.1 = m.old + q := by
      simp only [Migration.addr, bne_iff_ne, ne_eq] at here moved
      split at here
      next inside =>
        simp only [Bool.and_eq_true, decide_eq_true_eq] at inside
        omega
      next outside =>
        rw [if_neg outside] at moved
        exact absurd rfl moved
    rw [← old, ← from_]
    exact (Memory.byte_of_mem (Memory.wf_sets wf _) listed).symm
  · rw [new]
    by_contra byte
    refine unlisted _ (List.mem_map_of_mem (List.mem_filter.mpr ⟨Memory.mem_of_byte (a := m.old + q) ?_, ?_⟩)) moves
    · rw [old]
      exact Ne.symm byte
    · rw [moves, bne_iff_ne]
      omega

end

/-! ### Bytes written elsewhere -/

/-- A cell that none of the written addresses names keeps its byte. -/
theorem byte_physWrite_of_ne {s : State} {pa : Nat} {bs : List Byte} {x : Nat} (apart : ∀ j < bs.length, s.cell? (pa + j) ≠ some x) :
    (s.physWrite pa bs).mem.byte x = s.mem.byte x := by
  induction bs generalizing s pa with
  | nil => rfl
  | cons b r ih =>
    rw [State.physWrite, ih fun j hj => ?_]
    · have first := apart 0 (by simp)
      unfold State.physSet
      split
      next c here =>
        rw [Memory.byte_set, if_neg]
        rintro rfl
        exact first here
      next => rfl
    · rw [cell?_physSet, Nat.add_assoc, Nat.add_comm 1 j]
      exact apart (j + 1) (by simpa using hj)

theorem mem_of_homes {s t : State} (h : t.homes = s.homes) : t.mem = s.mem := congrArg Homes.mem h

theorem mem_place (s : State) (pa : Nat) (bs : List Byte) : (s.place pa bs).mem = (s.physWrite pa bs).mem := by
  obtain ⟨tags, row⟩ := layBytes_row s pa bs 0
  rw [Nat.add_zero] at row
  have same : (s.place pa bs).homes = ({ s.physWrite pa bs with tags := tags } : State).homes := by
    rw [State.place, homes_writeHome, row]
  exact (mem_of_homes same).trans rfl

/-- Without monitors a write at home leaves of the dies all but what their tasks note. -/
theorem die_place {s : State} (silent : ∀ d, (s.die d).monitors = []) (pa : Nat) (bs : List Byte) (d : Nat) :
    ∃ tasks, (s.place pa bs).die d = { s.die d with tasks := tasks } := by
  obtain ⟨cells, place⟩ := place_eq s pa bs
  obtain ⟨mem, tags, laid⟩ := layBytes_eq s (bs.zipIdx.map (fun p => (pa + p.2, p.1)))
  have noted (u : State) : ∃ tasks, (u.noteDirty cells).die d = { u.die d with tasks := tasks } := by
    unfold State.noteDirty
    split
    · rw [die_mapDies, State.die, Tbl.get]
      cases Tbl.look d u.dies <;> exact ⟨_, rfl⟩
    · exact ⟨_, rfl⟩
  have quiet (e : Nat) : (((s.layBytes (bs.zipIdx.map (fun p => (pa + p.2, p.1)))).noteDirty cells).die e).monitors = [] := by
    obtain ⟨f, note, keeps⟩ := noteDirty_eq_mapDies (s.layBytes (bs.zipIdx.map (fun p => (pa + p.2, p.1)))) cells
    rw [note, monitors_mapDies keeps, laid]
    exact silent e
  rw [place, evalMonitors_of_silent quiet]
  obtain ⟨tasks, note⟩ := noted (s.layBytes (bs.zipIdx.map (fun p => (pa + p.2, p.1))))
  exact ⟨tasks, note.trans (by rw [laid]; rfl)⟩

/-! ### A record produced, an entry consumed (R257) -/

section
variable {s : State}

theorem consume_supplied {die ring : Nat} (on : s.ringOn die ring = true) (some_ : s.ringHead die ring ≠ s.ringTail die ring) :
    s.consume die ring = some (leNat (s.physRead (s.ringAddr die ring (s.ringHead die ring)) 8),
      s.setRingPtr die ring (s.ringHead die ring + 1) (s.ringTail die ring)) := by
  rw [State.consume, if_neg (by simp [on, some_])]

theorem consume_empty {die ring : Nat} (empty : ¬ (s.ringOn die ring = true ∧ s.ringHead die ring ≠ s.ringTail die ring)) :
    s.consume die ring = none := by
  rw [State.consume, if_pos]
  rw [Bool.or_eq_true, Bool.not_eq_true', beq_iff_eq]
  by_contra h
  simp only [not_or, Bool.not_eq_false] at h
  exact empty h

/-- The state whose die has passed a record that it wrote, its vector raised where the ring was empty. -/
def State.passRecord (s : State) (die ring : Nat) (empty : Bool) : State :=
  let t := s.setRingPtr die ring (s.ringHead die ring) (s.ringTail die ring + 1)
  if empty then t.raiseMsix ((if ring = 0 then 16 else if ring = 1 then 17 else 18) + 4 * die) else t

theorem passRecord_frame (die ring : Nat) (empty : Bool) : (s.passRecord die ring empty).homes = s.homes ∧ (s.passRecord die ring empty).warps = s.warps
    ∧ ((s.passRecord die ring empty).die die).migrations = (s.die die).migrations
    ∧ ((s.passRecord die ring empty).dieWord die (0x393 + 2 * ring)).toNat
      = s.ringHead die ring * 2 ^ 32 + (s.ringTail die ring + 1) % 2 ^ 32 := by
  have ptr : ((s.setRingPtr die ring (s.ringHead die ring) (s.ringTail die ring + 1)).dieWord die (0x393 + 2 * ring)).toNat
      = s.ringHead die ring * 2 ^ 32 + (s.ringTail die ring + 1) % 2 ^ 32 := by
    rw [ptr_setRingPtr, Nat.mod_eq_of_lt (ringHead_lt die ring)]
  have migrations : ((s.setRingPtr die ring (s.ringHead die ring) (s.ringTail die ring + 1)).die die).migrations
      = (s.die die).migrations := by
    rw [State.setRingPtr, State.setDieWord, State.die_updDie, if_pos rfl]
  cases empty <;> exact ⟨rfl, rfl, migrations, ptr⟩

theorem produce_eq {die ring : Nat} (installed : (s.cell? (s.ringAddr die ring (s.ringTail die ring))).isSome = true) (bytes : List Byte) :
    s.produce die ring bytes = .ok ((s.place (s.ringAddr die ring (s.ringTail die ring)) bytes).passRecord die ring
      (s.ringHead die ring == s.ringTail die ring)) := by
  rw [State.produce, if_neg (by simpa using Option.isSome_iff_ne_none.mp installed)]
  rfl

/-- A record that the die produces where no monitor waits: its bytes stand in the ring and TAIL has passed it. -/
theorem produce_of_silent (silent : ∀ d, (s.die d).monitors = []) (die ring : Nat) (bytes : List Byte)
    (installed : (s.cell? (s.ringAddr die ring (s.ringTail die ring))).isSome = true) :
    ∃ u, s.produce die ring bytes = .ok u ∧ u.homes = (s.place (s.ringAddr die ring (s.ringTail die ring)) bytes).homes
      ∧ u.warps = s.warps ∧ (u.die die).migrations = (s.die die).migrations
      ∧ (u.dieWord die (0x393 + 2 * ring)).toNat = s.ringHead die ring * 2 ^ 32 + (s.ringTail die ring + 1) % 2 ^ 32 := by
  obtain ⟨tasks, placed⟩ := die_place silent (s.ringAddr die ring (s.ringTail die ring)) bytes die
  obtain ⟨warps, -⟩ := place_warps_teams silent (s.ringAddr die ring (s.ringTail die ring)) bytes
  refine ⟨_, produce_eq installed bytes, ?_⟩
  generalize s.place (s.ringAddr die ring (s.ringTail die ring)) bytes = t at placed warps
  have words (n : Nat) : t.dieWord die n = s.dieWord die n := by rw [State.dieWord, placed]; rfl
  have head : t.ringHead die ring = s.ringHead die ring := by rw [State.ringHead, words]; rfl
  have tail : t.ringTail die ring = s.ringTail die ring := by rw [State.ringTail, words]; rfl
  obtain ⟨homes, sameWarps, migrations, ptr⟩ := passRecord_frame (s := t) die ring (s.ringHead die ring == s.ringTail die ring)
  rw [head, tail] at ptr
  exact ⟨homes, sameWarps.trans warps, migrations.trans (by rw [placed]), ptr⟩

end

/-! ### A move starts (R180 to R182) -/

/-- The page of this count may move: MIGTH is reached, the engine is idle, and the leaf is of the die's own HBM, not locked, of 64 KiB or
2 MiB. -/
structure State.Movable (s : State) (die page : Nat) (k : PageCount) (pte e level : Nat) : Prop where
  counted : Tbl.look page (s.die die).pages = some k
  leaf : s.leafOf die k.asid k.va = some (pte, e, level)
  enabled : 0 < s.migth die k.asid
  reached : s.migth die k.asid ≤ k.count
  idle : (s.die die).migrations = []
  placed : bitsOf e 57 56 = 1
  home : bitsOf e 63 60 = die
  kind : bitsOf e 59 58 = 0 ∨ bitsOf e 59 58 = 3
  free : bitOf e 53 = false
  small : 2 ≤ level
  here : leafAddr e level (k.va - k.va % pageBytes level) = page

/-- The ring of free frames of a level's pages. -/
def frameRing (level : Nat) : Nat := if level = 2 then 3 else 2

section
variable {s : State} {die page : Nat} {k : PageCount} {pte e level : Nat} (h : s.Movable die page k pte e level)
include h

/-- Its eligibility fails in no point. -/
theorem movable_eligible : (s.migth die k.asid = 0 || k.count < s.migth die k.asid || !(s.die die).migrations.isEmpty || bitsOf e 57 56 != 1
    || bitsOf e 63 60 != die || !(bitsOf e 59 58 == 0 || bitsOf e 59 58 == 3) || bitOf e 53 || level < 2
    || leafAddr e level (k.va - k.va % pageBytes level) != page) = false := by
  obtain ⟨-, -, enabled, reached, idle, placed, home, kind, free, small, here⟩ := h
  have kinds : (bitsOf e 59 58 == 0 || bitsOf e 59 58 == 3) = true := by simpa using kind
  simp [enabled.ne', reached, idle, placed, home, kinds, free, not_lt.mpr small, here]

/-- The page moves to the frame that the last die's ring supplies; its count restarts where there is none, or no room for the old frame. -/
theorem migrationStart_movable : exec (.migrationStart die page) s = .next (if s.ringRoom die 4 then
      (s.consume k.last (frameRing level)).elim (s.updDie die (fun d => d.resetPage page)) (fun x =>
        if frameOk x.1 k.last (pageBytes level) then x.2.updDie die (fun d => { d with
          migrations := [⟨k.asid, k.va - k.va % pageBytes level, pte, page, x.1, pageBytes level, k.last⟩] }) else x.2)
    else s.updDie die (fun d => d.resetPage page)) := by
  have counted := h.counted
  have leaf := h.leaf
  have eligible := movable_eligible h
  change execMigrationStart die page s = _
  unfold execMigrationStart
  -- the walk becomes a variable: the kernel would run it to compare the two sides
  obtain ⟨walk, named⟩ : ∃ walk, walk = s.leafOf := ⟨_, rfl⟩
  rw [← named] at leaf ⊢
  simp only [counted, leaf, eligible, Bool.false_eq_true, if_false]
  rw [show (if level = 2 then 3 else 2) = frameRing level from rfl]
  cases s.ringRoom die 4 with
  | false => rfl
  | true =>
    cases s.consume k.last (frameRing level) with
    | none => rfl
    | some x =>
      obtain ⟨f, u⟩ := x
      cases ok : frameOk f k.last (pageBytes level) <;> simp [ok]

end

/-- A change of a die that keeps its words. -/
theorem dieWord_updDie_of_words {f : Die → Die} (keeps : ∀ x, (f x).words = x.words) (s : State) (d e n : Nat) :
    (s.updDie d f).dieWord e n = s.dieWord e n := by
  rw [State.dieWord, State.die_updDie]
  split
  next here => rw [keeps, here]; rfl
  next => rfl

section
variable {s : State} {die page : Nat} {k : PageCount} {pte e level : Nat} (h : s.Movable die page k pte e level)
include h

/-- With no room for the old frame, or no new frame, the page's count restarts. -/
theorem migrationStart_held (lacks : s.ringRoom die 4 = false
      ∨ ¬ (s.ringOn k.last (frameRing level) = true ∧ s.ringHead k.last (frameRing level) ≠ s.ringTail k.last (frameRing level))) :
    exec (.migrationStart die page) s = .next (s.updDie die (fun d => d.resetPage page)) := by
  rw [migrationStart_movable h]
  rcases lacks with full | empty
  · rw [full, if_neg Bool.false_ne_true]
  · rw [consume_empty empty]
    split <;> rfl

/-- The die consumes the entry at the last die's HEAD; the page moves where it names a frame there. -/
theorem migrationStart_supplied (room : s.ringRoom die 4 = true) (on : s.ringOn k.last (frameRing level) = true)
    (some_ : s.ringHead k.last (frameRing level) ≠ s.ringTail k.last (frameRing level)) {f : Nat}
    (entry : leNat (s.physRead (s.ringAddr k.last (frameRing level) (s.ringHead k.last (frameRing level))) 8) = f) :
    ∃ u, exec (.migrationStart die page) s = .next u ∧ u.mem = s.mem ∧ u.warps = s.warps
      ∧ (u.dieWord k.last (0x393 + 2 * frameRing level)).toNat
        = (s.ringHead k.last (frameRing level) + 1) % 2 ^ 32 * 2 ^ 32 + s.ringTail k.last (frameRing level)
      ∧ (u.die die).migrations = if frameOk f k.last (pageBytes level) then
          [⟨k.asid, k.va - k.va % pageBytes level, pte, page, f, pageBytes level, k.last⟩] else [] := by
  have pointer := ptr_setRingPtr (s := s) k.last (frameRing level) (s.ringHead k.last (frameRing level) + 1)
    (s.ringTail k.last (frameRing level))
  rw [Nat.mod_eq_of_lt (ringTail_lt k.last (frameRing level))] at pointer
  have idle : ((s.setRingPtr k.last (frameRing level) (s.ringHead k.last (frameRing level) + 1)
      (s.ringTail k.last (frameRing level))).die die).migrations = [] := by
    refine Eq.trans ?_ h.idle
    rw [State.setRingPtr, State.setDieWord, State.die_updDie]
    split
    next same => rw [same]
    next => rfl
  refine ⟨_, migrationStart_movable h, ?_⟩
  rw [if_pos room, consume_supplied on some_, entry, Option.elim_some]
  split
  · refine ⟨rfl, rfl, ?_, by rw [State.die_updDie, if_pos rfl]⟩
    refine (congrArg BitVec.toNat (dieWord_updDie_of_words (fun _ => ?_) _ _ _ _)).trans pointer
    rfl
  · exact ⟨rfl, rfl, pointer, idle⟩

end

theorem frameOk_iff (f die size : Nat) : frameOk f die size = true ↔
    f / 2 ^ 52 = 0 ∧ f / 2 ^ 48 % 16 = 1 ∧ f / 2 ^ 44 % 16 = die ∧ f % size = 0 ∧ f % 2 ^ 44 + size ≤ 64 * 10 ^ 9 := by
  simp only [frameOk, Bool.and_eq_true, beq_iff_eq, decide_eq_true_eq, and_assoc]
  exact .rfl

/-! ### A move ends (R181) -/

theorem freeMonitors_of_silent {s : State} (silent : ∀ d, (s.die d).monitors = []) (p : Monitor → Bool) : s.freeMonitors p = s := by
  unfold State.freeMonitors
  generalize List.range 9 = l
  induction l with
  | nil => rfl
  | cons d r ih => rw [List.foldl_cons, silent d]; exact ih

theorem moveMonitors_of_silent {s : State} (silent : ∀ d, (s.die d).monitors = []) (die : Nat) (m : Migration) : s.moveMonitors die m = s := by
  simp only [State.moveMonitors, silent, freeMonitors_of_silent silent]
  rfl

/-- The state with a page's bytes at their new place. -/
def State.copied (s : State) (m : Migration) : State := { s with mem := m.copy s.mem }

/-- The state once a page has moved, its old frame not yet returned: the copy, the leaf, the shootdown, the stalled writes. -/
def State.moved (s : State) (die page : Nat) (m : Migration) (leaf : Nat) : State :=
  ((((s.copyPage m).physWrite m.pte (natLe 8 leaf)).dropRange ⟨m.asid, m.page / 65536, some (m.bytes / 65536)⟩).retarget m).updDie die
    (fun d => { d with migrations := d.migrations.filter (fun x => x.old != page) })

/-- The leaf of a page at its new place. -/
def Migration.leaf (m : Migration) (e : Nat) : Nat := setBits (setBits e 63 60 m.toDie) 47 16 (m.new % 2 ^ 44 / 65536)

section
variable (s : State) (die page : Nat) (m : Migration) (leaf : Nat)

theorem copied_eq : ∃ tags, (s.copyPage m).physWrite m.pte (natLe 8 leaf)
    = { s with mem := ((s.copied m).physWrite m.pte (natLe 8 leaf)).mem, tags := tags } := by
  obtain ⟨tags, copied⟩ := copyPage_eq s m
  refine ⟨tags, ?_⟩
  have written := physWrite_withTags (s.copied m) tags m.pte (natLe 8 leaf)
  rw [copied]
  refine written.trans ?_
  rw [State.physWrite_eq (s.copied m)]
  rfl

theorem moved_frame : (s.moved die page m leaf).warps = s.warps ∧ (s.moved die page m leaf).words = s.words
    ∧ (s.moved die page m leaf).ports = s.ports
    ∧ (s.moved die page m leaf).mem = ((s.copied m).physWrite m.pte (natLe 8 leaf)).mem := by
  obtain ⟨tags, copied⟩ := copied_eq s m leaf
  rw [State.moved, copied]
  generalize (State.physWrite _ m.pte (natLe 8 leaf)).mem = x
  exact ⟨rfl, rfl, rfl, rfl⟩

theorem die_moved (d : Nat) : (s.moved die page m leaf).die d = if d = die then
      { (s.die die).without ⟨m.asid, m.page / 65536, some (m.bytes / 65536)⟩ with
        migrations := (s.die die).migrations.filter (fun x => x.old != page) }
    else (s.die d).without ⟨m.asid, m.page / 65536, some (m.bytes / 65536)⟩ := by
  obtain ⟨tags, copied⟩ := copied_eq s m leaf
  have kept (e : Nat) : ((((s.copyPage m).physWrite m.pte (natLe 8 leaf)).dropRange
      ⟨m.asid, m.page / 65536, some (m.bytes / 65536)⟩).retarget m).die e
      = (s.die e).without ⟨m.asid, m.page / 65536, some (m.bytes / 65536)⟩ := by
    refine (die_dropRange _ e).trans ?_
    rw [copied]
    rfl
  rw [State.moved, State.die_updDie, kept, kept]
  rfl

theorem dieWord_moved (d n : Nat) : (s.moved die page m leaf).dieWord d n = s.dieWord d n := by
  rw [State.dieWord, die_moved]
  split
  next here => rw [here]; rfl
  next => rfl

theorem monitors_moved {d : Nat} : ((s.moved die page m leaf).die d).monitors = (s.die d).monitors := by
  rw [die_moved]
  split
  next here => rw [here]; rfl
  next => rfl

end

section
variable {s : State} {die page : Nat} {m : Migration} (moving : (s.die die).migrations = [m]) (here : m.old = page)
include moving here

theorem found_moving : (s.die die).migrations.find? (fun x => x.old == page) = some m := by
  rw [moving, List.find?_cons_of_pos (by simpa using here)]

theorem none_moving : (s.die die).migrations.filter (fun x => x.old != page) = [] := by
  rw [moving, List.filter_cons_of_neg (by simp [here]), List.filter_nil]

/-- A page whose leaf is found locked stays. -/
theorem migrationComplete_locked (locked : bitOf (leNat (s.physRead m.pte 8)) 53 = true) :
    exec (.migrationComplete die page) s
      = .next (s.updDie die (fun d => { d with migrations := d.migrations.filter (fun x => x.old != page) })) := by
  change execMigrationComplete die page s = _
  simp only [execMigrationComplete, found_moving moving here, locked, if_true]

theorem migrationComplete_moved (free : bitOf (leNat (s.physRead m.pte 8)) 53 = false) (room : s.ringRoom die 4 = true)
    (silent : ∀ d, (s.die d).monitors = []) {u : State}
    (returned : (s.moved die page m (m.leaf (leNat (s.physRead m.pte 8)))).produce die 4
      (natLe 8 (m.old + (if m.bytes = 2 ^ 21 then 1 else 0))) = .ok u) :
    exec (.migrationComplete die page) s = .next (u.updDie die (fun d => d.resetPage page)) := by
  have quiet (d : Nat) : (((((s.copyPage m).physWrite m.pte (natLe 8 (m.leaf (leNat (s.physRead m.pte 8))))).dropRange
      ⟨m.asid, m.page / 65536, some (m.bytes / 65536)⟩).retarget m).die d).monitors = [] := by
    obtain ⟨tags, copied⟩ := copied_eq s m (m.leaf (leNat (s.physRead m.pte 8)))
    refine (congrArg Die.monitors (die_dropRange _ d)).trans ?_
    rw [copied]
    exact silent d
  change execMigrationComplete die page s = _
  rw [State.moved, Migration.leaf] at returned
  rw [Migration.leaf] at quiet
  simp only [execMigrationComplete, found_moving moving here, free, room, moveMonitors_of_silent quiet, returned, Bool.false_eq_true,
    if_false, Bool.not_true]

end

/-! ### What has moved (R181) -/

/-- Bytes are read from memory by the words and ports that place them. -/
theorem physRead_congr {s t : State} (mem : t.mem = s.mem) (words : t.words = s.words) (ports : t.ports = s.ports) (a n : Nat) :
    t.physRead a n = s.physRead a n := by
  simp only [State.physRead, State.physByte, cell?_congr words ports, mem]

/-- n bytes whose cells nothing of a write names read as before. -/
theorem physRead_of_keeps {s t : State} {pa n a k : Nat} (keeps : KeepsBytes s t pa n)
    (apart : ∀ i < k, ∀ j < n, s.cell? (a + i) ≠ s.cell? (pa + j)) : t.physRead a k = s.physRead a k :=
  List.map_congr_left fun i hi => keeps (a + i) fun j hj => apart i (List.mem_range.mp hi) j hj

/-- Bytes in cells of their own, none of them in a page that moves or in its new frame. -/
def State.ClearOf (s : State) (m : Migration) (pa n : Nat) : Prop :=
  s.Apart pa n ∧ ∀ j < n, ∀ x, s.cell? (pa + j) = some x →
    ¬ (m.new ≤ x ∧ x < m.new + m.bytes) ∧ ¬ (m.old ≤ x ∧ x < m.old + m.bytes)

theorem ne_of_clearOf {s : State} {m : Migration} {pa n : Nat} (clear : s.ClearOf m pa n) {j : Nat} (hj : j < n) {q : Nat} (hq : q < m.bytes) :
    s.cell? (pa + j) ≠ some (m.new + q) :=
  fun cell => (clear.2 j hj _ cell).1 (by omega)

theorem apart_congr {s t : State} (cells : ∀ a, t.cell? a = s.cell? a) {pa n : Nat} (apart : s.Apart pa n) : t.Apart pa n := by
  simpa only [State.Apart, cells] using apart

theorem setBits_lt {v hi lo n : Nat} (x : Nat) (field : lo ≤ hi + 1) (inside : hi < n) (small : v < 2 ^ n) : setBits v hi lo x < 2 ^ n := by
  refine Nat.lt_pow_two_of_testBit _ fun i hi' => ?_
  rw [testBit_setBits _ _ _ _ _ field, if_neg (by omega)]
  exact Nat.testBit_lt_two_pow (small.trans_le (Nat.pow_le_pow_right (by decide) hi'))

theorem leNat_leaf (m : Migration) {e : Nat} (small : e < 2 ^ 64) : leNat (natLe 8 (m.leaf e)) = m.leaf e := by
  rw [leNat_natLe]
  exact Nat.mod_eq_of_lt (setBits_lt _ (by decide) (by decide) (setBits_lt _ (by decide) (by decide) small))

/-- The page's bytes stand in the new frame, its leaf names them and its old frame is returned. -/
theorem moved_returned {s : State} {die page : Nat} {m : Migration} (leaf back : Nat) (silent : ∀ d, (s.die d).monitors = [])
    (wf : s.mem.wf = true) (frames : m.old + m.bytes ≤ m.new ∨ m.new + m.bytes ≤ m.old) (pte : s.ClearOf m m.pte 8)
    (ret : s.ClearOf m (s.ringAddr die 4 (s.ringTail die 4)) 8)
    (distinct : ∀ i < 8, ∀ j < 8, s.cell? (m.pte + i) ≠ s.cell? (s.ringAddr die 4 (s.ringTail die 4) + j)) :
    ∃ u, (s.moved die page m leaf).produce die 4 (natLe 8 back) = .ok u ∧ u.warps = s.warps
      ∧ (u.die die).migrations = (s.die die).migrations.filter (fun x => x.old != page)
      ∧ (∀ q < m.bytes, u.mem.byte (m.new + q) = s.mem.byte (m.old + q))
      ∧ u.physRead (s.ringAddr die 4 (s.ringTail die 4)) 8 = natLe 8 back ∧ u.physRead m.pte 8 = natLe 8 leaf
      ∧ (u.dieWord die 0x39B).toNat = s.ringHead die 4 * 2 ^ 32 + (s.ringTail die 4 + 1) % 2 ^ 32 := by
  obtain ⟨warps, words, ports, mem⟩ := moved_frame s die page m leaf
  have cells : ∀ a, (s.moved die page m leaf).cell? a = s.cell? a := cell?_congr words ports
  have quiet (d : Nat) : ((s.moved die page m leaf).die d).monitors = [] := (monitors_moved ..).trans (silent d)
  have dieWords := dieWord_moved s die page m leaf
  have migrations := congrArg Die.migrations ((die_moved s die page m leaf die).trans (if_pos rfl))
  generalize s.moved die page m leaf = t at *
  have head : t.ringHead die 4 = s.ringHead die 4 := by simp only [State.ringHead, dieWords]
  have tail : t.ringTail die 4 = s.ringTail die 4 := by simp only [State.ringTail, dieWords]
  have addr : t.ringAddr die 4 (t.ringTail die 4) = s.ringAddr die 4 (s.ringTail die 4) := by
    rw [tail]
    simp only [State.ringAddr, State.ringSize, dieWords]
  have apart : t.Apart (s.ringAddr die 4 (s.ringTail die 4)) 8 := apart_congr cells ret.1
  have installed : (t.cell? (t.ringAddr die 4 (t.ringTail die 4))).isSome = true := by
    obtain ⟨x, first, -⟩ := apart 0 (by decide)
    rw [Nat.add_zero] at first
    rw [addr, first]
    rfl
  obtain ⟨u, produced, homes, sameWarps, kept, ptr⟩ := produce_of_silent quiet die 4 (natLe 8 back) installed
  rw [addr] at homes
  rw [head, tail] at ptr
  have length : (natLe 8 back).length = 8 ∧ (natLe 8 leaf).length = 8 := ⟨length_natLe .., length_natLe ..⟩
  have copied (q : Nat) (hq : q < m.bytes) : u.mem.byte (m.new + q) = s.mem.byte (m.old + q) := by
    have elsewhere : ∀ j < (natLe 8 back).length, t.cell? (s.ringAddr die 4 (s.ringTail die 4) + j) ≠ some (m.new + q) := by
      intro j hj
      rw [cells]
      exact ne_of_clearOf ret (hj.trans_eq length.1) hq
    have elsewhere' : ∀ j < (natLe 8 leaf).length, (s.copied m).cell? (m.pte + j) ≠ some (m.new + q) :=
      fun j hj => ne_of_clearOf (s := s) pte (hj.trans_eq length.2) hq
    rw [mem_of_homes homes, mem_place, byte_physWrite_of_ne elsewhere, mem, byte_physWrite_of_ne elsewhere']
    exact byte_copy m wf frames hq
  have returned : u.physRead (s.ringAddr die 4 (s.ringTail die 4)) 8 = natLe 8 back := by
    have read := physRead_place quiet (bs := natLe 8 back) (length.1.symm ▸ apart)
    rw [length.1] at read
    exact (physRead_of_homes homes _ _).trans read
  have mapped : u.physRead m.pte 8 = natLe 8 leaf := by
    have keeps := keeps_place quiet (s.ringAddr die 4 (s.ringTail die 4)) (natLe 8 back)
    have read := physRead_physWrite (s := s.copied m) (pa := m.pte) (bs := natLe 8 leaf) (length.2.symm ▸ pte.1)
    have same : t.physRead m.pte 8 = ((s.copied m).physWrite m.pte (natLe 8 leaf)).physRead m.pte 8 :=
      physRead_congr mem (by rw [State.physWrite_eq]; exact words) (by rw [State.physWrite_eq]; exact ports) _ _
    rw [length.1] at keeps
    rw [length.2] at read
    rw [physRead_of_homes homes, physRead_of_keeps keeps, same, read]
    intro i hi j hj
    rw [cells, cells]
    exact distinct i hi j hj
  exact ⟨u, produced, sameWarps.trans warps, kept.trans migrations, copied, returned, mapped, ptr⟩

theorem rangeOf_eq (w : Word64) : rangeOf w =
    ⟨w.toNat / 2 ^ 52 % 256, w.toNat / 2 ^ 8 % 2 ^ 40
      - w.toNat / 2 ^ 8 % 2 ^ 40 % (shootPages (w.toNat / 2 ^ 60 % 4)).getD 1, shootPages (w.toNat / 2 ^ 60 % 4)⟩ := rfl

/-- Settles O49: each event by what it leaves of its words, a page by the bytes, the leaf and the record that stand once it has moved. -/
theorem translationAndRings : Obligations.TranslationAndRings := by
  intro s v die ring page k pte e level m shoot range meets conf ptr size count head tail at_ bytes free frame good room supply leaf ret
    apart fields
  have inRange : range = rangeOf s.shoot := by
    have code : s.shoot.toNat / 2 ^ 60 % 4 < 4 := Nat.mod_lt _ (by decide)
    rw [rangeOf_eq]
    simp only [range]
    generalize s.shoot.toNat / 2 ^ 60 % 4 = z at code
    interval_cases z <;> rfl
  have hHead (d r : Nat) : head d r = s.ringHead d r := (ringHead_eq d r).symm
  have hTail (d r : Nat) : tail d r = s.ringTail d r := (ringTail_eq d r).symm
  have hSize (d r : Nat) : size d r = s.ringSize d r := rfl
  have hAddr (d r i : Nat) (frames : ¬ r < 2) : at_ d r i = s.ringAddr d r i := by
    simp only [at_, State.ringAddr, ringBytes, if_neg frames]
    rfl
  have hRoom : room ↔ s.ringRoom die 4 = true := by
    rw [ringRoom_iff, ← hHead, ← hTail, ← hSize]
    rfl
  refine ⟨shootdownStart_ignored v, ?start, ?complete, ?rings, ?moves, ?moved⟩
  case start =>
    intro idle awake
    have bits := getLsbD_shootStarted shoot v
    exact ⟨_, _, shootdownStart_idle v idle awake, bits 63, bits 62, ⟨extract_shootStarted _ v (by omega), extract_shootStarted _ v (by omega)⟩,
      extract_shootMerged _ v (by omega), extract_shootMerged _ v (by omega)⟩
  case complete =>
    intro busy reads writes
    rw [inRange] at reads writes
    refine ⟨_, shootdownComplete_quiet busy reads writes, rfl, rfl, fun b _ => ?_, fun d c => ?_, fun d => ?_⟩
    · rw [State.word_setWord, if_pos rfl]
      exact getLsbD_shootDone shoot b
    · simp only [meets, inRange]
      exact congrArg Core.tlb (core_dropRange _ d c)
    · simp only [meets, inRange]
      exact congrArg Die.walkCache (die_dropRange _ d)
  case rings =>
    intro hd hr awake
    constructor
    · obtain ⟨mem, warps, config, pointer⟩ := ring_enabled s die ring v
      refine ⟨_, serviceRingEnable_awake hd hr awake v, mem, warps, ?_, fun b low high => ?_, pointer⟩
      · exact (congrArg (fun w : Word64 => w.getLsbD 0) config).trans (getLsbD_ringMerged _ _ (.inl rfl))
      · refine (congrArg (fun w : Word64 => w.getLsbD b) config).trans ?_
        exact (getLsbD_ringMerged _ _ (.inr (by omega))).trans (if_neg (by omega))
    · obtain ⟨mem, warps, pointer⟩ := ring_pointed s die ring v
      refine ⟨_, serviceRingPointerWrite_awake hd hr awake v, mem, warps, ?_⟩
      rw [hHead, hTail]
      exact pointer
  case moves =>
    intro counted mapped enabled reached idle placed home kind unlocked small here
    have hBytes : pageBytes level = bytes := by rw [pageBytes, if_neg (by omega)]
    have movable : s.Movable die page k pte e level :=
      ⟨counted, mapped, enabled, reached, idle, placed, home, kind, by rw [bitOf, unlocked]; rfl, small, by rw [hBytes]; exact here⟩
    have hSupply : supply ↔ s.ringOn k.last (frameRing level) = true
        ∧ s.ringHead k.last (frameRing level) ≠ s.ringTail k.last (frameRing level) := by
      rw [ringOn_iff, ← hHead, ← hTail]
      rfl
    refine ⟨fun lacks => migrationStart_held movable (lacks.imp (fun h => ?_) hSupply.not.mp), fun hasRoom supplied => ?_⟩
    · exact Bool.eq_false_iff.mpr (hRoom.not.mp h)
    · obtain ⟨on, some_⟩ := hSupply.mp supplied
      have entry : leNat (s.physRead (s.ringAddr k.last (frameRing level) (s.ringHead k.last (frameRing level))) 8) = frame := by
        rw [← hHead, ← hAddr _ _ _ (by rw [frameRing]; split <;> decide)]
        rfl
      obtain ⟨u, starts, mem, warps, pointer, migrations⟩ := migrationStart_supplied movable (hRoom.mp hasRoom) on some_ entry
      have hGood : frameOk frame k.last (pageBytes level) = true ↔ good := by rw [frameOk_iff, hBytes]
      refine ⟨u, starts, mem, warps, ?_, fun frame_ => ?_, fun none_ => ?_⟩
      · rw [hHead, hTail]
        exact pointer
      · rw [migrations, if_pos (hGood.mpr frame_), hBytes]
      · rw [migrations, if_neg (hGood.not.mpr none_)]
  case moved =>
    intro moving here
    constructor
    · intro locked
      refine ⟨_, migrationComplete_locked moving here (by rw [bitOf]; exact beq_iff_eq.mpr locked), rfl, ?_⟩
      rw [State.die_updDie, if_pos rfl]
      exact none_moving moving here
    · intro unlocked hasRoom wf silent _ frames clearPte clearRet distinct
      have hRet : ret = s.ringAddr die 4 (s.ringTail die 4) := by
        rw [← hTail]
        exact hAddr die 4 _ (by decide)
      rw [hRet] at clearRet distinct
      obtain ⟨u, returned, warps, migrations, moved, record, mapped, pointer⟩ := moved_returned (page := page) (m.leaf leaf)
        (m.old + (if m.bytes = 2 ^ 21 then 1 else 0)) silent wf frames clearPte clearRet distinct
      have unlocked' : bitOf leaf 53 = false := by rw [bitOf, unlocked]; rfl
      refine ⟨_, migrationComplete_moved moving here unlocked' (hRoom.mp hasRoom) silent returned, warps, ?_, moved, ?_, ?_, ?_, ?_⟩
      · rw [State.die_updDie, if_pos rfl]
        exact migrations.trans (none_moving moving here)
      · rw [hRet]
        exact record
      · refine (congrArg leNat mapped).trans (leNat_leaf m ?_)
        exact leNat_physRead_lt s m.pte 8
      · rw [hHead, hTail]
        refine (congrArg BitVec.toNat (dieWord_updDie_of_words (fun _ => ?_) u die die 0x39B)).trans pointer
        rfl
      · rw [State.die_updDie, if_pos rfl]
        exact (Tbl.look_del ..).trans (if_pos rfl)

end Sys2Proof.Machine
